-- ==== Sys2Proof/Word.lean ====
section
/-! DEFINITION. Word types shared by every file of the model, and the shape of its tables. -/

set_option Elab.async false

namespace Sys2Proof

/-- A byte (R7: byte 0 is the lowest address). -/
abbrev Byte := BitVec 8

/-- A string of bytes, lowest address first. -/
abbrev Bytes := List Byte

/-- The bits of an IEEE 754 binary32 value. -/
abbrev F32 := BitVec 32

/-- The bits of an IEEE 754 binary16 value. -/
abbrev F16 := BitVec 16

/-- The bits of a bfloat16 value: the upper half of a binary32 (03, "Interchange formats"). -/
abbrev BF16 := BitVec 16

/-- A sparse table: keys strictly rising, no entry equal to the table's default. -/
abbrev Tbl (α : Type) := List (Nat × α)

end Sys2Proof
end

