-- ==== Sys2Proof/Syntax.lean ====
section
/-! DEFINITION. The commands of the LM1: one constructor of `Instr` for each row of the table of operations and events,
with the row's operands as the manual's tables give them. The table gives no row any bits. -/

set_option Elab.async false

namespace Sys2Proof

/-- The four Aftlink ports (13, introduction). -/
inductive Port where
  | h | t | u | d
deriving DecidableEq, Repr

/-- The rings of Table 11-1. -/
inductive RingId where
  /-- management ring -/
  | mq
  /-- event ring -/
  | eq
  /-- submission ring `k` of partition `p` -/
  | sq (p k : Nat)
  /-- completion ring of partition `p` -/
  | cq (p : Nat)
  /-- token-out ring of partition `p` -/
  | tq (p : Nat)
deriving DecidableEq, Repr

/-- A descriptor as it is fetched (R233): its 64 bytes as one little-endian number, and what the host's memory answers
when the operation reads its extension and its buffer. -/
structure Fetch where
  ring : RingId
  word : BitVec 512
  ext : Bytes
  extFault : Bool
  buf : Bytes
  bufFault : Bool
  /-- further buffers, as the examples of a TUNE (Table 11-6) -/
  bufs : List Bytes
deriving DecidableEq, Repr

/-- One access of the register window (R403): offset, size in bytes and value; a read offers none. The table has no row of its own for
reads: they come by the register's row (DESIGN CHOICE, log 185). -/
structure RegAccess where
  off : Nat
  size : Nat
  value : BitVec 64
  read : Bool := false
deriving DecidableEq, Repr

/-- The flit header (Table 13-3) of a flit received; the type is the row's. -/
structure FlitHdr where
  port : Port
  channel : BitVec 2
  seq : BitVec 12
  ack : BitVec 12
  ackValid : Bool
  creditCh : BitVec 2
  credits : BitVec 6
  words : BitVec 8
  /-- a word's parity fails on its way from the port to its consumer (R270) -/
  torn : Bool := false
deriving DecidableEq, Repr

/-- The update parameters of a TUNE and what it trains on (Table 11-6, R213): FP32 parameters, the number of steps, and the examples with
their target bitmaps, as position 0 has read them from the host (that later positions learn them with the call's entry is the model's
choice, log 165). -/
structure TuneParams where
  lr : F32 := 0
  beta1 : F32 := 0
  beta2 : F32 := 0
  eps : F32 := 0
  steps : Nat := 0
  examples : List (Nat × Bytes) := []
deriving DecidableEq, Repr

/-- A block of 32 elements with its scale code (Table 03-2). -/
structure Block where
  scale : Nat
  codes : List Int
deriving DecidableEq, Repr

/-- The call, step and token that work serves: call-sheet index, step counter, token within the step. -/
structure WorkRef where
  call : Nat
  step : Nat
  token : Nat
deriving DecidableEq, Repr

/-- Names one column tile of one matrix product of one step. -/
structure SumKey where
  work : WorkRef
  matrix : Nat
  colTile : Nat
deriving DecidableEq, Repr

/-- An input vector as its special-function unit forms it, before its outliers leave it and its blocks are quantised (R59, R61):
the matrix whose handoff forms it, or the embedding; whether it is quantised as A8; its elements. The manual gives the unit's
functions no formula, so the elements come with the command. -/
structure VecIn where
  source : Nat
  a8 : Bool
  values : List F32
deriving DecidableEq, Repr

/-- A product's input vector reaching a tile (R28 to R30, R62, R73): the column tile, the row tile, and the index of the placed
transfer it needs (R19; 0: none). A transposed product's key numbers the row tile of its outputs from 65,536, and its `rowTile` is
the column tile that it drives. The span itself is the activation buffer's. -/
structure ProductReq where
  key : SumKey
  rowTile : Nat
  transposed : Bool
  needs : Nat
deriving DecidableEq, Repr

/-- A read of one lattice block as the memory answers: which bits of the block's 8 words, its column parity word, its
row parity byte and its column parity bit differ from what was stored (R290, R291); of HBM, whether the stack's own on-die ECC reported
a correction beneath it (R307). -/
structure Flips where
  word : List (Nat × BitVec 64)
  colpar : BitVec 64
  rowpar : BitVec 8
  cppar : Bool
  onDie : Bool := false
deriving DecidableEq, Repr

/-- A read of an SRAM block whose bits differ from what was stored (R290, R302): the die, 4 for the hub; the macro, and the block in
it; its store class, the row of Table 14-4, by what the block holds; and whether the word that the read corrects has been written since
an earlier correction of it. The manual places nothing in the macros, so place, class and writing come with the read. -/
structure SramRead where
  die : Nat
  macro_ : Nat
  block : Nat
  cls : Nat
  flips : Flips
  written : Bool
deriving DecidableEq, Repr

/-- A read of one block of a master slot: the block's number in the slot, the first copy as it is read, and the second copy, read
when the first is uncorrectable (R296). -/
structure BlockRead where
  block : Nat
  first : Flips
  second : Flips
deriving DecidableEq, Repr

/-- The zero read and the injection reads of one tile (Table 06-3): the code of each slice with no row driven, and with the charge of
codes +96 and -96 injected. -/
structure SliceReads where
  tile : Nat
  zero : List Int
  injPos : List Int
  injNeg : List Int
deriving DecidableEq, Repr

/-- What a clapper phase is run for: the check of R309 and R25, or a fit phase, forward or transposed (Table 06-3). -/
inductive ClapperUse where
  | check
  | fit
  | fitTransposed
deriving DecidableEq, Repr

/-- What the verify read after a program step found in the row (02, "Programming"). -/
structure ProgRead where
  /-- verify codes of the row's 1,072 cells, 1/8 level (Table 02-7): column `c` has its positive cell at 2c and its negative cell
  at 2c + 1; columns 0-511 weight, 512-527 spare, 528-535 reference -/
  codes : List Nat
  /-- a row driver or the deck select failed (R40) -/
  driver : Bool
deriving DecidableEq, Repr

/-- A unit that runs slates (Table 15-3). -/
inductive SlateUnit where
  | bough (b : Nat)
  | pipe (engine pipe : Nat)
  | lane (l : Nat)
  | graft
  | matte
  | conversion
deriving DecidableEq, Repr

/-- A regulator's answer to STATUS_WORD (R363): address, page, word, and whether it is a warning or a fault. -/
structure RegStatus where
  addr : Nat
  page : Nat
  word : BitVec 16
  warning : Bool
  fault : Bool
deriving DecidableEq, Repr

/-- Attention work of the engines (R165, R168, R174, R177), each whole: the append of a token's heads, the attention of one query
token, one block of a row, forward or backward. -/
inductive AttnCmd where
  | append (work : WorkRef) (layer t : Nat) (k v : List (List F32))
  | taproot (work : WorkRef) (layer : Nat) (q : List (List F32)) (flips : List (Nat × Nat × Nat × Flips))
  | canopy (lane : Nat) (work : WorkRef) (layer group rowTile : Nat) (q : List (List (List F32)))
      (flips : List (Nat × Nat × Nat × Flips))
  | backward (lane : Nat) (work : WorkRef) (layer group rowTile : Nat) (flips : List (Nat × Nat × Nat × Flips))
deriving DecidableEq, Repr

/-- The contents of a CALL_CTRL flit (Table 13-5, R317, R213, R264). -/
inductive CallMsg where
  /-- admission of a call's entry, with the 128 bytes of Table 09-1; what a TUNE's position needs to train; the tag of the held
  call that a continuation reuses (R184) -/
  | admitCall (entry : Bytes) (tune : Option TuneParams) (held : Option Nat)
  /-- the call has ended or been released with a status code -/
  | ended (p tag status : Nat)
  | cancel (p tag : Nat)
  /-- discard the attempt at a step and wait for new input (R317) -/
  | restep (p tag step : Nat)
  /-- a position's report of a graft for a TUNE: position, rank, entry_count, body_length; unregistered when `ok` is false -/
  | tuneReport (p tag pos rank entries bodyLen : Nat) (ok : Bool)
  /-- the call's deadline has passed on position 0's counter: the last position ends it (R196) -/
  | overdue (p tag : Nat)
  /-- a later position's tuned bodies -/
  | tuneSection (p tag pos : Nat) (body : Bytes)
deriving DecidableEq, Repr

/-- The contents of a CUT_CTRL flit (R146, R148). -/
inductive CutMsg where
  /-- the epoch opens with a generation -/
  | epoch (e image : Nat)
  /-- a position has armed its take to a generation -/
  | armed (pos image : Nat)
  | aborted (pos image : Nat)
  | switched (pos image : Nat)
deriving DecidableEq, Repr

/-- A premium journal record (Table 13-9). -/
inductive JournalRec where
  | entry (p tag off : Nat) (bytes : Bytes)
  | prompt (p tag : Nat) (tokens : List Nat)
  | kv (p tag layer page slot : Nat) (heads : List (Bytes × Bytes × Bytes × Bytes))
  | matte (p tag st : Nat)
  | stepMark (p tag step : Nat) (tokens : List Nat)
  | ended (p tag status : Nat) (broken : Bool)
deriving DecidableEq, Repr

/-- One item of an ACTIVATION flit: partition, tag, step, matrix fed, token and blocks (R146); the marks that the step carries so
far (R81, R92, R151): bit 0 unbounded, bit 1 tier, bit 2 non-finite. -/
structure ActItem where
  p : Nat
  tag : Nat
  step : Nat
  token : Nat
  matrix : Nat
  blocks : List Block
  premium : Bool
  marks : Nat
deriving DecidableEq, Repr

/-- The running sums of one column tile of a split matrix (R79): token, matrix, column tile, retry count (R82) and save records. -/
structure SumItem where
  token : Nat
  matrix : Nat
  colTile : Nat
  retry : Nat
  records : List (BitVec 64)
deriving DecidableEq, Repr

/-- The contents of a RETAKE_REQ (R282): the position's input is activation vectors or running sums. -/
structure RetakeReq where
  p : Nat
  tag : Nat
  step : Nat
  image : Nat
  epoch : Nat
  input : List ActItem
  sums : List SumItem
deriving DecidableEq, Repr

/-- A retake's result (R282): appends, output vectors (running sums for a split matrix) and committed tokens. -/
structure RetakeResult where
  appends : List JournalRec
  output : List ActItem
  sums : List SumItem
  tokens : List Nat
deriving DecidableEq, Repr

/-- The contents of an IMAGE flit, segments assembled (R139). -/
inductive ImageMsg where
  | manifest (bytes : Bytes)
  | chunk (bytes : Bytes)
deriving DecidableEq, Repr

/-- The heartbeat states of R278. -/
inductive HbState where
  | serving | adopting | hold
deriving DecidableEq, Repr

/-- The JTAG instructions of R401. -/
inductive JtagOp where
  | bypass | idcode | sample | extest | extestPulse | extestTrain
  /-- any other code of the 8-bit instruction register -/
  | other (code : BitVec 8)
deriving DecidableEq, Repr

/-- A wake event of R369. -/
inductive WakeEvent where
  /-- a DOORBELL flit for a submission ring of a partition -/
  | doorbell (p : Nat)
  /-- a flit on port U or D -/
  | relayFlit
  | retakeReq
  /-- a management descriptor that needs the arrays -/
  | arrayDescriptor
  | powerD0
  /-- signal detect on a receiver lane -/
  | signal (port : Port)
deriving DecidableEq, Repr

/-- A product that is issued: its request, and the vector that enters the step's activation buffer with its first use. -/
structure ProductIn where
  req : ProductReq
  vec : Option VecIn
deriving DecidableEq, Repr

/-- A clapper phase: its codes, and what it is run for. -/
structure ClapperIn where
  codes : List Int
  use : ClapperUse
deriving DecidableEq, Repr

/-- The reads of an outlier row: the blocks that hold flipped bits, every other one being clean, and the SRAM blocks found with
flipped bits on the way (R298, R302). -/
structure RowReads where
  hbm : List BlockRead
  sram : List SramRead
deriving DecidableEq, Repr

/-- The reads of a bough sum: product and block of the master reads of terms formed on the slower tier (R75), and the SRAM blocks found
with flipped bits. -/
structure SumReads where
  hbm : List (Nat × BlockRead)
  sram : List SramRead
deriving DecidableEq, Repr

/-- A placed transfer's end: its entry, and the SRAM blocks that it found with flipped bits. -/
structure XferEnd where
  entry : Nat
  sram : List SramRead
deriving DecidableEq, Repr

/-- A bough's reference is ready: the bough, and the zero and injection reads that a start takes with it (R131). -/
structure RefUp where
  bough : Nat
  reads : List SliceReads
deriving DecidableEq, Repr

/-- What a taproot engine meets in its reads: by page index, section of the page (0 K elements, 1 K scales, 2 V elements, 3 V scales) and
block in the section the flipped bits; the placed transfer it waits for (R19), 0 for none; the SRAM blocks found with flipped bits. -/
structure KvReads where
  flips : List (Nat × Nat × Nat × Flips)
  needs : Nat
  sram : List SramRead
deriving DecidableEq, Repr

/-- The queries of a canopy row's tokens by head, none for a block of a tuning step's backward pass, which takes them from the tuning
area (R177); the placed transfer it waits for (R19), 0 for none; and the flipped bits of the KV blocks it reads, by page index, section
and block in the section, as in KvReads. -/
structure CanopyIn where
  q : Option (List (List (List F32)))
  needs : Nat
  flips : List (Nat × Nat × Nat × Flips)
deriving DecidableEq, Repr

/-- The exit from self-refresh: whether the stacks answer, and whether the calibration save area can be read (R131). -/
structure HbmUp where
  ok : Bool
  area : Bool
deriving DecidableEq, Repr

/-- The commands. -/
inductive Instr where
  -- descriptors (Table 11-4)
  | nop (f : Fetch)
  | badOpcode (f : Fetch)
  | admitCall (f : Fetch)
  | cancel (f : Fetch)
  | releaseCall (f : Fetch)
  | stepMask (f : Fetch)
  | budgetSet (f : Fetch)
  | budgetRead (f : Fetch)
  | graftLoad (f : Fetch)
  | graftRetire (f : Fetch)
  | matteLoad (f : Fetch)
  | matteFree (f : Fetch)
  | tune (f : Fetch)
  | loadManifest (f : Fetch)
  | loadChunk (f : Fetch)
  | loadPlacement (f : Fetch)
  | attnSetup (f : Fetch)
  | takeReplacement (f : Fetch)
  | takeRefresh (f : Fetch)
  | cut (f : Fetch)
  | releaseImage (f : Fetch)
  | deckRead (f : Fetch)
  | refWarm (f : Fetch)
  | calibrate (f : Fetch)
  | hkSample (f : Fetch)
  | retire (f : Fetch)
  | fill (f : Fetch)
  | rehash (f : Fetch)
  /-- the test's converter codes come with the command: the phase is part of the row -/
  | arrayTest (f : Fetch) (codes : List Int)
  | resetCold (f : Fetch)
  | resetWarm (f : Fetch)
  | resetPartition (f : Fetch)
  | resetBough (f : Fetch)
  | resetPort (f : Fetch)
  | powerStateD0 (f : Fetch)
  | powerStateD2 (f : Fetch)
  | powerStateD3 (f : Fetch)
  | fwStage (f : Fetch)
  | fwCutover (f : Fetch)
  | attest (f : Fetch)
  -- host rings
  /-- header of the flit; none when the count is read from the doorbell record (R231) -/
  | doorbell (hd : Option FlitHdr) (ring : RingId) (count : BitVec 32)
  | fetchFault (ring : RingId)
  | hostFault (ring : RingId) (pos : Nat)
  | recordWriteFault (ring : RingId)
  | coalWindowExpiry (ring : RingId)
  -- register window
  | seal (a : RegAccess)
  | versionNeg (a : RegAccess)
  | fenceCtrlRelease (a : RegAccess)
  | bootSrcGo (a : RegAccess)
  | counterSel (a : RegAccess)
  | hkCtrlRefen (a : RegAccess)
  | regWrite (a : RegAccess)
  -- pins and resets
  | porstNAssert
  | coldStart (boot ckmode : BitVec 2)
  | wrstNAssert
  | warmStart
  | resetTakesEffect
  | fenceInAssert
  | fenceInRelease
  | refclkLoss
  | refclkReturn
  | pmAlertN (words : List RegStatus)
  | vaonLoss
  -- starts
  | optionLoad (data : Bytes)
  | clockLock (ok : Bool)
  | hkRefReady
  /-- the images read, the active slot first; none: the time limit passed (R338, R379) -/
  | fwFetch (active : Nat) (images : List Bytes)
  | sramFill (ok : Bool)
  | hbmTrain (ok : Bool)
  /-- the fill passes the lowest 10.5 GiB (false) or completes (true); not ok: a stack reports a write failure -/
  | hbmFill (complete ok : Bool)
  | startFail
  | fwDigest
  | resume
  | watchdogExpiry
  | firstWatchdogService
  -- housekeeping
  | hkSlot
  | hkConversionDone (value : BitVec 16)
  -- tiles
  | productIssue (r : ProductIn)
  | phaseEnd (tile : Nat) (codes : List Int)
  | programStepEnd (tile : Nat) (r : ProgRead)
  | programStepOwed (tile : Nat)
  | referenceSweep (tile deck : Nat) (codes : List Int)
  | clapperPhase (tile deck : Nat) (run : ClapperIn)
  /-- the weight codes of the next row, nibble-packed (R341) -/
  | verifyRead (tile deck : Nat) (row : Bytes)
  | forcedGap (tile : Nat)
  | deckAgeRecord (tile deck : Nat)
  | driftAgeLimit (tile deck : Nat)
  | driftUpdate (bough : Nat)
  -- correction lane and sums
  | outlierReadReturn (prod : Nat) (reads : RowReads)
  | overflowPass (prod : Nat) (reads : List BlockRead)
  | boughSum (key : SumKey) (reads : SumReads)
  /-- `sram`: the reads of the staged graft that found flipped bits -/
  | graftTerm (key : SumKey) (vec : Option VecIn) (sram : List SramRead)
  | contCheckDone (prod : Nat)
  | outlierWindowEnd (matrix : Nat)
  | transferDone (work : WorkRef) (entry : XferEnd)
  | boughDrainAck (bough : Nat)
  | drainComplete
  -- calibration and weights
  | refReady (bough : RefUp)
  | calRunEnd (bough : Nat) (reads : List SliceReads)
  /-- `forward`, `transposed`: the fit phases that ran in each direction -/
  | fitDone (tile deck forward transposed : Nat)
  | deckRetake (tile deck : Nat)
  | chunkConversion
  | sigCheck
  | epochDrained
  -- attention
  | kvAppend (work : WorkRef) (layer t : Nat) (k v : List (List F32))
  | taprootAttention (work : WorkRef) (layer : Nat) (q : List (List F32)) (reads : KvReads)
  | canopyBlock (lane : Nat) (work : WorkRef) (layer group rowTile : Nat) (q : CanopyIn)
  -- scheduling
  | batchOpen
  | batchWindowExpiry
  | stepCommit (call : Nat)
  | deadlineScan
  | budgetRefill (customer : Nat)
  | preempt (call chunk : Nat)
  -- links and partner
  | tokenReturn (hd : FlitHdr) (p tag step : Nat) (tokens drafts : List Nat) (marks : Nat)
  | ack (hd : FlitHdr)
  | nak (hd : FlitHdr) (expected : BitVec 12)
  | flitDiscard (port : Port) (wire : Bytes)
  | degrade (hd : FlitHdr) (width group : Nat)
  | discover (hd : FlitHdr) (pos side posn : Nat) (resumed : Bool)
  | activation (hd : FlitHdr) (epoch image : Nat) (items : List ActItem)
  | runningSum (hd : FlitHdr) (p tag step epoch image marks : Nat) (item : SumItem)
  | callCtrl (hd : FlitHdr) (msg : CallMsg)
  | cutCtrl (hd : FlitHdr) (msg : CutMsg)
  | jack (hd : FlitHdr) (p tag step pos : Nat)
  | adopt (hd : FlitHdr)
  | image (hd : FlitHdr) (msg : ImageMsg)
  | heartbeat (hd : FlitHdr) (tick : BitVec 64) (st : HbState)
  | hbHold (hd : FlitHdr) (ticks : Nat) (warm sleep : Bool)
  | journal (hd : FlitHdr) (recs : List JournalRec)
  | journalAck (hd : FlitHdr) (p tag step : Nat)
  | retakeReq (hd : FlitHdr) (r : RetakeReq)
  /-- what the partner's sampling needs of a call and the request does not carry: draft tokens with their distributions, and a
  kind 3 matte's mask -/
  | verifiedStepDone (p tag step : Nat) (drafts : List (Nat × List (Nat × F32))) (mask : Option Bytes)
  | retakeResp (hd : FlitHdr) (p tag step : Nat) (r : Option RetakeResult)
  | retakeTimeout (p tag step : Nat)
  | mirrorDrop (hd : FlitHdr)
  | heartbeatSend
  | heartbeatMiss
  | fenceWaitEnd
  | mirrorKeepExpiry (call : Nat)
  | chainBreak (port : Port)
  | portTrained (port : Port) (lanes : BitVec 16)
  /-- lane and whether it lost FEC lock; otherwise its corrected-symbol count in the window -/
  | laneWeak (port : Port) (lane : Nat) (lost : Bool) (symbols : Nat)
  | replayMax (port : Port)
  -- memory
  | bucketLeak (region : Nat)
  | mergeEvict (stack channel : Nat) (flips : Flips)
  | hotSample (stack occupancy channel : Nat)
  | hotspot (stack : Nat)
  | hbmRetired
  | fillDone
  | rehashDone (units : Nat)
  -- faults
  /-- the converter codes of the repeat's phases, in phase order (R313) -/
  | repeat_ (tile : Nat) (phases : List (List Int))
  | slate (u : SlateUnit) (digest : BitVec 64)
  | slateOverdue (u : SlateUnit)
  | daily
  -- power
  | d1Entry
  | boughSwitchOpen (bough : Nat)
  | boughSwitchReady (bough : Nat)
  | pacerWindow
  | energyScale (charged measured : Nat)
  | levelStepSettled (millivolts : Nat)
  | levelStepTimeout
  | regulatorFloorReturn
  | entryStepDone
  | wake (e : WakeEvent)
  | wakePhaseReady
  | wakeTimeout (domain : Nat)
  -- firmware
  | switchPoint
  | fwCutoverDone
  -- the table's last rows
  | vaonApply
  | portDown (port : Port)
  | partnerBootRequest
  | hbmExit (ok : HbmUp)
  | urgentSample (channel : Nat)
  | jtagInstruction (op : JtagOp)
deriving DecidableEq, Repr

end Sys2Proof
end

