-- ==== Sys2Proof/Config.lean ====
section
/-! DEFINITION. What one LM1 fixes and the manual does not give: free values and functions without a body.
No proof can see what any of them is. -/

set_option Elab.async false

namespace Sys2Proof.Config

/-- FREE. FP32 exponential of R168, R169, R174 and R219. The manual gives an accuracy (Table 04-4) and a fixed
sequence, not the sequence. -/
opaque exp32 : F32 → F32

/-- FREE. FP32 natural logarithm of R174. -/
opaque ln32 : F32 → F32

/-- FREE. FP32 cosine of the rotary angle of R164 for base, pair index and token index. -/
opaque ropeCos : F32 → Nat → Nat → F32

/-- FREE. FP32 sine of the rotary angle of R164 for base, pair index and token index. -/
opaque ropeSin : F32 → Nat → Nat → F32

/-- FREE. Falcon-1024 verification of R374: key, 64-byte digest, signature. -/
opaque falconVerify : Bytes → Bytes → Bytes → Bool

/-- FREE. Falcon-1024 signature of R385 by the device key over a digest, 1,280 bytes. -/
opaque falconSign : Bytes → Bytes

/-- FREE. The device serial number (Table 18-3). -/
opaque serial : BitVec 64

/-- FREE. The identity certificate of the OTP identity region (Table 18-3), 3,136 bytes. -/
opaque certificate : Bytes

/-- FREE. The digest held by each of the four Cerenaft key slots of the OTP identity region (R375). -/
opaque cerenaftKey : Nat → Bytes

/-- FREE. Whether a Cerenaft key slot is empty (R375). -/
opaque cerenaftEmpty : Nat → Bool

/-- FREE. Cerenaft's JEP106 code in the IDCODE register (R401). -/
opaque jep106 : BitVec 11

/-- FREE. The draws of the on-die random source (R304, R109), by draw number. -/
opaque random : Nat → BitVec 64

/-- FREE. Element `i` of the A4 clapper vector for a take identifier and a fit counter (02 "Reference columns and
clapper phases", R123): a counter-based generator that the manual does not give. -/
opaque clapperElem : BitVec 32 → Nat → Nat → Int

/-- FREE. The skew target that the codes of a slice's two injection reads give (R124: taken from them, the law is not given). -/
opaque skewTarget : Int → Int → Int

/-- FREE. A temperature in 1/16 °C with a sensor's trims applied (R118, Table 06-1: the four bytes of offset and slope, their encoding and
law not given): trim bytes, converted value. -/
opaque sensorTrim : BitVec 32 → Int → Int

/-- FREE. The continuity hash of R109: device key, global tile number, product count. -/
opaque contHash : BitVec 64 → Nat → Nat → BitVec 64

/-- FREE. The stacks of a page group of eight (R162): spread seed, call-sheet index, layer, group number.
It is one to one by its type. -/
opaque pageStacks : BitVec 64 → Nat → Nat → Nat → Equiv.Perm (Fin 8)

/-- FREE. The stack of a master slot's first copy (R296, R304): spread seed and slot number. -/
opaque slotStack : BitVec 64 → Nat → Fin 8

/-- FREE. The bank of an HBM byte offset under a stack seed (R304: ten bits XORed with a seed-keyed fold of row bits that the
manual does not give). -/
opaque bankOf : BitVec 64 → Nat → Fin 1024

/-- FREE. Value of a 16-bit drift coefficient of the option block in units of 2^-32 (Table 06-1: encoding not given). -/
opaque driftPoint : BitVec 16 → Nat

/-- FREE. The charge in nanojoules that a firmware image's charge table gives a grant: image digest, level, kind
(R362: the table's place in an image is not given). -/
opaque charge : Bytes → Nat → Nat → Nat

/-- FREE. The slate answer that a firmware image carries: image digest, unit kind, slate number (15, "Slates"). -/
opaque slateAnswer : Bytes → Nat → Nat → BitVec 64

/-- FREE. Where the page-list directory of a call lies in the control region of HBM (R162, R410), in lattice blocks, by call-sheet
index. -/
opaque dirBlock : Nat → BitVec 32

/-- FREE. Where a list block lies (R162, R410), in lattice blocks, by call-sheet index and directory entry. -/
opaque listBlock : Nat → Nat → BitVec 32

/-- FREE. Whether a read of what a call has saved meets an uncorrectable block of the save region (R295), by draw number. -/
opaque saveRead : Nat → Bool

/-- FREE. A fresh value for a result that the manual leaves open, by draw number. -/
opaque freeWord : Nat → BitVec 64

end Sys2Proof.Config
end

