-- ==== Sys2Proof/Machine/Tbl.lean ====
section
/-! DEFINITION. Sparse tables and byte strings: the one home of reading and writing them. -/

set_option Elab.async false

namespace Sys2Proof

/-- The value a table holds at a key, or the default. -/
def Tbl.get {α : Type} (d : α) (k : Nat) : Tbl α → α
  | [] => d
  | (j, v) :: t => if j = k then v else if k < j then d else Tbl.get d k t

/-- Whether a table lists a key. -/
def Tbl.has {α : Type} (k : Nat) (t : Tbl α) : Bool := t.any (fun p => p.1 == k)

/-- Remove a key from a table whose keys rise. -/
def Tbl.erase {α : Type} (k : Nat) : Tbl α → Tbl α
  | [] => []
  | (j, v) :: t => if j = k then t else if k < j then (j, v) :: t else (j, v) :: Tbl.erase k t

/-- Put a value at a key, keeping the keys rising. -/
def Tbl.insert {α : Type} (k : Nat) (v : α) : Tbl α → Tbl α
  | [] => [(k, v)]
  | (j, w) :: t =>
    if j = k then (k, v) :: t
    else if k < j then (k, v) :: (j, w) :: t
    else (j, w) :: Tbl.insert k v t

/-- Write a value at a key: the default is kept unlisted, so equal tables are equal lists. -/
def Tbl.set {α : Type} [DecidableEq α] (d : α) (k : Nat) (v : α) (t : Tbl α) : Tbl α :=
  if v = d then Tbl.erase k t else Tbl.insert k v t

/-- Change the value at a key. -/
def Tbl.update {α : Type} [DecidableEq α] (d : α) (k : Nat) (f : α → α) (t : Tbl α) : Tbl α :=
  Tbl.set d k (f (Tbl.get d k t)) t

/-- Change every listed value, keeping the default unlisted. -/
def Tbl.mapVals {α : Type} [DecidableEq α] (d : α) (f : α → α) (t : Tbl α) : Tbl α :=
  t.filterMap fun p => if f p.2 = d then none else some (p.1, f p.2)

/-- The canonical form: keys strictly rising and no default listed. -/
def Tbl.wf {α : Type} [DecidableEq α] (d : α) (t : Tbl α) : Bool :=
  decide (t.Pairwise (fun p q => p.1 < q.1)) && t.all (fun p => decide (p.2 ≠ d))

namespace Bits

/-- Byte `i` of a string, zero past its end. -/
def byteAt (bs : Bytes) (i : Nat) : Nat := (bs.getD i 0).toNat

/-- The little-endian number in `n` bytes from offset `i` (R7). -/
def le (bs : Bytes) (i : Nat) : Nat → Nat
  | 0 => 0
  | n + 1 => byteAt bs i + 256 * le bs (i + 1) n

/-- The `n` little-endian bytes of a number (R7). -/
def bytesOf : Nat → Nat → Bytes
  | 0, _ => []
  | n + 1, v => BitVec.ofNat 8 v :: bytesOf n (v / 256)

/-- `n` bytes from offset `i`, zero past the end. -/
def slice (bs : Bytes) (i n : Nat) : Bytes :=
  let t := (bs.drop i).take n
  t ++ List.replicate (n - t.length) 0

/-- Whether bytes `i` to `i + n - 1` are all zero. -/
def zeroAt (bs : Bytes) (i n : Nat) : Bool := (slice bs i n).all (fun b => decide (b = 0))

/-- Bits `lo` to `lo + n - 1` of a number. -/
def field (v lo n : Nat) : Nat := v / 2 ^ lo % 2 ^ n

/-- A number of `n` bits read as two's complement. -/
def signed (v n : Nat) : Int := if v % 2 ^ n < 2 ^ (n - 1) then (v % 2 ^ n : Nat) else (v % 2 ^ n : Nat) - (2 ^ n : Nat)

/-- The two's-complement bits of an integer in `n` bits. -/
def ofSigned (x : Int) (n : Nat) : Nat := (x % (2 ^ n : Nat)).toNat

/-- Quotient rounded up. -/
def ceilDiv (a b : Nat) : Nat := (a + b - 1) / b

/-- Replace the element at an index; a list that is too short is filled up to it. -/
def setAt {α : Type} [Inhabited α] (xs : List α) (i : Nat) (v : α) : List α :=
  xs.take i ++ List.replicate (i - xs.length) default ++ v :: xs.drop (i + 1)

/-- Rounding to the nearest integer, ties to even, of `n / d` with `d > 0`. -/
def roundHalfEven (n : Int) (d : Nat) : Int :=
  let q := n.fdiv d
  let r := (n - q * d).toNat
  if 2 * r < d then q
  else if 2 * r > d then q + 1
  else if q % 2 = 0 then q else q + 1

/-- Rounding to the nearest integer, ties away from zero, of `n / d` with `d > 0` (02, "Column conversion"). -/
def roundHalfAway (n : Int) (d : Nat) : Int :=
  let m := (2 * n.natAbs + d) / (2 * d)
  if n < 0 then -(m : Int) else m

end Bits

/-- Put an element before the first one that it precedes. -/
def insertSorted {α : Type} (before : α → α → Bool) (x : α) : List α → List α
  | [] => [x]
  | y :: ys => if before x y then x :: y :: ys else y :: insertSorted before x ys

/-- A list in the order of a comparison, equal elements in their order of arrival. -/
def sortBy {α : Type} (before : α → α → Bool) (xs : List α) : List α := xs.foldl (fun l x => insertSorted before x l) []

/-- Lexicographic order of integer keys. -/
def keyLt : List Int → List Int → Bool
  | [], _ => false
  | _ :: _, [] => false
  | a :: as, b :: bs => if a < b then true else if b < a then false else keyLt as bs

/-- Elements kept once, first occurrence first. -/
def distinct {α : Type} [DecidableEq α] (xs : List α) : List α :=
  xs.foldl (fun l x => if l.contains x then l else l ++ [x]) []

/-- Saturating addition at a width (R47). -/
def satAdd (bits a b : Nat) : Nat := min (2 ^ bits - 1) (a + b)

end Sys2Proof
end

