-- ==== Sys2Proof/Machine/Float.lean ====
section
/-! DEFINITION. The arithmetic the engines use: binary32 with one rounding per operation, the 16-bit and 8-bit
formats it is converted to, and the ACC48 sum. -/

set_option Elab.async false

namespace Sys2Proof

/-- A decoded floating-point value: `fin neg mag e` is (-1)^neg * mag * 2^e. -/
inductive Fl where
  | nan
  | inf (neg : Bool)
  | fin (neg : Bool) (mag : Nat) (e : Int)
deriving DecidableEq, Repr

/-- A binary format: precision with the hidden bit, exponent of one unit of a subnormal, exponent field width. -/
structure FlFmt where
  p : Nat
  emin : Int
  ew : Nat
deriving DecidableEq, Repr

namespace Fl

def f32 : FlFmt := { p := 24, emin := -149, ew := 8 }
def f16 : FlFmt := { p := 11, emin := -24, ew := 5 }
def bf16 : FlFmt := { p := 8, emin := -133, ew := 8 }

/-- Decode the bits of an IEEE-style format. -/
def decode (fm : FlFmt) (v : Nat) : Fl :=
  let fb := fm.p - 1
  let frac := v % 2 ^ fb
  let ex := v / 2 ^ fb % 2 ^ fm.ew
  let neg := v / 2 ^ (fb + fm.ew) % 2 = 1
  if ex = 2 ^ fm.ew - 1 then (if frac = 0 then .inf neg else .nan)
  else if ex = 0 then .fin neg frac fm.emin
  else .fin neg (frac + 2 ^ fb) (fm.emin + ((ex - 1 : Nat) : Int))

/-- The bits of a value that the format holds exactly or as a special value. -/
def signBit (fm : FlFmt) (neg : Bool) : Nat := if neg then 2 ^ (fm.p - 1 + fm.ew) else 0

def infBits (fm : FlFmt) (neg : Bool) : Nat := signBit fm neg + (2 ^ fm.ew - 1) * 2 ^ (fm.p - 1)

/-- The canonical quiet NaN with the sign bit clear (R57). -/
def nanBits (fm : FlFmt) : Nat := (2 ^ fm.ew - 1) * 2 ^ (fm.p - 1) + 2 ^ (fm.p - 2)

/-- Exponent of the leading bit of n / d, both positive. -/
def log2Ratio (n d : Nat) : Int :=
  let k : Int := (n.log2 : Int) - (d.log2 : Int)
  let below : Bool := if 0 ≤ k then decide (n < d * 2 ^ k.toNat) else decide (n * 2 ^ (-k).toNat < d)
  if below then k - 1 else k

/-- Encode (-1)^neg * n / d * 2^e with one rounding: ties to even, or upward when `up`. -/
def encodeRatio (fm : FlFmt) (up : Bool) (neg : Bool) (n d : Nat) (e : Int) : Nat :=
  if n = 0 then signBit fm neg
  else
    let q := max (log2Ratio n d + e - ((fm.p : Int) - 1)) fm.emin
    let sh := e - q
    let num := if 0 ≤ sh then n * 2 ^ sh.toNat else n
    let den := if 0 ≤ sh then d else d * 2 ^ (-sh).toNat
    let m := if up then Bits.ceilDiv num den else (Bits.roundHalfEven (num : Int) den).toNat
    let m' := if m ≥ 2 ^ fm.p then m / 2 else m
    let q' := if m ≥ 2 ^ fm.p then q + 1 else q
    let ex := (q' - fm.emin).toNat + 1
    if m' < 2 ^ (fm.p - 1) then signBit fm neg + m'
    else if ex ≥ 2 ^ fm.ew - 1 then infBits fm neg
    else signBit fm neg + ex * 2 ^ (fm.p - 1) + (m' - 2 ^ (fm.p - 1))

/-- Encode a value with one rounding to nearest, ties to even. -/
def encode (fm : FlFmt) : Fl → Nat
  | .nan => nanBits fm
  | .inf neg => infBits fm neg
  | .fin neg mag e => encodeRatio fm false neg mag 1 e

/-- The integer that a finite value is in units of 2^u, for u no larger than its exponent; rounded otherwise. -/
def units (u : Int) : Fl → Option Int
  | .fin neg mag e =>
    let m : Nat := if u ≤ e then mag * 2 ^ (e - u).toNat
      else (Bits.roundHalfEven (mag : Int) (2 ^ (u - e).toNat)).toNat
    some (if neg then -(m : Int) else (m : Int))
  | _ => none

def isFin : Fl → Bool
  | .fin _ _ _ => true
  | _ => false

end Fl

namespace F32

def dec (x : F32) : Fl := Fl.decode Fl.f32 x.toNat
def enc (v : Fl) : F32 := BitVec.ofNat 32 (Fl.encode Fl.f32 v)

def zero : F32 := 0
def nan : F32 := 0x7FC00000
def negInf : F32 := 0xFF800000
def posInf : F32 := 0x7F800000

def isNaN (x : F32) : Bool := decide (dec x = .nan)
def isFinite (x : F32) : Bool := (dec x).isFin

/-- Exact sum of two finite values, over a common exponent. -/
def addFin (n₁ : Bool) (m₁ : Nat) (e₁ : Int) (n₂ : Bool) (m₂ : Nat) (e₂ : Int) : Fl :=
  let e := min e₁ e₂
  let a : Int := (m₁ * 2 ^ (e₁ - e).toNat : Nat)
  let b : Int := (m₂ * 2 ^ (e₂ - e).toNat : Nat)
  let s := (if n₁ then -a else a) + (if n₂ then -b else b)
  .fin (if s = 0 then n₁ && n₂ else decide (s < 0)) s.natAbs e

/-- IEEE 754 addition, roundTiesToEven. -/
def add (x y : F32) : F32 :=
  enc (match dec x, dec y with
    | .nan, _ => .nan
    | _, .nan => .nan
    | .inf a, .inf b => if a = b then .inf a else .nan
    | .inf a, _ => .inf a
    | _, .inf b => .inf b
    | .fin n₁ m₁ e₁, .fin n₂ m₂ e₂ => addFin n₁ m₁ e₁ n₂ m₂ e₂)

def neg (x : F32) : F32 := x ^^^ 0x80000000
def sub (x y : F32) : F32 := add x (neg y)

/-- IEEE 754 multiplication, roundTiesToEven. -/
def mul (x y : F32) : F32 :=
  enc (match dec x, dec y with
    | .nan, _ => .nan
    | _, .nan => .nan
    | .inf a, .inf b => .inf (a != b)
    | .inf a, .fin b m _ => if m = 0 then .nan else .inf (a != b)
    | .fin a m _, .inf b => if m = 0 then .nan else .inf (a != b)
    | .fin n₁ m₁ e₁, .fin n₂ m₂ e₂ => .fin (n₁ != n₂) (m₁ * m₂) (e₁ + e₂))

/-- IEEE 754 division, roundTiesToEven. -/
def div (x y : F32) : F32 :=
  match dec x, dec y with
    | .nan, _ => nan
    | _, .nan => nan
    | .inf _, .inf _ => nan
    | .inf a, .fin b _ _ => enc (.inf (a != b))
    | .fin a _ _, .inf b => enc (.fin (a != b) 0 0)
    | .fin n₁ m₁ e₁, .fin n₂ m₂ e₂ =>
      if m₂ = 0 then (if m₁ = 0 then nan else enc (.inf (n₁ != n₂)))
      else BitVec.ofNat 32 (Fl.encodeRatio Fl.f32 false (n₁ != n₂) m₁ m₂ (e₁ - e₂))

/-- Value order of two numbers that are not NaN: -1, 0 or 1; none with a NaN. -/
def cmp (x y : F32) : Option Int :=
  match dec x, dec y with
  | .nan, _ => none
  | _, .nan => none
  | .inf a, .inf b => some (if a = b then 0 else if a then -1 else 1)
  | .inf a, .fin _ _ _ => some (if a then -1 else 1)
  | .fin _ _ _, .inf b => some (if b then 1 else -1)
  | .fin n₁ m₁ e₁, .fin n₂ m₂ e₂ =>
    let e := min e₁ e₂
    let a : Int := (m₁ * 2 ^ (e₁ - e).toNat : Nat)
    let b : Int := (m₂ * 2 ^ (e₂ - e).toNat : Nat)
    let a' := if n₁ then -a else a
    let b' := if n₂ then -b else b
    some (if a' < b' then -1 else if a' = b' then 0 else 1)

def lt (x y : F32) : Bool := cmp x y == some (-1)
def le (x y : F32) : Bool := cmp x y == some (-1) || cmp x y == some 0
def eqv (x y : F32) : Bool := cmp x y == some 0

/-- Maximum of a list of numbers, or the start value. -/
def maxOf (start : F32) (xs : List F32) : F32 := xs.foldl (fun m x => if lt m x then x else m) start

/-- Sum in list order from a start value, one rounding per addition. -/
def sumFrom (start : F32) (xs : List F32) : F32 := xs.foldl add start

/-- An integer as binary32. -/
def ofInt (n : Int) : F32 := enc (.fin (decide (n < 0)) n.natAbs 0)

/-- Binary32 of m * 2^e. -/
def ofScaled (m : Int) (e : Int) : F32 := enc (.fin (decide (m < 0)) m.natAbs e)

/-- Square root, rounded once to nearest, ties to even; of a negative number NaN. -/
def sqrt (x : F32) : F32 :=
  match dec x with
  | .nan => nan
  | .inf neg => if neg then nan else posInf
  | .fin neg m e =>
    if m = 0 then x
    else if neg then nan
    else
      let n := m * 2 ^ (if e % 2 = 0 then 80 else 81)
      let r := Nat.sqrt n
      enc (.fin false (2 * r + if r * r = n then 0 else 1) ((e - (if e % 2 = 0 then 80 else 81)) / 2 - 1))

/-- The sum of `k` further terms of the exponential series at `t / 2^128`, in units of 2^-128. -/
def expTerms (t : Nat) : Nat → Nat → Nat → Nat → Nat
  | 0, _, _, acc => acc
  | k + 1, n, term, acc =>
    let next := term * t / (n * 2 ^ 128)
    expTerms t k (n + 1) next (acc + next)

/-- e to the magnitude of a finite number that is at least -87 and at most 0, in units of 2^-128 and within 2^-100 of the value;
none for any other number. -/
def expOfMagnitude (x : F32) : Option Nat :=
  match dec x with
  | .fin neg m e =>
    let t := if -128 ≤ e then m * 2 ^ (e + 128).toNat else m / 2 ^ (-e - 128).toNat
    if (m = 0 ∨ neg = true) ∧ t ≤ 87 * 2 ^ 128 then some (expTerms t 400 1 (2 ^ 128) (2 ^ 128)) else none
  | _ => none

/-- `y` lies within 4 * 2^-24 of 1 / (s * 2^-128), relatively: the bound of the softmax weight row of Table 04-4. -/
def expNear (s : Nat) (y : F32) : Bool :=
  match dec y with
  | .fin neg m e =>
    (!neg || m == 0) && decide (e ≤ 0) &&
    decide ((m * s : Int) - 2 ^ (128 - e).toNat ≤ 2 ^ (106 - e).toNat) && decide ((2 ^ (128 - e).toNat : Int) - m * s ≤ 2 ^ (106 - e).toNat)
  | _ => false

/-- The exponential as an LM1 evaluates it (R171): free but for the bound of Table 04-4, which holds of every argument from -87 to 0
whose result is a normal number. -/
def exp (x : F32) : F32 :=
  let y := Config.exp32 x
  match expOfMagnitude x with
  | none => y
  | some s => if expNear s y then y else enc (.fin false (2 ^ 512 / s) (-384))

/-- Magnitude comparison with a positive threshold: is |x| greater than t (R101)? -/
def absGt (x t : F32) : Bool :=
  match dec x with
  | .nan => false
  | .inf _ => true
  | .fin _ m e => lt t (enc (.fin false m e))

/-- A bfloat16 as binary32, exactly. -/
def ofBF16 (b : BF16) : F32 := b ++ (0 : BitVec 16)

/-- Rounding to bfloat16, roundTiesToEven. -/
def toBF16 (x : F32) : BF16 := BitVec.ofNat 16 (Fl.encode Fl.bf16 (dec x))

end F32

/-! ### ACC48 (R69 to R71, R80) -/

/-- One ACC48 accumulator without its shared exponent: mantissa, NF, SAT (Table 03-6). -/
structure Acc where
  m : Int
  nf : Bool
  sat : Bool
deriving DecidableEq, Repr

namespace Acc

def zero : Acc := { m := 0, nf := false, sat := false }
def nan : Acc := { m := 0, nf := true, sat := false }
def infinity (neg : Bool) (sat : Bool) : Acc := { m := if neg then -1 else 1, nf := true, sat := sat }

/-- Whether an integer fits the 48-bit mantissa. -/
def fits (x : Int) : Bool := decide (-(2 ^ 47 : Int) ≤ x ∧ x < 2 ^ 47)

/-- The class of a non-finite value: +inf, -inf or NaN (Table 03-6). -/
def isInf (a : Acc) : Bool := a.nf && (a.m == 1 || a.m == -1)

/-- Table 03-7: addition with a non-finite operand. -/
def addNonFinite (a b : Acc) : Acc :=
  let sat := a.sat || b.sat
  let one (x : Acc) : Acc := if x.isInf then { m := x.m, nf := true, sat := sat } else { m := 0, nf := true, sat := sat }
  if a.nf && b.nf then
    (if a.isInf && b.isInf && a.m == b.m then { m := a.m, nf := true, sat := sat } else { m := 0, nf := true, sat := sat })
  else if a.nf then one a else one b

/-- A 48-bit addition at which the LM1 tests for overflow (R77, R80 native mode). -/
def add (a b : Acc) : Acc :=
  if a.nf || b.nf then addNonFinite a b
  else if fits (a.m + b.m) then { m := a.m + b.m, nf := false, sat := a.sat || b.sat }
  else infinity (decide (a.m + b.m < 0)) true

/-- Whether an addition overflows the mantissa. -/
def overflows (a b : Acc) : Bool := !a.nf && !b.nf && !fits (a.m + b.m)

/-- An exact mantissa as a term: outside the range it is an overflow (R74, R80). -/
def ofMantissa (x : Int) : Acc :=
  if fits x then { m := x, nf := false, sat := false } else infinity (decide (x < 0)) true

/-- The exact sum of a bough's adder tree (R77 step 1: 56 bits, cannot overflow), non-finite terms by Table 03-7. -/
def treeAdd (a b : Acc) : Acc :=
  if a.nf || b.nf then addNonFinite a b else { m := a.m + b.m, nf := false, sat := a.sat || b.sat }

/-- The 64-bit save record of Table 03-8, with the vector's exponent. -/
def saveRecord (e : Int) (a : Acc) : BitVec 64 :=
  BitVec.ofNat 64 (Bits.ofSigned a.m 48 + 2 ^ 48 * Bits.ofSigned e 10 + (if a.nf then 2 ^ 58 else 0)
    + (if a.sat then 2 ^ 59 else 0))

/-- Restoring a save record: reserved bits are ignored (R71). -/
def restore (w : BitVec 64) : Int × Acc :=
  (Bits.signed (Bits.field w.toNat 48 10) 10,
   { m := Bits.signed (Bits.field w.toNat 0 48) 48, nf := w.getLsbD 58, sat := w.getLsbD 59 })

/-- Conversion to binary32, one rounding (04, note to Table 04-1). -/
def toF32 (e : Int) (a : Acc) : F32 :=
  if a.nf then (if a.m = 1 then F32.posInf else if a.m = -1 then F32.negInf else F32.nan)
  else F32.ofScaled a.m e

end Acc

end Sys2Proof
end

