-- ==== Sys2Proof/Machine/State.lean ====
section
/-! DEFINITION. The state of one LM1 as plain data: every register, table, queue, counter and pin that the manual gives it.
Each field's docstring gives, in brackets, the rule that names it, its width and its reset value; then what it is.
`MODEL` in the brackets marks a field that is the model's own bookkeeping. -/

set_option Elab.async false

namespace Sys2Proof.Machine

/-! ### Names -/

/-- The statuses of Tables 11-12 and 18-5. -/
inductive Status where
  | ok | okEmpty | takePartial
  | nonfinite | matteEmpty | deadline | budgetPark | cancelled | partitionReset | kvUncorr | saveBad | badToken
  | badVersion | badOpcode | wrongRing | rsvSet | badAddress | hostFault | wrongPosition | resetLost
  | badLength | badFormat | formatRange | badCustomer | badTag | callUnknown | kvQuota | badSampler | badBudget
  | badGraft | graftBusy | badMatte | matteInUse | maskStale | badUnit | hkBusy | notIdle
  | manifestBad | imageSlotsFull | noManifest | chunkDigest | chunkShape | chunkDecode | weightNonfinite | weightRange
  | imageInUse | placementBad | placementBusy | takeBusy | takeNoDeck | takeAborted | deckLive | deckWorn | attnBad
  | sigBad | keyUnknown | fwRollback | fwSlotActive | fwBusy | fwNotStaged
deriving DecidableEq, Repr

/-- Call states (Table 09-2). -/
inductive CallState where
  | free | queued | ready | running | parked | drained | held | mirror
deriving DecidableEq, Repr

/-- Deck states of a record (Table 02-4); UNVERIFIED is a run-time state and stands beside it. -/
inductive DeckState where
  | empty | programming | ready | live | drifted | worn | retired
deriving DecidableEq, Repr

/-- Port states (Table 13-8). -/
inductive PortState where
  | down | training | up | degraded | isolated
deriving DecidableEq, Repr

/-- Take states (Table 07-8). -/
inductive TakeState where
  | loading | programming | fitting | armed | draining | done | aborted
deriving DecidableEq, Repr

/-- The life of the device between reset and serving (16). -/
inductive Phase where
  /-- VAON absent (Table 17-2, Off) -/
  | off
  /-- held in cold reset -/
  | heldCold
  /-- held in warm reset -/
  | heldWarm
  | coldStart
  | warmStart
  | running
  /-- R348 -/
  | safe
deriving DecidableEq, Repr

/-- Device states (Table 17-2) while running. -/
inductive DState where
  | d0 | d1 | d2 | d3
deriving DecidableEq, Repr

/-- What a tile is doing (R36); gap activities are whole commands. -/
inductive Act where
  | idle
  /-- a product phase, by product number -/
  | product (id : Nat)
  | progStep
deriving DecidableEq, Repr

/-- The state of a bough's reference generator (R120). -/
inductive RefState where
  | cold
  | warming (since : Nat)
  | ready
deriving DecidableEq, Repr

/-- The state of a bough's switch (R366). -/
inductive SwitchState where
  | closed | opened | closing
deriving DecidableEq, Repr

/-- How a product's terms are formed (R75, R107, R151). -/
inductive ProdMode where
  | analogue | slow | verified
deriving DecidableEq, Repr

/-- A step's kind (09, "Steps and batches"). -/
inductive StepKind where
  | prefill | decode
  | verify (d : Nat)
deriving DecidableEq, Repr

/-! ### Records and what the device emits -/

/-- The unit field of Table 11-13. -/
structure UnitField where
  die : Nat := 0
  level : Nat := 0
  bough : Nat := 0
  tile : Nat := 0
  deck : Nat := 0
  column : Nat := 0
  engine : Nat := 0
deriving DecidableEq, Repr

/-- An event record (R240); `own` are bytes 40 to 63. -/
structure EventRec where
  code : Nat
  partition : Option Nat := none
  unit : UnitField := {}
  tick : Nat := 0
  matrix : Nat := 0
  call : Nat := 0
  step : Nat := 0
  image : Nat := 0
  own : Bytes := []
deriving DecidableEq, Repr

/-- The records of R238 to R240. -/
inductive Rec where
  | completion (tag : Nat) (status : Status) (opcode ring : Nat) (premium : Bool) (result0 result1 tick : Nat)
  | notice (subject event : Nat) (detail : Bytes) (tick : Nat)
  | token (token tag : Nat) (unbounded tier draft first retake adopted : Bool)
  | event (e : EventRec)
  | mgmt (tag : Nat) (status : Status) (opcode result0 result1 tick : Nat)
deriving DecidableEq, Repr

/-- A record that waits for its ring, and the call-sheet entry that its writing frees (R246). -/
structure Waiting where
  record : Rec
  premium : Bool
  quiet : Bool
  frees : Option Nat
deriving DecidableEq, Repr

/-- Where a record of the last journaled commit went (R345). -/
structure LastRecord where
  ring : RingId
  pos : BitVec 32
  waiting : Waiting
deriving DecidableEq, Repr

/-- The body of a flit that the device sends (Table 13-5). -/
inductive FlitBody where
  | ack
  | nak (expected : BitVec 12)
  | degrade (width group : Nat)
  | discover (pos side posn : Nat) (resumed : Bool)
  | activation (epoch image : Nat) (items : List ActItem)
  | runningSum (p tag step epoch image marks : Nat) (item : SumItem)
  | tokenReturn (p tag step : Nat) (tokens drafts : List Nat) (marks : Nat)
  | callCtrl (m : CallMsg)
  | cutCtrl (m : CutMsg)
  | jack (p tag step pos : Nat)
  | adopt
  | image (m : ImageMsg)
  | heartbeat (tick : BitVec 64) (st : HbState)
  | hbHold (ticks : Nat) (warm sleep : Bool)
  | journal (recs : List JournalRec)
  | journalAck (p tag step : Nat)
  | retakeReq (r : RetakeReq)
  | retakeResp (p tag step : Nat) (r : Option RetakeResult)
  | mirrorDrop
  /-- the partner boot image of R338 -/
  | bootImage (bytes : Bytes)
  /-- a partner boot request of R338 -/
  | bootRequest
deriving DecidableEq, Repr

/-- What the device puts out, in the order it issues it (R228). -/
inductive Emit where
  /-- a record written to entry `slot` of a ring with its phase bit -/
  | record (ring : RingId) (slot : Nat) (phase : Bool) (rec : Rec)
  | irq (vector : Nat)
  | hostWrite (addr : Nat) (bytes : Bytes)
  /-- header fields of Table 13-3 with the body: acknowledgement in force, and the credits returned on a channel -/
  | flit (port : Port) (channel : Nat) (seq : BitVec 12) (ack : Option (BitVec 12)) (credit : Nat × Nat) (body : FlitBody)
  /-- the HA4's resending is asked: every doorbell record is read again (R231) -/
  | readDoorbells
  /-- a line on the board management sideband: step code and failed-start count (R348) -/
  | sideband (code count : Nat)
  /-- a PMBus write: address, page, millivolts; 0 turns the rail off (R359, R363) -/
  | rail (addr page millivolts : Nat)
  | flash (off : Nat) (bytes : Bytes)
  /-- the value that a read of the register window returns (R403, R404) -/
  | regRead (off value : Nat)
deriving DecidableEq, Repr

/-! ### Rings and descriptors -/

/-- A descriptor that has started and not completed. -/
structure Job where
  ring : RingId
  pos : Nat
  tag : Nat
  opcode : Nat
  quiet : Bool
  premium : Bool
deriving DecidableEq, Repr

/-- A ring block (Table 20-5) and the ring's place in the host's memory. -/
structure Ring where
  /-- [R229; 58; 0] BASE -/
  base : BitVec 58 := 0
  /-- [R231; 61; 0] DB_ADDR -/
  dbAddr : BitVec 61 := 0
  /-- [R229; 5; 0] EXP -/
  exp : BitVec 5 := 0
  /-- [R247; 8; 0] COAL_COUNT -/
  coalCount : BitVec 8 := 0
  /-- [R247; 16; 0] COAL_WINDOW -/
  coalWindow : BitVec 16 := 0
  /-- [R247; 1; 0] IRQ_EN -/
  irqEn : Bool := false
  /-- [R247; 1; 0] PREMIUM_NOW -/
  premiumNow : Bool := false
  /-- [R230; 32; 0] POS: fetch count of an inbound ring, producer count of an outbound ring -/
  pos : BitVec 32 := 0
  /-- [R231; 32; 0] the count of the last doorbell: host's producer or consumer count -/
  count : BitVec 32 := 0
  /-- [R229; 1; 0] ENABLED -/
  enabled : Bool := false
  /-- [R244; 1; 0] stopped by a failed descriptor fetch until the next doorbell -/
  stopped : Bool := false
  /-- [R247; count; 0] pending records -/
  pendingCount : Nat := 0
  /-- [R247; 64; 0] tick of the first pending record -/
  pendingTick : Nat := 0
  /-- [R247; 16; 0] COAL_WINDOW as the last pending record was written: a write of the register acts from the next record -/
  timer : BitVec 16 := 0
  /-- [R246; list; empty] records that wait for space, oldest first -/
  waiting : List Waiting := []
  /-- [R413; one record; none] the record whose write failed, held at the producer position -/
  failed : Option Waiting := none
  /-- [R246; count; 0] event records and management completions dropped since the last EVENTS_LOST record -/
  lost : Nat := 0
  /-- [R413; one record; none] the record last issued, until the HA4's failure report can no longer name it -/
  last : Option Waiting := none
deriving DecidableEq, Repr

/-! ### Setup registers -/

/-- Device pages 0 to 2 (Tables 20-2 to 20-4), the fields that hold a value of their own. -/
structure Regs where
  /-- [R249; 4; 0] VERSION_NEG.REQ -/
  verReq : BitVec 4 := 0
  /-- [R249; 4; 0] VERSION_NEG.ACK -/
  verAck : BitVec 4 := 0
  /-- [R342; 11; 0] READY -/
  ready : BitVec 11 := 0
  /-- [R252; 1; 0] SEAL -/
  sealed : Bool := false
  /-- [R252; 4; 0] SEAL_ERR -/
  sealErr : BitVec 4 := 0
  /-- [R335; 2; DESIGN CHOICE 0 (log 3)] STRAPS.BOOT, sampled at the release of PORST_N -/
  boot : BitVec 2 := 0
  /-- [R335; 2; DESIGN CHOICE 0 (log 3)] STRAPS.CKMODE -/
  ckmode : BitVec 2 := 0
  /-- [R336; 4; DESIGN CHOICE 0 (log 3)] POSN_V -/
  posnV : BitVec 4 := 0
  /-- [R336; 12; DESIGN CHOICE 0 (log 3)] POSN_CODE -/
  posnCode : BitVec 12 := 0
  /-- [R337; 8; 0] BOOT_STATUS.STEP -/
  step : BitVec 8 := 0
  /-- [R348; 8; 0] BOOT_STATUS.LAST_FAIL -/
  lastFail : BitVec 8 := 0
  /-- [R276; 4; DESIGN CHOICE 0 (log 3)] CHAIN_POS -/
  chainPos : BitVec 4 := 0
  /-- [R336; 1; DESIGN CHOICE 0 (log 3)] SIDE -/
  side : Bool := false
  /-- [R277; 1; 0] PAIRED -/
  paired : Bool := false
  /-- [R359; 3; 2] PERF_STATUS.LEVEL -/
  level : BitVec 3 := 2
  /-- [R359; 2; 0] PERF_STATUS.SET_BY -/
  setBy : BitVec 2 := 0
  /-- [R108; 3; 3] CONT_FRAC.PREMIUM -/
  contPremium : BitVec 3 := 3
  /-- [R108; 3; 2] CONT_FRAC.BULK -/
  contBulk : BitVec 3 := 2
  /-- [R122; 8; 16] CAL_CTRL.TEMP_THRESH -/
  tempThresh : BitVec 8 := 16
  /-- [R122; 4; 2] CAL_CTRL.INPLACE_MAX -/
  inplaceMax : BitVec 4 := 2
  /-- [R188; 10; 256] SCHED_CTRL.BATCH_MAX -/
  batchMax : BitVec 10 := 256
  /-- [R188; 8; 32] SCHED_CTRL.CHUNK_LEN -/
  chunkLen : BitVec 8 := 32
  /-- [R188; 16; 0] SCHED_CTRL.BATCH_WINDOW -/
  batchWindow : BitVec 16 := 0
  /-- [R188; 16; 1563] SCHED_CTRL.PREEMPT_WAIT -/
  preemptWait : BitVec 16 := 1563
  /-- [R226; 7; 10] DRAFT_CTRL.ACCEPT_MIN -/
  acceptMin : BitVec 7 := 10
  /-- [R226; 16; 1024] DRAFT_CTRL.REPROBE -/
  reprobe : BitVec 16 := 1024
  /-- [R272; 16; 4096] LINK_CTRL.LANE_ERR_MAX -/
  laneErrMax : BitVec 16 := 4096
  /-- [R272; 8; 8] LINK_CTRL.REPLAY_MAX -/
  replayMax : BitVec 8 := 8
  /-- [R294; 8; 64] MEM_CTRL.BUCKET_CAP -/
  bucketCap : BitVec 8 := 64
  /-- [R294; 6; 20] MEM_CTRL.BUCKET_LEAK -/
  bucketLeak : BitVec 6 := 20
  /-- [R294; 7; 75] MEM_CTRL.HOT_THRESH -/
  hotThresh : BitVec 7 := 75
  /-- [R294; 6; 36] MEM_CTRL.HOT_WINDOW -/
  hotWindow : BitVec 6 := 36
  /-- [R358; 3; 0] PERF_CTRL.LEVEL_REQ -/
  levelReq : BitVec 3 := 0
  /-- [R358; 7; 100] PERF_CTRL.THROTTLE_T -/
  throttleT : BitVec 7 := 100
  /-- [R358; 16; 15625] PERF_CTRL.IDLE_D1 -/
  idleD1 : BitVec 16 := 15625
  /-- [R358; 11; 1650] PWR_CTRL.PWR_LIMIT -/
  pwrLimit : BitVec 11 := 1650
  /-- [R358; 11; 1900] PWR_CTRL.PWR_PEAK -/
  pwrPeak : BitVec 11 := 1900
  /-- [R358; 4; 10] PWR_CTRL.PWR_BURST -/
  pwrBurst : BitVec 4 := 10
  /-- [R117; 1; 0] HK_CTRL.REFEN -/
  refen : Bool := false
  /-- [R163; 24; 0] KV_LOW_MARK -/
  kvLowMark : BitVec 24 := 0
  /-- [R259; 32 x 8; 1 each] PART_WEIGHT, 32 bytes, default 1 -/
  partWeight : Tbl (BitVec 8) := []
  /-- [R408; 64; 0] COUNTER_SEL -/
  counterSel : BitVec 64 := 0
  /-- [R408; 48; 0] COUNTER_VAL.VALUE -/
  counterVal : Nat := 0
  /-- [R408; 1; 1] COUNTER_VAL.INVALID -/
  counterInvalid : Bool := true
  /-- [R338; 64; 0] BOOT_SRC.ADDRESS -/
  bootAddress : BitVec 64 := 0
  /-- [R338; 32; 0] BOOT_SRC.LENGTH -/
  bootLength : BitVec 32 := 0
  /-- [R248; 11; 0] MGMT_VEC -/
  mgmtVec : BitVec 11 := 0
  /-- [R410; 16; 0] KV_REGION -/
  kvRegion : BitVec 16 := 0
  /-- [R410; 16; 0] SAVE_REGION -/
  saveRegion : BitVec 16 := 0
  /-- [R206; 9; 64] GRAFT_STAGE -/
  graftStage : BitVec 9 := 64
  /-- [R375; 4 x 256; 0] OWNER_KEY0 to 3 by 64-bit word, 16 words, default 0 -/
  ownerKey : Tbl (BitVec 64) := []
  /-- [R376; 4 x 32; 0] OWNER_KEY_PARTS by slot, default 0 -/
  ownerParts : Tbl (BitVec 32) := []
  /-- [R404; 32 per register; none] lower halves held, by register offset -/
  lowHalf : List (Nat × BitVec 32) := []
  /-- [R404; 32 per register; none] upper halves latched by a read of the lower half, by register offset -/
  highLatch : List (Nat × BitVec 32) := []
deriving DecidableEq, Repr

/-- The share fields of a partition page (Tables 12-2, 20-6) and its status bits. -/
structure Part where
  /-- [R251; 15; 0] ENTRY_SHARE -/
  entryShare : BitVec 15 := 0
  /-- [R251; 15; 0] PREMIUM_SHARE -/
  premiumShare : BitVec 15 := 0
  /-- [R251; 24; 0] KV_FRAMES -/
  kvFrames : BitVec 24 := 0
  /-- [R251; 16; 0] SAVE_SHARE -/
  saveShare : BitVec 16 := 0
  /-- [R251; 11; 0] VEC_BASE -/
  vecBase : BitVec 11 := 0
  /-- [R251; 1; 0] AFTUS_OVF -/
  aftus : Bool := false
  /-- [R251; 4 x (16, 17); 0] BGn_BASE and BGn_COUNT, default (0, 0) -/
  groups : Tbl (BitVec 16 × BitVec 17) := []
  /-- [R253; 1; 0] ENABLED: ENTRY_SHARE was nonzero at SEAL -/
  enabled : Bool := false
  /-- [R262; 1; 0] RESETTING -/
  resetting : Bool := false
  /-- [R262; 1; 0] steps 1 to 4 of the running reset have ended -/
  resetEnded : Bool := false
  /-- [R262; list; empty] RESET descriptors that the running reset answers (Table 12-4) -/
  resetJobs : List Job := []
  /-- [R262; count; 0] entries ended or released by the running reset -/
  resetCount : Nat := 0
  /-- [R260; signed; 0] deficit of the bulk order -/
  deficit : Int := 0
  /-- [R256; MiB; 0] save space in use -/
  saveUsed : Nat := 0
  /-- [R255; frames; 0] frames charged on each stack -/
  framesCharged : Nat := 0
  /-- [R182; 1; 0] the running fetch stall has been counted -/
  stalled : Bool := false
  /-- [R254; list; empty] submission rings whose running premium stop has been counted -/
  premiumStopped : List Nat := []
  /-- [R244; 2 and 5; (0, 0)] ring of the current turn and descriptors taken in it -/
  turn : Nat × Nat := (0, 0)
deriving DecidableEq, Repr

/-! ### Calls -/

/-- Training state of a TUNE (R213): descriptor operands, reports of the positions, steps done, sections received, and what the call's
tuning area holds of the graft it trains here. -/
structure Tune where
  handle : Nat
  steps : Nat
  resultAddr : Nat
  resultLen : Nat
  /-- tokens of each example, and its buffer: token ids, then the bitmap of target positions -/
  examples : List (Nat × Bytes)
  /-- per position: rank, entry_count, body_length, registered -/
  reports : List (Nat × Nat × Nat × Nat × Bool)
  checked : Bool
  stepsDone : Nat
  sections : List (Nat × Bytes)
  /-- learning rate, β₁, β₂ and ε, FP32 -/
  params : TuneParams := {}
  /-- [R213; FP32 by body element; empty until the first update] master values of A and B in the tuning area -/
  master : List F32 := []
  /-- [R213; FP32 by body element] Adam's first and second moments -/
  moment1 : List F32 := []
  moment2 : List F32 := []
  /-- [R213; FP32] β₁ and β₂ to the number of steps done -/
  powers : F32 × F32 := (0x3F800000, 0x3F800000)
deriving DecidableEq, Repr

/-- The running maximum, sum and output of one query row and head of a canopy row (R174). -/
structure Soft where
  m : F32
  l : F32
  o : List F32
deriving DecidableEq, Repr

/-- A canopy row that a preemption saved (R175): layer, page-table group, row tile, next key tile, and its accumulators. -/
structure SavedRow where
  /-- [MODEL] the step and token of the row's work, to which it returns (R175) -/
  step : Nat := 0
  token : Nat := 0
  layer : Nat
  group : Nat
  row : Nat
  nextKey : Nat
  acc : List Soft
  /-- [MODEL] by query row and head: a score or value that is not finite has been met (R168, R174) -/
  bad : List Bool := []
deriving DecidableEq, Repr

/-- A saved accumulator vector: the header of Table 04-2 as data, and its records (R86). -/
structure Saved where
  matrix : Nat
  takeId : Nat
  tag : Nat
  step : Nat
  colTile : Nat
  token : Nat
  exponent : Int
  retry : Nat
  aftus : Bool
  unbounded : Bool
  records : List (BitVec 64)
  /-- the digest of Table 04-2 as it was written -/
  digest : BitVec 32
  /-- [MODEL] of a withdrawn product: the placed transfer it still needs, by row tile (R19) -/
  needs : List (Nat × Nat) := []
deriving DecidableEq, Repr

/-- A call-sheet entry: the fields of Table 09-1, then what the device keeps with the call. -/
structure Entry where
  /-- [R180; 4; FREE] -/
  state : CallState := .free
  /-- [R179; 1] class -/
  premium : Bool := false
  /-- [R179; 6] -/
  partition : Nat := 0
  hold : Bool := false
  failIfParked : Bool := false
  hasGraft : Bool := false
  hasMatte : Bool := false
  unmirrored : Bool := false
  /-- [R179; 8] -/
  priority : Nat := 0
  /-- [R179; 16] -/
  customer : Nat := 0
  /-- [R158; 8] -/
  kvFormat : Nat := 0
  /-- [R179; 4] -/
  draftDepth : Nat := 0
  /-- [R224; 4] -/
  draftLive : Nat := 0
  /-- [R179; 32] call_tag -/
  tag : Nat := 0
  /-- [R179; 32] -/
  promptLen : Nat := 0
  /-- [R179; 32] -/
  maxNew : Nat := 0
  /-- [R187; 32] -/
  prefilled : Nat := 0
  /-- [R187; 32] -/
  generated : Nat := 0
  /-- [R208; 16] -/
  graftHandle : Nat := 0
  /-- [R208; 16] -/
  graftGen : Nat := 0
  /-- [R214; 32] -/
  matteHandle : Nat := 0
  /-- [R218; 64] -/
  seed : BitVec 64 := 0
  /-- [R187; 32] -/
  step : Nat := 0
  /-- [R196; 64] -/
  deadline : Nat := 0
  /-- [R197; 32] -/
  pace : Nat := 0
  /-- [R192; 64] -/
  due : Nat := 0
  /-- [R183; 64] -/
  admitTick : Nat := 0
  /-- [R183; count; 0] the order of admission: queued calls are charged in it -/
  admitNo : Nat := 0
  /-- [R162; 64] page_dir: nonzero once allocated -/
  pageDir : Nat := 0
  /-- [R194; 64] save_ptr: nonzero while state is saved -/
  savePtr : Nat := 0
  /-- [R218; 64] sampler parameters, Table 10-7 -/
  sampler : BitVec 64 := 0
  /-- the descriptor held until the call ends (R237) -/
  job : Option Job := none
  /-- the prompt's token ids in host memory, read chunk by chunk (R236) -/
  prompt : List Nat := []
  /-- [R183; frames per stack] frame charge -/
  charge : Nat := 0
  /-- [R183, R184; frames per stack] part of the charge that waits to be made while the call is QUEUED -/
  owed : Nat := 0
  /-- [R198; 1] a CANCEL has arrived for the call, here or at position 0 -/
  cancelled : Bool := false
  /-- [R162; Table 08-3] page table: key layer * 4096 + page, value 8 * frame + stack; frame 0 of stack 0 is never used -/
  pages : Tbl Nat := []
  /-- [R162; HBM addresses by layer * 64 + k; none] the directory: list block of pages 64k to 64k + 63 of each layer -/
  lists : Tbl Nat := []
  /-- [R162, R306; 64 by layer * 512 + group; 0] the spread seed under which each page group that holds a page lies -/
  pageSeeds : Tbl (BitVec 64) := []
  /-- [R167; tokens] KV length: committed tokens appended -/
  kvLen : Nat := 0
  /-- [R215; state number] kind 2 matte state -/
  matteState : Nat := 0
  /-- [R216] the STEP_MASK read for a sampling step: step and bitmap -/
  mask : Option (Nat × Bytes) := none
  /-- [R198] CANCEL descriptors that wait for the call's end -/
  cancels : List Job := []
  /-- [R81; 1] the call is marked non-finite -/
  nonfinite : Bool := false
  /-- [R92; 1] UNBOUNDED seen -/
  seenUnbounded : Bool := false
  /-- [R151; 1] TIER seen -/
  seenTier : Bool := false
  /-- [R286; 1] adopted -/
  adopted : Bool := false
  /-- [Table 11-10; 32] steps committed -/
  stepsDone : Nat := 0
  /-- [R184] the held call's last sampled token, not yet appended -/
  carried : Option Nat := none
  /-- [R187] input token of the next decode step -/
  lastToken : Nat := 0
  /-- [R187] whether a first token has been emitted -/
  emitted : Bool := false
  /-- [R187] prompt tokens already given to issued chunks -/
  issuedPrompt : Nat := 0
  /-- [R222] draft tokens proposed for the next verification step -/
  drafts : List Nat := []
  /-- [R222] the draft's distribution for each proposed token -/
  draftQ : List (List (Nat × F32)) := []
  /-- [R222, R225; tokens by layer; 0] tokens that the draft model's KV pages cover -/
  draftKv : Tbl Nat := []
  /-- [R225; 64 pairs] acceptance monitor: proposed, accepted, newest first -/
  pairs : List (Nat × Nat) := []
  /-- [R225; 1] the monitor has turned the draft off -/
  draftOff : Bool := false
  /-- [R225; 32] committed steps since -/
  offSteps : Nat := 0
  /-- [R226; 7 and 16; 10 and 1024] ACCEPT_MIN and REPROBE as the call's latest verification step found them -/
  draftPolicy : Nat × Nat := (10, 1024)
  /-- [R213] -/
  tune : Option Tune := none
  /-- [R86, R194] saved vectors -/
  saved : List Saved := []
  /-- [R175] saved canopy rows: layer, group, row, next key tile, (m, l, o) per query and head -/
  savedRows : List SavedRow := []
  /-- [R194; MiB] save space held -/
  saveSize : Nat := 0
  /-- [R287; 64] tick at which a broken END arrived -/
  brokenAt : Option Nat := none
  /-- [R280, R286; list; empty] step marks that a mirror has received: step and its tokens, oldest first -/
  marks : List (Nat × List Nat) := []
  /-- [R285; 1; 0] at position 0: an adopted call whose last token the last position has still to return -/
  tokenDue : Bool := false
  /-- [R345] ring slots of the records of the last journaled commit -/
  lastRecords : List LastRecord := []
  /-- [R246; 1] the call has ended and its completion record waits for space -/
  ended : Bool := false
  /-- [R199; 1] the ended call's completion record has been written: what it holds is to be freed -/
  written : Bool := false
  /-- [R298; step; none] the step that has met an uncorrectable transient block once -/
  memFailed : Option Nat := none
deriving DecidableEq, Repr

/-- A retake in progress for this position's part of a step (R282, R317). -/
structure RetakeSt where
  sentAt : Nat
  applied : Bool
deriving DecidableEq, Repr

/-- The attention output of one query token and head as engine 7 or the canopy engine assembles it, binary32 (R170, R174). A tuning
call's also keeps what its tuning area in HBM holds: the row statistics of Table 08-6, and the rotated query and the output in BF16
(R176). -/
structure AttnOut where
  layer : Nat
  token : Nat
  head : Nat
  out : List F32
  rowMax : F32 := 0
  lse : F32 := 0
  query : List BF16 := []
  outBf : List BF16 := []
deriving DecidableEq, Repr

/-- A gradient of a tuning step in binary32 (R177, R213): `part` 0 dQ, 1 dK, 2 dV of a layer's head, before the rotation is undone;
3 the gradient of a matrix's outputs, its column input vector (`layer` is then the matrix_id and `head` 0). -/
structure Grad where
  part : Nat
  layer : Nat
  token : Nat
  head : Nat
  values : List F32
deriving DecidableEq, Repr

/-- A step in flight on this device (R187). -/
structure Step where
  call : Nat
  step : Nat
  kind : StepKind
  /-- input tokens -/
  tokens : List Nat
  /-- first token index -/
  first : Nat
  premium : Bool
  partition : Nat
  epoch : Nat
  image : Nat
  /-- the step samples (R187) -/
  samples : Bool
  unbounded : Bool := false
  tier : Bool := false
  suspect : Bool := false
  /-- continuity checks queued and not complete (R113, R316) -/
  checks : Nat := 0
  /-- the partner's acknowledgement of the step's mark is held (R280) -/
  acked : Bool := false
  marked : Bool := false
  /-- positions whose JACK has arrived (R280, R316) -/
  jacks : List Nat := []
  jackSent : Bool := false
  retake : Option RetakeSt := none
  retaken : Bool := false
  /-- the tokens that a retake of the last position returned (R318) -/
  returned : Option (List Nat) := none
  /-- logits by sampling position, one binary32 per vocabulary entry -/
  logits : List (Nat × List F32) := []
  nonfinite : Bool := false
  /-- counted in MASK_WAITS, TOKEN_RING_WAITS -/
  maskWaited : Bool := false
  ringWaited : Bool := false
  /-- the step's attempt is discarded and waits for new input (R317) -/
  discarded : Bool := false
  /-- placed transfers complete (R19) -/
  xferDone : Nat := 0
  /-- output kept for the comparison of R318 -/
  output : List ActItem := []
  /-- the input the part received (R317) -/
  input : List ActItem := []
  /-- [R79, R282] running sums received, and formed, by the part -/
  inSums : List SumItem := []
  outSums : List SumItem := []
  /-- [MODEL; tick] the tick at which the step began on this position (R194) -/
  startedAt : Nat := 0
  /-- the step's kind 3 mask wait is on (R216) -/
  waitsMask : Bool := false
  /-- appends written for this step (R166): layer * 2^20 + token -/
  appended : List Nat := []
  /-- [MODEL] number of the batch that holds the step -/
  batch : Nat := 0
  /-- [R145] vectors handed off by matrix -/
  outs : Tbl Nat := []
  /-- [R108; 3] continuity fraction code of the step's class at the step's boundary -/
  cont : Nat := 0
  /-- [R311, R315] units the step has used: by tile * 8 + deck, or 2^17 + the number of a unit of Table 15-3, the uses and the last
  use's tick -/
  used : Tbl (Nat × Nat) := []
  /-- [R222] committed at the last position: the tokens that leave with the draft tokens once the draft passes have run -/
  drafting : Option (List Nat) := none
  /-- [R225; tokens] where the draft prefill ahead of the passes begins -/
  draftFrom : Nat := 0
  /-- [R170, R174, R176] attention outputs formed so far -/
  attn : List AttnOut := []
  /-- [R177, R213] gradients formed so far by a tuning step -/
  grads : List Grad := []
  /-- [R213] gradient vectors that the next position has sent upstream -/
  backIn : List ActItem := []
  /-- [R194; tick; none] the tick since which the premium step waits for canopy lanes -/
  waitsSince : Option Nat := none
  /-- [R194; 1; 0] its finding of no save space has been counted -/
  spaceCounted : Bool := false
deriving DecidableEq, Repr

/-- A customer record (Table 09-4). -/
structure Customer where
  valid : Bool := false
  parkEvent : Bool := false
  capacity : Nat := 0
  refill : Nat := 0
  promptWeight : Nat := 0
  interval : Nat := 0
  level : Int := 0
  nextRefill : Nat := 0
deriving DecidableEq, Repr

/-- A batch being filled or in flight (R189). -/
structure Batch where
  firstTick : Nat
  /-- calls whose steps the batch holds -/
  calls : List Nat
  epoch : Nat
deriving DecidableEq, Repr

/-- The fields of SCHED_CTRL as the latest batch found them (R188). -/
structure Sched where
  /-- [R188; 10; 256] -/
  batchMax : Nat := 256
  /-- [R188; 8; 32] -/
  chunkLen : Nat := 32
  /-- [R188; 16; 0] -/
  batchWindow : Nat := 0
  /-- [R188; 16; 1563] -/
  preemptWait : Nat := 1563
deriving DecidableEq, Repr

/-- A half of a stage area (R212): the batch and the layer whose grafts it holds, one copy for each handle and generation, in batch
order. -/
structure StageHalf where
  batch : Nat
  layer : Nat
  grafts : List (Nat × Nat)
deriving DecidableEq, Repr

/-- A resident graft generation (Tables 10-1, 10-2). -/
structure Graft where
  handle : Nat
  generation : Nat
  partition : Nat
  rank : Nat
  imageId : Nat
  alpha : F32
  /-- matrix_id, a_offset, b_offset -/
  entries : List (Nat × Nat × Nat)
  body : Bytes
  current : Bool
  pins : Nat
deriving DecidableEq, Repr

/-- A registered matte (Tables 10-4 to 10-6). -/
structure Matte where
  handle : Nat
  partition : Nat
  kind : Nat
  vocab : Nat
  tokens : List Nat
  /-- mask, default_next, trans_first, trans_n, end -/
  states : List (Nat × Nat × Nat × Nat × Bool)
  masks : List Bytes
  trans : List (Nat × Nat)
  start : Nat
deriving DecidableEq, Repr

/-! ### Tiles and lanes -/

/-- The sums that a column or row gain fit accumulates (R125) over its fit phases, of t*v, v*v and t*t, in units of (2^-16 LSB)^2
(DESIGN CHOICE, log 138: the manual gives the sums no unit). -/
structure FitSum where
  index : Nat
  tv : Int := 0
  vv : Nat := 0
  tt : Nat := 0
deriving DecidableEq, Repr

/-- A fit of one deck in progress: sums by column and by row, forward and transposed phases run. -/
structure FitAcc where
  cols : List FitSum := []
  rows : List FitSum := []
  forward : Nat := 0
  transposed : Nat := 0
deriving DecidableEq, Repr

/-- A deck: its 32-byte record (Table 02-3) and its run-time state. -/
structure Deck where
  /-- [Table 02-3; 32; 0] -/
  takeCount : Nat := 0
  /-- [R24; 64; 0] age as last recorded -/
  recAge : Nat := 0
  /-- [Table 02-4; 4; EMPTY] -/
  state : DeckState := .empty
  /-- [Table 02-3; 4; 0] -/
  format : Nat := 0
  /-- [Table 02-3; 8 signed; 0] °C -/
  progTemp : Int := 0
  /-- [Table 02-3; 32; 0] -/
  matrixId : Nat := 0
  /-- [Table 02-3; 32; 0] -/
  takeId : Nat := 0
  /-- [Table 02-3; 64; 0] -/
  digest : BitVec 64 := 0
  /-- [R25; 1; 0] held UNVERIFIED after a cold start -/
  unverified : Bool := false
  /-- [R25; 2; 0] parts of the sampled check done: sweep, clapper -/
  sampled : Bool × Bool := (false, false)
  /-- [R24; 64; 0] local tick to which `recAge` belongs -/
  ageFrom : Nat := 0
  /-- [R99; 16; 0x8000] applied drift factor, 1.15 -/
  drift : Nat := 0x8000
  /-- [R99; 16; 0x8000] target drift factor -/
  driftTarget : Nat := 0x8000
  /-- [R96; 512 x 16; 0x8000] applied column gains -/
  colGain : Tbl Nat := []
  colTarget : Tbl Nat := []
  /-- [R97; 1024 x 16; 0x8000] applied row gains -/
  rowGain : Tbl Nat := []
  rowTarget : Tbl Nat := []
  /-- [R35; 3; 0] sweeps run: rotation in bits 1:0, half alternating -/
  sweeps : Nat := 0
  /-- [R309; 1; 0] clapper phases run -/
  claps : Nat := 0
  sweptAt : Nat := 0
  clappedAt : Nat := 0
  /-- [R46; signed; 0] largest residual of the latest sweep, 1/256 LSB -/
  residual : Int := 0
  /-- [R130; 1; 0] post-programming fit complete -/
  fitted : Bool := false
  /-- [Table 06-3; count; 0] fit counter: fit phases run since the deck was programmed -/
  fitNo : Nat := 0
  /-- [R125, R130; sums; none] sums of the fit that is being made -/
  fit : FitAcc := {}
  /-- [R341; bytes; empty] codes digested so far by the background check -/
  verifying : Bytes := []
  /-- [R341; 1; 0] compared since the cold start -/
  verified : Bool := false
deriving DecidableEq, Repr

/-- A remap entry (Table 02-11). -/
structure Remap where
  column : Nat := 0
  active : BitVec 8 := 0
  suspend : BitVec 8 := 0
deriving DecidableEq, Repr

/-- A programming run (02, "Programming"). -/
structure ProgJob where
  deck : Nat
  takeId : Nat
  matrix : Nat
  image : Nat
  rowTile : Nat
  colTile : Nat
  /-- first pass over rows, then the pass over newly assigned spares -/
  second : Bool := false
  row : Nat := 0
  /-- resets of the row done; then iterations done -/
  resets : Nat := 0
  iter : Nat := 0
  failed : List Nat := []
  spares : List Nat := []
  cells : Nat := 0
  started : Bool := false
  /-- order of request (R43) -/
  order : Nat := 0
deriving DecidableEq, Repr

/-- A suspect that waits for its repeat (R313, R314). -/
structure Repeat where
  /-- the suspect product; none for a clapper phase -/
  prod : Option Nat
  deck : Nat
  /-- row half of a clapper phase -/
  half : Nat
  /-- columns that failed -/
  cols : List Nat
  /-- detector of Table 15-6 -/
  detector : Nat
  /-- largest deviation seen, 1/256 LSB -/
  deviation : Int
  /-- digit position of the failure: 0 low or A4, 1 high -/
  digit : Nat
deriving DecidableEq, Repr

/-- A tile (Table 02-1). -/
structure Tile where
  /-- [R411; 1; 0] retired from manufacture -/
  mfgBad : Bool := false
  /-- [R40; 1; 0] -/
  retired : Bool := false
  /-- [R24; 8 records] deck d's record, default the record of manufacture -/
  decks : Tbl Deck := []
  /-- [R37; 16 entries] default the free entry -/
  remap : Tbl Remap := []
  /-- [R36] -/
  active : Act := .idle
  /-- [R36] products whose next phase waits, in order of arrival -/
  queue : List Nat := []
  /-- [R44] programming jobs, in order of request -/
  jobs : List ProgJob := []
  /-- [R44; 1; 0] a program step is owed -/
  owed : Bool := false
  /-- [R44; 1; 0] the owed interval runs -/
  owing : Bool := false
  /-- [R126; 1; 0] a forced gap withholds the next product grant -/
  forced : Bool := false
  /-- [R104; 1; 0] held by an overflow pass of its tile group -/
  held : Bool := false
  /-- [R126; 64; 0] tick of the last gap phase -/
  gapAt : Nat := 0
  /-- [R109, R128; count; 0] products -/
  products : Nat := 0
  /-- [Table 02-9; 256 x 12; 0] applied slice offsets, 1/64 LSB -/
  offset : Tbl Int := []
  offsetTarget : Tbl Int := []
  /-- [Table 02-9; 256 x 16; 0x8000] applied slice gains -/
  gain : Tbl Nat := []
  gainTarget : Tbl Nat := []
  /-- [Table 02-9; 256 x 6; 0] skews and their targets -/
  skew : Tbl Int := []
  skewTarget : Tbl Int := []
  /-- [R314; one; none] repeat pending -/
  repeat_ : Option Repeat := none
  /-- [R314; list; empty] suspects folded into the next repeat, in order of arrival -/
  folded : List Repeat := []
deriving DecidableEq, Repr

/-- A bough: reference generator, switch, correction lane and calibration (R120, R123, R366). -/
structure Bough where
  ref : RefState := .cold
  switch : SwitchState := .closed
  /-- [R118; 16 signed; 0] last valid temperature, 1/16 °C -/
  temp : Int := 0
  /-- [R118; 1; 0] the latest sample is valid -/
  tempValid : Bool := false
  /-- [R123; 16 signed; none] calibration temperature -/
  calTemp : Option Int := none
  runOn : Bool := false
  runPending : Bool := false
  /-- [R126; 64; 0] tick at which the run started -/
  runFrom : Nat := 0
  /-- [R124; list; empty] reference sweeps of the run: tile, deck, sweep number and codes -/
  runSweeps : List (Nat × Nat × Nat × List Int) := []
  /-- [R127; list; empty] decks that entered PROGRAMMING during the run: tile * 8 + deck -/
  runSkip : List Nat := []
  /-- [R131; 1; 0] the slice parameters wait for the zero read and injection reads of a start -/
  coldCal : Bool := false
  /-- [R127] valid samples taken during the run: sum and count -/
  runSum : Int := 0
  runCount : Nat := 0
  /-- [R123; 1; 0] a run has completed since the start -/
  runDone : Bool := false
  /-- [R321; 1; 0] -/
  withdrawn : Bool := false
  /-- [R366; 64; 0] tick of the last grant -/
  lastGrant : Nat := 0
  /-- [R113; at most 8] products whose continuity check is pending -/
  checks : List Nat := []
  /-- [R85; 1; 0] a drain waits for this bough -/
  draining : Bool := false
  /-- [R351; list; empty] the RESET descriptors of scope 4 that the running bough reset answers -/
  resetJobs : List Job := []
  /-- [R121; list; empty] rings whose ARRAY_TEST waits for the reference -/
  testWaits : List RingId := []
  /-- [R121, R366] products that wait for the reference or the switch -/
  waiting : List Nat := []
deriving DecidableEq, Repr

/-- What the calibration save area holds of one bough (R131): the calibration temperature, and by tile the targets and
applied values of every correction parameter (the other fields of a tile are not part of the area). -/
structure CalSave where
  temp : Option Int := none
  tiles : List (Nat × Tile) := []
deriving DecidableEq, Repr

/-- A tile product in flight (R73 to R75, R94, R95). -/
structure Prod where
  id : Nat
  key : SumKey
  rowTile : Nat
  tile : Nat
  deck : Nat
  premium : Bool
  a8 : Bool
  transposed : Bool
  mode : ProdMode
  image : Nat
  format : Nat
  /-- drive code D (R62) -/
  drive : Nat
  /-- aligned codes of the span, before a retry's halving -/
  codes : List Int
  /-- high and low digits by row -/
  high : List Int
  low : List Int
  /-- phases still to run: (high digit?, first row, last row + 1) -/
  plan : List (Bool × Nat × Nat)
  /-- phases planned per digit position (high, low), for the bounds -/
  planned : Nat × Nat
  /-- corrected totals by column, 2^-16 LSB (R74 step 2) -/
  hiVal : List Int
  loVal : List Int
  clipped : List Nat
  zeroInput : Bool
  nonfinite : Bool
  /-- latched at the first phase (R95): slice offsets, slice gains, column gains, drift factor, suspended columns -/
  latched : Bool
  offsets : Tbl Int
  gains : Tbl Nat
  colGains : Tbl Nat
  drift : Nat
  suspended : List Nat
  /-- outlier rows still to be read in line, and in the overflow pass -/
  inline : List (Nat × F32)
  overflow : List (Nat × F32)
  /-- outlier sum by column in units of 2^-173, and its non-finite class -/
  outSum : List Int
  outNf : List (Option Acc)
  /-- the overflow or clip pass is still to run -/
  passNeeded : Bool
  unbounded : Bool
  suspect : Bool
  sampledCh : Option Nat
  retry : Nat
  /-- its bough has added its terms; the product is kept for a check or a repeat (R313) -/
  summed : Bool := false
  /-- [R88] the 105 °C column of Table 04-3 applied at its first phase -/
  hot : Bool := false
  /-- [R291] bits that miscorrected reads of its master slot delivered wrong, by byte of the slot -/
  wrong : List (Nat × Byte) := []
  /-- [R106] suspended columns whose master column is still to be read, numbered from 1,024 -/
  susp : List Nat := []
  /-- [R17; 1; 0] the wait that runs behind another deck of its tile has been counted -/
  waited : Bool := false
deriving DecidableEq, Repr

/-- The running sum of one column tile on this device (R77, R82). -/
structure SumRun where
  key : SumKey
  accs : List Acc
  /-- boughs that have added, in order -/
  added : List Nat
  retry : Nat
  overflowed : Bool
  /-- a graft term awaited, or given -/
  graft : Option (List F32)
  needsGraft : Bool
  started : Bool
  unbounded : Bool
  /-- the running sums received from the position before (R79), and their retry count -/
  base : List Acc := []
  baseRetry : Nat := 0
deriving DecidableEq, Repr

/-- A vector handed off (R77 step 5). -/
structure Handoff where
  key : SumKey
  /-- 1 special-function unit, 2 hub, 3 taproot engine, 4 relay port D -/
  kind : Nat
  unit : Nat
  exponent : Int
  accs : List Acc
  unbounded : Bool
  /-- [R82, R87; 2] Aftus retry count -/
  retry : Nat := 0
deriving DecidableEq, Repr

/-- A quantised input vector in a step's activation buffer (R59, R61, R73): the matrix it feeds, its blocks, and the outliers that
have left it, by element in ascending order. A transposed product's vector is quantised for each row tile of its outputs (R76). -/
structure ActVec where
  work : WorkRef
  matrix : Nat
  /-- the row tile of a transposed product's outputs -/
  transposed : Option Nat
  a8 : Bool
  blocks : List Block
  outliers : List (Nat × F32)
  /-- the unit that quantised it (R72): a bough's special-function unit, 128 taproot engine 7, 129 another position -/
  unit : Nat
deriving DecidableEq, Repr

/-! ### Weights -/

/-- A matrix entry of the placement file with its correction record (Tables 07-7, 05-3). -/
structure Mat where
  id : Nat
  layer : Nat
  kind : Nat
  format : Nat
  inputs : Nat
  outputs : Nat
  exponent : Int
  rowFirst : Nat
  rowTiles : Nat
  destKind : Nat
  destUnit : Nat
  transposed : Bool
  sInline : Bool
  sOverflow : Bool
  sClip : Bool
  sCont : Bool
  deckFirst : Nat
  threshold : F32
  budget : Nat
  ovfLimit : Nat
deriving DecidableEq, Repr

/-- A transfer entry (07, after Table 07-7). -/
structure Xfer where
  kind : Nat
  die : Nat
  back : Nat
  src : Nat
  dst : Nat
  len : Nat
deriving DecidableEq, Repr

/-- A placement file as it is loaded (Tables 07-5 to 07-7). -/
structure Placement where
  layout : Nat
  position : Nat
  chainLength : Nat
  imageId : Nat
  mats : List Mat
  /-- deck references: tile, deck -/
  decks : List (Nat × Nat)
  xfers : List Xfer
  raw : Bytes
deriving DecidableEq, Repr

/-- An attention record (Table 08-1). -/
structure Attn where
  layer : Nat
  queryHeads : Nat
  kvHeads : Nat
  ropeBase : F32
  window : Nat
deriving DecidableEq, Repr

/-- A resident image generation (R136). -/
structure Gen where
  imageId : Nat
  baseId : Nat
  chainLength : Nat
  /-- manifest bytes before the signature block -/
  manifest : Bytes
  accepted : List Nat
  placement : Option Placement
  attn : List (Attn × Bytes)
  /-- [R142, R156] layers whose attention record has passed from a released base -/
  attnPassed : List Nat := []
  /-- [R148; 1; 0] a generation that supplies nothing here has been reported ARMED -/
  armSent : Bool := false
  /-- matrices whose master slots are allocated (R412) -/
  allocated : List Nat
  /-- manifests of released bases whose matrices have passed to this generation (R142), newest first -/
  bases : List Bytes := []
  /-- entries of a newer placement file whose exponent, flags or correction record wait for their batch boundary (R152) -/
  nextMats : List Mat := []
  live : Bool
  lost : Bool
deriving DecidableEq, Repr

/-- Names a master slot (07, "Conversion and the master copy"). -/
structure SlotKey where
  image : Nat
  matrix : Nat
  rowTile : Nat
  colTile : Nat
deriving DecidableEq, Repr

/-- A master slot: its 266,240 bytes sparsely (Table 07-4), and the 64-column groups converted. -/
structure Slot where
  key : SlotKey
  bytes : Tbl Byte
  groups : List Nat
deriving DecidableEq, Repr

/-- A chunk accepted for this position and not yet converted (R141). -/
structure ChunkJob where
  image : Nat
  bytes : Bytes
deriving DecidableEq, Repr

/-- A matrix binding (R145). -/
structure Binding where
  image : Nat
  slow : Bool
  decks : List (Nat × Nat)
  takeId : Nat
deriving DecidableEq, Repr

/-- A take (Table 07-8). -/
structure Take where
  id : Nat
  refresh : Bool
  firmware : Bool
  image : Nat
  mats : List Nat
  st : TakeState
  job : Option Job
  inPlace : Bool
  /-- matrix, row tile, column tile, tile, deck of every target -/
  targets : List (Nat × Nat × Nat × Nat × Nat)
  left : Nat
  /-- matrices that wait for the cut to the slower tier before their decks are programmed in place (R134, R149, R150) -/
  toSlow : List Nat
  /-- matrices whose return cut is still to come, ascending -/
  toReturn : List Nat
  /-- the DRIFTED deck that a drift re-take replaces (R133) -/
  drift : Option (Nat × Nat) := none
deriving DecidableEq, Repr

/-- An object that waits for its signature check (R377). -/
inductive SigObject where
  | manifest (bytes : Bytes) (job : Option Job)
  | placement (bytes : Bytes) (job : Job)
  | graft (bytes : Bytes) (ring : RingId) (job : Job)
  | firmware (bytes : Bytes) (slot : Nat) (job : Job)
deriving DecidableEq, Repr

/-- The running outlier histogram of a matrix (R105): 18 bins. -/
structure Histo where
  matrix : Nat
  bins : List Nat
  passes : Nat
deriving DecidableEq, Repr

/-- A canopy lane's row in progress (R174). -/
structure CanopyRow where
  lane : Nat
  work : WorkRef
  layer : Nat
  group : Nat
  row : Nat
  nextKey : Nat
  /-- (m, l, o) per query row and head -/
  acc : List Soft
  bad : List Bool
  /-- [R175; 1; 0] the block that ran when a drain of its call began has finished -/
  stopped : Bool := false
deriving DecidableEq, Repr

/-- A row of a layer's backward attention (R177): the lane that runs it, and its next key tile. -/
structure BackRow where
  lane : Nat
  work : WorkRef
  layer : Nat
  group : Nat
  row : Nat
  nextKey : Nat
  /-- its last block has run -/
  ended : Bool := false
deriving DecidableEq, Repr

/-- The page entries of a call's layer as the engines have latched them for a step (R168, R172). The passes of a draft latch anew: the
token of the pass, 0 for the step itself. -/
structure Latch where
  call : Nat
  step : Nat
  pass : Nat
  layer : Nat
  /-- page entries by page number -/
  pages : Tbl Nat
deriving DecidableEq, Repr

/-- Attention work that waits: for its placed transfer (R19), or for the power account (R361). -/
structure AttnWait where
  needs : Nat
  cmd : AttnCmd
deriving DecidableEq, Repr

/-- The work that attention work serves. -/
def AttnWait.work (x : AttnWait) : WorkRef :=
  match x.cmd with
  | .append w _ _ _ _ => w
  | .taproot w _ _ _ => w
  | .canopy _ w _ _ _ _ _ => w
  | .backward _ w _ _ _ _ => w

/-! ### Links and partner -/

/-- A flit in a replay buffer (R269). -/
structure SentFlit where
  seq : BitVec 12
  channel : Nat
  body : FlitBody
deriving DecidableEq, Repr

/-- One Aftlink port (13). -/
structure Link where
  state : PortState := .down
  /-- [Table 13-10; lanes; 0] active lanes -/
  width : Nat := 0
  group : Nat := 0
  /-- [R273; 16; 0] weak lanes -/
  weak : BitVec 16 := 0
  txSeq : BitVec 12 := 0
  /-- next sequence number expected -/
  rxSeq : BitVec 12 := 0
  replay : List SentFlit := []
  /-- [R267; Table 13-4] credits held by channel -/
  credits : List Nat := [16, 64, 128, 32]
  /-- receive buffers freed and not yet returned, by channel -/
  owed : List Nat := [0, 0, 0, 0]
  /-- flits that wait for a credit, replay room or the port, by channel -/
  queue : List (List FlitBody) := [[], [], [], []]
  /-- discarding until the expected number arrives (R268) -/
  discarding : Bool := false
  /-- consecutive failures of the oldest flit (R271) -/
  fails : Nat := 0
  /-- tick since which the port is DOWN -/
  downSince : Option Nat := none
  broken : Bool := false
  /-- POSN or position disagreed: no traffic (R276) -/
  miscabled : Bool := false
  /-- a far end has answered a training since the cold start (R276: the last position has no link on port D) -/
  present : Bool := false
  /-- a flit has been accepted since the cold start, so acknowledgements are in force -/
  heard : Bool := false
  /-- [R275; list; empty] RESET descriptors of scope 5 that wait for training -/
  resetJobs : List Job := []
deriving DecidableEq, Repr

/-- What a device knows of its partner (R277 to R288). -/
structure Partner where
  /-- declared lost, or absent -/
  lost : Bool := false
  absent : Bool := true
  fenced : Bool := false
  misses : Nat := 0
  /-- tick at which the miss timer started -/
  timer : Nat := 0
  holdUntil : Option Nat := none
  sleeping : Bool := false
  warmHold : Bool := false
  lastBeat : Nat := 0
  /-- own tick minus the sender's tick less 73 (R278) -/
  offset : Int := 0
  /-- [R277; position and twin side; none] what the partner's last DISCOVER said -/
  said : Option (Nat × Nat) := none
  /-- tick at which FENCE_OUT was asserted for the running fence wait -/
  fenceAt : Option Nat := none
  /-- retakes being served (R282) -/
  serving : List RetakeReq := []
  /-- own heartbeat: tick of the last one sent -/
  sentAt : Nat := 0
deriving DecidableEq, Repr

/-! ### Memory protection -/

/-- A correction bucket (R293). -/
structure Bucket where
  level : Nat := 0
  /-- block indexes corrected since the last overflow and their counts; the four most corrected are reported -/
  addrs : List (Nat × Nat) := []
  leakAt : Nat := 0
deriving DecidableEq, Repr

/-- A merge-buffer entry (R299). -/
structure Merge where
  block : Nat
  bytes : Tbl Nat
  touched : Nat
deriving DecidableEq, Repr

/-- A queue-pressure monitor (R305). -/
structure Hot where
  windowFrom : Nat := 0
  /-- HOT_WINDOW and HOT_THRESH as the running window found them (R294) -/
  window : Nat × Nat := (36, 75)
  samples : Nat := 0
  hits : Nat := 0
  total : Nat := 0
  channels : Tbl Nat := []
  sampledAt : Nat := 0
deriving DecidableEq, Repr

/-- A background job of the memory system: RETIRE, FILL or REHASH (R301, R303, R306). -/
structure MemJob where
  job : Job
  a : Nat
  b : Nat
deriving DecidableEq, Repr

/-! ### Faults, power and security -/

/-- A unit's slates (R312, R315). -/
structure Slate where
  number : Nat := 0
  startedAt : Nat := 0
  failedOnce : Bool := false
  passedAt : Nat := 0
  overdue : Bool := false
  /-- [R312; count; 0] while overdue: the interval of 2^13 ticks, counted from 1, whose one grant has been withheld -/
  withheld : Nat := 0
  doneThisStart : Bool := false
deriving DecidableEq, Repr

/-- Counts since the last DAILY (Table 15-8). -/
structure Daily where
  transient : Nat := 0
  permanent : Nat := 0
  suspectSteps : Nat := 0
  retakes : Nat := 0
  settled : Nat := 0
  mismatches : Nat := 0
  slates : Nat := 0
  tempMax : Int := -32768
  /-- the multiple of 2^32 at which the last DAILY was written -/
  written : Nat := 0
deriving DecidableEq, Repr

/-- An entry to D2 or D3 in progress (R367, R368). -/
structure EntrySt where
  target : DState
  /-- step in progress, 1 to 5 -/
  step : Nat
  abort : Bool
  job : Job
  /-- boughs whose run was abandoned -/
  runs : List Nat
  /-- state before -/
  before : DState
deriving DecidableEq, Repr

/-- A wake in progress (R371). -/
structure WakeSt where
  from_ : DState
  /-- 0 regulator, 1 oscillator, 2 memory, 3 logic -/
  phase : Nat
  job : Option Job
deriving DecidableEq, Repr

/-- A firmware slot (18, "Firmware images and slots"). -/
structure FwSlot where
  bytes : Bytes := []
  valid : Bool := false
  digest : Bytes := []
  svn : Nat := 0
deriving DecidableEq, Repr

/-- A live cut-over in progress (R382). -/
structure Cutover where
  slot : Nat
  job : Job
  switched : Bool
  switchTick : Nat
deriving DecidableEq, Repr

/-- A housekeeping conversion in progress (R118, R119). -/
structure Conv where
  channel : Nat
  start : Nat
  /-- the HK_SAMPLE descriptor that asked, for an urgent request -/
  job : Option Job
  urgent : Bool
deriving DecidableEq, Repr

/-- A housekeeping sample (R118). -/
structure Sample where
  value : Int := 0
  valid : Bool := false
  tick : Nat := 0
deriving DecidableEq, Repr

/-- The pins' levels and the causes behind ALERT_N (19). -/
structure Pins where
  /-- [R330; 1; asserted] PORST_N is asserted (low) -/
  porst : Bool := true
  /-- [R330; 1; released (DESIGN CHOICE, log 3)] WRST_N is asserted (low) -/
  wrst : Bool := false
  /-- [R284; 1; deasserted (DESIGN CHOICE, log 3)] FENCE_IN -/
  fenceIn : Bool := false
  /-- [R389; 1; deasserted] FENCE_OUT -/
  fenceOut : Bool := false
  /-- [R350; 1; released] THERMTRIP_N is asserted (low) -/
  thermtrip : Bool := false
  /-- [R394; 1; present (DESIGN CHOICE, log 3)] REFCLK runs -/
  refclk : Bool := true
  /-- [R348; 1; 0] ALERT_N: safe state -/
  alertSafe : Bool := false
  /-- [R365; 1; 0] ALERT_N: above 105 °C at P7 -/
  alertHot : Bool := false
  /-- [R394; 1; 0] ALERT_N: REFCLK absent -/
  alertClock : Bool := false
  /-- [R363; 1; 0] ALERT_N: regulator fault -/
  alertRail : Bool := false
  /-- [R401; 8; BYPASS (DESIGN CHOICE, log 3)] JTAG instruction in effect -/
  jtag : JtagOp := .bypass
deriving DecidableEq, Repr

/-- Reset and start (16). -/
structure Boot where
  /-- [R337, R344; Phase; held in cold reset] -/
  phase : Phase := .heldCold
  /-- [R328; 4; 1] source of the reset in force -/
  source : Nat := 1
  /-- [R331] a reset held for a running program pulse: cold? and source -/
  heldReset : Option (Bool × Nat) := none
  /-- [R337; 16; 0] steps of the running start that have ended, by step number -/
  done : BitVec 16 := 0
  /-- [R348; 8; none] step code that has failed and awaits START_FAIL -/
  failedStep : Option Nat := none
  /-- [R348; 2; 0] failed-start count, BOOT_ATTEMPTS -/
  attempts : Nat := 0
  /-- [R399; 3 x 8; empty] step codes of the last failed starts, newest first -/
  failCodes : List Nat := []
  /-- [Table 16-7; 64; 0] tick at release -/
  releasedAt : Nat := 0
  /-- [R115; 1; 0] which copy the option loader reads: false A, true B -/
  copyB : Bool := false
  /-- [R337; 1; 0] the firmware images read and being checked; GO has been given (R338) -/
  go : Bool := false
  /-- [R338; 64; 0] tick at which the fetch's time limit began -/
  fetchFrom : Nat := 0
  /-- [R350; 1; 0] held by a thermal trip -/
  tripped : Bool := false
  /-- [R350; count; 0] channels read below 110 °C in the running round -/
  coolCount : Nat := 0
  /-- [R248; 1; 0] an empty call sheet is wanted after this warm start (R284) -/
  emptySheet : Bool := false
  /-- [R349; 1; 0] watchdog paused -/
  dogPaused : Bool := false
  /-- [R349; 64; 0] last service -/
  dogAt : Nat := 0
  /-- [R380; 1; 0] the running image has serviced the watchdog -/
  dogServed : Bool := false
  /-- [R343; 1; 0] a drain of every call has been asked by RESET scope 2 -/
  warmJob : Option Job := none
  /-- [R297] a weight block has been lost: generation and matrix -/
  weightLost : Option (Nat × Nat) := none
  /-- [R329] RESET descriptors of scope 4 and 5 to be completed with RESET_LOST when the start ends -/
  lostJobs : List Job := []
  /-- [R276; 1; 0] the chain position has been learned since the cold reset -/
  posKnown : Bool := false
deriving DecidableEq, Repr

/-- Housekeeping (06). -/
structure Hk where
  /-- [R117; 64; none] tick at which REFEN rose -/
  refenAt : Option Nat := none
  /-- [R117; 1; 0] reference ready -/
  refReady : Bool := false
  /-- [R118; one; none] conversion running -/
  busy : Option Conv := none
  /-- [R118; 8; 0] next round-robin channel -/
  next : Nat := 0
  /-- [R118; 64; 0] tick of the last slot -/
  slotAt : Nat := 0
  /-- [R118; 164 samples; invalid] -/
  samples : Tbl Sample := []
  /-- [R364; 1; 0] some sample of the running round is at or above THROTTLE_T, and its sensor and value -/
  roundHot : Option (Nat × Int) := none
  /-- [R364; 1; 1] every sample of the running round is at or below THROTTLE_T - 5 °C -/
  roundCool : Bool := true
  /-- [R364; 5; 0] consecutive cool rounds -/
  coolRounds : Nat := 0
  /-- [R364; list; empty] sensors for which urgent samples are asked, with the tick of the last request -/
  hot : List (Nat × Nat) := []
  /-- [R365; 1; 0] some sensor reads above 105 °C -/
  above105 : List Nat := []
deriving DecidableEq, Repr

/-- The fields of Table 17-4 that act in a pacer window (R358). -/
structure PowerPolicy where
  levelReq : BitVec 3 := 0
  throttleT : BitVec 7 := 100
  idleD1 : BitVec 16 := 15625
  pwrLimit : BitVec 11 := 1650
  pwrPeak : BitVec 11 := 1900
  pwrBurst : BitVec 4 := 10
deriving DecidableEq, Repr

/-- Power (17). -/
structure Power where
  /-- [R358; six fields; cold values] the fields of Table 17-4 as they act in the running pacer window -/
  policy : PowerPolicy := {}
  /-- [R354; DState; D0] -/
  dstate : DState := .d0
  /-- [R364; 3; P0] -/
  thermalFloor : Nat := 0
  /-- [R363; 3; P0] -/
  regFloor : Nat := 0
  /-- [R363; 64; 0] tick of the last warning or return -/
  warnAt : Nat := 0
  /-- [R359; level; none] level step in progress: target level -/
  stepTo : Option Nat := none
  /-- [R359; 3; 2] level of the pacer rate -/
  pacerLevel : Nat := 2
  /-- [R361; nJ; 0] power account -/
  account : Int := 0
  /-- [R361; nJ; 0] charged in the running window -/
  charged : Nat := 0
  /-- [R361; 64; 0] tick at which the running window began -/
  windowAt : Nat := 0
  /-- [R362; nJ by level * 16 + kind; empty] charge table held by firmware, default 0 -/
  charges : Tbl Nat := []
  /-- [R362; 1/65,536; 65,536] scale on all charges -/
  scale : Nat := 65536
  /-- [R362; 64; 0] tick of the last rescale -/
  scaledAt : Nat := 0
  /-- [R356; 64; 0] tick since which the pacer has had nothing to grant -/
  idleSince : Nat := 0
  /-- [R367; one; none] -/
  entry : Option EntrySt := none
  /-- [R371; one; none] -/
  wake : Option WakeSt := none
  /-- [R353; 6 rails; on] rails switched off by the LM1 or by a fault: PMBus addresses -/
  railsOff : List Nat := []
  /-- [R365; 1; 0] the pacer grants only every second cycle -/
  halved : Bool := false
  /-- [R362; mJ; 0] measured energy since cold start -/
  energy : Nat := 0
deriving DecidableEq, Repr

/-- Security (18). -/
structure Sec where
  /-- [R379; two slots in HBM; empty] -/
  slots : Tbl FwSlot := []
  /-- [R379; 1; A] slot of the running image -/
  runSlot : Nat := 0
  /-- [R379; 256; empty] AON-held digest of the running image -/
  runDigest : Bytes := []
  /-- [R379; 7; 0] svn of the running image -/
  runSvn : Nat := 0
  /-- [R380; 4; 0] revoke field of the running image -/
  runRevoke : BitVec 4 := 0
  /-- [R380; 7; 0] svn_floor of the running image -/
  runFloor : Nat := 0
  /-- [R380; 64 fuses; 0] fused security version -/
  fusedSvn : Nat := 0
  /-- [R380; 4 fuses; 0] revoked Cerenaft key slots -/
  revoked : BitVec 4 := 0
  /-- [R381] FW_STAGE in progress -/
  staging : Option (Nat × Job) := none
  /-- [R382] -/
  cutover : Option Cutover := none
  /-- [R378; 32; 0] sequence number of the governing slot record -/
  slotSeq : Nat := 0
  /-- [R377; list; empty] objects that wait for a check -/
  queue : List SigObject := []
  /-- [R382] events held between the switch point and the restart -/
  heldEvents : List EventRec := []
  /-- [Table 15-3; 64-bit answers by kind * 64 + number; empty] slate answers of the running image -/
  answers : Tbl (BitVec 64) := []
deriving DecidableEq, Repr

/-- Memory: HBM regions, seeds and protection (14). -/
structure Mem where
  /-- [R160, R300; bytes by address; nothing listed: a byte reads 0 after the fill] KV region, address = stack * 48 GiB + offset -/
  hbm : List Host.Cell := []
  /-- [R161; runs by stack * 2^32 + frame; empty] length in frames of each allocated run -/
  runs : Tbl Nat := []
  /-- [R163, R306; list; empty] page entries whose runs a migration has left, to be freed once no step has them latched -/
  oldRuns : List Nat := []
  /-- [R163; 8; 0] KV_FRAMES_LOW stands for the stack -/
  lowRaised : BitVec 8 := 0
  /-- [R304; 64; 0 (drawn at cold start)] -/
  spreadSeed : BitVec 64 := 0
  /-- [R304, R306; 64; 0] the spread seed under which the weight region's slots lie -/
  slotSeed : BitVec 64 := 0
  /-- [R304; 8 x 64; 0 (drawn at cold start)] -/
  stackSeeds : Tbl (BitVec 64) := []
  /-- [R293; one per region; level 0] -/
  buckets : Tbl Bucket := []
  /-- [R299; per stack * 32 + channel; empty] merge buffers, oldest entry first -/
  merge : Tbl (List Merge) := []
  /-- [R305; per stack] -/
  hot : Tbl Hot := []
  /-- [R303; AON; empty] retired units: kind, unit number -/
  retired : List (Nat × Nat) := []
  /-- [R302; AON; empty] remapped SRAM words: macro, word -/
  remapped : List (Nat × Nat) := []
  /-- [R302; pairs by macro; empty] the last four corrected (word, bit) pairs, oldest first -/
  lastPairs : Tbl (List (Nat × Nat)) := []
  /-- [R302; macros whose full remap table has been reported] -/
  remapFull : List Nat := []
  /-- [R303; list; empty] retirements whose copy runs: kind and target -/
  retireJobs : List MemJob := []
  /-- [R301; list; empty] fills that run: start and length -/
  fillJobs : List MemJob := []
  /-- [R306; queue] running REHASH first -/
  rehash : List MemJob := []
deriving DecidableEq, Repr

/-- Weights and bindings (07). -/
structure Weights where
  /-- [R136; at most 2; none] -/
  gens : List Gen := []
  slots : List Slot := []
  /-- [R140; rows by image * 2^32 + row; empty] embedding rows as supplied -/
  embedding : Tbl Bytes := []
  chunks : List ChunkJob := []
  /-- [R145; by matrix_id; none] -/
  bindings : List (Nat × Binding) := []
  /-- [R146] bindings of the old epoch while its batches are in flight -/
  oldBindings : List (Nat × Binding) := []
  /-- [R146; count; 0] cut epoch -/
  epoch : Nat := 0
  /-- [R146; 1; 0] an old epoch is still in flight -/
  oldEpoch : Bool := false
  takes : List Take := []
  /-- [R147; 32; 1] next take_id -/
  nextTake : Nat := 1
  /-- [R148; list; empty] CUTs held at position 0, oldest first -/
  cuts : List (Job × Nat) := []
  /-- positions that have reported ARMED, and switched: (position, image) -/
  armed : List (Nat × Nat) := []
  switched : List (Nat × Nat) := []
  /-- [R133] DRIFTED decks that wait for a re-take, in order of entry -/
  drifted : List (Nat × Nat) := []
  /-- [R145, R152, R321; list; empty] matrices that go to the slower tier at their batch boundary, and whether their decks are
  released then: a new placement file holds them in no tiles, or else a bough of theirs has been withdrawn -/
  slowDue : List (Nat × Bool) := []
deriving DecidableEq, Repr

/-- Faults (15). -/
structure Faults where
  /-- [R325; 32; 0] next FAULT record's sequence number -/
  seq : Nat := 0
  daily : Daily := {}
  /-- [R312; by unit code] -/
  slates : Tbl Slate := []
  /-- [R322; engine code, part] withdrawn parts -/
  withdrawnParts : List (Nat × Nat) := []
  /-- [R323; 1; 0] -/
  resigned : Bool := false
  /-- [R109; 64; 0 (drawn at cold start)] device key of the continuity hash -/
  deviceKey : BitVec 64 := 0
deriving DecidableEq, Repr

/-- A drain in progress (R84, R85). -/
inductive DrainScope where
  | partition (p : Nat)
  | all
  | bough (b : Nat)
deriving DecidableEq, Repr

/-- Why a drain was asked. -/
inductive DrainFor where
  /-- preemption: the call whose chunk is preempted -/
  | preempt (call : Nat)
  | partitionReset (p : Nat)
  | warmReset
  | switchPoint
  | boughReset (b : Nat)
deriving DecidableEq, Repr

structure Drain where
  scope : DrainScope
  why : DrainFor
  start : Nat
  /-- boughs that have still to acknowledge -/
  waiting : List Nat
deriving DecidableEq, Repr

/-- The state of the LM1. -/
structure State where
  pins : Pins := {}
  boot : Boot := {}
  regs : Regs := {}
  /-- [R250; 32 pages] by partition number, default the reset page -/
  parts : Tbl Part := []
  /-- [R229; 194 rings] by ring number, default the reset block -/
  rings : Tbl Ring := []
  /-- [R3; 64; 0] local tick counter -/
  tick : BitVec 64 := 0
  /-- [R3, R394; 1; 0] the counter counts -/
  ticking : Bool := false
  /-- [R115; 8,160 bytes; empty] live trims: the option block's content as applied -/
  trims : Bytes := []
  /-- [R408; 48 each; 0] counters and levels by their COUNTER_SEL selection -/
  counters : Tbl Nat := []
  /-- [R244; list; empty] descriptors started and not completed -/
  jobs : List Job := []
  /-- [R179; 16,384 entries; FREE] the call sheet -/
  calls : Tbl Entry := []
  /-- [R187; list; empty] steps in flight here -/
  steps : List Step := []
  batch : Option Batch := none
  /-- [R188; SCHED_CTRL's cold values] -/
  sched : Sched := {}
  /-- [R212; call; none] the call whose step a full stage area has left to head the next batch -/
  splitHead : Option Nat := none
  /-- [R212; two halves by batch; empty] -/
  stage : List StageHalf := []
  /-- [MODEL; count; 0] number of the latest batch -/
  batchNo : Nat := 0
  /-- [R200; 65,536 records; not valid] -/
  customers : Tbl Customer := []
  grafts : List Graft := []
  mattes : List Matte := []
  /-- [R15; 8,192 tiles] by global tile number, default the tile of manufacture -/
  tiles : Tbl Tile := []
  /-- [R15; 128 boughs] -/
  boughs : Tbl Bough := []
  /-- [R131; HBM; empty] the calibration save area, by bough -/
  calSave : Tbl CalSave := []
  prods : List Prod := []
  /-- [MODEL; count; 0] next product number -/
  nextProd : Nat := 0
  /-- [MODEL; count; 0] order numbers of programming requests (R43) -/
  nextOrder : Nat := 0
  sums : List SumRun := []
  handoffs : List Handoff := []
  /-- [R59, R73, R210; list; empty] the activation buffers: quantised input vectors of work in flight -/
  acts : List ActVec := []
  /-- [R19] products that wait for a placed transfer: product request and the step's wait -/
  xferWaits : List ProductReq := []
  histos : List Histo := []
  canopy : List CanopyRow := []
  /-- [R177; list; empty] backward attention rows, run or running -/
  backs : List BackRow := []
  /-- [R172; list; empty] page entries latched by the steps in flight -/
  latches : List Latch := []
  /-- [R19, R361; list; empty] attention work that waits, oldest first -/
  attnWaits : List AttnWait := []
  /-- [R166; list; empty] appends written for retakes that are served: call, step, layer * 2^20 + token -/
  servedKv : List (Nat × Nat × Nat) := []
  /-- [R170; list; empty] attention outputs of retakes that are served: call, step, output -/
  servedAttn : List (Nat × Nat × AttnOut) := []
  weights : Weights := {}
  mem : Mem := {}
  links : Tbl Link := []
  partner : Partner := {}
  faults : Faults := {}
  hk : Hk := {}
  power : Power := {}
  sec : Sec := {}
  drains : List Drain := []
  /-- [MODEL; count; 0] draws made from the free values of Config -/
  free : Nat := 0
  /-- [MODEL; list; empty] what the device has put out, in order -/
  out : List Emit := []
  /-- commands that wait, first in, first out -/
  pending : List Instr := []
deriving DecidableEq, Repr

/-- The machine right after reset: power is applied and PORST_N is asserted, so the device is held in cold reset; the
register fields hold their Cold values (Tables 20-2 to 20-6), memories and tables are empty, and the arrays are as they left
manufacture. The next event of a start is the release of PORST_N (R330, R337). -/
def State.reset : State := {}

/-! ### How a step can stop -/

/-- Faults: the machine stops. -/
inductive Fault where
  /-- Raised by any command that names an event which cannot occur in the state: the manual gives an event that does not
  happen no effect. Safe: nothing follows from a run that contains it. -/
  | outOfPlace (row : String)
deriving DecidableEq, Repr

/-- Refusals: the model gives the command no meaning. -/
inductive Refusal where
  /-- Raised by an arm of `exec` whose command has no meaning yet. Safe. -/
  | notModelled (mnemonic : String)
deriving DecidableEq, Repr

end Sys2Proof.Machine
end

