-- ==== Sys2Proof/Machine/Counters.lean ====
section
/-! DEFINITION. The counters: their names (R408), instances (R409), width and saturation (R47). -/

set_option Elab.async false

namespace Sys2Proof.Machine

/-- The scopes of the counter tables (R409). -/
inductive Scope where
  | device | hub | hubSram | conv | die | dieSram | bough | tile | part | port | stack | taproot | canopy | engine
deriving DecidableEq, Repr

/-- Whether a unit number is an instance of a scope (R409, Table 11-13). -/
def Scope.hasUnit (c : Scope) (u : Nat) : Bool :=
  match c with
  | .device | .hub | .hubSram | .conv | .canopy => u == 0
  | .die | .dieSram => decide (u < 4)
  | .bough => decide (u < 128)
  | .tile => decide (u < 8192)
  | .part => decide (u < 32)
  | .port => decide (u < 4)
  | .stack | .taproot => decide (u < 8)
  | .engine => decide (u ≤ 8) || (decide (16 ≤ u) && decide (u ≤ 19)) || (decide (32 ≤ u) && decide (u ≤ 35)) ||
      (decide (48 ≤ u) && decide (u ≤ 55))

/-- One row of a counter table: how many names it has, and its scopes. -/
structure CtrRow where
  names : Nat
  scopes : List Scope

/-- Rows with one name. -/
def rows1 (l : List (List Scope)) : List CtrRow := l.map fun c => { names := 1, scopes := c }

/-- The counter tables of the manual by (chapter, table), rows in order. -/
def counterTable : Nat → Nat → List CtrRow
  | 2, 14 => rows1 ((List.replicate 9 [Scope.tile]) ++ [[.bough]])
  | 3, 9 => rows1 [[.bough, .taproot, .conv], [.bough, .taproot, .conv], [.bough, .taproot], [.bough], [.conv]]
  | 4, 6 => rows1 [[.bough, .hub], [.bough], [.bough], [.device], [.device], [.device], [.bough], [.bough], [.bough]]
  | 5, 6 => rows1 (List.replicate 10 [.bough])
  | 6, 4 => rows1 [[.bough], [.bough], [.tile], [.bough], [.bough], [.device], [.device], [.device]]
  | 7, 10 => rows1 [[.device], [.device], [.device], [.device], [.device], [.device], [.device], [.bough], [.device], [.device]]
  | 8, 7 => rows1 (List.replicate 5 [Scope.taproot] ++ List.replicate 5 [Scope.device])
  | 9, 6 => rows1 [[.part], [.part], [.part], [.device], [.part], [.device], [.part], [.part], [.part], [.part], [.part]]
  | 10, 9 => rows1 [[.device], [.bough], [.device], [.device], [.device], [.part], [.device], [.part], [.device], [.part],
      [.part], [.part], [.part]]
  | 13, 10 => [⟨2, [.port]⟩, ⟨2, [.port]⟩, ⟨1, [.port]⟩, ⟨1, [.port]⟩, ⟨1, [.port]⟩, ⟨1, [.port]⟩, ⟨1, [.device]⟩,
      ⟨1, [.device]⟩, ⟨3, [.device]⟩, ⟨1, [.device]⟩]
  | 14, 5 => [⟨1, [.stack, .dieSram, .hubSram]⟩, ⟨1, [.stack, .dieSram, .hubSram]⟩, ⟨1, [.stack]⟩, ⟨1, [.stack]⟩,
      ⟨1, [.stack]⟩, ⟨1, [.device]⟩, ⟨1, [.device]⟩, ⟨1, [.die, .hub]⟩, ⟨2, [.stack]⟩, ⟨1, [.device]⟩]
  | 15, 9 => [⟨1, [.bough]⟩, ⟨1, [.device]⟩, ⟨1, [.bough]⟩, ⟨2, [.bough, .engine]⟩, ⟨2, [.tile]⟩, ⟨2, [.bough, .engine]⟩,
      ⟨1, [.device]⟩, ⟨1, [.device]⟩, ⟨1, [.device]⟩]
  | 16, 6 => rows1 [[.device], [.bough], [.device], [.device], [.device]]
  | 17, 9 => [⟨3, [.device]⟩, ⟨1, [.device]⟩, ⟨1, [.device]⟩, ⟨1, [.device]⟩, ⟨1, [.device]⟩, ⟨1, [.bough]⟩, ⟨1, [.device]⟩]
  | 20, 8 => rows1 [[.device], [.device], [.device], [.device], [.device], [.part], [.part], [.bough, .taproot, .canopy],
      [.part, .device], [.device]]
  | _, _ => []

/-- The COUNTER_SEL word of a counter instance (Table 20-7). -/
def ctrKey (file table row name scope unit : Nat) : Nat :=
  file + 2 ^ 8 * table + 2 ^ 16 * row + 2 ^ 24 * name + 2 ^ 26 * scope + 2 ^ 32 * unit

/-- Whether a COUNTER_SEL word names a counter (R409). The bits that Table 20-7 does not assign select nothing. -/
def counterNamed (w : Nat) : Bool :=
  let row := Bits.field w 16 8
  match (counterTable (Bits.field w 0 8) (Bits.field w 8 8))[row - 1]? with
  | none => false
  | some r =>
    row != 0 && decide (Bits.field w 24 2 < r.names) &&
    match r.scopes[Bits.field w 26 2]? with
    | none => false
    | some c => c.hasUnit (Bits.field w 32 16)

/-- A saturating 48-bit counter steps on by `n` (R47). -/
def State.count (s : State) (k : Nat) (n : Nat := 1) : State :=
  { s with counters := Tbl.update 0 k (fun v => satAdd 48 v n) s.counters }

/-- A level recorded as the largest value seen (R47). -/
def State.levelMax (s : State) (k : Nat) (v : Nat) : State :=
  { s with counters := Tbl.update 0 k (fun w => min (2 ^ 48 - 1) (max w v)) s.counters }

namespace Ctr

/-! Names of the counters used, with their unit. -/
def phases (t : Nat) := ctrKey 2 14 1 0 0 t
def phasesSkipped (t : Nat) := ctrKey 2 14 2 0 0 t
def zeroInputs (t : Nat) := ctrKey 2 14 3 0 0 t
def clipCols (t : Nat) := ctrKey 2 14 4 0 0 t
def progSteps (t : Nat) := ctrKey 2 14 5 0 0 t
def progBlockWaits (t : Nat) := ctrKey 2 14 6 0 0 t
def verifyFails (t : Nat) := ctrKey 2 14 7 0 0 t
def gapPhases (t : Nat) := ctrKey 2 14 9 0 0 t
def deckConflictWaits (b : Nat) := ctrKey 2 14 10 0 0 b
def zeroBlocks (scope u : Nat) := ctrKey 3 9 1 0 scope u
def nonfiniteBlocks (scope u : Nat) := ctrKey 3 9 2 0 scope u
def fmtRange (scope u : Nat) := ctrKey 3 9 3 0 scope u
def alignShifts (b : Nat) := ctrKey 3 9 4 0 0 b
def accOvf (scope u : Nat) := ctrKey 4 6 1 0 scope u
def aftusRetries (b : Nat) := ctrKey 4 6 2 0 0 b
def aftusFallbacks (b : Nat) := ctrKey 4 6 3 0 0 b
def drains := ctrKey 4 6 4 0 0 0
def drainWaitMax := ctrKey 4 6 5 0 0 0
def restoreRestep := ctrKey 4 6 6 0 0 0
def boundTemp (b : Nat) := ctrKey 4 6 7 0 0 b
def boundCal (b : Nat) := ctrKey 4 6 8 0 0 b
def boundUnchecked (b : Nat) := ctrKey 4 6 9 0 0 b
def outlierRows (b : Nat) := ctrKey 5 6 1 0 0 b
def ovfRows (b : Nat) := ctrKey 5 6 2 0 0 b
def ovfPasses (b : Nat) := ctrKey 5 6 3 0 0 b
def suspTerms (b : Nat) := ctrKey 5 6 4 0 0 b
def verifiedProducts (b : Nat) := ctrKey 5 6 5 0 0 b
def tempStale (b : Nat) := ctrKey 5 6 6 0 0 b
def contChecks (b : Nat) := ctrKey 5 6 7 0 0 b
def contMismatch (b : Nat) := ctrKey 5 6 8 0 0 b
def contDropped (b : Nat) := ctrKey 5 6 9 0 0 b
def contMaxDev (b : Nat) := ctrKey 5 6 10 0 0 b
def calRuns (b : Nat) := ctrKey 6 4 1 0 0 b
def calTempTriggers (b : Nat) := ctrKey 6 4 2 0 0 b
def calForcedGaps (t : Nat) := ctrKey 6 4 3 0 0 t
def refColdWaits (b : Nat) := ctrKey 6 4 4 0 0 b
def boundDrift (b : Nat) := ctrKey 6 4 5 0 0 b
def retakesDrift := ctrKey 6 4 6 0 0 0
def hkInvalid := ctrKey 6 4 7 0 0 0
def hkDrop := ctrKey 6 4 8 0 0 0
def chunksIn := ctrKey 7 10 1 0 0 0
def chunksFwd := ctrKey 7 10 2 0 0 0
def chunkDups := ctrKey 7 10 3 0 0 0
def chunkRefused := ctrKey 7 10 4 0 0 0
def takes := ctrKey 7 10 5 0 0 0
def takesAborted := ctrKey 7 10 6 0 0 0
def cuts := ctrKey 7 10 7 0 0 0
def tierProducts (b : Nat) := ctrKey 7 10 8 0 0 b
def rebindMatch := ctrKey 7 10 9 0 0 0
def kvAppends (e : Nat) := ctrKey 8 7 1 0 0 e
def kvPagesAlloc (e : Nat) := ctrKey 8 7 2 0 0 e
def kvPagesFreed (e : Nat) := ctrKey 8 7 3 0 0 e
def taprootPageReads (e : Nat) := ctrKey 8 7 5 0 0 e
def taprootNanHeads := ctrKey 8 7 6 0 0 0
def canopyBlocks := ctrKey 8 7 7 0 0 0
def canopySkipped := ctrKey 8 7 8 0 0 0
def canopySaves := ctrKey 8 7 9 0 0 0
def canopyNanRows := ctrKey 8 7 10 0 0 0
def admits (p : Nat) := ctrKey 9 6 1 0 0 p
def admitQueued (p : Nat) := ctrKey 9 6 2 0 0 p
def admitStalls (p : Nat) := ctrKey 9 6 3 0 0 p
def batches := ctrKey 9 6 4 0 0 0
def preempts (p : Nat) := ctrKey 9 6 5 0 0 p
def preemptNoSpace := ctrKey 9 6 6 0 0 0
def parks (p : Nat) := ctrKey 9 6 7 0 0 p
def deadlineFails (p : Nat) := ctrKey 9 6 8 0 0 p
def paceMisses (p : Nat) := ctrKey 9 6 9 0 0 p
def unmirroredCalls (p : Nat) := ctrKey 9 6 10 0 0 p
def graftTerms := ctrKey 10 9 1 0 0 0
def graftLateWaits (b : Nat) := ctrKey 10 9 2 0 0 b
def graftBatchSplits := ctrKey 10 9 3 0 0 0
def graftImageMismatch := ctrKey 10 9 4 0 0 0
def tuneSteps (p : Nat) := ctrKey 10 9 6 0 0 p
def maskWaits := ctrKey 10 9 7 0 0 0
def matteEmptyCalls (p : Nat) := ctrKey 10 9 8 0 0 p
def samples := ctrKey 10 9 9 0 0 0
def draftProposed (p : Nat) := ctrKey 10 9 10 0 0 p
def draftAccepted (p : Nat) := ctrKey 10 9 11 0 0 p
def draftOff (p : Nat) := ctrKey 10 9 12 0 0 p
def draftProbes (p : Nat) := ctrKey 10 9 13 0 0 p
def flitsTx (p : Nat) := ctrKey 13 10 1 0 0 p
def flitsRx (p : Nat) := ctrKey 13 10 1 1 0 p
def crcErr (p : Nat) := ctrKey 13 10 2 0 0 p
def parityErr (p : Nat) := ctrKey 13 10 2 1 0 p
def replays (p : Nat) := ctrKey 13 10 3 0 0 p
def laneDegrades (p : Nat) := ctrKey 13 10 4 0 0 p
def portRetrains (p : Nat) := ctrKey 13 10 5 0 0 p
def hbMisses := ctrKey 13 10 7 0 0 0
def journalBytes := ctrKey 13 10 8 0 0 0
def retakesSent := ctrKey 13 10 9 0 0 0
def retakesServed := ctrKey 13 10 9 1 0 0
def retakesRefused := ctrKey 13 10 9 2 0 0
def adoptedCalls := ctrKey 13 10 10 0 0 0
def memCorr (scope u : Nat) := ctrKey 14 5 1 0 scope u
def memUncorr (scope u : Nat) := ctrKey 14 5 2 0 scope u
def hbmOndieCorr (u : Nat) := ctrKey 14 5 3 0 0 u
def mergeWrites (u : Nat) := ctrKey 14 5 4 0 0 u
def mergeRmw (u : Nat) := ctrKey 14 5 5 0 0 u
def weightRepairs := ctrKey 14 5 6 0 0 0
def memRestep := ctrKey 14 5 7 0 0 0
def sramRemaps (scope u : Nat) := ctrKey 14 5 8 0 scope u
def retiredPages (u : Nat) := ctrKey 14 5 9 0 0 u
def retiredBanks (u : Nat) := ctrKey 14 5 9 1 0 u
def rehashUnits := ctrKey 14 5 10 0 0 0
def suspectProducts (b : Nat) := ctrKey 15 9 1 0 0 b
def suspectSteps := ctrKey 15 9 2 0 0 0
def repeats (b : Nat) := ctrKey 15 9 3 0 0 b
def faultsTransient (scope u : Nat) := ctrKey 15 9 4 0 scope u
def faultsPermanent (scope u : Nat) := ctrKey 15 9 4 1 scope u
def clapperPhases (t : Nat) := ctrKey 15 9 5 0 0 t
def clapperMismatch (t : Nat) := ctrKey 15 9 5 1 0 t
def slatesRun (scope u : Nat) := ctrKey 15 9 6 0 scope u
def slateFails (scope u : Nat) := ctrKey 15 9 6 1 scope u
def retakeCommits := ctrKey 15 9 7 0 0 0
def retakeLocal := ctrKey 15 9 8 0 0 0
def resetsWarm := ctrKey 16 6 1 0 0 0
def resetsBough (b : Nat) := ctrKey 16 6 2 0 0 b
def resumeResteps := ctrKey 16 6 3 0 0 0
def arrayDigestFails := ctrKey 16 6 4 0 0 0
def d1Entries := ctrKey 17 9 1 0 0 0
def d2Entries := ctrKey 17 9 1 1 0 0
def d3Entries := ctrKey 17 9 1 2 0 0
def entryAborts := ctrKey 17 9 2 0 0 0
def levelChanges := ctrKey 17 9 3 0 0 0
def pacerHolds := ctrKey 17 9 4 0 0 0
def throttleRounds := ctrKey 17 9 5 0 0 0
def boughWakeWaits (b : Nat) := ctrKey 17 9 6 0 0 b
def regBadAccess := ctrKey 20 8 1 0 0 0
def regLockedWrites := ctrKey 20 8 2 0 0 0
def dbInvalid := ctrKey 20 8 3 0 0 0
def dbDisabled := ctrKey 20 8 4 0 0 0
def eventsLost := ctrKey 20 8 5 0 0 0
def tokenRingWaits (p : Nat) := ctrKey 20 8 6 0 0 p
def premiumStalls (p : Nat) := ctrKey 20 8 7 0 0 p
def xferLateWaits (scope u : Nat) := ctrKey 20 8 8 0 scope u
def recordsDiscarded (scope u : Nat) := ctrKey 20 8 9 0 scope u
def recordWriteFaults := ctrKey 20 8 10 0 0 0

end Ctr

end Sys2Proof.Machine
end

