-- ==== Sys2Proof/Machine/Ops.lean ====
section
/-! DEFINITION. The named operations shared by every command: reading and writing the tables of the state, records,
interrupts and events toward the host, completions of descriptors. -/

set_option Elab.async false

namespace Sys2Proof.Machine

/-- The outcome of one command. -/
abbrev Result := Host.Outcome State Fault Refusal

/-- A command that names an event: where the event can occur its effect, otherwise the run stops. -/
def State.when (s' : State) (row : String) (ok : Bool) : Result :=
  if ok then .next s' else .fault (.outOfPlace row)

/-! ### Reading and writing the tables -/

/-- The number of a ring in the table of rings. -/
def ringNo : RingId → Nat
  | .mq => 0
  | .eq => 1
  | .sq p k => 2 + 6 * p + k
  | .cq p => 2 + 6 * p + 4
  | .tq p => 2 + 6 * p + 5

/-- The ring with a number: the 194 rings of Table 11-1 (R229, R250). -/
def ringOf (n : Nat) : RingId :=
  if n = 0 then .mq else if n = 1 then .eq
  else
    let p := (n - 2) / 6
    let k := (n - 2) % 6
    if k < 4 then .sq p k else if k = 4 then .cq p else .tq p

/-- Whether the ring exists (R250). -/
def ringExists : RingId → Bool
  | .mq | .eq => true
  | .sq p k => decide (p < 32) && decide (k < 4)
  | .cq p | .tq p => decide (p < 32)

/-- Management and submission rings carry descriptors to the LM1 (Table 11-1). -/
def inbound : RingId → Bool
  | .mq | .sq _ _ => true
  | _ => false

/-- The partition of a ring. -/
def ringPart : RingId → Option Nat
  | .mq | .eq => none
  | .sq p _ | .cq p | .tq p => some p

/-- The ring code of the own fields of DOORBELL_BAD (Table 11-11). -/
def ringCode : RingId → Nat
  | .sq _ k => k
  | .cq _ => 4
  | .tq _ => 5
  | .mq => 6
  | .eq => 7

def portNo : Port → Nat
  | .h => 0 | .t => 1 | .u => 2 | .d => 3

def portOf : Nat → Port
  | 0 => .h | 1 => .t | 2 => .u | _ => .d

namespace State

def now (s : State) : Nat := s.tick.toNat

def ring (s : State) (r : RingId) : Ring := Tbl.get {} (ringNo r) s.rings
def modRing (s : State) (r : RingId) (f : Ring → Ring) : State :=
  { s with rings := Tbl.update {} (ringNo r) f s.rings }

def part (s : State) (p : Nat) : Part := Tbl.get {} p s.parts
def modPart (s : State) (p : Nat) (f : Part → Part) : State := { s with parts := Tbl.update {} p f s.parts }

def call (s : State) (c : Nat) : Entry := Tbl.get {} c s.calls
def tile (s : State) (t : Nat) : Tile := Tbl.get {} t s.tiles
def modTile (s : State) (t : Nat) (f : Tile → Tile) : State := { s with tiles := Tbl.update {} t f s.tiles }

def deck (s : State) (t d : Nat) : Deck := Tbl.get {} d (s.tile t).decks
def modDeck (s : State) (t d : Nat) (f : Deck → Deck) : State :=
  s.modTile t fun x => { x with decks := Tbl.update {} d f x.decks }

def bough (s : State) (b : Nat) : Bough := Tbl.get {} b s.boughs
def modBough (s : State) (b : Nat) (f : Bough → Bough) : State := { s with boughs := Tbl.update {} b f s.boughs }

def link (s : State) (p : Port) : Link := Tbl.get {} (portNo p) s.links
def modLink (s : State) (p : Port) (f : Link → Link) : State := { s with links := Tbl.update {} (portNo p) f s.links }

def customer (s : State) (c : Nat) : Customer := Tbl.get {} c s.customers
def modCustomer (s : State) (c : Nat) (f : Customer → Customer) : State :=
  { s with customers := Tbl.update {} c f s.customers }

def modRegs (s : State) (f : Regs → Regs) : State := { s with regs := f s.regs }
def modBoot (s : State) (f : Boot → Boot) : State := { s with boot := f s.boot }
def modPower (s : State) (f : Power → Power) : State := { s with power := f s.power }
def modHk (s : State) (f : Hk → Hk) : State := { s with hk := f s.hk }
def modSec (s : State) (f : Sec → Sec) : State := { s with sec := f s.sec }
def modMem (s : State) (f : Mem → Mem) : State := { s with mem := f s.mem }
def modWeights (s : State) (f : Weights → Weights) : State := { s with weights := f s.weights }
def modPartner (s : State) (f : Partner → Partner) : State := { s with partner := f s.partner }
def modFaults (s : State) (f : Faults → Faults) : State := { s with faults := f s.faults }
def modPins (s : State) (f : Pins → Pins) : State := { s with pins := f s.pins }

def step? (s : State) (c n : Nat) : Option Step := s.steps.find? fun x => x.call == c && x.step == n
def modStep (s : State) (c n : Nat) (f : Step → Step) : State :=
  { s with steps := s.steps.map fun x => if x.call == c && x.step == n then f x else x }

def prod? (s : State) (i : Nat) : Option Prod := s.prods.find? fun x => x.id == i
def modProd (s : State) (i : Nat) (f : Prod → Prod) : State :=
  { s with prods := s.prods.map fun x => if x.id == i then f x else x }

/-- Something goes out, after everything issued before it (R228). -/
def emit (s : State) (e : Emit) : State := { s with out := s.out ++ [e] }

/-- A fresh draw from a free value of Config. -/
def draw (s : State) : State := { s with free := s.free + 1 }

/-! ### What the device is -/

/-- The device has ended its start and has not taken a reset. -/
def running (s : State) : Bool := decide (s.boot.phase = .running)

/-- A cold or warm start is running. -/
def starting (s : State) : Bool := decide (s.boot.phase = .coldStart ∨ s.boot.phase = .warmStart)

/-- The management complex runs: firmware checked and running (Table 16-4). -/
def mgmtUp (s : State) : Bool := s.regs.ready.getLsbD 1 && (s.running || s.starting)

/-- Position 0 of its chain (R276). -/
def isFirst (s : State) : Bool := decide (s.regs.chainPos = 0)

/-- The last position: no downstream neighbour (R234, R276). -/
def isLast (s : State) : Bool := !(s.link .d).present

/-- Paired, and the partner neither lost nor treated as absent (R186, R277, R372). -/
def partnerThere (s : State) : Bool :=
  s.regs.paired && !s.partner.lost && !s.partner.absent && !s.partner.fenced && !s.partner.sleeping

/-- Isolated by FENCE_IN (R284). -/
def isolated (s : State) : Bool := decide ((s.link .h).state = .isolated)

def readyBit (s : State) (i : Nat) : Bool := s.regs.ready.getLsbD i
def setReady (s : State) (i : Nat) : State := s.modRegs fun r => { r with ready := r.ready ||| (1#11 <<< i) }
def clearReady (s : State) (i : Nat) : State := s.modRegs fun r => { r with ready := r.ready &&& ~~~(1#11 <<< i) }

end State

/-! ### Units and own fields of events (Tables 11-11, 11-13) -/

def unitDevice : UnitField := {}
def unitDie (d : Nat) : UnitField := { die := d, level := 1 }
def unitBough (b : Nat) : UnitField := { die := b / 32, level := 2, bough := b }
def unitTile (t : Nat) : UnitField := { die := t / 2048, level := 3, bough := t / 64, tile := t }
def unitDeck (t d : Nat) : UnitField := { die := t / 2048, level := 4, bough := t / 64, tile := t, deck := d }
def unitColumn (t d c : Nat) : UnitField :=
  { die := t / 2048, level := 5, bough := t / 64, tile := t, deck := d, column := c }
/-- An engine of the hub. -/
def unitEngine (e : Nat) : UnitField := { die := 4, level := 6, engine := e }

/-- Bytes 40 to 63 of an event record from (byte, size, value) fields. -/
def own (fs : List (Nat × Nat × Nat)) : Bytes :=
  (List.range 24).map fun i =>
    fs.foldl (fun a f => if f.1 ≤ i + 40 ∧ i + 40 < f.1 + f.2.1 then
      BitVec.ofNat 8 (f.2.2 / 256 ^ (i + 40 - f.1)) else a) 0

/-- Bytes 8 to 23 of a notice record from (byte, size, value) fields. -/
def detail (fs : List (Nat × Nat × Nat)) : Bytes :=
  (List.range 16).map fun i =>
    fs.foldl (fun a f => if f.1 ≤ i + 8 ∧ i + 8 < f.1 + f.2.1 then
      BitVec.ofNat 8 (f.2.2 / 256 ^ (i + 8 - f.1)) else a) 0

/-! ### Outbound rings (R230, R245 to R248) -/

/-- Entries of a ring (R229). -/
def Ring.size (r : Ring) : Nat := 2 ^ r.exp.toNat

/-- Phase of the entry that a position addresses: 1 on the first pass, inverted at each wrap (R230). -/
def Ring.phaseAt (r : Ring) (pos : BitVec 32) : Bool := decide (pos.toNat / r.size % 2 = 0)

/-- Free entries: those the host has consumed by its doorbell count (R246). -/
def Ring.space (r : Ring) : Nat := r.size - (r.pos - r.count).toNat

/-- A failed record write makes the ring full (R413). -/
def Ring.full (r : Ring) : Bool := r.failed.isSome || decide (r.space = 0)

namespace State

/-- The vector of an outbound ring (R248). -/
def vector (s : State) (r : RingId) : Nat :=
  match r with
  | .cq p => (s.part p).vecBase.toNat
  | .tq p => (s.part p).vecBase.toNat + 1
  | _ => s.regs.mgmtVec.toNat

/-- One interrupt flit for the ring; the pending count is cleared (R247). -/
def interrupt (s : State) (r : RingId) : State :=
  (s.emit (.irq (s.vector r))).modRing r fun g => { g with pendingCount := 0 }

/-- A flush that is ordered: nothing is sent while IRQ_EN is 0 or nothing is pending (R247). -/
def flush (s : State) (r : RingId) : State :=
  if (s.ring r).irqEn && decide (0 < (s.ring r).pendingCount) then s.interrupt r else s

/-- Flush the rings in a list, in order. -/
def flushAll (s : State) (rs : List RingId) : State := rs.foldl State.flush s

/-- Whether the ring's coalescing fields announce it now (R247). -/
def announces (g : Ring) (premium : Bool) (now : Nat) : Bool :=
  g.irqEn && (decide (g.coalCount = 0) || decide (g.coalCount.toNat ≤ g.pendingCount) ||
    (decide (g.coalWindow ≠ 0) && decide (g.pendingTick + g.coalWindow.toNat ≤ now)) || (premium && g.premiumNow))

/-- A call's completion record has been written or discarded: what the ended entry holds is to be freed (R199). -/
def recordOut (s : State) (frees : Option Nat) : State :=
  match frees with
  | none => s
  | some c => if (s.call c).ended then { s with calls := Tbl.update {} c (fun e => { e with written := true }) s.calls } else s

/-- Write a record to the next entry of a ring that has room: phase, producer position, pending count, interrupt. -/
def putRecord (s : State) (r : RingId) (w : Waiting) : State :=
  let g := s.ring r
  let s := s.emit (.record r (g.pos.toNat % g.size) (g.phaseAt g.pos) w.record)
  let s := (s.modRing r fun g => { g with pos := g.pos + 1, last := some w }).recordOut w.frees
  if w.quiet then s
  else
    let s := s.modRing r fun g =>
      { g with
        pendingCount := g.pendingCount + 1
        pendingTick := if g.pendingCount = 0 then s.now else g.pendingTick
        timer := g.coalWindow }
    if announces (s.ring r) w.premium s.now then s.interrupt r else s

/-- A record bound for a disabled outbound ring is discarded and counted (R246); what its writing frees is freed. -/
def discardRecord (s : State) (r : RingId) (w : Waiting) : State :=
  (match r with
   | .cq p | .tq p => s.count (Ctr.recordsDiscarded 0 p)
   | _ => s.count (Ctr.recordsDiscarded 1 0)).recordOut w.frees

/-- Event records before the first SEAL wait for it (log 6). -/
def eventsHeld (s : State) (r : RingId) : Bool :=
  decide (r = .eq) && !(s.ring r).enabled && !s.regs.sealed

/-- An event record, as opposed to a management completion. -/
def isEvent : Rec → Bool
  | .event _ => true
  | _ => false

/-- A record for an outbound ring (R246). A full event ring loses event records and has management completions written
again; on the other rings records wait in order. An isolated device writes nothing (R284). -/
def writeRecord (s : State) (r : RingId) (w : Waiting) : State :=
  let g := s.ring r
  if s.eventsHeld r || s.isolated then s.modRing r fun g => { g with waiting := g.waiting ++ [w] }
  else if !g.enabled then s.discardRecord r w
  else if r = .eq then
    (if g.full || decide (0 < g.lost) then
      (s.count Ctr.eventsLost).modRing r fun g =>
        { g with lost := g.lost + 1, waiting := if isEvent w.record then g.waiting else g.waiting ++ [w] }
    else s.putRecord r w)
  else if g.full || !g.waiting.isEmpty then s.modRing r fun g => { g with waiting := g.waiting ++ [w] }
  else s.putRecord r w

/-- Write waiting records while there is room; the fuel is their number. -/
def drainWaiting (s : State) (r : RingId) : Nat → State
  | 0 => s
  | n + 1 =>
    match (s.ring r).waiting with
    | [] => s
    | w :: ws =>
      if (s.ring r).full then s
      else ((s.modRing r fun g => { g with waiting := ws }).putRecord r w).drainWaiting r n

/-- The EVENTS_LOST record (Table 11-11). -/
def lostRecord (s : State) (n : Nat) : Waiting :=
  { record := .event { code := 0x0802, tick := s.now, own := own [(40, 8, n)] }, premium := false, quiet := false, frees := none }

/-- Space may have appeared on a ring: the EVENTS_LOST record first, then what waits, in order (R246). -/
def release (s : State) (r : RingId) : State :=
  let g := s.ring r
  if g.full || s.isolated then s
  else
    let s := if decide (0 < g.lost) then
        (s.modRing r fun g => { g with lost := 0 }).putRecord r (s.lostRecord g.lost)
      else s
    s.drainWaiting r (s.ring r).waiting.length

/-- A doorbell of an outbound ring: the record whose write failed is retried, same entry, same content and phase; what waits stays in
order behind it until a later doorbell finds that the retry has not failed (R413; that this is how success is told is the model's
choice, log 175). Without one, what waits goes out. -/
def retryOrRelease (s : State) (r : RingId) : State :=
  match (s.ring r).failed with
  | none => s.release r
  | some w => (s.modRing r fun g => { g with failed := none }).putRecord r w

/-- Raise an event: a record on the event ring (R240, R241). Between a firmware switch point and the restart events
are held (R382). -/
def event (s : State) (e : EventRec) : State :=
  let e := { e with tick := s.now }
  match s.sec.cutover with
  | some c =>
    if c.switched then s.modSec fun x => { x with heldEvents := x.heldEvents ++ [e] }
    else s.writeRecord .eq { record := .event e, premium := false, quiet := false, frees := none }
  | none => s.writeRecord .eq { record := .event e, premium := false, quiet := false, frees := none }

/-- Raise a notice on the owning partition's completion ring (R241, R258): always pending. -/
def notice (s : State) (p subject code : Nat) (d : Bytes) (premium : Bool) : State :=
  s.writeRecord (.cq p)
    { record := .notice subject code d s.now, premium := premium, quiet := false, frees := none }

/-- Complete a descriptor: one completion record (R238) or one management completion (R240). `frees` names the
call-sheet entry that the record's writing frees (R246). -/
def completeWith (s : State) (j : Job) (st : Status) (r0 r1 : Nat) (frees : Option Nat) : State :=
  let s := { s with jobs := s.jobs.erase j }
  match j.ring with
  | .sq p k => s.writeRecord (.cq p)
      { record := .completion j.tag st j.opcode k j.premium r0 r1 s.now, premium := j.premium, quiet := j.quiet, frees := frees }
  | _ => s.writeRecord .eq
      { record := .mgmt j.tag st j.opcode r0 r1 s.now, premium := false, quiet := j.quiet, frees := frees }

def complete (s : State) (j : Job) (st : Status) : State := s.completeWith j st 0 0 none

/-- Complete every descriptor of a list, in order. -/
def completeAll (s : State) (js : List Job) (st : Status) : State := js.foldl (fun s j => s.complete j st) s

/-- A result buffer written to the host (R228). -/
def hostWrite (s : State) (addr : Nat) (b : Bytes) : State := s.emit (.hostWrite addr b)

end State

/-- Run a state change over a list, in order. -/
def State.each {α : Type} (s : State) (xs : List α) (f : State → α → State) : State := xs.foldl f s

end Sys2Proof.Machine
end

