-- ==== Sys2Proof/Machine/Operands.lean ====
section
/-! DEFINITION. The operand forms: the fields of descriptors (Tables 11-3 to 11-7), the byte layouts of records
(Tables 11-8 to 11-13), of the call-sheet entry (Table 09-1), of customer records (Table 09-4) and of the deck record
(Table 02-3). -/

set_option Elab.async false

namespace Sys2Proof.Machine

/-! ### Descriptors -/

/-- Bits `lo` to `lo + n - 1` of a descriptor, counted from bit 0 of byte 0 (R7). -/
def Fetch.bits (f : Sys2Proof.Fetch) (lo n : Nat) : Nat := Bits.field f.word.toNat lo n

/-- The field of `n` bytes at byte `b` of a descriptor. -/
def Fetch.at (f : Sys2Proof.Fetch) (b n : Nat) : Nat := Fetch.bits f (8 * b) (8 * n)

def Fetch.opcode (f : Sys2Proof.Fetch) : Nat := Fetch.at f 0 1
def Fetch.version (f : Sys2Proof.Fetch) : Nat := Fetch.bits f 8 4
def Fetch.fence (f : Sys2Proof.Fetch) : Bool := f.word.getLsbD 12
def Fetch.quiet (f : Sys2Proof.Fetch) : Bool := f.word.getLsbD 13
def Fetch.extLen (f : Sys2Proof.Fetch) : Nat := Fetch.at f 2 2
def Fetch.tag (f : Sys2Proof.Fetch) : Nat := Fetch.at f 4 4
def Fetch.extPtr (f : Sys2Proof.Fetch) : Nat := Fetch.at f 56 8

/-- The 64 bytes of a descriptor. -/
def Fetch.bytes (f : Sys2Proof.Fetch) : Bytes := Bits.bytesOf 64 f.word.toNat

/-- The opcodes of Table 11-4 by name; none for a reserved code. -/
inductive Op where
  | nop | admitCall | cancel | releaseCall | stepMask | budgetSet | budgetRead | graftLoad | graftRetire | matteLoad
  | matteFree | tune | loadManifest | loadChunk | loadPlacement | attnSetup | take | cut | releaseImage | deckRead
  | refWarm | calibrate | hkSample | retire | fill | rehash | arrayTest | reset | powerState | fwStage | fwCutover | attest
deriving DecidableEq, Repr

/-- Table 11-4. -/
def opOf : Nat → Option Op
  | 0x00 => some .nop | 0x01 => some .admitCall | 0x02 => some .cancel | 0x03 => some .releaseCall
  | 0x04 => some .stepMask | 0x05 => some .budgetSet | 0x06 => some .budgetRead | 0x07 => some .graftLoad
  | 0x08 => some .graftRetire | 0x09 => some .matteLoad | 0x0A => some .matteFree | 0x0B => some .tune
  | 0x20 => some .loadManifest | 0x21 => some .loadChunk | 0x22 => some .loadPlacement | 0x23 => some .attnSetup
  | 0x24 => some .take | 0x25 => some .cut | 0x26 => some .releaseImage | 0x27 => some .deckRead
  | 0x30 => some .refWarm | 0x31 => some .calibrate | 0x32 => some .hkSample | 0x33 => some .retire
  | 0x34 => some .fill | 0x35 => some .rehash | 0x36 => some .arrayTest | 0x40 => some .reset
  | 0x41 => some .powerState | 0x42 => some .fwStage | 0x43 => some .fwCutover | 0x44 => some .attest
  | _ => none

/-- Where an opcode may be fetched (Table 11-4): on submission rings, on the management ring. -/
def Op.rings : Op → Bool × Bool
  | .nop => (true, true)
  | .admitCall | .cancel | .releaseCall | .stepMask | .tune => (true, false)
  | .budgetSet | .budgetRead | .graftLoad | .graftRetire | .matteLoad | .matteFree => (true, true)
  | _ => (false, true)

/-- The chain position an opcode is allowed at (Table 11-4): position 0 only, the last only. -/
def Op.position : Op → Bool × Bool
  | .admitCall | .cancel | .releaseCall | .budgetSet | .budgetRead | .tune | .cut => (true, false)
  | .stepMask | .matteLoad | .matteFree => (false, true)
  | _ => (false, false)

/-- The operand bits of an opcode, as (first bit, bits) (Tables 11-5 to 11-7); every other bit of bytes 8 to 55 is
reserved. -/
def Op.operands : Op → List (Nat × Nat)
  | .nop => []
  | .admitCall => [(64, 6), (72, 8), (80, 16), (96, 8), (104, 4), (112, 16), (128, 32), (160, 32), (192, 32), (224, 32),
      (256, 64), (320, 64), (384, 64)]
  | .cancel | .releaseCall | .cut | .releaseImage | .matteFree => [(64, 32)]
  | .stepMask => [(64, 32), (96, 32), (128, 64), (192, 32)]
  | .budgetSet => [(64, 16), (192, 256)]
  | .budgetRead => [(64, 16), (128, 64)]
  | .graftLoad | .matteLoad | .loadManifest | .loadChunk | .loadPlacement | .refWarm | .calibrate | .fill => [(64, 128)]
  | .graftRetire | .hkSample => [(64, 16)]
  | .tune => [(64, 352)]
  | .attnSetup => [(64, 128)]
  | .take => [(64, 2), (96, 64), (192, 64)]
  | .deckRead => [(64, 16), (80, 4), (128, 64)]
  | .arrayTest => [(64, 16), (80, 4), (88, 8), (128, 64)]
  | .retire => [(64, 8), (128, 64)]
  | .rehash => [(64, 2), (72, 8)]
  | .reset => [(64, 3), (72, 6), (80, 7)]
  | .powerState => [(64, 2)]
  | .fwStage => [(64, 128), (192, 1)]
  | .fwCutover => [(64, 1)]
  | .attest => [(64, 352)]

/-- The header's own fields (Table 11-3). -/
def headerBits : List (Nat × Nat) := [(0, 14), (16, 48), (448, 64)]

/-- Bits of a list of (first bit, bits). -/
def maskOf (l : List (Nat × Nat)) : BitVec 512 :=
  l.foldl (fun m f => m ||| ((BitVec.ofNat 512 (2 ^ f.2 - 1)) <<< f.1)) 0

/-- Byte offsets of the host addresses that an opcode always requires (R233, "BAD_ADDRESS" under Zero means). -/
def Op.addresses (f : Sys2Proof.Fetch) : Op → List Nat
  | .stepMask | .budgetRead | .attnSetup | .deckRead | .arrayTest => [16]
  | .graftLoad | .matteLoad | .loadManifest | .loadChunk | .loadPlacement | .fwStage => [8]
  | .tune => [32]
  | .attest => [40]
  | .take => if Fetch.bits f 64 2 = 2 then [24] else []
  | _ => []

/-- Whether an operand marked OK_EMPTY holds zero (R235). -/
def Op.empty (f : Sys2Proof.Fetch) : Op → Bool
  | .stepMask => decide (Fetch.at f 24 4 = 0)
  | .graftLoad | .matteLoad | .loadManifest | .loadChunk | .loadPlacement | .fwStage | .fill => decide (Fetch.at f 16 8 = 0)
  | .tune | .attnSetup => decide (Fetch.at f 12 4 = 0)
  | .take => decide (Fetch.bits f 64 2 = 2) && decide (Fetch.at f 16 4 = 0)
  | .refWarm | .calibrate => decide (Fetch.at f 8 16 = 0)
  | .rehash => decide (Fetch.at f 9 1 = 0)
  | .attest => decide (Fetch.at f 48 4 = 0)
  | _ => false

/-- The job that a fetched descriptor becomes. -/
def Fetch.job (f : Sys2Proof.Fetch) (pos : Nat) : Job :=
  { ring := f.ring, pos := pos, tag := Fetch.tag f, opcode := Fetch.opcode f, quiet := Fetch.quiet f, premium := false }

/-! ### Records -/

/-- Status codes (Table 11-12, and the security statuses of 18). -/
def Status.code : Status → Nat
  | .ok => 0x00 | .okEmpty => 0x01 | .takePartial => 0x02
  | .nonfinite => 0x10 | .matteEmpty => 0x11 | .deadline => 0x12 | .budgetPark => 0x13 | .cancelled => 0x14
  | .partitionReset => 0x15 | .kvUncorr => 0x16 | .saveBad => 0x17 | .badToken => 0x18
  | .badVersion => 0x20 | .badOpcode => 0x21 | .wrongRing => 0x22 | .rsvSet => 0x23 | .badAddress => 0x24
  | .hostFault => 0x25 | .wrongPosition => 0x26 | .resetLost => 0x27
  | .badLength => 0x30 | .badFormat => 0x31 | .formatRange => 0x32 | .badCustomer => 0x33 | .badTag => 0x34
  | .callUnknown => 0x35 | .kvQuota => 0x36 | .badSampler => 0x37 | .badBudget => 0x38 | .badGraft => 0x39
  | .graftBusy => 0x3A | .badMatte => 0x3B | .matteInUse => 0x3C | .maskStale => 0x3D | .badUnit => 0x3E
  | .hkBusy => 0x3F | .notIdle => 0x40
  | .manifestBad => 0x50 | .imageSlotsFull => 0x51 | .noManifest => 0x52 | .chunkDigest => 0x53 | .chunkShape => 0x54
  | .chunkDecode => 0x55 | .weightNonfinite => 0x56 | .weightRange => 0x57 | .imageInUse => 0x58
  | .placementBad => 0x59 | .placementBusy => 0x5A | .takeBusy => 0x5B | .takeNoDeck => 0x5C | .takeAborted => 0x5D
  | .deckLive => 0x5E | .deckWorn => 0x5F | .attnBad => 0x60
  | .sigBad => 0x70 | .keyUnknown => 0x71 | .fwRollback => 0x72 | .fwSlotActive => 0x73 | .fwBusy => 0x74
  | .fwNotStaged => 0x75

/-- The inverse of `Status.code` on the statuses that travel between chain positions. -/
def statusOf (n : Nat) : Status :=
  (([.okEmpty, .takePartial, .nonfinite, .matteEmpty, .deadline, .budgetPark, .cancelled, .partitionReset, .kvUncorr,
    .saveBad, .badToken, .hostFault, .badGraft, .badLength] : List Status).find? fun s => s.code == n).getD .ok

/-- The 64 bits of a unit field (Table 11-13). -/
def UnitField.bits (u : UnitField) : Nat :=
  u.die + 2 ^ 3 * u.level + 2 ^ 6 * u.bough + 2 ^ 13 * u.tile + 2 ^ 26 * u.deck + 2 ^ 30 * u.column + 2 ^ 40 * u.engine

/-- The bytes of a record with its phase bit (Tables 11-8, 11-9, 11-11a, R240). -/
def Rec.bytes (phase : Bool) : Rec → Bytes
  | .completion tag st opcode ring premium r0 r1 tick =>
    Bits.bytesOf 4 tag ++ Bits.bytesOf 1 st.code ++ Bits.bytesOf 1 opcode ++
    Bits.bytesOf 1 (2 * ring + (if premium then 8 else 0) + (if phase then 128 else 0)) ++ [0] ++
    Bits.bytesOf 8 r0 ++ Bits.bytesOf 8 r1 ++ Bits.bytesOf 8 tick
  | .notice subject ev d tick =>
    Bits.bytesOf 4 subject ++ Bits.bytesOf 2 ev ++ Bits.bytesOf 1 (1 + (if phase then 128 else 0)) ++ [0] ++
    Bits.slice d 0 16 ++ Bits.bytesOf 8 tick
  | .token tok tag unbounded tier draft first retake adopted =>
    Bits.bytesOf 8 (tok % 2 ^ 18 + 2 ^ 18 * (tag % 2 ^ 32) + (if unbounded then 2 ^ 50 else 0) + (if tier then 2 ^ 51 else 0)
      + (if draft then 2 ^ 52 else 0) + (if first then 2 ^ 53 else 0) + (if retake then 2 ^ 54 else 0)
      + (if adopted then 2 ^ 55 else 0) + (if phase then 2 ^ 63 else 0))
  | .event e =>
    [0] ++ Bits.bytesOf 1 (e.partition.getD 0 + (if e.partition.isSome then 64 else 0) + (if phase then 128 else 0)) ++
    Bits.bytesOf 2 e.code ++ Bits.bytesOf 4 0 ++ Bits.bytesOf 8 e.unit.bits ++ Bits.bytesOf 8 e.tick ++
    Bits.bytesOf 4 e.matrix ++ Bits.bytesOf 4 e.call ++ Bits.bytesOf 4 e.step ++ Bits.bytesOf 4 e.image ++
    Bits.slice e.own 0 24
  | .mgmt tag st opcode r0 r1 tick =>
    [1] ++ Bits.bytesOf 1 (if phase then 128 else 0) ++ Bits.bytesOf 2 0 ++ Bits.bytesOf 1 st.code ++ Bits.bytesOf 1 opcode ++
    Bits.bytesOf 2 0 ++ Bits.bytesOf 4 tag ++ Bits.bytesOf 4 0 ++ Bits.bytesOf 8 tick ++ Bits.bytesOf 8 r0 ++ Bits.bytesOf 8 r1 ++
    Bits.bytesOf 24 0

/-! ### The call-sheet entry (Table 09-1) -/

def CallState.code : CallState → Nat
  | .free => 0 | .queued => 1 | .ready => 2 | .running => 3 | .parked => 4 | .drained => 5 | .held => 6 | .mirror => 7

def callStateOf : Nat → CallState
  | 1 => .queued | 2 => .ready | 3 => .running | 4 => .parked | 5 => .drained | 6 => .held | 7 => .mirror | _ => .free

/-- The 128 bytes of an entry. -/
def Entry.bytes (e : Entry) : Bytes :=
  Bits.bytesOf 1 (e.state.code + (if e.premium then 16 else 0)) ++ Bits.bytesOf 1 e.partition ++
  Bits.bytesOf 1 ((if e.hold then 1 else 0) + (if e.failIfParked then 2 else 0) + (if e.hasGraft then 4 else 0)
    + (if e.hasMatte then 8 else 0) + (if e.unmirrored then 16 else 0)) ++
  Bits.bytesOf 1 e.priority ++ Bits.bytesOf 2 e.customer ++ Bits.bytesOf 1 e.kvFormat ++
  Bits.bytesOf 1 (e.draftDepth + 16 * e.draftLive) ++ Bits.bytesOf 4 e.tag ++ Bits.bytesOf 4 e.promptLen ++
  Bits.bytesOf 4 e.maxNew ++ Bits.bytesOf 4 e.prefilled ++ Bits.bytesOf 4 e.generated ++ Bits.bytesOf 2 e.graftHandle ++
  Bits.bytesOf 2 e.graftGen ++ Bits.bytesOf 4 e.matteHandle ++ Bits.bytesOf 4 0 ++ Bits.bytesOf 8 e.seed.toNat ++
  Bits.bytesOf 4 e.step ++ Bits.bytesOf 4 0 ++ Bits.bytesOf 8 e.deadline ++ Bits.bytesOf 4 e.pace ++ Bits.bytesOf 4 0 ++
  Bits.bytesOf 8 e.due ++ Bits.bytesOf 8 e.admitTick ++ Bits.bytesOf 8 e.pageDir ++ Bits.bytesOf 8 e.savePtr ++
  Bits.bytesOf 8 e.sampler.toNat ++ Bits.bytesOf 16 0

/-- The fields of Table 09-1 read from 128 bytes; everything else as in `e`. -/
def Entry.ofBytes (e : Entry) (b : Bytes) : Entry :=
  let u (i n : Nat) := Bits.le b i n
  { e with
    state := callStateOf (Bits.field (u 0 1) 0 4), premium := (Bits.field (u 0 1) 4 1) == 1, partition := Bits.field (u 1 1) 0 6,
    hold := Bits.field (u 2 1) 0 1 == 1, failIfParked := Bits.field (u 2 1) 1 1 == 1, hasGraft := Bits.field (u 2 1) 2 1 == 1,
    hasMatte := Bits.field (u 2 1) 3 1 == 1, unmirrored := Bits.field (u 2 1) 4 1 == 1, priority := u 3 1,
    customer := u 4 2, kvFormat := u 6 1, draftDepth := u 7 1 % 16, draftLive := u 7 1 / 16, tag := u 8 4,
    promptLen := u 12 4, maxNew := u 16 4, prefilled := u 20 4, generated := u 24 4, graftHandle := u 28 2,
    graftGen := u 30 2, matteHandle := u 32 4, seed := BitVec.ofNat 64 (u 40 8), step := u 48 4, deadline := u 56 8,
    pace := u 64 4, due := u 72 8, admitTick := u 80 8, pageDir := u 88 8, savePtr := u 96 8,
    sampler := BitVec.ofNat 64 (u 104 8) }

/-- The bytes that differ, as one run from the first to the last (R279: byte offset and changed bytes). -/
def changedRun (a b : Bytes) : Option (Nat × Bytes) :=
  let ne := (List.range b.length).filter fun i => a[i]? != b[i]?
  match ne.head?, ne.getLast? with
  | some i, some j => some (i, (b.drop i).take (j + 1 - i))
  | _, _ => none

/-! ### Customer records (Table 09-4) -/

/-- Bytes of a customer record as BUDGET_READ writes them, with the next refill after it (Table 11-6). -/
def Customer.bytes (c : Customer) : Bytes :=
  if c.valid then
    Bits.bytesOf 1 (if c.parkEvent then 1 else 0) ++ Bits.bytesOf 3 0 ++ Bits.bytesOf 4 c.capacity ++ Bits.bytesOf 4 c.refill ++
    Bits.bytesOf 2 c.promptWeight ++ Bits.bytesOf 2 0 ++ Bits.bytesOf 6 c.interval ++ Bits.bytesOf 2 0 ++
    Bits.bytesOf 6 (Bits.ofSigned c.level 48) ++ Bits.bytesOf 2 0 ++ Bits.bytesOf 8 c.nextRefill
  else Bits.bytesOf 40 0

/-! ### Deck records and remap entries (Tables 02-3, 02-11) -/

def DeckState.code : DeckState → Nat
  | .empty => 0 | .programming => 1 | .ready => 2 | .live => 3 | .drifted => 4 | .worn => 6 | .retired => 7

/-- The run-time state code: UNVERIFIED is 5 (Table 02-4), but WORN and RETIRED stand. -/
def Deck.runCode (d : Deck) : Nat :=
  if d.unverified && !(decide (d.state = .worn) || decide (d.state = .retired)) then 5 else d.state.code

/-- The 32-byte deck record (Table 02-3); `copy` puts the run-time state into byte 14 bits 3:0 (R27). -/
def Deck.bytes (d : Deck) (copy : Bool) : Bytes :=
  Bits.bytesOf 4 d.takeCount ++ Bits.bytesOf 8 d.recAge ++ Bits.bytesOf 1 (d.state.code + 16 * d.format) ++
  Bits.bytesOf 1 (Bits.ofSigned d.progTemp 8) ++ Bits.bytesOf 2 (if copy then d.runCode else 0) ++ Bits.bytesOf 4 d.matrixId ++
  Bits.bytesOf 4 d.takeId ++ Bits.bytesOf 8 d.digest.toNat

/-- A remap entry (Table 02-11). -/
def Remap.bytes (r : Remap) : Bytes :=
  Bits.bytesOf 2 r.column ++ Bits.bytesOf 1 r.active.toNat ++ Bits.bytesOf 1 r.suspend.toNat

end Sys2Proof.Machine
end

