-- ==== Sys2Proof/Machine/LinkOps.lean ====
section
/-! DEFINITION. The shared operations of the Aftlink ports (13): sending with credits and replay, accepting a flit in order,
the premium journal. -/

set_option Elab.async false

namespace Sys2Proof.Machine

/-- The ports carry flits in these states only (Table 13-8). -/
def Link.carries (l : Link) : Bool := (decide (l.state = .up) || decide (l.state = .degraded)) && !l.miscabled

/-- Credits of a channel when none is out (Table 13-4). -/
def creditsOf : Nat → Nat
  | 0 => 16 | 1 => 64 | 2 => 128 | _ => 32

/-- The first channel, in strict priority order, with a flit waiting and a credit held (R267). -/
def Link.nextChannel (l : Link) : Option Nat :=
  (List.range 4).find? fun c => !(l.queue.getD c []).isEmpty && decide (0 < l.credits.getD c 0)

namespace State

/-- Send one waiting flit, if the port may: numbered, kept for replay, carrying an acknowledgement and credits (R267, R269). -/
def sendOne (s : State) (p : Port) : State :=
  let l := s.link p
  if l.carries && decide (l.replay.length < 512) then
    match l.nextChannel with
    | none => s
    | some c =>
      match l.queue.getD c [] with
      | [] => s
      | b :: bs =>
        let cr := ((List.range 4).find? fun i => decide (0 < l.owed.getD i 0)).getD 0
        let n := min 63 (l.owed.getD cr 0)
        let s := s.emit (.flit p c l.txSeq (if l.heard then some (l.rxSeq - 1) else none) (cr, n) b)
        let s := s.count (Ctr.flitsTx (portNo p))
        s.modLink p fun l => { l with
          txSeq := l.txSeq + 1, replay := l.replay ++ [{ seq := l.txSeq, channel := c, body := b }],
          credits := Bits.setAt l.credits c (l.credits.getD c 0 - 1), queue := Bits.setAt l.queue c bs,
          owed := Bits.setAt l.owed cr (l.owed.getD cr 0 - n) }
  else s

/-- Send waiting flits while the port may; the fuel is their number. -/
def pump (s : State) (p : Port) : Nat → State
  | 0 => s
  | n + 1 => (s.sendOne p).pump p n

/-- Flits that wait on a port. -/
def waitingFlits (s : State) (p : Port) : Nat := ((s.link p).queue.map List.length).sum

def pumpAll (s : State) (p : Port) : State := s.pump p (s.waitingFlits p)

/-- Send a flit on a channel: it waits for the port, a credit and replay room (R267, R274). -/
def send (s : State) (p : Port) (c : Nat) (b : FlitBody) : State :=
  (s.modLink p fun l => { l with queue := Bits.setAt l.queue c (l.queue.getD c [] ++ [b]) }).pumpAll p

/-- The port accepts this flit: the device runs, the port carries flits and the number is the next expected (R268). In D2 a flit
on port U or D waits for the wake (R369). -/
def accepts (s : State) (hd : FlitHdr) : Bool :=
  (s.running || s.starting) && (s.link hd.port).carries && decide (hd.seq = (s.link hd.port).rxSeq) &&
  !(decide (s.power.dstate = .d2) && (decide (hd.port = .u) || decide (hd.port = .d)))

/-- The acknowledgement of a header, if in force: replay entries up to it are dropped and the failure count of the oldest
flit restarts (R269, R271). Credits come back (R267). -/
def takeAck (s : State) (hd : FlitHdr) : State :=
  (s.modLink hd.port fun l =>
    let kept := if hd.ackValid then l.replay.dropWhile fun x => decide ((hd.ack - x.seq).toNat < 512) else l.replay
    let c := hd.creditCh.toNat
    { l with replay := kept, fails := if kept.length < l.replay.length then 0 else l.fails,
             credits := Bits.setAt l.credits c (min (creditsOf c) (l.credits.getD c 0 + hd.credits.toNat)) }).pumpAll hd.port

/-- Accept a flit: its number is taken, its receive buffer is freed, it is counted, its acknowledgement and credits act. -/
def acceptFlit (s : State) (hd : FlitHdr) : State :=
  let c := hd.channel.toNat
  let s := s.modLink hd.port fun l => { l with
    rxSeq := l.rxSeq + 1, discarding := false, heard := true, owed := Bits.setAt l.owed c (l.owed.getD c 0 + 1) }
  (s.count (Ctr.flitsRx (portNo hd.port))).takeAck hd

/-- A receiver acknowledges every flit but an acknowledgement (R269; log 8). -/
def acknowledge (s : State) (p : Port) : State := s.send p 0 .ack

/-- Resend every flit held from a number onward, in order, and count the replay (R269). -/
def replayFrom (s : State) (p : Port) (n : BitVec 12) : State :=
  let l := s.link p
  let flits := l.replay.dropWhile fun x => decide (x.seq ≠ n)
  let s := s.count (Ctr.replays (portNo p))
  s.each flits fun s x => s.emit (.flit p x.channel x.seq (if l.heard then some (l.rxSeq - 1) else none) (0, 0) x.body)

/-- Whether any relay port serves: not miscabled (R276). -/
def upstream (s : State) : Bool := !s.isFirst

/-! ### The premium journal (R279) -/

/-- Content bytes of a journal record (Table 13-9). -/
def journalSize : JournalRec → Nat
  | .entry _ _ _ b => b.length
  | .prompt _ _ ts => 64 + 4 * ts.length
  | .kv _ _ _ _ _ hs => (hs.map fun h => h.1.length + h.2.1.length + h.2.2.1.length + h.2.2.2.length).sum
  | .matte .. => 4
  | .stepMark _ _ _ ts => 4 * ts.length
  | .ended .. => 1

/-- A call is mirrored: premium, not unmirrored, and a partner is there (R186, R279). -/
def mirrored (s : State) (e : Entry) : Bool :=
  e.premium && !e.unmirrored && decide (e.state ≠ .mirror) && decide (e.state ≠ .free) && s.partnerThere

/-- Send journal records for a call, in order, on port T (R279). -/
def journal (s : State) (e : Entry) (rs : List JournalRec) : State :=
  if s.mirrored e && !rs.isEmpty then
    (s.count Ctr.journalBytes (rs.map journalSize).sum).send .t 1 (.journal rs)
  else s

/-- Write a call-sheet entry: the change reaches the journal before it is acted on (R179), and the partner where the call is
mirrored (R279). -/
def putCall (s : State) (c : Nat) (e : Entry) : State :=
  let old := s.call c
  let s := { s with calls := Tbl.set {} c e s.calls }
  match changedRun old.bytes e.bytes with
  | none => s
  | some (off, b) => s.journal e [.entry e.partition e.tag off b]

def modCall (s : State) (c : Nat) (f : Entry → Entry) : State := s.putCall c (f (s.call c))

end State
end Sys2Proof.Machine
end

