-- ==== Sys2Proof/Machine/CallOps.lean ====
section
/-! DEFINITION. The shared operations on calls: the KV charge and pages (08, 12), graft pins (10), token budgets (09),
the end of a call (R198, R199). -/

set_option Elab.async false

namespace Sys2Proof.Machine
namespace State

/-! ### Generations, layers and the KV charge -/

/-- The live generation (R136). -/
def liveGen (s : State) : Option Gen := s.weights.gens.find? fun g => g.live

def gen? (s : State) (image : Nat) : Option Gen := s.weights.gens.find? fun g => g.imageId == image

/-- The generation whose layers a call is charged for: the live one, or before one is live the first with a placement
file (log 9). -/
def chargeGen (s : State) : Option Gen :=
  match s.liveGen with
  | some g => some g
  | none => s.weights.gens.find? fun g => g.placement.isSome

/-- Attention records in force for a generation: its own, then those inherited from its base (R156). -/
def attnOf (s : State) (g : Gen) : List Attn :=
  let own := g.attn.map fun a => a.1
  let base := match s.gen? g.baseId with
    | some b => if g.baseId = 0 then [] else b.attn.map fun a => a.1
    | none => []
  own ++ List.filter (fun a => !(own.any fun b => b.layer == a.layer)) base

/-- The placement file in force for a generation: its own, or its base's (R152). -/
def placementOf (s : State) (g : Gen) : Option Placement :=
  match g.placement with
  | some p => some p
  | none => if g.baseId = 0 then none else (s.gen? g.baseId).bind (·.placement)

/-- The matrices of a generation on this position. -/
def matsOf (s : State) (g : Gen) : List Mat := ((s.placementOf g).map (·.mats)).getD []

/-- Attention records of the layers that the position holds, ascending (R163: draft layers included). -/
def layersHeld (s : State) : List Attn :=
  match s.chargeGen with
  | none => []
  | some g =>
    sortBy (fun a b => decide (a.layer < b.layer))
      ((s.attnOf g).filter fun a => (s.matsOf g).any fun m => m.layer == a.layer)

def attnFor (s : State) (g : Gen) (layer : Nat) : Option Attn := (s.attnOf g).find? fun a => a.layer == layer

/-- Frames of a page's run: H for KV4, 2H for KV8 (R161). -/
def runFrames (kvFormat h : Nat) : Nat := if kvFormat = 0x21 then 2 * h else h

/-- The frame charge on each stack of a call of a largest length (R255). -/
def frameCharge (s : State) (kvFormat len : Nat) : Nat :=
  (s.layersHeld.map fun a => Bits.ceilDiv (Bits.ceilDiv len 64) 8 * runFrames kvFormat a.kvHeads).sum

/-- KV frames per stack (R410). -/
def framesPerStack (s : State) : Nat := s.regs.kvRegion.toNat * (8 * 2 ^ 20) / 8704

/-- Frames in runs on a stack, runs that wait to be freed included. -/
def framesUsed (s : State) (stack : Nat) : Nat :=
  (s.mem.runs.filter fun r => r.1 / 2 ^ 32 == stack).foldl (fun a r => a + r.2) 0

def framesFree (s : State) (stack : Nat) : Nat := s.framesPerStack - s.framesUsed stack

/-- Raise KV_FRAMES_LOW for a stack once, until its free frames have been back above the mark (R163). -/
def watchFrames (s : State) (stack : Nat) : State :=
  if s.framesFree stack < s.regs.kvLowMark.toNat then
    if s.mem.lowRaised.getLsbD stack then s
    else (s.modMem fun m => { m with lowRaised := m.lowRaised ||| (1#8 <<< stack) }).event
      { code := 0x0601, unit := unitEngine (1 + stack), own := own [(40, 1, stack), (44, 4, s.framesFree stack)] }
  else s.modMem fun m => { m with lowRaised := m.lowRaised &&& ~~~(1#8 <<< stack) }

/-- Free one run and count it (R163). -/
def freeRun (s : State) (stack frame : Nat) : State :=
  ((s.modMem fun m => { m with runs := Tbl.erase (stack * 2 ^ 32 + frame) m.runs }).count (Ctr.kvPagesFreed stack)).watchFrames stack

/-- Free the pages of a call; a page value is 8 * frame + stack (Table 08-3). -/
def freePages (s : State) (c : Nat) : State := s.each (s.call c).pages fun s p => s.freeRun (p.2 % 8) (p.2 / 8)

/-! ### Finding calls -/

/-- A call that has not ended, in QUEUED, READY, RUNNING, PARKED or DRAINED (R198). -/
def liveEntry (e : Entry) : Bool :=
  !e.ended && (match e.state with
    | .queued | .ready | .running | .parked | .drained => true
    | _ => false)

def findCall (s : State) (p tag : Nat) (ok : Entry → Bool) : Option Nat :=
  (s.calls.find? fun x => x.2.partition == p && x.2.tag == tag && decide (x.2.state ≠ .free) && ok x.2).map (·.1)

/-- Calls that satisfy a condition, in order of admission. -/
def callsWhere (s : State) (ok : Entry → Bool) : List Nat :=
  (sortBy (fun a b => keyLt [(a.2.admitNo : Int), (a.1 : Int)] [(b.2.admitNo : Int), (b.1 : Int)])
    (s.calls.filter fun x => decide (x.2.state ≠ .free) && ok x.2)).map (·.1)

/-! ### Admission of queued calls (R183) -/

/-- Make the frame charge of a queued call where it fits: it becomes READY. -/
def chargeQueued (s : State) (c : Nat) : State :=
  let e := s.call c
  let p := s.part e.partition
  if p.framesCharged + e.owed ≤ p.kvFrames.toNat then
    (s.modPart e.partition fun x => { x with framesCharged := x.framesCharged + e.owed }).putCall c
      { e with state := .ready, owed := 0 }
  else s

/-- Charge the queued calls of a partition in order of admission; a later call never overtakes an earlier one (R183). -/
def chargeAll (s : State) (p : Nat) : List Nat → State
  | [] => s
  | c :: cs =>
    let s' := s.chargeQueued c
    if (s'.call c).state = .queued then s else s'.chargeAll p cs

def chargeWaiting (s : State) (p : Nat) : State :=
  s.chargeAll p (s.callsWhere fun e => e.partition == p && decide (e.state = .queued) && !e.ended)

/-! ### Grafts (R208, R209) -/

def graft? (s : State) (handle gen : Nat) : Option Graft :=
  s.grafts.find? fun g => g.handle == handle && g.generation == gen

def currentGraft (s : State) (handle : Nat) : Option Graft := s.grafts.find? fun g => g.handle == handle && g.current

/-- Free every generation that is not current and has no pins, with its GRAFT_FREED notice (R209). -/
def freeGrafts (s : State) : State :=
  let gone := s.grafts.filter fun g => !g.current && g.pins == 0
  let s := { s with grafts := s.grafts.filter fun g => g.current || g.pins != 0 }
  s.each gone fun s g => s.notice g.partition g.handle 0x0705 (detail [(8, 2, g.generation)]) false

def pinGraft (s : State) (handle gen : Nat) : State :=
  { s with grafts := s.grafts.map fun (g : Graft) => if g.handle == handle && g.generation == gen then { g with pins := g.pins + 1 } else g }

def unpinGraft (s : State) (handle gen : Nat) : State :=
  ({ s with grafts := s.grafts.map fun (g : Graft) =>
      if g.handle == handle && g.generation == gen then { g with pins := g.pins - 1 } else g }).freeGrafts

/-! ### Token budgets (R200 to R204) -/

/-- Refills due by a tick, applied before charges (R201). -/
def refilled (c : Customer) (now : Nat) : Customer :=
  if c.valid && decide (c.nextRefill ≤ now) && decide (0 < c.interval) then
    let n := (now - c.nextRefill) / c.interval + 1
    { c with level := min ((c.capacity * 256 : Nat) : Int) (c.level + ((n * c.refill * 256 : Nat) : Int)),
             nextRefill := c.nextRefill + n * c.interval }
  else c

/-- Parked calls of a customer return to READY in order of admission when its level is positive (R202). -/
def unpark (s : State) (cust : Nat) : State :=
  if 0 < (s.customer cust).level then
    s.each (s.callsWhere fun e => e.customer == cust && decide (e.state = .parked) && !e.ended)
      fun s c => s.modCall c fun e => { e with state := .ready }
  else s

def refill (s : State) (cust : Nat) : State := (s.modCustomer cust fun c => refilled c s.now).unpark cust

/-- The number of the next admission or programming request, and the state after it is taken. -/
def takeOrder (s : State) : State := { s with nextOrder := s.nextOrder + 1 }

/-- The budget group of a partition that contains a record, among enabled partitions (R253, R257). -/
def groupOwner (s : State) (cust : Nat) : Option Nat :=
  (List.range 32).find? fun p => (s.part p).enabled && (List.range 4).any fun n =>
    let g := Tbl.get (0, 0) n (s.part p).groups
    decide (g.1.toNat ≤ cust) && decide (cust < g.1.toNat + g.2.toNat)

/-! ### The relay chain -/

/-- Tell the neighbours of a call's entries, except the one that told us (R317, R262, R264). -/
def tellChain (s : State) (from_ : Option Port) (m : CallMsg) : State :=
  let s := if s.isFirst || from_ == some .u then s else s.send .u 2 (.callCtrl m)
  if s.isLast || from_ == some .d then s else s.send .d 2 (.callCtrl m)

/-- The link break flag of END records (R287). -/
def chainBroken (s : State) : Bool := (s.link .u).broken || (s.link .d).broken

/-! ### The end of a call (R198, R199) -/

/-- A product kept for its check or repeat after its call has ended: its step number no longer names a step of the entry. -/
def orphan (p : Prod) : Prod := { p with key := { p.key with work := { p.key.work with step := p.key.work.step + 2 ^ 32 } } }

/-- Free the runs that a migration has left and that no step has latched any more (R163). -/
def freeOld (s : State) : State :=
  let held (v : Nat) : Bool := s.latches.any fun (l : Latch) => l.pages.any fun p => p.2 == v
  let gone := s.mem.oldRuns.filter fun v => !held v
  (s.modMem fun m => { m with oldRuns := m.oldRuns.filter held }).each gone fun s v => s.freeRun (v % 8) (v / 8)

/-- What pieces of work have on their way apart from their products goes: sums, handed off vectors, input vectors, attention rows, waits,
latched page entries. -/
def forget (s : State) (mine : WorkRef → Bool) : State :=
  { s with
    sums := s.sums.filter fun x => !mine x.key.work, handoffs := s.handoffs.filter fun x => !mine x.key.work,
    acts := s.acts.filter fun x => !mine x.work, canopy := s.canopy.filter fun x => !mine x.work,
    backs := s.backs.filter fun x => !mine x.work, xferWaits := s.xferWaits.filter fun x => !mine x.key.work,
    attnWaits := s.attnWaits.filter fun x => !mine x.work,
    servedKv := s.servedKv.filter fun x => !mine { call := x.1, step := x.2.1, token := 0 },
    servedAttn := s.servedAttn.filter fun x => !mine { call := x.1, step := x.2.1, token := 0 },
    latches := s.latches.filter fun x => !mine { call := x.call, step := x.step, token := 0 } }.freeOld

/-- Products leave the queues of tiles and boughs. -/
def unqueue (s : State) (ids : List Nat) : State :=
  if ids.isEmpty then s else { s with
    tiles := Tbl.mapVals {} (fun t => { t with queue := t.queue.filter fun i => !ids.contains i }) s.tiles
    boughs := Tbl.mapVals {} (fun b => { b with waiting := b.waiting.filter fun i => !ids.contains i }) s.boughs }

/-- Everything in flight for a call is dropped: its steps emit nothing and charge nothing; checks and repeats go on (R320). -/
def dropWork (s : State) (c : Nat) : State :=
  let ids := (s.prods.filter fun p => p.key.work.call == c && !p.summed).map (·.id)
  let s := { s with
    steps := s.steps.filter fun x => x.call != c
    prods := (s.prods.filter fun (x : Prod) => x.key.work.call != c || x.summed).map fun (x : Prod) =>
      if x.key.work.call == c then orphan x else x
    batch := s.batch.map fun (b : Batch) => { b with calls := b.calls.filter fun x => x != c } }
  let s := s.forget fun w => w.call == c
  if ids.isEmpty then s
  else { s with
    tiles := Tbl.mapVals {} (fun t => { t with queue := t.queue.filter fun i => !ids.contains i }) s.tiles
    boughs := Tbl.mapVals {} (fun b => { b with
      waiting := b.waiting.filter (fun i => !ids.contains i), checks := b.checks.filter fun i => !ids.contains i }) s.boughs }

/-- result0 of ADMIT and TUNE (Table 11-10). -/
def callResult0 (e : Entry) : Nat := e.generated % 2 ^ 32 + 2 ^ 32 * (e.prefilled % 2 ^ 32)

/-- result1 of ADMIT and TUNE (Table 11-10). -/
def callResult1 (e : Entry) : Nat :=
  e.stepsDone % 2 ^ 32 + (if e.seenUnbounded then 2 ^ 32 else 0) + (if e.seenTier then 2 ^ 33 else 0)
    + (if e.unmirrored then 2 ^ 34 else 0) + (if e.adopted then 2 ^ 35 else 0)

/-- Release what an entry holds: pages and charge (R163), save space (R256), graft pin (R209). -/
def releaseHoldings (s : State) (c : Nat) : State :=
  let e := s.call c
  let s := s.freePages c
  let s := s.modPart e.partition fun x =>
    { x with
      framesCharged := x.framesCharged - (e.charge - e.owed)
      saveUsed := x.saveUsed - e.saveSize }
  let s := if e.hasGraft then s.unpinGraft e.graftHandle e.graftGen else s
  s

/-- Counts of the statuses that end calls (Tables 09-6, 10-9). -/
def countEnd (s : State) (p : Nat) : Status → State
  | .deadline => s.count (Ctr.deadlineFails p)
  | .matteEmpty => s.count (Ctr.matteEmptyCalls p)
  | _ => s

/-- After an entry has gone: queued calls of the partition may be charged (R183), fetching may resume (R182). -/
def afterFree (s : State) (p : Nat) : State :=
  let s := s.chargeWaiting p
  if (s.calls.filter fun x => x.2.partition == p && decide (x.2.state ≠ .free)).length < (s.part p).entryShare.toNat then
    s.modPart p fun x => { x with stalled := false }
  else s

/-- Free an entry without a completion record (R199, R262, R288). -/
def releaseEntry (s : State) (c : Nat) : State :=
  let e := s.call c
  if e.state = .free then s
  else
    let s := (s.dropWork c).releaseHoldings c
    ({ s with calls := Tbl.set {} c {} s.calls }).afterFree e.partition

/-- The ended calls whose completion records have been written: their pages, charge and pin are freed, and the entries (R199). -/
def freeWritten (s : State) : State :=
  s.each ((s.calls.filter fun x => x.2.written).map fun x => x.1) fun s c =>
    let e := s.call c
    let s := s.releaseHoldings c
    ({ s with calls := Tbl.set {} c {} s.calls }).afterFree e.partition

/-- A call's entry once it is HELD (R199): a charge that was still to be made is given up (R184). -/
def heldEntry (e : Entry) : Entry :=
  { e with
    state := .held, job := none, cancels := [], mask := none, tune := none, drafts := [], draftQ := [], hasGraft := false,
    brokenAt := none, charge := e.charge - e.owed, owed := 0 }

/-- A call's entry once it has ended: it holds what it held until its completion record is written; without a descriptor here there is
none to write. -/
def endedEntry (e : Entry) : Entry := { e with ended := true, written := e.job.isNone, job := none, cancels := [] }

/-- End a call with a status. Its completion record is written at position 0, where its descriptor is held; then what it holds is freed,
or, with hold set and a status of OK, the entry becomes HELD (R199); its waiting CANCELs complete after it (R198). -/
def endCall (s : State) (c : Nat) (st : Status) (from_ : Option Port) : State :=
  let e := s.call c
  if decide (e.state = .free) || e.ended then s
  else
    let s := s.journal e [.ended e.partition e.tag st.code s.chainBroken]
    let s := (s.dropWork c).countEnd e.partition st
    let s := s.tellChain from_ (.ended e.partition e.tag st.code)
    let held := e.hold && decide (st = .ok)
    let s := { s with calls := Tbl.set {} c (if held then heldEntry e else endedEntry e) s.calls }
    let s := match e.job with
      | none => s
      | some j => s.completeWith { j with premium := e.premium } st (callResult0 e) (callResult1 e)
          (if held then none else some c)
    let s := if held && e.hasGraft then s.unpinGraft e.graftHandle e.graftGen else s.freeWritten
    (s.completeAll e.cancels .ok).afterFree e.partition

/-- The budget of a customer is empty: its READY calls enter PARKED, or end with BUDGET_PARK (Table 09-2, R202). Budgets are kept at
position 0. -/
def parkReady (s : State) (cust : Nat) : State :=
  if s.isFirst && decide ((s.customer cust).level ≤ 0) then
    s.each (s.callsWhere fun e => e.customer == cust && decide (e.state = .ready) && !e.ended) fun s c =>
      let e := s.call c
      if e.failIfParked then s.endCall c .budgetPark none
      else (s.count (Ctr.parks e.partition)).modCall c fun e => { e with state := .parked }
  else s

end State
end Sys2Proof.Machine
end

