-- ==== Sys2Proof/Machine/Flags.lean ====
section
/-! DEFINITION. The status computations of a descriptor: when a ring is fetched (R182, R244, R249, R253, R254, R340) and the
order of the checks of R243. -/

set_option Elab.async false

namespace Sys2Proof.Machine
namespace State

/-- Non-FREE entries of a partition, HELD and MIRROR included (R182). -/
def entriesHeld (s : State) (p : Nat) : Nat :=
  (s.calls.filter fun x => x.2.partition == p && decide (x.2.state ≠ .free)).length

/-- The premium calls a partition holds for R254: every non-FREE premium entry but HELD ones. -/
def premiumHeld (s : State) (p : Nat) : Nat :=
  (s.calls.filter fun x => x.2.partition == p && x.2.premium && decide (x.2.state ≠ .free) && decide (x.2.state ≠ .held)).length

/-- The partition holds its full share (R182). -/
def shareFull (s : State) (p : Nat) : Bool := decide ((s.part p).entryShare.toNat ≤ s.entriesHeld p)

/-- A premium ADMIT may not be fetched (R254); a PREMIUM_SHARE of 0 sets no separate limit. -/
def premiumFull (s : State) (p : Nat) : Bool :=
  decide ((s.part p).premiumShare ≠ 0) && decide ((s.part p).premiumShare.toNat ≤ s.premiumHeld p)

/-- The ring holds a descriptor that has not been fetched. -/
def hasDescriptor (s : State) (r : RingId) : Bool :=
  ringExists r && inbound r && (s.ring r).enabled && decide ((s.ring r).pos ≠ (s.ring r).count)

/-- The ring could be fetched from in its turn. -/
def ringWaiting (s : State) (p k : Nat) : Bool :=
  s.hasDescriptor (.sq p k) && !(s.ring (.sq p k)).stopped &&
  !((s.part p).premiumStopped.contains k && s.premiumFull p)

/-- The submission ring whose turn it is: round robin, up to 16 descriptors of one ring per turn (R244). -/
def turnRing (s : State) (p : Nat) : Nat :=
  let cur := (s.part p).turn.1
  if decide ((s.part p).turn.2 < 16) && s.ringWaiting p cur then cur
  else (([1, 2, 3, 4].map fun i => (cur + i) % 4).find? fun k => s.ringWaiting p k).getD cur

/-- The turn after a descriptor of ring `k` has been taken; a premium stop of the ring is over (R254). -/
def takeTurn (s : State) (p k : Nat) : State :=
  s.modPart p fun x => { x with
    turn := if x.turn.1 = k ∧ x.turn.2 < 16 then (k, x.turn.2 + 1) else (k, 1)
    premiumStopped := x.premiumStopped.filter fun i => i != k }

/-- Whether management descriptors are fetched at all now: not between a firmware switch point and the restart (R382), not
while LOAD_MANIFEST runs (R244), not a POWER_STATE while another is executed, or while an entry or a wake runs (R354, R355). -/
def mgmtHolds (s : State) (f : Sys2Proof.Fetch) : Bool :=
  (match s.sec.cutover with
   | some c => c.switched
   | none => false) ||
  s.jobs.any (fun j => j.ring == .mq && j.opcode == 0x20) ||
  (Fetch.opcode f == 0x41 && (s.jobs.any (fun j => j.opcode == 0x41) || s.power.entry.isSome || s.power.wake.isSome))

/-- Earlier descriptors of the ring that have not completed: outstanding jobs, and completion records that still wait or whose write
has failed (R413). -/
def ringBusy (s : State) (r : RingId) : Bool :=
  s.jobs.any (fun j => j.ring == r) ||
  match r with
  | .sq p k => ((s.ring (.cq p)).failed.toList ++ (s.ring (.cq p)).waiting).any fun w =>
      match w.record with
      | .completion _ _ _ ring _ _ _ _ => ring == k
      | _ => false
  | _ => ((s.ring .eq).failed.toList ++ (s.ring .eq).waiting).any fun w =>
      match w.record with
      | .mgmt .. => true
      | _ => false

/-- The opcodes that need the arrays (R369). -/
def needsArrays (op : Nat) : Bool := [0x24, 0x27, 0x30, 0x31, 0x36].contains op

/-- The arrays are off, or an entry or wake that touches them runs (R367 to R371). -/
def quiet (s : State) : Bool := decide (s.power.dstate = .d2) || s.power.entry.isSome || s.power.wake.isSome

/-- No descriptor at all is fetched: in D3, on entry to it and on the wake from it (R355, Table 17-7). -/
def asleep (s : State) : Bool :=
  decide (s.power.dstate = .d3) ||
  (match s.power.entry with
   | some e => decide (e.target = .d3)
   | none => false)

/-- The fetch is held: the descriptor stays in its ring. -/
def fetchHeld (s : State) (f : Sys2Proof.Fetch) : Bool :=
  decide (s.regs.verAck = 0) || s.isolated || (s.ring f.ring).stopped || s.asleep ||
  (Fetch.fence f && s.ringBusy f.ring) ||
  (match f.ring with
   | .sq p k => !s.readyBit 5 || (s.part p).resetting || s.shareFull p || decide (s.turnRing p ≠ k) || s.quiet
   | _ => !s.readyBit 4 || s.mgmtHolds f || (s.quiet && needsArrays (Fetch.opcode f)))

/-- The next descriptor of a submission ring is a premium ADMIT and the premium share is used up (R254). -/
def premiumStop (s : State) (f : Sys2Proof.Fetch) : Bool :=
  match f.ring with
  | .sq p _ => Fetch.opcode f == 0x01 && f.word.getLsbD 64 && s.premiumFull p
  | _ => false

/-- A fetch stall of R182 is counted once while it lasts. -/
def noteStall (s : State) (p : Nat) : State :=
  if s.shareFull p && (List.range 4).any (fun k => s.ringWaiting p k) && (s.part p).enabled then
    if (s.part p).stalled then s
    else (s.count (Ctr.admitStalls p)).modPart p fun x => { x with stalled := true }
  else s.modPart p fun x => { x with stalled := false }

/-- A premium stop of R254 is counted once while it lasts. -/
def notePremiumStop (s : State) (p k : Nat) : State :=
  if (s.part p).premiumStopped.contains k then s
  else (s.count (Ctr.premiumStalls p)).modPart p fun x => { x with premiumStopped := k :: x.premiumStopped }

/-! ### The checks of R243 -/

/-- Check 2: the opcode's own row must be the one the command names. -/
def opStatus (f : Sys2Proof.Fetch) : Option Op := opOf (Fetch.opcode f)

/-- A nonzero reserved field of the 64 bytes (check 5). -/
def reservedSet (op : Op) (f : Sys2Proof.Fetch) : Bool := decide (f.word &&& ~~~(maskOf (headerBits ++ op.operands)) ≠ 0)

/-- R233 (check 6); a required address is misaligned when it is not a multiple of 8 (log 7), an extension pointer when it
is not a multiple of 64. -/
def addressBad (op : Op) (f : Sys2Proof.Fetch) : Bool :=
  (decide (Fetch.extPtr f = 0) != decide (Fetch.extLen f = 0)) || decide (Fetch.extPtr f % 64 ≠ 0) ||
  (op.addresses f).any fun b => decide (Fetch.at f b 8 = 0) || decide (Fetch.at f b 8 % 8 ≠ 0)

/-- The operation reads its extension (ADMIT, TUNE). -/
def readsExt : Op → Bool
  | .admitCall | .tune => true
  | _ => false

/-- Check 8: ADMIT's extension block 0 (R236), and the reserved bytes of TUNE's example entries. The bytes behind the last entry in TUNE's
last block are no field of Table 11-6 and are not checked (DESIGN CHOICE, log 181). -/
def extReserved (op : Op) (f : Sys2Proof.Fetch) : Bool :=
  match op with
  | .admitCall => decide (0 < Fetch.extLen f) &&
      (!Bits.zeroAt f.ext 4 60 || (!f.word.getLsbD 69 && !Bits.zeroAt f.ext 0 4))
  | .tune => decide (0 < Fetch.extLen f) && (List.range (Fetch.at f 48 4)).any fun k => !Bits.zeroAt f.ext (16 * k + 12) 4
  | _ => false

/-- Checks 1 to 9 of R243: the first that applies. -/
def descStatus (s : State) (f : Sys2Proof.Fetch) : Option Status :=
  if Fetch.version f ≠ s.regs.verAck.toNat then some .badVersion
  else
    match opStatus f with
    | none => some .badOpcode
    | some op =>
      if !(if f.ring = .mq then op.rings.2 else op.rings.1) then some .wrongRing
      else if (op.position.1 && !s.isFirst) || (op.position.2 && !s.isLast) then some .wrongPosition
      else if reservedSet op f then some .rsvSet
      else if addressBad op f then some .badAddress
      else if readsExt op && decide (0 < Fetch.extLen f) && f.extFault then some .hostFault
      else if extReserved op f then some .rsvSet
      else if op.empty f then some .okEmpty
      else none

/-- The fetch position moves past the descriptor (R230). -/
def advance (s : State) (r : RingId) : State :=
  let s := s.modRing r fun g => { g with pos := g.pos + 1 }
  match r with
  | .sq p k => s.takeTurn p k
  | _ => s

/-- A descriptor command: where it stands at the front of its ring it is held there, refused by a check of R243, or its
operation runs on its job. -/
def descriptor (s : State) (row : String) (named : Bool) (f : Sys2Proof.Fetch) (run : Job → State → State) : Result :=
  if !(named && s.hasDescriptor f.ring && (s.running || decide (s.boot.phase = .coldStart))) then .fault (.outOfPlace row)
  else if s.fetchHeld f then
    .next (match f.ring with
      | .sq p _ => s.noteStall p
      | _ => s)
  else if s.premiumStop f then
    .next (match f.ring with
      | .sq p k => s.notePremiumStop p k
      | _ => s)
  else
    let j := Fetch.job f (s.ring f.ring).pos.toNat
    let s1 := s.advance f.ring
    match s.descStatus f with
    | some st => .next (s1.complete j st)
    | none => .next (run j s1)

/-- A job that stays in progress. -/
def start (s : State) (j : Job) : State := { s with jobs := s.jobs ++ [j] }

/-- Completion or refusal of an operation at once. -/
def answer (s : State) (j : Job) (st : Status) : State := s.complete j st

end State
end Sys2Proof.Machine
end

