-- ==== Sys2Proof/WellFormed.lean ====
section
/-! DEFINITION. Which commands are well formed: the operands that a row of the table names carry the values that make it that
row. What the device answers to wrong values of a descriptor's or register's fields is not here: those are commands too. -/

set_option Elab.async false

namespace Sys2Proof

/-- Byte 0 of a descriptor (Table 11-3). -/
def Fetch.code (f : Fetch) : Nat := f.word.toNat % 256

/-- A field of a descriptor by first bit and width. -/
def Fetch.fieldAt (f : Fetch) (lo n : Nat) : Nat := f.word.toNat / 2 ^ lo % 2 ^ n

/-- The opcodes that Table 11-4 does not reserve. -/
def knownOpcode (n : Nat) : Bool :=
  decide (n ≤ 0x0B) || (decide (0x20 ≤ n) && decide (n ≤ 0x27)) || (decide (0x30 ≤ n) && decide (n ≤ 0x36)) ||
  (decide (0x40 ≤ n) && decide (n ≤ 0x44))

/-- A register access that writes the byte at an offset (R403). -/
def RegAccess.covers (a : RegAccess) (off : Nat) : Bool := !a.read && decide (a.off ≤ off) && decide (off < a.off + a.size)

/-- The value that a register access writes to a byte (R7). -/
def RegAccess.byteFor (a : RegAccess) (off : Nat) : Nat := a.value.toNat / 256 ^ (off - a.off) % 256

/-- A ring of the device (R250). -/
def RingId.ok : RingId → Bool
  | .mq | .eq => true
  | .sq p k => decide (p < 32) && decide (k < 4)
  | .cq p | .tq p => decide (p < 32)

def RingId.isOut : RingId → Bool
  | .eq | .cq _ | .tq _ => true
  | _ => false

/-- The SRAM block exists (R293): 640 macros of 4,096 blocks on each array die, 1,280 on the hub; of the classes of Table 14-4, SRAM
holds transient data, critical control state and always-on state. -/
def SramRead.ok (r : SramRead) : Bool :=
  decide (r.die < 5) && decide (r.macro_ < if r.die < 4 then 640 else 1280) && decide (r.block < 4096) &&
  (r.cls == 4 || r.cls == 5 || r.cls == 6)

/-- The command is one that its row names. -/
def Instr.wf : Instr → Bool
  | .nop f => f.code == 0x00
  | .badOpcode f => !knownOpcode f.code
  | .admitCall f => f.code == 0x01
  | .cancel f => f.code == 0x02
  | .releaseCall f => f.code == 0x03
  | .stepMask f => f.code == 0x04
  | .budgetSet f => f.code == 0x05
  | .budgetRead f => f.code == 0x06
  | .graftLoad f => f.code == 0x07
  | .graftRetire f => f.code == 0x08
  | .matteLoad f => f.code == 0x09
  | .matteFree f => f.code == 0x0A
  | .tune f => f.code == 0x0B
  | .loadManifest f => f.code == 0x20
  | .loadChunk f => f.code == 0x21
  | .loadPlacement f => f.code == 0x22
  | .attnSetup f => f.code == 0x23
  | .takeReplacement f => f.code == 0x24 && f.fieldAt 64 2 != 2
  | .takeRefresh f => f.code == 0x24 && f.fieldAt 64 2 == 2
  | .cut f => f.code == 0x25
  | .releaseImage f => f.code == 0x26
  | .deckRead f => f.code == 0x27
  | .refWarm f => f.code == 0x30
  | .calibrate f => f.code == 0x31
  | .hkSample f => f.code == 0x32
  | .retire f => f.code == 0x33
  | .fill f => f.code == 0x34
  | .rehash f => f.code == 0x35
  | .arrayTest f _ => f.code == 0x36
  | .resetCold f => f.code == 0x40 && !([2, 3, 4, 5].contains (f.fieldAt 64 3))
  | .resetWarm f => f.code == 0x40 && f.fieldAt 64 3 == 2
  | .resetPartition f => f.code == 0x40 && f.fieldAt 64 3 == 3
  | .resetBough f => f.code == 0x40 && f.fieldAt 64 3 == 4
  | .resetPort f => f.code == 0x40 && f.fieldAt 64 3 == 5
  | .powerStateD0 f => f.code == 0x41 && decide (f.fieldAt 64 2 < 2)
  | .powerStateD2 f => f.code == 0x41 && f.fieldAt 64 2 == 2
  | .powerStateD3 f => f.code == 0x41 && f.fieldAt 64 2 == 3
  | .fwStage f => f.code == 0x42
  | .fwCutover f => f.code == 0x43
  | .attest f => f.code == 0x44
  | .doorbell _ r _ => r.ok
  | .fetchFault r => r.ok && !r.isOut
  | .hostFault r _ => r.ok && !r.isOut
  | .recordWriteFault r => r.ok && r.isOut
  | .coalWindowExpiry r => r.ok && r.isOut
  | .seal a => a.covers 0x0028
  | .versionNeg a => a.covers 0x0020
  | .fenceCtrlRelease a => a.covers 0x1024 && a.byteFor 0x1024 % 2 == 1
  | .bootSrcGo a => a.covers 0x109C && a.byteFor 0x109C % 2 == 1
  | .counterSel a => a.covers 0x1080 || a.covers 0x1084
  | .hkCtrlRefen a => a.covers 0x1028
  | .hbmExit x => x.ok || x.area
  | .hbmFill complete ok => !(complete && !ok)
  | .referenceSweep t d _ => decide (t < 8192) && decide (d < 8)
  | .clapperPhase t d _ => decide (t < 8192) && decide (d < 8)
  | .verifyRead t d _ => decide (t < 8192) && decide (d < 8)
  | .phaseEnd t codes => decide (t < 8192) && codes.all fun c => decide (-128 ≤ c) && decide (c ≤ 127)
  | .programStepEnd t _ => decide (t < 8192)
  | .programStepOwed t => decide (t < 8192)
  | .forcedGap t => decide (t < 8192)
  | .outlierReadReturn _ r => r.sram.all SramRead.ok
  | .boughSum _ r => r.sram.all SramRead.ok
  | .graftTerm _ _ sram => sram.all SramRead.ok
  | .transferDone _ x => x.sram.all SramRead.ok
  | .taprootAttention _ _ _ r => r.sram.all SramRead.ok
  | .flitDiscard _ w => w.length == 262
  | .tokenReturn hd .. => hd.channel == 1 || hd.channel == 2
  | .activation hd .. => hd.channel == 1 || hd.channel == 2
  | .runningSum hd .. => hd.channel == 1 || hd.channel == 2
  | .ack hd => hd.channel == 0
  | .nak hd _ => hd.channel == 0
  | .degrade hd _ _ => hd.channel == 0
  | .discover hd _ _ _ _ => hd.channel == 0
  | .callCtrl hd _ => hd.channel == 2
  | .cutCtrl hd _ => hd.channel == 2
  | .jack hd _ _ _ _ => hd.channel == 0
  | .adopt hd => hd.channel == 0
  | .image hd _ => hd.channel == 3
  | .heartbeat hd _ _ => hd.channel == 0
  | .hbHold hd _ _ _ => hd.channel == 0
  | .journal hd _ => hd.channel == 1
  | .journalAck hd _ _ _ => hd.channel == 0
  | .retakeReq hd _ => hd.channel == 1
  | .retakeResp hd _ _ _ _ => hd.channel == 1
  | .mirrorDrop hd => hd.channel == 0
  | .mergeEvict st ch _ => decide (st < 8) && decide (ch < 32)
  | .hotSample st _ _ => decide (st < 8)
  | .hotspot st => decide (st < 8)
  | .hkConversionDone v => decide (v.toNat < 65536)
  | .urgentSample c => decide (c < 164)
  | _ => true

end Sys2Proof
end

