-- ==== Sys2Proof/Machine/CallDesc.lean ====
section
/-! DEFINITION. The descriptors of a partition: calls, budgets, grafts, mattes and tuning (09, 10, 11). -/

set_option Elab.async false

namespace Sys2Proof.Machine

/-! ### NOP and reserved opcodes -/

/-- NOP completes with OK (Table 11-4). -/
def nopEffect (j : Job) (s : State) : State := s.complete j .ok

def execNop (f : Sys2Proof.Fetch) (s : State) : Result := s.descriptor "NOP" (Instr.wf (.nop f)) f nopEffect

/-- A reserved opcode ends in check 2 of R243, so nothing is left to run. -/
def badOpcodeEffect (j : Job) (s : State) : State := s.complete j .badOpcode

def execBadOpcode (f : Sys2Proof.Fetch) (s : State) : Result :=
  s.descriptor "BAD_OPCODE" (Instr.wf (.badOpcode f)) f badOpcodeEffect

namespace State

/-! ### ADMIT -/

/-- The LM head of the generation in force on this position (Table 07-7, kind 1). -/
def lmHead (s : State) : Option Mat := s.chargeGen.bind fun g => (s.matsOf g).find? fun m => m.kind == 1

def liveVocab (s : State) : Option Nat := s.liveGen.bind fun g => ((s.matsOf g).find? fun m => m.kind == 1).map (·.outputs)

/-- R218: the sampler parameters that an admission refuses. -/
def samplerBad (s : State) (w : Nat) : Bool :=
  let t := Bits.field w 0 16
  decide (0x8000 ≤ t) || decide (0x7C00 ≤ t % 0x8000) || decide (Bits.field w 63 1 = 1) ||
  (decide (Bits.field w 62 1 = 1) && (match s.lmHead with
    | some m => decide (m.outputs ≤ Bits.field w 44 18)
    | none => false))

/-- The record belongs to the partition's budget groups (R257). -/
def inGroups (s : State) (p cust : Nat) : Bool := s.groupOwner cust == some p

/-- The graft handle can be pinned for a call of a partition (R208, Table 10-3). -/
def graftUsable (s : State) (p handle : Nat) : Bool :=
  match s.currentGraft handle with
  | none => false
  | some g => g.partition == p && (g.imageId == 0 || (s.liveGen.map (·.imageId)) == some g.imageId)

def matte? (s : State) (handle : Nat) : Option Matte := s.mattes.find? fun m => m.handle == handle

/-- The matte handle can be named by a call of a partition (R214). -/
def matteUsable (s : State) (p handle : Nat) : Bool :=
  match s.matte? handle with
  | none => false
  | some m => m.partition == p && s.liveVocab == some m.vocab

/-- Tokens that a held call has committed, its last sampled token included (R184). -/
def heldTokens (e : Entry) : Nat := e.kvLen + (if e.carried.isSome then 1 else 0)

end State

/-- The operands of ADMIT (Table 11-5). -/
structure AdmitOps where
  premium : Bool
  hold : Bool
  failIfParked : Bool
  hasGraft : Bool
  hasMatte : Bool
  cont : Bool
  priority : Nat
  customer : Nat
  kvFormat : Nat
  depth : Nat
  graft : Nat
  promptLen : Nat
  maxNew : Nat
  matte : Nat
  pace : Nat
  seed : Nat
  deadline : Nat
  sampler : Nat
  contTag : Nat
  prompt : List Nat

def admitOps (f : Sys2Proof.Fetch) : AdmitOps :=
  let n := Fetch.at f 16 4
  { premium := f.word.getLsbD 64, hold := f.word.getLsbD 65, failIfParked := f.word.getLsbD 66, hasGraft := f.word.getLsbD 67,
    hasMatte := f.word.getLsbD 68, cont := f.word.getLsbD 69, priority := Fetch.at f 9 1, customer := Fetch.at f 10 2,
    kvFormat := Fetch.at f 12 1, depth := Fetch.bits f 104 4, graft := Fetch.at f 14 2, promptLen := n,
    maxNew := Fetch.at f 20 4, matte := Fetch.at f 24 4, pace := Fetch.at f 28 4, seed := Fetch.at f 32 8,
    deadline := Fetch.at f 40 8, sampler := Fetch.at f 48 8, contTag := Bits.le f.ext 0 4,
    prompt := (List.range (min n (f.ext.length / 4))).map fun k => Bits.le f.ext (64 + 4 * k) 4 }

namespace State

/-- The held call that a continuation names. -/
def heldCall (s : State) (p : Nat) (o : AdmitOps) : Option Nat :=
  if o.cont then s.findCall p o.contTag fun e => decide (e.state = .held) else none

/-- The largest length of the call (R159, R184). -/
def admitLength (s : State) (h : Option Nat) (o : AdmitOps) : Nat :=
  (match h with
   | some c => heldTokens (s.call c)
   | none => 0) + o.promptLen + o.maxNew + o.depth

/-- The KV format of the call (R158). -/
def admitFormat (s : State) (h : Option Nat) (o : AdmitOps) : Nat :=
  match h with
  | some c => (s.call c).kvFormat
  | none => o.kvFormat

/-- The frame charge of the call: for a continuation the larger of the held charge and its own (R184). -/
def admitCharge (s : State) (h : Option Nat) (o : AdmitOps) : Nat :=
  let n := s.frameCharge (s.admitFormat h o) (s.admitLength h o)
  match h with
  | some c => max (s.call c).charge n
  | none => n

/-- The refusals of ADMIT in the order of R237. A matte handle and a stop token are tested where mattes and the LM head are, at the last
position (R214, R218; log 172). -/
def admitStatus (s : State) (p : Nat) (f : Sys2Proof.Fetch) (o : AdmitOps) : Option Status :=
  let h := s.heldCall p o
  let cust := refilled (s.customer o.customer) s.now
  if o.cont && h.isNone then some .callUnknown
  else if (match h with
      | some c => o.kvFormat != 0 && o.kvFormat != (s.call c).kvFormat
      | none => o.kvFormat != 0x20 && o.kvFormat != 0x21) then some .badFormat
  else if (o.promptLen = 0 ∧ !o.cont) ∨ 262144 < s.admitLength h o ∨ 8 < o.depth ∨
      Fetch.extLen f ≠ 1 + Bits.ceilDiv o.promptLen 16 then some .badLength
  else if s.samplerBad o.sampler then some .badSampler
  else if !(cust.valid && s.inGroups p o.customer) then some .badCustomer
  else if (s.findCall p (Fetch.tag f) fun _ => true).isSome && s.findCall p (Fetch.tag f) (fun _ => true) != h then some .badTag
  else if o.hasGraft && !s.graftUsable p o.graft then some .badGraft
  else if s.isLast && o.hasMatte && !s.matteUsable p o.matte then some .badMatte
  else if (s.part p).kvFrames = 0 ∨ (s.part p).kvFrames.toNat < s.admitCharge h o then some .kvQuota
  else if o.failIfParked && decide (cust.level ≤ 0) then some .budgetPark
  else none

/-- The lowest FREE entry (log 10). -/
def freeEntry (s : State) : Nat := ((List.range 16384).find? fun c => decide ((s.call c).state = .free)).getD 0

/-- The entry that an ADMIT creates or reuses (R183, R184, Table 09-1). -/
def admitEntry (s : State) (p : Nat) (f : Sys2Proof.Fetch) (j : Job) (o : AdmitOps) (h : Option Nat) : Entry :=
  let old := match h with
    | some c => s.call c
    | none => {}
  let charge := s.admitCharge h o
  let mirror := o.premium && s.partnerThere && (h.isNone || !old.unmirrored)
  { old with
    state := .queued, premium := o.premium, partition := p, hold := o.hold, failIfParked := o.failIfParked,
    hasGraft := o.hasGraft, hasMatte := o.hasMatte, unmirrored := o.premium && !mirror, priority := o.priority,
    customer := o.customer, kvFormat := s.admitFormat h o, draftDepth := o.depth, draftLive := 0, tag := Fetch.tag f,
    promptLen := o.promptLen, maxNew := o.maxNew, prefilled := 0, generated := 0,
    graftHandle := o.graft, graftGen := if o.hasGraft then ((s.currentGraft o.graft).map (·.generation)).getD 0 else 0,
    matteHandle := o.matte, seed := BitVec.ofNat 64 o.seed, deadline := o.deadline, pace := o.pace,
    due := if o.premium then (if o.pace = 0 then 2 ^ 64 - 1 else s.now + o.pace) else 0, admitTick := s.now,
    admitNo := s.nextOrder, draftPolicy := (s.regs.acceptMin.toNat, s.regs.reprobe.toNat), memFailed := none, written := false,
    sampler := BitVec.ofNat 64 o.sampler, job := some { j with premium := o.premium }, prompt := o.prompt, charge := charge,
    owed := charge - old.charge, matteState := ((s.matte? o.matte).map (·.start)).getD 0, mask := none, cancels := [],
    nonfinite := false, seenUnbounded := false, seenTier := false, adopted := false, stepsDone := 0, emitted := false,
    issuedPrompt := 0, drafts := [], draftQ := [], pairs := [], draftOff := false, offSteps := 0, ended := false,
    cancelled := false, marks := [], tokenDue := false }

/-- Create or reuse the entry, attempt the frame charge, tell the chain and the partner (R183, R184, R186). -/
def admitCall (s : State) (p : Nat) (f : Sys2Proof.Fetch) (j : Job) : State :=
  let o := admitOps f
  let h := s.heldCall p o
  let c := h.getD s.freeEntry
  let e := s.admitEntry p f j o h
  let heldTag := h.map fun c => (s.call c).tag
  let s := ((s.refill o.customer).start { j with premium := o.premium }).takeOrder
  let s := if o.hasGraft then s.pinGraft e.graftHandle e.graftGen else s
  let s := s.putCall c e
  let s := s.journal e [.prompt p e.tag e.prompt]
  let s := s.count (Ctr.admits p)
  let s := if e.premium && e.unmirrored then s.count (Ctr.unmirroredCalls p) else s
  let s := s.chargeWaiting p
  let s := if (s.call c).state = .queued then s.count (Ctr.admitQueued p) else s
  let s := if s.isLast then s else s.send .d 2 (.callCtrl (.admitCall e.bytes none heldTag))
  -- R184: nothing to run
  if o.cont && decide (o.promptLen = 0) && decide (o.maxNew = 0) && e.carried.isNone then s.endCall c .ok none else s

end State

/-- ADMIT's own checks and effect (R237). -/
def admitEffect (f : Sys2Proof.Fetch) (j : Job) (s : State) : State :=
  match f.ring with
  | .sq p _ =>
    match s.admitStatus p f (admitOps f) with
    | some st => s.complete { j with premium := (admitOps f).premium } st
    | none => s.admitCall p f j
  | _ => s.complete j .wrongRing

def execAdmit (f : Sys2Proof.Fetch) (s : State) : Result := s.descriptor "ADMIT" (Instr.wf (.admitCall f)) f (admitEffect f)

/-! ### CANCEL, RELEASE_CALL and STEP_MASK -/

namespace State

def stepsOf (s : State) (c : Nat) : List Step := s.steps.filter fun x => x.call == c

/-- A call whose CANCEL or deadline acts at once: no step in flight, or its only step waits for a STEP_MASK (R196, R198). -/
def actsAtOnce (s : State) (c : Nat) : Bool :=
  decide ((s.call c).state ≠ .running) || (!(s.stepsOf c).isEmpty && (s.stepsOf c).all fun x => x.waitsMask)

end State

/-- CANCEL (R198). -/
def cancelEffect (f : Sys2Proof.Fetch) (j : Job) (s : State) : State :=
  match (ringPart f.ring).bind fun p => s.findCall p (Fetch.at f 8 4) State.liveEntry with
  | none => s.complete j .callUnknown
  | some c =>
    let s := (s.start j).modCall c fun e => { e with cancels := e.cancels ++ [j], cancelled := true }
    if s.actsAtOnce c then s.endCall c .cancelled none
    else if s.isLast then s
    else s.send .d 2 (.callCtrl (.cancel (s.call c).partition (s.call c).tag))

def execCancel (f : Sys2Proof.Fetch) (s : State) : Result :=
  s.descriptor "CANCEL" (Instr.wf (.cancel f)) f (cancelEffect f)

/-- RELEASE_CALL (R199, Table 11-6). -/
def releaseCallEffect (f : Sys2Proof.Fetch) (j : Job) (s : State) : State :=
  match (ringPart f.ring).bind fun p => s.findCall p (Fetch.at f 8 4) fun e => decide (e.state = .held) with
  | none => s.complete j .callUnknown
  | some c =>
    let e := s.call c
    ((s.tellChain none (.ended e.partition e.tag 0)).releaseEntry c).complete j .ok

def execReleaseCall (f : Sys2Proof.Fetch) (s : State) : Result :=
  s.descriptor "RELEASE_CALL" (Instr.wf (.releaseCall f)) f (releaseCallEffect f)

namespace State

/-- CHUNK_LEN as the latest batch found it (R188); a later position, which forms no batches, takes its own register. -/
def chunkLen (s : State) : Nat := if s.isFirst then s.sched.chunkLen else s.regs.chunkLen.toNat

/-- Tokens of a prefill chunk; none means that the whole remaining prompt is one chunk (Table 09-3). -/
def chunkTokens (s : State) : Option Nat := if s.chunkLen = 0 then none else some (s.chunkLen * 128)

/-- Prompt tokens not committed yet, a carried token included (R184, R187). -/
def promptLeft (e : Entry) : Nat :=
  (e.promptLen - e.prefilled) + (if e.carried.isSome && decide (0 < e.promptLen ∨ e.maxNew = 0) then 1 else 0)

/-- Index of the call's next sampling step (R216); none when it samples no more. -/
def samplingStep (s : State) (e : Entry) : Option Nat :=
  if e.maxNew ≤ e.generated then none
  else match promptLeft e with
  | 0 => some e.step
  | n => match s.chunkTokens with
    | none => some e.step
    | some k => some (e.step + Bits.ceilDiv n k - 1)

end State

/-- STEP_MASK (R216). -/
def stepMaskEffect (f : Sys2Proof.Fetch) (j : Job) (s : State) : State :=
  match (ringPart f.ring).bind fun p => s.findCall p (Fetch.at f 8 4) State.liveEntry with
  | none => s.complete j .callUnknown
  | some c =>
    let e := s.call c
    match s.matte? e.matteHandle with
    | none => s.complete j .maskStale
    | some m =>
      if !e.hasMatte || m.kind != 3 || s.samplingStep e != some (Fetch.at f 12 4) || e.mask.isSome then s.complete j .maskStale
      else if Fetch.at f 24 4 != 8 * Bits.ceilDiv m.vocab 64 then s.complete j .badLength
      else if f.bufFault then s.complete j .hostFault
      else
        let s := s.modCall c fun e => { e with mask := some (Fetch.at f 12 4, Bits.slice f.buf 0 (Fetch.at f 24 4)) }
        ({ s with steps := s.steps.map fun (x : Step) => if x.call == c then { x with waitsMask := false } else x }).complete j .ok

def execStepMask (f : Sys2Proof.Fetch) (s : State) : Result :=
  s.descriptor "STEP_MASK" (Instr.wf (.stepMask f)) f (stepMaskEffect f)

/-! ### Budgets (R200 to R203) -/

/-- The issuer may act on the record: its own groups, or on the management ring any enabled partition's. -/
def budgetOwned (f : Sys2Proof.Fetch) (s : State) (cust : Nat) : Bool :=
  match f.ring with
  | .sq p _ => s.inGroups p cust
  | _ => (s.groupOwner cust).isSome

/-- A reserved field of the record is set (Table 09-4), bytes from 24. -/
def budgetReserved (f : Sys2Proof.Fetch) : Bool :=
  decide (Fetch.bits f 193 31 ≠ 0) || decide (Fetch.at f 38 2 ≠ 0) || decide (Fetch.at f 46 2 ≠ 0) || decide (Fetch.at f 54 2 ≠ 0)

/-- The record after a BUDGET_SET (R203). -/
def budgetWritten (f : Sys2Proof.Fetch) (old : Customer) (now : Nat) : Customer :=
  let cap := Fetch.at f 28 4
  let iv := Fetch.at f 40 6
  let old := State.refilled old now
  { valid := true, parkEvent := f.word.getLsbD 192, capacity := cap, refill := Fetch.at f 32 4, promptWeight := Fetch.at f 36 2,
    interval := iv,
    level := if old.valid then min old.level ((cap * 256 : Nat) : Int) else ((cap * 256 : Nat) : Int),
    nextRefill := if old.valid ∧ old.interval = iv then old.nextRefill else now + iv }

def budgetSetEffect (f : Sys2Proof.Fetch) (j : Job) (s : State) : State :=
  let cust := Fetch.at f 8 2
  if Fetch.at f 40 6 = 0 ∨ budgetReserved f = true ∨ budgetOwned f s cust = false then s.complete j .badBudget
  else (((s.modCustomer cust fun c => budgetWritten f c s.now).unpark cust).parkReady cust).complete j .ok

def execBudgetSet (f : Sys2Proof.Fetch) (s : State) : Result :=
  s.descriptor "BUDGET_SET" (Instr.wf (.budgetSet f)) f (budgetSetEffect f)

def budgetReadEffect (f : Sys2Proof.Fetch) (j : Job) (s : State) : State :=
  let cust := Fetch.at f 8 2
  if budgetOwned f s cust = false then s.complete j .badBudget
  else
    let s := s.refill cust
    if f.bufFault then s.complete j .hostFault
    else (s.hostWrite (Fetch.at f 16 8) (s.customer cust).bytes).complete j .ok

def execBudgetRead (f : Sys2Proof.Fetch) (s : State) : Result :=
  s.descriptor "BUDGET_READ" (Instr.wf (.budgetRead f)) f (budgetReadEffect f)

/-! ### Grafts (R206 to R209) -/

/-- GRAFT_LOAD reads the image; its signature check queues (R206, R377). -/
def graftLoadEffect (f : Sys2Proof.Fetch) (j : Job) (s : State) : State :=
  if f.bufFault then s.complete j .hostFault
  else (s.start j).modSec fun x =>
    { x with queue := x.queue ++ [.graft (Bits.slice f.buf 0 (Fetch.at f 16 8)) f.ring j] }

def execGraftLoad (f : Sys2Proof.Fetch) (s : State) : Result :=
  s.descriptor "GRAFT_LOAD" (Instr.wf (.graftLoad f)) f (graftLoadEffect f)

/-- The issuing ring may name a resource of partition `p` (R257). -/
def mayName (r : RingId) (p : Nat) : Bool :=
  match ringPart r with
  | some q => q == p
  | none => true

/-- GRAFT_RETIRE ends the handle's current generation (R209). -/
def graftRetireEffect (f : Sys2Proof.Fetch) (j : Job) (s : State) : State :=
  match s.currentGraft (Fetch.at f 8 2) with
  | none => s.complete j .badGraft
  | some g =>
    if mayName f.ring g.partition then
      (State.freeGrafts { s with grafts := s.grafts.map fun (x : Graft) =>
        if x.handle == g.handle then { x with current := false } else x }).complete j .ok
    else s.complete j .badGraft

def execGraftRetire (f : Sys2Proof.Fetch) (s : State) : Result :=
  s.descriptor "GRAFT_RETIRE" (Instr.wf (.graftRetire f)) f (graftRetireEffect f)

/-! ### Mattes (R214) -/

/-- Strictly rising numbers. -/
def rising : List Nat → Bool
  | a :: b :: t => decide (a < b) && rising (b :: t)
  | _ => true

/-- Bytes of a mask bitmap. -/
def bitmapBytes (vocab : Nat) : Nat := 8 * Bits.ceilDiv vocab 64

/-- Bit `v` of a bitmap (R7). -/
def bitmapHas (b : Bytes) (v : Nat) : Bool := (b.getD (v / 8) 0).getLsbD (v % 8)

/-- A matte read from its bytes (Tables 10-4 to 10-6). -/
def matteOf (b : Bytes) : Matte :=
  let count := Bits.le b 8 4
  let vocab := Bits.le b 24 4
  let kind := Bits.byteAt b 4
  let masks := Bits.le b 12 4
  let m0 := 32 + 16 * count
  let t0 := m0 + masks * bitmapBytes vocab
  let n := min count b.length
  { handle := Bits.le b 0 4, partition := Bits.byteAt b 5 % 64, kind := kind, vocab := vocab,
    tokens := if kind = 1 then (List.range n).map fun k => Bits.le b (32 + 4 * k) 4 else [],
    states := if kind = 2 then (List.range n).map fun k =>
        let a := 32 + 16 * k
        (Bits.le b a 4, Bits.le b (a + 4) 4, Bits.le b (a + 8) 4, Bits.le b (a + 12) 2, Bits.byteAt b (a + 14) % 2 == 1)
      else [],
    masks := if kind = 2 then (List.range (min masks b.length)).map fun k =>
        Bits.slice b (m0 + k * bitmapBytes vocab) (bitmapBytes vocab) else [],
    trans := if kind = 2 then (List.range (min (Bits.le b 16 4) b.length)).map fun k =>
        (Bits.le b (t0 + 8 * k) 4, Bits.le b (t0 + 8 * k + 4) 4) else [],
    start := Bits.le b 20 4 }

/-- Size of a matte by its header. -/
def matteSize (b : Bytes) : Nat :=
  let count := Bits.le b 8 4
  match Bits.byteAt b 4 with
  | 1 => 32 + 4 * count
  | 2 => 32 + 16 * count + Bits.le b 12 4 * bitmapBytes (Bits.le b 24 4) + 8 * Bits.le b 16 4
  | _ => 32

/-- The cases in which MATTE_LOAD completes with BAD_MATTE (R214). -/
def matteBad (s : State) (r : RingId) (len : Nat) (b : Bytes) : Bool :=
  let m := matteOf b
  let count := Bits.le b 8 4
  !([1, 2, 3].contains m.kind) || decide (64 ≤ Bits.byteAt b 5) || decide (32 ≤ m.partition) || !Bits.zeroAt b 6 2 ||
  !Bits.zeroAt b 28 4 || decide (m.vocab = 0) || decide (len ≠ matteSize b) ||
  (decide (m.kind = 3) && decide (count ≠ 0)) ||
  (decide (m.kind = 2) && (decide (count = 0) || decide (Bits.le b 12 4 = 0))) ||
  (decide (m.kind ≠ 2) && (!Bits.zeroAt b 12 12)) ||
  !rising m.tokens || m.tokens.any (fun t => decide (m.vocab ≤ t)) ||
  (decide (m.kind = 2) && (decide (count ≤ m.start) ||
    (List.range m.states.length).any (fun k => !Bits.zeroAt b (32 + 16 * k + 15) 1 || decide (2 ≤ Bits.byteAt b (32 + 16 * k + 14))) ||
    m.states.any (fun st => decide (m.masks.length ≤ st.1) || decide (count ≤ st.2.1) ||
      decide (m.trans.length < st.2.2.1 + st.2.2.2.1) ||
      !rising (((m.trans.drop st.2.2.1).take st.2.2.2.1).map (·.1))) ||
    m.trans.any (fun t => decide (m.vocab ≤ t.1) || decide (count ≤ t.2)) ||
    m.masks.any (fun k => (List.range (8 * bitmapBytes m.vocab - m.vocab)).any fun i => bitmapHas k (m.vocab + i)))) ||
  (s.matte? m.handle).isSome || s.liveVocab != some m.vocab || !mayName r m.partition

def matteLoadEffect (f : Sys2Proof.Fetch) (j : Job) (s : State) : State :=
  if f.bufFault then s.complete j .hostFault
  else
    let b := Bits.slice f.buf 0 (Fetch.at f 16 8)
    if matteBad s f.ring (Fetch.at f 16 8) b then s.complete j .badMatte
    else State.complete { s with mattes := s.mattes ++ [matteOf b] } j .ok

def execMatteLoad (f : Sys2Proof.Fetch) (s : State) : Result :=
  s.descriptor "MATTE_LOAD" (Instr.wf (.matteLoad f)) f (matteLoadEffect f)

def matteFreeEffect (f : Sys2Proof.Fetch) (j : Job) (s : State) : State :=
  match s.matte? (Fetch.at f 8 4) with
  | none => s.complete j .badMatte
  | some m =>
    if !mayName f.ring m.partition then s.complete j .badMatte
    else if s.calls.any fun x => decide (x.2.state ≠ .free) && x.2.hasMatte && x.2.matteHandle == m.handle then
      s.complete j .matteInUse
    else State.complete { s with mattes := s.mattes.filter fun x => x.handle != m.handle } j .ok

def execMatteFree (f : Sys2Proof.Fetch) (s : State) : Result :=
  s.descriptor "MATTE_FREE" (Instr.wf (.matteFree f)) f (matteFreeEffect f)

/-! ### TUNE (R213) -/

/-- An FP32 operand that must be positive and finite. -/
def positiveFinite (v : Nat) : Bool := decide (0 < v) && decide (v < 0x7F800000)

/-- The example entries of a TUNE: address and tokens. -/
def tuneExamples (f : Sys2Proof.Fetch) : List (Nat × Nat) :=
  (List.range (min (Fetch.at f 48 4) (4 * Fetch.extLen f))).map fun k => (Bits.le f.ext (16 * k) 8, Bits.le f.ext (16 * k + 8) 4)

/-- Largest example of a TUNE: the call's largest length. -/
def tuneLength (f : Sys2Proof.Fetch) : Nat := (tuneExamples f).foldl (fun a x => max a x.2) 0

/-- The refusals of TUNE (Table 11-6, R181). -/
def tuneStatus (s : State) (p : Nat) (f : Sys2Proof.Fetch) : Option Status :=
  let cust := State.refilled (s.customer (Fetch.at f 10 2)) s.now
  if (tuneExamples f).any (fun x => x.1 = 0 ∨ x.1 % 8 ≠ 0) then some .badAddress
  else if !(positiveFinite (Fetch.at f 16 4) && positiveFinite (Fetch.at f 20 4) && positiveFinite (Fetch.at f 24 4) &&
      positiveFinite (Fetch.at f 28 4)) ∨ 0x3F800000 ≤ Fetch.at f 20 4 ∨ 0x3F800000 ≤ Fetch.at f 24 4 ∨ Fetch.at f 40 8 = 0 ∨
      Fetch.at f 48 4 = 0 ∨ Fetch.extLen f ≠ Bits.ceilDiv (Fetch.at f 48 4) 4 ∨
      (tuneExamples f).any (fun x => x.2 = 0 ∨ 262144 < x.2) then some .badLength
  else if !(cust.valid && s.inGroups p (Fetch.at f 10 2)) then some .badCustomer
  else if (s.findCall p (Fetch.tag f) fun _ => true).isSome then some .badTag
  else if (match s.currentGraft (Fetch.at f 8 2) with
      | some g => g.partition != p
      | none => true) then some .badGraft
  else if (s.part p).kvFrames = 0 ∨ (s.part p).kvFrames.toNat < s.frameCharge 0x21 (tuneLength f) then some .kvQuota
  else none

/-- This position's report of a graft: rank, entries, body length, registered to the partition (R213). -/
def tuneReport (s : State) (p handle : Nat) : Nat × Nat × Nat × Nat × Bool :=
  match s.currentGraft handle with
  | none => (s.regs.chainPos.toNat, 0, 0, 0, false)
  | some g => (s.regs.chainPos.toNat, g.rank, g.entries.length, g.body.length, g.partition == p)

/-- A section's length: the body rounded up to 64 (R213). -/
def sectionLen (n : Nat) : Nat := 64 * Bits.ceilDiv n 64

/-- The chain length, as the generation in force gives it. -/
def State.chainLength (s : State) : Nat :=
  match s.chargeGen with
  | some g => g.chainLength
  | none => 1

/-- Position 0 checks the reports once all have come (R213). -/
def tuneCheck (s : State) (c : Nat) : State :=
  match (s.call c).tune with
  | none => s
  | some t =>
    if t.checked ∨ t.reports.length < s.chainLength then s
    else if t.reports.any (fun r => !r.2.2.2.2) ∨ t.reports.all (fun r => r.2.1 = 0 ∨ r.2.2.1 = 0) then s.endCall c .badGraft none
    else if t.resultLen ≠ (t.reports.map fun r => sectionLen r.2.2.2.1).sum then s.endCall c .badLength none
    else s.modCall c fun e => { e with tune := some { t with checked := true } }

/-- The update parameters and examples of a TUNE. -/
def tuneParams (f : Sys2Proof.Fetch) : TuneParams :=
  { lr := BitVec.ofNat 32 (Fetch.at f 16 4), beta1 := BitVec.ofNat 32 (Fetch.at f 20 4), beta2 := BitVec.ofNat 32 (Fetch.at f 24 4),
    eps := BitVec.ofNat 32 (Fetch.at f 28 4), steps := Fetch.at f 12 4, examples := ((tuneExamples f).map fun x => x.2).zip f.bufs }

/-- The tuning state at admission, with this position's report. -/
def tuneState (s : State) (p : Nat) (f : Sys2Proof.Fetch) : Tune :=
  { handle := Fetch.at f 8 2, steps := Fetch.at f 12 4, resultAddr := Fetch.at f 32 8, resultLen := Fetch.at f 40 8,
    examples := (tuneParams f).examples, reports := [tuneReport s p (Fetch.at f 8 2)], checked := false, stepsDone := 0, sections := [],
    params := tuneParams f }

/-- The call of a TUNE: bulk, max_new 0 (R213); its pages are KV8 (log 11). -/
def tuneEntry (s : State) (p : Nat) (f : Sys2Proof.Fetch) (j : Job) : Entry :=
  let charge := s.frameCharge 0x21 (tuneLength f)
  { state := .queued, partition := p, customer := Fetch.at f 10 2, kvFormat := 0x21, tag := Fetch.tag f,
    promptLen := tuneLength f, admitTick := s.now, admitNo := s.nextOrder, job := some j, charge := charge, owed := charge, hasGraft := true,
    graftHandle := Fetch.at f 8 2, graftGen := ((s.currentGraft (Fetch.at f 8 2)).map (·.generation)).getD 0,
    tune := some (tuneState s p f) }

def tuneEffect (f : Sys2Proof.Fetch) (j : Job) (s : State) : State :=
  match f.ring with
  | .sq p _ =>
    match tuneStatus s p f with
    | some st => s.complete j st
    | none =>
      let c := s.freeEntry
      let e := tuneEntry s p f j
      let s := ((((s.refill e.customer).start j).takeOrder).pinGraft e.graftHandle e.graftGen).putCall c e
      let s := (s.count (Ctr.admits p)).chargeWaiting p
      let s := if (s.call c).state = .queued then s.count (Ctr.admitQueued p) else s
      let s := if s.isLast then s else s.send .d 2 (.callCtrl (.admitCall e.bytes (some (tuneParams f)) none))
      tuneCheck s c
  | _ => s.complete j .wrongRing

def execTune (f : Sys2Proof.Fetch) (s : State) : Result := s.descriptor "TUNE" (Instr.wf (.tune f)) f (tuneEffect f)

end Sys2Proof.Machine
end

