-- ==== Sys2Proof/Machine/Shake.lean ====
section
/-! DEFINITION. SHAKE256 (18: "All digests are SHAKE256 (FIPS 202)"). PRESUMED: the permutation and padding are
FIPS 202's own, which the manual names and does not reproduce. -/

set_option Elab.async false

namespace Sys2Proof.Shake

/-- A Keccak lane. -/
abbrev Lane := BitVec 64

/-- Lane `i` of a state of 25, in the order x + 5y. -/
def lane (a : List Lane) (i : Nat) : Lane := a.getD i 0

/-- The parity of column `x`: its five lanes added without carry. -/
def parity (a : List Lane) (x : Nat) : Lane := (List.range 5).foldl (fun p y => p ^^^ lane a (x % 5 + 5 * y)) 0

/-- FIPS 202 theta: each lane takes the parity of the column on its left and that of the column on its right, the
second turned by one bit. -/
def theta (a : List Lane) : List Lane :=
  a.zipIdx.map fun l => l.1 ^^^ parity a (l.2 + 4) ^^^ (parity a (l.2 + 1)).rotateLeft 1

/-- FIPS 202 rho and pi in one walk from the lane at (x, y) = (1, 0): step `t` turns the lane it stands on by
(t + 1)(t + 2)/2 bits, lays it at (y, 2x + 3y), and stands there next. `n` steps remain of the 24; lane (0, 0)
stays where it is. -/
def walk (a : List Lane) : Nat → Nat → Nat → List Lane → List Lane
  | 0, _, _, b => b
  | n + 1, x, y, b =>
    let t := 23 - n
    let z := (2 * x + 3 * y) % 5
    walk a n y z (b.set (y + 5 * z) ((lane a (x + 5 * y)).rotateLeft ((t + 1) * (t + 2) / 2 % 64)))

/-- FIPS 202 chi: within its row each lane takes the next lane but one where the next lane is clear. -/
def chi (a : List Lane) : List Lane :=
  a.zipIdx.map fun l =>
    let row := l.2 - l.2 % 5
    l.1 ^^^ (lane a (row + (l.2 + 2) % 5) &&& ~~~lane a (row + (l.2 + 1) % 5))

/-- One step of the eight-bit shift register of FIPS 202's rc, whose polynomial is x^8 + x^6 + x^5 + x^4 + 1. -/
def tap (r : Nat) : Nat := if r < 128 then 2 * r else (2 * r) ^^^ 0x171

/-- The register after `n` steps. -/
def taps : Nat → Nat → Nat
  | 0, r => r
  | n + 1, r => taps n (tap r)

/-- The constant iota adds in a round that begins with the register at `r`: bit 2^j - 1 is the register's low bit
after `j` steps, for `j` from 0 to 6. -/
def iota (r : Nat) : Nat := (List.range 7).foldl (fun c j => c + taps j r % 2 * 2 ^ (2 ^ j - 1)) 0

/-- `n` rounds, the first with the register at `r`; each round takes seven steps of the register. -/
def rounds : Nat → Nat → List Lane → List Lane
  | 0, _, a => a
  | n + 1, r, a =>
    let b := theta a
    let c := chi (walk b 24 1 0 b)
    rounds n (taps 7 r) (c.set 0 (lane c 0 ^^^ BitVec.ofNat 64 (iota r)))

/-- The permutation: 24 rounds from the register at 1. -/
def permute (a : List Lane) : List Lane := rounds 24 1 a

/-- Bytes absorbed or squeezed per block. -/
def rate : Nat := 136

/-- The lanes of one block of `rate` bytes. -/
def blockLanes (b : Bytes) : List Lane :=
  (List.range 25).map fun i => if i < 17 then BitVec.ofNat 64 (Bits.le b (8 * i) 8) else 0

/-- Absorb whole blocks; the fuel is the number of blocks. -/
def absorb : Nat → List Lane → Bytes → List Lane
  | 0, a, _ => a
  | n + 1, a, b =>
    absorb n (permute (List.zipWith (· ^^^ ·) a (blockLanes (b.take rate)))) (b.drop rate)

/-- The message padded to whole blocks: the SHAKE suffix 0x1F and a final 0x80. -/
def pad (m : Bytes) : Bytes :=
  let n := rate - m.length % rate
  if n = 1 then m ++ [0x9F] else m ++ 0x1F :: (List.replicate (n - 2) 0 ++ [0x80])

/-- The first bytes a state gives. -/
def stateBytes (a : List Lane) : Bytes := ((a.take 17).map fun l => Bits.bytesOf 8 l.toNat).flatten

/-- Squeeze `n` blocks. -/
def squeeze : Nat → List Lane → Bytes
  | 0, _ => []
  | n + 1, a => stateBytes a ++ squeeze n (permute a)

/-- `n` bytes of SHAKE256 over a message. -/
def shake256 (m : Bytes) (n : Nat) : Bytes :=
  let p := pad m
  let a := absorb (p.length / rate) (List.replicate 25 0) p
  (squeeze (Bits.ceilDiv n rate) a).take n

/-- A digest of the usual 32 bytes. -/
def digest32 (m : Bytes) : Bytes := shake256 m 32

end Sys2Proof.Shake
end

