-- ==== Sys2Proof/Machine/WeightOps.lean ====
section
/-! DEFINITION. Weight images: signature blocks (18), manifests, chunks, placement files, master slots and bindings (07). -/

set_option Elab.async false

namespace Sys2Proof.Machine

/-! ### Signature blocks (Table 18-1, R374 to R377) -/

/-- Bytes of a signature block. -/
def sigLen : Nat := 3136

/-- The object without its signature block. -/
def sigBody (b : Bytes) : Bytes := b.take (b.length - sigLen)

/-- The signature block of an object. -/
def sigBlock (b : Bytes) : Bytes := b.drop (b.length - sigLen)

/-- The digest that a signature covers (R374). -/
def sigDigest (b : Bytes) : Bytes := Shake.shake256 (b.take (b.length - 1280)) 64

/-- The digest held by an owner key slot (Table 20-4). -/
def Regs.ownerSlot (r : Regs) (k : Nat) : Bytes :=
  ((List.range 4).map fun i => Bits.bytesOf 8 (Tbl.get 0 (4 * k + i) r.ownerKey).toNat).flatten

/-- Why a signature is not accepted (R375, R377): the reason code of SIG_REJECT, none when it is accepted. -/
def State.sigReason (s : State) (b : Bytes) (firmware : Bool) : Option Nat :=
  let k := sigBlock b
  let slot := Bits.byteAt k 2 % 4
  let key := Bits.slice k 16 1793
  let dig := Shake.digest32 key
  if b.length < sigLen || Bits.byteAt k 0 != 1 || Bits.byteAt k 1 != (if firmware then 1 else 2) || decide (4 ≤ Bits.byteAt k 2) ||
      !Bits.zeroAt k 3 13 || !Bits.zeroAt k 1809 47 then some 1
  else if firmware then
    (if Config.cerenaftEmpty slot || decide (dig ≠ Config.cerenaftKey slot) then some 2
     else if s.sec.revoked.getLsbD slot then some 3
     else if Config.falconVerify key (sigDigest b) (Bits.slice k 1856 1280) then none else some 4)
  else if Bits.zeroAt (s.regs.ownerSlot slot) 0 32 || decide (dig ≠ s.regs.ownerSlot slot) then some 2
  else if Config.falconVerify key (sigDigest b) (Bits.slice k 1856 1280) then none else some 4

/-- SIG_REJECT (R377). -/
def State.sigReject (s : State) (kind reason subject : Nat) : State :=
  s.event { code := 0x1201, unit := unitDevice, own := own [(40, 1, kind), (41, 1, reason), (44, 4, subject)] }

/-! ### Manifests (Tables 07-1, 07-2) -/

/-- Number of entries of a manifest. -/
def manifestCount (m : Bytes) : Nat := Bits.le m 12 4

/-- Entry `k` of a manifest: position, length, digest. -/
def manifestEntry (m : Bytes) (k : Nat) : Nat × Nat × Bytes :=
  (Bits.byteAt m (64 + 40 * k), Bits.le m (64 + 40 * k + 4) 4, Bits.slice m (64 + 40 * k + 8) 32)

/-- The fields of a manifest pass Tables 07-1 and 07-2. -/
def manifestFields (s : State) (m : Bytes) : Bool :=
  let n := manifestCount m
  decide (Bits.le m 0 4 ≠ 0) && (s.gen? (Bits.le m 0 4)).isNone && Bits.byteAt m 8 == 1 &&
  decide (1 ≤ Bits.byteAt m 9) && decide (Bits.byteAt m 9 ≤ 16) && Bits.zeroAt m 10 2 && decide (1 ≤ n) && decide (n ≤ 2 ^ 24) &&
  Bits.zeroAt m 16 48 && m.length == 64 + 40 * n &&
  (List.range (min n m.length)).all fun k =>
    decide ((manifestEntry m k).1 < Bits.byteAt m 9) && Bits.zeroAt m (64 + 40 * k + 1) 3 && decide ((manifestEntry m k).2.1 ≠ 0)

/-- The generation that a manifest creates (R136). -/
def manifestGen (m : Bytes) : Gen :=
  { imageId := Bits.le m 0 4, baseId := Bits.le m 4 4, chainLength := Bits.byteAt m 9, manifest := m, accepted := [],
    placement := none, attn := [], allocated := [], live := false, lost := false }

/-- What R136 answers to a manifest whose signature checks; none when it is accepted. -/
def manifestStatus (s : State) (m : Bytes) : Option Status :=
  if !manifestFields s m then some .manifestBad
  else if Bits.le m 4 4 ≠ 0 ∧ (s.gen? (Bits.le m 4 4)).isNone then some .manifestBad
  else if 2 ≤ s.weights.gens.length then some .imageSlotsFull
  else none

/-! ### The placement file (Tables 07-5 to 07-7, 05-3) -/

/-- Deck reference `k`: tile, deck (Table 07-6). -/
def placeRef (b : Bytes) (k : Nat) : Nat × Nat :=
  let o := Bits.le b 20 4 + 4 * k
  (Bits.le b o 2, Bits.byteAt b (o + 2) % 16)

/-- Matrix entry `k` with its correction record. -/
def placeMat (b : Bytes) (k : Nat) : Mat :=
  let o := 64 + 32 * k
  let c := Bits.le b 28 4 + 16 * k
  let fl := Bits.byteAt b (o + 24)
  { id := Bits.le b o 4, layer := Bits.le b (o + 4) 2, kind := Bits.byteAt b (o + 6) % 16, format := Bits.byteAt b (o + 7),
    inputs := Bits.le b (o + 8) 4, outputs := Bits.le b (o + 12) 4, exponent := Bits.signed (Bits.le b (o + 16) 2) 10,
    rowFirst := Bits.le b (o + 18) 2, rowTiles := Bits.le b (o + 20) 2, destKind := Bits.le b (o + 22) 2 % 16,
    destUnit := Bits.le b (o + 22) 2 / 16, transposed := Bits.field fl 0 1 == 1, sInline := Bits.field fl 1 1 == 1,
    sOverflow := Bits.field fl 2 1 == 1, sClip := Bits.field fl 3 1 == 1, sCont := Bits.field fl 4 1 == 1,
    deckFirst := Bits.le b (o + 28) 4, threshold := BitVec.ofNat 32 (Bits.le b (c + 4) 4), budget := Bits.byteAt b (c + 8),
    ovfLimit := Bits.le b (c + 10) 2 }

/-- Transfer entry `k`. -/
def placeXfer (b : Bytes) (k : Nat) : Xfer :=
  let o := Bits.le b 32 4 + 16 * k
  { kind := Bits.byteAt b o, die := Bits.byteAt b (o + 1), back := Bits.le b (o + 2) 2, src := Bits.le b (o + 4) 4,
    dst := Bits.le b (o + 8) 4, len := Bits.le b (o + 12) 4 }

/-- A placement file read from its bytes before the signature block; counts are bounded by the length. -/
def readPlacement (b : Bytes) : Placement :=
  { layout := Bits.byteAt b 1, position := Bits.byteAt b 2, chainLength := Bits.byteAt b 3, imageId := Bits.le b 4 4,
    mats := (List.range (min (Bits.le b 16 4) b.length)).map (placeMat b),
    decks := (List.range (min (Bits.le b 24 4) b.length)).map (placeRef b),
    xfers := (List.range (min (Bits.le b 36 4) b.length)).map (placeXfer b), raw := b }

/-- Column tiles of a matrix (R73). -/
def Mat.colTiles (m : Mat) : Nat := Bits.ceilDiv m.outputs 512

/-- Row tiles of the whole matrix. -/
def Mat.allRowTiles (m : Mat) : Nat := Bits.ceilDiv m.inputs 1024

/-- The pairs (row tile, column tile) that the position holds, row-tile-major. -/
def Mat.pairs (m : Mat) : List (Nat × Nat) :=
  (List.range m.rowTiles).flatMap fun r => (List.range m.colTiles).map fun c => (m.rowFirst + r, c)

/-- The matrix is held in tiles: kind 2 never is, and no matrix of a file without deck references. -/
def Placement.inTiles (p : Placement) (m : Mat) : Bool := m.kind != 2 && !p.decks.isEmpty

/-- Matrices of a layer that can carry its attention: the layer and draft matrices (Table 07-7). -/
def layerMats (mats : List Mat) (layer : Nat) : List Mat := mats.filter fun m => (m.kind == 0 || m.kind == 3) && m.layer == layer

/-- The Q, K and V matrix of a layer: the one whose sums go to a taproot engine, or the layer's first in the file (DESIGN CHOICE, log
168: the file does not name it). -/
def qkvOf (mats : List Mat) (layer : Nat) : Option Mat :=
  ((layerMats mats layer).find? fun m => m.destKind == 3).or (layerMats mats layer).head?

/-- A matrix is its layer's Q, K and V matrix. -/
def Mat.isQkv (mats : List Mat) (m : Mat) : Bool := (qkvOf mats m.layer).any fun x => x.id == m.id

/-- Index of a pair among the matrix's references. -/
def Mat.pairIndex (m : Mat) (r c : Nat) : Nat := (r - m.rowFirst) * m.colTiles + c

/-- The primary deck of a pair. -/
def Placement.primary (p : Placement) (m : Mat) (r c : Nat) : Nat × Nat :=
  p.decks.getD (m.deckFirst + m.pairIndex r c) (8192, 8)

/-- The alternate deck of a pair: swappable layout only. -/
def Placement.alternate (p : Placement) (m : Mat) (r c : Nat) : Option (Nat × Nat) :=
  if p.layout = 1 then p.decks[m.deckFirst + m.rowTiles * m.colTiles + m.pairIndex r c]? else none

/-- Deck references of a matrix. -/
def Placement.refCount (p : Placement) (m : Mat) : Nat := m.rowTiles * m.colTiles * (if p.layout = 1 then 2 else 1)

/-- Deck references of a matrix in a file. -/
def Placement.refsOf (p : Placement) (m : Mat) : List (Nat × Nat) :=
  if p.inTiles m then (p.decks.drop m.deckFirst).take (p.refCount m) else []

/-- Decks that a matrix names as primary, in reference order. -/
def Placement.primaries (p : Placement) (m : Mat) : List (Nat × Nat) := m.pairs.map fun x => p.primary m x.1 x.2

/-- A weight format (Table 03-1). -/
def isWeightFormat (f : Nat) : Bool := [0x01, 0x02, 0x03].contains f

/-- Table 07-7, field by field. -/
def matBad (p : Placement) (b : Bytes) (k : Nat) : Bool :=
  let m := placeMat b k
  let o := 64 + 32 * k
  decide (m.id = 0) || decide (3 < m.kind) || decide (16 ≤ Bits.byteAt b (o + 6)) ||
  !(if m.kind = 2 then m.format == 0x30 || m.format == 0x31 else isWeightFormat m.format) ||
  decide (m.inputs = 0) || decide (m.outputs = 0) || decide (2 ^ 10 ≤ Bits.le b (o + 16) 2) ||
  decide (2 ^ 5 ≤ Bits.byteAt b (o + 24)) || !Bits.zeroAt b (o + 25) 3 ||
  (if m.kind = 2 then decide (m.rowTiles ≠ 0)
   else decide (m.rowTiles = 0) || decide (m.destKind = 0) || decide (4 < m.destKind) ||
     (decide (m.destKind = 1) && decide (128 ≤ m.destUnit)) || (decide (m.destKind = 3) && decide (8 ≤ m.destUnit)) ||
     decide (m.allRowTiles < m.rowFirst + m.rowTiles)) ||
  (p.inTiles m && (decide (p.decks.length < m.deckFirst + p.refCount m) || !m.sClip))

/-- R100: a correction record is refused. -/
def corrBad (b : Bytes) (k : Nat) : Bool :=
  let c := Bits.le b 28 4 + 16 * k
  let t := Bits.le b (c + 4) 4
  decide (Bits.le b c 4 = 0) || decide (Bits.le b c 4 ≠ (placeMat b k).id) || decide (0x7F800000 ≤ t) ||
  decide (16 < Bits.byteAt b (c + 8)) || Bits.byteAt b (c + 9) != 0 || !Bits.zeroAt b (c + 12) 4

/-- R79: the row tiles of a split matrix run on from the position before or into the position after. -/
def splitBad (p : Placement) (m : Mat) : Bool :=
  m.kind != 2 &&
  ((decide (0 < m.rowFirst) && decide (p.position = 0)) ||
   (decide (m.rowFirst + m.rowTiles < m.allRowTiles) && (decide (p.chainLength ≤ p.position + 1) || decide (m.destKind ≠ 4))))

/-- Size in 64-byte units of the regions whose ranges are checked at load (R143, R410, and the SRAM of 00 and 01). -/
def regionUnits (s : State) : Nat → Option Nat
  | 0 => some ((81920 - s.regs.saveRegion.toNat) * 2 ^ 20 / 64)
  | 3 => some (160 * 2 ^ 20 / 64)
  | 4 => some (320 * 2 ^ 20 / 64)
  | _ => none

/-- The memories that a transfer kind names: 0 HBM, 1 hub SRAM, 2 die SRAM. -/
def xferMemories : Nat → Nat × Nat
  | 1 => (0, 1) | 2 => (0, 2) | 3 => (1, 2) | 4 => (2, 1) | _ => (2, 2)

/-- Region codes that belong to a memory (R143). -/
def memoryRegions : Nat → List Nat
  | 0 => [0, 5] | 1 => [1, 2, 4] | _ => [1, 3]

/-- One end of a transfer is out of its memory or region. -/
def xferEndBad (s : State) (memory field len : Nat) : Bool :=
  let code := field / 2 ^ 24
  !(memoryRegions memory).contains code ||
  (match regionUnits s code with
   | some n => decide (n < field % 2 ^ 24 + len)
   | none => false)

def xferBad (s : State) (x : Xfer) (k : Nat) : Bool :=
  !([1, 2, 3, 4, 5].contains x.kind) || decide (3 < x.die) || decide (k < x.back) ||
  xferEndBad s (xferMemories x.kind).1 x.src x.len || xferEndBad s (xferMemories x.kind).2 x.dst x.len

/-- References of a tile among a list. -/
def refsIn (ds : List (Nat × Nat)) (t : Nat) : Nat := (ds.filter fun d => d.1 == t).length

namespace State

/-- Whether a tile is retired, in service or from manufacture (R40, R411). -/
def tileGone (s : State) (t : Nat) : Bool := (s.tile t).mfgBad || (s.tile t).retired

/-- A tile of TILE_MAP (R407): the good map has been applied and the tile is not retired. -/
def tileLive (s : State) (t : Nat) : Bool := !s.trims.isEmpty && !s.tileGone t

/-- The 1,024 bytes of TILE_MAP (R407). -/
def tileMap (s : State) : Bytes :=
  (List.range 1024).map fun i =>
    BitVec.ofNat 8 ((List.range 8).foldl (fun a b => a + (if s.tileLive (8 * i + b) then 2 ^ b else 0)) 0)

/-- TILES_LIVE. -/
def tilesLive (s : State) : Nat := ((List.range 8192).filter s.tileLive).length

/-- First 8 bytes of the digest of TILE_MAP. -/
def tilesDigest (s : State) : Nat := Bits.le (Shake.shake256 s.tileMap 8) 0 8

/-- The field rules of Tables 05-3 and 07-5 to 07-7. -/
def placementFieldsBad (b : Bytes) : Bool :=
  let p := readPlacement b
  let n := b.length
  let mc := Bits.le b 16 4
  let deckOff := Bits.le b 20 4
  let dc := Bits.le b 24 4
  let corr := Bits.le b 28 4
  let xo := Bits.le b 32 4
  let xc := Bits.le b 36 4
  decide (n < 64) || Bits.byteAt b 0 != 1 || !([1, 2].contains p.layout) || decide (p.chainLength = 0) ||
  decide (16 < p.chainLength) || decide (p.imageId = 0) || decide (mc = 0) || decide (deckOff = 0) || decide (deckOff % 64 ≠ 0) ||
  decide (corr = 0) || decide (xo = 0) || !Bits.zeroAt b 40 24 ||
  decide (n < 64 + 32 * mc) || decide (n < deckOff + 4 * dc) || decide (n < corr + 16 * mc) || decide (n < xo + 16 * xc) ||
  (decide (xc = 0) && p.mats.any p.inTiles) ||
  (List.range p.decks.length).any (fun k => decide (2 ^ 4 ≤ Bits.le b (deckOff + 4 * k + 2) 2)) ||
  (List.range p.mats.length).any (fun k => matBad p b k || corrBad b k) ||
  decide ((distinct (p.mats.map fun m => m.id)).length ≠ p.mats.length)

/-- The deck reference rules of R143. -/
def placementDecksBad (s : State) (p : Placement) : Bool :=
  let mats := p.mats.filter p.inTiles
  let prim := mats.flatMap p.primaries
  let alts := mats.flatMap fun m => m.pairs.filterMap fun x => p.alternate m x.1 x.2
  p.decks.any (fun d => decide (8192 ≤ d.1) || decide (8 ≤ d.2) || s.tileGone d.1) ||
  decide ((distinct p.decks).length ≠ p.decks.length) ||
  (decide (p.layout = 1) && p.decks.any fun d => decide (4 < refsIn prim d.1) || decide (4 < refsIn alts d.1)) ||
  decide ((distinct (prim ++ alts)).length ≠ (prim ++ alts).length)

/-- R143 but for the signature: the file is rejected. -/
def placementRejected (s : State) (b : Bytes) : Bool :=
  let p := readPlacement b
  placementFieldsBad b ||
  (match s.gen? p.imageId with
   | none => true
   | some g => decide (g.baseId ≠ 0) || decide (g.chainLength ≠ p.chainLength)) ||
  decide (p.position ≠ s.regs.chainPos.toNat) ||
  (List.range p.xfers.length).any (fun k =>
    match p.xfers[k]? with
    | none => true
    | some x => xferBad s x k) ||
  decide (Bits.le b 8 8 ≠ s.tilesDigest) || s.placementDecksBad p || p.mats.any (splitBad p)

/-! ### Space in the weight region (R410, R412) -/

/-- Bytes of both copies of a matrix on the position (R296, Table 07-4). -/
def matBytes (m : Mat) : Nat :=
  if m.kind = 2 then 2 * (2 * m.inputs * m.outputs) else 2 * (266240 * m.rowTiles * m.colTiles)

/-- Bytes allocated to a generation. -/
def genBytes (s : State) (g : Gen) : Nat :=
  (((s.matsOf g).filter fun m => g.allocated.contains m.id).map matBytes).sum

/-- The weight region less what is allocated. -/
def weightFree (s : State) : Nat :=
  (81920 - s.regs.saveRegion.toNat) * 2 ^ 20 - (s.weights.gens.map s.genBytes).sum

/-! ### Chunks (Table 07-3, R137, R138) -/

end State

/-- Source formats accepted for weight images (Table 03-1). -/
def isImageSource (f : Nat) : Bool := [0x01, 0x02, 0x03, 0x30, 0x31, 0x32, 0x33, 0x34, 0x35].contains f

/-- A source of 4-bit elements. -/
def isNibbleSource (f : Nat) : Bool := [0x01, 0x02, 0x03, 0x34].contains f

/-- Bytes of a decoded payload (07, after Table 07-3). -/
def rawLength (fmt rows cols : Nat) : Nat :=
  let n := rows * cols
  if fmt = 0x30 ∨ fmt = 0x31 then 2 * n
  else if isWeightFormat fmt then Bits.ceilDiv n 2 + 2 * Bits.ceilDiv cols 64
  else if fmt = 0x34 then Bits.ceilDiv n 2 + rows * Bits.ceilDiv cols 32
  else n + rows * Bits.ceilDiv cols 32

/-- The code lengths of the 256 symbols of a length table (R138). -/
def prefixLengths (b : Bytes) : List Nat := (List.range 256).map fun k => Bits.byteAt b (k / 2) / 16 ^ (k % 2) % 16

/-- The canonical codes: (length, code, symbol) in order (R138 step 1). -/
def prefixCodes (lens : List Nat) : List (Nat × Nat × Nat) :=
  let used := sortBy (fun a b => keyLt [(a.1 : Int), (a.2 : Int)] [(b.1 : Int), (b.2 : Int)])
    (((List.range 256).map fun k => (lens.getD k 0, k)).filter fun x => x.1 != 0)
  (used.foldl (fun (acc : List (Nat × Nat × Nat) × Option (Nat × Nat)) x =>
    match acc.2 with
    | none => (acc.1 ++ [(x.1, 0, x.2)], some (x.1, 0))
    | some (l, c) =>
      let c' := (c + 1) * 2 ^ (x.1 - l)
      (acc.1 ++ [(x.1, c', x.2)], some (x.1, c'))) ([], none)).1

/-- R138 step 2: the set is complete, or is one symbol of length 1. -/
def prefixComplete (codes : List (Nat × Nat × Nat)) : Bool :=
  match codes with
  | [x] => x.1 == 1
  | _ => (codes.map fun x => 2 ^ (15 - x.1)).sum == 2 ^ 15

/-- Bit `i` of a bitstream taken from bit 0 upward within each byte. -/
def streamBit (b : Bytes) (i : Nat) : Nat := Bits.byteAt b (i / 8) / 2 ^ (i % 8) % 2

/-- One symbol from bit `i`; the fuel is the longest code. -/
def prefixSymbol (codes : List (Nat × Nat × Nat)) (b : Bytes) (total : Nat) : Nat → Nat → Nat → Nat → Option (Nat × Nat)
  | 0, _, _, _ => none
  | f + 1, i, len, cur =>
    if total ≤ i then none
    else
      let cur' := 2 * cur + streamBit b i
      match codes.find? fun x => x.1 == len + 1 && x.2.1 == cur' with
      | some x => some (x.2.2, i + 1)
      | none => prefixSymbol codes b total f (i + 1) (len + 1) cur'

/-- `n` symbols from bit `i` (R138 steps 3 and 4): the bytes and the bit after them. -/
def prefixRead (codes : List (Nat × Nat × Nat)) (b : Bytes) : Nat → Nat → Option (Bytes × Nat)
  | 0, i => some ([], i)
  | n + 1, i =>
    match prefixSymbol codes b (8 * b.length) 15 i 0 0 with
    | none => none
    | some (sym, j) => (prefixRead codes b n j).map fun r => (BitVec.ofNat 8 sym :: r.1, r.2)

/-- A prefix-coded payload decoded to `n` bytes (R138). -/
def prefixDecode (payload : Bytes) (n : Nat) : Option Bytes :=
  let codes := prefixCodes (prefixLengths payload)
  let stream := payload.drop 128
  if payload.length < 128 ∨ prefixComplete codes = false then none
  else
    match prefixRead codes stream n 0 with
    | none => none
    | some (out, j) =>
      if stream.length = Bits.ceilDiv j 8 ∧ (j % 8 = 0 ∨ Bits.byteAt stream (j / 8) / 2 ^ (j % 8) = 0) then some out else none

/-- The header fields of a chunk (Table 07-3). -/
structure ChunkHdr where
  kind : Nat
  position : Nat
  fmt : Nat
  image : Nat
  seq : Nat
  matrix : Nat
  rowStart : Nat
  rows : Nat
  colStart : Nat
  cols : Nat
  raw : Nat
  coded : Nat
  coding : Nat
deriving DecidableEq, Repr

def chunkHdr (b : Bytes) : ChunkHdr :=
  { kind := Bits.byteAt b 1, position := Bits.byteAt b 2, fmt := Bits.byteAt b 3, image := Bits.le b 4 4, seq := Bits.le b 8 4,
    matrix := Bits.le b 12 4, rowStart := Bits.le b 16 4, rows := Bits.le b 20 4, colStart := Bits.le b 24 4,
    cols := Bits.le b 28 4, raw := Bits.le b 32 8, coded := Bits.le b 40 4, coding := Bits.byteAt b 44 }

/-- The decoded payload, or none on a breach of R138 or a nonzero unused nibble. -/
def chunkPayload (b : Bytes) : Option Bytes :=
  let h := chunkHdr b
  let p := b.drop 64
  let out := if h.coding = 0 then (if h.coded = h.raw then some p else none) else prefixDecode p h.raw
  let n := h.rows * h.cols
  out.bind fun o => if isNibbleSource h.fmt && decide (n % 2 = 1) && decide (16 ≤ Bits.byteAt o (n / 2)) then none else some o

/-- An element of a small floating-point format: precision, exponent of a subnormal unit, exponent width. -/
def miniFloat (p ew : Nat) (emin : Int) (v : Nat) : Fl :=
  let frac := v % 2 ^ (p - 1)
  let ex := v / 2 ^ (p - 1) % 2 ^ ew
  let neg := v / 2 ^ (p - 1 + ew) % 2 = 1
  if ex = 0 then .fin neg frac emin else .fin neg (frac + 2 ^ (p - 1)) (emin + ((ex - 1 : Nat) : Int))

/-- A value times a power of two. -/
def flScale (k : Int) : Fl → Fl
  | .fin n m e => .fin n m (e + k)
  | v => v

/-- Value of element (i, j) of a decoded BF16, FP16 or MX payload (R64); NaN where a scale is 0xFF. -/
def sourceValue (fmt rows cols : Nat) (p : Bytes) (i j : Nat) : Fl :=
  let n := rows * cols
  let k := i * cols + j
  let nib := Bits.byteAt p (k / 2) / 16 ^ (k % 2) % 16
  let x (off : Nat) := Bits.byteAt p (off + i * Bits.ceilDiv cols 32 + j / 32)
  let scaled (off : Nat) (v : Fl) : Fl := if x off = 255 then .nan else flScale ((x off : Int) - 127) v
  match fmt with
  | 0x30 => Fl.decode Fl.bf16 (Bits.le p (2 * k) 2)
  | 0x31 => Fl.decode Fl.f16 (Bits.le p (2 * k) 2)
  | 0x32 => scaled n (if Bits.byteAt p k % 128 = 127 then .nan else miniFloat 4 4 (-9) (Bits.byteAt p k))
  | 0x33 => scaled n (Fl.decode { p := 3, emin := -16, ew := 5 } (Bits.byteAt p k))
  | 0x34 => scaled (Bits.ceilDiv n 2) (miniFloat 2 2 (-1) nib)
  | _ =>
    let c := Bits.signed (Bits.byteAt p k) 8
    scaled n (.fin (decide (c < 0)) c.natAbs (-6))

/-- Largest code of a weight format (R52). -/
def weightMax : Nat → Nat
  | 0x01 => 7 | 0x02 => 3 | _ => 1

/-- A converted weight group: its first column, its width, its scale and its codes, row-major; or the refusal of R53. -/
structure WGroup where
  col : Nat
  width : Nat
  scale : Nat
  codes : List Int
  bad : Option Status
deriving DecidableEq, Repr

/-- Magnitude order of finite values. -/
def magLt : Fl → Fl → Bool
  | .fin _ m₁ e₁, .fin _ m₂ e₂ =>
    let e := min e₁ e₂
    decide (m₁ * 2 ^ (e₁ - e).toNat < m₂ * 2 ^ (e₂ - e).toNat)
  | _, _ => false

/-- The quotient of two finite values rounded to an integer, ties to even. -/
def quotientCode : Fl → Fl → Int
  | .fin n m e, .fin _ m' e' =>
    let k := e - e'
    let r := if 0 ≤ k then Bits.roundHalfEven ((m * 2 ^ k.toNat : Nat) : Int) m'
      else Bits.roundHalfEven (m : Int) (m' * 2 ^ (-k).toNat)
    if n then -r else r
  | _, _ => 0

/-- The weight quantiser (R52) with the refusals of R53. -/
def quantiseGroup (q col width : Nat) (ws : List Fl) : WGroup :=
  let none' : WGroup := { col := col, width := width, scale := 0, codes := ws.map fun _ => 0, bad := none }
  if ws.any (fun w => !w.isFin) then { none' with bad := some .weightNonfinite }
  else
    match ws.foldl (fun m w => if magLt m w then w else m) (.fin false 0 0) with
    | .fin _ m e =>
      if m = 0 then none'
      else
        let sc := Fl.encodeRatio Fl.f16 true false m q e
        if sc = 0x7C00 then { none' with bad := some .weightRange }
        else
          let codes := ws.map fun w => quotientCode w (Fl.decode Fl.f16 sc)
          if codes.all (fun c => c == 0) then none' else { none' with scale := sc, codes := codes }
    | _ => none'

/-- A supplied weight group after the checks of R53. -/
def suppliedGroup (q col width sc : Nat) (codes : List Int) : WGroup :=
  let g : WGroup := { col := col, width := width, scale := if sc = 0x8000 then 0 else sc, codes := codes, bad := none }
  if codes.any (fun c => decide ((q : Int) < c) || decide (c < -(q : Int))) || decide (0x7C00 ≤ g.scale) then
    { g with bad := some .weightRange }
  else g

/-- The weight groups of a kind 1 chunk, in ascending column order (R52, R53, Table 03-5). -/
def chunkGroups (h : ChunkHdr) (fmt : Nat) (p : Bytes) : List WGroup :=
  let q := weightMax fmt
  (List.range (Bits.ceilDiv h.cols 64)).map fun k =>
    let w := min 64 (h.cols - 64 * k)
    let cells := (List.range h.rows).flatMap fun i => (List.range w).map fun j => (i, 64 * k + j)
    if isWeightFormat h.fmt then
      suppliedGroup q (h.colStart + 64 * k) w (Bits.le p (Bits.ceilDiv (h.rows * h.cols) 2 + 2 * k) 2)
        (cells.map fun x =>
          let e := x.1 * h.cols + x.2
          Bits.signed (Bits.byteAt p (e / 2) / 16 ^ (e % 2) % 16) 4)
    else quantiseGroup q (h.colStart + 64 * k) w (cells.map fun x => sourceValue h.fmt h.rows h.cols p x.1 x.2)

/-- The refusal of R53 for a chunk's values: a non-finite value stands before a range. -/
def valuesStatus (h : ChunkHdr) (m : Mat) (p : Bytes) : Option Status :=
  if h.kind = 2 then
    (if (List.range h.rows).any fun i => (List.range h.cols).any fun j => !(sourceValue h.fmt h.rows h.cols p i j).isFin then
      some .weightNonfinite else none)
  else
    let bads := (chunkGroups h m.format p).filterMap fun g => g.bad
    if bads.contains .weightNonfinite then some .weightNonfinite else bads.head?

namespace State

/-- The matrix that a chunk names in its generation's placement file. -/
def chunkMat (s : State) (g : Gen) (h : ChunkHdr) : Option Mat :=
  (s.matsOf g).find? fun m => if h.kind = 1 then m.kind != 2 && m.id == h.matrix else m.kind == 2

/-- Condition 4 of R137: Table 07-3, the placement file and the region. -/
def chunkShapeOk (s : State) (g : Gen) (b : Bytes) : Bool :=
  let h := chunkHdr b
  let entry := manifestEntry g.manifest h.seq
  Bits.byteAt b 0 == 1 && (h.kind == 1 || h.kind == 2) && h.position == entry.1 && decide (h.coding ≤ 1) && Bits.zeroAt b 45 19 &&
  decide (h.coded ≠ 0) && decide (h.coded ≤ 64 * 2 ^ 20) && b.length == 64 + h.coded && decide (h.raw ≠ 0) &&
  match s.chunkMat g h with
  | none => false
  | some m =>
    h.raw == rawLength h.fmt h.rows h.cols &&
    (if h.kind = 1 then
      decide (h.matrix ≠ 0) && decide (h.rowStart % 1024 = 0) && decide (h.rowStart < m.inputs) &&
      h.rows == min 1024 (m.inputs - h.rowStart) && decide (h.colStart % 64 = 0) && decide (0 < h.cols) &&
      decide (h.colStart + h.cols ≤ m.outputs) && (decide (h.cols % 64 = 0) || h.colStart + h.cols == m.outputs) &&
      (!isWeightFormat h.fmt || h.fmt == m.format)
     else h.matrix == 0 && decide (0 < h.rows) && decide (h.rowStart + h.rows ≤ m.inputs) && h.colStart == 0 && h.cols == m.outputs)

/-- Condition 5 of R137. -/
def chunkSpaceOk (s : State) (g : Gen) (m : Mat) : Bool := g.allocated.contains m.id || decide (matBytes m ≤ s.weightFree)

/-- The first condition of R137 that a chunk fails, its duplicate and its target set apart. -/
def chunkStatus (s : State) (b : Bytes) : Option Status :=
  let h := chunkHdr b
  match s.gen? h.image with
  | none => some .noManifest
  | some g =>
    let entry := manifestEntry g.manifest h.seq
    if manifestCount g.manifest ≤ h.seq ∨ b.length ≠ entry.2.1 ∨ Shake.digest32 b ≠ entry.2.2 then some .chunkDigest
    else if g.accepted.contains h.seq ∨ entry.1 ≠ s.regs.chainPos.toNat then none
    else if !isImageSource h.fmt || (h.kind == 2 && h.fmt != 0x30 && h.fmt != 0x31) then some .badFormat
    else if !s.chunkShapeOk g b then some .chunkShape
    else
      match s.chunkMat g h with
      | none => some .chunkShape
      | some m =>
        if !s.chunkSpaceOk g m then some .imageSlotsFull
        else
          match chunkPayload b with
          | none => some .chunkDecode
          | some p => valuesStatus h m p

/-- Change one generation. -/
def modGen (s : State) (image : Nat) (f : Gen → Gen) : State :=
  s.modWeights fun w => { w with gens := w.gens.map fun (g : Gen) => if g.imageId == image then f g else g }

/-- Accept, refuse or discard a chunk (R137, R139): the status, and the chunk forwarded, queued for conversion. -/
def takeChunk (s : State) (b : Bytes) : Status × State :=
  let h := chunkHdr b
  match s.chunkStatus b with
  | some st => (st, s.count Ctr.chunkRefused)
  | none =>
    match s.gen? h.image with
    | none => (.noManifest, s)
    | some g =>
      if g.accepted.contains h.seq then (.ok, s.count Ctr.chunkDups)
      else
        let own := (manifestEntry g.manifest h.seq).1 == s.regs.chainPos.toNat
        let s := (s.count Ctr.chunksIn).modGen h.image fun g => { g with
          accepted := g.accepted ++ [h.seq],
          allocated := match s.chunkMat g h with
            | some m => if own && !g.allocated.contains m.id then g.allocated ++ [m.id] else g.allocated
            | none => g.allocated }
        let s := if own then s.modWeights fun w => { w with chunks := w.chunks ++ [{ image := h.image, bytes := b }] } else s
        let s := if s.isLast then s else (s.count Ctr.chunksFwd).send .d 3 (.image (.chunk b))
        (.ok, s)

/-! ### Master slots (Table 07-4, R140, R141) -/

def slot? (s : State) (k : SlotKey) : Option Slot := s.weights.slots.find? fun x => x.key == k

def modSlot (s : State) (k : SlotKey) (f : Slot → Slot) : State :=
  let old := (s.slot? k).getD { key := k, bytes := [], groups := [] }
  s.modWeights fun w => { w with
    slots := if w.slots.any (fun x => x.key == k) then w.slots.map fun (x : Slot) => if x.key == k then f x else x
    else w.slots ++ [f old] }

end State

/-- The weight code at a row and column of a slot (R51). -/
def Slot.code (x : Slot) (i j : Nat) : Int :=
  let k := 512 * i + j
  Bits.signed ((Tbl.get 0 (k / 2) x.bytes).toNat / 16 ^ (k % 2) % 16) 4

/-- The FP16 bits of group scale `g` of a slot. -/
def Slot.scale (x : Slot) (g : Nat) : Nat :=
  (Tbl.get 0 (262144 + 2 * g) x.bytes).toNat + 256 * (Tbl.get 0 (262144 + 2 * g + 1) x.bytes).toNat

/-- `n` bytes of a slot from an offset. -/
def Slot.read (x : Slot) (o n : Nat) : Bytes := (List.range n).map fun i => Tbl.get 0 (o + i) x.bytes

/-- Write bytes into a slot. -/
def Slot.write (x : Slot) (o : Nat) (bs : Bytes) : Slot :=
  { x with bytes := ((List.range bs.length).zip bs).foldl (fun t p => Tbl.set 0 (o + p.1) p.2 t) x.bytes }

/-- Write one code. -/
def Slot.setCode (x : Slot) (i j : Nat) (c : Int) : Slot :=
  let k := 512 * i + j
  let v := Bits.ofSigned c 4
  { x with bytes := Tbl.update 0 (k / 2) (fun b =>
      BitVec.ofNat 8 (if k % 2 = 0 then b.toNat / 16 * 16 + v else b.toNat % 16 + 16 * v)) x.bytes }

/-- Write one converted group into its slot. -/
def Slot.setGroup (x : Slot) (rows : Nat) (g : WGroup) : Slot :=
  let j0 := g.col % 512
  let x := ((List.range rows).flatMap fun i => (List.range g.width).map fun j => (i, j)).foldl
    (fun x p => x.setCode p.1 (j0 + p.2) (g.codes.getD (p.1 * g.width + p.2) 0)) x
  let x := x.write (262144 + 2 * (j0 / 64)) (Bits.bytesOf 2 g.scale)
  { x with groups := distinct (x.groups ++ [j0 / 64]) }

/-- Digest of a slot's codes as the deck record holds it (R140). -/
def Slot.digest (x : Slot) : BitVec 64 := BitVec.ofNat 64 (Bits.le (Shake.shake256 (x.read 0 262144) 8) 0 8)

namespace State

/-- The generation whose master copy serves a matrix of a generation: its own, or its base's (R136). -/
def ownerOf (s : State) (g : Gen) (matrix : Nat) : Nat :=
  if g.baseId = 0 || g.allocated.contains matrix then g.imageId
  else match s.gen? g.baseId with
    | some _ => g.baseId
    | none => g.imageId

/-- The master slot that serves a pair of a matrix of a generation. -/
def slotFor (s : State) (image matrix r c : Nat) : Option Slot :=
  (s.gen? image).bind fun g =>
    s.slot? { image := s.ownerOf g matrix, matrix := matrix, rowTile := r, colTile := c }

/-- The master copy of a matrix is complete (R141). -/
def masterComplete (s : State) (g : Gen) (m : Mat) : Bool :=
  let img := s.ownerOf g m.id
  if m.kind = 2 then (List.range m.inputs).all fun r => Tbl.has (img * 2 ^ 32 + r) s.weights.embedding
  else m.pairs.all fun x =>
    match s.slot? { image := img, matrix := m.id, rowTile := x.1, colTile := x.2 } with
    | none => false
    | some sl => (List.range (Bits.ceilDiv (min 512 (m.outputs - 512 * x.2)) 64)).all fun k => sl.groups.contains k

/-- The master copies of all of a generation's matrices are complete, those of its base included (R141). -/
def genComplete (s : State) (g : Gen) : Bool := (s.matsOf g).all (s.masterComplete g)

/-- A generation that is resident and not live (R136). -/
def isStaged (s : State) (image : Nat) : Bool :=
  match s.gen? image with
  | some g => !g.live
  | none => false

/-- Matrices that a generation supplies to this position (R136): all of a full one, the changed ones of a partial one. -/
def supplied (s : State) (g : Gen) : List Mat :=
  if g.baseId = 0 then s.matsOf g else (s.matsOf g).filter fun m => g.allocated.contains m.id

/-- A partial generation with no chunk addressed to this position supplies no matrix here. -/
def suppliesNothing (s : State) (g : Gen) : Bool :=
  decide (g.baseId ≠ 0) &&
  (List.range (manifestCount g.manifest)).all fun k => decide ((manifestEntry g.manifest k).1 ≠ s.regs.chainPos.toNat)

/-- Convert the oldest accepted chunk into master slots or embedding rows (R51, R52, R140); a row tile that the matrix does not hold
on the position has no slot. -/
def convertChunk (s : State) (k : ChunkJob) : State :=
  let h := chunkHdr k.bytes
  match (s.gen? k.image).bind fun g => s.chunkMat g h, chunkPayload k.bytes with
  | some m, some p =>
    if h.kind = 2 then
      s.modWeights fun w => { w with embedding := (List.range h.rows).foldl (fun t i =>
        Tbl.set [] (k.image * 2 ^ 32 + h.rowStart + i) (Bits.slice p (2 * h.cols * i) (2 * h.cols)) t) w.embedding }
    else if h.rowStart / 1024 < m.rowFirst ∨ m.rowFirst + m.rowTiles ≤ h.rowStart / 1024 then s
    else s.each (chunkGroups h m.format p) fun s g =>
      s.modSlot { image := k.image, matrix := m.id, rowTile := h.rowStart / 1024, colTile := g.col / 512 }
        fun x => x.setGroup h.rows g
  | _, _ => s

/-! ### Bindings (R145, R146) -/

def binding? (s : State) (m : Nat) : Option Binding := (s.weights.bindings.find? fun b => b.1 == m).map fun b => b.2

def oldBinding? (s : State) (m : Nat) : Option Binding := (s.weights.oldBindings.find? fun b => b.1 == m).map fun b => b.2

/-- The binding that a batch of an epoch uses (R146). -/
def bindingAt (s : State) (epoch m : Nat) : Option Binding :=
  if epoch = s.weights.epoch then s.binding? m else s.oldBinding? m

def setBinding (s : State) (m : Nat) (b : Binding) : State :=
  s.modWeights fun w => { w with
    bindings := if w.bindings.any (fun x => x.1 == m) then w.bindings.map fun (x : Nat × Binding) => if x.1 == m then (m, b) else x
    else insertSorted (fun a c => decide (a.1 < c.1)) (m, b) w.bindings }

/-- The matrix entry of a generation. -/
def mat? (s : State) (image m : Nat) : Option Mat := (s.gen? image).bind fun g => (s.matsOf g).find? fun x => x.id == m

/-- The placement file in force for a generation's number. -/
def placeFor (s : State) (image : Nat) : Option Placement := (s.gen? image).bind s.placementOf

/-- A deck serves some binding in force. -/
def deckBound (s : State) (d : Nat × Nat) : Bool :=
  s.weights.bindings.any (fun b => !b.2.slow && b.2.decks.contains d) ||
  (s.weights.oldEpoch && s.weights.oldBindings.any fun b => !b.2.slow && b.2.decks.contains d)

/-- TIER_ENTER or TIER_EXIT for a matrix (R150, Table 11-11). -/
def tierEvent (s : State) (enter : Bool) (m image takeId : Nat) : State :=
  s.event { code := if enter then 0x0504 else 0x0505, matrix := m, image := image, own := own [(40, 4, takeId)] }

/-- Move a matrix to the slower tier at once. -/
def bindSlow (s : State) (m : Nat) : State :=
  match s.binding? m with
  | none => s
  | some b =>
    if b.slow then s
    else (s.setBinding m { b with slow := true, takeId := 0 }).tierEvent true m b.image b.takeId

/-- A batch's products through a matrix are not begun, or all handed off, for every batch in flight: the matrix is at a batch
boundary (R145). -/
def atBoundary (s : State) (m : Nat) : Bool :=
  !(s.prods.any fun p => p.key.matrix == m && !p.summed) && !(s.sums.any fun x => x.key.matrix == m) &&
  s.steps.all fun x =>
    let full := x.tokens.length * (((s.mat? x.image m).map Mat.colTiles).getD 0)
    let done := Tbl.get 0 m x.outs
    s.steps.all fun y => y.batch != x.batch ||
      ((decide (done = 0) && decide (Tbl.get 0 m y.outs = 0)) ||
       (decide (full ≤ done) &&
         decide (y.tokens.length * (((s.mat? y.image m).map Mat.colTiles).getD 0) ≤ Tbl.get 0 m y.outs)))

/-- Every step in flight belongs to the epoch in force. -/
def oldEpochDone (s : State) : Bool := s.steps.all fun x => x.epoch == s.weights.epoch

end State
end Sys2Proof.Machine
end

