-- ==== Sys2Proof/Machine/FaultOps.lean ====
section
/-! DEFINITION. Suspects, retake requests and fault records (15). -/

set_option Elab.async false

namespace Sys2Proof.Machine

/-- What a FAULT record says beside its unit (Table 15-6); a field that does not apply is 0. -/
structure FaultInfo where
  operation : Nat
  detector : Nat
  outcome : Nat
  matrix : Nat := 0
  call : Option Nat := none
  step : Nat := 0
  digit : Nat := 0
  deviation : Int := 0
  columns : Nat := 0
  part : Nat := 0
  /-- the opcode of the descriptor where it is not the call's: ARRAY_TEST -/
  opcode : Nat := 0
deriving DecidableEq, Repr

/-- The power domain of a unit (Tables 15-6, 17-1): the arrays of a die, its digital side, or an engine. -/
def unitDomain (u : UnitField) (digital : Bool) : Nat :=
  if u.level = 6 then
    (if u.engine = 0 then 11
     else if u.engine ≤ 8 then 12
     else if u.engine = 16 then 14
     else if u.engine = 17 then 13
     else if u.engine = 18 then 15
     else 10)
  else if u.level = 0 then 10
  else (if digital then 16 else 20) + u.die % 4

namespace State

/-- The opcode of the descriptor that a call's work serves. -/
def callOpcode (s : State) (c : Option Nat) : Nat :=
  match c with
  | none => 0
  | some c => if (s.call c).state = .free then 0 else if (s.call c).tune.isSome then 0x0B else 0x01

/-- Layer of a matrix of the live generation. -/
def layerOf (s : State) (image m : Nat) : Nat := ((s.mat? image m).map fun x => x.layer).getD 0

/-- Write one FAULT record and step the sequence number on (R325). -/
def fault (s : State) (u : UnitField) (i : FaultInfo) : State :=
  let digital := i.operation == 5 || i.operation == 6
  let dom := unitDomain u digital
  let temp := if 2 ≤ u.level ∧ u.level ≤ 5 then (s.bough u.bough).temp else 0
  let rail := (Tbl.get {} (140 + dom) s.hk.samples).value
  let premium := match i.call with
    | some c => (s.call c).premium
    | none => false
  let image := (s.liveGen.map fun g => g.imageId).getD 0
  let s := s.event {
    code := 0x0F01, unit := u, matrix := i.matrix, step := i.step, image := if i.matrix = 0 then 0 else image,
    partition := i.call.map fun c => (s.call c).partition,
    call := ((i.call.map fun c => (s.call c).tag)).getD 0,
    own := own [(40, 1, i.operation), (41, 1, i.detector), (42, 1, if i.opcode = 0 then s.callOpcode i.call else i.opcode), (43, 1, i.outcome),
      (44, 2, s.layerOf image i.matrix), (46, 2, Bits.ofSigned temp 16), (48, 2, Bits.ofSigned rail 16), (50, 1, dom),
      (51, 1, i.digit + (if premium then 4 else 0)), (52, 4, Bits.ofSigned i.deviation 32), (56, 2, i.columns), (58, 1, i.part),
      (60, 4, s.faults.seq)] }
  s.modFaults fun f => { f with seq := (f.seq + 1) % 2 ^ 32 }

def modDaily (s : State) (f : Daily → Daily) : State := s.modFaults fun x => { x with daily := f x.daily }

/-- Whether the step that a product serves is still in flight here. -/
def stepOpen (s : State) (w : WorkRef) : Bool := (s.step? w.call w.step).isSome

/-- The unbounded mark of a product reaches its step (R92). -/
def unboundStep (s : State) (w : WorkRef) : State := s.modStep w.call w.step fun x => { x with unbounded := true }

/-- Channel of a step's relay traffic: 1 premium, 2 bulk (Table 13-4). -/
def relayChannel (premium : Bool) : Nat := if premium then 1 else 2

/-- The marks that a step carries so far: bit 0 unbounded (R92), bit 1 tier (R151), bit 2 the call is marked non-finite (R81). -/
def marksOf (s : State) (w : WorkRef) : Nat :=
  (match s.step? w.call w.step with
   | some x => (if x.unbounded then 1 else 0) + (if x.tier then 2 else 0)
   | none => 0) + (if (s.call w.call).nonfinite then 4 else 0)

/-- The part sends nothing of its own attempt on: it is suspect, or a retake's result has taken its place (R317, R318). -/
def holdsOutput (x : Step) : Bool := (x.suspect && !x.retaken) || x.retake.any fun t => t.applied

/-- What a suspect part has kept goes downstream (R317, R319). -/
def releaseOutput (s : State) (c n : Nat) : State :=
  match s.step? c n with
  | none => s
  | some x =>
    if s.isLast then s
    else
      let e := s.call c
      let ch := relayChannel x.premium
      let s := s.each x.output fun s i => s.send .d ch (.activation x.epoch x.image [i])
      s.each x.outSums fun s i => s.send .d ch (.runningSum e.partition e.tag n x.epoch x.image
        (s.marksOf { call := c, step := n, token := 0 }) i)

/-- A suspect step is settled from the local result (R319). -/
def settleLocal (s : State) (c n : Nat) : State :=
  let s := (s.modStep c n fun x => { x with unbounded := true, retake := none, retaken := true }).releaseOutput c n
  let s := (s.count Ctr.retakeLocal).modDaily fun d => { d with settled := d.settled + 1 }
  s.fault unitDevice { operation := 6, detector := 6, outcome := 8, call := some c, step := n }

/-- A premium step becomes suspect on this position (R317): the retake is asked and later positions discard their attempts;
a call without a partner's mirror is settled locally (R319). -/
def suspectStep (s : State) (c n : Nat) : State :=
  match s.step? c n with
  | none => s
  | some x =>
    if x.suspect || x.drafting.isSome then s
    else
      let e := s.call c
      let s := (s.modStep c n fun x => { x with suspect := true }).count Ctr.suspectSteps
      let s := s.modDaily fun d => { d with suspectSteps := d.suspectSteps + 1 }
      if s.mirrored e then
        let s := (s.count Ctr.retakesSent).send .t 1
          (.retakeReq { p := e.partition, tag := e.tag, step := n, image := x.image, epoch := x.epoch, input := x.input,
                        sums := x.inSums })
        let s := if s.isLast then s else s.send .d 2 (.callCtrl (.restep e.partition e.tag n))
        s.modStep c n fun x => { x with retake := some { sentAt := s.now, applied := false } }
      else s.settleLocal c n

/-- Mark a product suspect (R308): a premium step is retaken, a bulk product of a step not yet committed is marked unbounded
(R320). -/
def suspectProd (s : State) (id : Nat) : State :=
  match s.prod? id with
  | none => s
  | some p =>
    if p.suspect then s
    else
      let s := (s.modProd id fun p => { p with suspect := true }).count (Ctr.suspectProducts (p.tile / 64))
      let w := p.key.work
      if !s.stepOpen w then s
      else if p.premium then s.suspectStep w.call w.step
      else (s.modProd id fun p => { p with unbounded := true }).unboundStep w

end State
end Sys2Proof.Machine
end

