-- ==== Sys2Proof/Machine/TileOps.lean ====
section
/-! DEFINITION. The shared operations of tiles (02): what a tile starts next, grants, the correction parameters of a product,
program runs, the remap table, retirement. -/

set_option Elab.async false

namespace Sys2Proof.Machine

/-! ### Arithmetic of a tile -/

/-- Level units per weight unit (Table 02-2). -/
def levelUnits : Nat → Nat
  | 0x01 => 2 | 0x02 => 4 | _ => 8

/-- The levels of a weight code's positive and negative cells (Table 02-2, R23). -/
def cellLevels (format : Nat) (w : Int) : Nat × Nat := (levelUnits format * w.toNat, levelUnits format * (-w).toNat)

/-- The levels of a reference column's cells (Table 02-10). -/
def refLevels (k : Nat) : Nat × Nat := [(12, 0), (8, 0), (4, 0), (1, 0), (0, 1), (0, 4), (0, 8), (0, 12)].getD k (0, 0)

/-- The low digit of an A8 code (R28). -/
def lowDigit (a : Int) : Int := (a + 8) % 16 - 8

/-- The high digit of an A8 code. -/
def highDigit (a : Int) : Int := (a - lowDigit a) / 16

/-- Rows of `lo` to `hi - 1` whose digit is nonzero. -/
def drivenRows (ds : List Int) (lo hi : Nat) : List Nat :=
  (List.range (min hi ds.length)).filter fun i => decide (lo ≤ i) && decide (ds.getD i 0 ≠ 0)

/-- The phases of one digit position (Table 02-6; one phase when the product is transposed, R41). -/
def digitPlan (high transposed : Bool) (ds : List Int) : List (Bool × Nat × Nat) :=
  let n := (drivenRows ds 0 1024).length
  if n = 0 then []
  else if n ≤ 512 ∨ transposed then [(high, 0, 1024)]
  else [(high, 0, 512), (high, 512, 1024)]

/-- Phases of a dense plan (R29, R41). -/
def densePhases (a8 transposed : Bool) : Nat := (if a8 then 2 else 1) * (if transposed then 1 else 2)

/-- Slice parameter index of a column (02, "Column conversion") or of a row (R41, R97). Each slice converts 4 rows of a transposed
phase; that they are the rows 4i to 4i + 3 is the model's choice (DESIGN CHOICE, log 149). -/
def sliceIndex (transposed : Bool) (i : Nat) : Nat := if transposed then i / 4 else i / 2

/-- R96: the corrected value of a code in units of 2^-16 output LSB. -/
def correctCode (code offset : Int) (gain colGain drift : Nat) : Int :=
  Bits.roundHalfEven ((64 * code - offset) * ((gain * colGain * drift : Nat) : Int)) (2 ^ 35)

/-- Move a value toward its target by at most a step (R128). -/
def toward (step : Nat) (x target : Int) : Int :=
  if x < target then min target (x + step) else max target (x - step)

/-- Keys listed in either table. -/
def bothKeys {α β : Type} (a : Tbl α) (b : Tbl β) : List Nat := distinct (a.map (fun p => p.1) ++ b.map fun p => p.1)

def slewInts (step : Nat) (a target : Tbl Int) : Tbl Int :=
  (bothKeys a target).foldl (fun t k => Tbl.set 0 k (toward step (Tbl.get 0 k a) (Tbl.get 0 k target)) t) a

def slewNats (step : Nat) (a target : Tbl Nat) : Tbl Nat :=
  (bothKeys a target).foldl (fun t k =>
    Tbl.set 0x8000 k (toward step (Tbl.get 0x8000 k a : Nat) (Tbl.get 0x8000 k target : Nat)).toNat t) a

/-- Kind of R128 to move, from the tile's product count: the first off target, cyclically. -/
def slewKind (t : Tile) (k : Deck) (transposed : Bool) : Option Nat :=
  let off : Nat → Bool
    | 0 => t.offset != t.offsetTarget
    | 1 => t.gain != t.gainTarget
    | 2 => if transposed then k.rowGain != k.rowTarget else k.colGain != k.colTarget
    | _ => k.drift != k.driftTarget
  ([0, 1, 2, 3].map fun i => (t.products + i) % 4).find? off

/-- One product's slewing on its tile and deck (R128). -/
def slewTile (t : Tile) (d : Nat) (transposed : Bool) : Tile :=
  let k := Tbl.get {} d t.decks
  match slewKind t k transposed with
  | none => t
  | some 0 => { t with offset := slewInts 8 t.offset t.offsetTarget }
  | some 1 => { t with gain := slewNats 32 t.gain t.gainTarget }
  | some 2 =>
    if transposed then { t with decks := Tbl.set {} d { k with rowGain := slewNats 32 k.rowGain k.rowTarget } t.decks }
    else { t with decks := Tbl.set {} d { k with colGain := slewNats 32 k.colGain k.colTarget } t.decks }
  | some _ => { t with decks := Tbl.set {} d { k with drift := (toward 32 (k.drift : Int) (k.driftTarget : Int)).toNat } t.decks }

/-- One phase's step of the skews toward their targets (R34). -/
def skewTile (t : Tile) : Tile := { t with skew := slewInts 1 t.skew t.skewTarget }

/-! ### The remap table (R37 to R39) -/

/-- Columns suspended in a deck, or routed to a spare. -/
def Tile.suspendedIn (t : Tile) (d : Nat) : List Nat :=
  (t.remap.filter fun r => r.2.suspend.getLsbD d).map fun r => r.2.column

/-- An entry of the table with both masks zero. -/
def Remap.isFree (r : Remap) : Bool := r.active == 0 && r.suspend == 0

/-- The entry for a failed column of a deck (R37): the one that names it with a good spare, else the lowest free one. A free entry
whose own spare has failed in the run is passed over, since it could not hold the column (DESIGN CHOICE, log 150). -/
def Tile.chooseEntry (t : Tile) (d col : Nat) (badSpares : List Nat) : Option Nat :=
  let e (k : Nat) := Tbl.get ({} : Remap) k t.remap
  let named := (List.range 16).find? fun k =>
    !(e k).isFree && (e k).column == col && !badSpares.contains k && !(e k).active.getLsbD d && !(e k).suspend.getLsbD d
  named.or ((List.range 16).find? fun k => (e k).isFree && !badSpares.contains k)

/-- (column, deck) pairs suspended on a tile. -/
def Tile.suspendedPairs (t : Tile) : Nat :=
  (t.remap.map fun r => ((List.range 8).filter fun d => r.2.suspend.getLsbD d).length).sum

/-- A product in progress on a tile that is lost runs no further phase: every term is formed digitally (R40, R321). -/
def Prod.toDigital (p : Prod) : Prod :=
  if p.plan.isEmpty then p
  else { p with mode := .slow, plan := [], sampledCh := none, clipped := [], passNeeded := !p.overflow.isEmpty }

namespace State

/-- Change one remap entry and raise COLUMN_REMAP (R38). -/
def setRemap (s : State) (t d k : Nat) (r : Remap) : State :=
  let old := Tbl.get ({} : Remap) k (s.tile t).remap
  if old = r then s
  else (s.modTile t fun x => { x with remap := Tbl.set {} k r x.remap }).event
    { code := 0x0102, unit := unitColumn t d r.column, own := own [(40, 1, k), (41, 1, r.active.toNat), (42, 1, r.suspend.toNat)] }

/-! ### Where a deck's content comes from -/

/-- The pair whose primary or alternate deck this is. -/
def pairOf (p : Placement) (m : Mat) (d : Nat × Nat) : Option (Nat × Nat) :=
  m.pairs.find? fun x => p.primary m x.1 x.2 == d || p.alternate m x.1 x.2 == some d

/-- Generations whose content a deck may hold: bound, bound in the old epoch, being taken, live. -/
def deckImages (s : State) (t d m : Nat) : List Nat :=
  let has (b : Nat × Binding) := b.1 == m && b.2.decks.contains (t, d)
  ((s.weights.bindings.filter has).map fun b => b.2.image) ++ ((s.weights.oldBindings.filter has).map fun b => b.2.image) ++
  ((s.weights.takes.filter fun x => x.targets.any fun y => y.2.2.2.1 == t && y.2.2.2.2 == d).map fun x => x.image) ++
  (s.liveGen.map fun g => g.imageId).toList

/-- The generation, matrix and pair of a deck's content. -/
def deckSource (s : State) (t d : Nat) : Option (Nat × Mat × Nat × Nat) :=
  let m := (s.deck t d).matrixId
  (s.deckImages t d m).findSome? fun img =>
    match s.placeFor img, s.mat? img m with
    | some p, some x => (pairOf p x (t, d)).map fun rc => (img, x, rc.1, rc.2)
    | _, _ => none

/-- The master slot of a deck's content. -/
def deckSlot (s : State) (t d : Nat) : Option Slot :=
  (s.deckSource t d).bind fun x => s.slotFor x.1 x.2.1.id x.2.2.1 x.2.2.2

/-! ### What work runs under -/

/-- What a product's work runs under: image, epoch, verified mode, premium; a retake being served (R107, R282) or a step. -/
def workContext (s : State) (w : WorkRef) : Option (Nat × Nat × Bool × Bool) :=
  match s.step? w.call w.step with
  | some x => if x.discarded then none else some (x.image, x.epoch, false, x.premium)
  | none =>
    let e := s.call w.call
    (s.partner.serving.find? fun q => decide (e.state = .mirror) && q.p == e.partition && q.tag == e.tag && q.step == w.step).map
      fun q => (q.image, s.weights.epoch, true, true)

/-- No tile that the placement file names for a matrix is live (R151). -/
def namesNoLive (s : State) (image : Nat) (m : Mat) : Bool :=
  (s.placeFor image).any fun p => !(p.refsOf m).isEmpty && (p.refsOf m).all fun d => s.tileGone d.1

/-- The bough that serves a bough's pairs where no named tile is live: the next in global number, for the last the one before
(R151; which of the two adjacent boughs is the model's, log 180). -/
def besideBough (b : Nat) : Nat := if b = 127 then 126 else b + 1

/-- The deck that a pair's product is addressed to: the binding's, or the placement file's where the binding names none; work of
a matrix without decks is done by the first bough. -/
def prodDeck (s : State) (image : Nat) (b : Binding) (m : Mat) (r c : Nat) : Nat × Nat :=
  let prim := ((s.placeFor image).map fun p => p.primary m r c).getD (8192, 8)
  let d := match b.decks[m.pairIndex r c]? with
    | some d => d
    | none => prim
  let d := if d.1 < 8192 then d else prim
  let d := if d.1 < 8192 then d else (0, 8)
  if b.slow && s.namesNoLive image m then (64 * besideBough (d.1 / 64) + d.1 % 64, d.2) else d

/-- The matrix and binding that work on a matrix runs under: image, binding, matrix, verified mode, premium. -/
def keyMat (s : State) (k : SumKey) : Option (Nat × Binding × Mat × Bool × Bool) :=
  match s.workContext k.work with
  | none => none
  | some (image, epoch, verified, premium) =>
    match s.bindingAt epoch k.matrix with
    | none => none
    | some b => (s.mat? b.image k.matrix).map fun m => (image, b, m, verified, premium)

/-- What a column tile's sum runs under: image, binding, matrix. -/
def sumContext (s : State) (k : SumKey) : Option (Nat × Binding × Mat) := (s.keyMat k).map fun x => (x.2.1.image, x.2.1, x.2.2.1)

/-! ### Clapper expectations (02 "Reference columns and clapper phases", Table 07-4, R140) -/

/-- Element `i` of a clapper vector: an A4 digit. -/
def clapperDigit (takeId n i : Nat) : Int := Config.clapperElem (BitVec.ofNat 32 takeId) n i % 16 - 8

/-- Rows of a row half. -/
def halfRows (h : Nat) : List Nat := (List.range 512).map fun i => 512 * h + i

/-- The level sum of a clapper phase on a row half, column `j`; `n` is the fit counter of the vector, 0 for the deck's clapper vector. -/
def clapperSum (x : Slot) (format takeId n h j : Nat) : Int :=
  (levelUnits format : Int) * ((halfRows h).map fun i => clapperDigit takeId n i * x.code i j).sum

/-- The level sum of a transposed fit phase, row `i`: the vector drives the columns. -/
def clapperRowSum (x : Slot) (format takeId n i : Nat) : Int :=
  (levelUnits format : Int) * ((List.range 512).map fun j => clapperDigit takeId n j * x.code i j).sum

/-- The take identifier that tags expectation A (0) or B (1) of a slot. -/
def clapTag (x : Slot) (k : Nat) : Nat := Bits.le (x.read (262176 + 4 * k) 4) 0 4

/-- The expectation of a slot that belongs to a take. -/
def clapOf (x : Slot) (takeId : Nat) : Option Nat :=
  if takeId = 0 then none else [0, 1].find? fun k => clapTag x k == takeId

/-- The expected code of a column for a row half. -/
def clapExpect (x : Slot) (k h j : Nat) : Int := Bits.signed (Tbl.get 0 (262208 + 1024 * k + 512 * h + j) x.bytes).toNat 8

/-- The 1,024 code bytes of an expectation. -/
def clapBytes (x : Slot) (format takeId : Nat) : Bytes :=
  [0, 1].flatMap fun h => (List.range 512).map fun j =>
    BitVec.ofNat 8 (Bits.ofSigned (Bits.roundHalfAway (clapperSum x format takeId 0 h j) 512) 8)

/-- Another deck that serves the slot of a pair belongs to the take. -/
def servesSlot (s : State) (t d : Nat) (m : Mat) (r c takeId : Nat) : Bool :=
  (s.weights.bindings ++ s.weights.oldBindings).any fun b => b.1 == m.id && b.2.decks.any fun x =>
    x != (t, d) && (s.deck x.1 x.2).takeId == takeId &&
    (decide ((s.deck x.1 x.2).state = .live) || decide ((s.deck x.1 x.2).state = .drifted)) &&
    (match s.deckSource x.1 x.2 with
     | some y => y.2.2 == (r, c)
     | none => false)

/-- Write a deck's clapper expectation into A or B of its slot, whichever does not belong to a deck that serves it (R140). -/
def writeClapper (s : State) (t d : Nat) : State :=
  match s.deckSource t d, s.deckSlot t d with
  | some src, some x =>
    let m := src.2.1
    let id := (s.deck t d).takeId
    let k := (clapOf x id).getD (if s.servesSlot t d m src.2.2.1 src.2.2.2 (clapTag x 0) then 1 else 0)
    s.modSlot x.key fun x => (x.write (262176 + 4 * k) (Bits.bytesOf 4 id)).write (262208 + 1024 * k) (clapBytes x m.format id)
  | _, _ => s

/-! ### Age and drift (R24, R46, R98, R99) -/

/-- A deck's age in ticks; a deck on which no run has started has none (Table 02-3). -/
def ageOf (s : State) (k : Deck) : Nat := if k.takeCount = 0 then k.recAge else k.recAge + (s.now - k.ageFrom)

/-- The age is written into the record (R24). -/
def recordAge (s : State) (k : Deck) : Deck := { k with recAge := s.ageOf k, ageFrom := s.now }

/-- The five drift points of a bough in units of 2^-32 (Table 06-1). -/
def driftPoint (s : State) (b i : Nat) : Nat := Config.driftPoint (BitVec.ofNat 16 (Bits.le s.trims (2080 + 10 * b + 2 * i) 2))

/-- a(T) in units of 2^-32 / 320 at a temperature in 1/16 °C (R98). -/
def driftCoeff (s : State) (b : Nat) (temp : Int) : Nat :=
  let t := (min (max temp 400) 1680).toNat - 400
  let i := min 3 (t / 320)
  let f := t - 320 * i
  s.driftPoint b i * (320 - f) + s.driftPoint b (i + 1) * f

/-- log2 of `n / 2^20` in units of 2^-32, by repeated squaring of a 64-bit mantissa. -/
def log2Frac : Nat → Nat → Nat
  | 0, _ => 0
  | k + 1, m =>
    let q := m * m / 2 ^ 63
    if q < 2 ^ 64 then log2Frac k q else 2 ^ k + log2Frac k (q / 2)

/-- log10(1 + age / 2^20) in units of 2^-32; the logarithm of 2 is 1,292,913,986 / 2^32. -/
def logAge (age : Nat) : Nat :=
  let n := 2 ^ 20 + age
  let e := n.log2 - 20
  let m := n * 2 ^ 63 / 2 ^ n.log2
  (e * 2 ^ 32 + log2Frac 32 m) * 1292913986 / 2 ^ 32

/-- The target drift factor (R98): 1 / (1 - loss) in 1.15 fixed point. The manual bounds neither the loss nor the factor: a loss
above 1/2 is taken as 1/2, so the factor stays at most 2.0 (DESIGN CHOICE, log 151). -/
def driftFactor (s : State) (b : Nat) (temp : Int) (age : Nat) : Nat :=
  let loss := s.driftCoeff b temp * logAge age / (320 * 2 ^ 32)
  (Bits.roundHalfEven ((2 ^ 47 : Nat) : Int) (2 ^ 32 - min loss (2 ^ 31))).toNat

/-- Recompute the drift targets of a bough's decks (R99). -/
def driftTargets (s : State) (b : Nat) : State :=
  let temp := (s.bough b).temp
  { s with tiles := Tbl.mapVals {} id (s.tiles.map fun x =>
      if x.1 / 64 = b then (x.1, { x.2 with
        decks := Tbl.mapVals {} (fun k => { k with driftTarget := s.driftFactor b temp (s.ageOf k) }) x.2.decks }) else x) }

/-- Products that are lost to the arrays are formed on the slower tier from here on (R40, R132, R321): counted, and their steps carry
the tier flag (R151). -/
def slowProds (s : State) (hit : Prod → Bool) : State :=
  let ps := s.prods.filter fun p => hit p && !p.plan.isEmpty
  let ids := ps.map fun p => p.id
  let s := { s with
    prods := s.prods.map fun (p : Prod) => if hit p then p.toDigital else p
    tiles := Tbl.mapVals {} (fun (t : Tile) => { t with queue := t.queue.filter fun i => !ids.contains i }) s.tiles
    boughs := Tbl.mapVals {} (fun (b : Bough) => { b with waiting := b.waiting.filter fun i => !ids.contains i }) s.boughs }
  s.each ps fun s p => (s.count (Ctr.tierProducts (p.tile / 64))).modStep p.key.work.call p.key.work.step fun x => { x with tier := true }

/-- A LIVE deck, or a deck in its sampled check, leaves its drift budget (R46, R25). A premium product on it whose first phase has
not been granted is formed on the slower tier (R132). -/
def enterDrifted (s : State) (t d : Nat) : State :=
  let k := s.deck t d
  if k.state = .live ∨ (k.unverified = true ∧ k.state = .ready) then
    let s := s.slowProds fun p => p.tile == t && p.deck == d && p.premium && !p.latched
    let s := (s.modDeck t d fun k => { k with state := .drifted }).event
      { code := 0x0104, unit := unitDeck t d, matrix := k.matrixId,
        own := own [(40, 8, s.ageOf k), (48, 2, Bits.ofSigned k.residual 16)] }
    s.modWeights fun w => { w with drifted := w.drifted ++ [(t, d)] }
  else s

/-! ### Deck states -/

/-- A deck enters EMPTY, or WORN at the end of its endurance (R45). -/
def emptyDeck (s : State) (t d : Nat) : State :=
  let k := s.deck t d
  let s := s.modWeights fun w => { w with drifted := w.drifted.filter fun x => x != (t, d) }
  if k.state = .worn ∨ k.state = .retired then s
  else if 100000 ≤ k.takeCount then
    (s.modDeck t d fun k => { k with state := .worn, unverified := false }).event
      { code := 0x0105, unit := unitDeck t d, matrix := k.matrixId, own := own [(40, 4, k.takeCount)] }
  else s.modDeck t d fun k => { k with state := .empty, unverified := false, fitted := false }

/-- A new take (R147): its number rises by one. -/
def addTake (s : State) (t : Take) : State :=
  s.modWeights fun w => { w with takes := w.takes ++ [{ t with id := w.nextTake }], nextTake := w.nextTake + 1 }

/-- A refresh take that management firmware starts (R38, R133, R153). -/
def firmwareTake (s : State) (image : Nat) (mats : List Nat) (drift : Option (Nat × Nat)) (inPlace : Bool)
    (targets : List (Nat × Nat × Nat × Nat × Nat)) : State :=
  s.addTake { id := 0, refresh := true, firmware := true, image := image, mats := mats, st := .loading, job := none,
              inPlace := inPlace, targets := targets, left := 0, toSlow := [], toReturn := mats, drift := drift }

/-- The codes at a limit that a tile marks clipped in a phase are counted (R32, R47). -/
def countClips (s : State) (t : Nat) (codes : List Int) : State :=
  s.count (Ctr.clipCols t) (codes.filter fun c => c == -128 || c == 127).length

/-- PROG_FAIL: a run has ended without READY (R47). -/
def progFail (s : State) (t : Nat) (j : ProgJob) : State :=
  s.event { code := 0x0106, unit := unitDeck t j.deck, matrix := j.matrix, image := j.image,
            own := own [(40, 1, (s.deck t j.deck).state.code), (41, 2, min 65535 j.cells)] }

/-- Retirement of a tile (R40): cause 1 no remap entry, 2 slice fault, 3 driver or select fault. A run in progress on the tile ends
without READY (R47). -/
def retireTile (s : State) (t cause : Nat) : State :=
  if s.tileGone t then s
  else
    let runs := (s.tile t).jobs.filter fun j => j.started
    let s := s.modTile t fun x => { x with
      retired := true, queue := [], jobs := [], owed := false, forced := false, held := false, repeat_ := none, folded := [],
      decks := (List.range 8).foldl (fun ds d => Tbl.update {} d (fun k => { k with state := .retired, unverified := false }) ds) x.decks }
    let s := s.modWeights fun w => { w with drifted := w.drifted.filter fun x => x.1 != t }
    let s := s.event { code := 0x0103, unit := unitTile t, own := own [(40, 1, cause), (41, 2, s.tilesLive)] }
    let s := s.each runs fun s j => s.progFail t j
    let s := s.slowProds fun p => p.tile == t
    s.each ((s.weights.bindings.filter fun b => b.2.decks.any fun d => d.1 == t).map fun b => b.1) bindSlow

/-- A permanent fault in a column of a LIVE or DRIFTED deck (R38). In service only the spares that already serve the column in this
deck count as failed; the manual does not say how a spare's state is known outside a programming run (DESIGN CHOICE, log 150). -/
def suspendColumn (s : State) (t d col : Nat) : State :=
  let x := s.tile t
  let m := (s.deck t d).matrixId
  if (x.suspendedIn d).contains col then s
  else if 4 ≤ x.suspendedPairs then
    (s.bindSlow m).firmwareTake (((s.binding? m).map fun b => b.image).getD 0) [m] none false []
  else
    let bad := (x.remap.filter fun r => r.2.column == col && r.2.active.getLsbD d).map fun r => r.1
    match x.chooseEntry d col bad with
    | none => s.retireTile t 1
    | some k =>
      let r := Tbl.get ({} : Remap) k x.remap
      s.setRemap t d k { r with column := col, suspend := r.suspend ||| (1#8 <<< d) }

/-! ### Grants (R18, R360, R361) -/

/-- The arrays are supplied: D0 or D1 with no entry or wake running, or the logic phase of a wake from D3, which runs the steps of
a warm start (R371). -/
def powerOpen (s : State) : Bool :=
  s.power.entry.isNone &&
  (match s.power.wake with
   | none => decide (s.power.dstate = .d0) || decide (s.power.dstate = .d1)
   | some w => decide (w.from_ = .d3) && w.phase == 3)

/-- Array grants are open: not in reset, in D0 or D1, no entry or wake running, REFCLK present, not isolated. -/
def grantsOpen (s : State) : Bool :=
  (s.running || s.starting) && s.ticking && !s.isolated && s.powerOpen && s.boot.heldReset.isNone

/-- New work may be issued too: a device that has resigned goes on with granted steps only (R323). -/
def newWorkOpen (s : State) : Bool := s.grantsOpen && !s.faults.resigned

/-- A position after the first whose READY.WEIGHTS is clear holds the steps that arrive: it starts no work of theirs (R340). -/
def stepHeld (s : State) (w : WorkRef) : Bool := !s.isFirst && !s.readyBit 8 && (s.step? w.call w.step).isSome

/-- The charge of a grant of a kind at the level in force, scaled (R362). -/
def chargeOf (s : State) (kind : Nat) : Nat :=
  Tbl.get 0 (s.regs.level.toNat * 16 + kind) s.power.charges * s.power.scale / 65536

/-- The most that may be charged in one window, in nanojoules: PWR_PEAK for 1.6384 µs (R361). -/
def peakWindow (s : State) : Nat := s.power.policy.pwrPeak.toNat * 16384 / 10

/-- Slates of the unit with a number of Table 15-3. -/
def slateAt (s : State) (k : Nat) : Slate := Tbl.get {} k s.faults.slates

/-- The next grant of the unit's work is withheld: its slate is overdue, and none has been withheld in this interval of 2^13 ticks
(R312; DESIGN CHOICE, log 182). -/
def unitHeld (s : State) (k : Nat) : Bool := (s.slateAt k).overdue && decide ((s.slateAt k).withheld ≠ s.now / 2 ^ 13 + 1)

/-- Withhold this grant; the work is granted with the next one asked for. -/
def withhold (s : State) (k : Nat) : State :=
  s.modFaults fun x => { x with slates := Tbl.update {} k (fun t => { t with withheld := s.now / 2 ^ 13 + 1 }) x.slates }

/-- The power account allows `n` grants of a kind. -/
def affordableBy (s : State) (n kind : Nat) : Bool :=
  decide ((n * s.chargeOf kind : Int) ≤ s.power.account) && decide (s.power.charged + n * s.chargeOf kind ≤ s.peakWindow)

/-- The power account allows a grant of a kind. -/
def affordable (s : State) (kind : Nat) : Bool := s.affordableBy 1 kind

/-- Deduct `n` grants; work leaves D1 (R356) and keeps its bough's switch closed (R366). -/
def chargeBy (s : State) (n kind : Nat) (b : Option Nat) : State :=
  let c := n * s.chargeOf kind
  let s := s.modPower fun p => { p with
    account := p.account - c, charged := p.charged + c, idleSince := s.now,
    dstate := if p.dstate = .d1 then .d0 else p.dstate }
  match b with
  | none => s
  | some b => s.modBough b fun x => { x with lastGrant := s.now }

/-- Deduct one grant. -/
def charge (s : State) (kind : Nat) (b : Option Nat) : State := s.chargeBy 1 kind b

/-- Start a cold reference or close an open switch for work of a bough, and count the wait once (R121, R366). -/
def wakeBough (s : State) (b id : Nat) : State :=
  let x := s.bough b
  let fresh := !x.waiting.contains id
  let cold := decide (x.ref ≠ .ready)
  let s := if fresh && cold then s.count (Ctr.refColdWaits b) else s
  let s := if fresh && !cold then s.count (Ctr.boughWakeWaits b) else s
  s.modBough b fun x => { x with
    ref := if x.ref = .cold then .warming s.now else x.ref,
    switch := if x.switch = .opened then .closing else x.switch,
    waiting := if fresh then x.waiting ++ [id] else x.waiting }

/-- The bough can run a phase now. -/
def boughReady (s : State) (b : Nat) : Bool := decide ((s.bough b).ref = .ready) && decide ((s.bough b).switch = .closed)

/-- A product is in the scope of a drain (R84). -/
def inScope (s : State) (sc : DrainScope) (p : Prod) : Bool :=
  match sc with
  | .partition q => (s.call p.key.work.call).partition == q
  | .all => true
  | .bough b => p.tile / 64 == b

/-- A running sum holds terms: a bough has added, or the sum came from the position before. A kept graft term alone is none. -/
def SumRun.begun (x : SumRun) : Bool := !x.added.isEmpty || !x.base.isEmpty

/-- A phase of a column tile's product has been granted, so it runs to its end, its whole sum chain with it (R84). -/
def keyGranted (s : State) (k : SumKey) : Bool :=
  s.prods.any (fun p => p.key == k && (p.latched || p.summed)) || s.sums.any fun x => x.key == k && SumRun.begun x

/-- A drain forbids the first phase of a product (R84). -/
def drained (s : State) (p : Prod) : Bool := s.drains.any (fun d => s.inScope d.scope p) && !s.keyGranted p.key

/-- The deterministic and stochastic parts of Table 04-3, in units of 1/100 output LSB, by weight format, transposed,
phases and whether the 105 °C column applies. -/
def boundOf (format : Nat) (transposed : Bool) (phases : Nat) (hot : Bool) : Nat × Nat :=
  if phases = 0 then (0, 0)
  else
    match format, transposed, phases with
    | 0x01, false, 1 => (75, if hot then 55 else 40)
    | 0x01, false, _ => (100, if hot then 70 else 50)
    | 0x02, false, 1 => (70, if hot then 50 else 35)
    | 0x02, false, _ => (95, if hot then 65 else 45)
    | _, false, 1 => (65, if hot then 45 else 30)
    | _, false, _ => (90, if hot then 55 else 40)
    | 0x01, true, _ => (125, if hot then 100 else 75)
    | 0x02, true, _ => (115, if hot then 90 else 65)
    | _, true, _ => (105, if hot then 80 else 55)

/-- The 105 °C column of Table 04-3 applies (R88, R110). -/
def hotColumn (s : State) (b : Nat) : Bool := decide (1360 < (s.bough b).temp)

/-- The continuity fraction code that work runs under (R108): its step's, or, for a retake that is served, the class's field now;
only premium steps are retaken. -/
def contCode (s : State) (w : WorkRef) : Nat := ((s.step? w.call w.step).map fun y => y.cont).getD s.regs.contPremium.toNat

/-- The conditions of Table 04-5 at a product's first phase (R91, R132, R99). A bough in which no recalibration has completed has
no calibration temperature and so fails the calibration condition (DESIGN CHOICE, log 152). -/
def boundConditions (s : State) (p : Prod) : State :=
  let b := p.tile / 64
  let x := s.bough b
  let code := s.contCode p.key.work
  let badTemp := !x.tempValid || decide (1680 < x.temp)
  let badCal := !x.tempValid || (match x.calTemp with
    | some c => decide (128 < (x.temp - c).natAbs)
    | none => true)
  let drifted := decide ((s.deck p.tile p.deck).state = .drifted)
  let s := if badTemp then s.count (Ctr.boundTemp b) else s
  let s := if badCal then s.count (Ctr.boundCal b) else s
  let s := if drifted then s.count (Ctr.boundDrift b) else s
  let s := if code = 0 then s.count (Ctr.boundUnchecked b) else s
  let s := if x.tempValid then s else s.count (Ctr.tempStale b)
  let s := if badTemp || badCal || drifted || decide (code = 0) then
      (s.modProd p.id fun p => { p with unbounded := true }).unboundStep p.key.work else s
  if badCal && p.premium then
    (s.suspectProd p.id).fault (unitBough b)
      { operation := if p.transposed then 2 else 1, detector := 5, outcome := 9, matrix := p.key.matrix,
        call := some p.key.work.call, step := p.key.work.step }
  else s

/-- Sampling of a product for a continuity check (R109): the channel, if it is sampled. A matrix whose file names no continuity read
stream is never sampled (R103, Table 07-7). -/
def sampleChannel (s : State) (p : Prod) (count : Nat) : Option Nat :=
  if !((s.mat? p.image p.key.matrix).any fun m => m.sCont) then none else
  let h := (Config.contHash s.faults.deviceKey p.tile count).toNat
  let bits := match s.contCode p.key.work with
    | 1 => some 16 | 2 => some 12 | 3 => some 9 | 4 => some 6 | _ => none
  bits.bind fun n => if h % 2 ^ n = 0 then some (h / 2 ^ n % 64) else none

/-- Columns of a product's deck that hold weights. -/
def outWidth (s : State) (p : Prod) : Nat :=
  let c := if p.transposed then p.rowTile else p.key.colTile
  min 512 ((((s.mat? p.image p.key.matrix).map fun m => m.outputs).getD 0) - 512 * c)

/-- Outputs of a product that the matrix has: the others' codes are discarded (R22). -/
def outUsed (s : State) (p : Prod) : Nat :=
  if p.transposed then min 1024 ((((s.mat? p.image p.key.matrix).map fun m => m.inputs).getD 0) - 1024 * (p.key.colTile - 65536))
  else s.outWidth p

/-- The grant of a product's first phase: its parameters are latched (R95), its count is taken, the tile slews (R128). -/
def firstPhase (s : State) (p : Prod) : State :=
  let t := s.tile p.tile
  let k := s.deck p.tile p.deck
  let s := s.modProd p.id fun x => { x with
    latched := true, offsets := t.offset, gains := t.gain, colGains := if p.transposed then k.rowGain else k.colGain,
    drift := k.drift, suspended := t.suspendedIn p.deck, sampledCh := s.sampleChannel p t.products,
    susp := ((t.suspendedIn p.deck).filter fun c => decide (c < s.outWidth p)).map fun c => 1024 + c,
    hot := s.hotColumn (p.tile / 64) }
  let s := s.modTile p.tile fun x =>
    let y := slewTile x p.deck p.transposed
    { y with products := y.products + 1 }
  s.boundConditions p

/-! ### Program runs (R42 to R45) -/

/-- The refusals of R42 for a programming request. -/
def programRefused (s : State) (t d : Nat) : Option Status :=
  let k := s.deck t d
  if k.state = .live ∨ k.state = .drifted then some .deckLive
  else if k.state = .worn ∨ k.state = .retired ∨ s.tileGone t = true ∨ 100000 ≤ k.takeCount then some .deckWorn
  else none

/-- A refused request: a deck at its endurance becomes WORN (R45). -/
def refuseProgram (s : State) (t d : Nat) : State :=
  let k := s.deck t d
  if 100000 ≤ k.takeCount ∧ k.state ≠ .live ∧ k.state ≠ .drifted ∧ k.state ≠ .worn ∧ k.state ≠ .retired then
    (s.modDeck t d fun k => { k with state := .worn, unverified := false }).event
      { code := 0x0105, unit := unitDeck t d, matrix := k.matrixId, own := own [(40, 4, k.takeCount)] }
  else s

/-- The start of a run (program_deck): the record, and suspended columns pass to their spares (R38). -/
def beginRun (s : State) (t : Nat) (j : ProgJob) : State :=
  let fmt := ((s.mat? j.image j.matrix).map fun m => m.format).getD 0
  let s := s.modDeck t j.deck fun k => { k with
    takeCount := k.takeCount + 1, state := .programming, matrixId := j.matrix, takeId := j.takeId, format := fmt, digest := 0,
    unverified := false, fitted := false }
  let s := if (s.bough (t / 64)).runOn then s.modBough (t / 64) fun b => { b with runSkip := b.runSkip ++ [8 * t + j.deck] } else s
  let s := s.each ((s.tile t).remap.filter fun r => r.2.suspend.getLsbD j.deck) fun s r =>
    s.setRemap t j.deck r.1 { r.2 with active := r.2.active ||| (1#8 <<< j.deck), suspend := r.2.suspend &&& ~~~(1#8 <<< j.deck) }
  if (s.deck t j.deck).takeCount = 90000 then
    s.event { code := 0x0506, unit := unitDeck t j.deck, matrix := j.matrix, image := j.image, own := own [(40, 4, 90000)] }
  else s

/-- Tiles of a bough, or of the device, that perform a program step (R43). -/
def programming (s : State) (b : Option Nat) : Nat :=
  (s.tiles.filter fun x => decide (x.2.active = .progStep) && (b.isNone || b == some (x.1 / 64))).length

/-- Tiles of a bough, or of the device, whose first job was requested before a tile's own (R43). -/
def progBefore (s : State) (t : Nat) (b : Option Nat) : Nat :=
  match (s.tile t).jobs.head? with
  | none => 0
  | some j => (s.tiles.filter fun x => (b.isNone || b == some (x.1 / 64)) &&
      (match x.2.jobs.head? with
       | some i => decide (i.order < j.order)
       | none => false)).length

/-- A program step may start on a tile: its job is among the four of its bough, and the 512 of the device, first requested
(R43), and no reset waits for a pulse (R331). -/
def progAllowed (s : State) (t : Nat) : Bool :=
  s.newWorkOpen && decide (s.progBefore t (some (t / 64)) < 4) && decide (s.progBefore t none < 512) &&
  decide (s.programming (some (t / 64)) < 4) && decide (s.programming none < 512) && !(s.bough (t / 64)).withdrawn

/-- Products of a tile whose phase waits behind the program step that starts (R44, Table 02-14). -/
def countBlocked (s : State) (t : Nat) : State :=
  s.count (Ctr.progBlockWaits t) (((s.tile t).queue.filterMap s.prod?).filter fun p => !p.plan.isEmpty).length

/-- Start the next program step of a tile's first job. -/
def startProg (s : State) (t : Nat) : State :=
  match (s.tile t).jobs with
  | [] => s
  | j :: rest =>
    if !s.boughReady (t / 64) then s.wakeBough (t / 64) (2 ^ 32 + t)
    else if !s.affordable 2 then s.count Ctr.pacerHolds
    else if s.unitHeld (t / 64) then s.withhold (t / 64)
    else
      let s := (if j.started then s else s.beginRun t j).countBlocked t
      (s.charge 2 (some (t / 64))).modTile t fun x => { x with
        active := .progStep, owed := false, owing := false, jobs := { j with started := true } :: rest }

/-- Drop jobs whose request R42 refuses before their run starts; the fuel is their number. -/
def dropRefused (s : State) (t : Nat) : Nat → State
  | 0 => s
  | n + 1 =>
    match (s.tile t).jobs with
    | [] => s
    | j :: rest =>
      if !j.started && (s.programRefused t j.deck).isSome then
        ((s.refuseProgram t j.deck).modTile t fun x => { x with jobs := rest }).dropRefused t n
      else s

/-! ### What a tile starts next (R36, R191) -/

/-- The product whose phase is granted next: premium before bulk, in order of arrival. -/
def nextProduct (s : State) (t : Nat) : Option Prod :=
  let ps := (s.tile t).queue.filterMap s.prod?
  let ok := ps.filter fun p => !p.plan.isEmpty && (p.latched || !(s.drained p || (s.tile t).held))
  (ok.find? fun p => p.premium).or ok.head?

/-- A phase of a deck starts: products of other decks in the tile's queue wait for it, each wait counted once however many phases
of other decks it spans (R17; DESIGN CHOICE, log 153); products of the deck itself no longer wait. -/
def noteConflicts (s : State) (t d : Nat) : State :=
  let here (p : Prod) : Bool := (s.tile t).queue.contains p.id
  let fresh := s.prods.filter fun p => here p && p.deck != d && !p.waited
  let s := s.count (Ctr.deckConflictWaits (t / 64)) fresh.length
  { s with prods := s.prods.map fun (p : Prod) => if here p then { p with waited := p.deck != d } else p }

/-- Grant the next phase of a product. -/
def startPhase (s : State) (t : Nat) (p : Prod) : State :=
  let b := t / 64
  if !s.boughReady b then s.wakeBough b p.id
  else if !s.affordable 0 then s.count Ctr.pacerHolds
  else if s.unitHeld b then s.withhold b
  else
    let s := (if p.latched then s else s.firstPhase p).noteConflicts t p.deck
    let s := (s.charge 0 (some b)).modBough b fun x => { x with waiting := x.waiting.filter fun i => i != p.id }
    s.modTile t fun x => { skewTile x with active := .product p.id }

/-- An idle tile starts its next activity: an owed program step, a product phase, another program step. A held tile runs an
owed program step only (R104); a forced gap withholds product phases (R126). -/
def tileNext (s : State) (t : Nat) : State :=
  let s := s.dropRefused t (s.tile t).jobs.length
  let x := s.tile t
  if x.active ≠ .idle ∨ s.tileGone t = true then s
  else if x.owed && !x.jobs.isEmpty && s.progAllowed t then s.startProg t
  else
    let p := if s.grantsOpen && !(s.bough (t / 64)).withdrawn && !x.forced then s.nextProduct t else none
    match p with
    | some p => s.startPhase t p
    | none => if !x.jobs.isEmpty && s.progAllowed t && !x.held then s.startProg t else s

/-- Idle tiles with waiting work try again: an account credited, a reference ready, a program place freed. -/
def tilesNext (s : State) (ok : Nat → Bool) : State :=
  s.each ((s.tiles.filter fun x => ok x.1 && decide (x.2.active = .idle) && (!x.2.queue.isEmpty || !x.2.jobs.isEmpty)).map
    fun x => x.1) tileNext

/-- A programming request for a deck (R42 to R45): refused at once where R42 refuses it, else its job is pending and a step is owed
at once. -/
def requestProgram (s : State) (t : Nat) (j : ProgJob) : State :=
  if (s.programRefused t j.deck).isSome then s.refuseProgram t j.deck
  else
    let j := { j with order := s.nextOrder }
    let s := { s with nextOrder := s.nextOrder + 1 }
    (s.modTile t fun x => { x with jobs := x.jobs ++ [j], owed := true }).tileNext t

/-- The job that programs a deck from a slot. -/
def jobFor (d takeId image : Nat) (m r c : Nat) : ProgJob :=
  { deck := d, takeId := takeId, matrix := m, image := image, rowTile := r, colTile := c }

end State
end Sys2Proof.Machine
end

