-- ==== Sys2Proof/Machine/TakeOps.lean ====
section
/-! DEFINITION. Takes and cuts (07): the states of Table 07-8, generation cuts, return cuts, re-binding after a cold start. -/

set_option Elab.async false

namespace Sys2Proof.Machine

/-- Where a target of a take stands. -/
inductive TargetState where
  /-- programmed and fitted -/
  | ready
  /-- EMPTY, being programmed or being fitted -/
  | coming
  /-- retired, worn or refused -/
  | lost
deriving DecidableEq, Repr

namespace State

def modTake (s : State) (id : Nat) (f : Take → Take) : State :=
  s.modWeights fun w => { w with takes := w.takes.map fun (t : Take) => if t.id == id then f t else t }

def take? (s : State) (id : Nat) : Option Take := s.weights.takes.find? fun t => t.id == id

def dropTake (s : State) (id : Nat) : State := s.modWeights fun w => { w with takes := w.takes.filter fun t => t.id != id }

/-- A host take is not DONE or ABORTED (R144). -/
def hostTake (s : State) : Bool := s.weights.takes.any fun t => !t.firmware

/-- Target decks of a matrix in a take. -/
def Take.targetsOf (t : Take) (m : Nat) : List (Nat × Nat × Nat × Nat × Nat) := t.targets.filter fun x => x.1 == m

/-- Where one target stands. -/
def targetState (s : State) (t : Take) (x : Nat × Nat × Nat × Nat × Nat) : TargetState :=
  let k := s.deck x.2.2.2.1 x.2.2.2.2
  match k.state with
  | .ready => if k.takeId = t.id then (if k.fitted then .ready else .coming) else .lost
  | .live => if k.takeId = t.id ∧ k.fitted = true then .ready else .lost
  | .programming => if k.takeId = t.id then .coming else .lost
  | .empty => if (s.tile x.2.2.2.1).jobs.any fun j => j.deck == x.2.2.2.2 && j.takeId == t.id then .coming else .lost
  | _ => .lost

/-! ### Reports between chain positions (R146, R148) -/

/-- CUTs at the head of the queue whose generation is not staged complete with TAKE_ABORTED (Table 07-9). -/
def nextCut : List (Job × Nat) → State → State
  | [], s => s.modWeights fun w => { w with cuts := [] }
  | (j, image) :: rest, s =>
    if s.isStaged image then s.modWeights fun w => { w with cuts := (j, image) :: rest }
    else nextCut rest (s.complete j .takeAborted)

/-- Complete the CUT at position 0 whose generation every position has switched to. -/
def cutSwitched (s : State) : State :=
  match s.weights.cuts with
  | [] => s
  | (j, image) :: rest =>
    let n := ((s.gen? image).map fun g => g.chainLength).getD 1
    if (List.range n).all fun p => s.weights.switched.contains (p, image) then
      nextCut rest ((s.modWeights fun w => { w with
        switched := w.switched.filter fun x => x.2 != image, armed := w.armed.filter fun x => x.2 != image
        }).complete j .ok)
    else s

/-- A position's report reaches position 0 (R148, Table 07-9). -/
def noteReport (s : State) (m : CutMsg) : State :=
  match m with
  | .armed pos image => s.modWeights fun w => { w with armed := distinct (w.armed ++ [(pos, image)]) }
  | .switched pos image =>
    (s.modWeights fun w => { w with switched := distinct (w.switched ++ [(pos, image)]) }).cutSwitched
  | .aborted pos image =>
    let s := s.modWeights fun w => { w with armed := w.armed.filter fun x => x != (pos, image) }
    match s.weights.cuts with
    | (j, i) :: rest =>
      if i = image then nextCut rest (s.complete j .takeAborted) else s
    | [] => s
  | .epoch _ _ => s

/-- Report to position 0 through port U. -/
def report (s : State) (m : CutMsg) : State := if s.isFirst then s.noteReport m else s.send .u 2 (.cutCtrl m)

def pos (s : State) : Nat := s.regs.chainPos.toNat

/-! ### The end of a take -/

/-- A take ends ABORTED, or with TAKE_NO_DECK before anything was programmed. A run in progress ends without READY (R47). -/
def failTake (s : State) (t : Take) (st : Status) : State :=
  let runs := s.tiles.flatMap fun (x : Nat × Tile) => (x.2.jobs.filter fun j => j.takeId == t.id && j.started).map fun j => (x.1, j)
  let s := { s with tiles := Tbl.mapVals {} (fun x => { x with jobs := x.jobs.filter fun j => j.takeId != t.id }) s.tiles }
  let s := if st = .takeNoDeck then s
    else s.each t.targets fun s x =>
      let d := (x.2.2.2.1, x.2.2.2.2)
      if s.deckBound d || (s.deck d.1 d.2).takeId != t.id then s else s.emptyDeck d.1 d.2
  let s := s.each runs fun s x => s.progFail x.1 x.2
  let s := (s.dropTake t.id).count Ctr.takesAborted
  let s := s.event { code := 0x0503, image := t.image, own := own [(40, 4, t.id), (44, 1, st.code)] }
  let s := match t.job with
    | some j => s.completeWith j st t.id t.left none
    | none => s
  if t.refresh then s else s.report (.aborted s.pos t.image)

/-- A take is DONE. -/
def finishTake (s : State) (t : Take) : State :=
  let s := (s.dropTake t.id).count Ctr.takes
  match t.job with
  | some j => s.completeWith j (if 0 < t.left then .takePartial else .ok) t.id t.left none
  | none => s

/-! ### Targets -/

/-- The deck of a pair that a take programs (R148, R153). -/
def targetDeck (s : State) (p : Placement) (m : Mat) (r c : Nat) (own' : Bool) : Nat × Nat :=
  let prim := p.primary m r c
  match p.alternate m r c with
  | none => prim
  | some alt =>
    let bound := ((s.binding? m.id).map fun b => b.decks).getD []
    if own' then prim
    else if bound.contains prim then alt
    else if bound.contains alt then prim
    else if (s.deck prim.1 prim.2).state = .worn then alt
    else prim

/-- Targets of the matrices of a take, in ascending matrix_id and reference order. -/
def takeTargets (s : State) (image : Nat) (mats : List Nat) : List (Nat × Nat × Nat × Nat × Nat) :=
  match s.gen? image with
  | none => []
  | some g =>
    match s.placementOf g with
    | none => []
    | some p =>
      let own' := g.placement.isSome && !g.live
      mats.flatMap fun id =>
        match p.mats.find? fun m => m.id == id with
        | none => []
        | some m => if p.inTiles m then m.pairs.map fun x =>
            let d := s.targetDeck p m x.1 x.2 own'
            (id, x.1, x.2, d.1, d.2) else []

/-- Ask for the program runs of a list of targets (R42). -/
def programTargets (s : State) (t : Take) (xs : List (Nat × Nat × Nat × Nat × Nat)) : State :=
  s.each xs fun s x => s.requestProgram x.2.2.2.1 (jobFor x.2.2.2.2 t.id t.image x.1 x.2.1 x.2.2.1)

/-! ### Leaving LOADING -/

/-- Attention records are present for every layer that the position holds (R157). -/
def attnComplete (s : State) (g : Gen) : Bool :=
  (s.matsOf g).all fun m => (m.kind != 0 && m.kind != 3) || (s.attnFor g m.layer).isSome

/-- Matrices of a take: those named, or all that the generation supplies to the position. -/
def takeMats (s : State) (g : Gen) (t : Take) : List Nat :=
  if t.refresh then t.mats else sortBy (fun a b => decide (a < b)) ((s.supplied g).map fun m => m.id)

/-- The matrices that a take names as far as they are known (R136: a partial generation's chunks name them). -/
def takeNames (s : State) (t : Take) : List Nat :=
  match s.gen? t.image with
  | some g => if t.st = .loading then s.takeMats g t else t.mats
  | none => t.mats

/-- A firmware re-take of one of the matrices is under way. -/
def underRetake (s : State) (mats : List Nat) : Bool :=
  s.weights.takes.any fun t => t.firmware && t.mats.any mats.contains

/-- Every chunk of a generation addressed to this position is accepted and converted. -/
def chunksIn (s : State) (g : Gen) : Bool :=
  (List.range (manifestCount g.manifest)).all (fun k =>
    (manifestEntry g.manifest k).1 != s.regs.chainPos.toNat || g.accepted.contains k) &&
  s.weights.chunks.all fun c => c.image != g.imageId

/-- The two conditions that end LOADING (Table 07-8, R141, R157). A take that gives decks of other matrices up waits for that too
(R152). -/
def loaded (s : State) (t : Take) : Bool :=
  match s.gen? t.image with
  | none => false
  | some g =>
    let mats := s.takeMats g t
    (s.placementOf g).isSome && (t.refresh || (s.attnComplete g && s.chunksIn g)) &&
    (t.firmware || !s.underRetake mats) && t.toSlow.isEmpty && (t.refresh || s.genComplete g) &&
    mats.all fun id => match (s.matsOf g).find? fun m => m.id == id with
      | some m => s.masterComplete g m
      | none => false

def isDense (s : State) (t : Take) : Bool := t.inPlace || ((s.placeFor t.image).map fun p => p.layout == 2).getD true

/-- ARMED: the event and the report (R148, R149). A refresh take has no generation cut (R150), and no CUT could name its live
generation: it raises the event and reports nothing (DESIGN CHOICE, log 179). -/
def armTake (s : State) (t : Take) : State :=
  let s := (s.modTake t.id fun t => { t with st := .armed }).event { code := 0x0502, image := t.image, own := own [(40, 4, t.id)] }
  if t.refresh then s else s.report (.armed s.pos t.image)

/-- A position to which a generation supplies nothing reports ARMED once the copies it inherits are complete (R141, R148). -/
def armIdle (s : State) : State :=
  s.each (s.weights.gens.filter fun g => !g.live && !g.armSent && s.suppliesNothing g && (s.placementOf g).isSome && s.genComplete g)
    fun s g => (s.modGen g.imageId fun g => { g with armSent := true }).report (.armed s.pos g.imageId)

/-- The matrices of a take that are held in tiles. -/
def tileMats (s : State) (t : Take) : List Nat :=
  match s.placeFor t.image with
  | none => []
  | some p => t.mats.filter fun id => (p.mats.find? fun m => m.id == id).any p.inTiles

/-- LOADING is left (R148 to R150). -/
def startTake (s : State) (t0 : Take) : State :=
  let t := { t0 with mats := match s.gen? t0.image with
    | some g => s.takeMats g t0
    | none => t0.mats }
  let s := s.modTake t.id fun x => { x with mats := t.mats }
  let targets := if t.targets.isEmpty then s.takeTargets t.image t.mats else t.targets
  if s.isDense t then
    (if t.refresh then
      s.modTake t.id fun t => { t with
        st := .programming, targets := targets, toSlow := s.tileMats t, toReturn := s.tileMats t }
     else (s.modTake t.id fun t => { t with targets := targets }).armTake t)
  else if targets.any fun x => decide ((s.deck x.2.2.2.1 x.2.2.2.2).state ≠ .empty) then s.failTake t .takeNoDeck
  else (s.modTake t.id fun t => { t with
    st := .programming, targets := targets, toReturn := if t.refresh then s.tileMats t else [] }).programTargets t targets

/-! ### Cuts of single matrices (R134, R149, R150, R152) -/

/-- The cut of a matrix to the slower tier. Before the take programs, the matrix gives up the decks of its that are targets (R152);
in place, the take's decks of the matrix become EMPTY and are programmed. -/
def slowCut (s : State) (t : Take) (m : Nat) : State :=
  let decks := ((s.binding? m).map fun b => b.decks).getD []
  let s := s.bindSlow m
  let s := s.modTake t.id fun t => { t with toSlow := t.toSlow.filter fun x => x != m }
  if t.st = .loading then
    s.each (t.targets.filter fun x => decks.contains (x.2.2.2.1, x.2.2.2.2)) fun s x => s.emptyDeck x.2.2.2.1 x.2.2.2.2
  else
    let s := s.each (Take.targetsOf t m) fun s x => s.emptyDeck x.2.2.2.1 x.2.2.2.2
    s.programTargets t (Take.targetsOf t m)

/-- A matrix may be cut to the slower tier: it is there, or stands at a batch boundary (R145). -/
def canSlow (s : State) (m : Nat) : Bool := ((s.binding? m).any fun b => b.slow) || s.atBoundary m

/-- Matrices of a take are cut to the slower tier in ascending matrix_id order, as each comes to its boundary (R149, R150, R152). -/
def slowCuts (t : Take) : List Nat → State → State
  | [], s => s
  | m :: rest, s => if s.canSlow m then slowCuts t rest (s.slowCut t m) else s

/-- A deck can serve its binding now (R321, R40). -/
def deckServes (s : State) (d : Nat × Nat) : Bool :=
  !s.tileGone d.1 && !(s.bough (d.1 / 64)).withdrawn && decide (d.2 < 8) &&
  (decide ((s.deck d.1 d.2).state = .live) || decide ((s.deck d.1 d.2).state = .drifted) || decide ((s.deck d.1 d.2).state = .ready))

/-- The decks of a matrix once the fitted targets of a take replace those they stand for. -/
def returnDecks (s : State) (t : Take) (m : Mat) (old : List (Nat × Nat)) : List (Nat × Nat) :=
  m.pairs.map fun x =>
    match t.targets.find? fun y => y.1 == m.id && y.2.1 == x.1 && y.2.2.1 == x.2 &&
        decide (s.targetState t y = .ready) with
    | some y => (y.2.2.2.1, y.2.2.2.2)
    | none => old.getD (m.pairIndex x.1 x.2) (8192, 8)

/-- A return cut binds a matrix to its decks (R149, R150). Where a deck of the matrix cannot serve, the matrix stays on the slower
tier with the decks it has (Table 07-9, R153). -/
def returnCut (s : State) (t : Take) (id : Nat) : State :=
  match s.mat? t.image id, s.binding? id with
  | some m, some b =>
    let decks := s.returnDecks t m b.decks
    let ok := decks.all s.deckServes
    let s := if ok then s.each decks fun s d => s.modDeck d.1 d.2 fun k => if k.state = .ready then { k with state := .live } else k else s
    let s := s.setBinding id { b with slow := !ok, decks := decks, takeId := if ok then t.id else 0 }
    let s := s.each (b.decks.filter fun d => !decks.contains d) fun s d =>
      if s.deckBound d || (s.deck d.1 d.2).takeId == t.id then s else s.emptyDeck d.1 d.2
    let s := if ok then s.count Ctr.cuts else s
    let s := if b.slow && ok then s.tierEvent false id b.image t.id else s
    s.modTake t.id fun t => { t with
      toReturn := t.toReturn.filter fun x => x != id, left := if ok then t.left else t.left + 1,
      st := if t.st = .armed then .draining else t.st }
  | _, _ => s.modTake t.id fun t => { t with toReturn := t.toReturn.filter fun x => x != id }

/-- The end of a drift re-take (R133). -/
def driftDone (s : State) (t : Take) : State :=
  match t.drift with
  | none => s
  | some (tl, d) =>
    (s.count Ctr.retakesDrift).event
      { code := 0x0401, unit := unitDeck tl d, matrix := t.mats.headD 0, image := t.image,
        own := own [(40, 1, 2), (41, 1, if t.inPlace then 1 else 0), (44, 4, t.id)] }

/-- One matrix of a take that programs: its return cut when its targets are fitted and it stands at a batch boundary. A lost
target leaves an in-place matrix on the slower tier (Table 07-9) and aborts a take whose binding is unchanged. -/
def settleMatrix (s : State) (t : Take) (id : Nat) : State :=
  match s.take? t.id with
  | none => s
  | some t =>
    let xs := Take.targetsOf t id
    if t.toSlow.contains id || !t.toReturn.contains id then s
    else if xs.any fun x => decide (s.targetState t x = .lost) then
      (if s.isDense t then s.modTake t.id fun t => { t with
          toReturn := t.toReturn.filter fun x => x != id, left := t.left + 1 }
       else s.failTake t .takeAborted)
    else if xs.all (fun x => decide (s.targetState t x = .ready)) && s.atBoundary id then s.returnCut t id
    else s

/-- A take that has left LOADING in place of another, on one take in force. -/
def onTake (s : State) (id : Nat) (f : Take → State → State) : State :=
  match s.take? id with
  | some t => f t s
  | none => s

/-- LOADING: matrices whose decks the take needs go to the slower tier, and the take starts. -/
def settleLoading (t : Take) (s : State) : State :=
  if t.st ≠ .loading then s
  else (slowCuts t t.toSlow s).onTake t.id fun t s => if s.loaded t then s.startTake t else s

/-- A target of an ARMED take is lost to its cut (Table 07-9): in dense layout the targets still serve. -/
def armLost (s : State) (t : Take) (x : Nat × Nat × Nat × Nat × Nat) : Bool :=
  if s.isDense t then s.tileGone x.2.2.2.1 else decide (s.targetState t x = .lost)

/-- PROGRAMMING and FITTING of a swappable take; an ARMED one whose target is lost before the cut ends ABORTED (Tables 07-8, 07-9). -/
def settleTargets (t : Take) (s : State) : State :=
  if t.st = .armed then (if t.targets.any (s.armLost t) then s.failTake t .takeAborted else s)
  else if s.isDense t || (t.st != .programming && t.st != .fitting) then s
  else if t.targets.any fun x => decide (s.targetState t x = .lost) then s.failTake t .takeAborted
  else if t.targets.all fun x => decide (s.targetState t x = .ready) then s.armTake t
  else s.modTake t.id fun t => { t with
    st := if t.targets.all fun x => decide ((s.deck x.2.2.2.1 x.2.2.2.2).state = .ready) then .fitting else .programming }

/-- The cuts of single matrices, and DONE after the last (R149, R150): of a dense take once it programs, of a swappable refresh take
once it is ARMED. -/
def settleCuts (t : Take) (s : State) : State :=
  if (if s.isDense t then t.st = .programming else t.refresh = true ∧ (t.st = .armed ∨ t.st = .draining)) then
    let s := slowCuts t t.toSlow s
    let s := s.each t.toReturn fun s m => s.settleMatrix t m
    s.onTake t.id fun t s => if t.toReturn.isEmpty && t.toSlow.isEmpty then (s.driftDone t).finishTake t else s
  else s

/-- Bring one take as far as the state allows. -/
def settleTake (s : State) (id : Nat) : State :=
  ((s.onTake id settleLoading).onTake id settleTargets).onTake id settleCuts

/-! ### Generation cuts (R146, R148, R149) -/

/-- The binding of a matrix in the new epoch. -/
def epochBinding (s : State) (g : Gen) (p : Placement) (t : Option Take) (m : Mat) : Binding :=
  match t with
  | some t =>
    if t.mats.contains m.id then
      (if p.inTiles m && !s.isDense t then
        { image := g.imageId, slow := false, decks := (Take.targetsOf t m.id).map fun x => (x.2.2.2.1, x.2.2.2.2), takeId := t.id }
       else { image := g.imageId, slow := true, decks := [], takeId := 0 })
    else { (s.binding? m.id).getD { image := 0, slow := true, decks := [], takeId := 0 } with image := g.imageId }
  | none => { (s.binding? m.id).getD { image := 0, slow := true, decks := [], takeId := 0 } with image := g.imageId }

/-- A cut to a generation that has no lost block of its own, and supplies the matrix of a lost one that it would inherit,
makes the position serve again (R297). -/
def recovered (s : State) (g : Gen) : State :=
  match s.boot.weightLost with
  | none => s
  | some (image, m) =>
    if !g.lost && g.imageId != image && (decide (g.baseId ≠ image) || (s.supplied g).any fun x => x.id == m) then
      (s.modBoot fun b => { b with weightLost := none }).setReady 8
    else s

/-- The epoch opens with a generation on this position, and the next one is told (R146). -/
def openEpoch (s : State) (e image : Nat) : State :=
  match s.gen? image with
  | none => s
  | some g =>
    match s.placementOf g with
    | none => s
    | some p =>
      let t := s.weights.takes.find? fun t => !t.refresh && t.image == image && decide (t.st = .armed)
      let olds := s.weights.bindings
      let news := (sortBy (fun a b => decide (a.1 < b.1))
        ((p.mats.filter fun m => m.kind != 2).map fun m => (m.id, s.epochBinding g p t m)))
      let s := s.modWeights fun w => { w with
        oldBindings := olds, bindings := news, epoch := e, oldEpoch := true,
        gens := w.gens.map fun (x : Gen) => { x with live := x.imageId == image } }
      let s := s.each news fun s b => s.each (if b.2.slow then [] else b.2.decks) fun s d =>
        s.modDeck d.1 d.2 fun k => if k.state = .ready then { k with state := .live } else k
      let s := s.each (news.filter fun b => b.2.slow) fun s b =>
        match olds.find? fun o => o.1 == b.1 with
        | some o => if o.2.slow then s else s.tierEvent true b.1 image o.2.takeId
        | none => s
      let s := match t with
        | some t => s.modTake t.id fun t => { t with st := .draining }
        | none => s
      let s := (s.count Ctr.cuts).recovered g
      if s.isLast then s else s.send .d 2 (.cutCtrl (.epoch e image))

/-- Position 0 opens the epoch of its oldest CUT at a batch boundary of its first layer, once every position is ARMED and no
older epoch is in flight (R146, R148). -/
def tryCut (s : State) : State :=
  match s.weights.cuts with
  | [] => s
  | (_, image) :: _ =>
    let n := ((s.gen? image).map fun g => g.chainLength).getD 1
    let live := ((s.gen? image).map fun g => g.live).getD false
    if s.isFirst && !live && !s.weights.oldEpoch && s.batch.isNone &&
        (List.range n).all (fun p => s.weights.armed.contains (p, image)) then s.openEpoch (s.weights.epoch + 1) image
    else s

/-- The old epoch has left the position: its decks are released as the take's flow states, and switched is reported. -/
def closeEpoch (s : State) : State :=
  let image := (s.liveGen.map fun g => g.imageId).getD 0
  let gone := (s.weights.oldBindings.flatMap fun b => b.2.decks).filter fun d =>
    !(s.weights.bindings.any fun b => !b.2.slow && b.2.decks.contains d)
  let s := s.modWeights fun w => { w with oldEpoch := false, oldBindings := [] }
  let s := s.each (distinct gone) fun s d => s.emptyDeck d.1 d.2
  let s := match s.weights.takes.find? fun t => decide (t.st = .draining) && !t.refresh with
    | none => s
    | some t =>
      if s.isDense t then
        let s := s.modTake t.id fun t => { t with
          st := .programming, targets := s.takeTargets t.image t.mats, toSlow := s.tileMats t, toReturn := s.tileMats t }
        s.onTake t.id fun t s => slowCuts t t.toSlow s
      else s.finishTake t
  s.report (.switched s.pos image)

/-! ### Re-binding after a cold start (R153) -/

/-- The deck that a slot is bound to without a take: its record and digest match; LIVE before others, then the primary. -/
def rebindDeck (s : State) (p : Placement) (image : Nat) (m : Mat) (r c : Nat) : Option (Nat × Nat) :=
  match s.slotFor image m.id r c with
  | none => none
  | some sl =>
    let dg := sl.digest
    let fits (d : Nat × Nat) : Bool :=
      let k := s.deck d.1 d.2
      !s.tileGone d.1 && k.matrixId == m.id && k.digest == dg &&
      (decide (k.state = .ready) || decide (k.state = .live) || decide (k.state = .drifted))
    let cand := (p.primary m r c :: (p.alternate m r c).toList).filter fits
    (cand.find? fun d => decide ((s.deck d.1 d.2).state = .live)).or cand.head?

/-- The decks a placement file names, in reference order. -/
def namedDecks (p : Placement) (m : Mat) : List (Nat × Nat) :=
  m.pairs.flatMap fun x => p.primary m x.1 x.2 :: (p.alternate m x.1 x.2).toList

/-- Bind one matrix of the generation that becomes live (R153): the targets that a refresh take has still to program. -/
def rebindMatrix (s : State) (g : Gen) (p : Placement) (m : Mat) : State × List (Nat × Nat × Nat × Nat × Nat) :=
  if !p.inTiles m then (s.setBinding m.id { image := g.imageId, slow := true, decks := [], takeId := 0 }, [])
  else
    let found := m.pairs.map fun x => (x, s.rebindDeck p g.imageId m x.1 x.2)
    let bound := found.filterMap fun x => x.2
    let s := s.each bound fun s d => (s.count Ctr.rebindMatch).modDeck d.1 d.2 fun k =>
      { k with state := if k.state = .drifted then .drifted else .live }
    let s := s.each ((namedDecks p m).filter fun d => !bound.contains d) fun s d => s.emptyDeck d.1 d.2
    let missing := (found.filter fun x => x.2.isNone).map fun x => x.1
    let targets := missing.filterMap fun x =>
      let prim := p.primary m x.1 x.2
      if (s.deck prim.1 prim.2).state ≠ .worn then some (m.id, x.1, x.2, prim.1, prim.2)
      else match p.alternate m x.1 x.2 with
        | some alt => if (s.deck alt.1 alt.2).state ≠ .worn then some (m.id, x.1, x.2, alt.1, alt.2) else none
        | none => none
    let decks := found.map fun x => x.2.getD (8192, 8)
    let slow := !missing.isEmpty
    let tid := (bound.head?.map fun d => (s.deck d.1 d.2).takeId).getD 0
    let s := s.setBinding m.id { image := g.imageId, slow := slow, decks := decks, takeId := if slow then 0 else tid }
    let s := if slow then s.tierEvent true m.id g.imageId 0 else s
    let s := s.each bound fun s d => s.writeClapper d.1 d.2
    (s, targets)

/-- A full generation is complete for going live: manifest, placement file, master copies and attention records. -/
def liveable (s : State) (g : Gen) : Bool :=
  decide (g.baseId = 0) && g.placement.isSome && s.attnComplete g && (s.matsOf g).all (s.masterComplete g)

/-- After a cold start the first complete full generation becomes live without a cut (R153). -/
def tryLive (s : State) : State :=
  if s.liveGen.isSome then s
  else
    match s.weights.gens.find? s.liveable with
    | none => s
    | some g =>
      match g.placement with
      | none => s
      | some p =>
        let s := s.modGen g.imageId fun g => { g with live := true }
        let r := (p.mats.filter fun m => m.kind != 2).foldl (fun (acc : State × List (Nat × Nat × Nat × Nat × Nat)) m =>
          let x := acc.1.rebindMatrix g p m
          (x.1, acc.2 ++ x.2)) (s, [])
        let s := if r.2.isEmpty then r.1
          else r.1.firmwareTake g.imageId (distinct (r.2.map fun x => x.1)) none true r.2
        s.setReady 8

/-! ### Everything that follows from a change -/

/-- Entries of a newer placement file take effect at their matrix's batch boundary (R152). -/
def applyMats (s : State) : State :=
  s.each s.weights.gens fun s g =>
    let ready := g.nextMats.filter fun m => s.atBoundary m.id
    if ready.isEmpty then s
    else s.modGen g.imageId fun g => { g with
      nextMats := g.nextMats.filter fun m => !(ready.any fun r => r.id == m.id),
      placement := g.placement.map fun (p : Placement) => { p with
        mats := p.mats.map fun (m : Mat) => (ready.find? fun r => r.id == m.id).getD m } }

/-- A matrix goes to the slower tier at its batch boundary: a new placement file holds it in no tiles, and its decks are released
(R145, R152); or a bough of its decks has been withdrawn, and it keeps them (R321). -/
def applySlow (s : State) : State :=
  s.each (s.weights.slowDue.filter fun x => s.canSlow x.1) fun s x =>
    let decks := ((s.binding? x.1).map fun b => b.decks).getD []
    let s := (s.bindSlow x.1).modWeights fun w => { w with slowDue := w.slowDue.filter fun y => y != x }
    s.each (if x.2 then decks else []) fun s d => if s.deckBound d then s else s.emptyDeck d.1 d.2

/-- Takes, cuts and re-binding go on as far as the state allows. -/
def settle (s : State) : State :=
  let s := s.tryLive.applyMats.applySlow.armIdle
  let s := s.each (s.weights.takes.map fun t => t.id) settleTake
  s.tryCut

end State
end Sys2Proof.Machine
end

