-- ==== Sys2Proof/Machine/GapOps.lean ====
section
/-! DEFINITION. The shared operations of gap activities: reference sweeps (R35, R46), clapper phases (R309 to R311), the sampled
check (R25), repeats that wait (R314), recalibration runs that are requested (R123). -/

set_option Elab.async false

namespace Sys2Proof.Machine

/-! ### Reference sweeps -/

/-- Nominal codes of the reference columns (Table 02-10). -/
def refNominal (k : Nat) : Int := [96, 64, 32, 8, -8, -32, -64, -96].getD k 0

/-- The reference column that the converter of column `c` reads in sweep number `r` (R35). -/
def sweepRef (r c : Nat) : Nat := (2 * (c % 8 / 2 + r) + c % 2) % 8

/-- The value of largest magnitude. -/
def largest (xs : List Int) : Int := xs.foldl (fun a x => if a.natAbs < x.natAbs then x else a) 0

namespace State

/-- A code of a deck after correction steps 1 to 3 with the values applied now, 2^-16 LSB. -/
def corrected (s : State) (t d c : Nat) (code : Int) (colGain : Nat) : Int :=
  let x := s.tile t
  correctCode code (Tbl.get 0 (sliceIndex false c) x.offset) (Tbl.get 0x8000 (sliceIndex false c) x.gain) colGain (s.deck t d).drift

/-- Residuals of a sweep's codes, 2^-16 LSB; a reference column has no column gain of its own (log 12). -/
def sweepResiduals (s : State) (t d : Nat) (codes : List Int) : List Int :=
  let r := (s.deck t d).sweeps
  (codes.take 512).zipIdx.map fun x => s.corrected t d x.2 x.1 0x8000 - refNominal (sweepRef r x.2) * 65536

/-- The sweep leaves the drift budget (R46). -/
def sweepFails (s : State) (t d : Nat) (codes : List Int) : Bool := decide (32768 < (largest (s.sweepResiduals t d codes)).natAbs)

/-- A deck whose sampled check has passed, with fitted gains, leaves UNVERIFIED (R25, R131). -/
def tryVerified (s : State) (t d : Nat) : State :=
  let k := s.deck t d
  if k.unverified && k.sampled.1 && k.sampled.2 && k.fitted then s.modDeck t d fun k => { k with unverified := false } else s

/-- A reference sweep has ended: the residual is kept and tested (R46), and the sampled check goes on (R25). -/
def sweepDone (s : State) (t d : Nat) (codes : List Int) : State :=
  let bad := s.sweepFails t d codes
  let worst := Bits.roundHalfEven (largest (s.sweepResiduals t d codes)) 256
  let n := (s.deck t d).sweeps
  let s := s.modDeck t d fun k => { k with
    sweeps := (k.sweeps + 1) % 4, sweptAt := s.now, residual := worst, sampled := (true, k.sampled.2) }
  let s := if (s.bough (t / 64)).runOn then
      s.modBough (t / 64) fun b => { b with runSweeps := b.runSweeps ++ [(t, d, n, codes)] }
    else s
  if bad then (s.enterDrifted t d).tryVerified t d else s.tryVerified t d

/-! ### Suspects of a deck -/

/-- A step uses a unit now. -/
def useUnit (s : State) (w : WorkRef) (key : Nat) : State :=
  s.modStep w.call w.step fun x => { x with used := Tbl.update (0, 0) key (fun u => (u.1 + 1, s.now)) x.used }

/-- Products of a premium step, not yet committed, that used a unit since a tick become suspect (R311, R315): those that are
still kept one by one, the others by count. -/
def suspectUses (s : State) (key since : Nat) (bough : Option Nat) (isKey : Prod → Bool) : State :=
  let hit := s.steps.filter fun x => x.premium && decide (0 < (Tbl.get (0, 0) key x.used).1) &&
    decide (since ≤ (Tbl.get (0, 0) key x.used).2)
  s.each hit fun s x =>
    let kept := (s.prods.filter fun p => isKey p && p.key.work.call == x.call && p.key.work.step == x.step).map fun p => p.id
    let s := match bough with
      | some b => s.count (Ctr.suspectProducts b) ((Tbl.get (0, 0) key x.used).1 - kept.length)
      | none => s
    (s.each kept fun s i => s.suspectProd i).suspectStep x.call x.step

/-- Every product of a deck in a premium step not yet committed (Table 15-1). -/
def suspectDeck (s : State) (t d : Nat) : State :=
  s.suspectUses (8 * t + d) 0 (some (t / 64)) fun p => p.tile == t && p.deck == d

/-- A suspect goes to its tile's repeat; one that arrives while a repeat is pending is folded into the next (R314). -/
def queueRepeat (s : State) (t : Nat) (r : Repeat) : State :=
  s.modTile t fun x => if x.repeat_.isSome then { x with folded := x.folded ++ [r] } else { x with repeat_ := some r }

/-! ### Clapper phases -/

/-- Placed weight columns of a deck. -/
def placedColumns (s : State) (t d : Nat) : Nat :=
  match s.deckSource t d with
  | some x => min 512 (x.2.1.outputs - 512 * x.2.2.2)
  | none => 0

/-- The tolerance of R310 in 1/100 LSB. -/
def clapperTolerance (s : State) (t d : Nat) : Nat :=
  let b := boundOf (s.deck t d).format false 1 (s.hotColumn (t / 64))
  50 + b.1 + b.2

/-- (column, deviation in 2^-16 LSB) of a clapper phase's codes on a row half against the expectation (R310); a suspended
column is not judged, since it delivers no analogue value. -/
def clapperDeviations (s : State) (t d h : Nat) (codes : List Int) : List (Nat × Int) :=
  match s.deckSlot t d with
  | none => []
  | some x =>
    match clapOf x (s.deck t d).takeId with
    | none => []
    | some k =>
      let gone := (s.tile t).suspendedIn d
      ((codes.take (s.placedColumns t d)).zipIdx.filter fun y => !gone.contains y.2).map fun y =>
        (y.2, s.corrected t d y.2 y.1 (Tbl.get 0x8000 y.2 (s.deck t d).colGain) - clapExpect x k h y.2 * 65536)

/-- The failing columns of a clapper phase with their deviations. -/
def clapperFails (s : State) (t d h : Nat) (codes : List Int) : List (Nat × Int) :=
  (s.clapperDeviations t d h codes).filter fun y => decide (s.clapperTolerance t d * 65536 < 100 * y.2.natAbs)

/-- The deck has a clapper expectation. -/
def hasClapper (s : State) (t d : Nat) : Bool := ((s.deckSlot t d).bind fun x => clapOf x (s.deck t d).takeId).isSome

/-- A clapper phase has ended on the deck's next half: judged by R310, a mismatch handled by R311. -/
def clapperDone (s : State) (t d : Nat) (codes : List Int) (detector : Nat) : State :=
  let h := (s.deck t d).claps
  let fails := s.clapperFails t d h codes
  let s := (s.count (Ctr.clapperPhases t)).modDeck t d fun k => { k with claps := 1 - k.claps, clappedAt := s.now }
  if fails.isEmpty then (s.modDeck t d fun k => { k with sampled := (k.sampled.1, true) }).tryVerified t d
  else
    let s := (s.count (Ctr.clapperMismatch t)).modDaily fun x => { x with mismatches := x.mismatches + 1 }
    (s.suspectDeck t d).queueRepeat t
      { prod := none, deck := d, half := h, cols := fails.map fun y => y.1, detector := detector,
        deviation := Bits.roundHalfEven (largest (fails.map fun y => y.2)) 256, digit := 0 }

/-! ### Fit phases (Table 06-3, R125, R130) -/

/-- The placement file marks the deck for transposed use. -/
def fitRows (s : State) (t d : Nat) : Bool := (s.deckSource t d).any fun x => x.2.1.transposed

/-- Placed rows of a deck. -/
def placedRows (s : State) (t d : Nat) : Nat :=
  match s.deckSource t d with
  | some x => min 1024 (x.2.1.inputs - 1024 * x.2.2.1)
  | none => 0

/-- Add a phase's exact value `t` and corrected value `v` to an element's sums. -/
def addFit (x : FitSum) (t v : Int) : FitSum :=
  { x with tv := x.tv + t * v, vv := x.vv + (v * v).toNat, tt := x.tt + (t * t).toNat }

/-- A fit phase has ended: the vector at the next count of the deck's fit counter, on alternating row halves (DESIGN CHOICE, log 169); the
check unit forms the exact values from the master copy, and the placed columns that are not suspended, or the placed rows, gain
a term in their sums. -/
def fitPhase (s : State) (t d : Nat) (codes : List Int) (transposed : Bool) : State :=
  let s := s.count (Ctr.clapperPhases t)
  match s.deckSlot t d with
  | none => s
  | some x =>
    let k := s.deck t d
    let n := k.fitNo + 1
    let tile := s.tile t
    let v (j : Nat) : Int := correctCode (codes.getD j 0) (Tbl.get 0 (sliceIndex transposed j) tile.offset)
      (Tbl.get 0x8000 (sliceIndex transposed j) tile.gain) (Tbl.get 0x8000 j (if transposed then k.rowGain else k.colGain)) k.drift
    let exact (j : Nat) : Int :=
      128 * (if transposed then clapperRowSum x k.format k.takeId n j else clapperSum x k.format k.takeId n (k.fitNo % 2) j)
    let gone := tile.suspendedIn d
    let els := if transposed then List.range (s.placedRows t d) else (List.range (s.placedColumns t d)).filter fun j => !gone.contains j
    let sums (old : List FitSum) : List FitSum :=
      els.map fun j => addFit ((old.find? fun y => y.index == j).getD { index := j }) (exact j) (v j)
    s.modDeck t d fun k => { k with
      fitNo := n
      fit := if transposed then { k.fit with rows := sums k.fit.rows, transposed := k.fit.transposed + 1 }
        else { k.fit with cols := sums k.fit.cols, forward := k.fit.forward + 1 } }

/-- The deck has run the fit phases that a fit asks for: forward ones, and as many transposed ones where it is marked for them. -/
def fitComplete (s : State) (t d n : Nat) : Bool :=
  decide (n ≤ (s.deck t d).fit.forward) && (!s.fitRows t d || decide (n ≤ (s.deck t d).fit.transposed))

/-! ### Gaps (R36, R126) -/

/-- A deck that gap activities may read (R25, R123, R309). -/
def deckReadable (s : State) (t d : Nat) : Bool :=
  !s.tileGone t &&
  (decide ((s.deck t d).state = .ready) || decide ((s.deck t d).state = .live) || decide ((s.deck t d).state = .drifted))

/-- The tile has a gap, natural or forced, in which it can run a phase: no product phase and no program step waits (R36), and no
overflow pass holds the tile (R104). -/
def gap (s : State) (t : Nat) : Bool :=
  s.newWorkOpen && decide ((s.tile t).active = .idle) && !s.tileGone t && !(s.bough (t / 64)).withdrawn && !(s.tile t).held &&
  decide ((s.bough (t / 64)).ref = .ready) && ((s.tile t).forced || (s.nextProduct t).isNone) &&
  ((s.tile t).jobs.isEmpty || !s.progAllowed t) && s.affordable 0

/-- The run that a bough makes takes in a deck: one that can be read and has not been programmed in it (R123, R127). -/
def inRun (s : State) (t d : Nat) : Bool :=
  (s.bough (t / 64)).runOn && s.deckReadable t d && !(s.bough (t / 64)).runSkip.contains (8 * t + d)

/-- Sweeps of a deck in the run, in order: rotation position and codes. -/
def runSweepsOf (s : State) (t d : Nat) : List (Nat × List Int) :=
  ((s.bough (t / 64)).runSweeps.filter fun x => x.1 == t && x.2.1 == d).map fun x => x.2.2

/-- Fit phases that the deck still needs: 128 after programming and in its sampled check (R130, R131), 16 in a run (Table 06-3). A deck
whose master copy the HBM does not hold has no exact values and runs none (DESIGN CHOICE, log 169). -/
def fitWants (s : State) (t d : Nat) : Nat :=
  if !s.deckReadable t d || (s.deckSlot t d).isNone then 0
  else if !(s.deck t d).fitted then 128
  else if s.inRun t d then 16 else 0

/-- A fit phase of a deck waits. -/
def fitDue (s : State) (t d : Nat) (transposed : Bool) : Bool :=
  decide ((if transposed then (s.deck t d).fit.transposed else (s.deck t d).fit.forward) < s.fitWants t d) && (!transposed || s.fitRows t d)

/-- A reference sweep of a deck waits: one of a run (Table 06-3), its sampled check's (R25), or the routine sweep of a LIVE or DRIFTED deck, which must come
within 2^24 ticks and is asked for after half that time (R126; DESIGN CHOICE, log 154). -/
def sweepDue (s : State) (t d : Nat) : Bool :=
  s.deckReadable t d && (((s.deck t d).unverified && !(s.deck t d).sampled.1) || (s.inRun t d && decide ((s.runSweepsOf t d).length < 8)) ||
    (decide ((s.deck t d).state ≠ .ready) && decide ((s.deck t d).sweptAt + 2 ^ 23 ≤ s.now)))

/-- A clapper phase of a deck waits: a fit phase, its sampled check's, or the routine one of a LIVE or DRIFTED deck, which must come
within 2^28 ticks and is asked for after half that time (R309; DESIGN CHOICE, log 154). -/
def clapperDue (s : State) (t d : Nat) : Bool :=
  s.fitDue t d false || s.fitDue t d true ||
  s.deckReadable t d && (((s.deck t d).unverified && !(s.deck t d).sampled.2) ||
    (decide ((s.deck t d).state ≠ .ready) && decide ((s.deck t d).clappedAt + 2 ^ 27 ≤ s.now)))

/-- Some deck of the tile has an activity that waits. -/
def anyDeck (ok : Nat → Bool) : Bool := (List.range 8).any ok

/-- A gap phase closes an open switch of its bough first (R366). -/
def closeFor (s : State) (b : Nat) : State :=
  if (s.bough b).switch = .closed then s else (s.count (Ctr.boughWakeWaits b)).modBough b fun x => { x with switch := .closed }

/-- A gap phase has run: it was charged and counted, and a forced gap ends. -/
def gapPhase (s : State) (t : Nat) : State :=
  (((s.closeFor (t / 64)).count (Ctr.gapPhases t)).charge 0 (some (t / 64))).modTile t fun x =>
    { skewTile x with forced := false, gapAt := s.now }

/-! ### Recalibration runs that are requested (R123) -/

/-- A run starts on a bough. -/
def startRun (s : State) (b : Nat) : State :=
  let s := { s with tiles := Tbl.mapVals {} id (s.tiles.map fun (x : Nat × Tile) => if x.1 / 64 = b then
    (x.1, { x.2 with decks := Tbl.mapVals {} (fun (k : Deck) => if k.fitted then { k with fit := {} } else k) x.2.decks }) else x) }
  s.modBough b fun x => { x with
    runOn := true, runPending := false, runSum := 0, runCount := 0, runFrom := s.now, runSweeps := [], runSkip := [] }

/-- A run is requested: merged into a pending one, pending behind one in progress or a cold reference. -/
def requestRun (s : State) (b : Nat) : State :=
  let x := s.bough b
  if x.withdrawn then s
  else if x.runOn || decide (x.ref ≠ .ready) || !s.newWorkOpen then s.modBough b fun x => { x with runPending := true }
  else s.startRun b

/-- A cold reference starts to warm (R120). -/
def warmBough (s : State) (b : Nat) : State :=
  s.modBough b fun x => { x with ref := if x.ref = .cold then .warming s.now else x.ref }

end State
end Sys2Proof.Machine
end

