-- ==== Sys2Proof/Machine/MemOps.lean ====
section
/-! DEFINITION. The shared operations of HBM (14): the address space (R410), reading and writing bytes, lattice blocks as they are
read (R290, R291), correction buckets (R293), the merge buffer (R299). -/

set_option Elab.async false

namespace Sys2Proof.Machine

/-! ### The address space -/

/-- Data bytes of a stack: 48 GiB. -/
def stackBytes : Nat := 48 * 2 ^ 30

/-- Bytes of each stack below the KV region: 10.5 GiB (R410). -/
def lowBytes : Nat := 21 * 2 ^ 29

/-- Bytes of a frame (R160). -/
def frameBytes : Nat := 8704

/-- Address of a frame: stack * 48 GiB + offset. -/
def frameAddr (stack frame : Nat) : Nat := stack * stackBytes + lowBytes + frame * frameBytes

/-- The canonical form of the memory. -/
def Mem.wf (m : Mem) : Bool := Tbl.wf (0 : Byte) m.hbm

/-- A byte of HBM; what no write has listed reads 0 after the fill (R300). -/
def Mem.byte (m : Mem) (a : Nat) : Byte := Tbl.get 0 a m.hbm

/-- Write consecutive bytes. -/
def Mem.write (m : Mem) (a : Nat) (bs : Bytes) : Mem :=
  { m with hbm := bs.zipIdx.foldl (fun t x => Tbl.set 0 (a + x.2) x.1 t) m.hbm }

/-- Write zeros over a range. -/
def Mem.clear (m : Mem) (a n : Nat) : Mem := { m with hbm := m.hbm.filter fun c => !(decide (a ≤ c.1) && decide (c.1 < a + n)) }

namespace State

/-- The bank of an address within its stack (R293, R304): channel, pseudo-channel and bank in one number below 1,024. -/
def bankOf (s : State) (a : Nat) : Nat :=
  (Config.bankOf (Tbl.get 0 (a / stackBytes) s.mem.stackSeeds) (a % stackBytes)).val

/-- The channel of an address. -/
def channelOf (s : State) (a : Nat) : Nat := s.bankOf a / 32

/-- The merge buffer of a block: the one that holds it, which a REHASH in between leaves in its place (R306), or its channel's. -/
def mergeKey (s : State) (a : Nat) : Nat :=
  match s.mem.merge.find? fun (x : Nat × List Merge) => x.2.any fun e => e.block == a / 64 with
  | some x => x.1
  | none => a / stackBytes * 32 + s.channelOf (a / 64 * 64)

/-- A byte as a reader sees it: merge-buffer bytes over the stored block (R299). -/
def readByte (s : State) (a : Nat) : Byte :=
  let entries := Tbl.get [] (s.mergeKey a) s.mem.merge
  match entries.find? fun (e : Merge) => e.block == a / 64 && Tbl.has (a % 64) e.bytes with
  | some e => BitVec.ofNat 8 (Tbl.get 0 (a % 64) e.bytes)
  | none => s.mem.byte a

/-- `n` bytes from an address as a reader sees them. -/
def readBytes (s : State) (a n : Nat) : Bytes := (List.range n).map fun i => s.readByte (a + i)

end State

/-! ### Lattice blocks -/

/-- Set bits of a word. -/
def ones (w : BitVec 64) : Nat := ((List.range 64).filter fun i => w.getLsbD i).length

/-- Flipped bits of word `k` of a block as it is read. -/
def flipsAt (f : Flips) (k : Nat) : BitVec 64 := (f.word.filter fun x => x.1 == k).foldl (fun a x => a ^^^ x.2) 0

/-- The class of a block (Table 14-2), with what the correction inverts. -/
inductive BlockClass where
  | clean
  /-- bit `b` of word `k`; none when a check bit was wrong -/
  | corrected (bit : Option (Nat × Nat))
  | uncorrectable
deriving DecidableEq, Repr

/-- Rows whose parity fails: words 0 to 7, and 8 for the column parity word. -/
def failingRows (f : Flips) : List Nat :=
  ((List.range 8).filter fun k => (ones (flipsAt f k) + (if f.rowpar.getLsbD k then 1 else 0)) % 2 == 1) ++
  (if (ones f.colpar + (if f.cppar then 1 else 0)) % 2 = 1 then [8] else [])

/-- The column syndrome C. -/
def syndrome (f : Flips) : BitVec 64 := (List.range 8).foldl (fun c k => c ^^^ flipsAt f k) f.colpar

/-- R291. -/
def classify (f : Flips) : BlockClass :=
  let c := syndrome f
  match failingRows f with
  | [] => if c = 0 then .clean else .uncorrectable
  | [k] =>
    if c = 0 then .corrected none
    else if ones c = 1 then
      (if k ≤ 7 then .corrected (some (k, ((List.range 64).find? fun b => c.getLsbD b).getD 0)) else .corrected none)
    else .uncorrectable
  | _ => .uncorrectable

/-- What of word `k` is still wrong in the data delivered: nothing but in a pattern of three or more bad bits. -/
def deliveredFlips (f : Flips) (k : Nat) : BitVec 64 :=
  match classify f with
  | .corrected (some (j, b)) => if j = k then flipsAt f k ^^^ (1#64 <<< b) else flipsAt f k
  | _ => flipsAt f k

/-- A byte of a block as it is delivered. -/
def deliveredByte (f : Flips) (i : Nat) (v : Byte) : Byte := v ^^^ ((deliveredFlips f (i / 8)).extractLsb' (8 * (i % 8)) 8)

namespace State

/-! ### Correction buckets (R293) -/

/-- Take a unit's corrected block: the four most corrected of a bucket, most corrected first. -/
def topFour (l : List (Nat × Nat)) : List (Nat × Nat) := (sortBy (fun a b => decide (b.2 < a.2)) l).take 4

/-- Bytes 44 to 63 of MEM_CORR_OVF: four entries of a 32-bit block index and an 8-bit count. -/
def ovfFields (l : List (Nat × Nat)) : List (Nat × Nat × Nat) :=
  (topFour l).zipIdx.flatMap fun x => [(44 + 5 * x.2, 4, x.1.1), (48 + 5 * x.2, 1, min 255 x.1.2)]

/-- A store of lattice blocks (Table 14-6): 0 HBM, 1 die SRAM, 2 hub SRAM; its stack or die; its bank or macro. -/
structure StoreRef where
  store : Nat
  place : Nat
  part : Nat

/-- The region of a store (R293): the stacks' banks, then the dies' macros, then the hub's. -/
def StoreRef.region (r : StoreRef) : Nat :=
  if r.store = 0 then r.place * 1024 + r.part else 8192 + (if r.store = 1 then r.place * 640 else 2560) + r.part

/-- The unit field of a store's events. -/
def StoreRef.unit (r : StoreRef) : UnitField := if r.store = 0 then unitEngine (48 + r.place) else unitDie r.place

/-- The number of a store in the counters of its kind. -/
def StoreRef.scope (r : StoreRef) : Nat := if r.store = 2 then 0 else r.place

/-- The fields that name a store in its events. -/
def StoreRef.fields (r : StoreRef) : List (Nat × Nat × Nat) := [(40, 1, r.store), (41, 1, r.place), (42, 2, r.part)]

/-- The bank of an HBM address. -/
def bankRef (s : State) (a : Nat) : StoreRef := { store := 0, place := a / stackBytes, part := s.bankOf (a / 64 * 64) }

/-- One corrected block of a store: counted, and added to its region's bucket. -/
def correctedIn (s : State) (r : StoreRef) (idx : Nat) : State :=
  let b := Tbl.get {} r.region s.mem.buckets
  let addrs := if b.addrs.any (fun x => x.1 == idx) then b.addrs.map fun x => if x.1 == idx then (x.1, x.2 + 1) else x
    else b.addrs ++ [(idx, 1)]
  let s := s.count (Ctr.memCorr r.store r.scope)
  if s.regs.bucketCap.toNat < b.level + 1 then
    (s.modMem fun m => { m with buckets := Tbl.set {} r.region { b with level := 0, addrs := [] } m.buckets }).event
      { code := 0x0E01, unit := r.unit, own := own (r.fields ++ ovfFields addrs) }
  else
    let b := { b with level := b.level + 1, addrs := addrs, leakAt := if b.level = 0 then s.now else b.leakAt }
    s.modMem fun m => { m with buckets := Tbl.set {} r.region b m.buckets }

/-- MEM_UNCORR for a block of a store and a store class (R295). -/
def uncorrIn (s : State) (r : StoreRef) (block cls : Nat) : State :=
  (s.count (Ctr.memUncorr r.store r.scope)).event
    { code := 0x0E02, unit := r.unit, own := own (r.fields ++ [(44, 1, cls), (48, 8, block)]) }

/-- One corrected block of HBM at an address: counted, and added to its bank's bucket. -/
def corrected1 (s : State) (a : Nat) : State := s.correctedIn (s.bankRef a) (a % stackBytes / 64)

/-- MEM_UNCORR for an HBM block of a store class (R295). -/
def uncorrEvent (s : State) (a cls : Nat) : State := s.uncorrIn (s.bankRef a) (a / 64 * 64) cls

/-- A block of HBM of a store class is read with these flips: what the read itself does (R291, R307). -/
def noteRead (s : State) (a cls : Nat) (f : Flips) : State :=
  let s := if f.onDie then s.count (Ctr.hbmOndieCorr (a / stackBytes)) else s
  match classify f with
  | .clean => s
  | .corrected _ => s.corrected1 a
  | .uncorrectable => s.uncorrEvent a cls

/-- A block as it is delivered takes the stored block's place (R291): the read of a read-modify-write (R299), and what an engine
sees of a block it reads. -/
def rewriteDelivered (s : State) (block : Nat) (f : Flips) : State :=
  s.modMem fun m => (List.range 64).foldl (fun m i => m.write (block * 64 + i) [deliveredByte f i (m.byte (block * 64 + i))]) m

/-! ### SRAM (R302) -/

/-- The macro of an SRAM read. -/
def sramRef (r : SramRead) : StoreRef :=
  { store := if r.die < 4 then 1 else 2, place := r.die, part := r.macro_ }

/-- The corrected (word, bit) pair of a read: bit 64 stands for a word's parity bit; the check slot's column parity is no word of the
macro and makes no pair (DESIGN CHOICE, log 174). -/
def sramPair (r : SramRead) : Option (Nat × Nat) :=
  match classify r.flips with
  | .corrected (some (k, b)) => some (8 * r.block + k, b)
  | .corrected none => ((failingRows r.flips).find? fun k => decide (k < 8)).map fun k => (8 * r.block + k, 64)
  | _ => none

/-- A word of a macro is routed to a free spare, or the full table is reported once (R302). -/
def remapWord (s : State) (r : SramRead) (word : Nat) : State :=
  let ref := sramRef r
  let key := ref.region - 8192
  let used := (s.mem.remapped.filter fun x => x.1 == key).length
  if s.mem.remapped.contains (key, word) then s
  else if used < 8 then
    ((s.modMem fun m => { m with remapped := m.remapped ++ [(key, word)] }).count (Ctr.sramRemaps (ref.store - 1) ref.scope)).event
      { code := 0x0E05, unit := ref.unit, own := own [(40, 1, r.die), (42, 2, r.macro_), (44, 4, word), (48, 1, 7 - used)] }
  else if s.mem.remapFull.contains key then s
  else (s.modMem fun m => { m with remapFull := m.remapFull ++ [key] }).event
    { code := 0x0E06, unit := ref.unit, own := own [(40, 1, r.die), (42, 2, r.macro_)] }

/-- An SRAM block is read (R291, R302): a correction counts, and one that repeats in a word written in between makes the word hard; of an
uncorrectable transient block the words whose parity fails are remapped before the re-run (that the others are not is the model's choice,
log 174). -/
def noteSram (s : State) (r : SramRead) : State :=
  let ref := sramRef r
  let key := ref.region - 8192
  match classify r.flips with
  | .clean => s
  | .uncorrectable =>
    let s := s.uncorrIn ref (64 * r.block) r.cls
    if r.cls = 4 then s.each ((failingRows r.flips).filter fun k => decide (k < 8)) fun s k => s.remapWord r (8 * r.block + k) else s
  | .corrected _ =>
    let s := s.correctedIn ref r.block
    match sramPair r with
    | none => s
    | some p =>
      let held := Tbl.get [] key s.mem.lastPairs
      if held.contains p && r.written then s.remapWord r p.1
      else s.modMem fun m => { m with
        lastPairs := Tbl.set [] key (let l := (held.filter fun x => x != p) ++ [p]; l.drop (l.length - 4)) m.lastPairs }

/-! ### The merge buffer (R299) -/

/-- Store a full entry as a whole block. -/
def mergeStore (s : State) (e : Merge) : State :=
  s.modMem fun m => e.bytes.foldl (fun m x => m.write (e.block * 64 + x.1) [BitVec.ofNat 8 x.2]) m

/-- A merge-buffer entry leaves: written whole when its mask is full, otherwise merged into the block as read. -/
def mergeLeave (s : State) (e : Merge) : State :=
  let stack := e.block * 64 / stackBytes
  (s.mergeStore e).count (if e.bytes.length = 64 then Ctr.mergeWrites stack else Ctr.mergeRmw stack)

/-- A narrow write inside one block. -/
def narrowWrite (s : State) (a : Nat) (bs : Bytes) : State :=
  let key := s.mergeKey a
  let l := Tbl.get [] key s.mem.merge
  let put (e : Merge) : Merge :=
    { e with bytes := bs.zipIdx.foldl (fun t x => Tbl.insert ((a + x.2) % 64) x.1.toNat t) e.bytes, touched := s.now }
  match l.find? fun e => e.block == a / 64 with
  | some e =>
    let e' := put e
    if e'.bytes.length = 64 then
      (s.modMem fun m => { m with merge := Tbl.set [] key (l.filter fun x => x.block != a / 64) m.merge }).mergeLeave e'
    else s.modMem fun m => { m with merge := Tbl.set [] key (l.map fun x => if x.block == a / 64 then e' else x) m.merge }
  | none =>
    let e' := put { block := a / 64, bytes := [], touched := s.now }
    match l with
    | old :: rest =>
      if l.length = 32 then
        (s.modMem fun m => { m with merge := Tbl.set [] key (rest ++ [e']) m.merge }).mergeLeave old
      else s.modMem fun m => { m with merge := Tbl.set [] key (l ++ [e']) m.merge }
    | [] => s.modMem fun m => { m with merge := Tbl.set [] key [e'] m.merge }

/-- A write of whole blocks goes to memory; bytes of those blocks that wait in a merge buffer are older and are dropped. -/
def wideWrite (s : State) (a : Nat) (bs : Bytes) : State :=
  let hit (e : Merge) : Bool := decide (a / 64 ≤ e.block) && decide (e.block * 64 < a + bs.length)
  (s.modMem fun m => m.write a bs).modMem fun m =>
    { m with merge := Tbl.mapVals [] (fun (l : List Merge) => l.filter fun e => !hit e) m.merge }

/-! ### Ranges that hold something -/

/-- An allocated KV run overlaps a range of addresses on its stack. -/
def kvOverlaps (s : State) (a n : Nat) : Bool :=
  s.mem.runs.any fun r =>
    let base := frameAddr (r.1 / 2 ^ 32) (r.1 % 2 ^ 32)
    decide (base < a + n) && decide (a < base + r.2 * frameBytes)

end State
end Sys2Proof.Machine
end

