-- ==== Sys2Proof/Machine/ResetOps.lean ====
section
/-! DEFINITION. Drains (R84, R85) and resets (16, R262, R275, R351): what each scope clears and keeps, the steps of a start. -/

set_option Elab.async false

namespace Sys2Proof.Machine
namespace State

/-! ### Drains -/

/-- Boughs that have still to finish a granted product of a drain's scope. -/
def drainBoughs (s : State) (sc : DrainScope) : List Nat :=
  sortBy (fun a b => decide (a < b))
    (distinct ((s.prods.filter fun p => s.inScope sc p && s.keyGranted p.key && !p.summed).map fun p => p.tile / 64))

/-- The header of a vector whose product was withdrawn before its first phase (R84, Table 04-2). -/
def withdrawnHeader (s : State) (p : Prod) : Saved :=
  let e := s.call p.key.work.call
  { matrix := p.key.matrix, takeId := if p.mode = .analogue then ((s.keyMat p.key).map fun x => x.2.1.takeId).getD 0 else 0, tag := e.tag,
    step := p.key.work.step, colTile := p.key.colTile, token := p.key.work.token,
    exponent := ((s.mat? p.image p.key.matrix).map fun m => m.exponent).getD 0, retry := 0,
    aftus := (s.part e.partition).aftus, unbounded := p.unbounded, records := [], digest := 0 }

/-- The header of a product that waits for a placed transfer and so has no granted phase. -/
def waitingHeader (s : State) (r : ProductReq) : Saved :=
  let e := s.call r.key.work.call
  { matrix := r.key.matrix, takeId := ((s.keyMat r.key).map fun x => if x.2.1.slow then 0 else x.2.1.takeId).getD 0, tag := e.tag,
    step := r.key.work.step, colTile := r.key.colTile, token := r.key.work.token,
    exponent := ((s.keyMat r.key).map fun x => x.2.2.1.exponent).getD 0, retry := 0,
    aftus := (s.part e.partition).aftus, unbounded := false, records := [], digest := 0, needs := [(r.rowTile, r.needs)] }

/-- The digest of a saved vector: the first 4 bytes of SHAKE256 over the header's bytes 0 to 27 and the records (Table 04-2). A
transposed product's vector, of up to 1,024 records and with a key above the 16-bit column tile field, stands under one header too
(DESIGN CHOICE, log 163). -/
def sealSaved (v : Saved) : Saved :=
  let nf := v.records.any fun w => decide (w.toNat / 2 ^ 58 % 2 = 1)
  let sat := v.records.any fun w => decide (w.toNat / 2 ^ 59 % 2 = 1)
  let head := Bits.bytesOf 4 v.matrix ++ Bits.bytesOf 4 v.takeId ++ Bits.bytesOf 4 v.tag ++ Bits.bytesOf 4 v.step ++
    Bits.bytesOf 2 v.colTile ++ Bits.bytesOf 2 v.token ++ Bits.bytesOf 2 v.records.length ++
    Bits.bytesOf 2 (Bits.ofSigned v.exponent 10 + 2 ^ 10 * v.retry + (if v.aftus then 2 ^ 12 else 0)) ++
    Bits.bytesOf 1 ((if nf then 1 else 0) + (if sat then 2 else 0) + (if v.unbounded then 4 else 0)) ++ Bits.bytesOf 3 0
  let body := v.records.flatMap fun w => Bits.bytesOf 8 w.toNat
  { v with digest := BitVec.ofNat 32 (Bits.le (Shake.shake256 (head ++ body) 4) 0 4) }

/-- Add a vector to what its call has saved. -/
def saveVector (s : State) (c : Nat) (v : Saved) : State := s.modCall c fun e => { e with saved := e.saved ++ [sealSaved v] }

/-- A column tile's product is in the scope of a drain: one of its tiles' products is. -/
def keyInScope (s : State) (sc : DrainScope) (k : SumKey) : Bool := s.prods.any fun p => p.key == k && s.inScope sc p

/-- A request that waits for a placed transfer is in the scope of a drain by its call; it has reached no bough. -/
def waitInScope (s : State) (sc : DrainScope) (r : ProductReq) : Bool :=
  match sc with
  | .partition q => (s.call r.key.work.call).partition == q
  | .all => true
  | .bough _ => s.keyInScope sc r.key

/-- Save the headers of withdrawn products, one per column tile, with the transfers that its waiting row tiles need. -/
def saveHeaders (s : State) (gone : List Prod) (waits : List ProductReq) : State :=
  let heads := gone.foldl (fun (l : List Saved) p =>
    let h := s.withdrawnHeader p
    if l.any (fun q => q.matrix == h.matrix && q.tag == h.tag && q.step == h.step && q.colTile == h.colTile && q.token == h.token) then l
    else l ++ [h]) []
  let heads := waits.foldl (fun (l : List Saved) r =>
    let h := s.waitingHeader r
    let same (q : Saved) : Bool := q.matrix == h.matrix && q.tag == h.tag && q.step == h.step && q.colTile == h.colTile && q.token == h.token
    if l.any same then l.map fun q => if same q then { q with needs := q.needs ++ h.needs } else q else l ++ [h]) heads
  s.each heads fun s h => match s.calls.find? fun x => x.2.tag == h.tag && s.steps.any fun y => y.call == x.1 && y.step == h.step with
    | some x => s.saveVector x.1 h
    | none => s

/-- Products of a drain's scope that were issued and have no granted phase are withdrawn (R84); a partition reset saves nothing. -/
def withdraw (s : State) (sc : DrainScope) (why : DrainFor) : State :=
  let gone := s.prods.filter fun p => s.keyInScope sc p.key && !s.keyGranted p.key
  let waits := s.xferWaits.filter fun r => s.waitInScope sc r && !s.keyGranted r.key
  let ids := gone.map fun p => p.id
  let s1 := match why with
    | .partitionReset _ => s
    | _ => s.saveHeaders gone waits
  { s1 with
    prods := s1.prods.filter fun p => !ids.contains p.id
    xferWaits := s1.xferWaits.filter fun r => !waits.contains r
    tiles := Tbl.mapVals {} (fun t => { t with queue := t.queue.filter fun i => !ids.contains i }) s1.tiles
    boughs := Tbl.mapVals {} (fun b => { b with waiting := b.waiting.filter fun i => !ids.contains i }) s1.boughs }

/-- A drain is requested (R84). -/
def startDrain (s : State) (sc : DrainScope) (why : DrainFor) : State :=
  let s := s.withdraw sc why
  { s with drains := s.drains ++ [{ scope := sc, why := why, start := s.now, waiting := s.drainBoughs sc }] }

/-! ### Calibration save area (R127, R131) -/

/-- The correction parameters of a tile that the area keeps. -/
def calCopy (x y : Tile) : Tile :=
  { x with
    offset := y.offset, offsetTarget := y.offsetTarget, gain := y.gain, gainTarget := y.gainTarget, skew := y.skew,
    skewTarget := y.skewTarget,
    decks := (List.range 8).foldl (fun ds d =>
      let k := Tbl.get ({} : Deck) d y.decks
      Tbl.update {} d (fun z => { z with
        colGain := k.colGain, colTarget := k.colTarget, rowGain := k.rowGain, rowTarget := k.rowTarget, drift := k.drift,
        driftTarget := k.driftTarget }) ds) x.decks }

/-- Write a bough's part of the area. -/
def saveCal (s : State) (b : Nat) : State :=
  { s with calSave := Tbl.set {} b { temp := (s.bough b).calTemp, tiles := s.tiles.filter fun x => x.1 / 64 == b } s.calSave }

/-- Reload a bough's part of the area. -/
def loadCal (s : State) (b : Nat) : State :=
  let a := Tbl.get ({} : CalSave) b s.calSave
  (s.modBough b fun x => { x with calTemp := a.temp }).each a.tiles fun s x => s.modTile x.1 fun t => calCopy t x.2

/-! ### Programming that a reset interrupts (R26, R331) -/

/-- A run that starts again from row 0. -/
def rewind (j : ProgJob) : ProgJob :=
  { j with second := false, row := 0, resets := 0, iter := 0, failed := [], spares := [], cells := 0, started := false }

/-- A program pulse runs on a tile in scope. -/
def pulseRuns (s : State) (b : Option Nat) : Bool :=
  s.tiles.any fun x => decide (x.2.active = .progStep) && (b.isNone || b == some (x.1 / 64))

/-! ### Bough reset (R351) -/

/-- Checks of a bough that are dropped no longer hold their steps. -/
def dropChecks (s : State) (b : Nat) : State :=
  let ids := (s.bough b).checks
  let s := s.each ids fun s i =>
    match s.prod? i with
    | none => s
    | some p => s.modStep p.key.work.call p.key.work.step fun x => { x with checks := x.checks - 1 }
  ({ s with prods := s.prods.filter fun p => !(ids.contains p.id && p.summed) }).modBough b fun x => { x with checks := [] }

/-- Step 4 has ended: the RESET descriptors complete, RESET_DONE, a run is requested. -/
def boughResetDone (s : State) (b : Nat) : State :=
  let s := (s.completeAll (s.bough b).resetJobs .ok).modBough b fun x => { x with resetJobs := [] }
  ((s.count (Ctr.resetsBough b)).event { code := 0x0801, unit := unitBough b, own := own [(40, 1, 4)] }).requestRun b

/-- Steps 2 to 4 once the drain has ended and no pulse runs on the bough. -/
def boughReset (s : State) (b : Nat) : State :=
  let s := (s.dropChecks b).modBough b fun x => { x with
    runOn := false, runPending := false, ref := .cold, draining := false, switch := .closed }
  let s := { s with tiles := Tbl.mapVals {} id (s.tiles.map fun (x : Nat × Tile) =>
    if x.1 / 64 = b then (x.1, { x.2 with
        jobs := x.2.jobs.map rewind, owed := !x.2.jobs.isEmpty, owing := false, forced := false, held := false, repeat_ := none,
        folded := [] }) else x) }
  let s := s.loadCal b
  if (s.bough b).withdrawn then s.warmBough b else s.boughResetDone b

/-! ### Partition reset (R262) -/

/-- Step 5 to 7: once the completions and notices are written, the flush, RESET_DONE and the RESET completions. -/
def partResetFlush (s : State) (p : Nat) : State :=
  let x := s.part p
  if x.resetting && x.resetEnded && (s.ring (.cq p)).waiting.isEmpty && (s.ring (.cq p)).failed.isNone then
    let s := s.flushAll [.cq p, .tq p]
    let s := s.event { code := 0x0801, partition := some p, own := own [(40, 1, 3), (44, 4, x.resetCount)] }
    let s := s.completeAll x.resetJobs .ok
    (s.modPart p fun x => { x with resetting := false, resetEnded := false, resetJobs := [], resetCount := 0 }).noteStall p
  else s

/-- Steps 3 and 4, once the drain of the partition's calls has ended. -/
def partResetEnd (s : State) (p : Nat) : State :=
  let live := s.callsWhere fun e => e.partition == p && liveEntry e
  let held := s.callsWhere fun e => e.partition == p && decide (e.state = .held)
  let s := s.each live fun s c => s.endCall c .partitionReset none
  let s := s.each held fun s c =>
    let e := s.call c
    (((s.journal e [.ended e.partition e.tag Status.partitionReset.code s.chainBroken]).tellChain none
      (.ended e.partition e.tag Status.partitionReset.code)).releaseEntry c)
  (s.modPart p fun x => { x with resetEnded := true, resetCount := x.resetCount + live.length + held.length }).partResetFlush p

/-! ### What a warm reset clears (Table 16-2, R331, R343) -/

/-- Warm values of the registers: RW-L fields and those marked kept stay, unlocked (R333). -/
def warmRegs (r : Regs) : Regs :=
  { ({} : Regs) with
    verReq := r.verReq, verAck := r.verAck, ready := r.ready &&& 0b01000000001#11, boot := r.boot, ckmode := r.ckmode,
    posnV := r.posnV, posnCode := r.posnCode, lastFail := r.lastFail, chainPos := r.chainPos, side := r.side, paired := r.paired,
    refen := r.refen, kvLowMark := r.kvLowMark, partWeight := r.partWeight, bootAddress := r.bootAddress,
    bootLength := r.bootLength, mgmtVec := r.mgmtVec, kvRegion := r.kvRegion, saveRegion := r.saveRegion,
    graftStage := r.graftStage, ownerKey := r.ownerKey, ownerParts := r.ownerParts }

/-- A tile after a warm reset: its cells, records, remap table, trims and correction values stay; activities stop. -/
def warmTile (t : Tile) : Tile :=
  { t with
    active := .idle, queue := [], jobs := t.jobs.map rewind, owed := !t.jobs.isEmpty, owing := false, forced := false,
    held := false, repeat_ := none, folded := [] }

/-- A bough after a warm reset. -/
def warmBoughState (b : Bough) : Bough :=
  { b with
    ref := .cold, switch := .closed, runOn := false, runPending := false, runDone := false, checks := [], draining := false,
    waiting := [], testWaits := [] }

/-- The steps that a drain has saved: those of DRAINED calls, and every step once a drain of all calls has ended. -/
def savedSteps (s : State) : List Step :=
  let all := s.boot.warmJob.isSome && !(s.drains.any fun d => d.why == .warmReset)
  s.steps.filter fun x => x.discarded && (all || decide ((s.call x.call).state = .drained))

/-- Every other step in flight here is abandoned: its call's next step starts again from its start (R343, R347). -/
def abandonSteps (s : State) : State :=
  let kept := s.savedSteps
  let gone := s.steps.filter fun x => !kept.any fun y => y.call == x.call && y.step == x.step
  let cs := distinct (gone.map fun x => x.call)
  let s := if s.isFirst then s.count Ctr.resumeResteps gone.length else s
  let s := { s with
    steps := kept, batch := none, prods := [], sums := [],
    handoffs := s.handoffs.filter fun h => kept.any fun y => y.call == h.key.work.call && y.step == h.key.work.step,
    acts := s.acts.filter fun v => kept.any fun y => y.call == v.work.call && y.step == v.work.step, xferWaits := [], canopy := [], drains := [],
    backs := [], attnWaits := [], servedKv := [], servedAttn := [], latches := [], histos := [] }.freeOld
  { s with
    calls := Tbl.mapVals {} id (s.calls.map fun (x : Nat × Entry) =>
        if cs.contains x.1 && x.2.state == .running then (x.1, { x.2 with state := .ready, issuedPrompt := x.2.prefilled }) else x) }

/-- A warm reset takes effect: interrupts are flushed first (R247), memory and the AON domain stay. -/
def warmReset (s : State) (source : Nat) : State :=
  let s := s.flushAll (s.rings.map fun r => ringOf r.1)
  let s := s.abandonSteps
  { s with
    regs := warmRegs s.regs
    tiles := Tbl.mapVals {} warmTile s.tiles
    boughs := Tbl.mapVals {} warmBoughState s.boughs
    boot := { s.boot with
      phase := .heldWarm, source := source, heldReset := none, done := 0, failedStep := none,
      releasedAt := s.now, warmJob := none, dogPaused := false, dogAt := s.now }
    weights := s.weights
    mem := { s.mem with retireJobs := [], fillJobs := [], rehash := [], lastPairs := [] }
    sched := {}
    splitHead := none
    stage := []
    partner := { s.partner with serving := [], holdUntil := none }
    faults := { s.faults with
      resigned := false, slates := Tbl.mapVals {} (fun x => { x with startedAt := s.now, doneThisStart := false, failedOnce := false, overdue := false }) s.faults.slates }
    hk := { s.hk with busy := s.hk.busy.map fun c => { c with job := none } }
    power := { s.power with
      dstate := .d0, thermalFloor := 0, stepTo := none, pacerLevel := 2, account := 0, charged := 0,
      windowAt := s.now, idleSince := s.now, entry := none, wake := none, halved := false, policy := {} }
    sec := { s.sec with staging := none, queue := [], cutover := none } }

/-! ### What a cold reset clears -/

/-- A deck after a cold reset: its record, and UNVERIFIED where it shows READY, LIVE or DRIFTED (R25). -/
def coldDeck (k : Deck) : Deck :=
  { takeCount := k.takeCount, recAge := k.recAge, state := k.state, format := k.format, progTemp := k.progTemp,
    matrixId := k.matrixId, takeId := k.takeId, digest := k.digest,
    unverified := decide (k.state = .ready ∨ k.state = .live ∨ k.state = .drifted) }

/-- A tile after a cold reset: cells, records and remap table stay. -/
def coldTile (t : Tile) : Tile :=
  { mfgBad := t.mfgBad, retired := t.retired, decks := Tbl.mapVals {} coldDeck t.decks, remap := t.remap }

/-- What the deck records give the weights after a cold reset: take identifiers go on above the highest of them (R147), and a DRIFTED deck
waits for its re-take (R133; the order after a cold start is that of tile and deck, DESIGN CHOICE, log 170). -/
def coldWeights (tiles : Tbl Tile) : Weights :=
  let decks := tiles.flatMap fun x => x.2.decks.map fun d => ((x.1, d.1), d.2)
  { nextTake := (decks.map fun d => d.2.takeId).foldl max 0 + 1,
    drifted := (decks.filter fun d => decide (d.2.state = .drifted)).map fun d => d.1 }

/-- A cold reset takes effect: everything but the arrays, the fuses, the failed-start record and the pins returns to its cold
value; FENCE_OUT is deasserted (Table 16-2, R389). -/
def coldReset (s : State) (source : Nat) : State :=
  let tiles := Tbl.mapVals {} coldTile s.tiles
  { State.reset with
    pins := { s.pins with fenceOut := false, alertHot := false, alertRail := false, alertSafe := false }
    boot := { ({} : Boot) with
      phase := .heldCold, source := source, attempts := s.boot.attempts, failCodes := s.boot.failCodes,
      tripped := s.boot.tripped }
    regs := { ({} : Regs) with lastFail := s.regs.lastFail, refen := s.boot.tripped && s.regs.refen }
    tiles := tiles
    weights := coldWeights tiles
    hk := if s.boot.tripped then s.hk else {}
    sec := { ({} : Sec) with fusedSvn := s.sec.fusedSvn, revoked := s.sec.revoked, slotSeq := s.sec.slotSeq }
    links := if s.isolated then [(0, { state := .isolated }), (1, { state := .isolated }), (2, { state := .isolated }),
        (3, { state := .isolated })] else []
    free := s.free
    out := s.out
    pending := s.pending }

/-- A reset arrives (R329, R331): it is held until the program pulses in its scope have ended; a warm source during a cold
start restarts the cold start, and the widest of several held resets wins. -/
def resetArrives (s : State) (cold : Bool) (source : Nat) : State :=
  let cold := cold || decide (s.boot.phase = .coldStart)
  if s.pulseRuns none then
    match s.boot.heldReset with
    | some (true, _) => s
    | some (false, _) => if cold then s.modBoot fun b => { b with heldReset := some (true, source) } else s
    | none => s.modBoot fun b => { b with heldReset := some (cold, source) }
  else if cold then s.coldReset source
  else s.warmReset source

/-- A received flit of a type that the port carries on this channel (Table 13-5): accepted, acted on, acknowledged. One of whose words
the parity fails on the way to its consumer is not acted on: a warm reset, source 6 (R270). -/
def onFlit (s : State) (row : String) (hd : FlitHdr) (ports : List Port) (channels : List Nat) (act : State → State) : Result :=
  (if hd.torn then ((s.acceptFlit hd).acknowledge hd.port).resetArrives false 6
   else (act (s.acceptFlit hd)).acknowledge hd.port).when row
    (s.accepts hd && ports.contains hd.port && channels.contains hd.channel.toNat)

/-! ### Progress of a start (Tables 16-3, 16-5) -/

/-- Step code of step `n` of the running start. -/
def stepCode (s : State) (n : Nat) : Nat := if s.boot.phase = .warmStart then 0x20 + n else n

/-- Steps of the running start: 11 cold, 8 warm. -/
def stepCount (s : State) : Nat := if s.boot.phase = .warmStart then 8 else 11

def stepDone? (s : State) (n : Nat) : Bool := s.boot.done.getLsbD n

/-- BOOT_STATUS.STEP shows the first step that has not ended. -/
def showStep (s : State) : State :=
  let n := ((List.range (s.stepCount + 1)).drop 1).find? fun i => !s.stepDone? i
  s.modRegs fun r => { r with step := match n with
    | some i => if s.starting then BitVec.ofNat 8 (s.stepCode i) else 0
    | none => 0 }

/-- A step of the running start fails: START_FAIL acts on it (R348). -/
def stepFails (s : State) (n : Nat) : State := s.modBoot fun b => { b with failedStep := some (s.stepCode n) }

/-- START_DONE and the end of a start (R348, R352). -/
def startEnds (s : State) : State :=
  let kind := if s.boot.phase = .warmStart then 2 else 1
  let b := s.boot
  let s := s.modBoot fun b => { b with phase := .running, attempts := 0, lostJobs := [], releasedAt := 0 }
  let s := s.completeAll b.lostJobs .resetLost
  let s := s.event { code := 0x1001, own := own [(40, 1, kind), (41, 1, b.source), (42, 1, b.attempts),
    (43, 1, if b.attempts = 0 then 0 else b.failCodes.headD 0), (48, 8, s.now - b.releasedAt)] }
  s.modRegs fun r => { r with step := 0 }

/-- A step of the running start has ended. -/
def stepEnds (s : State) (n : Nat) : State :=
  let s := s.modBoot fun b => { b with done := b.done ||| (1#16 <<< n) }
  if s.starting && (List.range s.stepCount).all (fun i => s.stepDone? (i + 1)) then s.startEnds else s.showStep

/-- The units of Table 15-3: boughs, taproot pipes, canopy lanes, graft engine, matte and sampler unit, conversion engine. -/
def slateKey : SlateUnit → Nat
  | .bough b => b
  | .pipe e p => 128 + 2 * e + p
  | .lane l => 144 + l
  | .graft => 160
  | .matte => 161
  | .conversion => 162

/-- The engine (Table 11-13) and part of a unit with such a number; boughs have none. -/
def slatePart (k : Nat) : Nat × Nat :=
  if k < 144 then ((k - 128) / 2 + 1, k % 2) else if k < 160 then (0, k - 144) else (k - 144, 0)

/-- A unit that has been withdrawn (R321, R322). -/
def unitGone (s : State) (k : Nat) : Bool :=
  if k < 128 then (s.bough k).withdrawn else s.faults.withdrawnParts.contains (slatePart k)

/-- Every unit that is not withdrawn has run its slate of the start. -/
def slatesDone (s : State) : Bool :=
  (List.range 163).all fun k => s.unitGone k || (Tbl.get ({} : Slate) k s.faults.slates).doneThisStart

/-- The steps numbered 10 and W7 are complete: every bough that is not withdrawn has a warm reference and a completed run
(Table 16-4). -/
def calReady (s : State) : Bool :=
  (List.range 128).all fun b => (s.bough b).withdrawn || (decide ((s.bough b).ref = .ready) && (s.bough b).runDone)

/-- What follows where the calibration save area is not there, after a cold start or an uncorrectable lattice error in it (R131): no
calibration temperature, slice parameters from a zero read and injection reads, applied drift factors at their targets, gains that
the sampled check fits. -/
def coldCal (s : State) : State :=
  let s := s.each (List.range 128) fun s b => (s.modBough b fun x => { x with coldCal := true, calTemp := none }).driftTargets b
  { s with tiles := Tbl.mapVals {} (fun t => { t with
    decks := Tbl.mapVals {} (fun k =>
      let live := decide (k.state = .ready ∨ k.state = .live ∨ k.state = .drifted)
      { k with
        drift := k.driftTarget, fitted := k.fitted && !live, unverified := k.unverified || live, fit := {}, colGain := [], colTarget := [],
        rowGain := [], rowTarget := [], sampled := if live then (false, false) else k.sampled }) t.decks }) s.tiles }

/-- Warm every bough and request a run for each (Tables 16-3 and 16-5). -/
def startCal (s : State) : State :=
  s.each ((List.range 128).filter fun b => !(s.bough b).withdrawn) fun s b => (s.warmBough b).requestRun b

/-- The calibration step of a start starts once the steps it rests on have ended, and ends by `calReady`; after a wake from D2 the
bit alone returns (R371). -/
def calStep (s : State) : State :=
  let n := if s.boot.phase = .warmStart then 7 else 10
  if s.starting && s.stepDone? (n - 1) && !s.stepDone? n && s.calReady then
    let s := s.setReady 7
    let s := if s.boot.phase = .coldStart then s.setReady 10 else s
    s.stepEnds n
  else if s.running && !s.readyBit 7 && s.calReady then s.setReady 7
  else s

/-- Training of the four ports has finished, whatever its outcome, with DISCOVER exchanged on port U (step 8, W5, Table 13-8). -/
def linkStep (s : State) : State :=
  let n := if s.boot.phase = .warmStart then 5 else 8
  let s := if decide ((s.link .h).state = .up) || decide ((s.link .h).state = .degraded) then s.setReady 2 else s
  if s.starting && s.readyBit 1 && !s.stepDone? n && (s.boot.posKnown || !(s.link .u).carries) &&
      (List.range 4).all (fun p => (s.link (portOf p)).state != .training) then
    (s.setReady 3).stepEnds n
  else s

/-- A port goes DOWN. -/
def portLost (s : State) (p : Port) : State :=
  s.modLink p fun l => { l with state := .down, width := 0, downSince := some s.now }

/-- A port starts training (Table 13-8): nothing but the width and the lanes' marks is lost (R274). -/
def trainPort (s : State) (p : Port) : State :=
  if s.isolated then s
  else s.modLink p fun l => { l with state := .training, width := 0, group := 0, weak := 0, downSince := none }

/-- HB_HOLD to the partner (R275, R346, R372). -/
def sendHold (s : State) (ticks : Nat) (warm sleep : Bool) : State :=
  if s.regs.paired then s.send .t 0 (.hbHold ticks warm sleep) else s

end State
end Sys2Proof.Machine
end

