-- ==== Sys2Proof/Machine/WeightDesc.lean ====
section
/-! DEFINITION. The management descriptors of weights (07, 08, 02): manifests, chunks, placement files, attention records,
takes, cuts, release, deck reads. -/

set_option Elab.async false

namespace Sys2Proof.Machine

/-- The object of a LOAD descriptor, as read from the host. -/
def loadedObject (f : Sys2Proof.Fetch) : Bytes := Bits.slice f.buf 0 (Fetch.at f 16 8)

/-- LOAD_MANIFEST reads the manifest; its signature check queues (R136, R377). -/
def loadManifestEffect (f : Sys2Proof.Fetch) (j : Job) (s : State) : State :=
  if f.bufFault then s.complete j .hostFault
  else (s.start j).modSec fun x => { x with queue := x.queue ++ [.manifest (loadedObject f) (some j)] }

def execLoadManifest (f : Sys2Proof.Fetch) (s : State) : Result :=
  s.descriptor "LOAD_MANIFEST" (Instr.wf (.loadManifest f)) f (loadManifestEffect f)

/-- LOAD_CHUNK (R137, R139); result0 is the chunk's sequence (Table 11-10). -/
def loadChunkEffect (f : Sys2Proof.Fetch) (j : Job) (s : State) : State :=
  if f.bufFault then s.complete j .hostFault
  else
    let r := s.takeChunk (loadedObject f)
    r.2.completeWith j r.1 (chunkHdr (loadedObject f)).seq 0 none

def execLoadChunk (f : Sys2Proof.Fetch) (s : State) : Result :=
  s.descriptor "LOAD_CHUNK" (Instr.wf (.loadChunk f)) f (loadChunkEffect f)

/-- LOAD_PLACEMENT reads the file; its signature check queues, and R143, R144 and R412 follow it. -/
def loadPlacementEffect (f : Sys2Proof.Fetch) (j : Job) (s : State) : State :=
  if f.bufFault then s.complete j .hostFault
  else (s.start j).modSec fun x => { x with queue := x.queue ++ [.placement (loadedObject f) j] }

def execLoadPlacement (f : Sys2Proof.Fetch) (s : State) : Result :=
  s.descriptor "LOAD_PLACEMENT" (Instr.wf (.loadPlacement f)) f (loadPlacementEffect f)

/-! ### Attention records (Table 08-1, R156) -/

/-- Record `k` of an ATTN_SETUP array with its 16 bytes. -/
def attnRecord (b : Bytes) (k : Nat) : Attn × Bytes :=
  let o := 16 * k
  ({ layer := Bits.le b o 2, queryHeads := Bits.byteAt b (o + 2), kvHeads := Bits.byteAt b (o + 3),
     ropeBase := BitVec.ofNat 32 (Bits.le b (o + 4) 4), window := Bits.le b (o + 8) 4 }, Bits.slice b o 16)

/-- A field breaks Table 08-1, or query_heads is not a multiple of kv_heads. -/
def attnFieldsBad (r : Attn × Bytes) : Bool :=
  let a := r.1
  decide (a.queryHeads = 0) || decide (128 < a.queryHeads) || !([1, 2, 4, 8, 16].contains a.kvHeads) ||
  decide (0x7F800000 ≤ a.ropeBase.toNat) || !Bits.zeroAt r.2 12 4 || decide (a.queryHeads % a.kvHeads ≠ 0)

/-- The conditions of ATTN_BAD (R156). A record that has passed from a released base was inherited and does not count as the
generation's own. -/
def attnBad (s : State) (image count : Nat) (b : Bytes) : Bool :=
  match s.gen? image with
  | none => true
  | some g =>
    match s.placementOf g with
    | none => true
    | some p =>
      let rs := (List.range (min count (b.length / 16))).map (attnRecord b)
      decide (image = 0) || rs.any attnFieldsBad ||
      rs.any (fun r =>
        !((qkvOf p.mats r.1.layer).any fun m => m.outputs == (r.1.queryHeads + 2 * r.1.kvHeads) * 128) ||
        g.attn.any fun x => x.1.layer == r.1.layer && !g.attnPassed.contains r.1.layer) ||
      decide ((distinct (rs.map fun r => r.1.layer)).length ≠ rs.length)

def attnSetupEffect (f : Sys2Proof.Fetch) (j : Job) (s : State) : State :=
  let image := Fetch.at f 8 4
  let count := Fetch.at f 12 4
  if f.bufFault then s.complete j .hostFault
  else
    let b := Bits.slice f.buf 0 (16 * count)
    if attnBad s image count b then s.complete j .attnBad
    else
      let rs := (List.range count).map (attnRecord b)
      let named (l : Nat) : Bool := rs.any fun r => r.1.layer == l
      ((s.modGen image fun g => { g with
        attn := (g.attn.filter fun a => !named a.1.layer) ++ rs, attnPassed := g.attnPassed.filter fun l => !named l
        }).settle).complete j .ok

def execAttnSetup (f : Sys2Proof.Fetch) (s : State) : Result :=
  s.descriptor "ATTN_SETUP" (Instr.wf (.attnSetup f)) f (attnSetupEffect f)

/-! ### Takes and cuts (R147 to R150) -/

namespace State

/-- Matrices of host takes, those that a generation's chunks have added since included. -/
def hostTakeMats (s : State) : List Nat := (s.weights.takes.filter fun t => !t.firmware).flatMap s.takeNames

/-- Start a host take and bring it as far as it goes. -/
def hostTakeOf (s : State) (j : Job) (refresh : Bool) (image : Nat) (mats : List Nat) : State :=
  ((s.start j).addTake
    { id := 0, refresh := refresh, firmware := false, image := image, mats := mats, st := .loading, job := some j, inPlace := false,
      targets := [], left := 0, toSlow := [], toReturn := [], drift := none }).settle

end State

/-- TAKE in replacement mode; modes 0 and 3 and an image_id of zero give BAD_UNIT (Table 11-7). -/
def takeReplacementEffect (f : Sys2Proof.Fetch) (j : Job) (s : State) : State :=
  let image := Fetch.at f 12 4
  if Fetch.bits f 64 2 ≠ 1 ∨ image = 0 then s.complete j .badUnit
  else
    match s.gen? image with
    | none => s.complete j .takeAborted
    | some g =>
      let mats := sortBy (fun a b => decide (a < b)) ((s.supplied g).map fun m => m.id)
      if g.live then s.complete j .takeAborted
      else if (s.weights.takes.any fun t => !t.firmware && t.image == image) || s.hostTakeMats.any mats.contains then
        s.complete j .takeBusy
      else s.hostTakeOf j false image mats

def execTakeReplacement (f : Sys2Proof.Fetch) (s : State) : Result :=
  s.descriptor "TAKE_REPLACEMENT" (Instr.wf (.takeReplacement f)) f (takeReplacementEffect f)

/-- TAKE in refresh mode: the named matrices of the live generation (R150). -/
def takeRefreshEffect (f : Sys2Proof.Fetch) (j : Job) (s : State) : State :=
  let n := Fetch.at f 16 4
  if f.bufFault then s.complete j .hostFault
  else
    match s.liveGen with
    | none => s.complete j .badUnit
    | some g =>
      let ids := (List.range (min n (f.buf.length / 4))).map fun k => Bits.le f.buf (4 * k) 4
      let mats := sortBy (fun a b => decide (a < b)) (distinct ids)
      if mats.any fun m => (s.binding? m).isNone then s.complete j .badUnit
      else if mats.any s.hostTakeMats.contains then s.complete j .takeBusy
      else s.hostTakeOf j true g.imageId mats

def execTakeRefresh (f : Sys2Proof.Fetch) (s : State) : Result :=
  s.descriptor "TAKE_REFRESH" (Instr.wf (.takeRefresh f)) f (takeRefreshEffect f)

/-- CUT at position 0 (R148). -/
def cutEffect (f : Sys2Proof.Fetch) (j : Job) (s : State) : State :=
  let image := Fetch.at f 8 4
  if image = 0 ∨ s.isStaged image = false then s.complete j .takeAborted
  else ((s.start j).modWeights fun w => { w with cuts := w.cuts ++ [(j, image)] }).settle

def execCut (f : Sys2Proof.Fetch) (s : State) : Result := s.descriptor "CUT" (Instr.wf (.cut f)) f (cutEffect f)

/-! ### RELEASE_IMAGE (R142) -/

namespace State

/-- A matrix binding names the generation, or batches of an epoch that uses it are in flight. -/
def imageInUse (s : State) (image : Nat) : Bool :=
  s.weights.bindings.any (fun b => b.2.image == image) ||
  (s.weights.oldEpoch && s.weights.oldBindings.any fun b => b.2.image == image) || s.steps.any fun x => x.image == image

/-- A base's master copies pass to the generation that inherits them. -/
def inherit (s : State) (base : Gen) (heir : Gen) : State :=
  let takes (m : Nat) := !heir.allocated.contains m
  let emb := (s.matsOf base).any fun m => m.kind == 2 && takes m.id
  let s := s.modWeights fun w => { w with
    slots := w.slots.map fun (x : Slot) =>
      if x.key.image == base.imageId && takes x.key.matrix then { x with key := { x.key with image := heir.imageId } } else x,
    embedding := if emb then
        (w.embedding.filter fun r => r.1 / 2 ^ 32 == base.imageId).foldl (fun t r =>
          Tbl.set [] (heir.imageId * 2 ^ 32 + r.1 % 2 ^ 32) r.2 t) w.embedding
      else w.embedding }
  s.modGen heir.imageId fun g => { g with
    placement := g.placement.or base.placement,
    attn := g.attn ++ base.attn.filter (fun a => !(g.attn.any fun b => b.1.layer == a.1.layer)),
    attnPassed := g.attnPassed ++ (base.attn.map fun a => a.1.layer).filter (fun l => !(g.attn.any fun b => b.1.layer == l)),
    allocated := distinct (g.allocated ++ base.allocated), bases := base.manifest :: base.bases, baseId := 0 }

/-- CUTs that wait for a generation which is no longer resident complete (Table 07-9). -/
def cutsOf (s : State) (image : Nat) : State :=
  let gone := s.weights.cuts.filter fun x => x.2 == image
  (s.modWeights fun w => { w with cuts := w.cuts.filter fun x => x.2 != image }).each gone fun s x => s.complete x.1 .takeAborted

/-- Free a generation with its master copies. -/
def dropGen (s : State) (image : Nat) : State :=
  s.modWeights fun w => { w with
    gens := w.gens.filter fun g => g.imageId != image,
    slots := w.slots.filter fun x => x.key.image != image,
    embedding := w.embedding.filter fun r => r.1 / 2 ^ 32 != image,
    chunks := w.chunks.filter fun c => c.image != image }

end State

def releaseImageEffect (f : Sys2Proof.Fetch) (j : Job) (s : State) : State :=
  let image := Fetch.at f 8 4
  match s.gen? image with
  | none => s.complete j .manifestBad
  | some g =>
    if image = 0 then s.complete j .manifestBad
    else if s.imageInUse image then s.complete j .imageInUse
    else
      let s := s.each (s.weights.takes.filter fun t => t.image == image) fun s t => s.failTake t .takeAborted
      let s := s.each (s.weights.gens.filter fun x => x.baseId == image) fun s x => s.inherit g x
      ((s.dropGen image).cutsOf image).complete j .ok

def execReleaseImage (f : Sys2Proof.Fetch) (s : State) : Result :=
  s.descriptor "RELEASE_IMAGE" (Instr.wf (.releaseImage f)) f (releaseImageEffect f)

/-! ### DECK_READ (R27) -/

/-- The 96 bytes that DECK_READ writes. -/
def deckCopy (s : State) (t d : Nat) : Bytes :=
  if (s.tile t).mfgBad then List.replicate 14 0 ++ [7] ++ List.replicate 81 0
  else (s.deck t d).bytes true ++ ((List.range 16).map fun k => (Tbl.get ({} : Remap) k (s.tile t).remap).bytes).flatten

def deckReadEffect (f : Sys2Proof.Fetch) (j : Job) (s : State) : State :=
  let t := Fetch.at f 8 2
  let d := Fetch.bits f 80 4
  if 8192 ≤ t ∨ 8 ≤ d then s.complete j .badUnit
  else if f.bufFault then s.complete j .hostFault
  else (s.hostWrite (Fetch.at f 16 8) (deckCopy s t d)).complete j .ok

def execDeckRead (f : Sys2Proof.Fetch) (s : State) : Result :=
  s.descriptor "DECK_READ" (Instr.wf (.deckRead f)) f (deckReadEffect f)

end Sys2Proof.Machine
end

