-- ==== Sys2Proof/Machine/TuneOps.lean ====
section
/-! DEFINITION. What a tuning step works on (R176, R177, R213): the graft in training, the loss gradient, the column input vectors of
transposed products, the gradients of A and B and their update. -/

set_option Elab.async false

namespace Sys2Proof.Machine

/-- The value of element `i` of a block (Table 03-2). -/
def blockValue (b : Block) (i : Nat) : Fl :=
  if b.scale = 0 then .fin false 0 0
  else if b.scale = 255 then .nan
  else
    let c := b.codes.getD i 0
    .fin (decide (c < 0)) c.natAbs ((b.scale : Int) - 127)

/-! ### The graft in training -/

/-- Elements of a graft body: BF16 values of two bytes. -/
def bodyElems (b : Bytes) : Nat := b.length / 2

/-- Element `i` of a body. -/
def bodyElem (b : Bytes) (i : Nat) : F32 := F32.ofBF16 (BitVec.ofNat 16 (Bits.le b (2 * i) 2))

/-- The body of a graft as a tuning call uses it: the BF16 roundings of its master values, or, before the first update, as it was
registered. -/
def tunedBytes (t : Tune) (b : Bytes) : Bytes :=
  if t.master.isEmpty then b
  else (t.master.flatMap fun x => Bits.bytesOf 2 (F32.toBF16 x).toNat) ++ b.drop (2 * t.master.length)

/-- A graft as a call uses it: a tuning call has its own values of A and B. -/
def Entry.ownGraft (e : Entry) (g : Graft) : Graft :=
  match e.tune with
  | some t => { g with body := tunedBytes t g.body }
  | none => g

/-- Entry `k` of a row of BF16 values in a graft body. -/
def graftElem (g : Graft) (off k : Nat) : F32 := F32.ofBF16 (BitVec.ofNat 16 (Bits.le g.body (off + 2 * k) 2))

/-! ### The loss gradient (R213 stage 2) -/

/-- Whether token `t` of an example is a target: its bit in the bitmap behind the token ids (Table 11-6). -/
def exampleTarget (x : Nat × Bytes) (t : Nat) : Bool :=
  decide (t < x.1) && (Bits.byteAt x.2 (64 * Bits.ceilDiv (4 * x.1) 64 + t / 8)).testBit (t % 8)

/-- Token `t` of an example. -/
def exampleToken (x : Nat × Bytes) (t : Nat) : Nat := Bits.le x.2 (4 * t) 4

/-- The tokens whose logits enter the loss: a target at position `t` is predicted by the logits of the token before it, so a target at
position 0 has none (DEDUCED, log 166). -/
def lossTokens (x : Nat × Bytes) : List Nat := (List.range (x.1 - 1)).filter fun t => exampleTarget x (t + 1)

/-- The gradient of the mean cross-entropy over `n` targets with respect to one position's logits: softmax less the label's one, divided
by `n`, in binary32; sums run in ascending token id (DESIGN CHOICE, log 166). -/
def lossGradient (logits : List F32) (label n : Nat) : List F32 :=
  let mx := F32.maxOf F32.negInf logits
  let ws := logits.map fun v => F32.exp (F32.sub v mx)
  let tot := F32.sumFrom F32.zero ws
  ws.zipIdx.map fun w =>
    F32.div (F32.sub (F32.div w.1 tot) (if w.2 = label then F32.ofInt 1 else F32.zero)) (F32.ofInt n)

/-! ### Rotary encoding (R164) -/

/-- The rotated head vector of token `t`. -/
def rotate (base : F32) (t : Nat) (x : List F32) : List F32 :=
  if base = 0 then x
  else (List.range 64).flatMap fun j =>
    let a := x.getD (2 * j) 0
    let b := x.getD (2 * j + 1) 0
    let c := Config.ropeCos base j t
    let n := Config.ropeSin base j t
    [F32.sub (F32.mul a c) (F32.mul b n), F32.add (F32.mul a n) (F32.mul b c)]

/-- The rotation of a gradient undone: the transpose of `rotate` (R177). -/
def unrotate (base : F32) (t : Nat) (x : List F32) : List F32 :=
  if base = 0 then x
  else (List.range 64).flatMap fun j =>
    let a := x.getD (2 * j) 0
    let b := x.getD (2 * j + 1) 0
    let c := Config.ropeCos base j t
    let n := Config.ropeSin base j t
    [F32.add (F32.mul a c) (F32.mul b n), F32.sub (F32.mul b c) (F32.mul a n)]

namespace State

/-! ### Column input vectors of transposed products (R76, R213 stage 3) -/

/-- The example that a tuning call's running step uses (Table 11-6). -/
def tuneExample (t : Tune) : Option (Nat × Bytes) := t.examples[t.stepsDone % t.examples.length]?

/-- A gradient of a step. -/
def gradOf (x : Step) (part layer token head : Nat) : Option (List F32) :=
  (x.grads.find? fun g => g.part == part && g.layer == layer && g.token == token && g.head == head).map fun g => g.values

/-- The gradient of the LM head's outputs for a token: the loss gradient, or zero for a token whose logits do not enter the loss. -/
def headGradient (x : Step) (t : Tune) (m : Mat) (token : Nat) : Option (List F32) :=
  (tuneExample t).bind fun ex =>
    let ts := lossTokens ex
    if ts.contains token then
      (x.logits.find? fun l => l.1 == token).map fun l => lossGradient l.2 (exampleToken ex (token + 1)) ts.length
    else some (List.replicate m.outputs F32.zero)

/-- The gradient of a Q, K and V matrix's outputs for a token: dQ and dK with the rotation undone, and dV (R177). -/
def qkvGradient (x : Step) (r : Attn) (layer token : Nat) : Option (List F32) :=
  let part (p n : Nat) (f : List F32 → List F32) : List (Option (List F32)) :=
    (List.range n).map fun h => (gradOf x p layer token h).map f
  let rot := unrotate r.ropeBase (x.first + token)
  let all := part 0 r.queryHeads rot ++ part 1 r.kvHeads rot ++ part 2 r.kvHeads id
  if all.all fun v => v.isSome then some ((all.filterMap id).flatten) else none

/-- The gradient vector that came upstream for a token, decoded. -/
def relayGradient (x : Step) (m : Mat) (token : Nat) : Option (List F32) :=
  (x.backIn.find? fun i => i.token == token).map fun i =>
    (List.range m.outputs).map fun o => match i.blocks[o / 32]? with
      | some b => F32.enc (blockValue b (o % 32))
      | none => F32.zero

/-- The matrices of a generation on this position. -/
def imageMats (s : State) (image : Nat) : List Mat := ((s.gen? image).map s.matsOf).getD []

/-- The device forms the column input vector of these matrices itself: the LM head's, that of Q, K and V, and that of a matrix whose
output goes to the next position. Every other matrix's is its special-function unit's. -/
def formsColumn (mats : List Mat) (m : Mat) : Bool := m.kind == 1 || (m.kind == 0 && (m.isQkv mats || m.destKind == 4))

/-- The column input vector of a transposed product, where it has been formed or what forms it is there. -/
def columnVec (s : State) (w : WorkRef) (m : Mat) : Option (List F32) :=
  match s.step? w.call w.step, (s.call w.call).tune with
  | some x, some t =>
    match gradOf x 3 m.id w.token 0 with
    | some v => some v
    | none =>
      if m.kind = 1 then headGradient x t m w.token
      else if m.kind = 0 ∧ m.destKind = 4 then relayGradient x m w.token
      else if m.kind = 0 ∧ m.isQkv (s.imageMats x.image) = true then
        (((s.gen? x.image).bind fun g => s.attnFor g m.layer).bind fun r => qkvGradient x r m.layer w.token)
      else none
  | _, _ => none

/-- A column input vector is kept with its step. -/
def keepColumn (s : State) (w : WorkRef) (m : Mat) (v : List F32) : State :=
  s.modStep w.call w.step fun x => if (gradOf x 3 m.id w.token 0).isSome then x
    else { x with grads := x.grads ++ [{ part := 3, layer := m.id, token := w.token, head := 0, values := v }] }

end State

/-! ### Gradients of A and B, and their update (R213) -/

/-- Sum of products, from +0, in ascending order. -/
def dotF32 (a b : List F32) : F32 := F32.sumFrom F32.zero ((a.zip b).map fun x => F32.mul x.1 x.2)

/-- What one token adds to the gradients of a matrix's A and B: its input vector in BF16, and the gradient of the graft term before its
scale, which is α times the gradient of the matrix's outputs (DEDUCED, log 166). -/
structure TokenGrad where
  input : List F32
  output : List F32

/-- Element `i` of a body's gradient from one matrix entry: x̄ᵀ·(ḡ·Bᵀ) in the body of A and (x̄·A)ᵀ·ḡ in that of B, accumulated in
ascending token order; none outside the entry's bodies. -/
def bodyGradient (g : Graft) (m : Mat) (ao bo : Nat) (ts : List TokenGrad) (i : Nat) : Option F32 :=
  let r := g.rank
  let a (k j : Nat) : F32 := graftElem g ao (k * r + j)
  let b (j o : Nat) : F32 := graftElem g bo (j * m.outputs + o)
  if ao / 2 ≤ i ∧ i < ao / 2 + m.inputs * r then
    let k := (i - ao / 2) / r
    let j := (i - ao / 2) % r
    some (F32.sumFrom F32.zero (ts.map fun t =>
      F32.mul (t.input.getD k 0) (dotF32 t.output ((List.range m.outputs).map fun o => b j o))))
  else if bo / 2 ≤ i ∧ i < bo / 2 + r * m.outputs then
    let j := (i - bo / 2) / m.outputs
    let o := (i - bo / 2) % m.outputs
    some (F32.sumFrom F32.zero (ts.map fun t =>
      F32.mul (dotF32 t.input ((List.range m.inputs).map fun k => a k j)) (t.output.getD o 0)))
  else none

/-- One element's update by Adam with bias correction: moments, then the master value (R213; the order of the operations is the
model's, log 166). -/
def adamStep (p : TuneParams) (pw : F32 × F32) (w m1 m2 g : F32) : F32 × F32 × F32 :=
  let one : F32 := F32.ofInt 1
  let m1 := F32.add (F32.mul p.beta1 m1) (F32.mul (F32.sub one p.beta1) g)
  let m2 := F32.add (F32.mul p.beta2 m2) (F32.mul (F32.sub one p.beta2) (F32.mul g g))
  let mh := F32.div m1 (F32.sub one pw.1)
  let vh := F32.div m2 (F32.sub one pw.2)
  (F32.sub w (F32.mul p.lr (F32.div mh (F32.add (F32.sqrt vh) p.eps))), m1, m2)

/-- The update of a tuning step: every element that a gradient reaches; the others keep their values. -/
def adamUpdate (t : Tune) (body : Bytes) (grad : Nat → Option F32) : Tune :=
  let n := bodyElems body
  let pw := (F32.mul t.powers.1 t.params.beta1, F32.mul t.powers.2 t.params.beta2)
  let rows := (List.range n).map fun i =>
    let w := if t.master.isEmpty then bodyElem body i else t.master.getD i 0
    match grad i with
    | some g => adamStep t.params pw w (t.moment1.getD i 0) (t.moment2.getD i 0) g
    | none => (w, t.moment1.getD i 0, t.moment2.getD i 0)
  { t with master := rows.map fun x => x.1, moment1 := rows.map fun x => x.2.1, moment2 := rows.map fun x => x.2.2, powers := pw }

end Sys2Proof.Machine
end

