-- ==== Sys2Proof/Machine/Products.lean ====
section
/-! DEFINITION. Products (R28 to R33, R62, R63, R73 to R76, R94 to R113): drive spans, phase plans, terms, outliers, checks. -/

set_option Elab.async false

namespace Sys2Proof.Machine

/-! ### The block quantiser (R59 to R61) -/

/-- The smallest integer `e` with `q * 2^e` at least `m * 2^x`, for `m > 0`. -/
def blockExponent (q m : Nat) (x : Int) : Int :=
  let k := Fl.log2Ratio m q + x
  let enough : Bool := if k ≤ x then decide (m * 2 ^ (x - k).toNat ≤ q) else decide (m ≤ q * 2 ^ (k - x).toNat)
  if enough then k else k + 1

/-- R59: a block of values with `q` 7 or 127. -/
def quantiseBlock (q : Nat) (xs : List Fl) : Block :=
  let none' : Block := { scale := 0, codes := xs.map fun _ => 0 }
  if xs.any (fun x => !x.isFin) then { none' with scale := 255 }
  else
    match xs.foldl (fun m w => if magLt m w then w else m) (.fin false 0 0) with
    | .fin _ m x =>
      if m = 0 then none'
      else
        let e := max (blockExponent q m x) (-126)
        if 127 < e then { none' with scale := 255 }
        else
          let cs := xs.map fun w => quotientCode w (.fin false 1 e)
          if cs.all (fun c => c == 0) then none' else { scale := (e + 127).toNat, codes := cs }
    | _ => none'

/-- A vector cut into blocks of 32, the last filled with zeros. -/
def quantiseVector (q : Nat) (xs : List F32) : List Block :=
  (List.range (Bits.ceilDiv xs.length 32)).map fun k =>
    quantiseBlock q ((List.range 32).map fun i => F32.dec (xs.getD (32 * k + i) 0))

/-! ### Drive spans (R62) -/

/-- A normal scale code. -/
def normalScale (b : Block) : Bool := decide (0 < b.scale) && decide (b.scale < 255)

/-- The drive code: the largest normal scale code of the span. -/
def spanDrive (bs : List Block) : Nat := bs.foldl (fun m b => if normalScale b then max m b.scale else m) 0

/-- The aligned codes of the span. -/
def spanCodes (bs : List Block) : List Int :=
  let d := spanDrive bs
  bs.flatMap fun b => b.codes.map fun c => if normalScale b then Bits.roundHalfEven c (2 ^ (d - b.scale)) else 0

/-- Blocks that alignment shifts. -/
def shiftedBlocks (bs : List Block) : Nat := (bs.filter fun b => normalScale b && decide (b.scale < spanDrive bs)).length

/-- Non-finite blocks of the span (R63). -/
def nonfiniteBlocks (bs : List Block) : Nat := (bs.filter fun b => b.scale == 255).length

/-- Elements of a drive span: 1,024 inputs of a row tile, or 512 of a column tile for a transposed product. -/
def spanWidth (transposed : Bool) : Nat := if transposed then 512 else 1024

/-- The blocks of a vector's drive span. -/
def ActVec.span (v : ActVec) (i : Nat) : List Block :=
  let n := spanWidth v.transposed.isSome / 32
  (v.blocks.drop (n * i)).take n

/-- The outliers of a vector's drive span, by row, ascending (R101). -/
def ActVec.spanOutliers (v : ActVec) (i : Nat) : List (Nat × F32) :=
  let n := spanWidth v.transposed.isSome
  (v.outliers.filter fun x => decide (n * i ≤ x.1) && decide (x.1 < n * (i + 1))).map fun x => (x.1 - n * i, x.2)

/-- The row tile of a transposed request's outputs. -/
def vecRow (r : ProductReq) : Option Nat := if r.transposed then some (r.key.colTile - 65536) else none

/-! ### Reads of master slots (R291, R296) -/

/-- A slot with bits inverted in some of its bytes. -/
def Slot.patched (x : Slot) (w : List (Nat × Byte)) : Slot :=
  { x with bytes := w.foldl (fun t y => Tbl.set 0 y.1 (Tbl.get 0 y.1 t ^^^ y.2) t) x.bytes }

/-- One of the two copies can be delivered (R296). -/
def readOk (r : BlockRead) : Bool := decide (classify r.first ≠ .uncorrectable) || decide (classify r.second ≠ .uncorrectable)

/-- Bits of the slot that a read delivers wrong: none but for a miscorrected pattern of three or more bits (R291). -/
def readWrong (r : BlockRead) : List (Nat × Byte) :=
  let f := if classify r.first = .uncorrectable then r.second else r.first
  (List.range 64).filterMap fun i =>
    let b := deliveredByte f i 0
    if b = 0 then none else some (64 * r.block + i, b)

/-- What several reads deliver wrong. -/
def wrongOf (reads : List BlockRead) : List (Nat × Byte) := reads.flatMap readWrong

/-- The part of wrong bits that lies in some weight columns (two codes share a byte, R51). -/
def columnBits (cs : List Nat) (w : List (Nat × Byte)) : List (Nat × Byte) :=
  w.filterMap fun y =>
    let c := y.1 % 256 * 2
    let b := (if cs.contains c then y.2 &&& 0x0F else 0) ||| (if cs.contains (c + 1) then y.2 &&& 0xF0 else 0)
    if b = 0 then none else some (y.1, b)

/-- The part of wrong bits that lies in the codes of a product's outputs: weight columns, and rows of a transposed product. -/
def outputBits (p : Prod) (js : List Nat) (w : List (Nat × Byte)) : List (Nat × Byte) :=
  if p.transposed then w.filter fun y => js.contains (y.1 / 256) else columnBits js w

/-- A block of the slot belongs to the read of an entry of the product's in-line list: a master row, the column of a transposed
product's input, or a suspended column (numbered from 1,024). -/
def Prod.readsBlock (p : Prod) (i b : Nat) : Bool :=
  if !p.transposed && decide (i < 1024) then b / 4 == i else decide (b < 4096) && b % 4 == i % 1024 / 128

/-- A block belongs to the product's pass: its overflow rows' and its clipped columns' (R104, R106). -/
def Prod.passReads (p : Prod) (b : Nat) : Bool :=
  decide (b < 4096) && ((p.overflow.any fun r => p.readsBlock r.1 b) ||
    p.clipped.any fun j => if p.transposed then b / 4 == j else b % 4 == j / 128)

/-! ### Phase plans (R28 to R30, R82) -/

/-- The aligned codes of an attempt: halved `retry` times (R82). -/
def Prod.attempt (p : Prod) : List Int := p.codes.map fun c => Bits.roundHalfEven c (2 ^ p.retry)

/-- Output elements of a product. -/
def Prod.outputs (p : Prod) : Nat := if p.transposed then 1024 else 512

/-- Digits, plan and totals of an attempt; on the slower tier, and with a non-finite block, no phase runs. -/
def Prod.prepare (p : Prod) : Prod :=
  let cs := p.attempt
  let hi := if p.a8 then cs.map highDigit else []
  let lo := if p.a8 then cs.map lowDigit else cs
  let ph := digitPlan true p.transposed hi
  let pl := digitPlan false p.transposed lo
  let quiet := decide (p.mode = .slow) || p.nonfinite
  { p with
    high := hi, low := lo, plan := if quiet then [] else ph ++ pl, planned := (ph.length, pl.length),
    zeroInput := cs.all fun c => c == 0, hiVal := List.replicate p.outputs 0, loVal := List.replicate p.outputs 0, clipped := [],
    latched := false, passNeeded := false, summed := false, susp := [], waited := false, wrong := columnBits p.suspended p.wrong }

/-- The (row tile, column tile) pair of a product's deck; a transposed product sums over column tiles into the outputs of a row
tile, numbered from 65,536 in its key. -/
def Prod.pair (p : Prod) : Nat × Nat := if p.transposed then (p.key.colTile - 65536, p.rowTile) else (p.rowTile, p.key.colTile)

/-! ### Terms (R74, R75, R102) -/

/-- `n * 2^x` as a mantissa of exponent `E`, rounded once, ties to even. -/
def termMantissa (n : Int) (x E : Int) : Int :=
  if E ≤ x then n * ((2 ^ (x - E).toNat : Nat) : Int) else Bits.roundHalfEven n (2 ^ (E - x).toNat)

def termOf (n : Int) (x E : Int) : Acc := Acc.ofMantissa (termMantissa n x E)

/-- A finite group scale: magnitude and exponent; a transposed product has its scales in its input (R76). -/
def groupScale (x : Slot) (transposed : Bool) (j : Nat) : Nat × Int :=
  if transposed then (1, 0)
  else match Fl.decode Fl.f16 (x.scale (j / 64)) with
    | .fin _ m e => (m, e)
    | _ => (0, 0)

/-- The weight code between input `i` and output `j` of a product. -/
def prodCode (x : Slot) (transposed : Bool) (i j : Nat) : Int := if transposed then x.code j i else x.code i j

/-- Sum of digit times weight code over the inputs. -/
def digitSum (x : Slot) (transposed : Bool) (ds : List Int) (j : Nat) : Int :=
  (ds.zipIdx.map fun d => if d.1 = 0 then 0 else d.1 * prodCode x transposed d.2 j).sum

namespace State

/-- The slot of a product's pair, as its reads delivered it. -/
def prodSlot (s : State) (p : Prod) : Slot :=
  ((s.slotFor p.image p.key.matrix p.pair.1 p.pair.2).getD
    { key := { image := p.image, matrix := p.key.matrix, rowTile := p.pair.1, colTile := p.pair.2 }, bytes := [], groups := [] }).patched
    p.wrong

/-- The exponent of a product's matrix. -/
def prodExponent (s : State) (p : Prod) : Int := ((s.mat? p.image p.key.matrix).map fun m => m.exponent).getD 0

end State

/-- The digital term of an output (R75). -/
def digitalTerm (p : Prod) (x : Slot) (E : Int) (j : Nat) : Acc :=
  let g := groupScale x p.transposed j
  termOf (digitSum x p.transposed p.attempt j * (g.1 : Int)) ((p.drive : Int) - 127 + g.2) E

/-- The contribution of suspended columns to a row of a transposed product (R41), in weight units times digits. -/
def suspendedSum (p : Prod) (x : Slot) (j : Nat) : Int :=
  if p.transposed then (p.suspended.map fun c => p.attempt.getD c 0 * x.code j c).sum else 0

/-- The analogue term of an output (R74): totals in 2^-16 output LSB. -/
def analogueTerm (p : Prod) (x : Slot) (E : Int) (j : Nat) : Acc :=
  let g := groupScale x p.transposed j
  let t := (if p.a8 then 16 * p.hiVal.getD j 0 + p.loVal.getD j 0 else p.loVal.getD j 0) * ((512 / levelUnits p.format : Nat) : Int)
  termOf ((t + 65536 * suspendedSum p x j) * (g.1 : Int)) ((p.drive : Int) - 127 - 16 + g.2) E

/-- Whether an output's term is digital (R75, R107). -/
def Prod.isDigital (p : Prod) (j : Nat) : Bool :=
  decide (p.mode ≠ .analogue) || p.clipped.contains j || (!p.transposed && p.suspended.contains j)

/-- The term of an output. -/
def prodTerm (p : Prod) (x : Slot) (E : Int) (j : Nat) : Acc :=
  if p.nonfinite then Acc.nan
  else if p.zeroInput then Acc.zero
  else if p.isDigital j then digitalTerm p x E j
  else analogueTerm p x E j

/-- The outlier term of an output (R102), scaled by a retry (R82). -/
def outlierTerm (p : Prod) (E : Int) (j : Nat) : Acc :=
  match p.outNf.getD j none with
  | some a => a
  | none => termOf (p.outSum.getD j 0) (-173 - (p.retry : Int)) E

/-- One outlier row multiplied against every output of the deck (R102). -/
def addOutlier (p : Prod) (x : Slot) (i : Nat) (v : F32) : Prod :=
  let old (j : Nat) := p.outNf.getD j none
  let w (j : Nat) := prodCode x p.transposed i j
  let sum (j : Nat) : Int := p.outSum.getD j 0 + (match F32.dec v with
    | .fin neg m e =>
      let g := groupScale x p.transposed j
      (if neg then -1 else 1) * ((m * g.1 * 2 ^ (e + g.2 + 173).toNat : Nat) : Int) * w j
    | _ => 0)
  let nf (j : Nat) : Option Acc :=
    match F32.dec v with
    | .inf neg =>
      let a := if w j = 0 ∨ (groupScale x p.transposed j).1 = 0 then Acc.nan
        else Acc.infinity (neg != decide (w j < 0)) false
      some (match old j with
        | some b => Acc.addNonFinite b a
        | none => a)
    | _ => old j
  { p with outSum := (List.range p.outputs).map sum, outNf := (List.range p.outputs).map nf }

/-- Every term of the product is valid: its phases, in-line and suspended reads, and pass are over. -/
def Prod.ready (p : Prod) : Bool := p.plan.isEmpty && p.inline.isEmpty && p.susp.isEmpty && !p.passNeeded

namespace State

/-- The product's terms are valid and its tile has ended its last phase. -/
def termsReady (s : State) (p : Prod) : Bool := p.ready && decide ((s.tile p.tile).active ≠ .product p.id)

/-! ### Events of products -/

/-- An event that names a product's work. -/
def workEvent (s : State) (w : WorkRef) (matrix code : Nat) (u : UnitField) (own' : Bytes) : State :=
  let e := s.call w.call
  s.event { code := code, unit := u, matrix := matrix, call := e.tag, step := w.step % 2 ^ 32,
            partition := if e.state = .free then none else some e.partition,
            image := ((s.step? w.call w.step).map fun x => x.image).getD 0, own := own' }

/-! ### Continuity comparison (R110, R111) -/

/-- Deviation of an output's total at a digit position from the exact value, in 2^-16 output LSB. -/
def deviation (p : Prod) (x : Slot) (high : Bool) (j : Nat) : Int :=
  let ds := if high then p.high else p.low
  let ds := if p.transposed then ds.zipIdx.map fun d => if p.suspended.contains d.2 then 0 else d.1 else ds
  let v := if high then p.hiVal else p.loVal
  v.getD j 0 - 128 * (levelUnits p.format : Int) * digitSum x p.transposed ds j

/-- The bound of a digit position in 1/100 output LSB. -/
def digitBound (p : Prod) (high : Bool) : Nat :=
  let b := boundOf p.format p.transposed (if high then p.planned.1 else p.planned.2) p.hot
  b.1 + b.2

/-- Outputs checked with their deviations: (output, high digit?, deviation). -/
def deviations (s : State) (p : Prod) (cols : List Nat) : List (Nat × Bool × Int) :=
  let x := s.prodSlot p
  let cs := cols.filter fun j => !(p.clipped.contains j || (!p.transposed && p.suspended.contains j))
  cs.flatMap fun j => (if p.a8 then [(j, true, deviation p x true j)] else []) ++ [(j, false, deviation p x false j)]

/-- The deviation fails R110. -/
def fails (p : Prod) (d : Nat × Bool × Int) : Bool := decide (digitBound p d.2.1 * 65536 < 100 * d.2.2.natAbs)

/-- The outputs of a converter channel: 8 columns, or 16 rows of a transposed product, taken as consecutive rows (DESIGN CHOICE,
log 149). -/
def channelOutputs (p : Prod) (c : Nat) : List Nat :=
  let n := if p.transposed then 16 else 8
  (List.range n).map fun i => n * c + i

/-- A mismatch (R111): counted, reported, the product suspect and bound for its repeat. The event names one column: the first that
fails, and of its digits the high one first (DESIGN CHOICE, log 157). -/
def mismatch (s : State) (p : Prod) (bad : List (Nat × Bool × Int)) : State :=
  match bad with
  | [] => s
  | d :: _ =>
    let worst := Bits.roundHalfEven (largest (bad.map fun x => x.2.2)) 256
    let s := (s.count (Ctr.contMismatch (p.tile / 64))).modFaults fun f =>
      { f with daily := { f.daily with mismatches := f.daily.mismatches + 1 } }
    let s := s.workEvent p.key.work p.key.matrix 0x0302 (unitDeck p.tile p.deck)
      (own [(40, 2, d.1), (42, 4, Bits.ofSigned (Bits.roundHalfEven d.2.2 256) 32), (46, 1, if d.2.1 then 1 else 0)])
    let r : Repeat := { prod := some p.id, deck := p.deck, half := 0, cols := distinct (bad.map fun x => x.1), detector := 1,
                        deviation := worst, digit := if d.2.1 then 1 else 0 }
    (s.suspectProd p.id).queueRepeat p.tile r

/-! ### Holding a tile group (R104, R106) -/

/-- Tiles of a product's group (R101): those that hold the decks of its row tile, one per column tile; a transposed product's span
goes to its own tile alone. -/
def groupTiles (s : State) (p : Prod) : List Nat :=
  if p.transposed then [p.tile]
  else match s.keyMat p.key with
    | none => [p.tile]
    | some (_, b, m, _, _) =>
      distinct (p.tile :: ((List.range m.colTiles).map fun c => (s.prodDeck b.image b m p.rowTile c).1))

/-- Recompute which tiles of a list, and of those that are held, are held by a pass (R104). -/
def holdTiles (s : State) (ts : List Nat) : State :=
  let holders := s.prods.filter fun q => q.passNeeded && q.plan.isEmpty && decide (q.mode ≠ .slow)
  let all := ts ++ (s.tiles.filter fun x => x.2.held).map fun x => x.1
  s.each (distinct all) fun s t => s.modTile t fun x => { x with held := holders.any fun q => (s.groupTiles q).contains t }

/-- The product's last phase has ended, or it has none: clips (R33, R106), the pass (R104), the sampled check (R109, R113) and
the comparison of verified mode (R107). -/
def lastPhase (s : State) (id : Nat) : State :=
  match s.prod? id with
  | none => s
  | some p =>
    let s := if p.clipped.isEmpty then s
      else
        let s := s.workEvent p.key.work p.key.matrix 0x0101 (unitDeck p.tile p.deck) (own [(40, 2, p.clipped.length)])
        let r : Repeat := { prod := some id, deck := p.deck, half := 0, cols := p.clipped, detector := 2, deviation := 0, digit := 0 }
        (s.suspectProd id).queueRepeat p.tile r
    let s := match p.sampledCh with
      | none => s
      | some _ =>
        if (s.bough (p.tile / 64)).checks.length < 8 then
          (s.modBough (p.tile / 64) fun b => { b with checks := b.checks ++ [id] }).modStep p.key.work.call p.key.work.step
            fun x => { x with checks := x.checks + 1 }
        else (s.count (Ctr.contDropped (p.tile / 64))).modProd id fun p => { p with sampledCh := none }
    let s := if p.mode = .verified ∧ p.latched = true then
        s.mismatch p ((s.deviations p (List.range (s.outWidth p))).filter (fails p))
      else s
    if p.clipped.isEmpty && p.overflow.isEmpty then s
    else
      let s := s.modProd id fun p => { p with passNeeded := true }
      s.holdTiles (s.groupTiles p)

/-! ### The activation buffer (R59 to R61, R72, R73, R76, R101) -/

/-- A vector's outliers leave it (R61, R101): elements above the threshold, infinities among them; none where it is 0. -/
def outliersOf (theta : F32) (xs : List F32) : List (Nat × F32) :=
  if theta = 0 then [] else (xs.zipIdx.filter fun x => F32.absGt x.1 theta).map fun x => (x.2, x.1)

/-- The vector with its outliers at zero. -/
def withoutOutliers (theta : F32) (xs : List F32) : List F32 :=
  if theta = 0 then xs else xs.map fun x => if F32.absGt x theta then 0 else x

/-- Count the blocks that a unit has written (R72): zero blocks, non-finite blocks, and of these the ones out of range (R60). -/
def countBlocks (s : State) (scope u : Nat) (xs : List F32) (bs : List Block) : State :=
  let bad (k : Nat) : Bool := ((xs.drop (32 * k)).take 32).all F32.isFinite
  let wide := (bs.zipIdx.filter fun b => b.1.scale == 255 && bad b.2).length
  ((s.count (Ctr.zeroBlocks scope u) (bs.filter fun b => b.scale == 0).length).count
    (Ctr.nonfiniteBlocks scope u) (nonfiniteBlocks bs)).count (Ctr.fmtRange scope u) wide

/-- Count a span in its matrix's histogram (R105). -/
def noteSpan (s : State) (matrix n budget : Nat) : State :=
  let h := (s.histos.find? fun h => h.matrix == matrix).getD { matrix := matrix, bins := List.replicate 18 0, passes := 0 }
  let h := { h with bins := Bits.setAt h.bins (min n 17) (h.bins.getD (min n 17) 0 + 1), passes := if budget < n then h.passes + 1 else h.passes }
  { s with histos := if s.histos.any (fun x => x.matrix == matrix) then s.histos.map fun (x : Histo) => if x.matrix == matrix then h else x
                     else s.histos ++ [h] }

/-- A unit quantises an input vector into the step's activation buffer: outliers leave it and are listed (R61, R101), its blocks are
formed (R59) and counted in the unit's scope (R72), and each drive span enters the matrix's histogram (R105). -/
def quantiseInto (s : State) (w : WorkRef) (m : Mat) (a8 : Bool) (unit : Nat) (xs : List F32) : State :=
  let out := outliersOf m.threshold xs
  let ys := withoutOutliers m.threshold xs
  let v : ActVec := { work := w, matrix := m.id, transposed := none, a8 := a8, unit := unit, outliers := out,
                      blocks := quantiseVector (if a8 then 127 else 7) ys }
  let s := { s with acts := s.acts ++ [v] }
  let s := if unit = 128 then s.countBlocks 1 7 ys v.blocks else s.countBlocks 0 unit ys v.blocks
  s.each ((List.range m.rowTiles).map fun i => (v.spanOutliers (m.rowFirst + i)).length) fun s n => s.noteSpan m.id n m.budget

/-- The group scale of an input column of a transposed product (R76). -/
def columnScale (s : State) (image : Nat) (m : Mat) (r c : Nat) : F32 :=
  match s.slotFor image m.id r (c / 512) with
  | some x => F32.enc (Fl.decode Fl.f16 (x.scale (c % 512 / 64)))
  | none => 0

/-- The special-function unit scales a column input vector by its columns' group scales, in binary32, and quantises it as A8 for the
outputs of one row tile (R76). No outlier leaves it: a correction record's threshold governs the matrix's own input vector (R61;
DEDUCED, log 158). -/
def quantiseColumns (s : State) (w : WorkRef) (image : Nat) (m : Mat) (r unit : Nat) (xs : List F32) : State :=
  let ys := xs.zipIdx.map fun x => F32.mul x.1 (s.columnScale image m r x.2)
  let v : ActVec := { work := w, matrix := m.id, transposed := some r, a8 := true, unit := unit, outliers := [],
                      blocks := quantiseVector 127 ys }
  ({ s with acts := s.acts ++ [v] }).countBlocks 0 unit ys v.blocks

/-- The matrix of this position that a vector from another position's matrix enters first: Q, K and V of the lowest layer, or that
layer's first matrix (DESIGN CHOICE, log 167: the manual names the vector, not what it feeds). -/
def relayFed (s : State) (image : Nat) : Option Mat :=
  let ms := (((s.gen? image).map s.matsOf).getD []).filter fun m => m.kind == 0
  let l := ms.foldl (fun a m => min a m.layer) ((ms.map fun m => m.layer).headD 0)
  qkvOf ms l

/-- What a step, or a retake that is served, received over the relay for a matrix: blocks that another position quantised, A8. A vector
names the matrix it feeds, or a matrix of the position before. -/
def received (s : State) (w : WorkRef) (matrix : Nat) : Option ActVec :=
  let e := s.call w.call
  let served := s.partner.serving.find? fun (q : RetakeReq) => q.p == e.partition && q.tag == e.tag && q.step == w.step
  let items : List ActItem := match s.step? w.call w.step with
    | some x => x.input
    | none => (served.map fun q => q.input).getD []
  let image := ((s.workContext w).map fun x => x.1).getD 0
  let feeds (i : ActItem) : Bool := i.matrix == matrix ||
    ((s.mat? image i.matrix).isNone && (s.relayFed image).any fun m => m.id == matrix)
  (items.find? fun i => i.token == w.token && feeds i).map fun i =>
    { work := w, matrix := matrix, transposed := none, a8 := true, blocks := i.blocks, outliers := [], unit := 129 }

/-- The input vector of a matrix for a piece of work: the activation buffer's, or what came over the relay (R73, R210). -/
def actFor (s : State) (w : WorkRef) (matrix : Nat) (row : Option Nat) : Option ActVec :=
  (s.acts.find? fun v => v.work == w && v.matrix == matrix && v.transposed == row).or
    (if row.isNone then s.received w matrix else none)

/-- The bough whose special-function unit forms a vector: the destination of the handoff that it is formed from (R72), or, for an
embedding row or a relayed vector, which no handoff here delivers, the bough of the fed matrix's first tile (DESIGN CHOICE,
log 159). -/
def vecUnit (s : State) (k : SumKey) (src : Nat) : Option Nat :=
  match s.handoffs.find? fun h => h.key.work == k.work && h.key.matrix == src && h.kind == 1 with
  | some h => some h.unit
  | none =>
    match s.keyMat k with
    | some (image, b, m, _, _) =>
      if ((s.mat? image src).any fun x => x.kind == 2) || ((s.step? k.work.call k.work.step).any fun x =>
          (x.input ++ x.backIn).any fun i => i.token == k.work.token && i.matrix == src) then some ((s.prodDeck b.image b m m.rowFirst 0).1 / 64) else none
    | none => none

/-- A vector comes exactly with its first use, formed by a unit that has what it forms it from, with as many elements as the matrix
has inputs, or outputs for a transposed product whose column input vector the device does not form or hold itself. -/
def vecOk (s : State) (k : SumKey) (row : Option Nat) (vec : Option VecIn) : Bool :=
  match vec, s.keyMat k with
  | none, _ => true
  | some v, some (_, b, m, _, _) =>
    (s.actFor k.work k.matrix row).isNone && (s.vecUnit k v.source).isSome &&
    (if row.isSome then v.a8 && !formsColumn (s.imageMats b.image) m && (s.columnVec k.work m).isNone && v.values.length == m.outputs
     else v.values.length == m.inputs)
  | some _, none => false

/-- The unit that scales and quantises a column input vector that the device forms itself: the special-function unit of the bough of
the matrix's first tile (DESIGN CHOICE, log 159). -/
def columnUnit (s : State) (b : Binding) (m : Mat) : Nat := (s.prodDeck b.image b m m.rowFirst 0).1 / 64

/-- The vector enters the activation buffer. A transposed product's is kept in binary32 with its step, and is quantised for each row
tile of its outputs when that tile's first product is issued. -/
def takeVec (s : State) (k : SumKey) (row : Option Nat) (vec : Option VecIn) : State :=
  match s.keyMat k with
  | none => s
  | some (_, b, m, _, _) =>
    match row with
    | none =>
      (match vec with
       | some v => s.quantiseInto k.work m v.a8 ((s.vecUnit k v.source).getD 0) v.values
       | none => s)
    | some r =>
      if (s.actFor k.work k.matrix row).isSome then s
      else
        let u := ((vec.bind fun v => s.vecUnit k v.source)).getD (s.columnUnit b m)
        match (s.columnVec k.work m).or (vec.map fun v => v.values) with
        | none => s
        | some v => (s.keepColumn k.work m v).quantiseColumns k.work b.image m r u v

/-! ### Issue -/

/-- A layer with an UNVERIFIED deck runs on the slower tier (R25). -/
def layerUnverified (s : State) (image layer : Nat) : Bool :=
  s.weights.bindings.any fun b => !b.2.slow && b.2.image == image &&
    ((s.mat? image b.1).any fun m => m.layer == layer) && b.2.decks.any fun d => (s.deck d.1 d.2).unverified

/-- In-line rows of a span (R101, R103): the budget's, where the file names an in-line read stream; every row where it names no
overflow stream. A file that names neither for a matrix with outliers still has its rows read in passes (DESIGN CHOICE, log 156). -/
def inlineRows (m : Mat) (outliers : List (Nat × F32)) : Nat :=
  if !m.sInline then 0 else if !m.sOverflow then outliers.length else m.budget

/-- The product of a request on a drive span. -/
def newProd (s : State) (r : ProductReq) (v : ActVec) (image : Nat) (m : Mat) (d : Nat × Nat) (mode : ProdMode) (premium : Bool) : Prod :=
  let n := if r.transposed then 1024 else 512
  let blocks := v.span r.rowTile
  let outliers := v.spanOutliers r.rowTile
  let k := inlineRows m outliers
  Prod.prepare {
    id := s.nextProd, key := r.key, rowTile := r.rowTile, tile := d.1, deck := d.2, premium := premium, a8 := v.a8,
    transposed := r.transposed, mode := mode, image := image, format := m.format, drive := spanDrive blocks,
    codes := spanCodes blocks, high := [], low := [], plan := [], planned := (0, 0), hiVal := [], loVal := [], clipped := [],
    zeroInput := false, nonfinite := decide (0 < nonfiniteBlocks blocks), latched := false, offsets := [], gains := [],
    colGains := [], drift := 0x8000, suspended := [], inline := outliers.take k, overflow := outliers.drop k,
    outSum := List.replicate n 0, outNf := List.replicate n none, passNeeded := false,
    unbounded := false, suspect := false, sampledCh := none,
    retry := ((s.sums.find? fun y => y.key == r.key).map fun y => y.retry).getD 0 }

/-- Count what a drive span shows once, in the scope of the unit that quantised its vector (R62, R63, R72). ALIGN_SHIFTS has bough
scope only, and a vector from another position was quantised by no unit here: such a span counts in the bough of its tile of column
tile 0 (DESIGN CHOICE, log 111). -/
def countSpan (s : State) (v : ActVec) (blocks : List Block) (b : Nat) : State :=
  let u := if v.unit < 128 then v.unit else b
  (s.count (Ctr.alignShifts u) (shiftedBlocks blocks)).count
    (if v.unit = 128 then Ctr.nonfiniteBlocks 1 7 else Ctr.nonfiniteBlocks 0 u) (nonfiniteBlocks blocks)

/-- Counts of a product's issue (Tables 02-14, 03-9, 05-6, 07-10). A forward span goes to every column tile and counts with the first;
a transposed product's span is its own. -/
def countIssue (s : State) (r : ProductReq) (v : ActVec) (p : Prod) : State :=
  let b := p.tile / 64
  let s := if r.key.colTile = 0 ∨ r.transposed = true then s.countSpan v (v.span r.rowTile) b else s
  let s := s.count (Ctr.outlierRows b) (v.spanOutliers r.rowTile).length
  let s := match p.mode with
    | .slow => (s.count (Ctr.tierProducts b)).modStep r.key.work.call r.key.work.step fun x => { x with tier := true }
    | .verified => s.count (Ctr.verifiedProducts b)
    | .analogue => s
  if p.mode = .slow ∨ p.nonfinite = true then s
  else
    let s := s.count (Ctr.phasesSkipped p.tile) (densePhases p.a8 p.transposed - p.plan.length)
    if p.zeroInput then s.count (Ctr.zeroInputs p.tile) else s

/-- A product queues at its tile (R17, R44). -/
def enqueueProd (s : State) (p : Prod) : State :=
  if p.plan.isEmpty then (s.lastPhase p.id)
  else
    let s := match (s.tile p.tile).active with
      | .progStep => s.count (Ctr.progBlockWaits p.tile)
      | .product i => if (s.prod? i).any fun (q : Prod) => q.deck != p.deck then s.count (Ctr.deckConflictWaits (p.tile / 64)) else s
      | .idle => s
    (s.modTile p.tile fun x => { x with queue := x.queue ++ [p.id] }).tileNext p.tile

/-- The pair of a request. -/
def requestPair (r : ProductReq) : Nat × Nat :=
  if r.transposed then (r.key.colTile - 65536, r.rowTile) else (r.rowTile, r.key.colTile)

/-- The draft model's pages reach the query of a draft pass on each of its layers, so its logits can be formed (R225). -/
def draftCovered (s : State) (w : WorkRef) : Bool :=
  match s.step? w.call w.step with
  | none => true
  | some x =>
    let e := s.call w.call
    let g := s.gen? x.image
    let layers := (((g.map s.matsOf).getD []).filter fun m => m.kind == 3 && (g.bind fun g => s.attnFor g m.layer).isSome).map fun m => m.layer
    x.drafting.isNone || layers.all fun l => decide (e.kvLen + (w.token - x.tokens.length) < Tbl.get 0 l e.draftKv)

/-- The request names a product that can be issued now: work in flight, a pair of the matrix held here, not issued before. -/
def canIssue (s : State) (r : ProductReq) : Bool :=
  match s.keyMat r.key with
  | none => false
  | some (_, _, m, _, premium) =>
    let rc := requestPair r
    !s.stepHeld r.key.work && ((s.actFor r.key.work r.key.matrix (vecRow r)).any fun v => !(v.span r.rowTile).isEmpty) && m.kind != 2 &&
    decide (m.rowFirst ≤ rc.1) && decide (rc.1 < m.rowFirst + m.rowTiles) && decide (rc.2 < m.colTiles) &&
    (!r.transposed || (m.transposed && !premium && decide (65536 ≤ r.key.colTile))) &&
    (m.kind != 3 || m.destKind != 2 || s.draftCovered r.key.work) &&
    !(s.prods.any fun p => p.key == r.key && p.rowTile == r.rowTile) && !(s.handoffs.any fun h => h.key == r.key) &&
    !(s.xferWaits.any fun q => q.key == r.key && q.rowTile == r.rowTile)

/-- A deck serves a product of a class (Table 02-4, R26, R132): a LIVE deck, or a DRIFTED one for the bulk class. -/
def servesClass (s : State) (d : Nat × Nat) (premium : Bool) : Bool :=
  decide (d.2 < 8) && !s.tileGone d.1 && !(s.bough (d.1 / 64)).withdrawn &&
  (decide ((s.deck d.1 d.2).state = .live) || (!premium && decide ((s.deck d.1 d.2).state = .drifted)))

/-- Issue a product whose data has arrived; `fresh`: it has not been issued before, so it is counted. -/
def issueWith (s : State) (r : ProductReq) (fresh : Bool) : State :=
  match s.keyMat r.key, s.actFor r.key.work r.key.matrix (vecRow r) with
  | some (_, b, m, verified, premium), some v =>
    let rc := requestPair r
    let d := s.prodDeck b.image b m rc.1 rc.2
    let mode := if b.slow || s.layerUnverified b.image m.layer || !s.servesClass d premium then ProdMode.slow
      else if verified then .verified else .analogue
    let p := s.newProd r v b.image m d mode premium
    let s := { s with prods := s.prods ++ [p], nextProd := s.nextProd + 1 }
    let s := if fresh then s.countIssue r v p else s
    let s := if mode = .slow then s else s.useUnit r.key.work (8 * d.1 + d.2)
    s.enqueueProd p
  | _, _ => s

def issue (s : State) (r : ProductReq) : State := s.issueWith r true

/-- A product whose placed transfer has not completed waits in its handshake, counted once (R19). -/
def requestWith (s : State) (r : ProductReq) (fresh : Bool) : State :=
  let late := match s.step? r.key.work.call r.key.work.step with
    | some x => decide (x.xferDone < r.needs)
    | none => false
  if late then
    match s.keyMat r.key with
    | none => s
    | some (_, b, m, _, _) =>
      let rc := requestPair r
      ({ s with xferWaits := s.xferWaits ++ [r] }).count (Ctr.xferLateWaits 0 ((s.prodDeck b.image b m rc.1 rc.2).1 / 64))
  else s.issueWith r fresh

def request (s : State) (r : ProductReq) : State := s.requestWith r true

/-- The layer that a step runs; its transfers have completed up to an entry. -/
def transferDone (s : State) (w : WorkRef) (n : Nat) : State :=
  let s := s.modStep w.call w.step fun x => { x with xferDone := max x.xferDone n }
  let go := s.xferWaits.filter fun r => r.key.work.call == w.call && r.key.work.step == w.step && decide (r.needs ≤ n)
  let s := { s with xferWaits := s.xferWaits.filter fun r =>
    !(r.key.work.call == w.call && r.key.work.step == w.step && decide (r.needs ≤ n)) }
  s.each go issue

/-! ### Phases -/

/-- A phase of a product has ended with its codes (R32, R33, R94, R96). The tile marks every code at a limit; the lane discards the
codes of unused columns (R22). -/
def phaseDone (s : State) (t : Nat) (p : Prod) (codes : List Int) : State :=
  match p.plan with
  | [] => (s.modTile t fun x => { x with active := .idle }).tileNext t
  | (high, _, _) :: rest =>
    let live (j : Nat) : Bool := p.transposed || !p.suspended.contains j
    let used (j : Nat) : Bool := decide (j < s.outUsed p)
    let v (j : Nat) (c : Int) : Int := if live j && used j then
        correctCode c (Tbl.get 0 (sliceIndex p.transposed j) p.offsets) (Tbl.get 0x8000 (sliceIndex p.transposed j) p.gains)
          (Tbl.get 0x8000 j p.colGains) p.drift
      else 0
    let vals := codes.zipIdx.map fun x => v x.2 x.1
    let marked := (codes.zipIdx.filter fun x => x.1 == -128 || x.1 == 127).map fun x => x.2
    let clips := marked.filter used
    let s := (s.count (Ctr.phases t)).countClips t codes
    let s := s.modProd p.id fun q => { q with
      plan := rest, clipped := distinct (q.clipped ++ clips),
      hiVal := if high then List.zipWith (· + ·) q.hiVal vals else q.hiVal,
      loVal := if high then q.loVal else List.zipWith (· + ·) q.loVal vals }
    let s := s.modTile t fun x => { x with
      active := .idle, queue := if rest.isEmpty then x.queue.filter fun i => i != p.id else x.queue }
    let s := if rest.isEmpty then s.lastPhase p.id else s
    s.tileNext t

/-! ### Outlier reads and passes -/

/-- Address of a block of a slot's copy (R296, R410; the order of slots in the region is the model's, log 33). -/
def slotAddr (s : State) (k : SlotKey) (copy off : Nat) : Nat :=
  let n := (s.weights.slots.takeWhile fun x => x.key != k).length
  let st := ((Config.slotStack s.mem.slotSeed n).val + 4 * copy) % 8
  st * stackBytes + 512 * 2 ^ 20 + s.regs.saveRegion.toNat * 2 ^ 17 + 266240 * n + off

/-- A lost block of the weight region (R297). -/
def loseWeight (s : State) (image matrix addr : Nat) : State :=
  let s := s.event { code := 0x0E04, unit := unitEngine (48 + addr / stackBytes), matrix := matrix, image := image,
                     own := own [(48, 8, addr / 64 * 64)] }
  let s := (s.modBoot fun b => { b with weightLost := some (image, matrix) }).modGen image fun g => { g with lost := true }
  if s.running || s.starting then s.resetArrives false 6 else s

/-- A block of the weight region is read: first copy, then the other (R296); whether it could be delivered. -/
def readWeight (s : State) (k : SlotKey) (off : Nat) (flips second : Flips) : Bool × State :=
  let a := s.slotAddr k 0 off
  match classify flips with
  | .uncorrectable =>
    let s := s.noteRead a 1 flips
    let a2 := s.slotAddr k 1 off
    (match classify second with
     | .uncorrectable => (false, (s.noteRead a2 1 second).loseWeight k.image k.matrix a)
     | _ => (true, ((s.noteRead a2 1 second).count Ctr.weightRepairs).event
         { code := 0x0E03, unit := unitEngine (48 + a / stackBytes), matrix := k.matrix, image := k.image,
           own := own [(40, 1, 1), (48, 8, a / 64 * 64)] }))
  | _ => (true, s.noteRead a 1 flips)

/-- Blocks of a slot are read one after another; a block with both copies lost ends the reading. -/
def readBlocks (k : SlotKey) : List BlockRead → State → State
  | [], s => s
  | r :: rest, s =>
    let t := (s.readWeight k (64 * r.block) r.first r.second).2
    if readOk r then readBlocks k rest t else t

/-- A master row returns and is multiplied (R102), or a suspended column's (R106). -/
def rowReturns (s : State) (p : Prod) (reads : List BlockRead) : State :=
  match p.inline with
  | (i, v) :: rest =>
    let t := readBlocks (s.prodSlot p).key reads s
    if !reads.all readOk then t
    else t.modProd p.id fun p => { addOutlier p ((s.prodSlot p).patched (wrongOf reads)) i v with inline := rest }
  | [] =>
    match p.susp with
    | [] => s
    | i :: rest =>
      let t := readBlocks (s.prodSlot p).key reads s
      if !reads.all readOk then t
      else (t.count (Ctr.suspTerms (p.tile / 64))).modProd p.id fun p =>
        { p with susp := rest, wrong := p.wrong ++ columnBits [i - 1024] (wrongOf reads) }

/-- The read that returns next for a product: its in-line rows in order, then its suspended columns (R102, R106). -/
def nextRead (p : Prod) : Option Nat := (p.inline.head?.map fun x => x.1).or p.susp.head?

/-- A pass has ended: the overflow rows are in, the clipped columns recomputed, the group released (R104, R106). -/
def passDone (s : State) (p : Prod) : State :=
  let x := s.prodSlot p
  let b := p.tile / 64
  let s := if p.overflow.isEmpty then s else (s.count (Ctr.ovfRows b) p.overflow.length).count (Ctr.ovfPasses b)
  let s := s.modProd p.id fun p => { p.overflow.foldl (fun q r => addOutlier q x r.1 r.2) p with overflow := [], passNeeded := false }
  let ts := s.groupTiles p
  (s.holdTiles ts).each ts tileNext

/-- A pass with its reads: what they deliver wrong goes into the overflow rows' terms and the clipped columns. -/
def passReturns (s : State) (p : Prod) (reads : List BlockRead) : State :=
  let t := readBlocks (s.prodSlot p).key reads s
  if !reads.all readOk then t
  else
    let clip := outputBits p p.clipped (wrongOf reads)
    let t := t.passDone { p with wrong := p.wrong ++ wrongOf reads }
    t.modProd p.id fun q => { q with wrong := p.wrong ++ clip }

/-- The master reads of products on the slower tier (R75, R151) and in verified mode (R107). -/
def slowReads : List (Nat × BlockRead) → State → State
  | [], s => s
  | x :: rest, s =>
    match s.prod? x.1 with
    | none => slowReads rest s
    | some p =>
      let t := (s.readWeight (s.prodSlot p).key (64 * x.2.block) x.2.first x.2.second).2
      if readOk x.2 then slowReads rest (t.modProd p.id fun q => { q with wrong := q.wrong ++ readWrong x.2 }) else t

end State
end Sys2Proof.Machine
end

