-- ==== Sys2Proof/Machine/Sampling.lean ====
section
/-! DEFINITION. Mattes, sampling and drafts (R215 to R225). -/

set_option Elab.async false

namespace Sys2Proof.Machine

/-- What the sampling of a step commits. -/
structure Sampled where
  tokens : List Nat
  /-- draft tokens accepted -/
  accepted : Nat
  /-- the status with which the call ends at this step, if it does -/
  ends : Option Status
  /-- kind 2 matte state after the tokens -/
  matteState : Nat
deriving DecidableEq, Repr

/-- Whether token `v` is in a bitmap (R214). -/
def maskHas (b : Bytes) (v : Nat) : Bool := (b.getD (v / 8) 0).getLsbD (v % 8)

/-- State record `n` of a kind 2 matte. -/
def Matte.record (m : Matte) (n : Nat) : Nat × Nat × Nat × Nat × Bool := m.states.getD n (0, 0, 0, 0, false)

/-- The state after a token (R215). -/
def Matte.next (m : Matte) (st tok : Nat) : Nat :=
  let r := m.record st
  match ((m.trans.drop r.2.2.1).take r.2.2.2.1).find? fun x => x.1 == tok with
  | some x => x.2
  | none => r.2.1

/-- The allowed set of a sampling position (R215), ascending. -/
def allowedSet (m : Option Matte) (st : Nat) (mask : Option Bytes) (vocab : Nat) : List Nat :=
  match m with
  | none => List.range vocab
  | some m =>
    if m.kind = 1 then m.tokens
    else if m.kind = 2 then (List.range vocab).filter (maskHas (m.masks.getD (m.record st).1 []))
    else (List.range vocab).filter (maskHas (mask.getD []))

/-! ### Sampler parameters (Table 10-7) -/

def temperature (w : BitVec 64) : F32 := F32.enc (Fl.decode Fl.f16 (Bits.field w.toNat 0 16))
def topK (w : BitVec 64) : Nat := Bits.field w.toNat 16 12
def topP (w : BitVec 64) : Nat := Bits.field w.toNat 28 16
def stopToken (w : BitVec 64) : Option Nat := if w.getLsbD 62 then some (Bits.field w.toNat 44 18) else none
def greedy (w : BitVec 64) : Bool := Bits.field w.toNat 0 16 == 0

/-- R220: `u` of a draw. -/
def drawU (seed : BitVec 64) (n j purpose : Nat) : F32 :=
  let msg := Bits.bytesOf 8 seed.toNat ++ Bits.bytesOf 4 n ++ Bits.bytesOf 1 j ++ Bits.bytesOf 1 purpose ++ [0, 0]
  F32.ofScaled ((Bits.le (Shake.shake256 msg 3) 0 3 : Nat) : Int) (-24)

/-- The allowed token with the largest logit, the lowest id on a tie. -/
def greedyOf (logits : List F32) (allowed : List Nat) : Nat :=
  (allowed.foldl (fun (b : Option (Nat × F32)) v =>
    let x := logits.getD v 0
    match b with
    | none => some (v, x)
    | some (u, y) => if F32.lt y x then some (v, x) else some (u, y)) none).map (fun b => b.1) |>.getD 0

/-- Tokens by falling value, equal values by rising id. -/
def fallingOrder (xs : List (Nat × F32)) : List (Nat × F32) := sortBy (fun a b => F32.lt b.2 a.2) xs

/-- Tokens by rising id. -/
def risingIds (xs : List (Nat × F32)) : List (Nat × F32) := sortBy (fun a b => decide (a.1 < b.1)) xs

/-- The shortest prefix whose running sum reaches a threshold. -/
def nucleus (th : F32) : F32 → List (Nat × F32) → List (Nat × F32)
  | _, [] => []
  | c, x :: xs => let c' := F32.add c x.2; if F32.le th c' then [x] else x :: nucleus th c' xs

/-- The weights that R219 keeps, by rising id. -/
def keptWeights (w : BitVec 64) (logits : List F32) (allowed : List Nat) : List (Nat × F32) :=
  let z := allowed.map fun v => (v, F32.div (logits.getD v 0) (temperature w))
  let keep := if topK w = 0 then z else risingIds ((fallingOrder z).take (topK w))
  let mx := F32.maxOf F32.negInf (keep.map fun x => x.2)
  let ws := keep.map fun x => (x.1, F32.exp (F32.sub x.2 mx))
  if topP w = 0 then ws
  else
    let l := fallingOrder ws
    let th := F32.mul (F32.mul (F32.sumFrom F32.zero (l.map fun x => x.2)) (F32.ofInt (topP w))) (F32.ofScaled 1 (-16))
    risingIds (nucleus th F32.zero l)

/-- The walk of R219: the first token whose running sum exceeds `x`, or the last. -/
def walk (x : F32) : F32 → List (Nat × F32) → Nat
  | _, [] => 0
  | _, [v] => v.1
  | c, v :: vs => let c' := F32.add c v.2; if F32.lt x c' then v.1 else walk x c' vs

/-- A token drawn from weights with a draw. -/
def drawToken (ws : List (Nat × F32)) (u : F32) : Nat := walk (F32.mul u (F32.sumFrom F32.zero (ws.map fun x => x.2))) F32.zero ws

/-- Weights divided by their sum. -/
def normalised (ws : List (Nat × F32)) : List (Nat × F32) :=
  let t := F32.sumFrom F32.zero (ws.map fun x => x.2)
  ws.map fun x => (x.1, F32.div x.2 t)

def probOf (ws : List (Nat × F32)) (v : Nat) : F32 := ((ws.find? fun x => x.1 == v).map fun x => x.2).getD F32.zero

/-- R219 for one position. -/
def sampleToken (e : Entry) (logits : List F32) (allowed : List Nat) (n j purpose : Nat) : Nat :=
  if greedy e.sampler then greedyOf logits allowed
  else drawToken (keptWeights e.sampler logits allowed) (drawU e.seed n j purpose)

/-- The residual distribution of a rejected draft token (R223). -/
def residual (p q : List (Nat × F32)) : List (Nat × F32) :=
  let r := p.map fun x => (x.1, (fun d => if F32.lt F32.zero d then d else F32.zero) (F32.sub x.2 (probOf q x.1)))
  if F32.eqv (F32.sumFrom F32.zero (r.map fun x => x.2)) F32.zero then p else normalised r

/-- One token is committed: the matte moves, and a stop token or an end state ends the call (R215, R218). -/
def commitToken (e : Entry) (m : Option Matte) (o : Sampled) (v : Nat) : Sampled :=
  let st := match m with
    | some m => if m.kind = 2 then m.next o.matteState v else o.matteState
    | none => o.matteState
  let fin := match m with
    | some m => m.kind == 2 && (m.record st).2.2.2.2
    | none => false
  { o with tokens := o.tokens ++ [v], matteState := st,
           ends := if stopToken e.sampler = some v ∨ fin = true then some .ok else o.ends }

/-- Sampling of the positions of a step from position `j` on: draft tokens with their distributions, then the last position
(R219, R223). The logits stand by position. -/
def samplePositions (e : Entry) (m : Option Matte) (mask : Option Bytes) (vocab n : Nat) (logits : List (Nat × List F32)) :
    Nat → List (Nat × List (Nat × F32)) → Sampled → Sampled
  | j, ds, o =>
    let lg := ((logits.find? fun x => x.1 == j).map fun x => x.2).getD []
    let al := allowedSet m o.matteState mask vocab
    if al.isEmpty then { o with ends := some .matteEmpty }
    else
      match ds with
      | [] => commitToken e m o (sampleToken e lg al n j 0)
      | (x, q) :: rest =>
        let accept : Bool × Nat :=
          if greedy e.sampler then (decide (x = greedyOf lg al), greedyOf lg al)
          else
            let p := normalised (keptWeights e.sampler lg al)
            if F32.lt (F32.mul (drawU e.seed n j 1) (probOf q x)) (probOf p x) then (true, x)
            else (false, drawToken (residual p q) (drawU e.seed n j 0))
        if accept.1 then
          let o' := commitToken e m { o with accepted := o.accepted + 1 } x
          if o'.ends.isSome then o' else samplePositions e m mask vocab n logits (j + 1) rest o'
        else commitToken e m o accept.2

namespace State

/-- The call's matte. -/
def matteOfCall (s : State) (e : Entry) : Option Matte :=
  if e.hasMatte then s.mattes.find? fun m => m.handle == e.matteHandle else none

/-- Tokens of a step whose logits are sampled (R187, R222). -/
def samplingTokens (x : Step) : List Nat :=
  if !x.samples then []
  else match x.kind with
    | .prefill => [x.tokens.length - 1]
    | .decode => [0]
    | .verify d => List.range (d + 1)

/-- The logits of every sampling position have arrived. -/
def logitsIn (x : Step) : Bool := (List.range (samplingTokens x).length).all fun j => x.logits.any fun l => l.1 == j

/-- The mask that a kind 3 matte needs has not been read (R216). -/
def needsMask (s : State) (e : Entry) (x : Step) : Bool :=
  x.samples && ((s.matteOfCall e).any fun m => m.kind == 3) &&
  !(match e.mask with
    | some b => b.1 == x.step
    | none => false)

/-- The tokens that a retake returned, with the draft tokens among them and the state they leave (R318). -/
def returnedSample (e : Entry) (m : Option Matte) (d : Nat) (o : Sampled) (toks : List Nat) : Sampled :=
  let o := toks.foldl (commitToken e m) o
  { o with accepted := ((toks.zip (e.drafts.take d)).takeWhile fun x => x.1 == x.2).length }

/-- What the step commits (R215 to R223, R318); none while logits or a mask are missing. A non-finite logit at any sampling
position ends the call with no token of the step (R81); it is tested before any masking, so it waits for no mask (R219). -/
def sampleStep (s : State) (x : Step) : Option Sampled :=
  let e := s.call x.call
  let none' : Sampled := { tokens := [], accepted := 0, ends := none, matteState := e.matteState }
  let depth := match x.kind with
    | .verify d => d
    | _ => 0
  if !x.samples then some none'
  else if (x.returned.getD []) ≠ [] then some (returnedSample e (s.matteOfCall e) depth none' (x.returned.getD []))
  else if !logitsIn x then none
  else if x.logits.any fun l => l.2.any fun v => !F32.isFinite v then some { none' with ends := some .nonfinite }
  else if s.needsMask e x then none
  else
    let ds := match x.kind with
      | .verify d => (e.drafts.zip e.draftQ).take d
      | _ => []
    let vocab := ((x.logits.head?.map fun l => l.2.length)).getD 0
    some (samplePositions e (s.matteOfCall e) (e.mask.map fun b => b.2) vocab x.step x.logits 0 ds none')

end State
end Sys2Proof.Machine
end

