-- ==== Sys2Proof/Machine/NextStep.lean ====
section
/-! DEFINITION. The step that follows what a call has issued (R184, R187, R213), as every position works it out from the entry. -/

set_option Elab.async false

namespace Sys2Proof.Machine

/-- A call's next step: its kind and input tokens, how many of them are new prompt tokens, and whether it samples (R187). -/
structure NextStep where
  kind : StepKind
  tokens : List Nat
  prompt : Nat
  samples : Bool
deriving DecidableEq, Repr

/-- A held call's last token that heads the continuation's first chunk (R184). -/
def carriedDue (e : Entry) : Option Nat :=
  if (0 < e.promptLen ∨ e.maxNew = 0) ∧ e.issuedPrompt = 0 then e.carried else none

/-- A tuning call's next example (Table 11-6: step s uses example s mod count). -/
def tuneStep (t : Tune) : Option NextStep :=
  if t.checked ∧ t.stepsDone < t.steps then
    (t.examples[t.stepsDone % t.examples.length]?).map fun x =>
      { kind := .prefill, tokens := (List.range x.1).map fun k => Bits.le x.2 (4 * k) 4, prompt := x.1, samples := false }
  else none

namespace State

/-- The next chunk of the prompt, a carried token ahead of it (R184, Table 09-3). -/
def nextChunk (s : State) (e : Entry) : NextStep :=
  let head := (carriedDue e).toList
  let toks := head ++ e.prompt.drop e.issuedPrompt
  let toks := match s.chunkTokens with
    | none => toks
    | some k => toks.take k
  let new := toks.length - head.length
  { kind := .prefill, tokens := toks, prompt := new, samples := decide (0 < e.maxNew ∧ e.promptLen ≤ e.issuedPrompt + new) }

/-- The step that follows what a call has issued; `alone` when no step of the call is in flight. None while the call waits for
one, or has none left. -/
def nextStepOf (s : State) (e : Entry) (alone : Bool) : Option NextStep :=
  match e.tune with
  | some t => if alone then tuneStep t else none
  | none =>
    if e.issuedPrompt < e.promptLen ∨ (carriedDue e).isSome = true then
      (if 0 < e.promptLen ∨ alone = true then some (s.nextChunk e) else none)
    else if alone = true ∧ e.generated < e.maxNew then
      let input := if e.promptLen = 0 ∧ e.emitted = false then e.carried.getD e.lastToken else e.lastToken
      if e.drafts.isEmpty then some { kind := .decode, tokens := [input], prompt := 0, samples := true }
      else some { kind := .verify e.drafts.length, tokens := input :: e.drafts, prompt := 0, samples := true }
    else none

/-- The step `k` steps after the call's committed ones with its first token index, as every position works it out from the entry
(R187): beyond the first only prefill chunks can be in flight. -/
def stepAhead (s : State) : Nat → Entry → Option (NextStep × Nat)
  | 0, e => (s.nextStepOf e true).map fun n => (n, e.kvLen)
  | k + 1, e =>
    match s.nextStepOf e true with
    | none => none
    | some n =>
      if n.kind = .prefill then s.stepAhead k { e with issuedPrompt := e.issuedPrompt + n.prompt, kvLen := e.kvLen + n.tokens.length }
      else none

/-- Step `n` of a call with its first token index, worked out from the entry. A position that has not read the prompt knows its
length alone. -/
def inferStep (s : State) (e : Entry) (n : Nat) : NextStep × Nat :=
  match e.tune with
  | some t => ((tuneStep t).getD { kind := .prefill, tokens := [0], prompt := 0, samples := false }, e.kvLen)
  | none =>
    let prompt := if e.prompt.length = e.promptLen then e.prompt else List.replicate e.promptLen 0
    (s.stepAhead (n - e.step) { e with issuedPrompt := e.prefilled, prompt := prompt }).getD
      ({ kind := .decode, tokens := [e.lastToken], prompt := 0, samples := true }, e.kvLen)

/-! ### Retakes that are served for the partner (R282) -/

/-- The request that a work item serves: the call is a MIRROR entry of this device. -/
def servedReq (s : State) (w : WorkRef) : Option RetakeReq :=
  let e := s.call w.call
  s.partner.serving.find? fun q => decide (e.state = .mirror) && q.p == e.partition && q.tag == e.tag && q.step == w.step

/-- Step of a served request with its first token index and its tokens: what the entry says, and what the request brings. -/
def servedStep (s : State) (c : Nat) (q : RetakeReq) : NextStep × Nat × Nat :=
  let x := s.inferStep (s.call c) q.step
  let seen := q.sums.foldl (fun m i => max m (i.token + 1)) (q.input.foldl (fun m i => max m (i.token + 1)) 0)
  (x.1, x.2, if seen = 0 then x.1.tokens.length else seen)

end State
end Sys2Proof.Machine
end

