-- ==== Sys2Proof/Machine/StepOps.lean ====
section
/-! DEFINITION. Steps in flight on a position: when a part is done and clear, what it sends (R79, R280, R281, R316, R317), handoffs
(R77, R81, R321) and the sum chain (R77 to R82). -/

set_option Elab.async false

namespace Sys2Proof.Machine
namespace State

/-! ### A position's part of a step -/

/-- Matrices of the step's generation on this position. -/
def stepMats (s : State) (x : Step) : List Mat := ((s.gen? x.image).map s.matsOf).getD []

/-- `n` tokens of a step have left a matrix. -/
def matDone (x : Step) (n : Nat) (m : Mat) : Bool := decide (n * m.colTiles ≤ Tbl.get 0 m.id x.outs)

/-- The part is done: every token has left the matrices that feed port D, or at the last position every layer and the sampling
positions' logits; a position without a relay matrix is done with its last layer. A retake's result ends it (R318); a tuning step ends
by itself (R213). -/
def partDone (s : State) (x : Step) : Bool :=
  let ms := (s.stepMats x).filter fun m => m.kind == 0
  let relay := ms.filter fun m => m.destKind == 4
  (s.call x.call).tune.isSome || (x.retake.any fun t => t.applied) ||
  (if s.isLast then ms.all (matDone x x.tokens.length) && logitsIn x
   else if relay.isEmpty then ms.all (matDone x x.tokens.length)
   else relay.all (matDone x x.tokens.length))

/-- The part is clear (R316). -/
def partClear (x : Step) : Bool := x.checks == 0 && (!x.suspect || x.retaken)

/-- The partner's acknowledgement is held, or none is owed (R280, R281). -/
def ackHeld (s : State) (x : Step) : Bool := x.acked || !s.mirrored (s.call x.call)

/-- Send the step's mark to the partner and its JACK downstream as soon as the state allows (R280, R316, R317). -/
def moveStep (s : State) (c n : Nat) : State :=
  match s.step? c n with
  | none => s
  | some x =>
    let e := s.call c
    let toks := if s.isLast then s.sampleStep x else some { tokens := [], accepted := 0, ends := none, matteState := 0 }
    let s := match toks with
      | none => s
      | some o =>
        if s.mirrored e && !x.marked && s.partDone x && (!x.suspect || x.retaken) then
          (s.modStep c n fun x => { x with marked := true }).journal e [.stepMark e.partition e.tag n o.tokens]
        else s
    match s.step? c n with
    | none => s
    | some x =>
      if x.premium && !s.isLast && !x.jackSent && s.partDone x && partClear x && s.ackHeld x then
        (s.modStep c n fun x => { x with jackSent := true }).send .d 0 (.jack e.partition e.tag n s.regs.chainPos.toNat)
      else s

/-- Every premium step tries again. -/
def moveAll (s : State) : State := s.each ((s.steps.filter fun x => x.premium).map fun x => (x.call, x.step)) fun s k => s.moveStep k.1 k.2

/-- Output of a step for the next position: kept, and sent unless the part is suspect (R317). -/
def relayOut (s : State) (c n : Nat) (item : ActItem) : State :=
  match s.step? c n with
  | none => s
  | some x =>
    let s := if x.retake.any fun t => t.applied then s else s.modStep c n fun x => { x with output := x.output ++ [item] }
    if holdsOutput x then s
    else s.send .d (relayChannel x.premium) (.activation x.epoch x.image [item])

/-! ### Handoff (R77 step 5, R81, R321) -/

/-- The special-function unit that takes a handoff: a withdrawn bough's goes to the next that is not (R321). -/
def liveUnit (s : State) (b : Nat) : Nat :=
  ((List.range 128).map fun i => (b + i) % 128).find? (fun k => !(s.bough k).withdrawn) |>.getD b

/-- Products of a key that nothing refers to any more. -/
def tidyKey (s : State) (k : SumKey) : State :=
  let keep (p : Prod) : Bool := p.key != k || (s.bough (p.tile / 64)).checks.contains p.id ||
    ((s.tile p.tile).repeat_.any fun r => r.prod == some p.id) || (s.tile p.tile).folded.any fun r => r.prod == some p.id
  { s with
    prods := (s.prods.filter keep).map fun (p : Prod) => if p.key == k then { p with summed := true } else p
    sums := s.sums.filter fun r => r.key != k }

/-- The whole output vector of a matrix and token in binary32, once every column tile has been handed off (note to
Table 04-1). -/
def wholeVector (s : State) (w : WorkRef) (m : Mat) : Option (List F32) :=
  let hs := (List.range m.colTiles).map fun c => s.handoffs.find? fun h => h.key == { work := w, matrix := m.id, colTile := c }
  if hs.all fun h => h.isSome then
    some (hs.flatMap fun h => match h with
      | some h => h.accs.map (Acc.toF32 h.exponent)
      | none => [])
  else none

/-- A drain saves the vectors of calls in its scope instead of handing them off (R84, R86). -/
def savesVectors (s : State) (k : SumKey) : Bool :=
  s.drains.any fun d => (match d.why with
    | .partitionReset _ => false
    | _ => true) &&
  (match d.scope with
   | .partition q => (s.call k.work.call).partition == q
   | .all => true
   | .bough b => s.prods.any fun p => p.key == k && p.tile / 64 == b)

/-! ### Leaving a step (R187, R202, R222) -/

/-- A step is over on this position: what it left behind goes, but the products whose check or repeat is still to come. -/
def stepGone (s : State) (c n : Nat) : State :=
  let mine (w : WorkRef) : Bool := w.call == c && w.step == n
  let ids := (s.prods.filter fun (p : Prod) => mine p.key.work && !p.summed).map fun (p : Prod) => p.id
  let s := { s with
    steps := s.steps.filter fun x => !(x.call == c && x.step == n), prods := s.prods.filter fun (p : Prod) => !ids.contains p.id }
  ((s.forget mine).unqueue ids).settle

/-- An attempt at a step is discarded (R87, R317): its checks and repeats go on apart from it, and the step runs again from its
start, at once or when new input arrives. -/
def restartStep (s : State) (c n : Nat) (wait : Bool) : State :=
  let mine (w : WorkRef) : Bool := w.call == c && w.step == n
  let ids := (s.prods.filter fun (p : Prod) => mine p.key.work && !p.summed).map fun (p : Prod) => p.id
  let s := { s with
    prods := (s.prods.filter fun (p : Prod) => !ids.contains p.id).map fun (p : Prod) => if mine p.key.work then orphan p else p }
  ((s.forget mine).unqueue ids).modStep c n fun x => { x with
    outs := [], logits := [], attn := [], grads := [], backIn := [], appended := [], output := [], xferDone := 0, checks := 0, suspect := false,
    retake := none, retaken := false, returned := none, marked := false, acked := false, jackSent := false, unbounded := false,
    tier := false, used := [], outSums := [], discarded := wait, input := if wait then [] else x.input,
    inSums := if wait then [] else x.inSums }

/-- A call without a step in flight rests: PARKED, ended with BUDGET_PARK, or READY (R202). Budgets are kept at position 0. -/
def restState (s : State) (c : Nat) : State :=
  let e := s.call c
  if decide (e.state = .running) && !e.ended && s.steps.all fun x => x.call != c then
    if s.isFirst && decide ((refilled (s.customer e.customer) s.now).level ≤ 0) then
      (if e.failIfParked then s.endCall c .budgetPark none
       else (s.count (Ctr.parks e.partition)).modCall c fun e => { e with state := .parked })
    else s.modCall c fun e => { e with state := .ready }
  else s

/-- The draft passes of a committed step are over: its tokens leave upstream with the draft tokens (R21, R222). -/
def draftsDone (s : State) (x : Step) : State :=
  let e := s.call x.call
  let marks := s.marksOf { call := x.call, step := x.step, token := 0 }
  let s := if s.isFirst then s else
    s.send .u (relayChannel x.premium) (.tokenReturn e.partition e.tag x.step (x.drafting.getD []) e.drafts marks)
  (s.stepGone x.call x.step).restState x.call

/-- The scratch matte state along the draft tokens (R222). -/
def scratchState (m : Option Matte) (e : Entry) : Nat :=
  match m with
  | some m => if m.kind = 2 then e.drafts.foldl m.next e.matteState else e.matteState
  | none => e.matteState

/-- A draft pass has its logits: the next draft token with its distribution (R219, R222). Logits or an allowed set that give no
token end the passes. -/
def draftToken (s : State) (x : Step) (v : List F32) : State :=
  let e := s.call x.call
  let m := s.matteOfCall e
  let al := allowedSet m (scratchState m e) none v.length
  if (v.any fun y => !F32.isFinite y) || al.isEmpty then s.draftsDone x
  else
    let tok := sampleToken e v al (x.step + 1) e.drafts.length 2
    let q := if greedy e.sampler then [] else normalised (keptWeights e.sampler v al)
    let s := s.modCall x.call fun e => { e with drafts := e.drafts ++ [tok], draftQ := e.draftQ ++ [q] }
    if (s.call x.call).drafts.length < e.draftLive then s else s.draftsDone x

/-- The whole vector of a transposed product in binary32, once every row tile has been handed off: the gradient of the matrix's inputs;
none where another position holds row tiles of the matrix. -/
def wholeBack (s : State) (w : WorkRef) (m : Mat) : Option (List F32) :=
  let hs := (List.range m.rowTiles).map fun r => s.handoffs.find? fun h => h.key == { work := w, matrix := m.id, colTile := 65536 + r }
  if m.rowFirst = 0 && m.rowTiles == m.allRowTiles && hs.all fun h => h.isSome then
    some ((hs.filterMap id).flatMap fun h => h.accs.map (Acc.toF32 h.exponent))
  else none

/-- The gradient of what came over the relay goes upstream, from port U to port D of the position before, quantised as A8 like every
vector of a relay (R213; its form is the model's choice, log 167). -/
def relayBack (s : State) (w : WorkRef) (m : Mat) (x : Step) (v : List F32) : State :=
  if !s.isFirst && (s.received w m.id).isSome then
    let e := s.call w.call
    s.send .u (relayChannel x.premium) (.activation x.epoch x.image
      [{ p := e.partition, tag := e.tag, step := w.step, token := w.token, matrix := m.id, blocks := quantiseVector 127 v,
         premium := x.premium, marks := s.marksOf w }])
  else s

/-- One vector reaches its destination: relayed, gathered as logits or draft logits at the hub, or taken by its unit. A vector for
port D is quantised as A8, and its blocks count in the bough of the matrix's dest_unit (DESIGN CHOICE, log 164). The gradient of a
relayed vector goes upstream; a tuning call's logits are kept by token. -/
def deliver (s : State) (h : Handoff) (m : Mat) : State :=
  let w := h.key.work
  let s := { s with handoffs := s.handoffs ++ [h] }
  let back := decide (65536 ≤ h.key.colTile)
  let s := if back then s else s.modStep w.call w.step fun x => { x with outs := Tbl.update 0 m.id (· + 1) x.outs }
  match s.step? w.call w.step, (if back then none else s.wholeVector w m) with
  | some x, none =>
    (match (if back then s.wholeBack w m else none) with
     | some v => s.relayBack w m x v
     | none => s).moveStep w.call w.step
  | some x, some v =>
    let e := s.call w.call
    let s := if m.destKind = 4 ∧ m.kind = 0 then
        (s.countBlocks 0 h.unit v (quantiseVector 127 v)).relayOut w.call w.step
          { p := e.partition, tag := e.tag, step := w.step, token := w.token, matrix := m.id,
            blocks := quantiseVector 127 v, premium := x.premium, marks := s.marksOf w }
      else s
    let s := match (samplingTokens x).findIdx? fun t => t == w.token with
      | some j => if m.kind = 1 then s.modStep w.call w.step fun x => { x with logits := x.logits ++ [(j, v)] } else s
      | none => if m.kind = 1 ∧ e.tune.isSome = true then
          s.modStep w.call w.step fun x => { x with logits := x.logits ++ [(w.token, v)] } else s
    if m.kind = 3 ∧ m.destKind = 2 ∧ x.drafting.isSome = true ∧ w.token = x.tokens.length + e.drafts.length then s.draftToken x v
    else s.moveStep w.call w.step
  | _, _ => s.moveStep w.call w.step

/-- Input tiles of a column tile's sum with the boughs that form their terms. -/
def sumTiles (s : State) (image : Nat) (b : Binding) (m : Mat) (k : SumKey) : List (Nat × Nat) :=
  if 65536 ≤ k.colTile then (List.range m.colTiles).map fun c => (c, (s.prodDeck image b m (k.colTile - 65536) c).1 / 64)
  else (List.range m.rowTiles).map fun i => (m.rowFirst + i, (s.prodDeck image b m (m.rowFirst + i) k.colTile).1 / 64)

/-! ### Restoring a drained chunk (R87, R175, R195) -/

/-- The saved vector fails the checks of R87; the count of a transposed product's vector may be up to 1,024 (log 163). -/
def savedBad (v : Saved) : Bool :=
  decide (v.matrix = 0) || decide ((if 65536 ≤ v.colTile then 1024 else 512) < v.records.length) || decide (v.digest ≠ (sealSaved v).digest)

/-- A saved vector was formed by decks of another take than its matrix is bound to now (R87). A vector formed on the slower tier is
stale once every deck of a binding serves again. -/
def savedStale (s : State) (v : Saved) : Bool :=
  match s.binding? v.matrix with
  | none => true
  | some b =>
    if b.slow then decide (v.takeId ≠ 0)
    else if v.takeId = 0 then !b.decks.isEmpty && b.decks.all fun d => s.servesClass d true && !(s.deck d.1 d.2).unverified
    else decide (v.takeId ≠ b.takeId)

/-- Steps of a call with a stale vector. -/
def staleSteps (s : State) (e : Entry) : List Nat := distinct ((e.saved.filter s.savedStale).map fun v => v.step)

/-- What a call has saved is given back: the space and the vectors (R256). -/
def dropSaves (s : State) (c : Nat) (e : Entry) : State :=
  (s.modPart e.partition fun x => { x with saveUsed := x.saveUsed - e.saveSize }).modCall c fun e =>
    { e with
      saved := [], savedRows := [], savePtr := 0, saveSize := 0,
      state := if e.state = .drained ∨ e.state = .ready then .running else e.state }

/-- The steps of a drained call run on. -/
def undiscard (s : State) (c : Nat) : State :=
  { s with steps := s.steps.map fun (x : Step) => if x.call == c then { x with discarded := false } else x }

/-- A saved vector returns: it goes on to its destination with its exponent and retry count, or, with no records, the withdrawn
product is issued again on the span it had (R84, R86, R87). -/
def restoreVector (s : State) (c : Nat) (v : Saved) : State :=
  let k : SumKey := { work := { call := c, step := v.step, token := v.token }, matrix := v.matrix, colTile := v.colTile }
  match s.sumContext k with
  | none => s
  | some (image, b, m) =>
    if v.records.isEmpty then
      s.each ((s.sumTiles image b m k).map fun x => x.1) fun s i =>
        let r : ProductReq := { key := k, rowTile := i, transposed := decide (65536 ≤ v.colTile),
                                needs := ((v.needs.find? fun x => x.1 == i).map fun x => x.2).getD 0 }
        if s.canIssue r then s.requestWith r false else s
    else
      let kind := if 65536 ≤ v.colTile then 1 else m.destKind
      s.deliver { key := k, kind := kind, unit := if kind = 1 then s.liveUnit m.destUnit else m.destUnit, exponent := v.exponent,
                  accs := v.records.map fun w => (Acc.restore w).2, unbounded := v.unbounded, retry := v.retry } m

/-- A block of what a call has saved is uncorrectable (R295); the address is the model's (log 32). -/
def saveLost (s : State) (e : Entry) : State := s.uncorrEvent (512 * 2 ^ 20 + e.savePtr) 2

/-- What a call had saved returns (R87): a failed check or a lost block (Table 14-4) ends the call; a step with a vector from before a
cut runs again from its start, counted once; every other vector is restored. -/
def restoreCall (s : State) (c : Nat) : State :=
  let e := s.call c
  let lost := (!e.saved.isEmpty || !e.savedRows.isEmpty) && Config.saveRead s.free
  let s := if e.saved.isEmpty && e.savedRows.isEmpty then s else s.draw
  if lost then (s.saveLost e).endCall c .saveBad none
  else if e.saved.any savedBad then s.endCall c .saveBad none
  else
    let stale := s.staleSteps e
    let s := s.each stale fun s n => (s.restartStep c n false).count Ctr.restoreRestep
    let rows : List CanopyRow := e.savedRows.filterMap fun r =>
      (s.steps.find? fun x => x.call == c && x.step == r.step && !stale.contains x.step).map fun (x : Step) =>
        { lane := 16, work := { call := c, step := x.step, token := r.token }, layer := r.layer, group := r.group, row := r.row,
          nextKey := r.nextKey, acc := r.acc, bad := r.bad }
    let s := (s.dropSaves c e).undiscard c
    let s := { s with canopy := s.canopy ++ rows }
    s.each (e.saved.filter fun v => !stale.contains v.step) fun s v => s.restoreVector c v

/-- The handoff of a finished running sum. -/
def handOff (s : State) (r : SumRun) (m : Mat) (E : Int) : State :=
  let e := E + (r.retry : Int)
  let w := r.key.work
  let transposed := decide (65536 ≤ r.key.colTile)
  let tid := if s.prods.any fun p => p.key == r.key && decide (p.mode = .analogue)
    then ((s.sumContext r.key).map fun x => x.2.1.takeId).getD 0 else 0
  let unb := r.unbounded || s.prods.any fun p => p.key == r.key && p.unbounded
  let s := s.tidyKey r.key
  let s := if r.accs.any fun a => a.nf then
      { s with calls := if (s.call w.call).state = .free then s.calls
                        else Tbl.update {} w.call (fun x => { x with nonfinite := true }) s.calls }
    else s
  let kind := if transposed then 1 else m.destKind
  let h : Handoff := { key := r.key, kind := kind, unit := if kind = 1 then s.liveUnit m.destUnit else m.destUnit, exponent := e,
                       accs := r.accs, unbounded := unb, retry := r.retry }
  if s.savesVectors r.key then
    s.saveVector w.call
      { matrix := m.id, takeId := tid, tag := (s.call w.call).tag, step := w.step, colTile := r.key.colTile, token := w.token,
        exponent := e, retry := r.retry, aftus := (s.part (s.call w.call).partition).aftus, unbounded := unb,
        records := r.accs.map (Acc.saveRecord e), digest := 0 }
  else s.deliver h m

/-! ### The sum chain (R77, R79, R80, R82) -/

/-- Boughs of a sum in ascending order. -/
def sumBoughs (tiles : List (Nat × Nat)) : List Nat := sortBy (fun a b => decide (a < b)) (distinct (tiles.map fun x => x.2))

/-- Elements of a column tile's vector. -/
def sumWidth (m : Mat) (k : SumKey) : Nat :=
  if 65536 ≤ k.colTile then min 1024 (m.inputs - 1024 * (k.colTile - 65536)) else min 512 (m.outputs - 512 * k.colTile)

/-- A position that does not hold the first row tile continues the sum it receives (R79). -/
def continuesSum (m : Mat) (k : SumKey) : Bool := decide (k.colTile < 65536) && decide (0 < m.rowFirst)

/-- The sum goes on to the next position. -/
def relaysSum (m : Mat) (k : SumKey) : Bool := decide (k.colTile < 65536) && decide (m.rowFirst + m.rowTiles < m.allRowTiles)

/-- A running sum that starts at +0. -/
def freshSum (k : SumKey) (width : Nat) : SumRun :=
  { key := k, accs := List.replicate width Acc.zero, added := [], retry := 0, overflowed := false, graft := none, needsGraft := false,
    started := true, unbounded := false }

def setSum (s : State) (r : SumRun) : State :=
  { s with sums := if s.sums.any (fun x => x.key == r.key) then s.sums.map fun (x : SumRun) => if x.key == r.key then r else x
                   else s.sums ++ [r] }

/-- The bough sum: the exact sum of the terms and outlier terms of the bough's tiles (R77 step 1). -/
def boughTotal (s : State) (ps : List Prod) (E : Int) (width : Nat) : List Acc :=
  let xs := ps.map fun p => (p, s.prodSlot p)
  (List.range width).map fun j => xs.foldl (fun a x =>
    Acc.treeAdd (Acc.treeAdd a (prodTerm x.1 x.2 E j)) (outlierTerm x.1 E j)) Acc.zero

/-- Elements that overflow when `b` is added into `a`, or whose term has overflowed (R74, R80). -/
def overflowing (a b : List Acc) : List Nat :=
  (List.range a.length).filter fun j =>
    let x := a.getD j Acc.zero
    let y := b.getD j Acc.zero
    (!x.nf && y.nf && y.sat) || Acc.overflows x y

/-- Some element is non-finite by its input rather than by overflow. -/
def inputNonfinite (b : List Acc) : Bool := b.any fun y => y.nf && !y.sat

/-- The product's own input is non-finite: a block of the vector, or an outlier (R63, R102); such a product is never retried, whichever
of its tiles has added (R82). -/
def vectorNonfinite (s : State) (k : SumKey) : Bool :=
  let ofVec (v : ActVec) : Bool := v.blocks.any (fun b => b.scale == 255) || v.outliers.any fun x => !F32.isFinite x.2
  if 65536 ≤ k.colTile then s.prods.any fun p => p.key == k && p.nonfinite
  else (s.actFor k.work k.matrix none).any ofVec

/-- Where an addition into a running sum is made: a bough, or 128 the hub (Table 04-6). -/
def addUnit (b : Nat) : UnitField := if b < 128 then unitBough b else unitEngine 0

/-- The place at which a graft term is added: the destination of the handoff (R77 step 4), the hub for all but a special-function
unit's bough. -/
def graftPlace (s : State) (m : Mat) : Nat := if m.destKind = 1 then s.liveUnit m.destUnit else 128

/-- Count and report overflowing elements at a bough or at the hub (R80). -/
def reportOverflow (s : State) (k : SumKey) (b : Nat) (cols : List Nat) : State :=
  s.each cols fun s j => (s.count (if b < 128 then Ctr.accOvf 0 b else Ctr.accOvf 1 0)).workEvent k.work k.matrix 0x0201 (addUnit b)
    (own [(40, 2, k.colTile), (42, 2, j)])

/-- Every product of a column tile starts again as attempt `k` (R82); kept results of the discarded attempt stay with their
checks. -/
def attemptAgain (s : State) (key : SumKey) (k : Nat) : State :=
  let old := s.prods.filter fun p => p.key == key
  let ids := old.map fun p => p.id
  let checked (p : Prod) : Bool := (s.bough (p.tile / 64)).checks.contains p.id ||
    ((s.tile p.tile).repeat_.any fun q => q.prod == some p.id) || (s.tile p.tile).folded.any fun q => q.prod == some p.id
  let kept := (old.filter checked).map fun (p : Prod) => { p with summed := true, key := { p.key with work := { p.key.work with token := p.key.work.token + 2 ^ 32 } } }
  let again := old.zipIdx.map fun (x : Prod × Nat) =>
    Prod.prepare { x.1 with id := s.nextProd + x.2, retry := k, sampledCh := none, suspect := false }
  let s := { s with
    prods := s.prods.filter (fun (p : Prod) => p.key != key) ++ kept ++ again, nextProd := s.nextProd + old.length,
    tiles := Tbl.mapVals {} (fun t => { t with queue := t.queue.filter fun i => !ids.contains i }) s.tiles,
    boughs := Tbl.mapVals {} (fun b => { b with waiting := b.waiting.filter fun i => !ids.contains i }) s.boughs }
  s.each again enqueueProd

/-- Repeat a column tile's product with its codes halved once more (R82). -/
def retrySum (s : State) (r : SumRun) (first : Nat) : State :=
  let k := r.retry + 1
  let shift := k - r.baseRetry
  let base := r.base.map fun a => if a.nf then a else { a with m := Bits.roundHalfEven a.m (2 ^ shift) }
  ((s.count (Ctr.aftusRetries first)).setSum { r with
    accs := if r.base.isEmpty then r.accs.map fun _ => Acc.zero else base, added := [], retry := k }).attemptAgain r.key k

/-- Add a vector into the running sum at a bough, or at the hub, with the overflow handling of R80 and R82. `cont` goes on when the
addition stands. A product that no attempt may repeat because its input is non-finite keeps its result, and in Aftus mode that is
counted as a fallback too (DESIGN CHOICE, log 161). -/
def addInto (s : State) (r : SumRun) (v : List Acc) (E : Int) (b first : Nat) (cont : State → SumRun → State) : State :=
  let bad := overflowing r.accs v
  let aftus := (s.part (s.call r.key.work.call).partition).aftus
  if bad.isEmpty then cont s { r with accs := List.zipWith Acc.add r.accs v }
  else if aftus && decide (r.retry + 1 ≤ 3) && decide (E + r.retry + 1 ≤ 511) && !inputNonfinite v && !inputNonfinite r.accs &&
      !s.vectorNonfinite r.key then
    s.retrySum r first
  else
    let s := if aftus && !r.overflowed then
        (s.count (Ctr.aftusFallbacks first)).workEvent r.key.work r.key.matrix 0x0202 (unitBough first) (own [(40, 2, r.key.colTile)])
      else s
    let s := s.reportOverflow r.key b bad
    cont s { r with accs := List.zipWith Acc.add r.accs v, overflowed := true }

/-- The call's pinned generation names the matrix (R208, R210), with a tuning call's own values (R213); a graft never applies to a draft
matrix, nor to a transposed product but a tuning call's. -/
def graftFor (s : State) (k : SumKey) : Option Graft :=
  let e := s.call k.work.call
  if e.hasGraft && (decide (k.colTile < 65536) || e.tune.isSome) && !((s.sumContext k).any fun x => x.2.2.kind == 3) then
    (s.graft? e.graftHandle e.graftGen).bind fun g =>
      if 0 < g.rank ∧ g.alpha ≠ 0 ∧ g.entries.any (fun x => x.1 == k.matrix) then some (e.ownGraft g) else none
  else none

/-- A graft term rounded to a multiple of the vector's exponent (R77 step 4). -/
def graftAcc (x : F32) (e : Int) : Acc :=
  match F32.dec x with
  | .nan => Acc.nan
  | .inf neg => Acc.infinity neg false
  | .fin neg m ex => termOf (if neg then -(m : Int) else m) ex e

/-- Every bough of the position has added: the next position, the graft term, the handoff. In attempt `k` of a retried vector the
graft term is rounded to a multiple of the vector's exponent E + k (DESIGN CHOICE, log 162). -/
def sumEnds (s : State) (r : SumRun) (m : Mat) (b first : Nat) : State :=
  let w := r.key.work
  let e := s.call w.call
  if relaysSum m r.key then
    let item : SumItem := { token := w.token, matrix := m.id, colTile := r.key.colTile, retry := r.retry,
                            records := r.accs.map (Acc.saveRecord (m.exponent + r.retry)) }
    match s.step? w.call w.step with
    | none =>
      -- a retake that is served: the result takes it (R282)
      let s := s.tidyKey r.key
      { s with handoffs := s.handoffs ++ [{ key := r.key, kind := 4, unit := 0, exponent := m.exponent + r.retry, accs := r.accs,
                                            unbounded := false }] }
    | some x =>
      let s := (s.tidyKey r.key).modStep w.call w.step fun x => { x with
        outs := Tbl.update 0 m.id (· + 1) x.outs, outSums := if x.retake.any fun t => t.applied then x.outSums else x.outSums ++ [item] }
      (if holdsOutput x then s
       else s.send .d (relayChannel x.premium) (.runningSum e.partition e.tag w.step x.epoch x.image (s.marksOf w) item)).moveStep w.call w.step
  else
    match s.graftFor r.key with
    | none => s.handOff r m m.exponent
    | some _ =>
      match r.graft with
      | none => (s.count (Ctr.graftLateWaits b)).setSum { r with needsGraft := true }
      | some y =>
        s.addInto r (y.map fun x => graftAcc x (m.exponent + r.retry)) m.exponent (s.graftPlace m) first
          fun s r => s.handOff r m m.exponent

/-- The boughs of a sum that have not added yet, and the products of the first. -/
def nextBough (s : State) (k : SumKey) : Option (Nat × Mat × Nat × List Prod × SumRun × List Nat) :=
  match s.sumContext k with
  | none => none
  | some (image, b, m) =>
    let tiles := s.sumTiles image b m k
    let r? := s.sums.find? fun r => r.key == k
    let r := r?.getD (freshSum k (sumWidth m k))
    let left := (sumBoughs tiles).filter fun x => !r.added.contains x
    match left with
    | [] => none
    | x :: rest =>
      let idx := (tiles.filter fun y => y.2 == x).map fun y => y.1
      let ps := idx.filterMap fun i => s.prods.find? fun p => p.key == k && p.rowTile == i && !p.summed
      if ps.length = idx.length ∧ ps.all s.termsReady = true ∧ r.needsGraft = false ∧ (continuesSum m k = false ∨ r.started = true ∧ r?.isSome = true)
      then some (x, m, (sumBoughs tiles).headD x, ps, r, rest) else none

/-- The running sums of a column tile as they arrive: the sum goes on from them, with the graft term that has come before (R79). -/
def sumReceived (s : State) (k : SumKey) (i : SumItem) : State :=
  let accs := i.records.map fun w => (Acc.restore w).2
  let old := s.sums.find? fun r => r.key == k
  let s := s.setSum { freshSum k 0 with
    accs := accs, retry := i.retry, graft := old.bind fun r => r.graft, needsGraft := old.any fun r => r.needsGraft,
    unbounded := old.any fun r => r.unbounded, base := accs, baseRetry := i.retry }
  if 0 < i.retry then s.attemptAgain k i.retry else s

/-! ### SRAM reads of a step (R295, R298) -/

/-- Position 0 discards a step on every position and issues it again from its start (R298). -/
def memRestep (s : State) (c n : Nat) : State :=
  let e := s.call c
  let s := (s.restartStep c n false).count Ctr.memRestep
  if s.isLast then s else s.send .d 2 (.callCtrl (.restep e.partition e.tag n))

/-- A step has met an uncorrectable transient block (R298): the second time on this position it is as critical control state. A later
position reports it upstream in CALL_CTRL; a retake that is served runs again from its request (the report, the place of the count and
the retake are the model's choices, log 173). -/
def transientLost (s : State) (w : WorkRef) : State :=
  let e := s.call w.call
  match s.step? w.call w.step with
  | none =>
    let s1 := s.restartStep w.call w.step false
    match s.servedReq w with
    | none => s1
    | some q => s1.each q.sums fun s i =>
        s.sumReceived { work := { call := w.call, step := w.step, token := i.token }, matrix := i.matrix, colTile := i.colTile } i
  | some _ =>
    if e.memFailed = some w.step then s.resetArrives false 6
    else
      let s := s.modCall w.call fun e => { e with memFailed := some w.step }
      if s.isFirst then s.memRestep w.call w.step
      else (s.restartStep w.call w.step true).send .u 2 (.callCtrl (.restep e.partition e.tag w.step))

/-- An uncorrectable SRAM block by its store class (Table 14-4): transient, critical control or always-on. -/
def sramLost (s : State) (w : Option WorkRef) (cls : Nat) : State :=
  match cls, w with
  | 4, some w => s.transientLost w
  | 6, _ => s.resetArrives true 7
  | _, _ => s.resetArrives false 6

/-- The SRAM blocks that a row reads with flipped bits, in order; what the row does follows unless one of them is uncorrectable. -/
def afterSram (w : Option WorkRef) (go : State → State) : List SramRead → State → State
  | [], s => go s
  | r :: rest, s =>
    if classify r.flips = .uncorrectable then (s.noteSram r).sramLost w r.cls else afterSram w go rest (s.noteSram r)

/-- A bough sum becomes valid and is added (R77). -/
def boughSum (s : State) (k : SumKey) : State :=
  match s.nextBough k with
  | none => s
  | some (b, m, first, ps, r, rest) =>
    let v := s.boughTotal ps m.exponent r.accs.length
    let ids := ps.map fun p => p.id
    s.addInto r v m.exponent b first fun s r =>
      let r := { r with added := r.added ++ [b] }
      let s := ({ s with prods := s.prods.map fun (p : Prod) => if ids.contains p.id then { p with summed := true } else p }).setSum r
      if rest.isEmpty then s.sumEnds r m b first else s

end State
end Sys2Proof.Machine
end

