-- ==== Sys2Proof/Machine/Sums.lean ====
section
/-! DEFINITION. The correction lane and the sum chain (04, 05), placed transfers and graft terms: the rows. -/

set_option Elab.async false

namespace Sys2Proof.Machine
namespace State

/-! ### Passes (R104, R106) -/

/-- A product's overflow or clip pass can run: its phases are over, its in-line rows are in (R104); reads of suspended columns do not
hold it (R106). -/
def passReady (s : State) (p : Prod) : Bool :=
  p.passNeeded && p.plan.isEmpty && p.inline.isEmpty && decide ((s.tile p.tile).active ≠ .product p.id)

/-- The order of issue of the matrix product that a tile's product belongs to: that of the first of its tiles' products. -/
def issueOrder (s : State) (p : Prod) : Nat :=
  s.prods.foldl (fun n q => if q.key.work == p.key.work && q.key.matrix == p.key.matrix && q.transposed == p.transposed
    then min n q.id else n) p.id

/-- The digital pass unit of the bough takes this product next: in order of product issue, and within one product by ascending
global tile number (R106). -/
def passNext (s : State) (p : Prod) : Bool :=
  let key (q : Prod) : List Int := [(s.issueOrder q : Int), (q.tile : Int), (q.id : Int)]
  s.passReady p && !(s.prods.any fun q => decide (q.tile / 64 = p.tile / 64) && s.passReady q && keyLt (key q) (key p))

/-! ### Graft terms (R210, R211) -/

/-- The input vector of a matrix as BF16 (R210): the activation buffer's decoded blocks with outliers at their FP32 values; none with a
non-finite block. -/
def graftInput (n : Nat) (x : ActVec) : Option (List F32) :=
  let blocks := x.blocks
  let outliers := x.outliers
  if blocks.any (fun b => b.scale == 255) then none
  else some ((List.range n).map fun i =>
    let v := match outliers.find? fun x => x.1 == i with
      | some x => x.2
      | none => match blocks[i / 32]? with
        | some b => F32.enc (blockValue b (i % 32))
        | none => 0
    F32.ofBF16 (F32.toBF16 v))

/-- R210 for the columns of one tile. -/
def graftTerm (g : Graft) (m : Mat) (first width : Nat) (x : Option (List F32)) : List F32 :=
  match x, g.entries.find? fun e => e.1 == m.id with
  | some xb, some (_, ao, bo) =>
    let u := (List.range g.rank).map fun j =>
      F32.sumFrom F32.zero (xb.zipIdx.map fun y => F32.mul y.1 (graftElem g ao (y.2 * g.rank + j)))
    (List.range width).map fun o =>
      F32.mul g.alpha (F32.sumFrom F32.zero (u.zipIdx.map fun y => F32.mul y.1 (graftElem g bo (y.2 * m.outputs + first + o))))
  | _, _ => List.replicate width F32.nan

/-- The graft's part of a transposed product for the outputs of one row tile: α times (ḡ·Bᵀ)·Aᵀ, in the order of R210 with A and B
exchanged (R213: products through the graft are digital). -/
def graftBack (g : Graft) (m : Mat) (first width : Nat) (x : Option (List F32)) : List F32 :=
  match x, g.entries.find? fun e => e.1 == m.id with
  | some xb, some (_, ao, bo) =>
    let u := (List.range g.rank).map fun j =>
      F32.sumFrom F32.zero (xb.zipIdx.map fun y => F32.mul y.1 (graftElem g bo (j * m.outputs + y.2)))
    (List.range width).map fun i =>
      F32.mul g.alpha (F32.sumFrom F32.zero (u.zipIdx.map fun y => F32.mul y.1 (graftElem g ao ((first + i) * g.rank + y.2))))
  | _, _ => List.replicate width F32.nan

/-- The graft term of a column tile, or of a transposed product's row tile. -/
def graftVector (s : State) (g : Graft) (m : Mat) (k : SumKey) : List F32 :=
  if 65536 ≤ k.colTile then
    graftBack g m (1024 * (k.colTile - 65536)) (sumWidth m k)
      ((s.step? k.work.call k.work.step).bind fun x => gradOf x 3 m.id k.work.token 0)
  else graftTerm g m (512 * k.colTile) (sumWidth m k) ((s.actFor k.work k.matrix none).bind (graftInput m.inputs))

/-- The place of a call in batch order: steps stand in the order in which their batches issued them. -/
def batchPlace (s : State) (c : Nat) : Nat := s.steps.findIdx fun x => x.call == c

/-! ### Staging (R212) -/

/-- The generation that a call's steps stage: none where it adds nothing (Table 10-1). -/
def stagedGraft (s : State) (c : Nat) : Option Graft :=
  let e := s.call c
  if e.hasGraft then (s.graft? e.graftHandle e.graftGen).filter fun g => decide (0 < g.rank) && decide (g.alpha ≠ 0) else none

/-- The matrices of a layer that a generation names. -/
def stagedMats (mats : List Mat) (g : Graft) (layer : Nat) : List Mat :=
  mats.filter fun m => m.layer == layer && g.entries.any fun x => x.1 == m.id

/-- A half of the stage area as the scheduler fills it for a layer: one copy for each generation that a step of the batch names there. -/
def stageHalf (s : State) (image batch layer : Nat) : StageHalf :=
  let mats := ((s.gen? image).map s.matsOf).getD []
  let gs := ((s.steps.filter fun x => x.batch == batch).filterMap fun x => s.stagedGraft x.call).filter fun g =>
    !(stagedMats mats g layer).isEmpty
  { batch := batch, layer := layer, grafts := distinct (gs.map fun g => (g.handle, g.generation)) }

/-- One half serves the layer that runs, and the other is filled for the next. -/
def stageFor (s : State) (image batch layer : Nat) : State :=
  let later := ((((s.gen? image).map s.matsOf).getD []).map fun m => m.layer).filter fun l => decide (layer < l)
  let next := match later with
    | [] => []
    | l :: ls => [s.stageHalf image batch (ls.foldl min l)]
  { s with stage := s.stageHalf image batch layer :: next }

/-- A graft term still owed to a product: its vector is complete, its sum ends here, and the engine has not formed the term. A
transposed product of a tuning call has its term from the column input vector (R213). -/
def graftOwed (s : State) (k : SumKey) : Bool :=
  (s.graftFor k).isSome && !(s.handoffs.any fun h => h.key == k) &&
  (match s.sumContext k with
   | none => false
   | some (_, _, m) =>
     if 65536 ≤ k.colTile then
       decide (m.rowFirst ≤ k.colTile - 65536) && decide (k.colTile - 65536 < m.rowFirst + m.rowTiles) &&
       ((s.step? k.work.call k.work.step).any fun x => (gradOf x 3 m.id k.work.token 0).isSome)
     else (s.actFor k.work k.matrix none).isSome && !relaysSum m k && decide (k.colTile < m.colTiles)) &&
  !(s.sums.any fun r => r.key == k && r.graft.isSome)

/-- Terms that the engine forms before another's (R211): calls in batch order, then matrices in ascending matrix_id; among the tokens
and column tiles of one product, in ascending order (DESIGN CHOICE, log 160). -/
def graftBefore (s : State) (k : SumKey) : Bool :=
  let key (k : SumKey) : List Int :=
    [(s.batchPlace k.work.call : Int), (k.work.call : Int), (k.matrix : Int), (k.work.token : Int), (k.colTile : Int)]
  let ks := s.acts.flatMap fun v => match v.transposed with
    | some r => [({ work := v.work, matrix := v.matrix, colTile := 65536 + r } : SumKey)]
    | none => (List.range (((s.sumContext { work := v.work, matrix := v.matrix, colTile := 0 }).map
        fun x => x.2.2.colTiles).getD 0)).map fun c => ({ work := v.work, matrix := v.matrix, colTile := c } : SumKey)
  ks.any fun q => keyLt (key q) (key k) && s.graftOwed q

/-- A graft term can finish: the call has a graft on the matrix, the input vector is complete, the sum ends here and has no term yet,
and no term that goes before it is owed (R211). -/
def graftReady (s : State) (k : SumKey) : Bool := s.graftOwed k && !s.graftBefore k && !s.stepHeld k.work

/-- A graft term is ready: kept for the sum, or added where the sum waits for it. -/
def graftDone (s : State) (k : SumKey) : State :=
  match s.graftFor k, s.sumContext k with
  | some g, some (image, b, m) =>
    let width := sumWidth m k
    let y := s.graftVector g m k
    let r := ((s.sums.find? fun r => r.key == k)).getD { freshSum k width with started := !continuesSum m k }
    let r := { r with graft := some y }
    let s := match s.step? k.work.call k.work.step with
      | some x => s.stageFor image x.batch m.layer
      | none => s
    let s := if k.colTile = 0 ∨ k.colTile = 65536 + m.rowFirst then s.count Ctr.graftTerms else s
    let s := s.useUnit k.work (2 ^ 17 + 160)
    let first := (sumBoughs (s.sumTiles image b m k)).headD 0
    if r.needsGraft then
      s.addInto { r with needsGraft := false } (y.map fun x => graftAcc x (m.exponent + r.retry)) m.exponent (s.graftPlace m) first
        fun s r => s.handOff r m m.exponent
    else s.setSum r
  | _, _ => s

/-! ### Continuity checks (R110, R112, R113) -/

/-- Columns that a product's check compares. -/
def checkOutputs (s : State) (p : Prod) : List Nat :=
  match p.sampledCh with
  | some c => (channelOutputs p c).filter fun j => decide (j < s.outUsed p)
  | none => []

/-- A product that only its check kept is dropped. -/
def dropIfDone (s : State) (id : Nat) : State :=
  match s.prod? id with
  | none => s
  | some p =>
    let kept := !p.summed || (s.bough (p.tile / 64)).checks.contains id ||
      ((s.tile p.tile).repeat_.any fun r => r.prod == some id) || ((s.tile p.tile).folded.any fun r => r.prod == some id) ||
      s.sums.any fun (r : SumRun) => r.key == p.key
    if kept then s else { s with prods := s.prods.filter fun q => q.id != id }

/-- A check has compared its columns; it is charged to its bough as four product grants (R112). -/
def checkDone (s : State) (p : Prod) : State :=
  let b := p.tile / 64
  let w := p.key.work
  let ds := s.deviations p (s.checkOutputs p)
  let s := (s.modBough b fun x => { x with checks := x.checks.filter fun i => i != p.id }).modStep w.call w.step
    fun x => { x with checks := x.checks - 1 }
  let s := (s.count (Ctr.contChecks b)).levelMax (Ctr.contMaxDev b)
    (Bits.roundHalfEven ((largest (ds.map fun d => d.2.2)).natAbs : Int) 256).toNat
  let s := s.chargeBy 4 0 (some b)
  let s := s.mismatch p (ds.filter (fails p))
  (s.dropIfDone p.id).moveStep w.call w.step

/-! ### Outlier windows (R105) -/

/-- Spans of a histogram with more than `n` outliers. -/
def spansOver (h : Histo) (n : Nat) : Nat := (h.bins.drop (n + 1)).sum

/-- The share of spans above `n` exceeds the limit. -/
def overLimit (h : Histo) (limit n : Nat) : Bool := decide (limit * h.bins.sum < 65536 * spansOver h n)

/-- The live matrix with an identifier. -/
def liveMat (s : State) (m : Nat) : Option Mat := s.liveGen.bind fun g => (s.matsOf g).find? fun x => x.id == m

/-- The window of a matrix ends (R105); ovf_limit 0 raises no event (Table 05-3). -/
def windowEnds (s : State) (m : Nat) : State :=
  match s.histos.find? fun h => h.matrix == m with
  | none => s
  | some h =>
    let s1 := { s with histos := s.histos.filter fun h => h.matrix != m }
    match s.liveMat m with
    | none => s1
    | some x =>
      if x.ovfLimit = 0 ∨ overLimit h x.ovfLimit x.budget = false then s1
      else
        let best := (List.range 17).find? fun n => !overLimit h x.ovfLimit n
        s1.event {
          code := 0x0301, matrix := m, image := (s.liveGen.map fun g => g.imageId).getD 0,
          own := own [(40, 4, h.bins.sum), (44, 4, h.passes), (48, 1, best.getD 16), (49, 1, if best.isSome then 0 else 1)] }

end State

/-! ### The reads of a bough sum -/

namespace State

/-- Products of the next bough whose terms are digital throughout read these blocks of their slots. -/
def readsSum (s : State) (k : SumKey) (reads : List (Nat × BlockRead)) : Bool :=
  match s.nextBough k with
  | none => false
  | some (_, _, _, ps, _, _) =>
    reads.all fun x => decide (x.2.block < 4096) && ps.any fun p => p.id == x.1 && decide (p.mode ≠ .analogue)

/-- A bough sum with its reads. -/
def sumReturns (s : State) (k : SumKey) (reads : List (Nat × BlockRead)) : State :=
  if reads.all fun x => readOk x.2 then (slowReads reads s).boughSum k else slowReads reads s

end State

/-! ### The rows -/

def execOutlierReadReturn (prod : Nat) (reads : RowReads) (s : State) : Result :=
  match s.prod? prod with
  | some p => ((State.afterSram (some p.key.work) (fun s => s.rowReturns p reads.hbm) reads.sram s).charge 4 none).when "OUTLIER_READ_RETURN"
      (s.affordable 4 && reads.sram.all SramRead.ok && (State.nextRead p).any fun i => reads.hbm.all fun r => p.readsBlock i r.block)
  | none => .fault (.outOfPlace "OUTLIER_READ_RETURN")

def execOverflowPass (prod : Nat) (reads : List BlockRead) (s : State) : Result :=
  match s.prod? prod with
  | some p => ((s.passReturns p reads).charge 4 none).when "OVERFLOW_PASS"
      (s.passNext p && s.affordable 4 && reads.all fun r => p.passReads r.block)
  | none => .fault (.outOfPlace "OVERFLOW_PASS")

def execBoughSum (key : SumKey) (reads : SumReads) (s : State) : Result :=
  (State.afterSram (some key.work) (fun s => s.sumReturns key reads.hbm) reads.sram s).when "BOUGH_SUM"
    (s.readsSum key reads.hbm && reads.sram.all SramRead.ok)

/-- A graft term; a grant that an overdue slate withholds leaves it to come again (R312). -/
def execGraftTerm (key : SumKey) (vec : Option VecIn) (sram : List SramRead) (s : State) : Result :=
  let row := if 65536 ≤ key.colTile then some (key.colTile - 65536) else none
  (if s.unitHeld 160 then s.withhold 160
    else (State.afterSram (some key.work) (fun s => s.graftDone key) sram (s.takeVec key row vec)).charge 5 none).when "GRAFT_TERM"
    (s.vecOk key row vec && s.affordable 5 && sram.all SramRead.ok && (s.takeVec key row vec).graftReady key)

def execContCheckDone (prod : Nat) (s : State) : Result :=
  match s.prod? prod with
  | some p => (s.checkDone p).when "CONT_CHECK_DONE" ((s.bough (p.tile / 64)).checks.contains prod && p.plan.isEmpty && s.affordableBy 4 0)
  | none => .fault (.outOfPlace "CONT_CHECK_DONE")

def execOutlierWindowEnd (matrix : Nat) (s : State) : Result :=
  (s.windowEnds matrix).when "OUTLIER_WINDOW_END" (s.running && s.now % 2 ^ 30 == 0)

end Sys2Proof.Machine
end

