-- ==== Sys2Proof/Machine/Attention.lean ====
section
/-! DEFINITION. Attention and the KV cache (08): pages, appends, the taproot engines, the canopy engine. -/

set_option Elab.async false

namespace Sys2Proof.Machine

/-! ### Pages (Tables 08-2, 08-3) -/

/-- Whether a KV format is KV8. -/
def isKv8 (fmt : Nat) : Bool := fmt == 0x21

/-- Bytes of a head vector's elements. -/
def headBytes (fmt : Nat) : Nat := if isKv8 fmt then 128 else 64

/-- Offset of a section of a page of `h` KV heads: 0 K elements, 1 K scales, 2 V elements, 3 V scales, 4 the end. -/
def sectionOff (fmt h sec : Nat) : Nat :=
  let e := 64 * headBytes fmt * h
  match sec with
  | 0 => 0
  | 1 => e
  | 2 => e + 256 * h
  | 3 => 2 * e + 256 * h
  | _ => 2 * e + 512 * h

/-- Address of a page entry's run. -/
def pageAddr (v : Nat) : Nat := frameAddr (v % 8) (v / 8)

/-- The page entry of a layer. -/
def Entry.page (e : Entry) (layer i : Nat) : Nat := Tbl.get 0 (layer * 4096 + i) e.pages

/-- The page entries of a layer by page number. -/
def Entry.layerPages (e : Entry) (layer : Nat) : Tbl Nat :=
  (e.pages.filter fun x => x.1 / 4096 == layer).map fun x => (x.1 % 4096, x.2)

/-- Bytes of a head vector's codes (R58). -/
def packCodes (fmt : Nat) (cs : List Int) : Bytes :=
  if isKv8 fmt then cs.map fun c => BitVec.ofNat 8 (Bits.ofSigned c 8)
  else (List.range (cs.length / 2)).map fun i =>
    BitVec.ofNat 8 (Bits.ofSigned (cs.getD (2 * i) 0) 4 + 16 * Bits.ofSigned (cs.getD (2 * i + 1) 0) 4)

/-- The code of dimension `d` in a head vector's bytes. -/
def unpackCode (fmt : Nat) (b : Bytes) (d : Nat) : Int :=
  if isKv8 fmt then Bits.signed (Bits.byteAt b d) 8 else Bits.signed (Bits.byteAt b (d / 2) / 16 ^ (d % 2)) 4

namespace State

/-- The stack that a seed gives page `i` (R162). -/
def seedStack (seed : BitVec 64) (c layer i : Nat) : Nat := ((Config.pageStacks seed c layer (i / 8)) (Fin.ofNat 8 (i % 8))).val

/-- A page group of a layer holds a page. -/
def groupHeld (s : State) (c layer g : Nat) : Bool := (List.range 8).any fun j => (s.call c).page layer (8 * g + j) != 0

/-- The spread seed under which a page group lies: that of its first page, until a migration moves the group (R306). -/
def groupSeed (s : State) (c layer g : Nat) : BitVec 64 :=
  if s.groupHeld c layer g then Tbl.get 0 (layer * 512 + g) (s.call c).pageSeeds else s.mem.spreadSeed

/-- The stack of page `i` (R162). -/
def pageStack (s : State) (c layer i : Nat) : Nat := seedStack (s.groupSeed c layer (i / 8)) c layer i

/-- A run of `n` frames from frame `f` of a stack is free (R161). -/
def runFree (s : State) (stack f n : Nat) : Bool :=
  (stack != 0 || f != 0) &&
  s.mem.runs.all fun r => r.1 / 2 ^ 32 != stack || decide (r.1 % 2 ^ 32 + r.2 ≤ f) || decide (f + n ≤ r.1 % 2 ^ 32)

/-- The lowest free aligned run of `n` frames on a stack (the choice among free runs is the model's, log 31). -/
def findRun (s : State) (stack n : Nat) : Option Nat :=
  ((List.range (s.framesUsed stack + 2)).map fun k => k * n).find? fun f => s.runFree stack f n && decide (f + n ≤ s.framesPerStack)

/-- Zeros over whole blocks; narrow writes that wait for them are older and are dropped. -/
def clearBlocks (s : State) (a n : Nat) : State :=
  s.modMem fun m => { m.clear a n with
    merge := Tbl.mapVals [] (fun (l : List Merge) => l.filter fun e => !(decide (a ≤ e.block * 64) && decide (e.block * 64 < a + n))) m.merge }

/-- The address of a call's directory, and of the list block of a directory entry (R162). -/
def dirAddr (c : Nat) : Nat := 64 * ((Config.dirBlock c).toNat + 1)

def listAddr (c k : Nat) : Nat := 64 * ((Config.listBlock c k).toNat + 1)

/-- Allocate the page of (call, layer, page index), its list block with the block's first page, and zero its scale sections (R161 to
R163). -/
def allocPage (s : State) (c layer i h : Nat) : State :=
  let e := s.call c
  let st := s.pageStack c layer i
  let n := runFrames e.kvFormat h
  match s.findRun st n with
  | none => s
  | some f =>
    let v := 8 * f + st
    let a := pageAddr v
    let seed := s.groupSeed c layer (i / 8)
    let s := s.modMem fun m => { m with runs := Tbl.set 0 (st * 2 ^ 32 + f) n m.runs }
    let s := s.modCall c fun e => { e with
      pages := Tbl.set 0 (layer * 4096 + i) v e.pages, pageSeeds := Tbl.set 0 (layer * 512 + i / 8) seed e.pageSeeds,
      pageDir := if e.pageDir = 0 then dirAddr c else e.pageDir,
      lists := if Tbl.has (layer * 64 + i / 64) e.lists then e.lists
        else Tbl.insert (layer * 64 + i / 64) (listAddr c (layer * 64 + i / 64)) e.lists }
    let s := (s.clearBlocks (a + sectionOff e.kvFormat h 1) (256 * h)).clearBlocks (a + sectionOff e.kvFormat h 3) (256 * h)
    (s.count (Ctr.kvPagesAlloc st)).watchFrames st

/-! ### What a step's attention works on -/

/-- What a piece of work's attention spans: its image, the position of its first token, the number of its tokens, and the token index of
the first. -/
structure Span where
  image : Nat
  first : Nat
  n : Nat
  base : Nat
  /-- its queries run on the canopy engine (prefill), and it is a pass of the draft model -/
  prefill : Bool
  draft : Bool

/-- The span of work: a step in flight here, or a retake that is served (R282). Behind a committed step's tokens, token `n + k` is its
draft pass `k`, whose query stands at the call's KV length plus `k` (R167, R222); tokens from `n + 16` on are those of the draft prefill
ahead of the passes (R225). -/
def attnSpan (s : State) (w : WorkRef) : Option Span :=
  match s.step? w.call w.step with
  | some x =>
    let n := x.tokens.length
    let len := (s.call w.call).kvLen
    if x.discarded then none
    else if x.drafting.isNone ∨ w.token < n then
      some { image := x.image, first := x.first, n := n, base := 0, prefill := decide (x.kind = .prefill), draft := false }
    else if w.token < n + 16 then
      some { image := x.image, first := len + (w.token - n), n := 1, base := w.token, prefill := false, draft := true }
    else some { image := x.image, first := x.draftFrom, n := len - x.draftFrom, base := n + 16, prefill := true, draft := true }
  | none => (s.servedReq w).map fun q =>
      let x := s.servedStep w.call q
      { image := q.image, first := x.2.1, n := x.2.2, base := 0, prefill := decide (x.1.kind = .prefill), draft := false }

/-- The position of the work's query. -/
def Span.pos (x : Span) (w : WorkRef) : Nat := x.first + (w.token - x.base)

/-- Tokens that the span's queries may attend end here: the KV length and the step's new tokens (R168). -/
def Span.limit (x : Span) : Nat := x.first + x.n

/-- The attention record of a layer for the work. -/
def attnRecordOf (s : State) (w : WorkRef) (layer : Nat) : Option Attn :=
  (s.attnSpan w).bind fun x => (s.gen? x.image).bind fun g => s.attnFor g layer

end State

/-- A canopy row is this one of the work. -/
def CanopyRow.isRow (y : CanopyRow) (w : WorkRef) (layer group rowTile : Nat) : Bool :=
  y.work == w && y.layer == layer && y.group == group && y.row == rowTile

/-- A backward row is this one of the work. -/
def BackRow.isRow (y : BackRow) (w : WorkRef) (layer group rowTile : Nat) : Bool :=
  y.work == w && y.layer == layer && y.group == group && y.row == rowTile

/-- Scale codes and codes of a quantised head vector: 4 blocks (R165). -/
def quantiseHead (fmt : Nat) (x : List F32) : List Block := quantiseVector (if isKv8 fmt then 127 else 7) x

namespace State

/-! ### Append (R165) -/

/-- Write one head vector into a section pair of a page. Scales are narrow writes through the merge buffer, but in a page that a prefill
chunk fills, which is written whole. -/
def writeHead (s : State) (fmt h a sec head slot : Nat) (whole : Bool) (bs : List Block) : State :=
  let k := 64 * head + slot
  let s := s.wideWrite (a + sectionOff fmt h sec + k * headBytes fmt) (packCodes fmt (bs.flatMap fun b => b.codes))
  let at' := a + sectionOff fmt h (sec + 1) + 4 * k
  let sc : Bytes := bs.map fun b => BitVec.ofNat 8 b.scale
  if whole then s.wideWrite at' sc else s.narrowWrite at' sc

/-- A token's heads as the journal carries them (Table 13-9). -/
def kvRecord (e : Entry) (layer t : Nat) (ks vs : List (List Block)) : JournalRec :=
  let codes (bs : List Block) : Bytes := packCodes e.kvFormat (bs.flatMap fun b => b.codes)
  let scales (bs : List Block) : Bytes := bs.map fun b => BitVec.ofNat 8 b.scale
  .kv e.partition e.tag layer (t / 64) (t % 64) ((ks.zip vs).map fun x => (codes x.1, scales x.1, codes x.2, scales x.2))

/-- A prefill chunk fills the page of token `t`. -/
def Span.fills (x : Span) (t : Nat) : Bool := x.prefill && decide (x.first ≤ 64 * (t / 64)) && decide (64 * (t / 64) + 64 ≤ x.limit)

/-- A layer of the draft model (R222). -/
def draftLayer (s : State) (image layer : Nat) : Bool :=
  (((s.gen? image).map s.matsOf).getD []).any fun m => m.layer == layer && m.kind == 3

/-- The append of token `t` on a layer is written: the step knows it (R166), or the retake that is served, and the draft model's cover
grows by it. -/
def noteAppend (s : State) (w : WorkRef) (x : Span) (layer t : Nat) : State :=
  let s := if (s.step? w.call w.step).isSome then
      s.modStep w.call w.step fun x => { x with appended := x.appended ++ [layer * 2 ^ 20 + t] }
    else { s with servedKv := s.servedKv ++ [(w.call, w.step, layer * 2 ^ 20 + t)] }
  if s.draftLayer x.image layer && Tbl.get 0 layer (s.call w.call).draftKv == t then
    s.modCall w.call fun e => { e with draftKv := Tbl.set 0 layer (t + 1) e.draftKv }
  else s

/-- Append the K and V head vectors of token `t`: quantised by the engine of the page's stack, and counted there (R72, R178). -/
def kvAppend (s : State) (w : WorkRef) (layer t : Nat) (k v : List (List F32)) : State :=
  match s.attnRecordOf w layer, s.attnSpan w with
  | some r, some x =>
    let e := s.call w.call
    let h := r.kvHeads
    let kr := k.map (rotate r.ropeBase t)
    let ks := kr.map (quantiseHead e.kvFormat)
    let vs := v.map (quantiseHead e.kvFormat)
    let s := if e.page layer (t / 64) = 0 then s.allocPage w.call layer (t / 64) h else s
    let p := (s.call w.call).page layer (t / 64)
    let a := pageAddr p
    let s := s.each ks.zipIdx fun s b => s.writeHead e.kvFormat h a 0 b.2 (t % 64) (x.fills t) b.1
    let s := s.each vs.zipIdx fun s b => s.writeHead e.kvFormat h a 2 b.2 (t % 64) (x.fills t) b.1
    let s := s.each (kr.zip ks ++ v.zip vs) fun s b => s.countBlocks 1 (p % 8) b.1 b.2
    let s := (s.count (Ctr.kvAppends (p % 8)) h).noteAppend w x layer t
    s.journal (s.call w.call) [kvRecord e layer t ks vs]
  | _, _ => s

/-- An append can be made: the layer is held here, the vectors are those of its heads, the token is one of the work's, the draft
model's tokens come in order (R225), and the run can be taken. -/
def canAppend (s : State) (w : WorkRef) (layer t : Nat) (k v : List (List F32)) : Bool :=
  match s.attnSpan w, s.attnRecordOf w layer with
  | some x, some r =>
    let e := s.call w.call
    !s.stepHeld w && k.length == r.kvHeads && v.length == r.kvHeads && k.all (fun y => y.length == 128) && v.all (fun y => y.length == 128) &&
    decide (x.first ≤ t) && decide (t < x.limit) && decide (t < 262144) &&
    (!x.draft || (s.draftLayer x.image layer && decide (t ≤ Tbl.get 0 layer e.draftKv))) &&
    (e.page layer (t / 64) != 0 || (s.findRun (s.pageStack w.call layer (t / 64)) (runFrames e.kvFormat r.kvHeads)).isSome)
  | _, _ => false

/-! ### Latched page entries (R168, R172) -/

/-- The pass that latches for a piece of work. -/
def latchPass (x : Span) : Nat := if x.draft then x.base + 1 else 0

/-- The page entries of a layer as the work's step has latched them, or as they stand when it latches them now. -/
def latched (s : State) (w : WorkRef) (x : Span) (layer : Nat) : Tbl Nat :=
  match s.latches.find? fun l => l.call == w.call && l.step == w.step && l.pass == latchPass x && l.layer == layer with
  | some l => l.pages
  | none => (s.call w.call).layerPages layer

/-- The engines latch the page entries of the call's layer with the step's first attention of it. -/
def latch (s : State) (w : WorkRef) (x : Span) (layer : Nat) : State :=
  if s.latches.any fun l => l.call == w.call && l.step == w.step && l.pass == latchPass x && l.layer == layer then s
  else { s with latches := s.latches ++
    [{ call := w.call, step := w.step, pass := latchPass x, layer := layer, pages := (s.call w.call).layerPages layer }] }

/-! ### Reading keys and values -/

/-- The decoded head vector of a token: K (section 0) or V (section 2), of a layer's pages. -/
def headVec (s : State) (fmt : Nat) (pg : Tbl Nat) (h head u sec : Nat) : List Fl :=
  let a := pageAddr (Tbl.get 0 (u / 64) pg)
  let k := 64 * head + u % 64
  let codes := s.readBytes (a + sectionOff fmt h sec + k * headBytes fmt) (headBytes fmt)
  let scales := s.readBytes (a + sectionOff fmt h (sec + 1) + 4 * k) 4
  (List.range 128).map fun d =>
    blockValue { scale := Bits.byteAt scales (d / 32),
                 codes := (List.range 32).map fun i => unpackCode fmt codes (d / 32 * 32 + i) } (d % 32)

end State

/-- FP32 product of a number and an exact value, rounded once. -/
def mulExact (x : F32) (v : Fl) : F32 :=
  match F32.dec x, v with
  | .nan, _ => F32.nan
  | _, .nan => F32.nan
  | .fin n₁ m₁ e₁, .fin n₂ m₂ e₂ => F32.enc (.fin (n₁ != n₂) (m₁ * m₂) (e₁ + e₂))
  | .inf a, .fin b m _ => if m = 0 then F32.nan else F32.enc (.inf (a != b))
  | .fin a m _, .inf b => if m = 0 then F32.nan else F32.enc (.inf (a != b))
  | .inf a, .inf b => F32.enc (.inf (a != b))

/-- The scale of scores, 2^-3.5 in FP32. -/
def scoreScale : F32 := 0x3DB504F3

/-- Score of a query and a key, dimensions ascending. -/
def score (q : List F32) (k : List Fl) : F32 :=
  F32.mul (F32.sumFrom F32.zero ((q.zip k).map fun x => mulExact x.1 x.2)) scoreScale

/-- exp, with exp(-inf) = 0 (R168). -/
def expOf (x : F32) : F32 := if x = F32.negInf then F32.zero else F32.exp x

/-- A token is attended by a query at `p` (R168). -/
def attends (w p limit u : Nat) : Bool := decide (u ≤ p) && decide (u < limit) && (w == 0 || decide (p < u + w))

/-- A vector scaled. -/
def scaleVec (v : List F32) (x : F32) : List F32 := v.map fun y => F32.mul y x

/-- `v + w * x` element by element. -/
def addScaled (v : List F32) (w : F32) (x : List Fl) : List F32 := (v.zip x).map fun y => F32.add y.1 (mulExact w y.2)

/-- Keys and values of an engine's attended tokens in a page: score, value. -/
abbrev PageData := List (F32 × List Fl)

/-- One page of R168. -/
def pageStep (t : Soft × Bool) (ps : PageData) : Soft × Bool :=
  if ps.isEmpty then t
  else
    let bad := t.2 || ps.any fun x => !F32.isFinite x.1 || x.2.any fun v => !v.isFin
    let mn := F32.maxOf t.1.m (ps.map fun x => x.1)
    let f := expOf (F32.sub t.1.m mn)
    let start : F32 × List F32 := (F32.mul t.1.l f, scaleVec t.1.o f)
    let r := ps.foldl (fun (a : F32 × List F32) x =>
      let w := expOf (F32.sub x.1 mn)
      (F32.add a.1 w, addScaled a.2 w x.2)) start
    ({ m := mn, l := r.1, o := r.2 }, bad)

/-- The empty triple. -/
def softZero : Soft := { m := F32.negInf, l := F32.zero, o := List.replicate 128 F32.zero }

/-- Two triples combined (R169). -/
def combine (t e : Soft × Bool) : Soft × Bool :=
  let bad := t.2 || e.2
  if F32.eqv e.1.l F32.zero then (t.1, bad)
  else
    let mn := F32.maxOf t.1.m [e.1.m]
    let a := if F32.eqv t.1.l F32.zero then F32.zero else expOf (F32.sub t.1.m mn)
    let b := expOf (F32.sub e.1.m mn)
    ({ m := mn, l := F32.add (F32.mul t.1.l a) (F32.mul e.1.l b),
       o := (t.1.o.zip e.1.o).map fun x => F32.add (F32.mul x.1 a) (F32.mul x.2 b) }, bad)

/-- The output of a triple: NaN throughout where something was not finite. -/
def softOut (t : Soft × Bool) : List F32 :=
  if t.2 then List.replicate 128 F32.nan else t.1.o.map fun x => F32.div x t.1.l

namespace State

/-- Pages with an attended token, ascending. -/
def attendedPages (w p limit : Nat) : List Nat :=
  (List.range (p / 64 + 1)).filter fun i => (List.range 64).any fun u => attends w p limit (64 * i + u)

/-- What a page holds for a query. -/
def pageData (s : State) (fmt : Nat) (pg : Tbl Nat) (r : Attn) (kvHead p limit i : Nat) (q : List F32) : PageData :=
  ((List.range 64).filter fun u => attends r.window p limit (64 * i + u)).map fun u =>
    (score q (s.headVec fmt pg r.kvHeads kvHead (64 * i + u) 0), s.headVec fmt pg r.kvHeads kvHead (64 * i + u) 2)

/-- The triple of engine `k` (R168). -/
def engineTriple (s : State) (fmt : Nat) (pg : Tbl Nat) (r : Attn) (kvHead p limit k : Nat) (q : List F32) : Soft × Bool :=
  ((attendedPages r.window p limit).filter fun i => Tbl.get 0 i pg % 8 == k).foldl
    (fun t i => pageStep t (s.pageData fmt pg r kvHead p limit i q)) (softZero, false)

/-- The output of a query head (R169). -/
def taprootHead (s : State) (fmt : Nat) (pg : Tbl Nat) (r : Attn) (p limit j : Nat) (q : List F32) : List F32 :=
  softOut ((List.range 8).foldl (fun t k => combine t (s.engineTriple fmt pg r (j * r.kvHeads / r.queryHeads) p limit k q))
    (softZero, false))

/-- The flips that the command gives for blocks the attention reads. -/
def pageFlips (fmt : Nat) (pg : Tbl Nat) (r : Attn) (p limit : Nat) (flips : List (Nat × Nat × Nat × Flips)) : List (Nat × Flips) :=
  (flips.filter fun f => (attendedPages r.window p limit).contains f.1 && decide (f.2.1 < 4) &&
    decide (sectionOff fmt r.kvHeads f.2.1 + 64 * f.2.2.1 < sectionOff fmt r.kvHeads (f.2.1 + 1))).map fun f =>
      (pageAddr (Tbl.get 0 f.1 pg) + sectionOff fmt r.kvHeads f.2.1 + 64 * f.2.2.1, f.2.2.2)

/-- The flips that the command gives for blocks that a key tile's reads meet: the KV head group's elements and scales of the tile's four
pages, up to position `hi`. -/
def tileFlips (fmt : Nat) (pg : Tbl Nat) (kvHeads group nextKey hi : Nat) (flips : List (Nat × Nat × Nat × Flips)) : List (Nat × Flips) :=
  (flips.filter fun f =>
    let per := if f.2.1 % 2 = 0 then 64 * headBytes fmt else 256
    decide (f.1 / 4 = nextKey) && decide (64 * f.1 ≤ hi) && decide (f.2.1 < 4) && decide (64 * f.2.2.1 / per = group)).map fun f =>
      (pageAddr (Tbl.get 0 f.1 pg) + sectionOff fmt kvHeads f.2.1 + 64 * f.2.2.1, f.2.2.2)

/-- Some block that an engine reads cannot be delivered (R295). -/
def lostBlock (fl : List (Nat × Flips)) : Bool := fl.any fun x => classify x.2 == .uncorrectable

/-- Blocks of the KV class are read by an engine (R291, R295). -/
def noteKv (s : State) (fl : List (Nat × Flips)) : State := s.each fl fun s x => s.noteRead x.1 0 x.2

/-- What the engines see of blocks that are delivered with these flips (R291). -/
def asDelivered (s : State) (fl : List (Nat × Flips)) : State := fl.foldl (fun s x => s.rewriteDelivered (x.1 / 64) x.2) s

/-! ### Outputs (R170, R174) -/

/-- Attention outputs formed so far for a piece of work's step, or for the retake that is served. -/
def outsOf (s : State) (w : WorkRef) : List AttnOut :=
  match s.step? w.call w.step with
  | some x => x.attn
  | none => (s.servedAttn.filter fun x => x.1 == w.call && x.2.1 == w.step).map fun x => x.2.2

/-- The output projection of a layer: the first matrix of the placement file that takes its query heads' outputs and is not the layer's
Q, K and V matrix (DESIGN CHOICE, log 168: the file does not name it). -/
def outputProjection (s : State) (image layer : Nat) (r : Attn) : Option Mat :=
  (layerMats (s.imageMats image) layer).find? fun m => m.inputs == 128 * r.queryHeads && !m.isQkv (s.imageMats image)

/-- A token's heads are all formed: engine 7 assembles them, takes the outliers out and quantises the output as A8 into the step's
activation buffer (R170, Table 08-4); the canopy engine's outputs are written the same way (R174), and count there (DESIGN CHOICE,
log 168). -/
def assemble (s : State) (w : WorkRef) (x : Span) (r : Attn) (layer : Nat) : State :=
  match s.outputProjection x.image layer r with
  | none => s
  | some m =>
    let os := (s.outsOf w).filter fun o => o.layer == layer && o.token == w.token
    let hs := (List.range r.queryHeads).map fun h => os.find? fun o => o.head == h
    if (hs.all fun h => h.isSome) && (s.actFor w m.id none).isNone then
      s.quantiseInto w m true 128 ((hs.filterMap id).flatMap fun o => o.out)
    else s

/-- Attention outputs join their step's (R170). -/
def addOutputs (s : State) (w : WorkRef) (x : Span) (r : Attn) (layer : Nat) (os : List AttnOut) : State :=
  let s := if (s.step? w.call w.step).isSome then s.modStep w.call w.step fun x => { x with attn := x.attn ++ os }
    else { s with servedAttn := s.servedAttn ++ os.map fun o => (w.call, w.step, o) }
  s.each (distinct (os.map fun o => o.token)) fun s t => s.assemble { w with token := t } x r layer

/-- Decode attention of one query token (R168 to R170). -/
def taproot (s : State) (w : WorkRef) (layer : Nat) (q : List (List F32)) (flips : List (Nat × Nat × Nat × Flips)) : State :=
  match s.attnSpan w, s.attnRecordOf w layer with
  | some x, some r =>
    let fmt := (s.call w.call).kvFormat
    let p := x.pos w
    let s1 := s.latch w x layer
    let pg := s1.latched w x layer
    let s1 := s1.each (attendedPages r.window p x.limit) fun s i =>
      let k := Tbl.get 0 i pg % 8
      ((s.count (Ctr.taprootPageReads k)).useUnit w (2 ^ 17 + 128 + 2 * k)).useUnit w (2 ^ 17 + 129 + 2 * k)
    let fl := pageFlips fmt pg r p x.limit flips
    let s1 := s1.noteKv fl
    if lostBlock fl then s1.endCall w.call .kvUncorr none
    else
      let qs := q.map (rotate r.ropeBase p)
      let outs := qs.zipIdx.map fun y => (s.asDelivered fl).taprootHead fmt pg r p x.limit y.2 y.1
      let nans := (outs.filter fun o => o.any fun v => F32.isNaN v).length
      (s1.count Ctr.taprootNanHeads nans).addOutputs w x r layer
        (outs.zipIdx.map fun y => { layer := layer, token := w.token, head := y.2, out := y.1 })
  | _, _ => s

/-- Every append of the work for a layer, up to position `hi`, has been written (R166, R174). -/
def appendsIn (s : State) (w : WorkRef) (x : Span) (layer hi : Nat) : Bool :=
  if x.draft then decide (hi ≤ Tbl.get 0 layer (s.call w.call).draftKv)
  else
    let done : List Nat := match s.step? w.call w.step with
      | some y => y.appended
      | none => (s.servedKv.filter fun y => y.1 == w.call && y.2.1 == w.step).map fun y => y.2.2
    (List.range (hi - x.first)).all fun i => done.contains (layer * 2 ^ 20 + x.first + i)

/-- Some head of a token has its output. -/
def formed (s : State) (w : WorkRef) (layer token : Nat) : Bool := (s.outsOf w).any fun o => o.layer == layer && o.token == token

/-- The call of a work item is in a drain's scope. -/
def workDrained (s : State) (c : Nat) : Bool :=
  s.drains.any fun d => match d.scope with
    | .partition q => (s.call c).partition == q
    | .all => true
    | .bough _ => false

/-- A layer's decode attention has started for a piece of work, and has not run to its end (R175). -/
def layerStarted (s : State) (w : WorkRef) (x : Span) (layer : Nat) : Bool :=
  (List.range x.n).any fun i => s.formed w layer (x.base + i)

def layerOpen (s : State) (w : WorkRef) (x : Span) (layer : Nat) : Bool :=
  !x.prefill && s.layerStarted w x layer && (List.range x.n).any fun i => !s.formed w layer (x.base + i)

/-- Attention records of the layers that a generation has here. -/
def layersOf (s : State) (image : Nat) : List Attn := ((s.gen? image).map s.attnOf).getD []

/-- A premium step's decode attention stands ready on some layer: its appends are written and a token's output is missing (R191). -/
def premiumPages (s : State) : Bool :=
  s.steps.any fun y => y.premium && !y.discarded &&
    (let w : WorkRef := { call := y.call, step := y.step, token := 0 }
     match s.attnSpan w with
     | none => false
     | some x => !x.prefill && (s.layersOf x.image).any fun r =>
         s.appendsIn w x r.layer x.limit && (List.range x.n).any fun i => !s.formed w r.layer (x.base + i))

/-- Work of the premium class. -/
def premiumWork (s : State) (w : WorkRef) : Bool :=
  match s.step? w.call w.step with
  | some x => x.premium
  | none => true

/-- Decode attention of a token can be complete: it is not prefill work, its appends are written, an engine part is left, premium pages
have gone first (R191), and under a drain the layer had started (R175). -/
def canAttend (s : State) (w : WorkRef) (layer : Nat) (q : List (List F32)) : Bool :=
  match s.attnSpan w, s.attnRecordOf w layer with
  | some x, some r =>
    let pg := s.latched w x layer
    !s.stepHeld w && !x.prefill && decide (x.pos w < x.limit) && q.length == r.queryHeads && q.all (fun x => x.length == 128) &&
    s.appendsIn w x layer x.limit && !s.formed w layer w.token &&
    (s.premiumWork w || !s.premiumPages) && (!s.workDrained w.call || s.layerStarted w x layer) &&
    !((List.range 8).all fun k => s.faults.withdrawnParts.contains (1 + k, 0) && s.faults.withdrawnParts.contains (1 + k, 1)) &&
    (attendedPages r.window (x.pos w) x.limit).all fun i => Tbl.get 0 i pg != 0
  | _, _ => false

end State

/-! ### The canopy engine (R173 to R176) -/

/-- A value rounded to E4M3's grid (no overflow: the scale has seen to that), ties to even. -/
def toE4M3 (v : Fl) : Fl :=
  let fm : FlFmt := { p := 4, emin := -9, ew := 6 }
  Fl.decode fm (Fl.encode fm v)

/-- MXFP8 E4M3 of a group with one E8M0 scale (R173): the values represented. -/
def mxfp8 (xs : List F32) : List Fl :=
  let vs := xs.map F32.dec
  if vs.any (fun v => !v.isFin) then vs.map fun _ => .nan
  else
    match vs.foldl (fun m w => if magLt m w then w else m) (.fin false 0 0) with
    | .fin _ m x =>
      if m = 0 then vs.map fun _ => .fin false 0 0
      else
        let e := max (blockExponent 448 m x) (-127)
        vs.map fun v => flScale e (toE4M3 (flScale (-e) v))
    | _ => vs.map fun _ => .nan

/-- Groups of 32. -/
def groups32 (xs : List F32) : List (List F32) := (List.range (Bits.ceilDiv xs.length 32)).map fun k => (xs.drop (32 * k)).take 32

/-- R173 for a vector: FP8 by groups of 32, or BF16. -/
def canopyConvert (bf : Bool) (xs : List F32) : List Fl :=
  if bf then xs.map fun x => F32.dec (F32.ofBF16 (F32.toBF16 x)) else (groups32 xs).flatMap mxfp8

/-- FP32 product of two exact values, rounded once. -/
def mulFl (x y : Fl) : F32 := mulExact (F32.enc x) y

/-- One query row and head of a block (R174): scores by key of the tile, none where masked; values by key. -/
def canopyStep (bf : Bool) (t : Soft × Bool) (ss : List (Option F32)) (vs : List (List Fl)) : Soft × Bool :=
  let live := ss.filterMap id
  if live.isEmpty then t
  else
    let bad := t.2 || live.any (fun x => !F32.isFinite x) ||
      (ss.zip vs).any fun x => x.1.isSome && x.2.any fun v => !v.isFin
    let mn := F32.maxOf t.1.m live
    let p := ss.map fun x => match x with
      | some y => expOf (F32.sub y mn)
      | none => F32.zero
    let pc := canopyConvert bf p
    let f := expOf (F32.sub t.1.m mn)
    let kept := ((ss.zip pc).zip vs).filter fun x => x.1.1.isSome
    let l := F32.add (F32.mul t.1.l f) (F32.sumFrom F32.zero (kept.map fun x => F32.enc x.1.2))
    let pv (d : Nat) : F32 := F32.sumFrom F32.zero (kept.map fun x => mulFl x.1.2 (x.2.getD d (.fin false 0 0)))
    let bad := bad || pc.any fun v => !v.isFin
    ({ m := mn, l := l, o := (List.range 128).map fun d => F32.add (F32.mul (t.1.o.getD d 0) f) (pv d) }, bad)

namespace State

/-- Queries of a row tile. -/
def tileQueries (n rowTile : Nat) : Nat := min 128 (n - 128 * rowTile)

/-- Last key tile of a row: that of its last query. -/
def lastKeyTile (first n rowTile : Nat) : Nat := (first + 128 * rowTile + tileQueries n rowTile - 1) / 256

/-- Every key of a tile is masked for the row: all outside the window of its first query. -/
def tileMasked (w first rowTile kt : Nat) : Bool := w != 0 && decide (256 * kt + 255 + w ≤ first + 128 * rowTile)

/-- Query heads of a KV head group. -/
def groupHeads (r : Attn) : Nat := r.queryHeads / r.kvHeads

/-- The canopy engine runs in BF16 mode: KV8 calls and tuning calls (R173, R176). -/
def canopyBf (e : Entry) : Bool := isKv8 e.kvFormat || e.tune.isSome

/-- A row that a lane runs, or the start of one; saved rows go on where they stopped (R175). -/
def canopyRowOf (s : State) (lane : Nat) (w : WorkRef) (layer group rowTile : Nat) (first n : Nat) (r : Attn) : CanopyRow :=
  match s.canopy.find? fun x => x.isRow w layer group rowTile with
  | some x => x
  | none =>
    let cnt := tileQueries n rowTile * groupHeads r
    { lane := lane, work := w, layer := layer, group := group, row := rowTile,
      nextKey := ((List.range (lastKeyTile first n rowTile + 1)).find? fun k => !tileMasked r.window first rowTile k).getD 0,
      acc := List.replicate cnt softZero, bad := List.replicate cnt false }

/-- The block of a row: every query row and head. -/
def canopyBlock (s : State) (e : Entry) (pg : Tbl Nat) (r : Attn) (first : Nat) (x : CanopyRow) (q : List (List (List F32))) :
    List (Soft × Bool) :=
  let bf := canopyBf e
  let h := r.kvHeads
  let heads := groupHeads r
  let p0 := first + 128 * x.row
  let hi := p0 + q.length - 1
  let keys := (List.range 256).map fun i => 256 * x.nextKey + i
  let ks := keys.map fun u => if u ≤ hi then s.headVec e.kvFormat pg h x.group u 0 else []
  let vs := keys.map fun u => if u ≤ hi then s.headVec e.kvFormat pg h x.group u 2 else []
  q.zipIdx.flatMap fun qi => qi.1.zipIdx.map fun hj =>
    let p := p0 + qi.2
    let qc := canopyConvert bf (rotate r.ropeBase p hj.1)
    let ss := (keys.zip ks).map fun u =>
      if attends r.window p (hi + 1) u.1 then
        some (F32.mul (F32.sumFrom F32.zero ((qc.zip u.2).map fun y => mulFl y.1 y.2)) scoreScale)
      else none
    let i := qi.2 * heads + hj.2
    canopyStep bf (x.acc.getD i softZero, x.bad.getD i false) ss vs

/-- A finished row's outputs (R174, R176). -/
def rowOutputs (e : Entry) (r : Attn) (sp : Span) (x : CanopyRow) (q : List (List (List F32))) : List AttnOut :=
  let heads := groupHeads r
  q.zipIdx.flatMap fun qi => qi.1.zipIdx.map fun hj =>
    let i := qi.2 * heads + hj.2
    let t := x.acc.getD i softZero
    let o : AttnOut := { layer := x.layer, token := sp.base + 128 * x.row + qi.2, head := x.group * heads + hj.2,
                         out := softOut (t, x.bad.getD i false) }
    if e.tune.isSome then { o with
      rowMax := t.m, lse := F32.add t.m (Config.ln32 t.l), outBf := o.out.map F32.toBF16,
      query := (rotate r.ropeBase (sp.first + 128 * x.row + qi.2) hj.1).map F32.toBF16 } else o

/-- The row with a finished block: its new accumulators, and its next key tile. -/
def rowWith (s : State) (e : Entry) (pg : Tbl Nat) (r : Attn) (first : Nat) (x : CanopyRow) (q : List (List (List F32))) (stopped : Bool) :
    CanopyRow :=
  let ts := s.canopyBlock e pg r first x q
  { x with acc := ts.map fun t => t.1, bad := ts.map fun t => t.2, nextKey := x.nextKey + 1, stopped := stopped }

/-- The row goes on to its next key tile, or ends with its outputs. -/
def rowGoesOn (s : State) (w : WorkRef) (sp : Span) (r : Attn) (x : CanopyRow) (q : List (List (List F32))) : State :=
  let others := s.canopy.filter fun y => !y.isRow w x.layer x.group x.row
  if x.nextKey ≤ lastKeyTile sp.first sp.n x.row then { s with canopy := others ++ [x] }
  else
    let os := rowOutputs (s.call w.call) r sp x q
    let nans := (os.filter fun o => o.out.any fun v => F32.isNaN v).length
    (({ s with canopy := others }).count Ctr.canopyNanRows nans).addOutputs w sp r x.layer os

/-- A lane has finished a block: the row goes on, or a lost KV block ends the call at that read (Table 14-4). -/
def canopyDone (s : State) (lane : Nat) (w : WorkRef) (layer group rowTile : Nat) (q : List (List (List F32)))
    (flips : List (Nat × Nat × Nat × Flips)) : State :=
  match s.attnSpan w, s.attnRecordOf w layer with
  | some sp, some r =>
    let e := s.call w.call
    let x := { s.canopyRowOf lane w layer group rowTile sp.first sp.n r with lane := lane }
    let fresh := !(s.canopy.any fun y => y.isRow w layer group rowTile)
    let s1 := (((s.latch w sp layer).count Ctr.canopyBlocks).useUnit w (2 ^ 17 + 144 + lane))
    let s1 := if fresh then s1.count Ctr.canopySkipped x.nextKey else s1
    let pg := s1.latched w sp layer
    let fl := tileFlips e.kvFormat pg r.kvHeads group x.nextKey (sp.first + 128 * rowTile + q.length - 1) flips
    let s1 := s1.noteKv fl
    if lostBlock fl then s1.endCall w.call .kvUncorr none
    else s1.rowGoesOn w sp r ((s.asDelivered fl).rowWith e pg r sp.first x q (s.workDrained w.call)) q
  | _, _ => s

/-- A row has not begun and its appends are written: free lanes go to premium rows like it first (R174, R191). -/
def rowWaits (s : State) (w : WorkRef) (x : Span) (r : Attn) (group rowTile : Nat) : Bool :=
  !(s.canopy.any fun y => y.isRow w r.layer group rowTile) &&
  !((s.outsOf w).any fun o => o.layer == r.layer && o.token == x.base + 128 * rowTile && o.head == group * groupHeads r) &&
  s.appendsIn w x r.layer (x.first + 128 * rowTile + tileQueries x.n rowTile)

/-- A step has a row that waits for a lane. -/
def stepRowWaits (s : State) (y : Step) : Bool :=
  !y.discarded && !s.workDrained y.call &&
    (let w : WorkRef := { call := y.call, step := y.step, token := 0 }
     match s.attnSpan w with
     | none => false
     | some x => x.prefill && (s.layersOf x.image).any fun r =>
         (List.range r.kvHeads).any fun g => (List.range (Bits.ceilDiv x.n 128)).any fun t => s.rowWaits w x r g t)

/-- A premium row waits for a lane. -/
def premiumRows (s : State) : Bool := s.steps.any fun y => y.premium && s.stepRowWaits y

/-- Every lane in service is taken. -/
def lanesTaken (s : State) : Bool :=
  (List.range 16).all fun l => s.faults.withdrawnParts.contains (0, l) || s.canopy.any (fun y => y.lane == l) ||
    s.backs.any fun y => !y.ended && y.lane == l

/-- Note since when premium steps wait for lanes (R194): from the tick at which one has a row to run and every lane is taken. -/
def noteWaits (s : State) : State :=
  let taken := s.lanesTaken
  { s with steps := s.steps.map fun (y : Step) =>
      if !y.premium then y
      else if taken && s.stepRowWaits y then { y with waitsSince := y.waitsSince.or (some s.now) } else { y with waitsSince := none } }

/-- A lane is free but for one row. -/
def laneFree (s : State) (lane : Nat) (mine : CanopyRow → Bool) (mineBack : BackRow → Bool) : Bool :=
  decide (lane < 16) && !s.faults.withdrawnParts.contains (0, lane) &&
  s.canopy.all (fun y => if mine y then y.lane == lane || y.lane == 16 else y.lane != lane) &&
  s.backs.all fun y => y.ended || (if mineBack y then y.lane == lane else y.lane != lane)

/-- A lane can finish the block: it exists and is free or on this row (a restored row takes any lane), the row is not done, every key up to
its last query has been appended (R174), no premium row waits for the lane that a bulk row would take (R191), and under a drain
the block had begun (R175). -/
def canCanopy (s : State) (lane : Nat) (w : WorkRef) (layer group rowTile : Nat) (q : List (List (List F32))) : Bool :=
  match s.attnSpan w, s.attnRecordOf w layer with
  | some x, some r =>
    let e := s.call w.call
    let mine (y : CanopyRow) : Bool := y.isRow w layer group rowTile
    let hi := x.first + 128 * rowTile + tileQueries x.n rowTile
    let running := s.canopy.any mine
    !s.stepHeld w && s.laneFree lane mine (fun _ => false) && x.prefill && w.token == x.base &&
    (!s.workDrained w.call || s.canopy.any fun y => mine y && !y.stopped) &&
    (running || s.premiumWork w || !s.premiumRows) &&
    decide (group < r.kvHeads) && decide (128 * rowTile < x.n) && q.length == tileQueries x.n rowTile &&
    q.all (fun y => y.length == groupHeads r && y.all fun z => z.length == 128) &&
    (running || s.rowWaits w x r group rowTile) && s.appendsIn w x layer hi &&
    (List.range (Bits.ceilDiv hi 64)).all fun i => e.page layer i != 0
  | _, _ => false

/-! ### Backward attention (R177) -/

/-- One query row and head of a layer's backward attention: its position, the saved query, output and log-sum-exp, and dO in BF16. -/
structure BackQuery where
  p : Nat
  token : Nat
  head : Nat
  q : List Fl
  lse : F32
  dO : List Fl
  /-- D, the row sum of dO times O -/
  d : F32

/-- The rows of a KV head group, in ascending token and head; none while a forward output or a vector of dO is missing. -/
def backQueries (s : State) (w : WorkRef) (x : Span) (r : Attn) (layer group : Nat) : Option (List BackQuery) :=
  let bf (v : List BF16) : List Fl := v.map fun y => F32.dec (F32.ofBF16 y)
  let qs := (List.range x.n).flatMap fun t => (List.range (groupHeads r)).map fun j =>
    let h := group * groupHeads r + j
    match (s.outsOf w).find? fun o => o.layer == layer && o.token == t && o.head == h,
        (s.outputProjection x.image layer r).bind (s.wholeBack { w with token := t }) with
    | some o, some g =>
      let dO := bf (((g.drop (128 * h)).take 128).map F32.toBF16)
      some ({ p := x.first + t, token := t, head := h, q := bf o.query, lse := o.lse, dO := dO,
              d := F32.sumFrom F32.zero ((dO.zip (bf o.outBf)).map fun y => mulFl y.1 y.2) } : BackQuery)
    | _, _ => none
  if qs.all fun y => y.isSome then some (qs.filterMap id) else none

/-- P and dS of a query and a key with its value, in BF16, in which they are operands of the products below: P = exp(S - lse) and
dS = P * (dP - D), with dP = dO * V. -/
def backWeights (y : BackQuery) (k v : List Fl) : Fl × Fl :=
  let sc := F32.mul (F32.sumFrom F32.zero ((y.q.zip k).map fun z => mulFl z.1 z.2)) scoreScale
  let p := expOf (F32.sub sc y.lse)
  let dp := F32.sumFrom F32.zero ((y.dO.zip v).map fun z => mulFl z.1 z.2)
  let ds := F32.mul p (F32.sub dp y.d)
  (F32.dec (F32.ofBF16 (F32.toBF16 p)), F32.dec (F32.ofBF16 (F32.toBF16 ds)))

/-- A sum of scaled vectors, in FP32 from +0, in the order given. -/
def weightedSum (xs : List (Fl × List Fl)) : List F32 :=
  (List.range 128).map fun d => F32.sumFrom F32.zero (xs.map fun x => mulFl x.1 (x.2.getD d (.fin false 0 0)))

/-- The gradients of a KV head group: dQ = c dS K by query, in ascending key; dK = c dSᵀ Q and dV = Pᵀ dO by key, in ascending query, and
within a query in ascending head (the order within a query tile is the model's, log 166). -/
def backGradients (s : State) (fmt : Nat) (pg : Tbl Nat) (r : Attn) (x : Span) (layer group : Nat) (qs : List BackQuery) : List Grad :=
  let keys := (List.range x.n).map fun i =>
    (x.first + i, s.headVec fmt pg r.kvHeads group (x.first + i) 0, s.headVec fmt pg r.kvHeads group (x.first + i) 2)
  let scaled (v : List F32) : List F32 := v.map fun y => F32.mul y scoreScale
  let seen (y : BackQuery) (u : Nat) : Bool := attends r.window y.p x.limit u
  let dq := qs.map fun y =>
    ({ part := 0, layer := layer, token := y.token, head := y.head,
       values := scaled (weightedSum ((keys.filter fun k => seen y k.1).map fun k => ((backWeights y k.2.1 k.2.2).2, k.2.1))) } : Grad)
  let dkv := keys.flatMap fun k =>
    let ys := (qs.filter fun y => seen y k.1).map fun y => (y, backWeights y k.2.1 k.2.2)
    [({ part := 1, layer := layer, token := k.1 - x.first, head := group,
        values := scaled (weightedSum (ys.map fun y => (y.2.2, y.1.q))) } : Grad),
     { part := 2, layer := layer, token := k.1 - x.first, head := group, values := weightedSum (ys.map fun y => (y.2.1, y.1.dO)) }]
  dq ++ dkv

/-- The row's next key tile; tiles that are masked throughout are not run. -/
def backNext (s : State) (w : WorkRef) (x : Span) (r : Attn) (layer group rowTile : Nat) : Nat :=
  match s.backs.find? fun y => y.isRow w layer group rowTile with
  | some y => y.nextKey
  | none => ((List.range (lastKeyTile x.first x.n rowTile + 1)).find? fun k => !tileMasked r.window x.first rowTile k).getD 0

/-- Every row of a group has run its blocks. -/
def backOver (s : State) (w : WorkRef) (x : Span) (layer group : Nat) : Bool :=
  (List.range (Bits.ceilDiv x.n 128)).all fun t =>
    s.backs.any fun y => y.isRow w layer group t && y.ended

/-- A lane has finished a block of a backward row, unless a KV block that it reads is lost; with the last block of a group its gradients
are formed. -/
def backDone (s : State) (lane : Nat) (w : WorkRef) (layer group rowTile : Nat) (flips : List (Nat × Nat × Nat × Flips)) : State :=
  match s.attnSpan w, s.attnRecordOf w layer with
  | some x, some r =>
    let s := s.latch w x layer
    let n := s.backNext w x r layer group rowTile
    let s := (s.count Ctr.canopyBlocks).useUnit w (2 ^ 17 + 144 + lane)
    let fl := tileFlips (s.call w.call).kvFormat (s.latched w x layer) r.kvHeads group n (x.first + x.n - 1) flips
    let s := s.noteKv fl
    if lostBlock fl then s.endCall w.call .kvUncorr none
    else
    let s := { s with backs := (s.backs.filter fun (y : BackRow) => !y.isRow w layer group rowTile) ++
      [({ lane := lane, work := w, layer := layer, group := group, row := rowTile, nextKey := n + 1,
          ended := decide (lastKeyTile x.first x.n rowTile ≤ n) } : BackRow)] }
    if s.backOver w x layer group then
      let gs := ((s.backQueries w x r layer group).map
        ((s.asDelivered fl).backGradients (s.call w.call).kvFormat (s.latched w x layer) r x layer group)).getD []
      s.modStep w.call w.step fun y => { y with grads := y.grads ++ gs }
    else s
  | _, _ => s

/-- A lane can finish a block of a tuning step's backward pass: every row of the group has its forward output and its dO, the row is not
done, and the lane is free or on it. -/
def canBack (s : State) (lane : Nat) (w : WorkRef) (layer group rowTile : Nat) : Bool :=
  match s.attnSpan w, s.attnRecordOf w layer with
  | some x, some r =>
    !s.stepHeld w && (s.call w.call).tune.isSome && w.token == 0 && decide (group < r.kvHeads) && decide (128 * rowTile < x.n) &&
    s.laneFree lane (fun _ => false) (fun y => y.isRow w layer group rowTile) &&
    decide (s.backNext w x r layer group rowTile ≤ lastKeyTile x.first x.n rowTile) && !s.workDrained w.call &&
    (s.backQueries w x r layer group).isSome && !s.premiumRows
  | _, _ => false

/-! ### Waits for transfers and for power (R19, R361) -/

/-- The attention work can run now. -/
def cmdReady (s : State) : AttnCmd → Bool
  | .append w layer t k v => s.canAppend w layer t k v
  | .taproot w layer q _ => s.canAttend w layer q
  | .canopy lane w layer group rowTile q _ => s.canCanopy lane w layer group rowTile q
  | .backward lane w layer group rowTile _ => s.canBack lane w layer group rowTile

/-- The grant that attention work takes: an HBM burst for an append, an engine work unit for the rest (R360). -/
def cmdGrant : AttnCmd → Nat
  | .append _ _ _ _ _ => 4
  | _ => 5

/-- Units of Table 15-3 that the work uses: the lane, or the pipes of the taproot engines with a page to read. -/
def cmdUnits (s : State) : AttnCmd → List Nat
  | .canopy lane _ _ _ _ _ _ | .backward lane _ _ _ _ _ => [144 + lane]
  | .taproot w layer _ _ =>
    (match s.attnSpan w, s.attnRecordOf w layer with
     | some x, some r => (distinct ((attendedPages r.window (x.pos w) x.limit).map fun i => Tbl.get 0 i (s.latched w x layer) % 8)).flatMap
         fun k => [128 + 2 * k, 129 + 2 * k]
     | _, _ => [])
  | .append .. => []

/-- The attention work runs, its grant charged. -/
def cmdRun (s : State) (c : AttnCmd) : State :=
  let s := s.charge (cmdGrant c) none
  (match c with
   | .append w layer t k v => s.kvAppend w layer t k v
   | .taproot w layer q flips => s.taproot w layer q flips
   | .canopy lane w layer group rowTile q flips => s.canopyDone lane w layer group rowTile q flips
   | .backward lane w layer group rowTile flips => s.backDone lane w layer group rowTile flips).noteWaits

/-- The placed transfer that attention work needs has not completed (R19). -/
def cmdLate (s : State) (w : WorkRef) (needs : Nat) : Bool :=
  match s.step? w.call w.step with
  | some x => decide (x.xferDone < needs)
  | none => false

/-- A wait for a transfer is counted in the engines that wait: the taproot engines with a page to read, or the canopy engine (R19). -/
def countLate (s : State) : AttnCmd → State
  | .taproot w layer _ _ =>
    (match s.attnSpan w, s.attnRecordOf w layer with
     | some x, some r => s.each (distinct ((attendedPages r.window (x.pos w) x.limit).map fun i => Tbl.get 0 i (s.latched w x layer) % 8))
         fun s k => s.count (Ctr.xferLateWaits 1 k)
     | _, _ => s)
  | _ => s.count (Ctr.xferLateWaits 2 0)

/-- Attention work is granted, or its grant is withheld for an overdue slate of a unit that it uses (R312). -/
def cmdGranted (s : State) (x : AttnWait) : State :=
  let units := (s.cmdUnits x.cmd).filter s.unitHeld
  let s := { s with attnWaits := s.attnWaits.erase x }
  if units.isEmpty then s.cmdRun x.cmd else { s.each units withhold with attnWaits := s.attnWaits ++ [x] }

/-- Attention work comes to its engine: it waits for its transfer, each wait counted once, or for the power account, or runs. -/
def attnStart (s : State) (needs : Nat) (c : AttnCmd) : State :=
  if s.cmdLate (AttnWait.work { needs := needs, cmd := c }) needs then
    { s.countLate c with attnWaits := s.attnWaits ++ [{ needs := needs, cmd := c }] }
  else if !s.affordable (cmdGrant c) then
    { s.count Ctr.pacerHolds with attnWaits := s.attnWaits ++ [{ needs := needs, cmd := c }] }
  else s.cmdGranted { needs := needs, cmd := c }

/-- Waiting attention work tries again, oldest first. -/
def attnRetry (s : State) : State :=
  s.each s.attnWaits fun s x =>
    if s.cmdLate x.work x.needs || !s.affordable (cmdGrant x.cmd) || !s.cmdReady x.cmd then s
    else s.cmdGranted x

/-- Transfers of the placement file's transfer program, of the generation that a step runs under. -/
def xferCount (s : State) (w : WorkRef) : Nat :=
  ((((s.step? w.call w.step).bind fun x => s.gen? x.image).bind s.placementOf).map fun p => p.xfers.length).getD 0

end State

/-! ### The rows -/

/-- Attention work arrives as a command. -/
def attnCome (row : String) (needs : Nat) (c : AttnCmd) (s : State) : Result :=
  (s.attnStart needs c).when row (s.cmdReady c && !(s.attnWaits.any fun x => x.cmd == c))

def execKvAppend (work : WorkRef) (layer t : Nat) (k v : List (List F32)) (s : State) : Result :=
  attnCome "KV_APPEND" 0 (.append work layer t k v) s

def execTaprootAttention (work : WorkRef) (layer : Nat) (q : List (List F32)) (reads : KvReads) (s : State) : Result :=
  let c : AttnCmd := .taproot work layer q reads.flips
  (State.afterSram (some work) (fun s => s.attnStart reads.needs c) reads.sram s).when "TAPROOT_ATTENTION"
    (s.cmdReady c && !(s.attnWaits.any fun x => x.cmd == c) && reads.sram.all SramRead.ok)

def execCanopyBlock (lane : Nat) (work : WorkRef) (layer group rowTile : Nat) (q : CanopyIn) (s : State) : Result :=
  attnCome "CANOPY_BLOCK" q.needs (match q.q with
    | some y => .canopy lane work layer group rowTile y q.flips
    | none => .backward lane work layer group rowTile q.flips) s

/-- TRANSFER_DONE: the next entry of the transfer program, or a later one, has completed; what waited for it goes on (R19). -/
def execTransferDone (work : WorkRef) (entry : XferEnd) (s : State) : Result :=
  (State.afterSram (some work) (fun s => (s.transferDone work entry.entry).attnRetry) entry.sram (s.charge 6 none)).when "TRANSFER_DONE"
    (decide (entry.entry ≤ s.xferCount work) && entry.sram.all SramRead.ok && s.affordable 6 &&
      (s.step? work.call work.step).any fun x => decide (x.xferDone < entry.entry))

end Sys2Proof.Machine
end

