-- ==== Sys2Proof/Machine/RegOps.lean ====
section
/-! DEFINITION. The setup register window (20): what its words read as, and how a write of the window acts. -/

set_option Elab.async false

namespace Sys2Proof.Machine

/-! ### Reading -/

/-- The low or high 32 bits of a value. -/
def half32 (v : Nat) (high : Bool) : Nat := if high then v / 2 ^ 32 % 2 ^ 32 else v % 2 ^ 32

/-- A word of a ring block (Table 20-5); the coalescing word is reserved on inbound rings. -/
def ringWord (g : Ring) (out : Bool) (o : Nat) : Nat :=
  match o with
  | 0x00 => half32 (g.base.toNat * 64) false
  | 0x04 => half32 (g.base.toNat * 64) true
  | 0x08 => half32 (g.dbAddr.toNat * 8) false
  | 0x0C => half32 (g.dbAddr.toNat * 8) true
  | 0x10 => g.exp.toNat
  | 0x14 => if out then g.coalCount.toNat + 2 ^ 8 * g.coalWindow.toNat + (if g.irqEn then 2 ^ 24 else 0)
      + (if g.premiumNow then 2 ^ 25 else 0) else 0
  | 0x18 => g.pos.toNat
  | 0x1C => if g.enabled then 1 else 0
  | _ => 0

/-- DSTATE of PERF_STATUS. -/
def DState.code : DState → Nat
  | .d0 => 0 | .d1 => 1 | .d2 => 2 | .d3 => 3

namespace State

/-- Set bits of the good map of the live trims (R16, Table 06-1). -/
def tilesGood (s : State) : Nat := if s.trims.isEmpty then 0 else
  ((List.range 8192).filter fun t => !(s.tile t).mfgBad).length

/-- A word of device page 0 (Table 20-2). -/
def page0 (s : State) (o : Nat) : Nat :=
  let r := s.regs
  match o with
  | 0x000 => 0x4C31 + 2 ^ 16 + 2 ^ 20
  | 0x008 => half32 Config.serial.toNat false
  | 0x00C => half32 Config.serial.toNat true
  | 0x010 => s.tilesGood + 2 ^ 16 * s.tilesLive
  | 0x014 => 8 + 2 ^ 8 * 128
  | 0x018 => 32 + 2 ^ 8 * 16384
  | 0x01C => 384 + 2 ^ 16 * 8
  | 0x020 => r.verReq.toNat + 2 ^ 8 * r.verAck.toNat
  | 0x024 => r.ready.toNat
  | 0x028 => (if r.sealed then 1 else 0) + 2 ^ 8 * r.sealErr.toNat
  | 0x02C => r.boot.toNat + 4 * r.ckmode.toNat + 2 ^ 8 * r.posnV.toNat + 2 ^ 16 * r.posnCode.toNat
  | 0x030 => r.step.toNat + 2 ^ 8 * r.lastFail.toNat
  | 0x034 => r.chainPos.toNat + (if r.side then 2 ^ 4 else 0) + (if r.paired then 2 ^ 5 else 0)
  | 0x038 => r.level.toNat + 2 ^ 4 * r.setBy.toNat + 2 ^ 8 * DState.code s.power.dstate
  | _ =>
    if 0x040 ≤ o ∧ o < 0x050 then
      ((List.range 32).map fun i => if (s.bough (8 * (o - 0x040) + i)).ref = .ready then 2 ^ i else 0).sum
    else if 0x400 ≤ o ∧ o < 0x800 then Bits.le s.tileMap (o - 0x400) 4
    else 0

/-- A word of device page 1 (Table 20-3). -/
def page1 (s : State) (o : Nat) : Nat :=
  let r := s.regs
  match o with
  | 0x000 => r.contPremium.toNat + 2 ^ 4 * r.contBulk.toNat
  | 0x004 => r.tempThresh.toNat + 2 ^ 8 * r.inplaceMax.toNat
  | 0x008 => r.batchMax.toNat + 2 ^ 16 * r.chunkLen.toNat
  | 0x00C => r.batchWindow.toNat + 2 ^ 16 * r.preemptWait.toNat
  | 0x010 => r.acceptMin.toNat + 2 ^ 16 * r.reprobe.toNat
  | 0x014 => r.laneErrMax.toNat + 2 ^ 16 * r.replayMax.toNat
  | 0x018 => r.bucketCap.toNat + 2 ^ 8 * r.bucketLeak.toNat + 2 ^ 16 * r.hotThresh.toNat + 2 ^ 24 * r.hotWindow.toNat
  | 0x01C => r.levelReq.toNat + 2 ^ 8 * r.throttleT.toNat + 2 ^ 16 * r.idleD1.toNat
  | 0x020 => r.pwrLimit.toNat + 2 ^ 16 * r.pwrPeak.toNat + 2 ^ 28 * r.pwrBurst.toNat
  | 0x024 => (if s.pins.fenceOut then 2 ^ 8 else 0) + (if s.pins.fenceIn then 2 ^ 9 else 0)
  | 0x028 => if r.refen then 1 else 0
  | 0x02C => r.kvLowMark.toNat
  | 0x080 => half32 r.counterSel.toNat false
  | 0x084 => half32 r.counterSel.toNat true
  | 0x088 => half32 r.counterVal false
  | 0x08C => half32 r.counterVal true + (if r.counterInvalid then 2 ^ 31 else 0)
  | 0x090 => half32 r.bootAddress.toNat false
  | 0x094 => half32 r.bootAddress.toNat true
  | 0x098 => r.bootLength.toNat
  | _ =>
    if 0x040 ≤ o ∧ o < 0x060 then
      ((List.range 4).map fun i => (Tbl.get 1 (o - 0x040 + i) r.partWeight).toNat * 2 ^ (8 * i)).sum
    else 0

/-- A word of device page 2 (Table 20-4). -/
def page2 (s : State) (o : Nat) : Nat :=
  let r := s.regs
  if o < 0x020 then ringWord (s.ring .mq) false o
  else if o < 0x040 then ringWord (s.ring .eq) true (o - 0x020)
  else if o = 0x040 then r.mgmtVec.toNat
  else if o = 0x048 then r.kvRegion.toNat
  else if o = 0x04C then r.saveRegion.toNat
  else if o = 0x050 then r.graftStage.toNat
  else if 0x100 ≤ o ∧ o < 0x180 then half32 (Tbl.get 0 ((o - 0x100) / 8) r.ownerKey).toNat (o % 8 == 4)
  else if 0x180 ≤ o ∧ o < 0x190 then (Tbl.get 0 ((o - 0x180) / 4) r.ownerParts).toNat
  else 0

/-- The ring whose block holds an offset of a partition page. -/
def blockRing (p o : Nat) : RingId :=
  if o < 0x080 then .sq p (o / 0x20) else if o < 0x0A0 then .cq p else .tq p

/-- A word of a partition page (Table 20-6). -/
def pagePart (s : State) (p o : Nat) : Nat :=
  let x := s.part p
  if o < 0x0C0 then ringWord (s.ring (blockRing p o)) (!inbound (blockRing p o)) (o % 0x20)
  else if o = 0x100 then x.entryShare.toNat + 2 ^ 16 * x.premiumShare.toNat
  else if o = 0x104 then x.kvFrames.toNat
  else if o = 0x108 then x.saveShare.toNat + 2 ^ 16 * x.vecBase.toNat + (if x.aftus then 2 ^ 31 else 0)
  else if 0x110 ≤ o ∧ o < 0x130 then
    let g := Tbl.get (0, 0) ((o - 0x110) / 8) x.groups
    half32 (g.1.toNat + 2 ^ 16 * g.2.toNat) (o % 8 == 4)
  else if o = 0x130 then (if x.enabled then 1 else 0) + (if x.resetting then 2 else 0)
  else 0

/-- The 32-bit word at a window offset that is a multiple of 4 (Table 20-1); what no table assigns reads zero. -/
def regWord (s : State) (o : Nat) : Nat :=
  if o < 0x1000 then s.page0 o
  else if o < 0x2000 then s.page1 (o - 0x1000)
  else if o < 0x3000 then s.page2 (o - 0x2000)
  else if 0x10000 ≤ o ∧ o < 0x30000 then s.pagePart ((o - 0x10000) / 0x1000) (o % 0x1000)
  else 0

/-- `n` bytes of the window from an offset that is a multiple of 4. -/
def regBytes (s : State) (o n : Nat) : Bytes := (List.range (n / 4)).flatMap fun i => Bits.bytesOf 4 (s.regWord (o + 4 * i))

/-! ### Writing -/

/-- The 64-bit registers of the window: writing one half alone follows R404. -/
def wide64 (o : Nat) : Bool :=
  let p := o / 8 * 8
  [0x1008, 0x1080, 0x1090].contains p || (decide (0x2000 ≤ p) && decide (p < 0x2040) && decide (p % 0x20 < 0x10)) ||
  (decide (0x2100 ≤ p) && decide (p < 0x2180)) ||
  (decide (0x10000 ≤ p) && decide (p < 0x30000) &&
    ((decide (p % 0x1000 < 0x0C0) && decide (p % 0x20 < 0x10)) || (decide (0x110 ≤ p % 0x1000) && decide (p % 0x1000 < 0x130))))

/-- Register that an offset belongs to, and whether its fields are RW-L. -/
def lockedAt (o : Nat) : Bool :=
  decide (o = 0x0020) ||
  (decide (0x2000 ≤ o) && decide (o < 0x2040) && decide (o % 0x20 < 0x14)) ||
  [0x2040, 0x2048, 0x204C, 0x2050].contains o || (decide (0x2100 ≤ o) && decide (o < 0x2190)) ||
  (decide (0x10000 ≤ o) && decide (o < 0x30000) &&
    ((decide (o % 0x1000 < 0x0C0) && decide (o % 0x20 < 0x14)) || [0x100, 0x104, 0x108].contains (o % 0x1000) ||
      (decide (0x110 ≤ o % 0x1000) && decide (o % 0x1000 < 0x130))))

/-- Keep a field unless the value offered is valid (R122, R188, R226, R272, R294, R358, R405). -/
def keepUnless {α : Type} (ok : Bool) (old new : α) : α := if ok then new else old

/-- A field of a written word. -/
def fieldBV (v lo n : Nat) : BitVec n := BitVec.ofNat n (Bits.field v lo n)

/-- RW-L fields of a ring block (R229). -/
def writeRing (s : State) (r : RingId) (o v : Nat) : State :=
  match o with
  | 0x00 => s.modRing r fun g => { g with base := fieldBV v 6 58 }
  | 0x08 => s.modRing r fun g => { g with dbAddr := fieldBV v 3 61 }
  | 0x10 =>
    let n := Bits.field v 0 5
    s.modRing r fun g => { g with exp := keepUnless (n == 0 || (decide (6 ≤ n) && decide (n ≤ 16))) g.exp (BitVec.ofNat 5 n) }
  | _ => s

/-- The coalescing word of an outbound ring (R247): IRQ_EN changing from 0 to 1 with records pending orders a flush; all else acts from
the next record written (Table 20-5). -/
def writeCoal (s : State) (r : RingId) (v : Nat) : State :=
  let on := (s.ring r).irqEn
  let s := s.modRing r fun g => { g with
    coalCount := fieldBV v 0 8, coalWindow := fieldBV v 8 16, irqEn := decide (Bits.field v 24 1 = 1),
    premiumNow := decide (Bits.field v 25 1 = 1) }
  if !on then s.flush r else s

/-- The policy words of device page 1. -/
def writePolicy (s : State) (o v : Nat) : State :=
  match o with
  | 0x1000 => s.modRegs fun r => { r with
      contPremium := keepUnless (decide (Bits.field v 0 3 ≤ 4)) r.contPremium (fieldBV v 0 3),
      contBulk := keepUnless (decide (Bits.field v 4 3 ≤ 4)) r.contBulk (fieldBV v 4 3) }
  | 0x1004 =>
    let t := Bits.field v 0 8
    s.modRegs fun r => { r with
      tempThresh := keepUnless (t == 0 || (decide (4 ≤ t) && decide (t ≤ 60))) r.tempThresh (fieldBV v 0 8),
      inplaceMax := fieldBV v 8 4 }
  | 0x1008 => s.modRegs fun r => { r with
      batchMax := fieldBV v 0 10, chunkLen := fieldBV v 16 8, batchWindow := fieldBV v 32 16, preemptWait := fieldBV v 48 16 }
  | 0x1010 => s.modRegs fun r => { r with
      acceptMin := keepUnless (decide (Bits.field v 0 7 ≤ 100)) r.acceptMin (fieldBV v 0 7), reprobe := fieldBV v 16 16 }
  | 0x1014 => s.modRegs fun r => { r with
      laneErrMax := fieldBV v 0 16, replayMax := keepUnless (decide (Bits.field v 16 8 ≠ 0)) r.replayMax (fieldBV v 16 8) }
  | 0x1018 =>
    let leak := Bits.field v 8 6
    let win := Bits.field v 24 6
    s.modRegs fun r => { r with
      bucketCap := fieldBV v 0 8,
      bucketLeak := keepUnless (leak == 0 || (decide (10 ≤ leak) && decide (leak ≤ 40))) r.bucketLeak (fieldBV v 8 6),
      hotThresh := keepUnless (decide (Bits.field v 16 7 ≤ 100)) r.hotThresh (fieldBV v 16 7),
      hotWindow := keepUnless (decide (24 ≤ win) && decide (win ≤ 40)) r.hotWindow (fieldBV v 24 6) }
  | 0x101C =>
    let t := Bits.field v 8 7
    s.modRegs fun r => { r with
      levelReq := fieldBV v 0 3, throttleT := keepUnless (decide (85 ≤ t) && decide (t ≤ 105)) r.throttleT (fieldBV v 8 7),
      idleD1 := fieldBV v 16 16 }
  | 0x1020 =>
    let lim := Bits.field v 0 11
    let peak := Bits.field v 16 11
    s.modRegs fun r =>
      let l := keepUnless (decide (200 ≤ lim) && decide (lim ≤ 1650)) r.pwrLimit (fieldBV v 0 11)
      { r with
        pwrLimit := l,
        pwrPeak := keepUnless (decide (l.toNat ≤ peak) && decide (peak ≤ 1900)) r.pwrPeak (fieldBV v 16 11),
        pwrBurst := keepUnless (decide (Bits.field v 28 4 ≤ 10)) r.pwrBurst (fieldBV v 28 4) }
  | 0x102C => s.modRegs fun r => { r with kvLowMark := fieldBV v 0 24 }
  | 0x1090 => s.modRegs fun r => { r with bootAddress := BitVec.ofNat 64 v }
  | 0x1098 => s.modRegs fun r => { r with bootLength := BitVec.ofNat 32 v }
  | _ =>
    if 0x1040 ≤ o ∧ o < 0x1060 then
      s.modRegs fun r => { r with
        partWeight := (List.range 4).foldl (fun t i => Tbl.set 1 (o - 0x1040 + i) (fieldBV v (8 * i) 8) t) r.partWeight }
    else s

/-- Words of device page 2 that are not ring blocks. -/
def writePage2 (s : State) (o v : Nat) : State :=
  match o with
  | 0x2040 => s.modRegs fun r => { r with mgmtVec := fieldBV v 0 11 }
  | 0x2048 =>
    let k := Bits.field v 0 16
    s.modRegs fun r => { r with kvRegion := keepUnless (decide (k % 8 = 0) && decide (k ≤ 4800)) r.kvRegion (fieldBV v 0 16) }
  | 0x204C =>
    let k := Bits.field v 0 16
    s.modRegs fun r => { r with saveRegion := keepUnless (decide (k % 8 = 0) && decide (k ≤ 4096)) r.saveRegion (fieldBV v 0 16) }
  | 0x2050 =>
    let k := Bits.field v 0 9
    s.modRegs fun r => { r with graftStage := keepUnless (decide (k % 2 = 0) && decide (k ≤ 256)) r.graftStage (fieldBV v 0 9) }
  | _ =>
    if 0x2100 ≤ o ∧ o < 0x2180 then
      s.modRegs fun r => { r with ownerKey := Tbl.set 0 ((o - 0x2100) / 8) (BitVec.ofNat 64 v) r.ownerKey }
    else if 0x2180 ≤ o ∧ o < 0x2190 then
      s.modRegs fun r => { r with ownerParts := Tbl.set 0 ((o - 0x2180) / 4) (BitVec.ofNat 32 v) r.ownerParts }
    else s

/-- Share words of a partition page (Table 12-2). -/
def writeShare (s : State) (p o v : Nat) : State :=
  let frames := s.framesPerStack
  match o with
  | 0x100 =>
    let e := Bits.field v 0 15
    s.modPart p fun x =>
      let share := keepUnless (decide (e ≤ 16384)) x.entryShare (fieldBV v 0 15)
      { x with
        entryShare := share,
        premiumShare := keepUnless (decide (Bits.field v 16 15 ≤ share.toNat)) x.premiumShare (fieldBV v 16 15) }
  | 0x104 =>
    let k := Bits.field v 0 24
    s.modPart p fun x => { x with kvFrames := keepUnless (k == 0 || decide (k + 1 ≤ frames)) x.kvFrames (fieldBV v 0 24) }
  | 0x108 =>
    let b := Bits.field v 16 11
    s.modPart p fun x => { x with
      saveShare := fieldBV v 0 16, vecBase := keepUnless (decide (b % 2 = 0)) x.vecBase (fieldBV v 16 11),
      aftus := decide (Bits.field v 31 1 = 1) }
  | _ =>
    if 0x110 ≤ o ∧ o < 0x130 then
      let n := (o - 0x110) / 8
      s.modPart p fun x =>
        let old := Tbl.get (0, 0) n x.groups
        let base := Bits.field v 0 16
        let cnt := Bits.field v 16 17
        { x with groups := Tbl.set (0, 0) n (BitVec.ofNat 16 base, keepUnless (decide (base + cnt ≤ 65536)) old.2 (BitVec.ofNat 17 cnt)) x.groups }
    else s

/-! ### Registers with a behaviour of their own -/

/-- VERSION_NEG.REQ (R249): the LM1's own highest level is 1. -/
def writeVersion (s : State) (v : Nat) : State :=
  let q := Bits.field v 0 4
  s.modRegs fun r => { r with verReq := BitVec.ofNat 4 q, verAck := BitVec.ofNat 4 (min q 1) }

/-- Enabled partitions: those whose ENTRY_SHARE is nonzero. -/
def sharing (s : State) : List Nat := (List.range 32).filter fun p => decide ((s.part p).entryShare ≠ 0)

/-- Used budget groups of the enabled partitions: first record and the one after the last. -/
def usedGroups (s : State) : List (Nat × Nat) :=
  s.sharing.flatMap fun p => (List.range 4).filterMap fun n =>
    let g := Tbl.get (0, 0) n (s.part p).groups
    if g.2 = 0 then none else some (g.1.toNat, g.1.toNat + g.2.toNat)

/-- The vectors of R252, check 6. -/
def vectorsUsed (s : State) : List Nat :=
  s.regs.mgmtVec.toNat :: s.sharing.flatMap fun p => [(s.part p).vecBase.toNat, (s.part p).vecBase.toNat + 1]

/-- No two intervals of a list overlap. -/
def disjoint : List (Nat × Nat) → Bool
  | [] => true
  | g :: gs => gs.all (fun h => decide (g.2 ≤ h.1) || decide (h.2 ≤ g.1)) && disjoint gs

/-- The checks of R252 in order: the code of the first that fails; disabled partitions are skipped (R253). -/
def sealCheck (s : State) : Nat :=
  let sum (f : Part → Nat) : Nat := (s.sharing.map fun p => f (s.part p)).sum
  let kv := sum fun x => x.kvFrames.toNat
  if 16384 < sum (fun x => x.entryShare.toNat) then 1
  else if s.sharing.any fun p => decide ((s.part p).entryShare.toNat < (s.part p).premiumShare.toNat) then 2
  else if kv ≠ 0 ∧ s.framesPerStack < kv + 1 then 3
  else if s.regs.saveRegion.toNat < sum (fun x => x.saveShare.toNat) then 4
  else if !disjoint s.usedGroups then 5
  else if (distinct s.vectorsUsed).length ≠ s.vectorsUsed.length then 6
  else 0

/-- A write of SEAL (R252): a 1 while unsealed runs the checks; rings with a nonzero exponent become enabled, those of
disabled partitions excepted (R229, R253), and records that waited for SEAL are written (log 6). -/
def writeSeal (s : State) (v : Nat) : State :=
  if s.regs.sealed || Bits.field v 0 1 == 0 then s
  else
    let c := s.sealCheck
    if c ≠ 0 then s.modRegs fun r => { r with sealErr := BitVec.ofNat 4 c }
    else
      let s := s.modRegs fun r => { r with sealed := true, sealErr := 0 }
      let s := s.each (List.range 32) fun s p => s.modPart p fun x => { x with enabled := decide (x.entryShare ≠ 0) }
      let s := s.each (List.range 194) fun s n =>
        let r := ringOf n
        let on := decide ((s.ring r).exp ≠ 0) && (match ringPart r with
          | some p => (s.part p).enabled
          | none => true)
        s.modRing r fun g => { g with enabled := on }
      if (s.ring .eq).enabled then s.release .eq
      else s.each (s.ring .eq).waiting fun s w => (s.modRing .eq fun g => { g with waiting := g.waiting.drop 1 }).discardRecord .eq w

/-- The counters that are levels computed when they are read (Tables 07-10, 08-7, 09-6, 10-9, 13-10, 14-5, 15-9, 16-6, 17-9). -/
def levelValue (s : State) (w : Nat) : Option Nat :=
  let u := Bits.field w 32 16
  match Bits.field w 0 8, Bits.field w 8 8, Bits.field w 16 8 with
  | 9, 6, 11 => some (s.calls.filter fun x => x.2.partition == u && decide (x.2.state ≠ .free)).length
  | 10, 9, 5 => some s.grafts.length
  | 8, 7, 4 => some (s.framesFree u)
  | 2, 14, 8 => some ((List.range 16).filter fun k => (Tbl.get ({} : Remap) k (s.tile u).remap).isFree).length
  | 7, 10, 10 => some ((s.tiles.flatMap fun x => x.2.decks.map fun d => d.2.takeCount).foldl max 0)
  | 13, 10, 6 => some (s.link (portOf u)).width
  | 15, 9, 9 => some ((List.range 128).filter fun b => (s.bough b).withdrawn).length
  | 16, 6, 5 => some s.boot.attempts
  | 17, 9, 7 => some s.power.energy
  | _, _, _ => none

/-- COUNTER_SEL latches the selected counter (R408, R409). -/
def writeCounterSel (s : State) (v : Nat) : State :=
  let ok := counterNamed v
  let x := if ok then (s.levelValue v).getD (Tbl.get 0 (v % 2 ^ 48) s.counters) else 0
  s.modRegs fun r => { r with counterSel := BitVec.ofNat 64 v, counterVal := x, counterInvalid := !ok }

/-- HK_CTRL.REFEN (R117). -/
def writeRefen (s : State) (on : Bool) : State :=
  let was := s.regs.refen
  let s := s.modRegs fun r => { r with refen := on }
  if on && !was then s.modHk fun h => { h with refenAt := some s.now, refReady := false }
  else if on then s
  else s.modHk fun h => { h with refenAt := none, refReady := false }

/-- BOOT_SRC.GO (R338): acted on while BOOT is 1 and FW_FETCH waits with an image length of 1 to 16 MiB. -/
def writeGo (s : State) : State :=
  let n := s.regs.bootLength.toNat
  if s.boot.phase = .coldStart ∧ s.regs.boot = 1 ∧ s.boot.done.getLsbD 3 = true ∧ s.boot.done.getLsbD 4 = false ∧ 0 < n ∧
      n ≤ 2 ^ 24 then s.modBoot fun b => { b with go := true }
  else s

/-- A write of one register: a whole 64-bit register at its offset, or a 32-bit one. -/
def writeReg (s : State) (o v : Nat) : State :=
  match o with
  | 0x0020 => s.writeVersion v
  | 0x0028 => s.writeSeal v
  | 0x1024 => if Bits.field v 0 1 = 1 then s.modPins fun p => { p with fenceOut := false } else s
  | 0x1028 => s.writeRefen (Bits.field v 0 1 == 1)
  | 0x1080 => s.writeCounterSel v
  | 0x109C => if Bits.field v 0 1 = 1 then s.writeGo else s
  | _ =>
    if 0x1000 ≤ o ∧ o < 0x2000 then s.writePolicy o v
    else if 0x2000 ≤ o ∧ o < 0x2040 then
      (if o = 0x2034 then s.writeCoal .eq v else s.writeRing (if o < 0x2020 then .mq else .eq) (o % 0x20) v)
    else if 0x2040 ≤ o ∧ o < 0x3000 then s.writePage2 o v
    else if 0x10000 ≤ o ∧ o < 0x30000 then
      let p := (o - 0x10000) / 0x1000
      let q := o % 0x1000
      if q < 0x0C0 then
        (if q % 0x20 = 0x14 then (if inbound (blockRing p q) then s else s.writeCoal (blockRing p q) v)
         else s.writeRing (blockRing p q) (q % 0x20) v)
      else s.writeShare p q v
    else s

/-- A write of a register after the lock test of R405. -/
def writeOpen (s : State) (o v : Nat) : State := if s.regs.sealed && lockedAt o then s else s.writeReg o v

def dropLow (s : State) (o : Nat) : State := s.modRegs fun r => { r with lowHalf := r.lowHalf.filter fun x => x.1 != o }

/-- A 4-byte write (R404): the lower half of a 64-bit register is held, the upper half applies both. -/
def write4 (s : State) (o v : Nat) : State :=
  if !wide64 o then s.writeOpen o v
  else if s.regs.sealed && lockedAt (o / 8 * 8) then s
  else if o % 8 = 0 then (s.dropLow o).modRegs fun r => { r with lowHalf := (o, BitVec.ofNat 32 v) :: r.lowHalf }
  else
    let lo := match s.regs.lowHalf.find? fun x => x.1 == o - 4 with
      | some x => x.2.toNat
      | none => s.regWord (o - 4)
    (s.dropLow (o - 4)).writeOpen (o - 4) (lo + 2 ^ 32 * v)

/-- The 64-bit registers that are only read. -/
def readWide (o : Nat) : Bool := wide64 o || [0x0008, 0x1088].contains (o / 8 * 8)

def dropHigh (s : State) (o : Nat) : State := s.modRegs fun r => { r with highLatch := r.highLatch.filter fun x => x.1 != o }

/-- A 4-byte read (R404): the lower half of a 64-bit register latches the upper half, which the next 4-byte read of the upper half
returns. -/
def read4 (s : State) (o : Nat) : State :=
  if !readWide o then s.emit (.regRead o (s.regWord o))
  else if o % 8 = 0 then
    ((s.dropHigh o).modRegs fun r => { r with highLatch := (o, BitVec.ofNat 32 (s.regWord (o + 4))) :: r.highLatch }).emit
      (.regRead o (s.regWord o))
  else
    (s.dropHigh (o - 4)).emit (.regRead o (match s.regs.highLatch.find? fun x => x.1 == o - 4 with
      | some x => x.2.toNat
      | none => s.regWord o))

/-- A read of the window: write-only and reserved bits read as zero (R8, R9, R403, R404). -/
def windowRead (s : State) (a : RegAccess) : State :=
  if (a.size ≠ 4 ∧ a.size ≠ 8) ∨ a.off % a.size ≠ 0 then (s.count Ctr.regBadAccess).emit (.regRead a.off 0)
  else if a.size = 4 then s.read4 a.off
  else s.emit (.regRead a.off (s.regWord a.off + 2 ^ 32 * s.regWord (a.off + 4)))

/-- An access of the window (R403 to R405). -/
def windowWrite (s : State) (a : RegAccess) : State :=
  let v := a.value.toNat
  if (a.size ≠ 4 ∧ a.size ≠ 8) ∨ a.off % a.size ≠ 0 then s.count Ctr.regBadAccess
  else
    let hit := s.regs.sealed && (lockedAt a.off || (decide (a.size = 8) && lockedAt (a.off + 4)))
    let s := if hit then s.count Ctr.regLockedWrites else s
    if a.size = 4 then s.write4 a.off (v % 2 ^ 32)
    else if wide64 a.off then (s.dropLow a.off).writeOpen a.off v
    else (s.writeOpen a.off (v % 2 ^ 32)).writeOpen (a.off + 4) (v / 2 ^ 32)

/-- The window is served (R406). -/
def windowServed (s : State) : Bool :=
  s.readyBit 2 && (s.running || s.starting) && decide (s.power.dstate ≠ .d3) && !s.isolated

end State

/-- A register access as a command: outside the served states the HA4 reports it failed and nothing happens. -/
def regCommand (row : String) (named : Bool) (a : RegAccess) (s : State) : Result :=
  (if s.windowServed then (if a.read then s.windowRead a else s.windowWrite a) else s).when row named

/-! ### The rows -/

def execSeal (a : RegAccess) (s : State) : Result := regCommand "SEAL" (Instr.wf (.seal a)) a s

def execVersionNeg (a : RegAccess) (s : State) : Result := regCommand "VERSION_NEG" (Instr.wf (.versionNeg a)) a s

def execFenceCtrlRelease (a : RegAccess) (s : State) : Result :=
  regCommand "FENCE_CTRL_RELEASE" (Instr.wf (.fenceCtrlRelease a)) a s

def execBootSrcGo (a : RegAccess) (s : State) : Result := regCommand "BOOT_SRC_GO" (Instr.wf (.bootSrcGo a)) a s

def execCounterSel (a : RegAccess) (s : State) : Result := regCommand "COUNTER_SEL" (Instr.wf (.counterSel a)) a s

def execHkCtrlRefen (a : RegAccess) (s : State) : Result := regCommand "HK_CTRL_REFEN" (Instr.wf (.hkCtrlRefen a)) a s

def execRegWrite (a : RegAccess) (s : State) : Result := regCommand "REG_WRITE" (Instr.wf (.regWrite a)) a s

end Sys2Proof.Machine
end

