-- ==== Sys2Proof/Machine/PowerOps.lean ====
section
/-! DEFINITION. Power (17): entries to D2 and D3, wakes, levels and the power account. -/

set_option Elab.async false

namespace Sys2Proof.Machine
namespace State

/-- POWER_STATE_CHANGE (Table 17-10). -/
def powerEvent (s : State) (a b : DState) : State :=
  s.event { code := 0x1101, own := own [(40, 1, a.code), (41, 1, b.code)] }

/-- The device is not idle (R354). -/
def notIdle (s : State) : Bool :=
  s.calls.any (fun x => !([CallState.free, .held, .mirror].contains x.2.state)) || !s.weights.takes.isEmpty ||
  !s.mem.rehash.isEmpty || !s.mem.retireJobs.isEmpty || !s.mem.fillJobs.isEmpty || s.parts.any fun x => x.2.resetting

/-- Boughs whose calibration run is in progress. -/
def runningBoughs (s : State) : List Nat := (List.range 128).filter fun b => (s.bough b).runOn

/-- Entry to D2 or D3 starts with step E1: array grants stop, calibration runs are abandoned; D3 flushes interrupts
(Table 17-7). -/
def startEntry (s : State) (t : DState) (j : Job) : State :=
  let runs := s.runningBoughs
  let s := (s.start j).each runs fun s b => s.modBough b fun x => { x with runOn := false }
  let s := if t = .d3 then s.flushAll (s.rings.map fun r => ringOf r.1) else s
  s.modPower fun p => { p with
    entry := some { target := t, step := 1, abort := false, job := j, runs := runs, before := p.dstate } }

/-- Undo the steps of an entry that is abandoned (R368). -/
def abandonEntry (s : State) (e : EntrySt) : State :=
  let s := s.modPower fun p => { p with entry := none, idleSince := s.now }
  let s := s.each e.runs fun s b => s.requestRun b
  ((s.count Ctr.entryAborts).complete e.job .notIdle).tilesNext fun _ => true

/-- The rails that an entry to a state switches off: VANA and VPROG in D2, VCORE and VSER besides in D3
(Table 17-6). -/
def railsFor : DState → List Nat
  | .d2 => [0x41, 0x42]
  | .d3 => [0x40, 0x41, 0x42, 0x43]
  | _ => []

/-- VCORE in millivolts (Table 17-3). -/
def levelMv (l : Nat) : Nat := [750, 720, 700, 670, 640, 610, 580, 550].getD l 550

/-- PMBus pages of a regulator (Table 17-6). -/
def railPages (addr : Nat) : List Nat := if addr = 0x43 then [0, 1] else [0]

/-- Nominal millivolts of a rail (Table 19-4); VCORE has its level's. -/
def railMv (s : State) (addr page : Nat) : Nat :=
  match addr with
  | 0x40 => levelMv s.regs.level.toNat
  | 0x41 => 1000
  | 0x42 => 2400
  | _ => if page = 0 then 850 else 1200

/-- A wake starts with the regulator phase: the rails that were switched off are turned on (Table 17-8). -/
def startWake (s : State) (j : Option Job) : State :=
  let s := match j with
    | some j => s.start j
    | none => s
  let s := s.each (railsFor s.power.dstate) fun s a => s.each (railPages a) fun s p => s.emit (.rail a p (s.railMv a p))
  s.modPower fun p => { p with wake := some { from_ := p.dstate, phase := 0, job := j } }

/-! ### Levels (R357, R359) -/

/-- The slowest of LEVEL_REQ, the thermal floor and the regulator floor. -/
def levelWanted (s : State) : Nat := max s.power.policy.levelReq.toNat (max s.power.thermalFloor s.power.regFloor)

/-- SET_BY: which of the three sets the level, the first in the order of the register where several do. -/
def levelSetBy (s : State) : Nat :=
  if s.power.policy.levelReq.toNat = s.levelWanted then 0 else if s.power.thermalFloor = s.levelWanted then 1 else 2

/-- The next level step starts unless one is in progress or VCORE is off in D3: to a slower level the pacer rate changes first. -/
def startLevel (s : State) : State :=
  let l := s.regs.level.toNat
  let s := if l = s.levelWanted then s.modRegs fun r => { r with setBy := BitVec.ofNat 2 s.levelSetBy } else s
  if s.power.stepTo.isSome || l == s.levelWanted || s.asleep then s
  else
    let t := if l < s.levelWanted then l + 1 else l - 1
    let s := s.modPower fun p => { p with stepTo := some t, pacerLevel := if l < t then t else p.pacerLevel }
    s.emit (.rail 0x40 0 (levelMv t))

/-- REG_ALERT (Table 17-10). -/
def regAlert (s : State) (addr page word : Nat) : State :=
  s.event { code := 0x1104, own := own [(40, 1, addr), (41, 1, page), (42, 2, word)] }

/-- A new regulator floor. -/
def setRegFloor (s : State) (l : Nat) : State :=
  (s.modPower fun p => { p with regFloor := max p.regFloor (min 7 l), warnAt := s.now }).startLevel

end State
end Sys2Proof.Machine
end

