-- ==== Sys2Proof/Machine/TileRows.lean ====
section
/-! DEFINITION. Tiles (02, 06 "Drift", 15 "Clapper phases"): product phases, program runs, gap activities, deck ages. -/

set_option Elab.async false

namespace Sys2Proof.Machine
namespace State

/-! ### Program runs (program_deck, R37, R40, R42 to R45) -/

/-- Replace the first job of a tile. -/
def setJob (s : State) (t : Nat) (j : ProgJob) : State :=
  s.modTile t fun x => { x with jobs := match x.jobs with
    | [] => []
    | _ :: rest => j :: rest }

/-- Remove the first job of a tile. -/
def dropJob (s : State) (t : Nat) : State := s.modTile t fun x => { x with jobs := x.jobs.drop 1 }

/-- Good reference columns of a run. -/
def goodRefs (j : ProgJob) : Nat := 8 - ((List.range 8).filter fun k => j.failed.contains (528 + k)).length

/-- The record of a deck whose run has completed: digest, age 0, READY (program_deck); the correction parameters of new
cells are reset until the fit (R130). -/
def deckReady (s : State) (t : Nat) (j : ProgJob) : State :=
  let dg := ((s.slotFor j.image j.matrix j.rowTile j.colTile).map Slot.digest).getD 0
  let temp := Bits.roundHalfEven (s.bough (t / 64)).temp 16
  let s := s.modDeck t j.deck fun k => { k with
    state := .ready, digest := dg, recAge := 0, ageFrom := s.now, progTemp := temp, drift := 0x8000, driftTarget := 0x8000,
    colGain := [], colTarget := [], rowGain := [], rowTarget := [], fitted := false, fitNo := 0, fit := {}, verifying := [], verified := false,
    sweptAt := s.now, clappedAt := s.now, residual := 0 }
  s.writeClapper t j.deck

/-- The end of a run: WORN below six good reference columns, else READY. -/
def finishRun (s : State) (t : Nat) (j : ProgJob) : State :=
  let s := s.dropJob t
  let s := if goodRefs j < 6 then
      (s.modDeck t j.deck fun k => { k with state := .worn, unverified := false }).progFail t j
    else s.deckReady t j
  s.settle

/-- The tile is retired in the middle of a run (R40). -/
def runRetires (s : State) (t cause : Nat) : State := (s.retireTile t cause).settle

/-- Failed columns that need an entry: weight columns without a good spare routed to them. -/
def needEntries (x : Tile) (j : ProgJob) : List Nat :=
  let bad := (List.range 16).filter fun k => j.failed.contains (512 + k)
  let active := x.remap.filter fun r => r.2.active.getLsbD j.deck
  let routed := (active.filter fun r => !bad.contains r.1).map fun r => r.2.column
  let lost := (active.filter fun r => bad.contains r.1).map fun r => r.2.column
  distinct (((j.failed.filter fun c => decide (c < 512)) ++ lost).filter fun c => !routed.contains c)

/-- Assign an entry to every failed column (R37); none when a column finds no entry. -/
def assignEntries (s : State) (t : Nat) (j : ProgJob) : List Nat → List Nat → Option (List Nat × State)
  | [], got => some (got, s)
  | c :: cs, got =>
    let bad := (List.range 16).filter fun k => j.failed.contains (512 + k)
    let s := s.each ((s.tile t).remap.filter fun r => r.2.column == c && r.2.active.getLsbD j.deck && bad.contains r.1) fun s r =>
      s.setRemap t j.deck r.1 { r.2 with active := r.2.active &&& ~~~(1#8 <<< j.deck) }
    match (s.tile t).chooseEntry j.deck c bad with
    | none => none
    | some k =>
      let r := Tbl.get ({} : Remap) k (s.tile t).remap
      (s.setRemap t j.deck k { r with column := c, active := r.active ||| (1#8 <<< j.deck) }).assignEntries t j cs (got ++ [k])

/-- A pass over the rows has ended: failed columns get entries, new spares a second pass (program_deck). -/
def passEnds (s : State) (t : Nat) (j : ProgJob) : State :=
  match s.assignEntries t j (needEntries (s.tile t) j) [] with
  | none => s.runRetires t 1
  | some ([], s) => s.finishRun t j
  | some (ks, s) => s.setJob t { j with second := true, row := 0, resets := 2, iter := 0, spares := ks }

/-- A row is done with the cells that are still outside their window; their columns have failed. -/
def rowDone (s : State) (t : Nat) (j : ProgJob) (left : List Nat) : State :=
  let s := s.count (Ctr.verifyFails t) left.length
  let j := { j with failed := distinct (j.failed ++ left.map fun c => c / 2), cells := j.cells + left.length, row := j.row + 1,
                    resets := if j.second then 2 else 0, iter := 0 }
  if j.row = 1024 then s.passEnds t j else s.setJob t j

/-- The target levels of a row's column (program_deck, R22, R23): the weight code of the slot in the matrix's format, an unused cell
at level 0; a spare that serves the deck holds the content of the column it replaces; a reference column its fixed levels. -/
def targetLevels (s : State) (t : Nat) (j : ProgJob) (c : Nat) : Nat × Nat :=
  let fmt := (s.deck t j.deck).format
  let code (c : Nat) : Int := ((s.slotFor j.image j.matrix j.rowTile j.colTile).map fun x => x.code j.row c).getD 0
  if c < 512 then cellLevels fmt (code c)
  else if c < 528 then
    let r := Tbl.get ({} : Remap) (c - 512) (s.tile t).remap
    if r.active.getLsbD j.deck then cellLevels fmt (code r.column) else (0, 0)
  else refLevels (c - 528)

/-- Cells of the row outside their target window of 2 verify codes, a quarter level, either side (program_deck). -/
def pendingCells (s : State) (t : Nat) (j : ProgJob) (codes : List Nat) : List Nat :=
  (codes.zipIdx.filter fun x =>
    let g := s.targetLevels t j (x.2 / 2)
    let want := 8 * (if x.2 % 2 = 0 then g.1 else g.2)
    decide (want + 2 < x.1) || decide (x.1 + 2 < want)).map fun x => x.2

/-- Cells of a row that the pass programs: all, or the new spares'. -/
def pendingOf (s : State) (t : Nat) (j : ProgJob) (codes : List Nat) : List Nat :=
  let all := s.pendingCells t j codes
  if j.second then all.filter fun i => decide (1024 ≤ i) && j.spares.contains (i / 2 - 512) else all

/-- One program step's verify read decides the next step of the run. -/
def runStep (s : State) (t : Nat) (j : ProgJob) (r : ProgRead) : State :=
  if r.driver then s.runRetires t 3
  else if j.resets = 0 ∧ (r.codes.any fun c => decide (2 < c)) = true then s.setJob t { j with resets := 1 }
  else
    let iters := if j.resets < 2 then 0 else j.iter + 1
    let left := s.pendingOf t j r.codes
    if left.isEmpty || decide (24 ≤ iters) then s.rowDone t j left else s.setJob t { j with resets := 2, iter := iters }

/-- A program step has ended (R44). -/
def progDone (s : State) (t : Nat) (r : ProgRead) : State :=
  let s := (s.count (Ctr.progSteps t)).modTile t fun x => { x with active := .idle }
  let s := match (s.tile t).jobs with
    | [] => s
    | j :: _ => if j.started then s.runStep t j r else s
  let s := s.modTile t fun x => { x with owing := !x.jobs.isEmpty }
  if s.boot.heldReset.isSome then s else (s.tileNext t).tilesNext fun u => u != t

/-! ### Background digest check (R341) -/

/-- Every deck that holds content has been compared (Table 16-4). -/
def allVerified (s : State) : Bool :=
  s.tiles.all fun x => s.tileGone x.1 || (List.range 8).all fun d =>
    let k := s.deck x.1 d
    !(decide (k.state = .ready) || decide (k.state = .live) || decide (k.state = .drifted)) || k.verified

/-- READY.VERIFIED. -/
def tryAllVerified (s : State) : State := if s.running && s.allVerified then s.setReady 9 else s

/-- A deck's digest differs: the event, and a refresh take of the slot where the deck is bound. -/
def digestFails (s : State) (t d : Nat) (dg : Nat) : State :=
  let k := s.deck t d
  let s := (s.count Ctr.arrayDigestFails).event
    { code := 0x1002, unit := unitDeck t d, matrix := k.matrixId, own := own [(40, 8, dg)] }
  match s.deckSource t d with
  | some (image, m, r, c) =>
    if s.deckBound (t, d) then (s.firmwareTake image [m.id] none true [(m.id, r, c, t, d)]).settle else s
  | none => s

/-- One row of a deck's codes is read and digested; after the last the digest is compared. -/
def verifyRow (s : State) (t d : Nat) (row : Bytes) : State :=
  let all := (s.deck t d).verifying ++ row
  if all.length < 262144 then s.modDeck t d fun k => { k with verifying := all }
  else
    let dg := Bits.le (Shake.shake256 all 8) 0 8
    let k := s.deck t d
    let s := s.modDeck t d fun k => { k with verifying := [], verified := true }
    let s := if dg = k.digest.toNat then s else s.digestFails t d dg
    s.tryAllVerified

end State

/-! ### The rows -/

/-- A product is issued: its vector enters the activation buffer with its first use (R59, R61, R76), and the product waits for its
placed transfer or is issued (R19, R73). -/
def execProductIssue (x : ProductIn) (s : State) : Result :=
  let r := x.req
  let s1 := s.takeVec r.key (vecRow r) x.vec
  (s1.request r).when "PRODUCT_ISSUE" (s.vecOk r.key (vecRow r) x.vec && s1.canIssue r)

def execPhaseEnd (tile : Nat) (codes : List Int) (s : State) : Result :=
  match (s.tile tile).active with
  | .product i =>
    match s.prod? i with
    | some p => (s.phaseDone tile p codes).when "PHASE_END"
        (codes.length == p.outputs && Instr.wf (.phaseEnd tile codes))
    | none => (s.modTile tile fun x => { x with active := .idle }).tileNext tile |>.when "PHASE_END" true
  | _ => .fault (.outOfPlace "PHASE_END")

def execProgramStepEnd (tile : Nat) (r : ProgRead) (s : State) : Result :=
  (s.progDone tile r).when "PROGRAM_STEP_END"
    (decide ((s.tile tile).active = .progStep) && r.codes.length == 1072 && r.codes.all fun c => decide (c < 128))

/-- A step becomes owed 15 durations after the last (R44). -/
def execProgramStepOwed (tile : Nat) (s : State) : Result :=
  ((s.modTile tile fun x => { x with owed := true, owing := false }).tileNext tile).when "PROGRAM_STEP_OWED" (s.tile tile).owing

/-- A reference sweep runs in a gap (R35, R36, R46). -/
def execReferenceSweep (tile deck : Nat) (codes : List Int) (s : State) : Result :=
  (((s.gapPhase tile).sweepDone tile deck codes).tileNext tile).when "REFERENCE_SWEEP"
    (Instr.wf (.referenceSweep tile deck codes) && s.gap tile && s.deckReadable tile deck && codes.length == 512)

/-- A clapper phase, or a fit phase, runs in a gap in which no sweep of the tile waits (R36, R123, R309, R310). -/
def execClapperPhase (tile deck : Nat) (run : ClapperIn) (s : State) : Result :=
  let codes := run.codes
  let s1 := (s.gapPhase tile).countClips tile codes
  ((match run.use with
    | .check => s1.clapperDone tile deck codes 3
    | .fit => s1.fitPhase tile deck codes false
    | .fitTransposed => s1.fitPhase tile deck codes true).tileNext tile).when "CLAPPER_PHASE"
    (Instr.wf (.clapperPhase tile deck run) && s.gap tile && s.deckReadable tile deck && !(State.anyDeck (s.sweepDue tile)) &&
      (match run.use with
       | .check => s.hasClapper tile deck && codes.length == 512
       | .fit => s.fitDue tile deck false && codes.length == 512
       | .fitTransposed => s.fitDue tile deck true && codes.length == 1024))

/-- A background verify read runs in a gap in which neither a sweep nor a clapper phase of the tile waits (R36, R341). -/
def execVerifyRead (tile deck : Nat) (row : Bytes) (s : State) : Result :=
  (((s.gapPhase tile).verifyRow tile deck row).tileNext tile).when "VERIFY_READ"
    (Instr.wf (.verifyRead tile deck row) && s.gap tile && s.deckReadable tile deck && !(s.deck tile deck).unverified &&
      !(s.deck tile deck).verified && !(State.anyDeck (s.sweepDue tile)) && !(State.anyDeck (s.clapperDue tile)) && row.length == 256)

/-- An activity of the tile has found no gap for 2^13 ticks: one of a run, or a routine sweep; or a clapper phase is due (R126,
R309). -/
def State.gapOverdue (s : State) (t : Nat) : Bool :=
  let b := s.bough (t / 64)
  (b.runOn && decide (max b.runFrom (s.tile t).gapAt + 2 ^ 13 ≤ s.now)) ||
  (State.anyDeck fun d => s.sweepDue t d && decide (max ((s.deck t d).sweptAt + 2 ^ 23) (s.tile t).gapAt + 2 ^ 13 ≤ s.now)) ||
  State.anyDeck fun d => s.deckReadable t d && decide ((s.deck t d).state ≠ .ready) && decide ((s.deck t d).clappedAt + 2 ^ 29 ≤ s.now)

/-- A forced gap (R126, R309): the next product grant of a tile waits for one pending activity. -/
def execForcedGap (tile : Nat) (s : State) : Result :=
  ((s.count (Ctr.calForcedGaps tile)).modTile tile fun x => { x with forced := true }).when "FORCED_GAP"
    (s.grantsOpen && !s.tileGone tile && !(s.tile tile).forced && !(s.tile tile).queue.isEmpty && s.gapOverdue tile &&
      decide (tile < 8192))

/-- The age is written every 2^39 ticks, whatever the deck's state (R24); a tile retired from manufacture is never written (R411). -/
def execDeckAgeRecord (tile deck : Nat) (s : State) : Result :=
  (s.modDeck tile deck s.recordAge).when "DECK_AGE_RECORD"
    (decide (tile < 8192) && decide (deck < 8) && !(s.tile tile).mfgBad && decide ((s.deck tile deck).ageFrom + 2 ^ 39 ≤ s.now))

/-- A live deck's age reaches 2^45 ticks (R46). -/
def execDriftAgeLimit (tile deck : Nat) (s : State) : Result :=
  (s.enterDrifted tile deck).when "DRIFT_AGE_LIMIT"
    (s.running && !s.tileGone tile && decide ((s.deck tile deck).state = .live) && decide (2 ^ 45 ≤ s.ageOf (s.deck tile deck)))

/-- Drift targets are recomputed every 2^16 ticks (R99), at the multiples of 2^16 (DESIGN CHOICE, log 155). -/
def execDriftUpdate (bough : Nat) (s : State) : Result :=
  (s.driftTargets bough).when "DRIFT_UPDATE"
    ((s.running || s.starting) && s.ticking && decide (bough < 128) && !s.trims.isEmpty && s.now % 2 ^ 16 == 0)

end Sys2Proof.Machine
end

