-- ==== Sys2Proof/Machine/CalRows.lean ====
section
/-! DEFINITION. Calibration (06): references, recalibration runs, the fit after programming, drift re-takes; conversion of chunks
and the end of a cut epoch (07). -/

set_option Elab.async false

namespace Sys2Proof.Machine

/-! ### Estimation (R124, R125) -/

/-- Rounding of a rational number to an integer, ties to even. -/
def roundRat (x : ℚ) : Int := Bits.roundHalfEven x.num x.den

/-- What a run measured on one tile's slices: zero read, injection reads, and by slice the codes of the symmetric pairs (ref k, ref
7 - k) with the deck and k that they come from. -/
structure TileFit where
  reads : SliceReads
  pairs : List (List (Nat × Nat × Int × Int))

/-- Slices of a tile. -/
def slices : List Nat := List.range 256

/-- The code of slice `i` on reference `k` in four consecutive sweeps: its two columns meet every reference in them (R35). -/
def refCode (g : List (Nat × List Int)) (i k : Nat) : Int :=
  (g.flatMap fun x => [2 * i, 2 * i + 1].filterMap fun c => if sweepRef x.1 c == k then some (x.2.getD c 0) else none).headD 0

/-- The symmetric pairs of a slice in a deck's eight sweeps of a run. -/
def slicePairs (deck : Nat) (sweeps : List (Nat × List Int)) (i : Nat) : List (Nat × Nat × Int × Int) :=
  [sweeps.take 4, (sweeps.drop 4).take 4].flatMap fun g => (List.range 4).map fun k => (deck, k, refCode g i k, refCode g i (7 - k))

/-- Target offset of a slice in 1/64 LSB: the mean of the zero read and half the sum of each symmetric pair. -/
def offsetTarget (zero : Int) (pairs : List (Nat × Nat × Int × Int)) : Int :=
  Bits.roundHalfEven (64 * (2 * zero + (pairs.map fun p => p.2.2.1 + p.2.2.2).sum)) (2 * (1 + pairs.length))

/-- Mean pair difference over the slices that converted the same reference columns of the same deck. -/
def meanDiff (f : TileFit) (deck k : Nat) : ℚ :=
  let ds := (f.pairs.flatten.filter fun p => p.1 == deck && p.2.1 == k).map fun (p : Nat × Nat × Int × Int) => (p.2.2.1 - p.2.2.2 : Int)
  ((ds.sum : Int) : ℚ) / (ds.length : ℚ)

/-- Gain measured by a slice's injection reads. -/
def injGain (f : TileFit) (i : Nat) : ℚ := ((f.reads.injPos.getD i 0 - f.reads.injNeg.getD i 0 : Int) : ℚ) / 192

/-- Relative gain of a slice: its pair differences against the mean ones; a slice without pairs takes its injection reads. -/
def relGain (f : TileFit) (i : Nat) : ℚ :=
  let ps := f.pairs.getD i []
  let mean := (ps.map fun p => meanDiff f p.1 p.2.1).sum
  if ps.isEmpty || decide (mean = 0) then injGain f i
  else (((ps.map fun (p : Nat × Nat × Int × Int) => (p.2.2.1 - p.2.2.2 : Int)).sum : Int) : ℚ) / mean

/-- Target gains of the slices in 1/32,768: the correction of the relative gains scaled so that their mean is the gain that the
injection reads measure. A slice without response has gain 0. -/
def gainTargets (f : TileFit) : List Nat :=
  let rel := slices.map (relGain f)
  let inj := (slices.map (injGain f)).sum
  slices.map fun i =>
    let g := (rel.getD i 0) * inj / rel.sum
    if 0 < g then (roundRat (32768 / g)).toNat else 0

/-- A slice's targets leave their range: a slice fault (R34, R124). -/
def sliceFault (offset : Int) (gain : Nat) : Bool :=
  decide (offset < -2048) || decide (2047 < offset) || decide (gain < 24576) || decide (40960 < gain)

/-- The ratio of R125 in 1/32,768; none when the exact values give nothing to measure (below 1,024 LSB squared). -/
def fitRatio (x : FitSum) : Option ℚ := if x.tt < 1024 * 2 ^ 32 then none else some ((x.tv : ℚ) / (x.vv : ℚ))

/-- A column or row gain in range: 0.875 to 1.125. -/
def gainInRange (g : Int) : Bool := decide (28672 ≤ g) && decide (g ≤ 36864)

/-- New gain of an element with gain `g`: an eighth of the way to the fit, or all of it (R125, R130). -/
def newGain (direct : Bool) (g : Nat) (x : FitSum) : Int :=
  match fitRatio x with
  | none => (g : Int)
  | some r => roundRat (if direct then r * 32768 else (g : ℚ) + (r * (g : ℚ) - (g : ℚ)) / 8)

/-- New gains by element, with the elements that leave their range. -/
def newGains (direct : Bool) (old : Tbl Nat) (xs : List FitSum) : Tbl Nat × List Nat :=
  xs.foldl (fun acc x =>
    let g := newGain direct (if direct then 0x8000 else Tbl.get 0x8000 x.index old) x
    if gainInRange g then (Tbl.set 0x8000 x.index g.toNat acc.1, acc.2) else (acc.1, acc.2 ++ [x.index])) (old, [])

namespace State

/-! ### References (R120, R121) -/

/-- New slice targets of one tile; at the first reads of a start the applied values are set too (R131). -/
def fitSlices (s : State) (f : TileFit) (direct : Bool) : State :=
  let r := f.reads
  let offs := slices.map fun i => offsetTarget (r.zero.getD i 0) (f.pairs.getD i [])
  let gains := gainTargets f
  if slices.any fun i => sliceFault (offs.getD i 0) (gains.getD i 0) then s.retireTile r.tile 2
  else
    let ot : Tbl Int := slices.foldl (fun t i => Tbl.set 0 i (offs.getD i 0) t) []
    let gt : Tbl Nat := slices.foldl (fun t i => Tbl.set 0x8000 i (gains.getD i 0) t) []
    let st : Tbl Int := slices.foldl (fun t i =>
      Tbl.set 0 i (min 31 (max (-32) (Config.skewTarget (r.injPos.getD i 0) (r.injNeg.getD i 0)))) t) []
    s.modTile r.tile fun x => { x with
      offsetTarget := ot, gainTarget := gt, skewTarget := st, offset := if direct then ot else x.offset,
      gain := if direct then gt else x.gain, skew := if direct then st else x.skew }

/-- Tiles of a bough that are not retired: those that a run measures. -/
def liveTiles (s : State) (b : Nat) : List Nat := ((List.range 64).map fun i => 64 * b + i).filter fun t => !s.tileGone t

/-- The reads have their shape: one of 256 slices for each tile, in order. -/
def readsOk (tiles : List Nat) (rs : List SliceReads) : Bool :=
  rs.map (fun r => r.tile) == tiles &&
  rs.all fun r => [r.zero, r.injPos, r.injNeg].all fun xs => xs.length == 256 && xs.all fun c => decide (-128 ≤ c) && decide (c ≤ 127)

/-- The three reads of each tile are charged as phases and counted as gap activity. -/
def chargeReads (s : State) (b : Nat) (rs : List SliceReads) : State :=
  s.each (rs.flatMap fun r => [r.tile, r.tile, r.tile]) fun s t => (s.count (Ctr.gapPhases t)).charge 0 (some b)

/-- A bough's reference is ready: after a cold start its slices are read (R131); a pending run starts, waiting work runs. -/
def refIsReady (s : State) (b : Nat) (reads : List SliceReads) : State :=
  let s := s.modBough b fun x => { x with ref := .ready, waiting := [], testWaits := [], coldCal := false }
  let s := (s.chargeReads b reads).each reads fun s r => s.fitSlices { reads := r, pairs := slices.map fun _ => [] } true
  let s := if (s.bough b).runPending && !(s.bough b).runOn && !(s.bough b).withdrawn && s.newWorkOpen then s.startRun b else s
  (s.tilesNext fun t => t / 64 == b).calStep

/-! ### The end of a run (R124, R125, R127) -/

/-- Program a READY deck again from its slot: the run assigns spares to the failed columns (R37, R125, R314). -/
def programAgain (s : State) (t d : Nat) (failed : List Nat) : State :=
  match s.deckSource t d with
  | some (image, m, r, c) => s.requestProgram t { jobFor d (s.deck t d).takeId image m.id r c with failed := failed }
  | none => s

/-- Columns with a permanent fault (R38, R125, R314): suspended in a LIVE or DRIFTED deck; a READY deck is programmed again. -/
def columnFaults (s : State) (t d : Nat) (cols : List Nat) : State :=
  if cols.isEmpty then s
  else if (s.deck t d).state = .ready then s.programAgain t d cols
  else s.each cols fun s j =>
    if (s.deck t d).state = .live ∨ (s.deck t d).state = .drifted then s.suspendColumn t d j else s

/-- New column and row targets of one deck from the run's sums. A row outside the range keeps its target (log 138). -/
def fitDeck (s : State) (t d : Nat) : State :=
  let k := s.deck t d
  let c := newGains false k.colGain k.fit.cols
  let r := newGains false k.rowGain k.fit.rows
  (s.modDeck t d fun k => { k with colTarget := c.1, rowTarget := r.1, fit := {} }).columnFaults t d c.2

/-- One tile's new targets; decks that left the run are skipped (R127). -/
def fitTile (s : State) (r : SliceReads) (decks : List Nat) (sweeps : Nat → List (Nat × List Int)) : State :=
  let pairs := slices.map fun i => decks.flatMap fun d => slicePairs d (sweeps d) i
  let s := s.fitSlices { reads := r, pairs := pairs } false
  s.each decks fun s d => if s.deckReadable r.tile d then s.fitDeck r.tile d else s

/-- The tile has finished its activities (Table 06-3): eight sweeps and the fit phases of every deck in the run. -/
def tileMeasured (s : State) (t : Nat) : Bool :=
  (List.range 8).all fun d => !s.inRun t d || (decide (8 ≤ (s.runSweepsOf t d).length) && !s.fitDue t d false && !s.fitDue t d true)

/-- A run ends (R127). -/
def runEnds (s : State) (b : Nat) (reads : List SliceReads) : State :=
  let s := s.chargeReads b reads
  let s0 := s
  let x := s.bough b
  let again := x.runPending || x.runCount == 0
  let s := s.modBough b fun x => { x with runOn := false, runPending := false, runSweeps := [], runSkip := [] }
  let s := { s with tiles := Tbl.mapVals {} id (s.tiles.map fun (y : Nat × Tile) =>
    if y.1 / 64 = b then (y.1, { y.2 with forced := false }) else y) }
  let s := s.count (Ctr.calRuns b)
  let s := if x.runCount = 0 then s
    else
      let s := s.each reads fun s r =>
        s.fitTile r ((List.range 8).filter fun d => s0.inRun r.tile d && (s0.deck r.tile d).fitted) (s0.runSweepsOf r.tile)
      let s := s.modBough b fun y => { y with
        calTemp := some (Bits.roundHalfEven x.runSum x.runCount), runDone := true }
      s.saveCal b
  let s := if again then s.requestRun b else s
  ((s.tilesNext fun t => t / 64 == b).calStep).settle

/-! ### The fit after programming, and of the sampled check (R130, R131) -/

def fitIsDone (s : State) (t d : Nat) : State :=
  let k := s.deck t d
  let c := newGains true [] k.fit.cols
  let r := newGains true [] k.fit.rows
  let s := s.modDeck t d fun k => { k with
    colGain := c.1, colTarget := c.1, rowGain := r.1, rowTarget := r.1, fit := {}, fitted := decide (k.state ≠ .ready) || c.2.isEmpty
    state := if k.state = .ready ∧ c.2.isEmpty = true ∧ s.deckBound (t, d) = true then .live else k.state }
  let s := s.columnFaults t d c.2
  (s.saveCal (t / 64)).tryVerified t d |>.settle

/-! ### Drift re-takes (R133, R134) -/

/-- The EMPTY deck that the placement file reserves for takes of a deck's pair. -/
def reservedDeck (s : State) (t d : Nat) : Option (Nat × Nat) :=
  match s.deckSource t d with
  | none => none
  | some (image, m, r, c) =>
    (s.placeFor image).bind fun p =>
      match p.alternate m r c with
      | none => none
      | some alt =>
        let other := if alt = (t, d) then p.primary m r c else alt
        if !s.tileGone other.1 && decide ((s.deck other.1 other.2).state = .empty) then some other else none

/-- In-place re-takes that run. -/
def inPlaceRetakes (s : State) : Nat := (s.weights.takes.filter fun t => t.inPlace && t.drift.isSome).length

/-- A re-take of the deck could start now. -/
def canRetake (s : State) (t d : Nat) : Bool :=
  !(s.weights.takes.any fun x => x.drift == some (t, d)) &&
  (match s.deckSource t d with
   | none => false
   | some (_, m, _, _) => !s.hostTakeMats.contains m.id &&
     ((s.reservedDeck t d).isSome || decide (s.inPlaceRetakes < s.regs.inplaceMax.toNat)))

/-- The first DRIFTED deck, in order of entry, whose re-take can start. -/
def nextRetake (s : State) : Option (Nat × Nat) := s.weights.drifted.find? fun x => s.canRetake x.1 x.2

/-- Management firmware starts a re-take. -/
def startRetake (s : State) (t d : Nat) : State :=
  match s.deckSource t d with
  | none => s
  | some (image, m, r, c) =>
    let other := s.reservedDeck t d
    let id := s.weights.nextTake
    let tgt := other.getD (t, d)
    let s := s.event { code := 0x0401, unit := unitDeck t d, matrix := m.id, image := image,
                       own := own [(40, 1, 1), (41, 1, if other.isSome then 0 else 1), (44, 4, id)] }
    (s.firmwareTake image [m.id] (some (t, d)) other.isNone [(m.id, r, c, tgt.1, tgt.2)]).settle

/-! ### Conversion and epochs -/

/-- The oldest accepted chunk has been converted (R140, R141). -/
def chunkConverted (s : State) : State :=
  match s.weights.chunks with
  | [] => s
  | k :: rest => ((s.convertChunk k).modWeights fun w => { w with chunks := rest }).settle

/-- The last batch of the old epoch has left the position's last matrix (R146). -/
def oldEpochLeft (s : State) : Bool := s.weights.oldEpoch && s.steps.all fun x => x.epoch == s.weights.epoch || s.partDone x

end State

/-! ### The rows -/

def execRefReady (x : RefUp) (s : State) : Result :=
  let bough := x.bough
  (s.refIsReady bough x.reads).when "REF_READY" (decide (bough < 128) && (match (s.bough bough).ref with
    | .warming _ => true
    | _ => false) && State.readsOk (if (s.bough bough).coldCal then s.liveTiles bough else []) x.reads)

def execCalRunEnd (bough : Nat) (reads : List SliceReads) (s : State) : Result :=
  (s.runEnds bough reads).when "CAL_RUN_END"
    (decide (bough < 128) && (s.bough bough).runOn && s.grantsOpen && decide ((s.bough bough).ref = .ready) &&
      State.readsOk (s.liveTiles bough) reads && (s.liveTiles bough).all s.tileMeasured)

/-- A deck's fit is complete: all phases of both directions have run (R130). -/
def execFitDone (tile deck forward transposed : Nat) (s : State) : Result :=
  (s.fitIsDone tile deck).when "FIT_DONE"
    (decide (tile < 8192) && decide (deck < 8) && s.grantsOpen && s.deckReadable tile deck && !(s.deck tile deck).fitted &&
      s.fitComplete tile deck 128 && decide (forward = (s.deck tile deck).fit.forward) &&
      decide (transposed = (s.deck tile deck).fit.transposed))

def execDeckRetake (tile deck : Nat) (s : State) : Result :=
  (s.startRetake tile deck).when "DECK_RETAKE" (s.running && s.nextRetake == some (tile, deck))

def execChunkConversion (s : State) : Result :=
  s.chunkConverted.when "CHUNK_CONVERSION" (!s.weights.chunks.isEmpty)

def execEpochDrained (s : State) : Result := (s.closeEpoch.settle).when "EPOCH_DRAINED" s.oldEpochLeft

end Sys2Proof.Machine
end

