-- ==== Sys2Proof/Machine/HostRings.lean ====
section
/-! DEFINITION. Events of the host rings (11): doorbells, failed accesses, the coalescing window. -/

set_option Elab.async false

namespace Sys2Proof.Machine
namespace State

/-- DOORBELL_BAD (Table 11-11). -/
def doorbellBad (s : State) (r : RingId) (count : BitVec 32) : State :=
  (s.count Ctr.dbInvalid).event
    { code := 0x0803, partition := ringPart r,
      own := own [(40, 1, ringCode r), (44, 4, count.toNat), (48, 4, (s.ring r).pos.toNat)] }

/-- A doorbell count is valid (R231): an inbound one at most 2^n ahead of the fetch position; an outbound one between the
previous consumer count and the producer position. -/
def doorbellOk (g : Ring) (r : RingId) (count : BitVec 32) : Bool :=
  if inbound r then decide ((count - g.pos).toNat ≤ g.size) else decide ((count - g.count).toNat ≤ (g.pos - g.count).toNat)

/-- What follows when an outbound ring may have space: the failed record is retried, waiting records go out, and entries that
they free are used (R246, R413, R262 step 5). -/
def outboundNext (s : State) (r : RingId) : State :=
  let s := (s.retryOrRelease r).freeWritten
  match r with
  | .cq p => ((s.afterFree p).partResetFlush p).noteStall p
  | _ => s

/-- The LM1 acts on a doorbell count (R231); any doorbell of the ring retries a failed fetch (R244) or record (R413). -/
def doorbell (s : State) (r : RingId) (count : BitVec 32) : State :=
  let g := s.ring r
  if !g.enabled then s.count Ctr.dbDisabled
  else
    let s := if doorbellOk g r count then s.modRing r fun g => { g with count := count } else s.doorbellBad r count
    if inbound r then
      let s := s.modRing r fun g => { g with stopped := false }
      match r with
      | .sq p _ => s.noteStall p
      | _ => s
    else s.outboundNext r

/-- The device takes doorbells: its port H carries flits while it serves or starts. -/
def serving (s : State) : Bool := s.running || s.starting

/-- FETCH_FAULT (R244). -/
def fetchFault (s : State) (r : RingId) : State :=
  let pos := (s.ring r).pos.toNat
  (s.modRing r fun g => { g with stopped := true }).event
    { code := 0x0804, partition := ringPart r, own := own [(40, 1, ringCode r), (44, 4, pos)] }

/-- The job of an object that waits for its signature check. -/
def sigJob : SigObject → Option Job
  | .manifest _ j => j
  | .placement _ j => some j
  | .graft _ _ j => some j
  | .firmware _ _ j => some j

/-- The call whose descriptor this is. -/
def jobCall (s : State) (j : Job) : Option Nat :=
  (s.calls.find? fun x => x.2.job == some j && !x.2.ended).map fun x => x.1

/-- An operation whose host access failed ends with HOST_FAULT (R228, R198). -/
def hostFaultJob (s : State) (j : Job) : State :=
  match s.jobCall j with
  | some c => s.endCall c .hostFault none
  | none =>
    let s := s.modSec fun x => { x with
      queue := x.queue.filter fun o => sigJob o != some j,
      staging := match x.staging with
        | some (_, i) => if i = j then none else x.staging
        | none => none }
    s.complete j .hostFault

/-- The job is one that reads host memory while it runs: a call, or an object that is loaded. -/
def readsHost (s : State) (j : Job) : Bool := (s.jobCall j).isSome || s.sec.queue.any fun o => sigJob o == some j

def hostJob (s : State) (r : RingId) (pos : Nat) : Option Job :=
  s.jobs.find? fun j => j.ring == r && j.pos == pos && s.readsHost j

/-- The call of a completion record keeps its entry until the record is written (R246): an entry that was freed with the record comes
back as ended, unless a later call has taken it. -/
def keepEntry (s : State) (r : RingId) (w : Waiting) : State :=
  match w.frees, r, w.record with
  | some c, .cq p, .completion tag _ _ _ premium _ _ _ =>
    if (s.call c).state = .free then
      { s with calls := Tbl.set {} c { state := .running, tag := tag, partition := p, premium := premium, ended := true } s.calls }
    else s
  | _, _, _ => s

/-- The entry that a failed record frees once it is written: none where a later call has taken it. -/
def failedFrees (s : State) (w : Waiting) : Option Nat := w.frees.filter fun c => decide ((s.call c).state = .free)

/-- A record write that the HA4 reports failed: the producer position goes back to the entry, which the record keeps
(R413). -/
def recordFault (s : State) (r : RingId) (w : Waiting) : State :=
  let frees := s.failedFrees w
  let s := ((s.keepEntry r w).count Ctr.recordWriteFaults).modRing r fun g => { g with
    pos := g.pos - 1, failed := some { w with frees := frees }, last := none,
    pendingCount := if w.quiet then g.pendingCount else g.pendingCount - 1 }
  if r = .eq then s
  else s.event
    { code := 0x0805, partition := ringPart r, own := own [(40, 1, ringCode r), (44, 4, (s.ring r).pos.toNat)] }

end State

/-- DOORBELL (R231); without a header the count is the one read from the doorbell record. -/
def execDoorbell (hd : Option FlitHdr) (r : RingId) (count : BitVec 32) (s : State) : Result :=
  match hd with
  | none => (s.doorbell r count).when "DOORBELL" (ringExists r && s.serving && !s.isolated)
  | some hd => if ringExists r then s.onFlit "DOORBELL" hd [.h] [2] fun s => s.doorbell r count
    else .fault (.outOfPlace "DOORBELL")

def execFetchFault (r : RingId) (s : State) : Result :=
  (s.fetchFault r).when "FETCH_FAULT" (s.hasDescriptor r && s.serving && !(s.ring r).stopped && !s.isolated)

def execHostFault (r : RingId) (pos : Nat) (s : State) : Result :=
  match s.hostJob r pos with
  | some j => .next (s.hostFaultJob j)
  | none => .fault (.outOfPlace "HOST_FAULT")

def execRecordWriteFault (r : RingId) (s : State) : Result :=
  match (s.ring r).last with
  | some w => (s.recordFault r w).when "RECORD_WRITE_FAULT" (ringExists r && !inbound r && (s.ring r).failed.isNone)
  | none => .fault (.outOfPlace "RECORD_WRITE_FAULT")

/-- COAL_WINDOW ticks since the first pending record, with the window in force as the last pending record was written (R247, Table 20-5). -/
def execCoalWindowExpiry (r : RingId) (s : State) : Result :=
  let g := s.ring r
  (s.interrupt r).when "COAL_WINDOW_EXPIRY"
    (ringExists r && !inbound r && g.irqEn && decide (g.timer ≠ 0) && decide (0 < g.pendingCount) &&
      decide (g.pendingTick + g.timer.toNat ≤ s.now) && !s.isolated)

end Sys2Proof.Machine
end

