-- ==== Sys2Proof/Machine/MgmtDesc.lean ====
section
/-! DEFINITION. The management descriptors of maintenance, resets, power, firmware and attestation (06, 14 to 18). -/

set_option Elab.async false

namespace Sys2Proof.Machine

/-! ### References, calibration, housekeeping (06) -/

/-- The boughs that a mask at bytes 8 to 23 names. -/
def namedBoughs (f : Sys2Proof.Fetch) : List Nat := (List.range 128).filter fun b => f.word.getLsbD (64 + b)

/-- REF_WARM (R120). -/
def refWarmEffect (f : Sys2Proof.Fetch) (j : Job) (s : State) : State :=
  (s.each (namedBoughs f) fun s b => if (s.bough b).withdrawn then s else s.warmBough b).complete j .ok

def execRefWarm (f : Sys2Proof.Fetch) (s : State) : Result := s.descriptor "REF_WARM" (Instr.wf (.refWarm f)) f (refWarmEffect f)

/-- CALIBRATE requests a run (R123); at a cold bough the run waits and the reference is warmed (R121). -/
def calibrateBough (s : State) (b : Nat) : State :=
  if (s.bough b).withdrawn then s
  else
    let s := if (s.bough b).ref = .ready then s else (s.count (Ctr.refColdWaits b)).warmBough b
    s.requestRun b

def calibrateEffect (f : Sys2Proof.Fetch) (j : Job) (s : State) : State :=
  (s.each (namedBoughs f) calibrateBough).complete j .ok

def execCalibrate (f : Sys2Proof.Fetch) (s : State) : Result := s.descriptor "CALIBRATE" (Instr.wf (.calibrate f)) f (calibrateEffect f)

/-- HK_SAMPLE (R119): an urgent request is converted at once, or dropped while a conversion runs. -/
def hkSampleEffect (f : Sys2Proof.Fetch) (j : Job) (s : State) : State :=
  let c := Fetch.at f 8 2
  if 164 ≤ c then s.complete j .badUnit
  else if s.hk.busy.isSome then (s.count Ctr.hkDrop).complete j .hkBusy
  else (s.start j).modHk fun h => { h with busy := some { channel := c, start := s.now, job := some j, urgent := true } }

def execHkSample (f : Sys2Proof.Fetch) (s : State) : Result := s.descriptor "HK_SAMPLE" (Instr.wf (.hkSample f)) f (hkSampleEffect f)

/-! ### Memory (14) -/

namespace State

/-- The unit of a kind that holds an address (R303). -/
def retireUnit (s : State) (kind a : Nat) : Nat := if kind = 1 then a / 2048 else a / stackBytes * 1024 + s.bankOf (a / 64 * 64)

/-- The stack of a unit. -/
def unitStack (kind u : Nat) : Nat := if kind = 1 then u * 2048 / stackBytes else u / 1024

/-- Units of a kind retired on a stack, those being copied included. -/
def retiredOn (s : State) (kind stack : Nat) : Nat :=
  (s.mem.retired.filter fun x => x.1 == kind && unitStack kind x.2 == stack).length +
  (s.mem.retireJobs.filter fun m => m.a == kind && unitStack kind (s.retireUnit kind m.b) == stack).length

/-- Spares of a kind that a stack's reserve holds (R303). -/
def reserveOf (kind : Nat) : Nat := if kind = 1 then 65536 else 16

/-- A retirement that the reserve cannot cover, or of a unit that is retired. -/
def retireBad (s : State) (kind a : Nat) : Bool :=
  (kind != 1 && kind != 2) || decide (8 * stackBytes ≤ a) ||
  s.mem.retired.contains (kind, s.retireUnit kind a) ||
  s.mem.retireJobs.any (fun m => m.a == kind && s.retireUnit kind m.b == s.retireUnit kind a) ||
  decide (reserveOf kind ≤ s.retiredOn kind (a / stackBytes))

/-- The range of a FILL is not aligned, leaves its stack, or meets something in use (R301); everything below 10.5 GiB is the
weight region, the save region or control state (R410). -/
def fillBad (s : State) (a n : Nat) : Bool :=
  decide (a % 64 ≠ 0) || decide (n % 64 ≠ 0) || decide (8 * stackBytes ≤ a) || decide (stackBytes < a % stackBytes + n) ||
  decide (a % stackBytes < lowBytes) || s.kvOverlaps a n

/-- The seeds of a REHASH are drawn (R306): one for each stack named, and the spread seed when all eight are. -/
def drawSeeds (s : State) (set : Nat) : State :=
  let s := s.each ((List.range 8).filter fun k => set.testBit k) fun s k =>
    (s.modMem fun m => { m with stackSeeds := Tbl.set 0 k (Config.random s.free) m.stackSeeds }).draw
  if set % 256 = 255 then (s.modMem fun m => { m with spreadSeed := Config.random s.free }).draw else s

end State

/-- RETIRE starts the copy (R303). -/
def retireEffect (f : Sys2Proof.Fetch) (j : Job) (s : State) : State :=
  let kind := Fetch.at f 8 1
  let a := Fetch.at f 16 8
  if s.retireBad kind a then s.complete j .badUnit
  else (s.start j).modMem fun m => { m with retireJobs := m.retireJobs ++ [{ job := j, a := kind, b := a }] }

def execRetire (f : Sys2Proof.Fetch) (s : State) : Result := s.descriptor "RETIRE" (Instr.wf (.retire f)) f (retireEffect f)

/-- FILL starts writing zero blocks (R301). -/
def fillEffect (f : Sys2Proof.Fetch) (j : Job) (s : State) : State :=
  let a := Fetch.at f 8 8
  let n := Fetch.at f 16 8
  if s.fillBad a n then s.complete j .badUnit
  else (s.start j).modMem fun m => { m with fillJobs := m.fillJobs ++ [{ job := j, a := a, b := n }] }

def execFill (f : Sys2Proof.Fetch) (s : State) : Result := s.descriptor "FILL" (Instr.wf (.fill f)) f (fillEffect f)

/-- REHASH starts, or waits until the one before it has completed (R306). -/
def rehashEffect (f : Sys2Proof.Fetch) (j : Job) (s : State) : State :=
  let region := Fetch.bits f 64 2
  let set := Fetch.at f 9 1
  if region = 0 then s.complete j .badUnit
  else
    let first := s.mem.rehash.isEmpty
    let s := (s.start j).modMem fun m => { m with rehash := m.rehash ++ [{ job := j, a := region, b := set }] }
    if first then s.drawSeeds set else s

def execRehash (f : Sys2Proof.Fetch) (s : State) : Result := s.descriptor "REHASH" (Instr.wf (.rehash f)) f (rehashEffect f)

/-! ### ARRAY_TEST (R324) -/

/-- One entry of Table 15-5: code, clipped, failed, expected code, value in 1/256 LSB. -/
def testEntry (code : Int) (failed : Bool) (expect value : Int) : Bytes :=
  Bits.bytesOf 1 (Bits.ofSigned code 8) ++
  Bits.bytesOf 1 ((if code = -128 ∨ code = 127 then 1 else 0) + (if failed then 2 else 0)) ++
  Bits.bytesOf 1 (Bits.ofSigned expect 8) ++ [0] ++ Bits.bytesOf 4 (Bits.ofSigned value 32)

/-- The header of Table 15-5. -/
def testHeader (s : State) (test half t d : Nat) (fail : Bool) (failing : Nat) (worst : Nat) : Bytes :=
  Bits.bytesOf 1 test ++ Bits.bytesOf 1 (half + (if fail then 2 else 0)) ++ Bits.bytesOf 2 t ++ Bits.bytesOf 1 d ++
  Bits.bytesOf 3 0 ++ Bits.bytesOf 8 s.now ++ Bits.bytesOf 2 (Bits.ofSigned (s.bough (t / 64)).temp 16) ++ Bits.bytesOf 2 failing ++
  Bits.bytesOf 4 worst ++ Bits.bytesOf 40 0

/-- 2^-16 LSB to 1/256 LSB. -/
def to256 (v : Int) : Int := Bits.roundHalfEven v 256

/-- Results of a sweep: entry `k` is reference column `k` as one of the first eight converters reads it. -/
def sweepResult (s : State) (t d : Nat) (codes : List Int) : Bytes :=
  let r := (s.deck t d).sweeps
  let res := s.sweepResiduals t d codes
  let bad := (res.filter fun v => decide (32768 < v.natAbs)).length
  let entry (k : Nat) : Bytes :=
    let c := ((List.range 8).find? fun c => sweepRef r c == k).getD 0
    let v := res.getD c 0
    testEntry (codes.getD c 0) (decide (32768 < v.natAbs)) (refNominal k) (to256 (v + refNominal k * 65536))
  testHeader s 1 (r % 2) t d (s.sweepFails t d codes) bad (to256 (largest res)).natAbs ++
  (List.range 8).flatMap entry ++ List.replicate 4032 0

/-- Results of a clapper phase. -/
def clapperResult (s : State) (t d : Nat) (codes : List Int) : Bytes :=
  let h := (s.deck t d).claps
  let devs := s.clapperDeviations t d h codes
  let fails := s.clapperFails t d h codes
  let want (c : Nat) : Int := match s.deckSlot t d with
    | some x => ((State.clapOf x (s.deck t d).takeId).map fun k => State.clapExpect x k h c).getD 0
    | none => 0
  testHeader s 2 h t d (!fails.isEmpty) fails.length (to256 (largest (devs.map fun y => y.2))).natAbs ++
  (List.range 512).flatMap fun c =>
    let v := s.corrected t d c (codes.getD c 0) (Tbl.get 0x8000 c (s.deck t d).colGain)
    testEntry (codes.getD c 0) (fails.any fun y => y.1 == c) (want c) (to256 v)

/-- The exact value of a column under the whole clapper vector, 1/256 LSB. -/
def bypassExact (s : State) (t d c : Nat) : Int :=
  match s.deckSlot t d with
  | some x =>
    let k := s.deck t d
    Bits.roundHalfEven (State.clapperSum x k.format k.takeId 0 0 c + State.clapperSum x k.format k.takeId 0 1 c) 2
  | none => 0

/-- Columns that a phase's codes mark clipped (R32). -/
def clipped (codes : List Int) : List Nat :=
  ((codes.take 512).zipIdx.filter fun x => decide (x.1 = -128 ∨ x.1 = 127)).map fun x => x.2

/-- Results of a bypassed test phase: clipped columns are recomputed (R33). -/
def bypassResult (s : State) (t d : Nat) (codes : List Int) : Bytes :=
  let value (c : Nat) : Int :=
    if (clipped codes).contains c then bypassExact s t d c
    else to256 (s.corrected t d c (codes.getD c 0) (Tbl.get 0x8000 c (s.deck t d).colGain))
  let worst := largest ((List.range (min 512 codes.length)).map value)
  testHeader s 3 0 t d false 0 worst.natAbs ++
  (List.range 512).flatMap fun c => testEntry (codes.getD c 0) false 0 (value c)

/-- A bypassed test phase has ended: clipped columns are counted and reported, none is suspect (R33). -/
def bypassDone (s : State) (t d : Nat) (codes : List Int) : State :=
  let n := (clipped codes).length
  if n = 0 then s
  else (s.count (Ctr.clipCols t) n).event
    { code := 0x0101, unit := unitDeck t d, matrix := (s.deck t d).matrixId, own := own [(40, 2, n)] }

/-- The BAD_UNIT cases of R324. -/
def arrayTestBad (f : Sys2Proof.Fetch) (s : State) : Bool :=
  let t := Fetch.at f 8 2
  let d := Fetch.bits f 80 4
  decide (8192 ≤ t) || decide (8 ≤ d) || !([1, 2, 3].contains (Fetch.at f 11 1)) || s.tileGone t ||
  [DeckState.empty, .programming, .worn, .retired].contains (s.deck t d).state || !s.hasClapper t d

/-- The test waits for a gap of its tile, its reference warming meanwhile. -/
def arrayTestWaits (f : Sys2Proof.Fetch) (s : State) : Bool := !arrayTestBad f s && !f.bufFault && !s.gap (Fetch.at f 8 2)

/-- A waiting ARRAY_TEST starts the warming of a cold reference; its wait is counted once (R121). -/
def State.testWaits (s : State) (r : RingId) (b : Nat) : State :=
  let x := s.bough b
  if decide (x.ref = .ready) || x.testWaits.contains r then s
  else ((s.count (Ctr.refColdWaits b)).warmBough b).modBough b fun x => { x with testWaits := x.testWaits ++ [r] }

/-- ARRAY_TEST as a gap activity. -/
def arrayTestEffect (f : Sys2Proof.Fetch) (codes : List Int) (j : Job) (s : State) : State :=
  let t := Fetch.at f 8 2
  let d := Fetch.bits f 80 4
  let a := Fetch.at f 16 8
  if arrayTestBad f s then s.complete j .badUnit
  else if f.bufFault then s.complete j .hostFault
  else
    let s := s.gapPhase t
    let s := match Fetch.at f 11 1 with
      | 1 => (s.hostWrite a (sweepResult s t d codes)).sweepDone t d codes
      | 2 => (s.hostWrite a (clapperResult s t d codes)).clapperDone t d codes 7
      | _ => bypassDone (s.hostWrite a (bypassResult s t d codes)) t d codes
    (s.complete j .ok).tileNext t

def execArrayTest (f : Sys2Proof.Fetch) (codes : List Int) (s : State) : Result :=
  if Instr.wf (.arrayTest f codes) && s.hasDescriptor f.ring && (s.running || decide (s.boot.phase = .coldStart)) &&
      !s.fetchHeld f && (s.descStatus f).isNone && arrayTestWaits f s then .next (s.testWaits f.ring (Fetch.at f 8 2 / 64))
  else s.descriptor "ARRAY_TEST" (Instr.wf (.arrayTest f codes)) f (arrayTestEffect f codes)

/-! ### RESET (16) -/

/-- RESET of scope 1; scopes 0, 6 and 7 are no scopes (Table 11-7). -/
def resetColdEffect (f : Sys2Proof.Fetch) (j : Job) (s : State) : State :=
  if Fetch.bits f 64 3 = 1 then (s.start j).resetArrives true 3 else s.complete j .badUnit

def execResetCold (f : Sys2Proof.Fetch) (s : State) : Result := s.descriptor "RESET_COLD" (Instr.wf (.resetCold f)) f (resetColdEffect f)

/-- RESET of scope 2 (R343): every call is drained before the reset. A warm source during a cold start restarts it (R329). -/
def resetWarmEffect (j : Job) (s : State) : State :=
  if s.boot.phase = .coldStart then (s.start j).resetArrives true 4
  else
    let s := (s.start j).modBoot fun b => { b with warmJob := b.warmJob.or (some j) }
    if s.drains.any fun d => d.why == .warmReset then s else s.startDrain .all .warmReset

def execResetWarm (f : Sys2Proof.Fetch) (s : State) : Result :=
  s.descriptor "RESET_WARM" (Instr.wf (.resetWarm f)) f resetWarmEffect

/-- RESET of scope 3 (R262): a second one while the first runs is merged (Table 12-4). -/
def resetPartitionEffect (f : Sys2Proof.Fetch) (j : Job) (s : State) : State :=
  let p := Fetch.bits f 72 6
  if 32 ≤ p then s.complete j .badUnit
  else
    let merge := (s.part p).resetting
    let s := (s.start j).modPart p fun x => { x with resetting := true, resetJobs := x.resetJobs ++ [j] }
    if merge then s else s.startDrain (.partition p) (.partitionReset p)

def execResetPartition (f : Sys2Proof.Fetch) (s : State) : Result :=
  s.descriptor "RESET_PARTITION" (Instr.wf (.resetPartition f)) f (resetPartitionEffect f)

/-- RESET of scope 4 (R351); during a start it is answered when the start ends (R329). -/
def resetBoughEffect (f : Sys2Proof.Fetch) (j : Job) (s : State) : State :=
  let b := Fetch.bits f 80 7
  if s.starting then (s.start j).modBoot fun x => { x with lostJobs := x.lostJobs ++ [j] }
  else
    let merge := !(s.bough b).resetJobs.isEmpty
    let s := (s.start j).modBough b fun x => { x with resetJobs := x.resetJobs ++ [j] }
    if merge then s else (s.modBough b fun x => { x with draining := true }).startDrain (.bough b) (.boughReset b)

def execResetBough (f : Sys2Proof.Fetch) (s : State) : Result :=
  s.descriptor "RESET_BOUGH" (Instr.wf (.resetBough f)) f (resetBoughEffect f)

/-- RESET of scope 5 (R275); during a start it is answered when the start ends (R329). -/
def resetPortEffect (f : Sys2Proof.Fetch) (j : Job) (s : State) : State :=
  let n := Fetch.bits f 72 6
  if 4 ≤ n then s.complete j .badUnit
  else if s.starting then (s.start j).modBoot fun x => { x with lostJobs := x.lostJobs ++ [j] }
  else
    let p := portOf n
    let s := if p = .t then s.sendHold (2 ^ 24) false false else s
    ((s.start j).modLink p fun l => { l with resetJobs := l.resetJobs ++ [j] }).trainPort p

def execResetPort (f : Sys2Proof.Fetch) (s : State) : Result :=
  s.descriptor "RESET_PORT" (Instr.wf (.resetPort f)) f (resetPortEffect f)

/-! ### POWER_STATE (R354, R355) -/

/-- POWER_STATE D0; state 1 names no state (Table 11-7). -/
def powerD0Effect (f : Sys2Proof.Fetch) (j : Job) (s : State) : State :=
  if Fetch.bits f 64 2 = 1 then s.complete j .badUnit
  else if s.power.dstate = .d2 then s.startWake (some j)
  else s.complete j .ok

def execPowerStateD0 (f : Sys2Proof.Fetch) (s : State) : Result :=
  s.descriptor "POWER_STATE_D0" (Instr.wf (.powerStateD0 f)) f (powerD0Effect f)

/-- POWER_STATE D2: in D2 it completes at once. -/
def powerD2Effect (j : Job) (s : State) : State :=
  if s.power.dstate = .d2 then s.complete j .ok
  else if s.notIdle then s.complete j .notIdle
  else s.startEntry .d2 j

def execPowerStateD2 (f : Sys2Proof.Fetch) (s : State) : Result :=
  s.descriptor "POWER_STATE_D2" (Instr.wf (.powerStateD2 f)) f powerD2Effect

def powerD3Effect (j : Job) (s : State) : State :=
  if s.notIdle then s.complete j .notIdle else s.startEntry .d3 j

def execPowerStateD3 (f : Sys2Proof.Fetch) (s : State) : Result :=
  s.descriptor "POWER_STATE_D3" (Instr.wf (.powerStateD3 f)) f powerD3Effect

/-! ### Firmware (18) -/

/-- Another FW_STAGE or FW_CUTOVER is in progress (R381). -/
def fwBusy (s : State) : Bool := s.sec.staging.isSome || s.sec.cutover.isSome

/-- FW_STAGE reads the image; its check queues (R377, R381). The slot holds no valid image from here on. -/
def fwStageEffect (f : Sys2Proof.Fetch) (j : Job) (s : State) : State :=
  let slot := Fetch.bits f 192 1
  if fwBusy s then s.complete j .fwBusy
  else if slot = s.sec.runSlot then s.complete j .fwSlotActive
  else if f.bufFault then s.complete j .hostFault
  else (s.start j).modSec fun x => { x with
    staging := some (slot, j), slots := Tbl.set {} slot {} x.slots,
    queue := x.queue ++ [.firmware (Bits.slice f.buf 0 (Fetch.at f 16 8)) slot j] }

def execFwStage (f : Sys2Proof.Fetch) (s : State) : Result := s.descriptor "FW_STAGE" (Instr.wf (.fwStage f)) f (fwStageEffect f)

/-- What keeps FW_CUTOVER from starting (R382): FW_STAGE, FW_CUTOVER, POWER_STATE or RESET of scope 1 or 2 in progress. -/
def cutoverBusy (s : State) : Bool :=
  fwBusy s || s.power.entry.isSome || s.power.wake.isSome || s.boot.heldReset.isSome || s.boot.warmJob.isSome

/-- FW_CUTOVER starts: the staged slot is re-hashed and the watchdog pauses (R349, R382). -/
def fwCutoverEffect (f : Sys2Proof.Fetch) (j : Job) (s : State) : State :=
  let slot := Fetch.bits f 64 1
  let x := Tbl.get ({} : FwSlot) slot s.sec.slots
  if cutoverBusy s then s.complete j .fwBusy
  else if slot = s.sec.runSlot then s.complete j .fwSlotActive
  else if !x.valid then s.complete j .fwNotStaged
  else if Shake.digest32 x.bytes ≠ x.digest then s.complete j .sigBad
  else ((s.start j).modSec fun y => { y with cutover := some { slot := slot, job := j, switched := false, switchTick := 0 } }).modBoot
    fun b => { b with dogPaused := true }

def execFwCutover (f : Sys2Proof.Fetch) (s : State) : Result :=
  s.descriptor "FW_CUTOVER" (Instr.wf (.fwCutover f)) f (fwCutoverEffect f)

/-! ### ATTEST (R385, R386) -/

/-- Entries of a manifest for a position, in sequence order, after its header. -/
def manifestPart (m : Bytes) (pos : Nat) : Bytes :=
  Bits.slice m 0 64 ++ ((List.range (manifestCount m)).filter fun k => (manifestEntry m k).1 == pos).flatMap fun k =>
    Bits.slice m (64 + 40 * k) 40

/-- The manifests that a live generation rests on: its own, then those of the bases it inherits from, newest first. -/
def manifestChain (s : State) (g : Gen) : List Bytes :=
  g.manifest :: g.bases ++ match s.gen? g.baseId with
    | some b => if g.baseId = 0 then [] else b.manifest :: b.bases
    | none => []

/-- weight_digest of one position. -/
def weightDigest (s : State) (g : Gen) (pos : Nat) : Bytes :=
  Shake.digest32 ((manifestChain s g).flatMap fun m => manifestPart m pos)

/-- The device-page registers with RW-L fields, by offset and bytes, owner keys apart. -/
def sealedRegs : List (Nat × Nat) :=
  [(0x0020, 4), (0x2000, 20), (0x2020, 20), (0x2040, 4), (0x2048, 4), (0x204C, 4), (0x2050, 4)]

/-- The live placement file as it was loaded. -/
def placementRaw (s : State) : Bytes := (s.liveGen.bind s.placementOf).elim [] fun p => p.raw

/-- Attention records of the live generation. -/
def attnRaw (s : State) : Bytes :=
  match s.liveGen with
  | none => []
  | some g =>
    let inherited := match s.gen? g.baseId with
      | some b => if g.baseId = 0 then [] else b.attn.filter fun a => !(g.attn.any fun x => x.1.layer == a.1.layer)
      | none => []
    (g.attn ++ inherited).flatMap fun a => a.2

/-- config_digest (R386). -/
def configDigest (s : State) : Bytes :=
  if s.regs.sealed then
    Shake.digest32 ((sealedRegs.flatMap fun x => s.regBytes x.1 x.2) ++ s.regBytes 0x2100 0x90 ++ placementRaw s ++ attnRaw s)
  else Bits.bytesOf 32 0

/-- The registers of a partition page with RW-L fields. -/
def partRegs (s : State) (p : Nat) : Bytes :=
  let o := 0x10000 + 0x1000 * p
  ((List.range 6).flatMap fun k => s.regBytes (o + 0x20 * k) 20) ++ s.regBytes (o + 0x100) 12 ++ s.regBytes (o + 0x110) 32

/-- partition_digest (R386). -/
def partitionDigest (s : State) : Bytes :=
  if s.regs.sealed then Shake.digest32 ((List.range 32).flatMap (partRegs s)) else Bits.bytesOf 32 0

/-- The report of Table 18-4. -/
def attestReport (s : State) (nonce : Bytes) : Bytes :=
  let len := match s.liveGen with
    | some g => g.chainLength
    | none => 0
  let staged := (s.weights.gens.find? fun g => !g.live).elim 0 fun g => g.imageId
  let body :=
    Bits.bytesOf 1 1 ++ Bits.bytesOf 1 s.regs.chainPos.toNat ++ Bits.bytesOf 1 len ++
    Bits.bytesOf 1 ((if s.regs.sealed then 1 else 0) + (if s.regs.paired then 2 else 0)) ++ Bits.bytesOf 4 (4608 + 32 * len) ++
    Bits.bytesOf 8 s.now ++ Bits.bytesOf 8 Config.serial.toNat ++
    Bits.bytesOf 4 (s.liveGen.elim 0 fun g => g.imageId) ++ Bits.bytesOf 4 staged ++ nonce ++ Bits.slice s.sec.runDigest 0 32 ++
    Bits.bytesOf 4 s.sec.runSvn ++ Bits.bytesOf 1 s.sec.runSlot ++ Bits.bytesOf 27 0 ++ configDigest s ++ partitionDigest s ++
    (match s.liveGen with
     | some g => (List.range len).flatMap (weightDigest s g)
     | none => []) ++ Bits.slice Config.certificate 0 3136
  body ++ Bits.slice (Config.falconSign (Shake.shake256 body 64)) 0 1280

def attestEffect (f : Sys2Proof.Fetch) (j : Job) (s : State) : State :=
  let r := attestReport s (Bits.slice (Fetch.bytes f) 8 32)
  if Fetch.at f 48 4 < r.length then s.complete j .badLength
  else if f.bufFault then s.complete j .hostFault
  else (s.hostWrite (Fetch.at f 40 8) r).completeWith j .ok r.length 0 none

def execAttest (f : Sys2Proof.Fetch) (s : State) : Result := s.descriptor "ATTEST" (Instr.wf (.attest f)) f (attestEffect f)

end Sys2Proof.Machine
end

