-- ==== Sys2Proof/Machine/PinsResets.lean ====
section
/-! DEFINITION. Pins and resets as commands (16, 17, 19), with the test port. -/

set_option Elab.async false

namespace Sys2Proof.Machine

/-- The contents of the sideband commands (Table 19-5). -/
inductive SidebandData where
  | serial (s : BitVec 64)
  | status (ready : BitVec 11) (step lastFail : BitVec 8) (dstate : DState) (ports : List PortState) (isolated : Bool)
  | starts (attempts : Nat) (codes : List Nat)
  | temperatures (bough hub : Int) (level : BitVec 3)
  | rails (millivolts : List Int)
  | partner (paired lost fenced : Bool) (lastBeat : Nat) (fenceIn fenceOut : Bool)
  | tick (t : BitVec 64)
deriving DecidableEq, Repr

namespace State

/-- The device is powered and not held by a reset: a reset source acts. -/
def awake (s : State) : Bool := s.running || s.starting

/-- A reset source of the device itself: nothing more happens while a reset already holds it (R329). -/
def source (s : State) (cold : Bool) (n : Nat) : State := if s.awake then s.resetArrives cold n else s

/-- PORST_N is sampled low (R330): a cold reset; the failed-start count is cleared (R348). -/
def porstLow (s : State) : State :=
  let s := (s.modPins fun p => { p with porst := true }).modBoot fun b => { b with attempts := 0 }
  if s.awake then s.resetArrives true 1 else s.coldReset 1

/-- JTAG instructions that take effect only while PORST_N is asserted (R401). -/
def jtagHeld : JtagOp → Bool
  | .extest | .extestPulse | .extestTrain => true
  | _ => false

/-- A cold start begins (R337): straps sampled (R335), seeds and the device key drawn (R304, R109), ports isolated where
FENCE_IN is asserted (R392). -/
def coldStart (s : State) (boot ckmode : BitVec 2) : State :=
  let s := s.modPins fun p => { p with porst := false, wrst := false, jtag := if jtagHeld p.jtag then .bypass else p.jtag }
  let s := s.modBoot fun b => { b with phase := .coldStart, done := 0, failedStep := none, copyB := false, go := false }
  let s := { s with hk := {} }
  let s := s.modRegs fun r => { r with boot := boot, ckmode := ckmode, refen := false }
  let s := (s.drawSeeds 255).modMem fun m => { m with slotSeed := m.spreadSeed }
  let s := (s.modFaults fun f => { f with deviceKey := Config.random s.free }).draw
  let s := if s.pins.fenceIn then { s with links := (List.range 4).map fun p => (p, { s.link (portOf p) with state := .isolated }) } else s
  s.showStep

/-- The warm start begins with step W1 (Table 16-5, R346). -/
def warmStart (s : State) : State :=
  let s := s.modPins fun p => { p with wrst := false }
  let s := s.modBoot fun b => { b with phase := .warmStart }
  let s := s.sendHold (2 ^ 28) true false
  (s.each [.h, .t, .u, .d] trainPort).stepEnds 1

/-- Every bough whose reset waits only for its last program pulse (R331, R351). -/
def boughsDue (s : State) : List Nat :=
  (List.range 128).filter fun b => (s.bough b).draining && !(s.bough b).resetJobs.isEmpty && !s.pulseRuns (some b) &&
    !(s.drains.any fun d => d.why == .boughReset b)

/-- The last program pulse in the scope of a held reset has ended (R331). -/
def resetTakesEffect (s : State) : State :=
  match s.boot.heldReset with
  | some (cold, n) =>
    let s := s.modBoot fun b => { b with heldReset := none }
    if cold then s.coldReset n else s.warmReset n
  | none => s.each s.boughsDue boughReset

def resetDue (s : State) : Bool :=
  match s.boot.heldReset with
  | some _ => !s.pulseRuns none
  | none => !s.boughsDue.isEmpty

/-- FENCE_IN has been asserted for 1 µs (R284). -/
def fenceIn (s : State) : State :=
  let s := s.modPins fun p => { p with fenceIn := true }
  if s.awake || decide (s.boot.phase = .heldWarm) then s.each [.h, .t, .u, .d] fun s p => s.modLink p fun l => { l with state := .isolated }
  else s

/-- FENCE_IN is released: an isolated device takes a warm reset with an empty call sheet (R284), which restarts a cold start
(R392). -/
def fenceOut (s : State) : State :=
  let was := s.isolated
  let s := s.modPins fun p => { p with fenceIn := false }
  if was then
    let s := s.each [.h, .t, .u, .d] fun s p => s.modLink p fun l => { l with state := .down }
    (s.modBoot fun b => { b with emptySheet := true }).source false 10
  else s

/-- REFCLK is absent (R394): the ports lose lock and retrain (R271). -/
def refclkLost (s : State) : State :=
  let s := { s with ticking := false }
  let s := s.modPins fun p => { p with refclk := false, alertClock := true }
  s.each [.h, .t, .u, .d] fun s p =>
    if (s.link p).state = .up ∨ (s.link p).state = .degraded then (s.trainPort p).count (Ctr.portRetrains (portNo p)) else s

/-- The tick counter has been started since the cold reset (step 2). -/
def tickStarted (s : State) : Bool :=
  s.running || decide (s.boot.phase = .warmStart) || decide (s.boot.phase = .heldWarm) ||
  (decide (s.boot.phase = .coldStart) && s.stepDone? 2)

def refclkBack (s : State) : State :=
  let s := s.modPins fun p => { p with refclk := true, alertClock := false }
  ({ s with ticking := s.tickStarted }).tilesNext fun _ => true

/-- The port logic loses its supply. -/
def portsDown (s : State) : State :=
  s.each [.h, .t, .u, .d] fun s p => if (s.link p).state = .isolated then s else s.portLost p

/-- One regulator's STATUS_WORD (R363). -/
def regStatus (s : State) (r : RegStatus) : State :=
  let s := if r.warning then (s.regAlert r.addr r.page r.word.toNat).setRegFloor (s.regs.level.toNat + 1) else s
  if r.fault then
    let s := s.modPower fun p => { p with railsOff := distinct (r.addr :: p.railsOff) }
    let s := (s.emit (.rail r.addr r.page 0)).regAlert r.addr r.page r.word.toNat
    let s := s.modPins fun p => { p with alertRail := true }
    if r.addr = 0x43 then s.portsDown else s.source false 6
  else s

/-- The state Off: nothing but what stands in cells, fuses and flash (Table 17-2). -/
def vaonLost (s : State) : State :=
  { State.reset with
    pins := { s.pins with fenceOut := false, thermtrip := false, alertSafe := false, alertHot := false, alertClock := false, alertRail := false }
    boot := { ({} : Boot) with phase := .off }
    tiles := Tbl.mapVals {} coldTile s.tiles
    sec := { ({} : Sec) with fusedSvn := s.sec.fusedSvn, revoked := s.sec.revoked, slotSeq := s.sec.slotSeq }
    free := s.free
    out := s.out
    pending := s.pending }

/-! ### The sideband (R399) -/

/-- The address of the sideband target: 0x5C plus the twin side once POSN is decoded; none in the state Off. -/
def sidebandAddress (s : State) : Option Nat :=
  if s.boot.phase = .off then none else some (if s.readyBit 0 && s.regs.side then 0x5D else 0x5C)

/-- The highest reading of some housekeeping channels, in 1/16 degrees. -/
def highest (s : State) (cs : List Nat) : Int := (cs.map fun c => (Tbl.get {} c s.hk.samples).value).foldl max (-32768)

/-- What a block read of the sideband returns (Table 19-5), captured at one instant; other command codes have no answer. The places of
the fields within the blocks are not given, and no housekeeping channel is an HBM sensor, so that temperature is left out (log 184). -/
def sideband (s : State) (code : Nat) : Option SidebandData :=
  if s.boot.phase = .off then none
  else match code with
    | 1 => some (.serial Config.serial)
    | 2 => some (.status s.regs.ready s.regs.step s.regs.lastFail s.power.dstate ([.h, .t, .u, .d].map fun p => (s.link p).state) s.isolated)
    | 3 => some (.starts s.boot.attempts s.boot.failCodes)
    | 4 => some (.temperatures (s.highest (List.range 128)) (s.highest ((List.range 12).map fun i => 128 + i)) s.regs.level)
    | 5 => some (.rails ((List.range 24).map fun i => (Tbl.get ({} : Sample) (140 + i) s.hk.samples).value))
    | 6 => some (.partner s.regs.paired s.partner.lost s.partner.fenced s.partner.lastBeat s.pins.fenceIn s.pins.fenceOut)
    | 7 => some (.tick s.tick)
    | _ => none

end State

def execPorstNAssert (s : State) : Result :=
  s.porstLow.when "PORST_N_ASSERT" (!s.pins.porst && decide (s.boot.phase ≠ .off))

def execColdStart (boot ckmode : BitVec 2) (s : State) : Result :=
  (s.coldStart boot ckmode).when "COLD_START" (decide (s.boot.phase = .heldCold) && !s.boot.tripped)

/-- WRST_N is sampled low (R330): ignored while PORST_N is asserted and in the safe state; in D3 it starts a warm start
(R368). -/
def execWrstNAssert (s : State) : Result :=
  (if s.pins.porst || decide (s.boot.phase = .safe) then s
   else (s.modPins fun p => { p with wrst := true }).source false 2).when "WRST_N_ASSERT"
    (!s.pins.wrst && decide (s.boot.phase ≠ .off))

def execWarmStart (s : State) : Result := s.warmStart.when "WARM_START" (decide (s.boot.phase = .heldWarm))

def execResetTakesEffect (s : State) : Result := s.resetTakesEffect.when "RESET_TAKES_EFFECT" s.resetDue

def execFenceInAssert (s : State) : Result :=
  s.fenceIn.when "FENCE_IN_ASSERT" (!s.pins.fenceIn && decide (s.boot.phase ≠ .off))

def execFenceInRelease (s : State) : Result :=
  s.fenceOut.when "FENCE_IN_RELEASE" (s.pins.fenceIn && decide (s.boot.phase ≠ .off))

def execRefclkLoss (s : State) : Result :=
  s.refclkLost.when "REFCLK_LOSS" (s.pins.refclk && decide (s.boot.phase ≠ .off))

def execRefclkReturn (s : State) : Result :=
  s.refclkBack.when "REFCLK_RETURN" (!s.pins.refclk && decide (s.boot.phase ≠ .off))

def execPmAlertN (words : List RegStatus) (s : State) : Result :=
  (s.each words State.regStatus).when "PM_ALERT_N" (decide (s.boot.phase ≠ .off))

def execVaonLoss (s : State) : Result := s.vaonLost.when "VAON_LOSS" (decide (s.boot.phase ≠ .off))

/-- Application of VAON (R389): the internal pull-down holds PORST_N asserted. -/
def execVaonApply (s : State) : Result :=
  ((s.modBoot fun b => { b with phase := .heldCold, source := 1 }).modPins fun p => { p with porst := true, fenceOut := false }).when
    "VAON_APPLY" (decide (s.boot.phase = .off))

/-- A JTAG instruction (R401); a code that R401 does not list acts as BYPASS, as IEEE 1149.1 requires. -/
def execJtagInstruction (op : JtagOp) (s : State) : Result :=
  (s.modPins fun p => { p with
    jtag := match op with
      | .other _ => .bypass
      | op => if State.jtagHeld op && !p.porst then .bypass else op }).when "JTAG_INSTRUCTION" (decide (s.boot.phase ≠ .off))

end Sys2Proof.Machine
end

