-- ==== Sys2Proof/Machine/Scheduling.lean ====
section
/-! DEFINITION. Batches and steps at position 0 (R187 to R190, R212, R260), their commit (R187, R196 to R198, R201, R222 to R225,
R239), the deadline scan, refills and preemption (09). -/

set_option Elab.async false

namespace Sys2Proof.Machine

namespace State

/-! ### The next step of a call (R187) -/

/-- The next step that position 0 may issue. -/
def nextStep (s : State) (c : Nat) : Option NextStep := s.nextStepOf (s.call c) (s.stepsOf c).isEmpty

/-- A call whose chunk is saved: its next step is the restore (R195). -/
def savedCall (e : Entry) : Bool := decide (e.savePtr ≠ 0)

/-- DRAINED calls become READY while no premium step waits for what their chunks need (R195). -/
def wakeDrained (s : State) : State :=
  if s.premiumRows then s
  else s.each (s.callsWhere fun e => decide (e.state = .drained) && !e.ended) fun s c => s.modCall c fun e => { e with state := .ready }

/-- The call is ready (R189): READY, with a chunk to restore (R195) or a next step, or a prefill whose chunks have left this position
(R187); the customer's level is positive. -/
def callReady (s : State) (c : Nat) : Bool :=
  let e := s.call c
  !e.ended && !(s.part e.partition).resetting && decide (0 < (refilled (s.customer e.customer) s.now).level) &&
  (match e.state with
   | .ready => savedCall e || ((s.nextStep c).isSome && !e.tokenDue)
   | .running => decide (0 < e.promptLen) && e.tune.isNone && (s.stepsOf c).all s.partDone && !(s.stepsOf c).isEmpty &&
       ((s.nextStep c).any fun n => decide (n.kind = .prefill))
   | _ => false)

def readyCalls (s : State) (premium : Bool) : List Nat :=
  ((s.calls.map fun x => x.1).filter fun c => (s.call c).premium == premium && s.callReady c)

/-- Premium calls by due, priority and admission (R190, R192); calls admitted in one tick go in order of admission. -/
def premiumOrder (s : State) : List Nat :=
  let key (c : Nat) : List Int :=
    [((s.call c).due : Int), -((s.call c).priority : Int), ((s.call c).admitTick : Int), ((s.call c).admitNo : Int), (c : Int)]
  sortBy (fun a b => keyLt (key a) (key b)) (s.readyCalls true)

/-- Bulk calls of a partition by priority and admission (R190). -/
def bulkOrder (s : State) (p : Nat) : List Nat :=
  let key (c : Nat) : List Int :=
    [-((s.call c).priority : Int), ((s.call c).admitTick : Int), ((s.call c).admitNo : Int), (c : Int)]
  sortBy (fun a b => keyLt (key a) (key b)) ((s.readyCalls false).filter fun c => (s.call c).partition == p)

/-! ### Staging (R212) -/

/-- Bytes of A and B of a generation on a layer's matrices. -/
def stageBytes (mats : List Mat) (g : Graft) (layer : Nat) : Nat :=
  ((stagedMats mats g layer).map fun m => 2 * g.rank * (m.inputs + m.outputs)).sum

/-- The grafts of a batch fit one half of the stage area on every layer. -/
def stageFits (s : State) (cs : List Nat) : Bool :=
  let gs := distinct (cs.filterMap s.stagedGraft)
  let mats := (s.liveGen.map s.matsOf).getD []
  (distinct (mats.map fun m => m.layer)).all fun l =>
    decide ((gs.map fun g => stageBytes mats g l).sum ≤ s.regs.graftStage.toNat * 2 ^ 20 / 2)

/-! ### Filling a batch (R190, R260) -/

/-- The calls taken for a batch so far, and the call before whose step the stage area has closed it. -/
structure Plan where
  calls : List Nat
  split : Option Nat

/-- A batch holds BATCH_MAX steps, as the batch found the register (R188, R189), or the stage area has closed it. -/
def Plan.full (s : State) (pl : Plan) : Bool :=
  pl.split.isSome || (decide (s.sched.batchMax ≠ 0) && decide (s.sched.batchMax ≤ pl.calls.length))

/-- Add a call's step, unless its graft does not fit: then the batch closes before it (R212). -/
def Plan.add (s : State) (pl : Plan) (c : Nat) : Plan :=
  if pl.calls.contains c then pl
  else if s.stageFits (pl.calls ++ [c]) then { pl with calls := pl.calls ++ [c] }
  else { pl with split := some c }

/-- Take calls in order while there is room. -/
def takeCalls (s : State) (pl : Plan) : List Nat → Plan
  | [] => pl
  | c :: cs => if pl.full s then pl else s.takeCalls (pl.add s c) cs

/-- Bulk calls of a partition: while its deficit lasts, or of the room left over (R260). -/
def takeBulk (s : State) (pl : Plan) (p : Nat) (leftover : Bool) : List Nat → State × Plan
  | [] => (s, pl)
  | c :: cs =>
    let d := (s.part p).deficit
    if pl.full s || (!leftover && decide (d ≤ 0)) then (s, pl)
    else if pl.calls.contains c then s.takeBulk pl p leftover cs
    else
      let pl' := pl.add s c
      if pl'.split.isSome then (s, pl')
      else (s.modPart p fun x => { x with deficit := if leftover then max (x.deficit - 1) (-1024) else x.deficit - 1 }).takeBulk pl' p leftover cs

/-- New deficits at the opening of a batch (R260). -/
def openDeficits (s : State) : State :=
  s.each (List.range 32) fun s p =>
    let w : Int := ((Tbl.get 1 p s.regs.partWeight).toNat : Nat)
    s.modPart p fun x => { x with deficit := if (s.bulkOrder p).isEmpty then 0 else min (x.deficit + w) (4 * w) }

/-- Partitions with a ready bulk call by deficit, then number (R260). -/
def deficitOrder (s : State) : List Nat :=
  sortBy (fun a b => keyLt [-(s.part a).deficit, (a : Int)] [-(s.part b).deficit, (b : Int)])
    ((List.range 32).filter fun p => !(s.bulkOrder p).isEmpty)

/-- The step that a full stage area left out heads the next batch (R212). -/
def headBatch (s : State) : State × Plan :=
  match s.splitHead with
  | none => (s, { calls := [], split := none })
  | some c =>
    let s := { s with splitHead := none }
    if s.callReady c then
      let p := (s.call c).partition
      ((if (s.call c).premium then s else s.modPart p fun x => { x with deficit := max (x.deficit - 1) (-1024) }), { calls := [c], split := none })
    else (s, { calls := [], split := none })

/-- Fill a batch: premium calls, then the two passes over bulk calls. -/
def fillBatch (s : State) (pl : Plan) : State × Plan :=
  let pl := s.takeCalls pl s.premiumOrder
  let order := s.deficitOrder
  let go (leftover : Bool) (x : State × Plan) : State × Plan :=
    order.foldl (fun x p => x.1.takeBulk x.2 p leftover (x.1.bulkOrder p)) x
  go true (go false (s, pl))

/-! ### Issuing steps -/

/-- Rows of the embedding matrix: the vocabulary of prompt tokens (R236). -/
def embeddingRows (s : State) (g : Gen) : Option Nat := ((s.matsOf g).find? fun m => m.kind == 2).map fun m => m.inputs

/-- A new prompt token at or above the vocabulary. -/
def badTokens (s : State) (g : Gen) (n : NextStep) : Bool :=
  decide (0 < n.prompt) && (s.embeddingRows g).any fun v => n.tokens.any fun t => decide (v ≤ t)

/-- The call's pinned generation is not resident here (R208). -/
def graftMissing (s : State) (c : Nat) : Bool :=
  let e := s.call c
  e.hasGraft && (s.graft? e.graftHandle e.graftGen).isNone

/-- A grafted step under another image than the graft's (Table 10-3). -/
def noteGraftImage (s : State) (c image : Nat) : State :=
  let e := s.call c
  if e.hasGraft && (s.graft? e.graftHandle e.graftGen).any fun g => g.imageId != 0 && g.imageId != image then
    s.count Ctr.graftImageMismatch
  else s

/-- A step begins on this position: its call runs. -/
def beginStep (s : State) (x : Step) : State :=
  let s := s.noteGraftImage x.call x.image
  ({ s with steps := s.steps ++ [{ x with
      startedAt := s.now, cont := (if x.premium then s.regs.contPremium else s.regs.contBulk).toNat }] }).modCall x.call fun e =>
    { e with state := .running }

/-- Issue a ready call's next step into the latest batch (R187). -/
def issueStep (s : State) (c : Nat) : State :=
  let e := s.call c
  match s.nextStep c, s.liveGen with
  | some n, some g =>
    if s.badTokens g n then s.endCall c .badToken none
    else if s.graftMissing c then s.endCall c .badGraft none
    else
      let mine := s.stepsOf c
      let s := s.beginStep {
        call := c, step := e.step + mine.length, kind := n.kind, tokens := n.tokens,
        first := e.kvLen + (mine.map fun x => x.tokens.length).sum, premium := e.premium, partition := e.partition,
        epoch := s.weights.epoch, image := g.imageId, samples := n.samples, batch := s.batchNo }
      if e.tune.isSome then s else s.modCall c fun e => { e with issuedPrompt := e.issuedPrompt + n.prompt }
  | _, _ => s

/-! ### Opening and closing a batch (R189) -/

/-- Every step in flight has left position 0's first layer. -/
def firstLayerFree (s : State) : Bool :=
  s.steps.all fun x =>
    let ms := (s.stepMats x).filter fun m => m.kind == 0
    let l := ms.foldl (fun a m => min a m.layer) ((ms.map fun m => m.layer).headD 0)
    x.discarded || (s.call x.call).tune.isSome || x.drafting.isSome ||
      ms.all fun m => m.layer != l || matDone x x.tokens.length m

/-- The fields of SCHED_CTRL that a batch takes (R188). -/
def latchSched (s : State) : State :=
  { s with sched := { batchMax := s.regs.batchMax.toNat, chunkLen := s.regs.chunkLen.toNat, batchWindow := s.regs.batchWindow.toNat,
                      preemptWait := s.regs.preemptWait.toNat } }

/-- The lowest layer of the live generation, which a batch enters first. -/
def firstLayer (s : State) : Nat :=
  let ls := ((s.liveGen.map s.matsOf).getD []).filter fun m => m.kind == 0
  ls.foldl (fun a m => min a m.layer) ((ls.map fun m => m.layer).headD 0)

/-- A batch closes: the steps of its calls enter the first layer together, the restore of a saved chunk among them (R189, R195), and
their grafts are staged (R212). A call that is no longer ready has left it. -/
def closeBatch (s : State) (pl : Plan) : State :=
  let s := { s with batch := none, batchNo := s.batchNo + 1 }
  let s := s.each pl.calls fun s c =>
    if !s.callReady c then s else if savedCall (s.call c) then s.restoreCall c else s.issueStep c
  let s := match pl.split with
    | some c => { s with splitHead := some c }.count Ctr.graftBatchSplits
    | none => s
  let s := if s.steps.any fun x => x.batch == s.batchNo && (s.stagedGraft x.call).isSome then
      match s.liveGen with
      | some g => s.stageFor g.imageId s.batchNo s.firstLayer
      | none => s
    else s
  (s.count Ctr.batches).settle

/-- Ready steps join a batch; full, or with no window, it closes (R189). -/
def collect (s : State) (firstTick epoch : Nat) (pl : Plan) : State :=
  let r := s.fillBatch pl
  if r.1.sched.batchWindow = 0 ∨ r.2.full r.1 = true then r.1.closeBatch r.2
  else { r.1 with batch := some { firstTick := firstTick, calls := r.2.calls, epoch := epoch } }

/-- A batch opens, or a ready step joins the open one. On a later position, which forms no batches, saved chunks return (DESIGN CHOICE,
log 176). -/
def batchOpen (s : State) : State :=
  let s := s.wakeDrained
  if !s.isFirst then
    (s.each (s.callsWhere fun e => decide (e.state = .ready) && savedCall e && !e.ended) restoreCall).settle
  else
    match s.batch with
    | some b => s.collect b.firstTick b.epoch { calls := b.calls, split := none }
    | none =>
      let r := s.latchSched.openDeficits.headBatch
      r.1.collect s.now s.weights.epoch r.2

/-- A ready call is not in the open batch yet. -/
def joins (s : State) (b : Batch) : Bool := (s.readyCalls true ++ s.readyCalls false).any fun c => !b.calls.contains c

/-- BATCH_OPEN has something to do: a step is ready and the first layer can take it, a step can join, or, on a later position, a saved
chunk can return. -/
def batchDue (s : State) : Bool :=
  let s := s.wakeDrained
  if s.isFirst then
    s.newWorkOpen && s.readyBit 8 && s.liveGen.isSome && s.firstLayerFree &&
    (match s.batch with
     | some b => s.joins b
     | none => !(s.readyCalls true).isEmpty || !(s.readyCalls false).isEmpty)
  else s.running && s.calls.any fun x => decide (x.2.state = .ready) && savedCall x.2 && !x.2.ended

/-- BATCH_WINDOW ticks have passed: ready steps join and the batch closes. -/
def windowExpires (s : State) (b : Batch) : State :=
  let s := s.wakeDrained
  let r := if s.faults.resigned then (s, ({ calls := b.calls, split := none } : Plan))
    else s.fillBatch { calls := b.calls, split := none }
  r.1.closeBatch r.2

/-! ### Commit (R187) -/

/-- The entry after a commit of a step with its sampled tokens. A verification or decode step leaves the last token to the next
step; a prefill chunk leaves none (R167, R184). -/
def committedEntry (s : State) (e : Entry) (x : Step) (toks : List Nat) : Entry :=
  let carried := decide (x.kind = .prefill) && e.carried.isSome && decide (0 < e.promptLen ∨ e.maxNew = 0) && decide (e.prefilled = 0)
  let pre := if x.kind = .prefill then x.tokens.length - (if carried then 1 else 0) else 0
  { e with
    prefilled := e.prefilled + pre, issuedPrompt := max e.issuedPrompt (e.prefilled + pre),
    generated := e.generated + toks.length, step := x.step + 1, stepsDone := e.stepsDone + 1,
    kvLen := e.kvLen + (if x.kind = .prefill then x.tokens.length else toks.length), carried := toks.getLast?,
    lastToken := toks.getLast?.getD e.lastToken, emitted := e.emitted || !toks.isEmpty,
    due := if e.premium then (if e.pace = 0 then 2 ^ 64 - 1 else s.now + e.pace) else e.due,
    seenUnbounded := e.seenUnbounded || x.unbounded, seenTier := e.seenTier || x.tier,
    mask := e.mask.filter (fun b => b.1 != x.step), drafts := [], draftQ := [], draftLive := 0,
    draftKv := Tbl.mapVals 0 (fun n => min n (e.kvLen + (if x.kind = .prefill then x.tokens.length else toks.length))) e.draftKv,
    lastRecords := [] }

/-- The budget is charged for a committed step (R201). -/
def chargeCommit (s : State) (e : Entry) (prompt generated : Nat) : State :=
  let s := s.refill e.customer
  let k := s.customer e.customer
  let now := k.level - ((prompt * k.promptWeight + 256 * generated : Nat) : Int)
  let s := s.modCustomer e.customer fun k => { k with level := now }
  if 0 < k.level ∧ now ≤ 0 ∧ k.parkEvent = true then
    s.notice e.partition e.customer 0x0701 (detail [(8, 6, Bits.ofSigned now 48)]) e.premium
  else s

/-- The customer's READY calls leave READY on an empty budget (Table 09-2). -/
def chargeAndPark (s : State) (e : Entry) (prompt generated : Nat) : State := (s.chargeCommit e prompt generated).parkReady e.customer

/-- A premium commit after its due tick (R197). -/
def paceMiss (s : State) (e : Entry) : State :=
  if e.premium && decide (e.due < s.now) then
    (s.count (Ctr.paceMisses e.partition)).notice e.partition e.tag 0x0702 (detail [(8, 8, s.now - e.due)]) true
  else s

/-- What position 0 keeps of a commit: budget and pace. -/
def commitBooks (s : State) (e : Entry) (x : Step) (n : Nat) : State :=
  (s.chargeAndPark e (if x.kind = .prefill then x.tokens.length else 0) n).paceMiss e

/-- Token records of the step in order, with their ring slots kept for a resume (R239, R345). -/
def tokenRecords (s : State) (c : Nat) (e : Entry) (x : Step) (o : Sampled) : State :=
  let r := RingId.tq e.partition
  let g := s.ring r
  let recs := o.tokens.zipIdx.map fun (y : Nat × Nat) => ({
    record := .token y.1 e.tag x.unbounded x.tier (decide (y.2 < o.accepted)) (!e.emitted && decide (y.2 = 0))
      (x.retake.any fun t => t.applied) e.adopted,
    premium := x.premium, quiet := false, frees := none } : Waiting)
  let s := s.modCall c fun e => { e with lastRecords := if g.enabled then recs.zipIdx.map fun (y : Waiting × Nat) =>
    { ring := r, pos := g.pos + BitVec.ofNat 32 (g.waiting.length + y.2), waiting := y.1 } else [] }
  s.each recs fun s w => s.writeRecord r w

/-- A verification step takes ACCEPT_MIN and REPROBE as they stand (R226). -/
def latchPolicy (s : State) (c : Nat) : State :=
  s.modCall c fun e => { e with draftPolicy := (s.regs.acceptMin.toNat, s.regs.reprobe.toNat) }

/-- The acceptance monitor (R225). -/
def monitorDraft (s : State) (c : Nat) (x : Step) (accepted : Nat) : State :=
  match x.kind with
  | .verify d =>
    let s := s.latchPolicy c
    let e := s.call c
    let s := (s.count (Ctr.draftProposed e.partition) d).count (Ctr.draftAccepted e.partition) accepted
    let pairs := ((d, accepted) :: e.pairs).take 64
    let sd := (pairs.map fun y => y.1).sum
    let sa := (pairs.map fun y => y.2).sum
    if pairs.length = 64 ∧ 100 * sa < e.draftPolicy.1 * sd then
      ((s.modCall c fun e => { e with draftOff := true, pairs := [], offSteps := 0 }).count (Ctr.draftOff e.partition)).notice
        e.partition e.tag 0x0704 (detail [(8, 4, x.step), (12, 2, sa), (14, 2, sd)]) e.premium
    else s.modCall c fun e => { e with pairs := pairs }
  | _ =>
    let e := s.call c
    if e.draftOff then
      (if e.draftPolicy.2 ≠ 0 ∧ e.offSteps + 1 = e.draftPolicy.2 then
        (s.modCall c fun e => { e with draftOff := false, offSteps := e.offSteps + 1 }).count (Ctr.draftProbes e.partition)
      else s.modCall c fun e => { e with offSteps := e.offSteps + 1 })
    else s

/-- The draft model's layers and how many of a call's tokens its pages cover: the draft prefill begins at the fewest (R225). -/
def draftFrom (s : State) (e : Entry) (image : Nat) : Nat :=
  let ls := (s.layersOf image).filter fun r => s.draftLayer image r.layer
  ls.foldl (fun n r => min n (Tbl.get 0 r.layer e.draftKv)) e.kvLen

/-- draft_live of the next step (R224); a call with a kind 3 matte, or a position without a draft model, runs no draft (R216). -/
def nextDraft (s : State) (e : Entry) (image : Nat) : Nat :=
  let model := (((s.gen? image).map s.matsOf).getD []).any fun m => m.kind == 3
  if !model || e.draftOff || (s.matteOfCall e).any (fun m => m.kind == 3) then 0
  else min e.draftDepth (e.maxNew - e.generated - 1)

/-- The deadline has passed (R196). -/
def overdue (s : State) (e : Entry) : Bool := decide (e.deadline ≠ 0) && decide (e.deadline ≤ s.now)

/-- The prompt has been committed: a call that generates nothing is complete (R185). -/
def prefillEnds (e : Entry) (x : Step) : Bool := decide (e.maxNew = 0) && decide (x.kind = .prefill) && decide (e.promptLen ≤ e.prefilled)

/-- The end conditions 2 to 5 of R198 at the last position, from the entry after the commit. -/
def endStatus (s : State) (e : Entry) (x : Step) (o : Sampled) : Option Status :=
  if o.ends = some .nonfinite ∨ (prefillEnds e x = true ∧ e.nonfinite = true) then some .nonfinite
  else if e.cancelled then some .cancelled
  else if s.isFirst && s.overdue e then some .deadline
  else if prefillEnds e x then some .ok
  else match o.ends with
  | some st => some st
  | none => if 0 < e.maxNew ∧ e.maxNew ≤ e.generated then some .ok else none

/-- The marks of a token return: the step's, bit 3 where the last position ends the call with the step, bit 4 where it ends it with
NONFINITE (the flit's layout is the model's, log 28; R198). -/
def returnMarks (s : State) (x : Step) (st : Option Status) : Nat :=
  s.marksOf { call := x.call, step := x.step, token := 0 } + (if st.isSome then 8 else 0) + (if st = some .nonfinite then 16 else 0)

/-- The level of a call's customer is at or below zero after its commit, at position 0, where budgets are kept (R202). -/
def emptied (s : State) (e : Entry) : Bool := s.isFirst && decide ((s.customer e.customer).level ≤ 0)

/-- What follows a committed step that ends no call: the draft passes, or the tokens upstream. A call whose budget the commit has emptied
enters PARKED now, or ends (R202); its draft passes still run. -/
def afterCommit (s : State) (x : Step) (o : Sampled) : State :=
  let c := x.call
  let e := s.call c
  if s.emptied e && e.failIfParked then (s.endCall c .budgetPark none).settle
  else
    let s := if s.emptied e then (s.count (Ctr.parks e.partition)).modCall c fun e => { e with state := .parked } else s
    let d := if o.tokens.isEmpty then 0 else s.nextDraft (s.call c) x.image
    if 0 < d then
      (s.modCall c fun e => { e with draftLive := d }).modStep c x.step fun y => { y with
        drafting := some o.tokens, draftFrom := s.draftFrom (s.call c) x.image }
    else
      ((if s.isFirst then s else s.send .u (relayChannel x.premium) (.tokenReturn e.partition e.tag x.step o.tokens [] (s.returnMarks x none))).stepGone
        c x.step).restState c

/-- The last position commits a step (R187): records, books, the end conditions, the draft passes or the tokens upstream. -/
def commitLast (s : State) (x : Step) (o : Sampled) : State :=
  let c := x.call
  let e := s.call c
  if (s.part e.partition).resetting then (s.endCall c .partitionReset none).settle
  else
    let e' := { s.committedEntry e x o.tokens with matteState := o.matteState }
    let s := ((s.putCall c e').tokenRecords c e x o).count Ctr.samples o.tokens.length
    let s := if (s.matteOfCall e).any fun m => m.kind == 2 then s.journal e' [.matte e.partition e.tag o.matteState] else s
    let s := s.monitorDraft c x o.accepted
    let s := if s.isFirst then s.commitBooks e x o.tokens.length else s
    match s.endStatus e' x o with
    | some st =>
      ((if s.isFirst then s else s.send .u (relayChannel x.premium)
        (.tokenReturn e.partition e.tag x.step o.tokens [] (s.returnMarks x (some st)))).endCall c st none).settle
    | none => s.afterCommit x o

/-! ### Tuning (R213) -/

/-- The pinned generation of a tuning call, with the call's own values of A and B. -/
def tuneGraft (s : State) (e : Entry) : Option Graft := (s.graft? e.graftHandle e.graftGen).map e.ownGraft

/-- Matrices of this position that the graft in training names, with their body offsets. -/
def tunedMats (s : State) (x : Step) (g : Graft) : List (Mat × Nat × Nat) :=
  if g.rank = 0 then []
  else g.entries.filterMap fun y => ((s.stepMats x).find? fun m => m.id == y.1).map fun m => (m, y.2.1, y.2.2)

/-- What one token adds to the gradients of a matrix's A and B: none while its input vector or its column input vector is missing. -/
def tokenGrad (s : State) (x : Step) (g : Graft) (m : Mat) (t : Nat) : Option TokenGrad :=
  match s.actFor { call := x.call, step := x.step, token := t } m.id none, gradOf x 3 m.id t 0 with
  | some v, some y => some {
      input := (graftInput m.inputs v).getD (List.replicate m.inputs F32.nan), output := y.map fun z => F32.mul g.alpha z }
  | _, _ => none

/-- The forward pass of a tuning step has run: every matrix of the layers is done, every layer's attention has its outputs, and at the
last position every token's logits are in (R176, R213 stage 1). -/
def forwardDone (s : State) (x : Step) : Bool :=
  let n := x.tokens.length
  ((s.stepMats x).filter fun m => m.kind == 0).all (matDone x n) &&
  ((s.layersOf x.image).filter fun r => !s.draftLayer x.image r.layer).all (fun r =>
    (List.range n).all fun t => (List.range r.queryHeads).all fun h => x.attn.any fun o => o.layer == r.layer && o.token == t && o.head == h) &&
  (!s.isLast || (List.range n).all fun t => x.logits.any fun l => l.1 == t)

/-- The backward pass of a tuning step has run here: every token has its gradients on every grafted matrix, and on a later position the
gradient of what came over the relay has gone upstream (R213 stage 3). -/
def backwardDone (s : State) (x : Step) (g : Graft) : Bool :=
  let n := x.tokens.length
  ((s.tunedMats x g).all fun y => (List.range n).all fun t => (s.tokenGrad x g y.1 t).isSome) &&
  (s.isFirst || (s.relayFed x.image).all fun m => (List.range n).all fun t =>
    (s.wholeBack { call := x.call, step := x.step, token := t } m).isSome)

/-- A tuning step is complete on this position. -/
def tuneDone (s : State) (x : Step) : Bool :=
  s.forwardDone x && (s.tuneGraft (s.call x.call)).all (s.backwardDone x)

/-- The gradient of element `i` of the body: that of the entry whose A or B holds it. -/
def tuneGradient (s : State) (x : Step) (g : Graft) (i : Nat) : Option F32 :=
  (s.tunedMats x g).findSome? fun y =>
    bodyGradient g y.1 y.2.1 y.2.2 ((List.range x.tokens.length).filterMap fun t => s.tokenGrad x g y.1 t) i

/-- The update that a completed tuning step makes (R213). -/
def tuneUpdate (s : State) (x : Step) (t : Tune) : Tune :=
  let e := s.call x.call
  match s.graft? e.graftHandle e.graftGen with
  | none => t
  | some g => adamUpdate t g.body (s.tuneGradient x (e.ownGraft g))

/-- This position's section of a tuning result: the BF16 bodies of the graft it trained (R213). -/
def tuneBody (s : State) (c : Nat) (t : Tune) : Bytes :=
  let r := tuneReport s (s.call c).partition t.handle
  let n := sectionLen r.2.2.2.1
  if r.2.1 = 0 ∨ r.2.2.1 = 0 then Bits.slice [] 0 n
  else
    let e := s.call c
    Bits.slice (((s.graft? e.graftHandle e.graftGen).map fun g => tunedBytes t g.body).getD []) 0 n

/-- Position 0 writes the sections once every position's has come, and the call ends. -/
def tuneFinish (s : State) (c : Nat) : State :=
  match (s.call c).tune with
  | none => s
  | some t =>
    if t.stepsDone < t.steps ∨ t.sections.length + 1 < t.reports.length then s
    else
      let own' := (s.regs.chainPos.toNat, s.tuneBody c t)
      let secs := sortBy (fun a b => decide (a.1 < b.1)) (own' :: t.sections)
      let lens := sortBy (fun a b => decide (a.1 < b.1)) (t.reports.map fun r => (r.1, sectionLen r.2.2.2.1))
      let at' (p : Nat) : Nat := ((lens.filter fun x => decide (x.1 < p)).map fun x => x.2).sum
      (s.each secs fun s x => s.hostWrite (t.resultAddr + at' x.1)
        (Bits.slice x.2 0 (((lens.find? fun y => y.1 == x.1).map fun y => y.2).getD 0))).endCall c .ok none

/-- A tuning step ends on this position. -/
def commitTune (s : State) (x : Step) (t : Tune) : State :=
  let c := x.call
  let e := s.call c
  let e' := { e with
    step := x.step + 1, stepsDone := e.stepsDone + 1, seenUnbounded := e.seenUnbounded || x.unbounded,
    seenTier := e.seenTier || x.tier, tune := some { s.tuneUpdate x t with stepsDone := t.stepsDone + 1 } }
  if s.isFirst && (s.part e.partition).resetting then (s.endCall c .partitionReset none).settle
  else
    let s := (s.putCall c e').stepGone c x.step
    if s.isFirst then
      let s := (s.count (Ctr.tuneSteps e.partition)).chargeAndPark e x.tokens.length 0
      if e.cancelled then s.endCall c .cancelled none
      else if s.overdue e then s.endCall c .deadline none
      else if t.stepsDone + 1 < t.steps then s.restState c
      else s.tuneFinish c
    else if t.stepsDone + 1 < t.steps then s.restState c
    else s.send .u 2 (.callCtrl (.tuneSection e.partition e.tag s.regs.chainPos.toNat ((e'.tune.map (s.tuneBody c)).getD [])))

/-! ### STEP_COMMIT -/

/-- The call's oldest step in flight here. -/
def oldestStep (s : State) (c : Nat) : Option Step := (s.stepsOf c).head?

/-- Every earlier position has reported its partner's acknowledgement (R280, R316). -/
def jacksIn (s : State) (x : Step) : Bool := (List.range s.regs.chainPos.toNat).all fun p => x.jacks.contains p

/-- The commit rule of a premium step (R280, R316). -/
def mayCommit (s : State) (x : Step) : Bool := !x.premium || (partClear x && s.ackHeld x && s.jacksIn x)

/-- The token-out ring takes no record now (R246). -/
def tokenRingFull (s : State) (p : Nat) : Bool :=
  let g := s.ring (.tq p)
  g.enabled && (g.full || !g.waiting.isEmpty)

/-- The step stands at its commit. -/
def commitDue (s : State) (c : Nat) : Bool :=
  match s.oldestStep c with
  | none => false
  | some x =>
    !x.discarded && x.drafting.isNone && !s.workDrained c &&
    (((s.call c).tune.isSome && s.tuneDone x) || ((s.call c).tune.isNone && s.isLast && s.partDone x &&
      (s.needsMask (s.call c) x || s.mayCommit x || (s.mirrored (s.call c) && !x.marked && partClear x))))

/-- Commit, or wait for a STEP_MASK (R216), for the partner (R280) or for the token-out ring (R246), each wait counted once. -/
def stepCommit (s : State) (c : Nat) : State :=
  match s.oldestStep c with
  | none => s
  | some x =>
    match (s.call c).tune with
    | some t => s.commitTune x t
    | none =>
      match s.sampleStep x with
      | none =>
        let s := if x.maskWaited then s else s.count Ctr.maskWaits
        s.modStep c x.step fun x => { x with maskWaited := true, waitsMask := true }
      | some o =>
        if !s.mayCommit x then s.moveStep c x.step
        else if !o.tokens.isEmpty && s.tokenRingFull (s.call c).partition && !(s.part (s.call c).partition).resetting then
          let s := if x.ringWaited then s else s.count (Ctr.tokenRingWaits (s.call c).partition)
          s.modStep c x.step fun x => { x with ringWaited := true }
        else s.commitLast x o

/-! ### Deadlines, refills and preemption -/

/-- Calls that the deadline scan ends (R196). -/
def scanned (s : State) : List Nat :=
  s.callsWhere fun e => s.overdue e && liveEntry e && decide (e.state ≠ .running) && s.isFirst

/-- Calls whose only step waits for a STEP_MASK past their deadline, on a chain of one (R196). -/
def maskOverdue (s : State) : List Nat :=
  (s.callsWhere fun e => s.isFirst && s.overdue e && liveEntry e && decide (e.state = .running)).filter s.actsAtOnce

/-- On a longer chain the last position ends such a call, by position 0's counter (R196; the message is the model's choice, log 171). -/
def tellOverdue (s : State) : State :=
  if s.isFirst && !s.isLast then
    s.each (s.callsWhere fun e => s.overdue e && liveEntry e && e.hasMatte && decide (e.state = .running)) fun s c =>
      s.send .d 2 (.callCtrl (.overdue (s.call c).partition (s.call c).tag))
  else s

def deadlineScan (s : State) : State := (s.each (s.scanned ++ s.maskOverdue) fun s c => s.endCall c .deadline none).tellOverdue

/-- MiB that a chunk's state takes in the save region: its accumulator vectors and canopy rows (R86, R175). -/
def saveMiB (s : State) (c : Nat) : Nat :=
  let keys := distinct ((s.prods.filter fun p => p.key.work.call == c).map fun p => p.key)
  let rows := ((s.canopy.filter fun r => r.work.call == c).map fun r => r.acc.length).sum
  Bits.ceilDiv (keys.length * (32 + 512 * 8) + rows * 520) (2 ^ 20)

/-- The premium step that has waited PREEMPT_WAIT ticks for canopy lanes (R194), as the latest batch found the register (R188). The
manual sizes no activation buffer, so lanes are what a step waits for (log 124). -/
def heldStep (s : State) (c : Nat) : Option Step :=
  s.steps.find? fun x => x.call == c && x.premium && !s.partDone x && !x.spaceCounted &&
    x.waitsSince.any fun t => decide (t + s.sched.preemptWait ≤ s.now)

/-- A premium step of `call` waits for lanes that a bulk prefill chunk of `chunk` holds; a step once refused for want of save space waits
for the chunk to finish (R194). -/
def preemptDue (s : State) (c k : Nat) : Bool :=
  (s.heldStep c).isSome &&
  (s.steps.any fun x => x.call == k && !x.premium && decide (x.kind = .prefill) && (s.call k).tune.isNone && !s.partDone x && !x.discarded) &&
  (s.canopy.any fun y => y.work.call == k && decide (y.lane < 16)) &&
  !(s.drains.any fun d => decide (d.scope = .partition (s.call k).partition) || decide (d.scope = .all))

/-- Preempt the chunk, or count that its partition has no room for its state (R194, R256). -/
def preempt (s : State) (c k : Nat) : State :=
  let e := s.call k
  let p := s.part e.partition
  let n := s.saveMiB k
  if p.saveShare = 0 ∨ p.saveShare.toNat < p.saveUsed + n then
    match s.heldStep c with
    | some x => (s.count Ctr.preemptNoSpace).modStep x.call x.step fun x => { x with spaceCounted := true }
    | none => s
  else
    let st := ((s.stepsOf k).head?.map fun x => x.step).getD 0
    let s := (s.count (Ctr.preempts e.partition)).notice e.partition e.tag 0x0703 (detail [(8, 4, st)]) false
    s.startDrain (.partition e.partition) (.preempt k)

end State

/-! ### The rows -/

def execBatchOpen (s : State) : Result := s.batchOpen.when "BATCH_OPEN" s.batchDue

def execBatchWindowExpiry (s : State) : Result :=
  match s.batch with
  | none => .fault (.outOfPlace "BATCH_WINDOW_EXPIRY")
  | some b => (s.windowExpires b).when "BATCH_WINDOW_EXPIRY" (decide (b.firstTick + s.sched.batchWindow ≤ s.now))

def execStepCommit (call : Nat) (s : State) : Result := (s.stepCommit call).when "STEP_COMMIT" (s.commitDue call)

def execDeadlineScan (s : State) : Result := s.deadlineScan.when "DEADLINE_SCAN" (decide (s.now % 2 ^ 10 = 0) && (s.running || s.starting))

def execBudgetRefill (customer : Nat) (s : State) : Result :=
  (s.refill customer).when "BUDGET_REFILL"
    ((s.customer customer).valid && decide (0 < (s.customer customer).interval) && decide ((s.customer customer).nextRefill ≤ s.now))

def execPreempt (call chunk : Nat) (s : State) : Result := (s.preempt call chunk).when "PREEMPT" (s.preemptDue call chunk)

end Sys2Proof.Machine
end

