-- ==== Sys2Proof/Machine/Starts.lean ====
section
/-! DEFINITION. Cold and warm starts (16), the firmware they run (18), the management watchdog. -/

set_option Elab.async false

namespace Sys2Proof.Machine

/-! ### The option block (Table 06-1, R115) -/

/-- A copy of the option block whose digest matches. -/
def optionOk (b : Bytes) : Bool := b.length == 8192 && Shake.digest32 (b.take 8160) == b.drop 8160

/-- The good map bit of a tile. -/
def goodBit (b : Bytes) (t : Nat) : Bool := (b.getD (32 + t / 8) 0).getLsbD (t % 8)

/-! ### Firmware images (Table 18-2, R378) -/

/-- The header passes Table 18-2. -/
def fwHeaderOk (b : Bytes) : Bool :=
  let svn := Bits.le b 8 4
  Bits.le b 0 4 == 0x46574D4C && Bits.byteAt b 4 == 1 && decide (Bits.byteAt b 5 < 16) && Bits.zeroAt b 6 2 && decide (svn ≤ 64) &&
  decide (Bits.le b 12 4 ≤ svn) && decide (Bits.le b 16 8 = b.length) && decide (b.length ≤ 2 ^ 24) && Bits.zeroAt b 24 40

namespace State

/-- Why a firmware image is not valid (R377, R378): a SIG_REJECT reason. -/
def fwReason (s : State) (b : Bytes) : Option Nat :=
  if !fwHeaderOk b then some 1
  else match s.sigReason b true with
    | some r => some r
    | none => if Bits.le b 8 4 < s.sec.fusedSvn then some 6 else none

/-- The hub tables that an image carries: the charge table (R362) and the slate answers (15). -/
def installTables (s : State) (digest : Bytes) : State :=
  let s := s.modPower fun p => { p with
    charges := (List.range 128).foldl (fun t k => Tbl.set 0 k (Config.charge digest (k / 16) (k % 16)) t) p.charges }
  s.modSec fun x => { x with
    answers := (List.range 384).foldl (fun t k => Tbl.set 0 k (Config.slateAnswer digest (k / 64) (k % 64)) t) x.answers }

/-- The management complex starts on an image in a slot: digest, slot, svn and fuse fields are held (R379, R380). -/
def runImage (s : State) (slot : Nat) (b : Bytes) : State :=
  let dg := Shake.digest32 b
  let s := s.modSec fun x => { x with
    runSlot := slot, runDigest := dg, runSvn := Bits.le b 8 4, runFloor := Bits.le b 12 4,
    runRevoke := BitVec.ofNat 4 (Bits.byteAt b 5),
    slots := Tbl.set {} slot { bytes := b, valid := true, digest := dg, svn := Bits.le b 8 4 } x.slots }
  (s.installTables dg).modBoot fun b => { b with dogServed := false, dogAt := s.now }

/-- Training of the ports begins (step 8 and W5); a port that boots the device has been trained before it. -/
def trainAll (s : State) : State :=
  s.each [.h, .t, .u, .d] fun s p =>
    if (s.link p).state = .up ∨ (s.link p).state = .degraded ∨ (s.link p).present = true then s else s.trainPort p

/-! ### Option load, clock, reference -/

/-- The live trims and the good map (R115, R411). -/
def applyTrims (s : State) (b : Bytes) : State :=
  let s := s.each ((List.range 8192).filter fun t => (s.tile t).mfgBad == goodBit b t) fun s t =>
    s.modTile t fun x => { x with mfgBad := !goodBit b t }
  { s with trims := b.take 8160 }

/-- The option loader has read and digested a copy (R115). -/
def optionLoad (s : State) (b : Bytes) : State :=
  if optionOk b then (s.applyTrims b).stepEnds 1
  else if s.boot.copyB then s.stepFails 1
  else s.modBoot fun x => { x with copyB := true }

/-- The reference PLL locks: the tick counter starts at 0 and step 3 sets REFEN (Table 16-3). -/
def clockLock (s : State) : State := (({ s with tick := 0, ticking := true }).stepEnds 2).writeRefen true

/-- The housekeeping reference is ready; in step 3 the converter then converts POSN (R117, R336). -/
def hkRefReady (s : State) : State :=
  let s := s.modHk fun h => { h with refReady := true }
  if s.boot.phase = .coldStart ∧ s.stepDone? 2 = true ∧ s.stepDone? 3 = false then
    s.modHk fun h => { h with busy := some { channel := 164, start := s.now, job := none, urgent := true } }
  else s

/-! ### Firmware of a cold start (R338, R379) -/

/-- The boot source's time limit in ticks: 2 s from flash, 2^34 otherwise. -/
def fetchLimit (s : State) : Nat := if s.regs.boot = 0 then 312500000 else 2 ^ 34

/-- The images that a boot source delivers: two from flash, one otherwise. -/
def fetchedOk (s : State) (images : List Bytes) : Bool :=
  match s.regs.boot.toNat with
  | 0 => images.length == 2
  | 1 => s.boot.go && images.length == 1 && images.all fun b => b.length == s.regs.bootLength.toNat
  | 2 => images.length == 1
  | _ => images.isEmpty

/-- Each image that fails before one passes raises SIG_REJECT (R377). -/
def fwCheck (s : State) : List Bytes → State
  | [] => s.stepFails 5
  | b :: rest =>
    match s.fwReason b with
    | some r => (s.sigReject 1 r 0).fwCheck rest
    | none => (((s.runImage 0 b).setReady 1).stepEnds 5).trainAll.linkStep

/-- The images read are checked (steps 4 and 5); none: the limit has passed, or BOOT is 3. -/
def fwFetch (s : State) (images : List Bytes) : State :=
  if images.isEmpty then s.stepFails 4 else ((s.modBoot fun b => { b with go := false }).stepEnds 4).fwCheck images

/-! ### Memories -/

/-- The arrays start once the slates and the HBM are done: applied drift factors take their targets and every bough is
calibrated (R131, Table 16-3). -/
def arraysStart (s : State) : State := s.coldCal.startCal

/-- Steps 7 and 9 have both ended. -/
def tryArrays (s : State) : State :=
  if s.boot.phase = .coldStart ∧ s.stepDone? 7 = true ∧ s.stepDone? 9 = true ∧ s.stepDone? 10 = false then s.arraysStart else s

/-- Slates of a start (step 7 and W4): the step ends when every unit has run one. -/
def slateStep (s : State) : State :=
  let n := if s.boot.phase = .warmStart then 4 else 7
  if s.starting && s.readyBit 1 && !s.stepDone? n && s.slatesDone then (s.stepEnds n).tryArrays else s

/-- The stacks are trained (step 9). -/
def hbmTrained (s : State) : State := ((s.setReady 4).stepEnds 9).tryArrays

/-- The fill passes 10.5 GiB on every stack, or completes (step 11, R339). -/
def hbmFilled (s : State) (complete : Bool) : State :=
  let s := (s.setReady 5)
  let s := s.each (List.range 32) fun s p => s.noteStall p
  if complete then (s.setReady 6).stepEnds 11 else s

/-- The stacks leave self-refresh with stored settings; the calibration save area is reloaded, or found uncorrectable, and W7 starts
(R131). -/
def hbmExit (s : State) (area : Bool) : State :=
  let s := (((s.setReady 4).setReady 5).setReady 6).stepEnds 6
  (if area then s.each (s.calSave.map fun a => a.1) loadCal else s.coldCal).startCal

/-! ### Failed starts (R348) -/

/-- The safe state: only AON and the sideband run. -/
def enterSafe (s : State) (n : Nat) : State :=
  ((s.coldReset n).modBoot fun b => { b with phase := .safe }).modPins fun p => { p with alertSafe := true }

/-- A failed step of a start: a retry cold start, or the safe state after the count has reached 3. -/
def startFail (s : State) (code : Nat) : State :=
  let n := s.boot.attempts
  let s := s.modBoot fun b => { b with failedStep := none, failCodes := (code :: b.failCodes).take 3, attempts := min 3 (n + 1) }
  let s := (s.modRegs fun r => { r with lastFail := BitVec.ofNat 8 code }).emit (.sideband code (min 3 (n + 1)))
  if n < 3 then s.resetArrives true 11 else s.enterSafe s.boot.source

/-- The image in HBM still has the digest held in AON (step W2). -/
def fwDigestOk (s : State) : Bool := decide (Shake.digest32 (Tbl.get ({} : FwSlot) s.sec.runSlot s.sec.slots).bytes = s.sec.runDigest)

/-! ### Journal resume (R248, R345, R347, Table 07-9) -/

/-- Entries whose descriptor resumes with its call. -/
def resumes (s : State) (j : Job) : Bool := s.calls.any fun x => x.2.job == some j && !x.2.ended

/-- Write a record of a last journaled commit again, to the same slot with the same phase. -/
def rewrite (s : State) (r : LastRecord) : State :=
  let g := s.ring r.ring
  s.emit (.record r.ring (r.pos.toNat % g.size) (g.phaseAt r.pos) r.waiting.record)

/-- The journal is emptied (source 10): entries go without records, descriptors are lost. -/
def emptyCallSheet (s : State) : State :=
  let s := s.each (s.callsWhere fun _ => true) fun s c => s.releaseEntry c
  s.each (s.rings.map fun r => ringOf r.1) fun s r => if r = .eq then s else s.modRing r fun g => { g with waiting := [], failed := none }

/-- A take that has been cut goes on: the runs of its targets that are not READY begin again (R26, Table 07-9). -/
def programRest (s : State) (t : Take) : State :=
  let rest := t.targets.filter fun x =>
    t.toReturn.contains x.1 && !t.toSlow.contains x.1 && s.targetState t x != .ready && !s.tileGone x.2.2.2.1
  (s.each rest fun s x => s.emptyDeck x.2.2.2.1 x.2.2.2.2).programTargets t rest

/-- A matrix on the slower tier whose placement file names decks is programmed again in place (Table 07-9). -/
def reprogram (s : State) : State :=
  let s := s.each s.weights.takes programRest
  match s.liveGen with
  | none => s
  | some g =>
    let mats := (s.weights.bindings.filter fun b => b.2.slow && !(s.weights.takes.any fun t => t.toReturn.contains b.1) &&
        (match s.placementOf g, s.mat? g.imageId b.1 with
      | some p, some m => p.inTiles m
      | _, _ => false)).map fun b => b.1
    if mats.isEmpty then s
    else
      let xs := (s.takeTargets g.imageId mats).filter fun x => !s.tileGone x.2.2.2.1
      let s := s.each xs fun s x => s.emptyDeck x.2.2.2.1 x.2.2.2.2
      s.firmwareTake g.imageId mats none true xs

/-- A take has been cut, wholly or in part: its generation's cut has opened, or a matrix of a refresh take has been cut. -/
def cutMade (s : State) (t : Take) : Bool :=
  if !t.refresh then decide (t.st = .draining) || s.liveGen.any fun g => g.imageId == t.image
  else decide (t.st = .draining) || (decide (t.st = .programming) && s.isDense t && !(t.toReturn.all t.toSlow.contains))

/-- Takes that have not been cut end ABORTED (Table 07-9). -/
def abortTakes (s : State) : State :=
  s.each (s.weights.takes.filter fun t => !s.cutMade t) fun s t => s.failTake t .takeAborted

/-- Journal resume (step W8). -/
def resume (s : State) : State :=
  let s := if s.boot.emptySheet then s.emptyCallSheet else s
  let s := s.abortTakes
  let s := s.each (s.callsWhere fun e => decide (e.state = .mirror)) fun s c => s.releaseEntry c
  let s := s.each (s.callsWhere fun _ => true) fun s c => s.each (s.call c).lastRecords rewrite
  let lost := s.jobs.filter fun j => !s.resumes j
  let s := { s with calls := Tbl.mapVals {} (fun (e : Entry) => { e with cancels := [] }) s.calls }
  let s := s.modWeights fun w => { w with cuts := [], takes := w.takes.map fun (t : Take) => { t with job := none } }
  let s := s.each [.h, .t, .u, .d] fun s p => s.modLink p fun l => { l with resetJobs := [] }
  let s := { s with parts := Tbl.mapVals {} (fun (x : Part) => { x with resetJobs := [] }) s.parts }
  let s := { s with boughs := Tbl.mapVals {} (fun (x : Bough) => { x with resetJobs := [] }) s.boughs }
  let s := s.completeAll lost .resetLost
  let s := if s.boot.weightLost.isSome then
      s.each (s.callsWhere liveEntry) fun s c => s.endCall c .resetLost none
    else s
  let s := s.reprogram
  let s := s.each ((List.range 32).filter fun p => (s.part p).resetting) fun s p => s.partResetEnd p
  let s := if s.boot.weightLost.isSome || s.liveGen.isNone then s else s.setReady 8
  let s := s.each (distinct ((s.steps.filter fun x => decide ((s.call x.call).state = .running)).map fun x => x.call)) restoreCall
  let s := s.emit .readDoorbells
  let held := s.sec.heldEvents
  let s := (s.modSec fun x => { x with heldEvents := [] }).each held fun s e =>
    s.writeRecord .eq { record := .event e, premium := false, quiet := false, frees := none }
  let s := (s.setReady 10).modBoot fun b => { b with emptySheet := false }
  let own := s.regs
  let msg := FlitBody.discover own.chainPos.toNat (if own.side then 1 else 0) own.posnV.toNat true
  let s := (s.send .u 0 msg).send .d 0 msg
  s

/-- Step W8 ends; a warm start is counted (R352), a wake from D3 is not one and goes on in WAKE_PHASE_READY. -/
def resumeEnds (s : State) : State :=
  let s := s.resume
  if s.power.wake.isSome then s.modBoot fun b => { b with done := b.done ||| (1#16 <<< 8) }
  else ((s.count Ctr.resetsWarm).stepEnds 8).settle

/-- Steps W1 to W7 have ended. -/
def resumeDue (s : State) : Bool :=
  decide (s.boot.phase = .warmStart) && (List.range 7).all (fun i => s.stepDone? (i + 1)) && !s.stepDone? 8

/-! ### The first watchdog service (R380) -/

/-- Fuse the security version and the revoke bits; SVN_ADVANCED when either changes. -/
def firstService (s : State) : State :=
  let v := max s.sec.fusedSvn (min 64 s.sec.runFloor)
  let k := s.sec.revoked ||| s.sec.runRevoke
  let changed := decide (v ≠ s.sec.fusedSvn) || decide (k ≠ s.sec.revoked)
  let s := s.modSec fun x => { x with fusedSvn := v, revoked := k }
  let s := s.modBoot fun b => { b with dogServed := true, dogPaused := false, dogAt := s.now }
  if changed then s.event { code := 0x1203, own := own [(44, 4, v), (48, 1, k.toNat)] } else s

/-- A step of the cold start can end now. -/
def coldStep (s : State) (before n : Nat) : Bool :=
  decide (s.boot.phase = .coldStart) && s.stepDone? before && !s.stepDone? n && s.boot.failedStep.isNone

/-- A step of the warm start can end now. -/
def warmStep (s : State) (before n : Nat) : Bool :=
  decide (s.boot.phase = .warmStart) && s.stepDone? before && !s.stepDone? n && s.boot.failedStep.isNone

end State

/-! ### The rows -/

def execOptionLoad (data : Bytes) (s : State) : Result :=
  (s.optionLoad data).when "OPTION_LOAD" (decide (s.boot.phase = .coldStart) && !s.stepDone? 1 && s.boot.failedStep.isNone)

def execClockLock (ok : Bool) (s : State) : Result :=
  (if ok then s.clockLock else s.stepFails 2).when "CLOCK_LOCK" (s.coldStep 1 2 && (s.pins.refclk || !ok))

def execHkRefReady (s : State) : Result :=
  s.hkRefReady.when "HK_REF_READY" (s.awake && s.regs.refen && !s.hk.refReady &&
    (match s.hk.refenAt with
     | some t => decide (t + 7813 ≤ s.now)
     | none => false))

/-- FW_FETCH (R338): the images read, or the limit passed. -/
def execFwFetch (active : Nat) (images : List Bytes) (s : State) : Result :=
  (s.fwFetch images).when "FW_FETCH" (s.coldStep 3 4 && decide (active < 2) &&
    (if images.isEmpty then decide (s.regs.boot = 3) ||
      ((decide (s.regs.boot ≠ 1) || s.readyBit 2) && decide (s.boot.fetchFrom + s.fetchLimit ≤ s.now))
     else s.fetchedOk images))

/-- SRAM_FILL: step 6 or W3. -/
def execSramFill (ok : Bool) (s : State) : Result :=
  let n := if s.boot.phase = .warmStart then 3 else 6
  (if ok then s.stepEnds n else s.stepFails n).when "SRAM_FILL" (if s.boot.phase = .warmStart then s.warmStep 2 3 else s.coldStep 5 6)

def execHbmTrain (ok : Bool) (s : State) : Result :=
  (if ok then s.hbmTrained else s.stepFails 9).when "HBM_TRAIN" (s.coldStep 5 9)

def execHbmFill (complete ok : Bool) (s : State) : Result :=
  (if ok then s.hbmFilled complete else s.stepFails 11).when "HBM_FILL"
    (s.coldStep 9 11 && (complete || !ok || !s.readyBit 5) && Instr.wf (.hbmFill complete ok))

def execStartFail (s : State) : Result :=
  match s.boot.failedStep with
  | some c => (s.startFail c).when "START_FAIL" (s.awake || decide (s.boot.phase = .heldWarm))
  | none => .fault (.outOfPlace "START_FAIL")

/-- FW_DIGEST: step W2; the ports were put to training in step W1. -/
def execFwDigest (s : State) : Result :=
  (if s.fwDigestOk then (((s.setReady 1).modBoot fun b => { b with dogAt := s.now }).stepEnds 2).linkStep else s.stepFails 2).when
    "FW_DIGEST" (s.warmStep 1 2)

def execHbmExit (x : HbmUp) (s : State) : Result :=
  (if x.ok then s.hbmExit x.area else s.stepFails 6).when "HBM_EXIT" (s.warmStep 2 6 && Instr.wf (.hbmExit x))

def execResume (s : State) : Result := s.resumeEnds.when "RESUME" s.resumeDue

/-- The watchdog has not been serviced for 2^28 ticks (R349). -/
def execWatchdogExpiry (s : State) : Result :=
  (s.source false 5).when "WATCHDOG_EXPIRY" (s.mgmtUp && !s.boot.dogPaused && decide (s.boot.dogAt + 2 ^ 28 ≤ s.now))

def execFirstWatchdogService (s : State) : Result :=
  s.firstService.when "FIRST_WATCHDOG_SERVICE" (s.mgmtUp && !s.boot.dogServed)

/-- PARTNER_BOOT_REQUEST (R338): a device whose firmware runs sends the image of its active slot on port T; one that is itself still
fetching firmware sends nothing. -/
def execPartnerBootRequest (s : State) : Result :=
  (if s.mgmtUp then s.send .t 3 (.bootImage (Tbl.get ({} : FwSlot) s.sec.runSlot s.sec.slots).bytes) else s).when "PARTNER_BOOT_REQUEST"
    (s.awake && (s.link .t).carries)

end Sys2Proof.Machine
end

