-- ==== Sys2Proof/Machine/Drains.lean ====
section
/-! DEFINITION. Drains as they proceed and end (R84 to R86, R175, R194, R343, R351), and the live firmware cut-over, which drains
every call (R382). -/

set_option Elab.async false

namespace Sys2Proof.Machine
namespace State

/-! ### Firmware (R380, R382) -/

/-- The slot record: active slot and sequence number (18, "Firmware images and slots"; its layout is the model's, log 102). -/
def slotRecord (slot seq : Nat) : Bytes := Bits.slice (Bits.bytesOf 4 slot ++ Bits.bytesOf 4 seq) 0 4096

/-- The switch point: tables, digest, slot and svn of the new image in one step; the slot record; the restart of the management
complex (R382 steps 2 to 4). -/
def switchImage (s : State) : State :=
  match s.sec.cutover with
  | none => s
  | some c =>
    let s := s.runImage c.slot (Tbl.get ({} : FwSlot) c.slot s.sec.slots).bytes
    let s := s.modSec fun x => { x with cutover := some { c with switched := true, switchTick := s.now } }
    if s.regs.boot = 0 then
      let n := (s.sec.slotSeq + 1) % 2 ^ 32
      (s.modSec fun x => { x with slotSeq := n }).emit (.flash (0x02000000 + 0x1000 * (n % 2)) (slotRecord c.slot n))
    else s

/-- The cut-over has been asked and waits for a batch boundary. -/
def switchDue (s : State) : Bool :=
  (s.sec.cutover.any fun c => !c.switched) && s.batch.isNone && !(s.drains.any fun d => decide (d.scope = .all))

/-- The new firmware runs: held events in order, the completion, FW_CUTOVER_DONE (R382 step 5). -/
def cutoverDone (s : State) (c : Cutover) : State :=
  let held := s.sec.heldEvents
  let s := s.modSec fun x => { x with cutover := none, heldEvents := [] }
  let s := s.each held fun s e => s.writeRecord .eq { record := .event e, premium := false, quiet := false, frees := none }
  (s.complete c.job .ok).event { code := 0x1202, own := own [(40, 1, c.slot), (44, 4, s.sec.runSvn), (48, 8, s.now - c.switchTick)] }

/-! ### Drains -/

/-- A running sum in a drain's scope. -/
def sumInScope (s : State) (sc : DrainScope) (r : SumRun) : Bool :=
  match sc with
  | .partition q => (s.call r.key.work.call).partition == q
  | .all => true
  | .bough b => s.prods.any fun p => p.key == r.key && p.tile / 64 == b

/-- A bough named in a drain has nothing left to add. -/
def boughEmpty (s : State) (b : Nat) (d : Drain) : Bool := d.waiting.contains b && !(s.drainBoughs d.scope).contains b

/-- A bough acknowledges every drain that waits for it and that it has finished (R85). -/
def drainAck (s : State) (b : Nat) : State :=
  { s with drains := s.drains.map fun (d : Drain) => if s.boughEmpty b d then { d with waiting := d.waiting.filter fun x => x != b } else d }

/-- A drain stops attention in its scope (R175): blocks and layers that run when it comes are finished first. -/
def attnStopped (s : State) (sc : DrainScope) : Bool :=
  let inScope (w : WorkRef) : Bool := match sc with
    | .partition q => (s.call w.call).partition == q
    | .all => true
    | .bough _ => false
  s.canopy.all (fun r => !inScope r.work || r.stopped || decide (r.lane = 16)) &&
  s.steps.all fun y =>
    let w : WorkRef := { call := y.call, step := y.step, token := 0 }
    !inScope w || y.discarded ||
    (match s.attnSpan w with
     | none => true
     | some x => (s.layersOf x.image).all fun r => !s.layerOpen w x r.layer)

/-- Every bough in scope has acknowledged, every running sum in scope has gone on (R85), and attention has come to its stops (R175). -/
def drainReady (s : State) (d : Drain) : Bool :=
  s.attnStopped d.scope && d.waiting.isEmpty && (s.drainBoughs d.scope).isEmpty && !(s.sums.any fun r => SumRun.begun r && s.sumInScope d.scope r) &&
  !(s.xferWaits.any fun r => s.waitInScope d.scope r && s.keyGranted r.key)

/-- A canopy row that a drain has stopped, as it is saved, bit for bit (R175). -/
def savedRow (r : CanopyRow) : SavedRow :=
  { step := r.work.step, token := r.work.token, layer := r.layer, group := r.group, row := r.row, nextKey := r.nextKey, acc := r.acc, bad := r.bad }

/-- A row belongs to a step of call `c` in flight here. -/
def rowOf (s : State) (c : Nat) (r : CanopyRow) : Bool := r.work.call == c && (s.step? r.work.call r.work.step).isSome

/-- The unfinished canopy rows of a call are saved with it (R175). -/
def saveRows (s : State) (c : Nat) : State :=
  let rows := s.canopy.filter (s.rowOf c)
  let s := { s with canopy := s.canopy.filter fun r => !s.rowOf c r }
  let s := s.count Ctr.canopySaves rows.length
  if rows.isEmpty then s else s.modCall c fun e => { e with savedRows := e.savedRows ++ rows.map savedRow }

/-- The steps of a call wait for their restore. -/
def holdSteps (s : State) (c : Nat) : State :=
  { s with steps := s.steps.map fun (x : Step) => if x.call == c then { x with discarded := true } else x }

/-- MiB that a call's saved state takes. -/
def savedMiB (e : Entry) : Nat :=
  Bits.ceilDiv ((e.saved.map fun v => 32 + 8 * v.records.length).sum + 520 * (e.savedRows.map fun r => r.acc.length).sum) (2 ^ 20)

/-- The preempted chunk is saved and its call enters DRAINED (R194). -/
def drainChunk (s : State) (c : Nat) : State :=
  let s := (s.saveRows c).holdSteps c
  let n := savedMiB (s.call c)
  (s.modPart (s.call c).partition fun x => { x with saveUsed := x.saveUsed + n }).modCall c fun e =>
    { e with state := .drained, saveSize := n, savePtr := 64 * (c + 1) }

/-- Every call in a drain's scope with prefill attention in progress saves its rows (R175). -/
def saveScope (s : State) (sc : DrainScope) : State :=
  let covered (c : Nat) : Bool := match sc with
    | .partition q => (s.call c).partition == q
    | .all => true
    | .bough _ => false
  s.each (distinct ((s.canopy.filter fun r => covered r.work.call && s.rowOf r.work.call r).map fun r => r.work.call)) saveRows

/-- Calls with saved vectors or rows that continue at once. -/
def restoreAll (s : State) : State :=
  s.each (s.callsWhere fun e => !(e.saved.isEmpty && e.savedRows.isEmpty) && decide (e.state = .running)) restoreCall

/-- Canopy rows of work served for the partner, which no call here saves, go on where they stopped (R194 step 2). -/
def resumeRows (s : State) : State :=
  { s with canopy := s.canopy.map fun (r : CanopyRow) => if s.workDrained r.work.call then r else { r with stopped := false } }

/-- What follows a drain, by what asked for it. -/
def afterDrain (s : State) (why : DrainFor) : State :=
  match why with
  | .preempt c => (if (s.call c).state = .running then s.drainChunk c else s).restoreAll
  | .partitionReset p => s.partResetEnd p
  | .warmReset =>
    let cs := distinct (s.steps.map fun x => x.call)
    let s := s.each cs fun s c => (s.saveRows c).holdSteps c
    let s := { s with tiles := Tbl.mapVals {} (fun (t : Tile) => { t with
      decks := if t.mfgBad then t.decks else Tbl.mapVals {} s.recordAge t.decks }) s.tiles }
    s.resetArrives false 4
  | .switchPoint => s.switchImage.restoreAll
  | .boughReset b => if s.pulseRuns (some b) then s else (s.boughReset b).restoreAll

/-- A drain completes: counted, and its wait recorded. -/
def drainDone (s : State) (d : Drain) : State :=
  let s := { (s.withdraw d.scope d.why) with drains := s.drains.erase d }
  let s := (s.count Ctr.drains).levelMax Ctr.drainWaitMax (s.now - d.start)
  ((s.saveScope d.scope).afterDrain d.why).resumeRows.tilesNext fun _ => true

end State

/-! ### The rows -/

def execBoughDrainAck (bough : Nat) (s : State) : Result :=
  (s.drainAck bough).when "BOUGH_DRAIN_ACK" (s.drains.any (s.boughEmpty bough))

def execDrainComplete (s : State) : Result :=
  match s.drains.find? s.drainReady with
  | none => .fault (.outOfPlace "DRAIN_COMPLETE")
  | some d => .next (s.drainDone d)

def execSwitchPoint (s : State) : Result := (s.startDrain .all .switchPoint).when "SWITCH_POINT" s.switchDue

def execFwCutoverDone (s : State) : Result :=
  match s.sec.cutover with
  | none => .fault (.outOfPlace "FW_CUTOVER_DONE")
  | some c => (s.cutoverDone c).when "FW_CUTOVER_DONE" c.switched

end Sys2Proof.Machine
end

