-- ==== Sys2Proof/Machine/Faults.lean ====
section
/-! DEFINITION. Faults classified (15): repeats (R313, R314), slates (R312, R315), withdrawal and resignation (R321 to R323), dailies
(R326). -/

set_option Elab.async false

namespace Sys2Proof.Machine
namespace State

/-! ### Repeats -/

/-- The call that a fault record names: while the entry that the work served is in use. -/
def workCall (s : State) (w : WorkRef) : Option Nat := if (s.call w.call).state = .free then none else some w.call

/-- The phases of a repeat, by digit position, that the product's kept digits give (R28, R313). -/
def repeatPlan (p : Prod) : List (Bool × Nat × Nat) := digitPlan true p.transposed p.high ++ digitPlan false p.transposed p.low

/-- The totals that a repeat's codes give, with the parameters that the product latched (R94 to R96). -/
def repeatTotals (p : Prod) (high : Bool) (phases : List (List Int)) : List Int :=
  let v (j : Nat) (c : Int) : Int :=
    correctCode c (Tbl.get 0 (sliceIndex p.transposed j) p.offsets) (Tbl.get 0x8000 (sliceIndex p.transposed j) p.gains)
      (Tbl.get 0x8000 j p.colGains) p.drift
  (((repeatPlan p).zip phases).filter fun x => x.1.1 == high).foldl
    (fun t x => List.zipWith (· + ·) t (x.2.zipIdx.map fun y => v y.2 y.1)) (List.replicate p.outputs 0)

/-- The product as its repeat read it. -/
def repeated (p : Prod) (phases : List (List Int)) : Prod :=
  { p with hiVal := repeatTotals p true phases, loVal := repeatTotals p false phases, clipped := [] }

/-- Outputs that clip in a repeat. -/
def repeatClips (phases : List (List Int)) : List Nat :=
  distinct (phases.flatMap fun cs => (cs.zipIdx.filter fun x => x.1 == -128 || x.1 == 127).map fun x => x.2)

/-- The outputs that a repeat compares (R314): those that failed, those of the same deck that failed while it waited, and the
outputs of the failing channel. -/
def repeatOutputs (s : State) (t : Nat) (r : Repeat) (p : Prod) : List Nat :=
  let n := if p.transposed then 16 else 8
  let waited := ((s.tile t).folded.filter fun f => f.deck == r.deck).flatMap fun f => f.cols
  let failing := r.cols ++ (r.cols.take 1).flatMap (fun c => channelOutputs p (c / n))
  (distinct (failing ++ waited)).filter fun j => decide (j < p.outputs) && (p.transposed ||
    (decide (j < s.outWidth p) && !((s.tile t).suspendedIn r.deck).contains j))

/-- The outputs that fail again, and the largest deviation in 2^-16 LSB: clip masks after a clip, else the rule of R110. -/
def repeatFails (s : State) (t : Nat) (r : Repeat) (p : Prod) (phases : List (List Int)) : List Nat × Int :=
  let cs := s.repeatOutputs t r p
  if r.detector = 2 then (cs.filter fun j => (repeatClips phases).contains j, 0)
  else
    let bad := (s.deviations (repeated p phases) cs).filter (fails p)
    (distinct (bad.map fun x => x.1), largest (bad.map fun x => x.2.2))

/-- The columns of a second clapper phase that mismatch again (R310), and the largest deviation. -/
def clapperAgain (s : State) (t : Nat) (r : Repeat) (codes : List Int) : List Nat × Int :=
  let bad := s.clapperFails t r.deck r.half codes
  (bad.map fun y => y.1, largest (bad.map fun y => y.2))

/-- The next repeat of a tile: the first suspect that was folded, with the columns of the others of its deck (R314). -/
def nextRepeat (s : State) (t : Nat) : State :=
  match (s.tile t).folded with
  | [] => s.modTile t fun x => { x with repeat_ := none }
  | f :: rest =>
    let same := rest.filter fun g => g.deck == f.deck
    let s := s.modTile t fun x => { x with
      repeat_ := some { f with cols := distinct (f.cols ++ same.flatMap fun g => g.cols) }, folded := rest.filter fun g => g.deck != f.deck }
    s.each (same.filterMap fun g => g.prod) dropIfDone

/-- Two failing columns share a converter slice. -/
def sliceShared (cols : List Nat) : Bool := cols.any fun c => cols.any fun d => c != d && c / 2 == d / 2

/-- One repeat's classification (R314): transient where nothing fails again. -/
def classifyRepeat (s : State) (t : Nat) (r : Repeat) (p : Option Prod) (bad : List Nat × Int) : State :=
  let b := t / 64
  let k := s.deck t r.deck
  let info : FaultInfo := {
    operation := match p with
      | none => 4
      | some p => if p.transposed then 2 else 1,
    detector := r.detector, outcome := 1, matrix := k.matrixId, call := p.bind fun p => s.workCall p.key.work,
    step := (p.map fun p => p.key.work.step).getD 0, digit := r.digit, deviation := r.deviation, columns := r.cols.length,
    opcode := if r.detector = 7 then 0x36 else 0 }
  let unit (cs : List Nat) := match cs with
    | [c] => unitColumn t r.deck c
    | _ => unitDeck t r.deck
  if bad.1.isEmpty then
    let s := (s.count (Ctr.faultsTransient 0 b)).modDaily fun d => { d with transient := d.transient + 1 }
    let s := if p.isNone then (s.modDeck t r.deck fun k => { k with sampled := (k.sampled.1, true) }).tryVerified t r.deck else s
    s.fault (unit r.cols) info
  else
    let s := (s.count (Ctr.faultsPermanent 0 b)).modDaily fun d => { d with permanent := d.permanent + 1 }
    let s := if p.any fun q => q.transposed then s
      else (s.columnFaults t r.deck bad.1).modDeck t r.deck fun k => { k with sampled := (k.sampled.1, k.sampled.2 || r.prod.isNone) }
    let s := s.tryVerified t r.deck
    let s := if sliceShared bad.1 then s.requestRun b else s
    let s := s.each ((s.prods.filter fun q => q.tile == t && q.deck == r.deck && !q.summed && s.stepOpen q.key.work).map fun q => q.id)
      suspectProd
    s.fault (unit bad.1) { info with
      outcome := if s.tileGone t then 3 else 2, deviation := Bits.roundHalfEven bad.2 256, columns := bad.1.length }

/-- A repeat has run: charged and counted as premium phases and one check, then classified; the tile's next repeat follows. -/
def repeatDone (s : State) (t : Nat) (r : Repeat) (phases : List (List Int)) : State :=
  let b := t / 64
  let s := (s.count (Ctr.repeats b)).each phases fun s cs => (s.charge 0 (some b)).countClips t cs
  let s := s.modTile t skewTile
  match r.prod with
  | none =>
    let s := s.count (Ctr.clapperPhases t)
    (((s.classifyRepeat t r none (s.clapperAgain t r (phases.headD []))).nextRepeat t).tilesNext fun x => x == t).settle
  | some i =>
    match s.prod? i with
    | none => s.nextRepeat t
    | some p =>
      let s := s.count (Ctr.phases t) phases.length
      ((((s.classifyRepeat t r (some p) (s.repeatFails t r p phases)).nextRepeat t).dropIfDone i).tilesNext fun x => x == t).settle

/-- The codes of a repeat have its shape: one list per phase; none when its product is gone. -/
def repeatShape (s : State) (r : Repeat) (phases : List (List Int)) : Bool :=
  let code (c : Int) : Bool := decide (-128 ≤ c) && decide (c ≤ 127)
  match r.prod with
  | none => phases.length == 1 && phases.all fun cs => cs.length == 512 && cs.all code
  | some i =>
    match s.prod? i with
    | none => phases.isEmpty
    | some p => phases.length == (repeatPlan p).length && phases.all fun cs => cs.length == p.outputs && cs.all code

/-- A repeat can run: the tile is free and may be granted a phase, and a suspect product has ended its own phases. -/
def repeatDue (s : State) (t : Nat) (r : Repeat) : Bool :=
  s.newWorkOpen && decide ((s.tile t).active = .idle) && !s.tileGone t && !(s.bough (t / 64)).withdrawn && s.boughReady (t / 64) &&
  s.affordable 0 && ((r.prod.bind fun i => s.prod? i).all fun p => p.plan.isEmpty)

/-! ### Slates (Table 15-3, R312, R315) -/

def slate (s : State) (u : SlateUnit) : Slate := s.slateAt (slateKey u)
def modSlate (s : State) (u : SlateUnit) (f : Slate → Slate) : State :=
  s.modFaults fun x => { x with slates := Tbl.update {} (slateKey u) f x.slates }

/-- The unit exists. -/
def slateUnitOk : SlateUnit → Bool
  | .bough b => decide (b < 128)
  | .pipe e p => decide (e < 8) && decide (p < 2)
  | .lane l => decide (l < 16)
  | _ => true

/-- Unit kinds in the order of Table 15-3. -/
def slateKind : SlateUnit → Nat
  | .bough _ => 0 | .pipe .. => 1 | .lane _ => 2 | .graft => 3 | .matte => 4 | .conversion => 5

/-- The engine code of a unit that is no bough (Table 11-13). -/
def slateEngine : SlateUnit → Nat
  | .bough _ => 0 | .pipe e _ => e + 1 | .lane _ => 0 | .graft => 16 | .matte => 17 | .conversion => 18

/-- Unit field, counter scope and instance, and part of a unit. -/
def slateScope : SlateUnit → UnitField × Nat × Nat × Nat
  | .bough b => (unitBough b, 0, b, 0)
  | .pipe e p => (unitEngine (e + 1), 1, e + 1, p)
  | .lane l => (unitEngine 0, 1, 0, l)
  | u => (unitEngine (slateEngine u), 1, slateEngine u, 0)

/-- The answer that the running image carries for the unit's slate (15, "Slates"). -/
def slateAnswer (s : State) (u : SlateUnit) : BitVec 64 := Tbl.get 0 (64 * slateKind u + (s.slate u).number) s.sec.answers

/-- Premium steps not yet committed that used the unit after its last passing slate become suspect (R315). -/
def suspectUnit (s : State) (u : SlateUnit) : State :=
  let since := (s.slate u).passedAt
  match u with
  | .bough b => s.each ((distinct ((s.steps.flatMap fun x => x.used).map fun k => k.1)).filter fun k => decide (k < 2 ^ 16) && k / 512 == b)
      fun s k => s.suspectUses k since (some b) fun p => 8 * p.tile + p.deck == k
  | u => s.suspectUses (2 ^ 17 + slateKey u) since none fun _ => false

/-- A slate of a unit named in R323 has failed twice: the start fails (steps 7 and W4), or the device resigns; an unpaired device
takes a warm reset. -/
def resign (s : State) (u : SlateUnit) (i : FaultInfo) : State :=
  let n := s.faults.seq
  let s := s.fault (slateScope u).1 { i with outcome := 6 }
  if s.starting then s.stepFails (if s.boot.phase = .warmStart then 4 else 7)
  else
    let s := (s.modFaults fun f => { f with resigned := true }).event { code := 0x0F06, own := own [(60, 4, n)] }
    if s.regs.paired then s else s.source false 9

/-- A bough is withdrawn (R321): its tiles get no grants, its products in progress are formed digitally, and its matrices go to the
slower tier at their batch boundary. -/
def withdrawBough (s : State) (b : Nat) (i : FaultInfo) : State :=
  let n := s.faults.seq
  let s := s.fault (unitBough b) { i with outcome := 4 }
  let s := s.modBough b fun x => { x with withdrawn := true, runOn := false, runPending := false }
  let s := { s with
    prods := s.prods.map fun (p : Prod) => if p.tile / 64 == b then p.toDigital else p
    tiles := Tbl.mapVals {} id (s.tiles.map fun (x : Nat × Tile) => if x.1 / 64 = b then (x.1, { x.2 with queue := [], held := false }) else x) }
  let mats := (s.weights.bindings.filter fun x => !x.2.slow && x.2.decks.any fun d => d.1 / 64 == b).map fun x => x.1
  let s := s.modWeights fun w => { w with slowDue := w.slowDue ++ (mats.map fun m => (m, false)).filter fun x => !w.slowDue.contains x }
  s.event { code := 0x0F03, unit := unitBough b, own := own [(60, 4, n)] }

/-- A canopy lane or taproot pipe is withdrawn (R322). -/
def withdrawPart (s : State) (u : SlateUnit) (i : FaultInfo) : State :=
  let x := slateScope u
  let s := s.fault x.1 { i with outcome := 5 }
  (s.modFaults fun f => { f with withdrawnParts := f.withdrawnParts ++ [(x.2.2.1, x.2.2.2)] }).event
    { code := 0x0F05, unit := x.1, own := own [(40, 1, x.2.2.1), (41, 1, x.2.2.2)] }

/-- The unit is the last of its kind that serves (R323). -/
def lastUnit (s : State) : SlateUnit → Bool
  | .bough b => (List.range 32).all fun k => 32 * (b / 32) + k == b || (s.bough (32 * (b / 32) + k)).withdrawn
  | .pipe e p => s.faults.withdrawnParts.contains (e + 1, 1 - p)
  | .lane l => (List.range 16).all fun k => k == l || s.faults.withdrawnParts.contains (0, k)
  | _ => true

/-- The second failure in a row: a permanent fault of the unit (R315, R321 to R323). -/
def unitFails (s : State) (u : SlateUnit) : State :=
  let x := slateScope u
  let i : FaultInfo := { operation := 5, detector := 4, outcome := 0, part := x.2.2.2 }
  let s := (s.count (Ctr.faultsPermanent x.2.1 x.2.2.1)).modDaily fun d => { d with permanent := d.permanent + 1 }
  let last := s.lastUnit u
  let s := match u with
    | .bough b => s.withdrawBough b i
    | .pipe .. | .lane _ => if last then s else s.withdrawPart u i
    | _ => s
  if last then s.resign u i else s

/-- A withdrawn bough's slates have passed (R321): a return cut binds its matrices back to their decks. -/
def boughReturns (s : State) (b : Nat) : State :=
  let s := (s.modBough b fun x => { x with withdrawn := false }).event { code := 0x0F04, unit := unitBough b }
  let s := s.modWeights fun w => { w with slowDue := w.slowDue.filter fun x => x.2 || !(((s.binding? x.1).map fun y => y.decks).getD []).all s.deckServes }
  let mats := (s.weights.bindings.filter fun x => x.2.slow && x.2.decks.any (fun d => d.1 / 64 == b) && x.2.decks.all s.deckServes &&
    !(s.weights.takes.any fun t => t.toReturn.contains x.1)).map fun x => x.1
  let s := if mats.isEmpty then s
    else s.addTake { id := 0, refresh := true, firmware := true, image := (s.liveGen.map fun g => g.imageId).getD 0, mats := mats,
                     st := .programming, job := none, inPlace := false, targets := [], left := 0, toSlow := [], toReturn := mats }
  s.boughResetDone b

/-- The slates of a bough reset that waits for them (R321, R351). -/
def boughTested (s : State) (u : SlateUnit) : Bool :=
  match u with
  | .bough b => (s.bough b).withdrawn && !(s.bough b).resetJobs.isEmpty && !(s.bough b).draining && decide ((s.bough b).ref = .ready)
  | _ => false

/-- A slate has ended well: the unit goes on to the next of its 64. -/
def slatePasses (s : State) (u : SlateUnit) : State :=
  let x := slateScope u
  let again := (s.slate u).failedOnce
  let s := s.modSlate u fun t => { t with
    number := (t.number + 1) % 64, startedAt := s.now, failedOnce := false, passedAt := s.now, overdue := false, doneThisStart := true }
  let s := if again then
      ((s.count (Ctr.faultsTransient x.2.1 x.2.2.1)).modDaily fun d => { d with transient := d.transient + 1 }).fault x.1
        { operation := 5, detector := 4, outcome := 1, part := x.2.2.2 }
    else s
  match u with
  | .bough b => if s.boughTested u then (s.boughReturns b).settle else s
  | _ => s

/-- A slate has failed: run again at once, or the fault is permanent. -/
def slateFails (s : State) (u : SlateUnit) : State :=
  let x := slateScope u
  let again := (s.slate u).failedOnce
  let s := s.count (Ctr.slateFails x.2.1 x.2.2.1)
  let s := s.modSlate u fun t => { t with startedAt := s.now, failedOnce := !again, overdue := false, doneThisStart := again || t.doneThisStart }
  let s := s.suspectUnit u
  if !again then s
  else
    match u with
    | .bough b => if s.boughTested u then s.boughResetDone b else (s.unitFails u).settle
    | u => s.unitFails u

/-- A unit's slate completes with the digest of its outputs. -/
def slateDone (s : State) (u : SlateUnit) (digest : BitVec 64) : State :=
  let x := slateScope u
  let s := (s.count (Ctr.slatesRun x.2.1 x.2.2.1)).modDaily fun d => { d with slates := d.slates + 1 }
  (if digest = s.slateAnswer u then s.slatePasses u else s.slateFails u).slateStep

/-- The unit can run a slate: in service or under test after its reset, with firmware running and its supply on; the duty is suspended
from an entry to D3 until the wake's logic phase (R367). -/
def slateDue (s : State) (u : SlateUnit) : Bool :=
  slateUnitOk u && s.mgmtUp && s.boot.failedStep.isNone && (s.powerOpen || !s.asleep) && (!s.unitGone (slateKey u) || s.boughTested u)

/-! ### Dailies (R326) -/

/-- A 16-bit saturating field of a DAILY. -/
def sat16 (n : Nat) : Nat := min 65535 n

/-- Decks in state DRIFTED. -/
def driftedDecks (s : State) : Nat := (s.tiles.map fun x => (x.2.decks.filter fun d => decide (d.2.state = .drifted)).length).sum

def dailyRecord (s : State) : State :=
  let d := s.faults.daily
  let temp := if d.tempMax = -32768 then 0 else d.tempMax
  let s := s.event { code := 0x0F02, own := own [
    (40, 2, sat16 d.transient), (42, 2, sat16 d.permanent), (44, 2, sat16 d.suspectSteps), (46, 2, sat16 d.retakes),
    (48, 2, sat16 d.settled), (50, 2, sat16 d.mismatches), (52, 2, sat16 d.slates), (54, 2, Bits.ofSigned temp 16),
    (56, 2, s.tilesLive), (58, 2, sat16 s.driftedDecks), (60, 4, s.faults.seq - 1)] }
  s.modFaults fun f => { f with daily := { written := s.now / 2 ^ 32 } }

end State

/-! ### The rows -/

def execRepeat (tile : Nat) (phases : List (List Int)) (s : State) : Result :=
  match (s.tile tile).repeat_ with
  | none => .fault (.outOfPlace "REPEAT")
  | some r => (s.repeatDone tile r phases).when "REPEAT" (s.repeatDue tile r && s.repeatShape r phases)

def execSlate (u : SlateUnit) (digest : BitVec 64) (s : State) : Result := (s.slateDone u digest).when "SLATE" (s.slateDue u)

/-- SLATE_OVERDUE (R312): from here the pacer withholds one grant of the unit's work per 2^13 ticks until the slate completes. -/
def execSlateOverdue (u : SlateUnit) (s : State) : Result :=
  (s.modSlate u fun t => { t with overdue := true, withheld := 0 }).when "SLATE_OVERDUE"
    (s.slateDue u && !(s.slate u).overdue && decide ((s.slate u).startedAt + 2 ^ 31 ≤ s.now))

def execDaily (s : State) : Result :=
  s.dailyRecord.when "DAILY" (s.ticking && s.awake && decide (s.faults.daily.written < s.now / 2 ^ 32))

end Sys2Proof.Machine
end

