-- ==== Sys2Proof/Machine/Housekeeping.lean ====
section
/-! DEFINITION. Housekeeping (06 "Housekeeping converter", R123, R336, R350, R364, R365): slots, conversions and what their
samples set off. -/

set_option Elab.async false

namespace Sys2Proof.Machine
namespace State

/-- The converter's round-robin runs: from the conversion of POSN on, and through a warm reset or a thermal trip (R118, R350). -/
def hkOn (s : State) : Bool :=
  s.boot.tripped || s.running || decide (s.boot.phase = .warmStart) || decide (s.boot.phase = .heldWarm) ||
  (decide (s.boot.phase = .coldStart) && s.stepDone? 3)

/-- Bough sensors 0 to 127 and hub sensors 128 to 139; the other channels are rail monitors (R118). -/
def isSensor (c : Nat) : Bool := decide (c < 140)

/-- A slot of the round-robin opens (R118); a running urgent conversion keeps the converter and the slot passes. -/
def hkSlot (s : State) : State :=
  if s.hk.busy.isSome then s.modHk fun h => { h with slotAt := s.now }
  else s.modHk fun h => { h with
    slotAt := s.now, next := (h.next + 1) % 164, busy := some { channel := h.next, start := s.now, job := none, urgent := false } }

/-- The boot source's fetch begins once POSN is read (R338). -/
def fetchBegins (s : State) : State :=
  match s.regs.boot.toNat with
  | 0 => s.modBoot fun b => { b with fetchFrom := s.now }
  | 1 => s.trainPort .h
  | 2 => (s.trainPort .t).modBoot fun b => { b with fetchFrom := s.now }
  | _ => s

/-- POSN has been converted (R336): the value and the twin side; a code near a band edge fails the step. -/
def posnDone (s : State) (p : Nat) : State :=
  let s := s.modRegs fun r => { r with posnCode := BitVec.ofNat 12 p }
  if p % 256 < 24 ∨ 231 < p % 256 then s.stepFails 3
  else
    let s := s.modRegs fun r => { r with
      posnV := BitVec.ofNat 4 (p / 256), side := (BitVec.ofNat 4 (p / 256)).getLsbD 3 }
    ((s.setReady 0).stepEnds 3).fetchBegins

/-- A bough's sample: the temperature corrections use, the run's mean, and the trigger of R123 (TEMP_THRESH is in units of
0.25 °C). -/
def boughSample (s : State) (b : Nat) (v : Int) (valid : Bool) : State :=
  let s := s.modBough b fun x =>
    if valid then { x with
      temp := v, tempValid := true, runSum := if x.runOn then x.runSum + v else x.runSum,
      runCount := if x.runOn then x.runCount + 1 else x.runCount }
    else { x with tempValid := false }
  if !valid then s
  else
    let s := s.modFaults fun f => { f with daily := { f.daily with tempMax := max f.daily.tempMax v } }
    let s := if s.trims.isEmpty then s else s.driftTargets b
    match (s.bough b).calTemp with
    | none => s
    | some c =>
      if s.regs.tempThresh ≠ 0 ∧ 4 * s.regs.tempThresh.toNat < (v - c).natAbs then
        (s.count (Ctr.calTempTriggers b)).requestRun b
      else s

/-- THROTTLE_T in 1/16 °C. -/
def throttleLimit (s : State) : Int := ((16 * s.power.policy.throttleT.toNat : Nat) : Int)

/-- ALERT_N and the halved grants of R365. -/
def hotAlert (s : State) : State :=
  let hot := decide (s.power.thermalFloor = 7) && !s.hk.above105.isEmpty
  (s.modPower fun p => { p with halved := hot }).modPins fun p => { p with alertHot := hot }

/-- A sensor's sample enters the round's account (R364, R365). -/
def thermalSample (s : State) (c : Nat) (v : Int) (valid : Bool) : State :=
  let lim := s.throttleLimit
  let hot := valid && decide (lim ≤ v)
  let s := s.modHk fun h => { h with
    roundHot := if hot then some (match h.roundHot with
      | some (c', v') => if v' < v then (c, v) else (c', v')
      | none => (c, v)) else h.roundHot,
    roundCool := h.roundCool && valid && decide (v ≤ lim - 80),
    hot := if hot then (if h.hot.any (fun x => x.1 == c) then h.hot else h.hot ++ [(c, s.now)])
      else if valid then h.hot.filter fun x => x.1 != c else h.hot,
    above105 := if valid then (if 1680 < v then distinct (h.above105 ++ [c]) else h.above105.filter fun x => x != c) else h.above105 }
  s.hotAlert

/-- The floor moves one level slower at the end of a hot round. -/
def floorSlower (s : State) (c : Nat) (v : Int) : State :=
  let f := s.power.thermalFloor
  let s := s.modPower fun p => { p with thermalFloor := min 7 (f + 1) }
  if f = 0 then s.event { code := 0x1102, own := own [(40, 1, 1), (42, 1, c), (44, 2, Bits.ofSigned v 16)] } else s

/-- The floor moves one level faster after 16 cool rounds. -/
def floorFaster (s : State) : State :=
  let f := s.power.thermalFloor
  let s := s.modPower fun p => { p with thermalFloor := f - 1 }
  if f = 1 then s.event { code := 0x1103 } else s

/-- A round of the round-robin has ended (R364). -/
def roundEnds (s : State) : State :=
  let h := s.hk
  let cool := if h.roundHot.isNone && h.roundCool then h.coolRounds + 1 else 0
  let s := match h.roundHot with
    | some (c, v) => s.floorSlower c v
    | none => if cool = 16 ∧ 0 < s.power.thermalFloor then s.floorFaster else s
  let s := s.modHk fun h => { h with roundHot := none, roundCool := true, coolRounds := if cool = 16 then 0 else cool }
  let s := if 0 < s.power.thermalFloor then s.count Ctr.throttleRounds else s
  s.hotAlert.startLevel

/-- 125 °C: THERMTRIP_N and a cold reset (R350). -/
def thermalTrip (s : State) : State :=
  let s := (s.modPins fun p => { p with thermtrip := true }).modBoot fun b => { b with tripped := true, coolCount := 0 }
  s.resetArrives true 8

/-- While a trip holds the device, a full round of sensors below 110 °C releases it (R350). -/
def tripSample (s : State) (v : Int) (valid : Bool) : State :=
  let n := if valid && decide (v < 1760) then s.boot.coolCount + 1 else 0
  if n = 140 then (s.modBoot fun b => { b with tripped := false, coolCount := 0 }).modPins fun p => { p with thermtrip := false }
  else s.modBoot fun b => { b with coolCount := n }

/-- A converted value with its sensor's trims (R118, Table 06-1); four zero bytes are no trim (log 178). -/
def trimmed (s : State) (c : Nat) (raw : Int) : Int :=
  let t := BitVec.ofNat 32 (Bits.le s.trims (3872 + 4 * c) 4)
  if t = 0 ∨ !isSensor c then raw else Config.sensorTrim t raw

/-- A round-robin or urgent conversion has ended (R117 to R119). DESIGN CHOICE (log 177): VALID is judged as the conversion ends. -/
def sampleDone (s : State) (c : Conv) (raw : Int) : State :=
  let v := s.trimmed c.channel raw
  let valid := s.hk.refReady && s.regs.refen
  let s := s.modHk fun h => { h with
    busy := none, samples := Tbl.set {} c.channel { value := v, valid := valid, tick := s.now } h.samples }
  let s := if valid then s else s.count Ctr.hkInvalid
  let s := match c.job with
    | some j => s.completeWith j .ok (Bits.ofSigned v 16 + (if valid then 2 ^ 16 else 0)) s.now none
    | none => s
  if s.boot.tripped then (if isSensor c.channel then s.tripSample v valid else s)
  else
    let s := if c.channel < 128 then s.boughSample c.channel v valid else s
    let s := if isSensor c.channel then s.thermalSample c.channel v valid else s
    let s := if c.channel = 163 ∧ c.urgent = false then s.roundEnds else s
    if isSensor c.channel && valid && decide (2000 ≤ v) then s.thermalTrip else s

end State

/-! ### The rows -/

def execHkSlot (s : State) : Result :=
  s.hkSlot.when "HK_SLOT" (s.hkOn && (s.boot.tripped || (s.ticking && decide (s.hk.slotAt + 200 ≤ s.now))))

/-- A conversion takes 100 ticks; channel 164 is POSN. -/
def execHkConversionDone (value : BitVec 16) (s : State) : Result :=
  match s.hk.busy with
  | none => .fault (.outOfPlace "HK_CONVERSION_DONE")
  | some c =>
    (if c.channel = 164 then (s.modHk fun h => { h with busy := none }).posnDone (value.toNat % 4096)
     else s.sampleDone c value.toInt).when "HK_CONVERSION_DONE" (s.boot.tripped || decide (c.start + 100 ≤ s.now))

/-- The thermal handling asks for a sample of a hot sensor (R364), or management firmware for one of any channel (R119): dropped while
a conversion runs. -/
def execUrgentSample (channel : Nat) (s : State) : Result :=
  let hot := decide (0 < s.power.thermalFloor) && s.hk.hot.any fun x => x.1 == channel && decide (x.2 + 100 ≤ s.now)
  let s1 := s.modHk fun h => { h with hot := h.hot.map fun (x : Nat × Nat) => if x.1 == channel then (x.1, s.now) else x }
  (if s.hk.busy.isSome then s1.count Ctr.hkDrop
   else s1.modHk fun h => { h with busy := some { channel := channel, start := s.now, job := none, urgent := true } }).when
    "URGENT_SAMPLE" (s.hkOn && s.ticking && (hot || (s.mgmtUp && decide (channel < 164))))

end Sys2Proof.Machine
end

