-- ==== Sys2Proof/Machine/Memory.lean ====
section
/-! DEFINITION. What the memory system does by itself (14): buckets leak, merge buffers evict, queue pressure is watched,
retirements, fills and rehashes end. -/

set_option Elab.async false

namespace Sys2Proof.Machine
namespace State

/-! ### Buckets (R293) -/

def bucket (s : State) (region : Nat) : Bucket := Tbl.get {} region s.mem.buckets

/-- A leak of the region's bucket is due. -/
def leakDue (s : State) (region : Nat) : Bool :=
  let b := s.bucket region
  decide (s.regs.bucketLeak ≠ 0) && decide (0 < b.level) && decide (b.leakAt + 2 ^ s.regs.bucketLeak.toNat ≤ s.now)

/-- The bucket loses one. -/
def bucketLeak (s : State) (region : Nat) : State :=
  s.modMem fun m => { m with
    buckets := Tbl.update {} region (fun b => { b with level := b.level - 1, leakAt := b.leakAt + 2 ^ s.regs.bucketLeak.toNat }) m.buckets }

/-! ### Merge buffers (R299) -/

/-- The oldest entry of a channel that has been untouched for 256 ticks. -/
def evictDue (s : State) (stack channel : Nat) : Option Merge :=
  (Tbl.get [] (stack * 32 + channel) s.mem.merge).find? fun e => decide (e.touched + 256 ≤ s.now)

/-- The call whose KV page holds an address of HBM. -/
def pageOwner (s : State) (a : Nat) : Option Nat :=
  (s.calls.find? fun (x : Nat × Entry) => x.2.pages.any fun p =>
    let base := pageAddr p.2
    let n := Tbl.get 0 (p.2 % 8 * 2 ^ 32 + p.2 / 8) s.mem.runs
    decide (base ≤ a) && decide (a < base + n * frameBytes)).map fun x => x.1

/-- An eviction: a whole block is written, another is read, merged and written; an uncorrectable block drops the write and
ends the call that owns the page (Table 14-4). -/
def mergeEvict (s : State) (stack channel : Nat) (e : Merge) (f : Flips) : State :=
  let s := s.modMem fun m => { m with
    merge := Tbl.update [] (stack * 32 + channel) (fun l => l.filter fun x => x.block != e.block) m.merge }
  if e.bytes.length = 64 then s.mergeLeave e
  else
    let s := s.noteRead (e.block * 64) 0 f
    if classify f = .uncorrectable then
      let s := s.count (Ctr.mergeRmw stack)
      match s.pageOwner (e.block * 64) with
      | some c => (s.endCall c .kvUncorr none).settle
      | none => s
    else (s.rewriteDelivered e.block f).mergeLeave e

/-! ### Queue pressure (R305) -/

def hot (s : State) (stack : Nat) : Hot := Tbl.get {} stack s.mem.hot

/-- The running window has ended. -/
def windowOver (s : State) (h : Hot) : Bool := decide (h.windowFrom + 2 ^ h.window.1 ≤ s.now)

/-- More than half of the window's samples exceeded the threshold. -/
def hotBusy (h : Hot) : Bool := decide (h.window.2 ≠ 0) && decide (h.samples < 2 * h.hits)

/-- The channel that most samples named, the lowest among equals. -/
def busiest (t : Tbl Nat) : Nat := (t.foldl (fun a x => if a.2 < x.2 then x else a) (0, 0)).1

/-- A window ends: one HOTSPOT for a busy stack; the next window begins with the fields of MEM_CTRL (R294). -/
def closeWindow (s : State) (stack : Nat) : State :=
  let h := s.hot stack
  let s := if hotBusy h then
      s.event { code := 0x0E08, unit := unitEngine (48 + stack),
                own := own [(40, 1, stack), (41, 1, h.total / h.samples), (42, 1, busiest h.channels)] }
    else s
  s.modMem fun m => { m with hot := Tbl.set {} stack { h with
    windowFrom := s.now - (s.now - h.windowFrom) % 2 ^ h.window.1, window := (s.regs.hotWindow.toNat, s.regs.hotThresh.toNat),
    samples := 0, hits := 0, total := 0, channels := [] } m.hot }

/-- A sample of a stack's request queue: occupancy in per cent of its depth, and its busiest channel. -/
def hotSample (s : State) (stack occ ch : Nat) : State :=
  let s := if s.windowOver (s.hot stack) then s.closeWindow stack else s
  s.modMem fun m => { m with hot := Tbl.update {} stack (fun h => { h with
    samples := h.samples + 1, hits := if h.window.2 < occ then h.hits + 1 else h.hits, total := h.total + occ,
    channels := Tbl.update 0 ch (fun n => n + 1) h.channels, sampledAt := s.now }) m.hot }

/-! ### Retirements and fills (R301, R303) -/

/-- A retirement's copy has ended. -/
def retireDone (s : State) (j : MemJob) : State :=
  let u := s.retireUnit j.a j.b
  let stack := unitStack j.a u
  let s := s.modMem fun m => { m with retireJobs := m.retireJobs.drop 1, retired := m.retired ++ [(j.a, u)] }
  let s := (s.count (if j.a = 1 then Ctr.retiredPages stack else Ctr.retiredBanks stack)).complete j.job .ok
  s.event { code := 0x0E07, unit := unitEngine (48 + stack),
            own := own [(40, 1, j.a), (41, 1, stack), (44, 2, reserveOf j.a - s.retiredOn j.a stack), (48, 8, j.b)] }

/-- A fill's last block is written. -/
def fillDone (s : State) (j : MemJob) : State :=
  ((s.clearBlocks j.a j.b).modMem fun m => { m with fillJobs := m.fillJobs.drop 1 }).complete j.job .ok

/-! ### Rehash (R306, R172) -/

/-- What waits in merge buffers for the blocks of a range is written. -/
def flushMerges (s : State) (a n : Nat) : State :=
  let inRange (e : Merge) : Bool := decide (a ≤ e.block * 64) && decide (e.block * 64 < a + n)
  let es := s.mem.merge.flatMap fun (x : Nat × List Merge) => x.2.filter inRange
  let s := s.modMem fun m => { m with merge := Tbl.mapVals [] (fun (l : List Merge) => l.filter fun e => !inRange e) m.merge }
  s.each es mergeLeave

/-- Copy a range of stored bytes. -/
def copyBytes (m : Mem) (src dst n : Nat) : Mem :=
  let cells := m.hbm.filter fun x => decide (src ≤ x.1) && decide (x.1 < src + n)
  cells.foldl (fun m x => m.write (dst + (x.1 - src)) [x.2]) (m.clear dst n)

/-- Length in frames of the run of a page entry (8 * frame + stack). -/
def runOf (s : State) (v : Nat) : Nat := Tbl.get 0 (v % 8 * 2 ^ 32 + v / 8) s.mem.runs

/-- Frames that calls have been charged on each stack and have not taken on this one: charges, less the frames of the runs that page
entries name (R255). -/
def unspentFrames (s : State) (stack : Nat) : Nat :=
  let old := ((s.mem.oldRuns.filter fun v => v % 8 == stack).map s.runOf).sum
  (s.parts.map fun p => p.2.framesCharged).sum - (s.framesUsed stack - old)

/-- A stack has a run of `n` frames that a migration may take without a quota losing frames (R306). -/
def roomToMove (s : State) (stack n : Nat) : Option Nat :=
  if s.unspentFrames stack + n ≤ s.framesFree stack then s.findRun stack n else none

/-- A page of a group moves to the stack that the spread seed now gives it: its run is copied, its entry written, and the old run is
freed once no step has it latched (R163, R172). -/
def movePage (s : State) (c key : Nat) : Option State :=
  let v := Tbl.get 0 key (s.call c).pages
  let st := seedStack s.mem.spreadSeed c (key / 4096) (key % 4096)
  let n := s.runOf v
  if v = 0 ∨ v % 8 = st ∨ n = 0 then some s
  else (s.roomToMove st n).map fun f =>
    let s := s.flushMerges (pageAddr v) (n * frameBytes)
    let s := s.modMem fun m => { copyBytes m (pageAddr v) (pageAddr (8 * f + st)) (n * frameBytes) with
      runs := Tbl.set 0 (st * 2 ^ 32 + f) n m.runs, oldRuns := m.oldRuns ++ [v] }
    (s.modCall c fun e => { e with pages := Tbl.set 0 key (8 * f + st) e.pages }).watchFrames st

/-- Pages of a group move one after another; none when one of them finds no room. -/
def movePages (c : Nat) : List Nat → State → Option State
  | [], s => some s
  | k :: rest, s => (s.movePage c k).bind (movePages c rest)

/-- A page group of (call, layer) moves as one unit, or waits where it is (R306). -/
def moveGroup (s : State) (c layer g : Nat) : State :=
  match movePages c ((List.range 8).map fun j => layer * 4096 + 8 * g + j) s with
  | none => s
  | some t => t.modCall c fun e => { e with pageSeeds := Tbl.set 0 (layer * 512 + g) t.mem.spreadSeed e.pageSeeds }

/-- The page groups that calls hold: call, layer, group. -/
def pageGroups (s : State) : List (Nat × Nat × Nat) :=
  s.calls.flatMap fun (x : Nat × Entry) => distinct (x.2.pages.map fun p => (x.1, p.1 / 4096, p.1 % 4096 / 8))

/-- A migration gives the units of a region new placements: every stack is named, and the KV region (1), the weight region (2) or both. -/
def respreads (j : MemJob) (region : Nat) : Bool := decide (j.b % 256 = 255) && decide (j.a / region % 2 = 1)

/-- The units of the named region move (R306). -/
def migrate (s : State) (j : MemJob) : State :=
  let s := if respreads j 1 then (s.each s.pageGroups fun s x => s.moveGroup x.1 x.2.1 x.2.2).freeOld else s
  if respreads j 2 then s.modMem fun m => { m with slotSeed := m.spreadSeed } else s

/-- Every unit of the named region stands where the new seeds put it. -/
def migrated (s : State) (j : MemJob) : Bool :=
  !respreads j 1 || s.pageGroups.all fun x => s.groupSeed x.1 x.2.1 x.2.2 == s.mem.spreadSeed

/-- A migration has ended, and the next REHASH begins. -/
def rehashDone (s : State) (j : MemJob) (units : Nat) : State :=
  let s := (s.modMem fun m => { m with rehash := m.rehash.drop 1 }).count Ctr.rehashUnits units
  let s := (s.complete j.job .ok).event { code := 0x0E09, own := own [(40, 1, j.a), (41, 1, j.b), (44, 4, units)] }
  match s.mem.rehash with
  | [] => s
  | k :: _ => s.drawSeeds k.b

/-- The memories work: the stacks are filled past the control regions, and not in the self-refresh of D3. -/
def memUp (s : State) : Bool := s.awake && s.readyBit 5

end State

/-! ### The rows -/

def execBucketLeak (region : Nat) (s : State) : Result := (s.bucketLeak region).when "BUCKET_LEAK" (s.leakDue region)

/-- `flips`: the block as the eviction's read finds it; of no account where the entry is full. -/
def execMergeEvict (stack channel : Nat) (flips : Flips) (s : State) : Result :=
  match s.evictDue stack channel with
  | none => .fault (.outOfPlace "MERGE_EVICT")
  | some e => (s.mergeEvict stack channel e flips).when "MERGE_EVICT"
      (s.memUp && Instr.wf (.mergeEvict stack channel flips))

/-- HOT_SAMPLE: every 2^16 ticks while the monitor is on. -/
def execHotSample (stack occupancy channel : Nat) (s : State) : Result :=
  (s.hotSample stack occupancy channel).when "HOT_SAMPLE"
    (s.memUp && decide (stack < 8) && decide (channel < 32) && decide (occupancy ≤ 100) &&
     decide (s.regs.hotThresh ≠ 0 ∨ (s.hot stack).window.2 ≠ 0) && decide ((s.hot stack).sampledAt + 2 ^ 16 ≤ s.now))

def execHotspot (stack : Nat) (s : State) : Result :=
  (s.closeWindow stack).when "HOTSPOT" (s.memUp && decide (stack < 8) && s.windowOver (s.hot stack))

/-- HBM_RETIRED: the oldest retirement ends. -/
def execHbmRetired (s : State) : Result :=
  match s.mem.retireJobs with
  | [] => .fault (.outOfPlace "HBM_RETIRED")
  | j :: _ => (s.retireDone j).when "HBM_RETIRED" s.memUp

/-- FILL_DONE: the oldest fill ends. -/
def execFillDone (s : State) : Result :=
  match s.mem.fillJobs with
  | [] => .fault (.outOfPlace "FILL_DONE")
  | j :: _ => (s.fillDone j).when "FILL_DONE" s.memUp

/-- REHASH_DONE, with the number of page groups and slots that the migration moved: not while a group waits for room, and the slots
switch between two batches (R145, R306). -/
def execRehashDone (units : Nat) (s : State) : Result :=
  match s.mem.rehash with
  | [] => .fault (.outOfPlace "REHASH_DONE")
  | j :: _ => ((s.migrate j).rehashDone j units).when "REHASH_DONE"
      (s.memUp && (s.migrate j).migrated j && (s.batch.isNone || !State.respreads j 2))

end Sys2Proof.Machine
end

