-- ==== Sys2Proof/Machine/Relay.lean ====
section
/-! DEFINITION. What travels along a relay chain (13): activation vectors and running sums (R79, R146, R317), token returns (R21), call
control (R198, R213, R264, R317), cut control (R146, R148), acknowledgements of journals (R316), images (R139). -/

set_option Elab.async false

namespace Sys2Proof.Machine
namespace State

/-! ### Calls and steps that flits name -/

/-- A call of this chain by partition and tag; MIRROR entries belong to the partner's chain. -/
def ownCall (s : State) (p tag : Nat) : Option Nat := s.findCall p tag fun e => decide (e.state ≠ .mirror) && !e.ended

/-- A mirrored call of the partner's chain (R186). -/
def mirrorCall (s : State) (p tag : Nat) : Option Nat := s.findCall p tag fun e => decide (e.state = .mirror)

/-- A step that reaches this position is in flight here (R187). -/
def ensureStep (s : State) (c n epoch image : Nat) : State :=
  match s.step? c n with
  | some _ => s
  | none =>
    let e := s.call c
    let x := s.inferStep e n
    s.beginStep { call := c, step := n, kind := x.1.kind, tokens := x.1.tokens, first := x.2, premium := e.premium,
                  partition := e.partition, epoch := epoch, image := image, samples := x.1.samples, batch := s.batchNo }

/-- Marks that come with relay traffic reach the step and its call (R81, R92, R151). -/
def addMarks (s : State) (c n marks : Nat) : State :=
  let s := s.modStep c n fun x => { x with unbounded := x.unbounded || marks.testBit 0, tier := x.tier || marks.testBit 1 }
  if marks.testBit 2 then s.modCall c fun e => { e with nonfinite := true } else s

/-- Tokens of the call's last commit here, from its journaled records (R345). -/
def committedTokens (e : Entry) : List Nat :=
  e.lastRecords.filterMap fun r => match r.waiting.record with
    | .token t _ _ _ _ _ _ _ => some t
    | _ => none

/-- The last position has committed a step whose token return was lost with a reset: it returns the tokens again (R21, R347). -/
def returnAgain (s : State) (c n : Nat) : State :=
  let e := s.call c
  if s.isLast && !s.isFirst && n + 1 == e.step && (s.step? c n).isNone then
    s.send .u (relayChannel e.premium) (.tokenReturn e.partition e.tag n (committedTokens e) e.drafts 0)
  else s

/-- The call and position can take input of a step: the call lives here and the step has not committed. A step whose graft
generation is not resident ends its call (R208); a device that has resigned begins no step (R323). -/
def stepInput (s : State) (p tag n epoch image : Nat) (go : State → Nat → State) : State :=
  match s.ownCall p tag with
  | none => s
  | some c =>
    if n < (s.call c).step then s.returnAgain c n
    else if s.faults.resigned && (s.step? c n).isNone then s
    else if s.graftMissing c then s.endCall c .badGraft none
    else go (s.ensureStep c n epoch image) c

/-- New input wakes an attempt that was discarded; a chunk that waits for its restore stays as it is. -/
def wakeStep (s : State) (c n : Nat) : State :=
  if savedCall (s.call c) then s else s.modStep c n fun x => { x with discarded := false }

/-! ### ACTIVATION (R146, R317) -/

/-- One vector: input that comes again restarts the step (R317, R347). -/
def takeItem (s : State) (epoch image : Nat) (i : ActItem) : State :=
  s.stepInput i.p i.tag i.step epoch image fun s c =>
    let again := (s.step? c i.step).any fun (x : Step) => x.input.any fun y => y.token == i.token && y.matrix == i.matrix
    let s := if again then (s.restartStep c i.step false).modStep c i.step fun x => { x with input := [], inSums := [] } else s
    let s := (s.wakeStep c i.step).addMarks c i.step i.marks
    s.modStep c i.step fun x => { x with
      epoch := epoch, image := image, input := x.input ++ [i],
      tokens := x.tokens ++ List.replicate (i.token + 1 - x.tokens.length) 0 }

/-- A gradient vector of a tuning step comes upstream from the next position (R213 stage 3). -/
def takeBack (s : State) (i : ActItem) : State :=
  match s.ownCall i.p i.tag with
  | none => s
  | some c => if (s.call c).tune.isSome then s.modStep c i.step fun x => { x with backIn := x.backIn ++ [i] } else s

/-- The vectors of a flit: inputs of steps from port U, gradients of tuning steps from port D. -/
def activation (s : State) (port : Port) (epoch image : Nat) (items : List ActItem) : State :=
  if port = .u then ({ s with batchNo := s.batchNo + 1 }).each items fun s i => s.takeItem epoch image i
  else s.each items takeBack

/-! ### RUNNING_SUM (R79, R82) -/

def runningSum (s : State) (p tag n epoch image marks : Nat) (i : SumItem) : State :=
  s.stepInput p tag n epoch image fun s c =>
    let again := (s.step? c n).any fun (x : Step) =>
      x.inSums.any fun y => y.token == i.token && y.matrix == i.matrix && y.colTile == i.colTile
    let s := if again then (s.restartStep c n false).modStep c n fun x => { x with input := [], inSums := [] } else s
    let s := ((s.wakeStep c n).addMarks c n marks).modStep c n fun x => { x with epoch := epoch, image := image, inSums := x.inSums ++ [i] }
    s.sumReceived { work := { call := c, step := n, token := i.token }, matrix := i.matrix, colTile := i.colTile } i

/-! ### TOKEN_RETURN (R21, R187, R198) -/

/-- Position 0 has the step's tokens: books, then the end conditions in the order of R198. Where the last position ends the call with
NONFINITE, or neither a CANCEL nor the deadline comes first, the call waits for its report (marks bits 3 and 4). -/
def returnFirst (s : State) (c : Nat) (e' : Entry) (x : Step) (toks : List Nat) (marks : Nat) : State :=
  let s := (s.commitBooks (s.call c) x toks.length)
  let s := (s.putCall c e').stepGone c x.step
  if marks.testBit 4 then s
  else if e'.cancelled then s.endCall c .cancelled none
  else if s.overdue e' then s.endCall c .deadline none
  else if marks.testBit 3 then s
  else s.restState c

/-- A step commits on a position before the last (R187). -/
def stepReturned (s : State) (c : Nat) (x : Step) (toks drafts : List Nat) (marks : Nat) : State :=
  let e := s.call c
  if s.isFirst && (s.part e.partition).resetting then (s.endCall c .partitionReset none).settle
  else
    let s := s.addMarks c x.step marks
    let x := { x with unbounded := x.unbounded || marks.testBit 0, tier := x.tier || marks.testBit 1 }
    let e' := { s.committedEntry (s.call c) x toks with drafts := drafts, draftLive := drafts.length }
    if s.isFirst then s.returnFirst c e' x toks marks else ((s.putCall c e').stepGone c x.step).restState c

/-- The last token of an adopted call comes back (R285, R286): its next decode step can be issued. -/
def adoptedToken (s : State) (c : Nat) (toks : List Nat) : State :=
  s.modCall c fun e => { e with tokenDue := false, lastToken := toks.getLast?.getD e.lastToken, carried := toks.getLast? }

/-- A token return goes on upstream in the same flit and commits the step here (R21). -/
def tokenReturn (s : State) (channel p tag n : Nat) (toks drafts : List Nat) (marks : Nat) : State :=
  let s := if s.isFirst then s else s.send .u channel (.tokenReturn p tag n toks drafts marks)
  match s.ownCall p tag with
  | none => s
  | some c =>
    match s.step? c n with
    | some x => s.stepReturned c x toks drafts marks
    | none => if (s.call c).adopted && n + 1 == (s.call c).step then s.adoptedToken c toks else s

/-! ### CALL_CTRL -/

/-- The entry of a call on a later position (R183, R184): the fields that position 0 sent, and this position's own charge. -/
def remoteEntry (s : State) (b : Bytes) (tune : Option TuneParams) (h : Option Nat) : Entry :=
  let old := match h with
    | some c => s.call c
    | none => {}
  let o := Entry.ofBytes { old with
    cancelled := false, mask := none, cancels := [], nonfinite := false, seenUnbounded := false, seenTier := false, adopted := false,
    stepsDone := 0, emitted := false, issuedPrompt := 0, drafts := [], draftQ := [], pairs := [], draftOff := false, offSteps := 0,
    marks := [], tokenDue := false, ended := false, written := false, memFailed := none } b
  let len := (match h with
    | some c => heldTokens (s.call c)
    | none => 0) + o.promptLen + o.maxNew + o.draftDepth
  let charge := max old.charge (s.frameCharge o.kvFormat len)
  { o with
    state := .queued, unmirrored := o.premium && !(s.partnerThere && (h.isNone || !old.unmirrored)), admitTick := s.now,
    admitNo := s.nextOrder, draftPolicy := (s.regs.acceptMin.toNat, s.regs.reprobe.toNat), pageDir := old.pageDir, savePtr := 0,
    job := none, prompt := [], charge := charge, owed := charge - old.charge,
    matteState := ((s.matte? o.matteHandle).map (·.start)).getD 0,
    tune := tune.map fun t =>
      { handle := o.graftHandle, steps := t.steps, resultAddr := 0, resultLen := 0, examples := t.examples, reports := [], checked := true,
        stepsDone := 0, sections := [], params := t } }

/-- The last position's own tests of an admission: the matte, and a stop token beyond its LM head (R214, R218; log 172). -/
def lastRefuses (s : State) (e : Entry) : Option Status :=
  if !s.isLast then none
  else if (stopToken e.sampler).any fun t => s.lmHead.any fun m => decide (m.outputs ≤ t) then some .badSampler
  else if e.hasMatte && !s.matteUsable e.partition e.matteHandle then some .badMatte
  else none

/-- The last position ends a call that it refuses. -/
def lastTest (s : State) (c : Nat) : State :=
  match s.lastRefuses (s.call c) with
  | some st => s.endCall c st none
  | none => s

/-- A later position takes a call's entry; a TUNE's position reports its graft upstream (R213). -/
def remoteAdmit (s : State) (b : Bytes) (tune : Option TuneParams) (held : Option Nat) : State :=
  let p := (Entry.ofBytes {} b).partition
  let h := held.bind fun t => s.findCall p t fun e => decide (e.state = .held)
  let c := h.getD s.freeEntry
  let e := s.remoteEntry b tune h
  let s := if e.hasGraft then s.pinGraft e.graftHandle e.graftGen else s
  let s := (s.takeOrder.putCall c e).chargeWaiting p
  let s := if s.isLast then s else s.send .d 2 (.callCtrl (.admitCall b tune held))
  let s := s.lastTest c
  if tune.isNone || s.isFirst then s
  else
    let r := tuneReport s p e.graftHandle
    s.send .u 2 (.callCtrl (.tuneReport p e.tag r.1 r.2.1 r.2.2.1 r.2.2.2.1 r.2.2.2.2))

/-- A call has ended or been released elsewhere on the chain. -/
def remoteEnded (s : State) (port : Port) (p tag st : Nat) : State :=
  match s.ownCall p tag with
  | none => s.tellChain (some port) (.ended p tag st)
  | some c =>
    if (s.call c).state = .held then
      let e := s.call c
      ((s.journal e [.ended p tag st s.chainBroken]).tellChain (some port) (.ended p tag st)).releaseEntry c
    else (s.endCall c (statusOf st) (some port)).settle

/-- A CANCEL passes down the chain; the last position acts on it where the step waits for a mask (R198). -/
def remoteCancel (s : State) (p tag : Nat) : State :=
  let s := if s.isLast then s else s.send .d 2 (.callCtrl (.cancel p tag))
  match s.ownCall p tag with
  | none => s
  | some c =>
    let s := s.modCall c fun e => { e with cancelled := true }
    if s.isLast && decide ((s.call c).state = .running) && s.actsAtOnce c then s.endCall c .cancelled none else s

/-- Position 0 reports a deadline that has passed: the last position ends the call where its only step waits for a mask (R196). -/
def remoteOverdue (s : State) (p tag : Nat) : State :=
  let s := if s.isLast then s else s.send .d 2 (.callCtrl (.overdue p tag))
  match s.ownCall p tag with
  | none => s
  | some c => if s.isLast && decide ((s.call c).state = .running) && s.actsAtOnce c then s.endCall c .deadline none else s

/-- A restep discards the attempt at the step and any retake of it, and goes on downstream (R317). -/
def remoteRestep (s : State) (p tag n : Nat) : State :=
  let s := if s.isLast then s else s.send .d 2 (.callCtrl (.restep p tag n))
  match s.ownCall p tag with
  | none => s
  | some c => if n < (s.call c).step then s else s.restartStep c n true

/-- A later position has met an uncorrectable transient block: position 0 starts the step again (R298). -/
def memReported (s : State) (p tag n : Nat) : State :=
  if !s.isFirst then s.send .u 2 (.callCtrl (.restep p tag n))
  else match s.ownCall p tag with
  | none => s
  | some c => if (s.step? c n).isSome then s.memRestep c n else s

/-- What CALL_CTRL carries, from the port it came by. Reports and sections of a TUNE go up to position 0 (R213). -/
def callCtrl (s : State) (port : Port) : CallMsg → State
  | .admitCall b tune held => if port = .u then s.remoteAdmit b tune held else s
  | .ended p tag st => s.remoteEnded port p tag st
  | .cancel p tag => if port = .u then s.remoteCancel p tag else s
  | .overdue p tag => if port = .u then s.remoteOverdue p tag else s
  | .restep p tag n => if port = .u then s.remoteRestep p tag n else s.memReported p tag n
  | .tuneReport p tag pos rank entries len ok =>
    if !s.isFirst then s.send .u 2 (.callCtrl (.tuneReport p tag pos rank entries len ok))
    else match s.ownCall p tag with
      | none => s
      | some c => tuneCheck (s.modCall c fun e => { e with
          tune := e.tune.map fun t => { t with reports := t.reports ++ [(pos, rank, entries, len, ok)] } }) c
  | .tuneSection p tag pos body =>
    if !s.isFirst then s.send .u 2 (.callCtrl (.tuneSection p tag pos body))
    else match s.ownCall p tag with
      | none => s
      | some c => (s.modCall c fun e => { e with
          tune := e.tune.map fun t => { t with sections := t.sections ++ [(pos, body)] } }).tuneFinish c

/-! ### CUT_CTRL, JACK and IMAGE -/

/-- An epoch comes from upstream; reports go up to position 0 (R146, R148). -/
def cutCtrl (s : State) (port : Port) (m : CutMsg) : State :=
  match m with
  | .epoch e image => if port = .u then (s.openEpoch e image).settle else s
  | m => if port = .d then (s.report m).settle else s

/-- A JACK is kept at the last position and passed on by the others (R280, R316). -/
def jack (s : State) (p tag n pos : Nat) : State :=
  if !s.isLast then s.send .d 0 (.jack p tag n pos)
  else
    match s.liveGen with
    | none => s
    | some g => s.stepInput p tag n s.weights.epoch g.imageId fun s c =>
        s.modStep c n fun x => { x with jacks := distinct (x.jacks ++ [pos]) }

/-- CHUNK_REJECT (R139): sequence, position and status. -/
def chunkReject (s : State) (b : Bytes) (st : Status) : State :=
  s.event { code := 0x0501, image := (chunkHdr b).image,
            own := own [(40, 4, (chunkHdr b).seq), (44, 1, s.regs.chainPos.toNat), (45, 1, st.code)] }

/-- A manifest waits for its signature check; a chunk is taken or refused (R137, R139). -/
def imageIn (s : State) (port : Port) : ImageMsg → State
  | .manifest b => s.modSec fun x => { x with queue := x.queue ++ [.manifest b none] }
  | .chunk b =>
    let r := s.takeChunk b
    (if r.1 ≠ .ok ∧ port = .u then r.2.chunkReject b r.1 else r.2).settle

end State

/-! ### The rows -/

def execTokenReturn (hd : FlitHdr) (p tag step : Nat) (tokens drafts : List Nat) (marks : Nat) (s : State) : Result :=
  s.onFlit "TOKEN_RETURN" hd [.d] [1, 2] fun s => s.tokenReturn hd.channel.toNat p tag step tokens drafts marks

def execActivation (hd : FlitHdr) (epoch image : Nat) (items : List ActItem) (s : State) : Result :=
  s.onFlit "ACTIVATION" hd [.u, .d] [1, 2] fun s => s.activation hd.port epoch image items

def execRunningSum (hd : FlitHdr) (p tag step epoch image marks : Nat) (item : SumItem) (s : State) : Result :=
  s.onFlit "RUNNING_SUM" hd [.u] [1, 2] fun s => s.runningSum p tag step epoch image marks item

def execCallCtrl (hd : FlitHdr) (msg : CallMsg) (s : State) : Result :=
  s.onFlit "CALL_CTRL" hd [.u, .d] [2] fun s => s.callCtrl hd.port msg

def execCutCtrl (hd : FlitHdr) (msg : CutMsg) (s : State) : Result :=
  s.onFlit "CUT_CTRL" hd [.u, .d] [2] fun s => s.cutCtrl hd.port msg

def execJack (hd : FlitHdr) (p tag step pos : Nat) (s : State) : Result :=
  s.onFlit "JACK" hd [.u] [0] fun s => s.jack p tag step pos

def execImage (hd : FlitHdr) (msg : ImageMsg) (s : State) : Result :=
  s.onFlit "IMAGE" hd [.u, .d, .h] [3] fun s => s.imageIn hd.port msg

end Sys2Proof.Machine
end

