-- ==== Sys2Proof/Machine/Partner.lean ====
section
/-! DEFINITION. The partner (13): heartbeats and loss (R278, R281, R283), the premium journal (R279, R280), retakes (R282, R316 to R319),
fencing and adoption (R284 to R288), holds (R346, R372). -/

set_option Elab.async false

namespace Sys2Proof.Machine

/-- Bytes written over a run of others. -/
def patchBytes (a : Bytes) (off : Nat) (b : Bytes) : Bytes :=
  (List.range a.length).map fun i => if off ≤ i ∧ i < off + b.length then b.getD (i - off) 0 else a.getD i 0

/-- A tick of the sender in the receiver's ticks (R285); zero and the tick that never comes stand for themselves. -/
def translateTick (offset : Int) (t : Nat) : Nat := if t = 0 ∨ t = 2 ^ 64 - 1 then t else ((t : Int) + offset).toNat

namespace State

/-! ### Loss of the partner (R281, R283, R288, R346, R372) -/

/-- Own premium calls run on without a mirror (R288). -/
def unmirrorAll (s : State) : State :=
  s.each (s.callsWhere fun e => e.premium && decide (e.state ≠ .mirror) && !e.unmirrored && !e.ended) fun s c =>
    s.modCall c fun e => { e with unmirrored := true }

/-- Every own step that waits for the partner's acknowledgement may commit (R281). -/
def ackAll (s : State) : State :=
  { s with steps := s.steps.map fun (x : Step) => if x.premium then { x with acked := true } else x }

/-- The partner no longer answers: steps commit, calls become unmirrored. -/
def withoutPartner (s : State) : State := (s.ackAll.unmirrorAll).moveAll

/-- Retakes that are outstanding. -/
def retaking (s : State) : List (Nat × Nat) :=
  (s.steps.filter fun x => x.retake.any fun t => !t.applied).map fun x => (x.call, x.step)

/-- The partner is declared lost (R283): outstanding retakes are settled from the local result (R319). -/
def declareLost (s : State) : State :=
  let s := (s.modPartner fun p => { p with lost := true }).event { code := 0x0D07, own := own [(40, 8, s.partner.lastBeat)] }
  (s.each s.retaking fun s k => s.settleLocal k.1 k.2).withoutPartner

/-- Fencing starts (R284). -/
def fencePartner (s : State) : State :=
  ((s.modPins fun p => { p with fenceOut := true }).modPartner fun p => { p with fenced := true, fenceAt := some s.now }).event
    { code := 0x0D08, own := own [(40, 8, s.now)] }

/-- The tick from which the running miss is timed: the last heartbeat or miss, or the end of a hold. -/
def missFrom (s : State) : Nat := max s.partner.timer (s.partner.holdUntil.getD 0)

/-- The heartbeat timer expires (R278, R283). -/
def heartbeatMissed (s : State) : State :=
  let n := s.partner.misses + 1
  let s := (s.count Ctr.hbMisses).modPartner fun p => { p with misses := n, timer := s.now, holdUntil := none, warmHold := false }
  let mayFence := !s.pins.fenceIn
  let s := if n = 10 then s.declareLost else s
  if mayFence && decide ((n = 10 ∧ s.regs.side = false) ∨ (n = 20 ∧ s.regs.side = true)) then s.fencePartner else s

/-- A heartbeat (R278, R288). A hold of a warm reset lasts until heartbeats report SERVING again (R346). -/
def heartbeat (s : State) (tick : Nat) (st : HbState) : State :=
  if !s.regs.paired then s
  else
    let back := s.partner.lost
    let keep := s.partner.warmHold && decide (st = .hold)
    let s := s.modPartner fun p => { p with
      timer := s.now, misses := 0, lastBeat := s.now, offset := (s.now : Int) - (tick : Int) - 73, lost := false, fenced := false,
      holdUntil := if keep then p.holdUntil else none, warmHold := keep }
    if back then s.event { code := 0x0D0C } else s

/-- HB_HOLD (R275, R278, R346, R372). -/
def hbHold (s : State) (ticks : Nat) (warm sleep : Bool) : State :=
  let s := s.modPartner fun p => { p with holdUntil := some (s.now + ticks), warmHold := warm, sleeping := p.sleeping || sleep }
  if warm || sleep then s.withoutPartner else s

/-- A heartbeat is due: a paired device that has not resigned and is not isolated (R278, R323). -/
def beatDue (s : State) : Bool :=
  (s.running || s.starting) && s.regs.paired && !s.faults.resigned && (s.link .t).carries && decide (s.partner.sentAt + 31250 ≤ s.now)

def sendBeat (s : State) : State :=
  (s.modPartner fun p => { p with sentAt := s.now }).send .t 0
    (.heartbeat s.tick (if s.boot.phase = .warmStart then .hold else .serving))

/-! ### Journal records (R279, R280) -/

/-- KV length of a mirrored call: what its committed steps have appended (R167). -/
def mirrorLen (e : Entry) : Nat := e.prefilled + (e.generated - 1)

/-- An ENTRY record for a call that this device mirrors. -/
def patchMirror (s : State) (c off : Nat) (b : Bytes) : State :=
  let e := s.call c
  let n := Entry.ofBytes e (patchBytes e.bytes off b)
  let n := { n with
    state := .mirror, pageDir := e.pageDir, savePtr := 0, kvLen := mirrorLen n, emitted := decide (0 < n.generated),
    issuedPrompt := n.prefilled, marks := n.marks.filter fun m => decide (n.step ≤ m.1 + 1) }
  let s := { s with calls := Tbl.set {} c n s.calls }
  if n.hasGraft && !e.hasGraft then s.pinGraft n.graftHandle n.graftGen else s

/-- Put an entry at its place in the call sheet. -/
def setEntry (s : State) (c : Nat) (e : Entry) : State := { s with calls := Tbl.set {} c e s.calls }

/-- The first ENTRY record of a call makes its MIRROR entry where its frame charge fits (R183, R279). -/
def makeMirror (s : State) (p tag off : Nat) (b : Bytes) : State :=
  let e := Entry.ofBytes {} (patchBytes ({} : Entry).bytes off b)
  let charge := s.frameCharge e.kvFormat (e.promptLen + e.maxNew + e.draftDepth)
  if off = 0 ∧ 12 ≤ b.length ∧ e.state = .queued ∧ e.tag = tag ∧ e.partition = p ∧
      (s.part p).framesCharged + charge ≤ (s.part p).kvFrames.toNat then
    let c := s.freeEntry
    let s := s.modPart p fun x => { x with framesCharged := x.framesCharged + charge }
    let e := { e with
      state := .mirror, pageDir := 0, savePtr := 0, charge := charge, admitNo := s.nextOrder,
      matteState := ((s.matte? e.matteHandle).map (·.start)).getD 0 }
    let s := s.takeOrder.setEntry c e
    if e.hasGraft then s.pinGraft e.graftHandle e.graftGen else s
  else s

/-- One token's heads written into a call's page of a layer (Tables 08-2, 13-9). -/
def writeKv (s : State) (c layer page slot : Nat) (heads : List (Bytes × Bytes × Bytes × Bytes)) : State :=
  let fmt := (s.call c).kvFormat
  let h := heads.length
  let s := if (s.call c).page layer page = 0 then s.allocPage c layer page h else s
  let v := (s.call c).page layer page
  if v = 0 then s
  else
    let a := pageAddr v
    s.each heads.zipIdx fun s x =>
      let k := 64 * x.2 + slot
      let s := (s.wideWrite (a + sectionOff fmt h 0 + k * headBytes fmt) x.1.1).narrowWrite (a + sectionOff fmt h 1 + 4 * k) x.1.2.1
      (s.wideWrite (a + sectionOff fmt h 2 + k * headBytes fmt) x.1.2.2.1).narrowWrite (a + sectionOff fmt h 3 + 4 * k) x.1.2.2.2

/-- One journal record, written in order; a mark is acknowledged once everything before it is written (R280). -/
def takeRecord (s : State) : JournalRec → State
  | .entry p tag off b =>
    match s.mirrorCall p tag with
    | some c => s.patchMirror c off b
    | none => s.makeMirror p tag off b
  | .prompt p tag ts =>
    match s.mirrorCall p tag with
    | some c => { s with calls := Tbl.update {} c (fun e => { e with prompt := ts }) s.calls }
    | none => s
  | .kv p tag layer page slot heads =>
    match s.mirrorCall p tag with
    | some c => s.writeKv c layer page slot heads
    | none => s
  | .matte p tag st =>
    match s.mirrorCall p tag with
    | some c => { s with calls := Tbl.update {} c (fun e => { e with matteState := st }) s.calls }
    | none => s
  | .stepMark p tag n ts =>
    let s := match s.mirrorCall p tag with
      | some c => { s with calls := Tbl.update {} c (fun e => { e with marks := e.marks ++ [(n, ts)] }) s.calls }
      | none => s
    s.send .t 0 (.journalAck p tag n)
  | .ended p tag _ broken =>
    match s.mirrorCall p tag with
    | some c =>
      if broken then { s with calls := Tbl.update {} c (fun e => { e with brokenAt := some s.now }) s.calls } else s.releaseEntry c
    | none => s

/-- The partner holds a step's mark, and every mark before it (R280). -/
def journalAck (s : State) (p tag n : Nat) : State :=
  match s.ownCall p tag with
  | none => s
  | some c =>
    let s := { s with steps := s.steps.map fun (x : Step) => if x.call == c && x.marked && decide (x.step ≤ n) then { x with acked := true } else x }
    s.each ((s.stepsOf c).map fun x => x.step) fun s k => s.moveStep c k

/-! ### Retakes served for the partner (R282) -/

/-- The device can serve a retake: it mirrors the call and holds the generation; the draft tokens and masks that sampling needs
come with VERIFIED_STEP_DONE. -/
def serves (s : State) (q : RetakeReq) : Bool := (s.mirrorCall q.p q.tag).isSome && (s.gen? q.image).isSome

/-- RETAKE_REQ: the work starts in verified mode from the request's input, or is refused (R282). -/
def retakeReq (s : State) (q : RetakeReq) : State :=
  match s.mirrorCall q.p q.tag with
  | some c =>
    if (s.gen? q.image).isSome then
      (s.modPartner fun p => { p with serving := (p.serving.filter fun r => !(r.p == q.p && r.tag == q.tag && r.step == q.step)) ++ [q] }).each
        q.sums fun s i => s.sumReceived { work := { call := c, step := q.step, token := i.token }, matrix := i.matrix, colTile := i.colTile } i
    else (s.count Ctr.retakesRefused).send .t 1 (.retakeResp q.p q.tag q.step none)
  | none => (s.count Ctr.retakesRefused).send .t 1 (.retakeResp q.p q.tag q.step none)

/-- Layer matrices of a generation on this position. -/
def layerMatsOf (s : State) (image : Nat) : List Mat := ((s.gen? image).map s.matsOf).getD [] |>.filter fun m => m.kind == 0

/-- Attention records of the layers that a retake runs. -/
def servedLayers (s : State) (image : Nat) : List Attn :=
  match s.gen? image with
  | none => []
  | some g => (s.attnOf g).filter fun a => (s.layerMatsOf image).any fun m => m.layer == a.layer

/-- What the retake has appended to the MIRROR pages for one token and layer. -/
def servedAppend (s : State) (e : Entry) (a : Attn) (t : Nat) : JournalRec :=
  let v := pageAddr (e.page a.layer (t / 64))
  let h := a.kvHeads
  let hb := headBytes e.kvFormat
  .kv e.partition e.tag a.layer (t / 64) (t % 64) ((List.range h).map fun j =>
    let k := 64 * j + t % 64
    (s.readBytes (v + sectionOff e.kvFormat h 0 + k * hb) hb, s.readBytes (v + sectionOff e.kvFormat h 1 + 4 * k) 4,
     s.readBytes (v + sectionOff e.kvFormat h 2 + k * hb) hb, s.readBytes (v + sectionOff e.kvFormat h 3 + 4 * k) 4))

/-- Every matrix of the retake has handed off every token. -/
def servedDone (s : State) (c : Nat) (q : RetakeReq) : Bool :=
  let n := (s.servedStep c q).2.2
  (s.layerMatsOf q.image).all fun m => (List.range n).all fun t => (List.range m.colTiles).all fun j =>
    s.handoffs.any fun h => h.key == { work := { call := c, step := q.step, token := t }, matrix := m.id, colTile := j }

/-- Outgoing vectors of a retake. -/
def servedOutput (s : State) (c : Nat) (q : RetakeReq) (n : Nat) : List ActItem :=
  if s.isLast then []
  else ((s.layerMatsOf q.image).filter fun m => m.destKind == 4).flatMap fun m => (List.range n).filterMap fun t =>
    if m.rowFirst + m.rowTiles < m.allRowTiles then none
    else (s.wholeVector { call := c, step := q.step, token := t } m).map fun v =>
      { p := q.p, tag := q.tag, step := q.step, token := t, matrix := m.id, blocks := quantiseVector 127 v, premium := true, marks := 0 }

/-- Outgoing running sums of a retake. -/
def servedSums (s : State) (c : Nat) (q : RetakeReq) : List SumItem :=
  ((s.layerMatsOf q.image).filter fun m => decide (m.rowFirst + m.rowTiles < m.allRowTiles)).flatMap fun m =>
    (s.handoffs.filter fun h => h.key.work.call == c && h.key.work.step == q.step && h.key.matrix == m.id).map fun (h : Handoff) =>
      { token := h.key.work.token, matrix := m.id, colTile := h.key.colTile, retry := (h.exponent - m.exponent).toNat,
        records := h.accs.map (Acc.saveRecord h.exponent) }

/-- The tokens that the last position samples for a retake (R219, R223). -/
def servedTokens (s : State) (c : Nat) (q : RetakeReq) (n : NextStep) (drafts : List (Nat × List (Nat × F32))) (mask : Option Bytes) :
    List Nat :=
  if !s.isLast || !n.samples then []
  else
    let e := s.call c
    let kind := if drafts.isEmpty then n.kind else .verify drafts.length
    let x : Step := { call := c, step := q.step, kind := kind, tokens := if drafts.isEmpty then n.tokens else List.replicate (drafts.length + 1) 0,
                      first := 0, premium := true, partition := e.partition, epoch := 0, image := q.image, samples := true }
    let head := ((s.gen? q.image).map s.matsOf).getD [] |>.find? fun m => m.kind == 1
    let lg := match head with
      | none => []
      | some m => (samplingTokens x).zipIdx.filterMap fun t =>
          (s.wholeVector { call := c, step := q.step, token := t.1 } m).map fun v => (t.2, v)
    let vocab := (lg.head?.map fun l => l.2.length).getD 0
    if lg.any fun l => l.2.any fun v => !F32.isFinite v then []
    else (samplePositions e (s.matteOfCall e) mask vocab q.step lg 0 drafts
      { tokens := [], accepted := 0, ends := none, matteState := e.matteState }).tokens

/-- What a served retake leaves behind is dropped. -/
def dropServed (s : State) (c n : Nat) : State :=
  let mine (w : WorkRef) : Bool := w.call == c && w.step == n
  let ids := (s.prods.filter fun (p : Prod) => mine p.key.work && !p.summed).map fun (p : Prod) => p.id
  let s := { s with
    prods := (s.prods.filter fun (p : Prod) => !ids.contains p.id).map fun (p : Prod) => if mine p.key.work then orphan p else p }
  (s.forget mine).unqueue ids

/-- A served retake is done: its result goes to the requester (R282). -/
def retakeServed (s : State) (c : Nat) (q : RetakeReq) (drafts : List (Nat × List (Nat × F32))) (mask : Option Bytes) : State :=
  let x := s.servedStep c q
  let first := x.2.1
  let n := x.2.2
  let e := s.call c
  let r : RetakeResult := {
    appends := (s.servedLayers q.image).flatMap fun a => (List.range n).map fun i => s.servedAppend e a (first + i),
    output := s.servedOutput c q n, sums := s.servedSums c q, tokens := s.servedTokens c q x.1 drafts mask }
  let s := (s.dropServed c q.step).modPartner fun p => { p with serving := p.serving.erase q }
  (s.count Ctr.retakesServed).send .t 1 (.retakeResp q.p q.tag q.step (some r))

/-- The request that VERIFIED_STEP_DONE answers. -/
def servedNow (s : State) (p tag n : Nat) : Option (Nat × RetakeReq) :=
  match s.mirrorCall p tag, s.partner.serving.find? fun q => q.p == p && q.tag == tag && q.step == n with
  | some c, some q => some (c, q)
  | _, _ => none

/-! ### Retakes asked of the partner (R317 to R319) -/

/-- Codes in which two outputs differ, and their largest difference (R318). -/
def outputDiff (a b : List ActItem) : Nat × Nat :=
  let ds := a.flatMap fun x => match b.find? fun y => y.token == x.token && y.matrix == x.matrix with
    | none => []
    | some y => ((x.blocks.flatMap fun k => k.codes).zip (y.blocks.flatMap fun k => k.codes)).map fun z => (z.1 - z.2).natAbs
  ((ds.filter fun d => d != 0).length, ds.foldl max 0)

/-- Tokens in which two commits differ. -/
def tokenDiff (a b : List Nat) : Nat := ((a.zip b).filter fun x => x.1 != x.2).length + (max a.length b.length - min a.length b.length)

/-- A retake's result is applied (R318). -/
def applyRetake (s : State) (c : Nat) (x : Step) (t : RetakeSt) (r : RetakeResult) : State :=
  let s := s.each r.appends fun s a => match a with
    | .kv _ _ layer page slot heads => s.writeKv c layer page slot heads
    | _ => s
  let d := if s.isLast then (tokenDiff (((s.sampleStep x).map fun o => o.tokens).getD []) r.tokens, 0) else outputDiff x.output r.output
  let s := s.fault unitDevice { operation := 6, detector := 6, outcome := 7, call := some c, step := x.step, deviation := (d.1 : Int), columns := d.2 }
  let s := (s.count Ctr.retakeCommits).modDaily fun d => { d with retakes := d.retakes + 1 }
  let s := s.modStep c x.step fun y => { y with
    retake := some { t with applied := true }, retaken := true, output := r.output, outSums := r.sums,
    returned := if s.isLast then some r.tokens else none }
  (s.releaseOutput c x.step).moveStep c x.step

/-- RETAKE_RESP: applied, or settled from the local result on a refusal (R318, R319). -/
def retakeResp (s : State) (p tag n : Nat) (r : Option RetakeResult) : State :=
  match s.ownCall p tag with
  | none => s
  | some c =>
    match s.step? c n with
    | none => s
    | some x =>
      match x.retake, r with
      | some t, some r => if t.applied then s else s.applyRetake c x t r
      | some t, none => if t.applied then s else (s.settleLocal c n).moveStep c n
      | none, _ => s

/-- The retake of a step has had no response for 2^20 ticks (R282). -/
def retakeOverdue (s : State) (p tag n : Nat) : Option Nat :=
  match s.ownCall p tag with
  | none => none
  | some c =>
    if (s.step? c n).any fun (x : Step) => x.retake.any fun t => !t.applied && decide (t.sentAt + 2 ^ 20 ≤ s.now) then some c else none

/-! ### Adoption (R285 to R288) -/

/-- The tokens of the call's last committed step, as its mark carried them. -/
def adoptedTokens (e : Entry) : List Nat := ((e.marks.find? fun m => m.1 + 1 == e.step).map fun m => m.2).getD []

/-- The entry of an adopted call. -/
def adoptEntry (s : State) (e : Entry) : Entry :=
  let toks := adoptedTokens e
  let off := s.partner.offset
  { e with
    state := .ready, unmirrored := true, adopted := true, deadline := translateTick off e.deadline, due := translateTick off e.due,
    admitTick := translateTick off e.admitTick, issuedPrompt := e.prefilled, draftLive := 0, drafts := [], draftQ := [],
    lastToken := toks.getLast?.getD 0, carried := toks.getLast?, tokenDue := s.isFirst && !s.isLast && decide (0 < e.generated),
    brokenAt := none, marks := [], stepsDone := e.step,
    job := if s.isFirst then some { ring := .sq e.partition 0, pos := 0, tag := e.tag, opcode := 0x01, quiet := false, premium := true } else none }

/-- The last position writes the last journaled step's tokens again and returns them upstream (R286, R21). -/
def rewriteTokens (s : State) (e : Entry) : State :=
  let toks := adoptedTokens e
  let before := e.generated - toks.length
  let s := s.event { code := 0x0D0A, partition := some e.partition, call := e.tag, step := e.step - 1,
                     own := own [(40, 4, before), (44, 4, toks.length)] }
  let s := s.each toks.zipIdx fun s t => s.writeRecord (.tq e.partition)
    { record := .token t.1 e.tag false false false (decide (before = 0 ∧ t.2 = 0)) false true, premium := true, quiet := false, frees := none }
  if s.isFirst || decide (e.generated = 0) then s
  else s.send .u 1 (.tokenReturn e.partition e.tag (e.step - 1) toks [] 0)

/-- One MIRROR entry becomes READY (R285). -/
def adoptCall (s : State) (c : Nat) : State :=
  let e := s.call c
  let n := s.adoptEntry e
  let s := { s with calls := Tbl.set {} c n s.calls }
  let s := match n.job with
    | some j => s.start j
    | none => s
  if s.isLast then s.rewriteTokens e else s

/-- The device adopts: its own premium calls lose their mirrors, its MIRROR entries become calls of this chain (R285, R288). -/
def adopt (s : State) : State :=
  let s := s.unmirrorAll
  let s := s.modPartner fun p => { p with serving := [] }
  let cs := s.callsWhere fun e => decide (e.state = .mirror)
  let s := s.each cs fun s c => s.dropWork c
  let s := s.each cs adoptCall
  let s := (s.count Ctr.adoptedCalls cs.length).event { code := 0x0D09, own := own [(40, 4, cs.length)] }
  (if s.partnerThere then s.send .t 0 .mirrorDrop else s).moveAll

/-- The fence wait has ended: ADOPT goes both ways and the survivor adopts (R285). -/
def fenceEnds (s : State) : State :=
  let s := s.modPartner fun p => { p with fenceAt := none }
  let s := if s.isFirst then s else s.send .u 0 .adopt
  let s := if s.isLast then s else s.send .d 0 .adopt
  s.adopt

/-- ADOPT passes onward, then the device adopts (R285). -/
def adoptFrom (s : State) (port : Port) : State :=
  let s := if port = .d ∧ s.isFirst = false then s.send .u 0 .adopt else s
  let s := if port = .u ∧ s.isLast = false then s.send .d 0 .adopt else s
  s.adopt

/-- MIRROR entries held for the partner go without records (R288). -/
def mirrorDrop (s : State) : State :=
  s.each (s.callsWhere fun e => decide (e.state = .mirror)) fun s c => s.releaseEntry c

end State

/-! ### The rows -/

def execHeartbeat (hd : FlitHdr) (tick : BitVec 64) (st : HbState) (s : State) : Result :=
  s.onFlit "HEARTBEAT" hd [.t] [0] fun s => s.heartbeat tick.toNat st

def execHbHold (hd : FlitHdr) (ticks : Nat) (warm sleep : Bool) (s : State) : Result :=
  s.onFlit "HB_HOLD" hd [.t] [0] fun s => s.hbHold ticks warm sleep

def execHeartbeatSend (s : State) : Result := s.sendBeat.when "HEARTBEAT_SEND" s.beatDue

/-- A miss: not of a sleeping partner (R372), nor in a start whose ports have not trained (DESIGN CHOICE, log 188). -/
def execHeartbeatMiss (s : State) : Result :=
  s.heartbeatMissed.when "HEARTBEAT_MISS"
    ((s.running || (s.starting && s.stepDone? (if s.boot.phase = .warmStart then 5 else 8))) && s.regs.paired && !s.partner.sleeping &&
      !s.isolated && decide (s.power.dstate ≠ .d3) && decide (s.missFrom + 31250 ≤ s.now))

def execJournal (hd : FlitHdr) (recs : List JournalRec) (s : State) : Result :=
  s.onFlit "JOURNAL" hd [.t] [1] fun s => s.each recs State.takeRecord

def execJournalAck (hd : FlitHdr) (p tag step : Nat) (s : State) : Result :=
  s.onFlit "JOURNAL_ACK" hd [.t] [0] fun s => s.journalAck p tag step

/-- RETAKE_REQ; in D2 the flit waits for the wake (R369). -/
def execRetakeReq (hd : FlitHdr) (r : RetakeReq) (s : State) : Result :=
  if s.power.dstate = .d2 then .fault (.outOfPlace "RETAKE_REQ") else s.onFlit "RETAKE_REQ" hd [.t] [1] fun s => s.retakeReq r

def execVerifiedStepDone (p tag step : Nat) (drafts : List (Nat × List (Nat × F32))) (mask : Option Bytes) (s : State) : Result :=
  match s.servedNow p tag step with
  | none => .fault (.outOfPlace "VERIFIED_STEP_DONE")
  | some (c, q) => (s.retakeServed c q drafts mask).when "VERIFIED_STEP_DONE" (s.servedDone c q)

def execRetakeResp (hd : FlitHdr) (p tag step : Nat) (r : Option RetakeResult) (s : State) : Result :=
  s.onFlit "RETAKE_RESP" hd [.t] [1] fun s => s.retakeResp p tag step r

def execRetakeTimeout (p tag step : Nat) (s : State) : Result :=
  match s.retakeOverdue p tag step with
  | none => .fault (.outOfPlace "RETAKE_TIMEOUT")
  | some c => .next ((s.settleLocal c step).moveStep c step)

def execMirrorDrop (hd : FlitHdr) (s : State) : Result := s.onFlit "MIRROR_DROP" hd [.t] [0] State.mirrorDrop

def execAdopt (hd : FlitHdr) (s : State) : Result := s.onFlit "ADOPT" hd [.u, .d] [0] fun s => s.adoptFrom hd.port

def execFenceWaitEnd (s : State) : Result :=
  match s.partner.fenceAt with
  | none => .fault (.outOfPlace "FENCE_WAIT_END")
  | some t => s.fenceEnds.when "FENCE_WAIT_END" (decide (t + 2048 ≤ s.now))

/-- A MIRROR entry whose END came across a broken chain is freed after 2^28 ticks (R287). -/
def execMirrorKeepExpiry (call : Nat) (s : State) : Result :=
  match (s.call call).brokenAt with
  | none => .fault (.outOfPlace "MIRROR_KEEP_EXPIRY")
  | some t => (s.releaseEntry call).when "MIRROR_KEEP_EXPIRY"
      (decide ((s.call call).state = .mirror) && decide (t + 2 ^ 28 ≤ s.now))

end Sys2Proof.Machine
end

