-- ==== Sys2Proof/Machine/Ports.lean ====
section
/-! DEFINITION. The ports as links (13): acknowledgements and replay (R268, R269), lanes and degrading (R271 to R273), training (R274,
R275), chain position and pairing (R276, R277, R347), chain breaks (R287). -/

set_option Elab.async false

namespace Sys2Proof.Machine

/-! ### Lanes (R273) -/

/-- Lanes of a port (Table 13-6). -/
def lanesOf : Port → Nat
  | .h => 8
  | _ => 16

/-- An aligned group of lanes holds no weak lane. -/
def groupGood (weak : BitVec 16) (w g : Nat) : Bool := (List.range w).all fun i => !weak.getLsbD (g * w + i)

/-- The widest power-of-two width, not above a limit, with a good aligned group, and the lowest-numbered such group. -/
def bestGroup (lanes limit : Nat) (weak : BitVec 16) : Option (Nat × Nat) :=
  ((([16, 8, 4, 2, 1].filter fun w => decide (w ≤ min lanes limit)).flatMap fun w =>
    (List.range (lanes / w)).map fun g => (w, g))).find? fun x => groupGood weak x.1 x.2

/-- A width and group that a port can take. -/
def groupValid (lanes w g : Nat) : Bool := [1, 2, 4, 8, 16].contains w && decide ((g + 1) * w ≤ lanes)

/-- A lane belongs to the active group. -/
def Link.laneActive (l : Link) (lane : Nat) : Bool := decide (0 < l.width) && decide (lane / l.width = l.group)

/-! ### Wire units (R266, R268) -/

/-- CRC-16 over bytes, polynomial x^16 + x^12 + x^5 + 1, bits taken least significant first (Table 13-2). -/
def crc16 (bs : Bytes) : Nat :=
  bs.foldl (fun c b => (List.range 8).foldl (fun c _ => if c % 2 = 1 then (c / 2) ^^^ 0x8408 else c / 2) (c ^^^ b.toNat)) 0xFFFF

/-- Ones of a number, over `n` bits. -/
def onesOf (v n : Nat) : Nat := ((List.range n).filter fun i => v.testBit i).length

def wireCrcGood (w : Bytes) : Bool := Bits.le w 260 2 == crc16 (w.take 260)

/-- Every word of the flit and its parity bit hold an even number of ones. -/
def wireParityGood (w : Bytes) : Bool :=
  (List.range 32).all fun k =>
    (onesOf (Bits.le w (8 * k) 8) 64 + (if (Bits.le w 256 4).testBit k then 1 else 0)) % 2 == 0

/-- The flit types of Table 13-5. -/
def flitType (t : Nat) : Bool :=
  (decide (1 ≤ t) && decide (t ≤ 4)) || (decide (0x10 ≤ t) && decide (t ≤ 0x17)) || (decide (0x20 ≤ t) && decide (t ≤ 0x27)) ||
  (decide (0x30 ≤ t) && decide (t ≤ 0x36))

/-- Type 0 counts as a failed CRC (Table 13-3). -/
def wireCrcFails (w : Bytes) : Bool := !wireCrcGood w || Bits.byteAt w 0 == 0

def wireSeq (w : Bytes) : Nat := Bits.le w 2 2 % 4096

/-- The wire unit itself is at fault, whatever its number. -/
def wireBad (w : Bytes) : Bool := wireCrcFails w || !wireParityGood w || !flitType (Bits.byteAt w 0)

namespace State

/-! ### Discards and replay -/

/-- A discarded flit (R268): counted, and answered by NAK unless its port already discards behind an earlier NAK. -/
def flitDiscard (s : State) (p : Port) (w : Bytes) : State :=
  let l := s.link p
  let s := if wireCrcFails w then s.count (Ctr.crcErr (portNo p))
    else if !wireParityGood w then s.count (Ctr.parityErr (portNo p)) else s
  let s := s.modLink p fun l => { l with discarding := true }
  if !l.discarding || wireBad w then s.send p 0 (.nak l.rxSeq) else s

/-- A NAK (R269, R271): the oldest flit has failed once more if it is the one named, and everything held from it is resent. -/
def nak (s : State) (p : Port) (n : BitVec 12) : State :=
  let l := s.link p
  let s := if (l.replay.head?.map fun x => x.seq) = some n then s.modLink p fun l => { l with fails := l.fails + 1 } else s
  if l.replay.any fun x => x.seq == n then s.replayFrom p n else s

/-- Resend every flit that is not acknowledged (R273 step 3, R274). -/
def replayHeld (s : State) (p : Port) : State :=
  match (s.link p).replay with
  | [] => s
  | x :: _ => s.replayFrom p x.seq

/-! ### Width -/

/-- The port takes a narrower group: PORT_DEGRADE, counted. -/
def takeGroup (s : State) (p : Port) (w g : Nat) : State :=
  let before := (s.link p).width
  let s := (s.modLink p fun l => { l with width := w, group := g, state := .degraded }).count (Ctr.laneDegrades (portNo p))
  s.event { code := 0x0D01, own := own [(40, 1, portNo p), (41, 1, before), (42, 1, w), (44, 2, (s.link p).weak.toNat)] }

/-- PORT_DOWN: the port stays down until training starts (Table 13-8). -/
def portFalls (s : State) (p : Port) : State := (s.portLost p).event { code := 0x0D02, own := own [(40, 1, portNo p)] }

/-- Degrade around the weak lanes of the active group (R273). -/
def degradePort (s : State) (p : Port) : State :=
  match bestGroup (lanesOf p) (s.link p).width (s.link p).weak with
  | none => s.portFalls p
  | some x => (s.takeGroup p x.1 x.2).send p 0 (.degrade x.1 x.2)

/-- A DEGRADE flit (R273): a group beyond the current one is taken and answered; both ends then resend what is not acknowledged.
A port never widens by itself. -/
def degradeFlit (s : State) (p : Port) (w g : Nat) : State :=
  let l := s.link p
  if !groupValid (lanesOf p) w g then s
  else if w == l.width && g == l.group then s.replayHeld p
  else if w < l.width || (w == l.width && l.group < g) then ((s.takeGroup p w g).replayHeld p).send p 0 (.degrade w g)
  else s.send p 0 (.degrade l.width l.group)

/-- A lane is weak (R273). -/
def laneWeak (s : State) (p : Port) (lane : Nat) : State :=
  let active := (s.link p).laneActive lane
  let s := s.modLink p fun l => { l with weak := l.weak ||| (1#16 <<< lane) }
  if active then s.degradePort p else s

/-- One flit has failed REPLAY_MAX times (R271): no lane of the active group is weak, so the port retrains. -/
def replayMaxed (s : State) (p : Port) : State :=
  let s := s.modLink p fun l => { l with fails := 0 }
  let l := s.link p
  if (List.range l.width).any fun i => l.weak.getLsbD (l.group * l.width + i) then s.degradePort p
  else
    let s := if p = .t then s.sendHold (2 ^ 24) false false else s
    (s.trainPort p).count (Ctr.portRetrains (portNo p))

/-! ### Chain position and pairing (R276, R277) -/

/-- This device's DISCOVER on a port. -/
def announce (s : State) (p : Port) : State :=
  s.send p 0 (.discover s.regs.chainPos.toNat (if s.regs.side then 1 else 0) s.regs.posnV.toNat false)

/-- Compare with what the partner has said: paired at the same position and different twin sides (R277); a partner that has slept is
paired again (R372). -/
def judgePartner (s : State) : State :=
  match s.partner.said with
  | none => s
  | some (pos, side) =>
    if !s.boot.posKnown then s
    else if pos == s.regs.chainPos.toNat && decide (side ≠ if s.regs.side then 1 else 0) then
      (if s.regs.paired && !s.partner.sleeping then s
       else (s.modRegs fun r => { r with paired := true }).modPartner fun x => { x with
         absent := false, misses := 0, timer := s.now, sentAt := s.now, sleeping := false })
    else
      ((s.modRegs fun r => { r with paired := false }).modPartner fun x => { x with absent := true }).event
        { code := 0x0D05, own := own [(40, 1, pos), (41, 1, side)] }

/-- The position is learned (R276): checked against POSN, announced, and the partner judged. A place beyond 15, which LMRTL has no
bits for, is held as 15 (DESIGN CHOICE, log 186). -/
def learnPosition (s : State) (n : Nat) : State :=
  if s.boot.posKnown then s
  else
    let bad := decide (15 < n) || decide (n % 8 ≠ s.regs.posnV.toNat % 8)
    let s := (s.modRegs fun r => { r with chainPos := BitVec.ofNat 4 (min n 15) }).modBoot fun b => { b with posKnown := true }
    let s := if bad then
        (s.each [.u, .d] fun s p => s.modLink p fun l => { l with miscabled := true }).event
          { code := 0x0D04, own := own [(40, 1, n), (41, 1, s.regs.posnV.toNat)] }
      else s
    let s := s.each ([.t, .d, .u].filter fun p => (s.link p).carries) announce
    s.judgePartner.linkStep

/-- Position 0 discards a resumed neighbour's steps on every position and issues each again from its start (R347). -/
def restepChain (s : State) : State :=
  let xs := s.steps.filter fun x => x.drafting.isNone
  s.each xs fun s x =>
    let e := s.call x.call
    let s := (s.restartStep x.call x.step false).count Ctr.resumeResteps
    if s.isLast then s else s.send .d 2 (.callCtrl (.restep e.partition e.tag x.step))

/-- A neighbour has resumed (R347): downstream of it steps wait for new input, upstream of it the report goes to position 0. -/
def neighbourResumed (s : State) (p : Port) (body : FlitBody) : State :=
  if p = .u then
    let s := s.each (s.steps.filter fun x => x.drafting.isNone) fun s x => s.restartStep x.call x.step true
    if s.isLast then s else s.send .d 0 body
  else if p = .d then (if s.isFirst then s.restepChain.settle else s.send .u 0 body)
  else s

/-- DISCOVER (R276, R277, R347). -/
def discover (s : State) (p : Port) (pos side posn : Nat) (resumed : Bool) : State :=
  if resumed then s.neighbourResumed p (.discover pos side posn true)
  else if p = .u then s.learnPosition (pos + 1)
  else if p = .t then (s.modPartner fun x => { x with said := some (pos, side) }).judgePartner
  else s

/-! ### Training (R274, R275) -/

/-- What a port that came up starts: bring-up's fetches (R338), the reading of doorbells (R275), DISCOVER (R276). -/
def portServes (s : State) (p : Port) : State :=
  let fetching := s.coldStep 3 4
  let s := if decide (p = .h) && s.running then s.emit .readDoorbells else s
  let s := if decide (p = .h) && decide (s.regs.boot = 1) && fetching then s.modBoot fun b => { b with fetchFrom := s.now } else s
  let s := if decide (p = .t) && decide (s.regs.boot = 2) && fetching then s.send .t 3 .bootRequest else s
  if s.boot.posKnown && decide (p ≠ .h) then s.announce p else s

/-- A training has ended with good lanes (Table 13-8): PORT_UP, the port's RESET descriptors complete, held flits are resent. -/
def portTrained (s : State) (p : Port) (good : BitVec 16) (w g : Nat) : State :=
  let jobs := (s.link p).resetJobs
  let s := s.modLink p fun l => { l with
    state := if w = lanesOf p then .up else .degraded, width := w, group := g, weak := ~~~good, downSince := none, broken := false,
    present := true, resetJobs := [] }
  let s := s.event { code := 0x0D03, own := own [(40, 1, portNo p), (41, 1, w)] }
  let s := ((s.completeAll jobs .ok).replayHeld p).pumpAll p
  (s.portServes p).linkStep

/-- A training has ended without a far end (R276, R277). -/
def trainingFails (s : State) (p : Port) : State :=
  let s := s.portFalls p
  let s := if p = .u then s.learnPosition 0 else s
  let s := if decide (p = .t) && !s.regs.paired then
      (s.modPartner fun x => { x with absent := true }).event { code := 0x0D06 } else s
  s.linkStep

/-- Ports U and D that have been DOWN for 2^18 ticks raise CHAIN_BREAK once (R287); the ends of the chain have no neighbour
there. -/
def breakDue (s : State) (p : Port) : Bool :=
  let l := s.link p
  (decide (p = .u) || decide (p = .d)) && l.present && decide (l.state = .down) && !l.broken &&
  (match l.downSince with
   | some t => decide (t + 2 ^ 18 ≤ s.now)
   | none => false)

def chainBreak (s : State) (p : Port) : State :=
  (s.modLink p fun l => { l with broken := true }).event { code := 0x0D0B, own := own [(40, 1, portNo p)] }

end State

/-! ### The rows -/

/-- An ACK needs no acknowledgement of its own (R269). -/
def execAck (hd : FlitHdr) (s : State) : Result := (s.acceptFlit hd).when "ACK" (s.accepts hd && decide (hd.channel = 0))

def execNak (hd : FlitHdr) (expected : BitVec 12) (s : State) : Result :=
  s.onFlit "NAK" hd [.h, .t, .u, .d] [0] fun s => s.nak hd.port expected

/-- A wire unit that fails R268's tests on a port that carries flits. -/
def execFlitDiscard (port : Port) (wire : Bytes) (s : State) : Result :=
  (s.flitDiscard port wire).when "FLIT_DISCARD" (s.awake && (s.link port).carries && wire.length == 262 &&
    (wireBad wire || decide (wireSeq wire ≠ (s.link port).rxSeq.toNat)))

def execDegrade (hd : FlitHdr) (width group : Nat) (s : State) : Result :=
  s.onFlit "DEGRADE" hd [.h, .t, .u, .d] [0] fun s => s.degradeFlit hd.port width group

def execDiscover (hd : FlitHdr) (pos side posn : Nat) (resumed : Bool) (s : State) : Result :=
  s.onFlit "DISCOVER" hd [.u, .d, .t] [0] fun s => s.discover hd.port pos side posn resumed

def execChainBreak (port : Port) (s : State) : Result := (s.chainBreak port).when "CHAIN_BREAK" (s.breakDue port)

/-- PORT_TRAINED: the mask of the lanes that locked. A port that is DOWN trains when its far end appears. -/
def execPortTrained (port : Port) (lanes : BitVec 16) (s : State) : Result :=
  match bestGroup (lanesOf port) (lanesOf port) (~~~lanes) with
  | none => .fault (.outOfPlace "PORT_TRAINED")
  | some x => (s.portTrained port lanes x.1 x.2).when "PORT_TRAINED"
      (s.awake && (decide ((s.link port).state = .training) || decide ((s.link port).state = .down)))

/-- LANE_WEAK: loss of FEC lock, or a window's count above a nonzero LANE_ERR_MAX. -/
def execLaneWeak (port : Port) (lane : Nat) (lost : Bool) (symbols : Nat) (s : State) : Result :=
  (s.laneWeak port lane).when "LANE_WEAK" (s.awake && (s.link port).carries && decide (lane < lanesOf port) &&
    (lost || (decide (s.regs.laneErrMax ≠ 0) && decide (s.regs.laneErrMax.toNat < symbols))))

def execReplayMax (port : Port) (s : State) : Result :=
  (s.replayMaxed port).when "REPLAY_MAX" (s.awake && (s.link port).carries && decide (s.regs.replayMax.toNat ≤ (s.link port).fails))

def execPortDown (port : Port) (s : State) : Result :=
  (s.trainingFails port).when "PORT_DOWN" (s.awake && decide ((s.link port).state = .training))

end Sys2Proof.Machine
end

