-- ==== Sys2Proof/Machine/Power.lean ====
section
/-! DEFINITION. Power (17): D1, bough switches, the power account, levels, the steps of an entry to D2 or D3 and of a wake. -/

set_option Elab.async false

namespace Sys2Proof.Machine
namespace State

/-! ### D1 and bough switches (R356, R366) -/

/-- No tile is active, no product and no program step waits, and no work waits for the engines. -/
def nothingToGrant (s : State) : Bool :=
  s.attnWaits.isEmpty && s.tiles.all fun x => decide (x.2.active = .idle) && x.2.queue.isEmpty && x.2.jobs.isEmpty

/-- The pacer has had nothing to grant for IDLE_D1 ticks. -/
def d1Due (s : State) : Bool :=
  s.running && s.powerOpen && decide (s.power.dstate = .d0) && decide (s.power.policy.idleD1 ≠ 0) && s.nothingToGrant &&
  decide (s.power.idleSince + s.power.policy.idleD1.toNat ≤ s.now)

/-- Open the switches of the boughs that pass a test. -/
def openSwitches (s : State) (ok : Nat → Bool) : State :=
  s.each ((List.range 128).filter ok) fun s b => s.modBough b fun x => { x with switch := .opened }

def d1Entry (s : State) : State :=
  (((s.modPower fun p => { p with dstate := .d1 }).openSwitches fun _ => true)).count Ctr.d1Entries

/-- A bough's switch may open: nothing granted to it for 2^10 ticks. -/
def switchIdle (s : State) (b : Nat) : Bool :=
  decide (b < 128) && decide ((s.bough b).switch = .closed) && decide ((s.bough b).lastGrant + 2 ^ 10 ≤ s.now) &&
  s.tiles.all fun x => x.1 / 64 != b || decide (x.2.active = .idle)

/-- A closing switch reports ready: the waiting work runs. -/
def switchReady (s : State) (b : Nat) : State :=
  (s.modBough b fun x => { x with switch := .closed, waiting := [] }).tilesNext fun t => t / 64 == b

/-! ### The power account (R358, R361, R362) -/

/-- The cap of the account in nanojoules; with no excursion allowed, one window at PWR_LIMIT. -/
def accountCap (s : State) : Int :=
  let x := s.power.policy
  max (((x.pwrPeak.toNat - x.pwrLimit.toNat) * x.pwrBurst.toNat * 10 ^ 6 : Nat) : Int) ((x.pwrLimit.toNat * 16384 / 10 : Nat) : Int)

/-- The fields of Table 17-4 act from the window that begins (R358). -/
def latchPower (s : State) : State :=
  s.modPower fun p => { p with policy := {
    levelReq := s.regs.levelReq, throttleT := s.regs.throttleT, idleD1 := s.regs.idleD1,
    pwrLimit := s.regs.pwrLimit, pwrPeak := s.regs.pwrPeak, pwrBurst := s.regs.pwrBurst } }

/-- A pacer window ends and the next begins: the account is credited, capped, and bears the fixed charge. -/
def pacerWindow (s : State) : State :=
  let s := s.latchPower
  let credit : Int := ((s.power.policy.pwrLimit.toNat * 16384 / 10 : Nat) : Int)
  let s := s.modPower fun p => { p with
    account := min s.accountCap (p.account + credit) - s.chargeOf 3, charged := s.chargeOf 3, windowAt := p.windowAt + 256 }
  (s.startLevel.tilesNext fun _ => true).attnRetry

/-- The scale moves toward measured over charged energy by at most 1/64 (R362). -/
def energyScale (s : State) (charged measured : Nat) : State :=
  s.modPower fun p => { p with
    scale := if charged = 0 then p.scale else (toward 1024 (p.scale : Int) ((65536 * measured / charged : Nat) : Int)).toNat,
    scaledAt := s.now, energy := p.energy + measured }

/-! ### Levels (R359, R363) -/

/-- VCORE has settled within 10 mV of the step's target. -/
def settledAt (t mv : Nat) : Bool := decide (levelMv t ≤ mv + 10) && decide (mv ≤ levelMv t + 10)

/-- A level step ends; the next starts where the wanted level is further away. -/
def levelSettled (s : State) (t : Nat) : State :=
  let s := s.modRegs fun r => { r with level := BitVec.ofNat 3 t, setBy := BitVec.ofNat 2 s.levelSetBy }
  ((s.modPower fun p => { p with pacerLevel := t, stepTo := none }).count Ctr.levelChanges).startLevel

/-- A level step is abandoned: REG_ALERT with the regulator's STATUS_WORD, which is a free value, and the slower level as the
regulator floor. -/
def levelTimeout (s : State) (t : Nat) : State :=
  let l := s.regs.level.toNat
  let word := (Config.freeWord s.free).toNat % 2 ^ 16
  ((s.draw.modPower fun p => { p with stepTo := none, pacerLevel := l }).regAlert 0x40 0 word).setRegFloor (max l t)

/-- The regulator floor returns one level (R363). -/
def floorReturns (s : State) : State := (s.modPower fun p => { p with regFloor := p.regFloor - 1, warnAt := s.now }).startLevel

/-! ### Entry (R367, R368, Table 17-7) -/

/-- A step of an entry can end: the first ends once what has started is over (R331). -/
def entryStepReady (s : State) (e : EntrySt) : Bool :=
  e.step != 1 || s.tiles.all fun x => decide (x.2.active = .idle)

/-- Deck ages are recorded (R24). -/
def recordAges (s : State) : State :=
  { s with tiles := Tbl.mapVals {} (fun t => { t with
      decks := Tbl.mapVals {} (fun k => { k with recAge := s.ageOf k, ageFrom := s.now }) t.decks }) s.tiles }

/-- Step E2: the calibration save area; D3 records deck ages. What else D3 saves keeps its place in the state. -/
def entrySaves (s : State) (e : EntrySt) : State :=
  let s := if e.before = .d2 then s else s.each (List.range 128) saveCal
  if e.target = .d3 then s.recordAges else s

/-- READY after an entry (R371): the bits of functions that go off are cleared. -/
def readyAfter (t : DState) (r : BitVec 11) : BitVec 11 := if t = .d3 then r &&& 0b01000000001#11 else r &&& 0b11101111111#11

/-- AP4 is passed: the completion with OK is written. -/
def entryPasses (s : State) (e : EntrySt) : State :=
  let s := s.openSwitches fun _ => true
  let s := (s.complete e.job .ok).count (if e.target = .d3 then Ctr.d3Entries else Ctr.d2Entries)
  s.powerEvent e.before e.target

/-- Step E5 for D3: the partner is told, MIRROR entries are freed, the ports lose their supply. -/
def entrySleeps (s : State) : State :=
  let s := s.sendHold 0 false true
  (s.each (s.callsWhere fun e => decide (e.state = .mirror)) releaseEntry).portsDown

/-- Step E5: references and rails go off. A wake event that has come since AP4 now starts a full wake. -/
def entryEnds (s : State) (e : EntrySt) : State :=
  let s := if e.target = .d3 then s.entrySleeps else s
  let s := { s with boughs := Tbl.mapVals {} (fun (b : Bough) => { b with ref := .cold }) s.boughs }
  let off := (railsFor e.target).filter fun a => !s.power.railsOff.contains a
  let s := s.each off fun s a => s.each (railPages a) fun s p => s.emit (.rail a p 0)
  let s := s.modPower fun p => { p with dstate := e.target, entry := none, railsOff := p.railsOff ++ off }
  let s := s.modRegs fun r => { r with ready := readyAfter e.target r.ready }
  if e.abort then s.startWake none else s

/-- A step of the entry ends; at an abort point a wake event abandons the entry. -/
def entryStep (s : State) (e : EntrySt) : State :=
  if e.step = 5 then s.entryEnds e
  else if e.abort then s.abandonEntry e
  else
    let s := match e.step with
      | 2 => s.entrySaves e
      | 4 => s.entryPasses e
      | _ => s
    s.modPower fun p => { p with entry := some { e with step := e.step + 1 } }

/-! ### Wakes (R369 to R371, Table 17-8) -/

/-- The event wakes the device from a state (R369). -/
def wakes (s : State) (t : DState) : WakeEvent → Bool
  | .doorbell p => decide (t = .d2) && decide (p < 32) && (s.part p).enabled
  | .signal _ => decide (t = .d3)
  | _ => decide (t = .d2)

/-- The event can come now: in D2 or D3, or while an entry to one runs. -/
def wakeDue (s : State) (e : WakeEvent) : Bool :=
  s.awake &&
  (match s.power.entry with
   | some x => s.wakes (if x.step = 5 then x.target else .d2) e
   | none => (decide (s.power.dstate = .d2) || decide (s.power.dstate = .d3)) && s.wakes s.power.dstate e)

/-- A wake event: an entry is abandoned at its next abort point or followed by a wake; a wake that runs serves it too. -/
def wakeEvent (s : State) : State :=
  match s.power.entry with
  | some x => s.modPower fun p => { p with entry := some { x with abort := true } }
  | none => if s.power.wake.isSome then s else s.startWake none

/-- The logic phase of a wake from D3 runs the steps W2 to W8 of a warm start (R371). -/
def wakeStarts (s : State) : State :=
  let s := s.modBoot fun b => { b with phase := .warmStart, done := 2, failedStep := none }
  let s := { s with boughs := Tbl.mapVals {} (fun (b : Bough) => { b with runOn := false, runPending := false, runDone := false }) s.boughs }
  let s := s.modFaults fun f => { f with slates := Tbl.mapVals {} (fun x => { x with doneThisStart := false, failedOnce := false, overdue := false }) f.slates }
  (s.each [.h, .t, .u, .d] trainPort).showStep

/-- Duties that were suspended resume from the wake (R367): sweeps and clapper phases of R126 and R309, and after D3 the slates of R312
(DEDUCED, log 183). -/
def dutiesResume (s : State) (d3 : Bool) : State :=
  let s := { s with tiles := Tbl.mapVals {} (fun (t : Tile) => { t with
    gapAt := s.now, decks := Tbl.mapVals {} (fun k => { k with sweptAt := s.now, clappedAt := s.now }) t.decks }) s.tiles }
  if d3 then s.modFaults fun f => { f with slates := Tbl.mapVals {} (fun x => { x with startedAt := s.now }) f.slates } else s

/-- The wake has ended: POWER_STATE D0 completes, and work goes on. -/
def wakeEnds (s : State) (w : WakeSt) : State :=
  let s := if w.from_ = .d3 then (s.modBoot fun b => { b with phase := .running }).modRegs fun r => { r with step := 0 } else s
  let s := (s.dutiesResume (decide (w.from_ = .d3))).modPower fun p => { p with wake := none, dstate := .d0, idleSince := s.now }
  let s := match w.job with
    | some j => s.complete j .ok
    | none => s
  ((s.powerEvent w.from_ .d0).startLevel.tilesNext fun _ => true).settle

/-- A phase of the wake reports ready. -/
def wakePhase (s : State) (w : WakeSt) : State :=
  let s := if w.phase = 0 then s.modPower fun p => { p with railsOff := p.railsOff.filter fun a => !(railsFor w.from_).contains a } else s
  if w.phase = 3 then s.wakeEnds w
  else
    let s := s.modPower fun p => { p with wake := some { w with phase := w.phase + 1 } }
    if w.phase = 2 ∧ w.from_ = .d3 then s.wakeStarts else s

/-- The logic phase of a wake from D3 is ready when step W8 has ended. -/
def wakePhaseDue (s : State) (w : WakeSt) : Bool := w.phase != 3 || decide (w.from_ ≠ .d3) || s.stepDone? 8

/-- A ready signal misses its timeout: a failed start, whose step code the manual does not give (R371). -/
def wakeFails (s : State) (w : WakeSt) (domain : Nat) : State :=
  let code := (Config.freeWord s.free).toNat % 256
  (s.draw.event { code := 0x1105, own := own [(40, 1, domain), (41, 1, w.phase)] }).modBoot fun b => { b with failedStep := some code }

end State

/-! ### The rows -/

def execD1Entry (s : State) : Result := s.d1Entry.when "D1_ENTRY" s.d1Due

def execBoughSwitchOpen (bough : Nat) (s : State) : Result :=
  (s.openSwitches fun b => b == bough).when "BOUGH_SWITCH_OPEN" (s.awake && s.switchIdle bough)

def execBoughSwitchReady (bough : Nat) (s : State) : Result :=
  (s.switchReady bough).when "BOUGH_SWITCH_READY" (decide ((s.bough bough).switch = .closing))

/-- PACER_WINDOW: every 256 ticks while the pacer is on. -/
def execPacerWindow (s : State) : Result :=
  s.pacerWindow.when "PACER_WINDOW" (s.awake && s.ticking && decide (s.power.dstate ≠ .d3) && decide (s.power.windowAt + 256 ≤ s.now))

/-- ENERGY_SCALE: every 2^24 ticks, with the energies charged and measured since the last one in millijoules. -/
def execEnergyScale (charged measured : Nat) (s : State) : Result :=
  (s.energyScale charged measured).when "ENERGY_SCALE" (s.mgmtUp && decide (s.power.scaledAt + 2 ^ 24 ≤ s.now))

def execLevelStepSettled (millivolts : Nat) (s : State) : Result :=
  match s.power.stepTo with
  | none => .fault (.outOfPlace "LEVEL_STEP_SETTLED")
  | some t => (s.levelSettled t).when "LEVEL_STEP_SETTLED" (State.settledAt t millivolts)

def execLevelStepTimeout (s : State) : Result :=
  match s.power.stepTo with
  | none => .fault (.outOfPlace "LEVEL_STEP_TIMEOUT")
  | some t => (s.levelTimeout t).when "LEVEL_STEP_TIMEOUT" true

def execRegulatorFloorReturn (s : State) : Result :=
  s.floorReturns.when "REGULATOR_FLOOR_RETURN" (decide (0 < s.power.regFloor) && decide (s.power.warnAt + 2 ^ 32 ≤ s.now))

def execEntryStepDone (s : State) : Result :=
  match s.power.entry with
  | none => .fault (.outOfPlace "ENTRY_STEP_DONE")
  | some e => (s.entryStep e).when "ENTRY_STEP_DONE" (s.entryStepReady e)

def execWake (e : WakeEvent) (s : State) : Result := s.wakeEvent.when "WAKE" (s.wakeDue e)

def execWakePhaseReady (s : State) : Result :=
  match s.power.wake with
  | none => .fault (.outOfPlace "WAKE_PHASE_READY")
  | some w => (s.wakePhase w).when "WAKE_PHASE_READY" (s.wakePhaseDue w && s.boot.failedStep.isNone)

def execWakeTimeout (domain : Nat) (s : State) : Result :=
  match s.power.wake with
  | none => .fault (.outOfPlace "WAKE_TIMEOUT")
  | some w => (s.wakeFails w domain).when "WAKE_TIMEOUT" (decide (domain < 24) && s.boot.failedStep.isNone)

end Sys2Proof.Machine
end

