-- ==== Sys2Proof/Machine/SignedRows.lean ====
section
/-! DEFINITION. Signed objects after their check (18): manifests (R136), placement files (R143, R144, R152, R412), graft images
(R206, R207), staged firmware (R381). -/

set_option Elab.async false

namespace Sys2Proof.Machine

/-! ### Graft images (Tables 10-1, 10-2) -/

/-- The generation that a graft image makes. -/
def readGraft (b : Bytes) : Graft :=
  let n := Bits.le b 6 2
  { handle := Bits.le b 0 2, generation := Bits.le b 4 2, partition := Bits.byteAt b 3 % 64, rank := Bits.byteAt b 2,
    imageId := Bits.le b 8 4, alpha := BitVec.ofNat 32 (Bits.le b 12 4),
    entries := (List.range n).map fun k =>
      let o := 64 + 16 * k
      (Bits.le b o 4, Bits.le b (o + 4) 4, Bits.le b (o + 8) 4),
    body := b.drop (64 + 16 * n), current := true, pins := 0 }

/-- Two byte ranges (offset, length) overlap. -/
def rangesMeet (x y : Nat × Nat) : Bool := decide (x.1 < y.1 + y.2) && decide (y.1 < x.1 + x.2)

/-- A list of byte ranges has an overlapping pair. -/
def anyMeet : List (Nat × Nat) → Bool
  | [] => false
  | x :: xs => xs.any (rangesMeet x) || anyMeet xs

/-- A BF16 value that is infinite or NaN. -/
def bf16Bad (v : Nat) : Bool := v / 128 % 256 == 255

namespace State

/-- R206 but for the signature; `p` is the partition of the ring, none on the management ring (R257). -/
def graftBad (s : State) (p : Option Nat) (b : Bytes) : Bool :=
  let g := readGraft b
  let n := Bits.le b 6 2
  let len := Bits.le b 16 8
  let mats := (s.liveGen.map s.matsOf).getD []
  let mat (id : Nat) := mats.find? fun m => m.id == id && decide (m.kind ≤ 1)
  let ranges := g.entries.flatMap fun e => match mat e.1 with
    | some m => [(e.2.1, 2 * m.inputs * g.rank), (e.2.2, 2 * g.rank * m.outputs)]
    | none => []
  decide (b.length < 64) || decide (128 < g.rank) || decide (32 ≤ Bits.byteAt b 3) || decide (g.generation = 0) ||
  s.grafts.any (fun x => x.handle == g.handle && x.generation == g.generation) || !F32.isFinite g.alpha ||
  (decide (len = 0) && decide (g.rank ≠ 0) && decide (n ≠ 0)) || !Bits.zeroAt b 24 40 || decide (b.length ≠ 64 + 16 * n + len) ||
  (List.range n).any (fun k => !Bits.zeroAt b (64 + 16 * k + 12) 4) ||
  g.entries.any (fun e => decide (e.1 = 0) || decide (e.2.1 % 64 ≠ 0) || decide (e.2.2 % 64 ≠ 0) || (mat e.1).isNone) ||
  !decide ((g.entries.map fun e => e.1).Pairwise (· < ·)) ||
  ranges.any (fun r => decide (len < r.1 + r.2)) || anyMeet (ranges.filter fun r => decide (0 < r.2)) ||
  ranges.any (fun r => (List.range (r.2 / 2)).any fun i => bf16Bad (Bits.le g.body (r.1 + 2 * i) 2)) ||
  s.grafts.any (fun x => x.handle == g.handle && x.partition != g.partition) || (p.isSome && decide (p ≠ some g.partition)) ||
  (decide (s.regs.graftStage = 0) && decide (g.rank ≠ 0)) ||
  (g.entries.any fun e =>
    let layer := ((mat e.1).map fun m => m.layer).getD 0
    let bytes := (g.entries.map fun x => match mat x.1 with
      | some m => if m.layer = layer then 2 * g.rank * (m.inputs + m.outputs) else 0
      | none => 0).sum
    decide (s.regs.graftStage.toNat * 2 ^ 19 < bytes))

/-- A graft image whose signature checks (R206, R207). -/
def graftChecked (s : State) (b : Bytes) (r : RingId) (j : Job) : State :=
  let g := readGraft b
  if s.graftBad (ringPart r) b then s.complete j .badGraft
  else if 4 ≤ (s.grafts.filter fun x => x.handle == g.handle).length then s.complete j .graftBusy
  else
    let old := s.grafts.map fun (x : Graft) => if x.handle == g.handle then { x with current := false } else x
    (freeGrafts { s with grafts := old ++ [g] }).complete j .ok

/-! ### Manifests (R136) -/

def finishJob (s : State) (j : Option Job) (st : Status) : State :=
  match j with
  | some j => s.complete j st
  | none => s

/-- A manifest whose signature checks: its generation is staged and it is forwarded (R139); a partial generation that supplies
nothing here is ARMED at once (R148). -/
def manifestChecked (s : State) (b : Bytes) (j : Option Job) : State :=
  let m := sigBody b
  match manifestStatus s m with
  | some st => s.finishJob j st
  | none =>
    let g := manifestGen m
    let s := s.modWeights fun w => { w with gens := w.gens ++ [g] }
    let s := if s.isLast then s else s.send .d 3 (.image (.manifest b))
    (s.finishJob j .ok).settle

/-! ### Placement files (R143, R144, R152, R412) -/

/-- Nothing of a matrix that a new file for the live generation may not change has changed. -/
def sameShape (a b : Mat) : Bool :=
  a.kind == b.kind && a.format == b.format && a.inputs == b.inputs && a.outputs == b.outputs && a.rowFirst == b.rowFirst &&
  a.rowTiles == b.rowTiles

/-- The two files name the same matrices with the same shapes. -/
def sameMats (old new : Placement) : Bool :=
  old.mats.length == new.mats.length && new.mats.all fun m => (old.mats.find? fun x => x.id == m.id).any (sameShape m)

/-- Exponent, flags and correction record of `old` on the entry `new`. -/
def keepNumbers (old new : Mat) : Mat :=
  { new with exponent := old.exponent, transposed := old.transposed, sInline := old.sInline, sOverflow := old.sOverflow,
             sClip := old.sClip, sCont := old.sCont, threshold := old.threshold, budget := old.budget, ovfLimit := old.ovfLimit }

/-- A new file for the live generation replaces the one in force (R152). -/
def replaceLive (s : State) (g : Gen) (old p : Placement) : State :=
  let was (m : Mat) : Mat := (old.mats.find? fun x => x.id == m.id).getD m
  let moved := (p.mats.filter fun m => p.refsOf m != old.refsOf (was m)).map fun m => m.id
  let moved := sortBy (fun a b => decide (a < b)) moved
  let s := s.modGen g.imageId fun g => { g with
    placement := some { p with mats := p.mats.map fun m => keepNumbers (was m) m },
    nextMats := p.mats.filter fun m => keepNumbers (was m) m != m }
  let inTiles := moved.filter fun id => (p.mats.find? fun m => m.id == id).any p.inTiles
  let s := s.modWeights fun w => { w with slowDue := w.slowDue ++ (moved.filter fun id => !inTiles.contains id).map fun id => (id, true) }
  if inTiles.isEmpty then s
  else
    let targets := s.takeTargets g.imageId inTiles
    let meets (m : Nat) (d : Nat × Nat) : Bool := targets.any fun x => x.1 != m && x.2.2.2.1 == d.1 && x.2.2.2.2 == d.2
    let others := (s.weights.bindings.filter fun b => !b.2.slow && b.2.decks.any (meets b.1)).map fun b => b.1
    s.addTake { id := 0, refresh := true, firmware := true, image := g.imageId, mats := inTiles, st := .loading, job := none,
                inPlace := false, targets := targets, left := 0, toSlow := sortBy (fun a b => decide (a < b)) others,
                toReturn := inTiles, drift := none }

/-- A placement file whose signature checks. -/
def placementChecked (s : State) (b : Bytes) (j : Job) : State :=
  let body := sigBody b
  let p := readPlacement body
  if s.placementRejected body then s.complete j .placementBad
  else if s.hostTake then s.complete j .placementBusy
  else
    match s.gen? p.imageId with
    | none => s.complete j .placementBad
    | some g =>
      match g.placement with
      | none =>
        if s.weightFree < (p.mats.map matBytes).sum then s.complete j .imageSlotsFull
        else ((s.modGen g.imageId fun g => { g with placement := some p, allocated := p.mats.map fun m => m.id }).complete j .ok).settle
      | some old =>
        if !sameMats old p then s.complete j .placementBad
        else if g.live then ((s.replaceLive g old p).complete j .ok).settle
        else ((s.modGen g.imageId fun g => { g with placement := some p }).complete j .ok).settle

/-! ### Firmware (R381) -/

/-- A staged image that checks is written to its slot, and with BOOT = 0 to flash (R381). -/
def firmwareChecked (s : State) (b : Bytes) (slot : Nat) (j : Job) : State :=
  let s := s.modSec fun x => { x with
    staging := none,
    slots := Tbl.set {} slot { bytes := b, valid := true, digest := Shake.digest32 b, svn := Bits.le b 8 4 } x.slots }
  let s := if s.regs.boot = 0 then s.emit (.flash (slot * 2 ^ 24) b) else s
  s.complete j .ok

/-- FW_STAGE's status for a reason of SIG_REJECT. -/
def fwStatus (reason : Nat) : Status :=
  if reason = 2 ∨ reason = 3 then .keyUnknown else if reason = 6 then .fwRollback else .sigBad

/-! ### The check (R375 to R377) -/

/-- The key slot that a signed object names admits its graft's partition (R376). -/
def maskAdmits (s : State) (b : Bytes) : Bool :=
  (Tbl.get 0 (Bits.byteAt (sigBlock b) 2 % 4) s.regs.ownerParts).getLsbD (Bits.byteAt b 3 % 64)

/-- The object at the head of the queue has been checked. -/
def checkObject (s : State) (o : SigObject) : State :=
  match o with
  | .manifest b j =>
    (match s.sigReason b false with
     | some r => (s.sigReject 2 r (Bits.le b 0 4)).finishJob j .manifestBad
     | none => s.manifestChecked b j)
  | .placement b j =>
    (match s.sigReason b false with
     | some r => (s.sigReject 3 r (Bits.le b 4 4)).complete j .placementBad
     | none => s.placementChecked b j)
  | .graft b ring j =>
    (match s.sigReason b false with
     | some r => (s.sigReject 4 r (Bits.le b 0 2)).complete j .badGraft
     | none =>
       if s.maskAdmits b then s.graftChecked (sigBody b) ring j
       else (s.sigReject 4 5 (Bits.le b 0 2)).complete j .badGraft)
  | .firmware b slot j =>
    (match s.fwReason b with
     | some r => ((s.modSec fun x => { x with staging := none }).sigReject 1 r 0).complete j (fwStatus r)
     | none => s.firmwareChecked b slot j)

/-- The head of the queue leaves it and is checked. -/
def sigChecked (s : State) : State :=
  match s.sec.queue with
  | [] => s
  | o :: rest => (s.modSec fun x => { x with queue := rest }).checkObject o

end State

/-! ### The row -/

def execSigCheck (s : State) : Result := s.sigChecked.when "SIG_CHECK" (!s.sec.queue.isEmpty)

end Sys2Proof.Machine
end

