-- ==== Sys2Proof/Machine/Dispatch.lean ====
section
/-! DEFINITION. One arm for each command: the direct call of its meaning. -/

namespace Sys2Proof.Machine

/-- The effect of a command on everything but the queue. -/
def exec (i : Instr) (s : State) : Host.Outcome State Fault Refusal :=
  match i with
  | .nop f => Sys2Proof.Machine.execNop f s
  | .badOpcode f => Sys2Proof.Machine.execBadOpcode f s
  | .admitCall f => Sys2Proof.Machine.execAdmit f s
  | .cancel f => Sys2Proof.Machine.execCancel f s
  | .releaseCall f => Sys2Proof.Machine.execReleaseCall f s
  | .stepMask f => Sys2Proof.Machine.execStepMask f s
  | .budgetSet f => Sys2Proof.Machine.execBudgetSet f s
  | .budgetRead f => Sys2Proof.Machine.execBudgetRead f s
  | .graftLoad f => Sys2Proof.Machine.execGraftLoad f s
  | .graftRetire f => Sys2Proof.Machine.execGraftRetire f s
  | .matteLoad f => Sys2Proof.Machine.execMatteLoad f s
  | .matteFree f => Sys2Proof.Machine.execMatteFree f s
  | .tune f => Sys2Proof.Machine.execTune f s
  | .loadManifest f => Sys2Proof.Machine.execLoadManifest f s
  | .loadChunk f => Sys2Proof.Machine.execLoadChunk f s
  | .loadPlacement f => Sys2Proof.Machine.execLoadPlacement f s
  | .attnSetup f => Sys2Proof.Machine.execAttnSetup f s
  | .takeReplacement f => Sys2Proof.Machine.execTakeReplacement f s
  | .takeRefresh f => Sys2Proof.Machine.execTakeRefresh f s
  | .cut f => Sys2Proof.Machine.execCut f s
  | .releaseImage f => Sys2Proof.Machine.execReleaseImage f s
  | .deckRead f => Sys2Proof.Machine.execDeckRead f s
  | .refWarm f => Sys2Proof.Machine.execRefWarm f s
  | .calibrate f => Sys2Proof.Machine.execCalibrate f s
  | .hkSample f => Sys2Proof.Machine.execHkSample f s
  | .retire f => Sys2Proof.Machine.execRetire f s
  | .fill f => Sys2Proof.Machine.execFill f s
  | .rehash f => Sys2Proof.Machine.execRehash f s
  | .arrayTest f codes => Sys2Proof.Machine.execArrayTest f codes s
  | .resetCold f => Sys2Proof.Machine.execResetCold f s
  | .resetWarm f => Sys2Proof.Machine.execResetWarm f s
  | .resetPartition f => Sys2Proof.Machine.execResetPartition f s
  | .resetBough f => Sys2Proof.Machine.execResetBough f s
  | .resetPort f => Sys2Proof.Machine.execResetPort f s
  | .powerStateD0 f => Sys2Proof.Machine.execPowerStateD0 f s
  | .powerStateD2 f => Sys2Proof.Machine.execPowerStateD2 f s
  | .powerStateD3 f => Sys2Proof.Machine.execPowerStateD3 f s
  | .fwStage f => Sys2Proof.Machine.execFwStage f s
  | .fwCutover f => Sys2Proof.Machine.execFwCutover f s
  | .attest f => Sys2Proof.Machine.execAttest f s
  | .doorbell hd ring count => Sys2Proof.Machine.execDoorbell hd ring count s
  | .fetchFault ring => Sys2Proof.Machine.execFetchFault ring s
  | .hostFault ring pos => Sys2Proof.Machine.execHostFault ring pos s
  | .recordWriteFault ring => Sys2Proof.Machine.execRecordWriteFault ring s
  | .coalWindowExpiry ring => Sys2Proof.Machine.execCoalWindowExpiry ring s
  | .seal a => Sys2Proof.Machine.execSeal a s
  | .versionNeg a => Sys2Proof.Machine.execVersionNeg a s
  | .fenceCtrlRelease a => Sys2Proof.Machine.execFenceCtrlRelease a s
  | .bootSrcGo a => Sys2Proof.Machine.execBootSrcGo a s
  | .counterSel a => Sys2Proof.Machine.execCounterSel a s
  | .hkCtrlRefen a => Sys2Proof.Machine.execHkCtrlRefen a s
  | .regWrite a => Sys2Proof.Machine.execRegWrite a s
  | .porstNAssert => Sys2Proof.Machine.execPorstNAssert s
  | .coldStart boot ckmode => Sys2Proof.Machine.execColdStart boot ckmode s
  | .wrstNAssert => Sys2Proof.Machine.execWrstNAssert s
  | .warmStart => Sys2Proof.Machine.execWarmStart s
  | .resetTakesEffect => Sys2Proof.Machine.execResetTakesEffect s
  | .fenceInAssert => Sys2Proof.Machine.execFenceInAssert s
  | .fenceInRelease => Sys2Proof.Machine.execFenceInRelease s
  | .refclkLoss => Sys2Proof.Machine.execRefclkLoss s
  | .refclkReturn => Sys2Proof.Machine.execRefclkReturn s
  | .pmAlertN words => Sys2Proof.Machine.execPmAlertN words s
  | .vaonLoss => Sys2Proof.Machine.execVaonLoss s
  | .optionLoad data => Sys2Proof.Machine.execOptionLoad data s
  | .clockLock ok => Sys2Proof.Machine.execClockLock ok s
  | .hkRefReady => Sys2Proof.Machine.execHkRefReady s
  | .fwFetch active images => Sys2Proof.Machine.execFwFetch active images s
  | .sramFill ok => Sys2Proof.Machine.execSramFill ok s
  | .hbmTrain ok => Sys2Proof.Machine.execHbmTrain ok s
  | .hbmFill complete ok => Sys2Proof.Machine.execHbmFill complete ok s
  | .startFail => Sys2Proof.Machine.execStartFail s
  | .fwDigest => Sys2Proof.Machine.execFwDigest s
  | .resume => Sys2Proof.Machine.execResume s
  | .watchdogExpiry => Sys2Proof.Machine.execWatchdogExpiry s
  | .firstWatchdogService => Sys2Proof.Machine.execFirstWatchdogService s
  | .hkSlot => Sys2Proof.Machine.execHkSlot s
  | .hkConversionDone value => Sys2Proof.Machine.execHkConversionDone value s
  | .productIssue r => Sys2Proof.Machine.execProductIssue r s
  | .phaseEnd tile codes => Sys2Proof.Machine.execPhaseEnd tile codes s
  | .programStepEnd tile r => Sys2Proof.Machine.execProgramStepEnd tile r s
  | .programStepOwed tile => Sys2Proof.Machine.execProgramStepOwed tile s
  | .referenceSweep tile deck codes => Sys2Proof.Machine.execReferenceSweep tile deck codes s
  | .clapperPhase tile deck run => Sys2Proof.Machine.execClapperPhase tile deck run s
  | .verifyRead tile deck row => Sys2Proof.Machine.execVerifyRead tile deck row s
  | .forcedGap tile => Sys2Proof.Machine.execForcedGap tile s
  | .deckAgeRecord tile deck => Sys2Proof.Machine.execDeckAgeRecord tile deck s
  | .driftAgeLimit tile deck => Sys2Proof.Machine.execDriftAgeLimit tile deck s
  | .driftUpdate bough => Sys2Proof.Machine.execDriftUpdate bough s
  | .outlierReadReturn prod reads => Sys2Proof.Machine.execOutlierReadReturn prod reads s
  | .overflowPass prod reads => Sys2Proof.Machine.execOverflowPass prod reads s
  | .boughSum key reads => Sys2Proof.Machine.execBoughSum key reads s
  | .graftTerm key vec sram => Sys2Proof.Machine.execGraftTerm key vec sram s
  | .contCheckDone prod => Sys2Proof.Machine.execContCheckDone prod s
  | .outlierWindowEnd matrix => Sys2Proof.Machine.execOutlierWindowEnd matrix s
  | .transferDone work entry => Sys2Proof.Machine.execTransferDone work entry s
  | .boughDrainAck bough => Sys2Proof.Machine.execBoughDrainAck bough s
  | .drainComplete => Sys2Proof.Machine.execDrainComplete s
  | .refReady bough => Sys2Proof.Machine.execRefReady bough s
  | .calRunEnd bough fits => Sys2Proof.Machine.execCalRunEnd bough fits s
  | .fitDone tile deck forward transposed => Sys2Proof.Machine.execFitDone tile deck forward transposed s
  | .deckRetake tile deck => Sys2Proof.Machine.execDeckRetake tile deck s
  | .chunkConversion => Sys2Proof.Machine.execChunkConversion s
  | .sigCheck => Sys2Proof.Machine.execSigCheck s
  | .epochDrained => Sys2Proof.Machine.execEpochDrained s
  | .kvAppend work layer t k v => Sys2Proof.Machine.execKvAppend work layer t k v s
  | .taprootAttention work layer q reads => Sys2Proof.Machine.execTaprootAttention work layer q reads s
  | .canopyBlock lane work layer group rowTile q => Sys2Proof.Machine.execCanopyBlock lane work layer group rowTile q s
  | .batchOpen => Sys2Proof.Machine.execBatchOpen s
  | .batchWindowExpiry => Sys2Proof.Machine.execBatchWindowExpiry s
  | .stepCommit call => Sys2Proof.Machine.execStepCommit call s
  | .deadlineScan => Sys2Proof.Machine.execDeadlineScan s
  | .budgetRefill customer => Sys2Proof.Machine.execBudgetRefill customer s
  | .preempt call chunk => Sys2Proof.Machine.execPreempt call chunk s
  | .tokenReturn hd p tag step tokens drafts marks => Sys2Proof.Machine.execTokenReturn hd p tag step tokens drafts marks s
  | .ack hd => Sys2Proof.Machine.execAck hd s
  | .nak hd expected => Sys2Proof.Machine.execNak hd expected s
  | .flitDiscard port wire => Sys2Proof.Machine.execFlitDiscard port wire s
  | .degrade hd width group => Sys2Proof.Machine.execDegrade hd width group s
  | .discover hd pos side posn resumed => Sys2Proof.Machine.execDiscover hd pos side posn resumed s
  | .activation hd epoch image items => Sys2Proof.Machine.execActivation hd epoch image items s
  | .runningSum hd p tag step epoch image marks item => Sys2Proof.Machine.execRunningSum hd p tag step epoch image marks item s
  | .callCtrl hd msg => Sys2Proof.Machine.execCallCtrl hd msg s
  | .cutCtrl hd msg => Sys2Proof.Machine.execCutCtrl hd msg s
  | .jack hd p tag step pos => Sys2Proof.Machine.execJack hd p tag step pos s
  | .adopt hd => Sys2Proof.Machine.execAdopt hd s
  | .image hd msg => Sys2Proof.Machine.execImage hd msg s
  | .heartbeat hd tick st => Sys2Proof.Machine.execHeartbeat hd tick st s
  | .hbHold hd ticks warm sleep => Sys2Proof.Machine.execHbHold hd ticks warm sleep s
  | .journal hd recs => Sys2Proof.Machine.execJournal hd recs s
  | .journalAck hd p tag step => Sys2Proof.Machine.execJournalAck hd p tag step s
  | .retakeReq hd r => Sys2Proof.Machine.execRetakeReq hd r s
  | .verifiedStepDone p tag step drafts mask => Sys2Proof.Machine.execVerifiedStepDone p tag step drafts mask s
  | .retakeResp hd p tag step r => Sys2Proof.Machine.execRetakeResp hd p tag step r s
  | .retakeTimeout p tag step => Sys2Proof.Machine.execRetakeTimeout p tag step s
  | .mirrorDrop hd => Sys2Proof.Machine.execMirrorDrop hd s
  | .heartbeatSend => Sys2Proof.Machine.execHeartbeatSend s
  | .heartbeatMiss => Sys2Proof.Machine.execHeartbeatMiss s
  | .fenceWaitEnd => Sys2Proof.Machine.execFenceWaitEnd s
  | .mirrorKeepExpiry call => Sys2Proof.Machine.execMirrorKeepExpiry call s
  | .chainBreak port => Sys2Proof.Machine.execChainBreak port s
  | .portTrained port lanes => Sys2Proof.Machine.execPortTrained port lanes s
  | .laneWeak port lane lost symbols => Sys2Proof.Machine.execLaneWeak port lane lost symbols s
  | .replayMax port => Sys2Proof.Machine.execReplayMax port s
  | .bucketLeak region => Sys2Proof.Machine.execBucketLeak region s
  | .mergeEvict stack channel flips => Sys2Proof.Machine.execMergeEvict stack channel flips s
  | .hotSample stack occupancy channel => Sys2Proof.Machine.execHotSample stack occupancy channel s
  | .hotspot stack => Sys2Proof.Machine.execHotspot stack s
  | .hbmRetired => Sys2Proof.Machine.execHbmRetired s
  | .fillDone => Sys2Proof.Machine.execFillDone s
  | .rehashDone units => Sys2Proof.Machine.execRehashDone units s
  | .repeat_ tile phases => Sys2Proof.Machine.execRepeat tile phases s
  | .slate u digest => Sys2Proof.Machine.execSlate u digest s
  | .slateOverdue u => Sys2Proof.Machine.execSlateOverdue u s
  | .daily => Sys2Proof.Machine.execDaily s
  | .d1Entry => Sys2Proof.Machine.execD1Entry s
  | .boughSwitchOpen bough => Sys2Proof.Machine.execBoughSwitchOpen bough s
  | .boughSwitchReady bough => Sys2Proof.Machine.execBoughSwitchReady bough s
  | .pacerWindow => Sys2Proof.Machine.execPacerWindow s
  | .energyScale charged measured => Sys2Proof.Machine.execEnergyScale charged measured s
  | .levelStepSettled millivolts => Sys2Proof.Machine.execLevelStepSettled millivolts s
  | .levelStepTimeout => Sys2Proof.Machine.execLevelStepTimeout s
  | .regulatorFloorReturn => Sys2Proof.Machine.execRegulatorFloorReturn s
  | .entryStepDone => Sys2Proof.Machine.execEntryStepDone s
  | .wake e => Sys2Proof.Machine.execWake e s
  | .wakePhaseReady => Sys2Proof.Machine.execWakePhaseReady s
  | .wakeTimeout domain => Sys2Proof.Machine.execWakeTimeout domain s
  | .switchPoint => Sys2Proof.Machine.execSwitchPoint s
  | .fwCutoverDone => Sys2Proof.Machine.execFwCutoverDone s
  | .vaonApply => Sys2Proof.Machine.execVaonApply s
  | .portDown port => Sys2Proof.Machine.execPortDown port s
  | .partnerBootRequest => Sys2Proof.Machine.execPartnerBootRequest s
  | .hbmExit ok => Sys2Proof.Machine.execHbmExit ok s
  | .urgentSample channel => Sys2Proof.Machine.execUrgentSample channel s
  | .jtagInstruction op => Sys2Proof.Machine.execJtagInstruction op s

end Sys2Proof.Machine
end

