-- ==== Sys2Proof/Machine/Step.lean ====
section
/-! DEFINITION. One step: the command at the front of the queue, or one local tick. -/

set_option Elab.async false

namespace Sys2Proof.Machine

/-- One local tick passes: the counter counts unless it is stopped (R3, R394). -/
def State.tickOnce (s : State) : State := if s.ticking then { s with tick := s.tick + 1 } else s

/-- Take the command at the front of the queue and run it with the queue's rest; on an empty queue a tick passes (log 1). -/
def step (s : State) : Host.Outcome State Fault Refusal :=
  match s.pending with
  | [] => .next s.tickOnce
  | c :: rest => Sys2Proof.Machine.exec c { s with pending := rest }

/-- `s` with the command that a word spells at the front of its queue; the table's words spell none. -/
def State.withFetchWord (s : State) (nbits w : Nat) : State :=
  match Sys2Proof.decodeTableWord nbits w with
  | none => s
  | some c => { s with pending := c :: s.pending }

end Sys2Proof.Machine
end

