-- ==== Sys2Proof/Safety.lean ====
section
/-! DEFINITION. The terms in which claims speak of a run: what a command leaves alone, the canonical form that every state keeps,
when a descriptor is fetched and a flit accepted, what goes out, and when a run is safe. -/

set_option Elab.async false

namespace Sys2Proof.Machine

/-- The pieces of the state. -/
inductive Field where
  | pins | boot | regs | parts | rings | tick | ticking | trims | counters | jobs
  | calls | steps | batch | sched | splitHead | stage | batchNo | customers | grafts | mattes
  | tiles | boughs | calSave | prods | nextProd | nextOrder | sums | handoffs | acts | xferWaits
  | histos | canopy | backs | latches | attnWaits | servedKv | servedAttn | weights | mem | links
  | partner | faults | hk | power | sec | drains | free | out | pending
deriving DecidableEq, Repr

/-- One piece is the same in two states. -/
def Field.same (s t : State) : Field → Prop
  | .pins => t.pins = s.pins
  | .boot => t.boot = s.boot
  | .regs => t.regs = s.regs
  | .parts => t.parts = s.parts
  | .rings => t.rings = s.rings
  | .tick => t.tick = s.tick
  | .ticking => t.ticking = s.ticking
  | .trims => t.trims = s.trims
  | .counters => t.counters = s.counters
  | .jobs => t.jobs = s.jobs
  | .calls => t.calls = s.calls
  | .steps => t.steps = s.steps
  | .batch => t.batch = s.batch
  | .sched => t.sched = s.sched
  | .splitHead => t.splitHead = s.splitHead
  | .stage => t.stage = s.stage
  | .batchNo => t.batchNo = s.batchNo
  | .customers => t.customers = s.customers
  | .grafts => t.grafts = s.grafts
  | .mattes => t.mattes = s.mattes
  | .tiles => t.tiles = s.tiles
  | .boughs => t.boughs = s.boughs
  | .calSave => t.calSave = s.calSave
  | .prods => t.prods = s.prods
  | .nextProd => t.nextProd = s.nextProd
  | .nextOrder => t.nextOrder = s.nextOrder
  | .sums => t.sums = s.sums
  | .handoffs => t.handoffs = s.handoffs
  | .acts => t.acts = s.acts
  | .xferWaits => t.xferWaits = s.xferWaits
  | .histos => t.histos = s.histos
  | .canopy => t.canopy = s.canopy
  | .backs => t.backs = s.backs
  | .latches => t.latches = s.latches
  | .attnWaits => t.attnWaits = s.attnWaits
  | .servedKv => t.servedKv = s.servedKv
  | .servedAttn => t.servedAttn = s.servedAttn
  | .weights => t.weights = s.weights
  | .mem => t.mem = s.mem
  | .links => t.links = s.links
  | .partner => t.partner = s.partner
  | .faults => t.faults = s.faults
  | .hk => t.hk = s.hk
  | .power => t.power = s.power
  | .sec => t.sec = s.sec
  | .drains => t.drains = s.drains
  | .free => t.free = s.free
  | .out => t.out = s.out
  | .pending => t.pending = s.pending

/-- Every piece that the list does not name is the same in two states. -/
def SameBut (l : List Field) (s t : State) : Prop := ∀ f : Field, f ∉ l → Field.same s t f

/-- The tables and the memory are in their canonical form: keys rising, no default listed. Equal contents are then equal data. -/
structure State.Canonical (s : State) : Prop where
  parts : Tbl.wf {} s.parts = true
  rings : Tbl.wf {} s.rings = true
  counters : Tbl.wf 0 s.counters = true
  calls : Tbl.wf {} s.calls = true
  customers : Tbl.wf {} s.customers = true
  tiles : Tbl.wf {} s.tiles = true
  boughs : Tbl.wf {} s.boughs = true
  calSave : Tbl.wf {} s.calSave = true
  links : Tbl.wf {} s.links = true
  mem : s.mem.wf = true

/-- A step is safe when it answers a next state: no command of the run names an event that cannot occur. -/
def State.StepSafe (s : State) : Prop := ∃ t, step s = .next t

/-- Every listed counter fits in its 48 bits (R47); an unlisted one is 0. -/
def State.CountersFit (s : State) : Prop := ∀ c ∈ s.counters, c.2 < 2 ^ 48

/-! ### Descriptors -/

/-- The descriptor stands at the front of its ring in a device that reads rings, and nothing holds its fetch (R182, R244, R249,
R253, R254). -/
structure State.Fetched (s : State) (f : Sys2Proof.Fetch) : Prop where
  waiting : s.hasDescriptor f.ring = true
  serves : s.running = true ∨ s.boot.phase = .coldStart
  free : s.fetchHeld f = false
  share : s.premiumStop f = false

/-- The descriptor is fetched and passes the checks of R243. -/
structure State.Accepted (s : State) (f : Sys2Proof.Fetch) : Prop extends s.Fetched f where
  checks : s.descStatus f = none

/-- The job that a fetched descriptor becomes: its ring and position, its tag, its header flags. -/
def State.jobOf (s : State) (f : Sys2Proof.Fetch) : Job := Fetch.job f (s.ring f.ring).pos.toNat

/-- The ring that a descriptor's completion goes to (R238, R240). -/
def answerRing : RingId → RingId
  | .sq p _ => .cq p
  | _ => .eq

/-- The completion record or management completion of a job with a status and results (R238, R240). -/
def State.answerOf (s : State) (j : Job) (st : Status) (r0 r1 : Nat) : Rec :=
  match j.ring with
  | .sq _ k => .completion j.tag st j.opcode k j.premium r0 r1 s.now
  | _ => .mgmt j.tag st j.opcode r0 r1 s.now

/-- From `s` to `t` the device has put out a record on a ring, or the record waits there for its place, or the ring is disabled
and discards it (R246). -/
def Delivered (s t : State) (r : RingId) (rec : Rec) : Prop :=
  (∃ l slot phase, t.out = s.out ++ l ∧ Emit.record r slot phase rec ∈ l) ∨ (∃ w ∈ (t.ring r).waiting, w.record = rec) ∨
    (t.ring r).enabled = false

/-- From `s` to `t` the descriptor has been taken from its ring and answered with a status and results (R230, R238, R240). -/
structure Answered (s t : State) (f : Sys2Proof.Fetch) (st : Status) (r0 r1 : Nat) : Prop where
  taken : (t.ring f.ring).pos = (s.ring f.ring).pos + 1
  record : Delivered s t (answerRing f.ring) (s.answerOf (s.jobOf f) st r0 r1)

/-- From `s` to `t` the descriptor has been taken from its ring and its operation is in progress. -/
structure Started (s t : State) (f : Sys2Proof.Fetch) : Prop where
  taken : (t.ring f.ring).pos = (s.ring f.ring).pos + 1
  job : s.jobOf f ∈ t.jobs

/-- The descriptor of a command that is one. -/
def Instr.descriptor? : Instr → Option Sys2Proof.Fetch
  | .nop f | .badOpcode f | .admitCall f | .cancel f | .releaseCall f | .stepMask f | .budgetSet f | .budgetRead f | .graftLoad f
  | .graftRetire f | .matteLoad f | .matteFree f | .tune f | .loadManifest f | .loadChunk f | .loadPlacement f | .attnSetup f
  | .takeReplacement f | .takeRefresh f | .cut f | .releaseImage f | .deckRead f | .refWarm f | .calibrate f | .hkSample f
  | .retire f | .fill f | .rehash f | .arrayTest f _ | .resetCold f | .resetWarm f | .resetPartition f | .resetBough f
  | .resetPort f | .powerStateD0 f | .powerStateD2 f | .powerStateD3 f | .fwStage f | .fwCutover f | .attest f => some f
  | _ => none

/-- The records that the device has put out on a ring, in order. -/
def State.recordsOn (s : State) (r : RingId) : List Rec :=
  s.out.filterMap fun e => match e with
    | .record q _ _ rec => if q = r then some rec else none
    | _ => none

/-- From `s` to `t` the device has put out something. -/
def PutOut (s t : State) (e : Emit) : Prop := ∃ l, t.out = s.out ++ l ∧ e ∈ l

/-! ### Flits -/

/-- A flit that its port accepts, of a type that the port carries on this channel, whose words reach their consumer whole (R268,
R270, Table 13-5). -/
structure State.FlitReady (s : State) (hd : FlitHdr) (ports : List Port) (channels : List Nat) : Prop where
  whole : hd.torn = false
  accepted : s.accepts hd = true
  port : hd.port ∈ ports
  channel : hd.channel.toNat ∈ channels

/-- From `s` to `t` the device has sent a body on a channel of a port, or it waits there for the port, a credit and room (R267,
R274). -/
def Sent (s t : State) (p : Port) (c : Nat) (b : FlitBody) : Prop :=
  (∃ l seq ack credit, t.out = s.out ++ l ∧ Emit.flit p c seq ack credit b ∈ l) ∨ b ∈ (t.link p).queue.getD c []

/-- The header of a command that is a flit. -/
def Instr.flit? : Instr → Option FlitHdr
  | .doorbell hd _ _ => hd
  | .tokenReturn hd _ _ _ _ _ _ | .ack hd | .nak hd _ | .degrade hd _ _ | .discover hd _ _ _ _ | .activation hd _ _ _
  | .runningSum hd _ _ _ _ _ _ _ | .callCtrl hd _ | .cutCtrl hd _ | .jack hd _ _ _ _ | .adopt hd | .image hd _ | .heartbeat hd _ _
  | .hbHold hd _ _ _ | .journal hd _ | .journalAck hd _ _ _ | .retakeReq hd _ | .retakeResp hd _ _ _ _ | .mirrorDrop hd => some hd
  | _ => none

/-- The flit that a command is and the ports and channels that carry its type (Table 13-5); an ACK has no payload to tear, and a
doorbell of no ring is no flit. -/
def Instr.carriedBy : Instr → Option (FlitHdr × List Port × List Nat)
  | .nak hd _ | .degrade hd _ _ => some (hd, [.h, .t, .u, .d], [0])
  | .discover hd _ _ _ _ => some (hd, [.u, .d, .t], [0])
  | .heartbeat hd _ _ | .hbHold hd _ _ _ | .journalAck hd _ _ _ | .mirrorDrop hd => some (hd, [.t], [0])
  | .journal hd _ | .retakeReq hd _ | .retakeResp hd _ _ _ _ => some (hd, [.t], [1])
  | .adopt hd => some (hd, [.u, .d], [0])
  | .tokenReturn hd _ _ _ _ _ _ => some (hd, [.d], [1, 2])
  | .activation hd _ _ _ => some (hd, [.u, .d], [1, 2])
  | .runningSum hd _ _ _ _ _ _ _ => some (hd, [.u], [1, 2])
  | .callCtrl hd _ | .cutCtrl hd _ => some (hd, [.u, .d], [2])
  | .jack hd _ _ _ _ => some (hd, [.u], [0])
  | .image hd _ => some (hd, [.u, .d, .h], [3])
  | .doorbell hd r _ => if ringExists r then hd.map fun h => (h, [.h], [2]) else none
  | _ => none

/-- A flit one of whose words fails its parity on the way to its consumer (R270). -/
def Instr.torn (c : Instr) : Bool := (Instr.flit? c).any fun hd => hd.torn

/-! ### What each command may change -/

/-- The families of the table's rows. -/
inductive Family where
  | descriptor | host | start | tile | call | link | memory
deriving DecidableEq, Repr

/-- The family of a command: descriptors; host rings, registers and pins; starts, housekeeping, power and firmware; tiles, sums,
calibration and weights; attention and scheduling; links and partner; memory and faults. -/
def Instr.family : Instr → Family
  | .nop .. | .badOpcode .. | .admitCall .. | .cancel .. | .releaseCall .. | .stepMask .. | .budgetSet .. | .budgetRead .. | .graftLoad ..
  | .graftRetire .. | .matteLoad .. | .matteFree .. | .tune .. | .loadManifest .. | .loadChunk .. | .loadPlacement .. | .attnSetup ..
  | .takeReplacement .. | .takeRefresh .. | .cut .. | .releaseImage .. | .deckRead .. | .refWarm .. | .calibrate .. | .hkSample ..
  | .retire .. | .fill .. | .rehash .. | .arrayTest .. | .resetCold .. | .resetWarm .. | .resetPartition .. | .resetBough ..
  | .resetPort .. | .powerStateD0 .. | .powerStateD2 .. | .powerStateD3 .. | .fwStage .. | .fwCutover .. | .attest .. => .descriptor
  | .doorbell .. | .fetchFault .. | .hostFault .. | .recordWriteFault .. | .coalWindowExpiry .. | .seal .. | .versionNeg ..
  | .fenceCtrlRelease .. | .bootSrcGo .. | .counterSel .. | .hkCtrlRefen .. | .regWrite .. | .porstNAssert | .coldStart ..
  | .wrstNAssert | .warmStart | .resetTakesEffect | .fenceInAssert | .fenceInRelease | .refclkLoss | .refclkReturn | .pmAlertN ..
  | .vaonLoss | .vaonApply | .jtagInstruction .. => .host
  | .optionLoad .. | .clockLock .. | .hkRefReady | .fwFetch .. | .sramFill .. | .hbmTrain .. | .hbmFill .. | .startFail | .fwDigest
  | .resume | .watchdogExpiry | .firstWatchdogService | .hkSlot | .hkConversionDone .. | .partnerBootRequest | .hbmExit ..
  | .urgentSample .. | .d1Entry | .boughSwitchOpen .. | .boughSwitchReady .. | .pacerWindow | .energyScale .. | .levelStepSettled ..
  | .levelStepTimeout | .regulatorFloorReturn | .entryStepDone | .wake .. | .wakePhaseReady | .wakeTimeout .. | .switchPoint
  | .fwCutoverDone => .start
  | .productIssue .. | .phaseEnd .. | .programStepEnd .. | .programStepOwed .. | .referenceSweep .. | .clapperPhase .. | .verifyRead ..
  | .forcedGap .. | .deckAgeRecord .. | .driftAgeLimit .. | .driftUpdate .. | .outlierReadReturn .. | .overflowPass .. | .boughSum ..
  | .graftTerm .. | .contCheckDone .. | .outlierWindowEnd .. | .transferDone .. | .boughDrainAck .. | .drainComplete | .refReady ..
  | .calRunEnd .. | .fitDone .. | .deckRetake .. | .chunkConversion | .sigCheck | .epochDrained => .tile
  | .kvAppend .. | .taprootAttention .. | .canopyBlock .. | .batchOpen | .batchWindowExpiry | .stepCommit .. | .deadlineScan
  | .budgetRefill .. | .preempt .. => .call
  | .tokenReturn .. | .ack .. | .nak .. | .flitDiscard .. | .degrade .. | .discover .. | .activation .. | .runningSum .. | .callCtrl ..
  | .cutCtrl .. | .jack .. | .adopt .. | .image .. | .heartbeat .. | .hbHold .. | .journal .. | .journalAck .. | .retakeReq ..
  | .verifiedStepDone .. | .retakeResp .. | .retakeTimeout .. | .mirrorDrop .. | .heartbeatSend | .heartbeatMiss | .fenceWaitEnd
  | .mirrorKeepExpiry .. | .chainBreak .. | .portTrained .. | .laneWeak .. | .replayMax .. | .portDown .. => .link
  | .bucketLeak .. | .mergeEvict .. | .hotSample .. | .hotspot .. | .hbmRetired | .fillDone | .rehashDone .. | .repeat_ .. | .slate ..
  | .slateOverdue .. | .daily => .memory

/-- Every piece but the queue of commands and the count of draws: a reset or a drain may follow. -/
def everyPiece : List Field :=
  [.pins, .boot, .regs, .parts, .rings, .tick, .ticking, .trims, .counters, .jobs, .calls, .steps, .batch, .sched, .splitHead,
  .stage, .batchNo, .customers, .grafts, .mattes, .tiles, .boughs, .calSave, .prods, .nextProd, .nextOrder, .sums, .handoffs,
  .acts, .xferWaits, .histos, .canopy, .backs, .latches, .attnWaits, .servedKv, .servedAttn, .weights, .mem, .links, .partner,
  .faults, .hk, .power, .sec, .drains, .out]

/-- The pieces of the state that a command may change, row by row (a piece that is not listed is the same after it). -/
def Instr.reach : Instr → List Field
  | .overflowPass _ [] | .phaseEnd .. | .programStepOwed .. | .clapperPhase .. | .contCheckDone .. | .boughSwitchReady .. =>
    [.rings, .counters, .steps, .tiles, .boughs, .prods, .links, .faults, .power, .sec, .out]
  | .boughSum _ ⟨[], []⟩ =>
    [.boot, .regs, .parts, .rings, .counters, .jobs, .calls, .steps, .batch, .grafts, .tiles, .boughs, .prods, .nextProd,
    .nextOrder, .sums, .handoffs, .acts, .xferWaits, .canopy, .backs, .latches, .attnWaits, .servedKv, .servedAttn, .weights,
    .mem, .links, .faults, .power, .sec, .out]
  | .resume =>
    [.boot, .regs, .parts, .rings, .counters, .jobs, .calls, .steps, .batch, .grafts, .tiles, .boughs, .prods, .nextProd,
    .nextOrder, .sums, .handoffs, .acts, .xferWaits, .canopy, .backs, .latches, .attnWaits, .servedKv, .servedAttn, .weights,
    .mem, .links, .faults, .power, .sec, .free, .out]
  | .drainComplete => .free :: everyPiece
  | .transferDone _ ⟨_, []⟩ =>
    [.parts, .rings, .counters, .jobs, .calls, .steps, .batch, .grafts, .tiles, .boughs, .prods, .nextProd, .sums, .handoffs,
    .acts, .xferWaits, .histos, .canopy, .backs, .latches, .attnWaits, .servedKv, .servedAttn, .mem, .links, .faults, .power,
    .sec, .out]
  | .taprootAttention _ _ _ ⟨_, _, []⟩ | .kvAppend .. | .canopyBlock .. =>
    [.parts, .rings, .counters, .jobs, .calls, .steps, .batch, .grafts, .tiles, .boughs, .prods, .sums, .handoffs, .acts,
    .xferWaits, .histos, .canopy, .backs, .latches, .attnWaits, .servedKv, .servedAttn, .mem, .links, .faults, .power, .sec,
    .out]
  | .batchOpen =>
    [.boot, .regs, .parts, .rings, .counters, .jobs, .calls, .steps, .batch, .sched, .splitHead, .stage, .batchNo, .grafts,
    .tiles, .boughs, .prods, .nextProd, .nextOrder, .sums, .handoffs, .acts, .xferWaits, .canopy, .backs, .latches, .attnWaits,
    .servedKv, .servedAttn, .weights, .mem, .links, .faults, .power, .sec, .free, .out]
  | .nop .. | .badOpcode .. | .deckRead .. | .attest .. =>
    [.parts, .rings, .counters, .jobs, .out]
  | .admitCall .. | .tune .. =>
    [.parts, .rings, .counters, .jobs, .calls, .steps, .batch, .customers, .grafts, .tiles, .boughs, .prods, .nextOrder, .sums,
    .handoffs, .acts, .xferWaits, .canopy, .backs, .latches, .attnWaits, .servedKv, .servedAttn, .mem, .links, .sec, .out]
  | .cancel .. | .releaseCall .. | .hostFault .. | .deadlineScan | .jack .. =>
    [.parts, .rings, .counters, .jobs, .calls, .steps, .batch, .grafts, .tiles, .boughs, .prods, .sums, .handoffs, .acts,
    .xferWaits, .canopy, .backs, .latches, .attnWaits, .servedKv, .servedAttn, .mem, .links, .sec, .out]
  | .stepMask .. =>
    [.parts, .rings, .counters, .jobs, .calls, .steps, .links, .out]
  | .budgetSet .. =>
    [.parts, .rings, .counters, .jobs, .calls, .steps, .batch, .customers, .grafts, .tiles, .boughs, .prods, .sums, .handoffs,
    .acts, .xferWaits, .canopy, .backs, .latches, .attnWaits, .servedKv, .servedAttn, .mem, .links, .sec, .out]
  | .budgetRead .. =>
    [.parts, .rings, .counters, .jobs, .calls, .customers, .links, .out]
  | .graftLoad .. | .loadManifest .. | .loadPlacement .. | .fwStage .. =>
    [.parts, .rings, .counters, .jobs, .sec, .out]
  | .graftRetire .. =>
    [.parts, .rings, .counters, .jobs, .grafts, .out]
  | .matteLoad .. | .matteFree .. =>
    [.parts, .rings, .counters, .jobs, .mattes, .out]
  | .loadChunk .. =>
    [.parts, .rings, .counters, .jobs, .weights, .links, .out]
  | .attnSetup .. | .takeReplacement .. | .takeRefresh .. | .cut .. =>
    [.boot, .regs, .parts, .rings, .counters, .jobs, .steps, .tiles, .boughs, .prods, .nextOrder, .weights, .links, .faults,
    .power, .sec, .out]
  | .releaseImage .. =>
    [.parts, .rings, .counters, .jobs, .tiles, .weights, .links, .sec, .out]
  | .refWarm .. =>
    [.parts, .rings, .counters, .jobs, .boughs, .out]
  | .calibrate .. =>
    [.parts, .rings, .counters, .jobs, .tiles, .boughs, .out]
  | .hkSample .. =>
    [.parts, .rings, .counters, .jobs, .hk, .out]
  | .retire .. | .fill .. =>
    [.parts, .rings, .counters, .jobs, .mem, .out]
  | .rehash .. =>
    [.parts, .rings, .counters, .jobs, .mem, .free, .out]
  | .arrayTest .. =>
    [.parts, .rings, .counters, .jobs, .steps, .tiles, .boughs, .prods, .weights, .links, .faults, .power, .sec, .out]
  | .resetCold .. | .resetWarm .. | .porstNAssert | .wrstNAssert | .resetTakesEffect | .fenceInRelease | .pmAlertN ..
  | .startFail | .watchdogExpiry | .hkConversionDone .. | .outlierReadReturn .. | .overflowPass _ (_ :: _)
  | .boughSum _ ⟨_ :: _, _⟩ | .boughSum _ ⟨[], _ :: _⟩ | .transferDone _ ⟨_, _ :: _⟩
  | .taprootAttention _ _ _ ⟨_, _, _ :: _⟩ | .graftTerm _ _ (_ :: _) | .slate .. =>
    everyPiece
  | .resetPartition .. =>
    [.parts, .rings, .counters, .jobs, .calls, .tiles, .boughs, .prods, .xferWaits, .links, .drains, .out]
  | .resetBough .. =>
    [.boot, .parts, .rings, .counters, .jobs, .calls, .tiles, .boughs, .prods, .xferWaits, .links, .drains, .out]
  | .resetPort .. =>
    [.boot, .parts, .rings, .counters, .jobs, .links, .out]
  | .powerStateD0 .. =>
    [.parts, .rings, .counters, .jobs, .power, .out]
  | .powerStateD2 .. | .powerStateD3 .. =>
    [.parts, .rings, .counters, .jobs, .boughs, .power, .out]
  | .fwCutover .. =>
    [.boot, .parts, .rings, .counters, .jobs, .sec, .out]
  | .doorbell .. =>
    [.parts, .rings, .counters, .jobs, .calls, .grafts, .mem, .links, .sec, .out]
  | .fetchFault .. =>
    [.rings, .counters, .sec, .out]
  | .recordWriteFault .. =>
    [.rings, .counters, .calls, .sec, .out]
  | .coalWindowExpiry .. =>
    [.rings, .out]
  | .seal .. | .versionNeg .. | .fenceCtrlRelease .. | .bootSrcGo .. | .counterSel .. | .hkCtrlRefen .. | .regWrite .. =>
    [.pins, .boot, .regs, .parts, .rings, .counters, .calls, .hk, .out]
  | .coldStart .. =>
    [.pins, .boot, .regs, .mem, .links, .faults, .hk, .free]
  | .warmStart =>
    [.pins, .boot, .regs, .rings, .counters, .jobs, .links, .sec, .out]
  | .fenceInAssert =>
    [.pins, .links]
  | .refclkLoss =>
    [.pins, .ticking, .counters, .links]
  | .refclkReturn =>
    [.pins, .rings, .ticking, .counters, .steps, .tiles, .boughs, .prods, .links, .faults, .power, .sec, .out]
  | .vaonLoss =>
    everyPiece
  | .optionLoad .. =>
    [.boot, .regs, .rings, .trims, .counters, .jobs, .tiles, .sec, .out]
  | .clockLock .. =>
    [.boot, .regs, .rings, .tick, .ticking, .counters, .jobs, .hk, .sec, .out]
  | .hkRefReady | .hkSlot =>
    [.hk]
  | .fwFetch .. =>
    [.boot, .regs, .rings, .counters, .jobs, .links, .power, .sec, .out]
  | .sramFill .. | .fwDigest =>
    [.boot, .regs, .rings, .counters, .jobs, .sec, .out]
  | .hbmTrain .. | .hbmExit .. =>
    [.boot, .regs, .rings, .counters, .jobs, .tiles, .boughs, .sec, .out]
  | .hbmFill .. =>
    [.boot, .regs, .parts, .rings, .counters, .jobs, .sec, .out]
  | .firstWatchdogService =>
    [.boot, .rings, .counters, .sec, .out]
  | .productIssue .. =>
    [.rings, .counters, .steps, .tiles, .boughs, .prods, .nextProd, .acts, .xferWaits, .histos, .links, .faults, .power, .sec,
    .out]
  | .programStepEnd .. | .verifyRead .. | .deckRetake .. | .chunkConversion | .epochDrained | .cutCtrl .. | .image ..
  | .repeat_ .. | .wakePhaseReady =>
    [.boot, .regs, .rings, .counters, .jobs, .steps, .tiles, .boughs, .prods, .nextOrder, .weights, .links, .faults, .power,
    .sec, .out]
  | .referenceSweep .. =>
    [.rings, .counters, .steps, .tiles, .boughs, .prods, .weights, .links, .faults, .power, .sec, .out]
  | .forcedGap .. =>
    [.counters, .tiles]
  | .deckAgeRecord .. | .driftUpdate .. =>
    [.tiles]
  | .driftAgeLimit .. =>
    [.rings, .counters, .steps, .tiles, .boughs, .prods, .weights, .sec, .out]
  | .graftTerm _ _ [] =>
    [.boot, .regs, .parts, .rings, .counters, .jobs, .calls, .steps, .batch, .stage, .grafts, .tiles, .boughs, .prods,
    .nextProd, .nextOrder, .sums, .handoffs, .acts, .xferWaits, .histos, .canopy, .backs, .latches, .attnWaits, .servedKv,
    .servedAttn, .weights, .mem, .links, .faults, .power, .sec, .out]
  | .outlierWindowEnd .. =>
    [.rings, .counters, .histos, .sec, .out]
  | .boughDrainAck .. =>
    [.drains]
  | .refReady .. =>
    [.boot, .regs, .rings, .counters, .jobs, .steps, .tiles, .boughs, .prods, .weights, .links, .faults, .power, .sec, .out]
  | .calRunEnd .. | .fitDone .. =>
    [.boot, .regs, .rings, .counters, .jobs, .steps, .tiles, .boughs, .calSave, .prods, .nextOrder, .weights, .links, .faults,
    .power, .sec, .out]
  | .sigCheck =>
    [.boot, .regs, .rings, .counters, .jobs, .steps, .grafts, .tiles, .boughs, .prods, .nextOrder, .weights, .links, .faults,
    .power, .sec, .out]
  | .batchWindowExpiry =>
    [.boot, .regs, .parts, .rings, .counters, .jobs, .calls, .steps, .batch, .splitHead, .stage, .batchNo, .grafts, .tiles,
    .boughs, .prods, .nextProd, .nextOrder, .sums, .handoffs, .acts, .xferWaits, .canopy, .backs, .latches, .attnWaits,
    .servedKv, .servedAttn, .weights, .mem, .links, .faults, .power, .sec, .free, .out]
  | .stepCommit .. | .tokenReturn .. =>
    [.boot, .regs, .parts, .rings, .counters, .jobs, .calls, .steps, .batch, .customers, .grafts, .tiles, .boughs, .prods,
    .nextOrder, .sums, .handoffs, .acts, .xferWaits, .canopy, .backs, .latches, .attnWaits, .servedKv, .servedAttn, .weights,
    .mem, .links, .faults, .power, .sec, .out]
  | .budgetRefill .. =>
    [.counters, .calls, .customers, .links, .out]
  | .preempt .. =>
    [.rings, .counters, .calls, .steps, .tiles, .boughs, .prods, .xferWaits, .links, .drains, .out]
  | .ack .. | .nak .. | .flitDiscard .. | .partnerBootRequest =>
    [.counters, .links, .out]
  | .degrade .. | .chainBreak .. | .laneWeak .. | .replayMax .. =>
    [.rings, .counters, .links, .sec, .out]
  | .discover .. =>
    [.boot, .regs, .rings, .counters, .jobs, .steps, .tiles, .boughs, .prods, .nextOrder, .sums, .handoffs, .acts, .xferWaits,
    .canopy, .backs, .latches, .attnWaits, .servedKv, .servedAttn, .weights, .mem, .links, .partner, .faults, .power, .sec,
    .out]
  | .activation .. =>
    [.parts, .rings, .counters, .jobs, .calls, .steps, .batch, .batchNo, .grafts, .tiles, .boughs, .prods, .sums, .handoffs,
    .acts, .xferWaits, .canopy, .backs, .latches, .attnWaits, .servedKv, .servedAttn, .mem, .links, .sec, .out]
  | .runningSum .. =>
    [.parts, .rings, .counters, .jobs, .calls, .steps, .batch, .grafts, .tiles, .boughs, .prods, .nextProd, .sums, .handoffs,
    .acts, .xferWaits, .canopy, .backs, .latches, .attnWaits, .servedKv, .servedAttn, .mem, .links, .faults, .power, .sec, .out]
  | .callCtrl .. | .mergeEvict .. =>
    [.boot, .regs, .parts, .rings, .counters, .jobs, .calls, .steps, .batch, .grafts, .tiles, .boughs, .prods, .nextOrder,
    .sums, .handoffs, .acts, .xferWaits, .canopy, .backs, .latches, .attnWaits, .servedKv, .servedAttn, .weights, .mem, .links,
    .faults, .power, .sec, .out]
  | .adopt .. | .fenceWaitEnd =>
    [.rings, .counters, .jobs, .calls, .steps, .batch, .tiles, .boughs, .prods, .sums, .handoffs, .acts, .xferWaits, .canopy,
    .backs, .latches, .attnWaits, .servedKv, .servedAttn, .mem, .links, .partner, .sec, .out]
  | .heartbeat .. =>
    [.rings, .counters, .links, .partner, .sec, .out]
  | .hbHold .. =>
    [.counters, .calls, .steps, .links, .partner, .out]
  | .journal .. =>
    [.parts, .rings, .counters, .calls, .steps, .batch, .grafts, .tiles, .boughs, .prods, .nextOrder, .sums, .handoffs, .acts,
    .xferWaits, .canopy, .backs, .latches, .attnWaits, .servedKv, .servedAttn, .mem, .links, .sec, .out]
  | .journalAck .. =>
    [.counters, .steps, .links, .out]
  | .retakeReq .. =>
    [.rings, .counters, .steps, .tiles, .boughs, .prods, .nextProd, .sums, .links, .partner, .faults, .power, .sec, .out]
  | .verifiedStepDone .. =>
    [.rings, .counters, .tiles, .boughs, .prods, .sums, .handoffs, .acts, .xferWaits, .canopy, .backs, .latches, .attnWaits,
    .servedKv, .servedAttn, .mem, .links, .partner, .sec, .out]
  | .retakeResp .. =>
    [.rings, .counters, .calls, .steps, .mem, .links, .faults, .sec, .out]
  | .retakeTimeout .. =>
    [.rings, .counters, .steps, .links, .faults, .sec, .out]
  | .mirrorDrop .. | .mirrorKeepExpiry .. =>
    [.parts, .rings, .counters, .calls, .steps, .batch, .grafts, .tiles, .boughs, .prods, .sums, .handoffs, .acts, .xferWaits,
    .canopy, .backs, .latches, .attnWaits, .servedKv, .servedAttn, .mem, .links, .sec, .out]
  | .heartbeatSend =>
    [.counters, .links, .partner, .out]
  | .heartbeatMiss =>
    [.pins, .rings, .counters, .calls, .steps, .links, .partner, .faults, .sec, .out]
  | .portTrained .. =>
    [.boot, .regs, .rings, .counters, .jobs, .links, .sec, .out]
  | .bucketLeak .. =>
    [.mem]
  | .hotSample .. | .hotspot .. =>
    [.rings, .counters, .mem, .sec, .out]
  | .hbmRetired =>
    [.rings, .counters, .jobs, .mem, .sec, .out]
  | .fillDone =>
    [.rings, .counters, .jobs, .mem, .out]
  | .rehashDone .. =>
    [.rings, .counters, .jobs, .calls, .mem, .links, .sec, .free, .out]
  | .slateOverdue .. =>
    [.faults]
  | .daily =>
    [.rings, .counters, .faults, .sec, .out]
  | .d1Entry =>
    [.counters, .boughs, .power]
  | .boughSwitchOpen .. =>
    [.boughs]
  | .pacerWindow =>
    [.regs, .parts, .rings, .counters, .jobs, .calls, .steps, .batch, .grafts, .tiles, .boughs, .prods, .sums, .handoffs, .acts,
    .xferWaits, .histos, .canopy, .backs, .latches, .attnWaits, .servedKv, .servedAttn, .mem, .links, .faults, .power, .sec,
    .out]
  | .energyScale .. =>
    [.power]
  | .levelStepSettled .. =>
    [.regs, .counters, .power, .out]
  | .levelStepTimeout =>
    [.regs, .rings, .counters, .power, .sec, .free, .out]
  | .regulatorFloorReturn =>
    [.regs, .power, .out]
  | .entryStepDone =>
    [.regs, .parts, .rings, .counters, .jobs, .calls, .steps, .batch, .grafts, .tiles, .boughs, .calSave, .prods, .sums,
    .handoffs, .acts, .xferWaits, .canopy, .backs, .latches, .attnWaits, .servedKv, .servedAttn, .mem, .links, .faults, .power,
    .sec, .out]
  | .wake .. =>
    [.jobs, .power, .out]
  | .wakeTimeout .. =>
    [.boot, .rings, .counters, .sec, .free, .out]
  | .switchPoint =>
    [.counters, .calls, .tiles, .boughs, .prods, .xferWaits, .links, .drains, .out]
  | .fwCutoverDone =>
    [.rings, .counters, .jobs, .calls, .sec, .out]
  | .vaonApply =>
    [.pins, .boot]
  | .portDown .. =>
    [.boot, .regs, .rings, .counters, .jobs, .links, .partner, .sec, .out]
  | .urgentSample .. =>
    [.counters, .hk]
  | .jtagInstruction .. =>
    [.pins]

end Sys2Proof.Machine
end

