-- ==== Sys2Proof/Certificates/Slice0/Obligations.lean ====
section
/-! DEFINITION. The statements for the provers. Where a statement has a command run, its conclusion is that `exec` answers a next
state under conditions on the state and the operands. -/

set_option Elab.async false

open Sys2Proof
open Sys2Proof.Machine

/-- With a command at the front of the queue, a step is the command's effect on the state that has the rest of the queue. -/
def Obligations.StepRunsFrontCommand : Prop :=
  ∀ (c : Instr) (rest : List Instr) (s : State), step { s with pending := c :: rest } = exec c { s with pending := rest }

/-- With nothing queued a step lets one local tick pass: the tick counter goes up by one when it counts and otherwise nothing
changes. That a tick is what a step does then is the model's choice (log 1); that the counter stands still while REFCLK is
lost is R394. -/
def Obligations.EmptyQueueTicks : Prop :=
  ∀ s : State, s.pending = [] → ∃ t, step s = .next t ∧ SameBut [.tick] s t ∧
    t.tick = if s.ticking then s.tick + 1 else s.tick

/-- After reset the device is held in cold reset with PORST_N asserted; READY and SEAL are 0, the control registers hold the
cold values of their tables, every ring is disabled and empty, every partition has no share, every call-sheet entry is FREE,
every counter reads 0, COUNTER_VAL is invalid, memory lists nothing and nothing has been put out or waits. -/
def Obligations.ResetValues : Prop :=
  (State.reset.boot.phase = .heldCold ∧ State.reset.pins.porst = true) ∧
  (State.reset.regs.ready = 0 ∧ State.reset.regs.sealed = false ∧ State.reset.regs.sealErr = 0 ∧ State.reset.regs.verAck = 0) ∧
  (State.reset.regs.level = 2 ∧ State.reset.regs.contPremium = 3 ∧ State.reset.regs.contBulk = 2 ∧
    State.reset.regs.tempThresh = 16 ∧ State.reset.regs.inplaceMax = 2 ∧ State.reset.regs.batchMax = 256 ∧
    State.reset.regs.chunkLen = 32 ∧ State.reset.regs.batchWindow = 0 ∧ State.reset.regs.preemptWait = 1563 ∧
    State.reset.regs.acceptMin = 10 ∧ State.reset.regs.reprobe = 1024 ∧ State.reset.regs.laneErrMax = 4096 ∧
    State.reset.regs.replayMax = 8 ∧ State.reset.regs.bucketCap = 64 ∧ State.reset.regs.bucketLeak = 20 ∧
    State.reset.regs.hotThresh = 75 ∧ State.reset.regs.hotWindow = 36 ∧ State.reset.regs.throttleT = 100 ∧
    State.reset.regs.idleD1 = 15625 ∧ State.reset.regs.pwrLimit = 1650 ∧ State.reset.regs.pwrPeak = 1900 ∧
    State.reset.regs.pwrBurst = 10 ∧ State.reset.regs.graftStage = 64 ∧ State.reset.regs.counterInvalid = true) ∧
  (∀ r : RingId, (State.reset.ring r).enabled = false ∧ (State.reset.ring r).pos = 0 ∧ (State.reset.ring r).count = 0) ∧
  (∀ p : Nat, (State.reset.part p).entryShare = 0 ∧ (State.reset.part p).enabled = false) ∧
  (∀ c : Nat, (State.reset.call c).state = .free) ∧ (∀ k : Nat, Tbl.get 0 k State.reset.counters = 0) ∧
  (State.reset.mem.hbm = [] ∧ State.reset.out = [] ∧ State.reset.pending = [])

/-- The tables and the memory of the reset state are in the canonical form that every step keeps, and every counter fits in 48
bits. -/
def Obligations.ResetCanonical : Prop :=
  State.reset.Canonical ∧ State.reset.CountersFit

/-- From any state in canonical form (keys strictly rising, no entry equal to what an unlisted key reads as), a step that
answers a next state leaves the state in canonical form, whatever the command: call sheet, customers, partitions, rings,
counters, tiles, boughs, calibration save area, links and the KV memory. -/
def Obligations.CanonicalKept : Prop :=
  ∀ s t : State, s.Canonical → step s = .next t → t.Canonical

/-- From any state whose counters fit in 48 bits, a step that answers a next state leaves every counter within 48 bits:
counters saturate and do not wrap, whatever the command counts. -/
def Obligations.CountersSaturate : Prop :=
  ∀ s t : State, s.CountersFit → step s = .next t → t.CountersFit

/-- A step that answers a next state only adds to what the device has put out, after everything issued before it, and takes at
most the front command from the queue. -/
def Obligations.OutputOnlyGrows : Prop :=
  ∀ s t : State, step s = .next t → s.out <+: t.out ∧ t.pending = s.pending.tail

/-- No command in any state answers a refusal; a step ends in a next state or in the fault that names an event which cannot
occur in the state. -/
def Obligations.NeverRefused : Prop :=
  ∀ (c : Instr) (s : State) (r : Refusal), exec c s ≠ .refused r ∧ step s ≠ .refused r

/-- When a descriptor's command answers a next state, every piece of the state that `Instr.reach` does not list for its row is
unchanged. For a NOP, a reserved opcode, DECK_READ and ATTEST that leaves the partition's turn, the rings, the counters, the
jobs and what is put out; a RESET of scope 1 or 2 may change everything but the queue and the count of draws. -/
def Obligations.DescriptorFrame : Prop :=
  ∀ (c : Instr) (s t : State), Instr.family c = .descriptor → exec c s = .next t → SameBut (Instr.reach c) s t

/-- When a command of the host rings, of the register window or of the pins answers a next state, every piece of the state
that `Instr.reach` does not list for its row is unchanged. A doorbell flit whose words do not reach their consumer whole resets
the device and may change everything but the queue and the count of draws. -/
def Obligations.HostFrame : Prop :=
  ∀ (c : Instr) (s t : State), Instr.family c = .host → exec c s = .next t →
    SameBut (if Instr.torn c = true then everyPiece else Instr.reach c) s t

/-- When a command of the starts, of housekeeping, of power or of a firmware cut-over answers a next state, every piece of the
state that `Instr.reach` does not list for its row is unchanged. -/
def Obligations.StartFrame : Prop :=
  ∀ (c : Instr) (s t : State), Instr.family c = .start → exec c s = .next t → SameBut (Instr.reach c) s t

/-- When a command of the tiles, the correction lane, the sums, the drains, calibration or the weights answers a next state,
every piece of the state that `Instr.reach` does not list for its row is unchanged; only a drain's end, or a read of HBM or SRAM
that finds flipped bits, can reset the device. -/
def Obligations.TileFrame : Prop :=
  ∀ (c : Instr) (s t : State), Instr.family c = .tile → exec c s = .next t → SameBut (Instr.reach c) s t

/-- When a command of the attention engines or of the schedule answers a next state, every piece of the state that
`Instr.reach` does not list for its row is unchanged. -/
def Obligations.CallFrame : Prop :=
  ∀ (c : Instr) (s t : State), Instr.family c = .call → exec c s = .next t → SameBut (Instr.reach c) s t

/-- When a flit, a port event or an event of the partner answers a next state, every piece of the state that `Instr.reach`
does not list for its row is unchanged; an acknowledgement, a NAK and a discarded flit change the links, the counters and what
is put out alone. A flit whose words do not reach their consumer whole resets the device and may change everything but the queue
and the count of draws. -/
def Obligations.LinkFrame : Prop :=
  ∀ (c : Instr) (s t : State), Instr.family c = .link → exec c s = .next t →
    SameBut (if Instr.torn c = true then everyPiece else Instr.reach c) s t

/-- When a command of the memory or of the fault unit answers a next state, every piece of the state that `Instr.reach` does
not list for its row is unchanged. -/
def Obligations.MemoryFrame : Prop :=
  ∀ (c : Instr) (s t : State), Instr.family c = .memory → exec c s = .next t → SameBut (Instr.reach c) s t

/-- For every descriptor command whose fetch is held (no version agreed, READY bit missing, ring stopped, fence behind
unfinished work, partition resetting or at its full share, another ring's turn, device asleep), the command answers a next
state in which nothing but the partition's stall mark and the stall counters has changed: the descriptor stays in its ring. -/
def Obligations.HeldDescriptorStays : Prop :=
  ∀ (c : Instr) (f : Sys2Proof.Fetch) (s : State), Instr.descriptor? c = some f → Instr.wf c = true → s.hasDescriptor f.ring = true →
    (s.running = true ∨ s.boot.phase = .coldStart) → s.fetchHeld f = true →
    ∃ t, exec c s = .next t ∧ SameBut [.parts, .counters] s t

/-- For every descriptor command that is fetched and refused by a check of R243, the command answers a next state in which the
fetch position has moved past it, its completion with the status of the first check that applies is out or waits for its
place, and nothing but the partition's turn, the rings, the jobs, the counters and what is put out has changed. -/
def Obligations.ChecksAnswerFirst : Prop :=
  ∀ (c : Instr) (f : Sys2Proof.Fetch) (s : State) (st : Status), s.Canonical → Instr.descriptor? c = some f → Instr.wf c = true →
    s.Fetched f → s.descStatus f = some st →
    ∃ t, exec c s = .next t ∧ Answered s t f st 0 0 ∧ SameBut [.parts, .rings, .jobs, .counters, .out] s t

/-- An accepted NOP is taken from its ring and answered with OK. A fetched descriptor with a reserved opcode and the agreed
version is taken from its ring and answered with BAD_OPCODE. -/
def Obligations.NopAndReservedOpcodes : Prop :=
  (∀ (f : Sys2Proof.Fetch) (s : State), s.Canonical → Instr.wf (.nop f) = true → s.Accepted f →
    ∃ t, exec (.nop f) s = .next t ∧ Answered s t f .ok 0 0) ∧
  (∀ (f : Sys2Proof.Fetch) (s : State), s.Canonical → Instr.wf (.badOpcode f) = true → s.Fetched f →
    Fetch.version f = s.regs.verAck.toNat → ∃ t, exec (.badOpcode f) s = .next t ∧ Answered s t f .badOpcode 0 0)

/-- An accepted GRAFT_LOAD, MATTE_LOAD, LOAD_MANIFEST, LOAD_CHUNK, LOAD_PLACEMENT, ATTN_SETUP or TAKE in refresh mode whose
buffer read fails is answered with HOST_FAULT; nothing but the partition's turn, the rings, the jobs, the counters and what is
put out has changed. -/
def Obligations.BufferFaultsAnswer : Prop :=
  ∀ (f : Sys2Proof.Fetch) (s : State), s.Canonical → s.Accepted f → f.bufFault = true →
    ∀ c ∈ [Instr.graftLoad f, .matteLoad f, .loadManifest f, .loadChunk f, .loadPlacement f, .attnSetup f, .takeRefresh f], Instr.wf c = true →
    ∃ t, exec c s = .next t ∧ Answered s t f .hostFault 0 0 ∧ SameBut [.parts, .rings, .jobs, .counters, .out] s t

/-- An accepted GRAFT_LOAD, LOAD_MANIFEST or LOAD_PLACEMENT with a readable buffer is taken from its ring and in progress, and
the object joins the queue of objects that wait for a signature check. FW_STAGE does the same where no stage or cut-over is in
progress and the slot is not the running image's; the slot then holds no valid image. -/
def Obligations.SignedObjectsWait : Prop :=
  (∀ (f : Sys2Proof.Fetch) (s : State), s.Canonical → s.Accepted f → f.bufFault = false →
    (Instr.wf (.graftLoad f) = true → ∃ t, exec (.graftLoad f) s = .next t ∧ Started s t f ∧
      t.sec.queue = s.sec.queue ++ [.graft (Bits.slice f.buf 0 (Fetch.at f 16 8)) f.ring (s.jobOf f)]) ∧
    (Instr.wf (.loadManifest f) = true → ∃ t, exec (.loadManifest f) s = .next t ∧ Started s t f ∧
      t.sec.queue = s.sec.queue ++ [.manifest (Bits.slice f.buf 0 (Fetch.at f 16 8)) (some (s.jobOf f))]) ∧
    (Instr.wf (.loadPlacement f) = true → ∃ t, exec (.loadPlacement f) s = .next t ∧ Started s t f ∧
      t.sec.queue = s.sec.queue ++ [.placement (Bits.slice f.buf 0 (Fetch.at f 16 8)) (s.jobOf f)])) ∧
  (∀ (f : Sys2Proof.Fetch) (s : State), s.Canonical → s.Accepted f → f.bufFault = false → Instr.wf (.fwStage f) = true →
    s.sec.staging = none → s.sec.cutover = none → Fetch.bits f 192 1 ≠ s.sec.runSlot →
    ∃ t, exec (.fwStage f) s = .next t ∧ Started s t f ∧ t.sec.staging = some (Fetch.bits f 192 1, s.jobOf f) ∧
      t.sec.queue = s.sec.queue ++ [.firmware (Bits.slice f.buf 0 (Fetch.at f 16 8)) (Fetch.bits f 192 1) (s.jobOf f)])

/-- GRAFT_RETIRE by a ring that may name the graft leaves its handle without a current generation and every other handle as it
was. MATTE_LOAD of a good matte adds it to the registered ones. MATTE_FREE of a registered matte that no call names removes
that handle alone. Each is answered with OK. -/
def Obligations.GraftsAndMattes : Prop :=
  (∀ (f : Sys2Proof.Fetch) (s : State) (g : Graft), s.Canonical → s.Accepted f → Instr.wf (.graftRetire f) = true →
    s.currentGraft (Fetch.at f 8 2) = some g → mayName f.ring g.partition = true →
    ∃ t, exec (.graftRetire f) s = .next t ∧ Answered s t f .ok 0 0 ∧ t.currentGraft (Fetch.at f 8 2) = none ∧
      ∀ h, h ≠ Fetch.at f 8 2 → t.currentGraft h = s.currentGraft h) ∧
  (∀ (f : Sys2Proof.Fetch) (s : State), s.Canonical → s.Accepted f → Instr.wf (.matteLoad f) = true → f.bufFault = false →
    matteBad s f.ring (Fetch.at f 16 8) (Bits.slice f.buf 0 (Fetch.at f 16 8)) = false →
    ∃ t, exec (.matteLoad f) s = .next t ∧ Answered s t f .ok 0 0 ∧
      t.mattes = s.mattes ++ [matteOf (Bits.slice f.buf 0 (Fetch.at f 16 8))]) ∧
  (∀ (f : Sys2Proof.Fetch) (s : State) (m : Matte), s.Canonical → s.Accepted f → Instr.wf (.matteFree f) = true →
    s.matte? (Fetch.at f 8 4) = some m → mayName f.ring m.partition = true →
    (∀ x ∈ s.calls, x.2.hasMatte = true → x.2.state ≠ .free → x.2.matteHandle ≠ Fetch.at f 8 4) →
    ∃ t, exec (.matteFree f) s = .next t ∧ Answered s t f .ok 0 0 ∧ t.matte? (Fetch.at f 8 4) = none ∧
      ∀ h, h ≠ Fetch.at f 8 4 → t.matte? h = s.matte? h)

/-- An accepted BUDGET_SET of a record that its issuer owns, with a positive interval and no reserved field set, is answered
with OK. The record is valid with the descriptor's flag, capacity, refill, prompt weight and interval; a record that was not
valid starts at its full capacity with a refill one interval from now, a valid one keeps its level, refills applied, up to the
new capacity. Every other record is unchanged. -/
def Obligations.BudgetsAreSet : Prop :=
  ∀ (f : Sys2Proof.Fetch) (s : State), s.Canonical → s.Accepted f → Instr.wf (.budgetSet f) = true → Fetch.at f 40 6 ≠ 0 →
    budgetReserved f = false → budgetOwned f s (Fetch.at f 8 2) = true →
    ∃ t, exec (.budgetSet f) s = .next t ∧ Answered s t f .ok 0 0 ∧
      (∀ k, k ≠ Fetch.at f 8 2 → t.customer k = s.customer k) ∧
      (t.customer (Fetch.at f 8 2)).valid = true ∧ (t.customer (Fetch.at f 8 2)).parkEvent = f.word.getLsbD 192 ∧
      (t.customer (Fetch.at f 8 2)).capacity = Fetch.at f 28 4 ∧ (t.customer (Fetch.at f 8 2)).refill = Fetch.at f 32 4 ∧
      (t.customer (Fetch.at f 8 2)).promptWeight = Fetch.at f 36 2 ∧ (t.customer (Fetch.at f 8 2)).interval = Fetch.at f 40 6 ∧
      ((s.customer (Fetch.at f 8 2)).valid = false →
        (t.customer (Fetch.at f 8 2)).level = ((Fetch.at f 28 4 * 256 : Nat) : Int) ∧
        (t.customer (Fetch.at f 8 2)).nextRefill = s.now + Fetch.at f 40 6) ∧
      ((s.customer (Fetch.at f 8 2)).valid = true →
        (t.customer (Fetch.at f 8 2)).level =
          min (State.refilled (s.customer (Fetch.at f 8 2)) s.now).level ((Fetch.at f 28 4 * 256 : Nat) : Int))

/-- An accepted BUDGET_READ of an owned record writes the record, refills applied, to the host. DECK_READ of a tile and deck
writes the 96 bytes of the deck record and the tile's remap table. ATTEST writes its report, in whose bytes 32 to 63 the
descriptor's nonce stands, and result0 is its length. Each is answered with OK where its buffer can be written. -/
def Obligations.ReportsReachTheHost : Prop :=
  (∀ (f : Sys2Proof.Fetch) (s : State), s.Canonical → s.Accepted f → f.bufFault = false → Instr.wf (.budgetRead f) = true →
    budgetOwned f s (Fetch.at f 8 2) = true →
    ∃ t, exec (.budgetRead f) s = .next t ∧ Answered s t f .ok 0 0 ∧
      PutOut s t (.hostWrite (Fetch.at f 16 8) (State.refilled (s.customer (Fetch.at f 8 2)) s.now).bytes)) ∧
  (∀ (f : Sys2Proof.Fetch) (s : State), s.Canonical → s.Accepted f → f.bufFault = false → Instr.wf (.deckRead f) = true →
    Fetch.at f 8 2 < 8192 → Fetch.bits f 80 4 < 8 →
    ∃ t, exec (.deckRead f) s = .next t ∧ Answered s t f .ok 0 0 ∧
      PutOut s t (.hostWrite (Fetch.at f 16 8) (deckCopy s (Fetch.at f 8 2) (Fetch.bits f 80 4))) ∧
      (deckCopy s (Fetch.at f 8 2) (Fetch.bits f 80 4)).length = 96) ∧
  (∀ (f : Sys2Proof.Fetch) (s : State), s.Canonical → s.Accepted f → f.bufFault = false → Instr.wf (.attest f) = true →
    (attestReport (s.advance f.ring) (Bits.slice (Fetch.bytes f) 8 32)).length ≤ Fetch.at f 48 4 →
    ∃ t r, exec (.attest f) s = .next t ∧ Answered s t f .ok r.length 0 ∧ PutOut s t (.hostWrite (Fetch.at f 40 8) r) ∧
      Bits.slice r 32 32 = Bits.slice (Fetch.bytes f) 8 32)

/-- An accepted CANCEL that names a live call of its partition: where the call acts at once it ends, its entry freed or kept
only until its completion is written, and no step of it is left; otherwise the descriptor is in progress and the call is
marked cancelled. RELEASE_CALL of a HELD call leaves its entry FREE with every field at its empty value and is answered with
OK. -/
def Obligations.CallsAreCancelledAndReleased : Prop :=
  (∀ (f : Sys2Proof.Fetch) (s : State) (p k c : Nat), s.Canonical → s.Accepted f → Instr.wf (.cancel f) = true →
    f.ring = .sq p k → s.findCall p (Fetch.at f 8 4) State.liveEntry = some c →
    ∃ t, exec (.cancel f) s = .next t ∧
      (s.actsAtOnce c = true → ((t.call c).ended = true ∨ (t.call c).state = .free) ∧ ∀ x ∈ t.steps, x.call ≠ c) ∧
      (s.actsAtOnce c = false → Started s t f ∧ (t.call c).cancelled = true)) ∧
  (∀ (f : Sys2Proof.Fetch) (s : State) (p k c : Nat), s.Canonical → s.Accepted f → Instr.wf (.releaseCall f) = true →
    f.ring = .sq p k → s.findCall p (Fetch.at f 8 4) (fun e => decide (e.state = .held)) = some c →
    ∃ t, exec (.releaseCall f) s = .next t ∧ Answered s t f .ok 0 0 ∧ t.call c = {})

/-- An accepted STEP_MASK for a live call with a kind 3 matte that holds no mask, naming the call's next sampling step, with
the length of a bitmap over the vocabulary and a readable buffer: the call holds the mask of that step, its other fields as
they were, no step of the call waits for a mask any more, and the descriptor is answered with OK. -/
def Obligations.MaskServesItsStep : Prop :=
  ∀ (f : Sys2Proof.Fetch) (s : State) (p k c : Nat) (m : Matte), s.Canonical → s.Accepted f → Instr.wf (.stepMask f) = true →
    f.ring = .sq p k → s.findCall p (Fetch.at f 8 4) State.liveEntry = some c → s.matte? (s.call c).matteHandle = some m →
    (s.call c).hasMatte = true → m.kind = 3 → (s.call c).mask = none → s.samplingStep (s.call c) = some (Fetch.at f 12 4) →
    Fetch.at f 24 4 = 8 * Bits.ceilDiv m.vocab 64 → f.bufFault = false →
    ∃ t, exec (.stepMask f) s = .next t ∧ Answered s t f .ok 0 0 ∧
      t.call c = { s.call c with mask := some (Fetch.at f 12 4, Bits.slice f.buf 0 (Fetch.at f 24 4)) } ∧
      ∀ x ∈ t.steps, x.call = c → x.waitsMask = false

/-- An accepted ADMIT that is no continuation and that R237 does not refuse fills the lowest FREE entry (which entry is the
model's choice, log 10): tag, partition, customer, lengths, seed and deadline are the descriptor's, nothing is prefilled or
generated, the call is QUEUED until its frame charge is made and READY then, and the descriptor stays in progress as the
call's own. A TUNE that nothing refuses does the same for a bulk call that generates nothing, with its training state; on a
chain of one position its reports are checked at once. -/
def Obligations.CallsAreAdmitted : Prop :=
  (∀ (f : Sys2Proof.Fetch) (s : State) (p k : Nat), s.Canonical → s.Accepted f → Instr.wf (.admitCall f) = true → f.ring = .sq p k →
    (admitOps f).cont = false → s.admitStatus p f (admitOps f) = none →
    ∃ t, exec (.admitCall f) s = .next t ∧ { s.jobOf f with premium := (admitOps f).premium } ∈ t.jobs ∧
      ((t.call s.freeEntry).state = .queued ∨ (t.call s.freeEntry).state = .ready) ∧
      (t.call s.freeEntry).tag = Fetch.tag f ∧ (t.call s.freeEntry).partition = p ∧
      (t.call s.freeEntry).premium = f.word.getLsbD 64 ∧ (t.call s.freeEntry).customer = Fetch.at f 10 2 ∧
      (t.call s.freeEntry).promptLen = Fetch.at f 16 4 ∧ (t.call s.freeEntry).maxNew = Fetch.at f 20 4 ∧
      (t.call s.freeEntry).prefilled = 0 ∧ (t.call s.freeEntry).generated = 0 ∧
      (t.call s.freeEntry).seed = BitVec.ofNat 64 (Fetch.at f 32 8) ∧ (t.call s.freeEntry).deadline = Fetch.at f 40 8 ∧
      (t.call s.freeEntry).admitTick = s.now ∧
      (t.call s.freeEntry).job = some { s.jobOf f with premium := (admitOps f).premium }) ∧
  (∀ (f : Sys2Proof.Fetch) (s : State) (p k : Nat), s.Canonical → s.Accepted f → Instr.wf (.tune f) = true → f.ring = .sq p k →
    tuneStatus s p f = none → 1 < s.chainLength →
    ∃ t, exec (.tune f) s = .next t ∧ s.jobOf f ∈ t.jobs ∧
      ((t.call s.freeEntry).state = .queued ∨ (t.call s.freeEntry).state = .ready) ∧
      (t.call s.freeEntry).tag = Fetch.tag f ∧ (t.call s.freeEntry).partition = p ∧ (t.call s.freeEntry).premium = false ∧
      (t.call s.freeEntry).maxNew = 0 ∧ (t.call s.freeEntry).graftHandle = Fetch.at f 8 2 ∧
      (t.call s.freeEntry).tune = some (tuneState s p f)) ∧
  (∀ (f : Sys2Proof.Fetch) (s : State) (p k : Nat) (g : Graft), s.Canonical → s.Accepted f → Instr.wf (.tune f) = true →
    f.ring = .sq p k → tuneStatus s p f = none → s.chainLength ≤ 1 → s.currentGraft (Fetch.at f 8 2) = some g → g.rank ≠ 0 →
    g.entries ≠ [] → Fetch.at f 40 8 = sectionLen g.body.length →
    ∃ t, exec (.tune f) s = .next t ∧ (t.call s.freeEntry).tune = some { tuneState s p f with checked := true })

/-- A replacement TAKE of a staged generation that no host take concerns, a refresh TAKE of bound matrices of the live
generation that no host take concerns, and a CUT to a staged generation complete as rows with a next state: the descriptor is
taken from its ring and in progress; the take is listed last in state LOADING with the next take_id, its generation, its mode,
its matrices in ascending order and its descriptor; the cut joins those held at position 0. Nothing else has changed before takes
and cuts go on as far as the state allows. -/
def Obligations.TakesAndCutsBegin : Prop :=
  (∀ (f : Sys2Proof.Fetch) (s : State) (g : Gen), s.Canonical → s.Accepted f → Instr.wf (.takeReplacement f) = true →
    Fetch.bits f 64 2 = 1 → Fetch.at f 12 4 ≠ 0 → s.gen? (Fetch.at f 12 4) = some g → g.live = false →
    (∀ x ∈ s.weights.takes, x.firmware = false → x.image ≠ Fetch.at f 12 4) → (∀ m ∈ s.supplied g, m.id ∉ s.hostTakeMats) →
    ∃ u : State, exec (.takeReplacement f) s = .next u.settle ∧ Started s u f ∧ SameBut [.parts, .rings, .jobs, .weights] s u ∧
      u.weights = { s.weights with
        nextTake := s.weights.nextTake + 1,
        takes := s.weights.takes ++ [{
          id := s.weights.nextTake, refresh := false, firmware := false, image := Fetch.at f 12 4,
          mats := sortBy (fun a b => decide (a < b)) ((s.supplied g).map fun m => m.id), st := .loading, job := some (s.jobOf f),
          inPlace := false, targets := [], left := 0, toSlow := [], toReturn := [] }] }) ∧
  (∀ (f : Sys2Proof.Fetch) (s : State) (g : Gen) (mats : List Nat), s.Canonical → s.Accepted f → Instr.wf (.takeRefresh f) = true →
    f.bufFault = false → s.liveGen = some g →
    mats = sortBy (fun a b => decide (a < b)) (distinct ((List.range (min (Fetch.at f 16 4) (f.buf.length / 4))).map fun k =>
      Bits.le f.buf (4 * k) 4)) →
    (∀ m ∈ mats, (s.binding? m).isSome = true) → (∀ m ∈ mats, m ∉ s.hostTakeMats) →
    ∃ u : State, exec (.takeRefresh f) s = .next u.settle ∧ Started s u f ∧ SameBut [.parts, .rings, .jobs, .weights] s u ∧
      u.weights = { s.weights with
        nextTake := s.weights.nextTake + 1,
        takes := s.weights.takes ++ [{
          id := s.weights.nextTake, refresh := true, firmware := false, image := g.imageId, mats := mats, st := .loading,
          job := some (s.jobOf f), inPlace := false, targets := [], left := 0, toSlow := [], toReturn := [] }] }) ∧
  (∀ (f : Sys2Proof.Fetch) (s : State), s.Canonical → s.Accepted f → Instr.wf (.cut f) = true → Fetch.at f 8 4 ≠ 0 →
    s.isStaged (Fetch.at f 8 4) = true →
    ∃ u : State, exec (.cut f) s = .next u.settle ∧ Started s u f ∧ SameBut [.parts, .rings, .jobs, .weights] s u ∧
      u.weights = { s.weights with cuts := s.weights.cuts ++ [(s.jobOf f, Fetch.at f 8 4)] })

/-- An accepted LOAD_CHUNK of a chunk that nothing refuses and that its resident generation has not accepted adds the chunk's
sequence number to what the generation has accepted and completes with OK and that number in result0. ATTN_SETUP of good
records adds them to the generation in their order, in place of records passed on from a base for the same layers, and is
answered with OK. RELEASE_IMAGE of a generation that no binding and
no batch uses leaves none with that image_id and completes with OK. -/
def Obligations.ChunksAndRecordsEnter : Prop :=
  (∀ (f : Sys2Proof.Fetch) (s : State) (g : Gen), s.Canonical → s.Accepted f → Instr.wf (.loadChunk f) = true → f.bufFault = false →
    s.chunkStatus (loadedObject f) = none → s.gen? (chunkHdr (loadedObject f)).image = some g →
    (chunkHdr (loadedObject f)).seq ∉ g.accepted →
    ∃ t, exec (.loadChunk f) s = .next t ∧ Answered s t f .ok (chunkHdr (loadedObject f)).seq 0 ∧
      ∃ h, t.gen? (chunkHdr (loadedObject f)).image = some h ∧ h.accepted = g.accepted ++ [(chunkHdr (loadedObject f)).seq]) ∧
  (∀ (f : Sys2Proof.Fetch) (s : State), s.Canonical → s.Accepted f → Instr.wf (.attnSetup f) = true → f.bufFault = false →
    attnBad s (Fetch.at f 8 4) (Fetch.at f 12 4) (Bits.slice f.buf 0 (16 * Fetch.at f 12 4)) = false →
    ∃ t, exec (.attnSetup f) s = .next t ∧ Delivered s t (answerRing f.ring) (s.answerOf (s.jobOf f) .ok 0 0) ∧
      ∃ rs : List (Attn × Bytes), rs = (List.range (Fetch.at f 12 4)).map (attnRecord (Bits.slice f.buf 0 (16 * Fetch.at f 12 4))) ∧
        t = (((s.advance f.ring).modGen (Fetch.at f 8 4) fun (g : Gen) => { g with
          attn := (g.attn.filter fun a => !(rs.any fun r => r.1.layer == a.1.layer)) ++ rs,
          attnPassed := g.attnPassed.filter fun l => !(rs.any fun r => r.1.layer == l) }).settle).complete (s.jobOf f) .ok) ∧
  (∀ (f : Sys2Proof.Fetch) (s : State) (g : Gen), s.Canonical → s.Accepted f → Instr.wf (.releaseImage f) = true →
    Fetch.at f 8 4 ≠ 0 → s.gen? (Fetch.at f 8 4) = some g → s.imageInUse (Fetch.at f 8 4) = false →
    ∃ t, exec (.releaseImage f) s = .next t ∧ Delivered s t (answerRing f.ring) (s.answerOf (s.jobOf f) .ok 0 0) ∧
      t.gen? (Fetch.at f 8 4) = none)

/-- REF_WARM puts the reference of every named cold bough that is not withdrawn to warming from now and leaves every other
bough as it was. CALIBRATE leaves every named bough that is not withdrawn with a run in progress or pending. HK_SAMPLE of a
channel with the housekeeping converter idle starts that channel's urgent conversion. The first two are answered with OK;
HK_SAMPLE stays in progress. -/
def Obligations.ReferencesWarmAndRunsAreRequested : Prop :=
  (∀ (f : Sys2Proof.Fetch) (s : State), s.Canonical → s.Accepted f → Instr.wf (.refWarm f) = true →
    ∃ t, exec (.refWarm f) s = .next t ∧ Answered s t f .ok 0 0 ∧
      ∀ b, t.bough b = if b < 128 ∧ f.word.getLsbD (64 + b) = true ∧ (s.bough b).withdrawn = false ∧ (s.bough b).ref = .cold then
        { s.bough b with ref := .warming s.now } else s.bough b) ∧
  (∀ (f : Sys2Proof.Fetch) (s : State), s.Canonical → s.Accepted f → Instr.wf (.calibrate f) = true →
    ∃ t, exec (.calibrate f) s = .next t ∧ Answered s t f .ok 0 0 ∧
      ∀ b, b < 128 → f.word.getLsbD (64 + b) = true → (s.bough b).withdrawn = false →
        (t.bough b).runOn = true ∨ (t.bough b).runPending = true) ∧
  (∀ (f : Sys2Proof.Fetch) (s : State), s.Canonical → s.Accepted f → Instr.wf (.hkSample f) = true → Fetch.at f 8 2 < 164 →
    s.hk.busy = none →
    ∃ t, exec (.hkSample f) s = .next t ∧ Started s t f ∧
      t.hk = { s.hk with busy := some { channel := Fetch.at f 8 2, start := s.now, job := some (s.jobOf f), urgent := true } })

/-- An accepted ARRAY_TEST of a deck that can be tested, with a buffer that can be written, writes a result of 4,160 bytes to
the host when its tile has a gap; without a gap it stays in its ring and only the tile's bough, its reference warming, and the
count of cold waits change. -/
def Obligations.ArrayTestRunsInAGap : Prop :=
  ∀ (f : Sys2Proof.Fetch) (codes : List Int) (s : State), s.Canonical → s.Accepted f → Instr.wf (.arrayTest f codes) = true →
    arrayTestBad f s = false → f.bufFault = false →
    ∃ t, exec (.arrayTest f codes) s = .next t ∧
      (s.gap (Fetch.at f 8 2) = true → ∃ b, PutOut s t (.hostWrite (Fetch.at f 16 8) b) ∧ b.length = 4160) ∧
      (s.gap (Fetch.at f 8 2) = false → SameBut [.boughs, .counters] s t ∧ ∀ b, b ≠ Fetch.at f 8 2 / 64 → t.bough b = s.bough b)

/-- An accepted RETIRE, FILL or REHASH that R301, R303 and R306 do not refuse is taken from its ring and in progress, behind
those before it, and the bytes of the KV memory are as they were. -/
def Obligations.MemoryMaintenanceStarts : Prop :=
  (∀ (f : Sys2Proof.Fetch) (s : State), s.Canonical → s.Accepted f → Instr.wf (.retire f) = true →
    s.retireBad (Fetch.at f 8 1) (Fetch.at f 16 8) = false →
    ∃ t, exec (.retire f) s = .next t ∧ Started s t f ∧ t.mem.hbm = s.mem.hbm ∧
      t.mem.retireJobs = s.mem.retireJobs ++ [{ job := s.jobOf f, a := Fetch.at f 8 1, b := Fetch.at f 16 8 }]) ∧
  (∀ (f : Sys2Proof.Fetch) (s : State), s.Canonical → s.Accepted f → Instr.wf (.fill f) = true →
    s.fillBad (Fetch.at f 8 8) (Fetch.at f 16 8) = false →
    ∃ t, exec (.fill f) s = .next t ∧ Started s t f ∧ t.mem.hbm = s.mem.hbm ∧
      t.mem.fillJobs = s.mem.fillJobs ++ [{ job := s.jobOf f, a := Fetch.at f 8 8, b := Fetch.at f 16 8 }]) ∧
  (∀ (f : Sys2Proof.Fetch) (s : State), s.Canonical → s.Accepted f → Instr.wf (.rehash f) = true → Fetch.bits f 64 2 ≠ 0 →
    ∃ t, exec (.rehash f) s = .next t ∧ Started s t f ∧ t.mem.hbm = s.mem.hbm ∧
      t.mem.rehash = s.mem.rehash ++ [{ job := s.jobOf f, a := Fetch.bits f 64 2, b := Fetch.at f 9 1 }])

/-- Scope 1 with no program pulse running leaves the device held in cold reset from source 3; with one running the cold reset
is held. Scope 2 of a running device is in progress with a drain of every call. Scope 3 marks its partition resetting, and the
first of several starts the partition's drain. Scope 4 of a running device waits on its bough, whose drain starts. Scope 5 of
a running device puts its port into training. During a cold start scopes 4 and 5 wait for the start's end. -/
def Obligations.ResetsAreAsked : Prop :=
  (∀ (f : Sys2Proof.Fetch) (s : State), s.Canonical → s.Accepted f → Instr.wf (.resetCold f) = true → Fetch.bits f 64 3 = 1 →
    ∃ t, exec (.resetCold f) s = .next t ∧
      (s.pulseRuns none = false → t.boot.phase = .heldCold ∧ t.boot.source = 3 ∧ t.regs.ready = 0) ∧
      (s.pulseRuns none = true → Started s t f ∧ ∃ k, t.boot.heldReset = some (true, k))) ∧
  (∀ (f : Sys2Proof.Fetch) (s : State), s.Canonical → s.Accepted f → Instr.wf (.resetWarm f) = true → s.running = true →
    ∃ t, exec (.resetWarm f) s = .next t ∧ Started s t f ∧ t.boot.warmJob.isSome = true ∧ ∃ d ∈ t.drains, d.why = .warmReset) ∧
  (∀ (f : Sys2Proof.Fetch) (s : State) (p : Nat), s.Canonical → s.Accepted f → Instr.wf (.resetPartition f) = true →
    p = Fetch.bits f 72 6 → p < 32 →
    ∃ t, exec (.resetPartition f) s = .next t ∧ Started s t f ∧ (t.part p).resetting = true ∧ s.jobOf f ∈ (t.part p).resetJobs ∧
      ((s.part p).resetting = false → ∃ d ∈ t.drains, d.scope = .partition p ∧ d.why = .partitionReset p)) ∧
  (∀ (f : Sys2Proof.Fetch) (s : State) (b : Nat), s.Canonical → s.Accepted f → Instr.wf (.resetBough f) = true →
    b = Fetch.bits f 80 7 →
    ∃ t, exec (.resetBough f) s = .next t ∧ Started s t f ∧
      (s.starting = true → s.jobOf f ∈ t.boot.lostJobs) ∧
      (s.starting = false → s.jobOf f ∈ (t.bough b).resetJobs ∧
        ((s.bough b).resetJobs = [] → (t.bough b).draining = true ∧ ∃ d ∈ t.drains, d.scope = .bough b ∧ d.why = .boughReset b))) ∧
  (∀ (f : Sys2Proof.Fetch) (s : State), s.Canonical → s.Accepted f → Instr.wf (.resetPort f) = true → Fetch.bits f 72 6 < 4 →
    ∃ t, exec (.resetPort f) s = .next t ∧ Started s t f ∧
      (s.starting = true → s.jobOf f ∈ t.boot.lostJobs) ∧
      (s.starting = false → (t.link (portOf (Fetch.bits f 72 6))).state = .training ∧
        s.jobOf f ∈ (t.link (portOf (Fetch.bits f 72 6))).resetJobs))

/-- POWER_STATE D0 in D2 starts a wake with the descriptor; in any other state it is answered with OK. POWER_STATE D2 in D2 is
answered with OK; from another state POWER_STATE D2 or D3 is answered with NOT_IDLE where the device is not idle and otherwise
starts the entry at its first step, with every calibration run abandoned. FW_CUTOVER to another slot that holds a valid image
with its digest, with nothing in its way, is in progress and pauses the watchdog. -/
def Obligations.PowerStatesAndCutovers : Prop :=
  (∀ (f : Sys2Proof.Fetch) (s : State), s.Canonical → s.Accepted f → Instr.wf (.powerStateD0 f) = true → Fetch.bits f 64 2 = 0 →
    ∃ t, exec (.powerStateD0 f) s = .next t ∧
      (s.power.dstate = .d2 → Started s t f ∧ t.power.wake = some { from_ := .d2, phase := 0, job := some (s.jobOf f) }) ∧
      (s.power.dstate ≠ .d2 → Answered s t f .ok 0 0 ∧ t.power = s.power)) ∧
  (∀ (f : Sys2Proof.Fetch) (s : State), s.Canonical → s.Accepted f → Instr.wf (.powerStateD2 f) = true →
    ∃ t, exec (.powerStateD2 f) s = .next t ∧ (s.power.dstate = .d2 → Answered s t f .ok 0 0) ∧
      (s.power.dstate ≠ .d2 → s.notIdle = true → Answered s t f .notIdle 0 0 ∧ t.power = s.power) ∧
      (s.power.dstate ≠ .d2 → s.notIdle = false → Started s t f ∧ (∀ b, b < 128 → (t.bough b).runOn = false) ∧
        t.power.entry = some
          { target := .d2, step := 1, abort := false, job := s.jobOf f, runs := s.runningBoughs, before := s.power.dstate })) ∧
  (∀ (f : Sys2Proof.Fetch) (s : State), s.Canonical → s.Accepted f → Instr.wf (.powerStateD3 f) = true →
    ∃ t, exec (.powerStateD3 f) s = .next t ∧ (s.notIdle = true → Answered s t f .notIdle 0 0 ∧ t.power = s.power) ∧
      (s.notIdle = false → s.jobOf f ∈ t.jobs ∧
        t.power.entry = some
          { target := .d3, step := 1, abort := false, job := s.jobOf f, runs := s.runningBoughs, before := s.power.dstate })) ∧
  (∀ (f : Sys2Proof.Fetch) (s : State) (x : FwSlot), s.Canonical → s.Accepted f → Instr.wf (.fwCutover f) = true →
    cutoverBusy s = false → Fetch.bits f 64 1 ≠ s.sec.runSlot → x = Tbl.get {} (Fetch.bits f 64 1) s.sec.slots → x.valid = true →
    Shake.digest32 x.bytes = x.digest →
    ∃ t, exec (.fwCutover f) s = .next t ∧ Started s t f ∧ t.boot.dogPaused = true ∧
      t.sec.cutover = some { slot := Fetch.bits f 64 1, job := s.jobOf f, switched := false, switchTick := 0 })

/-- On a device that serves or starts and is not isolated, a doorbell of an enabled inbound ring whose count is at most the
ring's size ahead of the fetch position becomes the ring's count, lets a stopped ring be fetched again and leaves the rest of
the ring as it was; one outside that bound leaves the count. On an enabled outbound ring a count between the old one and the
producer position becomes the ring's count. A doorbell of a disabled ring changes counters alone. It is the same whether the
count comes by a flit on port H or is read from the doorbell record. -/
def Obligations.DoorbellsMoveCounts : Prop :=
  (∀ (r : RingId) (count : BitVec 32) (s : State), s.Canonical → ringExists r = true → s.serving = true → s.isolated = false →
    ∃ t, exec (.doorbell none r count) s = .next t ∧
      ((s.ring r).enabled = false → SameBut [.counters] s t) ∧
      ((s.ring r).enabled = true → inbound r = true → (count - (s.ring r).pos).toNat ≤ 2 ^ (s.ring r).exp.toNat →
        t.ring r = { s.ring r with count := count, stopped := false }) ∧
      ((s.ring r).enabled = true → inbound r = true → 2 ^ (s.ring r).exp.toNat < (count - (s.ring r).pos).toNat →
        t.ring r = { s.ring r with stopped := false }) ∧
      ((s.ring r).enabled = true → inbound r = false →
        (count - (s.ring r).count).toNat ≤ ((s.ring r).pos - (s.ring r).count).toNat → (t.ring r).count = count)) ∧
  (∀ (hd : FlitHdr) (r : RingId) (count : BitVec 32) (s : State), s.Canonical → ringExists r = true → s.FlitReady hd [.h] [2] →
    ∃ t, exec (.doorbell (some hd) r count) s = .next t ∧
      ((s.ring r).enabled = true → inbound r = true → (count - (s.ring r).pos).toNat ≤ 2 ^ (s.ring r).exp.toNat →
        t.ring r = { s.ring r with count := count, stopped := false }))

/-- A failed descriptor fetch stops the ring with its position unchanged. A failed host access of a call ends the call, its
entry kept at most until its completion is written; of a loaded object it takes the object from the queue of checks. A failed
record write puts the producer position back by one and keeps the record for that entry, to free the call entry that the record
frees unless a later call has taken it. When COAL_WINDOW ticks, as the field stood when the last pending record was written, have
passed since the first pending record of a ring with IRQ_EN set, one interrupt for the ring's vector goes out and nothing is
pending. -/
def Obligations.HostAccessesFail : Prop :=
  (∀ (r : RingId) (s : State), s.Canonical → s.hasDescriptor r = true → s.serving = true → (s.ring r).stopped = false →
    s.isolated = false → ∃ t, exec (.fetchFault r) s = .next t ∧ t.ring r = { s.ring r with stopped := true }) ∧
  (∀ (r : RingId) (pos c : Nat) (j : Job) (s : State), s.Canonical → s.hostJob r pos = some j → s.jobCall j = some c →
    ∃ t, exec (.hostFault r pos) s = .next t ∧ ((t.call c).ended = true ∨ (t.call c).state = .free)) ∧
  (∀ (r : RingId) (pos : Nat) (j : Job) (s : State), s.hostJob r pos = some j → s.jobCall j = none →
    ∃ t, exec (.hostFault r pos) s = .next t ∧ t.sec.queue = s.sec.queue.filter fun o => State.sigJob o != some j) ∧
  (∀ (r : RingId) (w : Waiting) (s : State), s.Canonical → ringExists r = true → inbound r = false → (s.ring r).failed = none →
    (s.ring r).last = some w →
    ∃ t, exec (.recordWriteFault r) s = .next t ∧ (t.ring r).failed = some { w with frees := s.failedFrees w } ∧
      (t.ring r).pos = (s.ring r).pos - 1) ∧
  (∀ (r : RingId) (s : State), s.Canonical → ringExists r = true → inbound r = false → s.isolated = false → (s.ring r).irqEn = true →
    (s.ring r).timer ≠ 0 → 0 < (s.ring r).pendingCount → (s.ring r).pendingTick + (s.ring r).timer.toNat ≤ s.now →
    ∃ t, exec (.coalWindowExpiry r) s = .next t ∧ PutOut s t (.irq (s.vector r)) ∧
      t.ring r = { s.ring r with pendingCount := 0 })

/-- A write of VERSION_NEG before SEAL, in a served window, makes REQ the value written and ACK the smaller of that value and
1, so that a REQ of 0 makes ACK 0, and changes nothing else. While ACK is 0, a descriptor command that stands in its ring
leaves its ring as it is. A descriptor that is fetched with another version than ACK is answered with BAD_VERSION. The records
have one layout, that of level 1. -/
def Obligations.VersionIsAgreed : Prop :=
  (∀ (a : RegAccess) (s : State), a.off = 0x0020 → (a.size = 4 ∨ a.size = 8) → a.read = false → s.windowServed = true → s.regs.sealed = false →
    ∃ t, exec (.versionNeg a) s = .next t ∧ SameBut [.regs] s t ∧
      t.regs = { s.regs with
        verReq := BitVec.ofNat 4 (a.value.toNat % 16), verAck := BitVec.ofNat 4 (min (a.value.toNat % 16) 1) }) ∧
  (∀ (c : Instr) (f : Sys2Proof.Fetch) (s : State), Instr.descriptor? c = some f → Instr.wf c = true →
    s.hasDescriptor f.ring = true → (s.running = true ∨ s.boot.phase = .coldStart) → s.regs.verAck = 0 →
    ∃ t, exec c s = .next t ∧ t.ring f.ring = s.ring f.ring) ∧
  (∀ (c : Instr) (f : Sys2Proof.Fetch) (s : State), s.Canonical → Instr.descriptor? c = some f → Instr.wf c = true → s.Fetched f →
    Fetch.version f ≠ s.regs.verAck.toNat → ∃ t, exec c s = .next t ∧ Answered s t f .badVersion 0 0)

/-- A write of 1 to SEAL in a served window, while unsealed: where a check of R252 fails, SEAL_ERR holds its code and nothing
else changes; where all pass, the device is sealed with SEAL_ERR 0, exactly the partitions with a nonzero ENTRY_SHARE are
enabled, and exactly the rings with a nonzero exponent that belong to management or to an enabled partition. -/
def Obligations.SealEnables : Prop :=
  ∀ (a : RegAccess) (s : State), s.Canonical → a.off = 0x0028 → a.size = 4 → a.read = false → a.value.getLsbD 0 = true → s.windowServed = true →
    s.regs.sealed = false →
    ∃ t, exec (.seal a) s = .next t ∧
      (s.sealCheck ≠ 0 → SameBut [.regs] s t ∧ t.regs = { s.regs with sealErr := BitVec.ofNat 4 s.sealCheck }) ∧
      (s.sealCheck = 0 → t.regs.sealed = true ∧ t.regs.sealErr = 0 ∧
        (∀ p, p < 32 → (t.part p).enabled = decide ((s.part p).entryShare ≠ 0)) ∧
        ∀ r, ringExists r = true → (t.ring r).enabled = (decide ((s.ring r).exp ≠ 0) && match ringPart r with
          | some p => decide ((s.part p).entryShare ≠ 0)
          | none => true))

/-- In a served window: releasing FENCE_OUT deasserts it and changes nothing but the pins; GO is taken while FW_FETCH waits
with BOOT 1 and a length of 1 to 16 MiB; COUNTER_SEL latches the counter that it names, a level being computed then, and an
unnamed selection reads 0 and invalid; REFEN rising starts the reference's time from now, and REFEN 0 ends it. A read of a 32-bit
register answers the word that stands at its offset and changes nothing; a read of the lower half of a 64-bit one latches the
upper half, which the next read of the upper half answers. An access of a window that is not served changes nothing. -/
def Obligations.RegistersAct : Prop :=
  (∀ (a : RegAccess) (s : State), a.off = 0x1024 → a.size = 4 → a.read = false → a.value.getLsbD 0 = true → s.windowServed = true →
    ∃ t, exec (.fenceCtrlRelease a) s = .next t ∧ SameBut [.pins] s t ∧ t.pins = { s.pins with fenceOut := false }) ∧
  (∀ (a : RegAccess) (s : State), a.off = 0x109C → a.size = 4 → a.read = false → a.value.getLsbD 0 = true →
    s.windowServed = true → s.boot.phase = .coldStart → s.regs.boot = 1 → s.boot.done.getLsbD 3 = true → s.boot.done.getLsbD 4 = false →
    0 < s.regs.bootLength.toNat → s.regs.bootLength.toNat ≤ 2 ^ 24 →
    ∃ t, exec (.bootSrcGo a) s = .next t ∧ SameBut [.boot] s t ∧ t.boot = { s.boot with go := true }) ∧
  (∀ (a : RegAccess) (s : State), a.off = 0x1080 → a.size = 8 → a.read = false → s.windowServed = true →
    ∃ t, exec (.counterSel a) s = .next t ∧ SameBut [.regs] s t ∧ t.regs.counterSel = a.value ∧
      t.regs.counterInvalid = !(counterNamed a.value.toNat) ∧
      t.regs.counterVal = if counterNamed a.value.toNat then
        (s.levelValue a.value.toNat).getD (Tbl.get 0 (a.value.toNat % 2 ^ 48) s.counters) else 0) ∧
  (∀ (a : RegAccess) (s : State), a.off = 0x1028 → a.size = 4 → a.read = false → s.windowServed = true →
    ∃ t, exec (.hkCtrlRefen a) s = .next t ∧ SameBut [.regs, .hk] s t ∧ t.regs.refen = a.value.getLsbD 0 ∧
      (a.value.getLsbD 0 = true → s.regs.refen = false → t.hk.refenAt = some s.now ∧ t.hk.refReady = false) ∧
      (a.value.getLsbD 0 = false → t.hk.refenAt = none ∧ t.hk.refReady = false)) ∧
  (∀ (a : RegAccess) (s : State), a.read = true → a.size = 4 → a.off % 4 = 0 → s.windowServed = true →
    ∃ t, exec (.regWrite a) s = .next t ∧
      (State.readWide a.off = false → SameBut [.out] s t ∧ t.out = s.out ++ [.regRead a.off (s.regWord a.off)]) ∧
      (State.readWide a.off = true → a.off % 8 = 0 → SameBut [.regs, .out] s t ∧
        t.out = s.out ++ [.regRead a.off (s.regWord a.off)] ∧
        ∀ b : RegAccess, b.read = true → b.size = 4 → b.off = a.off + 4 → ∃ u, exec (.regWrite b) t = .next u ∧
          u.out = t.out ++ [.regRead b.off (s.regWord b.off % 2 ^ 32)])) ∧
  (∀ (a : RegAccess) (s : State), s.windowServed = false →
    ∀ c ∈ [Instr.seal a, .versionNeg a, .fenceCtrlRelease a, .bootSrcGo a, .counterSel a, .hkCtrlRefen a, .regWrite a],
      Instr.wf c = true → exec c s = .next s)

/-- A write of LINK_CTRL in a served window, whether or not the device is sealed, sets LANE_ERR_MAX to bits 15:0 of the value
and REPLAY_MAX to bits 23:16 where those are in its range, 1 to 255; a REPLAY_MAX of 0 is outside it and the field keeps its
value. Nothing else changes. -/
def Obligations.LinkPolicyIsWritten : Prop :=
  ∀ (a : RegAccess) (s : State), a.off = 0x1014 → a.size = 4 → a.read = false → s.windowServed = true →
    ∃ t, exec (.regWrite a) s = .next t ∧ SameBut [.regs] s t ∧
      t.regs = { s.regs with
        laneErrMax := BitVec.ofNat 16 (a.value.toNat % 2 ^ 16),
        replayMax := if a.value.toNat / 2 ^ 16 % 2 ^ 8 = 0 then s.regs.replayMax
          else BitVec.ofNat 8 (a.value.toNat / 2 ^ 16 % 2 ^ 8) }

/-- A 4-byte write of a register with RW-L fields after SEAL, in a served window, counts one REG_LOCKED_WRITES, saturating,
and changes nothing else. Before SEAL a write of a partition's share word sets ENTRY_SHARE where the value is at most 16,384
and PREMIUM_SHARE where it is at most ENTRY_SHARE; a value outside is ignored and that field keeps its value. -/
def Obligations.SealLocksFields : Prop :=
  (∀ (a : RegAccess) (s : State), a.size = 4 → a.off % 4 = 0 → a.read = false → State.lockedAt a.off = true →
    s.windowServed = true → s.regs.sealed = true →
    ∃ t, exec (.regWrite a) s = .next t ∧ SameBut [.counters] s t ∧
      (s.Canonical → Tbl.get 0 Ctr.regLockedWrites t.counters =
        min (2 ^ 48 - 1) (Tbl.get 0 Ctr.regLockedWrites s.counters + 1))) ∧
  (∀ (a : RegAccess) (p : Nat) (s : State), s.Canonical → p < 32 → a.off = 0x10000 + 0x1000 * p + 0x100 → a.size = 4 →
    a.read = false → s.windowServed = true → s.regs.sealed = false →
    ∃ t, exec (.regWrite a) s = .next t ∧ SameBut [.parts] s t ∧
      (t.part p).entryShare = (if a.value.toNat % 2 ^ 15 ≤ 16384 then BitVec.ofNat 15 (a.value.toNat % 2 ^ 15)
        else (s.part p).entryShare) ∧
      (t.part p).premiumShare = (if a.value.toNat / 2 ^ 16 % 2 ^ 15 ≤ (t.part p).entryShare.toNat then
        BitVec.ofNat 15 (a.value.toNat / 2 ^ 16 % 2 ^ 15) else (s.part p).premiumShare) ∧
      ∀ q, q ≠ p → t.part q = s.part q)

/-- PORST_N holds the device in cold reset from source 1, tick 0, failed-start count 0, at once where no program pulse runs
and else when the last has ended. Its release begins a cold start with the straps sampled then and every port isolated where
FENCE_IN is asserted. WRST_N of a running device holds it in warm reset from source 2, and is ignored under PORST_N and in the
safe state. FENCE_IN isolates every port of a device that runs, starts or is held in warm reset. Without REFCLK the tick
stands still; with it back it counts where it had been started. Loss of VAON is the state Off; VAON applied finds the device
in cold reset from source 1 with PORST_N asserted. An EXTEST instruction acts as BYPASS unless PORST_N is asserted. -/
def Obligations.PinsAct : Prop :=
  (∀ s : State, s.pins.porst = false → s.boot.phase ≠ .off →
    ∃ t, exec .porstNAssert s = .next t ∧ t.pins.porst = true ∧ t.boot.attempts = 0 ∧
      ((s.awake = false ∨ s.pulseRuns none = false) → t.boot.phase = .heldCold ∧ t.boot.source = 1 ∧ t.tick = 0) ∧
      (s.awake = true → s.pulseRuns none = true → ∃ k, t.boot.heldReset = some (true, k))) ∧
  (∀ (boot ckmode : BitVec 2) (s : State), s.boot.phase = .heldCold → s.boot.tripped = false →
    ∃ t, exec (.coldStart boot ckmode) s = .next t ∧ t.boot.phase = .coldStart ∧ t.boot.done = 0 ∧ t.regs.boot = boot ∧
      t.regs.ckmode = ckmode ∧ t.pins.porst = false ∧ (s.pins.fenceIn = true → ∀ p, (t.link p).state = .isolated)) ∧
  (∀ s : State, s.pins.wrst = false → s.boot.phase ≠ .off →
    ∃ t, exec .wrstNAssert s = .next t ∧ ((s.pins.porst = true ∨ s.boot.phase = .safe) → t = s) ∧
      (s.pins.porst = false → s.running = true → s.pulseRuns none = false →
        t.boot.phase = .heldWarm ∧ t.boot.source = 2 ∧ t.pins.wrst = true ∧ t.tick = s.tick)) ∧
  (∀ s : State, s.Canonical → s.pins.fenceIn = false → s.boot.phase ≠ .off →
    ∃ t, exec .fenceInAssert s = .next t ∧ t.pins = { s.pins with fenceIn := true } ∧
      (s.awake = true ∨ s.boot.phase = .heldWarm → ∀ p, (t.link p).state = .isolated)) ∧
  (∀ s : State, s.Canonical → s.pins.fenceIn = true → s.boot.phase ≠ .off →
    ∃ t, exec .fenceInRelease s = .next t ∧ (s.isolated = false → SameBut [.pins] s t ∧ t.pins = { s.pins with fenceIn := false }) ∧
      (s.isolated = true → s.running = true → s.pulseRuns none = false →
        t.boot.phase = .heldWarm ∧ t.boot.source = 10 ∧ t.boot.emptySheet = true ∧ ∀ p, (t.link p).state = .down)) ∧
  (∀ s : State, s.pins.refclk = true → s.boot.phase ≠ .off →
    ∃ t, exec .refclkLoss s = .next t ∧ t.ticking = false ∧ t.tick = s.tick ∧
      t.pins = { s.pins with refclk := false, alertClock := true }) ∧
  (∀ s : State, s.pins.refclk = false → s.boot.phase ≠ .off →
    ∃ t, exec .refclkReturn s = .next t ∧ t.ticking = s.tickStarted ∧ t.tick = s.tick ∧
      t.pins = { s.pins with refclk := true, alertClock := false }) ∧
  (∀ s : State, s.boot.phase ≠ .off → ∃ t, exec .vaonLoss s = .next t ∧ t.boot.phase = .off ∧ t.regs = {} ∧ t.calls = [] ∧
    t.mem.hbm = []) ∧
  (∀ s : State, s.boot.phase = .off → ∃ t, exec .vaonApply s = .next t ∧ SameBut [.pins, .boot] s t ∧ t.boot.phase = .heldCold ∧
    t.boot.source = 1 ∧ t.pins = { s.pins with porst := true, fenceOut := false }) ∧
  (∀ (op : JtagOp) (s : State), s.boot.phase ≠ .off → ∃ t, exec (.jtagInstruction op) s = .next t ∧ SameBut [.pins] s t ∧
    ((op = .bypass ∨ op = .idcode ∨ op = .sample) → t.pins.jtag = op) ∧
    ((op = .extest ∨ op = .extestPulse ∨ op = .extestTrain) → t.pins.jtag = if s.pins.porst then op else .bypass) ∧
    (∀ code, op = .other code → t.pins.jtag = .bypass))

/-- A held reset takes effect once no program pulse runs, with its own source; a bough reset that waited for its pulse alone
ends its drain. A warm start from a device held in warm reset begins with step W1 done and its ports training. A regulator's
warning raises the regulator floor to the level after the one in force; a fault asserts ALERT_N, and on VSER takes every port
down, on another rail it is warm-reset source 6. -/
def Obligations.RegulatorsAndHeldResets : Prop :=
  (∀ (cold : Bool) (n : Nat) (s : State), s.boot.heldReset = some (cold, n) → s.pulseRuns none = false →
    ∃ t, exec .resetTakesEffect s = .next t ∧ t.boot.phase = (if cold then .heldCold else .heldWarm) ∧ t.boot.source = n ∧
      t.boot.heldReset = none) ∧
  (∀ s : State, s.Canonical → s.boot.heldReset = none → s.boughsDue ≠ [] →
    ∃ t, exec .resetTakesEffect s = .next t ∧ ∀ b ∈ s.boughsDue, (t.bough b).draining = false) ∧
  (∀ s : State, s.Canonical → s.boot.phase = .heldWarm → s.boot.done = 0 →
    ∃ t, exec .warmStart s = .next t ∧ t.boot.phase = .warmStart ∧ t.pins.wrst = false ∧ t.boot.done.getLsbD 1 = true ∧
      (s.isolated = false → ∀ p, (t.link p).state = .training)) ∧
  (∀ (words : List RegStatus) (s : State), s.boot.phase ≠ .off → ∃ t, exec (.pmAlertN words) s = .next t ∧ (words = [] → t = s)) ∧
  (∀ (r : RegStatus) (s : State), s.boot.phase ≠ .off → r.warning = true → r.fault = false →
    ∃ t, exec (.pmAlertN [r]) s = .next t ∧ t.power.regFloor = max s.power.regFloor (min 7 (s.regs.level.toNat + 1)) ∧
      t.power.warnAt = s.now) ∧
  (∀ (r : RegStatus) (s : State), s.Canonical → s.boot.phase ≠ .off → r.warning = false → r.fault = true →
    ∃ t, exec (.pmAlertN [r]) s = .next t ∧
      (r.addr = 0x43 → t.pins.alertRail = true ∧ ∀ p, (s.link p).state ≠ .isolated → (t.link p).state = .down) ∧
      (r.addr ≠ 0x43 → s.running = true → s.pulseRuns none = false →
        t.pins.alertRail = true ∧ t.boot.phase = .heldWarm ∧ t.boot.source = 6))

/-- Option load, clock lock, the reference of the housekeeping converter, firmware fetch and signature, memory fills,
training, the digest of the firmware and the exit of the HBM from self-refresh each complete in their place in the start. A
good option block becomes the live trims and good map at once; a bad copy A is followed by copy B, a bad copy B fails step 1.
With the clock locked the tick counter starts at 0 and REFEN is set. The first valid image runs, its digest is held and READY
bit 1 is set; with none the step FW_SIGNATURE fails, with nothing read FW_FETCH. The HBM fill past the boot point sets READY
bit 5, the whole fill bit 6 too. A step that fails holds its code: its number in a cold start, 20 hexadecimal more in a warm
start. -/
def Obligations.StartSteps : Prop :=
  (∀ (b : Bytes) (s : State), s.Canonical → s.boot.phase = .coldStart → s.stepDone? 1 = false → s.boot.failedStep = none →
    ∃ t, exec (.optionLoad b) s = .next t ∧
      (optionOk b = true → t.stepDone? 1 = true ∧ t.trims = b.take 8160 ∧
        ∀ k, k < 8192 → t.tile k = { s.tile k with mfgBad := !goodBit b k }) ∧
      (optionOk b = false → s.boot.copyB = false → SameBut [.boot] s t ∧ t.boot = { s.boot with copyB := true }) ∧
      (optionOk b = false → s.boot.copyB = true → SameBut [.boot] s t ∧ t.boot = { s.boot with failedStep := some 1 })) ∧
  (∀ (ok : Bool) (s : State), s.coldStep 1 2 = true → s.pins.refclk = true →
    ∃ t, exec (.clockLock ok) s = .next t ∧
      (ok = true → t.tick = 0 ∧ t.ticking = true ∧ t.regs.refen = true ∧ t.stepDone? 2 = true ∧
        (s.regs.refen = false → t.hk.refenAt = some 0 ∧ t.hk.refReady = false)) ∧
      (ok = false → SameBut [.boot] s t ∧ t.boot = { s.boot with failedStep := some 2 })) ∧
  (∀ (a : Nat) (s : State), s.awake = true → s.regs.refen = true → s.hk.refReady = false → s.hk.refenAt = some a →
    a + 7813 ≤ s.now → ∃ t, exec .hkRefReady s = .next t ∧ SameBut [.hk] s t ∧
      t.hk = if s.boot.phase = .coldStart ∧ s.stepDone? 2 = true ∧ s.stepDone? 3 = false then
          { s.hk with refReady := true, busy := some { channel := 164, start := s.now, job := none, urgent := true } }
        else { s.hk with refReady := true }) ∧
  (∀ (active : Nat) (images : List Bytes) (s : State), s.coldStep 3 4 = true → active < 2 →
    (images ≠ [] → s.fetchedOk images = true → ∃ t, exec (.fwFetch active images) s = .next t ∧ t.stepDone? 4 = true ∧
      (∀ b rest, images = b :: rest → s.fwReason b = none → t.stepDone? 5 = true ∧ t.readyBit 1 = true ∧
        t.sec.runDigest = Shake.digest32 b ∧ t.sec.runSvn = Bits.le b 8 4) ∧
      ((∀ b ∈ images, s.fwReason b ≠ none) → t.boot.failedStep = some 5)) ∧
    (images = [] → (s.regs.boot = 3 ∨ (s.regs.boot ≠ 1 ∨ s.readyBit 2 = true) ∧ s.boot.fetchFrom + s.fetchLimit ≤ s.now) →
      ∃ t, exec (.fwFetch active images) s = .next t ∧ SameBut [.boot] s t ∧
        t.boot = { s.boot with failedStep := some 4 })) ∧
  (∀ (ok : Bool) (n : Nat) (s : State), (s.coldStep 5 6 = true ∧ n = 6 ∨ s.warmStep 2 3 = true ∧ n = 3) →
    ∃ t, exec (.sramFill ok) s = .next t ∧ (ok = true → t.stepDone? n = true) ∧
      (ok = false → SameBut [.boot] s t ∧ t.boot = { s.boot with failedStep := some (if n = 6 then 6 else 0x23) })) ∧
  (∀ (ok : Bool) (s : State), s.coldStep 5 9 = true →
    ∃ t, exec (.hbmTrain ok) s = .next t ∧ (ok = true → t.readyBit 4 = true ∧ t.stepDone? 9 = true) ∧
      (ok = false → SameBut [.boot] s t ∧ t.boot = { s.boot with failedStep := some 9 })) ∧
  (∀ s : State, s.coldStep 9 11 = true →
    (∃ t, exec (.hbmFill true true) s = .next t ∧ t.readyBit 5 = true ∧ t.readyBit 6 = true ∧ t.stepDone? 11 = true) ∧
    (s.readyBit 5 = false → ∃ t, exec (.hbmFill false true) s = .next t ∧ t.readyBit 5 = true ∧ t.boot = s.boot) ∧
    ∃ t, exec (.hbmFill false false) s = .next t ∧ SameBut [.boot] s t ∧ t.boot = { s.boot with failedStep := some 11 }) ∧
  (∀ s : State, s.warmStep 1 2 = true →
    ∃ t, exec .fwDigest s = .next t ∧
      (s.fwDigestOk = true → t.readyBit 1 = true ∧ t.stepDone? 2 = true ∧ t.boot.dogAt = s.now) ∧
      (s.fwDigestOk = false → SameBut [.boot] s t ∧ t.boot = { s.boot with failedStep := some 0x22 })) ∧
  (∀ (ok area : Bool) (s : State), Instr.wf (.hbmExit ⟨ok, area⟩) = true → s.warmStep 2 6 = true →
    ∃ t, exec (.hbmExit ⟨ok, area⟩) s = .next t ∧
      (ok = true → t.readyBit 4 = true ∧ t.readyBit 5 = true ∧ t.readyBit 6 = true ∧ t.stepDone? 6 = true) ∧
      (ok = false → SameBut [.boot] s t ∧ t.boot = { s.boot with failedStep := some 0x26 }))

/-- A failed step of a start or wake puts its code in LAST_FAIL and a line with the code and the count on the sideband. With
the count below 3 and no program pulse running the device is held in cold reset from source 11 with the count one higher; with
the count at 3 it is in the safe state with ALERT_N asserted. RESUME, once the steps W1 to W7 have ended, asks for the
doorbell records again, sets READY bit 10, drops the empty call sheet's flag and ends step W8; on a wake from D3 the wake goes
on. A device whose management runs sends the image of its active slot to a partner that asks for it, and one that still
fetches firmware itself sends nothing. -/
def Obligations.StartsFailAndResume : Prop :=
  (∀ (c : Nat) (s : State), s.boot.failedStep = some c → (s.awake = true ∨ s.boot.phase = .heldWarm) →
    ∃ t, exec .startFail s = .next t ∧ PutOut s t (.sideband c (min 3 (s.boot.attempts + 1))) ∧
      t.regs.lastFail = BitVec.ofNat 8 c ∧ t.boot.attempts = min 3 (s.boot.attempts + 1) ∧
      (s.boot.attempts < 3 → s.pulseRuns none = false → t.boot.phase = .heldCold ∧ t.boot.source = 11) ∧
      (3 ≤ s.boot.attempts → t.boot.phase = .safe ∧ t.pins.alertSafe = true)) ∧
  (∀ s : State, s.resumeDue = true →
    (s.power.wake = none → ∃ u : State, exec .resume s = .next u.settle ∧ u.stepDone? 8 = true ∧ u.readyBit 10 = true ∧
      u.boot.emptySheet = false ∧ PutOut s u .readDoorbells) ∧
    (s.power.wake.isSome = true → ∃ t, exec .resume s = .next t ∧ t.stepDone? 8 = true ∧ t.readyBit 10 = true ∧
      t.boot.phase = .warmStart ∧ PutOut s t .readDoorbells)) ∧
  (∀ s : State, s.Canonical → s.awake = true → (s.link .t).carries = true →
    ∃ t, exec .partnerBootRequest s = .next t ∧
      (s.mgmtUp = true → Sent s t .t 3 (.bootImage (Tbl.get ({} : FwSlot) s.sec.runSlot s.sec.slots).bytes)) ∧
      (s.mgmtUp = false → t = s))

/-- On a device whose management runs, 2^28 ticks after the last service with the watchdog not paused, expiry is a warm reset
from source 5, which in a cold start restarts the start, held while a program pulse runs. With the watchdog paused or before
that time it cannot expire. An accepted FW_CUTOVER of a staged image pauses it, and the first service of the new firmware ends
the pause and counts as a service. -/
def Obligations.WatchdogExpires : Prop :=
  (∀ s : State, s.mgmtUp = true → s.boot.dogPaused = false → s.boot.dogAt + 2 ^ 28 ≤ s.now →
    ∃ t, exec .watchdogExpiry s = .next t ∧
      (s.pulseRuns none = false → t.boot.source = 5 ∧
        t.boot.phase = if s.boot.phase = .coldStart then .heldCold else .heldWarm) ∧
      (s.pulseRuns none = true → s.boot.heldReset = none →
        t.boot.heldReset = some (decide (s.boot.phase = .coldStart), 5))) ∧
  (∀ s : State, (s.boot.dogPaused = true ∨ s.now < s.boot.dogAt + 2 ^ 28) →
    exec .watchdogExpiry s = .fault (.outOfPlace "WATCHDOG_EXPIRY")) ∧
  (∀ (f : Sys2Proof.Fetch) (s : State), Instr.wf (.fwCutover f) = true → s.Accepted f → cutoverBusy s = false →
    Fetch.bits f 64 1 ≠ s.sec.runSlot → (Tbl.get ({} : FwSlot) (Fetch.bits f 64 1) s.sec.slots).valid = true →
    Shake.digest32 (Tbl.get ({} : FwSlot) (Fetch.bits f 64 1) s.sec.slots).bytes =
      (Tbl.get ({} : FwSlot) (Fetch.bits f 64 1) s.sec.slots).digest →
    ∃ t, exec (.fwCutover f) s = .next t ∧ t.boot.dogPaused = true ∧ t.sec.cutover.isSome = true) ∧
  (∀ s : State, s.mgmtUp = true → s.boot.dogServed = false →
    ∃ t, exec .firstWatchdogService s = .next t ∧ t.boot = { s.boot with dogServed := true, dogPaused := false, dogAt := s.now } ∧
      t.sec.fusedSvn = max s.sec.fusedSvn (min 64 s.sec.runFloor) ∧ t.sec.revoked = s.sec.revoked ||| s.sec.runRevoke)

/-- A slot starts the next channel of the round-robin, or passes while a conversion runs. A conversion's end, 100 ticks after
its start, frees the converter and keeps the sample, its sensor's trims applied, with its tick, valid where the reference is ready
and enabled (at the conversion's end: the model's choice, log 177); a management descriptor that asked for it is answered with it. A valid sensor sample of 125 °C asserts THERMTRIP_N and is a cold
reset. The conversion of POSN keeps the code and, away from a band's edge, the value and the side; near an edge it fails step
3. An urgent sample, of a sensor that the thermal handling asks for or of a channel that management firmware asks for, starts where
the converter is idle and is otherwise dropped and counted. -/
def Obligations.HousekeepingConverts : Prop :=
  (∀ s : State, s.hkOn = true → (s.boot.tripped = true ∨ s.ticking = true ∧ s.hk.slotAt + 200 ≤ s.now) →
    ∃ t, exec .hkSlot s = .next t ∧ SameBut [.hk] s t ∧
      t.hk = if s.hk.busy.isSome then { s.hk with slotAt := s.now }
        else { s.hk with
          slotAt := s.now, next := (s.hk.next + 1) % 164,
          busy := some { channel := s.hk.next, start := s.now, job := none, urgent := false } }) ∧
  (∀ (v : BitVec 16) (c : Conv) (s : State), s.hk.busy = some c → c.channel ≠ 164 →
    (s.boot.tripped = true ∨ c.start + 100 ≤ s.now) →
    ∃ t, exec (.hkConversionDone v) s = .next t ∧ t.hk.busy = none ∧
      t.hk.samples = Tbl.set {} c.channel
        { value := s.trimmed c.channel v.toInt, valid := s.hk.refReady && s.regs.refen, tick := s.now } s.hk.samples ∧
      (∀ j, c.job = some j → s.trimmed c.channel v.toInt < 2000 → s.Canonical → Delivered s t (answerRing j.ring) (s.answerOf j .ok
        (Bits.ofSigned (s.trimmed c.channel v.toInt) 16 + (if (s.hk.refReady && s.regs.refen) = true then 2 ^ 16 else 0)) s.now)) ∧
      (c.channel < 140 → s.boot.tripped = false → s.hk.refReady = true → s.regs.refen = true →
        2000 ≤ s.trimmed c.channel v.toInt →
        t.boot.tripped = true ∧ t.pins.thermtrip = true ∧
        (t.boot.phase = .heldCold ∧ t.boot.source = 8 ∨ ∃ k, t.boot.heldReset = some (true, k)))) ∧
  (∀ (v : BitVec 16) (c : Conv) (s : State), s.hk.busy = some c → c.channel = 164 → (s.boot.tripped = true ∨ c.start + 100 ≤ s.now) →
    ∃ t, exec (.hkConversionDone v) s = .next t ∧ t.hk.busy = none ∧ t.regs.posnCode = BitVec.ofNat 12 (v.toNat % 4096) ∧
      ((v.toNat % 4096 % 256 < 24 ∨ 231 < v.toNat % 4096 % 256) → t.boot.failedStep = some (s.stepCode 3)) ∧
      (24 ≤ v.toNat % 4096 % 256 → v.toNat % 4096 % 256 ≤ 231 → t.regs.posnV = BitVec.ofNat 4 (v.toNat % 4096 / 256) ∧
        t.regs.side = (BitVec.ofNat 4 (v.toNat % 4096 / 256)).getLsbD 3 ∧ t.stepDone? 3 = true)) ∧
  (∀ (k : Nat) (s : State), s.hkOn = true → s.ticking = true →
    ((0 < s.power.thermalFloor ∧ ∃ a, (k, a) ∈ s.hk.hot ∧ a + 100 ≤ s.now) ∨ (s.mgmtUp = true ∧ k < 164)) →
    ∃ t, exec (.urgentSample k) s = .next t ∧ SameBut [.counters, .hk] s t ∧
      (s.hk.busy = none → t.counters = s.counters ∧
        t.hk.busy = some { channel := k, start := s.now, job := none, urgent := true }) ∧
      (s.hk.busy.isSome = true → t.hk.busy = s.hk.busy ∧
        (s.Canonical → Tbl.get 0 Ctr.hkDrop t.counters = min (2 ^ 48 - 1) (Tbl.get 0 Ctr.hkDrop s.counters + 1))))

/-- After IDLE_D1 idle ticks the device is in D1 with every bough's switch open. A switch of a bough that was granted nothing
for 2^10 ticks opens; a closing one that is ready lets the work go on that waited for it. A pacer window takes the power policy
fields as they stand, credits the account up to its cap and charges the fixed part, before tiles and engines with waiting work try
again. Each 2^24 ticks the scale moves toward
measured over charged energy by at most 1/64 and the measured energy is added up. A settled level step makes its target the
level in force; one that times out leaves the level and makes the slower level the regulator floor, which returns one level
after 2^32 ticks without a warning. -/
def Obligations.PowerPolicyActs : Prop :=
  (∀ s : State, s.Canonical → s.d1Due = true → ∃ t, exec .d1Entry s = .next t ∧ t.power = { s.power with dstate := .d1 } ∧
    ∀ b, b < 128 → t.bough b = { s.bough b with switch := .opened }) ∧
  (∀ (b : Nat) (s : State), s.Canonical → s.awake = true → s.switchIdle b = true →
    ∃ t, exec (.boughSwitchOpen b) s = .next t ∧ SameBut [.boughs] s t ∧ t.bough b = { s.bough b with switch := .opened } ∧
      ∀ q, q ≠ b → t.bough q = s.bough q) ∧
  (∀ (b : Nat) (s : State), s.Canonical → (s.bough b).switch = .closing →
    ∃ u : State, exec (.boughSwitchReady b) s = .next (u.tilesNext fun k => k / 64 == b) ∧ SameBut [.boughs] s u ∧
      u.bough b = { s.bough b with switch := .closed, waiting := [] } ∧ ∀ q, q ≠ b → u.bough q = s.bough q) ∧
  (∀ s : State, s.awake = true → s.ticking = true → s.power.dstate ≠ .d3 → s.power.windowAt + 256 ≤ s.now →
    ∃ u : State, exec .pacerWindow s = .next (u.startLevel.tilesNext fun _ => true).attnRetry ∧ SameBut [.power] s u ∧
      u.power = { s.power with
        policy := { levelReq := s.regs.levelReq, throttleT := s.regs.throttleT, idleD1 := s.regs.idleD1,
                    pwrLimit := s.regs.pwrLimit, pwrPeak := s.regs.pwrPeak, pwrBurst := s.regs.pwrBurst },
        account := min s.latchPower.accountCap (s.power.account + (s.regs.pwrLimit.toNat * 16384 / 10 : Nat)) - s.chargeOf 3,
        charged := s.chargeOf 3, windowAt := s.power.windowAt + 256 }) ∧
  (∀ (charged measured : Nat) (s : State), s.mgmtUp = true → s.power.scaledAt + 2 ^ 24 ≤ s.now →
    ∃ t, exec (.energyScale charged measured) s = .next t ∧ SameBut [.power] s t ∧ t.power.scaledAt = s.now ∧
      t.power.energy = s.power.energy + measured ∧ t.power.scale ≤ s.power.scale + 1024 ∧ s.power.scale ≤ t.power.scale + 1024 ∧
      (charged ≠ 0 → 65536 * measured / charged ≤ s.power.scale + 1024 → s.power.scale ≤ 65536 * measured / charged + 1024 →
        t.power.scale = 65536 * measured / charged)) ∧
  (∀ (mv k : Nat) (s : State), s.power.stepTo = some k → State.levelMv k ≤ mv + 10 → mv ≤ State.levelMv k + 10 →
    ∃ t, exec (.levelStepSettled mv) s = .next t ∧ t.regs.level = BitVec.ofNat 3 k ∧ t.regs.setBy = BitVec.ofNat 2 s.levelSetBy ∧
      (s.Canonical → Tbl.get 0 Ctr.levelChanges t.counters = min (2 ^ 48 - 1) (Tbl.get 0 Ctr.levelChanges s.counters + 1))) ∧
  (∀ (k : Nat) (s : State), s.power.stepTo = some k → ∃ t, exec .levelStepTimeout s = .next t ∧ t.regs.level = s.regs.level ∧
    t.power.regFloor = max s.power.regFloor (min 7 (max s.regs.level.toNat k)) ∧ t.power.warnAt = s.now) ∧
  (∀ s : State, 0 < s.power.regFloor → s.power.warnAt + 2 ^ 32 ≤ s.now →
    ∃ t, exec .regulatorFloorReturn s = .next t ∧ t.power.regFloor = s.power.regFloor - 1 ∧ t.power.warnAt = s.now)

/-- A step of an entry, the first once every tile is idle, leads to the next; after the fourth the POWER_STATE completion with
OK is written, and after the fifth the device is in the target state, from which a wake starts at once where a wake event has
come since. At an abort point an event that has come abandons the entry, which answers NOT_IDLE. A wake event in D2 or D3
starts a wake with the regulators of that state, during an entry it is kept for the abort point, and during a wake it is
served by that one. A phase that reports ready starts the next; after the third of a wake from D3 the steps of a warm start
run, and after the fourth the device is in D0 and POWER_STATE D0 is answered. A domain that misses its time fails the start.
-/
def Obligations.EntriesAndWakes : Prop :=
  (∀ (e : EntrySt) (s : State), s.Canonical → s.power.entry = some e → (e.step = 1 → ∀ x ∈ s.tiles, x.2.active = .idle) →
    ∃ t, exec .entryStepDone s = .next t ∧
      (e.step ≠ 5 → e.abort = true → t.power.entry = none ∧ t.power.dstate = s.power.dstate ∧
        Delivered s t (answerRing e.job.ring) (s.answerOf e.job .notIdle 0 0)) ∧
      (e.step ≠ 5 → e.abort = false → t.power = { s.power with entry := some { e with step := e.step + 1 } }) ∧
      (e.step = 4 → e.abort = false → Delivered s t (answerRing e.job.ring) (s.answerOf e.job .ok 0 0)) ∧
      (e.step = 5 → t.power.entry = none ∧ t.power.dstate = e.target ∧ (e.abort = true → t.power.wake.isSome = true))) ∧
  (∀ (e : WakeEvent) (s : State), s.wakeDue e = true →
    ∃ t, exec (.wake e) s = .next t ∧
      (∀ x, s.power.entry = some x → SameBut [.power] s t ∧ t.power = { s.power with entry := some { x with abort := true } }) ∧
      (s.power.entry = none → s.power.wake.isSome = true → t = s) ∧
      (s.power.entry = none → s.power.wake = none → SameBut [.power, .out] s t ∧
        t.power = { s.power with wake := some { from_ := s.power.dstate, phase := 0, job := none } } ∧
        PutOut s t (.rail 0x41 0 1000))) ∧
  (∀ (w : WakeSt) (s : State), s.power.wake = some w → s.wakePhaseDue w = true → s.boot.failedStep = none →
    (w.phase ≠ 3 → ∃ t, exec .wakePhaseReady s = .next t ∧ t.power.wake = some { w with phase := w.phase + 1 } ∧
      (w.phase = 2 → w.from_ = .d3 → t.boot.phase = .warmStart ∧ t.stepDone? 1 = true ∧ t.stepDone? 2 = false)) ∧
    (w.phase = 3 → ∃ u : State, exec .wakePhaseReady s = .next u.settle ∧ u.power.wake = none ∧ u.power.dstate = .d0 ∧
      (w.from_ = .d3 → u.boot.phase = .running) ∧
      ∀ j, w.job = some j → s.Canonical → Delivered s u (answerRing j.ring) (s.answerOf j .ok 0 0))) ∧
  (∀ (domain : Nat) (w : WakeSt) (s : State), s.power.wake = some w → domain < 24 → s.boot.failedStep = none →
    ∃ t, exec (.wakeTimeout domain) s = .next t ∧ ∃ code, code < 256 ∧ t.boot = { s.boot with failedStep := some code })

/-- Once a cut-over has been asked, at a batch boundary with no other drain of every call, a drain of every call is asked for
it; when that completes, the image of the slot runs and the switch tick is kept. When the new firmware runs, the cut-over is over
and no event is held any more; where the event ring has room, the held events are written in their order, then the completion
with OK, then FW_CUTOVER_DONE with the slot, the svn and the ticks since the switch. -/
def Obligations.FirmwareCutsOver : Prop :=
  (∀ s : State, s.switchDue = true → ∃ t, exec .switchPoint s = .next t ∧ ∃ d ∈ t.drains, d.scope = .all ∧ d.why = .switchPoint ∧
    d.start = s.now) ∧
  (∀ (c : Cutover) (d : Drain) (s : State), s.sec.cutover = some c → s.drains.find? s.drainReady = some d → d.scope = .all →
    d.why = .switchPoint → ∃ t, exec .drainComplete s = .next t ∧ t.sec.runSlot = c.slot ∧
      t.sec.runDigest = Shake.digest32 (Tbl.get ({} : FwSlot) c.slot s.sec.slots).bytes ∧ t.boot.dogServed = false ∧
      t.sec.cutover = some { c with switched := true, switchTick := s.now }) ∧
  (∀ (c : Cutover) (s : State), s.Canonical → s.sec.cutover = some c → c.switched = true →
    ∃ t, exec .fwCutoverDone s = .next t ∧ t.sec.cutover = none ∧ t.sec.heldEvents = [] ∧
      Delivered s t (answerRing c.job.ring) (s.answerOf c.job .ok 0 0) ∧
      (answerRing c.job.ring = .eq → s.isolated = false → (s.ring .eq).enabled = true → (s.ring .eq).failed = none →
        (s.ring .eq).lost = 0 → s.sec.heldEvents.length + 2 ≤ (s.ring .eq).space →
        t.recordsOn .eq = s.recordsOn .eq ++ s.sec.heldEvents.map Rec.event ++
          [s.answerOf c.job .ok 0 0, .event {
            code := 0x1202, tick := s.now
            own := own [(40, 1, c.slot), (44, 4, s.sec.runSvn), (48, 8, s.now - c.switchTick)] }]))

/-- A product that can be issued, its vector in the activation buffer, waits in its handshake where a placed transfer it needs has
not completed, and else joins the products with its key and the codes of its span of that vector. The end of a transfer lets go
exactly the requests that needed no later one, before attention that waited tries again. The end of a phase removes it from the
product's plan and adds each code, corrected by R96 with the parameters latched for the product, into the total of its digit; a
suspended column of a forward product and an unused output add 0. A forced gap, due after 2^13 ticks without one, marks the
tile. A bough that has finished a drain is waited for by none any more. A preemption's drain that completes leaves its running
call DRAINED. -/
def Obligations.PhasesRunAndDrainsEnd : Prop :=
  (∀ (r : ProductReq) (vec : Option VecIn) (s u : State), s.vecOk r.key (vecRow r) vec = true →
    u = s.takeVec r.key (vecRow r) vec → u.canIssue r = true →
    ((∃ x, u.step? r.key.work.call r.key.work.step = some x ∧ x.xferDone < r.needs) →
      ∃ t, exec (.productIssue ⟨r, vec⟩) s = .next t ∧ SameBut [.counters, .xferWaits] u t ∧ t.xferWaits = s.xferWaits ++ [r]) ∧
    ((∀ x, u.step? r.key.work.call r.key.work.step = some x → r.needs ≤ x.xferDone) →
      ∃ t, exec (.productIssue ⟨r, vec⟩) s = .next t ∧ t.nextProd = s.nextProd + 1 ∧ t.xferWaits = s.xferWaits ∧
        ∃ v, u.actFor r.key.work r.key.matrix (vecRow r) = some v ∧
          ∃ p ∈ t.prods, p.id = s.nextProd ∧ p.key = r.key ∧ p.rowTile = r.rowTile ∧ p.codes = spanCodes (v.span r.rowTile))) ∧
  (∀ (w : WorkRef) (n : Nat) (x : Step) (s : State), s.step? w.call w.step = some x → x.xferDone < n → n ≤ s.xferCount w →
    s.affordable 6 = true →
    ∃ u : State, exec (.transferDone w ⟨n, []⟩) s = .next u.attnRetry ∧
      u.xferWaits = s.xferWaits.filter (fun r =>
        !(r.key.work.call == w.call && r.key.work.step == w.step && decide (r.needs ≤ n))) ∧
      ∃ y, u.step? w.call w.step = some y ∧ y.xferDone = n) ∧
  (∀ (k i : Nat) (codes : List Int) (p : Prod) (high : Bool) (first last : Nat) (rest : List (Bool × Nat × Nat)) (s : State),
    (s.tile k).active = .product i → s.prod? i = some p → p.plan = (high, first, last) :: rest → codes.length = p.outputs →
    Instr.wf (.phaseEnd k codes) = true → p.hiVal.length = p.outputs → p.loVal.length = p.outputs →
    ∃ t, exec (.phaseEnd k codes) s = .next t ∧ ∃ q, t.prod? i = some q ∧ q.plan = rest ∧ q.key = p.key ∧
      ∀ j, j < p.outputs →
        let v : Int := if (p.transposed = true ∨ j ∉ p.suspended) ∧ j < s.outUsed p then
            correctCode (codes.getD j 0) (Tbl.get 0 (sliceIndex p.transposed j) p.offsets)
              (Tbl.get 0x8000 (sliceIndex p.transposed j) p.gains) (Tbl.get 0x8000 j p.colGains) p.drift
          else 0
        (high = true → q.hiVal.getD j 0 = p.hiVal.getD j 0 + v ∧ q.loVal.getD j 0 = p.loVal.getD j 0) ∧
        (high = false → q.loVal.getD j 0 = p.loVal.getD j 0 + v ∧ q.hiVal.getD j 0 = p.hiVal.getD j 0)) ∧
  (∀ (k : Nat) (s : State), s.Canonical → k < 8192 → s.grantsOpen = true → s.tileGone k = false → (s.tile k).forced = false →
    (s.tile k).queue ≠ [] → s.gapOverdue k = true →
    ∃ t, exec (.forcedGap k) s = .next t ∧ SameBut [.counters, .tiles] s t ∧ t.tile k = { s.tile k with forced := true } ∧
      ∀ j, j ≠ k → t.tile j = s.tile j) ∧
  (∀ (b : Nat) (d : Drain) (s : State), d ∈ s.drains → s.boughEmpty b d = true →
    ∃ t, exec (.boughDrainAck b) s = .next t ∧ SameBut [.drains] s t ∧ t.drains.length = s.drains.length ∧
      ∀ e ∈ t.drains, s.boughEmpty b e = false) ∧
  (∀ (d : Drain) (s : State), s.drains.find? s.drainReady = some d →
    ∃ t, exec .drainComplete s = .next t ∧ ∀ c, d.why = .preempt c → s.Canonical → (s.call c).state = .running →
      (s.call c).written = false → t.drains = s.drains.erase d ∧ (t.call c).state = .drained)

/-- The verify read of a program step retires the tile where it shows a driver fault; while the first reset leaves a cell
above its window it asks for a second reset; with cells outside the window of their target level it goes on with the row, up to 24
iterations; with none left it goes on with the next row. A step becomes owed by itself. A deck's age is recorded with the tick,
whatever the deck's state; an age of 2^45 ticks makes a live deck DRIFTED, and drift targets follow from the bough's temperature and
the deck's age. In a gap a reference sweep steps the sweep count and keeps its tick, and a live deck that leaves its budget becomes
DRIFTED; with no sweep waiting a clapper phase changes the half, a mismatch asks for a repeat, and a fit phase is counted; with no
clapper phase waiting either a verify read collects a row, and the last row marks the deck verified. -/
def Obligations.ProgramAndGapWork : Prop :=
  (∀ (k : Nat) (r : ProgRead) (j : ProgJob) (rest : List ProgJob) (s : State), s.Canonical → (s.tile k).active = .progStep →
    r.codes.length = 1072 → (∀ c ∈ r.codes, c < 128) → (s.tile k).jobs = j :: rest → j.started = true → s.tileGone k = false →
    ∃ t, exec (.programStepEnd k r) s = .next t ∧
      (r.driver = true → (t.tile k).retired = true) ∧
      (r.driver = false → j.resets = 0 → (∃ c ∈ r.codes, 2 < c) → (t.tile k).jobs = { j with resets := 1 } :: rest) ∧
      (r.driver = false → (j.resets ≠ 0 ∨ ∀ c ∈ r.codes, c ≤ 2) → s.pendingOf k j r.codes ≠ [] →
        (if j.resets < 2 then 0 else j.iter + 1) < 24 →
        (t.tile k).jobs = { j with resets := 2, iter := if j.resets < 2 then 0 else j.iter + 1 } :: rest) ∧
      (r.driver = false → (j.resets ≠ 0 ∨ ∀ c ∈ r.codes, c ≤ 2) → s.pendingOf k j r.codes = [] → j.row + 1 ≠ 1024 →
        ∃ i, (t.tile k).jobs = i :: rest ∧ i.row = j.row + 1 ∧ i.iter = 0 ∧ i.deck = j.deck ∧ i.cells = j.cells)) ∧
  (∀ (k : Nat) (s : State), s.Canonical → (s.tile k).owing = true →
    ∃ u : State, exec (.programStepOwed k) s = .next (u.tileNext k) ∧ SameBut [.tiles] s u ∧
      u.tile k = { s.tile k with owed := true, owing := false } ∧ ∀ i, i ≠ k → u.tile i = s.tile i) ∧
  (∀ (k d : Nat) (s : State), s.Canonical → k < 8192 → d < 8 → (s.tile k).mfgBad = false → (s.deck k d).ageFrom + 2 ^ 39 ≤ s.now →
    ∃ t, exec (.deckAgeRecord k d) s = .next t ∧ SameBut [.tiles] s t ∧
      t.deck k d = { s.deck k d with recAge := s.ageOf (s.deck k d), ageFrom := s.now } ∧ ∀ i, i ≠ k → t.tile i = s.tile i) ∧
  (∀ (k d : Nat) (s : State), s.Canonical → s.running = true → s.tileGone k = false → (s.deck k d).state = .live →
    2 ^ 45 ≤ s.ageOf (s.deck k d) → ∃ t, exec (.driftAgeLimit k d) s = .next t ∧ (t.deck k d).state = .drifted ∧
      t.weights = { s.weights with drifted := s.weights.drifted ++ [(k, d)] }) ∧
  (∀ (b : Nat) (s : State), s.Canonical → (s.running = true ∨ s.starting = true) → s.ticking = true → b < 128 → s.trims ≠ [] →
    s.now % 2 ^ 16 = 0 → ∃ t, exec (.driftUpdate b) s = .next t ∧ SameBut [.tiles] s t ∧ (∀ k, k / 64 ≠ b → t.tile k = s.tile k) ∧
      ∀ k d, k / 64 = b → Tbl.wf {} (s.tile k).decks = true → Tbl.has d (s.tile k).decks = true →
        t.deck k d = { s.deck k d with driftTarget := s.driftFactor b (s.bough b).temp (s.ageOf (s.deck k d)) }) ∧
  (∀ (k d : Nat) (codes : List Int) (s : State), s.Canonical → Instr.wf (.referenceSweep k d codes) = true → s.gap k = true →
    s.deckReadable k d = true → codes.length = 512 →
    ∃ t, exec (.referenceSweep k d codes) s = .next t ∧ (t.deck k d).sweeps = ((s.deck k d).sweeps + 1) % 4 ∧
      (t.deck k d).sweptAt = s.now ∧ (s.sweepFails k d codes = true → (s.deck k d).state = .live → (t.deck k d).state = .drifted)) ∧
  (∀ (k d : Nat) (codes : List Int) (s : State), s.Canonical → Instr.wf (.clapperPhase k d ⟨codes, .check⟩) = true → s.gap k = true →
    State.anyDeck (s.sweepDue k) = false → s.deckReadable k d = true → s.hasClapper k d = true → codes.length = 512 →
    ∃ t, exec (.clapperPhase k d ⟨codes, .check⟩) s = .next t ∧ (t.deck k d).claps = 1 - (s.deck k d).claps ∧
      (t.deck k d).clappedAt = s.now ∧
      (s.clapperFails k d (s.deck k d).claps codes ≠ [] → (t.tile k).repeat_.isSome = true)) ∧
  (∀ (k d : Nat) (codes : List Int) (s : State), s.Canonical → Instr.wf (.clapperPhase k d ⟨codes, .fit⟩) = true → s.gap k = true →
    State.anyDeck (s.sweepDue k) = false → s.deckReadable k d = true → (s.deckSlot k d).isSome = true →
    (s.fitDue k d false = true → codes.length = 512 → ∃ t, exec (.clapperPhase k d ⟨codes, .fit⟩) s = .next t ∧
      (t.deck k d).fitNo = (s.deck k d).fitNo + 1 ∧ (t.deck k d).fit.forward = (s.deck k d).fit.forward + 1) ∧
    (s.fitDue k d true = true → codes.length = 1024 → ∃ t, exec (.clapperPhase k d ⟨codes, .fitTransposed⟩) s = .next t ∧
      (t.deck k d).fitNo = (s.deck k d).fitNo + 1 ∧ (t.deck k d).fit.transposed = (s.deck k d).fit.transposed + 1)) ∧
  (∀ (k d : Nat) (row : Bytes) (s : State), s.Canonical → Instr.wf (.verifyRead k d row) = true → s.gap k = true →
    State.anyDeck (s.sweepDue k) = false → State.anyDeck (s.clapperDue k) = false → s.deckReadable k d = true →
    (s.deck k d).unverified = false → (s.deck k d).verified = false → row.length = 256 →
    ∃ t, exec (.verifyRead k d row) s = .next t ∧
      ((s.deck k d).verifying.length + 256 < 262144 → (t.deck k d).verifying = (s.deck k d).verifying ++ row) ∧
      (262144 ≤ (s.deck k d).verifying.length + 256 → (t.deck k d).verifying = [] ∧ (t.deck k d).verified = true))

/-- A master row whose blocks can all be delivered from either copy is multiplied, as R291 delivers it, into its product's outlier
sums and is not asked for again; with both copies of a block lost a running device takes a warm reset from source 6. A pass whose
blocks can be delivered ends with nothing of the product in overflow. A bough sum whose reads can be delivered adds the bough's
exact total into the running sum where no element overflows, and the last one takes the sum away. A graft term of the vector in the
activation buffer, for a sum that does not wait, is kept for it by R210; where an overdue slate withholds the engine's grant it comes
again. A continuity check that ends leaves its bough's queue and is charged four phases. At a window's end the matrix's histogram is
gone. -/
def Obligations.SumsAndPassesRun : Prop :=
  (∀ (i : Nat) (reads : List BlockRead) (p : Prod) (a : Nat) (s : State), s.prod? i = some p → State.nextRead p = some a →
    (∀ r ∈ reads, p.readsBlock a r.block = true) → s.affordable 4 = true →
    ∃ t, exec (.outlierReadReturn i ⟨reads, []⟩) s = .next t ∧
      (∀ v rest, (∀ r ∈ reads, readOk r = true) → p.inline = (a, v) :: rest →
        t.prod? i = some { addOutlier p ((s.prodSlot p).patched (wrongOf reads)) a v with inline := rest }) ∧
      (∀ rest, (∀ r ∈ reads, readOk r = true) → p.inline = [] → p.susp = a :: rest →
        t.prod? i = some { p with susp := rest, wrong := p.wrong ++ columnBits [a - 1024] (wrongOf reads) }) ∧
      ((∃ r ∈ reads, readOk r = false) → s.running = true → s.pulseRuns none = false →
        t.boot.phase = .heldWarm ∧ t.boot.source = 6 ∧ t.boot.weightLost.isSome = true)) ∧
  (∀ (i : Nat) (reads : List BlockRead) (p : Prod) (s : State), s.prod? i = some p → s.passNext p = true →
    (∀ r ∈ reads, p.passReads r.block = true) → s.affordable 4 = true →
    ∃ t, exec (.overflowPass i reads) s = .next t ∧ ((∀ r ∈ reads, readOk r = true) →
      ∃ q, t.prod? i = some q ∧ q.overflow = [] ∧ q.passNeeded = false ∧ q.key = p.key)) ∧
  (∀ (k : SumKey) (reads : List (Nat × BlockRead)) (b first : Nat) (m : Mat) (ps : List Prod) (r : SumRun) (rest : List Nat)
    (s u : State), s.readsSum k reads = true → (∀ x ∈ reads, readOk x.2 = true) → State.slowReads reads s = u →
    u.nextBough k = some (b, m, first, ps, r, rest) →
    ∃ t, exec (.boughSum k ⟨reads, []⟩) s = .next t ∧
      (State.overflowing r.accs (u.boughTotal ps m.exponent r.accs.length) = [] → rest ≠ [] → SameBut [.prods, .sums] u t ∧
        { r with accs := List.zipWith Acc.add r.accs (u.boughTotal ps m.exponent r.accs.length),
                 added := r.added ++ [b] } ∈ t.sums) ∧
      (State.overflowing r.accs (u.boughTotal ps m.exponent r.accs.length) = [] → rest = [] → r.key = k →
        State.relaysSum m k = true ∨ u.graftFor k = none → ∀ x ∈ t.sums, x.key ≠ k)) ∧
  (∀ (k : SumKey) (vec : Option VecIn) (row : Option Nat) (g : Graft) (image : Nat) (b : Binding) (m : Mat) (s u : State),
    row = (if 65536 ≤ k.colTile then some (k.colTile - 65536) else none) → s.vecOk k row vec = true → u = s.takeVec k row vec →
    u.graftReady k = true → s.affordable 5 = true →
    (s.unitHeld 160 = false → u.graftFor k = some g → u.sumContext k = some (image, b, m) →
      (∀ r ∈ u.sums, r.key = k → r.needsGraft = false) →
      ∃ t, exec (.graftTerm k vec []) s = .next t ∧ SameBut [.counters, .steps, .stage, .sums, .power] u t ∧
        ∃ r ∈ t.sums, r.key = k ∧ r.graft = some (u.graftVector g m k)) ∧
    (s.unitHeld 160 = true → ∃ t, exec (.graftTerm k vec []) s = .next t ∧ t = s.withhold 160)) ∧
  (∀ (i : Nat) (p : Prod) (s : State), s.Canonical → s.prod? i = some p → i ∈ (s.bough (p.tile / 64)).checks → p.plan = [] →
    s.affordableBy 4 0 = true → ∃ t, exec (.contCheckDone i) s = .next t ∧ i ∉ (t.bough (p.tile / 64)).checks ∧
      t.power.account = s.power.account - 4 * s.chargeOf 0 ∧ t.power.charged = s.power.charged + 4 * s.chargeOf 0) ∧
  (∀ (m : Nat) (s : State), s.running = true → s.now % 2 ^ 30 = 0 →
    ∃ t, exec (.outlierWindowEnd m) s = .next t ∧ t.histos = s.histos.filter fun h => h.matrix != m)

/-- A warming reference that reports ready is ready. A run ends once every live tile of its bough has measured: with samples their
mean becomes the bough's calibration temperature; one without runs again. A fit over the deck's 128 phases, by the counts it names, whose gains are all in
range makes them the deck's gains and targets. A drift
re-take is a refresh take of the drifted deck with the next number. The oldest accepted chunk leaves the queue when it has
been converted. A signed object leaves the queue when it has been checked: a firmware image that passes is valid in its slot
and, with flash as the boot source, written there, and FW_STAGE is answered with OK, one that fails with the status of its
reason. A drained epoch leaves no old bindings. What follows is settled by the rules of takes and cuts. -/
def Obligations.CalibrationAndWeightEventsAct : Prop :=
  (∀ (b a : Nat) (reads : List SliceReads) (s : State), s.Canonical → b < 128 → (s.bough b).ref = .warming a →
    State.readsOk (if (s.bough b).coldCal = true then s.liveTiles b else []) reads = true →
    ∃ t, exec (.refReady ⟨b, reads⟩) s = .next t ∧ (t.bough b).ref = .ready) ∧
  (∀ (b : Nat) (reads : List SliceReads) (s : State), s.Canonical → b < 128 → (s.bough b).runOn = true → s.grantsOpen = true →
    (s.bough b).ref = .ready → State.readsOk (s.liveTiles b) reads = true → (∀ k ∈ s.liveTiles b, s.tileMeasured k = true) →
    ∃ t, exec (.calRunEnd b reads) s = .next t ∧
      ((s.bough b).runCount ≠ 0 → (t.bough b).runDone = true ∧
        (t.bough b).calTemp = some (Bits.roundHalfEven (s.bough b).runSum (s.bough b).runCount)) ∧
      ((s.bough b).runCount = 0 → (t.bough b).calTemp = (s.bough b).calTemp ∧
        ((s.bough b).withdrawn = false → (t.bough b).runOn = true ∨ (t.bough b).runPending = true))) ∧
  (∀ (k d f b : Nat) (cols rows : List FitSum) (s : State), s.Canonical → k < 8192 → d < 8 → s.grantsOpen = true → s.deckReadable k d = true →
    (s.deck k d).fitted = false → s.fitComplete k d 128 = true → cols = (s.deck k d).fit.cols → rows = (s.deck k d).fit.rows →
    (newGains true [] cols).2 = [] → f = (s.deck k d).fit.forward → b = (s.deck k d).fit.transposed →
    ∃ u : State, exec (.fitDone k d f b) s = .next u.settle ∧ (u.deck k d).fitted = true ∧
      (u.deck k d).colGain = (newGains true [] cols).1 ∧ (u.deck k d).colTarget = (newGains true [] cols).1 ∧
      (u.deck k d).rowGain = (newGains true [] rows).1 ∧ (u.deck k d).rowTarget = (newGains true [] rows).1) ∧
  (∀ (k d : Nat) (s : State), s.Canonical → s.running = true → s.nextRetake = some (k, d) →
    ∃ u : State, exec (.deckRetake k d) s = .next u.settle ∧ u.weights.nextTake = s.weights.nextTake + 1 ∧
      ∃ x ∈ u.weights.takes, x.id = s.weights.nextTake ∧ x.drift = some (k, d) ∧ x.refresh = true) ∧
  (∀ (c : ChunkJob) (rest : List ChunkJob) (s : State), s.weights.chunks = c :: rest →
    ∃ u : State, exec .chunkConversion s = .next u.settle ∧ u.weights.chunks = rest) ∧
  (∀ (o : SigObject) (rest : List SigObject) (s : State), s.Canonical → s.sec.queue = o :: rest →
    ∃ t, exec .sigCheck s = .next t ∧ t.sec.queue = rest ∧
      ∀ b slot j, o = .firmware b slot j → t.sec.staging = none ∧
        (s.fwReason b = none → Delivered s t (answerRing j.ring) (s.answerOf j .ok 0 0) ∧
          (s.regs.boot = 0 → PutOut s t (.flash (slot * 2 ^ 24) b)) ∧
          (Tbl.get ({} : FwSlot) slot t.sec.slots) = { bytes := b, valid := true, digest := Shake.digest32 b, svn := Bits.le b 8 4 }) ∧
        (∀ r, s.fwReason b = some r → Delivered s t (answerRing j.ring) (s.answerOf j (State.fwStatus r) 0 0))) ∧
  (∀ s : State, s.oldEpochLeft = true →
    ∃ u : State, exec .epochDrained s = .next u.settle ∧ u.weights.oldEpoch = false ∧ u.weights.oldBindings = [])

/-- Attention work that can run, that its grant allows and that does not wait already runs. An append of a token's keys and values is
noted by the step; it goes to the call's page of the token, one taken in the page's stack where there is none. Taproot attention joins,
for each query head, the output of the head's rotated query over the attended keys of the latched pages, as R291 delivers their blocks,
to the step, and with a lost block ends the call; before the placed transfer that it needs it waits. A canopy lane that has finished a
block, its KV blocks as R291 delivers them, has its row at the next key tile; after the row's last key tile the row is gone and its
outputs join the step; a lost KV block ends the call. A block of a tuning step's backward pass whose reads are clean goes on the same way, and with a group's last block the group's gradients join the step. -/
def Obligations.AttentionRuns : Prop :=
  (∀ (w : WorkRef) (layer n : Nat) (k v : List (List F32)) (x : Step) (s : State), s.Canonical → s.canAppend w layer n k v = true →
    s.affordable 4 = true → (∀ y ∈ s.attnWaits, y.cmd ≠ .append w layer n k v) → s.step? w.call w.step = some x →
    ∃ t, exec (.kvAppend w layer n k v) s = .next t ∧
      (∃ y, t.step? w.call w.step = some y ∧ y.appended = x.appended ++ [layer * 2 ^ 20 + n]) ∧
      ((s.call w.call).page layer (n / 64) ≠ 0 → (t.call w.call).page layer (n / 64) = (s.call w.call).page layer (n / 64)) ∧
      ((s.call w.call).page layer (n / 64) = 0 → (t.call w.call).page layer (n / 64) % 8 = s.pageStack w.call layer (n / 64) % 8)) ∧
  (∀ (w : WorkRef) (layer needs : Nat) (q : List (List F32)) (flips : List (Nat × Nat × Nat × Flips)) (sp : State.Span) (r : Attn)
    (pg : Tbl Nat) (fl : List (Nat × Flips)) (s : State), s.Canonical → s.canAttend w layer q = true →
    (∀ y ∈ s.attnWaits, y.cmd ≠ .taproot w layer q flips) → s.attnSpan w = some sp → s.attnRecordOf w layer = some r →
    pg = s.latched w sp layer → fl = State.pageFlips (s.call w.call).kvFormat pg r (sp.pos w) sp.limit flips →
    ((∃ y, s.step? w.call w.step = some y ∧ y.xferDone < needs) →
      ∃ t, exec (.taprootAttention w layer q ⟨flips, needs, []⟩) s = .next t ∧ SameBut [.counters, .attnWaits] s t ∧
        t.attnWaits = s.attnWaits ++ [{ needs := needs, cmd := .taproot w layer q flips }]) ∧
    ((∀ y, s.step? w.call w.step = some y → needs ≤ y.xferDone) → s.affordable 5 = true →
      (∀ k ∈ s.cmdUnits (.taproot w layer q flips), s.unitHeld k = false) →
      ∃ t, exec (.taprootAttention w layer q ⟨flips, needs, []⟩) s = .next t ∧
        ((∀ f ∈ fl, classify f.2 ≠ .uncorrectable) → ∀ x, s.step? w.call w.step = some x → ∃ y, t.step? w.call w.step = some y ∧
          y.attn = x.attn ++ (q.zipIdx.map fun h => ({
            layer := layer, token := w.token, head := h.2,
            out := (s.asDelivered fl).taprootHead (s.call w.call).kvFormat pg r (sp.pos w) sp.limit h.2
              (rotate r.ropeBase (sp.pos w) h.1) } : AttnOut))) ∧
        ((∃ f ∈ fl, classify f.2 = .uncorrectable) → (t.call w.call).ended = true ∨ (t.call w.call).state = .free))) ∧
  (∀ (lane : Nat) (w : WorkRef) (layer group row needs : Nat) (q : List (List (List F32))) (flips : List (Nat × Nat × Nat × Flips))
    (sp : State.Span) (r : Attn) (fl : List (Nat × Flips)) (c d : CanopyRow) (s : State), s.Canonical →
    s.canCanopy lane w layer group row q = true → s.affordable 5 = true →
    (∀ y ∈ s.attnWaits, y.cmd ≠ .canopy lane w layer group row q flips) → s.attnSpan w = some sp → s.attnRecordOf w layer = some r →
    (∀ y, s.step? w.call w.step = some y → needs ≤ y.xferDone) → s.unitHeld (144 + lane) = false →
    c = s.canopyRowOf lane w layer group row sp.first sp.n r →
    fl = State.tileFlips (s.call w.call).kvFormat (s.latched w sp layer) r.kvHeads group c.nextKey
      (sp.first + 128 * row + q.length - 1) flips →
    d = { c with
      lane := lane, nextKey := c.nextKey + 1, stopped := s.workDrained w.call,
      acc := ((s.asDelivered fl).canopyBlock (s.call w.call) (s.latched w sp layer) r sp.first c q).map fun x => x.1,
      bad := ((s.asDelivered fl).canopyBlock (s.call w.call) (s.latched w sp layer) r sp.first c q).map fun x => x.2 } →
    ∃ t, exec (.canopyBlock lane w layer group row ⟨some q, needs, flips⟩) s = .next t ∧
      (fl = [] → SameBut [.counters, .steps, .acts, .histos, .canopy, .latches, .servedAttn, .power] s t) ∧
      ((∃ f ∈ fl, classify f.2 = .uncorrectable) → (t.call w.call).ended = true ∨ (t.call w.call).state = .free) ∧
      ((∀ f ∈ fl, classify f.2 ≠ .uncorrectable) → c.nextKey + 1 ≤ State.lastKeyTile sp.first sp.n row → d ∈ t.canopy) ∧
      ((∀ f ∈ fl, classify f.2 ≠ .uncorrectable) → State.lastKeyTile sp.first sp.n row < c.nextKey + 1 →
        (∀ x ∈ t.canopy, x.isRow w layer group row = false) ∧
        ∀ x, s.step? w.call w.step = some x → ∃ y, t.step? w.call w.step = some y ∧
          y.attn = x.attn ++ State.rowOutputs (s.call w.call) r sp d q)) ∧
  (∀ (lane : Nat) (w : WorkRef) (layer group row needs : Nat) (sp : State.Span) (r : Attn) (n : Nat) (s : State),
    s.canBack lane w layer group row = true → s.affordable 5 = true →
    (∀ y ∈ s.attnWaits, y.cmd ≠ .backward lane w layer group row []) → s.attnSpan w = some sp → s.attnRecordOf w layer = some r →
    (∀ y, s.step? w.call w.step = some y → needs ≤ y.xferDone) → s.unitHeld (144 + lane) = false →
    n = s.backNext w sp r layer group row →
    ∃ t, exec (.canopyBlock lane w layer group row ⟨none, needs, []⟩) s = .next t ∧
      SameBut [.counters, .steps, .backs, .latches, .power] s t ∧
      t.backs = (s.backs.filter fun (y : BackRow) => !y.isRow w layer group row) ++
        [{ lane := lane, work := w, layer := layer, group := group, row := row, nextKey := n + 1,
           ended := decide (State.lastKeyTile sp.first sp.n row ≤ n) }] ∧
      ∀ x, s.step? w.call w.step = some x → ∃ y, t.step? w.call w.step = some y ∧
        y.grads = x.grads ++ if t.backOver w sp layer group = true then
            ((s.backQueries w sp r layer group).map
              (s.backGradients (s.call w.call).kvFormat (s.latched w sp layer) r sp layer group)).getD []
          else [])

/-- A batch that opens at position 0 keeps its tick and epoch and waits for its window, or closes at once, always so with no
window; a ready step that joins leaves the tick and the epoch, or fills the batch. A batch that closes, full or with its window
passed, takes the next number (when the number rises is the model's choice, log 123). A step that stands at its commit
waits for a STEP_MASK or a full token-out ring, noted once; a tuning step is counted; a decoding step whose call goes on adds
its tokens to the call and to its KV, and the call's next step number is one higher. The deadline scan ends every call that is
overdue and rests, or waits only for a mask. A refill brings the customer's level and next refill up to date. A preemption
with room in the partition's save share asks for a drain of the partition for the chunk, and without room changes counters
and the step's note alone. -/
def Obligations.StepsAreScheduled : Prop :=
  (∀ s : State, s.batchDue = true → s.isFirst = true →
    ∃ t, exec .batchOpen s = .next t ∧
      (s.batch = none → s.regs.batchWindow = 0 → t.batch = none ∧ t.batchNo = s.batchNo + 1) ∧
      (s.batch = none → t.batch = none ∧ t.batchNo = s.batchNo + 1 ∨
        t.batchNo = s.batchNo ∧ ∃ b, t.batch = some b ∧ b.firstTick = s.now ∧ b.epoch = s.weights.epoch) ∧
      ∀ b, s.batch = some b → t.batch = none ∧ t.batchNo = s.batchNo + 1 ∨
        t.batchNo = s.batchNo ∧ ∃ a, t.batch = some a ∧ a.firstTick = b.firstTick ∧ a.epoch = b.epoch) ∧
  (∀ (b : Batch) (s : State), s.batch = some b → b.firstTick + s.sched.batchWindow ≤ s.now →
    ∃ u : State, exec .batchWindowExpiry s = .next u.settle ∧ u.batch = none ∧ u.batchNo = s.batchNo + 1) ∧
  (∀ (c : Nat) (x : Step) (s : State), s.Canonical → s.commitDue c = true → s.oldestStep c = some x →
    ∃ t, exec (.stepCommit c) s = .next t ∧
      ((s.call c).tune = none → s.sampleStep x = none →
        ∃ y, t.step? c x.step = some y ∧ y.waitsMask = true ∧ y.maskWaited = true) ∧
      (∀ o, (s.call c).tune = none → s.sampleStep x = some o → s.mayCommit x = true → o.tokens ≠ [] →
        s.tokenRingFull (s.call c).partition = true → (s.part (s.call c).partition).resetting = false →
        ∃ y, t.step? c x.step = some y ∧ y.ringWaited = true) ∧
      (∀ o, (s.call c).tune = none → s.sampleStep x = some o → s.mayCommit x = true →
        (o.tokens = [] ∨ s.tokenRingFull (s.call c).partition = false) → (s.part (s.call c).partition).resetting = false →
        s.endStatus { s.committedEntry (s.call c) x o.tokens with matteState := o.matteState } x o = none →
        (s.call c).draftDepth = 0 → (s.call c).failIfParked = false → (s.call c).written = false →
        (t.call c).generated = (s.call c).generated + o.tokens.length ∧ (t.call c).step = x.step + 1 ∧
          (t.call c).stepsDone = (s.call c).stepsDone + 1 ∧
          (t.call c).kvLen = (s.call c).kvLen + (if x.kind = .prefill then x.tokens.length else o.tokens.length)) ∧
      (∀ u, (s.call c).tune = some u → (s.part (s.call c).partition).resetting = false → (s.call c).cancelled = false →
        s.overdue (s.call c) = false → (s.call c).failIfParked = false → (s.call c).written = false → u.stepsDone + 1 < u.steps →
        (t.call c).step = x.step + 1 ∧ (t.call c).tune = some { s.tuneUpdate x u with stepsDone := u.stepsDone + 1 })) ∧
  (∀ s : State, s.Canonical → s.now % 2 ^ 10 = 0 → s.awake = true →
    ∃ t, exec .deadlineScan s = .next t ∧ ∀ c ∈ s.scanned ++ s.maskOverdue, (t.call c).ended = true ∨ (t.call c).state = .free) ∧
  (∀ (k : Nat) (s : State), s.Canonical → (s.customer k).valid = true → 0 < (s.customer k).interval →
    (s.customer k).nextRefill ≤ s.now → ∃ t, exec (.budgetRefill k) s = .next t ∧ t.customer k = State.refilled (s.customer k) s.now ∧
      (∀ j, j ≠ k → t.customer j = s.customer j) ∧ s.now < (t.customer k).nextRefill ∧
      (0 < (t.customer k).level → ∀ c, (t.call c).customer = k → (t.call c).ended = false → (t.call c).state ≠ .parked)) ∧
  (∀ (c k : Nat) (s : State), s.preemptDue c k = true →
    ∃ t, exec (.preempt c k) s = .next t ∧
      (((s.part (s.call k).partition).saveShare = 0 ∨ (s.part (s.call k).partition).saveShare.toNat <
          (s.part (s.call k).partition).saveUsed + s.saveMiB k) → SameBut [.counters, .steps] s t) ∧
      ((s.part (s.call k).partition).saveShare ≠ 0 → (s.part (s.call k).partition).saveUsed + s.saveMiB k ≤
          (s.part (s.call k).partition).saveShare.toNat →
        ∃ d ∈ t.drains, d.why = .preempt k ∧ d.scope = .partition (s.call k).partition ∧ d.start = s.now))

/-- An accepted ACK takes its number and drops what it acknowledges from the replay buffer; a NAK of the oldest flit counts
one more failure and resends everything held. A discarded wire unit leaves the expected number and is answered by a NAK that
names it, unless the port discards already and the unit itself is sound. A narrower group that a DEGRADE names is taken and
answered. DISCOVER from upstream gives the position one beyond the neighbour's; a partner that says the same position and the
other side is paired with. A weak lane is marked, and one of the active group degrades the port to the widest good group, or
takes it down. A port whose flit has failed REPLAY_MAX times with no weak lane trains again. A trained port has the width and
group of its good lanes; a failed training leaves it down, at port U at position 0, at port T without a partner. A break is
noted once. A flit whose words fail their parity on the way to their consumer is not acted on: the device is held in warm reset
from source 6; while a program pulse runs, the reset is held. -/
def Obligations.LinksKeepTheirFlits : Prop :=
  (∀ (hd : FlitHdr) (s : State), s.Canonical → s.accepts hd = true → hd.channel = 0 →
    ∃ t, exec (.ack hd) s = .next t ∧ (t.link hd.port).rxSeq = (s.link hd.port).rxSeq + 1 ∧
      ∃ l, (t.link hd.port).replay = (if hd.ackValid = true then
        (s.link hd.port).replay.dropWhile (fun x => decide ((hd.ack - x.seq).toNat < 512)) else (s.link hd.port).replay) ++ l) ∧
  (∀ (hd : FlitHdr) (n : BitVec 12) (s : State), s.Canonical → s.FlitReady hd [.h, .t, .u, .d] [0] → hd.ackValid = false →
    ∃ t, exec (.nak hd n) s = .next t ∧ ((s.link hd.port).replay.head?.map (fun x => x.seq) = some n →
      (t.link hd.port).fails = (s.link hd.port).fails + 1 ∧
      ∀ y ∈ (s.link hd.port).replay, ∃ ack, PutOut s t (.flit hd.port y.channel y.seq ack (0, 0) y.body))) ∧
  (∀ (p : Port) (w : Bytes) (s : State), s.Canonical → s.awake = true → (s.link p).carries = true → w.length = 262 →
    (wireBad w = true ∨ wireSeq w ≠ (s.link p).rxSeq.toNat) →
    ∃ t, exec (.flitDiscard p w) s = .next t ∧ (t.link p).discarding = true ∧ (t.link p).rxSeq = (s.link p).rxSeq ∧
      ((s.link p).discarding = false ∨ wireBad w = true → Sent s t p 0 (.nak (s.link p).rxSeq)) ∧
      ((s.link p).discarding = true → wireBad w = false → t.out = s.out)) ∧
  (∀ (hd : FlitHdr) (w g : Nat) (s : State), s.Canonical → s.FlitReady hd [.h, .t, .u, .d] [0] →
    ∃ t, exec (.degrade hd w g) s = .next t ∧
      (groupValid (lanesOf hd.port) w g = true → w < (s.link hd.port).width →
        (t.link hd.port).width = w ∧ (t.link hd.port).group = g ∧ (t.link hd.port).state = .degraded ∧
        Sent s t hd.port 0 (.degrade w g)) ∧
      (groupValid (lanesOf hd.port) w g = false → (t.link hd.port).width = (s.link hd.port).width ∧
        (t.link hd.port).group = (s.link hd.port).group)) ∧
  (∀ (hd : FlitHdr) (pos side posn : Nat) (resumed : Bool) (s : State), s.Canonical → s.FlitReady hd [.u, .d, .t] [0] →
    ∃ t, exec (.discover hd pos side posn resumed) s = .next t ∧
      (resumed = false → hd.port = .u → s.boot.posKnown = false → t.regs.chainPos = BitVec.ofNat 4 (min (pos + 1) 15) ∧ t.boot.posKnown = true) ∧
      (resumed = false → hd.port = .t → t.partner.said = some (pos, side) ∧
        (s.boot.posKnown = true → pos = s.regs.chainPos.toNat → side ≠ (if s.regs.side then 1 else 0) → t.regs.paired = true)) ∧
      (resumed = true → hd.port = .u → s.isLast = false → Sent s t .d 0 (.discover pos side posn true))) ∧
  (∀ (p : Port) (s : State), s.Canonical → s.breakDue p = true →
    ∃ t, exec (.chainBreak p) s = .next t ∧ t.link p = { s.link p with broken := true } ∧ ∀ q, q ≠ p → t.link q = s.link q) ∧
  (∀ (p : Port) (lanes : BitVec 16) (x : Nat × Nat) (s : State), s.Canonical → s.awake = true →
    bestGroup (lanesOf p) (lanesOf p) (~~~lanes) = some x → ((s.link p).state = .training ∨ (s.link p).state = .down) →
    ∃ t, exec (.portTrained p lanes) s = .next t ∧ (t.link p).width = x.1 ∧ (t.link p).group = x.2 ∧ (t.link p).weak = ~~~lanes ∧
      (t.link p).state = (if x.1 = lanesOf p then .up else .degraded) ∧ (t.link p).resetJobs = []) ∧
  (∀ (p : Port) (lane symbols : Nat) (lost : Bool) (s : State), s.Canonical → s.awake = true → (s.link p).carries = true →
    lane < lanesOf p → (lost = true ∨ s.regs.laneErrMax ≠ 0 ∧ s.regs.laneErrMax.toNat < symbols) →
    ∃ t, exec (.laneWeak p lane lost symbols) s = .next t ∧ (t.link p).weak = (s.link p).weak ||| (1#16 <<< lane) ∧
      ((s.link p).laneActive lane = false → SameBut [.links] s t ∧ (t.link p).width = (s.link p).width) ∧
      ((s.link p).laneActive lane = true → match bestGroup (lanesOf p) (s.link p).width ((s.link p).weak ||| (1#16 <<< lane)) with
        | none => (t.link p).state = .down ∧ (t.link p).width = 0
        | some x => (t.link p).state = .degraded ∧ (t.link p).width = x.1 ∧ (t.link p).group = x.2 ∧ Sent s t p 0 (.degrade x.1 x.2))) ∧
  (∀ (p : Port) (s : State), s.Canonical → s.awake = true → s.isolated = false → (s.link p).carries = true →
    s.regs.replayMax.toNat ≤ (s.link p).fails → ∃ t, exec (.replayMax p) s = .next t ∧ (t.link p).fails = 0 ∧
      ((∀ i, i < (s.link p).width → (s.link p).weak.getLsbD ((s.link p).group * (s.link p).width + i) = false) →
        (t.link p).state = .training ∧ (t.link p).width = 0)) ∧
  (∀ (p : Port) (s : State), s.Canonical → s.awake = true → (s.link p).state = .training →
    ∃ t, exec (.portDown p) s = .next t ∧ (t.link p).state = .down ∧ (t.link p).width = 0 ∧
      (p = .u → s.boot.posKnown = false → t.regs.chainPos = 0 ∧ t.boot.posKnown = true) ∧
      (p = .t → s.regs.paired = false → t.partner.absent = true)) ∧
  (∀ (c : Instr) (hd : FlitHdr) (ports : List Port) (channels : List Nat) (s : State), Instr.carriedBy c = some (hd, ports, channels) →
    hd.torn = true → s.Canonical → s.accepts hd = true → hd.port ∈ ports → hd.channel.toNat ∈ channels → s.running = true →
    (∀ h r, c = .retakeReq h r → s.power.dstate ≠ .d2) →
    ∃ t, exec c s = .next t ∧
      (∀ k, (t.call k).step = (s.call k).step ∧ (t.call k).generated = (s.call k).generated) ∧
      (s.pulseRuns none = false → t.boot.phase = .heldWarm ∧ t.boot.source = 6) ∧
      (s.pulseRuns none = true → t.boot.phase = s.boot.phase ∧ t.boot.heldReset.isSome = true))

/-- A token return goes on upstream on its channel and commits the step here. Activations from upstream start a batch number
and join their step's input with epoch and generation; gradients from downstream change, beside the link, only the steps that
keep them. A running sum
goes on here from the records received. A cancellation goes on downstream and marks the call, or ends it. An epoch from
upstream opens with its generation. A JACK goes on to the last position, where the step keeps it. A manifest waits for its
signature check. ADOPT makes every mirrored call a ready call of this chain and passes onward; the end of the fence wait does
the same. -/
def Obligations.RelayTrafficActs : Prop :=
  (∀ (hd : FlitHdr) (p tag n marks : Nat) (toks drafts : List Nat) (s : State), s.Canonical → s.FlitReady hd [.d] [1, 2] →
    s.isFirst = false → ∃ t, exec (.tokenReturn hd p tag n toks drafts marks) s = .next t ∧
      Sent s t .u hd.channel.toNat (.tokenReturn p tag n toks drafts marks) ∧
      ∀ c x, s.ownCall p tag = some c → s.step? c n = some x → (t.call c).step = n + 1 ∧
        (t.call c).generated = (s.call c).generated + toks.length ∧ (t.call c).drafts = drafts) ∧
  (∀ (hd : FlitHdr) (epoch image : Nat) (i : ActItem) (s : State), s.Canonical → s.FlitReady hd [.u, .d] [1, 2] →
    ∃ t, exec (.activation hd epoch image [i]) s = .next t ∧
      (hd.port = .d → SameBut [.counters, .links, .out, .steps] s t ∧ ∀ c x u, s.ownCall i.p i.tag = some c → (s.call c).tune = some u →
        s.step? c i.step = some x → ∃ y, t.step? c i.step = some y ∧ y.backIn = x.backIn ++ [i]) ∧
      (hd.port = .u → t.batchNo = s.batchNo + 1 ∧
        ∀ c x, s.ownCall i.p i.tag = some c → (s.call c).step ≤ i.step → s.step? c i.step = some x → s.graftMissing c = false →
          (∀ y ∈ x.input, ¬ (y.token = i.token ∧ y.matrix = i.matrix)) →
          ∃ y, t.step? c i.step = some y ∧ y.input = x.input ++ [i] ∧ y.epoch = epoch ∧ y.image = image)) ∧
  (∀ (hd : FlitHdr) (p tag n epoch image marks c : Nat) (i : SumItem) (x : Step) (s : State), s.Canonical →
    s.FlitReady hd [.u] [1, 2] → s.ownCall p tag = some c → (s.call c).step ≤ n → s.step? c n = some x → s.graftMissing c = false →
    ∃ t, exec (.runningSum hd p tag n epoch image marks i) s = .next t ∧
      ∃ r ∈ t.sums, r.key = { work := { call := c, step := n, token := i.token }, matrix := i.matrix, colTile := i.colTile } ∧
        r.accs = i.records.map (fun w => (Acc.restore w).2) ∧ r.started = true ∧ r.retry = i.retry) ∧
  (∀ (hd : FlitHdr) (p tag : Nat) (s : State), s.Canonical → s.FlitReady hd [.u] [2] →
    ∃ t, exec (.callCtrl hd (.cancel p tag)) s = .next t ∧
      (s.isLast = false → Sent s t .d 2 (.callCtrl (.cancel p tag))) ∧
      ∀ c, s.ownCall p tag = some c → (t.call c).cancelled = true ∨ (t.call c).ended = true ∨ (t.call c).state = .free) ∧
  (∀ (hd : FlitHdr) (e image : Nat) (g : Gen) (pl : Placement) (s : State), s.FlitReady hd [.u] [2] → s.gen? image = some g →
    s.placementOf g = some pl →
    ∃ u : State, exec (.cutCtrl hd (.epoch e image)) s = .next (u.settle.acknowledge hd.port) ∧ u.weights.epoch = e ∧
      u.weights.oldEpoch = true ∧ u.weights.oldBindings = s.weights.bindings) ∧
  (∀ (hd : FlitHdr) (p tag n pos : Nat) (s : State), s.Canonical → s.FlitReady hd [.u] [0] →
    ∃ t, exec (.jack hd p tag n pos) s = .next t ∧ (s.isLast = false → Sent s t .d 0 (.jack p tag n pos)) ∧
      (s.isLast = true → ∀ c x, s.liveGen.isSome = true → s.ownCall p tag = some c → (s.call c).step ≤ n → s.step? c n = some x →
        s.graftMissing c = false → ∃ y, t.step? c n = some y ∧ pos ∈ y.jacks)) ∧
  (∀ (hd : FlitHdr) (b : Bytes) (s : State), s.FlitReady hd [.u, .d, .h] [3] →
    ∃ t, exec (.image hd (.manifest b)) s = .next t ∧ t.sec.queue = s.sec.queue ++ [.manifest b none]) ∧
  (∀ (hd : FlitHdr) (s : State), s.Canonical → s.FlitReady hd [.u, .d] [0] →
    ∃ t, exec (.adopt hd) s = .next t ∧ (∀ c, (s.call c).state = .mirror → (t.call c).state = .ready ∧ (t.call c).adopted = true) ∧
      (hd.port = .d → s.isFirst = false → Sent s t .u 0 .adopt) ∧ (hd.port = .u → s.isLast = false → Sent s t .d 0 .adopt)) ∧
  (∀ (a : Nat) (s : State), s.Canonical → s.partner.fenceAt = some a → a + 2048 ≤ s.now →
    ∃ t, exec .fenceWaitEnd s = .next t ∧ t.partner.fenceAt = none ∧
      (∀ c, (s.call c).state = .mirror → (t.call c).state = .ready ∧ (t.call c).adopted = true) ∧
      (s.isFirst = false → Sent s t .u 0 .adopt) ∧ (s.isLast = false → Sent s t .d 0 .adopt))

/-- A heartbeat of a paired device's partner restarts the count of misses and ends a loss; each 31,250 ticks without one are a
miss (in a start only once its ports have trained, the model's choice, log 188), the tenth declares the partner lost, and the tenth on
one side or the twentieth on the other fences it. A hold is kept with its end; with a warm reset or sleep every premium step may commit. A journal's step marks are acknowledged, and an
acknowledgement is held by every marked step up to it. A retake is served where the call is mirrored and its generation held
and is refused otherwise; its result goes back and leaves the list. A response makes the part retaken with the result, or with
the local one where it is refused or late. MIRROR_DROP and the end of the keep time free mirrored entries. -/
def Obligations.PartnersWatchAndMirror : Prop :=
  (∀ (hd : FlitHdr) (tick : BitVec 64) (st : HbState) (s : State), s.FlitReady hd [.t] [0] →
    ∃ t, exec (.heartbeat hd tick st) s = .next t ∧
      (s.regs.paired = true → t.partner.misses = 0 ∧ t.partner.lastBeat = s.now ∧ t.partner.timer = s.now ∧ t.partner.lost = false ∧
        t.partner.fenced = false ∧ t.partner.offset = (s.now : Int) - (tick.toNat : Int) - 73) ∧
      (s.regs.paired = false → t.partner = s.partner)) ∧
  (∀ (hd : FlitHdr) (ticks : Nat) (warm sleep : Bool) (s : State), s.FlitReady hd [.t] [0] →
    ∃ t, exec (.hbHold hd ticks warm sleep) s = .next t ∧
      t.partner = { s.partner with holdUntil := some (s.now + ticks), warmHold := warm, sleeping := s.partner.sleeping || sleep } ∧
      ((warm || sleep) = true → ∀ x ∈ t.steps, x.premium = true → x.acked = true)) ∧
  (∀ (hd : FlitHdr) (recs : List JournalRec) (s : State), s.Canonical → s.FlitReady hd [.t] [1] →
    ∃ t, exec (.journal hd recs) s = .next t ∧
      ∀ p tag n ts, JournalRec.stepMark p tag n ts ∈ recs → Sent s t .t 0 (.journalAck p tag n)) ∧
  (∀ (hd : FlitHdr) (p tag n : Nat) (s : State), s.FlitReady hd [.t] [0] →
    ∃ t, exec (.journalAck hd p tag n) s = .next t ∧ ∀ c x, s.ownCall p tag = some c → x ∈ s.steps → x.call = c → x.marked = true →
      x.step ≤ n → ∃ y ∈ t.steps, y.call = c ∧ y.step = x.step ∧ y.acked = true) ∧
  (∀ (hd : FlitHdr) (q : RetakeReq) (s : State), s.Canonical → s.FlitReady hd [.t] [1] → s.power.dstate ≠ .d2 →
    ∃ t, exec (.retakeReq hd q) s = .next t ∧
      ((s.mirrorCall q.p q.tag).isSome = true → (s.gen? q.image).isSome = true → q ∈ t.partner.serving) ∧
      (s.mirrorCall q.p q.tag = none ∨ s.gen? q.image = none → Sent s t .t 1 (.retakeResp q.p q.tag q.step none) ∧
        t.partner = s.partner)) ∧
  (∀ (p tag n c : Nat) (q : RetakeReq) (drafts : List (Nat × List (Nat × F32))) (mask : Option Bytes) (s : State), s.Canonical →
    s.servedNow p tag n = some (c, q) → s.servedDone c q = true →
    ∃ t, exec (.verifiedStepDone p tag n drafts mask) s = .next t ∧
      t.partner = { s.partner with serving := s.partner.serving.erase q } ∧
      ∃ r, Sent s t .t 1 (.retakeResp q.p q.tag q.step (some r)) ∧ r.tokens = s.servedTokens c q (s.servedStep c q).1 drafts mask) ∧
  (∀ (hd : FlitHdr) (p tag n c : Nat) (r : Option RetakeResult) (x : Step) (a : RetakeSt) (s : State), s.Canonical →
    s.FlitReady hd [.t] [1] → s.ownCall p tag = some c → s.step? c n = some x → x.retake = some a → a.applied = false →
    ∃ t, exec (.retakeResp hd p tag n r) s = .next t ∧ ∃ y, t.step? c n = some y ∧ y.retaken = true ∧
      (r = none → y.retake = none ∧ y.unbounded = true) ∧
      ∀ u, r = some u → y.retake = some { a with applied := true } ∧ y.output = u.output ∧ y.outSums = u.sums) ∧
  (∀ (p tag n c : Nat) (s : State), s.retakeOverdue p tag n = some c →
    ∃ t, exec (.retakeTimeout p tag n) s = .next t ∧ ∃ y, t.step? c n = some y ∧ y.retaken = true ∧ y.retake = none ∧
      y.unbounded = true) ∧
  (∀ (hd : FlitHdr) (s : State), s.Canonical → s.FlitReady hd [.t] [0] →
    ∃ t, exec (.mirrorDrop hd) s = .next t ∧ ∀ c, (s.call c).state = .mirror → (t.call c).state = .free) ∧
  (∀ s : State, s.Canonical → s.beatDue = true → ∃ t, exec .heartbeatSend s = .next t ∧ t.partner = { s.partner with sentAt := s.now } ∧
    Sent s t .t 0 (.heartbeat s.tick (if s.boot.phase = .warmStart then .hold else .serving))) ∧
  (∀ s : State, s.awake = true → (s.running = false → s.stepDone? (if s.boot.phase = .warmStart then 5 else 8) = true) →
    s.regs.paired = true → s.partner.sleeping = false → s.isolated = false → s.power.dstate ≠ .d3 →
    s.missFrom + 31250 ≤ s.now → ∃ t, exec .heartbeatMiss s = .next t ∧ t.partner.misses = s.partner.misses + 1 ∧
      (s.partner.misses = 9 → t.partner.lost = true ∧ ∀ x ∈ t.steps, x.premium = true → x.acked = true) ∧
      ((s.partner.misses = 9 ∧ s.regs.side = false ∨ s.partner.misses = 19 ∧ s.regs.side = true) → s.pins.fenceIn = false →
        t.pins.fenceOut = true ∧ t.partner.fenced = true ∧ t.partner.fenceAt = some s.now)) ∧
  (∀ (c a : Nat) (s : State), s.Canonical → (s.call c).state = .mirror → (s.call c).brokenAt = some a → a + 2 ^ 28 ≤ s.now →
    ∃ t, exec (.mirrorKeepExpiry c) s = .next t ∧ (t.call c).state = .free)

/-- A leak takes one from its bank's bucket. An eviction removes its entry: a whole block is written byte for byte, and one
that is read and lost ends the call that owns its page. A sample joins its window, and a window that is over starts anew. The
oldest retirement, fill or rehash ends in order, and its descriptor is answered with OK; after a fill every byte of its range
reads 0 and every other byte of HBM reads as before. A rehash ends once every page group has moved and, where it names the weight
region, between two batches, and before that it cannot. -/
def Obligations.MemoryEventsEnd : Prop :=
  (∀ (k : Nat) (s : State), s.leakDue k = true → ∃ t, exec (.bucketLeak k) s = .next t ∧ SameBut [.mem] s t ∧
    (t.bucket k).level = (s.bucket k).level - 1 ∧ t.mem.hbm = s.mem.hbm) ∧
  (∀ (stack channel : Nat) (e : Merge) (flips : Flips) (s : State), s.Canonical → Tbl.wf [] s.mem.merge = true → s.memUp = true →
    Instr.wf (.mergeEvict stack channel flips) = true → s.evictDue stack channel = some e →
    ∃ t, exec (.mergeEvict stack channel flips) s = .next t ∧
      (∀ x ∈ Tbl.get [] (stack * 32 + channel) t.mem.merge, x.block ≠ e.block) ∧
      (e.bytes.length = 64 → e.bytes.Pairwise (fun x y => x.1 < y.1) →
        ∀ x ∈ e.bytes, t.mem.byte (e.block * 64 + x.1) = BitVec.ofNat 8 x.2) ∧
      (e.bytes.length ≠ 64 → classify flips = .uncorrectable → ∀ c, s.pageOwner (e.block * 64) = some c →
        (t.call c).ended = true ∨ (t.call c).state = .free)) ∧
  (∀ (stack occ ch : Nat) (s : State), s.memUp = true → stack < 8 → ch < 32 → occ ≤ 100 →
    (s.regs.hotThresh ≠ 0 ∨ (s.hot stack).window.2 ≠ 0) → (s.hot stack).sampledAt + 2 ^ 16 ≤ s.now →
    ∃ t, exec (.hotSample stack occ ch) s = .next t ∧ (t.hot stack).sampledAt = s.now ∧
      (s.windowOver (s.hot stack) = false → SameBut [.mem] s t ∧ (t.hot stack).samples = (s.hot stack).samples + 1 ∧
        (t.hot stack).total = (s.hot stack).total + occ ∧
        (t.hot stack).hits = (s.hot stack).hits + if (s.hot stack).window.2 < occ then 1 else 0) ∧
      (s.windowOver (s.hot stack) = true → (t.hot stack).samples = 1 ∧ (t.hot stack).total = occ ∧
        (t.hot stack).window = (s.regs.hotWindow.toNat, s.regs.hotThresh.toNat))) ∧
  (∀ (stack : Nat) (s : State), Tbl.wf {} s.mem.hot = true → s.memUp = true → stack < 8 → s.windowOver (s.hot stack) = true →
    ∃ t, exec (.hotspot stack) s = .next t ∧ (t.hot stack).samples = 0 ∧ (t.hot stack).hits = 0 ∧
      (t.hot stack).window = (s.regs.hotWindow.toNat, s.regs.hotThresh.toNat)) ∧
  (∀ (j : MemJob) (rest : List MemJob) (s : State), s.Canonical → s.memUp = true → s.mem.retireJobs = j :: rest →
    ∃ t, exec .hbmRetired s = .next t ∧ t.mem = { s.mem with
        retireJobs := rest, retired := s.mem.retired ++ [(j.a, s.retireUnit j.a j.b)] } ∧
      Delivered s t (answerRing j.job.ring) (s.answerOf j.job .ok 0 0)) ∧
  (∀ (j : MemJob) (rest : List MemJob) (s : State), s.Canonical → Tbl.wf [] s.mem.merge = true → s.memUp = true →
    s.mem.fillJobs = j :: rest → j.a % 64 = 0 → j.b % 64 = 0 →
    ∃ t, exec .fillDone s = .next t ∧ t.mem.fillJobs = rest ∧ Delivered s t (answerRing j.job.ring) (s.answerOf j.job .ok 0 0) ∧
      (∀ a, j.a ≤ a → a < j.a + j.b → t.readByte a = 0) ∧ ∀ a, a < j.a ∨ j.a + j.b ≤ a → t.mem.byte a = s.mem.byte a) ∧
  (∀ (units : Nat) (j : MemJob) (rest : List MemJob) (s : State), s.Canonical → s.memUp = true → s.mem.rehash = j :: rest →
    ((s.migrate j).migrated j = true → s.batch = none ∨ State.respreads j 2 = false →
      ∃ t, exec (.rehashDone units) s = .next t ∧ t.mem.rehash = rest ∧
        Delivered s t (answerRing j.job.ring) (s.answerOf j.job .ok 0 0)) ∧
    ((s.migrate j).migrated j = false ∨ s.batch.isSome = true ∧ State.respreads j 2 = true →
      exec (.rehashDone units) s = .fault (.outOfPlace "REHASH_DONE")))

/-- A repeat of a clapper phase that fails again counts a permanent fault in the daily account and one that does not a
transient one, and with nothing folded the tile has no repeat left. A slate whose digest is the image's answer goes on to the
next number with its tick; the first failure is run again at once; the second in a row withdraws a bough or a part that is not
the last of its kind. A slate that is late is noted, and its count of withheld grants starts again. A DAILY starts a new daily account. -/
def Obligations.FaultsAreClassified : Prop :=
  (∀ (k : Nat) (r : Repeat) (phases : List (List Int)) (s : State), s.Canonical → (s.tile k).repeat_ = some r →
    s.repeatDue k r = true → s.repeatShape r phases = true → r.prod = none →
    ∃ t, exec (.repeat_ k phases) s = .next t ∧
      (s.clapperFails k r.deck r.half (phases.headD []) = [] → t.faults.daily.transient = s.faults.daily.transient + 1 ∧
        t.faults.daily.permanent = s.faults.daily.permanent) ∧
      (s.clapperFails k r.deck r.half (phases.headD []) ≠ [] → t.faults.daily.permanent = s.faults.daily.permanent + 1 ∧
        t.faults.daily.transient = s.faults.daily.transient) ∧
      ((s.tile k).folded = [] → (t.tile k).repeat_ = none)) ∧
  (∀ (u : SlateUnit) (digest : BitVec 64) (s : State), s.Canonical → s.slateDue u = true → s.boughTested u = false →
    ∃ t, exec (.slate u digest) s = .next t ∧
      (digest = s.slateAnswer u → t.slate u = { s.slate u with
        number := ((s.slate u).number + 1) % 64, startedAt := s.now, failedOnce := false, passedAt := s.now, overdue := false,
        doneThisStart := true }) ∧
      (digest ≠ s.slateAnswer u → (s.slate u).failedOnce = false → t.slate u = { s.slate u with
        startedAt := s.now, failedOnce := true, overdue := false }) ∧
      (digest ≠ s.slateAnswer u → (s.slate u).failedOnce = true → s.lastUnit u = false →
        (∀ b, u = .bough b → (t.bough b).withdrawn = true) ∧
        (∀ e p, u = .pipe e p → (e + 1, p) ∈ t.faults.withdrawnParts) ∧ ∀ l, u = .lane l → (0, l) ∈ t.faults.withdrawnParts)) ∧
  (∀ (u : SlateUnit) (s : State), s.slateDue u = true → (s.slate u).overdue = false → (s.slate u).startedAt + 2 ^ 31 ≤ s.now →
    ∃ t, exec (.slateOverdue u) s = .next t ∧ SameBut [.faults] s t ∧ t.slate u = { s.slate u with overdue := true, withheld := 0 }) ∧
  (∀ s : State, s.ticking = true → s.awake = true → s.faults.daily.written < s.now / 2 ^ 32 →
    ∃ t, exec .daily s = .next t ∧ t.faults = { s.faults with daily := { written := s.now / 2 ^ 32 } })
end

