-- ==== Sys2Proof/Laws/Tables.lean ====
section
/-! SUPPORT. Reading and writing sparse tables: a read after a write, and the canonical form that every update keeps. -/

set_option Elab.async false

namespace Sys2Proof.Tbl

variable {α : Type}

/-- Keys rise strictly. -/
abbrev Rising (t : Tbl α) : Prop := t.Pairwise fun p q => p.1 < q.1

theorem wf_iff [DecidableEq α] {d : α} {t : Tbl α} : Tbl.wf d t = true ↔ Rising t ∧ ∀ p ∈ t, p.2 ≠ d := by
  simp [Tbl.wf, List.all_eq_true]

@[simp] theorem wf_nil [DecidableEq α] {d : α} : Tbl.wf d ([] : Tbl α) = true := by simp [Tbl.wf]

theorem mem_erase {k : Nat} {p : Nat × α} : ∀ {t : Tbl α}, p ∈ Tbl.erase k t → p ∈ t
  | [], h => by simp [Tbl.erase] at h
  | (j, v) :: t, h => by
    unfold Tbl.erase at h
    split at h
    · exact List.mem_cons_of_mem _ h
    · split at h
      · exact h
      · rcases List.mem_cons.1 h with h | h
        · exact h ▸ List.mem_cons_self
        · exact List.mem_cons_of_mem _ (mem_erase h)

theorem mem_insert {k : Nat} {v : α} {p : Nat × α} : ∀ {t : Tbl α}, p ∈ Tbl.insert k v t → p = (k, v) ∨ p ∈ t
  | [], h => by simp [Tbl.insert] at h; exact .inl h
  | (j, w) :: t, h => by
    unfold Tbl.insert at h
    split at h
    · rcases List.mem_cons.1 h with h | h
      · exact .inl h
      · exact .inr (List.mem_cons_of_mem _ h)
    · split at h
      · rcases List.mem_cons.1 h with h | h
        · exact .inl h
        · exact .inr h
      · rcases List.mem_cons.1 h with h | h
        · exact .inr (h ▸ List.mem_cons_self)
        · rcases mem_insert h with h | h
          · exact .inl h
          · exact .inr (List.mem_cons_of_mem _ h)

theorem rising_erase {k : Nat} : ∀ {t : Tbl α}, Rising t → Rising (Tbl.erase k t)
  | [], h => h
  | (j, v) :: t, h => by
    obtain ⟨h1, h2⟩ := List.pairwise_cons.1 h
    unfold Tbl.erase
    split
    · exact h2
    · split
      · exact h
      · exact List.pairwise_cons.2 ⟨fun p hp => h1 p (mem_erase hp), rising_erase h2⟩

theorem rising_insert {k : Nat} {v : α} : ∀ {t : Tbl α}, Rising t → Rising (Tbl.insert k v t)
  | [], _ => by simp [Tbl.insert]
  | (j, w) :: t, h => by
    obtain ⟨h1, h2⟩ := List.pairwise_cons.1 h
    unfold Tbl.insert
    split
    · rename_i e
      exact List.pairwise_cons.2 ⟨fun p hp => by have := h1 p hp; simp_all, h2⟩
    · split
      · rename_i e
        refine List.pairwise_cons.2 ⟨fun p hp => ?_, h⟩
        rcases List.mem_cons.1 hp with hp | hp
        · simp [hp, e]
        · exact Nat.lt_trans e (h1 p hp)
      · refine List.pairwise_cons.2 ⟨fun p hp => ?_, rising_insert h2⟩
        rcases mem_insert hp with hp | hp
        · simp only [hp]; omega
        · exact h1 p hp

theorem wf_erase [DecidableEq α] {d : α} {k : Nat} {t : Tbl α} (h : Tbl.wf d t = true) : Tbl.wf d (Tbl.erase k t) = true := by
  rw [wf_iff] at *
  exact ⟨rising_erase h.1, fun p hp => h.2 p (mem_erase hp)⟩

theorem wf_insert [DecidableEq α] {d : α} {k : Nat} {v : α} {t : Tbl α} (h : Tbl.wf d t = true) (hv : v ≠ d) :
    Tbl.wf d (Tbl.insert k v t) = true := by
  rw [wf_iff] at *
  refine ⟨rising_insert h.1, fun p hp => ?_⟩
  rcases mem_insert hp with rfl | hp
  · exact hv
  · exact h.2 p hp

theorem wf_set [DecidableEq α] {d : α} {k : Nat} {v : α} {t : Tbl α} (h : Tbl.wf d t = true) : Tbl.wf d (Tbl.set d k v t) = true := by
  unfold Tbl.set
  split
  · exact wf_erase h
  · exact wf_insert h ‹_›

theorem wf_update [DecidableEq α] {d : α} {k : Nat} {f : α → α} {t : Tbl α} (h : Tbl.wf d t = true) :
    Tbl.wf d (Tbl.update d k f t) = true := wf_set h

theorem wf_filter [DecidableEq α] {d : α} {p : Nat × α → Bool} {t : Tbl α} (h : Tbl.wf d t = true) :
    Tbl.wf d (List.filter p t) = true := by
  rw [wf_iff] at *
  exact ⟨h.1.filter p, fun x hx => h.2 x (List.mem_filter.1 hx).1⟩

/-- Changing the listed values, keys kept, and dropping defaults. -/
theorem wf_mapVals [DecidableEq α] {d : α} {f : α → α} {t : Tbl α} (h : Rising t) : Tbl.wf d (Tbl.mapVals d f t) = true := by
  rw [wf_iff]
  constructor
  · refine List.Pairwise.filterMap _ (fun p q hpq p' hp q' hq => ?_) h
    simp only [Option.ite_none_left_eq_some, Option.some.injEq] at hp hq
    rw [← hp.2, ← hq.2]
    exact hpq
  · intro p hp
    obtain ⟨q, _, hq⟩ := List.mem_filterMap.1 hp
    simp only [Option.ite_none_left_eq_some, Option.some.injEq] at hq
    rw [← hq.2]
    exact hq.1

theorem rising_of_wf [DecidableEq α] {d : α} {t : Tbl α} (h : Tbl.wf d t = true) : Rising t := (wf_iff.1 h).1

/-- A map that keeps every key keeps the keys rising. -/
theorem rising_map {β : Type} {g : Nat × α → Nat × β} {t : Tbl α} (hg : ∀ p, (g p).1 = p.1) (h : Rising t) :
    Rising (t.map g : Tbl β) := by
  refine List.pairwise_map.2 (h.imp fun {p q} hpq => ?_)
  simpa [hg] using hpq

theorem wf_foldl_set {β : Type} [DecidableEq α] {d : α} (key : β → Nat) (val : β → α) :
    ∀ (xs : List β) {t : Tbl α}, Tbl.wf d t = true → Tbl.wf d (xs.foldl (fun t x => Tbl.set d (key x) (val x) t) t) = true
  | [], _, h => h
  | _ :: xs, _, h => wf_foldl_set key val xs (wf_set h)

theorem wf_map_range [DecidableEq α] {d : α} {n : Nat} {g : Nat → α} (hg : ∀ k, g k ≠ d) :
    Tbl.wf d ((List.range n).map fun k => (k, g k)) = true := by
  rw [wf_iff]
  refine ⟨List.pairwise_map.2 List.pairwise_lt_range, fun p hp => ?_⟩
  obtain ⟨k, _, rfl⟩ := List.mem_map.1 hp
  exact hg k

/-- Below every listed key, a table reads its default. -/
theorem get_below {d : α} {k : Nat} : ∀ {t : Tbl α}, (∀ p ∈ t, k < p.1) → Tbl.get d k t = d
  | [], _ => rfl
  | (j, v) :: t, h => by
    have hj : k < j := h (j, v) List.mem_cons_self
    simp [Tbl.get, hj, Nat.ne_of_gt hj]

theorem get_insert_self {d : α} {k : Nat} {v : α} : ∀ {t : Tbl α}, Tbl.get d k (Tbl.insert k v t) = v
  | [] => by simp [Tbl.insert, Tbl.get]
  | (j, w) :: t => by
    unfold Tbl.insert
    split
    · simp [Tbl.get]
    · split
      · simp [Tbl.get]
      · simp only [Tbl.get]
        rw [if_neg ‹_›, if_neg ‹_›]
        exact get_insert_self

theorem get_insert_ne {d : α} {k m : Nat} {v : α} (hm : m ≠ k) : ∀ {t : Tbl α}, Rising t → Tbl.get d m (Tbl.insert k v t) = Tbl.get d m t
  | [], _ => by
    simp only [Tbl.insert, Tbl.get]
    rw [if_neg (Ne.symm hm)]
    split <;> rfl
  | (j, w) :: t, h => by
    obtain ⟨h1, h2⟩ := List.pairwise_cons.1 h
    unfold Tbl.insert
    split
    · subst ‹j = k›
      simp only [Tbl.get]
      rw [if_neg (Ne.symm hm), if_neg (Ne.symm hm)]
    · split
      · rename_i hk
        conv_lhs => unfold Tbl.get
        rw [if_neg (Ne.symm hm)]
        split
        · rename_i hmk
          simp only [Tbl.get]
          rw [if_neg (by omega), if_pos (by omega)]
        · rfl
      · simp only [Tbl.get]
        rw [get_insert_ne hm h2]

theorem get_erase_self {d : α} {k : Nat} : ∀ {t : Tbl α}, Rising t → Tbl.get d k (Tbl.erase k t) = d
  | [], _ => rfl
  | (j, w) :: t, h => by
    obtain ⟨h1, h2⟩ := List.pairwise_cons.1 h
    unfold Tbl.erase
    split
    · subst ‹j = k›
      exact get_below h1
    · split
      · simp only [Tbl.get]
        rw [if_neg ‹_›, if_pos ‹_›]
      · simp only [Tbl.get]
        rw [if_neg ‹_›, if_neg ‹_›]
        exact get_erase_self h2

theorem get_erase_ne {d : α} {k m : Nat} (hm : m ≠ k) : ∀ {t : Tbl α}, Rising t → Tbl.get d m (Tbl.erase k t) = Tbl.get d m t
  | [], _ => rfl
  | (j, w) :: t, h => by
    obtain ⟨h1, h2⟩ := List.pairwise_cons.1 h
    unfold Tbl.erase
    split
    · subst ‹j = k›
      simp only [Tbl.get]
      rw [if_neg (Ne.symm hm)]
      split
      · rename_i hmj
        exact get_below fun p hp => Nat.lt_trans hmj (h1 p hp)
      · rfl
    · split
      · rfl
      · simp only [Tbl.get]
        rw [get_erase_ne hm h2]

/-- A read of the key written gives the value written. -/
theorem get_set_self [DecidableEq α] {d : α} {k : Nat} {v : α} {t : Tbl α} (h : Rising t) : Tbl.get d k (Tbl.set d k v t) = v := by
  unfold Tbl.set
  split
  · subst ‹v = d›
    exact get_erase_self h
  · exact get_insert_self

/-- A write leaves every other key as it was. -/
theorem get_set_ne [DecidableEq α] {d : α} {k m : Nat} {v : α} {t : Tbl α} (hm : m ≠ k) (h : Rising t) :
    Tbl.get d m (Tbl.set d k v t) = Tbl.get d m t := by
  unfold Tbl.set
  split
  · exact get_erase_ne hm h
  · exact get_insert_ne hm h

theorem get_update_self [DecidableEq α] {d : α} {k : Nat} {f : α → α} {t : Tbl α} (h : Rising t) :
    Tbl.get d k (Tbl.update d k f t) = f (Tbl.get d k t) := get_set_self h

theorem get_update_ne [DecidableEq α] {d : α} {k m : Nat} {f : α → α} {t : Tbl α} (hm : m ≠ k) (h : Rising t) :
    Tbl.get d m (Tbl.update d k f t) = Tbl.get d m t := get_set_ne hm h

/-- A value other than the default is read back without any condition on the table. -/
theorem get_set_of_ne [DecidableEq α] {d : α} {k : Nat} {v : α} {t : Tbl α} (hv : v ≠ d) : Tbl.get d k (Tbl.set d k v t) = v := by
  rw [Tbl.set, if_neg hv]
  exact get_insert_self

theorem get_filter [DecidableEq α] {d : α} {k : Nat} {p : Nat × α → Bool} (hp : ∀ v, p (k, v) = true) :
    ∀ {t : Tbl α}, Rising t → Tbl.get d k (List.filter p t) = Tbl.get d k t
  | [], _ => rfl
  | (j, w) :: t, h => by
    obtain ⟨h1, h2⟩ := List.pairwise_cons.1 h
    by_cases hk : p (j, w) = true
    · rw [List.filter_cons_of_pos hk]
      simp only [Tbl.get]
      rw [get_filter hp h2]
    · rw [List.filter_cons_of_neg hk]
      have hj : j ≠ k := fun e => hk (e ▸ hp w)
      rw [get_filter hp h2]
      simp only [Tbl.get]
      rw [if_neg hj]
      split
      · rename_i hkj
        exact get_below fun q hq => Nat.lt_trans hkj (h1 q hq)
      · rfl

theorem get_filter_out [DecidableEq α] {d : α} {k : Nat} {p : Nat × α → Bool} (hp : ∀ v, p (k, v) = false) :
    ∀ {t : Tbl α}, Rising t → Tbl.get d k (List.filter p t) = d
  | [], _ => rfl
  | (j, w) :: t, h => by
    obtain ⟨h1, h2⟩ := List.pairwise_cons.1 h
    by_cases hk : p (j, w) = true
    · rw [List.filter_cons_of_pos hk]
      have hj : j ≠ k := fun e => by rw [e, hp w] at hk; cases hk
      simp only [Tbl.get]
      rw [if_neg hj, get_filter_out hp h2]
      split <;> rfl
    · rw [List.filter_cons_of_neg hk]
      exact get_filter_out hp h2

end Sys2Proof.Tbl
end

