-- ==== Sys2Proof/Laws/Moves.lean ====
section
/-! SUPPORT. The one relation behind every frame and invariant: which pieces an operation may change, that it keeps the
canonical form and the counters' width, and that output only grows. -/

set_option Elab.async false

namespace Sys2Proof.Machine

/-- The first list is within the second. -/
def Field.within (a b : List Field) : Bool := a.all fun f => b.contains f

theorem Field.within_mem {a b : List Field} (h : Field.within a b = true) {f : Field} (hf : f ∈ a) : f ∈ b := by
  simp only [Field.within, List.all_eq_true] at h
  simpa using h f hf

theorem Field.same_refl (s : State) (f : Field) : Field.same s s f := by cases f <;> rfl

theorem Field.same_trans {s t u : State} {f : Field} (h : Field.same s t f) (k : Field.same t u f) : Field.same s u f := by
  cases f <;> exact Eq.trans k h

theorem State.satAdd_fits (v n : Nat) : satAdd 48 v n < 2 ^ 48 := by unfold satAdd; omega

theorem State.min_fits (w v : Nat) : min (2 ^ 48 - 1) (max w v) < 2 ^ 48 := by omega

theorem State.fit_nil : ∀ c ∈ ([] : Tbl Nat), c.2 < 2 ^ 48 := fun _ h => absurd h (List.not_mem_nil)

theorem State.fit_update {k : Nat} {f : Nat → Nat} (hf : ∀ v, f v < 2 ^ 48) {t : Tbl Nat} (h : ∀ c ∈ t, c.2 < 2 ^ 48) :
    ∀ c ∈ Tbl.update 0 k f t, c.2 < 2 ^ 48 := by
  intro c hc
  unfold Tbl.update Tbl.set at hc
  split at hc
  · exact h c (Tbl.mem_erase hc)
  · rcases Tbl.mem_insert hc with rfl | hc
    · exact hf _
    · exact h c hc

/-- From `s` to `t` only the listed pieces change, the canonical form is kept, counters still fit, and output is only added. -/
structure Moves (l : List Field) (s t : State) : Prop where
  frame : SameBut l s t
  canon : s.Canonical → t.Canonical
  fit : s.CountersFit → t.CountersFit
  grows : s.out <+: t.out

theorem Moves.refl (l : List Field) (s : State) : Moves l s s := ⟨fun f _ => Field.same_refl s f, id, id, List.prefix_rfl⟩

theorem Moves.trans {l : List Field} {s t u : State} (h : Moves l s t) (k : Moves l t u) : Moves l s u :=
  ⟨fun f hf => Field.same_trans (h.frame f hf) (k.frame f hf), fun c => k.canon (h.canon c),
    fun c => k.fit (h.fit c), h.grows.trans k.grows⟩

theorem Moves.mono {a b : List Field} {s t : State} (h : Moves a s t) (hab : Field.within a b = true) : Moves b s t :=
  ⟨fun f hf => h.frame f fun ha => hf (Field.within_mem hab ha), h.canon, h.fit, h.grows⟩

/-- An operation after others. -/
theorem Moves.then {a l : List Field} {r s t : State} (k : Moves a s t) (h : Moves l r s) (hal : Field.within a l = true) : Moves l r t :=
  h.trans (k.mono hal)

theorem Moves.cut {l : List Field} {r s t : State} (h : Moves l r s) (k : Moves l r s → Moves l r t) : Moves l r t := k h

theorem Moves.ite {l : List Field} {r s t : State} {c : Prop} [Decidable c] (h : Moves l r s) (k : Moves l r t) :
    Moves l r (if c then s else t) := by
  split <;> assumption

theorem Moves.foldl {α : Type} {l : List Field} {r : State} {f : State → α → State}
    (hf : ∀ s x, Moves l r s → Moves l r (f s x)) : ∀ (xs : List α) {s : State}, Moves l r s → Moves l r (xs.foldl f s)
  | [], _, h => h
  | x :: xs, _, h => Moves.foldl hf xs (hf _ x h)

theorem Moves.foldl_fst {α β : Type} {l : List Field} {r : State} {f : State × β → α → State × β}
    (hf : ∀ x a, Moves l r x.1 → Moves l r (f x a).1) : ∀ (xs : List α) {x : State × β}, Moves l r x.1 → Moves l r (xs.foldl f x).1
  | [], _, h => h
  | a :: xs, _, h => Moves.foldl_fst hf xs (hf _ a h)

theorem Moves.each {α : Type} {l : List Field} {r s : State} {xs : List α} {f : State → α → State} (h : Moves l r s)
    (hf : ∀ s x, Moves l r s → Moves l r (f s x)) : Moves l r (s.each xs f) := Moves.foldl hf xs h

theorem Moves.pins_ {l : List Field} {s t : State} (h : Moves l s t) : Field.pins ∈ l ∨ t.pins = s.pins :=
  (Classical.em (Field.pins ∈ l)).imp_right (h.frame .pins)

theorem Moves.boot_ {l : List Field} {s t : State} (h : Moves l s t) : Field.boot ∈ l ∨ t.boot = s.boot :=
  (Classical.em (Field.boot ∈ l)).imp_right (h.frame .boot)

theorem Moves.regs_ {l : List Field} {s t : State} (h : Moves l s t) : Field.regs ∈ l ∨ t.regs = s.regs :=
  (Classical.em (Field.regs ∈ l)).imp_right (h.frame .regs)

theorem Moves.parts_ {l : List Field} {s t : State} (h : Moves l s t) : Field.parts ∈ l ∨ t.parts = s.parts :=
  (Classical.em (Field.parts ∈ l)).imp_right (h.frame .parts)

theorem Moves.rings_ {l : List Field} {s t : State} (h : Moves l s t) : Field.rings ∈ l ∨ t.rings = s.rings :=
  (Classical.em (Field.rings ∈ l)).imp_right (h.frame .rings)

theorem Moves.tick_ {l : List Field} {s t : State} (h : Moves l s t) : Field.tick ∈ l ∨ t.tick = s.tick :=
  (Classical.em (Field.tick ∈ l)).imp_right (h.frame .tick)

theorem Moves.ticking_ {l : List Field} {s t : State} (h : Moves l s t) : Field.ticking ∈ l ∨ t.ticking = s.ticking :=
  (Classical.em (Field.ticking ∈ l)).imp_right (h.frame .ticking)

theorem Moves.trims_ {l : List Field} {s t : State} (h : Moves l s t) : Field.trims ∈ l ∨ t.trims = s.trims :=
  (Classical.em (Field.trims ∈ l)).imp_right (h.frame .trims)

theorem Moves.counters_ {l : List Field} {s t : State} (h : Moves l s t) : Field.counters ∈ l ∨ t.counters = s.counters :=
  (Classical.em (Field.counters ∈ l)).imp_right (h.frame .counters)

theorem Moves.jobs_ {l : List Field} {s t : State} (h : Moves l s t) : Field.jobs ∈ l ∨ t.jobs = s.jobs :=
  (Classical.em (Field.jobs ∈ l)).imp_right (h.frame .jobs)

theorem Moves.calls_ {l : List Field} {s t : State} (h : Moves l s t) : Field.calls ∈ l ∨ t.calls = s.calls :=
  (Classical.em (Field.calls ∈ l)).imp_right (h.frame .calls)

theorem Moves.steps_ {l : List Field} {s t : State} (h : Moves l s t) : Field.steps ∈ l ∨ t.steps = s.steps :=
  (Classical.em (Field.steps ∈ l)).imp_right (h.frame .steps)

theorem Moves.batch_ {l : List Field} {s t : State} (h : Moves l s t) : Field.batch ∈ l ∨ t.batch = s.batch :=
  (Classical.em (Field.batch ∈ l)).imp_right (h.frame .batch)

theorem Moves.sched_ {l : List Field} {s t : State} (h : Moves l s t) : Field.sched ∈ l ∨ t.sched = s.sched :=
  (Classical.em (Field.sched ∈ l)).imp_right (h.frame .sched)

theorem Moves.splitHead_ {l : List Field} {s t : State} (h : Moves l s t) : Field.splitHead ∈ l ∨ t.splitHead = s.splitHead :=
  (Classical.em (Field.splitHead ∈ l)).imp_right (h.frame .splitHead)

theorem Moves.stage_ {l : List Field} {s t : State} (h : Moves l s t) : Field.stage ∈ l ∨ t.stage = s.stage :=
  (Classical.em (Field.stage ∈ l)).imp_right (h.frame .stage)

theorem Moves.batchNo_ {l : List Field} {s t : State} (h : Moves l s t) : Field.batchNo ∈ l ∨ t.batchNo = s.batchNo :=
  (Classical.em (Field.batchNo ∈ l)).imp_right (h.frame .batchNo)

theorem Moves.customers_ {l : List Field} {s t : State} (h : Moves l s t) : Field.customers ∈ l ∨ t.customers = s.customers :=
  (Classical.em (Field.customers ∈ l)).imp_right (h.frame .customers)

theorem Moves.grafts_ {l : List Field} {s t : State} (h : Moves l s t) : Field.grafts ∈ l ∨ t.grafts = s.grafts :=
  (Classical.em (Field.grafts ∈ l)).imp_right (h.frame .grafts)

theorem Moves.mattes_ {l : List Field} {s t : State} (h : Moves l s t) : Field.mattes ∈ l ∨ t.mattes = s.mattes :=
  (Classical.em (Field.mattes ∈ l)).imp_right (h.frame .mattes)

theorem Moves.tiles_ {l : List Field} {s t : State} (h : Moves l s t) : Field.tiles ∈ l ∨ t.tiles = s.tiles :=
  (Classical.em (Field.tiles ∈ l)).imp_right (h.frame .tiles)

theorem Moves.boughs_ {l : List Field} {s t : State} (h : Moves l s t) : Field.boughs ∈ l ∨ t.boughs = s.boughs :=
  (Classical.em (Field.boughs ∈ l)).imp_right (h.frame .boughs)

theorem Moves.calSave_ {l : List Field} {s t : State} (h : Moves l s t) : Field.calSave ∈ l ∨ t.calSave = s.calSave :=
  (Classical.em (Field.calSave ∈ l)).imp_right (h.frame .calSave)

theorem Moves.prods_ {l : List Field} {s t : State} (h : Moves l s t) : Field.prods ∈ l ∨ t.prods = s.prods :=
  (Classical.em (Field.prods ∈ l)).imp_right (h.frame .prods)

theorem Moves.nextProd_ {l : List Field} {s t : State} (h : Moves l s t) : Field.nextProd ∈ l ∨ t.nextProd = s.nextProd :=
  (Classical.em (Field.nextProd ∈ l)).imp_right (h.frame .nextProd)

theorem Moves.nextOrder_ {l : List Field} {s t : State} (h : Moves l s t) : Field.nextOrder ∈ l ∨ t.nextOrder = s.nextOrder :=
  (Classical.em (Field.nextOrder ∈ l)).imp_right (h.frame .nextOrder)

theorem Moves.sums_ {l : List Field} {s t : State} (h : Moves l s t) : Field.sums ∈ l ∨ t.sums = s.sums :=
  (Classical.em (Field.sums ∈ l)).imp_right (h.frame .sums)

theorem Moves.handoffs_ {l : List Field} {s t : State} (h : Moves l s t) : Field.handoffs ∈ l ∨ t.handoffs = s.handoffs :=
  (Classical.em (Field.handoffs ∈ l)).imp_right (h.frame .handoffs)

theorem Moves.acts_ {l : List Field} {s t : State} (h : Moves l s t) : Field.acts ∈ l ∨ t.acts = s.acts :=
  (Classical.em (Field.acts ∈ l)).imp_right (h.frame .acts)

theorem Moves.xferWaits_ {l : List Field} {s t : State} (h : Moves l s t) : Field.xferWaits ∈ l ∨ t.xferWaits = s.xferWaits :=
  (Classical.em (Field.xferWaits ∈ l)).imp_right (h.frame .xferWaits)

theorem Moves.histos_ {l : List Field} {s t : State} (h : Moves l s t) : Field.histos ∈ l ∨ t.histos = s.histos :=
  (Classical.em (Field.histos ∈ l)).imp_right (h.frame .histos)

theorem Moves.canopy_ {l : List Field} {s t : State} (h : Moves l s t) : Field.canopy ∈ l ∨ t.canopy = s.canopy :=
  (Classical.em (Field.canopy ∈ l)).imp_right (h.frame .canopy)

theorem Moves.backs_ {l : List Field} {s t : State} (h : Moves l s t) : Field.backs ∈ l ∨ t.backs = s.backs :=
  (Classical.em (Field.backs ∈ l)).imp_right (h.frame .backs)

theorem Moves.latches_ {l : List Field} {s t : State} (h : Moves l s t) : Field.latches ∈ l ∨ t.latches = s.latches :=
  (Classical.em (Field.latches ∈ l)).imp_right (h.frame .latches)

theorem Moves.attnWaits_ {l : List Field} {s t : State} (h : Moves l s t) : Field.attnWaits ∈ l ∨ t.attnWaits = s.attnWaits :=
  (Classical.em (Field.attnWaits ∈ l)).imp_right (h.frame .attnWaits)

theorem Moves.servedKv_ {l : List Field} {s t : State} (h : Moves l s t) : Field.servedKv ∈ l ∨ t.servedKv = s.servedKv :=
  (Classical.em (Field.servedKv ∈ l)).imp_right (h.frame .servedKv)

theorem Moves.servedAttn_ {l : List Field} {s t : State} (h : Moves l s t) : Field.servedAttn ∈ l ∨ t.servedAttn = s.servedAttn :=
  (Classical.em (Field.servedAttn ∈ l)).imp_right (h.frame .servedAttn)

theorem Moves.weights_ {l : List Field} {s t : State} (h : Moves l s t) : Field.weights ∈ l ∨ t.weights = s.weights :=
  (Classical.em (Field.weights ∈ l)).imp_right (h.frame .weights)

theorem Moves.mem_ {l : List Field} {s t : State} (h : Moves l s t) : Field.mem ∈ l ∨ t.mem = s.mem :=
  (Classical.em (Field.mem ∈ l)).imp_right (h.frame .mem)

theorem Moves.links_ {l : List Field} {s t : State} (h : Moves l s t) : Field.links ∈ l ∨ t.links = s.links :=
  (Classical.em (Field.links ∈ l)).imp_right (h.frame .links)

theorem Moves.partner_ {l : List Field} {s t : State} (h : Moves l s t) : Field.partner ∈ l ∨ t.partner = s.partner :=
  (Classical.em (Field.partner ∈ l)).imp_right (h.frame .partner)

theorem Moves.faults_ {l : List Field} {s t : State} (h : Moves l s t) : Field.faults ∈ l ∨ t.faults = s.faults :=
  (Classical.em (Field.faults ∈ l)).imp_right (h.frame .faults)

theorem Moves.hk_ {l : List Field} {s t : State} (h : Moves l s t) : Field.hk ∈ l ∨ t.hk = s.hk :=
  (Classical.em (Field.hk ∈ l)).imp_right (h.frame .hk)

theorem Moves.power_ {l : List Field} {s t : State} (h : Moves l s t) : Field.power ∈ l ∨ t.power = s.power :=
  (Classical.em (Field.power ∈ l)).imp_right (h.frame .power)

theorem Moves.sec_ {l : List Field} {s t : State} (h : Moves l s t) : Field.sec ∈ l ∨ t.sec = s.sec :=
  (Classical.em (Field.sec ∈ l)).imp_right (h.frame .sec)

theorem Moves.drains_ {l : List Field} {s t : State} (h : Moves l s t) : Field.drains ∈ l ∨ t.drains = s.drains :=
  (Classical.em (Field.drains ∈ l)).imp_right (h.frame .drains)

theorem Moves.free_ {l : List Field} {s t : State} (h : Moves l s t) : Field.free ∈ l ∨ t.free = s.free :=
  (Classical.em (Field.free ∈ l)).imp_right (h.frame .free)

theorem Moves.out_ {l : List Field} {s t : State} (h : Moves l s t) : Field.out ∈ l ∨ t.out = s.out :=
  (Classical.em (Field.out ∈ l)).imp_right (h.frame .out)

theorem Moves.pending_ {l : List Field} {s t : State} (h : Moves l s t) : Field.pending ∈ l ∨ t.pending = s.pending :=
  (Classical.em (Field.pending ∈ l)).imp_right (h.frame .pending)

/-- A state that is another one but for some pieces. -/
theorem Moves.of_lit {l : List Field} {r s : State} {a_pins a_boot a_regs a_parts a_rings a_tick a_ticking a_trims a_counters a_jobs a_calls a_steps a_batch a_sched a_splitHead a_stage a_batchNo a_customers a_grafts a_mattes a_tiles a_boughs a_calSave a_prods a_nextProd a_nextOrder a_sums a_handoffs a_acts a_xferWaits a_histos a_canopy a_backs a_latches a_attnWaits a_servedKv a_servedAttn a_weights a_mem a_links a_partner a_faults a_hk a_power a_sec a_drains a_free a_out}
    (h : Moves l r s) (hf : ∀ f : Field, f ∉ l → Field.same s (State.mk a_pins a_boot a_regs a_parts a_rings a_tick a_ticking a_trims a_counters a_jobs a_calls a_steps a_batch a_sched a_splitHead a_stage a_batchNo a_customers a_grafts a_mattes a_tiles a_boughs a_calSave a_prods a_nextProd a_nextOrder a_sums a_handoffs a_acts a_xferWaits a_histos a_canopy a_backs a_latches a_attnWaits a_servedKv a_servedAttn a_weights a_mem a_links a_partner a_faults a_hk a_power a_sec a_drains a_free a_out s.pending) f)
    (hc : s.Canonical → (State.mk a_pins a_boot a_regs a_parts a_rings a_tick a_ticking a_trims a_counters a_jobs a_calls a_steps a_batch a_sched a_splitHead a_stage a_batchNo a_customers a_grafts a_mattes a_tiles a_boughs a_calSave a_prods a_nextProd a_nextOrder a_sums a_handoffs a_acts a_xferWaits a_histos a_canopy a_backs a_latches a_attnWaits a_servedKv a_servedAttn a_weights a_mem a_links a_partner a_faults a_hk a_power a_sec a_drains a_free a_out s.pending).Canonical)
    (hk : s.CountersFit → (State.mk a_pins a_boot a_regs a_parts a_rings a_tick a_ticking a_trims a_counters a_jobs a_calls a_steps a_batch a_sched a_splitHead a_stage a_batchNo a_customers a_grafts a_mattes a_tiles a_boughs a_calSave a_prods a_nextProd a_nextOrder a_sums a_handoffs a_acts a_xferWaits a_histos a_canopy a_backs a_latches a_attnWaits a_servedKv a_servedAttn a_weights a_mem a_links a_partner a_faults a_hk a_power a_sec a_drains a_free a_out s.pending).CountersFit := by
      first | exact fun c => c | exact State.fit_update (fun v => State.satAdd_fits v _) | exact State.fit_update (fun v => State.min_fits v _)
            | exact fun _ => State.fit_nil)
    (ho : s.out <+: a_out := by first | exact List.prefix_rfl | exact List.prefix_append _ _) :
    Moves l r (State.mk a_pins a_boot a_regs a_parts a_rings a_tick a_ticking a_trims a_counters a_jobs a_calls a_steps a_batch a_sched a_splitHead a_stage a_batchNo a_customers a_grafts a_mattes a_tiles a_boughs a_calSave a_prods a_nextProd a_nextOrder a_sums a_handoffs a_acts a_xferWaits a_histos a_canopy a_backs a_latches a_attnWaits a_servedKv a_servedAttn a_weights a_mem a_links a_partner a_faults a_hk a_power a_sec a_drains a_free a_out s.pending) :=
  h.trans ⟨hf, hc, hk, ho⟩

/-- A change of the memory that keeps its canonical form. -/
theorem Moves.modMem {l : List Field} {r s : State} {f : Mem → Mem} (h : Moves l r s) (hf : s.mem.wf = true → (f s.mem).wf = true)
    (hl : Field.within [.mem] l = true) : Moves l r (s.modMem f) :=
  h.trans ((⟨fun g hg => by
      cases g <;> first | rfl | exact absurd List.mem_cons_self hg,
    fun c => ⟨c.parts, c.rings, c.counters, c.calls, c.customers, c.tiles, c.boughs, c.calSave, c.links, hf c.mem⟩, id, List.prefix_rfl⟩ :
    Moves [.mem] s (s.modMem f)).mono hl)

theorem Mem.wf_write {m : Mem} {a : Nat} {bs : Bytes} (h : m.wf = true) : (m.write a bs).wf = true :=
  Tbl.wf_foldl_set (fun x : Byte × Nat => a + x.2) (fun x => x.1) bs.zipIdx h

theorem Mem.wf_clear {m : Mem} {a n : Nat} (h : m.wf = true) : (m.clear a n).wf = true := Tbl.wf_filter h

theorem Mem.wf_runs {m : Mem} {r : Tbl Nat} (h : m.wf = true) : Mem.wf { m with runs := r } = true := h

theorem Mem.wf_foldl {β : Type} {f : Mem → β → Mem} (hf : ∀ m x, Mem.wf m = true → (f m x).wf = true) :
    ∀ (xs : List β) {m : Mem}, m.wf = true → (xs.foldl f m).wf = true
  | [], _, h => h
  | _ :: xs, _, h => Mem.wf_foldl hf xs (hf _ _ h)

end Sys2Proof.Machine
end

