-- ==== Sys2Proof/Laws/CountersMoves.lean ====
section
/-! SUPPORT. What each operation of Machine/Counters.lean may change, and that it keeps the canonical form. -/

set_option Elab.async false

namespace Sys2Proof.Machine

set_option linter.unusedTactic false
set_option linter.unreachableTactic false

theorem State.count_moves {fl : List Field} {r₀ : State} {s : State} {k : ℕ} {n : ℕ} (hm : Moves fl r₀ s)
    (hfl : Field.within [.counters] fl = true) : Moves fl r₀ (State.count s k n) :=
  hm.trans (Moves.mono (a := [.counters]) (by
  have h := Moves.refl [.counters] s
  unfold State.count
  repeat' first
    | with_reducible assumption
    | (show Field.within _ _ = true; decide)
    | split
    | (refine Moves.of_lit ?_ ?_ ?_)
    | (intro f hf; cases f <;> first | exact hf.elim (by decide) | rfl)
    | (exact fun c => ⟨c.parts, c.rings, by dsimp only; first | exact c.counters | exact Tbl.wf_set c.counters | exact Tbl.wf_update c.counters | exact Tbl.wf_mapVals (Tbl.rising_of_wf c.counters) | exact Tbl.wf_mapVals (Tbl.rising_map (fun p => by (try dsimp only); (repeat' split) <;> rfl) (Tbl.rising_of_wf c.counters)) | (split <;> first | exact c.counters | exact Tbl.wf_set c.counters | exact Tbl.wf_mapVals (Tbl.rising_of_wf c.counters)), c.calls, c.customers, c.tiles, c.boughs, c.calSave, c.links, c.mem⟩)) hfl)

theorem State.levelMax_moves {fl : List Field} {r₀ : State} {s : State} {k : ℕ} {v : ℕ} (hm : Moves fl r₀ s)
    (hfl : Field.within [.counters] fl = true) : Moves fl r₀ (State.levelMax s k v) :=
  hm.trans (Moves.mono (a := [.counters]) (by
  have h := Moves.refl [.counters] s
  unfold State.levelMax
  repeat' first
    | with_reducible assumption
    | (show Field.within _ _ = true; decide)
    | split
    | (refine Moves.of_lit ?_ ?_ ?_)
    | (intro f hf; cases f <;> first | exact hf.elim (by decide) | rfl)
    | (exact fun c => ⟨c.parts, c.rings, by dsimp only; first | exact c.counters | exact Tbl.wf_set c.counters | exact Tbl.wf_update c.counters | exact Tbl.wf_mapVals (Tbl.rising_of_wf c.counters) | exact Tbl.wf_mapVals (Tbl.rising_map (fun p => by (try dsimp only); (repeat' split) <;> rfl) (Tbl.rising_of_wf c.counters)) | (split <;> first | exact c.counters | exact Tbl.wf_set c.counters | exact Tbl.wf_mapVals (Tbl.rising_of_wf c.counters)), c.calls, c.customers, c.tiles, c.boughs, c.calSave, c.links, c.mem⟩)) hfl)

end Sys2Proof.Machine
end

