-- ==== Sys2Proof/Laws/OpsMoves.lean ====
section
/-! SUPPORT. What each operation of Machine/Ops.lean may change, and that it keeps the canonical form. -/

set_option Elab.async false

namespace Sys2Proof.Machine

set_option linter.unusedTactic false
set_option linter.unreachableTactic false

theorem State.modRing_moves {fl : List Field} {r₀ : State} {s : State} {r : Sys2Proof.RingId} {f : Ring → Ring} (hm : Moves fl r₀ s)
    (hfl : Field.within [.rings] fl = true) : Moves fl r₀ (State.modRing s r f) :=
  hm.trans (Moves.mono (a := [.rings]) (by
  have h := Moves.refl [.rings] s
  unfold State.modRing
  repeat' first
    | with_reducible assumption
    | (show Field.within _ _ = true; decide)
    | split
    | (refine Moves.of_lit ?_ ?_ ?_)
    | (intro f hf; cases f <;> first | exact hf.elim (by decide) | rfl)
    | (exact fun c => ⟨c.parts, by dsimp only; first | exact c.rings | exact Tbl.wf_set c.rings | exact Tbl.wf_update c.rings | exact Tbl.wf_mapVals (Tbl.rising_of_wf c.rings) | exact Tbl.wf_mapVals (Tbl.rising_map (fun p => by (try dsimp only); (repeat' split) <;> rfl) (Tbl.rising_of_wf c.rings)) | (split <;> first | exact c.rings | exact Tbl.wf_set c.rings | exact Tbl.wf_mapVals (Tbl.rising_of_wf c.rings)), c.counters, c.calls, c.customers, c.tiles, c.boughs, c.calSave, c.links, c.mem⟩)) hfl)

theorem State.modSec_moves {fl : List Field} {r₀ : State} {s : State} {f : Sec → Sec} (hm : Moves fl r₀ s)
    (hfl : Field.within [.sec] fl = true) : Moves fl r₀ (State.modSec s f) :=
  hm.trans (Moves.mono (a := [.sec]) (by
  have h := Moves.refl [.sec] s
  unfold State.modSec
  repeat' first
    | with_reducible assumption
    | (show Field.within _ _ = true; decide)
    | split
    | (refine Moves.of_lit ?_ ?_ ?_)
    | (intro f hf; cases f <;> first | exact hf.elim (by decide) | rfl)
    | (exact fun c => ⟨c.parts, c.rings, c.counters, c.calls, c.customers, c.tiles, c.boughs, c.calSave, c.links, c.mem⟩)) hfl)

theorem State.emit_moves {fl : List Field} {r₀ : State} {s : State} {e : Emit} (hm : Moves fl r₀ s)
    (hfl : Field.within [.out] fl = true) : Moves fl r₀ (State.emit s e) :=
  hm.trans (Moves.mono (a := [.out]) (by
  have h := Moves.refl [.out] s
  unfold State.emit
  repeat' first
    | with_reducible assumption
    | (show Field.within _ _ = true; decide)
    | split
    | (refine Moves.of_lit ?_ ?_ ?_)
    | (intro f hf; cases f <;> first | exact hf.elim (by decide) | rfl)
    | (exact fun c => ⟨c.parts, c.rings, c.counters, c.calls, c.customers, c.tiles, c.boughs, c.calSave, c.links, c.mem⟩)) hfl)

theorem State.interrupt_moves {fl : List Field} {r₀ : State} {s : State} {r : Sys2Proof.RingId} (hm : Moves fl r₀ s)
    (hfl : Field.within [.rings, .out] fl = true) : Moves fl r₀ (State.interrupt s r) :=
  hm.trans (Moves.mono (a := [.rings, .out]) (by
  have h := Moves.refl [.rings, .out] s
  unfold State.interrupt
  repeat' first
    | with_reducible assumption
    | (show Field.within _ _ = true; decide)
    | with_reducible apply State.modRing_moves
    | with_reducible apply State.emit_moves
    | split) hfl)

theorem State.recordOut_moves {fl : List Field} {r₀ : State} {s : State} {frees : Option ℕ} (hm : Moves fl r₀ s)
    (hfl : Field.within [.calls] fl = true) : Moves fl r₀ (State.recordOut s frees) :=
  hm.trans (Moves.mono (a := [.calls]) (by
  have h := Moves.refl [.calls] s
  unfold State.recordOut
  repeat' first
    | with_reducible assumption
    | (show Field.within _ _ = true; decide)
    | with_reducible apply Moves.ite
    | split
    | (refine Moves.of_lit ?_ ?_ ?_)
    | (intro f hf; cases f <;> first | exact hf.elim (by decide) | rfl)
    | (exact fun c => ⟨c.parts, c.rings, c.counters, by dsimp only; first | exact c.calls | exact Tbl.wf_set c.calls | exact Tbl.wf_update c.calls | exact Tbl.wf_mapVals (Tbl.rising_of_wf c.calls) | exact Tbl.wf_mapVals (Tbl.rising_map (fun p => by (try dsimp only); (repeat' split) <;> rfl) (Tbl.rising_of_wf c.calls)) | (split <;> first | exact c.calls | exact Tbl.wf_set c.calls | exact Tbl.wf_mapVals (Tbl.rising_of_wf c.calls)), c.customers, c.tiles, c.boughs, c.calSave, c.links, c.mem⟩)) hfl)

theorem State.discardRecord_moves {fl : List Field} {r₀ : State} {s : State} {r : Sys2Proof.RingId} {w : Waiting} (hm : Moves fl r₀ s)
    (hfl : Field.within [.counters, .calls] fl = true) : Moves fl r₀ (State.discardRecord s r w) :=
  hm.trans (Moves.mono (a := [.counters, .calls]) (by
  have h := Moves.refl [.counters, .calls] s
  unfold State.discardRecord
  repeat' first
    | with_reducible assumption
    | (show Field.within _ _ = true; decide)
    | with_reducible apply State.recordOut_moves
    | with_reducible apply State.count_moves
    | split) hfl)

theorem State.putRecord_moves {fl : List Field} {r₀ : State} {s : State} {r : Sys2Proof.RingId} {w : Waiting} (hm : Moves fl r₀ s)
    (hfl : Field.within [.rings, .calls, .out] fl = true) : Moves fl r₀ (State.putRecord s r w) :=
  hm.trans (Moves.mono (a := [.rings, .calls, .out]) (by
  have h := Moves.refl [.rings, .calls, .out] s
  unfold State.putRecord
  repeat' first
    | (extract_lets +onlyGivenNames x; first | (refine Moves.cut (s := x) ?_ ?_; (on_goal 2 => intro hx; clear_value x); (on_goal 1 => subst x)) | subst x)
    | with_reducible assumption
    | (show Field.within _ _ = true; decide)
    | with_reducible apply State.emit_moves
    | with_reducible apply State.recordOut_moves
    | with_reducible apply State.modRing_moves
    | with_reducible apply State.interrupt_moves
    | with_reducible apply Moves.ite
    | split) hfl)

theorem State.writeRecord_moves {fl : List Field} {r₀ : State} {s : State} {r : Sys2Proof.RingId} {w : Waiting} (hm : Moves fl r₀ s)
    (hfl : Field.within [.rings, .counters, .calls, .out] fl = true) : Moves fl r₀ (State.writeRecord s r w) :=
  hm.trans (Moves.mono (a := [.rings, .counters, .calls, .out]) (by
  have h := Moves.refl [.rings, .counters, .calls, .out] s
  unfold State.writeRecord
  repeat' first
    | (extract_lets +onlyGivenNames x; first | (refine Moves.cut (s := x) ?_ ?_; (on_goal 2 => intro hx; clear_value x); (on_goal 1 => subst x)) | subst x)
    | with_reducible assumption
    | (show Field.within _ _ = true; decide)
    | with_reducible apply State.modRing_moves
    | with_reducible apply State.discardRecord_moves
    | with_reducible apply State.count_moves
    | with_reducible apply State.putRecord_moves
    | with_reducible apply Moves.ite
    | split) hfl)

/-- A record whose writing frees nothing leaves the rest as it is. -/
theorem State.recordOut_none_moves {fl : List Field} {r₀ : State} {s : State} (hm : Moves fl r₀ s) :
    Moves fl r₀ (State.recordOut s none) := hm

/-- A record whose writing frees nothing leaves the call sheet alone. -/
theorem State.putRecord_moves' {fl : List Field} {r₀ : State} {s : State} {r : Sys2Proof.RingId} {w : Waiting} (hw : w.frees = none)
    (hm : Moves fl r₀ s) (hfl : Field.within [.rings, .out] fl = true) : Moves fl r₀ (State.putRecord s r w) :=
  hm.trans (Moves.mono (a := [.rings, .out]) (by
  have h := Moves.refl [.rings, .out] s
  unfold State.putRecord
  rw [hw]
  repeat' first
    | (extract_lets +onlyGivenNames x; first | (refine Moves.cut (s := x) ?_ ?_; (on_goal 2 => intro hx; clear_value x); (on_goal 1 => subst x)) | subst x)
    | with_reducible assumption
    | (show Field.within _ _ = true; decide)
    | with_reducible apply State.recordOut_none_moves
    | with_reducible apply State.modRing_moves
    | with_reducible apply State.emit_moves
    | with_reducible apply State.interrupt_moves
    | with_reducible apply Moves.ite) hfl)

theorem State.writeRecord_moves' {fl : List Field} {r₀ : State} {s : State} {r : Sys2Proof.RingId} {w : Waiting} (hw : w.frees = none)
    (hm : Moves fl r₀ s) (hfl : Field.within [.rings, .counters, .out] fl = true) : Moves fl r₀ (State.writeRecord s r w) :=
  hm.trans (Moves.mono (a := [.rings, .counters, .out]) (by
  have h := Moves.refl [.rings, .counters, .out] s
  unfold State.writeRecord State.discardRecord
  rw [hw]
  repeat' first
    | (extract_lets +onlyGivenNames x; first | (refine Moves.cut (s := x) ?_ ?_; (on_goal 2 => intro hx; clear_value x); (on_goal 1 => subst x)) | subst x)
    | with_reducible assumption
    | (show Field.within _ _ = true; decide)
    | with_reducible apply State.recordOut_none_moves
    | with_reducible apply State.modRing_moves
    | with_reducible apply State.count_moves
    | with_reducible apply State.putRecord_moves' hw
    | with_reducible apply Moves.ite
    | split) hfl)

theorem State.completeNone_moves {fl : List Field} {r₀ : State} {s : State} {j : Job} {st : Status} {r0 r1 : ℕ}
    (hm : Moves fl r₀ s) (hfl : Field.within [.rings, .counters, .jobs, .out] fl = true) :
    Moves fl r₀ (State.completeWith s j st r0 r1 none) :=
  hm.trans (Moves.mono (a := [.rings, .counters, .jobs, .out]) (by
  have h := Moves.refl [.rings, .counters, .jobs, .out] s
  unfold State.completeWith
  repeat' first
    | (extract_lets +onlyGivenNames x; first | (refine Moves.cut (s := x) ?_ ?_; (on_goal 2 => intro hx; clear_value x); (on_goal 1 => subst x)) | subst x)
    | with_reducible assumption
    | (show Field.within _ _ = true; decide)
    | with_reducible apply State.writeRecord_moves' rfl
    | split
    | (refine Moves.of_lit ?_ ?_ ?_)
    | (intro f hf; cases f <;> first | exact hf.elim (by decide) | rfl)
    | (exact fun c => ⟨c.parts, c.rings, c.counters, c.calls, c.customers, c.tiles, c.boughs, c.calSave, c.links, c.mem⟩)) hfl)

theorem State.completeWith_moves {fl : List Field} {r₀ : State} {s : State} {j : Job} {st : Status} {r0 r1 : ℕ} {frees : Option ℕ}
    (hm : Moves fl r₀ s) (hfl : Field.within [.rings, .counters, .jobs, .calls, .out] fl = true) :
    Moves fl r₀ (State.completeWith s j st r0 r1 frees) :=
  hm.trans (Moves.mono (a := [.rings, .counters, .jobs, .calls, .out]) (by
  have h := Moves.refl [.rings, .counters, .jobs, .calls, .out] s
  unfold State.completeWith
  repeat' first
    | (extract_lets +onlyGivenNames x; first | (refine Moves.cut (s := x) ?_ ?_; (on_goal 2 => intro hx; clear_value x); (on_goal 1 => subst x)) | subst x)
    | with_reducible assumption
    | (show Field.within _ _ = true; decide)
    | with_reducible apply State.writeRecord_moves
    | split
    | (refine Moves.of_lit ?_ ?_ ?_)
    | (intro f hf; cases f <;> first | exact hf.elim (by decide) | rfl)
    | (exact fun c => ⟨c.parts, c.rings, c.counters, c.calls, c.customers, c.tiles, c.boughs, c.calSave, c.links, c.mem⟩)) hfl)

theorem State.modPower_moves {fl : List Field} {r₀ : State} {s : State} {f : Power → Power} (hm : Moves fl r₀ s)
    (hfl : Field.within [.power] fl = true) : Moves fl r₀ (State.modPower s f) :=
  hm.trans (Moves.mono (a := [.power]) (by
  have h := Moves.refl [.power] s
  unfold State.modPower
  repeat' first
    | with_reducible assumption
    | (show Field.within _ _ = true; decide)
    | split
    | (refine Moves.of_lit ?_ ?_ ?_)
    | (intro f hf; cases f <;> first | exact hf.elim (by decide) | rfl)
    | (exact fun c => ⟨c.parts, c.rings, c.counters, c.calls, c.customers, c.tiles, c.boughs, c.calSave, c.links, c.mem⟩)) hfl)

theorem State.modLink_moves {fl : List Field} {r₀ : State} {s : State} {p : Sys2Proof.Port} {f : Link → Link} (hm : Moves fl r₀ s)
    (hfl : Field.within [.links] fl = true) : Moves fl r₀ (State.modLink s p f) :=
  hm.trans (Moves.mono (a := [.links]) (by
  have h := Moves.refl [.links] s
  unfold State.modLink
  repeat' first
    | with_reducible assumption
    | (show Field.within _ _ = true; decide)
    | split
    | (refine Moves.of_lit ?_ ?_ ?_)
    | (intro f hf; cases f <;> first | exact hf.elim (by decide) | rfl)
    | (exact fun c => ⟨c.parts, c.rings, c.counters, c.calls, c.customers, c.tiles, c.boughs, c.calSave, by dsimp only; first | exact c.links | exact Tbl.wf_set c.links | exact Tbl.wf_update c.links | exact Tbl.wf_mapVals (Tbl.rising_of_wf c.links) | exact Tbl.wf_mapVals (Tbl.rising_map (fun p => by (try dsimp only); (repeat' split) <;> rfl) (Tbl.rising_of_wf c.links)) | (split <;> first | exact c.links | exact Tbl.wf_set c.links | exact Tbl.wf_mapVals (Tbl.rising_of_wf c.links)) | exact Tbl.wf_map_range fun _ e => by have := congrArg Link.state e; simp at this, c.mem⟩)) hfl)

theorem State.event_moves {fl : List Field} {r₀ : State} {s : State} {e : EventRec} (hm : Moves fl r₀ s)
    (hfl : Field.within [.rings, .counters, .sec, .out] fl = true) : Moves fl r₀ (State.event s e) :=
  hm.trans (Moves.mono (a := [.rings, .counters, .sec, .out]) (by
  have h := Moves.refl [.rings, .counters, .sec, .out] s
  unfold State.event
  repeat' first
    | (extract_lets +onlyGivenNames x; subst x)
    | with_reducible assumption
    | (show Field.within _ _ = true; decide)
    | with_reducible apply State.writeRecord_moves' rfl
    | with_reducible apply State.modSec_moves
    | with_reducible apply Moves.ite
    | split) hfl)

theorem State.modFaults_moves {fl : List Field} {r₀ : State} {s : State} {f : Faults → Faults} (hm : Moves fl r₀ s)
    (hfl : Field.within [.faults] fl = true) : Moves fl r₀ (State.modFaults s f) :=
  hm.trans (Moves.mono (a := [.faults]) (by
  have h := Moves.refl [.faults] s
  unfold State.modFaults
  repeat' first
    | with_reducible assumption
    | (show Field.within _ _ = true; decide)
    | split
    | (refine Moves.of_lit ?_ ?_ ?_)
    | (intro f hf; cases f <;> first | exact hf.elim (by decide) | rfl)
    | (exact fun c => ⟨c.parts, c.rings, c.counters, c.calls, c.customers, c.tiles, c.boughs, c.calSave, c.links, c.mem⟩)) hfl)

theorem State.modStep_moves {fl : List Field} {r₀ : State} {s : State} {c : ℕ} {n : ℕ} {f : Step → Step} (hm : Moves fl r₀ s)
    (hfl : Field.within [.steps] fl = true) : Moves fl r₀ (State.modStep s c n f) :=
  hm.trans (Moves.mono (a := [.steps]) (by
  have h := Moves.refl [.steps] s
  unfold State.modStep
  repeat' first
    | with_reducible assumption
    | (show Field.within _ _ = true; decide)
    | with_reducible apply Moves.ite
    | split
    | (refine Moves.of_lit ?_ ?_ ?_)
    | (intro f hf; cases f <;> first | exact hf.elim (by decide) | rfl)
    | (exact fun c => ⟨c.parts, c.rings, c.counters, c.calls, c.customers, c.tiles, c.boughs, c.calSave, c.links, c.mem⟩)) hfl)

theorem State.complete_moves {fl : List Field} {r₀ : State} {s : State} {j : Job} {st : Status} (hm : Moves fl r₀ s)
    (hfl : Field.within [.rings, .counters, .jobs, .out] fl = true) : Moves fl r₀ (State.complete s j st) :=
  hm.trans (Moves.mono (a := [.rings, .counters, .jobs, .out]) (by
  have h := Moves.refl [.rings, .counters, .jobs, .out] s
  unfold State.complete
  repeat' first
    | with_reducible assumption
    | (show Field.within _ _ = true; decide)
    | with_reducible apply State.completeNone_moves
    | split) hfl)

theorem State.modWeights_moves {fl : List Field} {r₀ : State} {s : State} {f : Weights → Weights} (hm : Moves fl r₀ s)
    (hfl : Field.within [.weights] fl = true) : Moves fl r₀ (State.modWeights s f) :=
  hm.trans (Moves.mono (a := [.weights]) (by
  have h := Moves.refl [.weights] s
  unfold State.modWeights
  repeat' first
    | with_reducible assumption
    | (show Field.within _ _ = true; decide)
    | split
    | (refine Moves.of_lit ?_ ?_ ?_)
    | (intro f hf; cases f <;> first | exact hf.elim (by decide) | rfl)
    | (exact fun c => ⟨c.parts, c.rings, c.counters, c.calls, c.customers, c.tiles, c.boughs, c.calSave, c.links, c.mem⟩)) hfl)

theorem State.modTile_moves {fl : List Field} {r₀ : State} {s : State} {t : ℕ} {f : Tile → Tile} (hm : Moves fl r₀ s)
    (hfl : Field.within [.tiles] fl = true) : Moves fl r₀ (State.modTile s t f) :=
  hm.trans (Moves.mono (a := [.tiles]) (by
  have h := Moves.refl [.tiles] s
  unfold State.modTile
  repeat' first
    | with_reducible assumption
    | (show Field.within _ _ = true; decide)
    | split
    | (refine Moves.of_lit ?_ ?_ ?_)
    | (intro f hf; cases f <;> first | exact hf.elim (by decide) | rfl)
    | (exact fun c => ⟨c.parts, c.rings, c.counters, c.calls, c.customers, by dsimp only; first | exact c.tiles | exact Tbl.wf_set c.tiles | exact Tbl.wf_update c.tiles | exact Tbl.wf_mapVals (Tbl.rising_of_wf c.tiles) | exact Tbl.wf_mapVals (Tbl.rising_map (fun p => by (try dsimp only); (repeat' split) <;> rfl) (Tbl.rising_of_wf c.tiles)) | (split <;> first | exact c.tiles | exact Tbl.wf_set c.tiles | exact Tbl.wf_mapVals (Tbl.rising_of_wf c.tiles)), c.boughs, c.calSave, c.links, c.mem⟩)) hfl)

theorem State.modDeck_moves {fl : List Field} {r₀ : State} {s : State} {t : ℕ} {d : ℕ} {f : Deck → Deck} (hm : Moves fl r₀ s)
    (hfl : Field.within [.tiles] fl = true) : Moves fl r₀ (State.modDeck s t d f) :=
  hm.trans (Moves.mono (a := [.tiles]) (by
  have h := Moves.refl [.tiles] s
  unfold State.modDeck
  repeat' first
    | with_reducible assumption
    | (show Field.within _ _ = true; decide)
    | with_reducible apply State.modTile_moves
    | split) hfl)

theorem State.modRegs_moves {fl : List Field} {r₀ : State} {s : State} {f : Regs → Regs} (hm : Moves fl r₀ s)
    (hfl : Field.within [.regs] fl = true) : Moves fl r₀ (State.modRegs s f) :=
  hm.trans (Moves.mono (a := [.regs]) (by
  have h := Moves.refl [.regs] s
  unfold State.modRegs
  repeat' first
    | with_reducible assumption
    | (show Field.within _ _ = true; decide)
    | split
    | (refine Moves.of_lit ?_ ?_ ?_)
    | (intro f hf; cases f <;> first | exact hf.elim (by decide) | rfl)
    | (exact fun c => ⟨c.parts, c.rings, c.counters, c.calls, c.customers, c.tiles, c.boughs, c.calSave, c.links, c.mem⟩)) hfl)

theorem State.setReady_moves {fl : List Field} {r₀ : State} {s : State} {i : ℕ} (hm : Moves fl r₀ s)
    (hfl : Field.within [.regs] fl = true) : Moves fl r₀ (State.setReady s i) :=
  hm.trans (Moves.mono (a := [.regs]) (by
  have h := Moves.refl [.regs] s
  unfold State.setReady
  repeat' first
    | with_reducible assumption
    | (show Field.within _ _ = true; decide)
    | with_reducible apply State.modRegs_moves
    | split) hfl)

theorem State.modBough_moves {fl : List Field} {r₀ : State} {s : State} {b : ℕ} {f : Bough → Bough} (hm : Moves fl r₀ s)
    (hfl : Field.within [.boughs] fl = true) : Moves fl r₀ (State.modBough s b f) :=
  hm.trans (Moves.mono (a := [.boughs]) (by
  have h := Moves.refl [.boughs] s
  unfold State.modBough
  repeat' first
    | with_reducible assumption
    | (show Field.within _ _ = true; decide)
    | split
    | (refine Moves.of_lit ?_ ?_ ?_)
    | (intro f hf; cases f <;> first | exact hf.elim (by decide) | rfl)
    | (exact fun c => ⟨c.parts, c.rings, c.counters, c.calls, c.customers, c.tiles, by dsimp only; first | exact c.boughs | exact Tbl.wf_set c.boughs | exact Tbl.wf_update c.boughs | exact Tbl.wf_mapVals (Tbl.rising_of_wf c.boughs) | exact Tbl.wf_mapVals (Tbl.rising_map (fun p => by (try dsimp only); (repeat' split) <;> rfl) (Tbl.rising_of_wf c.boughs)) | (split <;> first | exact c.boughs | exact Tbl.wf_set c.boughs | exact Tbl.wf_mapVals (Tbl.rising_of_wf c.boughs)), c.calSave, c.links, c.mem⟩)) hfl)

theorem State.modProd_moves {fl : List Field} {r₀ : State} {s : State} {i : ℕ} {f : Prod → Prod} (hm : Moves fl r₀ s)
    (hfl : Field.within [.prods] fl = true) : Moves fl r₀ (State.modProd s i f) :=
  hm.trans (Moves.mono (a := [.prods]) (by
  have h := Moves.refl [.prods] s
  unfold State.modProd
  repeat' first
    | with_reducible assumption
    | (show Field.within _ _ = true; decide)
    | with_reducible apply Moves.ite
    | split
    | (refine Moves.of_lit ?_ ?_ ?_)
    | (intro f hf; cases f <;> first | exact hf.elim (by decide) | rfl)
    | (exact fun c => ⟨c.parts, c.rings, c.counters, c.calls, c.customers, c.tiles, c.boughs, c.calSave, c.links, c.mem⟩)) hfl)

theorem State.modBoot_moves {fl : List Field} {r₀ : State} {s : State} {f : Boot → Boot} (hm : Moves fl r₀ s)
    (hfl : Field.within [.boot] fl = true) : Moves fl r₀ (State.modBoot s f) :=
  hm.trans (Moves.mono (a := [.boot]) (by
  have h := Moves.refl [.boot] s
  unfold State.modBoot
  repeat' first
    | with_reducible assumption
    | (show Field.within _ _ = true; decide)
    | split
    | (refine Moves.of_lit ?_ ?_ ?_)
    | (intro f hf; cases f <;> first | exact hf.elim (by decide) | rfl)
    | (exact fun c => ⟨c.parts, c.rings, c.counters, c.calls, c.customers, c.tiles, c.boughs, c.calSave, c.links, c.mem⟩)) hfl)

theorem State.modPart_moves {fl : List Field} {r₀ : State} {s : State} {p : ℕ} {f : Part → Part} (hm : Moves fl r₀ s)
    (hfl : Field.within [.parts] fl = true) : Moves fl r₀ (State.modPart s p f) :=
  hm.trans (Moves.mono (a := [.parts]) (by
  have h := Moves.refl [.parts] s
  unfold State.modPart
  repeat' first
    | with_reducible assumption
    | (show Field.within _ _ = true; decide)
    | split
    | (refine Moves.of_lit ?_ ?_ ?_)
    | (intro f hf; cases f <;> first | exact hf.elim (by decide) | rfl)
    | (exact fun c => ⟨by dsimp only; first | exact c.parts | exact Tbl.wf_set c.parts | exact Tbl.wf_update c.parts | exact Tbl.wf_mapVals (Tbl.rising_of_wf c.parts) | exact Tbl.wf_mapVals (Tbl.rising_map (fun p => by (try dsimp only); (repeat' split) <;> rfl) (Tbl.rising_of_wf c.parts)) | (split <;> first | exact c.parts | exact Tbl.wf_set c.parts | exact Tbl.wf_mapVals (Tbl.rising_of_wf c.parts)), c.rings, c.counters, c.calls, c.customers, c.tiles, c.boughs, c.calSave, c.links, c.mem⟩)) hfl)

theorem State.notice_moves {fl : List Field} {r₀ : State} {s : State} {p subject code : ℕ} {d : Sys2Proof.Bytes} {premium : Bool} (hm : Moves fl r₀ s)
    (hfl : Field.within [.rings, .counters, .out] fl = true) : Moves fl r₀ (State.notice s p subject code d premium) :=
  hm.trans (Moves.mono (a := [.rings, .counters, .out]) (by
  have h := Moves.refl [.rings, .counters, .out] s
  unfold State.notice
  repeat' first
    | (extract_lets +onlyGivenNames x; subst x)
    | with_reducible assumption
    | (show Field.within _ _ = true; decide)
    | with_reducible apply State.writeRecord_moves' rfl
    | with_reducible apply Moves.ite
    | split) hfl)

theorem State.completeAll_moves {fl : List Field} {r₀ : State} {s : State} {js : List Job} {st : Status} (hm : Moves fl r₀ s)
    (hfl : Field.within [.rings, .counters, .jobs, .out] fl = true) : Moves fl r₀ (State.completeAll s js st) :=
  hm.trans (Moves.mono (a := [.rings, .counters, .jobs, .out]) (by
  have h := Moves.refl [.rings, .counters, .jobs, .out] s
  unfold State.completeAll
  repeat' first
    | with_reducible assumption
    | (show Field.within _ _ = true; decide)
    | with_reducible apply State.complete_moves
    | with_reducible apply Moves.foldl
    | with_reducible apply Moves.foldl_fst
    | (intro _ _ _)
    | split) hfl)

theorem State.flush_moves {fl : List Field} {r₀ : State} {s : State} {r : Sys2Proof.RingId} (hm : Moves fl r₀ s)
    (hfl : Field.within [.rings, .out] fl = true) : Moves fl r₀ (State.flush s r) :=
  hm.trans (Moves.mono (a := [.rings, .out]) (by
  have h := Moves.refl [.rings, .out] s
  unfold State.flush
  repeat' first
    | with_reducible assumption
    | (show Field.within _ _ = true; decide)
    | with_reducible apply State.interrupt_moves
    | with_reducible apply Moves.ite
    | split) hfl)

theorem State.flushAll_moves {fl : List Field} {r₀ : State} {s : State} {rs : List Sys2Proof.RingId} (hm : Moves fl r₀ s)
    (hfl : Field.within [.rings, .out] fl = true) : Moves fl r₀ (State.flushAll s rs) :=
  hm.trans (Moves.mono (a := [.rings, .out]) (by
  have h := Moves.refl [.rings, .out] s
  unfold State.flushAll
  repeat' first
    | with_reducible assumption
    | (show Field.within _ _ = true; decide)
    | with_reducible apply State.flush_moves
    | with_reducible apply Moves.foldl
    | with_reducible apply Moves.foldl_fst
    | (intro _ _ _)
    | split) hfl)

theorem State.draw_moves {fl : List Field} {r₀ : State} {s : State}  (hm : Moves fl r₀ s)
    (hfl : Field.within [.free] fl = true) : Moves fl r₀ (State.draw s) :=
  hm.trans (Moves.mono (a := [.free]) (by
  have h := Moves.refl [.free] s
  unfold State.draw
  repeat' first
    | with_reducible assumption
    | (show Field.within _ _ = true; decide)
    | split
    | (refine Moves.of_lit ?_ ?_ ?_)
    | (intro f hf; cases f <;> first | exact hf.elim (by decide) | rfl)
    | (exact fun c => ⟨c.parts, c.rings, c.counters, c.calls, c.customers, c.tiles, c.boughs, c.calSave, c.links, c.mem⟩)) hfl)

theorem State.modHk_moves {fl : List Field} {r₀ : State} {s : State} {f : Hk → Hk} (hm : Moves fl r₀ s)
    (hfl : Field.within [.hk] fl = true) : Moves fl r₀ (State.modHk s f) :=
  hm.trans (Moves.mono (a := [.hk]) (by
  have h := Moves.refl [.hk] s
  unfold State.modHk
  repeat' first
    | with_reducible assumption
    | (show Field.within _ _ = true; decide)
    | split
    | (refine Moves.of_lit ?_ ?_ ?_)
    | (intro f hf; cases f <;> first | exact hf.elim (by decide) | rfl)
    | (exact fun c => ⟨c.parts, c.rings, c.counters, c.calls, c.customers, c.tiles, c.boughs, c.calSave, c.links, c.mem⟩)) hfl)

theorem State.modPins_moves {fl : List Field} {r₀ : State} {s : State} {f : Pins → Pins} (hm : Moves fl r₀ s)
    (hfl : Field.within [.pins] fl = true) : Moves fl r₀ (State.modPins s f) :=
  hm.trans (Moves.mono (a := [.pins]) (by
  have h := Moves.refl [.pins] s
  unfold State.modPins
  repeat' first
    | with_reducible assumption
    | (show Field.within _ _ = true; decide)
    | split
    | (refine Moves.of_lit ?_ ?_ ?_)
    | (intro f hf; cases f <;> first | exact hf.elim (by decide) | rfl)
    | (exact fun c => ⟨c.parts, c.rings, c.counters, c.calls, c.customers, c.tiles, c.boughs, c.calSave, c.links, c.mem⟩)) hfl)

theorem State.drainWaiting_moves {fl : List Field} {r₀ : State} {s : State} {r : Sys2Proof.RingId} {a : ℕ} (hm : Moves fl r₀ s)
    (hfl : Field.within [.rings, .calls, .out] fl = true) : Moves fl r₀ (State.drainWaiting s r a) :=
  hm.trans (Moves.mono (a := [.rings, .calls, .out]) (by
  clear hm hfl
  induction a generalizing s with
  | zero => exact Moves.refl _ _
  | succ _ ih =>
  have h := Moves.refl [.rings, .calls, .out] s
  unfold State.drainWaiting
  repeat' first
    | with_reducible assumption
    | (with_reducible apply Moves.trans _ (ih ..))
    | (show Field.within _ _ = true; decide)
    | with_reducible apply State.modRing_moves
    | with_reducible apply State.putRecord_moves
    | with_reducible apply Moves.ite
    | split) hfl)

theorem State.release_moves {fl : List Field} {r₀ : State} {s : State} {r : Sys2Proof.RingId} (hm : Moves fl r₀ s)
    (hfl : Field.within [.rings, .calls, .out] fl = true) : Moves fl r₀ (State.release s r) :=
  hm.trans (Moves.mono (a := [.rings, .calls, .out]) (by
  have h := Moves.refl [.rings, .calls, .out] s
  unfold State.release
  repeat' first
    | (extract_lets +onlyGivenNames x; first | (refine Moves.cut (s := x) ?_ ?_; (on_goal 2 => intro hx; clear_value x); (on_goal 1 => subst x)) | subst x)
    | with_reducible assumption
    | (show Field.within _ _ = true; decide)
    | with_reducible apply State.putRecord_moves
    | with_reducible apply State.modRing_moves
    | with_reducible apply State.drainWaiting_moves
    | with_reducible apply Moves.ite
    | split) hfl)

theorem State.modCustomer_moves {fl : List Field} {r₀ : State} {s : State} {c : ℕ} {f : Customer → Customer} (hm : Moves fl r₀ s)
    (hfl : Field.within [.customers] fl = true) : Moves fl r₀ (State.modCustomer s c f) :=
  hm.trans (Moves.mono (a := [.customers]) (by
  have h := Moves.refl [.customers] s
  unfold State.modCustomer
  repeat' first
    | with_reducible assumption
    | (show Field.within _ _ = true; decide)
    | split
    | (refine Moves.of_lit ?_ ?_ ?_)
    | (intro f hf; cases f <;> first | exact hf.elim (by decide) | rfl)
    | (exact fun c => ⟨c.parts, c.rings, c.counters, c.calls, by dsimp only; first | exact c.customers | exact Tbl.wf_set c.customers | exact Tbl.wf_update c.customers | exact Tbl.wf_mapVals (Tbl.rising_of_wf c.customers) | exact Tbl.wf_mapVals (Tbl.rising_map (fun p => by (try dsimp only); (repeat' split) <;> rfl) (Tbl.rising_of_wf c.customers)) | (split <;> first | exact c.customers | exact Tbl.wf_set c.customers | exact Tbl.wf_mapVals (Tbl.rising_of_wf c.customers)), c.tiles, c.boughs, c.calSave, c.links, c.mem⟩)) hfl)

theorem State.hostWrite_moves {fl : List Field} {r₀ : State} {s : State} {addr : ℕ} {b : Sys2Proof.Bytes} (hm : Moves fl r₀ s)
    (hfl : Field.within [.out] fl = true) : Moves fl r₀ (State.hostWrite s addr b) :=
  hm.trans (Moves.mono (a := [.out]) (by
  have h := Moves.refl [.out] s
  unfold State.hostWrite
  repeat' first
    | with_reducible assumption
    | (show Field.within _ _ = true; decide)
    | with_reducible apply State.emit_moves
    | split) hfl)

theorem State.modPartner_moves {fl : List Field} {r₀ : State} {s : State} {f : Partner → Partner} (hm : Moves fl r₀ s)
    (hfl : Field.within [.partner] fl = true) : Moves fl r₀ (State.modPartner s f) :=
  hm.trans (Moves.mono (a := [.partner]) (by
  have h := Moves.refl [.partner] s
  unfold State.modPartner
  repeat' first
    | with_reducible assumption
    | (show Field.within _ _ = true; decide)
    | split
    | (refine Moves.of_lit ?_ ?_ ?_)
    | (intro f hf; cases f <;> first | exact hf.elim (by decide) | rfl)
    | (exact fun c => ⟨c.parts, c.rings, c.counters, c.calls, c.customers, c.tiles, c.boughs, c.calSave, c.links, c.mem⟩)) hfl)

theorem State.retryOrRelease_moves {fl : List Field} {r₀ : State} {s : State} {r : Sys2Proof.RingId} (hm : Moves fl r₀ s)
    (hfl : Field.within [.rings, .calls, .out] fl = true) : Moves fl r₀ (State.retryOrRelease s r) :=
  hm.trans (Moves.mono (a := [.rings, .calls, .out]) (by
  have h := Moves.refl [.rings, .calls, .out] s
  unfold State.retryOrRelease
  repeat' first
    | with_reducible assumption
    | (show Field.within _ _ = true; decide)
    | with_reducible apply State.release_moves
    | with_reducible apply State.putRecord_moves
    | with_reducible apply State.modRing_moves
    | split) hfl)

theorem State.clearReady_moves {fl : List Field} {r₀ : State} {s : State} {i : ℕ} (hm : Moves fl r₀ s)
    (hfl : Field.within [.regs] fl = true) : Moves fl r₀ (State.clearReady s i) :=
  hm.trans (Moves.mono (a := [.regs]) (by
  have h := Moves.refl [.regs] s
  unfold State.clearReady
  repeat' first
    | with_reducible assumption
    | (show Field.within _ _ = true; decide)
    | with_reducible apply State.modRegs_moves
    | split) hfl)

end Sys2Proof.Machine
end

