-- ==== Sys2Proof/Laws/LinkOpsMoves.lean ====
section
/-! SUPPORT. What each operation of Machine/LinkOps.lean may change, and that it keeps the canonical form. -/

set_option Elab.async false

namespace Sys2Proof.Machine

set_option linter.unusedTactic false
set_option linter.unreachableTactic false

theorem State.sendOne_moves {fl : List Field} {r₀ : State} {s : State} {p : Sys2Proof.Port} (hm : Moves fl r₀ s)
    (hfl : Field.within [.counters, .links, .out] fl = true) : Moves fl r₀ (State.sendOne s p) :=
  hm.trans (Moves.mono (a := [.counters, .links, .out]) (by
  have h := Moves.refl [.counters, .links, .out] s
  unfold State.sendOne
  repeat' first
    | (extract_lets +onlyGivenNames x; first | (refine Moves.cut (s := x) ?_ ?_; (on_goal 2 => intro hx; clear_value x); (on_goal 1 => subst x)) | subst x)
    | with_reducible assumption
    | (show Field.within _ _ = true; decide)
    | with_reducible apply State.emit_moves
    | with_reducible apply State.count_moves
    | with_reducible apply State.modLink_moves
    | with_reducible apply Moves.ite
    | split) hfl)

theorem State.pump_moves {fl : List Field} {r₀ : State} {s : State} {p : Sys2Proof.Port} {a : ℕ} (hm : Moves fl r₀ s)
    (hfl : Field.within [.counters, .links, .out] fl = true) : Moves fl r₀ (State.pump s p a) :=
  hm.trans (Moves.mono (a := [.counters, .links, .out]) (by
  clear hm hfl
  induction a generalizing s with
  | zero => exact Moves.refl _ _
  | succ _ ih =>
  have h := Moves.refl [.counters, .links, .out] s
  unfold State.pump
  repeat' first
    | with_reducible assumption
    | (with_reducible apply Moves.trans _ (ih ..))
    | (show Field.within _ _ = true; decide)
    | with_reducible apply State.sendOne_moves
    | split) hfl)

theorem State.pumpAll_moves {fl : List Field} {r₀ : State} {s : State} {p : Sys2Proof.Port} (hm : Moves fl r₀ s)
    (hfl : Field.within [.counters, .links, .out] fl = true) : Moves fl r₀ (State.pumpAll s p) :=
  hm.trans (Moves.mono (a := [.counters, .links, .out]) (by
  have h := Moves.refl [.counters, .links, .out] s
  unfold State.pumpAll
  repeat' first
    | with_reducible assumption
    | (show Field.within _ _ = true; decide)
    | with_reducible apply State.pump_moves
    | split) hfl)

theorem State.send_moves {fl : List Field} {r₀ : State} {s : State} {p : Sys2Proof.Port} {c : ℕ} {b : FlitBody} (hm : Moves fl r₀ s)
    (hfl : Field.within [.counters, .links, .out] fl = true) : Moves fl r₀ (State.send s p c b) :=
  hm.trans (Moves.mono (a := [.counters, .links, .out]) (by
  have h := Moves.refl [.counters, .links, .out] s
  unfold State.send
  repeat' first
    | with_reducible assumption
    | (show Field.within _ _ = true; decide)
    | with_reducible apply State.pumpAll_moves
    | with_reducible apply State.modLink_moves
    | split) hfl)

theorem State.journal_moves {fl : List Field} {r₀ : State} {s : State} {e : Entry} {rs : List Sys2Proof.JournalRec} (hm : Moves fl r₀ s)
    (hfl : Field.within [.counters, .links, .out] fl = true) : Moves fl r₀ (State.journal s e rs) :=
  hm.trans (Moves.mono (a := [.counters, .links, .out]) (by
  have h := Moves.refl [.counters, .links, .out] s
  unfold State.journal
  repeat' first
    | with_reducible assumption
    | (show Field.within _ _ = true; decide)
    | with_reducible apply State.send_moves
    | with_reducible apply State.count_moves
    | with_reducible apply Moves.ite
    | split) hfl)

theorem State.putCall_moves {fl : List Field} {r₀ : State} {s : State} {c : ℕ} {e : Entry} (hm : Moves fl r₀ s)
    (hfl : Field.within [.counters, .calls, .links, .out] fl = true) : Moves fl r₀ (State.putCall s c e) :=
  hm.trans (Moves.mono (a := [.counters, .calls, .links, .out]) (by
  have h := Moves.refl [.counters, .calls, .links, .out] s
  unfold State.putCall
  repeat' first
    | (extract_lets +onlyGivenNames x; first | (refine Moves.cut (s := x) ?_ ?_; (on_goal 2 => intro hx; clear_value x); (on_goal 1 => subst x)) | subst x)
    | with_reducible assumption
    | (show Field.within _ _ = true; decide)
    | with_reducible apply State.journal_moves
    | split
    | (refine Moves.of_lit ?_ ?_ ?_)
    | (intro f hf; cases f <;> first | exact hf.elim (by decide) | rfl)
    | (exact fun c => ⟨c.parts, c.rings, c.counters, by dsimp only; first | exact c.calls | exact Tbl.wf_set c.calls | exact Tbl.wf_update c.calls | exact Tbl.wf_mapVals (Tbl.rising_of_wf c.calls) | exact Tbl.wf_mapVals (Tbl.rising_map (fun p => by (try dsimp only); (repeat' split) <;> rfl) (Tbl.rising_of_wf c.calls)) | (split <;> first | exact c.calls | exact Tbl.wf_set c.calls | exact Tbl.wf_mapVals (Tbl.rising_of_wf c.calls)), c.customers, c.tiles, c.boughs, c.calSave, c.links, c.mem⟩)) hfl)

theorem State.modCall_moves {fl : List Field} {r₀ : State} {s : State} {c : ℕ} {f : Entry → Entry} (hm : Moves fl r₀ s)
    (hfl : Field.within [.counters, .calls, .links, .out] fl = true) : Moves fl r₀ (State.modCall s c f) :=
  hm.trans (Moves.mono (a := [.counters, .calls, .links, .out]) (by
  have h := Moves.refl [.counters, .calls, .links, .out] s
  unfold State.modCall
  repeat' first
    | with_reducible assumption
    | (show Field.within _ _ = true; decide)
    | with_reducible apply State.putCall_moves
    | split) hfl)

theorem State.acknowledge_moves {fl : List Field} {r₀ : State} {s : State} {p : Sys2Proof.Port} (hm : Moves fl r₀ s)
    (hfl : Field.within [.counters, .links, .out] fl = true) : Moves fl r₀ (State.acknowledge s p) :=
  hm.trans (Moves.mono (a := [.counters, .links, .out]) (by
  have h := Moves.refl [.counters, .links, .out] s
  unfold State.acknowledge
  repeat' first
    | with_reducible assumption
    | (show Field.within _ _ = true; decide)
    | with_reducible apply State.send_moves
    | split) hfl)

theorem State.replayFrom_moves {fl : List Field} {r₀ : State} {s : State} {p : Sys2Proof.Port} {n : BitVec 12} (hm : Moves fl r₀ s)
    (hfl : Field.within [.counters, .out] fl = true) : Moves fl r₀ (State.replayFrom s p n) :=
  hm.trans (Moves.mono (a := [.counters, .out]) (by
  have h := Moves.refl [.counters, .out] s
  unfold State.replayFrom
  repeat' first
    | (extract_lets +onlyGivenNames x; first | (refine Moves.cut (s := x) ?_ ?_; (on_goal 2 => intro hx; clear_value x); (on_goal 1 => subst x)) | subst x)
    | with_reducible assumption
    | (show Field.within _ _ = true; decide)
    | with_reducible apply State.count_moves
    | with_reducible apply State.emit_moves
    | with_reducible apply Moves.each
    | with_reducible apply Moves.ite
    | (intro _ _ _)
    | split) hfl)

theorem State.takeAck_moves {fl : List Field} {r₀ : State} {s : State} {hd : Sys2Proof.FlitHdr} (hm : Moves fl r₀ s)
    (hfl : Field.within [.counters, .links, .out] fl = true) : Moves fl r₀ (State.takeAck s hd) :=
  hm.trans (Moves.mono (a := [.counters, .links, .out]) (by
  have h := Moves.refl [.counters, .links, .out] s
  unfold State.takeAck
  repeat' first
    | (extract_lets +onlyGivenNames x; first | (refine Moves.cut (s := x) ?_ ?_; (on_goal 2 => intro hx; clear_value x); (on_goal 1 => subst x)) | subst x)
    | with_reducible assumption
    | (show Field.within _ _ = true; decide)
    | with_reducible apply State.pumpAll_moves
    | with_reducible apply State.modLink_moves
    | with_reducible apply Moves.ite
    | split) hfl)

theorem State.acceptFlit_moves {fl : List Field} {r₀ : State} {s : State} {hd : Sys2Proof.FlitHdr} (hm : Moves fl r₀ s)
    (hfl : Field.within [.counters, .links, .out] fl = true) : Moves fl r₀ (State.acceptFlit s hd) :=
  hm.trans (Moves.mono (a := [.counters, .links, .out]) (by
  have h := Moves.refl [.counters, .links, .out] s
  unfold State.acceptFlit
  repeat' first
    | (extract_lets +onlyGivenNames x; first | (refine Moves.cut (s := x) ?_ ?_; (on_goal 2 => intro hx; clear_value x); (on_goal 1 => subst x)) | subst x)
    | with_reducible assumption
    | (show Field.within _ _ = true; decide)
    | with_reducible apply State.modLink_moves
    | with_reducible apply State.takeAck_moves
    | with_reducible apply State.count_moves
    | split) hfl)

end Sys2Proof.Machine
end

