-- ==== Sys2Proof/Laws/CallOpsMoves.lean ====
section
/-! SUPPORT. What each operation of Machine/CallOps.lean may change, and that it keeps the canonical form. -/

set_option Elab.async false

namespace Sys2Proof.Machine

set_option linter.unusedTactic false
set_option linter.unreachableTactic false

theorem State.watchFrames_moves {fl : List Field} {r₀ : State} {s : State} {stack : ℕ} (hm : Moves fl r₀ s)
    (hfl : Field.within [.rings, .counters, .mem, .sec, .out] fl = true) : Moves fl r₀ (State.watchFrames s stack) :=
  hm.trans (Moves.mono (a := [.rings, .counters, .mem, .sec, .out]) (by
  have h := Moves.refl [.rings, .counters, .mem, .sec, .out] s
  unfold State.watchFrames
  repeat' first
    | with_reducible assumption
    | (show Field.within _ _ = true; decide)
    | with_reducible apply State.event_moves
    | with_reducible apply Moves.modMem
    | with_reducible apply Moves.ite
    | split
    | (intro w; first | with_reducible exact Mem.wf_runs w | exact w | exact Mem.wf_write w | exact Mem.wf_clear w | exact Mem.wf_foldl (fun _ _ h => Mem.wf_write h) _ w)) hfl)

theorem State.freeRun_moves {fl : List Field} {r₀ : State} {s : State} {stack : ℕ} {frame : ℕ} (hm : Moves fl r₀ s)
    (hfl : Field.within [.rings, .counters, .mem, .sec, .out] fl = true) : Moves fl r₀ (State.freeRun s stack frame) :=
  hm.trans (Moves.mono (a := [.rings, .counters, .mem, .sec, .out]) (by
  have h := Moves.refl [.rings, .counters, .mem, .sec, .out] s
  unfold State.freeRun
  repeat' first
    | with_reducible assumption
    | (show Field.within _ _ = true; decide)
    | with_reducible apply State.watchFrames_moves
    | with_reducible apply State.count_moves
    | with_reducible apply Moves.modMem
    | split
    | (intro w; first | with_reducible exact Mem.wf_runs w | exact w | exact Mem.wf_write w | exact Mem.wf_clear w | exact Mem.wf_foldl (fun _ _ h => Mem.wf_write h) _ w)) hfl)

theorem State.freePages_moves {fl : List Field} {r₀ : State} {s : State} {c : ℕ} (hm : Moves fl r₀ s)
    (hfl : Field.within [.rings, .counters, .mem, .sec, .out] fl = true) : Moves fl r₀ (State.freePages s c) :=
  hm.trans (Moves.mono (a := [.rings, .counters, .mem, .sec, .out]) (by
  have h := Moves.refl [.rings, .counters, .mem, .sec, .out] s
  unfold State.freePages
  repeat' first
    | with_reducible assumption
    | (show Field.within _ _ = true; decide)
    | with_reducible apply State.freeRun_moves
    | with_reducible apply Moves.each
    | (intro _ _ _)
    | split) hfl)

theorem State.freeGrafts_moves {fl : List Field} {r₀ : State} {s : State}  (hm : Moves fl r₀ s)
    (hfl : Field.within [.rings, .counters, .grafts, .out] fl = true) : Moves fl r₀ (State.freeGrafts s) :=
  hm.trans (Moves.mono (a := [.rings, .counters, .grafts, .out]) (by
  have h := Moves.refl [.rings, .counters, .grafts, .out] s
  unfold State.freeGrafts
  repeat' first
    | (extract_lets +onlyGivenNames x; first | (refine Moves.cut (s := x) ?_ ?_; (on_goal 2 => intro hx; clear_value x); (on_goal 1 => subst x)) | subst x)
    | with_reducible assumption
    | (show Field.within _ _ = true; decide)
    | with_reducible apply State.notice_moves
    | with_reducible apply Moves.each
    | (intro _ _ _)
    | split
    | (refine Moves.of_lit ?_ ?_ ?_)
    | (intro f hf; cases f <;> first | exact hf.elim (by decide) | rfl)
    | (exact fun c => ⟨c.parts, c.rings, c.counters, c.calls, c.customers, c.tiles, c.boughs, c.calSave, c.links, c.mem⟩)) hfl)

theorem State.unpinGraft_moves {fl : List Field} {r₀ : State} {s : State} {handle : ℕ} {gen : ℕ} (hm : Moves fl r₀ s)
    (hfl : Field.within [.rings, .counters, .grafts, .out] fl = true) : Moves fl r₀ (State.unpinGraft s handle gen) :=
  hm.trans (Moves.mono (a := [.rings, .counters, .grafts, .out]) (by
  have h := Moves.refl [.rings, .counters, .grafts, .out] s
  unfold State.unpinGraft
  repeat' first
    | with_reducible assumption
    | (show Field.within _ _ = true; decide)
    | with_reducible apply State.freeGrafts_moves
    | with_reducible apply Moves.ite
    | split
    | (refine Moves.of_lit ?_ ?_ ?_)
    | (intro f hf; cases f <;> first | exact hf.elim (by decide) | rfl)
    | (exact fun c => ⟨c.parts, c.rings, c.counters, c.calls, c.customers, c.tiles, c.boughs, c.calSave, c.links, c.mem⟩)) hfl)

theorem State.releaseHoldings_moves {fl : List Field} {r₀ : State} {s : State} {c : ℕ} (hm : Moves fl r₀ s)
    (hfl : Field.within [.parts, .rings, .counters, .grafts, .mem, .sec, .out] fl = true) : Moves fl r₀ (State.releaseHoldings s c) :=
  hm.trans (Moves.mono (a := [.parts, .rings, .counters, .grafts, .mem, .sec, .out]) (by
  have h := Moves.refl [.parts, .rings, .counters, .grafts, .mem, .sec, .out] s
  unfold State.releaseHoldings
  repeat' first
    | (extract_lets +onlyGivenNames x; first | (refine Moves.cut (s := x) ?_ ?_; (on_goal 2 => intro hx; clear_value x); (on_goal 1 => subst x)) | subst x)
    | with_reducible assumption
    | (show Field.within _ _ = true; decide)
    | with_reducible apply State.freePages_moves
    | with_reducible apply State.modPart_moves
    | with_reducible apply State.unpinGraft_moves
    | with_reducible apply Moves.ite
    | split) hfl)

theorem State.freeOld_moves {fl : List Field} {r₀ : State} {s : State}  (hm : Moves fl r₀ s)
    (hfl : Field.within [.rings, .counters, .mem, .sec, .out] fl = true) : Moves fl r₀ (State.freeOld s) :=
  hm.trans (Moves.mono (a := [.rings, .counters, .mem, .sec, .out]) (by
  have h := Moves.refl [.rings, .counters, .mem, .sec, .out] s
  unfold State.freeOld
  repeat' first
    | (extract_lets +onlyGivenNames x; first | (refine Moves.cut (s := x) ?_ ?_; (on_goal 2 => intro hx; clear_value x); (on_goal 1 => subst x)) | subst x)
    | with_reducible assumption
    | (show Field.within _ _ = true; decide)
    | with_reducible apply State.freeRun_moves
    | with_reducible apply Moves.each
    | with_reducible apply Moves.modMem
    | (intro _ _ _)
    | split
    | (intro w; first | with_reducible exact Mem.wf_runs w | exact w | exact Mem.wf_write w | exact Mem.wf_clear w | exact Mem.wf_foldl (fun _ _ h => Mem.wf_write h) _ w)) hfl)

theorem State.forget_moves {fl : List Field} {r₀ : State} {s : State} {mine : Sys2Proof.WorkRef → Bool} (hm : Moves fl r₀ s)
    (hfl : Field.within [.rings, .counters, .sums, .handoffs, .acts, .xferWaits, .canopy, .backs, .latches, .attnWaits, .servedKv, .servedAttn, .mem, .sec, .out] fl = true) : Moves fl r₀ (State.forget s mine) :=
  hm.trans (Moves.mono (a := [.rings, .counters, .sums, .handoffs, .acts, .xferWaits, .canopy, .backs, .latches, .attnWaits, .servedKv, .servedAttn, .mem, .sec, .out]) (by
  have h := Moves.refl [.rings, .counters, .sums, .handoffs, .acts, .xferWaits, .canopy, .backs, .latches, .attnWaits, .servedKv, .servedAttn, .mem, .sec, .out] s
  unfold State.forget
  repeat' first
    | with_reducible assumption
    | (show Field.within _ _ = true; decide)
    | with_reducible apply State.freeOld_moves
    | split
    | (refine Moves.of_lit ?_ ?_ ?_)
    | (intro f hf; cases f <;> first | exact hf.elim (by decide) | rfl)
    | (exact fun c => ⟨c.parts, c.rings, c.counters, c.calls, c.customers, c.tiles, c.boughs, c.calSave, c.links, c.mem⟩)) hfl)

theorem State.dropWork_moves {fl : List Field} {r₀ : State} {s : State} {c : ℕ} (hm : Moves fl r₀ s)
    (hfl : Field.within [.rings, .counters, .steps, .batch, .tiles, .boughs, .prods, .sums, .handoffs, .acts, .xferWaits, .canopy, .backs, .latches, .attnWaits, .servedKv, .servedAttn, .mem, .sec, .out] fl = true) : Moves fl r₀ (State.dropWork s c) :=
  hm.trans (Moves.mono (a := [.rings, .counters, .steps, .batch, .tiles, .boughs, .prods, .sums, .handoffs, .acts, .xferWaits, .canopy, .backs, .latches, .attnWaits, .servedKv, .servedAttn, .mem, .sec, .out]) (by
  have h := Moves.refl [.rings, .counters, .steps, .batch, .tiles, .boughs, .prods, .sums, .handoffs, .acts, .xferWaits, .canopy, .backs, .latches, .attnWaits, .servedKv, .servedAttn, .mem, .sec, .out] s
  unfold State.dropWork
  repeat' first
    | (extract_lets +onlyGivenNames x; first | (refine Moves.cut (s := x) ?_ ?_; (on_goal 2 => intro hx; clear_value x); (on_goal 1 => subst x)) | subst x)
    | with_reducible assumption
    | (show Field.within _ _ = true; decide)
    | with_reducible apply State.forget_moves
    | with_reducible apply Moves.ite
    | split
    | (refine Moves.of_lit ?_ ?_ ?_)
    | (intro f hf; cases f <;> first | exact hf.elim (by decide) | rfl)
    | (exact fun c => ⟨c.parts, c.rings, c.counters, c.calls, c.customers, by dsimp only; first | exact c.tiles | exact Tbl.wf_set c.tiles | exact Tbl.wf_update c.tiles | exact Tbl.wf_mapVals (Tbl.rising_of_wf c.tiles) | exact Tbl.wf_mapVals (Tbl.rising_map (fun p => by (try dsimp only); (repeat' split) <;> rfl) (Tbl.rising_of_wf c.tiles)) | (split <;> first | exact c.tiles | exact Tbl.wf_set c.tiles | exact Tbl.wf_mapVals (Tbl.rising_of_wf c.tiles)), by dsimp only; first | exact c.boughs | exact Tbl.wf_set c.boughs | exact Tbl.wf_update c.boughs | exact Tbl.wf_mapVals (Tbl.rising_of_wf c.boughs) | exact Tbl.wf_mapVals (Tbl.rising_map (fun p => by (try dsimp only); (repeat' split) <;> rfl) (Tbl.rising_of_wf c.boughs)) | (split <;> first | exact c.boughs | exact Tbl.wf_set c.boughs | exact Tbl.wf_mapVals (Tbl.rising_of_wf c.boughs)), c.calSave, c.links, c.mem⟩)) hfl)

theorem State.chargeQueued_moves {fl : List Field} {r₀ : State} {s : State} {c : ℕ} (hm : Moves fl r₀ s)
    (hfl : Field.within [.parts, .counters, .calls, .links, .out] fl = true) : Moves fl r₀ (State.chargeQueued s c) :=
  hm.trans (Moves.mono (a := [.parts, .counters, .calls, .links, .out]) (by
  have h := Moves.refl [.parts, .counters, .calls, .links, .out] s
  unfold State.chargeQueued
  repeat' first
    | (extract_lets +onlyGivenNames x; first | (refine Moves.cut (s := x) ?_ ?_; (on_goal 2 => intro hx; clear_value x); (on_goal 1 => subst x)) | subst x)
    | with_reducible assumption
    | (show Field.within _ _ = true; decide)
    | with_reducible apply State.putCall_moves
    | with_reducible apply State.modPart_moves
    | with_reducible apply Moves.ite
    | split) hfl)

theorem State.chargeAll_moves {fl : List Field} {r₀ : State} {s : State} {p : ℕ} {a : List ℕ} (hm : Moves fl r₀ s)
    (hfl : Field.within [.parts, .counters, .calls, .links, .out] fl = true) : Moves fl r₀ (State.chargeAll s p a) :=
  hm.trans (Moves.mono (a := [.parts, .counters, .calls, .links, .out]) (by
  clear hm hfl
  induction a generalizing s with
  | nil => exact Moves.refl _ _
  | cons _ _ ih =>
  have h := Moves.refl [.parts, .counters, .calls, .links, .out] s
  unfold State.chargeAll
  repeat' first
    | (extract_lets +onlyGivenNames x; first | (refine Moves.cut (s := x) ?_ ?_; (on_goal 2 => intro hx; clear_value x); (on_goal 1 => subst x)) | subst x)
    | (with_reducible apply Moves.trans _ (ih ..))
    | with_reducible assumption
    | (show Field.within _ _ = true; decide)
    | with_reducible apply State.chargeQueued_moves
    | with_reducible apply Moves.ite
    | split) hfl)

theorem State.chargeWaiting_moves {fl : List Field} {r₀ : State} {s : State} {p : ℕ} (hm : Moves fl r₀ s)
    (hfl : Field.within [.parts, .counters, .calls, .links, .out] fl = true) : Moves fl r₀ (State.chargeWaiting s p) :=
  hm.trans (Moves.mono (a := [.parts, .counters, .calls, .links, .out]) (by
  have h := Moves.refl [.parts, .counters, .calls, .links, .out] s
  unfold State.chargeWaiting
  repeat' first
    | with_reducible assumption
    | (show Field.within _ _ = true; decide)
    | with_reducible apply State.chargeAll_moves
    | split) hfl)

theorem State.afterFree_moves {fl : List Field} {r₀ : State} {s : State} {p : ℕ} (hm : Moves fl r₀ s)
    (hfl : Field.within [.parts, .counters, .calls, .links, .out] fl = true) : Moves fl r₀ (State.afterFree s p) :=
  hm.trans (Moves.mono (a := [.parts, .counters, .calls, .links, .out]) (by
  have h := Moves.refl [.parts, .counters, .calls, .links, .out] s
  unfold State.afterFree
  repeat' first
    | (extract_lets +onlyGivenNames x; first | (refine Moves.cut (s := x) ?_ ?_; (on_goal 2 => intro hx; clear_value x); (on_goal 1 => subst x)) | subst x)
    | with_reducible assumption
    | (show Field.within _ _ = true; decide)
    | with_reducible apply State.chargeWaiting_moves
    | with_reducible apply State.modPart_moves
    | with_reducible apply Moves.ite
    | split) hfl)

theorem State.releaseEntry_moves {fl : List Field} {r₀ : State} {s : State} {c : ℕ} (hm : Moves fl r₀ s)
    (hfl : Field.within [.parts, .rings, .counters, .calls, .steps, .batch, .grafts, .tiles, .boughs, .prods, .sums, .handoffs, .acts, .xferWaits, .canopy, .backs, .latches, .attnWaits, .servedKv, .servedAttn, .mem, .links, .sec, .out] fl = true) : Moves fl r₀ (State.releaseEntry s c) :=
  hm.trans (Moves.mono (a := [.parts, .rings, .counters, .calls, .steps, .batch, .grafts, .tiles, .boughs, .prods, .sums, .handoffs, .acts, .xferWaits, .canopy, .backs, .latches, .attnWaits, .servedKv, .servedAttn, .mem, .links, .sec, .out]) (by
  have h := Moves.refl [.parts, .rings, .counters, .calls, .steps, .batch, .grafts, .tiles, .boughs, .prods, .sums, .handoffs, .acts, .xferWaits, .canopy, .backs, .latches, .attnWaits, .servedKv, .servedAttn, .mem, .links, .sec, .out] s
  unfold State.releaseEntry
  repeat' first
    | (extract_lets +onlyGivenNames x; first | (refine Moves.cut (s := x) ?_ ?_; (on_goal 2 => intro hx; clear_value x); (on_goal 1 => subst x)) | subst x)
    | with_reducible assumption
    | (show Field.within _ _ = true; decide)
    | with_reducible apply State.releaseHoldings_moves
    | with_reducible apply State.dropWork_moves
    | with_reducible apply State.afterFree_moves
    | with_reducible apply Moves.ite
    | split
    | (refine Moves.of_lit ?_ ?_ ?_)
    | (intro f hf; cases f <;> first | exact hf.elim (by decide) | rfl)
    | (exact fun c => ⟨c.parts, c.rings, c.counters, by dsimp only; first | exact c.calls | exact Tbl.wf_set c.calls | exact Tbl.wf_update c.calls | exact Tbl.wf_mapVals (Tbl.rising_of_wf c.calls) | exact Tbl.wf_mapVals (Tbl.rising_map (fun p => by (try dsimp only); (repeat' split) <;> rfl) (Tbl.rising_of_wf c.calls)) | (split <;> first | exact c.calls | exact Tbl.wf_set c.calls | exact Tbl.wf_mapVals (Tbl.rising_of_wf c.calls)), c.customers, c.tiles, c.boughs, c.calSave, c.links, c.mem⟩)) hfl)

theorem State.countEnd_moves {fl : List Field} {r₀ : State} {s : State} {p : ℕ} {a : Status} (hm : Moves fl r₀ s)
    (hfl : Field.within [.counters] fl = true) : Moves fl r₀ (State.countEnd s p a) :=
  hm.trans (Moves.mono (a := [.counters]) (by
  have h := Moves.refl [.counters] s
  unfold State.countEnd
  repeat' first
    | with_reducible assumption
    | (show Field.within _ _ = true; decide)
    | with_reducible apply State.count_moves
    | split) hfl)

theorem State.tellChain_moves {fl : List Field} {r₀ : State} {s : State} {from_ : Option Sys2Proof.Port} {m : Sys2Proof.CallMsg} (hm : Moves fl r₀ s)
    (hfl : Field.within [.counters, .links, .out] fl = true) : Moves fl r₀ (State.tellChain s from_ m) :=
  hm.trans (Moves.mono (a := [.counters, .links, .out]) (by
  have h := Moves.refl [.counters, .links, .out] s
  unfold State.tellChain
  repeat' first
    | (extract_lets +onlyGivenNames x; first | (refine Moves.cut (s := x) ?_ ?_; (on_goal 2 => intro hx; clear_value x); (on_goal 1 => subst x)) | subst x)
    | with_reducible assumption
    | (show Field.within _ _ = true; decide)
    | with_reducible apply State.send_moves
    | with_reducible apply Moves.ite
    | split) hfl)

theorem State.freeWritten_moves {fl : List Field} {r₀ : State} {s : State}  (hm : Moves fl r₀ s)
    (hfl : Field.within [.parts, .rings, .counters, .calls, .grafts, .mem, .links, .sec, .out] fl = true) : Moves fl r₀ (State.freeWritten s) :=
  hm.trans (Moves.mono (a := [.parts, .rings, .counters, .calls, .grafts, .mem, .links, .sec, .out]) (by
  have h := Moves.refl [.parts, .rings, .counters, .calls, .grafts, .mem, .links, .sec, .out] s
  unfold State.freeWritten
  repeat' first
    | (extract_lets +onlyGivenNames x; first | (refine Moves.cut (s := x) ?_ ?_; (on_goal 2 => intro hx; clear_value x); (on_goal 1 => subst x)) | subst x)
    | with_reducible assumption
    | (show Field.within _ _ = true; decide)
    | with_reducible apply State.releaseHoldings_moves
    | with_reducible apply State.afterFree_moves
    | with_reducible apply Moves.each
    | (intro _ _ _)
    | split
    | (refine Moves.of_lit ?_ ?_ ?_)
    | (intro f hf; cases f <;> first | exact hf.elim (by decide) | rfl)
    | (exact fun c => ⟨c.parts, c.rings, c.counters, by dsimp only; first | exact c.calls | exact Tbl.wf_set c.calls | exact Tbl.wf_update c.calls | exact Tbl.wf_mapVals (Tbl.rising_of_wf c.calls) | exact Tbl.wf_mapVals (Tbl.rising_map (fun p => by (try dsimp only); (repeat' split) <;> rfl) (Tbl.rising_of_wf c.calls)) | (split <;> first | exact c.calls | exact Tbl.wf_set c.calls | exact Tbl.wf_mapVals (Tbl.rising_of_wf c.calls)), c.customers, c.tiles, c.boughs, c.calSave, c.links, c.mem⟩)) hfl)

theorem State.endCall_moves {fl : List Field} {r₀ : State} {s : State} {c : ℕ} {st : Status} {from_ : Option Sys2Proof.Port} (hm : Moves fl r₀ s)
    (hfl : Field.within [.parts, .rings, .counters, .jobs, .calls, .steps, .batch, .grafts, .tiles, .boughs, .prods, .sums, .handoffs, .acts, .xferWaits, .canopy, .backs, .latches, .attnWaits, .servedKv, .servedAttn, .mem, .links, .sec, .out] fl = true) : Moves fl r₀ (State.endCall s c st from_) :=
  hm.trans (Moves.mono (a := [.parts, .rings, .counters, .jobs, .calls, .steps, .batch, .grafts, .tiles, .boughs, .prods, .sums, .handoffs, .acts, .xferWaits, .canopy, .backs, .latches, .attnWaits, .servedKv, .servedAttn, .mem, .links, .sec, .out]) (by
  have h := Moves.refl [.parts, .rings, .counters, .jobs, .calls, .steps, .batch, .grafts, .tiles, .boughs, .prods, .sums, .handoffs, .acts, .xferWaits, .canopy, .backs, .latches, .attnWaits, .servedKv, .servedAttn, .mem, .links, .sec, .out] s
  unfold State.endCall
  repeat' first
    | (extract_lets +onlyGivenNames x; first | (refine Moves.cut (s := x) ?_ ?_; (on_goal 2 => intro hx; clear_value x); (on_goal 1 => subst x)) | subst x)
    | with_reducible assumption
    | (show Field.within _ _ = true; decide)
    | with_reducible apply State.journal_moves
    | with_reducible apply State.countEnd_moves
    | with_reducible apply State.dropWork_moves
    | with_reducible apply State.tellChain_moves
    | with_reducible apply State.completeWith_moves
    | with_reducible apply State.unpinGraft_moves
    | with_reducible apply State.freeWritten_moves
    | with_reducible apply State.afterFree_moves
    | with_reducible apply State.completeAll_moves
    | with_reducible apply Moves.ite
    | split
    | (refine Moves.of_lit ?_ ?_ ?_)
    | (intro f hf; cases f <;> first | exact hf.elim (by decide) | rfl)
    | (exact fun c => ⟨c.parts, c.rings, c.counters, by dsimp only; first | exact c.calls | exact Tbl.wf_set c.calls | exact Tbl.wf_update c.calls | exact Tbl.wf_mapVals (Tbl.rising_of_wf c.calls) | exact Tbl.wf_mapVals (Tbl.rising_map (fun p => by (try dsimp only); (repeat' split) <;> rfl) (Tbl.rising_of_wf c.calls)) | (split <;> first | exact c.calls | exact Tbl.wf_set c.calls | exact Tbl.wf_mapVals (Tbl.rising_of_wf c.calls)), c.customers, c.tiles, c.boughs, c.calSave, c.links, c.mem⟩)) hfl)

theorem State.unqueue_moves {fl : List Field} {r₀ : State} {s : State} {ids : List ℕ} (hm : Moves fl r₀ s)
    (hfl : Field.within [.tiles, .boughs] fl = true) : Moves fl r₀ (State.unqueue s ids) :=
  hm.trans (Moves.mono (a := [.tiles, .boughs]) (by
  have h := Moves.refl [.tiles, .boughs] s
  unfold State.unqueue
  repeat' first
    | with_reducible assumption
    | (show Field.within _ _ = true; decide)
    | with_reducible apply Moves.ite
    | split
    | (refine Moves.of_lit ?_ ?_ ?_)
    | (intro f hf; cases f <;> first | exact hf.elim (by decide) | rfl)
    | (exact fun c => ⟨c.parts, c.rings, c.counters, c.calls, c.customers, by dsimp only; first | exact c.tiles | exact Tbl.wf_set c.tiles | exact Tbl.wf_update c.tiles | exact Tbl.wf_mapVals (Tbl.rising_of_wf c.tiles) | exact Tbl.wf_mapVals (Tbl.rising_map (fun p => by (try dsimp only); (repeat' split) <;> rfl) (Tbl.rising_of_wf c.tiles)) | (split <;> first | exact c.tiles | exact Tbl.wf_set c.tiles | exact Tbl.wf_mapVals (Tbl.rising_of_wf c.tiles)), by dsimp only; first | exact c.boughs | exact Tbl.wf_set c.boughs | exact Tbl.wf_update c.boughs | exact Tbl.wf_mapVals (Tbl.rising_of_wf c.boughs) | exact Tbl.wf_mapVals (Tbl.rising_map (fun p => by (try dsimp only); (repeat' split) <;> rfl) (Tbl.rising_of_wf c.boughs)) | (split <;> first | exact c.boughs | exact Tbl.wf_set c.boughs | exact Tbl.wf_mapVals (Tbl.rising_of_wf c.boughs)), c.calSave, c.links, c.mem⟩)) hfl)

theorem State.pinGraft_moves {fl : List Field} {r₀ : State} {s : State} {handle : ℕ} {gen : ℕ} (hm : Moves fl r₀ s)
    (hfl : Field.within [.grafts] fl = true) : Moves fl r₀ (State.pinGraft s handle gen) :=
  hm.trans (Moves.mono (a := [.grafts]) (by
  have h := Moves.refl [.grafts] s
  unfold State.pinGraft
  repeat' first
    | with_reducible assumption
    | (show Field.within _ _ = true; decide)
    | with_reducible apply Moves.ite
    | split
    | (refine Moves.of_lit ?_ ?_ ?_)
    | (intro f hf; cases f <;> first | exact hf.elim (by decide) | rfl)
    | (exact fun c => ⟨c.parts, c.rings, c.counters, c.calls, c.customers, c.tiles, c.boughs, c.calSave, c.links, c.mem⟩)) hfl)

theorem State.parkReady_moves {fl : List Field} {r₀ : State} {s : State} {cust : ℕ} (hm : Moves fl r₀ s)
    (hfl : Field.within [.parts, .rings, .counters, .jobs, .calls, .steps, .batch, .grafts, .tiles, .boughs, .prods, .sums, .handoffs, .acts, .xferWaits, .canopy, .backs, .latches, .attnWaits, .servedKv, .servedAttn, .mem, .links, .sec, .out] fl = true) : Moves fl r₀ (State.parkReady s cust) :=
  hm.trans (Moves.mono (a := [.parts, .rings, .counters, .jobs, .calls, .steps, .batch, .grafts, .tiles, .boughs, .prods, .sums, .handoffs, .acts, .xferWaits, .canopy, .backs, .latches, .attnWaits, .servedKv, .servedAttn, .mem, .links, .sec, .out]) (by
  have h := Moves.refl [.parts, .rings, .counters, .jobs, .calls, .steps, .batch, .grafts, .tiles, .boughs, .prods, .sums, .handoffs, .acts, .xferWaits, .canopy, .backs, .latches, .attnWaits, .servedKv, .servedAttn, .mem, .links, .sec, .out] s
  unfold State.parkReady
  repeat' first
    | (extract_lets +onlyGivenNames x; first | (refine Moves.cut (s := x) ?_ ?_; (on_goal 2 => intro hx; clear_value x); (on_goal 1 => subst x)) | subst x)
    | with_reducible assumption
    | (show Field.within _ _ = true; decide)
    | with_reducible apply State.endCall_moves
    | with_reducible apply State.modCall_moves
    | with_reducible apply State.count_moves
    | with_reducible apply Moves.each
    | with_reducible apply Moves.ite
    | (intro _ _ _)
    | split) hfl)

theorem State.unpark_moves {fl : List Field} {r₀ : State} {s : State} {cust : ℕ} (hm : Moves fl r₀ s)
    (hfl : Field.within [.counters, .calls, .links, .out] fl = true) : Moves fl r₀ (State.unpark s cust) :=
  hm.trans (Moves.mono (a := [.counters, .calls, .links, .out]) (by
  have h := Moves.refl [.counters, .calls, .links, .out] s
  unfold State.unpark
  repeat' first
    | with_reducible assumption
    | (show Field.within _ _ = true; decide)
    | with_reducible apply State.modCall_moves
    | with_reducible apply Moves.each
    | with_reducible apply Moves.ite
    | (intro _ _ _)
    | split) hfl)

theorem State.refill_moves {fl : List Field} {r₀ : State} {s : State} {cust : ℕ} (hm : Moves fl r₀ s)
    (hfl : Field.within [.counters, .calls, .customers, .links, .out] fl = true) : Moves fl r₀ (State.refill s cust) :=
  hm.trans (Moves.mono (a := [.counters, .calls, .customers, .links, .out]) (by
  have h := Moves.refl [.counters, .calls, .customers, .links, .out] s
  unfold State.refill
  repeat' first
    | with_reducible assumption
    | (show Field.within _ _ = true; decide)
    | with_reducible apply State.unpark_moves
    | with_reducible apply State.modCustomer_moves
    | split) hfl)

theorem State.takeOrder_moves {fl : List Field} {r₀ : State} {s : State}  (hm : Moves fl r₀ s)
    (hfl : Field.within [.nextOrder] fl = true) : Moves fl r₀ (State.takeOrder s) :=
  hm.trans (Moves.mono (a := [.nextOrder]) (by
  have h := Moves.refl [.nextOrder] s
  unfold State.takeOrder
  repeat' first
    | with_reducible assumption
    | (show Field.within _ _ = true; decide)
    | split
    | (refine Moves.of_lit ?_ ?_ ?_)
    | (intro f hf; cases f <;> first | exact hf.elim (by decide) | rfl)
    | (exact fun c => ⟨c.parts, c.rings, c.counters, c.calls, c.customers, c.tiles, c.boughs, c.calSave, c.links, c.mem⟩)) hfl)

end Sys2Proof.Machine
end

