-- ==== Sys2Proof/Laws/FlagsMoves.lean ====
section
/-! SUPPORT. What each operation of Machine/Flags.lean may change, and that it keeps the canonical form. -/

set_option Elab.async false

namespace Sys2Proof.Machine

set_option linter.unusedTactic false
set_option linter.unreachableTactic false

theorem State.start_moves {fl : List Field} {r₀ : State} {s : State} {j : Job} (hm : Moves fl r₀ s)
    (hfl : Field.within [.jobs] fl = true) : Moves fl r₀ (State.start s j) :=
  hm.trans (Moves.mono (a := [.jobs]) (by
  have h := Moves.refl [.jobs] s
  unfold State.start
  repeat' first
    | with_reducible assumption
    | (show Field.within _ _ = true; decide)
    | split
    | (refine Moves.of_lit ?_ ?_ ?_)
    | (intro f hf; cases f <;> first | exact hf.elim (by decide) | rfl)
    | (exact fun c => ⟨c.parts, c.rings, c.counters, c.calls, c.customers, c.tiles, c.boughs, c.calSave, c.links, c.mem⟩)) hfl)

theorem State.noteStall_moves {fl : List Field} {r₀ : State} {s : State} {p : ℕ} (hm : Moves fl r₀ s)
    (hfl : Field.within [.parts, .counters] fl = true) : Moves fl r₀ (State.noteStall s p) :=
  hm.trans (Moves.mono (a := [.parts, .counters]) (by
  have h := Moves.refl [.parts, .counters] s
  unfold State.noteStall
  repeat' first
    | with_reducible assumption
    | (show Field.within _ _ = true; decide)
    | with_reducible apply State.modPart_moves
    | with_reducible apply State.count_moves
    | with_reducible apply Moves.ite
    | split) hfl)

theorem State.notePremiumStop_moves {fl : List Field} {r₀ : State} {s : State} {p : ℕ} {k : ℕ} (hm : Moves fl r₀ s)
    (hfl : Field.within [.parts, .counters] fl = true) : Moves fl r₀ (State.notePremiumStop s p k) :=
  hm.trans (Moves.mono (a := [.parts, .counters]) (by
  have h := Moves.refl [.parts, .counters] s
  unfold State.notePremiumStop
  repeat' first
    | with_reducible assumption
    | (show Field.within _ _ = true; decide)
    | with_reducible apply State.modPart_moves
    | with_reducible apply State.count_moves
    | with_reducible apply Moves.ite
    | split) hfl)

theorem State.answer_moves {fl : List Field} {r₀ : State} {s : State} {j : Job} {st : Status} (hm : Moves fl r₀ s)
    (hfl : Field.within [.rings, .counters, .jobs, .out] fl = true) : Moves fl r₀ (State.answer s j st) :=
  hm.trans (Moves.mono (a := [.rings, .counters, .jobs, .out]) (by
  have h := Moves.refl [.rings, .counters, .jobs, .out] s
  unfold State.answer
  repeat' first
    | with_reducible assumption
    | (show Field.within _ _ = true; decide)
    | with_reducible apply State.complete_moves
    | split) hfl)

theorem State.takeTurn_moves {fl : List Field} {r₀ : State} {s : State} {p : ℕ} {k : ℕ} (hm : Moves fl r₀ s)
    (hfl : Field.within [.parts] fl = true) : Moves fl r₀ (State.takeTurn s p k) :=
  hm.trans (Moves.mono (a := [.parts]) (by
  have h := Moves.refl [.parts] s
  unfold State.takeTurn
  repeat' first
    | with_reducible assumption
    | (show Field.within _ _ = true; decide)
    | with_reducible apply State.modPart_moves
    | with_reducible apply Moves.ite
    | split) hfl)

theorem State.advance_moves {fl : List Field} {r₀ : State} {s : State} {r : Sys2Proof.RingId} (hm : Moves fl r₀ s)
    (hfl : Field.within [.parts, .rings] fl = true) : Moves fl r₀ (State.advance s r) :=
  hm.trans (Moves.mono (a := [.parts, .rings]) (by
  have h := Moves.refl [.parts, .rings] s
  unfold State.advance
  repeat' first
    | (extract_lets +onlyGivenNames x; first | (refine Moves.cut (s := x) ?_ ?_; (on_goal 2 => intro hx; clear_value x); (on_goal 1 => subst x)) | subst x)
    | with_reducible assumption
    | (show Field.within _ _ = true; decide)
    | with_reducible apply State.modRing_moves
    | with_reducible apply State.takeTurn_moves
    | split) hfl)

end Sys2Proof.Machine
end

