-- ==== Sys2Proof/Laws/CallDescMoves.lean ====
section
/-! SUPPORT. What each operation of Machine/CallDesc.lean may change, and that it keeps the canonical form. -/

set_option Elab.async false

namespace Sys2Proof.Machine

set_option linter.unusedTactic false
set_option linter.unreachableTactic false

theorem cancelEffect_moves {fl : List Field} {r₀ : State} {s : State} {f : Sys2Proof.Fetch} {j : Job} (hm : Moves fl r₀ s)
    (hfl : Field.within [.parts, .rings, .counters, .jobs, .calls, .steps, .batch, .grafts, .tiles, .boughs, .prods, .sums, .handoffs, .acts, .xferWaits, .canopy, .backs, .latches, .attnWaits, .servedKv, .servedAttn, .mem, .links, .sec, .out] fl = true) : Moves fl r₀ (cancelEffect f j s) :=
  hm.trans (Moves.mono (a := [.parts, .rings, .counters, .jobs, .calls, .steps, .batch, .grafts, .tiles, .boughs, .prods, .sums, .handoffs, .acts, .xferWaits, .canopy, .backs, .latches, .attnWaits, .servedKv, .servedAttn, .mem, .links, .sec, .out]) (by
  have h := Moves.refl [.parts, .rings, .counters, .jobs, .calls, .steps, .batch, .grafts, .tiles, .boughs, .prods, .sums, .handoffs, .acts, .xferWaits, .canopy, .backs, .latches, .attnWaits, .servedKv, .servedAttn, .mem, .links, .sec, .out] s
  unfold cancelEffect
  repeat' first
    | (extract_lets +onlyGivenNames x; first | (refine Moves.cut (s := x) ?_ ?_; (on_goal 2 => intro hx; clear_value x); (on_goal 1 => subst x)) | subst x)
    | with_reducible assumption
    | (show Field.within _ _ = true; decide)
    | with_reducible apply State.complete_moves
    | with_reducible apply State.modCall_moves
    | with_reducible apply State.start_moves
    | with_reducible apply State.endCall_moves
    | with_reducible apply State.send_moves
    | with_reducible apply Moves.ite
    | split) hfl)

theorem releaseCallEffect_moves {fl : List Field} {r₀ : State} {s : State} {f : Sys2Proof.Fetch} {j : Job} (hm : Moves fl r₀ s)
    (hfl : Field.within [.parts, .rings, .counters, .jobs, .calls, .steps, .batch, .grafts, .tiles, .boughs, .prods, .sums, .handoffs, .acts, .xferWaits, .canopy, .backs, .latches, .attnWaits, .servedKv, .servedAttn, .mem, .links, .sec, .out] fl = true) : Moves fl r₀ (releaseCallEffect f j s) :=
  hm.trans (Moves.mono (a := [.parts, .rings, .counters, .jobs, .calls, .steps, .batch, .grafts, .tiles, .boughs, .prods, .sums, .handoffs, .acts, .xferWaits, .canopy, .backs, .latches, .attnWaits, .servedKv, .servedAttn, .mem, .links, .sec, .out]) (by
  have h := Moves.refl [.parts, .rings, .counters, .jobs, .calls, .steps, .batch, .grafts, .tiles, .boughs, .prods, .sums, .handoffs, .acts, .xferWaits, .canopy, .backs, .latches, .attnWaits, .servedKv, .servedAttn, .mem, .links, .sec, .out] s
  unfold releaseCallEffect
  repeat' first
    | (extract_lets +onlyGivenNames x; first | (refine Moves.cut (s := x) ?_ ?_; (on_goal 2 => intro hx; clear_value x); (on_goal 1 => subst x)) | subst x)
    | with_reducible assumption
    | (show Field.within _ _ = true; decide)
    | with_reducible apply State.complete_moves
    | with_reducible apply State.releaseEntry_moves
    | with_reducible apply State.tellChain_moves
    | split) hfl)

theorem matteLoadEffect_moves {fl : List Field} {r₀ : State} {s : State} {f : Sys2Proof.Fetch} {j : Job} (hm : Moves fl r₀ s)
    (hfl : Field.within [.rings, .counters, .jobs, .mattes, .out] fl = true) : Moves fl r₀ (matteLoadEffect f j s) :=
  hm.trans (Moves.mono (a := [.rings, .counters, .jobs, .mattes, .out]) (by
  have h := Moves.refl [.rings, .counters, .jobs, .mattes, .out] s
  unfold matteLoadEffect
  repeat' first
    | (extract_lets +onlyGivenNames x; first | (refine Moves.cut (s := x) ?_ ?_; (on_goal 2 => intro hx; clear_value x); (on_goal 1 => subst x)) | subst x)
    | with_reducible assumption
    | (show Field.within _ _ = true; decide)
    | with_reducible apply State.complete_moves
    | with_reducible apply Moves.ite
    | split
    | (refine Moves.of_lit ?_ ?_ ?_)
    | (intro f hf; cases f <;> first | exact hf.elim (by decide) | rfl)
    | (exact fun c => ⟨c.parts, c.rings, c.counters, c.calls, c.customers, c.tiles, c.boughs, c.calSave, c.links, c.mem⟩)) hfl)

theorem tuneCheck_moves {fl : List Field} {r₀ : State} {s : State} {c : ℕ} (hm : Moves fl r₀ s)
    (hfl : Field.within [.parts, .rings, .counters, .jobs, .calls, .steps, .batch, .grafts, .tiles, .boughs, .prods, .sums, .handoffs, .acts, .xferWaits, .canopy, .backs, .latches, .attnWaits, .servedKv, .servedAttn, .mem, .links, .sec, .out] fl = true) : Moves fl r₀ (tuneCheck s c) :=
  hm.trans (Moves.mono (a := [.parts, .rings, .counters, .jobs, .calls, .steps, .batch, .grafts, .tiles, .boughs, .prods, .sums, .handoffs, .acts, .xferWaits, .canopy, .backs, .latches, .attnWaits, .servedKv, .servedAttn, .mem, .links, .sec, .out]) (by
  have h := Moves.refl [.parts, .rings, .counters, .jobs, .calls, .steps, .batch, .grafts, .tiles, .boughs, .prods, .sums, .handoffs, .acts, .xferWaits, .canopy, .backs, .latches, .attnWaits, .servedKv, .servedAttn, .mem, .links, .sec, .out] s
  unfold tuneCheck
  repeat' first
    | with_reducible assumption
    | (show Field.within _ _ = true; decide)
    | with_reducible apply State.endCall_moves
    | with_reducible apply State.modCall_moves
    | with_reducible apply Moves.ite
    | split) hfl)

theorem budgetReadEffect_moves {fl : List Field} {r₀ : State} {s : State} {f : Sys2Proof.Fetch} {j : Job} (hm : Moves fl r₀ s)
    (hfl : Field.within [.rings, .counters, .jobs, .calls, .customers, .links, .out] fl = true) : Moves fl r₀ (budgetReadEffect f j s) :=
  hm.trans (Moves.mono (a := [.rings, .counters, .jobs, .calls, .customers, .links, .out]) (by
  have h := Moves.refl [.rings, .counters, .jobs, .calls, .customers, .links, .out] s
  unfold budgetReadEffect
  repeat' first
    | (extract_lets +onlyGivenNames x; first | (refine Moves.cut (s := x) ?_ ?_; (on_goal 2 => intro hx; clear_value x); (on_goal 1 => subst x)) | subst x)
    | with_reducible assumption
    | (show Field.within _ _ = true; decide)
    | with_reducible apply State.complete_moves
    | with_reducible apply State.refill_moves
    | with_reducible apply State.hostWrite_moves
    | with_reducible apply Moves.ite
    | split) hfl)

theorem graftRetireEffect_moves {fl : List Field} {r₀ : State} {s : State} {f : Sys2Proof.Fetch} {j : Job} (hm : Moves fl r₀ s)
    (hfl : Field.within [.rings, .counters, .jobs, .grafts, .out] fl = true) : Moves fl r₀ (graftRetireEffect f j s) :=
  hm.trans (Moves.mono (a := [.rings, .counters, .jobs, .grafts, .out]) (by
  have h := Moves.refl [.rings, .counters, .jobs, .grafts, .out] s
  unfold graftRetireEffect
  repeat' first
    | with_reducible assumption
    | (show Field.within _ _ = true; decide)
    | with_reducible apply State.complete_moves
    | with_reducible apply State.freeGrafts_moves
    | with_reducible apply Moves.ite
    | split
    | (refine Moves.of_lit ?_ ?_ ?_)
    | (intro f hf; cases f <;> first | exact hf.elim (by decide) | rfl)
    | (exact fun c => ⟨c.parts, c.rings, c.counters, c.calls, c.customers, c.tiles, c.boughs, c.calSave, c.links, c.mem⟩)) hfl)

theorem badOpcodeEffect_moves {fl : List Field} {r₀ : State} {s : State} {j : Job} (hm : Moves fl r₀ s)
    (hfl : Field.within [.rings, .counters, .jobs, .out] fl = true) : Moves fl r₀ (badOpcodeEffect j s) :=
  hm.trans (Moves.mono (a := [.rings, .counters, .jobs, .out]) (by
  have h := Moves.refl [.rings, .counters, .jobs, .out] s
  unfold badOpcodeEffect
  repeat' first
    | with_reducible assumption
    | (show Field.within _ _ = true; decide)
    | with_reducible apply State.complete_moves
    | split) hfl)

theorem tuneEffect_moves {fl : List Field} {r₀ : State} {s : State} {f : Sys2Proof.Fetch} {j : Job} (hm : Moves fl r₀ s)
    (hfl : Field.within [.parts, .rings, .counters, .jobs, .calls, .steps, .batch, .customers, .grafts, .tiles, .boughs, .prods, .nextOrder, .sums, .handoffs, .acts, .xferWaits, .canopy, .backs, .latches, .attnWaits, .servedKv, .servedAttn, .mem, .links, .sec, .out] fl = true) : Moves fl r₀ (tuneEffect f j s) :=
  hm.trans (Moves.mono (a := [.parts, .rings, .counters, .jobs, .calls, .steps, .batch, .customers, .grafts, .tiles, .boughs, .prods, .nextOrder, .sums, .handoffs, .acts, .xferWaits, .canopy, .backs, .latches, .attnWaits, .servedKv, .servedAttn, .mem, .links, .sec, .out]) (by
  have h := Moves.refl [.parts, .rings, .counters, .jobs, .calls, .steps, .batch, .customers, .grafts, .tiles, .boughs, .prods, .nextOrder, .sums, .handoffs, .acts, .xferWaits, .canopy, .backs, .latches, .attnWaits, .servedKv, .servedAttn, .mem, .links, .sec, .out] s
  unfold tuneEffect
  repeat' first
    | (extract_lets +onlyGivenNames x; first | (refine Moves.cut (s := x) ?_ ?_; (on_goal 2 => intro hx; clear_value x); (on_goal 1 => subst x)) | subst x)
    | with_reducible assumption
    | (show Field.within _ _ = true; decide)
    | with_reducible apply State.complete_moves
    | with_reducible apply State.putCall_moves
    | with_reducible apply State.pinGraft_moves
    | with_reducible apply State.takeOrder_moves
    | with_reducible apply State.start_moves
    | with_reducible apply State.refill_moves
    | with_reducible apply State.chargeWaiting_moves
    | with_reducible apply State.count_moves
    | with_reducible apply State.send_moves
    | with_reducible apply tuneCheck_moves
    | with_reducible apply Moves.ite
    | split) hfl)

theorem State.admitCall_moves {fl : List Field} {r₀ : State} {s : State} {p : ℕ} {f : Sys2Proof.Fetch} {j : Job} (hm : Moves fl r₀ s)
    (hfl : Field.within [.parts, .rings, .counters, .jobs, .calls, .steps, .batch, .customers, .grafts, .tiles, .boughs, .prods, .nextOrder, .sums, .handoffs, .acts, .xferWaits, .canopy, .backs, .latches, .attnWaits, .servedKv, .servedAttn, .mem, .links, .sec, .out] fl = true) : Moves fl r₀ (State.admitCall s p f j) :=
  hm.trans (Moves.mono (a := [.parts, .rings, .counters, .jobs, .calls, .steps, .batch, .customers, .grafts, .tiles, .boughs, .prods, .nextOrder, .sums, .handoffs, .acts, .xferWaits, .canopy, .backs, .latches, .attnWaits, .servedKv, .servedAttn, .mem, .links, .sec, .out]) (by
  have h := Moves.refl [.parts, .rings, .counters, .jobs, .calls, .steps, .batch, .customers, .grafts, .tiles, .boughs, .prods, .nextOrder, .sums, .handoffs, .acts, .xferWaits, .canopy, .backs, .latches, .attnWaits, .servedKv, .servedAttn, .mem, .links, .sec, .out] s
  unfold State.admitCall
  repeat' first
    | (extract_lets +onlyGivenNames x; first | (refine Moves.cut (s := x) ?_ ?_; (on_goal 2 => intro hx; clear_value x); (on_goal 1 => subst x)) | subst x)
    | with_reducible assumption
    | (show Field.within _ _ = true; decide)
    | with_reducible apply State.takeOrder_moves
    | with_reducible apply State.start_moves
    | with_reducible apply State.refill_moves
    | with_reducible apply State.pinGraft_moves
    | with_reducible apply State.putCall_moves
    | with_reducible apply State.journal_moves
    | with_reducible apply State.count_moves
    | with_reducible apply State.chargeWaiting_moves
    | with_reducible apply State.send_moves
    | with_reducible apply State.endCall_moves
    | with_reducible apply Moves.ite
    | split) hfl)

theorem admitEffect_moves {fl : List Field} {r₀ : State} {s : State} {f : Sys2Proof.Fetch} {j : Job} (hm : Moves fl r₀ s)
    (hfl : Field.within [.parts, .rings, .counters, .jobs, .calls, .steps, .batch, .customers, .grafts, .tiles, .boughs, .prods, .nextOrder, .sums, .handoffs, .acts, .xferWaits, .canopy, .backs, .latches, .attnWaits, .servedKv, .servedAttn, .mem, .links, .sec, .out] fl = true) : Moves fl r₀ (admitEffect f j s) :=
  hm.trans (Moves.mono (a := [.parts, .rings, .counters, .jobs, .calls, .steps, .batch, .customers, .grafts, .tiles, .boughs, .prods, .nextOrder, .sums, .handoffs, .acts, .xferWaits, .canopy, .backs, .latches, .attnWaits, .servedKv, .servedAttn, .mem, .links, .sec, .out]) (by
  have h := Moves.refl [.parts, .rings, .counters, .jobs, .calls, .steps, .batch, .customers, .grafts, .tiles, .boughs, .prods, .nextOrder, .sums, .handoffs, .acts, .xferWaits, .canopy, .backs, .latches, .attnWaits, .servedKv, .servedAttn, .mem, .links, .sec, .out] s
  unfold admitEffect
  repeat' first
    | with_reducible assumption
    | (show Field.within _ _ = true; decide)
    | with_reducible apply State.complete_moves
    | with_reducible apply State.admitCall_moves
    | split) hfl)

theorem budgetSetEffect_moves {fl : List Field} {r₀ : State} {s : State} {f : Sys2Proof.Fetch} {j : Job} (hm : Moves fl r₀ s)
    (hfl : Field.within [.parts, .rings, .counters, .jobs, .calls, .steps, .batch, .customers, .grafts, .tiles, .boughs, .prods, .sums, .handoffs, .acts, .xferWaits, .canopy, .backs, .latches, .attnWaits, .servedKv, .servedAttn, .mem, .links, .sec, .out] fl = true) : Moves fl r₀ (budgetSetEffect f j s) :=
  hm.trans (Moves.mono (a := [.parts, .rings, .counters, .jobs, .calls, .steps, .batch, .customers, .grafts, .tiles, .boughs, .prods, .sums, .handoffs, .acts, .xferWaits, .canopy, .backs, .latches, .attnWaits, .servedKv, .servedAttn, .mem, .links, .sec, .out]) (by
  have h := Moves.refl [.parts, .rings, .counters, .jobs, .calls, .steps, .batch, .customers, .grafts, .tiles, .boughs, .prods, .sums, .handoffs, .acts, .xferWaits, .canopy, .backs, .latches, .attnWaits, .servedKv, .servedAttn, .mem, .links, .sec, .out] s
  unfold budgetSetEffect
  repeat' first
    | (extract_lets +onlyGivenNames x; first | (refine Moves.cut (s := x) ?_ ?_; (on_goal 2 => intro hx; clear_value x); (on_goal 1 => subst x)) | subst x)
    | with_reducible assumption
    | (show Field.within _ _ = true; decide)
    | with_reducible apply State.complete_moves
    | with_reducible apply State.parkReady_moves
    | with_reducible apply State.unpark_moves
    | with_reducible apply State.modCustomer_moves
    | with_reducible apply Moves.ite
    | split) hfl)

theorem matteFreeEffect_moves {fl : List Field} {r₀ : State} {s : State} {f : Sys2Proof.Fetch} {j : Job} (hm : Moves fl r₀ s)
    (hfl : Field.within [.rings, .counters, .jobs, .mattes, .out] fl = true) : Moves fl r₀ (matteFreeEffect f j s) :=
  hm.trans (Moves.mono (a := [.rings, .counters, .jobs, .mattes, .out]) (by
  have h := Moves.refl [.rings, .counters, .jobs, .mattes, .out] s
  unfold matteFreeEffect
  repeat' first
    | with_reducible assumption
    | (show Field.within _ _ = true; decide)
    | with_reducible apply State.complete_moves
    | with_reducible apply Moves.ite
    | split
    | (refine Moves.of_lit ?_ ?_ ?_)
    | (intro f hf; cases f <;> first | exact hf.elim (by decide) | rfl)
    | (exact fun c => ⟨c.parts, c.rings, c.counters, c.calls, c.customers, c.tiles, c.boughs, c.calSave, c.links, c.mem⟩)) hfl)

theorem graftLoadEffect_moves {fl : List Field} {r₀ : State} {s : State} {f : Sys2Proof.Fetch} {j : Job} (hm : Moves fl r₀ s)
    (hfl : Field.within [.rings, .counters, .jobs, .sec, .out] fl = true) : Moves fl r₀ (graftLoadEffect f j s) :=
  hm.trans (Moves.mono (a := [.rings, .counters, .jobs, .sec, .out]) (by
  have h := Moves.refl [.rings, .counters, .jobs, .sec, .out] s
  unfold graftLoadEffect
  repeat' first
    | with_reducible assumption
    | (show Field.within _ _ = true; decide)
    | with_reducible apply State.complete_moves
    | with_reducible apply State.modSec_moves
    | with_reducible apply State.start_moves
    | with_reducible apply Moves.ite
    | split) hfl)

theorem nopEffect_moves {fl : List Field} {r₀ : State} {s : State} {j : Job} (hm : Moves fl r₀ s)
    (hfl : Field.within [.rings, .counters, .jobs, .out] fl = true) : Moves fl r₀ (nopEffect j s) :=
  hm.trans (Moves.mono (a := [.rings, .counters, .jobs, .out]) (by
  have h := Moves.refl [.rings, .counters, .jobs, .out] s
  unfold nopEffect
  repeat' first
    | with_reducible assumption
    | (show Field.within _ _ = true; decide)
    | with_reducible apply State.complete_moves
    | split) hfl)

theorem stepMaskEffect_moves {fl : List Field} {r₀ : State} {s : State} {f : Sys2Proof.Fetch} {j : Job} (hm : Moves fl r₀ s)
    (hfl : Field.within [.rings, .counters, .jobs, .calls, .steps, .links, .out] fl = true) : Moves fl r₀ (stepMaskEffect f j s) :=
  hm.trans (Moves.mono (a := [.rings, .counters, .jobs, .calls, .steps, .links, .out]) (by
  have h := Moves.refl [.rings, .counters, .jobs, .calls, .steps, .links, .out] s
  unfold stepMaskEffect
  repeat' first
    | (extract_lets +onlyGivenNames x; first | (refine Moves.cut (s := x) ?_ ?_; (on_goal 2 => intro hx; clear_value x); (on_goal 1 => subst x)) | subst x)
    | with_reducible assumption
    | (show Field.within _ _ = true; decide)
    | with_reducible apply State.complete_moves
    | with_reducible apply State.modCall_moves
    | with_reducible apply Moves.ite
    | split
    | (refine Moves.of_lit ?_ ?_ ?_)
    | (intro f hf; cases f <;> first | exact hf.elim (by decide) | rfl)
    | (exact fun c => ⟨c.parts, c.rings, c.counters, c.calls, c.customers, c.tiles, c.boughs, c.calSave, c.links, c.mem⟩)) hfl)

end Sys2Proof.Machine
end

