-- ==== Sys2Proof/Laws/WeightOpsMoves.lean ====
section
/-! SUPPORT. What each operation of Machine/WeightOps.lean may change, and that it keeps the canonical form. -/

set_option Elab.async false

namespace Sys2Proof.Machine

set_option linter.unusedTactic false
set_option linter.unreachableTactic false

theorem State.modGen_moves {fl : List Field} {r₀ : State} {s : State} {image : ℕ} {f : Gen → Gen} (hm : Moves fl r₀ s)
    (hfl : Field.within [.weights] fl = true) : Moves fl r₀ (State.modGen s image f) :=
  hm.trans (Moves.mono (a := [.weights]) (by
  have h := Moves.refl [.weights] s
  unfold State.modGen
  repeat' first
    | with_reducible assumption
    | (show Field.within _ _ = true; decide)
    | with_reducible apply State.modWeights_moves
    | with_reducible apply Moves.ite
    | split) hfl)

theorem State.tierEvent_moves {fl : List Field} {r₀ : State} {s : State} {enter : Bool} {m : ℕ} {image : ℕ} {takeId : ℕ} (hm : Moves fl r₀ s)
    (hfl : Field.within [.rings, .counters, .sec, .out] fl = true) : Moves fl r₀ (State.tierEvent s enter m image takeId) :=
  hm.trans (Moves.mono (a := [.rings, .counters, .sec, .out]) (by
  have h := Moves.refl [.rings, .counters, .sec, .out] s
  unfold State.tierEvent
  repeat' first
    | with_reducible assumption
    | (show Field.within _ _ = true; decide)
    | with_reducible apply State.event_moves
    | with_reducible apply Moves.ite
    | split) hfl)

theorem State.setBinding_moves {fl : List Field} {r₀ : State} {s : State} {m : ℕ} {b : Binding} (hm : Moves fl r₀ s)
    (hfl : Field.within [.weights] fl = true) : Moves fl r₀ (State.setBinding s m b) :=
  hm.trans (Moves.mono (a := [.weights]) (by
  have h := Moves.refl [.weights] s
  unfold State.setBinding
  repeat' first
    | with_reducible assumption
    | (show Field.within _ _ = true; decide)
    | with_reducible apply State.modWeights_moves
    | with_reducible apply Moves.ite
    | split) hfl)

theorem State.bindSlow_moves {fl : List Field} {r₀ : State} {s : State} {m : ℕ} (hm : Moves fl r₀ s)
    (hfl : Field.within [.rings, .counters, .weights, .sec, .out] fl = true) : Moves fl r₀ (State.bindSlow s m) :=
  hm.trans (Moves.mono (a := [.rings, .counters, .weights, .sec, .out]) (by
  have h := Moves.refl [.rings, .counters, .weights, .sec, .out] s
  unfold State.bindSlow
  repeat' first
    | with_reducible assumption
    | (show Field.within _ _ = true; decide)
    | with_reducible apply State.tierEvent_moves
    | with_reducible apply State.setBinding_moves
    | with_reducible apply Moves.ite
    | split) hfl)

theorem State.modSlot_moves {fl : List Field} {r₀ : State} {s : State} {k : SlotKey} {f : Slot → Slot} (hm : Moves fl r₀ s)
    (hfl : Field.within [.weights] fl = true) : Moves fl r₀ (State.modSlot s k f) :=
  hm.trans (Moves.mono (a := [.weights]) (by
  have h := Moves.refl [.weights] s
  unfold State.modSlot
  repeat' first
    | (extract_lets +onlyGivenNames x; first | (refine Moves.cut (s := x) ?_ ?_; (on_goal 2 => intro hx; clear_value x); (on_goal 1 => subst x)) | subst x)
    | with_reducible assumption
    | (show Field.within _ _ = true; decide)
    | with_reducible apply State.modWeights_moves
    | with_reducible apply Moves.ite
    | split) hfl)

theorem State.sigReject_moves {fl : List Field} {r₀ : State} {s : State} {kind : ℕ} {reason : ℕ} {subject : ℕ} (hm : Moves fl r₀ s)
    (hfl : Field.within [.rings, .counters, .sec, .out] fl = true) : Moves fl r₀ (State.sigReject s kind reason subject) :=
  hm.trans (Moves.mono (a := [.rings, .counters, .sec, .out]) (by
  have h := Moves.refl [.rings, .counters, .sec, .out] s
  unfold State.sigReject
  repeat' first
    | with_reducible assumption
    | (show Field.within _ _ = true; decide)
    | with_reducible apply State.event_moves
    | split) hfl)

theorem State.takeChunk_moves {fl : List Field} {r₀ : State} {s : State} {b : Sys2Proof.Bytes} (hm : Moves fl r₀ s)
    (hfl : Field.within [.counters, .weights, .links, .out] fl = true) : Moves fl r₀ (State.takeChunk s b).2 :=
  hm.trans (Moves.mono (a := [.counters, .weights, .links, .out]) (by
  have h := Moves.refl [.counters, .weights, .links, .out] s
  unfold State.takeChunk
  repeat' first
    | (extract_lets +onlyGivenNames x; first | (refine Moves.cut (s := x) ?_ ?_; (on_goal 2 => intro hx; clear_value x); (on_goal 1 => subst x)) | subst x)
    | with_reducible assumption
    | (show Field.within _ _ = true; decide)
    | with_reducible apply State.count_moves
    | with_reducible apply State.modGen_moves
    | with_reducible apply State.modWeights_moves
    | with_reducible apply State.send_moves
    | with_reducible apply Moves.ite
    | split) hfl)

theorem State.convertChunk_moves {fl : List Field} {r₀ : State} {s : State} {k : ChunkJob} (hm : Moves fl r₀ s)
    (hfl : Field.within [.weights] fl = true) : Moves fl r₀ (State.convertChunk s k) :=
  hm.trans (Moves.mono (a := [.weights]) (by
  have h := Moves.refl [.weights] s
  unfold State.convertChunk
  repeat' first
    | (extract_lets +onlyGivenNames x; first | (refine Moves.cut (s := x) ?_ ?_; (on_goal 2 => intro hx; clear_value x); (on_goal 1 => subst x)) | subst x)
    | with_reducible assumption
    | (show Field.within _ _ = true; decide)
    | with_reducible apply State.modWeights_moves
    | with_reducible apply State.modSlot_moves
    | with_reducible apply Moves.each
    | with_reducible apply Moves.foldl
    | with_reducible apply Moves.foldl_fst
    | with_reducible apply Moves.ite
    | (intro _ _ _)
    | split) hfl)

end Sys2Proof.Machine
end

