-- ==== Sys2Proof/Laws/FaultOpsMoves.lean ====
section
/-! SUPPORT. What each operation of Machine/FaultOps.lean may change, and that it keeps the canonical form. -/

set_option Elab.async false

namespace Sys2Proof.Machine

set_option linter.unusedTactic false
set_option linter.unreachableTactic false

theorem State.fault_moves {fl : List Field} {r₀ : State} {s : State} {u : UnitField} {i : FaultInfo} (hm : Moves fl r₀ s)
    (hfl : Field.within [.rings, .counters, .faults, .sec, .out] fl = true) : Moves fl r₀ (State.fault s u i) :=
  hm.trans (Moves.mono (a := [.rings, .counters, .faults, .sec, .out]) (by
  have h := Moves.refl [.rings, .counters, .faults, .sec, .out] s
  unfold State.fault
  repeat' first
    | (extract_lets +onlyGivenNames x; first | (refine Moves.cut (s := x) ?_ ?_; (on_goal 2 => intro hx; clear_value x); (on_goal 1 => subst x)) | subst x)
    | with_reducible assumption
    | (show Field.within _ _ = true; decide)
    | with_reducible apply State.event_moves
    | with_reducible apply State.modFaults_moves
    | with_reducible apply Moves.ite
    | split) hfl)

theorem State.modDaily_moves {fl : List Field} {r₀ : State} {s : State} {f : Daily → Daily} (hm : Moves fl r₀ s)
    (hfl : Field.within [.faults] fl = true) : Moves fl r₀ (State.modDaily s f) :=
  hm.trans (Moves.mono (a := [.faults]) (by
  have h := Moves.refl [.faults] s
  unfold State.modDaily
  repeat' first
    | with_reducible assumption
    | (show Field.within _ _ = true; decide)
    | with_reducible apply State.modFaults_moves
    | split) hfl)

theorem State.releaseOutput_moves {fl : List Field} {r₀ : State} {s : State} {c : ℕ} {n : ℕ} (hm : Moves fl r₀ s)
    (hfl : Field.within [.counters, .links, .out] fl = true) : Moves fl r₀ (State.releaseOutput s c n) :=
  hm.trans (Moves.mono (a := [.counters, .links, .out]) (by
  have h := Moves.refl [.counters, .links, .out] s
  unfold State.releaseOutput
  repeat' first
    | (extract_lets +onlyGivenNames x; first | (refine Moves.cut (s := x) ?_ ?_; (on_goal 2 => intro hx; clear_value x); (on_goal 1 => subst x)) | subst x)
    | with_reducible assumption
    | (show Field.within _ _ = true; decide)
    | with_reducible apply State.send_moves
    | with_reducible apply Moves.each
    | with_reducible apply Moves.ite
    | (intro _ _ _)
    | split) hfl)

theorem State.unboundStep_moves {fl : List Field} {r₀ : State} {s : State} {w : Sys2Proof.WorkRef} (hm : Moves fl r₀ s)
    (hfl : Field.within [.steps] fl = true) : Moves fl r₀ (State.unboundStep s w) :=
  hm.trans (Moves.mono (a := [.steps]) (by
  have h := Moves.refl [.steps] s
  unfold State.unboundStep
  repeat' first
    | with_reducible assumption
    | (show Field.within _ _ = true; decide)
    | with_reducible apply State.modStep_moves
    | split) hfl)

theorem State.settleLocal_moves {fl : List Field} {r₀ : State} {s : State} {c : ℕ} {n : ℕ} (hm : Moves fl r₀ s)
    (hfl : Field.within [.rings, .counters, .steps, .links, .faults, .sec, .out] fl = true) : Moves fl r₀ (State.settleLocal s c n) :=
  hm.trans (Moves.mono (a := [.rings, .counters, .steps, .links, .faults, .sec, .out]) (by
  have h := Moves.refl [.rings, .counters, .steps, .links, .faults, .sec, .out] s
  unfold State.settleLocal
  repeat' first
    | (extract_lets +onlyGivenNames x; first | (refine Moves.cut (s := x) ?_ ?_; (on_goal 2 => intro hx; clear_value x); (on_goal 1 => subst x)) | subst x)
    | with_reducible assumption
    | (show Field.within _ _ = true; decide)
    | with_reducible apply State.releaseOutput_moves
    | with_reducible apply State.modStep_moves
    | with_reducible apply State.modDaily_moves
    | with_reducible apply State.count_moves
    | with_reducible apply State.fault_moves
    | split) hfl)

theorem State.suspectStep_moves {fl : List Field} {r₀ : State} {s : State} {c : ℕ} {n : ℕ} (hm : Moves fl r₀ s)
    (hfl : Field.within [.rings, .counters, .steps, .links, .faults, .sec, .out] fl = true) : Moves fl r₀ (State.suspectStep s c n) :=
  hm.trans (Moves.mono (a := [.rings, .counters, .steps, .links, .faults, .sec, .out]) (by
  have h := Moves.refl [.rings, .counters, .steps, .links, .faults, .sec, .out] s
  unfold State.suspectStep
  repeat' first
    | (extract_lets +onlyGivenNames x; first | (refine Moves.cut (s := x) ?_ ?_; (on_goal 2 => intro hx; clear_value x); (on_goal 1 => subst x)) | subst x)
    | with_reducible assumption
    | (show Field.within _ _ = true; decide)
    | with_reducible apply State.count_moves
    | with_reducible apply State.modStep_moves
    | with_reducible apply State.modDaily_moves
    | with_reducible apply State.send_moves
    | with_reducible apply State.settleLocal_moves
    | with_reducible apply Moves.ite
    | split) hfl)

theorem State.suspectProd_moves {fl : List Field} {r₀ : State} {s : State} {id : ℕ} (hm : Moves fl r₀ s)
    (hfl : Field.within [.rings, .counters, .steps, .prods, .links, .faults, .sec, .out] fl = true) : Moves fl r₀ (State.suspectProd s id) :=
  hm.trans (Moves.mono (a := [.rings, .counters, .steps, .prods, .links, .faults, .sec, .out]) (by
  have h := Moves.refl [.rings, .counters, .steps, .prods, .links, .faults, .sec, .out] s
  unfold State.suspectProd
  repeat' first
    | (extract_lets +onlyGivenNames x; first | (refine Moves.cut (s := x) ?_ ?_; (on_goal 2 => intro hx; clear_value x); (on_goal 1 => subst x)) | subst x)
    | with_reducible assumption
    | (show Field.within _ _ = true; decide)
    | with_reducible apply State.count_moves
    | with_reducible apply State.modProd_moves
    | with_reducible apply State.suspectStep_moves
    | with_reducible apply State.unboundStep_moves
    | with_reducible apply Moves.ite
    | split) hfl)

end Sys2Proof.Machine
end

