-- ==== Sys2Proof/Laws/TileOpsMoves.lean ====
section
/-! SUPPORT. What each operation of Machine/TileOps.lean may change, and that it keeps the canonical form. -/

set_option Elab.async false

namespace Sys2Proof.Machine

set_option linter.unusedTactic false
set_option linter.unreachableTactic false

theorem State.emptyDeck_moves {fl : List Field} {r₀ : State} {s : State} {t : ℕ} {d : ℕ} (hm : Moves fl r₀ s)
    (hfl : Field.within [.rings, .counters, .tiles, .weights, .sec, .out] fl = true) : Moves fl r₀ (State.emptyDeck s t d) :=
  hm.trans (Moves.mono (a := [.rings, .counters, .tiles, .weights, .sec, .out]) (by
  have h := Moves.refl [.rings, .counters, .tiles, .weights, .sec, .out] s
  unfold State.emptyDeck
  repeat' first
    | (extract_lets +onlyGivenNames x; first | (refine Moves.cut (s := x) ?_ ?_; (on_goal 2 => intro hx; clear_value x); (on_goal 1 => subst x)) | subst x)
    | with_reducible assumption
    | (show Field.within _ _ = true; decide)
    | with_reducible apply State.modWeights_moves
    | with_reducible apply State.event_moves
    | with_reducible apply State.modDeck_moves
    | with_reducible apply Moves.ite
    | split) hfl)

theorem State.writeClapper_moves {fl : List Field} {r₀ : State} {s : State} {t : ℕ} {d : ℕ} (hm : Moves fl r₀ s)
    (hfl : Field.within [.weights] fl = true) : Moves fl r₀ (State.writeClapper s t d) :=
  hm.trans (Moves.mono (a := [.weights]) (by
  have h := Moves.refl [.weights] s
  unfold State.writeClapper
  repeat' first
    | (extract_lets +onlyGivenNames x; first | (refine Moves.cut (s := x) ?_ ?_; (on_goal 2 => intro hx; clear_value x); (on_goal 1 => subst x)) | subst x)
    | with_reducible assumption
    | (show Field.within _ _ = true; decide)
    | with_reducible apply State.modSlot_moves
    | with_reducible apply Moves.ite
    | split) hfl)

theorem State.addTake_moves {fl : List Field} {r₀ : State} {s : State} {t : Take} (hm : Moves fl r₀ s)
    (hfl : Field.within [.weights] fl = true) : Moves fl r₀ (State.addTake s t) :=
  hm.trans (Moves.mono (a := [.weights]) (by
  have h := Moves.refl [.weights] s
  unfold State.addTake
  repeat' first
    | with_reducible assumption
    | (show Field.within _ _ = true; decide)
    | with_reducible apply State.modWeights_moves
    | split) hfl)

theorem State.firmwareTake_moves {fl : List Field} {r₀ : State} {s : State} {image : ℕ} {mats : List ℕ} {drift : Option (ℕ × ℕ)} {inPlace : Bool} {targets : List (ℕ × ℕ × ℕ × ℕ × ℕ)} (hm : Moves fl r₀ s)
    (hfl : Field.within [.weights] fl = true) : Moves fl r₀ (State.firmwareTake s image mats drift inPlace targets) :=
  hm.trans (Moves.mono (a := [.weights]) (by
  have h := Moves.refl [.weights] s
  unfold State.firmwareTake
  repeat' first
    | with_reducible assumption
    | (show Field.within _ _ = true; decide)
    | with_reducible apply State.addTake_moves
    | split) hfl)

theorem State.refuseProgram_moves {fl : List Field} {r₀ : State} {s : State} {t : ℕ} {d : ℕ} (hm : Moves fl r₀ s)
    (hfl : Field.within [.rings, .counters, .tiles, .sec, .out] fl = true) : Moves fl r₀ (State.refuseProgram s t d) :=
  hm.trans (Moves.mono (a := [.rings, .counters, .tiles, .sec, .out]) (by
  have h := Moves.refl [.rings, .counters, .tiles, .sec, .out] s
  unfold State.refuseProgram
  repeat' first
    | (extract_lets +onlyGivenNames x; first | (refine Moves.cut (s := x) ?_ ?_; (on_goal 2 => intro hx; clear_value x); (on_goal 1 => subst x)) | subst x)
    | with_reducible assumption
    | (show Field.within _ _ = true; decide)
    | with_reducible apply State.event_moves
    | with_reducible apply State.modDeck_moves
    | with_reducible apply Moves.ite
    | split) hfl)

theorem State.dropRefused_moves {fl : List Field} {r₀ : State} {s : State} {t : ℕ} {a : ℕ} (hm : Moves fl r₀ s)
    (hfl : Field.within [.rings, .counters, .tiles, .sec, .out] fl = true) : Moves fl r₀ (State.dropRefused s t a) :=
  hm.trans (Moves.mono (a := [.rings, .counters, .tiles, .sec, .out]) (by
  clear hm hfl
  induction a generalizing s with
  | zero => exact Moves.refl _ _
  | succ _ ih =>
  have h := Moves.refl [.rings, .counters, .tiles, .sec, .out] s
  unfold State.dropRefused
  repeat' first
    | with_reducible assumption
    | (with_reducible apply Moves.trans _ (ih ..))
    | (show Field.within _ _ = true; decide)
    | with_reducible apply State.refuseProgram_moves
    | with_reducible apply State.modTile_moves
    | with_reducible apply Moves.ite
    | split) hfl)

theorem State.wakeBough_moves {fl : List Field} {r₀ : State} {s : State} {b : ℕ} {id : ℕ} (hm : Moves fl r₀ s)
    (hfl : Field.within [.counters, .boughs] fl = true) : Moves fl r₀ (State.wakeBough s b id) :=
  hm.trans (Moves.mono (a := [.counters, .boughs]) (by
  have h := Moves.refl [.counters, .boughs] s
  unfold State.wakeBough
  repeat' first
    | (extract_lets +onlyGivenNames x; first | (refine Moves.cut (s := x) ?_ ?_; (on_goal 2 => intro hx; clear_value x); (on_goal 1 => subst x)) | subst x)
    | with_reducible assumption
    | (show Field.within _ _ = true; decide)
    | with_reducible apply State.count_moves
    | with_reducible apply State.modBough_moves
    | with_reducible apply Moves.ite
    | split) hfl)

theorem State.withhold_moves {fl : List Field} {r₀ : State} {s : State} {k : ℕ} (hm : Moves fl r₀ s)
    (hfl : Field.within [.faults] fl = true) : Moves fl r₀ (State.withhold s k) :=
  hm.trans (Moves.mono (a := [.faults]) (by
  have h := Moves.refl [.faults] s
  unfold State.withhold
  repeat' first
    | with_reducible assumption
    | (show Field.within _ _ = true; decide)
    | with_reducible apply State.modFaults_moves
    | split) hfl)

theorem State.countBlocked_moves {fl : List Field} {r₀ : State} {s : State} {t : ℕ} (hm : Moves fl r₀ s)
    (hfl : Field.within [.counters] fl = true) : Moves fl r₀ (State.countBlocked s t) :=
  hm.trans (Moves.mono (a := [.counters]) (by
  have h := Moves.refl [.counters] s
  unfold State.countBlocked
  repeat' first
    | with_reducible assumption
    | (show Field.within _ _ = true; decide)
    | with_reducible apply State.count_moves
    | split) hfl)

theorem State.setRemap_moves {fl : List Field} {r₀ : State} {s : State} {t : ℕ} {d : ℕ} {k : ℕ} {r : Remap} (hm : Moves fl r₀ s)
    (hfl : Field.within [.rings, .counters, .tiles, .sec, .out] fl = true) : Moves fl r₀ (State.setRemap s t d k r) :=
  hm.trans (Moves.mono (a := [.rings, .counters, .tiles, .sec, .out]) (by
  have h := Moves.refl [.rings, .counters, .tiles, .sec, .out] s
  unfold State.setRemap
  repeat' first
    | (extract_lets +onlyGivenNames x; first | (refine Moves.cut (s := x) ?_ ?_; (on_goal 2 => intro hx; clear_value x); (on_goal 1 => subst x)) | subst x)
    | with_reducible assumption
    | (show Field.within _ _ = true; decide)
    | with_reducible apply State.event_moves
    | with_reducible apply State.modTile_moves
    | with_reducible apply Moves.ite
    | split) hfl)

theorem State.beginRun_moves {fl : List Field} {r₀ : State} {s : State} {t : ℕ} {j : ProgJob} (hm : Moves fl r₀ s)
    (hfl : Field.within [.rings, .counters, .tiles, .boughs, .sec, .out] fl = true) : Moves fl r₀ (State.beginRun s t j) :=
  hm.trans (Moves.mono (a := [.rings, .counters, .tiles, .boughs, .sec, .out]) (by
  have h := Moves.refl [.rings, .counters, .tiles, .boughs, .sec, .out] s
  unfold State.beginRun
  repeat' first
    | (extract_lets +onlyGivenNames x; first | (refine Moves.cut (s := x) ?_ ?_; (on_goal 2 => intro hx; clear_value x); (on_goal 1 => subst x)) | subst x)
    | with_reducible assumption
    | (show Field.within _ _ = true; decide)
    | with_reducible apply State.modDeck_moves
    | with_reducible apply State.modBough_moves
    | with_reducible apply State.setRemap_moves
    | with_reducible apply State.event_moves
    | with_reducible apply Moves.each
    | with_reducible apply Moves.ite
    | (intro _ _ _)
    | split) hfl)

theorem State.chargeBy_moves {fl : List Field} {r₀ : State} {s : State} {n : ℕ} {kind : ℕ} {b : Option ℕ} (hm : Moves fl r₀ s)
    (hfl : Field.within [.boughs, .power] fl = true) : Moves fl r₀ (State.chargeBy s n kind b) :=
  hm.trans (Moves.mono (a := [.boughs, .power]) (by
  have h := Moves.refl [.boughs, .power] s
  unfold State.chargeBy
  repeat' first
    | (extract_lets +onlyGivenNames x; first | (refine Moves.cut (s := x) ?_ ?_; (on_goal 2 => intro hx; clear_value x); (on_goal 1 => subst x)) | subst x)
    | with_reducible assumption
    | (show Field.within _ _ = true; decide)
    | with_reducible apply State.modPower_moves
    | with_reducible apply State.modBough_moves
    | with_reducible apply Moves.ite
    | split) hfl)

theorem State.charge_moves {fl : List Field} {r₀ : State} {s : State} {kind : ℕ} {b : Option ℕ} (hm : Moves fl r₀ s)
    (hfl : Field.within [.boughs, .power] fl = true) : Moves fl r₀ (State.charge s kind b) :=
  hm.trans (Moves.mono (a := [.boughs, .power]) (by
  have h := Moves.refl [.boughs, .power] s
  unfold State.charge
  repeat' first
    | with_reducible assumption
    | (show Field.within _ _ = true; decide)
    | with_reducible apply State.chargeBy_moves
    | split) hfl)

theorem State.startProg_moves {fl : List Field} {r₀ : State} {s : State} {t : ℕ} (hm : Moves fl r₀ s)
    (hfl : Field.within [.rings, .counters, .tiles, .boughs, .faults, .power, .sec, .out] fl = true) : Moves fl r₀ (State.startProg s t) :=
  hm.trans (Moves.mono (a := [.rings, .counters, .tiles, .boughs, .faults, .power, .sec, .out]) (by
  have h := Moves.refl [.rings, .counters, .tiles, .boughs, .faults, .power, .sec, .out] s
  unfold State.startProg
  repeat' first
    | (extract_lets +onlyGivenNames x; first | (refine Moves.cut (s := x) ?_ ?_; (on_goal 2 => intro hx; clear_value x); (on_goal 1 => subst x)) | subst x)
    | with_reducible assumption
    | (show Field.within _ _ = true; decide)
    | with_reducible apply State.wakeBough_moves
    | with_reducible apply State.count_moves
    | with_reducible apply State.withhold_moves
    | with_reducible apply State.countBlocked_moves
    | with_reducible apply State.beginRun_moves
    | with_reducible apply State.modTile_moves
    | with_reducible apply State.charge_moves
    | with_reducible apply Moves.ite
    | split) hfl)

theorem State.noteConflicts_moves {fl : List Field} {r₀ : State} {s : State} {t : ℕ} {d : ℕ} (hm : Moves fl r₀ s)
    (hfl : Field.within [.counters, .prods] fl = true) : Moves fl r₀ (State.noteConflicts s t d) :=
  hm.trans (Moves.mono (a := [.counters, .prods]) (by
  have h := Moves.refl [.counters, .prods] s
  unfold State.noteConflicts
  repeat' first
    | (extract_lets +onlyGivenNames x; first | (refine Moves.cut (s := x) ?_ ?_; (on_goal 2 => intro hx; clear_value x); (on_goal 1 => subst x)) | subst x)
    | with_reducible assumption
    | (show Field.within _ _ = true; decide)
    | with_reducible apply State.count_moves
    | with_reducible apply Moves.ite
    | split
    | (refine Moves.of_lit ?_ ?_ ?_)
    | (intro f hf; cases f <;> first | exact hf.elim (by decide) | rfl)
    | (exact fun c => ⟨c.parts, c.rings, c.counters, c.calls, c.customers, c.tiles, c.boughs, c.calSave, c.links, c.mem⟩)) hfl)

theorem State.boundConditions_moves {fl : List Field} {r₀ : State} {s : State} {p : Prod} (hm : Moves fl r₀ s)
    (hfl : Field.within [.rings, .counters, .steps, .prods, .links, .faults, .sec, .out] fl = true) : Moves fl r₀ (State.boundConditions s p) :=
  hm.trans (Moves.mono (a := [.rings, .counters, .steps, .prods, .links, .faults, .sec, .out]) (by
  have h := Moves.refl [.rings, .counters, .steps, .prods, .links, .faults, .sec, .out] s
  unfold State.boundConditions
  repeat' first
    | (extract_lets +onlyGivenNames x; first | (refine Moves.cut (s := x) ?_ ?_; (on_goal 2 => intro hx; clear_value x); (on_goal 1 => subst x)) | subst x)
    | with_reducible assumption
    | (show Field.within _ _ = true; decide)
    | with_reducible apply State.count_moves
    | with_reducible apply State.unboundStep_moves
    | with_reducible apply State.modProd_moves
    | with_reducible apply State.fault_moves
    | with_reducible apply State.suspectProd_moves
    | with_reducible apply Moves.ite
    | split) hfl)

theorem State.firstPhase_moves {fl : List Field} {r₀ : State} {s : State} {p : Prod} (hm : Moves fl r₀ s)
    (hfl : Field.within [.rings, .counters, .steps, .tiles, .prods, .links, .faults, .sec, .out] fl = true) : Moves fl r₀ (State.firstPhase s p) :=
  hm.trans (Moves.mono (a := [.rings, .counters, .steps, .tiles, .prods, .links, .faults, .sec, .out]) (by
  have h := Moves.refl [.rings, .counters, .steps, .tiles, .prods, .links, .faults, .sec, .out] s
  unfold State.firstPhase
  repeat' first
    | (extract_lets +onlyGivenNames x; first | (refine Moves.cut (s := x) ?_ ?_; (on_goal 2 => intro hx; clear_value x); (on_goal 1 => subst x)) | subst x)
    | with_reducible assumption
    | (show Field.within _ _ = true; decide)
    | with_reducible apply State.modProd_moves
    | with_reducible apply State.modTile_moves
    | with_reducible apply State.boundConditions_moves
    | with_reducible apply Moves.ite
    | split) hfl)

theorem State.startPhase_moves {fl : List Field} {r₀ : State} {s : State} {t : ℕ} {p : Prod} (hm : Moves fl r₀ s)
    (hfl : Field.within [.rings, .counters, .steps, .tiles, .boughs, .prods, .links, .faults, .power, .sec, .out] fl = true) : Moves fl r₀ (State.startPhase s t p) :=
  hm.trans (Moves.mono (a := [.rings, .counters, .steps, .tiles, .boughs, .prods, .links, .faults, .power, .sec, .out]) (by
  have h := Moves.refl [.rings, .counters, .steps, .tiles, .boughs, .prods, .links, .faults, .power, .sec, .out] s
  unfold State.startPhase
  repeat' first
    | (extract_lets +onlyGivenNames x; first | (refine Moves.cut (s := x) ?_ ?_; (on_goal 2 => intro hx; clear_value x); (on_goal 1 => subst x)) | subst x)
    | with_reducible assumption
    | (show Field.within _ _ = true; decide)
    | with_reducible apply State.wakeBough_moves
    | with_reducible apply State.count_moves
    | with_reducible apply State.withhold_moves
    | with_reducible apply State.noteConflicts_moves
    | with_reducible apply State.firstPhase_moves
    | with_reducible apply State.modBough_moves
    | with_reducible apply State.charge_moves
    | with_reducible apply State.modTile_moves
    | with_reducible apply Moves.ite
    | split) hfl)

theorem State.tileNext_moves {fl : List Field} {r₀ : State} {s : State} {t : ℕ} (hm : Moves fl r₀ s)
    (hfl : Field.within [.rings, .counters, .steps, .tiles, .boughs, .prods, .links, .faults, .power, .sec, .out] fl = true) : Moves fl r₀ (State.tileNext s t) :=
  hm.trans (Moves.mono (a := [.rings, .counters, .steps, .tiles, .boughs, .prods, .links, .faults, .power, .sec, .out]) (by
  have h := Moves.refl [.rings, .counters, .steps, .tiles, .boughs, .prods, .links, .faults, .power, .sec, .out] s
  unfold State.tileNext
  repeat' first
    | (extract_lets +onlyGivenNames x; first | (refine Moves.cut (s := x) ?_ ?_; (on_goal 2 => intro hx; clear_value x); (on_goal 1 => subst x)) | subst x)
    | with_reducible assumption
    | (show Field.within _ _ = true; decide)
    | with_reducible apply State.dropRefused_moves
    | with_reducible apply State.startProg_moves
    | with_reducible apply State.startPhase_moves
    | with_reducible apply Moves.ite
    | split) hfl)

theorem State.requestProgram_moves {fl : List Field} {r₀ : State} {s : State} {t : ℕ} {j : ProgJob} (hm : Moves fl r₀ s)
    (hfl : Field.within [.rings, .counters, .steps, .tiles, .boughs, .prods, .nextOrder, .links, .faults, .power, .sec, .out] fl = true) : Moves fl r₀ (State.requestProgram s t j) :=
  hm.trans (Moves.mono (a := [.rings, .counters, .steps, .tiles, .boughs, .prods, .nextOrder, .links, .faults, .power, .sec, .out]) (by
  have h := Moves.refl [.rings, .counters, .steps, .tiles, .boughs, .prods, .nextOrder, .links, .faults, .power, .sec, .out] s
  unfold State.requestProgram
  repeat' first
    | (extract_lets +onlyGivenNames x; first | (refine Moves.cut (s := x) ?_ ?_; (on_goal 2 => intro hx; clear_value x); (on_goal 1 => subst x)) | subst x)
    | with_reducible assumption
    | (show Field.within _ _ = true; decide)
    | with_reducible apply State.refuseProgram_moves
    | with_reducible apply State.tileNext_moves
    | with_reducible apply State.modTile_moves
    | with_reducible apply Moves.ite
    | split
    | (refine Moves.of_lit ?_ ?_ ?_)
    | (intro f hf; cases f <;> first | exact hf.elim (by decide) | rfl)
    | (exact fun c => ⟨c.parts, c.rings, c.counters, c.calls, c.customers, c.tiles, c.boughs, c.calSave, c.links, c.mem⟩)) hfl)

theorem State.progFail_moves {fl : List Field} {r₀ : State} {s : State} {t : ℕ} {j : ProgJob} (hm : Moves fl r₀ s)
    (hfl : Field.within [.rings, .counters, .sec, .out] fl = true) : Moves fl r₀ (State.progFail s t j) :=
  hm.trans (Moves.mono (a := [.rings, .counters, .sec, .out]) (by
  have h := Moves.refl [.rings, .counters, .sec, .out] s
  unfold State.progFail
  repeat' first
    | with_reducible assumption
    | (show Field.within _ _ = true; decide)
    | with_reducible apply State.event_moves
    | split) hfl)

theorem State.slowProds_moves {fl : List Field} {r₀ : State} {s : State} {hit : Prod → Bool} (hm : Moves fl r₀ s)
    (hfl : Field.within [.counters, .steps, .tiles, .boughs, .prods] fl = true) : Moves fl r₀ (State.slowProds s hit) :=
  hm.trans (Moves.mono (a := [.counters, .steps, .tiles, .boughs, .prods]) (by
  have h := Moves.refl [.counters, .steps, .tiles, .boughs, .prods] s
  unfold State.slowProds
  repeat' first
    | (extract_lets +onlyGivenNames x; first | (refine Moves.cut (s := x) ?_ ?_; (on_goal 2 => intro hx; clear_value x); (on_goal 1 => subst x)) | subst x)
    | with_reducible assumption
    | (show Field.within _ _ = true; decide)
    | with_reducible apply State.modStep_moves
    | with_reducible apply State.count_moves
    | with_reducible apply Moves.each
    | with_reducible apply Moves.ite
    | (intro _ _ _)
    | split
    | (refine Moves.of_lit ?_ ?_ ?_)
    | (intro f hf; cases f <;> first | exact hf.elim (by decide) | rfl)
    | (exact fun c => ⟨c.parts, c.rings, c.counters, c.calls, c.customers, by dsimp only; first | exact c.tiles | exact Tbl.wf_set c.tiles | exact Tbl.wf_update c.tiles | exact Tbl.wf_mapVals (Tbl.rising_of_wf c.tiles) | exact Tbl.wf_mapVals (Tbl.rising_map (fun p => by (try dsimp only); (repeat' split) <;> rfl) (Tbl.rising_of_wf c.tiles)) | (split <;> first | exact c.tiles | exact Tbl.wf_set c.tiles | exact Tbl.wf_mapVals (Tbl.rising_of_wf c.tiles)), by dsimp only; first | exact c.boughs | exact Tbl.wf_set c.boughs | exact Tbl.wf_update c.boughs | exact Tbl.wf_mapVals (Tbl.rising_of_wf c.boughs) | exact Tbl.wf_mapVals (Tbl.rising_map (fun p => by (try dsimp only); (repeat' split) <;> rfl) (Tbl.rising_of_wf c.boughs)) | (split <;> first | exact c.boughs | exact Tbl.wf_set c.boughs | exact Tbl.wf_mapVals (Tbl.rising_of_wf c.boughs)), c.calSave, c.links, c.mem⟩)) hfl)

theorem State.enterDrifted_moves {fl : List Field} {r₀ : State} {s : State} {t : ℕ} {d : ℕ} (hm : Moves fl r₀ s)
    (hfl : Field.within [.rings, .counters, .steps, .tiles, .boughs, .prods, .weights, .sec, .out] fl = true) : Moves fl r₀ (State.enterDrifted s t d) :=
  hm.trans (Moves.mono (a := [.rings, .counters, .steps, .tiles, .boughs, .prods, .weights, .sec, .out]) (by
  have h := Moves.refl [.rings, .counters, .steps, .tiles, .boughs, .prods, .weights, .sec, .out] s
  unfold State.enterDrifted
  repeat' first
    | (extract_lets +onlyGivenNames x; first | (refine Moves.cut (s := x) ?_ ?_; (on_goal 2 => intro hx; clear_value x); (on_goal 1 => subst x)) | subst x)
    | with_reducible assumption
    | (show Field.within _ _ = true; decide)
    | with_reducible apply State.slowProds_moves
    | with_reducible apply State.event_moves
    | with_reducible apply State.modDeck_moves
    | with_reducible apply State.modWeights_moves
    | with_reducible apply Moves.ite
    | split) hfl)

theorem State.driftTargets_moves {fl : List Field} {r₀ : State} {s : State} {b : ℕ} (hm : Moves fl r₀ s)
    (hfl : Field.within [.tiles] fl = true) : Moves fl r₀ (State.driftTargets s b) :=
  hm.trans (Moves.mono (a := [.tiles]) (by
  have h := Moves.refl [.tiles] s
  unfold State.driftTargets
  repeat' first
    | (extract_lets +onlyGivenNames x; first | (refine Moves.cut (s := x) ?_ ?_; (on_goal 2 => intro hx; clear_value x); (on_goal 1 => subst x)) | subst x)
    | with_reducible assumption
    | (show Field.within _ _ = true; decide)
    | with_reducible apply Moves.ite
    | split
    | (refine Moves.of_lit ?_ ?_ ?_)
    | (intro f hf; cases f <;> first | exact hf.elim (by decide) | rfl)
    | (exact fun c => ⟨c.parts, c.rings, c.counters, c.calls, c.customers, by dsimp only; first | exact c.tiles | exact Tbl.wf_set c.tiles | exact Tbl.wf_update c.tiles | exact Tbl.wf_mapVals (Tbl.rising_of_wf c.tiles) | exact Tbl.wf_mapVals (Tbl.rising_map (fun p => by (try dsimp only); (repeat' split) <;> rfl) (Tbl.rising_of_wf c.tiles)) | (split <;> first | exact c.tiles | exact Tbl.wf_set c.tiles | exact Tbl.wf_mapVals (Tbl.rising_of_wf c.tiles)), c.boughs, c.calSave, c.links, c.mem⟩)) hfl)

theorem State.retireTile_moves {fl : List Field} {r₀ : State} {s : State} {t : ℕ} {cause : ℕ} (hm : Moves fl r₀ s)
    (hfl : Field.within [.rings, .counters, .steps, .tiles, .boughs, .prods, .weights, .sec, .out] fl = true) : Moves fl r₀ (State.retireTile s t cause) :=
  hm.trans (Moves.mono (a := [.rings, .counters, .steps, .tiles, .boughs, .prods, .weights, .sec, .out]) (by
  have h := Moves.refl [.rings, .counters, .steps, .tiles, .boughs, .prods, .weights, .sec, .out] s
  unfold State.retireTile
  repeat' first
    | (extract_lets +onlyGivenNames x; first | (refine Moves.cut (s := x) ?_ ?_; (on_goal 2 => intro hx; clear_value x); (on_goal 1 => subst x)) | subst x)
    | with_reducible assumption
    | (show Field.within _ _ = true; decide)
    | with_reducible apply State.modTile_moves
    | with_reducible apply State.modWeights_moves
    | with_reducible apply State.event_moves
    | with_reducible apply State.progFail_moves
    | with_reducible apply State.slowProds_moves
    | with_reducible apply State.bindSlow_moves
    | with_reducible apply Moves.each
    | with_reducible apply Moves.foldl
    | with_reducible apply Moves.foldl_fst
    | with_reducible apply Moves.ite
    | (intro _ _ _)
    | split) hfl)

theorem State.suspendColumn_moves {fl : List Field} {r₀ : State} {s : State} {t : ℕ} {d : ℕ} {col : ℕ} (hm : Moves fl r₀ s)
    (hfl : Field.within [.rings, .counters, .steps, .tiles, .boughs, .prods, .weights, .sec, .out] fl = true) : Moves fl r₀ (State.suspendColumn s t d col) :=
  hm.trans (Moves.mono (a := [.rings, .counters, .steps, .tiles, .boughs, .prods, .weights, .sec, .out]) (by
  have h := Moves.refl [.rings, .counters, .steps, .tiles, .boughs, .prods, .weights, .sec, .out] s
  unfold State.suspendColumn
  repeat' first
    | (extract_lets +onlyGivenNames x; first | (refine Moves.cut (s := x) ?_ ?_; (on_goal 2 => intro hx; clear_value x); (on_goal 1 => subst x)) | subst x)
    | with_reducible assumption
    | (show Field.within _ _ = true; decide)
    | with_reducible apply State.firmwareTake_moves
    | with_reducible apply State.bindSlow_moves
    | with_reducible apply State.retireTile_moves
    | with_reducible apply State.setRemap_moves
    | with_reducible apply Moves.ite
    | split) hfl)

theorem State.countClips_moves {fl : List Field} {r₀ : State} {s : State} {t : ℕ} {codes : List ℤ} (hm : Moves fl r₀ s)
    (hfl : Field.within [.counters] fl = true) : Moves fl r₀ (State.countClips s t codes) :=
  hm.trans (Moves.mono (a := [.counters]) (by
  have h := Moves.refl [.counters] s
  unfold State.countClips
  repeat' first
    | with_reducible assumption
    | (show Field.within _ _ = true; decide)
    | with_reducible apply State.count_moves
    | split) hfl)

theorem State.tilesNext_moves {fl : List Field} {r₀ : State} {s : State} {ok : ℕ → Bool} (hm : Moves fl r₀ s)
    (hfl : Field.within [.rings, .counters, .steps, .tiles, .boughs, .prods, .links, .faults, .power, .sec, .out] fl = true) : Moves fl r₀ (State.tilesNext s ok) :=
  hm.trans (Moves.mono (a := [.rings, .counters, .steps, .tiles, .boughs, .prods, .links, .faults, .power, .sec, .out]) (by
  have h := Moves.refl [.rings, .counters, .steps, .tiles, .boughs, .prods, .links, .faults, .power, .sec, .out] s
  unfold State.tilesNext
  repeat' first
    | with_reducible assumption
    | (show Field.within _ _ = true; decide)
    | with_reducible apply State.tileNext_moves
    | with_reducible apply Moves.each
    | (intro _ _ _)
    | split) hfl)

end Sys2Proof.Machine
end

