-- ==== Sys2Proof/Laws/TakeOpsMoves.lean ====
section
/-! SUPPORT. What each operation of Machine/TakeOps.lean may change, and that it keeps the canonical form. -/

set_option Elab.async false

namespace Sys2Proof.Machine

set_option linter.unusedTactic false
set_option linter.unreachableTactic false

theorem State.nextCut_reach {r₀ : State} {cs : List (Job × ℕ)} : ∀ {s : State}, Moves [.rings, .counters, .jobs, .weights, .out] r₀ s →
    Moves [.rings, .counters, .jobs, .weights, .out] r₀ (State.nextCut cs s) := by
  induction cs with
  | nil => exact fun hm => State.modWeights_moves hm (by decide)
  | cons c rest ih =>
    intro s hm
    obtain ⟨j, image⟩ := c
    unfold State.nextCut
    split
    · exact State.modWeights_moves hm (by decide)
    · exact ih (State.complete_moves hm (by decide))

theorem State.nextCut_moves {fl : List Field} {r₀ : State} {s : State} {cs : List (Job × ℕ)} (hm : Moves fl r₀ s)
    (hfl : Field.within [.rings, .counters, .jobs, .weights, .out] fl = true) : Moves fl r₀ (State.nextCut cs s) :=
  hm.trans (Moves.mono (State.nextCut_reach (Moves.refl _ s)) hfl)

theorem State.cutSwitched_moves {fl : List Field} {r₀ : State} {s : State}  (hm : Moves fl r₀ s)
    (hfl : Field.within [.rings, .counters, .jobs, .weights, .out] fl = true) : Moves fl r₀ (State.cutSwitched s) :=
  hm.trans (Moves.mono (a := [.rings, .counters, .jobs, .weights, .out]) (by
  have h := Moves.refl [.rings, .counters, .jobs, .weights, .out] s
  unfold State.cutSwitched
  repeat' first
    | (extract_lets +onlyGivenNames x; first | (refine Moves.cut (s := x) ?_ ?_; (on_goal 2 => intro hx; clear_value x); (on_goal 1 => subst x)) | subst x)
    | with_reducible assumption
    | (show Field.within _ _ = true; decide)
    | with_reducible apply State.nextCut_moves
    | with_reducible apply State.complete_moves
    | with_reducible apply State.modWeights_moves
    | with_reducible apply Moves.ite
    | split) hfl)

theorem State.noteReport_moves {fl : List Field} {r₀ : State} {s : State} {m : Sys2Proof.CutMsg} (hm : Moves fl r₀ s)
    (hfl : Field.within [.rings, .counters, .jobs, .weights, .out] fl = true) : Moves fl r₀ (State.noteReport s m) :=
  hm.trans (Moves.mono (a := [.rings, .counters, .jobs, .weights, .out]) (by
  have h := Moves.refl [.rings, .counters, .jobs, .weights, .out] s
  unfold State.noteReport
  repeat' first
    | (extract_lets +onlyGivenNames x; first | (refine Moves.cut (s := x) ?_ ?_; (on_goal 2 => intro hx; clear_value x); (on_goal 1 => subst x)) | subst x)
    | with_reducible assumption
    | (show Field.within _ _ = true; decide)
    | with_reducible apply State.modWeights_moves
    | with_reducible apply State.cutSwitched_moves
    | with_reducible apply State.nextCut_moves
    | with_reducible apply State.complete_moves
    | with_reducible apply Moves.ite
    | split) hfl)

theorem State.report_moves {fl : List Field} {r₀ : State} {s : State} {m : Sys2Proof.CutMsg} (hm : Moves fl r₀ s)
    (hfl : Field.within [.rings, .counters, .jobs, .weights, .links, .out] fl = true) : Moves fl r₀ (State.report s m) :=
  hm.trans (Moves.mono (a := [.rings, .counters, .jobs, .weights, .links, .out]) (by
  have h := Moves.refl [.rings, .counters, .jobs, .weights, .links, .out] s
  unfold State.report
  repeat' first
    | with_reducible assumption
    | (show Field.within _ _ = true; decide)
    | with_reducible apply State.noteReport_moves
    | with_reducible apply State.send_moves
    | with_reducible apply Moves.ite
    | split) hfl)

theorem State.armIdle_moves {fl : List Field} {r₀ : State} {s : State}  (hm : Moves fl r₀ s)
    (hfl : Field.within [.rings, .counters, .jobs, .weights, .links, .out] fl = true) : Moves fl r₀ (State.armIdle s) :=
  hm.trans (Moves.mono (a := [.rings, .counters, .jobs, .weights, .links, .out]) (by
  have h := Moves.refl [.rings, .counters, .jobs, .weights, .links, .out] s
  unfold State.armIdle
  repeat' first
    | with_reducible assumption
    | (show Field.within _ _ = true; decide)
    | with_reducible apply State.report_moves
    | with_reducible apply State.modGen_moves
    | with_reducible apply Moves.each
    | (intro _ _ _)
    | split) hfl)

theorem State.applySlow_moves {fl : List Field} {r₀ : State} {s : State}  (hm : Moves fl r₀ s)
    (hfl : Field.within [.rings, .counters, .tiles, .weights, .sec, .out] fl = true) : Moves fl r₀ (State.applySlow s) :=
  hm.trans (Moves.mono (a := [.rings, .counters, .tiles, .weights, .sec, .out]) (by
  have h := Moves.refl [.rings, .counters, .tiles, .weights, .sec, .out] s
  unfold State.applySlow
  repeat' first
    | (extract_lets +onlyGivenNames x; first | (refine Moves.cut (s := x) ?_ ?_; (on_goal 2 => intro hx; clear_value x); (on_goal 1 => subst x)) | subst x)
    | with_reducible assumption
    | (show Field.within _ _ = true; decide)
    | with_reducible apply State.modWeights_moves
    | with_reducible apply State.bindSlow_moves
    | with_reducible apply State.emptyDeck_moves
    | with_reducible apply Moves.each
    | with_reducible apply Moves.ite
    | (intro _ _ _)
    | split) hfl)

theorem State.applyMats_moves {fl : List Field} {r₀ : State} {s : State}  (hm : Moves fl r₀ s)
    (hfl : Field.within [.weights] fl = true) : Moves fl r₀ (State.applyMats s) :=
  hm.trans (Moves.mono (a := [.weights]) (by
  have h := Moves.refl [.weights] s
  unfold State.applyMats
  repeat' first
    | (extract_lets +onlyGivenNames x; first | (refine Moves.cut (s := x) ?_ ?_; (on_goal 2 => intro hx; clear_value x); (on_goal 1 => subst x)) | subst x)
    | with_reducible assumption
    | (show Field.within _ _ = true; decide)
    | with_reducible apply State.modGen_moves
    | with_reducible apply Moves.each
    | with_reducible apply Moves.ite
    | (intro _ _ _)
    | split) hfl)

theorem State.rebindMatrix_moves {fl : List Field} {r₀ : State} {s : State} {g : Gen} {p : Placement} {m : Mat} (hm : Moves fl r₀ s)
    (hfl : Field.within [.rings, .counters, .tiles, .weights, .sec, .out] fl = true) : Moves fl r₀ (State.rebindMatrix s g p m).1 :=
  hm.trans (Moves.mono (a := [.rings, .counters, .tiles, .weights, .sec, .out]) (by
  have h := Moves.refl [.rings, .counters, .tiles, .weights, .sec, .out] s
  unfold State.rebindMatrix
  repeat' first
    | (extract_lets +onlyGivenNames x; first | (refine Moves.cut (s := x) ?_ ?_; (on_goal 2 => intro hx; clear_value x); (on_goal 1 => subst x)) | subst x)
    | with_reducible assumption
    | (show Field.within _ _ = true; decide)
    | with_reducible apply State.setBinding_moves
    | with_reducible apply State.modDeck_moves
    | with_reducible apply State.count_moves
    | with_reducible apply State.emptyDeck_moves
    | with_reducible apply State.tierEvent_moves
    | with_reducible apply State.writeClapper_moves
    | with_reducible apply Moves.each
    | with_reducible apply Moves.ite
    | (intro _ _ _)
    | split) hfl)

theorem State.tryLive_moves {fl : List Field} {r₀ : State} {s : State}  (hm : Moves fl r₀ s)
    (hfl : Field.within [.regs, .rings, .counters, .tiles, .weights, .sec, .out] fl = true) : Moves fl r₀ (State.tryLive s) :=
  hm.trans (Moves.mono (a := [.regs, .rings, .counters, .tiles, .weights, .sec, .out]) (by
  have h := Moves.refl [.regs, .rings, .counters, .tiles, .weights, .sec, .out] s
  unfold State.tryLive
  repeat' first
    | (extract_lets +onlyGivenNames x; first | (refine Moves.cut (s := x) ?_ ?_; (on_goal 2 => intro hx; clear_value x); (on_goal 1 => subst x)) | subst x)
    | with_reducible assumption
    | (show Field.within _ _ = true; decide)
    | with_reducible apply State.modGen_moves
    | with_reducible apply State.rebindMatrix_moves
    | with_reducible apply State.firmwareTake_moves
    | with_reducible apply State.setReady_moves
    | with_reducible apply Moves.foldl
    | with_reducible apply Moves.foldl_fst
    | with_reducible apply Moves.ite
    | (intro _ _ _)
    | split) hfl)

theorem State.onTake_moves {fl : List Field} {r₀ : State} {s : State} {id : ℕ} {f : Take → State → State} (hm : Moves fl r₀ s)
    (hc : ∀ t x, Moves fl r₀ x → Moves fl r₀ (f t x)) : Moves fl r₀ (State.onTake s id f) := by
  unfold State.onTake
  split
  · exact hc _ _ hm
  · exact hm

theorem State.modTake_moves {fl : List Field} {r₀ : State} {s : State} {id : ℕ} {f : Take → Take} (hm : Moves fl r₀ s)
    (hfl : Field.within [.weights] fl = true) : Moves fl r₀ (State.modTake s id f) :=
  hm.trans (Moves.mono (a := [.weights]) (by
  have h := Moves.refl [.weights] s
  unfold State.modTake
  repeat' first
    | with_reducible assumption
    | (show Field.within _ _ = true; decide)
    | with_reducible apply State.modWeights_moves
    | with_reducible apply Moves.ite
    | split) hfl)

theorem State.programTargets_moves {fl : List Field} {r₀ : State} {s : State} {t : Take} {xs : List (ℕ × ℕ × ℕ × ℕ × ℕ)} (hm : Moves fl r₀ s)
    (hfl : Field.within [.rings, .counters, .steps, .tiles, .boughs, .prods, .nextOrder, .links, .faults, .power, .sec, .out] fl = true) : Moves fl r₀ (State.programTargets s t xs) :=
  hm.trans (Moves.mono (a := [.rings, .counters, .steps, .tiles, .boughs, .prods, .nextOrder, .links, .faults, .power, .sec, .out]) (by
  have h := Moves.refl [.rings, .counters, .steps, .tiles, .boughs, .prods, .nextOrder, .links, .faults, .power, .sec, .out] s
  unfold State.programTargets
  repeat' first
    | with_reducible assumption
    | (show Field.within _ _ = true; decide)
    | with_reducible apply State.requestProgram_moves
    | with_reducible apply Moves.each
    | (intro _ _ _)
    | split) hfl)

theorem State.slowCut_moves {fl : List Field} {r₀ : State} {s : State} {t : Take} {m : ℕ} (hm : Moves fl r₀ s)
    (hfl : Field.within [.rings, .counters, .steps, .tiles, .boughs, .prods, .nextOrder, .weights, .links, .faults, .power, .sec, .out] fl = true) : Moves fl r₀ (State.slowCut s t m) :=
  hm.trans (Moves.mono (a := [.rings, .counters, .steps, .tiles, .boughs, .prods, .nextOrder, .weights, .links, .faults, .power, .sec, .out]) (by
  have h := Moves.refl [.rings, .counters, .steps, .tiles, .boughs, .prods, .nextOrder, .weights, .links, .faults, .power, .sec, .out] s
  unfold State.slowCut
  repeat' first
    | (extract_lets +onlyGivenNames x; first | (refine Moves.cut (s := x) ?_ ?_; (on_goal 2 => intro hx; clear_value x); (on_goal 1 => subst x)) | subst x)
    | with_reducible assumption
    | (show Field.within _ _ = true; decide)
    | with_reducible apply State.bindSlow_moves
    | with_reducible apply State.modTake_moves
    | with_reducible apply State.emptyDeck_moves
    | with_reducible apply State.programTargets_moves
    | with_reducible apply Moves.each
    | with_reducible apply Moves.ite
    | (intro _ _ _)
    | split) hfl)

theorem State.slowCuts_reach {r₀ : State} {t : Take} {ms : List ℕ} : ∀ {s : State}, Moves [.rings, .counters, .steps, .tiles, .boughs, .prods, .nextOrder, .weights, .links, .faults, .power, .sec, .out] r₀ s →
    Moves [.rings, .counters, .steps, .tiles, .boughs, .prods, .nextOrder, .weights, .links, .faults, .power, .sec, .out] r₀ (State.slowCuts t ms s) := by
  induction ms with
  | nil => exact fun hm => hm
  | cons m rest ih =>
    intro s hm
    unfold State.slowCuts
    split
    · exact ih (State.slowCut_moves hm (by decide))
    · exact hm

theorem State.slowCuts_moves {fl : List Field} {r₀ : State} {s : State} {t : Take} {ms : List ℕ} (hm : Moves fl r₀ s)
    (hfl : Field.within [.rings, .counters, .steps, .tiles, .boughs, .prods, .nextOrder, .weights, .links, .faults, .power, .sec, .out] fl = true) : Moves fl r₀ (State.slowCuts t ms s) :=
  hm.trans (Moves.mono (State.slowCuts_reach (Moves.refl _ s)) hfl)

theorem State.armTake_moves {fl : List Field} {r₀ : State} {s : State} {t : Take} (hm : Moves fl r₀ s)
    (hfl : Field.within [.rings, .counters, .jobs, .weights, .links, .sec, .out] fl = true) : Moves fl r₀ (State.armTake s t) :=
  hm.trans (Moves.mono (a := [.rings, .counters, .jobs, .weights, .links, .sec, .out]) (by
  have h := Moves.refl [.rings, .counters, .jobs, .weights, .links, .sec, .out] s
  unfold State.armTake
  repeat' first
    | (extract_lets +onlyGivenNames x; first | (refine Moves.cut (s := x) ?_ ?_; (on_goal 2 => intro hx; clear_value x); (on_goal 1 => subst x)) | subst x)
    | with_reducible assumption
    | (show Field.within _ _ = true; decide)
    | with_reducible apply State.event_moves
    | with_reducible apply State.modTake_moves
    | with_reducible apply State.report_moves
    | with_reducible apply Moves.ite
    | split) hfl)

theorem State.dropTake_moves {fl : List Field} {r₀ : State} {s : State} {id : ℕ} (hm : Moves fl r₀ s)
    (hfl : Field.within [.weights] fl = true) : Moves fl r₀ (State.dropTake s id) :=
  hm.trans (Moves.mono (a := [.weights]) (by
  have h := Moves.refl [.weights] s
  unfold State.dropTake
  repeat' first
    | with_reducible assumption
    | (show Field.within _ _ = true; decide)
    | with_reducible apply State.modWeights_moves
    | split) hfl)

theorem State.failTake_moves {fl : List Field} {r₀ : State} {s : State} {t : Take} {st : Status} (hm : Moves fl r₀ s)
    (hfl : Field.within [.rings, .counters, .jobs, .tiles, .weights, .links, .sec, .out] fl = true) : Moves fl r₀ (State.failTake s t st) :=
  hm.trans (Moves.mono (a := [.rings, .counters, .jobs, .tiles, .weights, .links, .sec, .out]) (by
  have h := Moves.refl [.rings, .counters, .jobs, .tiles, .weights, .links, .sec, .out] s
  unfold State.failTake
  repeat' first
    | (extract_lets +onlyGivenNames x; first | (refine Moves.cut (s := x) ?_ ?_; (on_goal 2 => intro hx; clear_value x); (on_goal 1 => subst x)) | subst x)
    | with_reducible assumption
    | (show Field.within _ _ = true; decide)
    | with_reducible apply State.emptyDeck_moves
    | with_reducible apply State.progFail_moves
    | with_reducible apply State.count_moves
    | with_reducible apply State.dropTake_moves
    | with_reducible apply State.event_moves
    | with_reducible apply State.completeNone_moves
    | with_reducible apply State.report_moves
    | with_reducible apply Moves.each
    | with_reducible apply Moves.ite
    | (intro _ _ _)
    | split
    | (refine Moves.of_lit ?_ ?_ ?_)
    | (intro f hf; cases f <;> first | exact hf.elim (by decide) | rfl)
    | (exact fun c => ⟨c.parts, c.rings, c.counters, c.calls, c.customers, by dsimp only; first | exact c.tiles | exact Tbl.wf_set c.tiles | exact Tbl.wf_update c.tiles | exact Tbl.wf_mapVals (Tbl.rising_of_wf c.tiles) | exact Tbl.wf_mapVals (Tbl.rising_map (fun p => by (try dsimp only); (repeat' split) <;> rfl) (Tbl.rising_of_wf c.tiles)) | (split <;> first | exact c.tiles | exact Tbl.wf_set c.tiles | exact Tbl.wf_mapVals (Tbl.rising_of_wf c.tiles)), c.boughs, c.calSave, c.links, c.mem⟩)) hfl)

theorem State.startTake_moves {fl : List Field} {r₀ : State} {s : State} {t0 : Take} (hm : Moves fl r₀ s)
    (hfl : Field.within [.rings, .counters, .jobs, .steps, .tiles, .boughs, .prods, .nextOrder, .weights, .links, .faults, .power, .sec, .out] fl = true) : Moves fl r₀ (State.startTake s t0) :=
  hm.trans (Moves.mono (a := [.rings, .counters, .jobs, .steps, .tiles, .boughs, .prods, .nextOrder, .weights, .links, .faults, .power, .sec, .out]) (by
  have h := Moves.refl [.rings, .counters, .jobs, .steps, .tiles, .boughs, .prods, .nextOrder, .weights, .links, .faults, .power, .sec, .out] s
  unfold State.startTake
  repeat' first
    | (extract_lets +onlyGivenNames x; first | (refine Moves.cut (s := x) ?_ ?_; (on_goal 2 => intro hx; clear_value x); (on_goal 1 => subst x)) | subst x)
    | with_reducible assumption
    | (show Field.within _ _ = true; decide)
    | with_reducible apply State.modTake_moves
    | with_reducible apply State.armTake_moves
    | with_reducible apply State.failTake_moves
    | with_reducible apply State.programTargets_moves
    | with_reducible apply Moves.ite
    | split) hfl)

theorem State.settleLoading_moves {fl : List Field} {r₀ : State} {s : State} {t : Take} (hm : Moves fl r₀ s)
    (hfl : Field.within [.rings, .counters, .jobs, .steps, .tiles, .boughs, .prods, .nextOrder, .weights, .links, .faults, .power, .sec, .out] fl = true) : Moves fl r₀ (State.settleLoading t s) :=
  hm.trans (Moves.mono (a := [.rings, .counters, .jobs, .steps, .tiles, .boughs, .prods, .nextOrder, .weights, .links, .faults, .power, .sec, .out]) (by
  have h := Moves.refl [.rings, .counters, .jobs, .steps, .tiles, .boughs, .prods, .nextOrder, .weights, .links, .faults, .power, .sec, .out] s
  unfold State.settleLoading
  repeat' first
    | with_reducible assumption
    | (show Field.within _ _ = true; decide)
    | with_reducible apply State.onTake_moves
    | with_reducible apply State.slowCuts_moves
    | with_reducible apply State.startTake_moves
    | with_reducible apply Moves.ite
    | (intro _ _ _)
    | split) hfl)

theorem State.settleTargets_moves {fl : List Field} {r₀ : State} {s : State} {t : Take} (hm : Moves fl r₀ s)
    (hfl : Field.within [.rings, .counters, .jobs, .tiles, .weights, .links, .sec, .out] fl = true) : Moves fl r₀ (State.settleTargets t s) :=
  hm.trans (Moves.mono (a := [.rings, .counters, .jobs, .tiles, .weights, .links, .sec, .out]) (by
  have h := Moves.refl [.rings, .counters, .jobs, .tiles, .weights, .links, .sec, .out] s
  unfold State.settleTargets
  repeat' first
    | with_reducible assumption
    | (show Field.within _ _ = true; decide)
    | with_reducible apply State.failTake_moves
    | with_reducible apply State.armTake_moves
    | with_reducible apply State.modTake_moves
    | with_reducible apply Moves.ite
    | split) hfl)

theorem State.returnCut_moves {fl : List Field} {r₀ : State} {s : State} {t : Take} {id : ℕ} (hm : Moves fl r₀ s)
    (hfl : Field.within [.rings, .counters, .tiles, .weights, .sec, .out] fl = true) : Moves fl r₀ (State.returnCut s t id) :=
  hm.trans (Moves.mono (a := [.rings, .counters, .tiles, .weights, .sec, .out]) (by
  have h := Moves.refl [.rings, .counters, .tiles, .weights, .sec, .out] s
  unfold State.returnCut
  repeat' first
    | (extract_lets +onlyGivenNames x; first | (refine Moves.cut (s := x) ?_ ?_; (on_goal 2 => intro hx; clear_value x); (on_goal 1 => subst x)) | subst x)
    | with_reducible assumption
    | (show Field.within _ _ = true; decide)
    | with_reducible apply State.modDeck_moves
    | with_reducible apply State.setBinding_moves
    | with_reducible apply State.emptyDeck_moves
    | with_reducible apply State.count_moves
    | with_reducible apply State.tierEvent_moves
    | with_reducible apply State.modTake_moves
    | with_reducible apply Moves.each
    | with_reducible apply Moves.ite
    | (intro _ _ _)
    | split) hfl)

theorem State.settleMatrix_moves {fl : List Field} {r₀ : State} {s : State} {t : Take} {id : ℕ} (hm : Moves fl r₀ s)
    (hfl : Field.within [.rings, .counters, .jobs, .tiles, .weights, .links, .sec, .out] fl = true) : Moves fl r₀ (State.settleMatrix s t id) :=
  hm.trans (Moves.mono (a := [.rings, .counters, .jobs, .tiles, .weights, .links, .sec, .out]) (by
  have h := Moves.refl [.rings, .counters, .jobs, .tiles, .weights, .links, .sec, .out] s
  unfold State.settleMatrix
  repeat' first
    | (extract_lets +onlyGivenNames x; first | (refine Moves.cut (s := x) ?_ ?_; (on_goal 2 => intro hx; clear_value x); (on_goal 1 => subst x)) | subst x)
    | with_reducible assumption
    | (show Field.within _ _ = true; decide)
    | with_reducible apply State.modTake_moves
    | with_reducible apply State.failTake_moves
    | with_reducible apply State.returnCut_moves
    | with_reducible apply Moves.ite
    | split) hfl)

theorem State.finishTake_moves {fl : List Field} {r₀ : State} {s : State} {t : Take} (hm : Moves fl r₀ s)
    (hfl : Field.within [.rings, .counters, .jobs, .weights, .out] fl = true) : Moves fl r₀ (State.finishTake s t) :=
  hm.trans (Moves.mono (a := [.rings, .counters, .jobs, .weights, .out]) (by
  have h := Moves.refl [.rings, .counters, .jobs, .weights, .out] s
  unfold State.finishTake
  repeat' first
    | (extract_lets +onlyGivenNames x; first | (refine Moves.cut (s := x) ?_ ?_; (on_goal 2 => intro hx; clear_value x); (on_goal 1 => subst x)) | subst x)
    | with_reducible assumption
    | (show Field.within _ _ = true; decide)
    | with_reducible apply State.count_moves
    | with_reducible apply State.dropTake_moves
    | with_reducible apply State.completeNone_moves
    | with_reducible apply Moves.ite
    | split) hfl)

theorem State.driftDone_moves {fl : List Field} {r₀ : State} {s : State} {t : Take} (hm : Moves fl r₀ s)
    (hfl : Field.within [.rings, .counters, .sec, .out] fl = true) : Moves fl r₀ (State.driftDone s t) :=
  hm.trans (Moves.mono (a := [.rings, .counters, .sec, .out]) (by
  have h := Moves.refl [.rings, .counters, .sec, .out] s
  unfold State.driftDone
  repeat' first
    | with_reducible assumption
    | (show Field.within _ _ = true; decide)
    | with_reducible apply State.event_moves
    | with_reducible apply State.count_moves
    | with_reducible apply Moves.ite
    | split) hfl)

theorem State.settleCuts_moves {fl : List Field} {r₀ : State} {s : State} {t : Take} (hm : Moves fl r₀ s)
    (hfl : Field.within [.rings, .counters, .jobs, .steps, .tiles, .boughs, .prods, .nextOrder, .weights, .links, .faults, .power, .sec, .out] fl = true) : Moves fl r₀ (State.settleCuts t s) :=
  hm.trans (Moves.mono (a := [.rings, .counters, .jobs, .steps, .tiles, .boughs, .prods, .nextOrder, .weights, .links, .faults, .power, .sec, .out]) (by
  have h := Moves.refl [.rings, .counters, .jobs, .steps, .tiles, .boughs, .prods, .nextOrder, .weights, .links, .faults, .power, .sec, .out] s
  unfold State.settleCuts
  repeat' first
    | (extract_lets +onlyGivenNames x; first | (refine Moves.cut (s := x) ?_ ?_; (on_goal 2 => intro hx; clear_value x); (on_goal 1 => subst x)) | subst x)
    | with_reducible assumption
    | (show Field.within _ _ = true; decide)
    | with_reducible apply State.slowCuts_moves
    | with_reducible apply State.settleMatrix_moves
    | with_reducible apply State.onTake_moves
    | with_reducible apply State.finishTake_moves
    | with_reducible apply State.driftDone_moves
    | with_reducible apply Moves.each
    | with_reducible apply Moves.ite
    | (intro _ _ _)
    | split) hfl)

theorem State.settleTake_moves {fl : List Field} {r₀ : State} {s : State} {id : ℕ} (hm : Moves fl r₀ s)
    (hfl : Field.within [.rings, .counters, .jobs, .steps, .tiles, .boughs, .prods, .nextOrder, .weights, .links, .faults, .power, .sec, .out] fl = true) : Moves fl r₀ (State.settleTake s id) :=
  hm.trans (Moves.mono (a := [.rings, .counters, .jobs, .steps, .tiles, .boughs, .prods, .nextOrder, .weights, .links, .faults, .power, .sec, .out]) (by
  have h := Moves.refl [.rings, .counters, .jobs, .steps, .tiles, .boughs, .prods, .nextOrder, .weights, .links, .faults, .power, .sec, .out] s
  unfold State.settleTake
  repeat' first
    | with_reducible assumption
    | (show Field.within _ _ = true; decide)
    | with_reducible apply State.onTake_moves
    | with_reducible apply State.settleLoading_moves
    | with_reducible apply State.settleTargets_moves
    | with_reducible apply State.settleCuts_moves
    | (intro _ _ _)
    | split) hfl)

theorem State.recovered_moves {fl : List Field} {r₀ : State} {s : State} {g : Gen} (hm : Moves fl r₀ s)
    (hfl : Field.within [.boot, .regs] fl = true) : Moves fl r₀ (State.recovered s g) :=
  hm.trans (Moves.mono (a := [.boot, .regs]) (by
  have h := Moves.refl [.boot, .regs] s
  unfold State.recovered
  repeat' first
    | with_reducible assumption
    | (show Field.within _ _ = true; decide)
    | with_reducible apply State.setReady_moves
    | with_reducible apply State.modBoot_moves
    | with_reducible apply Moves.ite
    | split) hfl)

theorem State.openEpoch_moves {fl : List Field} {r₀ : State} {s : State} {e : ℕ} {image : ℕ} (hm : Moves fl r₀ s)
    (hfl : Field.within [.boot, .regs, .rings, .counters, .tiles, .weights, .links, .sec, .out] fl = true) : Moves fl r₀ (State.openEpoch s e image) :=
  hm.trans (Moves.mono (a := [.boot, .regs, .rings, .counters, .tiles, .weights, .links, .sec, .out]) (by
  have h := Moves.refl [.boot, .regs, .rings, .counters, .tiles, .weights, .links, .sec, .out] s
  unfold State.openEpoch
  repeat' first
    | (extract_lets +onlyGivenNames x; first | (refine Moves.cut (s := x) ?_ ?_; (on_goal 2 => intro hx; clear_value x); (on_goal 1 => subst x)) | subst x)
    | with_reducible assumption
    | (show Field.within _ _ = true; decide)
    | with_reducible apply State.modWeights_moves
    | with_reducible apply State.modDeck_moves
    | with_reducible apply State.tierEvent_moves
    | with_reducible apply State.modTake_moves
    | with_reducible apply State.recovered_moves
    | with_reducible apply State.count_moves
    | with_reducible apply State.send_moves
    | with_reducible apply Moves.each
    | with_reducible apply Moves.ite
    | (intro _ _ _)
    | split) hfl)

theorem State.tryCut_moves {fl : List Field} {r₀ : State} {s : State}  (hm : Moves fl r₀ s)
    (hfl : Field.within [.boot, .regs, .rings, .counters, .tiles, .weights, .links, .sec, .out] fl = true) : Moves fl r₀ (State.tryCut s) :=
  hm.trans (Moves.mono (a := [.boot, .regs, .rings, .counters, .tiles, .weights, .links, .sec, .out]) (by
  have h := Moves.refl [.boot, .regs, .rings, .counters, .tiles, .weights, .links, .sec, .out] s
  unfold State.tryCut
  repeat' first
    | (extract_lets +onlyGivenNames x; first | (refine Moves.cut (s := x) ?_ ?_; (on_goal 2 => intro hx; clear_value x); (on_goal 1 => subst x)) | subst x)
    | with_reducible assumption
    | (show Field.within _ _ = true; decide)
    | with_reducible apply State.openEpoch_moves
    | with_reducible apply Moves.ite
    | split) hfl)

theorem State.settle_moves {fl : List Field} {r₀ : State} {s : State}  (hm : Moves fl r₀ s)
    (hfl : Field.within [.boot, .regs, .rings, .counters, .jobs, .steps, .tiles, .boughs, .prods, .nextOrder, .weights, .links, .faults, .power, .sec, .out] fl = true) : Moves fl r₀ (State.settle s) :=
  hm.trans (Moves.mono (a := [.boot, .regs, .rings, .counters, .jobs, .steps, .tiles, .boughs, .prods, .nextOrder, .weights, .links, .faults, .power, .sec, .out]) (by
  have h := Moves.refl [.boot, .regs, .rings, .counters, .jobs, .steps, .tiles, .boughs, .prods, .nextOrder, .weights, .links, .faults, .power, .sec, .out] s
  unfold State.settle
  repeat' first
    | (extract_lets +onlyGivenNames x; first | (refine Moves.cut (s := x) ?_ ?_; (on_goal 2 => intro hx; clear_value x); (on_goal 1 => subst x)) | subst x)
    | with_reducible assumption
    | (show Field.within _ _ = true; decide)
    | with_reducible apply State.armIdle_moves
    | with_reducible apply State.applySlow_moves
    | with_reducible apply State.applyMats_moves
    | with_reducible apply State.tryLive_moves
    | with_reducible apply State.settleTake_moves
    | with_reducible apply State.tryCut_moves
    | with_reducible apply Moves.each
    | (intro _ _ _)
    | split) hfl)

theorem State.closeEpoch_moves {fl : List Field} {r₀ : State} {s : State}  (hm : Moves fl r₀ s)
    (hfl : Field.within [.rings, .counters, .jobs, .steps, .tiles, .boughs, .prods, .nextOrder, .weights, .links, .faults, .power, .sec, .out] fl = true) : Moves fl r₀ (State.closeEpoch s) :=
  hm.trans (Moves.mono (a := [.rings, .counters, .jobs, .steps, .tiles, .boughs, .prods, .nextOrder, .weights, .links, .faults, .power, .sec, .out]) (by
  have h := Moves.refl [.rings, .counters, .jobs, .steps, .tiles, .boughs, .prods, .nextOrder, .weights, .links, .faults, .power, .sec, .out] s
  unfold State.closeEpoch
  repeat' first
    | (extract_lets +onlyGivenNames x; first | (refine Moves.cut (s := x) ?_ ?_; (on_goal 2 => intro hx; clear_value x); (on_goal 1 => subst x)) | subst x)
    | with_reducible assumption
    | (show Field.within _ _ = true; decide)
    | with_reducible apply State.modWeights_moves
    | with_reducible apply State.emptyDeck_moves
    | with_reducible apply State.modTake_moves
    | with_reducible apply State.onTake_moves
    | with_reducible apply State.slowCuts_moves
    | with_reducible apply State.finishTake_moves
    | with_reducible apply State.report_moves
    | with_reducible apply Moves.each
    | with_reducible apply Moves.ite
    | (intro _ _ _)
    | split) hfl)

end Sys2Proof.Machine
end

