-- ==== Sys2Proof/Laws/GapOpsMoves.lean ====
section
/-! SUPPORT. What each operation of Machine/GapOps.lean may change, and that it keeps the canonical form. -/

set_option Elab.async false

namespace Sys2Proof.Machine

set_option linter.unusedTactic false
set_option linter.unreachableTactic false

theorem State.useUnit_moves {fl : List Field} {r₀ : State} {s : State} {w : Sys2Proof.WorkRef} {key : ℕ} (hm : Moves fl r₀ s)
    (hfl : Field.within [.steps] fl = true) : Moves fl r₀ (State.useUnit s w key) :=
  hm.trans (Moves.mono (a := [.steps]) (by
  have h := Moves.refl [.steps] s
  unfold State.useUnit
  repeat' first
    | with_reducible assumption
    | (show Field.within _ _ = true; decide)
    | with_reducible apply State.modStep_moves
    | split) hfl)

theorem State.queueRepeat_moves {fl : List Field} {r₀ : State} {s : State} {t : ℕ} {r : Repeat} (hm : Moves fl r₀ s)
    (hfl : Field.within [.tiles] fl = true) : Moves fl r₀ (State.queueRepeat s t r) :=
  hm.trans (Moves.mono (a := [.tiles]) (by
  have h := Moves.refl [.tiles] s
  unfold State.queueRepeat
  repeat' first
    | with_reducible assumption
    | (show Field.within _ _ = true; decide)
    | with_reducible apply State.modTile_moves
    | with_reducible apply Moves.ite
    | split) hfl)

theorem State.suspectUses_moves {fl : List Field} {r₀ : State} {s : State} {key : ℕ} {since : ℕ} {bough : Option ℕ} {isKey : Prod → Bool} (hm : Moves fl r₀ s)
    (hfl : Field.within [.rings, .counters, .steps, .prods, .links, .faults, .sec, .out] fl = true) : Moves fl r₀ (State.suspectUses s key since bough isKey) :=
  hm.trans (Moves.mono (a := [.rings, .counters, .steps, .prods, .links, .faults, .sec, .out]) (by
  have h := Moves.refl [.rings, .counters, .steps, .prods, .links, .faults, .sec, .out] s
  unfold State.suspectUses
  repeat' first
    | (extract_lets +onlyGivenNames x; first | (refine Moves.cut (s := x) ?_ ?_; (on_goal 2 => intro hx; clear_value x); (on_goal 1 => subst x)) | subst x)
    | with_reducible assumption
    | (show Field.within _ _ = true; decide)
    | with_reducible apply State.count_moves
    | with_reducible apply State.suspectStep_moves
    | with_reducible apply State.suspectProd_moves
    | with_reducible apply Moves.each
    | (intro _ _ _)
    | split) hfl)

theorem State.startRun_moves {fl : List Field} {r₀ : State} {s : State} {b : ℕ} (hm : Moves fl r₀ s)
    (hfl : Field.within [.tiles, .boughs] fl = true) : Moves fl r₀ (State.startRun s b) :=
  hm.trans (Moves.mono (a := [.tiles, .boughs]) (by
  have h := Moves.refl [.tiles, .boughs] s
  unfold State.startRun
  repeat' first
    | (extract_lets +onlyGivenNames x; first | (refine Moves.cut (s := x) ?_ ?_; (on_goal 2 => intro hx; clear_value x); (on_goal 1 => subst x)) | subst x)
    | with_reducible assumption
    | (show Field.within _ _ = true; decide)
    | with_reducible apply State.modBough_moves
    | with_reducible apply Moves.ite
    | split
    | (refine Moves.of_lit ?_ ?_ ?_)
    | (intro f hf; cases f <;> first | exact hf.elim (by decide) | rfl)
    | (exact fun c => ⟨c.parts, c.rings, c.counters, c.calls, c.customers, by dsimp only; first | exact c.tiles | exact Tbl.wf_set c.tiles | exact Tbl.wf_update c.tiles | exact Tbl.wf_mapVals (Tbl.rising_of_wf c.tiles) | exact Tbl.wf_mapVals (Tbl.rising_map (fun p => by (try dsimp only); (repeat' split) <;> rfl) (Tbl.rising_of_wf c.tiles)) | (split <;> first | exact c.tiles | exact Tbl.wf_set c.tiles | exact Tbl.wf_mapVals (Tbl.rising_of_wf c.tiles)), c.boughs, c.calSave, c.links, c.mem⟩)) hfl)

theorem State.requestRun_moves {fl : List Field} {r₀ : State} {s : State} {b : ℕ} (hm : Moves fl r₀ s)
    (hfl : Field.within [.tiles, .boughs] fl = true) : Moves fl r₀ (State.requestRun s b) :=
  hm.trans (Moves.mono (a := [.tiles, .boughs]) (by
  have h := Moves.refl [.tiles, .boughs] s
  unfold State.requestRun
  repeat' first
    | (extract_lets +onlyGivenNames x; first | (refine Moves.cut (s := x) ?_ ?_; (on_goal 2 => intro hx; clear_value x); (on_goal 1 => subst x)) | subst x)
    | with_reducible assumption
    | (show Field.within _ _ = true; decide)
    | with_reducible apply State.modBough_moves
    | with_reducible apply State.startRun_moves
    | with_reducible apply Moves.ite
    | split) hfl)

theorem State.tryVerified_moves {fl : List Field} {r₀ : State} {s : State} {t : ℕ} {d : ℕ} (hm : Moves fl r₀ s)
    (hfl : Field.within [.tiles] fl = true) : Moves fl r₀ (State.tryVerified s t d) :=
  hm.trans (Moves.mono (a := [.tiles]) (by
  have h := Moves.refl [.tiles] s
  unfold State.tryVerified
  repeat' first
    | (extract_lets +onlyGivenNames x; first | (refine Moves.cut (s := x) ?_ ?_; (on_goal 2 => intro hx; clear_value x); (on_goal 1 => subst x)) | subst x)
    | with_reducible assumption
    | (show Field.within _ _ = true; decide)
    | with_reducible apply State.modDeck_moves
    | with_reducible apply Moves.ite
    | split) hfl)

theorem State.sweepDone_moves {fl : List Field} {r₀ : State} {s : State} {t : ℕ} {d : ℕ} {codes : List ℤ} (hm : Moves fl r₀ s)
    (hfl : Field.within [.rings, .counters, .steps, .tiles, .boughs, .prods, .weights, .sec, .out] fl = true) : Moves fl r₀ (State.sweepDone s t d codes) :=
  hm.trans (Moves.mono (a := [.rings, .counters, .steps, .tiles, .boughs, .prods, .weights, .sec, .out]) (by
  have h := Moves.refl [.rings, .counters, .steps, .tiles, .boughs, .prods, .weights, .sec, .out] s
  unfold State.sweepDone
  repeat' first
    | (extract_lets +onlyGivenNames x; first | (refine Moves.cut (s := x) ?_ ?_; (on_goal 2 => intro hx; clear_value x); (on_goal 1 => subst x)) | subst x)
    | with_reducible assumption
    | (show Field.within _ _ = true; decide)
    | with_reducible apply State.modDeck_moves
    | with_reducible apply State.modBough_moves
    | with_reducible apply State.tryVerified_moves
    | with_reducible apply State.enterDrifted_moves
    | with_reducible apply Moves.ite
    | split) hfl)

theorem State.warmBough_moves {fl : List Field} {r₀ : State} {s : State} {b : ℕ} (hm : Moves fl r₀ s)
    (hfl : Field.within [.boughs] fl = true) : Moves fl r₀ (State.warmBough s b) :=
  hm.trans (Moves.mono (a := [.boughs]) (by
  have h := Moves.refl [.boughs] s
  unfold State.warmBough
  repeat' first
    | with_reducible assumption
    | (show Field.within _ _ = true; decide)
    | with_reducible apply State.modBough_moves
    | with_reducible apply Moves.ite
    | split) hfl)

theorem State.closeFor_moves {fl : List Field} {r₀ : State} {s : State} {b : ℕ} (hm : Moves fl r₀ s)
    (hfl : Field.within [.counters, .boughs] fl = true) : Moves fl r₀ (State.closeFor s b) :=
  hm.trans (Moves.mono (a := [.counters, .boughs]) (by
  have h := Moves.refl [.counters, .boughs] s
  unfold State.closeFor
  repeat' first
    | with_reducible assumption
    | (show Field.within _ _ = true; decide)
    | with_reducible apply State.modBough_moves
    | with_reducible apply State.count_moves
    | with_reducible apply Moves.ite
    | split) hfl)

theorem State.gapPhase_moves {fl : List Field} {r₀ : State} {s : State} {t : ℕ} (hm : Moves fl r₀ s)
    (hfl : Field.within [.counters, .tiles, .boughs, .power] fl = true) : Moves fl r₀ (State.gapPhase s t) :=
  hm.trans (Moves.mono (a := [.counters, .tiles, .boughs, .power]) (by
  have h := Moves.refl [.counters, .tiles, .boughs, .power] s
  unfold State.gapPhase
  repeat' first
    | with_reducible assumption
    | (show Field.within _ _ = true; decide)
    | with_reducible apply State.modTile_moves
    | with_reducible apply State.charge_moves
    | with_reducible apply State.count_moves
    | with_reducible apply State.closeFor_moves
    | split) hfl)

theorem State.suspectDeck_moves {fl : List Field} {r₀ : State} {s : State} {t : ℕ} {d : ℕ} (hm : Moves fl r₀ s)
    (hfl : Field.within [.rings, .counters, .steps, .prods, .links, .faults, .sec, .out] fl = true) : Moves fl r₀ (State.suspectDeck s t d) :=
  hm.trans (Moves.mono (a := [.rings, .counters, .steps, .prods, .links, .faults, .sec, .out]) (by
  have h := Moves.refl [.rings, .counters, .steps, .prods, .links, .faults, .sec, .out] s
  unfold State.suspectDeck
  repeat' first
    | with_reducible assumption
    | (show Field.within _ _ = true; decide)
    | with_reducible apply State.suspectUses_moves
    | split) hfl)

theorem State.clapperDone_moves {fl : List Field} {r₀ : State} {s : State} {t : ℕ} {d : ℕ} {codes : List ℤ} {detector : ℕ} (hm : Moves fl r₀ s)
    (hfl : Field.within [.rings, .counters, .steps, .tiles, .prods, .links, .faults, .sec, .out] fl = true) : Moves fl r₀ (State.clapperDone s t d codes detector) :=
  hm.trans (Moves.mono (a := [.rings, .counters, .steps, .tiles, .prods, .links, .faults, .sec, .out]) (by
  have h := Moves.refl [.rings, .counters, .steps, .tiles, .prods, .links, .faults, .sec, .out] s
  unfold State.clapperDone
  repeat' first
    | (extract_lets +onlyGivenNames x; first | (refine Moves.cut (s := x) ?_ ?_; (on_goal 2 => intro hx; clear_value x); (on_goal 1 => subst x)) | subst x)
    | with_reducible assumption
    | (show Field.within _ _ = true; decide)
    | with_reducible apply State.modDeck_moves
    | with_reducible apply State.count_moves
    | with_reducible apply State.tryVerified_moves
    | with_reducible apply State.modDaily_moves
    | with_reducible apply State.queueRepeat_moves
    | with_reducible apply State.suspectDeck_moves
    | with_reducible apply Moves.ite
    | split) hfl)

theorem State.fitPhase_moves {fl : List Field} {r₀ : State} {s : State} {t : ℕ} {d : ℕ} {codes : List ℤ} {transposed : Bool} (hm : Moves fl r₀ s)
    (hfl : Field.within [.counters, .tiles] fl = true) : Moves fl r₀ (State.fitPhase s t d codes transposed) :=
  hm.trans (Moves.mono (a := [.counters, .tiles]) (by
  have h := Moves.refl [.counters, .tiles] s
  unfold State.fitPhase
  repeat' first
    | (extract_lets +onlyGivenNames x; first | (refine Moves.cut (s := x) ?_ ?_; (on_goal 2 => intro hx; clear_value x); (on_goal 1 => subst x)) | subst x)
    | with_reducible assumption
    | (show Field.within _ _ = true; decide)
    | with_reducible apply State.count_moves
    | with_reducible apply State.modDeck_moves
    | with_reducible apply Moves.ite
    | split) hfl)

end Sys2Proof.Machine
end

