-- ==== Sys2Proof/Laws/MemOpsMoves.lean ====
section
/-! SUPPORT. What each operation of Machine/MemOps.lean may change, and that it keeps the canonical form. -/

set_option Elab.async false

namespace Sys2Proof.Machine

set_option linter.unusedTactic false
set_option linter.unreachableTactic false

theorem State.mergeStore_moves {fl : List Field} {r₀ : State} {s : State} {e : Merge} (hm : Moves fl r₀ s)
    (hfl : Field.within [.mem] fl = true) : Moves fl r₀ (State.mergeStore s e) :=
  hm.trans (Moves.mono (a := [.mem]) (by
  have h := Moves.refl [.mem] s
  unfold State.mergeStore
  repeat' first
    | with_reducible assumption
    | (show Field.within _ _ = true; decide)
    | with_reducible apply Moves.foldl
    | with_reducible apply Moves.foldl_fst
    | with_reducible apply Moves.modMem
    | (intro _ _ _)
    | split
    | (intro w; first | with_reducible exact Mem.wf_runs w | exact w | exact Mem.wf_write w | exact Mem.wf_clear w | exact Mem.wf_foldl (fun _ _ h => Mem.wf_write h) _ w)) hfl)

theorem State.mergeLeave_moves {fl : List Field} {r₀ : State} {s : State} {e : Merge} (hm : Moves fl r₀ s)
    (hfl : Field.within [.counters, .mem] fl = true) : Moves fl r₀ (State.mergeLeave s e) :=
  hm.trans (Moves.mono (a := [.counters, .mem]) (by
  have h := Moves.refl [.counters, .mem] s
  unfold State.mergeLeave
  repeat' first
    | (extract_lets +onlyGivenNames x; first | (refine Moves.cut (s := x) ?_ ?_; (on_goal 2 => intro hx; clear_value x); (on_goal 1 => subst x)) | subst x)
    | with_reducible assumption
    | (show Field.within _ _ = true; decide)
    | with_reducible apply State.count_moves
    | with_reducible apply State.mergeStore_moves
    | with_reducible apply Moves.ite
    | split) hfl)

theorem State.narrowWrite_moves {fl : List Field} {r₀ : State} {s : State} {a : ℕ} {bs : Sys2Proof.Bytes} (hm : Moves fl r₀ s)
    (hfl : Field.within [.counters, .mem] fl = true) : Moves fl r₀ (State.narrowWrite s a bs) :=
  hm.trans (Moves.mono (a := [.counters, .mem]) (by
  have h := Moves.refl [.counters, .mem] s
  unfold State.narrowWrite
  repeat' first
    | (extract_lets +onlyGivenNames x; first | (refine Moves.cut (s := x) ?_ ?_; (on_goal 2 => intro hx; clear_value x); (on_goal 1 => subst x)) | subst x)
    | with_reducible assumption
    | (show Field.within _ _ = true; decide)
    | with_reducible apply State.mergeLeave_moves
    | with_reducible apply Moves.foldl
    | with_reducible apply Moves.foldl_fst
    | with_reducible apply Moves.modMem
    | with_reducible apply Moves.ite
    | (intro _ _ _)
    | split
    | (intro w; first | with_reducible exact Mem.wf_runs w | exact w | exact Mem.wf_write w | exact Mem.wf_clear w | exact Mem.wf_foldl (fun _ _ h => Mem.wf_write h) _ w)) hfl)

theorem State.wideWrite_moves {fl : List Field} {r₀ : State} {s : State} {a : ℕ} {bs : Sys2Proof.Bytes} (hm : Moves fl r₀ s)
    (hfl : Field.within [.mem] fl = true) : Moves fl r₀ (State.wideWrite s a bs) :=
  hm.trans (Moves.mono (a := [.mem]) (by
  have h := Moves.refl [.mem] s
  unfold State.wideWrite
  repeat' first
    | (extract_lets +onlyGivenNames x; first | (refine Moves.cut (s := x) ?_ ?_; (on_goal 2 => intro hx; clear_value x); (on_goal 1 => subst x)) | subst x)
    | with_reducible assumption
    | (show Field.within _ _ = true; decide)
    | with_reducible apply Moves.modMem
    | split
    | (intro w; first | with_reducible exact Mem.wf_runs w | exact w | exact Mem.wf_write w | exact Mem.wf_clear w | exact Mem.wf_foldl (fun _ _ h => Mem.wf_write h) _ w)) hfl)

theorem State.uncorrIn_moves {fl : List Field} {r₀ : State} {s : State} {r : State.StoreRef} {block : ℕ} {cls : ℕ} (hm : Moves fl r₀ s)
    (hfl : Field.within [.rings, .counters, .sec, .out] fl = true) : Moves fl r₀ (State.uncorrIn s r block cls) :=
  hm.trans (Moves.mono (a := [.rings, .counters, .sec, .out]) (by
  have h := Moves.refl [.rings, .counters, .sec, .out] s
  unfold State.uncorrIn
  repeat' first
    | with_reducible assumption
    | (show Field.within _ _ = true; decide)
    | with_reducible apply State.event_moves
    | with_reducible apply State.count_moves
    | split) hfl)

theorem State.uncorrEvent_moves {fl : List Field} {r₀ : State} {s : State} {a : ℕ} {cls : ℕ} (hm : Moves fl r₀ s)
    (hfl : Field.within [.rings, .counters, .sec, .out] fl = true) : Moves fl r₀ (State.uncorrEvent s a cls) :=
  hm.trans (Moves.mono (a := [.rings, .counters, .sec, .out]) (by
  have h := Moves.refl [.rings, .counters, .sec, .out] s
  unfold State.uncorrEvent
  repeat' first
    | with_reducible assumption
    | (show Field.within _ _ = true; decide)
    | with_reducible apply State.uncorrIn_moves
    | split) hfl)

theorem State.correctedIn_moves {fl : List Field} {r₀ : State} {s : State} {r : State.StoreRef} {idx : ℕ} (hm : Moves fl r₀ s)
    (hfl : Field.within [.rings, .counters, .mem, .sec, .out] fl = true) : Moves fl r₀ (State.correctedIn s r idx) :=
  hm.trans (Moves.mono (a := [.rings, .counters, .mem, .sec, .out]) (by
  have h := Moves.refl [.rings, .counters, .mem, .sec, .out] s
  unfold State.correctedIn
  repeat' first
    | (extract_lets +onlyGivenNames x; first | (refine Moves.cut (s := x) ?_ ?_; (on_goal 2 => intro hx; clear_value x); (on_goal 1 => subst x)) | subst x)
    | with_reducible assumption
    | (show Field.within _ _ = true; decide)
    | with_reducible apply State.count_moves
    | with_reducible apply State.event_moves
    | with_reducible apply Moves.modMem
    | with_reducible apply Moves.ite
    | split
    | (intro w; first | with_reducible exact Mem.wf_runs w | exact w | exact Mem.wf_write w | exact Mem.wf_clear w | exact Mem.wf_foldl (fun _ _ h => Mem.wf_write h) _ w)) hfl)

theorem State.corrected1_moves {fl : List Field} {r₀ : State} {s : State} {a : ℕ} (hm : Moves fl r₀ s)
    (hfl : Field.within [.rings, .counters, .mem, .sec, .out] fl = true) : Moves fl r₀ (State.corrected1 s a) :=
  hm.trans (Moves.mono (a := [.rings, .counters, .mem, .sec, .out]) (by
  have h := Moves.refl [.rings, .counters, .mem, .sec, .out] s
  unfold State.corrected1
  repeat' first
    | with_reducible assumption
    | (show Field.within _ _ = true; decide)
    | with_reducible apply State.correctedIn_moves
    | split) hfl)

theorem State.noteRead_moves {fl : List Field} {r₀ : State} {s : State} {a : ℕ} {cls : ℕ} {f : Sys2Proof.Flips} (hm : Moves fl r₀ s)
    (hfl : Field.within [.rings, .counters, .mem, .sec, .out] fl = true) : Moves fl r₀ (State.noteRead s a cls f) :=
  hm.trans (Moves.mono (a := [.rings, .counters, .mem, .sec, .out]) (by
  have h := Moves.refl [.rings, .counters, .mem, .sec, .out] s
  unfold State.noteRead
  repeat' first
    | (extract_lets +onlyGivenNames x; first | (refine Moves.cut (s := x) ?_ ?_; (on_goal 2 => intro hx; clear_value x); (on_goal 1 => subst x)) | subst x)
    | with_reducible assumption
    | (show Field.within _ _ = true; decide)
    | with_reducible apply State.count_moves
    | with_reducible apply State.corrected1_moves
    | with_reducible apply State.uncorrEvent_moves
    | with_reducible apply Moves.ite
    | split) hfl)

theorem State.rewriteDelivered_moves {fl : List Field} {r₀ : State} {s : State} {block : ℕ} {f : Sys2Proof.Flips} (hm : Moves fl r₀ s)
    (hfl : Field.within [.mem] fl = true) : Moves fl r₀ (State.rewriteDelivered s block f) :=
  hm.trans (Moves.mono (a := [.mem]) (by
  have h := Moves.refl [.mem] s
  unfold State.rewriteDelivered
  repeat' first
    | with_reducible assumption
    | (show Field.within _ _ = true; decide)
    | with_reducible apply Moves.foldl
    | with_reducible apply Moves.foldl_fst
    | with_reducible apply Moves.modMem
    | (intro _ _ _)
    | split
    | (intro w; first | with_reducible exact Mem.wf_runs w | exact w | exact Mem.wf_write w | exact Mem.wf_clear w | exact Mem.wf_foldl (fun _ _ h => Mem.wf_write h) _ w)) hfl)

theorem State.remapWord_moves {fl : List Field} {r₀ : State} {s : State} {r : Sys2Proof.SramRead} {word : ℕ} (hm : Moves fl r₀ s)
    (hfl : Field.within [.rings, .counters, .mem, .sec, .out] fl = true) : Moves fl r₀ (State.remapWord s r word) :=
  hm.trans (Moves.mono (a := [.rings, .counters, .mem, .sec, .out]) (by
  have h := Moves.refl [.rings, .counters, .mem, .sec, .out] s
  unfold State.remapWord
  repeat' first
    | (extract_lets +onlyGivenNames x; first | (refine Moves.cut (s := x) ?_ ?_; (on_goal 2 => intro hx; clear_value x); (on_goal 1 => subst x)) | subst x)
    | with_reducible assumption
    | (show Field.within _ _ = true; decide)
    | with_reducible apply State.event_moves
    | with_reducible apply State.count_moves
    | with_reducible apply Moves.modMem
    | with_reducible apply Moves.ite
    | split
    | (intro w; first | with_reducible exact Mem.wf_runs w | exact w | exact Mem.wf_write w | exact Mem.wf_clear w | exact Mem.wf_foldl (fun _ _ h => Mem.wf_write h) _ w)) hfl)

theorem State.noteSram_moves {fl : List Field} {r₀ : State} {s : State} {r : Sys2Proof.SramRead} (hm : Moves fl r₀ s)
    (hfl : Field.within [.rings, .counters, .mem, .sec, .out] fl = true) : Moves fl r₀ (State.noteSram s r) :=
  hm.trans (Moves.mono (a := [.rings, .counters, .mem, .sec, .out]) (by
  have h := Moves.refl [.rings, .counters, .mem, .sec, .out] s
  unfold State.noteSram
  repeat' first
    | (extract_lets +onlyGivenNames x; first | (refine Moves.cut (s := x) ?_ ?_; (on_goal 2 => intro hx; clear_value x); (on_goal 1 => subst x)) | subst x)
    | with_reducible assumption
    | (show Field.within _ _ = true; decide)
    | with_reducible apply State.uncorrIn_moves
    | with_reducible apply State.remapWord_moves
    | with_reducible apply State.correctedIn_moves
    | with_reducible apply Moves.each
    | with_reducible apply Moves.modMem
    | with_reducible apply Moves.ite
    | (intro _ _ _)
    | split
    | (intro w; first | with_reducible exact Mem.wf_runs w | exact w | exact Mem.wf_write w | exact Mem.wf_clear w | exact Mem.wf_foldl (fun _ _ h => Mem.wf_write h) _ w)) hfl)

end Sys2Proof.Machine
end

