-- ==== Sys2Proof/Laws/ResetOpsMoves.lean ====
section
/-! SUPPORT. What each operation of Machine/ResetOps.lean may change, and that it keeps the canonical form. -/

set_option Elab.async false

namespace Sys2Proof.Machine

set_option linter.unusedTactic false
set_option linter.unreachableTactic false

theorem State.partResetFlush_moves {fl : List Field} {r₀ : State} {s : State} {p : ℕ} (hm : Moves fl r₀ s)
    (hfl : Field.within [.parts, .rings, .counters, .jobs, .sec, .out] fl = true) : Moves fl r₀ (State.partResetFlush s p) :=
  hm.trans (Moves.mono (a := [.parts, .rings, .counters, .jobs, .sec, .out]) (by
  have h := Moves.refl [.parts, .rings, .counters, .jobs, .sec, .out] s
  unfold State.partResetFlush
  repeat' first
    | (extract_lets +onlyGivenNames x; first | (refine Moves.cut (s := x) ?_ ?_; (on_goal 2 => intro hx; clear_value x); (on_goal 1 => subst x)) | subst x)
    | with_reducible assumption
    | (show Field.within _ _ = true; decide)
    | with_reducible apply State.flushAll_moves
    | with_reducible apply State.event_moves
    | with_reducible apply State.completeAll_moves
    | with_reducible apply State.noteStall_moves
    | with_reducible apply State.modPart_moves
    | with_reducible apply Moves.ite
    | split) hfl)

theorem State.partResetEnd_moves {fl : List Field} {r₀ : State} {s : State} {p : ℕ} (hm : Moves fl r₀ s)
    (hfl : Field.within [.parts, .rings, .counters, .jobs, .calls, .steps, .batch, .grafts, .tiles, .boughs, .prods, .sums, .handoffs, .acts, .xferWaits, .canopy, .backs, .latches, .attnWaits, .servedKv, .servedAttn, .mem, .links, .sec, .out] fl = true) : Moves fl r₀ (State.partResetEnd s p) :=
  hm.trans (Moves.mono (a := [.parts, .rings, .counters, .jobs, .calls, .steps, .batch, .grafts, .tiles, .boughs, .prods, .sums, .handoffs, .acts, .xferWaits, .canopy, .backs, .latches, .attnWaits, .servedKv, .servedAttn, .mem, .links, .sec, .out]) (by
  have h := Moves.refl [.parts, .rings, .counters, .jobs, .calls, .steps, .batch, .grafts, .tiles, .boughs, .prods, .sums, .handoffs, .acts, .xferWaits, .canopy, .backs, .latches, .attnWaits, .servedKv, .servedAttn, .mem, .links, .sec, .out] s
  unfold State.partResetEnd
  repeat' first
    | (extract_lets +onlyGivenNames x; first | (refine Moves.cut (s := x) ?_ ?_; (on_goal 2 => intro hx; clear_value x); (on_goal 1 => subst x)) | subst x)
    | with_reducible assumption
    | (show Field.within _ _ = true; decide)
    | with_reducible apply State.endCall_moves
    | with_reducible apply State.releaseEntry_moves
    | with_reducible apply State.tellChain_moves
    | with_reducible apply State.journal_moves
    | with_reducible apply State.partResetFlush_moves
    | with_reducible apply State.modPart_moves
    | with_reducible apply Moves.each
    | (intro _ _ _)
    | split) hfl)

theorem State.startEnds_moves {fl : List Field} {r₀ : State} {s : State}  (hm : Moves fl r₀ s)
    (hfl : Field.within [.boot, .regs, .rings, .counters, .jobs, .sec, .out] fl = true) : Moves fl r₀ (State.startEnds s) :=
  hm.trans (Moves.mono (a := [.boot, .regs, .rings, .counters, .jobs, .sec, .out]) (by
  have h := Moves.refl [.boot, .regs, .rings, .counters, .jobs, .sec, .out] s
  unfold State.startEnds
  repeat' first
    | (extract_lets +onlyGivenNames x; first | (refine Moves.cut (s := x) ?_ ?_; (on_goal 2 => intro hx; clear_value x); (on_goal 1 => subst x)) | subst x)
    | with_reducible assumption
    | (show Field.within _ _ = true; decide)
    | with_reducible apply State.modBoot_moves
    | with_reducible apply State.completeAll_moves
    | with_reducible apply State.event_moves
    | with_reducible apply State.modRegs_moves
    | with_reducible apply Moves.ite
    | split) hfl)

theorem State.showStep_moves {fl : List Field} {r₀ : State} {s : State}  (hm : Moves fl r₀ s)
    (hfl : Field.within [.regs] fl = true) : Moves fl r₀ (State.showStep s) :=
  hm.trans (Moves.mono (a := [.regs]) (by
  have h := Moves.refl [.regs] s
  unfold State.showStep
  repeat' first
    | (extract_lets +onlyGivenNames x; first | (refine Moves.cut (s := x) ?_ ?_; (on_goal 2 => intro hx; clear_value x); (on_goal 1 => subst x)) | subst x)
    | with_reducible assumption
    | (show Field.within _ _ = true; decide)
    | with_reducible apply State.modRegs_moves
    | with_reducible apply Moves.ite
    | split) hfl)

theorem State.stepEnds_moves {fl : List Field} {r₀ : State} {s : State} {n : ℕ} (hm : Moves fl r₀ s)
    (hfl : Field.within [.boot, .regs, .rings, .counters, .jobs, .sec, .out] fl = true) : Moves fl r₀ (State.stepEnds s n) :=
  hm.trans (Moves.mono (a := [.boot, .regs, .rings, .counters, .jobs, .sec, .out]) (by
  have h := Moves.refl [.boot, .regs, .rings, .counters, .jobs, .sec, .out] s
  unfold State.stepEnds
  repeat' first
    | (extract_lets +onlyGivenNames x; first | (refine Moves.cut (s := x) ?_ ?_; (on_goal 2 => intro hx; clear_value x); (on_goal 1 => subst x)) | subst x)
    | with_reducible assumption
    | (show Field.within _ _ = true; decide)
    | with_reducible apply State.modBoot_moves
    | with_reducible apply State.startEnds_moves
    | with_reducible apply State.showStep_moves
    | with_reducible apply Moves.ite
    | split) hfl)

theorem State.portLost_moves {fl : List Field} {r₀ : State} {s : State} {p : Sys2Proof.Port} (hm : Moves fl r₀ s)
    (hfl : Field.within [.links] fl = true) : Moves fl r₀ (State.portLost s p) :=
  hm.trans (Moves.mono (a := [.links]) (by
  have h := Moves.refl [.links] s
  unfold State.portLost
  repeat' first
    | with_reducible assumption
    | (show Field.within _ _ = true; decide)
    | with_reducible apply State.modLink_moves
    | split) hfl)

theorem State.abandonSteps_moves {fl : List Field} {r₀ : State} {s : State}  (hm : Moves fl r₀ s)
    (hfl : Field.within [.rings, .counters, .calls, .steps, .batch, .prods, .sums, .handoffs, .acts, .xferWaits, .histos, .canopy, .backs, .latches, .attnWaits, .servedKv, .servedAttn, .mem, .sec, .drains, .out] fl = true) : Moves fl r₀ (State.abandonSteps s) :=
  hm.trans (Moves.mono (a := [.rings, .counters, .calls, .steps, .batch, .prods, .sums, .handoffs, .acts, .xferWaits, .histos, .canopy, .backs, .latches, .attnWaits, .servedKv, .servedAttn, .mem, .sec, .drains, .out]) (by
  have h := Moves.refl [.rings, .counters, .calls, .steps, .batch, .prods, .sums, .handoffs, .acts, .xferWaits, .histos, .canopy, .backs, .latches, .attnWaits, .servedKv, .servedAttn, .mem, .sec, .drains, .out] s
  unfold State.abandonSteps
  repeat' first
    | (extract_lets +onlyGivenNames x; first | (refine Moves.cut (s := x) ?_ ?_; (on_goal 2 => intro hx; clear_value x); (on_goal 1 => subst x)) | subst x)
    | with_reducible assumption
    | (show Field.within _ _ = true; decide)
    | with_reducible apply State.count_moves
    | with_reducible apply State.freeOld_moves
    | with_reducible apply Moves.ite
    | split
    | (refine Moves.of_lit ?_ ?_ ?_)
    | (intro f hf; cases f <;> first | exact hf.elim (by decide) | rfl)
    | (exact fun c => ⟨c.parts, c.rings, c.counters, by dsimp only; first | exact c.calls | exact Tbl.wf_set c.calls | exact Tbl.wf_update c.calls | exact Tbl.wf_mapVals (Tbl.rising_of_wf c.calls) | exact Tbl.wf_mapVals (Tbl.rising_map (fun p => by (try dsimp only); (repeat' split) <;> rfl) (Tbl.rising_of_wf c.calls)) | (split <;> first | exact c.calls | exact Tbl.wf_set c.calls | exact Tbl.wf_mapVals (Tbl.rising_of_wf c.calls)), c.customers, c.tiles, c.boughs, c.calSave, c.links, c.mem⟩)) hfl)

theorem State.warmReset_moves {fl : List Field} {r₀ : State} {s : State} {source : ℕ} (hm : Moves fl r₀ s)
    (hfl : Field.within [.boot, .regs, .rings, .counters, .calls, .steps, .batch, .sched, .splitHead, .stage, .tiles, .boughs, .prods, .sums, .handoffs, .acts, .xferWaits, .histos, .canopy, .backs, .latches, .attnWaits, .servedKv, .servedAttn, .mem, .partner, .faults, .hk, .power, .sec, .drains, .out] fl = true) : Moves fl r₀ (State.warmReset s source) :=
  hm.trans (Moves.mono (a := [.boot, .regs, .rings, .counters, .calls, .steps, .batch, .sched, .splitHead, .stage, .tiles, .boughs, .prods, .sums, .handoffs, .acts, .xferWaits, .histos, .canopy, .backs, .latches, .attnWaits, .servedKv, .servedAttn, .mem, .partner, .faults, .hk, .power, .sec, .drains, .out]) (by
  have h := Moves.refl [.boot, .regs, .rings, .counters, .calls, .steps, .batch, .sched, .splitHead, .stage, .tiles, .boughs, .prods, .sums, .handoffs, .acts, .xferWaits, .histos, .canopy, .backs, .latches, .attnWaits, .servedKv, .servedAttn, .mem, .partner, .faults, .hk, .power, .sec, .drains, .out] s
  unfold State.warmReset
  repeat' first
    | (extract_lets +onlyGivenNames x; first | (refine Moves.cut (s := x) ?_ ?_; (on_goal 2 => intro hx; clear_value x); (on_goal 1 => subst x)) | subst x)
    | with_reducible assumption
    | (show Field.within _ _ = true; decide)
    | with_reducible apply State.flushAll_moves
    | with_reducible apply State.abandonSteps_moves
    | split
    | (refine Moves.of_lit ?_ ?_ ?_)
    | (intro f hf; cases f <;> first | exact hf.elim (by decide) | rfl)
    | (exact fun c => ⟨c.parts, c.rings, c.counters, c.calls, c.customers, by dsimp only; first | exact c.tiles | exact Tbl.wf_set c.tiles | exact Tbl.wf_update c.tiles | exact Tbl.wf_mapVals (Tbl.rising_of_wf c.tiles) | exact Tbl.wf_mapVals (Tbl.rising_map (fun p => by (try dsimp only); (repeat' split) <;> rfl) (Tbl.rising_of_wf c.tiles)) | (split <;> first | exact c.tiles | exact Tbl.wf_set c.tiles | exact Tbl.wf_mapVals (Tbl.rising_of_wf c.tiles)), by dsimp only; first | exact c.boughs | exact Tbl.wf_set c.boughs | exact Tbl.wf_update c.boughs | exact Tbl.wf_mapVals (Tbl.rising_of_wf c.boughs) | exact Tbl.wf_mapVals (Tbl.rising_map (fun p => by (try dsimp only); (repeat' split) <;> rfl) (Tbl.rising_of_wf c.boughs)) | (split <;> first | exact c.boughs | exact Tbl.wf_set c.boughs | exact Tbl.wf_mapVals (Tbl.rising_of_wf c.boughs)), c.calSave, c.links, by dsimp only; first | exact c.mem | exact Tbl.wf_set c.mem | exact Tbl.wf_update c.mem | exact Tbl.wf_mapVals (Tbl.rising_of_wf c.mem) | exact Tbl.wf_mapVals (Tbl.rising_map (fun p => by (try dsimp only); (repeat' split) <;> rfl) (Tbl.rising_of_wf c.mem)) | (split <;> first | exact c.mem | exact Tbl.wf_set c.mem | exact Tbl.wf_mapVals (Tbl.rising_of_wf c.mem))⟩)) hfl)

theorem State.boughResetDone_moves {fl : List Field} {r₀ : State} {s : State} {b : ℕ} (hm : Moves fl r₀ s)
    (hfl : Field.within [.rings, .counters, .jobs, .tiles, .boughs, .sec, .out] fl = true) : Moves fl r₀ (State.boughResetDone s b) :=
  hm.trans (Moves.mono (a := [.rings, .counters, .jobs, .tiles, .boughs, .sec, .out]) (by
  have h := Moves.refl [.rings, .counters, .jobs, .tiles, .boughs, .sec, .out] s
  unfold State.boughResetDone
  repeat' first
    | (extract_lets +onlyGivenNames x; first | (refine Moves.cut (s := x) ?_ ?_; (on_goal 2 => intro hx; clear_value x); (on_goal 1 => subst x)) | subst x)
    | with_reducible assumption
    | (show Field.within _ _ = true; decide)
    | with_reducible apply State.modBough_moves
    | with_reducible apply State.completeAll_moves
    | with_reducible apply State.requestRun_moves
    | with_reducible apply State.event_moves
    | with_reducible apply State.count_moves
    | split) hfl)

theorem State.stepFails_moves {fl : List Field} {r₀ : State} {s : State} {n : ℕ} (hm : Moves fl r₀ s)
    (hfl : Field.within [.boot] fl = true) : Moves fl r₀ (State.stepFails s n) :=
  hm.trans (Moves.mono (a := [.boot]) (by
  have h := Moves.refl [.boot] s
  unfold State.stepFails
  repeat' first
    | with_reducible assumption
    | (show Field.within _ _ = true; decide)
    | with_reducible apply State.modBoot_moves
    | split) hfl)

theorem State.coldReset_moves {fl : List Field} {r₀ : State} {s : State} {source : ℕ} (hm : Moves fl r₀ s)
    (hfl : Field.within [.pins, .boot, .regs, .parts, .rings, .tick, .ticking, .trims, .counters, .jobs, .calls, .steps, .batch, .sched, .splitHead, .stage, .batchNo, .customers, .grafts, .mattes, .tiles, .boughs, .calSave, .prods, .nextProd, .nextOrder, .sums, .handoffs, .acts, .xferWaits, .histos, .canopy, .backs, .latches, .attnWaits, .servedKv, .servedAttn, .weights, .mem, .links, .partner, .faults, .hk, .power, .sec, .drains] fl = true) :
    Moves fl r₀ (State.coldReset s source) :=
  hm.trans (Moves.mono (a := [.pins, .boot, .regs, .parts, .rings, .tick, .ticking, .trims, .counters, .jobs, .calls, .steps, .batch, .sched, .splitHead, .stage, .batchNo, .customers, .grafts, .mattes, .tiles, .boughs, .calSave, .prods, .nextProd, .nextOrder, .sums, .handoffs, .acts, .xferWaits, .histos, .canopy, .backs, .latches, .attnWaits, .servedKv, .servedAttn, .weights, .mem, .links, .partner, .faults, .hk, .power, .sec, .drains])
    ⟨fun f hf => by cases f <;> first | exact hf.elim (by decide) | rfl,
     fun c => ⟨rfl, rfl, rfl, rfl, rfl, Tbl.wf_mapVals (Tbl.rising_of_wf c.tiles), rfl, rfl, by unfold State.coldReset; dsimp only; split <;> decide, rfl⟩,
     fun _ => State.fit_nil, List.prefix_rfl⟩ hfl)

theorem State.resetArrives_moves {fl : List Field} {r₀ : State} {s : State} {cold : Bool} {source : ℕ} (hm : Moves fl r₀ s)
    (hfl : Field.within everyPiece fl = true) : Moves fl r₀ (State.resetArrives s cold source) :=
  hm.trans (Moves.mono (a := everyPiece) (by
  have h := Moves.refl everyPiece s
  unfold State.resetArrives
  repeat' first
    | (extract_lets +onlyGivenNames x; first | (refine Moves.cut (s := x) ?_ ?_; (on_goal 2 => intro hx; clear_value x); (on_goal 1 => subst x)) | subst x)
    | with_reducible assumption
    | (show Field.within _ _ = true; decide)
    | with_reducible apply State.modBoot_moves
    | with_reducible apply State.coldReset_moves
    | with_reducible apply State.warmReset_moves
    | with_reducible apply Moves.ite
    | split) hfl)

theorem State.startCal_moves {fl : List Field} {r₀ : State} {s : State}  (hm : Moves fl r₀ s)
    (hfl : Field.within [.tiles, .boughs] fl = true) : Moves fl r₀ (State.startCal s) :=
  hm.trans (Moves.mono (a := [.tiles, .boughs]) (by
  have h := Moves.refl [.tiles, .boughs] s
  unfold State.startCal
  repeat' first
    | with_reducible assumption
    | (show Field.within _ _ = true; decide)
    | with_reducible apply State.requestRun_moves
    | with_reducible apply State.warmBough_moves
    | with_reducible apply Moves.each
    | (intro _ _ _)
    | split) hfl)

theorem State.loadCal_moves {fl : List Field} {r₀ : State} {s : State} {b : ℕ} (hm : Moves fl r₀ s)
    (hfl : Field.within [.tiles, .boughs] fl = true) : Moves fl r₀ (State.loadCal s b) :=
  hm.trans (Moves.mono (a := [.tiles, .boughs]) (by
  have h := Moves.refl [.tiles, .boughs] s
  unfold State.loadCal
  repeat' first
    | (extract_lets +onlyGivenNames x; first | (refine Moves.cut (s := x) ?_ ?_; (on_goal 2 => intro hx; clear_value x); (on_goal 1 => subst x)) | subst x)
    | with_reducible assumption
    | (show Field.within _ _ = true; decide)
    | with_reducible apply State.modBough_moves
    | with_reducible apply State.modTile_moves
    | with_reducible apply Moves.each
    | (intro _ _ _)
    | split) hfl)

theorem State.coldCal_moves {fl : List Field} {r₀ : State} {s : State}  (hm : Moves fl r₀ s)
    (hfl : Field.within [.tiles, .boughs] fl = true) : Moves fl r₀ (State.coldCal s) :=
  hm.trans (Moves.mono (a := [.tiles, .boughs]) (by
  have h := Moves.refl [.tiles, .boughs] s
  unfold State.coldCal
  repeat' first
    | (extract_lets +onlyGivenNames x; first | (refine Moves.cut (s := x) ?_ ?_; (on_goal 2 => intro hx; clear_value x); (on_goal 1 => subst x)) | subst x)
    | with_reducible assumption
    | (show Field.within _ _ = true; decide)
    | with_reducible apply State.driftTargets_moves
    | with_reducible apply State.modBough_moves
    | with_reducible apply Moves.each
    | with_reducible apply Moves.ite
    | (intro _ _ _)
    | split
    | (refine Moves.of_lit ?_ ?_ ?_)
    | (intro f hf; cases f <;> first | exact hf.elim (by decide) | rfl)
    | (exact fun c => ⟨c.parts, c.rings, c.counters, c.calls, c.customers, by dsimp only; first | exact c.tiles | exact Tbl.wf_set c.tiles | exact Tbl.wf_update c.tiles | exact Tbl.wf_mapVals (Tbl.rising_of_wf c.tiles) | exact Tbl.wf_mapVals (Tbl.rising_map (fun p => by (try dsimp only); (repeat' split) <;> rfl) (Tbl.rising_of_wf c.tiles)) | (split <;> first | exact c.tiles | exact Tbl.wf_set c.tiles | exact Tbl.wf_mapVals (Tbl.rising_of_wf c.tiles)), c.boughs, c.calSave, c.links, c.mem⟩)) hfl)

theorem State.saveCal_moves {fl : List Field} {r₀ : State} {s : State} {b : ℕ} (hm : Moves fl r₀ s)
    (hfl : Field.within [.calSave] fl = true) : Moves fl r₀ (State.saveCal s b) :=
  hm.trans (Moves.mono (a := [.calSave]) (by
  have h := Moves.refl [.calSave] s
  unfold State.saveCal
  repeat' first
    | with_reducible assumption
    | (show Field.within _ _ = true; decide)
    | split
    | (refine Moves.of_lit ?_ ?_ ?_)
    | (intro f hf; cases f <;> first | exact hf.elim (by decide) | rfl)
    | (exact fun c => ⟨c.parts, c.rings, c.counters, c.calls, c.customers, c.tiles, c.boughs, by dsimp only; first | exact c.calSave | exact Tbl.wf_set c.calSave | exact Tbl.wf_update c.calSave | exact Tbl.wf_mapVals (Tbl.rising_of_wf c.calSave) | exact Tbl.wf_mapVals (Tbl.rising_map (fun p => by (try dsimp only); (repeat' split) <;> rfl) (Tbl.rising_of_wf c.calSave)) | (split <;> first | exact c.calSave | exact Tbl.wf_set c.calSave | exact Tbl.wf_mapVals (Tbl.rising_of_wf c.calSave)), c.links, c.mem⟩)) hfl)

theorem State.saveVector_moves {fl : List Field} {r₀ : State} {s : State} {c : ℕ} {v : Saved} (hm : Moves fl r₀ s)
    (hfl : Field.within [.counters, .calls, .links, .out] fl = true) : Moves fl r₀ (State.saveVector s c v) :=
  hm.trans (Moves.mono (a := [.counters, .calls, .links, .out]) (by
  have h := Moves.refl [.counters, .calls, .links, .out] s
  unfold State.saveVector
  repeat' first
    | with_reducible assumption
    | (show Field.within _ _ = true; decide)
    | with_reducible apply State.modCall_moves
    | split) hfl)

theorem State.trainPort_moves {fl : List Field} {r₀ : State} {s : State} {p : Sys2Proof.Port} (hm : Moves fl r₀ s)
    (hfl : Field.within [.links] fl = true) : Moves fl r₀ (State.trainPort s p) :=
  hm.trans (Moves.mono (a := [.links]) (by
  have h := Moves.refl [.links] s
  unfold State.trainPort
  repeat' first
    | with_reducible assumption
    | (show Field.within _ _ = true; decide)
    | with_reducible apply State.modLink_moves
    | with_reducible apply Moves.ite
    | split) hfl)

theorem State.saveHeaders_moves {fl : List Field} {r₀ : State} {s : State} {gone : List Prod} {waits : List Sys2Proof.ProductReq} (hm : Moves fl r₀ s)
    (hfl : Field.within [.counters, .calls, .links, .out] fl = true) : Moves fl r₀ (State.saveHeaders s gone waits) :=
  hm.trans (Moves.mono (a := [.counters, .calls, .links, .out]) (by
  have h := Moves.refl [.counters, .calls, .links, .out] s
  unfold State.saveHeaders
  repeat' first
    | (extract_lets +onlyGivenNames x; first | (refine Moves.cut (s := x) ?_ ?_; (on_goal 2 => intro hx; clear_value x); (on_goal 1 => subst x)) | subst x)
    | with_reducible assumption
    | (show Field.within _ _ = true; decide)
    | with_reducible apply State.saveVector_moves
    | with_reducible apply Moves.each
    | with_reducible apply Moves.foldl
    | with_reducible apply Moves.foldl_fst
    | with_reducible apply Moves.ite
    | (intro _ _ _)
    | split) hfl)

theorem State.withdraw_moves {fl : List Field} {r₀ : State} {s : State} {sc : DrainScope} {why : DrainFor} (hm : Moves fl r₀ s)
    (hfl : Field.within [.counters, .calls, .tiles, .boughs, .prods, .xferWaits, .links, .out] fl = true) : Moves fl r₀ (State.withdraw s sc why) :=
  hm.trans (Moves.mono (a := [.counters, .calls, .tiles, .boughs, .prods, .xferWaits, .links, .out]) (by
  have h := Moves.refl [.counters, .calls, .tiles, .boughs, .prods, .xferWaits, .links, .out] s
  unfold State.withdraw
  repeat' first
    | (extract_lets +onlyGivenNames x; first | (refine Moves.cut (s := x) ?_ ?_; (on_goal 2 => intro hx; clear_value x); (on_goal 1 => subst x)) | subst x)
    | with_reducible assumption
    | (show Field.within _ _ = true; decide)
    | with_reducible apply State.saveHeaders_moves
    | split
    | (refine Moves.of_lit ?_ ?_ ?_)
    | (intro f hf; cases f <;> first | exact hf.elim (by decide) | rfl)
    | (exact fun c => ⟨c.parts, c.rings, c.counters, c.calls, c.customers, by dsimp only; first | exact c.tiles | exact Tbl.wf_set c.tiles | exact Tbl.wf_update c.tiles | exact Tbl.wf_mapVals (Tbl.rising_of_wf c.tiles) | exact Tbl.wf_mapVals (Tbl.rising_map (fun p => by (try dsimp only); (repeat' split) <;> rfl) (Tbl.rising_of_wf c.tiles)) | (split <;> first | exact c.tiles | exact Tbl.wf_set c.tiles | exact Tbl.wf_mapVals (Tbl.rising_of_wf c.tiles)), by dsimp only; first | exact c.boughs | exact Tbl.wf_set c.boughs | exact Tbl.wf_update c.boughs | exact Tbl.wf_mapVals (Tbl.rising_of_wf c.boughs) | exact Tbl.wf_mapVals (Tbl.rising_map (fun p => by (try dsimp only); (repeat' split) <;> rfl) (Tbl.rising_of_wf c.boughs)) | (split <;> first | exact c.boughs | exact Tbl.wf_set c.boughs | exact Tbl.wf_mapVals (Tbl.rising_of_wf c.boughs)), c.calSave, c.links, c.mem⟩)) hfl)

theorem State.startDrain_moves {fl : List Field} {r₀ : State} {s : State} {sc : DrainScope} {why : DrainFor} (hm : Moves fl r₀ s)
    (hfl : Field.within [.counters, .calls, .tiles, .boughs, .prods, .xferWaits, .links, .drains, .out] fl = true) : Moves fl r₀ (State.startDrain s sc why) :=
  hm.trans (Moves.mono (a := [.counters, .calls, .tiles, .boughs, .prods, .xferWaits, .links, .drains, .out]) (by
  have h := Moves.refl [.counters, .calls, .tiles, .boughs, .prods, .xferWaits, .links, .drains, .out] s
  unfold State.startDrain
  repeat' first
    | (extract_lets +onlyGivenNames x; first | (refine Moves.cut (s := x) ?_ ?_; (on_goal 2 => intro hx; clear_value x); (on_goal 1 => subst x)) | subst x)
    | with_reducible assumption
    | (show Field.within _ _ = true; decide)
    | with_reducible apply State.withdraw_moves
    | split
    | (refine Moves.of_lit ?_ ?_ ?_)
    | (intro f hf; cases f <;> first | exact hf.elim (by decide) | rfl)
    | (exact fun c => ⟨c.parts, c.rings, c.counters, c.calls, c.customers, c.tiles, c.boughs, c.calSave, c.links, c.mem⟩)) hfl)

theorem State.sendHold_moves {fl : List Field} {r₀ : State} {s : State} {ticks : ℕ} {warm : Bool} {sleep : Bool} (hm : Moves fl r₀ s)
    (hfl : Field.within [.counters, .links, .out] fl = true) : Moves fl r₀ (State.sendHold s ticks warm sleep) :=
  hm.trans (Moves.mono (a := [.counters, .links, .out]) (by
  have h := Moves.refl [.counters, .links, .out] s
  unfold State.sendHold
  repeat' first
    | with_reducible assumption
    | (show Field.within _ _ = true; decide)
    | with_reducible apply State.send_moves
    | with_reducible apply Moves.ite
    | split) hfl)

theorem State.linkStep_moves {fl : List Field} {r₀ : State} {s : State}  (hm : Moves fl r₀ s)
    (hfl : Field.within [.boot, .regs, .rings, .counters, .jobs, .sec, .out] fl = true) : Moves fl r₀ (State.linkStep s) :=
  hm.trans (Moves.mono (a := [.boot, .regs, .rings, .counters, .jobs, .sec, .out]) (by
  have h := Moves.refl [.boot, .regs, .rings, .counters, .jobs, .sec, .out] s
  unfold State.linkStep
  repeat' first
    | (extract_lets +onlyGivenNames x; first | (refine Moves.cut (s := x) ?_ ?_; (on_goal 2 => intro hx; clear_value x); (on_goal 1 => subst x)) | subst x)
    | with_reducible assumption
    | (show Field.within _ _ = true; decide)
    | with_reducible apply State.setReady_moves
    | with_reducible apply State.stepEnds_moves
    | with_reducible apply Moves.ite
    | split) hfl)

theorem State.calStep_moves {fl : List Field} {r₀ : State} {s : State}  (hm : Moves fl r₀ s)
    (hfl : Field.within [.boot, .regs, .rings, .counters, .jobs, .sec, .out] fl = true) : Moves fl r₀ (State.calStep s) :=
  hm.trans (Moves.mono (a := [.boot, .regs, .rings, .counters, .jobs, .sec, .out]) (by
  have h := Moves.refl [.boot, .regs, .rings, .counters, .jobs, .sec, .out] s
  unfold State.calStep
  repeat' first
    | (extract_lets +onlyGivenNames x; first | (refine Moves.cut (s := x) ?_ ?_; (on_goal 2 => intro hx; clear_value x); (on_goal 1 => subst x)) | subst x)
    | with_reducible assumption
    | (show Field.within _ _ = true; decide)
    | with_reducible apply State.setReady_moves
    | with_reducible apply State.stepEnds_moves
    | with_reducible apply Moves.ite
    | split) hfl)

theorem State.dropChecks_moves {fl : List Field} {r₀ : State} {s : State} {b : ℕ} (hm : Moves fl r₀ s)
    (hfl : Field.within [.steps, .boughs, .prods] fl = true) : Moves fl r₀ (State.dropChecks s b) :=
  hm.trans (Moves.mono (a := [.steps, .boughs, .prods]) (by
  have h := Moves.refl [.steps, .boughs, .prods] s
  unfold State.dropChecks
  repeat' first
    | (extract_lets +onlyGivenNames x; first | (refine Moves.cut (s := x) ?_ ?_; (on_goal 2 => intro hx; clear_value x); (on_goal 1 => subst x)) | subst x)
    | with_reducible assumption
    | (show Field.within _ _ = true; decide)
    | with_reducible apply State.modStep_moves
    | with_reducible apply State.modBough_moves
    | with_reducible apply Moves.each
    | (intro _ _ _)
    | split
    | (refine Moves.of_lit ?_ ?_ ?_)
    | (intro f hf; cases f <;> first | exact hf.elim (by decide) | rfl)
    | (exact fun c => ⟨c.parts, c.rings, c.counters, c.calls, c.customers, c.tiles, c.boughs, c.calSave, c.links, c.mem⟩)) hfl)

theorem State.boughReset_moves {fl : List Field} {r₀ : State} {s : State} {b : ℕ} (hm : Moves fl r₀ s)
    (hfl : Field.within [.rings, .counters, .jobs, .steps, .tiles, .boughs, .prods, .sec, .out] fl = true) : Moves fl r₀ (State.boughReset s b) :=
  hm.trans (Moves.mono (a := [.rings, .counters, .jobs, .steps, .tiles, .boughs, .prods, .sec, .out]) (by
  have h := Moves.refl [.rings, .counters, .jobs, .steps, .tiles, .boughs, .prods, .sec, .out] s
  unfold State.boughReset
  repeat' first
    | (extract_lets +onlyGivenNames x; first | (refine Moves.cut (s := x) ?_ ?_; (on_goal 2 => intro hx; clear_value x); (on_goal 1 => subst x)) | subst x)
    | with_reducible assumption
    | (show Field.within _ _ = true; decide)
    | with_reducible apply State.modBough_moves
    | with_reducible apply State.dropChecks_moves
    | with_reducible apply State.loadCal_moves
    | with_reducible apply State.warmBough_moves
    | with_reducible apply State.boughResetDone_moves
    | with_reducible apply Moves.ite
    | split
    | (refine Moves.of_lit ?_ ?_ ?_)
    | (intro f hf; cases f <;> first | exact hf.elim (by decide) | rfl)
    | (exact fun c => ⟨c.parts, c.rings, c.counters, c.calls, c.customers, by dsimp only; first | exact c.tiles | exact Tbl.wf_set c.tiles | exact Tbl.wf_update c.tiles | exact Tbl.wf_mapVals (Tbl.rising_of_wf c.tiles) | exact Tbl.wf_mapVals (Tbl.rising_map (fun p => by (try dsimp only); (repeat' split) <;> rfl) (Tbl.rising_of_wf c.tiles)) | (split <;> first | exact c.tiles | exact Tbl.wf_set c.tiles | exact Tbl.wf_mapVals (Tbl.rising_of_wf c.tiles)), c.boughs, c.calSave, c.links, c.mem⟩)) hfl)

end Sys2Proof.Machine
end

