-- ==== Sys2Proof/Laws/WeightDescMoves.lean ====
section
/-! SUPPORT. What each operation of Machine/WeightDesc.lean may change, and that it keeps the canonical form. -/

set_option Elab.async false

namespace Sys2Proof.Machine

set_option linter.unusedTactic false
set_option linter.unreachableTactic false

theorem State.hostTakeOf_moves {fl : List Field} {r₀ : State} {s : State} {j : Job} {refresh : Bool} {image : ℕ} {mats : List ℕ} (hm : Moves fl r₀ s)
    (hfl : Field.within [.boot, .regs, .rings, .counters, .jobs, .steps, .tiles, .boughs, .prods, .nextOrder, .weights, .links, .faults, .power, .sec, .out] fl = true) : Moves fl r₀ (State.hostTakeOf s j refresh image mats) :=
  hm.trans (Moves.mono (a := [.boot, .regs, .rings, .counters, .jobs, .steps, .tiles, .boughs, .prods, .nextOrder, .weights, .links, .faults, .power, .sec, .out]) (by
  have h := Moves.refl [.boot, .regs, .rings, .counters, .jobs, .steps, .tiles, .boughs, .prods, .nextOrder, .weights, .links, .faults, .power, .sec, .out] s
  unfold State.hostTakeOf
  repeat' first
    | with_reducible assumption
    | (show Field.within _ _ = true; decide)
    | with_reducible apply State.settle_moves
    | with_reducible apply State.addTake_moves
    | with_reducible apply State.start_moves
    | split) hfl)

theorem takeRefreshEffect_moves {fl : List Field} {r₀ : State} {s : State} {f : Sys2Proof.Fetch} {j : Job} (hm : Moves fl r₀ s)
    (hfl : Field.within [.boot, .regs, .rings, .counters, .jobs, .steps, .tiles, .boughs, .prods, .nextOrder, .weights, .links, .faults, .power, .sec, .out] fl = true) : Moves fl r₀ (takeRefreshEffect f j s) :=
  hm.trans (Moves.mono (a := [.boot, .regs, .rings, .counters, .jobs, .steps, .tiles, .boughs, .prods, .nextOrder, .weights, .links, .faults, .power, .sec, .out]) (by
  have h := Moves.refl [.boot, .regs, .rings, .counters, .jobs, .steps, .tiles, .boughs, .prods, .nextOrder, .weights, .links, .faults, .power, .sec, .out] s
  unfold takeRefreshEffect
  repeat' first
    | (extract_lets +onlyGivenNames x; first | (refine Moves.cut (s := x) ?_ ?_; (on_goal 2 => intro hx; clear_value x); (on_goal 1 => subst x)) | subst x)
    | with_reducible assumption
    | (show Field.within _ _ = true; decide)
    | with_reducible apply State.complete_moves
    | with_reducible apply State.hostTakeOf_moves
    | with_reducible apply Moves.ite
    | split) hfl)

theorem State.dropGen_moves {fl : List Field} {r₀ : State} {s : State} {image : ℕ} (hm : Moves fl r₀ s)
    (hfl : Field.within [.weights] fl = true) : Moves fl r₀ (State.dropGen s image) :=
  hm.trans (Moves.mono (a := [.weights]) (by
  have h := Moves.refl [.weights] s
  unfold State.dropGen
  repeat' first
    | with_reducible assumption
    | (show Field.within _ _ = true; decide)
    | with_reducible apply State.modWeights_moves
    | split) hfl)

theorem takeReplacementEffect_moves {fl : List Field} {r₀ : State} {s : State} {f : Sys2Proof.Fetch} {j : Job} (hm : Moves fl r₀ s)
    (hfl : Field.within [.boot, .regs, .rings, .counters, .jobs, .steps, .tiles, .boughs, .prods, .nextOrder, .weights, .links, .faults, .power, .sec, .out] fl = true) : Moves fl r₀ (takeReplacementEffect f j s) :=
  hm.trans (Moves.mono (a := [.boot, .regs, .rings, .counters, .jobs, .steps, .tiles, .boughs, .prods, .nextOrder, .weights, .links, .faults, .power, .sec, .out]) (by
  have h := Moves.refl [.boot, .regs, .rings, .counters, .jobs, .steps, .tiles, .boughs, .prods, .nextOrder, .weights, .links, .faults, .power, .sec, .out] s
  unfold takeReplacementEffect
  repeat' first
    | (extract_lets +onlyGivenNames x; first | (refine Moves.cut (s := x) ?_ ?_; (on_goal 2 => intro hx; clear_value x); (on_goal 1 => subst x)) | subst x)
    | with_reducible assumption
    | (show Field.within _ _ = true; decide)
    | with_reducible apply State.complete_moves
    | with_reducible apply State.hostTakeOf_moves
    | with_reducible apply Moves.ite
    | split) hfl)

theorem loadChunkEffect_moves {fl : List Field} {r₀ : State} {s : State} {f : Sys2Proof.Fetch} {j : Job} (hm : Moves fl r₀ s)
    (hfl : Field.within [.rings, .counters, .jobs, .weights, .links, .out] fl = true) : Moves fl r₀ (loadChunkEffect f j s) :=
  hm.trans (Moves.mono (a := [.rings, .counters, .jobs, .weights, .links, .out]) (by
  have h := Moves.refl [.rings, .counters, .jobs, .weights, .links, .out] s
  unfold loadChunkEffect
  repeat' first
    | (extract_lets +onlyGivenNames x; first | (refine Moves.cut (s := x) ?_ ?_; (on_goal 2 => intro hx; clear_value x); (on_goal 1 => subst x)) | subst x)
    | with_reducible assumption
    | (show Field.within _ _ = true; decide)
    | with_reducible apply State.complete_moves
    | with_reducible apply State.takeChunk_moves
    | with_reducible apply State.completeNone_moves
    | with_reducible apply Moves.ite
    | split) hfl)

theorem loadManifestEffect_moves {fl : List Field} {r₀ : State} {s : State} {f : Sys2Proof.Fetch} {j : Job} (hm : Moves fl r₀ s)
    (hfl : Field.within [.rings, .counters, .jobs, .sec, .out] fl = true) : Moves fl r₀ (loadManifestEffect f j s) :=
  hm.trans (Moves.mono (a := [.rings, .counters, .jobs, .sec, .out]) (by
  have h := Moves.refl [.rings, .counters, .jobs, .sec, .out] s
  unfold loadManifestEffect
  repeat' first
    | with_reducible assumption
    | (show Field.within _ _ = true; decide)
    | with_reducible apply State.complete_moves
    | with_reducible apply State.modSec_moves
    | with_reducible apply State.start_moves
    | with_reducible apply Moves.ite
    | split) hfl)

theorem loadPlacementEffect_moves {fl : List Field} {r₀ : State} {s : State} {f : Sys2Proof.Fetch} {j : Job} (hm : Moves fl r₀ s)
    (hfl : Field.within [.rings, .counters, .jobs, .sec, .out] fl = true) : Moves fl r₀ (loadPlacementEffect f j s) :=
  hm.trans (Moves.mono (a := [.rings, .counters, .jobs, .sec, .out]) (by
  have h := Moves.refl [.rings, .counters, .jobs, .sec, .out] s
  unfold loadPlacementEffect
  repeat' first
    | with_reducible assumption
    | (show Field.within _ _ = true; decide)
    | with_reducible apply State.complete_moves
    | with_reducible apply State.modSec_moves
    | with_reducible apply State.start_moves
    | with_reducible apply Moves.ite
    | split) hfl)

theorem attnSetupEffect_moves {fl : List Field} {r₀ : State} {s : State} {f : Sys2Proof.Fetch} {j : Job} (hm : Moves fl r₀ s)
    (hfl : Field.within [.boot, .regs, .rings, .counters, .jobs, .steps, .tiles, .boughs, .prods, .nextOrder, .weights, .links, .faults, .power, .sec, .out] fl = true) : Moves fl r₀ (attnSetupEffect f j s) :=
  hm.trans (Moves.mono (a := [.boot, .regs, .rings, .counters, .jobs, .steps, .tiles, .boughs, .prods, .nextOrder, .weights, .links, .faults, .power, .sec, .out]) (by
  have h := Moves.refl [.boot, .regs, .rings, .counters, .jobs, .steps, .tiles, .boughs, .prods, .nextOrder, .weights, .links, .faults, .power, .sec, .out] s
  unfold attnSetupEffect
  repeat' first
    | (extract_lets +onlyGivenNames x; first | (refine Moves.cut (s := x) ?_ ?_; (on_goal 2 => intro hx; clear_value x); (on_goal 1 => subst x)) | subst x)
    | with_reducible assumption
    | (show Field.within _ _ = true; decide)
    | with_reducible apply State.complete_moves
    | with_reducible apply State.settle_moves
    | with_reducible apply State.modGen_moves
    | with_reducible apply Moves.ite
    | split) hfl)

theorem State.cutsOf_moves {fl : List Field} {r₀ : State} {s : State} {image : ℕ} (hm : Moves fl r₀ s)
    (hfl : Field.within [.rings, .counters, .jobs, .weights, .out] fl = true) : Moves fl r₀ (State.cutsOf s image) :=
  hm.trans (Moves.mono (a := [.rings, .counters, .jobs, .weights, .out]) (by
  have h := Moves.refl [.rings, .counters, .jobs, .weights, .out] s
  unfold State.cutsOf
  repeat' first
    | (extract_lets +onlyGivenNames x; first | (refine Moves.cut (s := x) ?_ ?_; (on_goal 2 => intro hx; clear_value x); (on_goal 1 => subst x)) | subst x)
    | with_reducible assumption
    | (show Field.within _ _ = true; decide)
    | with_reducible apply State.modWeights_moves
    | with_reducible apply State.complete_moves
    | with_reducible apply Moves.each
    | (intro _ _ _)
    | split) hfl)

theorem State.inherit_moves {fl : List Field} {r₀ : State} {s : State} {base : Gen} {heir : Gen} (hm : Moves fl r₀ s)
    (hfl : Field.within [.weights] fl = true) : Moves fl r₀ (State.inherit s base heir) :=
  hm.trans (Moves.mono (a := [.weights]) (by
  have h := Moves.refl [.weights] s
  unfold State.inherit
  repeat' first
    | (extract_lets +onlyGivenNames x; first | (refine Moves.cut (s := x) ?_ ?_; (on_goal 2 => intro hx; clear_value x); (on_goal 1 => subst x)) | subst x)
    | with_reducible assumption
    | (show Field.within _ _ = true; decide)
    | with_reducible apply State.modWeights_moves
    | with_reducible apply State.modGen_moves
    | with_reducible apply Moves.foldl
    | with_reducible apply Moves.foldl_fst
    | with_reducible apply Moves.ite
    | (intro _ _ _)
    | split) hfl)

theorem releaseImageEffect_moves {fl : List Field} {r₀ : State} {s : State} {f : Sys2Proof.Fetch} {j : Job} (hm : Moves fl r₀ s)
    (hfl : Field.within [.rings, .counters, .jobs, .tiles, .weights, .links, .sec, .out] fl = true) : Moves fl r₀ (releaseImageEffect f j s) :=
  hm.trans (Moves.mono (a := [.rings, .counters, .jobs, .tiles, .weights, .links, .sec, .out]) (by
  have h := Moves.refl [.rings, .counters, .jobs, .tiles, .weights, .links, .sec, .out] s
  unfold releaseImageEffect
  repeat' first
    | (extract_lets +onlyGivenNames x; first | (refine Moves.cut (s := x) ?_ ?_; (on_goal 2 => intro hx; clear_value x); (on_goal 1 => subst x)) | subst x)
    | with_reducible assumption
    | (show Field.within _ _ = true; decide)
    | with_reducible apply State.complete_moves
    | with_reducible apply State.failTake_moves
    | with_reducible apply State.inherit_moves
    | with_reducible apply State.cutsOf_moves
    | with_reducible apply State.dropGen_moves
    | with_reducible apply Moves.each
    | with_reducible apply Moves.ite
    | (intro _ _ _)
    | split) hfl)

theorem cutEffect_moves {fl : List Field} {r₀ : State} {s : State} {f : Sys2Proof.Fetch} {j : Job} (hm : Moves fl r₀ s)
    (hfl : Field.within [.boot, .regs, .rings, .counters, .jobs, .steps, .tiles, .boughs, .prods, .nextOrder, .weights, .links, .faults, .power, .sec, .out] fl = true) : Moves fl r₀ (cutEffect f j s) :=
  hm.trans (Moves.mono (a := [.boot, .regs, .rings, .counters, .jobs, .steps, .tiles, .boughs, .prods, .nextOrder, .weights, .links, .faults, .power, .sec, .out]) (by
  have h := Moves.refl [.boot, .regs, .rings, .counters, .jobs, .steps, .tiles, .boughs, .prods, .nextOrder, .weights, .links, .faults, .power, .sec, .out] s
  unfold cutEffect
  repeat' first
    | (extract_lets +onlyGivenNames x; first | (refine Moves.cut (s := x) ?_ ?_; (on_goal 2 => intro hx; clear_value x); (on_goal 1 => subst x)) | subst x)
    | with_reducible assumption
    | (show Field.within _ _ = true; decide)
    | with_reducible apply State.complete_moves
    | with_reducible apply State.settle_moves
    | with_reducible apply State.modWeights_moves
    | with_reducible apply State.start_moves
    | with_reducible apply Moves.ite
    | split) hfl)

theorem deckReadEffect_moves {fl : List Field} {r₀ : State} {s : State} {f : Sys2Proof.Fetch} {j : Job} (hm : Moves fl r₀ s)
    (hfl : Field.within [.rings, .counters, .jobs, .out] fl = true) : Moves fl r₀ (deckReadEffect f j s) :=
  hm.trans (Moves.mono (a := [.rings, .counters, .jobs, .out]) (by
  have h := Moves.refl [.rings, .counters, .jobs, .out] s
  unfold deckReadEffect
  repeat' first
    | (extract_lets +onlyGivenNames x; first | (refine Moves.cut (s := x) ?_ ?_; (on_goal 2 => intro hx; clear_value x); (on_goal 1 => subst x)) | subst x)
    | with_reducible assumption
    | (show Field.within _ _ = true; decide)
    | with_reducible apply State.complete_moves
    | with_reducible apply State.hostWrite_moves
    | with_reducible apply Moves.ite
    | split) hfl)

end Sys2Proof.Machine
end

