-- ==== Sys2Proof/Laws/TuneOpsMoves.lean ====
section
/-! SUPPORT. What each operation of Machine/TuneOps.lean may change, and that it keeps the canonical form. -/

set_option Elab.async false

namespace Sys2Proof.Machine

set_option linter.unusedTactic false
set_option linter.unreachableTactic false

theorem State.keepColumn_moves {fl : List Field} {r₀ : State} {s : State} {w : Sys2Proof.WorkRef} {m : Mat} {v : List Sys2Proof.F32} (hm : Moves fl r₀ s)
    (hfl : Field.within [.steps] fl = true) : Moves fl r₀ (State.keepColumn s w m v) :=
  hm.trans (Moves.mono (a := [.steps]) (by
  have h := Moves.refl [.steps] s
  unfold State.keepColumn
  repeat' first
    | with_reducible assumption
    | (show Field.within _ _ = true; decide)
    | with_reducible apply State.modStep_moves
    | with_reducible apply Moves.ite
    | split) hfl)

end Sys2Proof.Machine
end

