-- ==== Sys2Proof/Laws/ProductsMoves.lean ====
section
/-! SUPPORT. What each operation of Machine/Products.lean may change, and that it keeps the canonical form. -/

set_option Elab.async false

namespace Sys2Proof.Machine

set_option linter.unusedTactic false
set_option linter.unreachableTactic false

theorem State.countSpan_moves {fl : List Field} {r₀ : State} {s : State} {v : ActVec} {blocks : List Sys2Proof.Block} {b : ℕ} (hm : Moves fl r₀ s)
    (hfl : Field.within [.counters] fl = true) : Moves fl r₀ (State.countSpan s v blocks b) :=
  hm.trans (Moves.mono (a := [.counters]) (by
  have h := Moves.refl [.counters] s
  unfold State.countSpan
  repeat' first
    | (extract_lets +onlyGivenNames x; first | (refine Moves.cut (s := x) ?_ ?_; (on_goal 2 => intro hx; clear_value x); (on_goal 1 => subst x)) | subst x)
    | with_reducible assumption
    | (show Field.within _ _ = true; decide)
    | with_reducible apply State.count_moves
    | with_reducible apply Moves.ite
    | split) hfl)

theorem State.countIssue_moves {fl : List Field} {r₀ : State} {s : State} {r : Sys2Proof.ProductReq} {v : ActVec} {p : Prod} (hm : Moves fl r₀ s)
    (hfl : Field.within [.counters, .steps] fl = true) : Moves fl r₀ (State.countIssue s r v p) :=
  hm.trans (Moves.mono (a := [.counters, .steps]) (by
  have h := Moves.refl [.counters, .steps] s
  unfold State.countIssue
  repeat' first
    | (extract_lets +onlyGivenNames x; first | (refine Moves.cut (s := x) ?_ ?_; (on_goal 2 => intro hx; clear_value x); (on_goal 1 => subst x)) | subst x)
    | with_reducible assumption
    | (show Field.within _ _ = true; decide)
    | with_reducible apply State.countSpan_moves
    | with_reducible apply State.count_moves
    | with_reducible apply State.modStep_moves
    | with_reducible apply Moves.ite
    | split) hfl)

theorem State.workEvent_moves {fl : List Field} {r₀ : State} {s : State} {w : Sys2Proof.WorkRef} {matrix : ℕ} {code : ℕ} {u : UnitField} {own' : Sys2Proof.Bytes} (hm : Moves fl r₀ s)
    (hfl : Field.within [.rings, .counters, .sec, .out] fl = true) : Moves fl r₀ (State.workEvent s w matrix code u own') :=
  hm.trans (Moves.mono (a := [.rings, .counters, .sec, .out]) (by
  have h := Moves.refl [.rings, .counters, .sec, .out] s
  unfold State.workEvent
  repeat' first
    | (extract_lets +onlyGivenNames x; first | (refine Moves.cut (s := x) ?_ ?_; (on_goal 2 => intro hx; clear_value x); (on_goal 1 => subst x)) | subst x)
    | with_reducible assumption
    | (show Field.within _ _ = true; decide)
    | with_reducible apply State.event_moves
    | with_reducible apply Moves.ite
    | split) hfl)

theorem State.mismatch_moves {fl : List Field} {r₀ : State} {s : State} {p : Prod} {bad : List (ℕ × Bool × ℤ)} (hm : Moves fl r₀ s)
    (hfl : Field.within [.rings, .counters, .steps, .tiles, .prods, .links, .faults, .sec, .out] fl = true) : Moves fl r₀ (State.mismatch s p bad) :=
  hm.trans (Moves.mono (a := [.rings, .counters, .steps, .tiles, .prods, .links, .faults, .sec, .out]) (by
  have h := Moves.refl [.rings, .counters, .steps, .tiles, .prods, .links, .faults, .sec, .out] s
  unfold State.mismatch
  repeat' first
    | (extract_lets +onlyGivenNames x; first | (refine Moves.cut (s := x) ?_ ?_; (on_goal 2 => intro hx; clear_value x); (on_goal 1 => subst x)) | subst x)
    | with_reducible assumption
    | (show Field.within _ _ = true; decide)
    | with_reducible apply State.modFaults_moves
    | with_reducible apply State.count_moves
    | with_reducible apply State.workEvent_moves
    | with_reducible apply State.queueRepeat_moves
    | with_reducible apply State.suspectProd_moves
    | with_reducible apply Moves.ite
    | split) hfl)

theorem State.holdTiles_moves {fl : List Field} {r₀ : State} {s : State} {ts : List ℕ} (hm : Moves fl r₀ s)
    (hfl : Field.within [.tiles] fl = true) : Moves fl r₀ (State.holdTiles s ts) :=
  hm.trans (Moves.mono (a := [.tiles]) (by
  have h := Moves.refl [.tiles] s
  unfold State.holdTiles
  repeat' first
    | (extract_lets +onlyGivenNames x; first | (refine Moves.cut (s := x) ?_ ?_; (on_goal 2 => intro hx; clear_value x); (on_goal 1 => subst x)) | subst x)
    | with_reducible assumption
    | (show Field.within _ _ = true; decide)
    | with_reducible apply State.modTile_moves
    | with_reducible apply Moves.each
    | (intro _ _ _)
    | split) hfl)

theorem State.lastPhase_moves {fl : List Field} {r₀ : State} {s : State} {id : ℕ} (hm : Moves fl r₀ s)
    (hfl : Field.within [.rings, .counters, .steps, .tiles, .boughs, .prods, .links, .faults, .sec, .out] fl = true) : Moves fl r₀ (State.lastPhase s id) :=
  hm.trans (Moves.mono (a := [.rings, .counters, .steps, .tiles, .boughs, .prods, .links, .faults, .sec, .out]) (by
  have h := Moves.refl [.rings, .counters, .steps, .tiles, .boughs, .prods, .links, .faults, .sec, .out] s
  unfold State.lastPhase
  repeat' first
    | (extract_lets +onlyGivenNames x; first | (refine Moves.cut (s := x) ?_ ?_; (on_goal 2 => intro hx; clear_value x); (on_goal 1 => subst x)) | subst x)
    | with_reducible assumption
    | (show Field.within _ _ = true; decide)
    | with_reducible apply State.workEvent_moves
    | with_reducible apply State.queueRepeat_moves
    | with_reducible apply State.suspectProd_moves
    | with_reducible apply State.modStep_moves
    | with_reducible apply State.modBough_moves
    | with_reducible apply State.modProd_moves
    | with_reducible apply State.count_moves
    | with_reducible apply State.mismatch_moves
    | with_reducible apply State.holdTiles_moves
    | with_reducible apply Moves.ite
    | split) hfl)

theorem State.enqueueProd_moves {fl : List Field} {r₀ : State} {s : State} {p : Prod} (hm : Moves fl r₀ s)
    (hfl : Field.within [.rings, .counters, .steps, .tiles, .boughs, .prods, .links, .faults, .power, .sec, .out] fl = true) : Moves fl r₀ (State.enqueueProd s p) :=
  hm.trans (Moves.mono (a := [.rings, .counters, .steps, .tiles, .boughs, .prods, .links, .faults, .power, .sec, .out]) (by
  have h := Moves.refl [.rings, .counters, .steps, .tiles, .boughs, .prods, .links, .faults, .power, .sec, .out] s
  unfold State.enqueueProd
  repeat' first
    | (extract_lets +onlyGivenNames x; first | (refine Moves.cut (s := x) ?_ ?_; (on_goal 2 => intro hx; clear_value x); (on_goal 1 => subst x)) | subst x)
    | with_reducible assumption
    | (show Field.within _ _ = true; decide)
    | with_reducible apply State.lastPhase_moves
    | with_reducible apply State.count_moves
    | with_reducible apply State.tileNext_moves
    | with_reducible apply State.modTile_moves
    | with_reducible apply Moves.ite
    | split) hfl)

theorem State.issueWith_moves {fl : List Field} {r₀ : State} {s : State} {r : Sys2Proof.ProductReq} {fresh : Bool} (hm : Moves fl r₀ s)
    (hfl : Field.within [.rings, .counters, .steps, .tiles, .boughs, .prods, .nextProd, .links, .faults, .power, .sec, .out] fl = true) : Moves fl r₀ (State.issueWith s r fresh) :=
  hm.trans (Moves.mono (a := [.rings, .counters, .steps, .tiles, .boughs, .prods, .nextProd, .links, .faults, .power, .sec, .out]) (by
  have h := Moves.refl [.rings, .counters, .steps, .tiles, .boughs, .prods, .nextProd, .links, .faults, .power, .sec, .out] s
  unfold State.issueWith
  repeat' first
    | (extract_lets +onlyGivenNames x; first | (refine Moves.cut (s := x) ?_ ?_; (on_goal 2 => intro hx; clear_value x); (on_goal 1 => subst x)) | subst x)
    | with_reducible assumption
    | (show Field.within _ _ = true; decide)
    | with_reducible apply State.countIssue_moves
    | with_reducible apply State.useUnit_moves
    | with_reducible apply State.enqueueProd_moves
    | with_reducible apply Moves.ite
    | split
    | (refine Moves.of_lit ?_ ?_ ?_)
    | (intro f hf; cases f <;> first | exact hf.elim (by decide) | rfl)
    | (exact fun c => ⟨c.parts, c.rings, c.counters, c.calls, c.customers, c.tiles, c.boughs, c.calSave, c.links, c.mem⟩)) hfl)

theorem State.requestWith_moves {fl : List Field} {r₀ : State} {s : State} {r : Sys2Proof.ProductReq} {fresh : Bool} (hm : Moves fl r₀ s)
    (hfl : Field.within [.rings, .counters, .steps, .tiles, .boughs, .prods, .nextProd, .xferWaits, .links, .faults, .power, .sec, .out] fl = true) : Moves fl r₀ (State.requestWith s r fresh) :=
  hm.trans (Moves.mono (a := [.rings, .counters, .steps, .tiles, .boughs, .prods, .nextProd, .xferWaits, .links, .faults, .power, .sec, .out]) (by
  have h := Moves.refl [.rings, .counters, .steps, .tiles, .boughs, .prods, .nextProd, .xferWaits, .links, .faults, .power, .sec, .out] s
  unfold State.requestWith
  repeat' first
    | (extract_lets +onlyGivenNames x; first | (refine Moves.cut (s := x) ?_ ?_; (on_goal 2 => intro hx; clear_value x); (on_goal 1 => subst x)) | subst x)
    | with_reducible assumption
    | (show Field.within _ _ = true; decide)
    | with_reducible apply State.count_moves
    | with_reducible apply State.issueWith_moves
    | with_reducible apply Moves.ite
    | split
    | (refine Moves.of_lit ?_ ?_ ?_)
    | (intro f hf; cases f <;> first | exact hf.elim (by decide) | rfl)
    | (exact fun c => ⟨c.parts, c.rings, c.counters, c.calls, c.customers, c.tiles, c.boughs, c.calSave, c.links, c.mem⟩)) hfl)

theorem State.countBlocks_moves {fl : List Field} {r₀ : State} {s : State} {scope : ℕ} {u : ℕ} {xs : List Sys2Proof.F32} {bs : List Sys2Proof.Block} (hm : Moves fl r₀ s)
    (hfl : Field.within [.counters] fl = true) : Moves fl r₀ (State.countBlocks s scope u xs bs) :=
  hm.trans (Moves.mono (a := [.counters]) (by
  have h := Moves.refl [.counters] s
  unfold State.countBlocks
  repeat' first
    | (extract_lets +onlyGivenNames x; first | (refine Moves.cut (s := x) ?_ ?_; (on_goal 2 => intro hx; clear_value x); (on_goal 1 => subst x)) | subst x)
    | with_reducible assumption
    | (show Field.within _ _ = true; decide)
    | with_reducible apply State.count_moves
    | split) hfl)

theorem State.phaseDone_moves {fl : List Field} {r₀ : State} {s : State} {t : ℕ} {p : Prod} {codes : List ℤ} (hm : Moves fl r₀ s)
    (hfl : Field.within [.rings, .counters, .steps, .tiles, .boughs, .prods, .links, .faults, .power, .sec, .out] fl = true) : Moves fl r₀ (State.phaseDone s t p codes) :=
  hm.trans (Moves.mono (a := [.rings, .counters, .steps, .tiles, .boughs, .prods, .links, .faults, .power, .sec, .out]) (by
  have h := Moves.refl [.rings, .counters, .steps, .tiles, .boughs, .prods, .links, .faults, .power, .sec, .out] s
  unfold State.phaseDone
  repeat' first
    | (extract_lets +onlyGivenNames x; first | (refine Moves.cut (s := x) ?_ ?_; (on_goal 2 => intro hx; clear_value x); (on_goal 1 => subst x)) | subst x)
    | with_reducible assumption
    | (show Field.within _ _ = true; decide)
    | with_reducible apply State.tileNext_moves
    | with_reducible apply State.modTile_moves
    | with_reducible apply State.countClips_moves
    | with_reducible apply State.count_moves
    | with_reducible apply State.modProd_moves
    | with_reducible apply State.lastPhase_moves
    | with_reducible apply Moves.ite
    | split) hfl)

theorem State.loseWeight_moves {fl : List Field} {r₀ : State} {s : State} {image : ℕ} {matrix : ℕ} {addr : ℕ} (hm : Moves fl r₀ s)
    (hfl : Field.within everyPiece fl = true) : Moves fl r₀ (State.loseWeight s image matrix addr) :=
  hm.trans (Moves.mono (a := everyPiece) (by
  have h := Moves.refl everyPiece s
  unfold State.loseWeight
  repeat' first
    | (extract_lets +onlyGivenNames x; first | (refine Moves.cut (s := x) ?_ ?_; (on_goal 2 => intro hx; clear_value x); (on_goal 1 => subst x)) | subst x)
    | with_reducible assumption
    | (show Field.within _ _ = true; decide)
    | with_reducible apply State.event_moves
    | with_reducible apply State.modGen_moves
    | with_reducible apply State.modBoot_moves
    | with_reducible apply State.resetArrives_moves
    | with_reducible apply Moves.ite
    | split) hfl)

theorem State.readWeight_moves {fl : List Field} {r₀ : State} {s : State} {k : SlotKey} {off : ℕ} {flips : Sys2Proof.Flips} {second : Sys2Proof.Flips} (hm : Moves fl r₀ s)
    (hfl : Field.within everyPiece fl = true) : Moves fl r₀ (State.readWeight s k off flips second).2 :=
  hm.trans (Moves.mono (a := everyPiece) (by
  have h := Moves.refl everyPiece s
  unfold State.readWeight
  repeat' first
    | (extract_lets +onlyGivenNames x; first | (refine Moves.cut (s := x) ?_ ?_; (on_goal 2 => intro hx; clear_value x); (on_goal 1 => subst x)) | subst x)
    | with_reducible assumption
    | (show Field.within _ _ = true; decide)
    | with_reducible apply State.noteRead_moves
    | with_reducible apply State.loseWeight_moves
    | with_reducible apply State.event_moves
    | with_reducible apply State.count_moves
    | split) hfl)

theorem State.request_moves {fl : List Field} {r₀ : State} {s : State} {r : Sys2Proof.ProductReq} (hm : Moves fl r₀ s)
    (hfl : Field.within [.rings, .counters, .steps, .tiles, .boughs, .prods, .nextProd, .xferWaits, .links, .faults, .power, .sec, .out] fl = true) : Moves fl r₀ (State.request s r) :=
  hm.trans (Moves.mono (a := [.rings, .counters, .steps, .tiles, .boughs, .prods, .nextProd, .xferWaits, .links, .faults, .power, .sec, .out]) (by
  have h := Moves.refl [.rings, .counters, .steps, .tiles, .boughs, .prods, .nextProd, .xferWaits, .links, .faults, .power, .sec, .out] s
  unfold State.request
  repeat' first
    | with_reducible assumption
    | (show Field.within _ _ = true; decide)
    | with_reducible apply State.requestWith_moves
    | split) hfl)

theorem State.quantiseColumns_moves {fl : List Field} {r₀ : State} {s : State} {w : Sys2Proof.WorkRef} {image : ℕ} {m : Mat} {r : ℕ} {unit : ℕ} {xs : List Sys2Proof.F32} (hm : Moves fl r₀ s)
    (hfl : Field.within [.counters, .acts] fl = true) : Moves fl r₀ (State.quantiseColumns s w image m r unit xs) :=
  hm.trans (Moves.mono (a := [.counters, .acts]) (by
  have h := Moves.refl [.counters, .acts] s
  unfold State.quantiseColumns
  repeat' first
    | (extract_lets +onlyGivenNames x; first | (refine Moves.cut (s := x) ?_ ?_; (on_goal 2 => intro hx; clear_value x); (on_goal 1 => subst x)) | subst x)
    | with_reducible assumption
    | (show Field.within _ _ = true; decide)
    | with_reducible apply State.countBlocks_moves
    | split
    | (refine Moves.of_lit ?_ ?_ ?_)
    | (intro f hf; cases f <;> first | exact hf.elim (by decide) | rfl)
    | (exact fun c => ⟨c.parts, c.rings, c.counters, c.calls, c.customers, c.tiles, c.boughs, c.calSave, c.links, c.mem⟩)) hfl)

theorem State.noteSpan_moves {fl : List Field} {r₀ : State} {s : State} {matrix : ℕ} {n : ℕ} {budget : ℕ} (hm : Moves fl r₀ s)
    (hfl : Field.within [.histos] fl = true) : Moves fl r₀ (State.noteSpan s matrix n budget) :=
  hm.trans (Moves.mono (a := [.histos]) (by
  have h := Moves.refl [.histos] s
  unfold State.noteSpan
  repeat' first
    | (extract_lets +onlyGivenNames x; first | (refine Moves.cut (s := x) ?_ ?_; (on_goal 2 => intro hx; clear_value x); (on_goal 1 => subst x)) | subst x)
    | with_reducible assumption
    | (show Field.within _ _ = true; decide)
    | with_reducible apply Moves.ite
    | split
    | (refine Moves.of_lit ?_ ?_ ?_)
    | (intro f hf; cases f <;> first | exact hf.elim (by decide) | rfl)
    | (exact fun c => ⟨c.parts, c.rings, c.counters, c.calls, c.customers, c.tiles, c.boughs, c.calSave, c.links, c.mem⟩)) hfl)

theorem State.quantiseInto_moves {fl : List Field} {r₀ : State} {s : State} {w : Sys2Proof.WorkRef} {m : Mat} {a8 : Bool} {unit : ℕ} {xs : List Sys2Proof.F32} (hm : Moves fl r₀ s)
    (hfl : Field.within [.counters, .acts, .histos] fl = true) : Moves fl r₀ (State.quantiseInto s w m a8 unit xs) :=
  hm.trans (Moves.mono (a := [.counters, .acts, .histos]) (by
  have h := Moves.refl [.counters, .acts, .histos] s
  unfold State.quantiseInto
  repeat' first
    | (extract_lets +onlyGivenNames x; first | (refine Moves.cut (s := x) ?_ ?_; (on_goal 2 => intro hx; clear_value x); (on_goal 1 => subst x)) | subst x)
    | with_reducible assumption
    | (show Field.within _ _ = true; decide)
    | with_reducible apply State.countBlocks_moves
    | with_reducible apply State.noteSpan_moves
    | with_reducible apply Moves.each
    | with_reducible apply Moves.ite
    | (intro _ _ _)
    | split
    | (refine Moves.of_lit ?_ ?_ ?_)
    | (intro f hf; cases f <;> first | exact hf.elim (by decide) | rfl)
    | (exact fun c => ⟨c.parts, c.rings, c.counters, c.calls, c.customers, c.tiles, c.boughs, c.calSave, c.links, c.mem⟩)) hfl)

theorem State.slowReads_reach {r₀ : State} {s : State} {reads : List (ℕ × BlockRead)}
    (hm : Moves everyPiece r₀ s) : Moves everyPiece r₀ (State.slowReads reads s) := by
  induction reads generalizing s with
  | nil => exact hm
  | cons x rest ih =>
    unfold State.slowReads
    split
    · exact ih hm
    · split
      · exact ih (State.modProd_moves (State.readWeight_moves hm (by decide)) (by decide))
      · exact State.readWeight_moves hm (by decide)

theorem State.slowReads_moves {fl : List Field} {r₀ : State} {s : State} {reads : List (ℕ × BlockRead)} (hm : Moves fl r₀ s)
    (hfl : Field.within everyPiece fl = true) : Moves fl r₀ (State.slowReads reads s) :=
  hm.trans (Moves.mono (State.slowReads_reach (Moves.refl _ s)) hfl)

theorem State.readBlocks_moves {fl : List Field} {r₀ : State} {s : State} {k : SlotKey} {reads : List BlockRead} (hm : Moves fl r₀ s)
    (hfl : Field.within everyPiece fl = true) : Moves fl r₀ (State.readBlocks k reads s) := by
  induction reads generalizing s with
  | nil => exact hm
  | cons r rest ih =>
    unfold State.readBlocks
    split
    · exact ih (State.readWeight_moves hm hfl)
    · exact State.readWeight_moves hm hfl

theorem State.takeVec_moves {fl : List Field} {r₀ : State} {s : State} {k : Sys2Proof.SumKey} {row : Option ℕ} {vec : Option Sys2Proof.VecIn} (hm : Moves fl r₀ s)
    (hfl : Field.within [.counters, .steps, .acts, .histos] fl = true) : Moves fl r₀ (State.takeVec s k row vec) :=
  hm.trans (Moves.mono (a := [.counters, .steps, .acts, .histos]) (by
  have h := Moves.refl [.counters, .steps, .acts, .histos] s
  unfold State.takeVec
  repeat' first
    | (extract_lets +onlyGivenNames x; first | (refine Moves.cut (s := x) ?_ ?_; (on_goal 2 => intro hx; clear_value x); (on_goal 1 => subst x)) | subst x)
    | with_reducible assumption
    | (show Field.within _ _ = true; decide)
    | with_reducible apply State.quantiseInto_moves
    | with_reducible apply State.quantiseColumns_moves
    | with_reducible apply State.keepColumn_moves
    | with_reducible apply Moves.ite
    | split) hfl)

theorem State.issue_moves {fl : List Field} {r₀ : State} {s : State} {r : Sys2Proof.ProductReq} (hm : Moves fl r₀ s)
    (hfl : Field.within [.rings, .counters, .steps, .tiles, .boughs, .prods, .nextProd, .links, .faults, .power, .sec, .out] fl = true) : Moves fl r₀ (State.issue s r) :=
  hm.trans (Moves.mono (a := [.rings, .counters, .steps, .tiles, .boughs, .prods, .nextProd, .links, .faults, .power, .sec, .out]) (by
  have h := Moves.refl [.rings, .counters, .steps, .tiles, .boughs, .prods, .nextProd, .links, .faults, .power, .sec, .out] s
  unfold State.issue
  repeat' first
    | with_reducible assumption
    | (show Field.within _ _ = true; decide)
    | with_reducible apply State.issueWith_moves
    | split) hfl)

theorem State.transferDone_moves {fl : List Field} {r₀ : State} {s : State} {w : Sys2Proof.WorkRef} {n : ℕ} (hm : Moves fl r₀ s)
    (hfl : Field.within [.rings, .counters, .steps, .tiles, .boughs, .prods, .nextProd, .xferWaits, .links, .faults, .power, .sec, .out] fl = true) : Moves fl r₀ (State.transferDone s w n) :=
  hm.trans (Moves.mono (a := [.rings, .counters, .steps, .tiles, .boughs, .prods, .nextProd, .xferWaits, .links, .faults, .power, .sec, .out]) (by
  have h := Moves.refl [.rings, .counters, .steps, .tiles, .boughs, .prods, .nextProd, .xferWaits, .links, .faults, .power, .sec, .out] s
  unfold State.transferDone
  repeat' first
    | (extract_lets +onlyGivenNames x; first | (refine Moves.cut (s := x) ?_ ?_; (on_goal 2 => intro hx; clear_value x); (on_goal 1 => subst x)) | subst x)
    | with_reducible assumption
    | (show Field.within _ _ = true; decide)
    | with_reducible apply State.modStep_moves
    | with_reducible apply State.issue_moves
    | with_reducible apply Moves.each
    | (intro _ _ _)
    | split
    | (refine Moves.of_lit ?_ ?_ ?_)
    | (intro f hf; cases f <;> first | exact hf.elim (by decide) | rfl)
    | (exact fun c => ⟨c.parts, c.rings, c.counters, c.calls, c.customers, c.tiles, c.boughs, c.calSave, c.links, c.mem⟩)) hfl)

theorem State.rowReturns_moves {fl : List Field} {r₀ : State} {s : State} {p : Prod} {reads : List Sys2Proof.BlockRead} (hm : Moves fl r₀ s)
    (hfl : Field.within everyPiece fl = true) : Moves fl r₀ (State.rowReturns s p reads) :=
  hm.trans (Moves.mono (a := everyPiece) (by
  have h := Moves.refl everyPiece s
  unfold State.rowReturns
  repeat' first
    | (extract_lets +onlyGivenNames x; first | (refine Moves.cut (s := x) ?_ ?_; (on_goal 2 => intro hx; clear_value x); (on_goal 1 => subst x)) | subst x)
    | with_reducible assumption
    | (show Field.within _ _ = true; decide)
    | with_reducible apply State.readBlocks_moves
    | with_reducible apply State.modProd_moves
    | with_reducible apply State.count_moves
    | with_reducible apply Moves.ite
    | split) hfl)

theorem State.passDone_moves {fl : List Field} {r₀ : State} {s : State} {p : Prod} (hm : Moves fl r₀ s)
    (hfl : Field.within [.rings, .counters, .steps, .tiles, .boughs, .prods, .links, .faults, .power, .sec, .out] fl = true) : Moves fl r₀ (State.passDone s p) :=
  hm.trans (Moves.mono (a := [.rings, .counters, .steps, .tiles, .boughs, .prods, .links, .faults, .power, .sec, .out]) (by
  have h := Moves.refl [.rings, .counters, .steps, .tiles, .boughs, .prods, .links, .faults, .power, .sec, .out] s
  unfold State.passDone
  repeat' first
    | (extract_lets +onlyGivenNames x; first | (refine Moves.cut (s := x) ?_ ?_; (on_goal 2 => intro hx; clear_value x); (on_goal 1 => subst x)) | subst x)
    | with_reducible assumption
    | (show Field.within _ _ = true; decide)
    | with_reducible apply State.count_moves
    | with_reducible apply State.modProd_moves
    | with_reducible apply State.holdTiles_moves
    | with_reducible apply State.tileNext_moves
    | with_reducible apply Moves.each
    | with_reducible apply Moves.foldl
    | with_reducible apply Moves.foldl_fst
    | with_reducible apply Moves.ite
    | (intro _ _ _)
    | split) hfl)

theorem State.passReturns_moves {fl : List Field} {r₀ : State} {s : State} {p : Prod} {reads : List Sys2Proof.BlockRead} (hm : Moves fl r₀ s)
    (hfl : Field.within everyPiece fl = true) : Moves fl r₀ (State.passReturns s p reads) :=
  hm.trans (Moves.mono (a := everyPiece) (by
  have h := Moves.refl everyPiece s
  unfold State.passReturns
  repeat' first
    | (extract_lets +onlyGivenNames x; first | (refine Moves.cut (s := x) ?_ ?_; (on_goal 2 => intro hx; clear_value x); (on_goal 1 => subst x)) | subst x)
    | with_reducible assumption
    | (show Field.within _ _ = true; decide)
    | with_reducible apply State.readBlocks_moves
    | with_reducible apply State.passDone_moves
    | with_reducible apply State.modProd_moves
    | with_reducible apply Moves.ite
    | split) hfl)

end Sys2Proof.Machine
end

