-- ==== Sys2Proof/Laws/StepOpsMoves.lean ====
section
/-! SUPPORT. What each operation of Machine/StepOps.lean may change, and that it keeps the canonical form. -/

set_option Elab.async false

namespace Sys2Proof.Machine

set_option linter.unusedTactic false
set_option linter.unreachableTactic false

theorem State.moveStep_moves {fl : List Field} {r₀ : State} {s : State} {c : ℕ} {n : ℕ} (hm : Moves fl r₀ s)
    (hfl : Field.within [.counters, .steps, .links, .out] fl = true) : Moves fl r₀ (State.moveStep s c n) :=
  hm.trans (Moves.mono (a := [.counters, .steps, .links, .out]) (by
  have h := Moves.refl [.counters, .steps, .links, .out] s
  unfold State.moveStep
  repeat' first
    | (extract_lets +onlyGivenNames x; first | (refine Moves.cut (s := x) ?_ ?_; (on_goal 2 => intro hx; clear_value x); (on_goal 1 => subst x)) | subst x)
    | with_reducible assumption
    | (show Field.within _ _ = true; decide)
    | with_reducible apply State.journal_moves
    | with_reducible apply State.modStep_moves
    | with_reducible apply State.send_moves
    | with_reducible apply Moves.ite
    | split) hfl)

theorem State.saveLost_moves {fl : List Field} {r₀ : State} {s : State} {e : Entry} (hm : Moves fl r₀ s)
    (hfl : Field.within [.rings, .counters, .sec, .out] fl = true) : Moves fl r₀ (State.saveLost s e) :=
  hm.trans (Moves.mono (a := [.rings, .counters, .sec, .out]) (by
  have h := Moves.refl [.rings, .counters, .sec, .out] s
  unfold State.saveLost
  repeat' first
    | with_reducible assumption
    | (show Field.within _ _ = true; decide)
    | with_reducible apply State.uncorrEvent_moves
    | split) hfl)

theorem State.restartStep_moves {fl : List Field} {r₀ : State} {s : State} {c : ℕ} {n : ℕ} {wait : Bool} (hm : Moves fl r₀ s)
    (hfl : Field.within [.rings, .counters, .steps, .tiles, .boughs, .prods, .sums, .handoffs, .acts, .xferWaits, .canopy, .backs, .latches, .attnWaits, .servedKv, .servedAttn, .mem, .sec, .out] fl = true) : Moves fl r₀ (State.restartStep s c n wait) :=
  hm.trans (Moves.mono (a := [.rings, .counters, .steps, .tiles, .boughs, .prods, .sums, .handoffs, .acts, .xferWaits, .canopy, .backs, .latches, .attnWaits, .servedKv, .servedAttn, .mem, .sec, .out]) (by
  have h := Moves.refl [.rings, .counters, .steps, .tiles, .boughs, .prods, .sums, .handoffs, .acts, .xferWaits, .canopy, .backs, .latches, .attnWaits, .servedKv, .servedAttn, .mem, .sec, .out] s
  unfold State.restartStep
  repeat' first
    | (extract_lets +onlyGivenNames x; first | (refine Moves.cut (s := x) ?_ ?_; (on_goal 2 => intro hx; clear_value x); (on_goal 1 => subst x)) | subst x)
    | with_reducible assumption
    | (show Field.within _ _ = true; decide)
    | with_reducible apply State.modStep_moves
    | with_reducible apply State.unqueue_moves
    | with_reducible apply State.forget_moves
    | with_reducible apply Moves.ite
    | split
    | (refine Moves.of_lit ?_ ?_ ?_)
    | (intro f hf; cases f <;> first | exact hf.elim (by decide) | rfl)
    | (exact fun c => ⟨c.parts, c.rings, c.counters, c.calls, c.customers, c.tiles, c.boughs, c.calSave, c.links, c.mem⟩)) hfl)

theorem State.undiscard_moves {fl : List Field} {r₀ : State} {s : State} {c : ℕ} (hm : Moves fl r₀ s)
    (hfl : Field.within [.steps] fl = true) : Moves fl r₀ (State.undiscard s c) :=
  hm.trans (Moves.mono (a := [.steps]) (by
  have h := Moves.refl [.steps] s
  unfold State.undiscard
  repeat' first
    | with_reducible assumption
    | (show Field.within _ _ = true; decide)
    | with_reducible apply Moves.ite
    | split
    | (refine Moves.of_lit ?_ ?_ ?_)
    | (intro f hf; cases f <;> first | exact hf.elim (by decide) | rfl)
    | (exact fun c => ⟨c.parts, c.rings, c.counters, c.calls, c.customers, c.tiles, c.boughs, c.calSave, c.links, c.mem⟩)) hfl)

theorem State.dropSaves_moves {fl : List Field} {r₀ : State} {s : State} {c : ℕ} {e : Entry} (hm : Moves fl r₀ s)
    (hfl : Field.within [.parts, .counters, .calls, .links, .out] fl = true) : Moves fl r₀ (State.dropSaves s c e) :=
  hm.trans (Moves.mono (a := [.parts, .counters, .calls, .links, .out]) (by
  have h := Moves.refl [.parts, .counters, .calls, .links, .out] s
  unfold State.dropSaves
  repeat' first
    | with_reducible assumption
    | (show Field.within _ _ = true; decide)
    | with_reducible apply State.modCall_moves
    | with_reducible apply State.modPart_moves
    | with_reducible apply Moves.ite
    | split) hfl)

theorem State.relayBack_moves {fl : List Field} {r₀ : State} {s : State} {w : Sys2Proof.WorkRef} {m : Mat} {x : Step} {v : List Sys2Proof.F32} (hm : Moves fl r₀ s)
    (hfl : Field.within [.counters, .links, .out] fl = true) : Moves fl r₀ (State.relayBack s w m x v) :=
  hm.trans (Moves.mono (a := [.counters, .links, .out]) (by
  have h := Moves.refl [.counters, .links, .out] s
  unfold State.relayBack
  repeat' first
    | (extract_lets +onlyGivenNames x; first | (refine Moves.cut (s := x) ?_ ?_; (on_goal 2 => intro hx; clear_value x); (on_goal 1 => subst x)) | subst x)
    | with_reducible assumption
    | (show Field.within _ _ = true; decide)
    | with_reducible apply State.send_moves
    | with_reducible apply Moves.ite
    | split) hfl)

theorem State.relayOut_moves {fl : List Field} {r₀ : State} {s : State} {c : ℕ} {n : ℕ} {item : Sys2Proof.ActItem} (hm : Moves fl r₀ s)
    (hfl : Field.within [.counters, .steps, .links, .out] fl = true) : Moves fl r₀ (State.relayOut s c n item) :=
  hm.trans (Moves.mono (a := [.counters, .steps, .links, .out]) (by
  have h := Moves.refl [.counters, .steps, .links, .out] s
  unfold State.relayOut
  repeat' first
    | (extract_lets +onlyGivenNames x; first | (refine Moves.cut (s := x) ?_ ?_; (on_goal 2 => intro hx; clear_value x); (on_goal 1 => subst x)) | subst x)
    | with_reducible assumption
    | (show Field.within _ _ = true; decide)
    | with_reducible apply State.modStep_moves
    | with_reducible apply State.send_moves
    | with_reducible apply Moves.ite
    | split) hfl)

theorem State.restState_moves {fl : List Field} {r₀ : State} {s : State} {c : ℕ} (hm : Moves fl r₀ s)
    (hfl : Field.within [.parts, .rings, .counters, .jobs, .calls, .steps, .batch, .grafts, .tiles, .boughs, .prods, .sums, .handoffs, .acts, .xferWaits, .canopy, .backs, .latches, .attnWaits, .servedKv, .servedAttn, .mem, .links, .sec, .out] fl = true) : Moves fl r₀ (State.restState s c) :=
  hm.trans (Moves.mono (a := [.parts, .rings, .counters, .jobs, .calls, .steps, .batch, .grafts, .tiles, .boughs, .prods, .sums, .handoffs, .acts, .xferWaits, .canopy, .backs, .latches, .attnWaits, .servedKv, .servedAttn, .mem, .links, .sec, .out]) (by
  have h := Moves.refl [.parts, .rings, .counters, .jobs, .calls, .steps, .batch, .grafts, .tiles, .boughs, .prods, .sums, .handoffs, .acts, .xferWaits, .canopy, .backs, .latches, .attnWaits, .servedKv, .servedAttn, .mem, .links, .sec, .out] s
  unfold State.restState
  repeat' first
    | (extract_lets +onlyGivenNames x; first | (refine Moves.cut (s := x) ?_ ?_; (on_goal 2 => intro hx; clear_value x); (on_goal 1 => subst x)) | subst x)
    | with_reducible assumption
    | (show Field.within _ _ = true; decide)
    | with_reducible apply State.endCall_moves
    | with_reducible apply State.modCall_moves
    | with_reducible apply State.count_moves
    | with_reducible apply Moves.ite
    | split) hfl)

theorem State.stepGone_moves {fl : List Field} {r₀ : State} {s : State} {c : ℕ} {n : ℕ} (hm : Moves fl r₀ s)
    (hfl : Field.within [.boot, .regs, .rings, .counters, .jobs, .steps, .tiles, .boughs, .prods, .nextOrder, .sums, .handoffs, .acts, .xferWaits, .canopy, .backs, .latches, .attnWaits, .servedKv, .servedAttn, .weights, .mem, .links, .faults, .power, .sec, .out] fl = true) : Moves fl r₀ (State.stepGone s c n) :=
  hm.trans (Moves.mono (a := [.boot, .regs, .rings, .counters, .jobs, .steps, .tiles, .boughs, .prods, .nextOrder, .sums, .handoffs, .acts, .xferWaits, .canopy, .backs, .latches, .attnWaits, .servedKv, .servedAttn, .weights, .mem, .links, .faults, .power, .sec, .out]) (by
  have h := Moves.refl [.boot, .regs, .rings, .counters, .jobs, .steps, .tiles, .boughs, .prods, .nextOrder, .sums, .handoffs, .acts, .xferWaits, .canopy, .backs, .latches, .attnWaits, .servedKv, .servedAttn, .weights, .mem, .links, .faults, .power, .sec, .out] s
  unfold State.stepGone
  repeat' first
    | (extract_lets +onlyGivenNames x; first | (refine Moves.cut (s := x) ?_ ?_; (on_goal 2 => intro hx; clear_value x); (on_goal 1 => subst x)) | subst x)
    | with_reducible assumption
    | (show Field.within _ _ = true; decide)
    | with_reducible apply State.settle_moves
    | with_reducible apply State.unqueue_moves
    | with_reducible apply State.forget_moves
    | split
    | (refine Moves.of_lit ?_ ?_ ?_)
    | (intro f hf; cases f <;> first | exact hf.elim (by decide) | rfl)
    | (exact fun c => ⟨c.parts, c.rings, c.counters, c.calls, c.customers, c.tiles, c.boughs, c.calSave, c.links, c.mem⟩)) hfl)

theorem State.draftsDone_moves {fl : List Field} {r₀ : State} {s : State} {x : Step} (hm : Moves fl r₀ s)
    (hfl : Field.within [.boot, .regs, .parts, .rings, .counters, .jobs, .calls, .steps, .batch, .grafts, .tiles, .boughs, .prods, .nextOrder, .sums, .handoffs, .acts, .xferWaits, .canopy, .backs, .latches, .attnWaits, .servedKv, .servedAttn, .weights, .mem, .links, .faults, .power, .sec, .out] fl = true) : Moves fl r₀ (State.draftsDone s x) :=
  hm.trans (Moves.mono (a := [.boot, .regs, .parts, .rings, .counters, .jobs, .calls, .steps, .batch, .grafts, .tiles, .boughs, .prods, .nextOrder, .sums, .handoffs, .acts, .xferWaits, .canopy, .backs, .latches, .attnWaits, .servedKv, .servedAttn, .weights, .mem, .links, .faults, .power, .sec, .out]) (by
  have h := Moves.refl [.boot, .regs, .parts, .rings, .counters, .jobs, .calls, .steps, .batch, .grafts, .tiles, .boughs, .prods, .nextOrder, .sums, .handoffs, .acts, .xferWaits, .canopy, .backs, .latches, .attnWaits, .servedKv, .servedAttn, .weights, .mem, .links, .faults, .power, .sec, .out] s
  unfold State.draftsDone
  repeat' first
    | (extract_lets +onlyGivenNames x; first | (refine Moves.cut (s := x) ?_ ?_; (on_goal 2 => intro hx; clear_value x); (on_goal 1 => subst x)) | subst x)
    | with_reducible assumption
    | (show Field.within _ _ = true; decide)
    | with_reducible apply State.send_moves
    | with_reducible apply State.restState_moves
    | with_reducible apply State.stepGone_moves
    | with_reducible apply Moves.ite
    | split) hfl)

theorem State.draftToken_moves {fl : List Field} {r₀ : State} {s : State} {x : Step} {v : List Sys2Proof.F32} (hm : Moves fl r₀ s)
    (hfl : Field.within [.boot, .regs, .parts, .rings, .counters, .jobs, .calls, .steps, .batch, .grafts, .tiles, .boughs, .prods, .nextOrder, .sums, .handoffs, .acts, .xferWaits, .canopy, .backs, .latches, .attnWaits, .servedKv, .servedAttn, .weights, .mem, .links, .faults, .power, .sec, .out] fl = true) : Moves fl r₀ (State.draftToken s x v) :=
  hm.trans (Moves.mono (a := [.boot, .regs, .parts, .rings, .counters, .jobs, .calls, .steps, .batch, .grafts, .tiles, .boughs, .prods, .nextOrder, .sums, .handoffs, .acts, .xferWaits, .canopy, .backs, .latches, .attnWaits, .servedKv, .servedAttn, .weights, .mem, .links, .faults, .power, .sec, .out]) (by
  have h := Moves.refl [.boot, .regs, .parts, .rings, .counters, .jobs, .calls, .steps, .batch, .grafts, .tiles, .boughs, .prods, .nextOrder, .sums, .handoffs, .acts, .xferWaits, .canopy, .backs, .latches, .attnWaits, .servedKv, .servedAttn, .weights, .mem, .links, .faults, .power, .sec, .out] s
  unfold State.draftToken
  repeat' first
    | (extract_lets +onlyGivenNames x; first | (refine Moves.cut (s := x) ?_ ?_; (on_goal 2 => intro hx; clear_value x); (on_goal 1 => subst x)) | subst x)
    | with_reducible assumption
    | (show Field.within _ _ = true; decide)
    | with_reducible apply State.draftsDone_moves
    | with_reducible apply State.modCall_moves
    | with_reducible apply Moves.ite
    | split) hfl)

theorem State.deliver_moves {fl : List Field} {r₀ : State} {s : State} {h_ : Handoff} {m : Mat} (hm : Moves fl r₀ s)
    (hfl : Field.within [.boot, .regs, .parts, .rings, .counters, .jobs, .calls, .steps, .batch, .grafts, .tiles, .boughs, .prods, .nextOrder, .sums, .handoffs, .acts, .xferWaits, .canopy, .backs, .latches, .attnWaits, .servedKv, .servedAttn, .weights, .mem, .links, .faults, .power, .sec, .out] fl = true) : Moves fl r₀ (State.deliver s h_ m) :=
  hm.trans (Moves.mono (a := [.boot, .regs, .parts, .rings, .counters, .jobs, .calls, .steps, .batch, .grafts, .tiles, .boughs, .prods, .nextOrder, .sums, .handoffs, .acts, .xferWaits, .canopy, .backs, .latches, .attnWaits, .servedKv, .servedAttn, .weights, .mem, .links, .faults, .power, .sec, .out]) (by
  have h := Moves.refl [.boot, .regs, .parts, .rings, .counters, .jobs, .calls, .steps, .batch, .grafts, .tiles, .boughs, .prods, .nextOrder, .sums, .handoffs, .acts, .xferWaits, .canopy, .backs, .latches, .attnWaits, .servedKv, .servedAttn, .weights, .mem, .links, .faults, .power, .sec, .out] s
  unfold State.deliver
  repeat' first
    | (extract_lets +onlyGivenNames x; first | (refine Moves.cut (s := x) ?_ ?_; (on_goal 2 => intro hx; clear_value x); (on_goal 1 => subst x)) | subst x)
    | with_reducible assumption
    | (show Field.within _ _ = true; decide)
    | with_reducible apply State.modStep_moves
    | with_reducible apply State.moveStep_moves
    | with_reducible apply State.relayBack_moves
    | with_reducible apply State.relayOut_moves
    | with_reducible apply State.countBlocks_moves
    | with_reducible apply State.draftToken_moves
    | with_reducible apply Moves.ite
    | split
    | (refine Moves.of_lit ?_ ?_ ?_)
    | (intro f hf; cases f <;> first | exact hf.elim (by decide) | rfl)
    | (exact fun c => ⟨c.parts, c.rings, c.counters, c.calls, c.customers, c.tiles, c.boughs, c.calSave, c.links, c.mem⟩)) hfl)

theorem State.restoreVector_moves {fl : List Field} {r₀ : State} {s : State} {c : ℕ} {v : Saved} (hm : Moves fl r₀ s)
    (hfl : Field.within [.boot, .regs, .parts, .rings, .counters, .jobs, .calls, .steps, .batch, .grafts, .tiles, .boughs, .prods, .nextProd, .nextOrder, .sums, .handoffs, .acts, .xferWaits, .canopy, .backs, .latches, .attnWaits, .servedKv, .servedAttn, .weights, .mem, .links, .faults, .power, .sec, .out] fl = true) : Moves fl r₀ (State.restoreVector s c v) :=
  hm.trans (Moves.mono (a := [.boot, .regs, .parts, .rings, .counters, .jobs, .calls, .steps, .batch, .grafts, .tiles, .boughs, .prods, .nextProd, .nextOrder, .sums, .handoffs, .acts, .xferWaits, .canopy, .backs, .latches, .attnWaits, .servedKv, .servedAttn, .weights, .mem, .links, .faults, .power, .sec, .out]) (by
  have h := Moves.refl [.boot, .regs, .parts, .rings, .counters, .jobs, .calls, .steps, .batch, .grafts, .tiles, .boughs, .prods, .nextProd, .nextOrder, .sums, .handoffs, .acts, .xferWaits, .canopy, .backs, .latches, .attnWaits, .servedKv, .servedAttn, .weights, .mem, .links, .faults, .power, .sec, .out] s
  unfold State.restoreVector
  repeat' first
    | (extract_lets +onlyGivenNames x; first | (refine Moves.cut (s := x) ?_ ?_; (on_goal 2 => intro hx; clear_value x); (on_goal 1 => subst x)) | subst x)
    | with_reducible assumption
    | (show Field.within _ _ = true; decide)
    | with_reducible apply State.requestWith_moves
    | with_reducible apply State.deliver_moves
    | with_reducible apply Moves.each
    | with_reducible apply Moves.ite
    | (intro _ _ _)
    | split) hfl)

theorem State.restoreCall_moves {fl : List Field} {r₀ : State} {s : State} {c : ℕ} (hm : Moves fl r₀ s)
    (hfl : Field.within [.boot, .regs, .parts, .rings, .counters, .jobs, .calls, .steps, .batch, .grafts, .tiles, .boughs, .prods, .nextProd, .nextOrder, .sums, .handoffs, .acts, .xferWaits, .canopy, .backs, .latches, .attnWaits, .servedKv, .servedAttn, .weights, .mem, .links, .faults, .power, .sec, .free, .out] fl = true) : Moves fl r₀ (State.restoreCall s c) :=
  hm.trans (Moves.mono (a := [.boot, .regs, .parts, .rings, .counters, .jobs, .calls, .steps, .batch, .grafts, .tiles, .boughs, .prods, .nextProd, .nextOrder, .sums, .handoffs, .acts, .xferWaits, .canopy, .backs, .latches, .attnWaits, .servedKv, .servedAttn, .weights, .mem, .links, .faults, .power, .sec, .free, .out]) (by
  have h := Moves.refl [.boot, .regs, .parts, .rings, .counters, .jobs, .calls, .steps, .batch, .grafts, .tiles, .boughs, .prods, .nextProd, .nextOrder, .sums, .handoffs, .acts, .xferWaits, .canopy, .backs, .latches, .attnWaits, .servedKv, .servedAttn, .weights, .mem, .links, .faults, .power, .sec, .free, .out] s
  unfold State.restoreCall
  repeat' first
    | (extract_lets +onlyGivenNames x; first | (refine Moves.cut (s := x) ?_ ?_; (on_goal 2 => intro hx; clear_value x); (on_goal 1 => subst x)) | subst x)
    | with_reducible assumption
    | (show Field.within _ _ = true; decide)
    | with_reducible apply State.draw_moves
    | with_reducible apply State.endCall_moves
    | with_reducible apply State.saveLost_moves
    | with_reducible apply State.count_moves
    | with_reducible apply State.restartStep_moves
    | with_reducible apply State.undiscard_moves
    | with_reducible apply State.dropSaves_moves
    | with_reducible apply State.restoreVector_moves
    | with_reducible apply Moves.each
    | with_reducible apply Moves.ite
    | (intro _ _ _)
    | split
    | (refine Moves.of_lit ?_ ?_ ?_)
    | (intro f hf; cases f <;> first | exact hf.elim (by decide) | rfl)
    | (exact fun c => ⟨c.parts, c.rings, c.counters, c.calls, c.customers, c.tiles, c.boughs, c.calSave, c.links, c.mem⟩)) hfl)

theorem State.tidyKey_moves {fl : List Field} {r₀ : State} {s : State} {k : Sys2Proof.SumKey} (hm : Moves fl r₀ s)
    (hfl : Field.within [.prods, .sums] fl = true) : Moves fl r₀ (State.tidyKey s k) :=
  hm.trans (Moves.mono (a := [.prods, .sums]) (by
  have h := Moves.refl [.prods, .sums] s
  unfold State.tidyKey
  repeat' first
    | (extract_lets +onlyGivenNames x; first | (refine Moves.cut (s := x) ?_ ?_; (on_goal 2 => intro hx; clear_value x); (on_goal 1 => subst x)) | subst x)
    | with_reducible assumption
    | (show Field.within _ _ = true; decide)
    | with_reducible apply Moves.ite
    | split
    | (refine Moves.of_lit ?_ ?_ ?_)
    | (intro f hf; cases f <;> first | exact hf.elim (by decide) | rfl)
    | (exact fun c => ⟨c.parts, c.rings, c.counters, c.calls, c.customers, c.tiles, c.boughs, c.calSave, c.links, c.mem⟩)) hfl)

theorem State.handOff_moves {fl : List Field} {r₀ : State} {s : State} {r : SumRun} {m : Mat} {E : ℤ} (hm : Moves fl r₀ s)
    (hfl : Field.within [.boot, .regs, .parts, .rings, .counters, .jobs, .calls, .steps, .batch, .grafts, .tiles, .boughs, .prods, .nextOrder, .sums, .handoffs, .acts, .xferWaits, .canopy, .backs, .latches, .attnWaits, .servedKv, .servedAttn, .weights, .mem, .links, .faults, .power, .sec, .out] fl = true) : Moves fl r₀ (State.handOff s r m E) :=
  hm.trans (Moves.mono (a := [.boot, .regs, .parts, .rings, .counters, .jobs, .calls, .steps, .batch, .grafts, .tiles, .boughs, .prods, .nextOrder, .sums, .handoffs, .acts, .xferWaits, .canopy, .backs, .latches, .attnWaits, .servedKv, .servedAttn, .weights, .mem, .links, .faults, .power, .sec, .out]) (by
  have h := Moves.refl [.boot, .regs, .parts, .rings, .counters, .jobs, .calls, .steps, .batch, .grafts, .tiles, .boughs, .prods, .nextOrder, .sums, .handoffs, .acts, .xferWaits, .canopy, .backs, .latches, .attnWaits, .servedKv, .servedAttn, .weights, .mem, .links, .faults, .power, .sec, .out] s
  unfold State.handOff
  repeat' first
    | (extract_lets +onlyGivenNames x; first | (refine Moves.cut (s := x) ?_ ?_; (on_goal 2 => intro hx; clear_value x); (on_goal 1 => subst x)) | subst x)
    | with_reducible assumption
    | (show Field.within _ _ = true; decide)
    | with_reducible apply State.tidyKey_moves
    | with_reducible apply State.saveVector_moves
    | with_reducible apply State.deliver_moves
    | with_reducible apply Moves.ite
    | split
    | (refine Moves.of_lit ?_ ?_ ?_)
    | (intro f hf; cases f <;> first | exact hf.elim (by decide) | rfl)
    | (exact fun c => ⟨c.parts, c.rings, c.counters, by dsimp only; first | exact c.calls | exact Tbl.wf_set c.calls | exact Tbl.wf_update c.calls | exact Tbl.wf_mapVals (Tbl.rising_of_wf c.calls) | exact Tbl.wf_mapVals (Tbl.rising_map (fun p => by (try dsimp only); (repeat' split) <;> rfl) (Tbl.rising_of_wf c.calls)) | (split <;> first | exact c.calls | exact Tbl.wf_set c.calls | exact Tbl.wf_mapVals (Tbl.rising_of_wf c.calls)), c.customers, c.tiles, c.boughs, c.calSave, c.links, c.mem⟩)) hfl)

theorem State.setSum_moves {fl : List Field} {r₀ : State} {s : State} {r : SumRun} (hm : Moves fl r₀ s)
    (hfl : Field.within [.sums] fl = true) : Moves fl r₀ (State.setSum s r) :=
  hm.trans (Moves.mono (a := [.sums]) (by
  have h := Moves.refl [.sums] s
  unfold State.setSum
  repeat' first
    | with_reducible assumption
    | (show Field.within _ _ = true; decide)
    | with_reducible apply Moves.ite
    | split
    | (refine Moves.of_lit ?_ ?_ ?_)
    | (intro f hf; cases f <;> first | exact hf.elim (by decide) | rfl)
    | (exact fun c => ⟨c.parts, c.rings, c.counters, c.calls, c.customers, c.tiles, c.boughs, c.calSave, c.links, c.mem⟩)) hfl)

theorem State.attemptAgain_moves {fl : List Field} {r₀ : State} {s : State} {key : Sys2Proof.SumKey} {k : ℕ} (hm : Moves fl r₀ s)
    (hfl : Field.within [.rings, .counters, .steps, .tiles, .boughs, .prods, .nextProd, .links, .faults, .power, .sec, .out] fl = true) : Moves fl r₀ (State.attemptAgain s key k) :=
  hm.trans (Moves.mono (a := [.rings, .counters, .steps, .tiles, .boughs, .prods, .nextProd, .links, .faults, .power, .sec, .out]) (by
  have h := Moves.refl [.rings, .counters, .steps, .tiles, .boughs, .prods, .nextProd, .links, .faults, .power, .sec, .out] s
  unfold State.attemptAgain
  repeat' first
    | (extract_lets +onlyGivenNames x; first | (refine Moves.cut (s := x) ?_ ?_; (on_goal 2 => intro hx; clear_value x); (on_goal 1 => subst x)) | subst x)
    | with_reducible assumption
    | (show Field.within _ _ = true; decide)
    | with_reducible apply State.enqueueProd_moves
    | with_reducible apply Moves.each
    | (intro _ _ _)
    | split
    | (refine Moves.of_lit ?_ ?_ ?_)
    | (intro f hf; cases f <;> first | exact hf.elim (by decide) | rfl)
    | (exact fun c => ⟨c.parts, c.rings, c.counters, c.calls, c.customers, by dsimp only; first | exact c.tiles | exact Tbl.wf_set c.tiles | exact Tbl.wf_update c.tiles | exact Tbl.wf_mapVals (Tbl.rising_of_wf c.tiles) | exact Tbl.wf_mapVals (Tbl.rising_map (fun p => by (try dsimp only); (repeat' split) <;> rfl) (Tbl.rising_of_wf c.tiles)) | (split <;> first | exact c.tiles | exact Tbl.wf_set c.tiles | exact Tbl.wf_mapVals (Tbl.rising_of_wf c.tiles)), by dsimp only; first | exact c.boughs | exact Tbl.wf_set c.boughs | exact Tbl.wf_update c.boughs | exact Tbl.wf_mapVals (Tbl.rising_of_wf c.boughs) | exact Tbl.wf_mapVals (Tbl.rising_map (fun p => by (try dsimp only); (repeat' split) <;> rfl) (Tbl.rising_of_wf c.boughs)) | (split <;> first | exact c.boughs | exact Tbl.wf_set c.boughs | exact Tbl.wf_mapVals (Tbl.rising_of_wf c.boughs)), c.calSave, c.links, c.mem⟩)) hfl)

theorem State.sumReceived_moves {fl : List Field} {r₀ : State} {s : State} {k : Sys2Proof.SumKey} {i : Sys2Proof.SumItem} (hm : Moves fl r₀ s)
    (hfl : Field.within [.rings, .counters, .steps, .tiles, .boughs, .prods, .nextProd, .sums, .links, .faults, .power, .sec, .out] fl = true) : Moves fl r₀ (State.sumReceived s k i) :=
  hm.trans (Moves.mono (a := [.rings, .counters, .steps, .tiles, .boughs, .prods, .nextProd, .sums, .links, .faults, .power, .sec, .out]) (by
  have h := Moves.refl [.rings, .counters, .steps, .tiles, .boughs, .prods, .nextProd, .sums, .links, .faults, .power, .sec, .out] s
  unfold State.sumReceived
  repeat' first
    | (extract_lets +onlyGivenNames x; first | (refine Moves.cut (s := x) ?_ ?_; (on_goal 2 => intro hx; clear_value x); (on_goal 1 => subst x)) | subst x)
    | with_reducible assumption
    | (show Field.within _ _ = true; decide)
    | with_reducible apply State.setSum_moves
    | with_reducible apply State.attemptAgain_moves
    | with_reducible apply Moves.ite
    | split) hfl)

theorem State.memRestep_moves {fl : List Field} {r₀ : State} {s : State} {c : ℕ} {n : ℕ} (hm : Moves fl r₀ s)
    (hfl : Field.within [.rings, .counters, .steps, .tiles, .boughs, .prods, .sums, .handoffs, .acts, .xferWaits, .canopy, .backs, .latches, .attnWaits, .servedKv, .servedAttn, .mem, .links, .sec, .out] fl = true) : Moves fl r₀ (State.memRestep s c n) :=
  hm.trans (Moves.mono (a := [.rings, .counters, .steps, .tiles, .boughs, .prods, .sums, .handoffs, .acts, .xferWaits, .canopy, .backs, .latches, .attnWaits, .servedKv, .servedAttn, .mem, .links, .sec, .out]) (by
  have h := Moves.refl [.rings, .counters, .steps, .tiles, .boughs, .prods, .sums, .handoffs, .acts, .xferWaits, .canopy, .backs, .latches, .attnWaits, .servedKv, .servedAttn, .mem, .links, .sec, .out] s
  unfold State.memRestep
  repeat' first
    | (extract_lets +onlyGivenNames x; first | (refine Moves.cut (s := x) ?_ ?_; (on_goal 2 => intro hx; clear_value x); (on_goal 1 => subst x)) | subst x)
    | with_reducible assumption
    | (show Field.within _ _ = true; decide)
    | with_reducible apply State.count_moves
    | with_reducible apply State.restartStep_moves
    | with_reducible apply State.send_moves
    | with_reducible apply Moves.ite
    | split) hfl)

theorem State.transientLost_moves {fl : List Field} {r₀ : State} {s : State} {w : Sys2Proof.WorkRef} (hm : Moves fl r₀ s)
    (hfl : Field.within everyPiece fl = true) : Moves fl r₀ (State.transientLost s w) :=
  hm.trans (Moves.mono (a := everyPiece) (by
  have h := Moves.refl everyPiece s
  unfold State.transientLost
  repeat' first
    | (extract_lets +onlyGivenNames x; first | (refine Moves.cut (s := x) ?_ ?_; (on_goal 2 => intro hx; clear_value x); (on_goal 1 => subst x)) | subst x)
    | with_reducible assumption
    | (show Field.within _ _ = true; decide)
    | with_reducible apply State.restartStep_moves
    | with_reducible apply State.sumReceived_moves
    | with_reducible apply State.resetArrives_moves
    | with_reducible apply State.modCall_moves
    | with_reducible apply State.memRestep_moves
    | with_reducible apply State.send_moves
    | with_reducible apply Moves.each
    | with_reducible apply Moves.ite
    | (intro _ _ _)
    | split) hfl)

theorem State.sramLost_moves {fl : List Field} {r₀ : State} {s : State} {w : Option Sys2Proof.WorkRef} {cls : ℕ} (hm : Moves fl r₀ s)
    (hfl : Field.within everyPiece fl = true) : Moves fl r₀ (State.sramLost s w cls) :=
  hm.trans (Moves.mono (a := everyPiece) (by
  have h := Moves.refl everyPiece s
  unfold State.sramLost
  repeat' first
    | with_reducible assumption
    | (show Field.within _ _ = true; decide)
    | with_reducible apply State.transientLost_moves
    | with_reducible apply State.resetArrives_moves
    | split) hfl)

theorem State.moveAll_moves {fl : List Field} {r₀ : State} {s : State}  (hm : Moves fl r₀ s)
    (hfl : Field.within [.counters, .steps, .links, .out] fl = true) : Moves fl r₀ (State.moveAll s) :=
  hm.trans (Moves.mono (a := [.counters, .steps, .links, .out]) (by
  have h := Moves.refl [.counters, .steps, .links, .out] s
  unfold State.moveAll
  repeat' first
    | with_reducible assumption
    | (show Field.within _ _ = true; decide)
    | with_reducible apply State.moveStep_moves
    | with_reducible apply Moves.each
    | (intro _ _ _)
    | split) hfl)

theorem State.retrySum_moves {fl : List Field} {r₀ : State} {s : State} {r : SumRun} {first : ℕ} (hm : Moves fl r₀ s)
    (hfl : Field.within [.rings, .counters, .steps, .tiles, .boughs, .prods, .nextProd, .sums, .links, .faults, .power, .sec, .out] fl = true) : Moves fl r₀ (State.retrySum s r first) :=
  hm.trans (Moves.mono (a := [.rings, .counters, .steps, .tiles, .boughs, .prods, .nextProd, .sums, .links, .faults, .power, .sec, .out]) (by
  have h := Moves.refl [.rings, .counters, .steps, .tiles, .boughs, .prods, .nextProd, .sums, .links, .faults, .power, .sec, .out] s
  unfold State.retrySum
  repeat' first
    | (extract_lets +onlyGivenNames x; first | (refine Moves.cut (s := x) ?_ ?_; (on_goal 2 => intro hx; clear_value x); (on_goal 1 => subst x)) | subst x)
    | with_reducible assumption
    | (show Field.within _ _ = true; decide)
    | with_reducible apply State.attemptAgain_moves
    | with_reducible apply State.setSum_moves
    | with_reducible apply State.count_moves
    | with_reducible apply Moves.ite
    | split) hfl)

theorem State.reportOverflow_moves {fl : List Field} {r₀ : State} {s : State} {k : Sys2Proof.SumKey} {b : ℕ} {cols : List ℕ} (hm : Moves fl r₀ s)
    (hfl : Field.within [.rings, .counters, .sec, .out] fl = true) : Moves fl r₀ (State.reportOverflow s k b cols) :=
  hm.trans (Moves.mono (a := [.rings, .counters, .sec, .out]) (by
  have h := Moves.refl [.rings, .counters, .sec, .out] s
  unfold State.reportOverflow
  repeat' first
    | with_reducible assumption
    | (show Field.within _ _ = true; decide)
    | with_reducible apply State.workEvent_moves
    | with_reducible apply State.count_moves
    | with_reducible apply Moves.each
    | with_reducible apply Moves.ite
    | (intro _ _ _)
    | split) hfl)

theorem State.addInto_moves {fl : List Field} {r₀ : State} {s : State} {r : SumRun} {v : List Sys2Proof.Acc} {E : ℤ} {b : ℕ} {first : ℕ} {cont : State → SumRun → State} (hm : Moves fl r₀ s)
    (hc : ∀ x y, Moves fl r₀ x → Moves fl r₀ (cont x y))
    (hfl : Field.within [.rings, .counters, .steps, .tiles, .boughs, .prods, .nextProd, .sums, .links, .faults, .power, .sec, .out] fl = true) : Moves fl r₀ (State.addInto s r v E b first cont) := by
  have hw : ∀ {b : List Field}, Field.within b [.rings, .counters, .steps, .tiles, .boughs, .prods, .nextProd, .sums, .links, .faults, .power, .sec, .out] = true → Field.within b fl = true := fun hb => by
    simp only [Field.within, List.all_eq_true, List.contains_iff_mem] at hb hfl ⊢
    exact fun f hf => hfl f (hb f hf)
  unfold State.addInto
  repeat' first
    | (extract_lets +onlyGivenNames x; first | (refine Moves.cut (s := x) ?_ ?_; (on_goal 2 => intro hx; clear_value x); (on_goal 1 => subst x)) | subst x)
    | with_reducible assumption
    | (show Field.within _ _ = true; decide)
    | with_reducible apply State.retrySum_moves
    | with_reducible apply State.workEvent_moves
    | with_reducible apply State.count_moves
    | with_reducible apply State.reportOverflow_moves
    | with_reducible apply Moves.ite
    | (intro _ _ _)
    | with_reducible apply hc
    | (refine hw (show Field.within _ _ = true from ?_); decide)
    | split

theorem State.sumEnds_moves {fl : List Field} {r₀ : State} {s : State} {r : SumRun} {m : Mat} {b : ℕ} {first : ℕ} (hm : Moves fl r₀ s)
    (hfl : Field.within [.boot, .regs, .parts, .rings, .counters, .jobs, .calls, .steps, .batch, .grafts, .tiles, .boughs, .prods, .nextProd, .nextOrder, .sums, .handoffs, .acts, .xferWaits, .canopy, .backs, .latches, .attnWaits, .servedKv, .servedAttn, .weights, .mem, .links, .faults, .power, .sec, .out] fl = true) : Moves fl r₀ (State.sumEnds s r m b first) :=
  hm.trans (Moves.mono (a := [.boot, .regs, .parts, .rings, .counters, .jobs, .calls, .steps, .batch, .grafts, .tiles, .boughs, .prods, .nextProd, .nextOrder, .sums, .handoffs, .acts, .xferWaits, .canopy, .backs, .latches, .attnWaits, .servedKv, .servedAttn, .weights, .mem, .links, .faults, .power, .sec, .out]) (by
  have h := Moves.refl [.boot, .regs, .parts, .rings, .counters, .jobs, .calls, .steps, .batch, .grafts, .tiles, .boughs, .prods, .nextProd, .nextOrder, .sums, .handoffs, .acts, .xferWaits, .canopy, .backs, .latches, .attnWaits, .servedKv, .servedAttn, .weights, .mem, .links, .faults, .power, .sec, .out] s
  unfold State.sumEnds
  repeat' first
    | (extract_lets +onlyGivenNames x; first | (refine Moves.cut (s := x) ?_ ?_; (on_goal 2 => intro hx; clear_value x); (on_goal 1 => subst x)) | subst x)
    | with_reducible assumption
    | (show Field.within _ _ = true; decide)
    | with_reducible apply State.tidyKey_moves
    | with_reducible apply State.modStep_moves
    | with_reducible apply State.moveStep_moves
    | with_reducible apply State.send_moves
    | with_reducible apply State.handOff_moves
    | with_reducible apply State.setSum_moves
    | with_reducible apply State.count_moves
    | with_reducible apply State.addInto_moves
    | with_reducible apply Moves.ite
    | (intro _ _ _)
    | split
    | (refine Moves.of_lit ?_ ?_ ?_)
    | (intro f hf; cases f <;> first | exact hf.elim (by decide) | rfl)
    | (exact fun c => ⟨c.parts, c.rings, c.counters, c.calls, c.customers, c.tiles, c.boughs, c.calSave, c.links, c.mem⟩)) hfl)

theorem State.boughSum_moves {fl : List Field} {r₀ : State} {s : State} {k : Sys2Proof.SumKey} (hm : Moves fl r₀ s)
    (hfl : Field.within [.boot, .regs, .parts, .rings, .counters, .jobs, .calls, .steps, .batch, .grafts, .tiles, .boughs, .prods, .nextProd, .nextOrder, .sums, .handoffs, .acts, .xferWaits, .canopy, .backs, .latches, .attnWaits, .servedKv, .servedAttn, .weights, .mem, .links, .faults, .power, .sec, .out] fl = true) : Moves fl r₀ (State.boughSum s k) :=
  hm.trans (Moves.mono (a := [.boot, .regs, .parts, .rings, .counters, .jobs, .calls, .steps, .batch, .grafts, .tiles, .boughs, .prods, .nextProd, .nextOrder, .sums, .handoffs, .acts, .xferWaits, .canopy, .backs, .latches, .attnWaits, .servedKv, .servedAttn, .weights, .mem, .links, .faults, .power, .sec, .out]) (by
  have h := Moves.refl [.boot, .regs, .parts, .rings, .counters, .jobs, .calls, .steps, .batch, .grafts, .tiles, .boughs, .prods, .nextProd, .nextOrder, .sums, .handoffs, .acts, .xferWaits, .canopy, .backs, .latches, .attnWaits, .servedKv, .servedAttn, .weights, .mem, .links, .faults, .power, .sec, .out] s
  unfold State.boughSum
  repeat' first
    | (extract_lets +onlyGivenNames x; first | (refine Moves.cut (s := x) ?_ ?_; (on_goal 2 => intro hx; clear_value x); (on_goal 1 => subst x)) | subst x)
    | with_reducible assumption
    | (show Field.within _ _ = true; decide)
    | with_reducible apply State.addInto_moves
    | with_reducible apply State.setSum_moves
    | with_reducible apply State.sumEnds_moves
    | with_reducible apply Moves.ite
    | (intro _ _ _)
    | split
    | (refine Moves.of_lit ?_ ?_ ?_)
    | (intro f hf; cases f <;> first | exact hf.elim (by decide) | rfl)
    | (exact fun c => ⟨c.parts, c.rings, c.counters, c.calls, c.customers, c.tiles, c.boughs, c.calSave, c.links, c.mem⟩)) hfl)

theorem State.afterSram_moves {fl : List Field} {r₀ : State} {s : State} {w : Option Sys2Proof.WorkRef} {go : State → State} {reads : List SramRead} (hm : Moves fl r₀ s)
    (hgo : ∀ x, Moves fl r₀ x → Moves fl r₀ (go x))
    (hfl : Field.within everyPiece fl = true) : Moves fl r₀ (State.afterSram w go reads s) := by
  have hw : ∀ {b : List Field}, Field.within b everyPiece = true → Field.within b fl = true := fun hb => by
    simp only [Field.within, List.all_eq_true, List.contains_iff_mem] at hb hfl ⊢
    exact fun f hf => hfl f (hb f hf)
  induction reads generalizing s with
  | nil => exact hgo s hm
  | cons r rest ih =>
    unfold State.afterSram
    split
    · exact State.sramLost_moves (State.noteSram_moves hm (hw (by decide))) (hw (by decide))
    · exact ih (State.noteSram_moves hm (hw (by decide)))

end Sys2Proof.Machine
end

