-- ==== Sys2Proof/Laws/SumsMoves.lean ====
section
/-! SUPPORT. What each operation of Machine/Sums.lean may change, and that it keeps the canonical form. -/

set_option Elab.async false

namespace Sys2Proof.Machine

set_option linter.unusedTactic false
set_option linter.unreachableTactic false

theorem State.dropIfDone_moves {fl : List Field} {r₀ : State} {s : State} {id : ℕ} (hm : Moves fl r₀ s)
    (hfl : Field.within [.prods] fl = true) : Moves fl r₀ (State.dropIfDone s id) :=
  hm.trans (Moves.mono (a := [.prods]) (by
  have h := Moves.refl [.prods] s
  unfold State.dropIfDone
  repeat' first
    | (extract_lets +onlyGivenNames x; first | (refine Moves.cut (s := x) ?_ ?_; (on_goal 2 => intro hx; clear_value x); (on_goal 1 => subst x)) | subst x)
    | with_reducible assumption
    | (show Field.within _ _ = true; decide)
    | with_reducible apply Moves.ite
    | split
    | (refine Moves.of_lit ?_ ?_ ?_)
    | (intro f hf; cases f <;> first | exact hf.elim (by decide) | rfl)
    | (exact fun c => ⟨c.parts, c.rings, c.counters, c.calls, c.customers, c.tiles, c.boughs, c.calSave, c.links, c.mem⟩)) hfl)

theorem State.checkDone_moves {fl : List Field} {r₀ : State} {s : State} {p : Prod} (hm : Moves fl r₀ s)
    (hfl : Field.within [.rings, .counters, .steps, .tiles, .boughs, .prods, .links, .faults, .power, .sec, .out] fl = true) : Moves fl r₀ (State.checkDone s p) :=
  hm.trans (Moves.mono (a := [.rings, .counters, .steps, .tiles, .boughs, .prods, .links, .faults, .power, .sec, .out]) (by
  have h := Moves.refl [.rings, .counters, .steps, .tiles, .boughs, .prods, .links, .faults, .power, .sec, .out] s
  unfold State.checkDone
  repeat' first
    | (extract_lets +onlyGivenNames x; first | (refine Moves.cut (s := x) ?_ ?_; (on_goal 2 => intro hx; clear_value x); (on_goal 1 => subst x)) | subst x)
    | with_reducible assumption
    | (show Field.within _ _ = true; decide)
    | with_reducible apply State.modStep_moves
    | with_reducible apply State.modBough_moves
    | with_reducible apply State.levelMax_moves
    | with_reducible apply State.count_moves
    | with_reducible apply State.chargeBy_moves
    | with_reducible apply State.mismatch_moves
    | with_reducible apply State.moveStep_moves
    | with_reducible apply State.dropIfDone_moves
    | split) hfl)

theorem State.stageFor_moves {fl : List Field} {r₀ : State} {s : State} {image : ℕ} {batch : ℕ} {layer : ℕ} (hm : Moves fl r₀ s)
    (hfl : Field.within [.stage] fl = true) : Moves fl r₀ (State.stageFor s image batch layer) :=
  hm.trans (Moves.mono (a := [.stage]) (by
  have h := Moves.refl [.stage] s
  unfold State.stageFor
  repeat' first
    | (extract_lets +onlyGivenNames x; first | (refine Moves.cut (s := x) ?_ ?_; (on_goal 2 => intro hx; clear_value x); (on_goal 1 => subst x)) | subst x)
    | with_reducible assumption
    | (show Field.within _ _ = true; decide)
    | with_reducible apply Moves.foldl
    | with_reducible apply Moves.foldl_fst
    | (intro _ _ _)
    | split
    | (refine Moves.of_lit ?_ ?_ ?_)
    | (intro f hf; cases f <;> first | exact hf.elim (by decide) | rfl)
    | (exact fun c => ⟨c.parts, c.rings, c.counters, c.calls, c.customers, c.tiles, c.boughs, c.calSave, c.links, c.mem⟩)) hfl)

theorem State.graftDone_moves {fl : List Field} {r₀ : State} {s : State} {k : Sys2Proof.SumKey} (hm : Moves fl r₀ s)
    (hfl : Field.within [.boot, .regs, .parts, .rings, .counters, .jobs, .calls, .steps, .batch, .stage, .grafts, .tiles, .boughs, .prods, .nextProd, .nextOrder, .sums, .handoffs, .acts, .xferWaits, .canopy, .backs, .latches, .attnWaits, .servedKv, .servedAttn, .weights, .mem, .links, .faults, .power, .sec, .out] fl = true) : Moves fl r₀ (State.graftDone s k) :=
  hm.trans (Moves.mono (a := [.boot, .regs, .parts, .rings, .counters, .jobs, .calls, .steps, .batch, .stage, .grafts, .tiles, .boughs, .prods, .nextProd, .nextOrder, .sums, .handoffs, .acts, .xferWaits, .canopy, .backs, .latches, .attnWaits, .servedKv, .servedAttn, .weights, .mem, .links, .faults, .power, .sec, .out]) (by
  have h := Moves.refl [.boot, .regs, .parts, .rings, .counters, .jobs, .calls, .steps, .batch, .stage, .grafts, .tiles, .boughs, .prods, .nextProd, .nextOrder, .sums, .handoffs, .acts, .xferWaits, .canopy, .backs, .latches, .attnWaits, .servedKv, .servedAttn, .weights, .mem, .links, .faults, .power, .sec, .out] s
  unfold State.graftDone
  repeat' first
    | (extract_lets +onlyGivenNames x; first | (refine Moves.cut (s := x) ?_ ?_; (on_goal 2 => intro hx; clear_value x); (on_goal 1 => subst x)) | subst x)
    | with_reducible assumption
    | (show Field.within _ _ = true; decide)
    | with_reducible apply State.stageFor_moves
    | with_reducible apply State.count_moves
    | with_reducible apply State.useUnit_moves
    | with_reducible apply State.addInto_moves
    | with_reducible apply State.handOff_moves
    | with_reducible apply State.setSum_moves
    | with_reducible apply Moves.ite
    | (intro _ _ _)
    | split) hfl)

theorem State.sumReturns_moves {fl : List Field} {r₀ : State} {s : State} {k : Sys2Proof.SumKey} {reads : List (ℕ × Sys2Proof.BlockRead)} (hm : Moves fl r₀ s)
    (hfl : Field.within everyPiece fl = true) : Moves fl r₀ (State.sumReturns s k reads) :=
  hm.trans (Moves.mono (a := everyPiece) (by
  have h := Moves.refl everyPiece s
  unfold State.sumReturns
  repeat' first
    | with_reducible assumption
    | (show Field.within _ _ = true; decide)
    | with_reducible apply State.boughSum_moves
    | with_reducible apply State.slowReads_moves
    | with_reducible apply Moves.ite
    | split) hfl)

theorem State.windowEnds_moves {fl : List Field} {r₀ : State} {s : State} {m : ℕ} (hm : Moves fl r₀ s)
    (hfl : Field.within [.rings, .counters, .histos, .sec, .out] fl = true) : Moves fl r₀ (State.windowEnds s m) :=
  hm.trans (Moves.mono (a := [.rings, .counters, .histos, .sec, .out]) (by
  have h := Moves.refl [.rings, .counters, .histos, .sec, .out] s
  unfold State.windowEnds
  repeat' first
    | (extract_lets +onlyGivenNames x; first | (refine Moves.cut (s := x) ?_ ?_; (on_goal 2 => intro hx; clear_value x); (on_goal 1 => subst x)) | subst x)
    | with_reducible assumption
    | (show Field.within _ _ = true; decide)
    | with_reducible apply State.event_moves
    | with_reducible apply Moves.ite
    | split
    | (refine Moves.of_lit ?_ ?_ ?_)
    | (intro f hf; cases f <;> first | exact hf.elim (by decide) | rfl)
    | (exact fun c => ⟨c.parts, c.rings, c.counters, c.calls, c.customers, c.tiles, c.boughs, c.calSave, c.links, c.mem⟩)) hfl)

end Sys2Proof.Machine
end

