-- ==== Sys2Proof/Laws/AttentionMoves.lean ====
section
/-! SUPPORT. What each operation of Machine/Attention.lean may change, and that it keeps the canonical form. -/

set_option Elab.async false

namespace Sys2Proof.Machine

set_option linter.unusedTactic false
set_option linter.unreachableTactic false

theorem State.clearBlocks_moves {fl : List Field} {r₀ : State} {s : State} {a : ℕ} {n : ℕ} (hm : Moves fl r₀ s)
    (hfl : Field.within [.mem] fl = true) : Moves fl r₀ (State.clearBlocks s a n) :=
  hm.trans (Moves.mono (a := [.mem]) (by
  have h := Moves.refl [.mem] s
  unfold State.clearBlocks
  repeat' first
    | with_reducible assumption
    | (show Field.within _ _ = true; decide)
    | with_reducible apply Moves.modMem
    | split
    | (intro w; first | with_reducible exact Mem.wf_runs w | exact w | exact Mem.wf_write w | exact Mem.wf_clear w | exact Mem.wf_foldl (fun _ _ h => Mem.wf_write h) _ w)) hfl)

theorem State.allocPage_moves {fl : List Field} {r₀ : State} {s : State} {c : ℕ} {layer : ℕ} {i : ℕ} {h_ : ℕ} (hm : Moves fl r₀ s)
    (hfl : Field.within [.rings, .counters, .calls, .mem, .links, .sec, .out] fl = true) : Moves fl r₀ (State.allocPage s c layer i h_) :=
  hm.trans (Moves.mono (a := [.rings, .counters, .calls, .mem, .links, .sec, .out]) (by
  have h := Moves.refl [.rings, .counters, .calls, .mem, .links, .sec, .out] s
  unfold State.allocPage
  repeat' first
    | (extract_lets +onlyGivenNames x; first | (refine Moves.cut (s := x) ?_ ?_; (on_goal 2 => intro hx; clear_value x); (on_goal 1 => subst x)) | subst x)
    | with_reducible assumption
    | (show Field.within _ _ = true; decide)
    | with_reducible apply State.modCall_moves
    | with_reducible apply State.clearBlocks_moves
    | with_reducible apply State.watchFrames_moves
    | with_reducible apply State.count_moves
    | with_reducible apply Moves.modMem
    | with_reducible apply Moves.ite
    | split
    | (intro w; first | with_reducible exact Mem.wf_runs w | exact w | exact Mem.wf_write w | exact Mem.wf_clear w | exact Mem.wf_foldl (fun _ _ h => Mem.wf_write h) _ w)) hfl)

theorem State.noteWaits_moves {fl : List Field} {r₀ : State} {s : State}  (hm : Moves fl r₀ s)
    (hfl : Field.within [.steps] fl = true) : Moves fl r₀ (State.noteWaits s) :=
  hm.trans (Moves.mono (a := [.steps]) (by
  have h := Moves.refl [.steps] s
  unfold State.noteWaits
  repeat' first
    | (extract_lets +onlyGivenNames x; first | (refine Moves.cut (s := x) ?_ ?_; (on_goal 2 => intro hx; clear_value x); (on_goal 1 => subst x)) | subst x)
    | with_reducible assumption
    | (show Field.within _ _ = true; decide)
    | with_reducible apply Moves.ite
    | split
    | (refine Moves.of_lit ?_ ?_ ?_)
    | (intro f hf; cases f <;> first | exact hf.elim (by decide) | rfl)
    | (exact fun c => ⟨c.parts, c.rings, c.counters, c.calls, c.customers, c.tiles, c.boughs, c.calSave, c.links, c.mem⟩)) hfl)

theorem State.writeHead_moves {fl : List Field} {r₀ : State} {s : State} {fmt : ℕ} {h_ : ℕ} {a : ℕ} {sec : ℕ} {head : ℕ} {slot : ℕ} {whole : Bool} {bs : List Sys2Proof.Block} (hm : Moves fl r₀ s)
    (hfl : Field.within [.counters, .mem] fl = true) : Moves fl r₀ (State.writeHead s fmt h_ a sec head slot whole bs) :=
  hm.trans (Moves.mono (a := [.counters, .mem]) (by
  have h := Moves.refl [.counters, .mem] s
  unfold State.writeHead
  repeat' first
    | (extract_lets +onlyGivenNames x; first | (refine Moves.cut (s := x) ?_ ?_; (on_goal 2 => intro hx; clear_value x); (on_goal 1 => subst x)) | subst x)
    | with_reducible assumption
    | (show Field.within _ _ = true; decide)
    | with_reducible apply State.wideWrite_moves
    | with_reducible apply State.narrowWrite_moves
    | with_reducible apply Moves.ite
    | split) hfl)

theorem State.noteAppend_moves {fl : List Field} {r₀ : State} {s : State} {w : Sys2Proof.WorkRef} {x : State.Span} {layer : ℕ} {t : ℕ} (hm : Moves fl r₀ s)
    (hfl : Field.within [.counters, .calls, .steps, .servedKv, .links, .out] fl = true) : Moves fl r₀ (State.noteAppend s w x layer t) :=
  hm.trans (Moves.mono (a := [.counters, .calls, .steps, .servedKv, .links, .out]) (by
  have h := Moves.refl [.counters, .calls, .steps, .servedKv, .links, .out] s
  unfold State.noteAppend
  repeat' first
    | (extract_lets +onlyGivenNames x; first | (refine Moves.cut (s := x) ?_ ?_; (on_goal 2 => intro hx; clear_value x); (on_goal 1 => subst x)) | subst x)
    | with_reducible assumption
    | (show Field.within _ _ = true; decide)
    | with_reducible apply State.modStep_moves
    | with_reducible apply State.modCall_moves
    | with_reducible apply Moves.ite
    | split
    | (refine Moves.of_lit ?_ ?_ ?_)
    | (intro f hf; cases f <;> first | exact hf.elim (by decide) | rfl)
    | (exact fun c => ⟨c.parts, c.rings, c.counters, c.calls, c.customers, c.tiles, c.boughs, c.calSave, c.links, c.mem⟩)) hfl)

theorem State.kvAppend_moves {fl : List Field} {r₀ : State} {s : State} {w : Sys2Proof.WorkRef} {layer : ℕ} {t : ℕ} {k : List (List Sys2Proof.F32)} {v : List (List Sys2Proof.F32)} (hm : Moves fl r₀ s)
    (hfl : Field.within [.rings, .counters, .calls, .steps, .servedKv, .mem, .links, .sec, .out] fl = true) : Moves fl r₀ (State.kvAppend s w layer t k v) :=
  hm.trans (Moves.mono (a := [.rings, .counters, .calls, .steps, .servedKv, .mem, .links, .sec, .out]) (by
  have h := Moves.refl [.rings, .counters, .calls, .steps, .servedKv, .mem, .links, .sec, .out] s
  unfold State.kvAppend
  repeat' first
    | (extract_lets +onlyGivenNames x; first | (refine Moves.cut (s := x) ?_ ?_; (on_goal 2 => intro hx; clear_value x); (on_goal 1 => subst x)) | subst x)
    | with_reducible assumption
    | (show Field.within _ _ = true; decide)
    | with_reducible apply State.allocPage_moves
    | with_reducible apply State.writeHead_moves
    | with_reducible apply State.countBlocks_moves
    | with_reducible apply State.noteAppend_moves
    | with_reducible apply State.count_moves
    | with_reducible apply State.journal_moves
    | with_reducible apply Moves.each
    | with_reducible apply Moves.ite
    | (intro _ _ _)
    | split) hfl)

theorem State.latch_moves {fl : List Field} {r₀ : State} {s : State} {w : Sys2Proof.WorkRef} {x : State.Span} {layer : ℕ} (hm : Moves fl r₀ s)
    (hfl : Field.within [.latches] fl = true) : Moves fl r₀ (State.latch s w x layer) :=
  hm.trans (Moves.mono (a := [.latches]) (by
  have h := Moves.refl [.latches] s
  unfold State.latch
  repeat' first
    | with_reducible assumption
    | (show Field.within _ _ = true; decide)
    | with_reducible apply Moves.ite
    | split
    | (refine Moves.of_lit ?_ ?_ ?_)
    | (intro f hf; cases f <;> first | exact hf.elim (by decide) | rfl)
    | (exact fun c => ⟨c.parts, c.rings, c.counters, c.calls, c.customers, c.tiles, c.boughs, c.calSave, c.links, c.mem⟩)) hfl)

theorem State.noteKv_moves {fl : List Field} {r₀ : State} {s : State} {fl_ : List (ℕ × Sys2Proof.Flips)} (hm : Moves fl r₀ s)
    (hfl : Field.within [.rings, .counters, .mem, .sec, .out] fl = true) : Moves fl r₀ (State.noteKv s fl_) :=
  hm.trans (Moves.mono (a := [.rings, .counters, .mem, .sec, .out]) (by
  have h := Moves.refl [.rings, .counters, .mem, .sec, .out] s
  unfold State.noteKv
  repeat' first
    | with_reducible assumption
    | (show Field.within _ _ = true; decide)
    | with_reducible apply State.noteRead_moves
    | with_reducible apply Moves.each
    | (intro _ _ _)
    | split) hfl)

theorem State.asDelivered_moves {fl : List Field} {r₀ : State} {s : State} {fl_ : List (ℕ × Sys2Proof.Flips)} (hm : Moves fl r₀ s)
    (hfl : Field.within [.mem] fl = true) : Moves fl r₀ (State.asDelivered s fl_) :=
  hm.trans (Moves.mono (a := [.mem]) (by
  have h := Moves.refl [.mem] s
  unfold State.asDelivered
  repeat' first
    | with_reducible assumption
    | (show Field.within _ _ = true; decide)
    | with_reducible apply State.rewriteDelivered_moves
    | with_reducible apply Moves.foldl
    | with_reducible apply Moves.foldl_fst
    | (intro _ _ _)
    | split) hfl)

theorem State.assemble_moves {fl : List Field} {r₀ : State} {s : State} {w : Sys2Proof.WorkRef} {x : State.Span} {r : Attn} {layer : ℕ} (hm : Moves fl r₀ s)
    (hfl : Field.within [.counters, .acts, .histos] fl = true) : Moves fl r₀ (State.assemble s w x r layer) :=
  hm.trans (Moves.mono (a := [.counters, .acts, .histos]) (by
  have h := Moves.refl [.counters, .acts, .histos] s
  unfold State.assemble
  repeat' first
    | (extract_lets +onlyGivenNames x; first | (refine Moves.cut (s := x) ?_ ?_; (on_goal 2 => intro hx; clear_value x); (on_goal 1 => subst x)) | subst x)
    | with_reducible assumption
    | (show Field.within _ _ = true; decide)
    | with_reducible apply State.quantiseInto_moves
    | with_reducible apply Moves.ite
    | split) hfl)

theorem State.addOutputs_moves {fl : List Field} {r₀ : State} {s : State} {w : Sys2Proof.WorkRef} {x : State.Span} {r : Attn} {layer : ℕ} {os : List AttnOut} (hm : Moves fl r₀ s)
    (hfl : Field.within [.counters, .steps, .acts, .histos, .servedAttn] fl = true) : Moves fl r₀ (State.addOutputs s w x r layer os) :=
  hm.trans (Moves.mono (a := [.counters, .steps, .acts, .histos, .servedAttn]) (by
  have h := Moves.refl [.counters, .steps, .acts, .histos, .servedAttn] s
  unfold State.addOutputs
  repeat' first
    | (extract_lets +onlyGivenNames x; first | (refine Moves.cut (s := x) ?_ ?_; (on_goal 2 => intro hx; clear_value x); (on_goal 1 => subst x)) | subst x)
    | with_reducible assumption
    | (show Field.within _ _ = true; decide)
    | with_reducible apply State.modStep_moves
    | with_reducible apply State.assemble_moves
    | with_reducible apply Moves.each
    | with_reducible apply Moves.ite
    | (intro _ _ _)
    | split
    | (refine Moves.of_lit ?_ ?_ ?_)
    | (intro f hf; cases f <;> first | exact hf.elim (by decide) | rfl)
    | (exact fun c => ⟨c.parts, c.rings, c.counters, c.calls, c.customers, c.tiles, c.boughs, c.calSave, c.links, c.mem⟩)) hfl)

theorem State.taproot_moves {fl : List Field} {r₀ : State} {s : State} {w : Sys2Proof.WorkRef} {layer : ℕ} {q : List (List Sys2Proof.F32)} {flips : List (ℕ × ℕ × ℕ × Sys2Proof.Flips)} (hm : Moves fl r₀ s)
    (hfl : Field.within [.parts, .rings, .counters, .jobs, .calls, .steps, .batch, .grafts, .tiles, .boughs, .prods, .sums, .handoffs, .acts, .xferWaits, .histos, .canopy, .backs, .latches, .attnWaits, .servedKv, .servedAttn, .mem, .links, .sec, .out] fl = true) : Moves fl r₀ (State.taproot s w layer q flips) :=
  hm.trans (Moves.mono (a := [.parts, .rings, .counters, .jobs, .calls, .steps, .batch, .grafts, .tiles, .boughs, .prods, .sums, .handoffs, .acts, .xferWaits, .histos, .canopy, .backs, .latches, .attnWaits, .servedKv, .servedAttn, .mem, .links, .sec, .out]) (by
  have h := Moves.refl [.parts, .rings, .counters, .jobs, .calls, .steps, .batch, .grafts, .tiles, .boughs, .prods, .sums, .handoffs, .acts, .xferWaits, .histos, .canopy, .backs, .latches, .attnWaits, .servedKv, .servedAttn, .mem, .links, .sec, .out] s
  unfold State.taproot
  repeat' first
    | (extract_lets +onlyGivenNames x; first | (refine Moves.cut (s := x) ?_ ?_; (on_goal 2 => intro hx; clear_value x); (on_goal 1 => subst x)) | subst x)
    | with_reducible assumption
    | (show Field.within _ _ = true; decide)
    | with_reducible apply State.latch_moves
    | with_reducible apply State.useUnit_moves
    | with_reducible apply State.count_moves
    | with_reducible apply State.noteKv_moves
    | with_reducible apply State.endCall_moves
    | with_reducible apply State.asDelivered_moves
    | with_reducible apply State.addOutputs_moves
    | with_reducible apply Moves.each
    | with_reducible apply Moves.ite
    | (intro _ _ _)
    | split) hfl)

theorem State.rowGoesOn_moves {fl : List Field} {r₀ : State} {s : State} {w : Sys2Proof.WorkRef} {sp : State.Span} {r : Attn} {x : CanopyRow} {q : List (List (List Sys2Proof.F32))} (hm : Moves fl r₀ s)
    (hfl : Field.within [.counters, .steps, .acts, .histos, .canopy, .servedAttn] fl = true) : Moves fl r₀ (State.rowGoesOn s w sp r x q) :=
  hm.trans (Moves.mono (a := [.counters, .steps, .acts, .histos, .canopy, .servedAttn]) (by
  have h := Moves.refl [.counters, .steps, .acts, .histos, .canopy, .servedAttn] s
  unfold State.rowGoesOn
  repeat' first
    | (extract_lets +onlyGivenNames x; first | (refine Moves.cut (s := x) ?_ ?_; (on_goal 2 => intro hx; clear_value x); (on_goal 1 => subst x)) | subst x)
    | with_reducible assumption
    | (show Field.within _ _ = true; decide)
    | with_reducible apply State.addOutputs_moves
    | with_reducible apply State.count_moves
    | with_reducible apply Moves.ite
    | split
    | (refine Moves.of_lit ?_ ?_ ?_)
    | (intro f hf; cases f <;> first | exact hf.elim (by decide) | rfl)
    | (exact fun c => ⟨c.parts, c.rings, c.counters, c.calls, c.customers, c.tiles, c.boughs, c.calSave, c.links, c.mem⟩)) hfl)

theorem State.canopyDone_moves {fl : List Field} {r₀ : State} {s : State} {lane : ℕ} {w : Sys2Proof.WorkRef} {layer : ℕ} {group : ℕ} {rowTile : ℕ} {q : List (List (List Sys2Proof.F32))} {flips : List (ℕ × ℕ × ℕ × Sys2Proof.Flips)} (hm : Moves fl r₀ s)
    (hfl : Field.within [.parts, .rings, .counters, .jobs, .calls, .steps, .batch, .grafts, .tiles, .boughs, .prods, .sums, .handoffs, .acts, .xferWaits, .histos, .canopy, .backs, .latches, .attnWaits, .servedKv, .servedAttn, .mem, .links, .sec, .out] fl = true) : Moves fl r₀ (State.canopyDone s lane w layer group rowTile q flips) :=
  hm.trans (Moves.mono (a := [.parts, .rings, .counters, .jobs, .calls, .steps, .batch, .grafts, .tiles, .boughs, .prods, .sums, .handoffs, .acts, .xferWaits, .histos, .canopy, .backs, .latches, .attnWaits, .servedKv, .servedAttn, .mem, .links, .sec, .out]) (by
  have h := Moves.refl [.parts, .rings, .counters, .jobs, .calls, .steps, .batch, .grafts, .tiles, .boughs, .prods, .sums, .handoffs, .acts, .xferWaits, .histos, .canopy, .backs, .latches, .attnWaits, .servedKv, .servedAttn, .mem, .links, .sec, .out] s
  unfold State.canopyDone
  repeat' first
    | (extract_lets +onlyGivenNames x; first | (refine Moves.cut (s := x) ?_ ?_; (on_goal 2 => intro hx; clear_value x); (on_goal 1 => subst x)) | subst x)
    | with_reducible assumption
    | (show Field.within _ _ = true; decide)
    | with_reducible apply State.useUnit_moves
    | with_reducible apply State.count_moves
    | with_reducible apply State.latch_moves
    | with_reducible apply State.noteKv_moves
    | with_reducible apply State.endCall_moves
    | with_reducible apply State.rowGoesOn_moves
    | with_reducible apply State.asDelivered_moves
    | with_reducible apply Moves.ite
    | split) hfl)

theorem State.backDone_moves {fl : List Field} {r₀ : State} {s : State} {lane : ℕ} {w : Sys2Proof.WorkRef} {layer : ℕ} {group : ℕ} {rowTile : ℕ} {flips : List (ℕ × ℕ × ℕ × Sys2Proof.Flips)} (hm : Moves fl r₀ s)
    (hfl : Field.within [.parts, .rings, .counters, .jobs, .calls, .steps, .batch, .grafts, .tiles, .boughs, .prods, .sums, .handoffs, .acts, .xferWaits, .canopy, .backs, .latches, .attnWaits, .servedKv, .servedAttn, .mem, .links, .sec, .out] fl = true) : Moves fl r₀ (State.backDone s lane w layer group rowTile flips) :=
  hm.trans (Moves.mono (a := [.parts, .rings, .counters, .jobs, .calls, .steps, .batch, .grafts, .tiles, .boughs, .prods, .sums, .handoffs, .acts, .xferWaits, .canopy, .backs, .latches, .attnWaits, .servedKv, .servedAttn, .mem, .links, .sec, .out]) (by
  have h := Moves.refl [.parts, .rings, .counters, .jobs, .calls, .steps, .batch, .grafts, .tiles, .boughs, .prods, .sums, .handoffs, .acts, .xferWaits, .canopy, .backs, .latches, .attnWaits, .servedKv, .servedAttn, .mem, .links, .sec, .out] s
  unfold State.backDone
  repeat' first
    | (extract_lets +onlyGivenNames x; first | (refine Moves.cut (s := x) ?_ ?_; (on_goal 2 => intro hx; clear_value x); (on_goal 1 => subst x)) | subst x)
    | with_reducible assumption
    | (show Field.within _ _ = true; decide)
    | with_reducible apply State.latch_moves
    | with_reducible apply State.useUnit_moves
    | with_reducible apply State.count_moves
    | with_reducible apply State.noteKv_moves
    | with_reducible apply State.endCall_moves
    | with_reducible apply State.asDelivered_moves
    | with_reducible apply State.modStep_moves
    | with_reducible apply Moves.ite
    | split
    | (refine Moves.of_lit ?_ ?_ ?_)
    | (intro f hf; cases f <;> first | exact hf.elim (by decide) | rfl)
    | (exact fun c => ⟨c.parts, c.rings, c.counters, c.calls, c.customers, c.tiles, c.boughs, c.calSave, c.links, c.mem⟩)) hfl)

theorem State.cmdRun_moves {fl : List Field} {r₀ : State} {s : State} {c : Sys2Proof.AttnCmd} (hm : Moves fl r₀ s)
    (hfl : Field.within [.parts, .rings, .counters, .jobs, .calls, .steps, .batch, .grafts, .tiles, .boughs, .prods, .sums, .handoffs, .acts, .xferWaits, .histos, .canopy, .backs, .latches, .attnWaits, .servedKv, .servedAttn, .mem, .links, .power, .sec, .out] fl = true) : Moves fl r₀ (State.cmdRun s c) :=
  hm.trans (Moves.mono (a := [.parts, .rings, .counters, .jobs, .calls, .steps, .batch, .grafts, .tiles, .boughs, .prods, .sums, .handoffs, .acts, .xferWaits, .histos, .canopy, .backs, .latches, .attnWaits, .servedKv, .servedAttn, .mem, .links, .power, .sec, .out]) (by
  have h := Moves.refl [.parts, .rings, .counters, .jobs, .calls, .steps, .batch, .grafts, .tiles, .boughs, .prods, .sums, .handoffs, .acts, .xferWaits, .histos, .canopy, .backs, .latches, .attnWaits, .servedKv, .servedAttn, .mem, .links, .power, .sec, .out] s
  unfold State.cmdRun
  repeat' first
    | (extract_lets +onlyGivenNames x; first | (refine Moves.cut (s := x) ?_ ?_; (on_goal 2 => intro hx; clear_value x); (on_goal 1 => subst x)) | subst x)
    | with_reducible assumption
    | (show Field.within _ _ = true; decide)
    | with_reducible apply State.charge_moves
    | with_reducible apply State.noteWaits_moves
    | with_reducible apply State.kvAppend_moves
    | with_reducible apply State.taproot_moves
    | with_reducible apply State.canopyDone_moves
    | with_reducible apply State.backDone_moves
    | split) hfl)

theorem State.cmdGranted_moves {fl : List Field} {r₀ : State} {s : State} {x : AttnWait} (hm : Moves fl r₀ s)
    (hfl : Field.within [.parts, .rings, .counters, .jobs, .calls, .steps, .batch, .grafts, .tiles, .boughs, .prods, .sums, .handoffs, .acts, .xferWaits, .histos, .canopy, .backs, .latches, .attnWaits, .servedKv, .servedAttn, .mem, .links, .faults, .power, .sec, .out] fl = true) : Moves fl r₀ (State.cmdGranted s x) :=
  hm.trans (Moves.mono (a := [.parts, .rings, .counters, .jobs, .calls, .steps, .batch, .grafts, .tiles, .boughs, .prods, .sums, .handoffs, .acts, .xferWaits, .histos, .canopy, .backs, .latches, .attnWaits, .servedKv, .servedAttn, .mem, .links, .faults, .power, .sec, .out]) (by
  have h := Moves.refl [.parts, .rings, .counters, .jobs, .calls, .steps, .batch, .grafts, .tiles, .boughs, .prods, .sums, .handoffs, .acts, .xferWaits, .histos, .canopy, .backs, .latches, .attnWaits, .servedKv, .servedAttn, .mem, .links, .faults, .power, .sec, .out] s
  unfold State.cmdGranted
  repeat' first
    | (extract_lets +onlyGivenNames x; first | (refine Moves.cut (s := x) ?_ ?_; (on_goal 2 => intro hx; clear_value x); (on_goal 1 => subst x)) | subst x)
    | with_reducible assumption
    | (show Field.within _ _ = true; decide)
    | with_reducible apply State.cmdRun_moves
    | with_reducible apply State.withhold_moves
    | with_reducible apply Moves.each
    | with_reducible apply Moves.ite
    | (intro _ _ _)
    | split
    | (refine Moves.of_lit ?_ ?_ ?_)
    | (intro f hf; cases f <;> first | exact hf.elim (by decide) | rfl)
    | (exact fun c => ⟨c.parts, c.rings, c.counters, c.calls, c.customers, c.tiles, c.boughs, c.calSave, c.links, c.mem⟩)) hfl)

theorem State.attnRetry_moves {fl : List Field} {r₀ : State} {s : State}  (hm : Moves fl r₀ s)
    (hfl : Field.within [.parts, .rings, .counters, .jobs, .calls, .steps, .batch, .grafts, .tiles, .boughs, .prods, .sums, .handoffs, .acts, .xferWaits, .histos, .canopy, .backs, .latches, .attnWaits, .servedKv, .servedAttn, .mem, .links, .faults, .power, .sec, .out] fl = true) : Moves fl r₀ (State.attnRetry s) :=
  hm.trans (Moves.mono (a := [.parts, .rings, .counters, .jobs, .calls, .steps, .batch, .grafts, .tiles, .boughs, .prods, .sums, .handoffs, .acts, .xferWaits, .histos, .canopy, .backs, .latches, .attnWaits, .servedKv, .servedAttn, .mem, .links, .faults, .power, .sec, .out]) (by
  have h := Moves.refl [.parts, .rings, .counters, .jobs, .calls, .steps, .batch, .grafts, .tiles, .boughs, .prods, .sums, .handoffs, .acts, .xferWaits, .histos, .canopy, .backs, .latches, .attnWaits, .servedKv, .servedAttn, .mem, .links, .faults, .power, .sec, .out] s
  unfold State.attnRetry
  repeat' first
    | with_reducible assumption
    | (show Field.within _ _ = true; decide)
    | with_reducible apply State.cmdGranted_moves
    | with_reducible apply Moves.each
    | with_reducible apply Moves.ite
    | (intro _ _ _)
    | split) hfl)

theorem State.countLate_moves {fl : List Field} {r₀ : State} {s : State} {a : Sys2Proof.AttnCmd} (hm : Moves fl r₀ s)
    (hfl : Field.within [.counters] fl = true) : Moves fl r₀ (State.countLate s a) :=
  hm.trans (Moves.mono (a := [.counters]) (by
  have h := Moves.refl [.counters] s
  unfold State.countLate
  repeat' first
    | with_reducible assumption
    | (show Field.within _ _ = true; decide)
    | with_reducible apply State.count_moves
    | with_reducible apply Moves.each
    | (intro _ _ _)
    | split) hfl)

theorem State.attnStart_moves {fl : List Field} {r₀ : State} {s : State} {needs : ℕ} {c : Sys2Proof.AttnCmd} (hm : Moves fl r₀ s)
    (hfl : Field.within [.parts, .rings, .counters, .jobs, .calls, .steps, .batch, .grafts, .tiles, .boughs, .prods, .sums, .handoffs, .acts, .xferWaits, .histos, .canopy, .backs, .latches, .attnWaits, .servedKv, .servedAttn, .mem, .links, .faults, .power, .sec, .out] fl = true) : Moves fl r₀ (State.attnStart s needs c) :=
  hm.trans (Moves.mono (a := [.parts, .rings, .counters, .jobs, .calls, .steps, .batch, .grafts, .tiles, .boughs, .prods, .sums, .handoffs, .acts, .xferWaits, .histos, .canopy, .backs, .latches, .attnWaits, .servedKv, .servedAttn, .mem, .links, .faults, .power, .sec, .out]) (by
  have h := Moves.refl [.parts, .rings, .counters, .jobs, .calls, .steps, .batch, .grafts, .tiles, .boughs, .prods, .sums, .handoffs, .acts, .xferWaits, .histos, .canopy, .backs, .latches, .attnWaits, .servedKv, .servedAttn, .mem, .links, .faults, .power, .sec, .out] s
  unfold State.attnStart
  repeat' first
    | with_reducible assumption
    | (show Field.within _ _ = true; decide)
    | with_reducible apply State.countLate_moves
    | with_reducible apply State.count_moves
    | with_reducible apply State.cmdGranted_moves
    | with_reducible apply Moves.ite
    | split
    | (refine Moves.of_lit ?_ ?_ ?_)
    | (intro f hf; cases f <;> first | exact hf.elim (by decide) | rfl)
    | (exact fun c => ⟨c.parts, c.rings, c.counters, c.calls, c.customers, c.tiles, c.boughs, c.calSave, c.links, c.mem⟩)) hfl)

end Sys2Proof.Machine
end

