-- ==== Sys2Proof/Laws/RegOpsMoves.lean ====
section
/-! SUPPORT. What each operation of Machine/RegOps.lean may change, and that it keeps the canonical form. -/

set_option Elab.async false

namespace Sys2Proof.Machine

set_option linter.unusedTactic false
set_option linter.unreachableTactic false

theorem State.writeShare_moves {fl : List Field} {r₀ : State} {s : State} {p : ℕ} {o : ℕ} {v : ℕ} (hm : Moves fl r₀ s)
    (hfl : Field.within [.parts] fl = true) : Moves fl r₀ (State.writeShare s p o v) :=
  hm.trans (Moves.mono (a := [.parts]) (by
  have h := Moves.refl [.parts] s
  unfold State.writeShare
  repeat' first
    | (extract_lets +onlyGivenNames x; first | (refine Moves.cut (s := x) ?_ ?_; (on_goal 2 => intro hx; clear_value x); (on_goal 1 => subst x)) | subst x)
    | with_reducible assumption
    | (show Field.within _ _ = true; decide)
    | with_reducible apply State.modPart_moves
    | with_reducible apply Moves.ite
    | split) hfl)

theorem State.dropHigh_moves {fl : List Field} {r₀ : State} {s : State} {o : ℕ} (hm : Moves fl r₀ s)
    (hfl : Field.within [.regs] fl = true) : Moves fl r₀ (State.dropHigh s o) :=
  hm.trans (Moves.mono (a := [.regs]) (by
  have h := Moves.refl [.regs] s
  unfold State.dropHigh
  repeat' first
    | with_reducible assumption
    | (show Field.within _ _ = true; decide)
    | with_reducible apply State.modRegs_moves
    | split) hfl)

theorem State.read4_moves {fl : List Field} {r₀ : State} {s : State} {o : ℕ} (hm : Moves fl r₀ s)
    (hfl : Field.within [.regs, .out] fl = true) : Moves fl r₀ (State.read4 s o) :=
  hm.trans (Moves.mono (a := [.regs, .out]) (by
  have h := Moves.refl [.regs, .out] s
  unfold State.read4
  repeat' first
    | with_reducible assumption
    | (show Field.within _ _ = true; decide)
    | with_reducible apply State.emit_moves
    | with_reducible apply State.modRegs_moves
    | with_reducible apply State.dropHigh_moves
    | with_reducible apply Moves.ite
    | split) hfl)

theorem State.writeRing_moves {fl : List Field} {r₀ : State} {s : State} {r : Sys2Proof.RingId} {o : ℕ} {v : ℕ} (hm : Moves fl r₀ s)
    (hfl : Field.within [.rings] fl = true) : Moves fl r₀ (State.writeRing s r o v) :=
  hm.trans (Moves.mono (a := [.rings]) (by
  have h := Moves.refl [.rings] s
  unfold State.writeRing
  repeat' first
    | (extract_lets +onlyGivenNames x; first | (refine Moves.cut (s := x) ?_ ?_; (on_goal 2 => intro hx; clear_value x); (on_goal 1 => subst x)) | subst x)
    | with_reducible assumption
    | (show Field.within _ _ = true; decide)
    | with_reducible apply State.modRing_moves
    | split) hfl)

theorem State.writeVersion_moves {fl : List Field} {r₀ : State} {s : State} {v : ℕ} (hm : Moves fl r₀ s)
    (hfl : Field.within [.regs] fl = true) : Moves fl r₀ (State.writeVersion s v) :=
  hm.trans (Moves.mono (a := [.regs]) (by
  have h := Moves.refl [.regs] s
  unfold State.writeVersion
  repeat' first
    | (extract_lets +onlyGivenNames x; first | (refine Moves.cut (s := x) ?_ ?_; (on_goal 2 => intro hx; clear_value x); (on_goal 1 => subst x)) | subst x)
    | with_reducible assumption
    | (show Field.within _ _ = true; decide)
    | with_reducible apply State.modRegs_moves
    | split) hfl)

theorem State.writeSeal_moves {fl : List Field} {r₀ : State} {s : State} {v : ℕ} (hm : Moves fl r₀ s)
    (hfl : Field.within [.regs, .parts, .rings, .counters, .calls, .out] fl = true) : Moves fl r₀ (State.writeSeal s v) :=
  hm.trans (Moves.mono (a := [.regs, .parts, .rings, .counters, .calls, .out]) (by
  have h := Moves.refl [.regs, .parts, .rings, .counters, .calls, .out] s
  unfold State.writeSeal
  repeat' first
    | (extract_lets +onlyGivenNames x; first | (refine Moves.cut (s := x) ?_ ?_; (on_goal 2 => intro hx; clear_value x); (on_goal 1 => subst x)) | subst x)
    | with_reducible assumption
    | (show Field.within _ _ = true; decide)
    | with_reducible apply State.modRegs_moves
    | with_reducible apply State.modPart_moves
    | with_reducible apply State.modRing_moves
    | with_reducible apply State.release_moves
    | with_reducible apply State.discardRecord_moves
    | with_reducible apply Moves.each
    | with_reducible apply Moves.ite
    | (intro _ _ _)
    | split) hfl)

theorem State.writeRefen_moves {fl : List Field} {r₀ : State} {s : State} {on : Bool} (hm : Moves fl r₀ s)
    (hfl : Field.within [.regs, .hk] fl = true) : Moves fl r₀ (State.writeRefen s on) :=
  hm.trans (Moves.mono (a := [.regs, .hk]) (by
  have h := Moves.refl [.regs, .hk] s
  unfold State.writeRefen
  repeat' first
    | (extract_lets +onlyGivenNames x; first | (refine Moves.cut (s := x) ?_ ?_; (on_goal 2 => intro hx; clear_value x); (on_goal 1 => subst x)) | subst x)
    | with_reducible assumption
    | (show Field.within _ _ = true; decide)
    | with_reducible apply State.modRegs_moves
    | with_reducible apply State.modHk_moves
    | with_reducible apply Moves.ite
    | split) hfl)

theorem State.writeCounterSel_moves {fl : List Field} {r₀ : State} {s : State} {v : ℕ} (hm : Moves fl r₀ s)
    (hfl : Field.within [.regs] fl = true) : Moves fl r₀ (State.writeCounterSel s v) :=
  hm.trans (Moves.mono (a := [.regs]) (by
  have h := Moves.refl [.regs] s
  unfold State.writeCounterSel
  repeat' first
    | (extract_lets +onlyGivenNames x; first | (refine Moves.cut (s := x) ?_ ?_; (on_goal 2 => intro hx; clear_value x); (on_goal 1 => subst x)) | subst x)
    | with_reducible assumption
    | (show Field.within _ _ = true; decide)
    | with_reducible apply State.modRegs_moves
    | with_reducible apply Moves.ite
    | split) hfl)

theorem State.writeGo_moves {fl : List Field} {r₀ : State} {s : State}  (hm : Moves fl r₀ s)
    (hfl : Field.within [.boot] fl = true) : Moves fl r₀ (State.writeGo s) :=
  hm.trans (Moves.mono (a := [.boot]) (by
  have h := Moves.refl [.boot] s
  unfold State.writeGo
  repeat' first
    | (extract_lets +onlyGivenNames x; first | (refine Moves.cut (s := x) ?_ ?_; (on_goal 2 => intro hx; clear_value x); (on_goal 1 => subst x)) | subst x)
    | with_reducible assumption
    | (show Field.within _ _ = true; decide)
    | with_reducible apply State.modBoot_moves
    | with_reducible apply Moves.ite
    | split) hfl)

theorem State.writePolicy_moves {fl : List Field} {r₀ : State} {s : State} {o : ℕ} {v : ℕ} (hm : Moves fl r₀ s)
    (hfl : Field.within [.regs] fl = true) : Moves fl r₀ (State.writePolicy s o v) :=
  hm.trans (Moves.mono (a := [.regs]) (by
  have h := Moves.refl [.regs] s
  unfold State.writePolicy
  repeat' first
    | (extract_lets +onlyGivenNames x; first | (refine Moves.cut (s := x) ?_ ?_; (on_goal 2 => intro hx; clear_value x); (on_goal 1 => subst x)) | subst x)
    | with_reducible assumption
    | (show Field.within _ _ = true; decide)
    | with_reducible apply State.modRegs_moves
    | with_reducible apply Moves.foldl
    | with_reducible apply Moves.foldl_fst
    | with_reducible apply Moves.ite
    | (intro _ _ _)
    | split) hfl)

theorem State.writeCoal_moves {fl : List Field} {r₀ : State} {s : State} {r : Sys2Proof.RingId} {v : ℕ} (hm : Moves fl r₀ s)
    (hfl : Field.within [.rings, .out] fl = true) : Moves fl r₀ (State.writeCoal s r v) :=
  hm.trans (Moves.mono (a := [.rings, .out]) (by
  have h := Moves.refl [.rings, .out] s
  unfold State.writeCoal
  repeat' first
    | (extract_lets +onlyGivenNames x; first | (refine Moves.cut (s := x) ?_ ?_; (on_goal 2 => intro hx; clear_value x); (on_goal 1 => subst x)) | subst x)
    | with_reducible assumption
    | (show Field.within _ _ = true; decide)
    | with_reducible apply State.modRing_moves
    | with_reducible apply State.flush_moves
    | with_reducible apply Moves.ite
    | split) hfl)

theorem State.writePage2_moves {fl : List Field} {r₀ : State} {s : State} {o : ℕ} {v : ℕ} (hm : Moves fl r₀ s)
    (hfl : Field.within [.regs] fl = true) : Moves fl r₀ (State.writePage2 s o v) :=
  hm.trans (Moves.mono (a := [.regs]) (by
  have h := Moves.refl [.regs] s
  unfold State.writePage2
  repeat' first
    | (extract_lets +onlyGivenNames x; first | (refine Moves.cut (s := x) ?_ ?_; (on_goal 2 => intro hx; clear_value x); (on_goal 1 => subst x)) | subst x)
    | with_reducible assumption
    | (show Field.within _ _ = true; decide)
    | with_reducible apply State.modRegs_moves
    | with_reducible apply Moves.ite
    | split) hfl)

theorem State.writeReg_moves {fl : List Field} {r₀ : State} {s : State} {o : ℕ} {v : ℕ} (hm : Moves fl r₀ s)
    (hfl : Field.within [.pins, .boot, .regs, .parts, .rings, .counters, .calls, .hk, .out] fl = true) : Moves fl r₀ (State.writeReg s o v) :=
  hm.trans (Moves.mono (a := [.pins, .boot, .regs, .parts, .rings, .counters, .calls, .hk, .out]) (by
  have h := Moves.refl [.pins, .boot, .regs, .parts, .rings, .counters, .calls, .hk, .out] s
  unfold State.writeReg
  repeat' first
    | (extract_lets +onlyGivenNames x; first | (refine Moves.cut (s := x) ?_ ?_; (on_goal 2 => intro hx; clear_value x); (on_goal 1 => subst x)) | subst x)
    | with_reducible assumption
    | (show Field.within _ _ = true; decide)
    | with_reducible apply State.writeVersion_moves
    | with_reducible apply State.writeSeal_moves
    | with_reducible apply State.modPins_moves
    | with_reducible apply State.writeRefen_moves
    | with_reducible apply State.writeCounterSel_moves
    | with_reducible apply State.writeGo_moves
    | with_reducible apply State.writePolicy_moves
    | with_reducible apply State.writeCoal_moves
    | with_reducible apply State.writeRing_moves
    | with_reducible apply State.writePage2_moves
    | with_reducible apply State.writeShare_moves
    | with_reducible apply Moves.ite
    | split) hfl)

theorem State.writeOpen_moves {fl : List Field} {r₀ : State} {s : State} {o : ℕ} {v : ℕ} (hm : Moves fl r₀ s)
    (hfl : Field.within [.pins, .boot, .regs, .parts, .rings, .counters, .calls, .hk, .out] fl = true) : Moves fl r₀ (State.writeOpen s o v) :=
  hm.trans (Moves.mono (a := [.pins, .boot, .regs, .parts, .rings, .counters, .calls, .hk, .out]) (by
  have h := Moves.refl [.pins, .boot, .regs, .parts, .rings, .counters, .calls, .hk, .out] s
  unfold State.writeOpen
  repeat' first
    | with_reducible assumption
    | (show Field.within _ _ = true; decide)
    | with_reducible apply State.writeReg_moves
    | with_reducible apply Moves.ite
    | split) hfl)

theorem State.dropLow_moves {fl : List Field} {r₀ : State} {s : State} {o : ℕ} (hm : Moves fl r₀ s)
    (hfl : Field.within [.regs] fl = true) : Moves fl r₀ (State.dropLow s o) :=
  hm.trans (Moves.mono (a := [.regs]) (by
  have h := Moves.refl [.regs] s
  unfold State.dropLow
  repeat' first
    | with_reducible assumption
    | (show Field.within _ _ = true; decide)
    | with_reducible apply State.modRegs_moves
    | split) hfl)

theorem State.write4_moves {fl : List Field} {r₀ : State} {s : State} {o : ℕ} {v : ℕ} (hm : Moves fl r₀ s)
    (hfl : Field.within [.pins, .boot, .regs, .parts, .rings, .counters, .calls, .hk, .out] fl = true) : Moves fl r₀ (State.write4 s o v) :=
  hm.trans (Moves.mono (a := [.pins, .boot, .regs, .parts, .rings, .counters, .calls, .hk, .out]) (by
  have h := Moves.refl [.pins, .boot, .regs, .parts, .rings, .counters, .calls, .hk, .out] s
  unfold State.write4
  repeat' first
    | (extract_lets +onlyGivenNames x; first | (refine Moves.cut (s := x) ?_ ?_; (on_goal 2 => intro hx; clear_value x); (on_goal 1 => subst x)) | subst x)
    | with_reducible assumption
    | (show Field.within _ _ = true; decide)
    | with_reducible apply State.writeOpen_moves
    | with_reducible apply State.modRegs_moves
    | with_reducible apply State.dropLow_moves
    | with_reducible apply Moves.ite
    | split) hfl)

theorem State.windowWrite_moves {fl : List Field} {r₀ : State} {s : State} {a : Sys2Proof.RegAccess} (hm : Moves fl r₀ s)
    (hfl : Field.within [.pins, .boot, .regs, .parts, .rings, .counters, .calls, .hk, .out] fl = true) : Moves fl r₀ (State.windowWrite s a) :=
  hm.trans (Moves.mono (a := [.pins, .boot, .regs, .parts, .rings, .counters, .calls, .hk, .out]) (by
  have h := Moves.refl [.pins, .boot, .regs, .parts, .rings, .counters, .calls, .hk, .out] s
  unfold State.windowWrite
  repeat' first
    | (extract_lets +onlyGivenNames x; first | (refine Moves.cut (s := x) ?_ ?_; (on_goal 2 => intro hx; clear_value x); (on_goal 1 => subst x)) | subst x)
    | with_reducible assumption
    | (show Field.within _ _ = true; decide)
    | with_reducible apply State.count_moves
    | with_reducible apply State.write4_moves
    | with_reducible apply State.writeOpen_moves
    | with_reducible apply State.dropLow_moves
    | with_reducible apply Moves.ite
    | split) hfl)

theorem State.windowRead_moves {fl : List Field} {r₀ : State} {s : State} {a : Sys2Proof.RegAccess} (hm : Moves fl r₀ s)
    (hfl : Field.within [.regs, .counters, .out] fl = true) : Moves fl r₀ (State.windowRead s a) :=
  hm.trans (Moves.mono (a := [.regs, .counters, .out]) (by
  have h := Moves.refl [.regs, .counters, .out] s
  unfold State.windowRead
  repeat' first
    | with_reducible assumption
    | (show Field.within _ _ = true; decide)
    | with_reducible apply State.emit_moves
    | with_reducible apply State.count_moves
    | with_reducible apply State.read4_moves
    | with_reducible apply Moves.ite
    | split) hfl)

end Sys2Proof.Machine
end

