-- ==== Sys2Proof/Laws/PowerOpsMoves.lean ====
section
/-! SUPPORT. What each operation of Machine/PowerOps.lean may change, and that it keeps the canonical form. -/

set_option Elab.async false

namespace Sys2Proof.Machine

set_option linter.unusedTactic false
set_option linter.unreachableTactic false

theorem State.startLevel_moves {fl : List Field} {r₀ : State} {s : State}  (hm : Moves fl r₀ s)
    (hfl : Field.within [.regs, .power, .out] fl = true) : Moves fl r₀ (State.startLevel s) :=
  hm.trans (Moves.mono (a := [.regs, .power, .out]) (by
  have h := Moves.refl [.regs, .power, .out] s
  unfold State.startLevel
  repeat' first
    | (extract_lets +onlyGivenNames x; first | (refine Moves.cut (s := x) ?_ ?_; (on_goal 2 => intro hx; clear_value x); (on_goal 1 => subst x)) | subst x)
    | with_reducible assumption
    | (show Field.within _ _ = true; decide)
    | with_reducible apply State.modRegs_moves
    | with_reducible apply State.modPower_moves
    | with_reducible apply State.emit_moves
    | with_reducible apply Moves.ite
    | split) hfl)

theorem State.setRegFloor_moves {fl : List Field} {r₀ : State} {s : State} {l : ℕ} (hm : Moves fl r₀ s)
    (hfl : Field.within [.regs, .power, .out] fl = true) : Moves fl r₀ (State.setRegFloor s l) :=
  hm.trans (Moves.mono (a := [.regs, .power, .out]) (by
  have h := Moves.refl [.regs, .power, .out] s
  unfold State.setRegFloor
  repeat' first
    | with_reducible assumption
    | (show Field.within _ _ = true; decide)
    | with_reducible apply State.startLevel_moves
    | with_reducible apply State.modPower_moves
    | split) hfl)

theorem State.regAlert_moves {fl : List Field} {r₀ : State} {s : State} {addr : ℕ} {page : ℕ} {word : ℕ} (hm : Moves fl r₀ s)
    (hfl : Field.within [.rings, .counters, .sec, .out] fl = true) : Moves fl r₀ (State.regAlert s addr page word) :=
  hm.trans (Moves.mono (a := [.rings, .counters, .sec, .out]) (by
  have h := Moves.refl [.rings, .counters, .sec, .out] s
  unfold State.regAlert
  repeat' first
    | with_reducible assumption
    | (show Field.within _ _ = true; decide)
    | with_reducible apply State.event_moves
    | split) hfl)

theorem State.powerEvent_moves {fl : List Field} {r₀ : State} {s : State} {a : DState} {b : DState} (hm : Moves fl r₀ s)
    (hfl : Field.within [.rings, .counters, .sec, .out] fl = true) : Moves fl r₀ (State.powerEvent s a b) :=
  hm.trans (Moves.mono (a := [.rings, .counters, .sec, .out]) (by
  have h := Moves.refl [.rings, .counters, .sec, .out] s
  unfold State.powerEvent
  repeat' first
    | with_reducible assumption
    | (show Field.within _ _ = true; decide)
    | with_reducible apply State.event_moves
    | split) hfl)

theorem State.startEntry_moves {fl : List Field} {r₀ : State} {s : State} {t : DState} {j : Job} (hm : Moves fl r₀ s)
    (hfl : Field.within [.rings, .jobs, .boughs, .power, .out] fl = true) : Moves fl r₀ (State.startEntry s t j) :=
  hm.trans (Moves.mono (a := [.rings, .jobs, .boughs, .power, .out]) (by
  have h := Moves.refl [.rings, .jobs, .boughs, .power, .out] s
  unfold State.startEntry
  repeat' first
    | (extract_lets +onlyGivenNames x; first | (refine Moves.cut (s := x) ?_ ?_; (on_goal 2 => intro hx; clear_value x); (on_goal 1 => subst x)) | subst x)
    | with_reducible assumption
    | (show Field.within _ _ = true; decide)
    | with_reducible apply State.start_moves
    | with_reducible apply State.modBough_moves
    | with_reducible apply State.flushAll_moves
    | with_reducible apply State.modPower_moves
    | with_reducible apply Moves.each
    | with_reducible apply Moves.ite
    | (intro _ _ _)
    | split) hfl)

theorem State.startWake_moves {fl : List Field} {r₀ : State} {s : State} {j : Option Job} (hm : Moves fl r₀ s)
    (hfl : Field.within [.jobs, .power, .out] fl = true) : Moves fl r₀ (State.startWake s j) :=
  hm.trans (Moves.mono (a := [.jobs, .power, .out]) (by
  have h := Moves.refl [.jobs, .power, .out] s
  unfold State.startWake
  repeat' first
    | (extract_lets +onlyGivenNames x; first | (refine Moves.cut (s := x) ?_ ?_; (on_goal 2 => intro hx; clear_value x); (on_goal 1 => subst x)) | subst x)
    | with_reducible assumption
    | (show Field.within _ _ = true; decide)
    | with_reducible apply State.start_moves
    | with_reducible apply State.emit_moves
    | with_reducible apply State.modPower_moves
    | with_reducible apply Moves.each
    | (intro _ _ _)
    | split) hfl)

theorem State.abandonEntry_moves {fl : List Field} {r₀ : State} {s : State} {e : EntrySt} (hm : Moves fl r₀ s)
    (hfl : Field.within [.rings, .counters, .jobs, .steps, .tiles, .boughs, .prods, .links, .faults, .power, .sec, .out] fl = true) : Moves fl r₀ (State.abandonEntry s e) :=
  hm.trans (Moves.mono (a := [.rings, .counters, .jobs, .steps, .tiles, .boughs, .prods, .links, .faults, .power, .sec, .out]) (by
  have h := Moves.refl [.rings, .counters, .jobs, .steps, .tiles, .boughs, .prods, .links, .faults, .power, .sec, .out] s
  unfold State.abandonEntry
  repeat' first
    | (extract_lets +onlyGivenNames x; first | (refine Moves.cut (s := x) ?_ ?_; (on_goal 2 => intro hx; clear_value x); (on_goal 1 => subst x)) | subst x)
    | with_reducible assumption
    | (show Field.within _ _ = true; decide)
    | with_reducible apply State.modPower_moves
    | with_reducible apply State.requestRun_moves
    | with_reducible apply State.tilesNext_moves
    | with_reducible apply State.complete_moves
    | with_reducible apply State.count_moves
    | with_reducible apply Moves.each
    | (intro _ _ _)
    | split) hfl)

end Sys2Proof.Machine
end

