-- ==== Sys2Proof/Laws/TileRowsMoves.lean ====
section
/-! SUPPORT. What each operation of Machine/TileRows.lean may change, and that it keeps the canonical form. -/

set_option Elab.async false

namespace Sys2Proof.Machine

set_option linter.unusedTactic false
set_option linter.unreachableTactic false

theorem State.setJob_moves {fl : List Field} {r₀ : State} {s : State} {t : ℕ} {j : ProgJob} (hm : Moves fl r₀ s)
    (hfl : Field.within [.tiles] fl = true) : Moves fl r₀ (State.setJob s t j) :=
  hm.trans (Moves.mono (a := [.tiles]) (by
  have h := Moves.refl [.tiles] s
  unfold State.setJob
  repeat' first
    | with_reducible assumption
    | (show Field.within _ _ = true; decide)
    | with_reducible apply State.modTile_moves
    | split) hfl)

theorem State.runRetires_moves {fl : List Field} {r₀ : State} {s : State} {t : ℕ} {cause : ℕ} (hm : Moves fl r₀ s)
    (hfl : Field.within [.boot, .regs, .rings, .counters, .jobs, .steps, .tiles, .boughs, .prods, .nextOrder, .weights, .links, .faults, .power, .sec, .out] fl = true) : Moves fl r₀ (State.runRetires s t cause) :=
  hm.trans (Moves.mono (a := [.boot, .regs, .rings, .counters, .jobs, .steps, .tiles, .boughs, .prods, .nextOrder, .weights, .links, .faults, .power, .sec, .out]) (by
  have h := Moves.refl [.boot, .regs, .rings, .counters, .jobs, .steps, .tiles, .boughs, .prods, .nextOrder, .weights, .links, .faults, .power, .sec, .out] s
  unfold State.runRetires
  repeat' first
    | with_reducible assumption
    | (show Field.within _ _ = true; decide)
    | with_reducible apply State.settle_moves
    | with_reducible apply State.retireTile_moves
    | split) hfl)

theorem State.dropJob_moves {fl : List Field} {r₀ : State} {s : State} {t : ℕ} (hm : Moves fl r₀ s)
    (hfl : Field.within [.tiles] fl = true) : Moves fl r₀ (State.dropJob s t) :=
  hm.trans (Moves.mono (a := [.tiles]) (by
  have h := Moves.refl [.tiles] s
  unfold State.dropJob
  repeat' first
    | with_reducible assumption
    | (show Field.within _ _ = true; decide)
    | with_reducible apply State.modTile_moves
    | split) hfl)

theorem State.deckReady_moves {fl : List Field} {r₀ : State} {s : State} {t : ℕ} {j : ProgJob} (hm : Moves fl r₀ s)
    (hfl : Field.within [.tiles, .weights] fl = true) : Moves fl r₀ (State.deckReady s t j) :=
  hm.trans (Moves.mono (a := [.tiles, .weights]) (by
  have h := Moves.refl [.tiles, .weights] s
  unfold State.deckReady
  repeat' first
    | (extract_lets +onlyGivenNames x; first | (refine Moves.cut (s := x) ?_ ?_; (on_goal 2 => intro hx; clear_value x); (on_goal 1 => subst x)) | subst x)
    | with_reducible assumption
    | (show Field.within _ _ = true; decide)
    | with_reducible apply State.modDeck_moves
    | with_reducible apply State.writeClapper_moves
    | split) hfl)

theorem State.finishRun_moves {fl : List Field} {r₀ : State} {s : State} {t : ℕ} {j : ProgJob} (hm : Moves fl r₀ s)
    (hfl : Field.within [.boot, .regs, .rings, .counters, .jobs, .steps, .tiles, .boughs, .prods, .nextOrder, .weights, .links, .faults, .power, .sec, .out] fl = true) : Moves fl r₀ (State.finishRun s t j) :=
  hm.trans (Moves.mono (a := [.boot, .regs, .rings, .counters, .jobs, .steps, .tiles, .boughs, .prods, .nextOrder, .weights, .links, .faults, .power, .sec, .out]) (by
  have h := Moves.refl [.boot, .regs, .rings, .counters, .jobs, .steps, .tiles, .boughs, .prods, .nextOrder, .weights, .links, .faults, .power, .sec, .out] s
  unfold State.finishRun
  repeat' first
    | (extract_lets +onlyGivenNames x; first | (refine Moves.cut (s := x) ?_ ?_; (on_goal 2 => intro hx; clear_value x); (on_goal 1 => subst x)) | subst x)
    | with_reducible assumption
    | (show Field.within _ _ = true; decide)
    | with_reducible apply State.dropJob_moves
    | with_reducible apply State.progFail_moves
    | with_reducible apply State.modDeck_moves
    | with_reducible apply State.deckReady_moves
    | with_reducible apply State.settle_moves
    | with_reducible apply Moves.ite
    | split) hfl)

theorem State.assignEntries_moves {fl : List Field} {r₀ : State} {t : ℕ} {j : ProgJob} (hfl : Field.within [.rings, .counters, .tiles, .sec, .out] fl = true) :
    ∀ (cs got : List ℕ) {s : State} {x : List ℕ × State}, Moves fl r₀ s → State.assignEntries s t j cs got = some x → Moves fl r₀ x.2
  | [], got, s, x, h, e => by
    simp only [State.assignEntries, Option.some.injEq] at e
    exact e ▸ h
  | c :: cs, got, s, x, h, e => by
    unfold State.assignEntries at e
    extract_lets bad s1 at e
    have h1 : Moves fl r₀ s1 := Moves.each h fun _ _ k => State.setRemap_moves k hfl
    clear_value s1
    split at e
    · cases e
    · exact State.assignEntries_moves hfl cs _ (State.setRemap_moves h1 hfl) e

theorem State.passEnds_moves {fl : List Field} {r₀ : State} {s : State} {t : ℕ} {j : ProgJob} (hm : Moves fl r₀ s)
    (hfl : Field.within [.boot, .regs, .rings, .counters, .jobs, .steps, .tiles, .boughs, .prods, .nextOrder, .weights, .links, .faults, .power, .sec, .out] fl = true) : Moves fl r₀ (State.passEnds s t j) :=
  hm.trans (Moves.mono (a := [.boot, .regs, .rings, .counters, .jobs, .steps, .tiles, .boughs, .prods, .nextOrder, .weights, .links, .faults, .power, .sec, .out]) (by
  have h := Moves.refl [.boot, .regs, .rings, .counters, .jobs, .steps, .tiles, .boughs, .prods, .nextOrder, .weights, .links, .faults, .power, .sec, .out] s
  unfold State.passEnds
  split
  · exact State.runRetires_moves h (by decide)
  · rename_i e
    exact State.finishRun_moves (State.assignEntries_moves (by decide) _ _ h e) (by decide)
  · rename_i e
    exact State.setJob_moves (State.assignEntries_moves (by decide) _ _ h e) (by decide)) hfl)

theorem State.rowDone_moves {fl : List Field} {r₀ : State} {s : State} {t : ℕ} {j : ProgJob} {left : List ℕ} (hm : Moves fl r₀ s)
    (hfl : Field.within [.boot, .regs, .rings, .counters, .jobs, .steps, .tiles, .boughs, .prods, .nextOrder, .weights, .links, .faults, .power, .sec, .out] fl = true) : Moves fl r₀ (State.rowDone s t j left) :=
  hm.trans (Moves.mono (a := [.boot, .regs, .rings, .counters, .jobs, .steps, .tiles, .boughs, .prods, .nextOrder, .weights, .links, .faults, .power, .sec, .out]) (by
  have h := Moves.refl [.boot, .regs, .rings, .counters, .jobs, .steps, .tiles, .boughs, .prods, .nextOrder, .weights, .links, .faults, .power, .sec, .out] s
  unfold State.rowDone
  repeat' first
    | (extract_lets +onlyGivenNames x; first | (refine Moves.cut (s := x) ?_ ?_; (on_goal 2 => intro hx; clear_value x); (on_goal 1 => subst x)) | subst x)
    | with_reducible assumption
    | (show Field.within _ _ = true; decide)
    | with_reducible apply State.count_moves
    | with_reducible apply State.passEnds_moves
    | with_reducible apply State.setJob_moves
    | with_reducible apply Moves.ite
    | split) hfl)

theorem State.runStep_moves {fl : List Field} {r₀ : State} {s : State} {t : ℕ} {j : ProgJob} {r : Sys2Proof.ProgRead} (hm : Moves fl r₀ s)
    (hfl : Field.within [.boot, .regs, .rings, .counters, .jobs, .steps, .tiles, .boughs, .prods, .nextOrder, .weights, .links, .faults, .power, .sec, .out] fl = true) : Moves fl r₀ (State.runStep s t j r) :=
  hm.trans (Moves.mono (a := [.boot, .regs, .rings, .counters, .jobs, .steps, .tiles, .boughs, .prods, .nextOrder, .weights, .links, .faults, .power, .sec, .out]) (by
  have h := Moves.refl [.boot, .regs, .rings, .counters, .jobs, .steps, .tiles, .boughs, .prods, .nextOrder, .weights, .links, .faults, .power, .sec, .out] s
  unfold State.runStep
  repeat' first
    | (extract_lets +onlyGivenNames x; first | (refine Moves.cut (s := x) ?_ ?_; (on_goal 2 => intro hx; clear_value x); (on_goal 1 => subst x)) | subst x)
    | with_reducible assumption
    | (show Field.within _ _ = true; decide)
    | with_reducible apply State.runRetires_moves
    | with_reducible apply State.setJob_moves
    | with_reducible apply State.rowDone_moves
    | with_reducible apply Moves.ite
    | split) hfl)

theorem State.digestFails_moves {fl : List Field} {r₀ : State} {s : State} {t : ℕ} {d : ℕ} {dg : ℕ} (hm : Moves fl r₀ s)
    (hfl : Field.within [.boot, .regs, .rings, .counters, .jobs, .steps, .tiles, .boughs, .prods, .nextOrder, .weights, .links, .faults, .power, .sec, .out] fl = true) : Moves fl r₀ (State.digestFails s t d dg) :=
  hm.trans (Moves.mono (a := [.boot, .regs, .rings, .counters, .jobs, .steps, .tiles, .boughs, .prods, .nextOrder, .weights, .links, .faults, .power, .sec, .out]) (by
  have h := Moves.refl [.boot, .regs, .rings, .counters, .jobs, .steps, .tiles, .boughs, .prods, .nextOrder, .weights, .links, .faults, .power, .sec, .out] s
  unfold State.digestFails
  repeat' first
    | (extract_lets +onlyGivenNames x; first | (refine Moves.cut (s := x) ?_ ?_; (on_goal 2 => intro hx; clear_value x); (on_goal 1 => subst x)) | subst x)
    | with_reducible assumption
    | (show Field.within _ _ = true; decide)
    | with_reducible apply State.event_moves
    | with_reducible apply State.count_moves
    | with_reducible apply State.settle_moves
    | with_reducible apply State.firmwareTake_moves
    | with_reducible apply Moves.ite
    | split) hfl)

theorem State.tryAllVerified_moves {fl : List Field} {r₀ : State} {s : State}  (hm : Moves fl r₀ s)
    (hfl : Field.within [.regs] fl = true) : Moves fl r₀ (State.tryAllVerified s) :=
  hm.trans (Moves.mono (a := [.regs]) (by
  have h := Moves.refl [.regs] s
  unfold State.tryAllVerified
  repeat' first
    | with_reducible assumption
    | (show Field.within _ _ = true; decide)
    | with_reducible apply State.setReady_moves
    | with_reducible apply Moves.ite
    | split) hfl)

theorem State.verifyRow_moves {fl : List Field} {r₀ : State} {s : State} {t : ℕ} {d : ℕ} {row : Sys2Proof.Bytes} (hm : Moves fl r₀ s)
    (hfl : Field.within [.boot, .regs, .rings, .counters, .jobs, .steps, .tiles, .boughs, .prods, .nextOrder, .weights, .links, .faults, .power, .sec, .out] fl = true) : Moves fl r₀ (State.verifyRow s t d row) :=
  hm.trans (Moves.mono (a := [.boot, .regs, .rings, .counters, .jobs, .steps, .tiles, .boughs, .prods, .nextOrder, .weights, .links, .faults, .power, .sec, .out]) (by
  have h := Moves.refl [.boot, .regs, .rings, .counters, .jobs, .steps, .tiles, .boughs, .prods, .nextOrder, .weights, .links, .faults, .power, .sec, .out] s
  unfold State.verifyRow
  repeat' first
    | (extract_lets +onlyGivenNames x; first | (refine Moves.cut (s := x) ?_ ?_; (on_goal 2 => intro hx; clear_value x); (on_goal 1 => subst x)) | subst x)
    | with_reducible assumption
    | (show Field.within _ _ = true; decide)
    | with_reducible apply State.modDeck_moves
    | with_reducible apply State.digestFails_moves
    | with_reducible apply State.tryAllVerified_moves
    | with_reducible apply Moves.ite
    | split) hfl)

theorem State.progDone_moves {fl : List Field} {r₀ : State} {s : State} {t : ℕ} {r : Sys2Proof.ProgRead} (hm : Moves fl r₀ s)
    (hfl : Field.within [.boot, .regs, .rings, .counters, .jobs, .steps, .tiles, .boughs, .prods, .nextOrder, .weights, .links, .faults, .power, .sec, .out] fl = true) : Moves fl r₀ (State.progDone s t r) :=
  hm.trans (Moves.mono (a := [.boot, .regs, .rings, .counters, .jobs, .steps, .tiles, .boughs, .prods, .nextOrder, .weights, .links, .faults, .power, .sec, .out]) (by
  have h := Moves.refl [.boot, .regs, .rings, .counters, .jobs, .steps, .tiles, .boughs, .prods, .nextOrder, .weights, .links, .faults, .power, .sec, .out] s
  unfold State.progDone
  repeat' first
    | (extract_lets +onlyGivenNames x; first | (refine Moves.cut (s := x) ?_ ?_; (on_goal 2 => intro hx; clear_value x); (on_goal 1 => subst x)) | subst x)
    | with_reducible assumption
    | (show Field.within _ _ = true; decide)
    | with_reducible apply State.modTile_moves
    | with_reducible apply State.count_moves
    | with_reducible apply State.runStep_moves
    | with_reducible apply State.tilesNext_moves
    | with_reducible apply State.tileNext_moves
    | with_reducible apply Moves.ite
    | split) hfl)

end Sys2Proof.Machine
end

