-- ==== Sys2Proof/Laws/CalRowsMoves.lean ====
section
/-! SUPPORT. What each operation of Machine/CalRows.lean may change, and that it keeps the canonical form. -/

set_option Elab.async false

namespace Sys2Proof.Machine

set_option linter.unusedTactic false
set_option linter.unreachableTactic false

theorem State.programAgain_moves {fl : List Field} {r₀ : State} {s : State} {t : ℕ} {d : ℕ} {failed : List ℕ} (hm : Moves fl r₀ s)
    (hfl : Field.within [.rings, .counters, .steps, .tiles, .boughs, .prods, .nextOrder, .links, .faults, .power, .sec, .out] fl = true) : Moves fl r₀ (State.programAgain s t d failed) :=
  hm.trans (Moves.mono (a := [.rings, .counters, .steps, .tiles, .boughs, .prods, .nextOrder, .links, .faults, .power, .sec, .out]) (by
  have h := Moves.refl [.rings, .counters, .steps, .tiles, .boughs, .prods, .nextOrder, .links, .faults, .power, .sec, .out] s
  unfold State.programAgain
  repeat' first
    | with_reducible assumption
    | (show Field.within _ _ = true; decide)
    | with_reducible apply State.requestProgram_moves
    | split) hfl)

theorem State.columnFaults_moves {fl : List Field} {r₀ : State} {s : State} {t : ℕ} {d : ℕ} {cols : List ℕ} (hm : Moves fl r₀ s)
    (hfl : Field.within [.rings, .counters, .steps, .tiles, .boughs, .prods, .nextOrder, .weights, .links, .faults, .power, .sec, .out] fl = true) : Moves fl r₀ (State.columnFaults s t d cols) :=
  hm.trans (Moves.mono (a := [.rings, .counters, .steps, .tiles, .boughs, .prods, .nextOrder, .weights, .links, .faults, .power, .sec, .out]) (by
  have h := Moves.refl [.rings, .counters, .steps, .tiles, .boughs, .prods, .nextOrder, .weights, .links, .faults, .power, .sec, .out] s
  unfold State.columnFaults
  repeat' first
    | with_reducible assumption
    | (show Field.within _ _ = true; decide)
    | with_reducible apply State.programAgain_moves
    | with_reducible apply State.suspendColumn_moves
    | with_reducible apply Moves.each
    | with_reducible apply Moves.ite
    | (intro _ _ _)
    | split) hfl)

theorem State.fitIsDone_moves {fl : List Field} {r₀ : State} {s : State} {t : ℕ} {d : ℕ} (hm : Moves fl r₀ s)
    (hfl : Field.within [.boot, .regs, .rings, .counters, .jobs, .steps, .tiles, .boughs, .calSave, .prods, .nextOrder, .weights, .links, .faults, .power, .sec, .out] fl = true) : Moves fl r₀ (State.fitIsDone s t d) :=
  hm.trans (Moves.mono (a := [.boot, .regs, .rings, .counters, .jobs, .steps, .tiles, .boughs, .calSave, .prods, .nextOrder, .weights, .links, .faults, .power, .sec, .out]) (by
  have h := Moves.refl [.boot, .regs, .rings, .counters, .jobs, .steps, .tiles, .boughs, .calSave, .prods, .nextOrder, .weights, .links, .faults, .power, .sec, .out] s
  unfold State.fitIsDone
  repeat' first
    | (extract_lets +onlyGivenNames x; first | (refine Moves.cut (s := x) ?_ ?_; (on_goal 2 => intro hx; clear_value x); (on_goal 1 => subst x)) | subst x)
    | with_reducible assumption
    | (show Field.within _ _ = true; decide)
    | with_reducible apply State.modDeck_moves
    | with_reducible apply State.columnFaults_moves
    | with_reducible apply State.settle_moves
    | with_reducible apply State.tryVerified_moves
    | with_reducible apply State.saveCal_moves
    | with_reducible apply Moves.ite
    | split) hfl)

theorem State.chargeReads_moves {fl : List Field} {r₀ : State} {s : State} {b : ℕ} {rs : List Sys2Proof.SliceReads} (hm : Moves fl r₀ s)
    (hfl : Field.within [.counters, .boughs, .power] fl = true) : Moves fl r₀ (State.chargeReads s b rs) :=
  hm.trans (Moves.mono (a := [.counters, .boughs, .power]) (by
  have h := Moves.refl [.counters, .boughs, .power] s
  unfold State.chargeReads
  repeat' first
    | with_reducible assumption
    | (show Field.within _ _ = true; decide)
    | with_reducible apply State.charge_moves
    | with_reducible apply State.count_moves
    | with_reducible apply Moves.each
    | (intro _ _ _)
    | split) hfl)

theorem State.fitSlices_moves {fl : List Field} {r₀ : State} {s : State} {f : TileFit} {direct : Bool} (hm : Moves fl r₀ s)
    (hfl : Field.within [.rings, .counters, .steps, .tiles, .boughs, .prods, .weights, .sec, .out] fl = true) : Moves fl r₀ (State.fitSlices s f direct) :=
  hm.trans (Moves.mono (a := [.rings, .counters, .steps, .tiles, .boughs, .prods, .weights, .sec, .out]) (by
  have h := Moves.refl [.rings, .counters, .steps, .tiles, .boughs, .prods, .weights, .sec, .out] s
  unfold State.fitSlices
  repeat' first
    | (extract_lets +onlyGivenNames x; first | (refine Moves.cut (s := x) ?_ ?_; (on_goal 2 => intro hx; clear_value x); (on_goal 1 => subst x)) | subst x)
    | with_reducible assumption
    | (show Field.within _ _ = true; decide)
    | with_reducible apply State.retireTile_moves
    | with_reducible apply State.modTile_moves
    | with_reducible apply Moves.foldl
    | with_reducible apply Moves.foldl_fst
    | with_reducible apply Moves.ite
    | (intro _ _ _)
    | split) hfl)

theorem State.refIsReady_moves {fl : List Field} {r₀ : State} {s : State} {b : ℕ} {reads : List Sys2Proof.SliceReads} (hm : Moves fl r₀ s)
    (hfl : Field.within [.boot, .regs, .rings, .counters, .jobs, .steps, .tiles, .boughs, .prods, .weights, .links, .faults, .power, .sec, .out] fl = true) : Moves fl r₀ (State.refIsReady s b reads) :=
  hm.trans (Moves.mono (a := [.boot, .regs, .rings, .counters, .jobs, .steps, .tiles, .boughs, .prods, .weights, .links, .faults, .power, .sec, .out]) (by
  have h := Moves.refl [.boot, .regs, .rings, .counters, .jobs, .steps, .tiles, .boughs, .prods, .weights, .links, .faults, .power, .sec, .out] s
  unfold State.refIsReady
  repeat' first
    | (extract_lets +onlyGivenNames x; first | (refine Moves.cut (s := x) ?_ ?_; (on_goal 2 => intro hx; clear_value x); (on_goal 1 => subst x)) | subst x)
    | with_reducible assumption
    | (show Field.within _ _ = true; decide)
    | with_reducible apply State.modBough_moves
    | with_reducible apply State.chargeReads_moves
    | with_reducible apply State.fitSlices_moves
    | with_reducible apply State.startRun_moves
    | with_reducible apply State.calStep_moves
    | with_reducible apply State.tilesNext_moves
    | with_reducible apply Moves.each
    | with_reducible apply Moves.ite
    | (intro _ _ _)
    | split) hfl)

theorem State.chunkConverted_moves {fl : List Field} {r₀ : State} {s : State}  (hm : Moves fl r₀ s)
    (hfl : Field.within [.boot, .regs, .rings, .counters, .jobs, .steps, .tiles, .boughs, .prods, .nextOrder, .weights, .links, .faults, .power, .sec, .out] fl = true) : Moves fl r₀ (State.chunkConverted s) :=
  hm.trans (Moves.mono (a := [.boot, .regs, .rings, .counters, .jobs, .steps, .tiles, .boughs, .prods, .nextOrder, .weights, .links, .faults, .power, .sec, .out]) (by
  have h := Moves.refl [.boot, .regs, .rings, .counters, .jobs, .steps, .tiles, .boughs, .prods, .nextOrder, .weights, .links, .faults, .power, .sec, .out] s
  unfold State.chunkConverted
  repeat' first
    | with_reducible assumption
    | (show Field.within _ _ = true; decide)
    | with_reducible apply State.settle_moves
    | with_reducible apply State.modWeights_moves
    | with_reducible apply State.convertChunk_moves
    | split) hfl)

theorem State.startRetake_moves {fl : List Field} {r₀ : State} {s : State} {t : ℕ} {d : ℕ} (hm : Moves fl r₀ s)
    (hfl : Field.within [.boot, .regs, .rings, .counters, .jobs, .steps, .tiles, .boughs, .prods, .nextOrder, .weights, .links, .faults, .power, .sec, .out] fl = true) : Moves fl r₀ (State.startRetake s t d) :=
  hm.trans (Moves.mono (a := [.boot, .regs, .rings, .counters, .jobs, .steps, .tiles, .boughs, .prods, .nextOrder, .weights, .links, .faults, .power, .sec, .out]) (by
  have h := Moves.refl [.boot, .regs, .rings, .counters, .jobs, .steps, .tiles, .boughs, .prods, .nextOrder, .weights, .links, .faults, .power, .sec, .out] s
  unfold State.startRetake
  repeat' first
    | (extract_lets +onlyGivenNames x; first | (refine Moves.cut (s := x) ?_ ?_; (on_goal 2 => intro hx; clear_value x); (on_goal 1 => subst x)) | subst x)
    | with_reducible assumption
    | (show Field.within _ _ = true; decide)
    | with_reducible apply State.event_moves
    | with_reducible apply State.settle_moves
    | with_reducible apply State.firmwareTake_moves
    | with_reducible apply Moves.ite
    | split) hfl)

theorem State.fitDeck_moves {fl : List Field} {r₀ : State} {s : State} {t : ℕ} {d : ℕ} (hm : Moves fl r₀ s)
    (hfl : Field.within [.rings, .counters, .steps, .tiles, .boughs, .prods, .nextOrder, .weights, .links, .faults, .power, .sec, .out] fl = true) : Moves fl r₀ (State.fitDeck s t d) :=
  hm.trans (Moves.mono (a := [.rings, .counters, .steps, .tiles, .boughs, .prods, .nextOrder, .weights, .links, .faults, .power, .sec, .out]) (by
  have h := Moves.refl [.rings, .counters, .steps, .tiles, .boughs, .prods, .nextOrder, .weights, .links, .faults, .power, .sec, .out] s
  unfold State.fitDeck
  repeat' first
    | (extract_lets +onlyGivenNames x; first | (refine Moves.cut (s := x) ?_ ?_; (on_goal 2 => intro hx; clear_value x); (on_goal 1 => subst x)) | subst x)
    | with_reducible assumption
    | (show Field.within _ _ = true; decide)
    | with_reducible apply State.columnFaults_moves
    | with_reducible apply State.modDeck_moves
    | split) hfl)

theorem State.fitTile_moves {fl : List Field} {r₀ : State} {s : State} {r : Sys2Proof.SliceReads} {decks : List ℕ} {sweeps : ℕ → List (ℕ × List ℤ)} (hm : Moves fl r₀ s)
    (hfl : Field.within [.rings, .counters, .steps, .tiles, .boughs, .prods, .nextOrder, .weights, .links, .faults, .power, .sec, .out] fl = true) : Moves fl r₀ (State.fitTile s r decks sweeps) :=
  hm.trans (Moves.mono (a := [.rings, .counters, .steps, .tiles, .boughs, .prods, .nextOrder, .weights, .links, .faults, .power, .sec, .out]) (by
  have h := Moves.refl [.rings, .counters, .steps, .tiles, .boughs, .prods, .nextOrder, .weights, .links, .faults, .power, .sec, .out] s
  unfold State.fitTile
  repeat' first
    | (extract_lets +onlyGivenNames x; first | (refine Moves.cut (s := x) ?_ ?_; (on_goal 2 => intro hx; clear_value x); (on_goal 1 => subst x)) | subst x)
    | with_reducible assumption
    | (show Field.within _ _ = true; decide)
    | with_reducible apply State.fitSlices_moves
    | with_reducible apply State.fitDeck_moves
    | with_reducible apply Moves.each
    | with_reducible apply Moves.ite
    | (intro _ _ _)
    | split) hfl)

theorem State.runEnds_moves {fl : List Field} {r₀ : State} {s : State} {b : ℕ} {reads : List Sys2Proof.SliceReads} (hm : Moves fl r₀ s)
    (hfl : Field.within [.boot, .regs, .rings, .counters, .jobs, .steps, .tiles, .boughs, .calSave, .prods, .nextOrder, .weights, .links, .faults, .power, .sec, .out] fl = true) : Moves fl r₀ (State.runEnds s b reads) :=
  hm.trans (Moves.mono (a := [.boot, .regs, .rings, .counters, .jobs, .steps, .tiles, .boughs, .calSave, .prods, .nextOrder, .weights, .links, .faults, .power, .sec, .out]) (by
  have h := Moves.refl [.boot, .regs, .rings, .counters, .jobs, .steps, .tiles, .boughs, .calSave, .prods, .nextOrder, .weights, .links, .faults, .power, .sec, .out] s
  unfold State.runEnds
  repeat' first
    | (extract_lets +onlyGivenNames x; first | (refine Moves.cut (s := x) ?_ ?_; (on_goal 2 => intro hx; clear_value x); (on_goal 1 => subst x)) | subst x)
    | with_reducible assumption
    | (show Field.within _ _ = true; decide)
    | with_reducible apply State.chargeReads_moves
    | with_reducible apply State.modBough_moves
    | with_reducible apply State.count_moves
    | with_reducible apply State.fitTile_moves
    | with_reducible apply State.saveCal_moves
    | with_reducible apply State.requestRun_moves
    | with_reducible apply State.settle_moves
    | with_reducible apply State.calStep_moves
    | with_reducible apply State.tilesNext_moves
    | with_reducible apply Moves.each
    | with_reducible apply Moves.ite
    | (intro _ _ _)
    | split
    | (refine Moves.of_lit ?_ ?_ ?_)
    | (intro f hf; cases f <;> first | exact hf.elim (by decide) | rfl)
    | (exact fun c => ⟨c.parts, c.rings, c.counters, c.calls, c.customers, by dsimp only; first | exact c.tiles | exact Tbl.wf_set c.tiles | exact Tbl.wf_update c.tiles | exact Tbl.wf_mapVals (Tbl.rising_of_wf c.tiles) | exact Tbl.wf_mapVals (Tbl.rising_map (fun p => by (try dsimp only); (repeat' split) <;> rfl) (Tbl.rising_of_wf c.tiles)) | (split <;> first | exact c.tiles | exact Tbl.wf_set c.tiles | exact Tbl.wf_mapVals (Tbl.rising_of_wf c.tiles)), c.boughs, c.calSave, c.links, c.mem⟩)) hfl)

end Sys2Proof.Machine
end

