-- ==== Sys2Proof/Laws/HostRingsMoves.lean ====
section
/-! SUPPORT. What each operation of Machine/HostRings.lean may change, and that it keeps the canonical form. -/

set_option Elab.async false

namespace Sys2Proof.Machine

set_option linter.unusedTactic false
set_option linter.unreachableTactic false

theorem State.hostFaultJob_moves {fl : List Field} {r₀ : State} {s : State} {j : Job} (hm : Moves fl r₀ s)
    (hfl : Field.within [.parts, .rings, .counters, .jobs, .calls, .steps, .batch, .grafts, .tiles, .boughs, .prods, .sums, .handoffs, .acts, .xferWaits, .canopy, .backs, .latches, .attnWaits, .servedKv, .servedAttn, .mem, .links, .sec, .out] fl = true) : Moves fl r₀ (State.hostFaultJob s j) :=
  hm.trans (Moves.mono (a := [.parts, .rings, .counters, .jobs, .calls, .steps, .batch, .grafts, .tiles, .boughs, .prods, .sums, .handoffs, .acts, .xferWaits, .canopy, .backs, .latches, .attnWaits, .servedKv, .servedAttn, .mem, .links, .sec, .out]) (by
  have h := Moves.refl [.parts, .rings, .counters, .jobs, .calls, .steps, .batch, .grafts, .tiles, .boughs, .prods, .sums, .handoffs, .acts, .xferWaits, .canopy, .backs, .latches, .attnWaits, .servedKv, .servedAttn, .mem, .links, .sec, .out] s
  unfold State.hostFaultJob
  repeat' first
    | (extract_lets +onlyGivenNames x; first | (refine Moves.cut (s := x) ?_ ?_; (on_goal 2 => intro hx; clear_value x); (on_goal 1 => subst x)) | subst x)
    | with_reducible assumption
    | (show Field.within _ _ = true; decide)
    | with_reducible apply State.endCall_moves
    | with_reducible apply State.modSec_moves
    | with_reducible apply State.complete_moves
    | with_reducible apply Moves.ite
    | split) hfl)

theorem State.keepEntry_moves {fl : List Field} {r₀ : State} {s : State} {r : Sys2Proof.RingId} {w : Waiting} (hm : Moves fl r₀ s)
    (hfl : Field.within [.calls] fl = true) : Moves fl r₀ (State.keepEntry s r w) :=
  hm.trans (Moves.mono (a := [.calls]) (by
  have h := Moves.refl [.calls] s
  unfold State.keepEntry
  repeat' first
    | with_reducible assumption
    | (show Field.within _ _ = true; decide)
    | with_reducible apply Moves.ite
    | split
    | (refine Moves.of_lit ?_ ?_ ?_)
    | (intro f hf; cases f <;> first | exact hf.elim (by decide) | rfl)
    | (exact fun c => ⟨c.parts, c.rings, c.counters, by dsimp only; first | exact c.calls | exact Tbl.wf_set c.calls | exact Tbl.wf_update c.calls | exact Tbl.wf_mapVals (Tbl.rising_of_wf c.calls) | exact Tbl.wf_mapVals (Tbl.rising_map (fun p => by (try dsimp only); (repeat' split) <;> rfl) (Tbl.rising_of_wf c.calls)) | (split <;> first | exact c.calls | exact Tbl.wf_set c.calls | exact Tbl.wf_mapVals (Tbl.rising_of_wf c.calls)), c.customers, c.tiles, c.boughs, c.calSave, c.links, c.mem⟩)) hfl)

theorem State.recordFault_moves {fl : List Field} {r₀ : State} {s : State} {r : Sys2Proof.RingId} {w : Waiting} (hm : Moves fl r₀ s)
    (hfl : Field.within [.rings, .counters, .calls, .sec, .out] fl = true) : Moves fl r₀ (State.recordFault s r w) :=
  hm.trans (Moves.mono (a := [.rings, .counters, .calls, .sec, .out]) (by
  have h := Moves.refl [.rings, .counters, .calls, .sec, .out] s
  unfold State.recordFault
  repeat' first
    | (extract_lets +onlyGivenNames x; first | (refine Moves.cut (s := x) ?_ ?_; (on_goal 2 => intro hx; clear_value x); (on_goal 1 => subst x)) | subst x)
    | with_reducible assumption
    | (show Field.within _ _ = true; decide)
    | with_reducible apply State.modRing_moves
    | with_reducible apply State.count_moves
    | with_reducible apply State.keepEntry_moves
    | with_reducible apply State.event_moves
    | with_reducible apply Moves.ite
    | split) hfl)

theorem State.fetchFault_moves {fl : List Field} {r₀ : State} {s : State} {r : Sys2Proof.RingId} (hm : Moves fl r₀ s)
    (hfl : Field.within [.rings, .counters, .sec, .out] fl = true) : Moves fl r₀ (State.fetchFault s r) :=
  hm.trans (Moves.mono (a := [.rings, .counters, .sec, .out]) (by
  have h := Moves.refl [.rings, .counters, .sec, .out] s
  unfold State.fetchFault
  repeat' first
    | (extract_lets +onlyGivenNames x; first | (refine Moves.cut (s := x) ?_ ?_; (on_goal 2 => intro hx; clear_value x); (on_goal 1 => subst x)) | subst x)
    | with_reducible assumption
    | (show Field.within _ _ = true; decide)
    | with_reducible apply State.event_moves
    | with_reducible apply State.modRing_moves
    | split) hfl)

theorem State.doorbellBad_moves {fl : List Field} {r₀ : State} {s : State} {r : Sys2Proof.RingId} {count : BitVec 32} (hm : Moves fl r₀ s)
    (hfl : Field.within [.rings, .counters, .sec, .out] fl = true) : Moves fl r₀ (State.doorbellBad s r count) :=
  hm.trans (Moves.mono (a := [.rings, .counters, .sec, .out]) (by
  have h := Moves.refl [.rings, .counters, .sec, .out] s
  unfold State.doorbellBad
  repeat' first
    | with_reducible assumption
    | (show Field.within _ _ = true; decide)
    | with_reducible apply State.event_moves
    | with_reducible apply State.count_moves
    | split) hfl)

theorem State.outboundNext_moves {fl : List Field} {r₀ : State} {s : State} {r : Sys2Proof.RingId} (hm : Moves fl r₀ s)
    (hfl : Field.within [.parts, .rings, .counters, .jobs, .calls, .grafts, .mem, .links, .sec, .out] fl = true) : Moves fl r₀ (State.outboundNext s r) :=
  hm.trans (Moves.mono (a := [.parts, .rings, .counters, .jobs, .calls, .grafts, .mem, .links, .sec, .out]) (by
  have h := Moves.refl [.parts, .rings, .counters, .jobs, .calls, .grafts, .mem, .links, .sec, .out] s
  unfold State.outboundNext
  repeat' first
    | (extract_lets +onlyGivenNames x; first | (refine Moves.cut (s := x) ?_ ?_; (on_goal 2 => intro hx; clear_value x); (on_goal 1 => subst x)) | subst x)
    | with_reducible assumption
    | (show Field.within _ _ = true; decide)
    | with_reducible apply State.freeWritten_moves
    | with_reducible apply State.retryOrRelease_moves
    | with_reducible apply State.noteStall_moves
    | with_reducible apply State.partResetFlush_moves
    | with_reducible apply State.afterFree_moves
    | split) hfl)

theorem State.doorbell_moves {fl : List Field} {r₀ : State} {s : State} {r : Sys2Proof.RingId} {count : BitVec 32} (hm : Moves fl r₀ s)
    (hfl : Field.within [.parts, .rings, .counters, .jobs, .calls, .grafts, .mem, .links, .sec, .out] fl = true) : Moves fl r₀ (State.doorbell s r count) :=
  hm.trans (Moves.mono (a := [.parts, .rings, .counters, .jobs, .calls, .grafts, .mem, .links, .sec, .out]) (by
  have h := Moves.refl [.parts, .rings, .counters, .jobs, .calls, .grafts, .mem, .links, .sec, .out] s
  unfold State.doorbell
  repeat' first
    | (extract_lets +onlyGivenNames x; first | (refine Moves.cut (s := x) ?_ ?_; (on_goal 2 => intro hx; clear_value x); (on_goal 1 => subst x)) | subst x)
    | with_reducible assumption
    | (show Field.within _ _ = true; decide)
    | with_reducible apply State.count_moves
    | with_reducible apply State.modRing_moves
    | with_reducible apply State.doorbellBad_moves
    | with_reducible apply State.noteStall_moves
    | with_reducible apply State.outboundNext_moves
    | with_reducible apply Moves.ite
    | split) hfl)

end Sys2Proof.Machine
end

