-- ==== Sys2Proof/Laws/MgmtDescMoves.lean ====
section
/-! SUPPORT. What each operation of Machine/MgmtDesc.lean may change, and that it keeps the canonical form. -/

set_option Elab.async false

namespace Sys2Proof.Machine

set_option linter.unusedTactic false
set_option linter.unreachableTactic false

theorem State.drawSeeds_moves {fl : List Field} {r₀ : State} {s : State} {set : ℕ} (hm : Moves fl r₀ s)
    (hfl : Field.within [.mem, .free] fl = true) : Moves fl r₀ (State.drawSeeds s set) :=
  hm.trans (Moves.mono (a := [.mem, .free]) (by
  have h := Moves.refl [.mem, .free] s
  unfold State.drawSeeds
  repeat' first
    | (extract_lets +onlyGivenNames x; first | (refine Moves.cut (s := x) ?_ ?_; (on_goal 2 => intro hx; clear_value x); (on_goal 1 => subst x)) | subst x)
    | with_reducible assumption
    | (show Field.within _ _ = true; decide)
    | with_reducible apply State.draw_moves
    | with_reducible apply Moves.each
    | with_reducible apply Moves.modMem
    | with_reducible apply Moves.ite
    | (intro _ _ _)
    | split
    | (intro w; first | with_reducible exact Mem.wf_runs w | exact w | exact Mem.wf_write w | exact Mem.wf_clear w | exact Mem.wf_foldl (fun _ _ h => Mem.wf_write h) _ w)) hfl)

theorem fillEffect_moves {fl : List Field} {r₀ : State} {s : State} {f : Sys2Proof.Fetch} {j : Job} (hm : Moves fl r₀ s)
    (hfl : Field.within [.rings, .counters, .jobs, .mem, .out] fl = true) : Moves fl r₀ (fillEffect f j s) :=
  hm.trans (Moves.mono (a := [.rings, .counters, .jobs, .mem, .out]) (by
  have h := Moves.refl [.rings, .counters, .jobs, .mem, .out] s
  unfold fillEffect
  repeat' first
    | (extract_lets +onlyGivenNames x; first | (refine Moves.cut (s := x) ?_ ?_; (on_goal 2 => intro hx; clear_value x); (on_goal 1 => subst x)) | subst x)
    | with_reducible assumption
    | (show Field.within _ _ = true; decide)
    | with_reducible apply State.complete_moves
    | with_reducible apply State.start_moves
    | with_reducible apply Moves.modMem
    | with_reducible apply Moves.ite
    | split
    | (intro w; first | with_reducible exact Mem.wf_runs w | exact w | exact Mem.wf_write w | exact Mem.wf_clear w | exact Mem.wf_foldl (fun _ _ h => Mem.wf_write h) _ w)) hfl)

theorem fwCutoverEffect_moves {fl : List Field} {r₀ : State} {s : State} {f : Sys2Proof.Fetch} {j : Job} (hm : Moves fl r₀ s)
    (hfl : Field.within [.boot, .rings, .counters, .jobs, .sec, .out] fl = true) : Moves fl r₀ (fwCutoverEffect f j s) :=
  hm.trans (Moves.mono (a := [.boot, .rings, .counters, .jobs, .sec, .out]) (by
  have h := Moves.refl [.boot, .rings, .counters, .jobs, .sec, .out] s
  unfold fwCutoverEffect
  repeat' first
    | (extract_lets +onlyGivenNames x; first | (refine Moves.cut (s := x) ?_ ?_; (on_goal 2 => intro hx; clear_value x); (on_goal 1 => subst x)) | subst x)
    | with_reducible assumption
    | (show Field.within _ _ = true; decide)
    | with_reducible apply State.complete_moves
    | with_reducible apply State.modBoot_moves
    | with_reducible apply State.modSec_moves
    | with_reducible apply State.start_moves
    | with_reducible apply Moves.ite
    | split) hfl)

theorem rehashEffect_moves {fl : List Field} {r₀ : State} {s : State} {f : Sys2Proof.Fetch} {j : Job} (hm : Moves fl r₀ s)
    (hfl : Field.within [.rings, .counters, .jobs, .mem, .free, .out] fl = true) : Moves fl r₀ (rehashEffect f j s) :=
  hm.trans (Moves.mono (a := [.rings, .counters, .jobs, .mem, .free, .out]) (by
  have h := Moves.refl [.rings, .counters, .jobs, .mem, .free, .out] s
  unfold rehashEffect
  repeat' first
    | (extract_lets +onlyGivenNames x; first | (refine Moves.cut (s := x) ?_ ?_; (on_goal 2 => intro hx; clear_value x); (on_goal 1 => subst x)) | subst x)
    | with_reducible assumption
    | (show Field.within _ _ = true; decide)
    | with_reducible apply State.complete_moves
    | with_reducible apply State.start_moves
    | with_reducible apply State.drawSeeds_moves
    | with_reducible apply Moves.modMem
    | with_reducible apply Moves.ite
    | split
    | (intro w; first | with_reducible exact Mem.wf_runs w | exact w | exact Mem.wf_write w | exact Mem.wf_clear w | exact Mem.wf_foldl (fun _ _ h => Mem.wf_write h) _ w)) hfl)

theorem refWarmEffect_moves {fl : List Field} {r₀ : State} {s : State} {f : Sys2Proof.Fetch} {j : Job} (hm : Moves fl r₀ s)
    (hfl : Field.within [.rings, .counters, .jobs, .boughs, .out] fl = true) : Moves fl r₀ (refWarmEffect f j s) :=
  hm.trans (Moves.mono (a := [.rings, .counters, .jobs, .boughs, .out]) (by
  have h := Moves.refl [.rings, .counters, .jobs, .boughs, .out] s
  unfold refWarmEffect
  repeat' first
    | with_reducible assumption
    | (show Field.within _ _ = true; decide)
    | with_reducible apply State.complete_moves
    | with_reducible apply State.warmBough_moves
    | with_reducible apply Moves.each
    | with_reducible apply Moves.ite
    | (intro _ _ _)
    | split) hfl)

theorem powerD3Effect_moves {fl : List Field} {r₀ : State} {s : State} {j : Job} (hm : Moves fl r₀ s)
    (hfl : Field.within [.rings, .counters, .jobs, .boughs, .power, .out] fl = true) : Moves fl r₀ (powerD3Effect j s) :=
  hm.trans (Moves.mono (a := [.rings, .counters, .jobs, .boughs, .power, .out]) (by
  have h := Moves.refl [.rings, .counters, .jobs, .boughs, .power, .out] s
  unfold powerD3Effect
  repeat' first
    | with_reducible assumption
    | (show Field.within _ _ = true; decide)
    | with_reducible apply State.complete_moves
    | with_reducible apply State.startEntry_moves
    | with_reducible apply Moves.ite
    | split) hfl)

theorem State.testWaits_moves {fl : List Field} {r₀ : State} {s : State} {r : Sys2Proof.RingId} {b : ℕ} (hm : Moves fl r₀ s)
    (hfl : Field.within [.counters, .boughs] fl = true) : Moves fl r₀ (State.testWaits s r b) :=
  hm.trans (Moves.mono (a := [.counters, .boughs]) (by
  have h := Moves.refl [.counters, .boughs] s
  unfold State.testWaits
  repeat' first
    | (extract_lets +onlyGivenNames x; first | (refine Moves.cut (s := x) ?_ ?_; (on_goal 2 => intro hx; clear_value x); (on_goal 1 => subst x)) | subst x)
    | with_reducible assumption
    | (show Field.within _ _ = true; decide)
    | with_reducible apply State.modBough_moves
    | with_reducible apply State.warmBough_moves
    | with_reducible apply State.count_moves
    | with_reducible apply Moves.ite
    | split) hfl)

theorem resetBoughEffect_moves {fl : List Field} {r₀ : State} {s : State} {f : Sys2Proof.Fetch} {j : Job} (hm : Moves fl r₀ s)
    (hfl : Field.within [.boot, .counters, .jobs, .calls, .tiles, .boughs, .prods, .xferWaits, .links, .drains, .out] fl = true) : Moves fl r₀ (resetBoughEffect f j s) :=
  hm.trans (Moves.mono (a := [.boot, .counters, .jobs, .calls, .tiles, .boughs, .prods, .xferWaits, .links, .drains, .out]) (by
  have h := Moves.refl [.boot, .counters, .jobs, .calls, .tiles, .boughs, .prods, .xferWaits, .links, .drains, .out] s
  unfold resetBoughEffect
  repeat' first
    | (extract_lets +onlyGivenNames x; first | (refine Moves.cut (s := x) ?_ ?_; (on_goal 2 => intro hx; clear_value x); (on_goal 1 => subst x)) | subst x)
    | with_reducible assumption
    | (show Field.within _ _ = true; decide)
    | with_reducible apply State.modBoot_moves
    | with_reducible apply State.start_moves
    | with_reducible apply State.modBough_moves
    | with_reducible apply State.startDrain_moves
    | with_reducible apply Moves.ite
    | split) hfl)

theorem resetColdEffect_moves {fl : List Field} {r₀ : State} {s : State} {f : Sys2Proof.Fetch} {j : Job} (hm : Moves fl r₀ s)
    (hfl : Field.within everyPiece fl = true) : Moves fl r₀ (resetColdEffect f j s) :=
  hm.trans (Moves.mono (a := everyPiece) (by
  have h := Moves.refl everyPiece s
  unfold resetColdEffect
  repeat' first
    | with_reducible assumption
    | (show Field.within _ _ = true; decide)
    | with_reducible apply State.resetArrives_moves
    | with_reducible apply State.start_moves
    | with_reducible apply State.complete_moves
    | with_reducible apply Moves.ite
    | split) hfl)

theorem attestEffect_moves {fl : List Field} {r₀ : State} {s : State} {f : Sys2Proof.Fetch} {j : Job} (hm : Moves fl r₀ s)
    (hfl : Field.within [.rings, .counters, .jobs, .out] fl = true) : Moves fl r₀ (attestEffect f j s) :=
  hm.trans (Moves.mono (a := [.rings, .counters, .jobs, .out]) (by
  have h := Moves.refl [.rings, .counters, .jobs, .out] s
  unfold attestEffect
  repeat' first
    | (extract_lets +onlyGivenNames x; first | (refine Moves.cut (s := x) ?_ ?_; (on_goal 2 => intro hx; clear_value x); (on_goal 1 => subst x)) | subst x)
    | with_reducible assumption
    | (show Field.within _ _ = true; decide)
    | with_reducible apply State.complete_moves
    | with_reducible apply State.completeNone_moves
    | with_reducible apply State.hostWrite_moves
    | with_reducible apply Moves.ite
    | split) hfl)

theorem powerD2Effect_moves {fl : List Field} {r₀ : State} {s : State} {j : Job} (hm : Moves fl r₀ s)
    (hfl : Field.within [.rings, .counters, .jobs, .boughs, .power, .out] fl = true) : Moves fl r₀ (powerD2Effect j s) :=
  hm.trans (Moves.mono (a := [.rings, .counters, .jobs, .boughs, .power, .out]) (by
  have h := Moves.refl [.rings, .counters, .jobs, .boughs, .power, .out] s
  unfold powerD2Effect
  repeat' first
    | with_reducible assumption
    | (show Field.within _ _ = true; decide)
    | with_reducible apply State.complete_moves
    | with_reducible apply State.startEntry_moves
    | with_reducible apply Moves.ite
    | split) hfl)

theorem calibrateBough_moves {fl : List Field} {r₀ : State} {s : State} {b : ℕ} (hm : Moves fl r₀ s)
    (hfl : Field.within [.counters, .tiles, .boughs] fl = true) : Moves fl r₀ (calibrateBough s b) :=
  hm.trans (Moves.mono (a := [.counters, .tiles, .boughs]) (by
  have h := Moves.refl [.counters, .tiles, .boughs] s
  unfold calibrateBough
  repeat' first
    | (extract_lets +onlyGivenNames x; first | (refine Moves.cut (s := x) ?_ ?_; (on_goal 2 => intro hx; clear_value x); (on_goal 1 => subst x)) | subst x)
    | with_reducible assumption
    | (show Field.within _ _ = true; decide)
    | with_reducible apply State.warmBough_moves
    | with_reducible apply State.count_moves
    | with_reducible apply State.requestRun_moves
    | with_reducible apply Moves.ite
    | split) hfl)

theorem powerD0Effect_moves {fl : List Field} {r₀ : State} {s : State} {f : Sys2Proof.Fetch} {j : Job} (hm : Moves fl r₀ s)
    (hfl : Field.within [.rings, .counters, .jobs, .power, .out] fl = true) : Moves fl r₀ (powerD0Effect f j s) :=
  hm.trans (Moves.mono (a := [.rings, .counters, .jobs, .power, .out]) (by
  have h := Moves.refl [.rings, .counters, .jobs, .power, .out] s
  unfold powerD0Effect
  repeat' first
    | with_reducible assumption
    | (show Field.within _ _ = true; decide)
    | with_reducible apply State.complete_moves
    | with_reducible apply State.startWake_moves
    | with_reducible apply Moves.ite
    | split) hfl)

theorem resetWarmEffect_moves {fl : List Field} {r₀ : State} {s : State} {j : Job} (hm : Moves fl r₀ s)
    (hfl : Field.within everyPiece fl = true) : Moves fl r₀ (resetWarmEffect j s) :=
  hm.trans (Moves.mono (a := everyPiece) (by
  have h := Moves.refl everyPiece s
  unfold resetWarmEffect
  repeat' first
    | (extract_lets +onlyGivenNames x; first | (refine Moves.cut (s := x) ?_ ?_; (on_goal 2 => intro hx; clear_value x); (on_goal 1 => subst x)) | subst x)
    | with_reducible assumption
    | (show Field.within _ _ = true; decide)
    | with_reducible apply State.resetArrives_moves
    | with_reducible apply State.start_moves
    | with_reducible apply State.modBoot_moves
    | with_reducible apply State.startDrain_moves
    | with_reducible apply Moves.ite
    | split) hfl)

theorem calibrateEffect_moves {fl : List Field} {r₀ : State} {s : State} {f : Sys2Proof.Fetch} {j : Job} (hm : Moves fl r₀ s)
    (hfl : Field.within [.rings, .counters, .jobs, .tiles, .boughs, .out] fl = true) : Moves fl r₀ (calibrateEffect f j s) :=
  hm.trans (Moves.mono (a := [.rings, .counters, .jobs, .tiles, .boughs, .out]) (by
  have h := Moves.refl [.rings, .counters, .jobs, .tiles, .boughs, .out] s
  unfold calibrateEffect
  repeat' first
    | with_reducible assumption
    | (show Field.within _ _ = true; decide)
    | with_reducible apply State.complete_moves
    | with_reducible apply calibrateBough_moves
    | with_reducible apply Moves.each
    | (intro _ _ _)
    | split) hfl)

theorem resetPortEffect_moves {fl : List Field} {r₀ : State} {s : State} {f : Sys2Proof.Fetch} {j : Job} (hm : Moves fl r₀ s)
    (hfl : Field.within [.boot, .rings, .counters, .jobs, .links, .out] fl = true) : Moves fl r₀ (resetPortEffect f j s) :=
  hm.trans (Moves.mono (a := [.boot, .rings, .counters, .jobs, .links, .out]) (by
  have h := Moves.refl [.boot, .rings, .counters, .jobs, .links, .out] s
  unfold resetPortEffect
  repeat' first
    | (extract_lets +onlyGivenNames x; first | (refine Moves.cut (s := x) ?_ ?_; (on_goal 2 => intro hx; clear_value x); (on_goal 1 => subst x)) | subst x)
    | with_reducible assumption
    | (show Field.within _ _ = true; decide)
    | with_reducible apply State.complete_moves
    | with_reducible apply State.modBoot_moves
    | with_reducible apply State.start_moves
    | with_reducible apply State.sendHold_moves
    | with_reducible apply State.trainPort_moves
    | with_reducible apply State.modLink_moves
    | with_reducible apply Moves.ite
    | split) hfl)

theorem retireEffect_moves {fl : List Field} {r₀ : State} {s : State} {f : Sys2Proof.Fetch} {j : Job} (hm : Moves fl r₀ s)
    (hfl : Field.within [.rings, .counters, .jobs, .mem, .out] fl = true) : Moves fl r₀ (retireEffect f j s) :=
  hm.trans (Moves.mono (a := [.rings, .counters, .jobs, .mem, .out]) (by
  have h := Moves.refl [.rings, .counters, .jobs, .mem, .out] s
  unfold retireEffect
  repeat' first
    | (extract_lets +onlyGivenNames x; first | (refine Moves.cut (s := x) ?_ ?_; (on_goal 2 => intro hx; clear_value x); (on_goal 1 => subst x)) | subst x)
    | with_reducible assumption
    | (show Field.within _ _ = true; decide)
    | with_reducible apply State.complete_moves
    | with_reducible apply State.start_moves
    | with_reducible apply Moves.modMem
    | with_reducible apply Moves.ite
    | split
    | (intro w; first | with_reducible exact Mem.wf_runs w | exact w | exact Mem.wf_write w | exact Mem.wf_clear w | exact Mem.wf_foldl (fun _ _ h => Mem.wf_write h) _ w)) hfl)

theorem bypassDone_moves {fl : List Field} {r₀ : State} {s : State} {t : ℕ} {d : ℕ} {codes : List ℤ} (hm : Moves fl r₀ s)
    (hfl : Field.within [.rings, .counters, .sec, .out] fl = true) : Moves fl r₀ (bypassDone s t d codes) :=
  hm.trans (Moves.mono (a := [.rings, .counters, .sec, .out]) (by
  have h := Moves.refl [.rings, .counters, .sec, .out] s
  unfold bypassDone
  repeat' first
    | (extract_lets +onlyGivenNames x; first | (refine Moves.cut (s := x) ?_ ?_; (on_goal 2 => intro hx; clear_value x); (on_goal 1 => subst x)) | subst x)
    | with_reducible assumption
    | (show Field.within _ _ = true; decide)
    | with_reducible apply State.event_moves
    | with_reducible apply State.count_moves
    | with_reducible apply Moves.ite
    | split) hfl)

theorem resetPartitionEffect_moves {fl : List Field} {r₀ : State} {s : State} {f : Sys2Proof.Fetch} {j : Job} (hm : Moves fl r₀ s)
    (hfl : Field.within [.parts, .rings, .counters, .jobs, .calls, .tiles, .boughs, .prods, .xferWaits, .links, .drains, .out] fl = true) : Moves fl r₀ (resetPartitionEffect f j s) :=
  hm.trans (Moves.mono (a := [.parts, .rings, .counters, .jobs, .calls, .tiles, .boughs, .prods, .xferWaits, .links, .drains, .out]) (by
  have h := Moves.refl [.parts, .rings, .counters, .jobs, .calls, .tiles, .boughs, .prods, .xferWaits, .links, .drains, .out] s
  unfold resetPartitionEffect
  repeat' first
    | (extract_lets +onlyGivenNames x; first | (refine Moves.cut (s := x) ?_ ?_; (on_goal 2 => intro hx; clear_value x); (on_goal 1 => subst x)) | subst x)
    | with_reducible assumption
    | (show Field.within _ _ = true; decide)
    | with_reducible apply State.complete_moves
    | with_reducible apply State.modPart_moves
    | with_reducible apply State.start_moves
    | with_reducible apply State.startDrain_moves
    | with_reducible apply Moves.ite
    | split) hfl)

theorem arrayTestEffect_moves {fl : List Field} {r₀ : State} {s : State} {f : Sys2Proof.Fetch} {codes : List ℤ} {j : Job} (hm : Moves fl r₀ s)
    (hfl : Field.within [.rings, .counters, .jobs, .steps, .tiles, .boughs, .prods, .weights, .links, .faults, .power, .sec, .out] fl = true) : Moves fl r₀ (arrayTestEffect f codes j s) :=
  hm.trans (Moves.mono (a := [.rings, .counters, .jobs, .steps, .tiles, .boughs, .prods, .weights, .links, .faults, .power, .sec, .out]) (by
  have h := Moves.refl [.rings, .counters, .jobs, .steps, .tiles, .boughs, .prods, .weights, .links, .faults, .power, .sec, .out] s
  unfold arrayTestEffect
  repeat' first
    | (extract_lets +onlyGivenNames x; first | (refine Moves.cut (s := x) ?_ ?_; (on_goal 2 => intro hx; clear_value x); (on_goal 1 => subst x)) | subst x)
    | with_reducible assumption
    | (show Field.within _ _ = true; decide)
    | with_reducible apply State.complete_moves
    | with_reducible apply State.gapPhase_moves
    | with_reducible apply State.sweepDone_moves
    | with_reducible apply State.hostWrite_moves
    | with_reducible apply State.clapperDone_moves
    | with_reducible apply bypassDone_moves
    | with_reducible apply State.tileNext_moves
    | with_reducible apply Moves.ite
    | split) hfl)

theorem fwStageEffect_moves {fl : List Field} {r₀ : State} {s : State} {f : Sys2Proof.Fetch} {j : Job} (hm : Moves fl r₀ s)
    (hfl : Field.within [.rings, .counters, .jobs, .sec, .out] fl = true) : Moves fl r₀ (fwStageEffect f j s) :=
  hm.trans (Moves.mono (a := [.rings, .counters, .jobs, .sec, .out]) (by
  have h := Moves.refl [.rings, .counters, .jobs, .sec, .out] s
  unfold fwStageEffect
  repeat' first
    | (extract_lets +onlyGivenNames x; first | (refine Moves.cut (s := x) ?_ ?_; (on_goal 2 => intro hx; clear_value x); (on_goal 1 => subst x)) | subst x)
    | with_reducible assumption
    | (show Field.within _ _ = true; decide)
    | with_reducible apply State.complete_moves
    | with_reducible apply State.modSec_moves
    | with_reducible apply State.start_moves
    | with_reducible apply Moves.ite
    | split) hfl)

theorem hkSampleEffect_moves {fl : List Field} {r₀ : State} {s : State} {f : Sys2Proof.Fetch} {j : Job} (hm : Moves fl r₀ s)
    (hfl : Field.within [.rings, .counters, .jobs, .hk, .out] fl = true) : Moves fl r₀ (hkSampleEffect f j s) :=
  hm.trans (Moves.mono (a := [.rings, .counters, .jobs, .hk, .out]) (by
  have h := Moves.refl [.rings, .counters, .jobs, .hk, .out] s
  unfold hkSampleEffect
  repeat' first
    | (extract_lets +onlyGivenNames x; first | (refine Moves.cut (s := x) ?_ ?_; (on_goal 2 => intro hx; clear_value x); (on_goal 1 => subst x)) | subst x)
    | with_reducible assumption
    | (show Field.within _ _ = true; decide)
    | with_reducible apply State.complete_moves
    | with_reducible apply State.count_moves
    | with_reducible apply State.modHk_moves
    | with_reducible apply State.start_moves
    | with_reducible apply Moves.ite
    | split) hfl)

end Sys2Proof.Machine
end

