-- ==== Sys2Proof/Laws/PinsResetsMoves.lean ====
section
/-! SUPPORT. What each operation of Machine/PinsResets.lean may change, and that it keeps the canonical form. -/

set_option Elab.async false

namespace Sys2Proof.Machine

set_option linter.unusedTactic false
set_option linter.unreachableTactic false

theorem State.source_moves {fl : List Field} {r₀ : State} {s : State} {cold : Bool} {n : ℕ} (hm : Moves fl r₀ s)
    (hfl : Field.within everyPiece fl = true) : Moves fl r₀ (State.source s cold n) :=
  hm.trans (Moves.mono (a := everyPiece) (by
  have h := Moves.refl everyPiece s
  unfold State.source
  repeat' first
    | with_reducible assumption
    | (show Field.within _ _ = true; decide)
    | with_reducible apply State.resetArrives_moves
    | with_reducible apply Moves.ite
    | split) hfl)

theorem State.portsDown_moves {fl : List Field} {r₀ : State} {s : State}  (hm : Moves fl r₀ s)
    (hfl : Field.within [.links] fl = true) : Moves fl r₀ (State.portsDown s) :=
  hm.trans (Moves.mono (a := [.links]) (by
  have h := Moves.refl [.links] s
  unfold State.portsDown
  repeat' first
    | with_reducible assumption
    | (show Field.within _ _ = true; decide)
    | with_reducible apply State.portLost_moves
    | with_reducible apply Moves.each
    | with_reducible apply Moves.ite
    | (intro _ _ _)
    | split) hfl)

theorem State.refclkLost_moves {fl : List Field} {r₀ : State} {s : State}  (hm : Moves fl r₀ s)
    (hfl : Field.within [.pins, .ticking, .counters, .links] fl = true) : Moves fl r₀ (State.refclkLost s) :=
  hm.trans (Moves.mono (a := [.pins, .ticking, .counters, .links]) (by
  have h := Moves.refl [.pins, .ticking, .counters, .links] s
  unfold State.refclkLost
  repeat' first
    | (extract_lets +onlyGivenNames x; first | (refine Moves.cut (s := x) ?_ ?_; (on_goal 2 => intro hx; clear_value x); (on_goal 1 => subst x)) | subst x)
    | with_reducible assumption
    | (show Field.within _ _ = true; decide)
    | with_reducible apply State.modPins_moves
    | with_reducible apply State.count_moves
    | with_reducible apply State.trainPort_moves
    | with_reducible apply Moves.each
    | with_reducible apply Moves.ite
    | (intro _ _ _)
    | split
    | (refine Moves.of_lit ?_ ?_ ?_)
    | (intro f hf; cases f <;> first | exact hf.elim (by decide) | rfl)
    | (exact fun c => ⟨c.parts, c.rings, c.counters, c.calls, c.customers, c.tiles, c.boughs, c.calSave, c.links, c.mem⟩)) hfl)

theorem State.vaonLost_moves {fl : List Field} {r₀ : State} {s : State} (hm : Moves fl r₀ s)
    (hfl : Field.within [.pins, .boot, .regs, .parts, .rings, .tick, .ticking, .trims, .counters, .jobs, .calls, .steps, .batch, .sched, .splitHead, .stage, .batchNo, .customers, .grafts, .mattes, .tiles, .boughs, .calSave, .prods, .nextProd, .nextOrder, .sums, .handoffs, .acts, .xferWaits, .histos, .canopy, .backs, .latches, .attnWaits, .servedKv, .servedAttn, .weights, .mem, .links, .partner, .faults, .hk, .power, .sec, .drains] fl = true) :
    Moves fl r₀ (State.vaonLost s) :=
  hm.trans (Moves.mono (a := [.pins, .boot, .regs, .parts, .rings, .tick, .ticking, .trims, .counters, .jobs, .calls, .steps, .batch, .sched, .splitHead, .stage, .batchNo, .customers, .grafts, .mattes, .tiles, .boughs, .calSave, .prods, .nextProd, .nextOrder, .sums, .handoffs, .acts, .xferWaits, .histos, .canopy, .backs, .latches, .attnWaits, .servedKv, .servedAttn, .weights, .mem, .links, .partner, .faults, .hk, .power, .sec, .drains])
    ⟨fun f hf => by cases f <;> first | exact hf.elim (by decide) | rfl,
     fun c => ⟨rfl, rfl, rfl, rfl, rfl, Tbl.wf_mapVals (Tbl.rising_of_wf c.tiles), rfl, rfl, rfl, rfl⟩,
     fun _ => State.fit_nil, List.prefix_rfl⟩ hfl)

theorem State.porstLow_moves {fl : List Field} {r₀ : State} {s : State}  (hm : Moves fl r₀ s)
    (hfl : Field.within everyPiece fl = true) : Moves fl r₀ (State.porstLow s) :=
  hm.trans (Moves.mono (a := everyPiece) (by
  have h := Moves.refl everyPiece s
  unfold State.porstLow
  repeat' first
    | (extract_lets +onlyGivenNames x; first | (refine Moves.cut (s := x) ?_ ?_; (on_goal 2 => intro hx; clear_value x); (on_goal 1 => subst x)) | subst x)
    | with_reducible assumption
    | (show Field.within _ _ = true; decide)
    | with_reducible apply State.modBoot_moves
    | with_reducible apply State.modPins_moves
    | with_reducible apply State.resetArrives_moves
    | with_reducible apply State.coldReset_moves
    | with_reducible apply Moves.ite
    | split) hfl)

theorem State.coldStart_moves {fl : List Field} {r₀ : State} {s : State} {boot : BitVec 2} {ckmode : BitVec 2} (hm : Moves fl r₀ s)
    (hfl : Field.within [.pins, .boot, .regs, .mem, .links, .faults, .hk, .free] fl = true) : Moves fl r₀ (State.coldStart s boot ckmode) :=
  hm.trans (Moves.mono (a := [.pins, .boot, .regs, .mem, .links, .faults, .hk, .free]) (by
  have h := Moves.refl [.pins, .boot, .regs, .mem, .links, .faults, .hk, .free] s
  unfold State.coldStart
  repeat' first
    | (extract_lets +onlyGivenNames x; first | (refine Moves.cut (s := x) ?_ ?_; (on_goal 2 => intro hx; clear_value x); (on_goal 1 => subst x)) | subst x)
    | with_reducible assumption
    | (show Field.within _ _ = true; decide)
    | with_reducible apply State.modPins_moves
    | with_reducible apply State.modBoot_moves
    | with_reducible apply State.modRegs_moves
    | with_reducible apply State.drawSeeds_moves
    | with_reducible apply State.draw_moves
    | with_reducible apply State.modFaults_moves
    | with_reducible apply State.showStep_moves
    | with_reducible apply Moves.modMem
    | with_reducible apply Moves.ite
    | split
    | (refine Moves.of_lit ?_ ?_ ?_)
    | (intro f hf; cases f <;> first | exact hf.elim (by decide) | rfl)
    | (exact fun c => ⟨c.parts, c.rings, c.counters, c.calls, c.customers, c.tiles, c.boughs, c.calSave, by dsimp only; first | exact c.links | exact Tbl.wf_set c.links | exact Tbl.wf_update c.links | exact Tbl.wf_mapVals (Tbl.rising_of_wf c.links) | exact Tbl.wf_mapVals (Tbl.rising_map (fun p => by (try dsimp only); (repeat' split) <;> rfl) (Tbl.rising_of_wf c.links)) | (split <;> first | exact c.links | exact Tbl.wf_set c.links | exact Tbl.wf_mapVals (Tbl.rising_of_wf c.links)) | exact Tbl.wf_map_range fun _ e => by have := congrArg Link.state e; simp at this, c.mem⟩)
    | (intro w; first | with_reducible exact Mem.wf_runs w | exact w | exact Mem.wf_write w | exact Mem.wf_clear w | exact Mem.wf_foldl (fun _ _ h => Mem.wf_write h) _ w)) hfl)

theorem State.fenceIn_moves {fl : List Field} {r₀ : State} {s : State}  (hm : Moves fl r₀ s)
    (hfl : Field.within [.pins, .links] fl = true) : Moves fl r₀ (State.fenceIn s) :=
  hm.trans (Moves.mono (a := [.pins, .links]) (by
  have h := Moves.refl [.pins, .links] s
  unfold State.fenceIn
  repeat' first
    | (extract_lets +onlyGivenNames x; first | (refine Moves.cut (s := x) ?_ ?_; (on_goal 2 => intro hx; clear_value x); (on_goal 1 => subst x)) | subst x)
    | with_reducible assumption
    | (show Field.within _ _ = true; decide)
    | with_reducible apply State.modPins_moves
    | with_reducible apply State.modLink_moves
    | with_reducible apply Moves.each
    | with_reducible apply Moves.ite
    | (intro _ _ _)
    | split) hfl)

theorem State.resetTakesEffect_moves {fl : List Field} {r₀ : State} {s : State}  (hm : Moves fl r₀ s)
    (hfl : Field.within everyPiece fl = true) : Moves fl r₀ (State.resetTakesEffect s) :=
  hm.trans (Moves.mono (a := everyPiece) (by
  have h := Moves.refl everyPiece s
  unfold State.resetTakesEffect
  repeat' first
    | (extract_lets +onlyGivenNames x; first | (refine Moves.cut (s := x) ?_ ?_; (on_goal 2 => intro hx; clear_value x); (on_goal 1 => subst x)) | subst x)
    | with_reducible assumption
    | (show Field.within _ _ = true; decide)
    | with_reducible apply State.modBoot_moves
    | with_reducible apply State.coldReset_moves
    | with_reducible apply State.warmReset_moves
    | with_reducible apply State.boughReset_moves
    | with_reducible apply Moves.each
    | with_reducible apply Moves.ite
    | (intro _ _ _)
    | split) hfl)

theorem State.refclkBack_moves {fl : List Field} {r₀ : State} {s : State}  (hm : Moves fl r₀ s)
    (hfl : Field.within [.pins, .rings, .ticking, .counters, .steps, .tiles, .boughs, .prods, .links, .faults, .power, .sec, .out] fl = true) : Moves fl r₀ (State.refclkBack s) :=
  hm.trans (Moves.mono (a := [.pins, .rings, .ticking, .counters, .steps, .tiles, .boughs, .prods, .links, .faults, .power, .sec, .out]) (by
  have h := Moves.refl [.pins, .rings, .ticking, .counters, .steps, .tiles, .boughs, .prods, .links, .faults, .power, .sec, .out] s
  unfold State.refclkBack
  repeat' first
    | (extract_lets +onlyGivenNames x; first | (refine Moves.cut (s := x) ?_ ?_; (on_goal 2 => intro hx; clear_value x); (on_goal 1 => subst x)) | subst x)
    | with_reducible assumption
    | (show Field.within _ _ = true; decide)
    | with_reducible apply State.modPins_moves
    | with_reducible apply State.tilesNext_moves
    | split
    | (refine Moves.of_lit ?_ ?_ ?_)
    | (intro f hf; cases f <;> first | exact hf.elim (by decide) | rfl)
    | (exact fun c => ⟨c.parts, c.rings, c.counters, c.calls, c.customers, c.tiles, c.boughs, c.calSave, c.links, c.mem⟩)) hfl)

theorem State.fenceOut_moves {fl : List Field} {r₀ : State} {s : State}  (hm : Moves fl r₀ s)
    (hfl : Field.within everyPiece fl = true) : Moves fl r₀ (State.fenceOut s) :=
  hm.trans (Moves.mono (a := everyPiece) (by
  have h := Moves.refl everyPiece s
  unfold State.fenceOut
  repeat' first
    | (extract_lets +onlyGivenNames x; first | (refine Moves.cut (s := x) ?_ ?_; (on_goal 2 => intro hx; clear_value x); (on_goal 1 => subst x)) | subst x)
    | with_reducible assumption
    | (show Field.within _ _ = true; decide)
    | with_reducible apply State.modPins_moves
    | with_reducible apply State.modLink_moves
    | with_reducible apply State.source_moves
    | with_reducible apply State.modBoot_moves
    | with_reducible apply Moves.each
    | with_reducible apply Moves.ite
    | (intro _ _ _)
    | split) hfl)

theorem State.warmStart_moves {fl : List Field} {r₀ : State} {s : State}  (hm : Moves fl r₀ s)
    (hfl : Field.within [.pins, .boot, .regs, .rings, .counters, .jobs, .links, .sec, .out] fl = true) : Moves fl r₀ (State.warmStart s) :=
  hm.trans (Moves.mono (a := [.pins, .boot, .regs, .rings, .counters, .jobs, .links, .sec, .out]) (by
  have h := Moves.refl [.pins, .boot, .regs, .rings, .counters, .jobs, .links, .sec, .out] s
  unfold State.warmStart
  repeat' first
    | (extract_lets +onlyGivenNames x; first | (refine Moves.cut (s := x) ?_ ?_; (on_goal 2 => intro hx; clear_value x); (on_goal 1 => subst x)) | subst x)
    | with_reducible assumption
    | (show Field.within _ _ = true; decide)
    | with_reducible apply State.modPins_moves
    | with_reducible apply State.modBoot_moves
    | with_reducible apply State.sendHold_moves
    | with_reducible apply State.stepEnds_moves
    | with_reducible apply State.trainPort_moves
    | with_reducible apply Moves.each
    | (intro _ _ _)
    | split) hfl)

theorem State.regStatus_moves {fl : List Field} {r₀ : State} {s : State} {r : Sys2Proof.RegStatus} (hm : Moves fl r₀ s)
    (hfl : Field.within everyPiece fl = true) : Moves fl r₀ (State.regStatus s r) :=
  hm.trans (Moves.mono (a := everyPiece) (by
  have h := Moves.refl everyPiece s
  unfold State.regStatus
  repeat' first
    | (extract_lets +onlyGivenNames x; first | (refine Moves.cut (s := x) ?_ ?_; (on_goal 2 => intro hx; clear_value x); (on_goal 1 => subst x)) | subst x)
    | with_reducible assumption
    | (show Field.within _ _ = true; decide)
    | with_reducible apply State.setRegFloor_moves
    | with_reducible apply State.regAlert_moves
    | with_reducible apply State.modPower_moves
    | with_reducible apply State.emit_moves
    | with_reducible apply State.modPins_moves
    | with_reducible apply State.portsDown_moves
    | with_reducible apply State.source_moves
    | with_reducible apply Moves.ite
    | split) hfl)

end Sys2Proof.Machine
end

