-- ==== Sys2Proof/Laws/SchedulingMoves.lean ====
section
/-! SUPPORT. What each operation of Machine/Scheduling.lean may change, and that it keeps the canonical form. -/

set_option Elab.async false

namespace Sys2Proof.Machine

set_option linter.unusedTactic false
set_option linter.unreachableTactic false

theorem State.tellOverdue_moves {fl : List Field} {r₀ : State} {s : State}  (hm : Moves fl r₀ s)
    (hfl : Field.within [.counters, .links, .out] fl = true) : Moves fl r₀ (State.tellOverdue s) :=
  hm.trans (Moves.mono (a := [.counters, .links, .out]) (by
  have h := Moves.refl [.counters, .links, .out] s
  unfold State.tellOverdue
  repeat' first
    | with_reducible assumption
    | (show Field.within _ _ = true; decide)
    | with_reducible apply State.send_moves
    | with_reducible apply Moves.each
    | with_reducible apply Moves.ite
    | (intro _ _ _)
    | split) hfl)

theorem State.deadlineScan_moves {fl : List Field} {r₀ : State} {s : State}  (hm : Moves fl r₀ s)
    (hfl : Field.within [.parts, .rings, .counters, .jobs, .calls, .steps, .batch, .grafts, .tiles, .boughs, .prods, .sums, .handoffs, .acts, .xferWaits, .canopy, .backs, .latches, .attnWaits, .servedKv, .servedAttn, .mem, .links, .sec, .out] fl = true) : Moves fl r₀ (State.deadlineScan s) :=
  hm.trans (Moves.mono (a := [.parts, .rings, .counters, .jobs, .calls, .steps, .batch, .grafts, .tiles, .boughs, .prods, .sums, .handoffs, .acts, .xferWaits, .canopy, .backs, .latches, .attnWaits, .servedKv, .servedAttn, .mem, .links, .sec, .out]) (by
  have h := Moves.refl [.parts, .rings, .counters, .jobs, .calls, .steps, .batch, .grafts, .tiles, .boughs, .prods, .sums, .handoffs, .acts, .xferWaits, .canopy, .backs, .latches, .attnWaits, .servedKv, .servedAttn, .mem, .links, .sec, .out] s
  unfold State.deadlineScan
  repeat' first
    | with_reducible assumption
    | (show Field.within _ _ = true; decide)
    | with_reducible apply State.tellOverdue_moves
    | with_reducible apply State.endCall_moves
    | with_reducible apply Moves.each
    | (intro _ _ _)
    | split) hfl)

theorem State.takeBulk_moves {fl : List Field} {r₀ : State} {s : State} {pl : State.Plan} {p : ℕ} {leftover : Bool} {a : List ℕ} (hm : Moves fl r₀ s)
    (hfl : Field.within [.parts] fl = true) : Moves fl r₀ (State.takeBulk s pl p leftover a).1 :=
  hm.trans (Moves.mono (a := [.parts]) (by
  clear hm hfl
  induction a generalizing s pl with
  | nil => exact Moves.refl _ _
  | cons _ _ ih =>
  have h := Moves.refl [.parts] s
  unfold State.takeBulk
  repeat' first
    | (extract_lets +onlyGivenNames x; first | (refine Moves.cut (s := x) ?_ ?_; (on_goal 2 => intro hx; clear_value x); (on_goal 1 => subst x)) | subst x)
    | (with_reducible apply Moves.trans _ (ih ..))
    | with_reducible assumption
    | (show Field.within _ _ = true; decide)
    | with_reducible apply State.modPart_moves
    | with_reducible apply Moves.ite
    | split) hfl)

theorem State.fillBatch_moves {fl : List Field} {r₀ : State} {s : State} {pl : State.Plan} (hm : Moves fl r₀ s)
    (hfl : Field.within [.parts] fl = true) : Moves fl r₀ (State.fillBatch s pl).1 :=
  hm.trans (Moves.mono (a := [.parts]) (by
  have h := Moves.refl [.parts] s
  unfold State.fillBatch
  repeat' first
    | (extract_lets +onlyGivenNames x; first | (refine Moves.cut (s := x) ?_ ?_; (on_goal 2 => intro hx; clear_value x); (on_goal 1 => subst x)) | subst x)
    | with_reducible assumption
    | (show Field.within _ _ = true; decide)
    | with_reducible apply State.takeBulk_moves
    | with_reducible apply Moves.foldl
    | with_reducible apply Moves.foldl_fst
    | (intro _ _ _)
    | split) hfl)

theorem State.openDeficits_moves {fl : List Field} {r₀ : State} {s : State}  (hm : Moves fl r₀ s)
    (hfl : Field.within [.parts] fl = true) : Moves fl r₀ (State.openDeficits s) :=
  hm.trans (Moves.mono (a := [.parts]) (by
  have h := Moves.refl [.parts] s
  unfold State.openDeficits
  repeat' first
    | (extract_lets +onlyGivenNames x; first | (refine Moves.cut (s := x) ?_ ?_; (on_goal 2 => intro hx; clear_value x); (on_goal 1 => subst x)) | subst x)
    | with_reducible assumption
    | (show Field.within _ _ = true; decide)
    | with_reducible apply State.modPart_moves
    | with_reducible apply Moves.each
    | with_reducible apply Moves.ite
    | (intro _ _ _)
    | split) hfl)

theorem State.noteGraftImage_moves {fl : List Field} {r₀ : State} {s : State} {c : ℕ} {image : ℕ} (hm : Moves fl r₀ s)
    (hfl : Field.within [.counters] fl = true) : Moves fl r₀ (State.noteGraftImage s c image) :=
  hm.trans (Moves.mono (a := [.counters]) (by
  have h := Moves.refl [.counters] s
  unfold State.noteGraftImage
  repeat' first
    | (extract_lets +onlyGivenNames x; first | (refine Moves.cut (s := x) ?_ ?_; (on_goal 2 => intro hx; clear_value x); (on_goal 1 => subst x)) | subst x)
    | with_reducible assumption
    | (show Field.within _ _ = true; decide)
    | with_reducible apply State.count_moves
    | with_reducible apply Moves.ite
    | split) hfl)

theorem State.beginStep_moves {fl : List Field} {r₀ : State} {s : State} {x : Step} (hm : Moves fl r₀ s)
    (hfl : Field.within [.counters, .calls, .steps, .links, .out] fl = true) : Moves fl r₀ (State.beginStep s x) :=
  hm.trans (Moves.mono (a := [.counters, .calls, .steps, .links, .out]) (by
  have h := Moves.refl [.counters, .calls, .steps, .links, .out] s
  unfold State.beginStep
  repeat' first
    | (extract_lets +onlyGivenNames x; first | (refine Moves.cut (s := x) ?_ ?_; (on_goal 2 => intro hx; clear_value x); (on_goal 1 => subst x)) | subst x)
    | with_reducible assumption
    | (show Field.within _ _ = true; decide)
    | with_reducible apply State.noteGraftImage_moves
    | with_reducible apply State.modCall_moves
    | with_reducible apply Moves.ite
    | split
    | (refine Moves.of_lit ?_ ?_ ?_)
    | (intro f hf; cases f <;> first | exact hf.elim (by decide) | rfl)
    | (exact fun c => ⟨c.parts, c.rings, c.counters, c.calls, c.customers, c.tiles, c.boughs, c.calSave, c.links, c.mem⟩)) hfl)

theorem State.issueStep_moves {fl : List Field} {r₀ : State} {s : State} {c : ℕ} (hm : Moves fl r₀ s)
    (hfl : Field.within [.parts, .rings, .counters, .jobs, .calls, .steps, .batch, .grafts, .tiles, .boughs, .prods, .sums, .handoffs, .acts, .xferWaits, .canopy, .backs, .latches, .attnWaits, .servedKv, .servedAttn, .mem, .links, .sec, .out] fl = true) : Moves fl r₀ (State.issueStep s c) :=
  hm.trans (Moves.mono (a := [.parts, .rings, .counters, .jobs, .calls, .steps, .batch, .grafts, .tiles, .boughs, .prods, .sums, .handoffs, .acts, .xferWaits, .canopy, .backs, .latches, .attnWaits, .servedKv, .servedAttn, .mem, .links, .sec, .out]) (by
  have h := Moves.refl [.parts, .rings, .counters, .jobs, .calls, .steps, .batch, .grafts, .tiles, .boughs, .prods, .sums, .handoffs, .acts, .xferWaits, .canopy, .backs, .latches, .attnWaits, .servedKv, .servedAttn, .mem, .links, .sec, .out] s
  unfold State.issueStep
  repeat' first
    | (extract_lets +onlyGivenNames x; first | (refine Moves.cut (s := x) ?_ ?_; (on_goal 2 => intro hx; clear_value x); (on_goal 1 => subst x)) | subst x)
    | with_reducible assumption
    | (show Field.within _ _ = true; decide)
    | with_reducible apply State.endCall_moves
    | with_reducible apply State.beginStep_moves
    | with_reducible apply State.modCall_moves
    | with_reducible apply Moves.ite
    | split) hfl)

theorem State.closeBatch_moves {fl : List Field} {r₀ : State} {s : State} {pl : State.Plan} (hm : Moves fl r₀ s)
    (hfl : Field.within [.boot, .regs, .parts, .rings, .counters, .jobs, .calls, .steps, .batch, .splitHead, .stage, .batchNo, .grafts, .tiles, .boughs, .prods, .nextProd, .nextOrder, .sums, .handoffs, .acts, .xferWaits, .canopy, .backs, .latches, .attnWaits, .servedKv, .servedAttn, .weights, .mem, .links, .faults, .power, .sec, .free, .out] fl = true) : Moves fl r₀ (State.closeBatch s pl) :=
  hm.trans (Moves.mono (a := [.boot, .regs, .parts, .rings, .counters, .jobs, .calls, .steps, .batch, .splitHead, .stage, .batchNo, .grafts, .tiles, .boughs, .prods, .nextProd, .nextOrder, .sums, .handoffs, .acts, .xferWaits, .canopy, .backs, .latches, .attnWaits, .servedKv, .servedAttn, .weights, .mem, .links, .faults, .power, .sec, .free, .out]) (by
  have h := Moves.refl [.boot, .regs, .parts, .rings, .counters, .jobs, .calls, .steps, .batch, .splitHead, .stage, .batchNo, .grafts, .tiles, .boughs, .prods, .nextProd, .nextOrder, .sums, .handoffs, .acts, .xferWaits, .canopy, .backs, .latches, .attnWaits, .servedKv, .servedAttn, .weights, .mem, .links, .faults, .power, .sec, .free, .out] s
  unfold State.closeBatch
  repeat' first
    | (extract_lets +onlyGivenNames x; first | (refine Moves.cut (s := x) ?_ ?_; (on_goal 2 => intro hx; clear_value x); (on_goal 1 => subst x)) | subst x)
    | with_reducible assumption
    | (show Field.within _ _ = true; decide)
    | with_reducible apply State.restoreCall_moves
    | with_reducible apply State.issueStep_moves
    | with_reducible apply State.count_moves
    | with_reducible apply State.stageFor_moves
    | with_reducible apply State.settle_moves
    | with_reducible apply Moves.each
    | with_reducible apply Moves.ite
    | (intro _ _ _)
    | split
    | (refine Moves.of_lit ?_ ?_ ?_)
    | (intro f hf; cases f <;> first | exact hf.elim (by decide) | rfl)
    | (exact fun c => ⟨c.parts, c.rings, c.counters, c.calls, c.customers, c.tiles, c.boughs, c.calSave, c.links, c.mem⟩)) hfl)

theorem State.collect_moves {fl : List Field} {r₀ : State} {s : State} {firstTick : ℕ} {epoch : ℕ} {pl : State.Plan} (hm : Moves fl r₀ s)
    (hfl : Field.within [.boot, .regs, .parts, .rings, .counters, .jobs, .calls, .steps, .batch, .splitHead, .stage, .batchNo, .grafts, .tiles, .boughs, .prods, .nextProd, .nextOrder, .sums, .handoffs, .acts, .xferWaits, .canopy, .backs, .latches, .attnWaits, .servedKv, .servedAttn, .weights, .mem, .links, .faults, .power, .sec, .free, .out] fl = true) : Moves fl r₀ (State.collect s firstTick epoch pl) :=
  hm.trans (Moves.mono (a := [.boot, .regs, .parts, .rings, .counters, .jobs, .calls, .steps, .batch, .splitHead, .stage, .batchNo, .grafts, .tiles, .boughs, .prods, .nextProd, .nextOrder, .sums, .handoffs, .acts, .xferWaits, .canopy, .backs, .latches, .attnWaits, .servedKv, .servedAttn, .weights, .mem, .links, .faults, .power, .sec, .free, .out]) (by
  have h := Moves.refl [.boot, .regs, .parts, .rings, .counters, .jobs, .calls, .steps, .batch, .splitHead, .stage, .batchNo, .grafts, .tiles, .boughs, .prods, .nextProd, .nextOrder, .sums, .handoffs, .acts, .xferWaits, .canopy, .backs, .latches, .attnWaits, .servedKv, .servedAttn, .weights, .mem, .links, .faults, .power, .sec, .free, .out] s
  unfold State.collect
  repeat' first
    | (extract_lets +onlyGivenNames x; first | (refine Moves.cut (s := x) ?_ ?_; (on_goal 2 => intro hx; clear_value x); (on_goal 1 => subst x)) | subst x)
    | with_reducible assumption
    | (show Field.within _ _ = true; decide)
    | with_reducible apply State.fillBatch_moves
    | with_reducible apply State.closeBatch_moves
    | with_reducible apply Moves.ite
    | split
    | (refine Moves.of_lit ?_ ?_ ?_)
    | (intro f hf; cases f <;> first | exact hf.elim (by decide) | rfl)
    | (exact fun c => ⟨c.parts, c.rings, c.counters, c.calls, c.customers, c.tiles, c.boughs, c.calSave, c.links, c.mem⟩)) hfl)

theorem State.chargeCommit_moves {fl : List Field} {r₀ : State} {s : State} {e : Entry} {prompt : ℕ} {generated : ℕ} (hm : Moves fl r₀ s)
    (hfl : Field.within [.rings, .counters, .calls, .customers, .links, .out] fl = true) : Moves fl r₀ (State.chargeCommit s e prompt generated) :=
  hm.trans (Moves.mono (a := [.rings, .counters, .calls, .customers, .links, .out]) (by
  have h := Moves.refl [.rings, .counters, .calls, .customers, .links, .out] s
  unfold State.chargeCommit
  repeat' first
    | (extract_lets +onlyGivenNames x; first | (refine Moves.cut (s := x) ?_ ?_; (on_goal 2 => intro hx; clear_value x); (on_goal 1 => subst x)) | subst x)
    | with_reducible assumption
    | (show Field.within _ _ = true; decide)
    | with_reducible apply State.refill_moves
    | with_reducible apply State.modCustomer_moves
    | with_reducible apply State.notice_moves
    | with_reducible apply Moves.ite
    | split) hfl)

theorem State.chargeAndPark_moves {fl : List Field} {r₀ : State} {s : State} {e : Entry} {prompt : ℕ} {generated : ℕ} (hm : Moves fl r₀ s)
    (hfl : Field.within [.parts, .rings, .counters, .jobs, .calls, .steps, .batch, .customers, .grafts, .tiles, .boughs, .prods, .sums, .handoffs, .acts, .xferWaits, .canopy, .backs, .latches, .attnWaits, .servedKv, .servedAttn, .mem, .links, .sec, .out] fl = true) : Moves fl r₀ (State.chargeAndPark s e prompt generated) :=
  hm.trans (Moves.mono (a := [.parts, .rings, .counters, .jobs, .calls, .steps, .batch, .customers, .grafts, .tiles, .boughs, .prods, .sums, .handoffs, .acts, .xferWaits, .canopy, .backs, .latches, .attnWaits, .servedKv, .servedAttn, .mem, .links, .sec, .out]) (by
  have h := Moves.refl [.parts, .rings, .counters, .jobs, .calls, .steps, .batch, .customers, .grafts, .tiles, .boughs, .prods, .sums, .handoffs, .acts, .xferWaits, .canopy, .backs, .latches, .attnWaits, .servedKv, .servedAttn, .mem, .links, .sec, .out] s
  unfold State.chargeAndPark
  repeat' first
    | with_reducible assumption
    | (show Field.within _ _ = true; decide)
    | with_reducible apply State.parkReady_moves
    | with_reducible apply State.chargeCommit_moves
    | split) hfl)

theorem State.tuneFinish_moves {fl : List Field} {r₀ : State} {s : State} {c : ℕ} (hm : Moves fl r₀ s)
    (hfl : Field.within [.parts, .rings, .counters, .jobs, .calls, .steps, .batch, .grafts, .tiles, .boughs, .prods, .sums, .handoffs, .acts, .xferWaits, .canopy, .backs, .latches, .attnWaits, .servedKv, .servedAttn, .mem, .links, .sec, .out] fl = true) : Moves fl r₀ (State.tuneFinish s c) :=
  hm.trans (Moves.mono (a := [.parts, .rings, .counters, .jobs, .calls, .steps, .batch, .grafts, .tiles, .boughs, .prods, .sums, .handoffs, .acts, .xferWaits, .canopy, .backs, .latches, .attnWaits, .servedKv, .servedAttn, .mem, .links, .sec, .out]) (by
  have h := Moves.refl [.parts, .rings, .counters, .jobs, .calls, .steps, .batch, .grafts, .tiles, .boughs, .prods, .sums, .handoffs, .acts, .xferWaits, .canopy, .backs, .latches, .attnWaits, .servedKv, .servedAttn, .mem, .links, .sec, .out] s
  unfold State.tuneFinish
  repeat' first
    | (extract_lets +onlyGivenNames x; first | (refine Moves.cut (s := x) ?_ ?_; (on_goal 2 => intro hx; clear_value x); (on_goal 1 => subst x)) | subst x)
    | with_reducible assumption
    | (show Field.within _ _ = true; decide)
    | with_reducible apply State.endCall_moves
    | with_reducible apply State.hostWrite_moves
    | with_reducible apply Moves.each
    | with_reducible apply Moves.ite
    | (intro _ _ _)
    | split) hfl)

theorem State.commitTune_moves {fl : List Field} {r₀ : State} {s : State} {x : Step} {t : Tune} (hm : Moves fl r₀ s)
    (hfl : Field.within [.boot, .regs, .parts, .rings, .counters, .jobs, .calls, .steps, .batch, .customers, .grafts, .tiles, .boughs, .prods, .nextOrder, .sums, .handoffs, .acts, .xferWaits, .canopy, .backs, .latches, .attnWaits, .servedKv, .servedAttn, .weights, .mem, .links, .faults, .power, .sec, .out] fl = true) : Moves fl r₀ (State.commitTune s x t) :=
  hm.trans (Moves.mono (a := [.boot, .regs, .parts, .rings, .counters, .jobs, .calls, .steps, .batch, .customers, .grafts, .tiles, .boughs, .prods, .nextOrder, .sums, .handoffs, .acts, .xferWaits, .canopy, .backs, .latches, .attnWaits, .servedKv, .servedAttn, .weights, .mem, .links, .faults, .power, .sec, .out]) (by
  have h := Moves.refl [.boot, .regs, .parts, .rings, .counters, .jobs, .calls, .steps, .batch, .customers, .grafts, .tiles, .boughs, .prods, .nextOrder, .sums, .handoffs, .acts, .xferWaits, .canopy, .backs, .latches, .attnWaits, .servedKv, .servedAttn, .weights, .mem, .links, .faults, .power, .sec, .out] s
  unfold State.commitTune
  repeat' first
    | (extract_lets +onlyGivenNames x; first | (refine Moves.cut (s := x) ?_ ?_; (on_goal 2 => intro hx; clear_value x); (on_goal 1 => subst x)) | subst x)
    | with_reducible assumption
    | (show Field.within _ _ = true; decide)
    | with_reducible apply State.settle_moves
    | with_reducible apply State.endCall_moves
    | with_reducible apply State.stepGone_moves
    | with_reducible apply State.putCall_moves
    | with_reducible apply State.chargeAndPark_moves
    | with_reducible apply State.count_moves
    | with_reducible apply State.restState_moves
    | with_reducible apply State.tuneFinish_moves
    | with_reducible apply State.send_moves
    | with_reducible apply Moves.ite
    | split) hfl)

theorem State.tokenRecords_moves {fl : List Field} {r₀ : State} {s : State} {c : ℕ} {e : Entry} {x : Step} {o : Sampled} (hm : Moves fl r₀ s)
    (hfl : Field.within [.rings, .counters, .calls, .links, .out] fl = true) : Moves fl r₀ (State.tokenRecords s c e x o) :=
  hm.trans (Moves.mono (a := [.rings, .counters, .calls, .links, .out]) (by
  have h := Moves.refl [.rings, .counters, .calls, .links, .out] s
  unfold State.tokenRecords
  repeat' first
    | (extract_lets +onlyGivenNames x; first | (refine Moves.cut (s := x) ?_ ?_; (on_goal 2 => intro hx; clear_value x); (on_goal 1 => subst x)) | subst x)
    | with_reducible assumption
    | (show Field.within _ _ = true; decide)
    | with_reducible apply State.modCall_moves
    | with_reducible apply State.writeRecord_moves
    | with_reducible apply Moves.each
    | with_reducible apply Moves.ite
    | (intro _ _ _)
    | split) hfl)

theorem State.latchPolicy_moves {fl : List Field} {r₀ : State} {s : State} {c : ℕ} (hm : Moves fl r₀ s)
    (hfl : Field.within [.counters, .calls, .links, .out] fl = true) : Moves fl r₀ (State.latchPolicy s c) :=
  hm.trans (Moves.mono (a := [.counters, .calls, .links, .out]) (by
  have h := Moves.refl [.counters, .calls, .links, .out] s
  unfold State.latchPolicy
  repeat' first
    | with_reducible assumption
    | (show Field.within _ _ = true; decide)
    | with_reducible apply State.modCall_moves
    | split) hfl)

theorem State.monitorDraft_moves {fl : List Field} {r₀ : State} {s : State} {c : ℕ} {x : Step} {accepted : ℕ} (hm : Moves fl r₀ s)
    (hfl : Field.within [.rings, .counters, .calls, .links, .out] fl = true) : Moves fl r₀ (State.monitorDraft s c x accepted) :=
  hm.trans (Moves.mono (a := [.rings, .counters, .calls, .links, .out]) (by
  have h := Moves.refl [.rings, .counters, .calls, .links, .out] s
  unfold State.monitorDraft
  repeat' first
    | (extract_lets +onlyGivenNames x; first | (refine Moves.cut (s := x) ?_ ?_; (on_goal 2 => intro hx; clear_value x); (on_goal 1 => subst x)) | subst x)
    | with_reducible assumption
    | (show Field.within _ _ = true; decide)
    | with_reducible apply State.latchPolicy_moves
    | with_reducible apply State.count_moves
    | with_reducible apply State.notice_moves
    | with_reducible apply State.modCall_moves
    | with_reducible apply Moves.ite
    | split) hfl)

theorem State.paceMiss_moves {fl : List Field} {r₀ : State} {s : State} {e : Entry} (hm : Moves fl r₀ s)
    (hfl : Field.within [.rings, .counters, .out] fl = true) : Moves fl r₀ (State.paceMiss s e) :=
  hm.trans (Moves.mono (a := [.rings, .counters, .out]) (by
  have h := Moves.refl [.rings, .counters, .out] s
  unfold State.paceMiss
  repeat' first
    | with_reducible assumption
    | (show Field.within _ _ = true; decide)
    | with_reducible apply State.notice_moves
    | with_reducible apply State.count_moves
    | with_reducible apply Moves.ite
    | split) hfl)

theorem State.commitBooks_moves {fl : List Field} {r₀ : State} {s : State} {e : Entry} {x : Step} {n : ℕ} (hm : Moves fl r₀ s)
    (hfl : Field.within [.parts, .rings, .counters, .jobs, .calls, .steps, .batch, .customers, .grafts, .tiles, .boughs, .prods, .sums, .handoffs, .acts, .xferWaits, .canopy, .backs, .latches, .attnWaits, .servedKv, .servedAttn, .mem, .links, .sec, .out] fl = true) : Moves fl r₀ (State.commitBooks s e x n) :=
  hm.trans (Moves.mono (a := [.parts, .rings, .counters, .jobs, .calls, .steps, .batch, .customers, .grafts, .tiles, .boughs, .prods, .sums, .handoffs, .acts, .xferWaits, .canopy, .backs, .latches, .attnWaits, .servedKv, .servedAttn, .mem, .links, .sec, .out]) (by
  have h := Moves.refl [.parts, .rings, .counters, .jobs, .calls, .steps, .batch, .customers, .grafts, .tiles, .boughs, .prods, .sums, .handoffs, .acts, .xferWaits, .canopy, .backs, .latches, .attnWaits, .servedKv, .servedAttn, .mem, .links, .sec, .out] s
  unfold State.commitBooks
  repeat' first
    | with_reducible assumption
    | (show Field.within _ _ = true; decide)
    | with_reducible apply State.paceMiss_moves
    | with_reducible apply State.chargeAndPark_moves
    | with_reducible apply Moves.ite
    | split) hfl)

theorem State.afterCommit_moves {fl : List Field} {r₀ : State} {s : State} {x : Step} {o : Sampled} (hm : Moves fl r₀ s)
    (hfl : Field.within [.boot, .regs, .parts, .rings, .counters, .jobs, .calls, .steps, .batch, .grafts, .tiles, .boughs, .prods, .nextOrder, .sums, .handoffs, .acts, .xferWaits, .canopy, .backs, .latches, .attnWaits, .servedKv, .servedAttn, .weights, .mem, .links, .faults, .power, .sec, .out] fl = true) : Moves fl r₀ (State.afterCommit s x o) :=
  hm.trans (Moves.mono (a := [.boot, .regs, .parts, .rings, .counters, .jobs, .calls, .steps, .batch, .grafts, .tiles, .boughs, .prods, .nextOrder, .sums, .handoffs, .acts, .xferWaits, .canopy, .backs, .latches, .attnWaits, .servedKv, .servedAttn, .weights, .mem, .links, .faults, .power, .sec, .out]) (by
  have h := Moves.refl [.boot, .regs, .parts, .rings, .counters, .jobs, .calls, .steps, .batch, .grafts, .tiles, .boughs, .prods, .nextOrder, .sums, .handoffs, .acts, .xferWaits, .canopy, .backs, .latches, .attnWaits, .servedKv, .servedAttn, .weights, .mem, .links, .faults, .power, .sec, .out] s
  unfold State.afterCommit
  repeat' first
    | (extract_lets +onlyGivenNames x; first | (refine Moves.cut (s := x) ?_ ?_; (on_goal 2 => intro hx; clear_value x); (on_goal 1 => subst x)) | subst x)
    | with_reducible assumption
    | (show Field.within _ _ = true; decide)
    | with_reducible apply State.settle_moves
    | with_reducible apply State.endCall_moves
    | with_reducible apply State.modCall_moves
    | with_reducible apply State.count_moves
    | with_reducible apply State.modStep_moves
    | with_reducible apply State.restState_moves
    | with_reducible apply State.stepGone_moves
    | with_reducible apply State.send_moves
    | with_reducible apply Moves.ite
    | split) hfl)

theorem State.commitLast_moves {fl : List Field} {r₀ : State} {s : State} {x : Step} {o : Sampled} (hm : Moves fl r₀ s)
    (hfl : Field.within [.boot, .regs, .parts, .rings, .counters, .jobs, .calls, .steps, .batch, .customers, .grafts, .tiles, .boughs, .prods, .nextOrder, .sums, .handoffs, .acts, .xferWaits, .canopy, .backs, .latches, .attnWaits, .servedKv, .servedAttn, .weights, .mem, .links, .faults, .power, .sec, .out] fl = true) : Moves fl r₀ (State.commitLast s x o) :=
  hm.trans (Moves.mono (a := [.boot, .regs, .parts, .rings, .counters, .jobs, .calls, .steps, .batch, .customers, .grafts, .tiles, .boughs, .prods, .nextOrder, .sums, .handoffs, .acts, .xferWaits, .canopy, .backs, .latches, .attnWaits, .servedKv, .servedAttn, .weights, .mem, .links, .faults, .power, .sec, .out]) (by
  have h := Moves.refl [.boot, .regs, .parts, .rings, .counters, .jobs, .calls, .steps, .batch, .customers, .grafts, .tiles, .boughs, .prods, .nextOrder, .sums, .handoffs, .acts, .xferWaits, .canopy, .backs, .latches, .attnWaits, .servedKv, .servedAttn, .weights, .mem, .links, .faults, .power, .sec, .out] s
  unfold State.commitLast
  repeat' first
    | (extract_lets +onlyGivenNames x; first | (refine Moves.cut (s := x) ?_ ?_; (on_goal 2 => intro hx; clear_value x); (on_goal 1 => subst x)) | subst x)
    | with_reducible assumption
    | (show Field.within _ _ = true; decide)
    | with_reducible apply State.settle_moves
    | with_reducible apply State.endCall_moves
    | with_reducible apply State.count_moves
    | with_reducible apply State.tokenRecords_moves
    | with_reducible apply State.putCall_moves
    | with_reducible apply State.journal_moves
    | with_reducible apply State.monitorDraft_moves
    | with_reducible apply State.commitBooks_moves
    | with_reducible apply State.send_moves
    | with_reducible apply State.afterCommit_moves
    | with_reducible apply Moves.ite
    | split) hfl)

theorem State.stepCommit_moves {fl : List Field} {r₀ : State} {s : State} {c : ℕ} (hm : Moves fl r₀ s)
    (hfl : Field.within [.boot, .regs, .parts, .rings, .counters, .jobs, .calls, .steps, .batch, .customers, .grafts, .tiles, .boughs, .prods, .nextOrder, .sums, .handoffs, .acts, .xferWaits, .canopy, .backs, .latches, .attnWaits, .servedKv, .servedAttn, .weights, .mem, .links, .faults, .power, .sec, .out] fl = true) : Moves fl r₀ (State.stepCommit s c) :=
  hm.trans (Moves.mono (a := [.boot, .regs, .parts, .rings, .counters, .jobs, .calls, .steps, .batch, .customers, .grafts, .tiles, .boughs, .prods, .nextOrder, .sums, .handoffs, .acts, .xferWaits, .canopy, .backs, .latches, .attnWaits, .servedKv, .servedAttn, .weights, .mem, .links, .faults, .power, .sec, .out]) (by
  have h := Moves.refl [.boot, .regs, .parts, .rings, .counters, .jobs, .calls, .steps, .batch, .customers, .grafts, .tiles, .boughs, .prods, .nextOrder, .sums, .handoffs, .acts, .xferWaits, .canopy, .backs, .latches, .attnWaits, .servedKv, .servedAttn, .weights, .mem, .links, .faults, .power, .sec, .out] s
  unfold State.stepCommit
  repeat' first
    | (extract_lets +onlyGivenNames x; first | (refine Moves.cut (s := x) ?_ ?_; (on_goal 2 => intro hx; clear_value x); (on_goal 1 => subst x)) | subst x)
    | with_reducible assumption
    | (show Field.within _ _ = true; decide)
    | with_reducible apply State.commitTune_moves
    | with_reducible apply State.count_moves
    | with_reducible apply State.modStep_moves
    | with_reducible apply State.moveStep_moves
    | with_reducible apply State.commitLast_moves
    | with_reducible apply Moves.ite
    | split) hfl)

theorem State.latchSched_moves {fl : List Field} {r₀ : State} {s : State}  (hm : Moves fl r₀ s)
    (hfl : Field.within [.sched] fl = true) : Moves fl r₀ (State.latchSched s) :=
  hm.trans (Moves.mono (a := [.sched]) (by
  have h := Moves.refl [.sched] s
  unfold State.latchSched
  repeat' first
    | with_reducible assumption
    | (show Field.within _ _ = true; decide)
    | split
    | (refine Moves.of_lit ?_ ?_ ?_)
    | (intro f hf; cases f <;> first | exact hf.elim (by decide) | rfl)
    | (exact fun c => ⟨c.parts, c.rings, c.counters, c.calls, c.customers, c.tiles, c.boughs, c.calSave, c.links, c.mem⟩)) hfl)

theorem State.wakeDrained_moves {fl : List Field} {r₀ : State} {s : State}  (hm : Moves fl r₀ s)
    (hfl : Field.within [.counters, .calls, .links, .out] fl = true) : Moves fl r₀ (State.wakeDrained s) :=
  hm.trans (Moves.mono (a := [.counters, .calls, .links, .out]) (by
  have h := Moves.refl [.counters, .calls, .links, .out] s
  unfold State.wakeDrained
  repeat' first
    | with_reducible assumption
    | (show Field.within _ _ = true; decide)
    | with_reducible apply State.modCall_moves
    | with_reducible apply Moves.each
    | with_reducible apply Moves.ite
    | (intro _ _ _)
    | split) hfl)

theorem State.headBatch_moves {fl : List Field} {r₀ : State} {s : State}  (hm : Moves fl r₀ s)
    (hfl : Field.within [.parts, .splitHead] fl = true) : Moves fl r₀ (State.headBatch s).1 :=
  hm.trans (Moves.mono (a := [.parts, .splitHead]) (by
  have h := Moves.refl [.parts, .splitHead] s
  unfold State.headBatch
  repeat' first
    | (extract_lets +onlyGivenNames x; first | (refine Moves.cut (s := x) ?_ ?_; (on_goal 2 => intro hx; clear_value x); (on_goal 1 => subst x)) | subst x)
    | with_reducible assumption
    | (show Field.within _ _ = true; decide)
    | with_reducible apply State.modPart_moves
    | with_reducible apply Moves.ite
    | split
    | (refine Moves.of_lit ?_ ?_ ?_)
    | (intro f hf; cases f <;> first | exact hf.elim (by decide) | rfl)
    | (exact fun c => ⟨c.parts, c.rings, c.counters, c.calls, c.customers, c.tiles, c.boughs, c.calSave, c.links, c.mem⟩)) hfl)

theorem State.batchOpen_moves {fl : List Field} {r₀ : State} {s : State}  (hm : Moves fl r₀ s)
    (hfl : Field.within [.boot, .regs, .parts, .rings, .counters, .jobs, .calls, .steps, .batch, .sched, .splitHead, .stage, .batchNo, .grafts, .tiles, .boughs, .prods, .nextProd, .nextOrder, .sums, .handoffs, .acts, .xferWaits, .canopy, .backs, .latches, .attnWaits, .servedKv, .servedAttn, .weights, .mem, .links, .faults, .power, .sec, .free, .out] fl = true) : Moves fl r₀ (State.batchOpen s) :=
  hm.trans (Moves.mono (a := [.boot, .regs, .parts, .rings, .counters, .jobs, .calls, .steps, .batch, .sched, .splitHead, .stage, .batchNo, .grafts, .tiles, .boughs, .prods, .nextProd, .nextOrder, .sums, .handoffs, .acts, .xferWaits, .canopy, .backs, .latches, .attnWaits, .servedKv, .servedAttn, .weights, .mem, .links, .faults, .power, .sec, .free, .out]) (by
  have h := Moves.refl [.boot, .regs, .parts, .rings, .counters, .jobs, .calls, .steps, .batch, .sched, .splitHead, .stage, .batchNo, .grafts, .tiles, .boughs, .prods, .nextProd, .nextOrder, .sums, .handoffs, .acts, .xferWaits, .canopy, .backs, .latches, .attnWaits, .servedKv, .servedAttn, .weights, .mem, .links, .faults, .power, .sec, .free, .out] s
  unfold State.batchOpen
  repeat' first
    | (extract_lets +onlyGivenNames x; first | (refine Moves.cut (s := x) ?_ ?_; (on_goal 2 => intro hx; clear_value x); (on_goal 1 => subst x)) | subst x)
    | with_reducible assumption
    | (show Field.within _ _ = true; decide)
    | with_reducible apply State.wakeDrained_moves
    | with_reducible apply State.settle_moves
    | with_reducible apply State.restoreCall_moves
    | with_reducible apply State.collect_moves
    | with_reducible apply State.headBatch_moves
    | with_reducible apply State.openDeficits_moves
    | with_reducible apply State.latchSched_moves
    | with_reducible apply Moves.each
    | with_reducible apply Moves.ite
    | (intro _ _ _)
    | split) hfl)

theorem State.windowExpires_moves {fl : List Field} {r₀ : State} {s : State} {b : Batch} (hm : Moves fl r₀ s)
    (hfl : Field.within [.boot, .regs, .parts, .rings, .counters, .jobs, .calls, .steps, .batch, .splitHead, .stage, .batchNo, .grafts, .tiles, .boughs, .prods, .nextProd, .nextOrder, .sums, .handoffs, .acts, .xferWaits, .canopy, .backs, .latches, .attnWaits, .servedKv, .servedAttn, .weights, .mem, .links, .faults, .power, .sec, .free, .out] fl = true) : Moves fl r₀ (State.windowExpires s b) :=
  hm.trans (Moves.mono (a := [.boot, .regs, .parts, .rings, .counters, .jobs, .calls, .steps, .batch, .splitHead, .stage, .batchNo, .grafts, .tiles, .boughs, .prods, .nextProd, .nextOrder, .sums, .handoffs, .acts, .xferWaits, .canopy, .backs, .latches, .attnWaits, .servedKv, .servedAttn, .weights, .mem, .links, .faults, .power, .sec, .free, .out]) (by
  have h := Moves.refl [.boot, .regs, .parts, .rings, .counters, .jobs, .calls, .steps, .batch, .splitHead, .stage, .batchNo, .grafts, .tiles, .boughs, .prods, .nextProd, .nextOrder, .sums, .handoffs, .acts, .xferWaits, .canopy, .backs, .latches, .attnWaits, .servedKv, .servedAttn, .weights, .mem, .links, .faults, .power, .sec, .free, .out] s
  unfold State.windowExpires
  repeat' first
    | (extract_lets +onlyGivenNames x; first | (refine Moves.cut (s := x) ?_ ?_; (on_goal 2 => intro hx; clear_value x); (on_goal 1 => subst x)) | subst x)
    | with_reducible assumption
    | (show Field.within _ _ = true; decide)
    | with_reducible apply State.wakeDrained_moves
    | with_reducible apply State.fillBatch_moves
    | with_reducible apply State.closeBatch_moves
    | with_reducible apply Moves.ite
    | split) hfl)

theorem State.preempt_moves {fl : List Field} {r₀ : State} {s : State} {c : ℕ} {k : ℕ} (hm : Moves fl r₀ s)
    (hfl : Field.within [.rings, .counters, .calls, .steps, .tiles, .boughs, .prods, .xferWaits, .links, .drains, .out] fl = true) : Moves fl r₀ (State.preempt s c k) :=
  hm.trans (Moves.mono (a := [.rings, .counters, .calls, .steps, .tiles, .boughs, .prods, .xferWaits, .links, .drains, .out]) (by
  have h := Moves.refl [.rings, .counters, .calls, .steps, .tiles, .boughs, .prods, .xferWaits, .links, .drains, .out] s
  unfold State.preempt
  repeat' first
    | (extract_lets +onlyGivenNames x; first | (refine Moves.cut (s := x) ?_ ?_; (on_goal 2 => intro hx; clear_value x); (on_goal 1 => subst x)) | subst x)
    | with_reducible assumption
    | (show Field.within _ _ = true; decide)
    | with_reducible apply State.modStep_moves
    | with_reducible apply State.count_moves
    | with_reducible apply State.notice_moves
    | with_reducible apply State.startDrain_moves
    | with_reducible apply Moves.ite
    | split) hfl)

end Sys2Proof.Machine
end

