-- ==== Sys2Proof/Laws/StartsMoves.lean ====
section
/-! SUPPORT. What each operation of Machine/Starts.lean may change, and that it keeps the canonical form. -/

set_option Elab.async false

namespace Sys2Proof.Machine

set_option linter.unusedTactic false
set_option linter.unreachableTactic false

theorem State.emptyCallSheet_moves {fl : List Field} {r₀ : State} {s : State}  (hm : Moves fl r₀ s)
    (hfl : Field.within [.parts, .rings, .counters, .calls, .steps, .batch, .grafts, .tiles, .boughs, .prods, .sums, .handoffs, .acts, .xferWaits, .canopy, .backs, .latches, .attnWaits, .servedKv, .servedAttn, .mem, .links, .sec, .out] fl = true) : Moves fl r₀ (State.emptyCallSheet s) :=
  hm.trans (Moves.mono (a := [.parts, .rings, .counters, .calls, .steps, .batch, .grafts, .tiles, .boughs, .prods, .sums, .handoffs, .acts, .xferWaits, .canopy, .backs, .latches, .attnWaits, .servedKv, .servedAttn, .mem, .links, .sec, .out]) (by
  have h := Moves.refl [.parts, .rings, .counters, .calls, .steps, .batch, .grafts, .tiles, .boughs, .prods, .sums, .handoffs, .acts, .xferWaits, .canopy, .backs, .latches, .attnWaits, .servedKv, .servedAttn, .mem, .links, .sec, .out] s
  unfold State.emptyCallSheet
  repeat' first
    | (extract_lets +onlyGivenNames x; first | (refine Moves.cut (s := x) ?_ ?_; (on_goal 2 => intro hx; clear_value x); (on_goal 1 => subst x)) | subst x)
    | with_reducible assumption
    | (show Field.within _ _ = true; decide)
    | with_reducible apply State.releaseEntry_moves
    | with_reducible apply State.modRing_moves
    | with_reducible apply Moves.each
    | with_reducible apply Moves.ite
    | (intro _ _ _)
    | split) hfl)

theorem State.abortTakes_moves {fl : List Field} {r₀ : State} {s : State}  (hm : Moves fl r₀ s)
    (hfl : Field.within [.rings, .counters, .jobs, .tiles, .weights, .links, .sec, .out] fl = true) : Moves fl r₀ (State.abortTakes s) :=
  hm.trans (Moves.mono (a := [.rings, .counters, .jobs, .tiles, .weights, .links, .sec, .out]) (by
  have h := Moves.refl [.rings, .counters, .jobs, .tiles, .weights, .links, .sec, .out] s
  unfold State.abortTakes
  repeat' first
    | with_reducible assumption
    | (show Field.within _ _ = true; decide)
    | with_reducible apply State.failTake_moves
    | with_reducible apply Moves.each
    | (intro _ _ _)
    | split) hfl)

theorem State.rewrite_moves {fl : List Field} {r₀ : State} {s : State} {r : LastRecord} (hm : Moves fl r₀ s)
    (hfl : Field.within [.out] fl = true) : Moves fl r₀ (State.rewrite s r) :=
  hm.trans (Moves.mono (a := [.out]) (by
  have h := Moves.refl [.out] s
  unfold State.rewrite
  repeat' first
    | (extract_lets +onlyGivenNames x; first | (refine Moves.cut (s := x) ?_ ?_; (on_goal 2 => intro hx; clear_value x); (on_goal 1 => subst x)) | subst x)
    | with_reducible assumption
    | (show Field.within _ _ = true; decide)
    | with_reducible apply State.emit_moves
    | split) hfl)

theorem State.programRest_moves {fl : List Field} {r₀ : State} {s : State} {t : Take} (hm : Moves fl r₀ s)
    (hfl : Field.within [.rings, .counters, .steps, .tiles, .boughs, .prods, .nextOrder, .weights, .links, .faults, .power, .sec, .out] fl = true) : Moves fl r₀ (State.programRest s t) :=
  hm.trans (Moves.mono (a := [.rings, .counters, .steps, .tiles, .boughs, .prods, .nextOrder, .weights, .links, .faults, .power, .sec, .out]) (by
  have h := Moves.refl [.rings, .counters, .steps, .tiles, .boughs, .prods, .nextOrder, .weights, .links, .faults, .power, .sec, .out] s
  unfold State.programRest
  repeat' first
    | (extract_lets +onlyGivenNames x; first | (refine Moves.cut (s := x) ?_ ?_; (on_goal 2 => intro hx; clear_value x); (on_goal 1 => subst x)) | subst x)
    | with_reducible assumption
    | (show Field.within _ _ = true; decide)
    | with_reducible apply State.programTargets_moves
    | with_reducible apply State.emptyDeck_moves
    | with_reducible apply Moves.each
    | (intro _ _ _)
    | split) hfl)

theorem State.reprogram_moves {fl : List Field} {r₀ : State} {s : State}  (hm : Moves fl r₀ s)
    (hfl : Field.within [.rings, .counters, .steps, .tiles, .boughs, .prods, .nextOrder, .weights, .links, .faults, .power, .sec, .out] fl = true) : Moves fl r₀ (State.reprogram s) :=
  hm.trans (Moves.mono (a := [.rings, .counters, .steps, .tiles, .boughs, .prods, .nextOrder, .weights, .links, .faults, .power, .sec, .out]) (by
  have h := Moves.refl [.rings, .counters, .steps, .tiles, .boughs, .prods, .nextOrder, .weights, .links, .faults, .power, .sec, .out] s
  unfold State.reprogram
  repeat' first
    | (extract_lets +onlyGivenNames x; first | (refine Moves.cut (s := x) ?_ ?_; (on_goal 2 => intro hx; clear_value x); (on_goal 1 => subst x)) | subst x)
    | with_reducible assumption
    | (show Field.within _ _ = true; decide)
    | with_reducible apply State.programRest_moves
    | with_reducible apply State.emptyDeck_moves
    | with_reducible apply State.firmwareTake_moves
    | with_reducible apply Moves.each
    | with_reducible apply Moves.ite
    | (intro _ _ _)
    | split) hfl)

theorem State.resume_moves {fl : List Field} {r₀ : State} {s : State}  (hm : Moves fl r₀ s)
    (hfl : Field.within [.boot, .regs, .parts, .rings, .counters, .jobs, .calls, .steps, .batch, .grafts, .tiles, .boughs, .prods, .nextProd, .nextOrder, .sums, .handoffs, .acts, .xferWaits, .canopy, .backs, .latches, .attnWaits, .servedKv, .servedAttn, .weights, .mem, .links, .faults, .power, .sec, .free, .out] fl = true) : Moves fl r₀ (State.resume s) :=
  hm.trans (Moves.mono (a := [.boot, .regs, .parts, .rings, .counters, .jobs, .calls, .steps, .batch, .grafts, .tiles, .boughs, .prods, .nextProd, .nextOrder, .sums, .handoffs, .acts, .xferWaits, .canopy, .backs, .latches, .attnWaits, .servedKv, .servedAttn, .weights, .mem, .links, .faults, .power, .sec, .free, .out]) (by
  have h := Moves.refl [.boot, .regs, .parts, .rings, .counters, .jobs, .calls, .steps, .batch, .grafts, .tiles, .boughs, .prods, .nextProd, .nextOrder, .sums, .handoffs, .acts, .xferWaits, .canopy, .backs, .latches, .attnWaits, .servedKv, .servedAttn, .weights, .mem, .links, .faults, .power, .sec, .free, .out] s
  unfold State.resume
  repeat' first
    | (extract_lets +onlyGivenNames x; first | (refine Moves.cut (s := x) ?_ ?_; (on_goal 2 => intro hx; clear_value x); (on_goal 1 => subst x)) | subst x)
    | with_reducible assumption
    | (show Field.within _ _ = true; decide)
    | with_reducible apply State.emptyCallSheet_moves
    | with_reducible apply State.abortTakes_moves
    | with_reducible apply State.releaseEntry_moves
    | with_reducible apply State.rewrite_moves
    | with_reducible apply State.modWeights_moves
    | with_reducible apply State.modLink_moves
    | with_reducible apply State.completeAll_moves
    | with_reducible apply State.endCall_moves
    | with_reducible apply State.reprogram_moves
    | with_reducible apply State.partResetEnd_moves
    | with_reducible apply State.setReady_moves
    | with_reducible apply State.restoreCall_moves
    | with_reducible apply State.emit_moves
    | with_reducible apply State.modSec_moves
    | with_reducible apply State.writeRecord_moves
    | with_reducible apply State.modBoot_moves
    | with_reducible apply State.send_moves
    | with_reducible apply Moves.each
    | with_reducible apply Moves.ite
    | (intro _ _ _)
    | split
    | (refine Moves.of_lit ?_ ?_ ?_)
    | (intro f hf; cases f <;> first | exact hf.elim (by decide) | rfl)
    | (exact fun c => ⟨by dsimp only; first | exact c.parts | exact Tbl.wf_set c.parts | exact Tbl.wf_update c.parts | exact Tbl.wf_mapVals (Tbl.rising_of_wf c.parts) | exact Tbl.wf_mapVals (Tbl.rising_map (fun p => by (try dsimp only); (repeat' split) <;> rfl) (Tbl.rising_of_wf c.parts)) | (split <;> first | exact c.parts | exact Tbl.wf_set c.parts | exact Tbl.wf_mapVals (Tbl.rising_of_wf c.parts)), c.rings, c.counters, by dsimp only; first | exact c.calls | exact Tbl.wf_set c.calls | exact Tbl.wf_update c.calls | exact Tbl.wf_mapVals (Tbl.rising_of_wf c.calls) | exact Tbl.wf_mapVals (Tbl.rising_map (fun p => by (try dsimp only); (repeat' split) <;> rfl) (Tbl.rising_of_wf c.calls)) | (split <;> first | exact c.calls | exact Tbl.wf_set c.calls | exact Tbl.wf_mapVals (Tbl.rising_of_wf c.calls)), c.customers, c.tiles, by dsimp only; first | exact c.boughs | exact Tbl.wf_set c.boughs | exact Tbl.wf_update c.boughs | exact Tbl.wf_mapVals (Tbl.rising_of_wf c.boughs) | exact Tbl.wf_mapVals (Tbl.rising_map (fun p => by (try dsimp only); (repeat' split) <;> rfl) (Tbl.rising_of_wf c.boughs)) | (split <;> first | exact c.boughs | exact Tbl.wf_set c.boughs | exact Tbl.wf_mapVals (Tbl.rising_of_wf c.boughs)), c.calSave, c.links, c.mem⟩)) hfl)

theorem State.resumeEnds_moves {fl : List Field} {r₀ : State} {s : State}  (hm : Moves fl r₀ s)
    (hfl : Field.within [.boot, .regs, .parts, .rings, .counters, .jobs, .calls, .steps, .batch, .grafts, .tiles, .boughs, .prods, .nextProd, .nextOrder, .sums, .handoffs, .acts, .xferWaits, .canopy, .backs, .latches, .attnWaits, .servedKv, .servedAttn, .weights, .mem, .links, .faults, .power, .sec, .free, .out] fl = true) : Moves fl r₀ (State.resumeEnds s) :=
  hm.trans (Moves.mono (a := [.boot, .regs, .parts, .rings, .counters, .jobs, .calls, .steps, .batch, .grafts, .tiles, .boughs, .prods, .nextProd, .nextOrder, .sums, .handoffs, .acts, .xferWaits, .canopy, .backs, .latches, .attnWaits, .servedKv, .servedAttn, .weights, .mem, .links, .faults, .power, .sec, .free, .out]) (by
  have h := Moves.refl [.boot, .regs, .parts, .rings, .counters, .jobs, .calls, .steps, .batch, .grafts, .tiles, .boughs, .prods, .nextProd, .nextOrder, .sums, .handoffs, .acts, .xferWaits, .canopy, .backs, .latches, .attnWaits, .servedKv, .servedAttn, .weights, .mem, .links, .faults, .power, .sec, .free, .out] s
  unfold State.resumeEnds
  repeat' first
    | (extract_lets +onlyGivenNames x; first | (refine Moves.cut (s := x) ?_ ?_; (on_goal 2 => intro hx; clear_value x); (on_goal 1 => subst x)) | subst x)
    | with_reducible assumption
    | (show Field.within _ _ = true; decide)
    | with_reducible apply State.resume_moves
    | with_reducible apply State.modBoot_moves
    | with_reducible apply State.settle_moves
    | with_reducible apply State.stepEnds_moves
    | with_reducible apply State.count_moves
    | with_reducible apply Moves.ite
    | split) hfl)

theorem State.hbmExit_moves {fl : List Field} {r₀ : State} {s : State} {area : Bool} (hm : Moves fl r₀ s)
    (hfl : Field.within [.boot, .regs, .rings, .counters, .jobs, .tiles, .boughs, .sec, .out] fl = true) : Moves fl r₀ (State.hbmExit s area) :=
  hm.trans (Moves.mono (a := [.boot, .regs, .rings, .counters, .jobs, .tiles, .boughs, .sec, .out]) (by
  have h := Moves.refl [.boot, .regs, .rings, .counters, .jobs, .tiles, .boughs, .sec, .out] s
  unfold State.hbmExit
  repeat' first
    | (extract_lets +onlyGivenNames x; first | (refine Moves.cut (s := x) ?_ ?_; (on_goal 2 => intro hx; clear_value x); (on_goal 1 => subst x)) | subst x)
    | with_reducible assumption
    | (show Field.within _ _ = true; decide)
    | with_reducible apply State.stepEnds_moves
    | with_reducible apply State.setReady_moves
    | with_reducible apply State.startCal_moves
    | with_reducible apply State.loadCal_moves
    | with_reducible apply State.coldCal_moves
    | with_reducible apply Moves.each
    | with_reducible apply Moves.ite
    | (intro _ _ _)
    | split) hfl)

theorem State.hbmFilled_moves {fl : List Field} {r₀ : State} {s : State} {complete : Bool} (hm : Moves fl r₀ s)
    (hfl : Field.within [.boot, .regs, .parts, .rings, .counters, .jobs, .sec, .out] fl = true) : Moves fl r₀ (State.hbmFilled s complete) :=
  hm.trans (Moves.mono (a := [.boot, .regs, .parts, .rings, .counters, .jobs, .sec, .out]) (by
  have h := Moves.refl [.boot, .regs, .parts, .rings, .counters, .jobs, .sec, .out] s
  unfold State.hbmFilled
  repeat' first
    | (extract_lets +onlyGivenNames x; first | (refine Moves.cut (s := x) ?_ ?_; (on_goal 2 => intro hx; clear_value x); (on_goal 1 => subst x)) | subst x)
    | with_reducible assumption
    | (show Field.within _ _ = true; decide)
    | with_reducible apply State.setReady_moves
    | with_reducible apply State.noteStall_moves
    | with_reducible apply State.stepEnds_moves
    | with_reducible apply Moves.each
    | with_reducible apply Moves.ite
    | (intro _ _ _)
    | split) hfl)

theorem State.hkRefReady_moves {fl : List Field} {r₀ : State} {s : State}  (hm : Moves fl r₀ s)
    (hfl : Field.within [.hk] fl = true) : Moves fl r₀ (State.hkRefReady s) :=
  hm.trans (Moves.mono (a := [.hk]) (by
  have h := Moves.refl [.hk] s
  unfold State.hkRefReady
  repeat' first
    | (extract_lets +onlyGivenNames x; first | (refine Moves.cut (s := x) ?_ ?_; (on_goal 2 => intro hx; clear_value x); (on_goal 1 => subst x)) | subst x)
    | with_reducible assumption
    | (show Field.within _ _ = true; decide)
    | with_reducible apply State.modHk_moves
    | with_reducible apply Moves.ite
    | split) hfl)

theorem State.installTables_moves {fl : List Field} {r₀ : State} {s : State} {digest : Sys2Proof.Bytes} (hm : Moves fl r₀ s)
    (hfl : Field.within [.power, .sec] fl = true) : Moves fl r₀ (State.installTables s digest) :=
  hm.trans (Moves.mono (a := [.power, .sec]) (by
  have h := Moves.refl [.power, .sec] s
  unfold State.installTables
  repeat' first
    | (extract_lets +onlyGivenNames x; first | (refine Moves.cut (s := x) ?_ ?_; (on_goal 2 => intro hx; clear_value x); (on_goal 1 => subst x)) | subst x)
    | with_reducible assumption
    | (show Field.within _ _ = true; decide)
    | with_reducible apply State.modPower_moves
    | with_reducible apply State.modSec_moves
    | with_reducible apply Moves.foldl
    | with_reducible apply Moves.foldl_fst
    | (intro _ _ _)
    | split) hfl)

theorem State.runImage_moves {fl : List Field} {r₀ : State} {s : State} {slot : ℕ} {b : Sys2Proof.Bytes} (hm : Moves fl r₀ s)
    (hfl : Field.within [.boot, .power, .sec] fl = true) : Moves fl r₀ (State.runImage s slot b) :=
  hm.trans (Moves.mono (a := [.boot, .power, .sec]) (by
  have h := Moves.refl [.boot, .power, .sec] s
  unfold State.runImage
  repeat' first
    | (extract_lets +onlyGivenNames x; first | (refine Moves.cut (s := x) ?_ ?_; (on_goal 2 => intro hx; clear_value x); (on_goal 1 => subst x)) | subst x)
    | with_reducible assumption
    | (show Field.within _ _ = true; decide)
    | with_reducible apply State.modSec_moves
    | with_reducible apply State.modBoot_moves
    | with_reducible apply State.installTables_moves
    | split) hfl)

theorem State.trainAll_moves {fl : List Field} {r₀ : State} {s : State}  (hm : Moves fl r₀ s)
    (hfl : Field.within [.links] fl = true) : Moves fl r₀ (State.trainAll s) :=
  hm.trans (Moves.mono (a := [.links]) (by
  have h := Moves.refl [.links] s
  unfold State.trainAll
  repeat' first
    | with_reducible assumption
    | (show Field.within _ _ = true; decide)
    | with_reducible apply State.trainPort_moves
    | with_reducible apply Moves.each
    | with_reducible apply Moves.ite
    | (intro _ _ _)
    | split) hfl)

theorem State.fwCheck_moves {fl : List Field} {r₀ : State} {s : State} {a : List Sys2Proof.Bytes} (hm : Moves fl r₀ s)
    (hfl : Field.within [.boot, .regs, .rings, .counters, .jobs, .links, .power, .sec, .out] fl = true) : Moves fl r₀ (State.fwCheck s a) :=
  hm.trans (Moves.mono (a := [.boot, .regs, .rings, .counters, .jobs, .links, .power, .sec, .out]) (by
  clear hm hfl
  induction a generalizing s with
  | nil => exact State.stepFails_moves (Moves.refl _ _) (by decide)
  | cons _ _ ih =>
  have h := Moves.refl [.boot, .regs, .rings, .counters, .jobs, .links, .power, .sec, .out] s
  unfold State.fwCheck
  repeat' first
    | with_reducible assumption
    | (with_reducible apply Moves.trans _ (ih ..))
    | (show Field.within _ _ = true; decide)
    | with_reducible apply State.stepFails_moves
    | with_reducible apply State.sigReject_moves
    | with_reducible apply State.runImage_moves
    | with_reducible apply State.setReady_moves
    | with_reducible apply State.stepEnds_moves
    | with_reducible apply State.trainAll_moves
    | with_reducible apply State.linkStep_moves
    | split) hfl)

theorem State.clockLock_moves {fl : List Field} {r₀ : State} {s : State}  (hm : Moves fl r₀ s)
    (hfl : Field.within [.boot, .regs, .rings, .tick, .ticking, .counters, .jobs, .hk, .sec, .out] fl = true) : Moves fl r₀ (State.clockLock s) :=
  hm.trans (Moves.mono (a := [.boot, .regs, .rings, .tick, .ticking, .counters, .jobs, .hk, .sec, .out]) (by
  have h := Moves.refl [.boot, .regs, .rings, .tick, .ticking, .counters, .jobs, .hk, .sec, .out] s
  unfold State.clockLock
  repeat' first
    | with_reducible assumption
    | (show Field.within _ _ = true; decide)
    | with_reducible apply State.writeRefen_moves
    | with_reducible apply State.stepEnds_moves
    | split
    | (refine Moves.of_lit ?_ ?_ ?_)
    | (intro f hf; cases f <;> first | exact hf.elim (by decide) | rfl)
    | (exact fun c => ⟨c.parts, c.rings, c.counters, c.calls, c.customers, c.tiles, c.boughs, c.calSave, c.links, c.mem⟩)) hfl)

theorem State.arraysStart_moves {fl : List Field} {r₀ : State} {s : State}  (hm : Moves fl r₀ s)
    (hfl : Field.within [.tiles, .boughs] fl = true) : Moves fl r₀ (State.arraysStart s) :=
  hm.trans (Moves.mono (a := [.tiles, .boughs]) (by
  have h := Moves.refl [.tiles, .boughs] s
  unfold State.arraysStart
  repeat' first
    | with_reducible assumption
    | (show Field.within _ _ = true; decide)
    | with_reducible apply State.startCal_moves
    | with_reducible apply State.coldCal_moves
    | split) hfl)

theorem State.tryArrays_moves {fl : List Field} {r₀ : State} {s : State}  (hm : Moves fl r₀ s)
    (hfl : Field.within [.tiles, .boughs] fl = true) : Moves fl r₀ (State.tryArrays s) :=
  hm.trans (Moves.mono (a := [.tiles, .boughs]) (by
  have h := Moves.refl [.tiles, .boughs] s
  unfold State.tryArrays
  repeat' first
    | with_reducible assumption
    | (show Field.within _ _ = true; decide)
    | with_reducible apply State.arraysStart_moves
    | with_reducible apply Moves.ite
    | split) hfl)

theorem State.slateStep_moves {fl : List Field} {r₀ : State} {s : State}  (hm : Moves fl r₀ s)
    (hfl : Field.within [.boot, .regs, .rings, .counters, .jobs, .tiles, .boughs, .sec, .out] fl = true) : Moves fl r₀ (State.slateStep s) :=
  hm.trans (Moves.mono (a := [.boot, .regs, .rings, .counters, .jobs, .tiles, .boughs, .sec, .out]) (by
  have h := Moves.refl [.boot, .regs, .rings, .counters, .jobs, .tiles, .boughs, .sec, .out] s
  unfold State.slateStep
  repeat' first
    | (extract_lets +onlyGivenNames x; first | (refine Moves.cut (s := x) ?_ ?_; (on_goal 2 => intro hx; clear_value x); (on_goal 1 => subst x)) | subst x)
    | with_reducible assumption
    | (show Field.within _ _ = true; decide)
    | with_reducible apply State.tryArrays_moves
    | with_reducible apply State.stepEnds_moves
    | with_reducible apply Moves.ite
    | split) hfl)

theorem State.enterSafe_moves {fl : List Field} {r₀ : State} {s : State} {n : ℕ} (hm : Moves fl r₀ s)
    (hfl : Field.within [.pins, .boot, .regs, .parts, .rings, .tick, .ticking, .trims, .counters, .jobs, .calls, .steps, .batch, .sched, .splitHead, .stage, .batchNo, .customers, .grafts, .mattes, .tiles, .boughs, .calSave, .prods, .nextProd, .nextOrder, .sums, .handoffs, .acts, .xferWaits, .histos, .canopy, .backs, .latches, .attnWaits, .servedKv, .servedAttn, .weights, .mem, .links, .partner, .faults, .hk, .power, .sec, .drains] fl = true) : Moves fl r₀ (State.enterSafe s n) :=
  hm.trans (Moves.mono (a := [.pins, .boot, .regs, .parts, .rings, .tick, .ticking, .trims, .counters, .jobs, .calls, .steps, .batch, .sched, .splitHead, .stage, .batchNo, .customers, .grafts, .mattes, .tiles, .boughs, .calSave, .prods, .nextProd, .nextOrder, .sums, .handoffs, .acts, .xferWaits, .histos, .canopy, .backs, .latches, .attnWaits, .servedKv, .servedAttn, .weights, .mem, .links, .partner, .faults, .hk, .power, .sec, .drains]) (by
  have h := Moves.refl [.pins, .boot, .regs, .parts, .rings, .tick, .ticking, .trims, .counters, .jobs, .calls, .steps, .batch, .sched, .splitHead, .stage, .batchNo, .customers, .grafts, .mattes, .tiles, .boughs, .calSave, .prods, .nextProd, .nextOrder, .sums, .handoffs, .acts, .xferWaits, .histos, .canopy, .backs, .latches, .attnWaits, .servedKv, .servedAttn, .weights, .mem, .links, .partner, .faults, .hk, .power, .sec, .drains] s
  unfold State.enterSafe
  repeat' first
    | with_reducible assumption
    | (show Field.within _ _ = true; decide)
    | with_reducible apply State.modPins_moves
    | with_reducible apply State.modBoot_moves
    | with_reducible apply State.coldReset_moves
    | split) hfl)

theorem State.fwFetch_moves {fl : List Field} {r₀ : State} {s : State} {images : List Sys2Proof.Bytes} (hm : Moves fl r₀ s)
    (hfl : Field.within [.boot, .regs, .rings, .counters, .jobs, .links, .power, .sec, .out] fl = true) : Moves fl r₀ (State.fwFetch s images) :=
  hm.trans (Moves.mono (a := [.boot, .regs, .rings, .counters, .jobs, .links, .power, .sec, .out]) (by
  have h := Moves.refl [.boot, .regs, .rings, .counters, .jobs, .links, .power, .sec, .out] s
  unfold State.fwFetch
  repeat' first
    | with_reducible assumption
    | (show Field.within _ _ = true; decide)
    | with_reducible apply State.stepFails_moves
    | with_reducible apply State.fwCheck_moves
    | with_reducible apply State.stepEnds_moves
    | with_reducible apply State.modBoot_moves
    | with_reducible apply Moves.ite
    | split) hfl)

theorem State.applyTrims_moves {fl : List Field} {r₀ : State} {s : State} {b : Sys2Proof.Bytes} (hm : Moves fl r₀ s)
    (hfl : Field.within [.trims, .tiles] fl = true) : Moves fl r₀ (State.applyTrims s b) :=
  hm.trans (Moves.mono (a := [.trims, .tiles]) (by
  have h := Moves.refl [.trims, .tiles] s
  unfold State.applyTrims
  repeat' first
    | (extract_lets +onlyGivenNames x; first | (refine Moves.cut (s := x) ?_ ?_; (on_goal 2 => intro hx; clear_value x); (on_goal 1 => subst x)) | subst x)
    | with_reducible assumption
    | (show Field.within _ _ = true; decide)
    | with_reducible apply State.modTile_moves
    | with_reducible apply Moves.each
    | (intro _ _ _)
    | split
    | (refine Moves.of_lit ?_ ?_ ?_)
    | (intro f hf; cases f <;> first | exact hf.elim (by decide) | rfl)
    | (exact fun c => ⟨c.parts, c.rings, c.counters, c.calls, c.customers, c.tiles, c.boughs, c.calSave, c.links, c.mem⟩)) hfl)

theorem State.optionLoad_moves {fl : List Field} {r₀ : State} {s : State} {b : Sys2Proof.Bytes} (hm : Moves fl r₀ s)
    (hfl : Field.within [.boot, .regs, .rings, .trims, .counters, .jobs, .tiles, .sec, .out] fl = true) : Moves fl r₀ (State.optionLoad s b) :=
  hm.trans (Moves.mono (a := [.boot, .regs, .rings, .trims, .counters, .jobs, .tiles, .sec, .out]) (by
  have h := Moves.refl [.boot, .regs, .rings, .trims, .counters, .jobs, .tiles, .sec, .out] s
  unfold State.optionLoad
  repeat' first
    | with_reducible assumption
    | (show Field.within _ _ = true; decide)
    | with_reducible apply State.stepEnds_moves
    | with_reducible apply State.applyTrims_moves
    | with_reducible apply State.stepFails_moves
    | with_reducible apply State.modBoot_moves
    | with_reducible apply Moves.ite
    | split) hfl)

theorem State.startFail_moves {fl : List Field} {r₀ : State} {s : State} {code : ℕ} (hm : Moves fl r₀ s)
    (hfl : Field.within everyPiece fl = true) : Moves fl r₀ (State.startFail s code) :=
  hm.trans (Moves.mono (a := everyPiece) (by
  have h := Moves.refl everyPiece s
  unfold State.startFail
  repeat' first
    | (extract_lets +onlyGivenNames x; first | (refine Moves.cut (s := x) ?_ ?_; (on_goal 2 => intro hx; clear_value x); (on_goal 1 => subst x)) | subst x)
    | with_reducible assumption
    | (show Field.within _ _ = true; decide)
    | with_reducible apply State.modBoot_moves
    | with_reducible apply State.emit_moves
    | with_reducible apply State.modRegs_moves
    | with_reducible apply State.resetArrives_moves
    | with_reducible apply State.enterSafe_moves
    | with_reducible apply Moves.ite
    | split) hfl)

theorem State.firstService_moves {fl : List Field} {r₀ : State} {s : State}  (hm : Moves fl r₀ s)
    (hfl : Field.within [.boot, .rings, .counters, .sec, .out] fl = true) : Moves fl r₀ (State.firstService s) :=
  hm.trans (Moves.mono (a := [.boot, .rings, .counters, .sec, .out]) (by
  have h := Moves.refl [.boot, .rings, .counters, .sec, .out] s
  unfold State.firstService
  repeat' first
    | (extract_lets +onlyGivenNames x; first | (refine Moves.cut (s := x) ?_ ?_; (on_goal 2 => intro hx; clear_value x); (on_goal 1 => subst x)) | subst x)
    | with_reducible assumption
    | (show Field.within _ _ = true; decide)
    | with_reducible apply State.modSec_moves
    | with_reducible apply State.modBoot_moves
    | with_reducible apply State.event_moves
    | with_reducible apply Moves.ite
    | split) hfl)

theorem State.hbmTrained_moves {fl : List Field} {r₀ : State} {s : State}  (hm : Moves fl r₀ s)
    (hfl : Field.within [.boot, .regs, .rings, .counters, .jobs, .tiles, .boughs, .sec, .out] fl = true) : Moves fl r₀ (State.hbmTrained s) :=
  hm.trans (Moves.mono (a := [.boot, .regs, .rings, .counters, .jobs, .tiles, .boughs, .sec, .out]) (by
  have h := Moves.refl [.boot, .regs, .rings, .counters, .jobs, .tiles, .boughs, .sec, .out] s
  unfold State.hbmTrained
  repeat' first
    | with_reducible assumption
    | (show Field.within _ _ = true; decide)
    | with_reducible apply State.tryArrays_moves
    | with_reducible apply State.stepEnds_moves
    | with_reducible apply State.setReady_moves
    | split) hfl)

end Sys2Proof.Machine
end

