-- ==== Sys2Proof/Laws/DrainsMoves.lean ====
section
/-! SUPPORT. What each operation of Machine/Drains.lean may change, and that it keeps the canonical form. -/

set_option Elab.async false

namespace Sys2Proof.Machine

set_option linter.unusedTactic false
set_option linter.unreachableTactic false

theorem State.saveRows_moves {fl : List Field} {r₀ : State} {s : State} {c : ℕ} (hm : Moves fl r₀ s)
    (hfl : Field.within [.counters, .calls, .canopy, .links, .out] fl = true) : Moves fl r₀ (State.saveRows s c) :=
  hm.trans (Moves.mono (a := [.counters, .calls, .canopy, .links, .out]) (by
  have h := Moves.refl [.counters, .calls, .canopy, .links, .out] s
  unfold State.saveRows
  repeat' first
    | (extract_lets +onlyGivenNames x; first | (refine Moves.cut (s := x) ?_ ?_; (on_goal 2 => intro hx; clear_value x); (on_goal 1 => subst x)) | subst x)
    | with_reducible assumption
    | (show Field.within _ _ = true; decide)
    | with_reducible apply State.count_moves
    | with_reducible apply State.modCall_moves
    | with_reducible apply Moves.ite
    | split
    | (refine Moves.of_lit ?_ ?_ ?_)
    | (intro f hf; cases f <;> first | exact hf.elim (by decide) | rfl)
    | (exact fun c => ⟨c.parts, c.rings, c.counters, c.calls, c.customers, c.tiles, c.boughs, c.calSave, c.links, c.mem⟩)) hfl)

theorem State.saveScope_moves {fl : List Field} {r₀ : State} {s : State} {sc : DrainScope} (hm : Moves fl r₀ s)
    (hfl : Field.within [.counters, .calls, .canopy, .links, .out] fl = true) : Moves fl r₀ (State.saveScope s sc) :=
  hm.trans (Moves.mono (a := [.counters, .calls, .canopy, .links, .out]) (by
  have h := Moves.refl [.counters, .calls, .canopy, .links, .out] s
  unfold State.saveScope
  repeat' first
    | (extract_lets +onlyGivenNames x; first | (refine Moves.cut (s := x) ?_ ?_; (on_goal 2 => intro hx; clear_value x); (on_goal 1 => subst x)) | subst x)
    | with_reducible assumption
    | (show Field.within _ _ = true; decide)
    | with_reducible apply State.saveRows_moves
    | with_reducible apply Moves.each
    | (intro _ _ _)
    | split) hfl)

theorem State.switchImage_moves {fl : List Field} {r₀ : State} {s : State}  (hm : Moves fl r₀ s)
    (hfl : Field.within [.boot, .power, .sec, .out] fl = true) : Moves fl r₀ (State.switchImage s) :=
  hm.trans (Moves.mono (a := [.boot, .power, .sec, .out]) (by
  have h := Moves.refl [.boot, .power, .sec, .out] s
  unfold State.switchImage
  repeat' first
    | (extract_lets +onlyGivenNames x; first | (refine Moves.cut (s := x) ?_ ?_; (on_goal 2 => intro hx; clear_value x); (on_goal 1 => subst x)) | subst x)
    | with_reducible assumption
    | (show Field.within _ _ = true; decide)
    | with_reducible apply State.runImage_moves
    | with_reducible apply State.modSec_moves
    | with_reducible apply State.emit_moves
    | with_reducible apply Moves.ite
    | split) hfl)

theorem State.holdSteps_moves {fl : List Field} {r₀ : State} {s : State} {c : ℕ} (hm : Moves fl r₀ s)
    (hfl : Field.within [.steps] fl = true) : Moves fl r₀ (State.holdSteps s c) :=
  hm.trans (Moves.mono (a := [.steps]) (by
  have h := Moves.refl [.steps] s
  unfold State.holdSteps
  repeat' first
    | with_reducible assumption
    | (show Field.within _ _ = true; decide)
    | with_reducible apply Moves.ite
    | split
    | (refine Moves.of_lit ?_ ?_ ?_)
    | (intro f hf; cases f <;> first | exact hf.elim (by decide) | rfl)
    | (exact fun c => ⟨c.parts, c.rings, c.counters, c.calls, c.customers, c.tiles, c.boughs, c.calSave, c.links, c.mem⟩)) hfl)

theorem State.restoreAll_moves {fl : List Field} {r₀ : State} {s : State}  (hm : Moves fl r₀ s)
    (hfl : Field.within [.boot, .regs, .parts, .rings, .counters, .jobs, .calls, .steps, .batch, .grafts, .tiles, .boughs, .prods, .nextProd, .nextOrder, .sums, .handoffs, .acts, .xferWaits, .canopy, .backs, .latches, .attnWaits, .servedKv, .servedAttn, .weights, .mem, .links, .faults, .power, .sec, .free, .out] fl = true) : Moves fl r₀ (State.restoreAll s) :=
  hm.trans (Moves.mono (a := [.boot, .regs, .parts, .rings, .counters, .jobs, .calls, .steps, .batch, .grafts, .tiles, .boughs, .prods, .nextProd, .nextOrder, .sums, .handoffs, .acts, .xferWaits, .canopy, .backs, .latches, .attnWaits, .servedKv, .servedAttn, .weights, .mem, .links, .faults, .power, .sec, .free, .out]) (by
  have h := Moves.refl [.boot, .regs, .parts, .rings, .counters, .jobs, .calls, .steps, .batch, .grafts, .tiles, .boughs, .prods, .nextProd, .nextOrder, .sums, .handoffs, .acts, .xferWaits, .canopy, .backs, .latches, .attnWaits, .servedKv, .servedAttn, .weights, .mem, .links, .faults, .power, .sec, .free, .out] s
  unfold State.restoreAll
  repeat' first
    | with_reducible assumption
    | (show Field.within _ _ = true; decide)
    | with_reducible apply State.restoreCall_moves
    | with_reducible apply Moves.each
    | (intro _ _ _)
    | split) hfl)

theorem State.drainChunk_moves {fl : List Field} {r₀ : State} {s : State} {c : ℕ} (hm : Moves fl r₀ s)
    (hfl : Field.within [.parts, .counters, .calls, .steps, .canopy, .links, .out] fl = true) : Moves fl r₀ (State.drainChunk s c) :=
  hm.trans (Moves.mono (a := [.parts, .counters, .calls, .steps, .canopy, .links, .out]) (by
  have h := Moves.refl [.parts, .counters, .calls, .steps, .canopy, .links, .out] s
  unfold State.drainChunk
  repeat' first
    | (extract_lets +onlyGivenNames x; first | (refine Moves.cut (s := x) ?_ ?_; (on_goal 2 => intro hx; clear_value x); (on_goal 1 => subst x)) | subst x)
    | with_reducible assumption
    | (show Field.within _ _ = true; decide)
    | with_reducible apply State.holdSteps_moves
    | with_reducible apply State.saveRows_moves
    | with_reducible apply State.modCall_moves
    | with_reducible apply State.modPart_moves
    | split) hfl)

theorem State.afterDrain_moves {fl : List Field} {r₀ : State} {s : State} {why : DrainFor} (hm : Moves fl r₀ s)
    (hfl : Field.within (.free :: everyPiece) fl = true) : Moves fl r₀ (State.afterDrain s why) :=
  hm.trans (Moves.mono (a := (.free :: everyPiece)) (by
  have h := Moves.refl (.free :: everyPiece) s
  unfold State.afterDrain
  repeat' first
    | (extract_lets +onlyGivenNames x; first | (refine Moves.cut (s := x) ?_ ?_; (on_goal 2 => intro hx; clear_value x); (on_goal 1 => subst x)) | subst x)
    | with_reducible assumption
    | (show Field.within _ _ = true; decide)
    | with_reducible apply State.restoreAll_moves
    | with_reducible apply State.drainChunk_moves
    | with_reducible apply State.partResetEnd_moves
    | with_reducible apply State.holdSteps_moves
    | with_reducible apply State.saveRows_moves
    | with_reducible apply State.resetArrives_moves
    | with_reducible apply State.switchImage_moves
    | with_reducible apply State.boughReset_moves
    | with_reducible apply Moves.each
    | with_reducible apply Moves.ite
    | (intro _ _ _)
    | split
    | (refine Moves.of_lit ?_ ?_ ?_)
    | (intro f hf; cases f <;> first | exact hf.elim (by decide) | rfl)
    | (exact fun c => ⟨c.parts, c.rings, c.counters, c.calls, c.customers, by dsimp only; first | exact c.tiles | exact Tbl.wf_set c.tiles | exact Tbl.wf_update c.tiles | exact Tbl.wf_mapVals (Tbl.rising_of_wf c.tiles) | exact Tbl.wf_mapVals (Tbl.rising_map (fun p => by (try dsimp only); (repeat' split) <;> rfl) (Tbl.rising_of_wf c.tiles)) | (split <;> first | exact c.tiles | exact Tbl.wf_set c.tiles | exact Tbl.wf_mapVals (Tbl.rising_of_wf c.tiles)), c.boughs, c.calSave, c.links, c.mem⟩)) hfl)

theorem State.drainAck_moves {fl : List Field} {r₀ : State} {s : State} {b : ℕ} (hm : Moves fl r₀ s)
    (hfl : Field.within [.drains] fl = true) : Moves fl r₀ (State.drainAck s b) :=
  hm.trans (Moves.mono (a := [.drains]) (by
  have h := Moves.refl [.drains] s
  unfold State.drainAck
  repeat' first
    | with_reducible assumption
    | (show Field.within _ _ = true; decide)
    | with_reducible apply Moves.ite
    | split
    | (refine Moves.of_lit ?_ ?_ ?_)
    | (intro f hf; cases f <;> first | exact hf.elim (by decide) | rfl)
    | (exact fun c => ⟨c.parts, c.rings, c.counters, c.calls, c.customers, c.tiles, c.boughs, c.calSave, c.links, c.mem⟩)) hfl)

theorem State.cutoverDone_moves {fl : List Field} {r₀ : State} {s : State} {c : Cutover} (hm : Moves fl r₀ s)
    (hfl : Field.within [.rings, .counters, .jobs, .calls, .sec, .out] fl = true) : Moves fl r₀ (State.cutoverDone s c) :=
  hm.trans (Moves.mono (a := [.rings, .counters, .jobs, .calls, .sec, .out]) (by
  have h := Moves.refl [.rings, .counters, .jobs, .calls, .sec, .out] s
  unfold State.cutoverDone
  repeat' first
    | (extract_lets +onlyGivenNames x; first | (refine Moves.cut (s := x) ?_ ?_; (on_goal 2 => intro hx; clear_value x); (on_goal 1 => subst x)) | subst x)
    | with_reducible assumption
    | (show Field.within _ _ = true; decide)
    | with_reducible apply State.modSec_moves
    | with_reducible apply State.writeRecord_moves
    | with_reducible apply State.event_moves
    | with_reducible apply State.complete_moves
    | with_reducible apply Moves.each
    | (intro _ _ _)
    | split) hfl)

theorem State.resumeRows_moves {fl : List Field} {r₀ : State} {s : State}  (hm : Moves fl r₀ s)
    (hfl : Field.within [.canopy] fl = true) : Moves fl r₀ (State.resumeRows s) :=
  hm.trans (Moves.mono (a := [.canopy]) (by
  have h := Moves.refl [.canopy] s
  unfold State.resumeRows
  repeat' first
    | with_reducible assumption
    | (show Field.within _ _ = true; decide)
    | with_reducible apply Moves.ite
    | split
    | (refine Moves.of_lit ?_ ?_ ?_)
    | (intro f hf; cases f <;> first | exact hf.elim (by decide) | rfl)
    | (exact fun c => ⟨c.parts, c.rings, c.counters, c.calls, c.customers, c.tiles, c.boughs, c.calSave, c.links, c.mem⟩)) hfl)

theorem State.drainDone_moves {fl : List Field} {r₀ : State} {s : State} {d : Drain} (hm : Moves fl r₀ s)
    (hfl : Field.within (.free :: everyPiece) fl = true) : Moves fl r₀ (State.drainDone s d) :=
  hm.trans (Moves.mono (a := (.free :: everyPiece)) (by
  have h := Moves.refl (.free :: everyPiece) s
  unfold State.drainDone
  repeat' first
    | (extract_lets +onlyGivenNames x; first | (refine Moves.cut (s := x) ?_ ?_; (on_goal 2 => intro hx; clear_value x); (on_goal 1 => subst x)) | subst x)
    | with_reducible assumption
    | (show Field.within _ _ = true; decide)
    | with_reducible apply State.withdraw_moves
    | with_reducible apply State.levelMax_moves
    | with_reducible apply State.count_moves
    | with_reducible apply State.tilesNext_moves
    | with_reducible apply State.resumeRows_moves
    | with_reducible apply State.afterDrain_moves
    | with_reducible apply State.saveScope_moves
    | split
    | (refine Moves.of_lit ?_ ?_ ?_)
    | (intro f hf; cases f <;> first | exact hf.elim (by decide) | rfl)
    | (exact fun c => ⟨c.parts, c.rings, c.counters, c.calls, c.customers, c.tiles, c.boughs, c.calSave, c.links, c.mem⟩)) hfl)

end Sys2Proof.Machine
end

