-- ==== Sys2Proof/Laws/FaultsMoves.lean ====
section
/-! SUPPORT. What each operation of Machine/Faults.lean may change, and that it keeps the canonical form. -/

set_option Elab.async false

namespace Sys2Proof.Machine

set_option linter.unusedTactic false
set_option linter.unreachableTactic false

theorem State.modSlate_moves {fl : List Field} {r₀ : State} {s : State} {u : Sys2Proof.SlateUnit} {f : Slate → Slate} (hm : Moves fl r₀ s)
    (hfl : Field.within [.faults] fl = true) : Moves fl r₀ (State.modSlate s u f) :=
  hm.trans (Moves.mono (a := [.faults]) (by
  have h := Moves.refl [.faults] s
  unfold State.modSlate
  repeat' first
    | with_reducible assumption
    | (show Field.within _ _ = true; decide)
    | with_reducible apply State.modFaults_moves
    | split) hfl)

theorem State.suspectUnit_moves {fl : List Field} {r₀ : State} {s : State} {u : Sys2Proof.SlateUnit} (hm : Moves fl r₀ s)
    (hfl : Field.within [.rings, .counters, .steps, .prods, .links, .faults, .sec, .out] fl = true) : Moves fl r₀ (State.suspectUnit s u) :=
  hm.trans (Moves.mono (a := [.rings, .counters, .steps, .prods, .links, .faults, .sec, .out]) (by
  have h := Moves.refl [.rings, .counters, .steps, .prods, .links, .faults, .sec, .out] s
  unfold State.suspectUnit
  repeat' first
    | (extract_lets +onlyGivenNames x; first | (refine Moves.cut (s := x) ?_ ?_; (on_goal 2 => intro hx; clear_value x); (on_goal 1 => subst x)) | subst x)
    | with_reducible assumption
    | (show Field.within _ _ = true; decide)
    | with_reducible apply State.suspectUses_moves
    | with_reducible apply Moves.each
    | (intro _ _ _)
    | split) hfl)

theorem State.withdrawBough_moves {fl : List Field} {r₀ : State} {s : State} {b : ℕ} {i : FaultInfo} (hm : Moves fl r₀ s)
    (hfl : Field.within [.rings, .counters, .tiles, .boughs, .prods, .weights, .faults, .sec, .out] fl = true) : Moves fl r₀ (State.withdrawBough s b i) :=
  hm.trans (Moves.mono (a := [.rings, .counters, .tiles, .boughs, .prods, .weights, .faults, .sec, .out]) (by
  have h := Moves.refl [.rings, .counters, .tiles, .boughs, .prods, .weights, .faults, .sec, .out] s
  unfold State.withdrawBough
  repeat' first
    | (extract_lets +onlyGivenNames x; first | (refine Moves.cut (s := x) ?_ ?_; (on_goal 2 => intro hx; clear_value x); (on_goal 1 => subst x)) | subst x)
    | with_reducible assumption
    | (show Field.within _ _ = true; decide)
    | with_reducible apply State.fault_moves
    | with_reducible apply State.modBough_moves
    | with_reducible apply State.modWeights_moves
    | with_reducible apply State.event_moves
    | with_reducible apply Moves.ite
    | split
    | (refine Moves.of_lit ?_ ?_ ?_)
    | (intro f hf; cases f <;> first | exact hf.elim (by decide) | rfl)
    | (exact fun c => ⟨c.parts, c.rings, c.counters, c.calls, c.customers, by dsimp only; first | exact c.tiles | exact Tbl.wf_set c.tiles | exact Tbl.wf_update c.tiles | exact Tbl.wf_mapVals (Tbl.rising_of_wf c.tiles) | exact Tbl.wf_mapVals (Tbl.rising_map (fun p => by (try dsimp only); (repeat' split) <;> rfl) (Tbl.rising_of_wf c.tiles)) | (split <;> first | exact c.tiles | exact Tbl.wf_set c.tiles | exact Tbl.wf_mapVals (Tbl.rising_of_wf c.tiles)), c.boughs, c.calSave, c.links, c.mem⟩)) hfl)

theorem State.withdrawPart_moves {fl : List Field} {r₀ : State} {s : State} {u : Sys2Proof.SlateUnit} {i : FaultInfo} (hm : Moves fl r₀ s)
    (hfl : Field.within [.rings, .counters, .faults, .sec, .out] fl = true) : Moves fl r₀ (State.withdrawPart s u i) :=
  hm.trans (Moves.mono (a := [.rings, .counters, .faults, .sec, .out]) (by
  have h := Moves.refl [.rings, .counters, .faults, .sec, .out] s
  unfold State.withdrawPart
  repeat' first
    | (extract_lets +onlyGivenNames x; first | (refine Moves.cut (s := x) ?_ ?_; (on_goal 2 => intro hx; clear_value x); (on_goal 1 => subst x)) | subst x)
    | with_reducible assumption
    | (show Field.within _ _ = true; decide)
    | with_reducible apply State.fault_moves
    | with_reducible apply State.event_moves
    | with_reducible apply State.modFaults_moves
    | split) hfl)

theorem State.resign_moves {fl : List Field} {r₀ : State} {s : State} {u : Sys2Proof.SlateUnit} {i : FaultInfo} (hm : Moves fl r₀ s)
    (hfl : Field.within everyPiece fl = true) : Moves fl r₀ (State.resign s u i) :=
  hm.trans (Moves.mono (a := everyPiece) (by
  have h := Moves.refl everyPiece s
  unfold State.resign
  repeat' first
    | (extract_lets +onlyGivenNames x; first | (refine Moves.cut (s := x) ?_ ?_; (on_goal 2 => intro hx; clear_value x); (on_goal 1 => subst x)) | subst x)
    | with_reducible assumption
    | (show Field.within _ _ = true; decide)
    | with_reducible apply State.fault_moves
    | with_reducible apply State.stepFails_moves
    | with_reducible apply State.event_moves
    | with_reducible apply State.modFaults_moves
    | with_reducible apply State.source_moves
    | with_reducible apply Moves.ite
    | split) hfl)

theorem State.unitFails_moves {fl : List Field} {r₀ : State} {s : State} {u : Sys2Proof.SlateUnit} (hm : Moves fl r₀ s)
    (hfl : Field.within everyPiece fl = true) : Moves fl r₀ (State.unitFails s u) :=
  hm.trans (Moves.mono (a := everyPiece) (by
  have h := Moves.refl everyPiece s
  unfold State.unitFails
  repeat' first
    | (extract_lets +onlyGivenNames x; first | (refine Moves.cut (s := x) ?_ ?_; (on_goal 2 => intro hx; clear_value x); (on_goal 1 => subst x)) | subst x)
    | with_reducible assumption
    | (show Field.within _ _ = true; decide)
    | with_reducible apply State.modDaily_moves
    | with_reducible apply State.count_moves
    | with_reducible apply State.withdrawBough_moves
    | with_reducible apply State.withdrawPart_moves
    | with_reducible apply State.resign_moves
    | with_reducible apply Moves.ite
    | split) hfl)

theorem State.slateFails_moves {fl : List Field} {r₀ : State} {s : State} {u : Sys2Proof.SlateUnit} (hm : Moves fl r₀ s)
    (hfl : Field.within everyPiece fl = true) : Moves fl r₀ (State.slateFails s u) :=
  hm.trans (Moves.mono (a := everyPiece) (by
  have h := Moves.refl everyPiece s
  unfold State.slateFails
  repeat' first
    | (extract_lets +onlyGivenNames x; first | (refine Moves.cut (s := x) ?_ ?_; (on_goal 2 => intro hx; clear_value x); (on_goal 1 => subst x)) | subst x)
    | with_reducible assumption
    | (show Field.within _ _ = true; decide)
    | with_reducible apply State.count_moves
    | with_reducible apply State.modSlate_moves
    | with_reducible apply State.suspectUnit_moves
    | with_reducible apply State.boughResetDone_moves
    | with_reducible apply State.settle_moves
    | with_reducible apply State.unitFails_moves
    | with_reducible apply Moves.ite
    | split) hfl)

theorem State.boughReturns_moves {fl : List Field} {r₀ : State} {s : State} {b : ℕ} (hm : Moves fl r₀ s)
    (hfl : Field.within [.rings, .counters, .jobs, .tiles, .boughs, .weights, .sec, .out] fl = true) : Moves fl r₀ (State.boughReturns s b) :=
  hm.trans (Moves.mono (a := [.rings, .counters, .jobs, .tiles, .boughs, .weights, .sec, .out]) (by
  have h := Moves.refl [.rings, .counters, .jobs, .tiles, .boughs, .weights, .sec, .out] s
  unfold State.boughReturns
  repeat' first
    | (extract_lets +onlyGivenNames x; first | (refine Moves.cut (s := x) ?_ ?_; (on_goal 2 => intro hx; clear_value x); (on_goal 1 => subst x)) | subst x)
    | with_reducible assumption
    | (show Field.within _ _ = true; decide)
    | with_reducible apply State.event_moves
    | with_reducible apply State.modBough_moves
    | with_reducible apply State.modWeights_moves
    | with_reducible apply State.addTake_moves
    | with_reducible apply State.boughResetDone_moves
    | with_reducible apply Moves.ite
    | split) hfl)

theorem State.slatePasses_moves {fl : List Field} {r₀ : State} {s : State} {u : Sys2Proof.SlateUnit} (hm : Moves fl r₀ s)
    (hfl : Field.within [.boot, .regs, .rings, .counters, .jobs, .steps, .tiles, .boughs, .prods, .nextOrder, .weights, .links, .faults, .power, .sec, .out] fl = true) : Moves fl r₀ (State.slatePasses s u) :=
  hm.trans (Moves.mono (a := [.boot, .regs, .rings, .counters, .jobs, .steps, .tiles, .boughs, .prods, .nextOrder, .weights, .links, .faults, .power, .sec, .out]) (by
  have h := Moves.refl [.boot, .regs, .rings, .counters, .jobs, .steps, .tiles, .boughs, .prods, .nextOrder, .weights, .links, .faults, .power, .sec, .out] s
  unfold State.slatePasses
  repeat' first
    | (extract_lets +onlyGivenNames x; first | (refine Moves.cut (s := x) ?_ ?_; (on_goal 2 => intro hx; clear_value x); (on_goal 1 => subst x)) | subst x)
    | with_reducible assumption
    | (show Field.within _ _ = true; decide)
    | with_reducible apply State.modSlate_moves
    | with_reducible apply State.fault_moves
    | with_reducible apply State.modDaily_moves
    | with_reducible apply State.count_moves
    | with_reducible apply State.settle_moves
    | with_reducible apply State.boughReturns_moves
    | with_reducible apply Moves.ite
    | split) hfl)

theorem State.slateDone_moves {fl : List Field} {r₀ : State} {s : State} {u : Sys2Proof.SlateUnit} {digest : BitVec 64} (hm : Moves fl r₀ s)
    (hfl : Field.within everyPiece fl = true) : Moves fl r₀ (State.slateDone s u digest) :=
  hm.trans (Moves.mono (a := everyPiece) (by
  have h := Moves.refl everyPiece s
  unfold State.slateDone
  repeat' first
    | (extract_lets +onlyGivenNames x; first | (refine Moves.cut (s := x) ?_ ?_; (on_goal 2 => intro hx; clear_value x); (on_goal 1 => subst x)) | subst x)
    | with_reducible assumption
    | (show Field.within _ _ = true; decide)
    | with_reducible apply State.modDaily_moves
    | with_reducible apply State.count_moves
    | with_reducible apply State.slateStep_moves
    | with_reducible apply State.slatePasses_moves
    | with_reducible apply State.slateFails_moves
    | with_reducible apply Moves.ite
    | split) hfl)

theorem State.nextRepeat_moves {fl : List Field} {r₀ : State} {s : State} {t : ℕ} (hm : Moves fl r₀ s)
    (hfl : Field.within [.tiles, .prods] fl = true) : Moves fl r₀ (State.nextRepeat s t) :=
  hm.trans (Moves.mono (a := [.tiles, .prods]) (by
  have h := Moves.refl [.tiles, .prods] s
  unfold State.nextRepeat
  repeat' first
    | (extract_lets +onlyGivenNames x; first | (refine Moves.cut (s := x) ?_ ?_; (on_goal 2 => intro hx; clear_value x); (on_goal 1 => subst x)) | subst x)
    | with_reducible assumption
    | (show Field.within _ _ = true; decide)
    | with_reducible apply State.modTile_moves
    | with_reducible apply State.dropIfDone_moves
    | with_reducible apply Moves.each
    | (intro _ _ _)
    | split) hfl)

theorem State.classifyRepeat_moves {fl : List Field} {r₀ : State} {s : State} {t : ℕ} {r : Repeat} {p : Option Prod} {bad : List ℕ × ℤ} (hm : Moves fl r₀ s)
    (hfl : Field.within [.rings, .counters, .steps, .tiles, .boughs, .prods, .nextOrder, .weights, .links, .faults, .power, .sec, .out] fl = true) : Moves fl r₀ (State.classifyRepeat s t r p bad) :=
  hm.trans (Moves.mono (a := [.rings, .counters, .steps, .tiles, .boughs, .prods, .nextOrder, .weights, .links, .faults, .power, .sec, .out]) (by
  have h := Moves.refl [.rings, .counters, .steps, .tiles, .boughs, .prods, .nextOrder, .weights, .links, .faults, .power, .sec, .out] s
  unfold State.classifyRepeat
  repeat' first
    | (extract_lets +onlyGivenNames x; first | (refine Moves.cut (s := x) ?_ ?_; (on_goal 2 => intro hx; clear_value x); (on_goal 1 => subst x)) | subst x)
    | with_reducible assumption
    | (show Field.within _ _ = true; decide)
    | with_reducible apply State.modDaily_moves
    | with_reducible apply State.count_moves
    | with_reducible apply State.tryVerified_moves
    | with_reducible apply State.modDeck_moves
    | with_reducible apply State.fault_moves
    | with_reducible apply State.columnFaults_moves
    | with_reducible apply State.requestRun_moves
    | with_reducible apply State.suspectProd_moves
    | with_reducible apply Moves.each
    | with_reducible apply Moves.ite
    | (intro _ _ _)
    | split) hfl)

theorem State.repeatDone_moves {fl : List Field} {r₀ : State} {s : State} {t : ℕ} {r : Repeat} {phases : List (List ℤ)} (hm : Moves fl r₀ s)
    (hfl : Field.within [.boot, .regs, .rings, .counters, .jobs, .steps, .tiles, .boughs, .prods, .nextOrder, .weights, .links, .faults, .power, .sec, .out] fl = true) : Moves fl r₀ (State.repeatDone s t r phases) :=
  hm.trans (Moves.mono (a := [.boot, .regs, .rings, .counters, .jobs, .steps, .tiles, .boughs, .prods, .nextOrder, .weights, .links, .faults, .power, .sec, .out]) (by
  have h := Moves.refl [.boot, .regs, .rings, .counters, .jobs, .steps, .tiles, .boughs, .prods, .nextOrder, .weights, .links, .faults, .power, .sec, .out] s
  unfold State.repeatDone
  repeat' first
    | (extract_lets +onlyGivenNames x; first | (refine Moves.cut (s := x) ?_ ?_; (on_goal 2 => intro hx; clear_value x); (on_goal 1 => subst x)) | subst x)
    | with_reducible assumption
    | (show Field.within _ _ = true; decide)
    | with_reducible apply State.count_moves
    | with_reducible apply State.countClips_moves
    | with_reducible apply State.charge_moves
    | with_reducible apply State.modTile_moves
    | with_reducible apply State.settle_moves
    | with_reducible apply State.tilesNext_moves
    | with_reducible apply State.nextRepeat_moves
    | with_reducible apply State.classifyRepeat_moves
    | with_reducible apply State.dropIfDone_moves
    | with_reducible apply Moves.each
    | (intro _ _ _)
    | split) hfl)

theorem State.dailyRecord_moves {fl : List Field} {r₀ : State} {s : State}  (hm : Moves fl r₀ s)
    (hfl : Field.within [.rings, .counters, .faults, .sec, .out] fl = true) : Moves fl r₀ (State.dailyRecord s) :=
  hm.trans (Moves.mono (a := [.rings, .counters, .faults, .sec, .out]) (by
  have h := Moves.refl [.rings, .counters, .faults, .sec, .out] s
  unfold State.dailyRecord
  repeat' first
    | (extract_lets +onlyGivenNames x; first | (refine Moves.cut (s := x) ?_ ?_; (on_goal 2 => intro hx; clear_value x); (on_goal 1 => subst x)) | subst x)
    | with_reducible assumption
    | (show Field.within _ _ = true; decide)
    | with_reducible apply State.event_moves
    | with_reducible apply State.modFaults_moves
    | with_reducible apply Moves.ite
    | split) hfl)

end Sys2Proof.Machine
end

