-- ==== Sys2Proof/Laws/HousekeepingMoves.lean ====
section
/-! SUPPORT. What each operation of Machine/Housekeeping.lean may change, and that it keeps the canonical form. -/

set_option Elab.async false

namespace Sys2Proof.Machine

set_option linter.unusedTactic false
set_option linter.unreachableTactic false

theorem State.hotAlert_moves {fl : List Field} {r₀ : State} {s : State}  (hm : Moves fl r₀ s)
    (hfl : Field.within [.pins, .power] fl = true) : Moves fl r₀ (State.hotAlert s) :=
  hm.trans (Moves.mono (a := [.pins, .power]) (by
  have h := Moves.refl [.pins, .power] s
  unfold State.hotAlert
  repeat' first
    | (extract_lets +onlyGivenNames x; first | (refine Moves.cut (s := x) ?_ ?_; (on_goal 2 => intro hx; clear_value x); (on_goal 1 => subst x)) | subst x)
    | with_reducible assumption
    | (show Field.within _ _ = true; decide)
    | with_reducible apply State.modPins_moves
    | with_reducible apply State.modPower_moves
    | split) hfl)

theorem State.thermalSample_moves {fl : List Field} {r₀ : State} {s : State} {c : ℕ} {v : ℤ} {valid : Bool} (hm : Moves fl r₀ s)
    (hfl : Field.within [.pins, .hk, .power] fl = true) : Moves fl r₀ (State.thermalSample s c v valid) :=
  hm.trans (Moves.mono (a := [.pins, .hk, .power]) (by
  have h := Moves.refl [.pins, .hk, .power] s
  unfold State.thermalSample
  repeat' first
    | (extract_lets +onlyGivenNames x; first | (refine Moves.cut (s := x) ?_ ?_; (on_goal 2 => intro hx; clear_value x); (on_goal 1 => subst x)) | subst x)
    | with_reducible assumption
    | (show Field.within _ _ = true; decide)
    | with_reducible apply State.modHk_moves
    | with_reducible apply State.hotAlert_moves
    | with_reducible apply Moves.ite
    | split) hfl)

theorem State.thermalTrip_moves {fl : List Field} {r₀ : State} {s : State}  (hm : Moves fl r₀ s)
    (hfl : Field.within everyPiece fl = true) : Moves fl r₀ (State.thermalTrip s) :=
  hm.trans (Moves.mono (a := everyPiece) (by
  have h := Moves.refl everyPiece s
  unfold State.thermalTrip
  repeat' first
    | (extract_lets +onlyGivenNames x; first | (refine Moves.cut (s := x) ?_ ?_; (on_goal 2 => intro hx; clear_value x); (on_goal 1 => subst x)) | subst x)
    | with_reducible assumption
    | (show Field.within _ _ = true; decide)
    | with_reducible apply State.modBoot_moves
    | with_reducible apply State.modPins_moves
    | with_reducible apply State.resetArrives_moves
    | split) hfl)

theorem State.fetchBegins_moves {fl : List Field} {r₀ : State} {s : State}  (hm : Moves fl r₀ s)
    (hfl : Field.within [.boot, .links] fl = true) : Moves fl r₀ (State.fetchBegins s) :=
  hm.trans (Moves.mono (a := [.boot, .links]) (by
  have h := Moves.refl [.boot, .links] s
  unfold State.fetchBegins
  repeat' first
    | with_reducible assumption
    | (show Field.within _ _ = true; decide)
    | with_reducible apply State.modBoot_moves
    | with_reducible apply State.trainPort_moves
    | split) hfl)

theorem State.floorSlower_moves {fl : List Field} {r₀ : State} {s : State} {c : ℕ} {v : ℤ} (hm : Moves fl r₀ s)
    (hfl : Field.within [.rings, .counters, .power, .sec, .out] fl = true) : Moves fl r₀ (State.floorSlower s c v) :=
  hm.trans (Moves.mono (a := [.rings, .counters, .power, .sec, .out]) (by
  have h := Moves.refl [.rings, .counters, .power, .sec, .out] s
  unfold State.floorSlower
  repeat' first
    | (extract_lets +onlyGivenNames x; first | (refine Moves.cut (s := x) ?_ ?_; (on_goal 2 => intro hx; clear_value x); (on_goal 1 => subst x)) | subst x)
    | with_reducible assumption
    | (show Field.within _ _ = true; decide)
    | with_reducible apply State.modPower_moves
    | with_reducible apply State.event_moves
    | with_reducible apply Moves.ite
    | split) hfl)

theorem State.floorFaster_moves {fl : List Field} {r₀ : State} {s : State}  (hm : Moves fl r₀ s)
    (hfl : Field.within [.rings, .counters, .power, .sec, .out] fl = true) : Moves fl r₀ (State.floorFaster s) :=
  hm.trans (Moves.mono (a := [.rings, .counters, .power, .sec, .out]) (by
  have h := Moves.refl [.rings, .counters, .power, .sec, .out] s
  unfold State.floorFaster
  repeat' first
    | (extract_lets +onlyGivenNames x; first | (refine Moves.cut (s := x) ?_ ?_; (on_goal 2 => intro hx; clear_value x); (on_goal 1 => subst x)) | subst x)
    | with_reducible assumption
    | (show Field.within _ _ = true; decide)
    | with_reducible apply State.modPower_moves
    | with_reducible apply State.event_moves
    | with_reducible apply Moves.ite
    | split) hfl)

theorem State.posnDone_moves {fl : List Field} {r₀ : State} {s : State} {p : ℕ} (hm : Moves fl r₀ s)
    (hfl : Field.within [.boot, .regs, .rings, .counters, .jobs, .links, .sec, .out] fl = true) : Moves fl r₀ (State.posnDone s p) :=
  hm.trans (Moves.mono (a := [.boot, .regs, .rings, .counters, .jobs, .links, .sec, .out]) (by
  have h := Moves.refl [.boot, .regs, .rings, .counters, .jobs, .links, .sec, .out] s
  unfold State.posnDone
  repeat' first
    | (extract_lets +onlyGivenNames x; first | (refine Moves.cut (s := x) ?_ ?_; (on_goal 2 => intro hx; clear_value x); (on_goal 1 => subst x)) | subst x)
    | with_reducible assumption
    | (show Field.within _ _ = true; decide)
    | with_reducible apply State.modRegs_moves
    | with_reducible apply State.stepFails_moves
    | with_reducible apply State.fetchBegins_moves
    | with_reducible apply State.stepEnds_moves
    | with_reducible apply State.setReady_moves
    | with_reducible apply Moves.ite
    | split) hfl)

theorem State.roundEnds_moves {fl : List Field} {r₀ : State} {s : State}  (hm : Moves fl r₀ s)
    (hfl : Field.within [.pins, .regs, .rings, .counters, .hk, .power, .sec, .out] fl = true) : Moves fl r₀ (State.roundEnds s) :=
  hm.trans (Moves.mono (a := [.pins, .regs, .rings, .counters, .hk, .power, .sec, .out]) (by
  have h := Moves.refl [.pins, .regs, .rings, .counters, .hk, .power, .sec, .out] s
  unfold State.roundEnds
  repeat' first
    | (extract_lets +onlyGivenNames x; first | (refine Moves.cut (s := x) ?_ ?_; (on_goal 2 => intro hx; clear_value x); (on_goal 1 => subst x)) | subst x)
    | with_reducible assumption
    | (show Field.within _ _ = true; decide)
    | with_reducible apply State.floorSlower_moves
    | with_reducible apply State.floorFaster_moves
    | with_reducible apply State.modHk_moves
    | with_reducible apply State.count_moves
    | with_reducible apply State.startLevel_moves
    | with_reducible apply State.hotAlert_moves
    | with_reducible apply Moves.ite
    | split) hfl)

theorem State.tripSample_moves {fl : List Field} {r₀ : State} {s : State} {v : ℤ} {valid : Bool} (hm : Moves fl r₀ s)
    (hfl : Field.within [.pins, .boot] fl = true) : Moves fl r₀ (State.tripSample s v valid) :=
  hm.trans (Moves.mono (a := [.pins, .boot]) (by
  have h := Moves.refl [.pins, .boot] s
  unfold State.tripSample
  repeat' first
    | (extract_lets +onlyGivenNames x; first | (refine Moves.cut (s := x) ?_ ?_; (on_goal 2 => intro hx; clear_value x); (on_goal 1 => subst x)) | subst x)
    | with_reducible assumption
    | (show Field.within _ _ = true; decide)
    | with_reducible apply State.modPins_moves
    | with_reducible apply State.modBoot_moves
    | with_reducible apply Moves.ite
    | split) hfl)

theorem State.hkSlot_moves {fl : List Field} {r₀ : State} {s : State}  (hm : Moves fl r₀ s)
    (hfl : Field.within [.hk] fl = true) : Moves fl r₀ (State.hkSlot s) :=
  hm.trans (Moves.mono (a := [.hk]) (by
  have h := Moves.refl [.hk] s
  unfold State.hkSlot
  repeat' first
    | with_reducible assumption
    | (show Field.within _ _ = true; decide)
    | with_reducible apply State.modHk_moves
    | with_reducible apply Moves.ite
    | split) hfl)

theorem State.boughSample_moves {fl : List Field} {r₀ : State} {s : State} {b : ℕ} {v : ℤ} {valid : Bool} (hm : Moves fl r₀ s)
    (hfl : Field.within [.counters, .tiles, .boughs, .faults] fl = true) : Moves fl r₀ (State.boughSample s b v valid) :=
  hm.trans (Moves.mono (a := [.counters, .tiles, .boughs, .faults]) (by
  have h := Moves.refl [.counters, .tiles, .boughs, .faults] s
  unfold State.boughSample
  repeat' first
    | (extract_lets +onlyGivenNames x; first | (refine Moves.cut (s := x) ?_ ?_; (on_goal 2 => intro hx; clear_value x); (on_goal 1 => subst x)) | subst x)
    | with_reducible assumption
    | (show Field.within _ _ = true; decide)
    | with_reducible apply State.modBough_moves
    | with_reducible apply State.modFaults_moves
    | with_reducible apply State.driftTargets_moves
    | with_reducible apply State.requestRun_moves
    | with_reducible apply State.count_moves
    | with_reducible apply Moves.ite
    | split) hfl)

theorem State.sampleDone_moves {fl : List Field} {r₀ : State} {s : State} {c : Conv} {raw : ℤ} (hm : Moves fl r₀ s)
    (hfl : Field.within everyPiece fl = true) : Moves fl r₀ (State.sampleDone s c raw) :=
  hm.trans (Moves.mono (a := everyPiece) (by
  have h := Moves.refl everyPiece s
  unfold State.sampleDone
  repeat' first
    | (extract_lets +onlyGivenNames x; first | (refine Moves.cut (s := x) ?_ ?_; (on_goal 2 => intro hx; clear_value x); (on_goal 1 => subst x)) | subst x)
    | with_reducible assumption
    | (show Field.within _ _ = true; decide)
    | with_reducible apply State.modHk_moves
    | with_reducible apply State.count_moves
    | with_reducible apply State.completeNone_moves
    | with_reducible apply State.tripSample_moves
    | with_reducible apply State.boughSample_moves
    | with_reducible apply State.thermalSample_moves
    | with_reducible apply State.roundEnds_moves
    | with_reducible apply State.thermalTrip_moves
    | with_reducible apply Moves.ite
    | split) hfl)

end Sys2Proof.Machine
end

