-- ==== Sys2Proof/Laws/MemoryMoves.lean ====
section
/-! SUPPORT. What each operation of Machine/Memory.lean may change, and that it keeps the canonical form. -/

set_option Elab.async false

namespace Sys2Proof.Machine

set_option linter.unusedTactic false
set_option linter.unreachableTactic false

theorem State.rehashDone_moves {fl : List Field} {r₀ : State} {s : State} {j : MemJob} {units : ℕ} (hm : Moves fl r₀ s)
    (hfl : Field.within [.rings, .counters, .jobs, .mem, .sec, .free, .out] fl = true) : Moves fl r₀ (State.rehashDone s j units) :=
  hm.trans (Moves.mono (a := [.rings, .counters, .jobs, .mem, .sec, .free, .out]) (by
  have h := Moves.refl [.rings, .counters, .jobs, .mem, .sec, .free, .out] s
  unfold State.rehashDone
  repeat' first
    | (extract_lets +onlyGivenNames x; first | (refine Moves.cut (s := x) ?_ ?_; (on_goal 2 => intro hx; clear_value x); (on_goal 1 => subst x)) | subst x)
    | with_reducible assumption
    | (show Field.within _ _ = true; decide)
    | with_reducible apply State.count_moves
    | with_reducible apply State.event_moves
    | with_reducible apply State.complete_moves
    | with_reducible apply State.drawSeeds_moves
    | with_reducible apply Moves.modMem
    | split
    | (intro w; first | with_reducible exact Mem.wf_runs w | exact w | exact Mem.wf_write w | exact Mem.wf_clear w | exact Mem.wf_foldl (fun _ _ h => Mem.wf_write h) _ w)) hfl)

theorem State.fillDone_moves {fl : List Field} {r₀ : State} {s : State} {j : MemJob} (hm : Moves fl r₀ s)
    (hfl : Field.within [.rings, .counters, .jobs, .mem, .out] fl = true) : Moves fl r₀ (State.fillDone s j) :=
  hm.trans (Moves.mono (a := [.rings, .counters, .jobs, .mem, .out]) (by
  have h := Moves.refl [.rings, .counters, .jobs, .mem, .out] s
  unfold State.fillDone
  repeat' first
    | with_reducible assumption
    | (show Field.within _ _ = true; decide)
    | with_reducible apply State.complete_moves
    | with_reducible apply State.clearBlocks_moves
    | with_reducible apply Moves.modMem
    | split
    | (intro w; first | with_reducible exact Mem.wf_runs w | exact w | exact Mem.wf_write w | exact Mem.wf_clear w | exact Mem.wf_foldl (fun _ _ h => Mem.wf_write h) _ w)) hfl)

theorem State.flushMerges_moves {fl : List Field} {r₀ : State} {s : State} {a : ℕ} {n : ℕ} (hm : Moves fl r₀ s)
    (hfl : Field.within [.counters, .mem] fl = true) : Moves fl r₀ (State.flushMerges s a n) :=
  hm.trans (Moves.mono (a := [.counters, .mem]) (by
  have h := Moves.refl [.counters, .mem] s
  unfold State.flushMerges
  repeat' first
    | (extract_lets +onlyGivenNames x; first | (refine Moves.cut (s := x) ?_ ?_; (on_goal 2 => intro hx; clear_value x); (on_goal 1 => subst x)) | subst x)
    | with_reducible assumption
    | (show Field.within _ _ = true; decide)
    | with_reducible apply State.mergeLeave_moves
    | with_reducible apply Moves.each
    | with_reducible apply Moves.modMem
    | (intro _ _ _)
    | split
    | (intro w; first | with_reducible exact Mem.wf_runs w | exact w | exact Mem.wf_write w | exact Mem.wf_clear w | exact Mem.wf_foldl (fun _ _ h => Mem.wf_write h) _ w)) hfl)

theorem wf_copyBytes {m : Mem} {a b n : ℕ} (h : m.wf = true) : (State.copyBytes m a b n).wf = true :=
  Mem.wf_foldl (fun _ _ h => Mem.wf_write h) _ (Mem.wf_clear h)

theorem State.movePage_moves {fl : List Field} {r₀ : State} {s t : State} {c key : ℕ} (hm : Moves fl r₀ s)
    (hfl : Field.within [.rings, .counters, .calls, .mem, .links, .sec, .out] fl = true) (e : State.movePage s c key = some t) : Moves fl r₀ t := by
  refine hm.trans (Moves.mono (a := [.rings, .counters, .calls, .mem, .links, .sec, .out]) ?_ hfl)
  have h := Moves.refl [.rings, .counters, .calls, .mem, .links, .sec, .out] s
  unfold State.movePage at e
  dsimp only at e
  split at e
  · exact (Option.some.inj e) ▸ h
  · rw [Option.map_eq_some_iff] at e
    obtain ⟨f, -, rfl⟩ := e
    refine State.watchFrames_moves (State.modCall_moves (Moves.modMem (State.flushMerges_moves h (by decide)) ?_ (by decide)) (by decide)) (by decide)
    exact fun w => wf_copyBytes w

theorem State.movePages_moves {fl : List Field} {r₀ : State} {c : ℕ} {ks : List ℕ} : ∀ {s t : State}, Moves fl r₀ s →
    Field.within [.rings, .counters, .calls, .mem, .links, .sec, .out] fl = true → State.movePages c ks s = some t → Moves fl r₀ t := by
  induction ks with
  | nil => exact fun hm _ e => (Option.some.inj e) ▸ hm
  | cons k rest ih =>
    intro s t hm hfl e
    unfold State.movePages at e
    rw [Option.bind_eq_some_iff] at e
    obtain ⟨x, e1, e2⟩ := e
    exact ih (State.movePage_moves hm hfl e1) hfl e2

theorem State.moveGroup_moves {fl : List Field} {r₀ : State} {s : State} {c layer g : ℕ} (hm : Moves fl r₀ s)
    (hfl : Field.within [.rings, .counters, .calls, .mem, .links, .sec, .out] fl = true) : Moves fl r₀ (State.moveGroup s c layer g) := by
  refine hm.trans (Moves.mono (a := [.rings, .counters, .calls, .mem, .links, .sec, .out]) ?_ hfl)
  have h := Moves.refl [.rings, .counters, .calls, .mem, .links, .sec, .out] s
  unfold State.moveGroup
  split
  · exact h
  · rename_i t e
    exact State.modCall_moves (State.movePages_moves h (by decide) e) (by decide)

theorem State.bucketLeak_moves {fl : List Field} {r₀ : State} {s : State} {region : ℕ} (hm : Moves fl r₀ s)
    (hfl : Field.within [.mem] fl = true) : Moves fl r₀ (State.bucketLeak s region) :=
  hm.trans (Moves.mono (a := [.mem]) (by
  have h := Moves.refl [.mem] s
  unfold State.bucketLeak
  repeat' first
    | with_reducible assumption
    | (show Field.within _ _ = true; decide)
    | with_reducible apply Moves.modMem
    | split
    | (intro w; first | with_reducible exact Mem.wf_runs w | exact w | exact Mem.wf_write w | exact Mem.wf_clear w | exact Mem.wf_foldl (fun _ _ h => Mem.wf_write h) _ w)) hfl)

theorem State.closeWindow_moves {fl : List Field} {r₀ : State} {s : State} {stack : ℕ} (hm : Moves fl r₀ s)
    (hfl : Field.within [.rings, .counters, .mem, .sec, .out] fl = true) : Moves fl r₀ (State.closeWindow s stack) :=
  hm.trans (Moves.mono (a := [.rings, .counters, .mem, .sec, .out]) (by
  have h := Moves.refl [.rings, .counters, .mem, .sec, .out] s
  unfold State.closeWindow
  repeat' first
    | (extract_lets +onlyGivenNames x; first | (refine Moves.cut (s := x) ?_ ?_; (on_goal 2 => intro hx; clear_value x); (on_goal 1 => subst x)) | subst x)
    | with_reducible assumption
    | (show Field.within _ _ = true; decide)
    | with_reducible apply State.event_moves
    | with_reducible apply Moves.modMem
    | with_reducible apply Moves.ite
    | split
    | (intro w; first | with_reducible exact Mem.wf_runs w | exact w | exact Mem.wf_write w | exact Mem.wf_clear w | exact Mem.wf_foldl (fun _ _ h => Mem.wf_write h) _ w)) hfl)

theorem State.mergeEvict_moves {fl : List Field} {r₀ : State} {s : State} {stack : ℕ} {channel : ℕ} {e : Merge} {f : Sys2Proof.Flips} (hm : Moves fl r₀ s)
    (hfl : Field.within [.boot, .regs, .parts, .rings, .counters, .jobs, .calls, .steps, .batch, .grafts, .tiles, .boughs, .prods, .nextOrder, .sums, .handoffs, .acts, .xferWaits, .canopy, .backs, .latches, .attnWaits, .servedKv, .servedAttn, .weights, .mem, .links, .faults, .power, .sec, .out] fl = true) : Moves fl r₀ (State.mergeEvict s stack channel e f) :=
  hm.trans (Moves.mono (a := [.boot, .regs, .parts, .rings, .counters, .jobs, .calls, .steps, .batch, .grafts, .tiles, .boughs, .prods, .nextOrder, .sums, .handoffs, .acts, .xferWaits, .canopy, .backs, .latches, .attnWaits, .servedKv, .servedAttn, .weights, .mem, .links, .faults, .power, .sec, .out]) (by
  have h := Moves.refl [.boot, .regs, .parts, .rings, .counters, .jobs, .calls, .steps, .batch, .grafts, .tiles, .boughs, .prods, .nextOrder, .sums, .handoffs, .acts, .xferWaits, .canopy, .backs, .latches, .attnWaits, .servedKv, .servedAttn, .weights, .mem, .links, .faults, .power, .sec, .out] s
  unfold State.mergeEvict
  repeat' first
    | (extract_lets +onlyGivenNames x; first | (refine Moves.cut (s := x) ?_ ?_; (on_goal 2 => intro hx; clear_value x); (on_goal 1 => subst x)) | subst x)
    | with_reducible assumption
    | (show Field.within _ _ = true; decide)
    | with_reducible apply State.mergeLeave_moves
    | with_reducible apply State.noteRead_moves
    | with_reducible apply State.count_moves
    | with_reducible apply State.settle_moves
    | with_reducible apply State.endCall_moves
    | with_reducible apply State.rewriteDelivered_moves
    | with_reducible apply Moves.modMem
    | with_reducible apply Moves.ite
    | split
    | (intro w; first | with_reducible exact Mem.wf_runs w | exact w | exact Mem.wf_write w | exact Mem.wf_clear w | exact Mem.wf_foldl (fun _ _ h => Mem.wf_write h) _ w)) hfl)

theorem State.retireDone_moves {fl : List Field} {r₀ : State} {s : State} {j : MemJob} (hm : Moves fl r₀ s)
    (hfl : Field.within [.rings, .counters, .jobs, .mem, .sec, .out] fl = true) : Moves fl r₀ (State.retireDone s j) :=
  hm.trans (Moves.mono (a := [.rings, .counters, .jobs, .mem, .sec, .out]) (by
  have h := Moves.refl [.rings, .counters, .jobs, .mem, .sec, .out] s
  unfold State.retireDone
  repeat' first
    | (extract_lets +onlyGivenNames x; first | (refine Moves.cut (s := x) ?_ ?_; (on_goal 2 => intro hx; clear_value x); (on_goal 1 => subst x)) | subst x)
    | with_reducible assumption
    | (show Field.within _ _ = true; decide)
    | with_reducible apply State.complete_moves
    | with_reducible apply State.count_moves
    | with_reducible apply State.event_moves
    | with_reducible apply Moves.modMem
    | with_reducible apply Moves.ite
    | split
    | (intro w; first | with_reducible exact Mem.wf_runs w | exact w | exact Mem.wf_write w | exact Mem.wf_clear w | exact Mem.wf_foldl (fun _ _ h => Mem.wf_write h) _ w)) hfl)

theorem State.hotSample_moves {fl : List Field} {r₀ : State} {s : State} {stack : ℕ} {occ : ℕ} {ch : ℕ} (hm : Moves fl r₀ s)
    (hfl : Field.within [.rings, .counters, .mem, .sec, .out] fl = true) : Moves fl r₀ (State.hotSample s stack occ ch) :=
  hm.trans (Moves.mono (a := [.rings, .counters, .mem, .sec, .out]) (by
  have h := Moves.refl [.rings, .counters, .mem, .sec, .out] s
  unfold State.hotSample
  repeat' first
    | (extract_lets +onlyGivenNames x; first | (refine Moves.cut (s := x) ?_ ?_; (on_goal 2 => intro hx; clear_value x); (on_goal 1 => subst x)) | subst x)
    | with_reducible assumption
    | (show Field.within _ _ = true; decide)
    | with_reducible apply State.closeWindow_moves
    | with_reducible apply Moves.modMem
    | with_reducible apply Moves.ite
    | split
    | (intro w; first | with_reducible exact Mem.wf_runs w | exact w | exact Mem.wf_write w | exact Mem.wf_clear w | exact Mem.wf_foldl (fun _ _ h => Mem.wf_write h) _ w)) hfl)

theorem State.migrate_moves {fl : List Field} {r₀ : State} {s : State} {j : MemJob} (hm : Moves fl r₀ s)
    (hfl : Field.within [.rings, .counters, .calls, .mem, .links, .sec, .out] fl = true) : Moves fl r₀ (State.migrate s j) :=
  hm.trans (Moves.mono (a := [.rings, .counters, .calls, .mem, .links, .sec, .out]) (by
  have h := Moves.refl [.rings, .counters, .calls, .mem, .links, .sec, .out] s
  unfold State.migrate
  repeat' first
    | (extract_lets +onlyGivenNames x; first | (refine Moves.cut (s := x) ?_ ?_; (on_goal 2 => intro hx; clear_value x); (on_goal 1 => subst x)) | subst x)
    | with_reducible assumption
    | (show Field.within _ _ = true; decide)
    | with_reducible apply State.freeOld_moves
    | with_reducible apply State.moveGroup_moves
    | with_reducible apply Moves.each
    | with_reducible apply Moves.modMem
    | with_reducible apply Moves.ite
    | (intro _ _ _)
    | split
    | (intro w; first | with_reducible exact Mem.wf_runs w | exact w | exact Mem.wf_write w | exact Mem.wf_clear w | exact Mem.wf_foldl (fun _ _ h => Mem.wf_write h) _ w)) hfl)

end Sys2Proof.Machine
end

