-- ==== Sys2Proof/Laws/State.lean ====
section
/-! SUPPORT. What each update of the state changes and keeps, field by field. -/

set_option Elab.async false

namespace Sys2Proof.Machine.State

variable (s : State)

@[simp] theorem modRing_pins (r : RingId) (f : Ring → Ring) : (s.modRing r f).pins = s.pins := rfl
@[simp] theorem modRing_boot (r : RingId) (f : Ring → Ring) : (s.modRing r f).boot = s.boot := rfl
@[simp] theorem modRing_regs (r : RingId) (f : Ring → Ring) : (s.modRing r f).regs = s.regs := rfl
@[simp] theorem modRing_parts (r : RingId) (f : Ring → Ring) : (s.modRing r f).parts = s.parts := rfl
@[simp] theorem modRing_rings (r : RingId) (f : Ring → Ring) : (s.modRing r f).rings = Tbl.update {} (ringNo r) f s.rings := rfl
@[simp] theorem modRing_tick (r : RingId) (f : Ring → Ring) : (s.modRing r f).tick = s.tick := rfl
@[simp] theorem modRing_ticking (r : RingId) (f : Ring → Ring) : (s.modRing r f).ticking = s.ticking := rfl
@[simp] theorem modRing_trims (r : RingId) (f : Ring → Ring) : (s.modRing r f).trims = s.trims := rfl
@[simp] theorem modRing_counters (r : RingId) (f : Ring → Ring) : (s.modRing r f).counters = s.counters := rfl
@[simp] theorem modRing_jobs (r : RingId) (f : Ring → Ring) : (s.modRing r f).jobs = s.jobs := rfl
@[simp] theorem modRing_calls (r : RingId) (f : Ring → Ring) : (s.modRing r f).calls = s.calls := rfl
@[simp] theorem modRing_steps (r : RingId) (f : Ring → Ring) : (s.modRing r f).steps = s.steps := rfl
@[simp] theorem modRing_batch (r : RingId) (f : Ring → Ring) : (s.modRing r f).batch = s.batch := rfl
@[simp] theorem modRing_sched (r : RingId) (f : Ring → Ring) : (s.modRing r f).sched = s.sched := rfl
@[simp] theorem modRing_splitHead (r : RingId) (f : Ring → Ring) : (s.modRing r f).splitHead = s.splitHead := rfl
@[simp] theorem modRing_stage (r : RingId) (f : Ring → Ring) : (s.modRing r f).stage = s.stage := rfl
@[simp] theorem modRing_batchNo (r : RingId) (f : Ring → Ring) : (s.modRing r f).batchNo = s.batchNo := rfl
@[simp] theorem modRing_customers (r : RingId) (f : Ring → Ring) : (s.modRing r f).customers = s.customers := rfl
@[simp] theorem modRing_grafts (r : RingId) (f : Ring → Ring) : (s.modRing r f).grafts = s.grafts := rfl
@[simp] theorem modRing_mattes (r : RingId) (f : Ring → Ring) : (s.modRing r f).mattes = s.mattes := rfl
@[simp] theorem modRing_tiles (r : RingId) (f : Ring → Ring) : (s.modRing r f).tiles = s.tiles := rfl
@[simp] theorem modRing_boughs (r : RingId) (f : Ring → Ring) : (s.modRing r f).boughs = s.boughs := rfl
@[simp] theorem modRing_calSave (r : RingId) (f : Ring → Ring) : (s.modRing r f).calSave = s.calSave := rfl
@[simp] theorem modRing_prods (r : RingId) (f : Ring → Ring) : (s.modRing r f).prods = s.prods := rfl
@[simp] theorem modRing_nextProd (r : RingId) (f : Ring → Ring) : (s.modRing r f).nextProd = s.nextProd := rfl
@[simp] theorem modRing_nextOrder (r : RingId) (f : Ring → Ring) : (s.modRing r f).nextOrder = s.nextOrder := rfl
@[simp] theorem modRing_sums (r : RingId) (f : Ring → Ring) : (s.modRing r f).sums = s.sums := rfl
@[simp] theorem modRing_handoffs (r : RingId) (f : Ring → Ring) : (s.modRing r f).handoffs = s.handoffs := rfl
@[simp] theorem modRing_acts (r : RingId) (f : Ring → Ring) : (s.modRing r f).acts = s.acts := rfl
@[simp] theorem modRing_xferWaits (r : RingId) (f : Ring → Ring) : (s.modRing r f).xferWaits = s.xferWaits := rfl
@[simp] theorem modRing_histos (r : RingId) (f : Ring → Ring) : (s.modRing r f).histos = s.histos := rfl
@[simp] theorem modRing_canopy (r : RingId) (f : Ring → Ring) : (s.modRing r f).canopy = s.canopy := rfl
@[simp] theorem modRing_backs (r : RingId) (f : Ring → Ring) : (s.modRing r f).backs = s.backs := rfl
@[simp] theorem modRing_latches (r : RingId) (f : Ring → Ring) : (s.modRing r f).latches = s.latches := rfl
@[simp] theorem modRing_attnWaits (r : RingId) (f : Ring → Ring) : (s.modRing r f).attnWaits = s.attnWaits := rfl
@[simp] theorem modRing_servedKv (r : RingId) (f : Ring → Ring) : (s.modRing r f).servedKv = s.servedKv := rfl
@[simp] theorem modRing_servedAttn (r : RingId) (f : Ring → Ring) : (s.modRing r f).servedAttn = s.servedAttn := rfl
@[simp] theorem modRing_weights (r : RingId) (f : Ring → Ring) : (s.modRing r f).weights = s.weights := rfl
@[simp] theorem modRing_mem (r : RingId) (f : Ring → Ring) : (s.modRing r f).mem = s.mem := rfl
@[simp] theorem modRing_links (r : RingId) (f : Ring → Ring) : (s.modRing r f).links = s.links := rfl
@[simp] theorem modRing_partner (r : RingId) (f : Ring → Ring) : (s.modRing r f).partner = s.partner := rfl
@[simp] theorem modRing_faults (r : RingId) (f : Ring → Ring) : (s.modRing r f).faults = s.faults := rfl
@[simp] theorem modRing_hk (r : RingId) (f : Ring → Ring) : (s.modRing r f).hk = s.hk := rfl
@[simp] theorem modRing_power (r : RingId) (f : Ring → Ring) : (s.modRing r f).power = s.power := rfl
@[simp] theorem modRing_sec (r : RingId) (f : Ring → Ring) : (s.modRing r f).sec = s.sec := rfl
@[simp] theorem modRing_drains (r : RingId) (f : Ring → Ring) : (s.modRing r f).drains = s.drains := rfl
@[simp] theorem modRing_free (r : RingId) (f : Ring → Ring) : (s.modRing r f).free = s.free := rfl
@[simp] theorem modRing_out (r : RingId) (f : Ring → Ring) : (s.modRing r f).out = s.out := rfl
@[simp] theorem modRing_pending (r : RingId) (f : Ring → Ring) : (s.modRing r f).pending = s.pending := rfl

@[simp] theorem modPart_pins (p : Nat) (f : Part → Part) : (s.modPart p f).pins = s.pins := rfl
@[simp] theorem modPart_boot (p : Nat) (f : Part → Part) : (s.modPart p f).boot = s.boot := rfl
@[simp] theorem modPart_regs (p : Nat) (f : Part → Part) : (s.modPart p f).regs = s.regs := rfl
@[simp] theorem modPart_parts (p : Nat) (f : Part → Part) : (s.modPart p f).parts = Tbl.update {} p f s.parts := rfl
@[simp] theorem modPart_rings (p : Nat) (f : Part → Part) : (s.modPart p f).rings = s.rings := rfl
@[simp] theorem modPart_tick (p : Nat) (f : Part → Part) : (s.modPart p f).tick = s.tick := rfl
@[simp] theorem modPart_ticking (p : Nat) (f : Part → Part) : (s.modPart p f).ticking = s.ticking := rfl
@[simp] theorem modPart_trims (p : Nat) (f : Part → Part) : (s.modPart p f).trims = s.trims := rfl
@[simp] theorem modPart_counters (p : Nat) (f : Part → Part) : (s.modPart p f).counters = s.counters := rfl
@[simp] theorem modPart_jobs (p : Nat) (f : Part → Part) : (s.modPart p f).jobs = s.jobs := rfl
@[simp] theorem modPart_calls (p : Nat) (f : Part → Part) : (s.modPart p f).calls = s.calls := rfl
@[simp] theorem modPart_steps (p : Nat) (f : Part → Part) : (s.modPart p f).steps = s.steps := rfl
@[simp] theorem modPart_batch (p : Nat) (f : Part → Part) : (s.modPart p f).batch = s.batch := rfl
@[simp] theorem modPart_sched (p : Nat) (f : Part → Part) : (s.modPart p f).sched = s.sched := rfl
@[simp] theorem modPart_splitHead (p : Nat) (f : Part → Part) : (s.modPart p f).splitHead = s.splitHead := rfl
@[simp] theorem modPart_stage (p : Nat) (f : Part → Part) : (s.modPart p f).stage = s.stage := rfl
@[simp] theorem modPart_batchNo (p : Nat) (f : Part → Part) : (s.modPart p f).batchNo = s.batchNo := rfl
@[simp] theorem modPart_customers (p : Nat) (f : Part → Part) : (s.modPart p f).customers = s.customers := rfl
@[simp] theorem modPart_grafts (p : Nat) (f : Part → Part) : (s.modPart p f).grafts = s.grafts := rfl
@[simp] theorem modPart_mattes (p : Nat) (f : Part → Part) : (s.modPart p f).mattes = s.mattes := rfl
@[simp] theorem modPart_tiles (p : Nat) (f : Part → Part) : (s.modPart p f).tiles = s.tiles := rfl
@[simp] theorem modPart_boughs (p : Nat) (f : Part → Part) : (s.modPart p f).boughs = s.boughs := rfl
@[simp] theorem modPart_calSave (p : Nat) (f : Part → Part) : (s.modPart p f).calSave = s.calSave := rfl
@[simp] theorem modPart_prods (p : Nat) (f : Part → Part) : (s.modPart p f).prods = s.prods := rfl
@[simp] theorem modPart_nextProd (p : Nat) (f : Part → Part) : (s.modPart p f).nextProd = s.nextProd := rfl
@[simp] theorem modPart_nextOrder (p : Nat) (f : Part → Part) : (s.modPart p f).nextOrder = s.nextOrder := rfl
@[simp] theorem modPart_sums (p : Nat) (f : Part → Part) : (s.modPart p f).sums = s.sums := rfl
@[simp] theorem modPart_handoffs (p : Nat) (f : Part → Part) : (s.modPart p f).handoffs = s.handoffs := rfl
@[simp] theorem modPart_acts (p : Nat) (f : Part → Part) : (s.modPart p f).acts = s.acts := rfl
@[simp] theorem modPart_xferWaits (p : Nat) (f : Part → Part) : (s.modPart p f).xferWaits = s.xferWaits := rfl
@[simp] theorem modPart_histos (p : Nat) (f : Part → Part) : (s.modPart p f).histos = s.histos := rfl
@[simp] theorem modPart_canopy (p : Nat) (f : Part → Part) : (s.modPart p f).canopy = s.canopy := rfl
@[simp] theorem modPart_backs (p : Nat) (f : Part → Part) : (s.modPart p f).backs = s.backs := rfl
@[simp] theorem modPart_latches (p : Nat) (f : Part → Part) : (s.modPart p f).latches = s.latches := rfl
@[simp] theorem modPart_attnWaits (p : Nat) (f : Part → Part) : (s.modPart p f).attnWaits = s.attnWaits := rfl
@[simp] theorem modPart_servedKv (p : Nat) (f : Part → Part) : (s.modPart p f).servedKv = s.servedKv := rfl
@[simp] theorem modPart_servedAttn (p : Nat) (f : Part → Part) : (s.modPart p f).servedAttn = s.servedAttn := rfl
@[simp] theorem modPart_weights (p : Nat) (f : Part → Part) : (s.modPart p f).weights = s.weights := rfl
@[simp] theorem modPart_mem (p : Nat) (f : Part → Part) : (s.modPart p f).mem = s.mem := rfl
@[simp] theorem modPart_links (p : Nat) (f : Part → Part) : (s.modPart p f).links = s.links := rfl
@[simp] theorem modPart_partner (p : Nat) (f : Part → Part) : (s.modPart p f).partner = s.partner := rfl
@[simp] theorem modPart_faults (p : Nat) (f : Part → Part) : (s.modPart p f).faults = s.faults := rfl
@[simp] theorem modPart_hk (p : Nat) (f : Part → Part) : (s.modPart p f).hk = s.hk := rfl
@[simp] theorem modPart_power (p : Nat) (f : Part → Part) : (s.modPart p f).power = s.power := rfl
@[simp] theorem modPart_sec (p : Nat) (f : Part → Part) : (s.modPart p f).sec = s.sec := rfl
@[simp] theorem modPart_drains (p : Nat) (f : Part → Part) : (s.modPart p f).drains = s.drains := rfl
@[simp] theorem modPart_free (p : Nat) (f : Part → Part) : (s.modPart p f).free = s.free := rfl
@[simp] theorem modPart_out (p : Nat) (f : Part → Part) : (s.modPart p f).out = s.out := rfl
@[simp] theorem modPart_pending (p : Nat) (f : Part → Part) : (s.modPart p f).pending = s.pending := rfl

@[simp] theorem modTile_pins (t : Nat) (f : Tile → Tile) : (s.modTile t f).pins = s.pins := rfl
@[simp] theorem modTile_boot (t : Nat) (f : Tile → Tile) : (s.modTile t f).boot = s.boot := rfl
@[simp] theorem modTile_regs (t : Nat) (f : Tile → Tile) : (s.modTile t f).regs = s.regs := rfl
@[simp] theorem modTile_parts (t : Nat) (f : Tile → Tile) : (s.modTile t f).parts = s.parts := rfl
@[simp] theorem modTile_rings (t : Nat) (f : Tile → Tile) : (s.modTile t f).rings = s.rings := rfl
@[simp] theorem modTile_tick (t : Nat) (f : Tile → Tile) : (s.modTile t f).tick = s.tick := rfl
@[simp] theorem modTile_ticking (t : Nat) (f : Tile → Tile) : (s.modTile t f).ticking = s.ticking := rfl
@[simp] theorem modTile_trims (t : Nat) (f : Tile → Tile) : (s.modTile t f).trims = s.trims := rfl
@[simp] theorem modTile_counters (t : Nat) (f : Tile → Tile) : (s.modTile t f).counters = s.counters := rfl
@[simp] theorem modTile_jobs (t : Nat) (f : Tile → Tile) : (s.modTile t f).jobs = s.jobs := rfl
@[simp] theorem modTile_calls (t : Nat) (f : Tile → Tile) : (s.modTile t f).calls = s.calls := rfl
@[simp] theorem modTile_steps (t : Nat) (f : Tile → Tile) : (s.modTile t f).steps = s.steps := rfl
@[simp] theorem modTile_batch (t : Nat) (f : Tile → Tile) : (s.modTile t f).batch = s.batch := rfl
@[simp] theorem modTile_sched (t : Nat) (f : Tile → Tile) : (s.modTile t f).sched = s.sched := rfl
@[simp] theorem modTile_splitHead (t : Nat) (f : Tile → Tile) : (s.modTile t f).splitHead = s.splitHead := rfl
@[simp] theorem modTile_stage (t : Nat) (f : Tile → Tile) : (s.modTile t f).stage = s.stage := rfl
@[simp] theorem modTile_batchNo (t : Nat) (f : Tile → Tile) : (s.modTile t f).batchNo = s.batchNo := rfl
@[simp] theorem modTile_customers (t : Nat) (f : Tile → Tile) : (s.modTile t f).customers = s.customers := rfl
@[simp] theorem modTile_grafts (t : Nat) (f : Tile → Tile) : (s.modTile t f).grafts = s.grafts := rfl
@[simp] theorem modTile_mattes (t : Nat) (f : Tile → Tile) : (s.modTile t f).mattes = s.mattes := rfl
@[simp] theorem modTile_tiles (t : Nat) (f : Tile → Tile) : (s.modTile t f).tiles = Tbl.update {} t f s.tiles := rfl
@[simp] theorem modTile_boughs (t : Nat) (f : Tile → Tile) : (s.modTile t f).boughs = s.boughs := rfl
@[simp] theorem modTile_calSave (t : Nat) (f : Tile → Tile) : (s.modTile t f).calSave = s.calSave := rfl
@[simp] theorem modTile_prods (t : Nat) (f : Tile → Tile) : (s.modTile t f).prods = s.prods := rfl
@[simp] theorem modTile_nextProd (t : Nat) (f : Tile → Tile) : (s.modTile t f).nextProd = s.nextProd := rfl
@[simp] theorem modTile_nextOrder (t : Nat) (f : Tile → Tile) : (s.modTile t f).nextOrder = s.nextOrder := rfl
@[simp] theorem modTile_sums (t : Nat) (f : Tile → Tile) : (s.modTile t f).sums = s.sums := rfl
@[simp] theorem modTile_handoffs (t : Nat) (f : Tile → Tile) : (s.modTile t f).handoffs = s.handoffs := rfl
@[simp] theorem modTile_acts (t : Nat) (f : Tile → Tile) : (s.modTile t f).acts = s.acts := rfl
@[simp] theorem modTile_xferWaits (t : Nat) (f : Tile → Tile) : (s.modTile t f).xferWaits = s.xferWaits := rfl
@[simp] theorem modTile_histos (t : Nat) (f : Tile → Tile) : (s.modTile t f).histos = s.histos := rfl
@[simp] theorem modTile_canopy (t : Nat) (f : Tile → Tile) : (s.modTile t f).canopy = s.canopy := rfl
@[simp] theorem modTile_backs (t : Nat) (f : Tile → Tile) : (s.modTile t f).backs = s.backs := rfl
@[simp] theorem modTile_latches (t : Nat) (f : Tile → Tile) : (s.modTile t f).latches = s.latches := rfl
@[simp] theorem modTile_attnWaits (t : Nat) (f : Tile → Tile) : (s.modTile t f).attnWaits = s.attnWaits := rfl
@[simp] theorem modTile_servedKv (t : Nat) (f : Tile → Tile) : (s.modTile t f).servedKv = s.servedKv := rfl
@[simp] theorem modTile_servedAttn (t : Nat) (f : Tile → Tile) : (s.modTile t f).servedAttn = s.servedAttn := rfl
@[simp] theorem modTile_weights (t : Nat) (f : Tile → Tile) : (s.modTile t f).weights = s.weights := rfl
@[simp] theorem modTile_mem (t : Nat) (f : Tile → Tile) : (s.modTile t f).mem = s.mem := rfl
@[simp] theorem modTile_links (t : Nat) (f : Tile → Tile) : (s.modTile t f).links = s.links := rfl
@[simp] theorem modTile_partner (t : Nat) (f : Tile → Tile) : (s.modTile t f).partner = s.partner := rfl
@[simp] theorem modTile_faults (t : Nat) (f : Tile → Tile) : (s.modTile t f).faults = s.faults := rfl
@[simp] theorem modTile_hk (t : Nat) (f : Tile → Tile) : (s.modTile t f).hk = s.hk := rfl
@[simp] theorem modTile_power (t : Nat) (f : Tile → Tile) : (s.modTile t f).power = s.power := rfl
@[simp] theorem modTile_sec (t : Nat) (f : Tile → Tile) : (s.modTile t f).sec = s.sec := rfl
@[simp] theorem modTile_drains (t : Nat) (f : Tile → Tile) : (s.modTile t f).drains = s.drains := rfl
@[simp] theorem modTile_free (t : Nat) (f : Tile → Tile) : (s.modTile t f).free = s.free := rfl
@[simp] theorem modTile_out (t : Nat) (f : Tile → Tile) : (s.modTile t f).out = s.out := rfl
@[simp] theorem modTile_pending (t : Nat) (f : Tile → Tile) : (s.modTile t f).pending = s.pending := rfl

@[simp] theorem modDeck_pins (t d : Nat) (f : Deck → Deck) : (s.modDeck t d f).pins = s.pins := rfl
@[simp] theorem modDeck_boot (t d : Nat) (f : Deck → Deck) : (s.modDeck t d f).boot = s.boot := rfl
@[simp] theorem modDeck_regs (t d : Nat) (f : Deck → Deck) : (s.modDeck t d f).regs = s.regs := rfl
@[simp] theorem modDeck_parts (t d : Nat) (f : Deck → Deck) : (s.modDeck t d f).parts = s.parts := rfl
@[simp] theorem modDeck_rings (t d : Nat) (f : Deck → Deck) : (s.modDeck t d f).rings = s.rings := rfl
@[simp] theorem modDeck_tick (t d : Nat) (f : Deck → Deck) : (s.modDeck t d f).tick = s.tick := rfl
@[simp] theorem modDeck_ticking (t d : Nat) (f : Deck → Deck) : (s.modDeck t d f).ticking = s.ticking := rfl
@[simp] theorem modDeck_trims (t d : Nat) (f : Deck → Deck) : (s.modDeck t d f).trims = s.trims := rfl
@[simp] theorem modDeck_counters (t d : Nat) (f : Deck → Deck) : (s.modDeck t d f).counters = s.counters := rfl
@[simp] theorem modDeck_jobs (t d : Nat) (f : Deck → Deck) : (s.modDeck t d f).jobs = s.jobs := rfl
@[simp] theorem modDeck_calls (t d : Nat) (f : Deck → Deck) : (s.modDeck t d f).calls = s.calls := rfl
@[simp] theorem modDeck_steps (t d : Nat) (f : Deck → Deck) : (s.modDeck t d f).steps = s.steps := rfl
@[simp] theorem modDeck_batch (t d : Nat) (f : Deck → Deck) : (s.modDeck t d f).batch = s.batch := rfl
@[simp] theorem modDeck_sched (t d : Nat) (f : Deck → Deck) : (s.modDeck t d f).sched = s.sched := rfl
@[simp] theorem modDeck_splitHead (t d : Nat) (f : Deck → Deck) : (s.modDeck t d f).splitHead = s.splitHead := rfl
@[simp] theorem modDeck_stage (t d : Nat) (f : Deck → Deck) : (s.modDeck t d f).stage = s.stage := rfl
@[simp] theorem modDeck_batchNo (t d : Nat) (f : Deck → Deck) : (s.modDeck t d f).batchNo = s.batchNo := rfl
@[simp] theorem modDeck_customers (t d : Nat) (f : Deck → Deck) : (s.modDeck t d f).customers = s.customers := rfl
@[simp] theorem modDeck_grafts (t d : Nat) (f : Deck → Deck) : (s.modDeck t d f).grafts = s.grafts := rfl
@[simp] theorem modDeck_mattes (t d : Nat) (f : Deck → Deck) : (s.modDeck t d f).mattes = s.mattes := rfl
@[simp] theorem modDeck_boughs (t d : Nat) (f : Deck → Deck) : (s.modDeck t d f).boughs = s.boughs := rfl
@[simp] theorem modDeck_calSave (t d : Nat) (f : Deck → Deck) : (s.modDeck t d f).calSave = s.calSave := rfl
@[simp] theorem modDeck_prods (t d : Nat) (f : Deck → Deck) : (s.modDeck t d f).prods = s.prods := rfl
@[simp] theorem modDeck_nextProd (t d : Nat) (f : Deck → Deck) : (s.modDeck t d f).nextProd = s.nextProd := rfl
@[simp] theorem modDeck_nextOrder (t d : Nat) (f : Deck → Deck) : (s.modDeck t d f).nextOrder = s.nextOrder := rfl
@[simp] theorem modDeck_sums (t d : Nat) (f : Deck → Deck) : (s.modDeck t d f).sums = s.sums := rfl
@[simp] theorem modDeck_handoffs (t d : Nat) (f : Deck → Deck) : (s.modDeck t d f).handoffs = s.handoffs := rfl
@[simp] theorem modDeck_acts (t d : Nat) (f : Deck → Deck) : (s.modDeck t d f).acts = s.acts := rfl
@[simp] theorem modDeck_xferWaits (t d : Nat) (f : Deck → Deck) : (s.modDeck t d f).xferWaits = s.xferWaits := rfl
@[simp] theorem modDeck_histos (t d : Nat) (f : Deck → Deck) : (s.modDeck t d f).histos = s.histos := rfl
@[simp] theorem modDeck_canopy (t d : Nat) (f : Deck → Deck) : (s.modDeck t d f).canopy = s.canopy := rfl
@[simp] theorem modDeck_backs (t d : Nat) (f : Deck → Deck) : (s.modDeck t d f).backs = s.backs := rfl
@[simp] theorem modDeck_latches (t d : Nat) (f : Deck → Deck) : (s.modDeck t d f).latches = s.latches := rfl
@[simp] theorem modDeck_attnWaits (t d : Nat) (f : Deck → Deck) : (s.modDeck t d f).attnWaits = s.attnWaits := rfl
@[simp] theorem modDeck_servedKv (t d : Nat) (f : Deck → Deck) : (s.modDeck t d f).servedKv = s.servedKv := rfl
@[simp] theorem modDeck_servedAttn (t d : Nat) (f : Deck → Deck) : (s.modDeck t d f).servedAttn = s.servedAttn := rfl
@[simp] theorem modDeck_weights (t d : Nat) (f : Deck → Deck) : (s.modDeck t d f).weights = s.weights := rfl
@[simp] theorem modDeck_mem (t d : Nat) (f : Deck → Deck) : (s.modDeck t d f).mem = s.mem := rfl
@[simp] theorem modDeck_links (t d : Nat) (f : Deck → Deck) : (s.modDeck t d f).links = s.links := rfl
@[simp] theorem modDeck_partner (t d : Nat) (f : Deck → Deck) : (s.modDeck t d f).partner = s.partner := rfl
@[simp] theorem modDeck_faults (t d : Nat) (f : Deck → Deck) : (s.modDeck t d f).faults = s.faults := rfl
@[simp] theorem modDeck_hk (t d : Nat) (f : Deck → Deck) : (s.modDeck t d f).hk = s.hk := rfl
@[simp] theorem modDeck_power (t d : Nat) (f : Deck → Deck) : (s.modDeck t d f).power = s.power := rfl
@[simp] theorem modDeck_sec (t d : Nat) (f : Deck → Deck) : (s.modDeck t d f).sec = s.sec := rfl
@[simp] theorem modDeck_drains (t d : Nat) (f : Deck → Deck) : (s.modDeck t d f).drains = s.drains := rfl
@[simp] theorem modDeck_free (t d : Nat) (f : Deck → Deck) : (s.modDeck t d f).free = s.free := rfl
@[simp] theorem modDeck_out (t d : Nat) (f : Deck → Deck) : (s.modDeck t d f).out = s.out := rfl
@[simp] theorem modDeck_pending (t d : Nat) (f : Deck → Deck) : (s.modDeck t d f).pending = s.pending := rfl

@[simp] theorem modBough_pins (b : Nat) (f : Bough → Bough) : (s.modBough b f).pins = s.pins := rfl
@[simp] theorem modBough_boot (b : Nat) (f : Bough → Bough) : (s.modBough b f).boot = s.boot := rfl
@[simp] theorem modBough_regs (b : Nat) (f : Bough → Bough) : (s.modBough b f).regs = s.regs := rfl
@[simp] theorem modBough_parts (b : Nat) (f : Bough → Bough) : (s.modBough b f).parts = s.parts := rfl
@[simp] theorem modBough_rings (b : Nat) (f : Bough → Bough) : (s.modBough b f).rings = s.rings := rfl
@[simp] theorem modBough_tick (b : Nat) (f : Bough → Bough) : (s.modBough b f).tick = s.tick := rfl
@[simp] theorem modBough_ticking (b : Nat) (f : Bough → Bough) : (s.modBough b f).ticking = s.ticking := rfl
@[simp] theorem modBough_trims (b : Nat) (f : Bough → Bough) : (s.modBough b f).trims = s.trims := rfl
@[simp] theorem modBough_counters (b : Nat) (f : Bough → Bough) : (s.modBough b f).counters = s.counters := rfl
@[simp] theorem modBough_jobs (b : Nat) (f : Bough → Bough) : (s.modBough b f).jobs = s.jobs := rfl
@[simp] theorem modBough_calls (b : Nat) (f : Bough → Bough) : (s.modBough b f).calls = s.calls := rfl
@[simp] theorem modBough_steps (b : Nat) (f : Bough → Bough) : (s.modBough b f).steps = s.steps := rfl
@[simp] theorem modBough_batch (b : Nat) (f : Bough → Bough) : (s.modBough b f).batch = s.batch := rfl
@[simp] theorem modBough_sched (b : Nat) (f : Bough → Bough) : (s.modBough b f).sched = s.sched := rfl
@[simp] theorem modBough_splitHead (b : Nat) (f : Bough → Bough) : (s.modBough b f).splitHead = s.splitHead := rfl
@[simp] theorem modBough_stage (b : Nat) (f : Bough → Bough) : (s.modBough b f).stage = s.stage := rfl
@[simp] theorem modBough_batchNo (b : Nat) (f : Bough → Bough) : (s.modBough b f).batchNo = s.batchNo := rfl
@[simp] theorem modBough_customers (b : Nat) (f : Bough → Bough) : (s.modBough b f).customers = s.customers := rfl
@[simp] theorem modBough_grafts (b : Nat) (f : Bough → Bough) : (s.modBough b f).grafts = s.grafts := rfl
@[simp] theorem modBough_mattes (b : Nat) (f : Bough → Bough) : (s.modBough b f).mattes = s.mattes := rfl
@[simp] theorem modBough_tiles (b : Nat) (f : Bough → Bough) : (s.modBough b f).tiles = s.tiles := rfl
@[simp] theorem modBough_boughs (b : Nat) (f : Bough → Bough) : (s.modBough b f).boughs = Tbl.update {} b f s.boughs := rfl
@[simp] theorem modBough_calSave (b : Nat) (f : Bough → Bough) : (s.modBough b f).calSave = s.calSave := rfl
@[simp] theorem modBough_prods (b : Nat) (f : Bough → Bough) : (s.modBough b f).prods = s.prods := rfl
@[simp] theorem modBough_nextProd (b : Nat) (f : Bough → Bough) : (s.modBough b f).nextProd = s.nextProd := rfl
@[simp] theorem modBough_nextOrder (b : Nat) (f : Bough → Bough) : (s.modBough b f).nextOrder = s.nextOrder := rfl
@[simp] theorem modBough_sums (b : Nat) (f : Bough → Bough) : (s.modBough b f).sums = s.sums := rfl
@[simp] theorem modBough_handoffs (b : Nat) (f : Bough → Bough) : (s.modBough b f).handoffs = s.handoffs := rfl
@[simp] theorem modBough_acts (b : Nat) (f : Bough → Bough) : (s.modBough b f).acts = s.acts := rfl
@[simp] theorem modBough_xferWaits (b : Nat) (f : Bough → Bough) : (s.modBough b f).xferWaits = s.xferWaits := rfl
@[simp] theorem modBough_histos (b : Nat) (f : Bough → Bough) : (s.modBough b f).histos = s.histos := rfl
@[simp] theorem modBough_canopy (b : Nat) (f : Bough → Bough) : (s.modBough b f).canopy = s.canopy := rfl
@[simp] theorem modBough_backs (b : Nat) (f : Bough → Bough) : (s.modBough b f).backs = s.backs := rfl
@[simp] theorem modBough_latches (b : Nat) (f : Bough → Bough) : (s.modBough b f).latches = s.latches := rfl
@[simp] theorem modBough_attnWaits (b : Nat) (f : Bough → Bough) : (s.modBough b f).attnWaits = s.attnWaits := rfl
@[simp] theorem modBough_servedKv (b : Nat) (f : Bough → Bough) : (s.modBough b f).servedKv = s.servedKv := rfl
@[simp] theorem modBough_servedAttn (b : Nat) (f : Bough → Bough) : (s.modBough b f).servedAttn = s.servedAttn := rfl
@[simp] theorem modBough_weights (b : Nat) (f : Bough → Bough) : (s.modBough b f).weights = s.weights := rfl
@[simp] theorem modBough_mem (b : Nat) (f : Bough → Bough) : (s.modBough b f).mem = s.mem := rfl
@[simp] theorem modBough_links (b : Nat) (f : Bough → Bough) : (s.modBough b f).links = s.links := rfl
@[simp] theorem modBough_partner (b : Nat) (f : Bough → Bough) : (s.modBough b f).partner = s.partner := rfl
@[simp] theorem modBough_faults (b : Nat) (f : Bough → Bough) : (s.modBough b f).faults = s.faults := rfl
@[simp] theorem modBough_hk (b : Nat) (f : Bough → Bough) : (s.modBough b f).hk = s.hk := rfl
@[simp] theorem modBough_power (b : Nat) (f : Bough → Bough) : (s.modBough b f).power = s.power := rfl
@[simp] theorem modBough_sec (b : Nat) (f : Bough → Bough) : (s.modBough b f).sec = s.sec := rfl
@[simp] theorem modBough_drains (b : Nat) (f : Bough → Bough) : (s.modBough b f).drains = s.drains := rfl
@[simp] theorem modBough_free (b : Nat) (f : Bough → Bough) : (s.modBough b f).free = s.free := rfl
@[simp] theorem modBough_out (b : Nat) (f : Bough → Bough) : (s.modBough b f).out = s.out := rfl
@[simp] theorem modBough_pending (b : Nat) (f : Bough → Bough) : (s.modBough b f).pending = s.pending := rfl

@[simp] theorem modLink_pins (p : Port) (f : Link → Link) : (s.modLink p f).pins = s.pins := rfl
@[simp] theorem modLink_boot (p : Port) (f : Link → Link) : (s.modLink p f).boot = s.boot := rfl
@[simp] theorem modLink_regs (p : Port) (f : Link → Link) : (s.modLink p f).regs = s.regs := rfl
@[simp] theorem modLink_parts (p : Port) (f : Link → Link) : (s.modLink p f).parts = s.parts := rfl
@[simp] theorem modLink_rings (p : Port) (f : Link → Link) : (s.modLink p f).rings = s.rings := rfl
@[simp] theorem modLink_tick (p : Port) (f : Link → Link) : (s.modLink p f).tick = s.tick := rfl
@[simp] theorem modLink_ticking (p : Port) (f : Link → Link) : (s.modLink p f).ticking = s.ticking := rfl
@[simp] theorem modLink_trims (p : Port) (f : Link → Link) : (s.modLink p f).trims = s.trims := rfl
@[simp] theorem modLink_counters (p : Port) (f : Link → Link) : (s.modLink p f).counters = s.counters := rfl
@[simp] theorem modLink_jobs (p : Port) (f : Link → Link) : (s.modLink p f).jobs = s.jobs := rfl
@[simp] theorem modLink_calls (p : Port) (f : Link → Link) : (s.modLink p f).calls = s.calls := rfl
@[simp] theorem modLink_steps (p : Port) (f : Link → Link) : (s.modLink p f).steps = s.steps := rfl
@[simp] theorem modLink_batch (p : Port) (f : Link → Link) : (s.modLink p f).batch = s.batch := rfl
@[simp] theorem modLink_sched (p : Port) (f : Link → Link) : (s.modLink p f).sched = s.sched := rfl
@[simp] theorem modLink_splitHead (p : Port) (f : Link → Link) : (s.modLink p f).splitHead = s.splitHead := rfl
@[simp] theorem modLink_stage (p : Port) (f : Link → Link) : (s.modLink p f).stage = s.stage := rfl
@[simp] theorem modLink_batchNo (p : Port) (f : Link → Link) : (s.modLink p f).batchNo = s.batchNo := rfl
@[simp] theorem modLink_customers (p : Port) (f : Link → Link) : (s.modLink p f).customers = s.customers := rfl
@[simp] theorem modLink_grafts (p : Port) (f : Link → Link) : (s.modLink p f).grafts = s.grafts := rfl
@[simp] theorem modLink_mattes (p : Port) (f : Link → Link) : (s.modLink p f).mattes = s.mattes := rfl
@[simp] theorem modLink_tiles (p : Port) (f : Link → Link) : (s.modLink p f).tiles = s.tiles := rfl
@[simp] theorem modLink_boughs (p : Port) (f : Link → Link) : (s.modLink p f).boughs = s.boughs := rfl
@[simp] theorem modLink_calSave (p : Port) (f : Link → Link) : (s.modLink p f).calSave = s.calSave := rfl
@[simp] theorem modLink_prods (p : Port) (f : Link → Link) : (s.modLink p f).prods = s.prods := rfl
@[simp] theorem modLink_nextProd (p : Port) (f : Link → Link) : (s.modLink p f).nextProd = s.nextProd := rfl
@[simp] theorem modLink_nextOrder (p : Port) (f : Link → Link) : (s.modLink p f).nextOrder = s.nextOrder := rfl
@[simp] theorem modLink_sums (p : Port) (f : Link → Link) : (s.modLink p f).sums = s.sums := rfl
@[simp] theorem modLink_handoffs (p : Port) (f : Link → Link) : (s.modLink p f).handoffs = s.handoffs := rfl
@[simp] theorem modLink_acts (p : Port) (f : Link → Link) : (s.modLink p f).acts = s.acts := rfl
@[simp] theorem modLink_xferWaits (p : Port) (f : Link → Link) : (s.modLink p f).xferWaits = s.xferWaits := rfl
@[simp] theorem modLink_histos (p : Port) (f : Link → Link) : (s.modLink p f).histos = s.histos := rfl
@[simp] theorem modLink_canopy (p : Port) (f : Link → Link) : (s.modLink p f).canopy = s.canopy := rfl
@[simp] theorem modLink_backs (p : Port) (f : Link → Link) : (s.modLink p f).backs = s.backs := rfl
@[simp] theorem modLink_latches (p : Port) (f : Link → Link) : (s.modLink p f).latches = s.latches := rfl
@[simp] theorem modLink_attnWaits (p : Port) (f : Link → Link) : (s.modLink p f).attnWaits = s.attnWaits := rfl
@[simp] theorem modLink_servedKv (p : Port) (f : Link → Link) : (s.modLink p f).servedKv = s.servedKv := rfl
@[simp] theorem modLink_servedAttn (p : Port) (f : Link → Link) : (s.modLink p f).servedAttn = s.servedAttn := rfl
@[simp] theorem modLink_weights (p : Port) (f : Link → Link) : (s.modLink p f).weights = s.weights := rfl
@[simp] theorem modLink_mem (p : Port) (f : Link → Link) : (s.modLink p f).mem = s.mem := rfl
@[simp] theorem modLink_links (p : Port) (f : Link → Link) : (s.modLink p f).links = Tbl.update {} (portNo p) f s.links := rfl
@[simp] theorem modLink_partner (p : Port) (f : Link → Link) : (s.modLink p f).partner = s.partner := rfl
@[simp] theorem modLink_faults (p : Port) (f : Link → Link) : (s.modLink p f).faults = s.faults := rfl
@[simp] theorem modLink_hk (p : Port) (f : Link → Link) : (s.modLink p f).hk = s.hk := rfl
@[simp] theorem modLink_power (p : Port) (f : Link → Link) : (s.modLink p f).power = s.power := rfl
@[simp] theorem modLink_sec (p : Port) (f : Link → Link) : (s.modLink p f).sec = s.sec := rfl
@[simp] theorem modLink_drains (p : Port) (f : Link → Link) : (s.modLink p f).drains = s.drains := rfl
@[simp] theorem modLink_free (p : Port) (f : Link → Link) : (s.modLink p f).free = s.free := rfl
@[simp] theorem modLink_out (p : Port) (f : Link → Link) : (s.modLink p f).out = s.out := rfl
@[simp] theorem modLink_pending (p : Port) (f : Link → Link) : (s.modLink p f).pending = s.pending := rfl

@[simp] theorem modCustomer_pins (c : Nat) (f : Customer → Customer) : (s.modCustomer c f).pins = s.pins := rfl
@[simp] theorem modCustomer_boot (c : Nat) (f : Customer → Customer) : (s.modCustomer c f).boot = s.boot := rfl
@[simp] theorem modCustomer_regs (c : Nat) (f : Customer → Customer) : (s.modCustomer c f).regs = s.regs := rfl
@[simp] theorem modCustomer_parts (c : Nat) (f : Customer → Customer) : (s.modCustomer c f).parts = s.parts := rfl
@[simp] theorem modCustomer_rings (c : Nat) (f : Customer → Customer) : (s.modCustomer c f).rings = s.rings := rfl
@[simp] theorem modCustomer_tick (c : Nat) (f : Customer → Customer) : (s.modCustomer c f).tick = s.tick := rfl
@[simp] theorem modCustomer_ticking (c : Nat) (f : Customer → Customer) : (s.modCustomer c f).ticking = s.ticking := rfl
@[simp] theorem modCustomer_trims (c : Nat) (f : Customer → Customer) : (s.modCustomer c f).trims = s.trims := rfl
@[simp] theorem modCustomer_counters (c : Nat) (f : Customer → Customer) : (s.modCustomer c f).counters = s.counters := rfl
@[simp] theorem modCustomer_jobs (c : Nat) (f : Customer → Customer) : (s.modCustomer c f).jobs = s.jobs := rfl
@[simp] theorem modCustomer_calls (c : Nat) (f : Customer → Customer) : (s.modCustomer c f).calls = s.calls := rfl
@[simp] theorem modCustomer_steps (c : Nat) (f : Customer → Customer) : (s.modCustomer c f).steps = s.steps := rfl
@[simp] theorem modCustomer_batch (c : Nat) (f : Customer → Customer) : (s.modCustomer c f).batch = s.batch := rfl
@[simp] theorem modCustomer_sched (c : Nat) (f : Customer → Customer) : (s.modCustomer c f).sched = s.sched := rfl
@[simp] theorem modCustomer_splitHead (c : Nat) (f : Customer → Customer) : (s.modCustomer c f).splitHead = s.splitHead := rfl
@[simp] theorem modCustomer_stage (c : Nat) (f : Customer → Customer) : (s.modCustomer c f).stage = s.stage := rfl
@[simp] theorem modCustomer_batchNo (c : Nat) (f : Customer → Customer) : (s.modCustomer c f).batchNo = s.batchNo := rfl
@[simp] theorem modCustomer_customers (c : Nat) (f : Customer → Customer) : (s.modCustomer c f).customers = Tbl.update {} c f s.customers := rfl
@[simp] theorem modCustomer_grafts (c : Nat) (f : Customer → Customer) : (s.modCustomer c f).grafts = s.grafts := rfl
@[simp] theorem modCustomer_mattes (c : Nat) (f : Customer → Customer) : (s.modCustomer c f).mattes = s.mattes := rfl
@[simp] theorem modCustomer_tiles (c : Nat) (f : Customer → Customer) : (s.modCustomer c f).tiles = s.tiles := rfl
@[simp] theorem modCustomer_boughs (c : Nat) (f : Customer → Customer) : (s.modCustomer c f).boughs = s.boughs := rfl
@[simp] theorem modCustomer_calSave (c : Nat) (f : Customer → Customer) : (s.modCustomer c f).calSave = s.calSave := rfl
@[simp] theorem modCustomer_prods (c : Nat) (f : Customer → Customer) : (s.modCustomer c f).prods = s.prods := rfl
@[simp] theorem modCustomer_nextProd (c : Nat) (f : Customer → Customer) : (s.modCustomer c f).nextProd = s.nextProd := rfl
@[simp] theorem modCustomer_nextOrder (c : Nat) (f : Customer → Customer) : (s.modCustomer c f).nextOrder = s.nextOrder := rfl
@[simp] theorem modCustomer_sums (c : Nat) (f : Customer → Customer) : (s.modCustomer c f).sums = s.sums := rfl
@[simp] theorem modCustomer_handoffs (c : Nat) (f : Customer → Customer) : (s.modCustomer c f).handoffs = s.handoffs := rfl
@[simp] theorem modCustomer_acts (c : Nat) (f : Customer → Customer) : (s.modCustomer c f).acts = s.acts := rfl
@[simp] theorem modCustomer_xferWaits (c : Nat) (f : Customer → Customer) : (s.modCustomer c f).xferWaits = s.xferWaits := rfl
@[simp] theorem modCustomer_histos (c : Nat) (f : Customer → Customer) : (s.modCustomer c f).histos = s.histos := rfl
@[simp] theorem modCustomer_canopy (c : Nat) (f : Customer → Customer) : (s.modCustomer c f).canopy = s.canopy := rfl
@[simp] theorem modCustomer_backs (c : Nat) (f : Customer → Customer) : (s.modCustomer c f).backs = s.backs := rfl
@[simp] theorem modCustomer_latches (c : Nat) (f : Customer → Customer) : (s.modCustomer c f).latches = s.latches := rfl
@[simp] theorem modCustomer_attnWaits (c : Nat) (f : Customer → Customer) : (s.modCustomer c f).attnWaits = s.attnWaits := rfl
@[simp] theorem modCustomer_servedKv (c : Nat) (f : Customer → Customer) : (s.modCustomer c f).servedKv = s.servedKv := rfl
@[simp] theorem modCustomer_servedAttn (c : Nat) (f : Customer → Customer) : (s.modCustomer c f).servedAttn = s.servedAttn := rfl
@[simp] theorem modCustomer_weights (c : Nat) (f : Customer → Customer) : (s.modCustomer c f).weights = s.weights := rfl
@[simp] theorem modCustomer_mem (c : Nat) (f : Customer → Customer) : (s.modCustomer c f).mem = s.mem := rfl
@[simp] theorem modCustomer_links (c : Nat) (f : Customer → Customer) : (s.modCustomer c f).links = s.links := rfl
@[simp] theorem modCustomer_partner (c : Nat) (f : Customer → Customer) : (s.modCustomer c f).partner = s.partner := rfl
@[simp] theorem modCustomer_faults (c : Nat) (f : Customer → Customer) : (s.modCustomer c f).faults = s.faults := rfl
@[simp] theorem modCustomer_hk (c : Nat) (f : Customer → Customer) : (s.modCustomer c f).hk = s.hk := rfl
@[simp] theorem modCustomer_power (c : Nat) (f : Customer → Customer) : (s.modCustomer c f).power = s.power := rfl
@[simp] theorem modCustomer_sec (c : Nat) (f : Customer → Customer) : (s.modCustomer c f).sec = s.sec := rfl
@[simp] theorem modCustomer_drains (c : Nat) (f : Customer → Customer) : (s.modCustomer c f).drains = s.drains := rfl
@[simp] theorem modCustomer_free (c : Nat) (f : Customer → Customer) : (s.modCustomer c f).free = s.free := rfl
@[simp] theorem modCustomer_out (c : Nat) (f : Customer → Customer) : (s.modCustomer c f).out = s.out := rfl
@[simp] theorem modCustomer_pending (c : Nat) (f : Customer → Customer) : (s.modCustomer c f).pending = s.pending := rfl

@[simp] theorem modStep_pins (c n : Nat) (f : Step → Step) : (s.modStep c n f).pins = s.pins := rfl
@[simp] theorem modStep_boot (c n : Nat) (f : Step → Step) : (s.modStep c n f).boot = s.boot := rfl
@[simp] theorem modStep_regs (c n : Nat) (f : Step → Step) : (s.modStep c n f).regs = s.regs := rfl
@[simp] theorem modStep_parts (c n : Nat) (f : Step → Step) : (s.modStep c n f).parts = s.parts := rfl
@[simp] theorem modStep_rings (c n : Nat) (f : Step → Step) : (s.modStep c n f).rings = s.rings := rfl
@[simp] theorem modStep_tick (c n : Nat) (f : Step → Step) : (s.modStep c n f).tick = s.tick := rfl
@[simp] theorem modStep_ticking (c n : Nat) (f : Step → Step) : (s.modStep c n f).ticking = s.ticking := rfl
@[simp] theorem modStep_trims (c n : Nat) (f : Step → Step) : (s.modStep c n f).trims = s.trims := rfl
@[simp] theorem modStep_counters (c n : Nat) (f : Step → Step) : (s.modStep c n f).counters = s.counters := rfl
@[simp] theorem modStep_jobs (c n : Nat) (f : Step → Step) : (s.modStep c n f).jobs = s.jobs := rfl
@[simp] theorem modStep_calls (c n : Nat) (f : Step → Step) : (s.modStep c n f).calls = s.calls := rfl
@[simp] theorem modStep_batch (c n : Nat) (f : Step → Step) : (s.modStep c n f).batch = s.batch := rfl
@[simp] theorem modStep_sched (c n : Nat) (f : Step → Step) : (s.modStep c n f).sched = s.sched := rfl
@[simp] theorem modStep_splitHead (c n : Nat) (f : Step → Step) : (s.modStep c n f).splitHead = s.splitHead := rfl
@[simp] theorem modStep_stage (c n : Nat) (f : Step → Step) : (s.modStep c n f).stage = s.stage := rfl
@[simp] theorem modStep_batchNo (c n : Nat) (f : Step → Step) : (s.modStep c n f).batchNo = s.batchNo := rfl
@[simp] theorem modStep_customers (c n : Nat) (f : Step → Step) : (s.modStep c n f).customers = s.customers := rfl
@[simp] theorem modStep_grafts (c n : Nat) (f : Step → Step) : (s.modStep c n f).grafts = s.grafts := rfl
@[simp] theorem modStep_mattes (c n : Nat) (f : Step → Step) : (s.modStep c n f).mattes = s.mattes := rfl
@[simp] theorem modStep_tiles (c n : Nat) (f : Step → Step) : (s.modStep c n f).tiles = s.tiles := rfl
@[simp] theorem modStep_boughs (c n : Nat) (f : Step → Step) : (s.modStep c n f).boughs = s.boughs := rfl
@[simp] theorem modStep_calSave (c n : Nat) (f : Step → Step) : (s.modStep c n f).calSave = s.calSave := rfl
@[simp] theorem modStep_prods (c n : Nat) (f : Step → Step) : (s.modStep c n f).prods = s.prods := rfl
@[simp] theorem modStep_nextProd (c n : Nat) (f : Step → Step) : (s.modStep c n f).nextProd = s.nextProd := rfl
@[simp] theorem modStep_nextOrder (c n : Nat) (f : Step → Step) : (s.modStep c n f).nextOrder = s.nextOrder := rfl
@[simp] theorem modStep_sums (c n : Nat) (f : Step → Step) : (s.modStep c n f).sums = s.sums := rfl
@[simp] theorem modStep_handoffs (c n : Nat) (f : Step → Step) : (s.modStep c n f).handoffs = s.handoffs := rfl
@[simp] theorem modStep_acts (c n : Nat) (f : Step → Step) : (s.modStep c n f).acts = s.acts := rfl
@[simp] theorem modStep_xferWaits (c n : Nat) (f : Step → Step) : (s.modStep c n f).xferWaits = s.xferWaits := rfl
@[simp] theorem modStep_histos (c n : Nat) (f : Step → Step) : (s.modStep c n f).histos = s.histos := rfl
@[simp] theorem modStep_canopy (c n : Nat) (f : Step → Step) : (s.modStep c n f).canopy = s.canopy := rfl
@[simp] theorem modStep_backs (c n : Nat) (f : Step → Step) : (s.modStep c n f).backs = s.backs := rfl
@[simp] theorem modStep_latches (c n : Nat) (f : Step → Step) : (s.modStep c n f).latches = s.latches := rfl
@[simp] theorem modStep_attnWaits (c n : Nat) (f : Step → Step) : (s.modStep c n f).attnWaits = s.attnWaits := rfl
@[simp] theorem modStep_servedKv (c n : Nat) (f : Step → Step) : (s.modStep c n f).servedKv = s.servedKv := rfl
@[simp] theorem modStep_servedAttn (c n : Nat) (f : Step → Step) : (s.modStep c n f).servedAttn = s.servedAttn := rfl
@[simp] theorem modStep_weights (c n : Nat) (f : Step → Step) : (s.modStep c n f).weights = s.weights := rfl
@[simp] theorem modStep_mem (c n : Nat) (f : Step → Step) : (s.modStep c n f).mem = s.mem := rfl
@[simp] theorem modStep_links (c n : Nat) (f : Step → Step) : (s.modStep c n f).links = s.links := rfl
@[simp] theorem modStep_partner (c n : Nat) (f : Step → Step) : (s.modStep c n f).partner = s.partner := rfl
@[simp] theorem modStep_faults (c n : Nat) (f : Step → Step) : (s.modStep c n f).faults = s.faults := rfl
@[simp] theorem modStep_hk (c n : Nat) (f : Step → Step) : (s.modStep c n f).hk = s.hk := rfl
@[simp] theorem modStep_power (c n : Nat) (f : Step → Step) : (s.modStep c n f).power = s.power := rfl
@[simp] theorem modStep_sec (c n : Nat) (f : Step → Step) : (s.modStep c n f).sec = s.sec := rfl
@[simp] theorem modStep_drains (c n : Nat) (f : Step → Step) : (s.modStep c n f).drains = s.drains := rfl
@[simp] theorem modStep_free (c n : Nat) (f : Step → Step) : (s.modStep c n f).free = s.free := rfl
@[simp] theorem modStep_out (c n : Nat) (f : Step → Step) : (s.modStep c n f).out = s.out := rfl
@[simp] theorem modStep_pending (c n : Nat) (f : Step → Step) : (s.modStep c n f).pending = s.pending := rfl

@[simp] theorem modProd_pins (i : Nat) (f : Prod → Prod) : (s.modProd i f).pins = s.pins := rfl
@[simp] theorem modProd_boot (i : Nat) (f : Prod → Prod) : (s.modProd i f).boot = s.boot := rfl
@[simp] theorem modProd_regs (i : Nat) (f : Prod → Prod) : (s.modProd i f).regs = s.regs := rfl
@[simp] theorem modProd_parts (i : Nat) (f : Prod → Prod) : (s.modProd i f).parts = s.parts := rfl
@[simp] theorem modProd_rings (i : Nat) (f : Prod → Prod) : (s.modProd i f).rings = s.rings := rfl
@[simp] theorem modProd_tick (i : Nat) (f : Prod → Prod) : (s.modProd i f).tick = s.tick := rfl
@[simp] theorem modProd_ticking (i : Nat) (f : Prod → Prod) : (s.modProd i f).ticking = s.ticking := rfl
@[simp] theorem modProd_trims (i : Nat) (f : Prod → Prod) : (s.modProd i f).trims = s.trims := rfl
@[simp] theorem modProd_counters (i : Nat) (f : Prod → Prod) : (s.modProd i f).counters = s.counters := rfl
@[simp] theorem modProd_jobs (i : Nat) (f : Prod → Prod) : (s.modProd i f).jobs = s.jobs := rfl
@[simp] theorem modProd_calls (i : Nat) (f : Prod → Prod) : (s.modProd i f).calls = s.calls := rfl
@[simp] theorem modProd_steps (i : Nat) (f : Prod → Prod) : (s.modProd i f).steps = s.steps := rfl
@[simp] theorem modProd_batch (i : Nat) (f : Prod → Prod) : (s.modProd i f).batch = s.batch := rfl
@[simp] theorem modProd_sched (i : Nat) (f : Prod → Prod) : (s.modProd i f).sched = s.sched := rfl
@[simp] theorem modProd_splitHead (i : Nat) (f : Prod → Prod) : (s.modProd i f).splitHead = s.splitHead := rfl
@[simp] theorem modProd_stage (i : Nat) (f : Prod → Prod) : (s.modProd i f).stage = s.stage := rfl
@[simp] theorem modProd_batchNo (i : Nat) (f : Prod → Prod) : (s.modProd i f).batchNo = s.batchNo := rfl
@[simp] theorem modProd_customers (i : Nat) (f : Prod → Prod) : (s.modProd i f).customers = s.customers := rfl
@[simp] theorem modProd_grafts (i : Nat) (f : Prod → Prod) : (s.modProd i f).grafts = s.grafts := rfl
@[simp] theorem modProd_mattes (i : Nat) (f : Prod → Prod) : (s.modProd i f).mattes = s.mattes := rfl
@[simp] theorem modProd_tiles (i : Nat) (f : Prod → Prod) : (s.modProd i f).tiles = s.tiles := rfl
@[simp] theorem modProd_boughs (i : Nat) (f : Prod → Prod) : (s.modProd i f).boughs = s.boughs := rfl
@[simp] theorem modProd_calSave (i : Nat) (f : Prod → Prod) : (s.modProd i f).calSave = s.calSave := rfl
@[simp] theorem modProd_nextProd (i : Nat) (f : Prod → Prod) : (s.modProd i f).nextProd = s.nextProd := rfl
@[simp] theorem modProd_nextOrder (i : Nat) (f : Prod → Prod) : (s.modProd i f).nextOrder = s.nextOrder := rfl
@[simp] theorem modProd_sums (i : Nat) (f : Prod → Prod) : (s.modProd i f).sums = s.sums := rfl
@[simp] theorem modProd_handoffs (i : Nat) (f : Prod → Prod) : (s.modProd i f).handoffs = s.handoffs := rfl
@[simp] theorem modProd_acts (i : Nat) (f : Prod → Prod) : (s.modProd i f).acts = s.acts := rfl
@[simp] theorem modProd_xferWaits (i : Nat) (f : Prod → Prod) : (s.modProd i f).xferWaits = s.xferWaits := rfl
@[simp] theorem modProd_histos (i : Nat) (f : Prod → Prod) : (s.modProd i f).histos = s.histos := rfl
@[simp] theorem modProd_canopy (i : Nat) (f : Prod → Prod) : (s.modProd i f).canopy = s.canopy := rfl
@[simp] theorem modProd_backs (i : Nat) (f : Prod → Prod) : (s.modProd i f).backs = s.backs := rfl
@[simp] theorem modProd_latches (i : Nat) (f : Prod → Prod) : (s.modProd i f).latches = s.latches := rfl
@[simp] theorem modProd_attnWaits (i : Nat) (f : Prod → Prod) : (s.modProd i f).attnWaits = s.attnWaits := rfl
@[simp] theorem modProd_servedKv (i : Nat) (f : Prod → Prod) : (s.modProd i f).servedKv = s.servedKv := rfl
@[simp] theorem modProd_servedAttn (i : Nat) (f : Prod → Prod) : (s.modProd i f).servedAttn = s.servedAttn := rfl
@[simp] theorem modProd_weights (i : Nat) (f : Prod → Prod) : (s.modProd i f).weights = s.weights := rfl
@[simp] theorem modProd_mem (i : Nat) (f : Prod → Prod) : (s.modProd i f).mem = s.mem := rfl
@[simp] theorem modProd_links (i : Nat) (f : Prod → Prod) : (s.modProd i f).links = s.links := rfl
@[simp] theorem modProd_partner (i : Nat) (f : Prod → Prod) : (s.modProd i f).partner = s.partner := rfl
@[simp] theorem modProd_faults (i : Nat) (f : Prod → Prod) : (s.modProd i f).faults = s.faults := rfl
@[simp] theorem modProd_hk (i : Nat) (f : Prod → Prod) : (s.modProd i f).hk = s.hk := rfl
@[simp] theorem modProd_power (i : Nat) (f : Prod → Prod) : (s.modProd i f).power = s.power := rfl
@[simp] theorem modProd_sec (i : Nat) (f : Prod → Prod) : (s.modProd i f).sec = s.sec := rfl
@[simp] theorem modProd_drains (i : Nat) (f : Prod → Prod) : (s.modProd i f).drains = s.drains := rfl
@[simp] theorem modProd_free (i : Nat) (f : Prod → Prod) : (s.modProd i f).free = s.free := rfl
@[simp] theorem modProd_out (i : Nat) (f : Prod → Prod) : (s.modProd i f).out = s.out := rfl
@[simp] theorem modProd_pending (i : Nat) (f : Prod → Prod) : (s.modProd i f).pending = s.pending := rfl

@[simp] theorem modRegs_pins (f : Regs → Regs) : (s.modRegs f).pins = s.pins := rfl
@[simp] theorem modRegs_boot (f : Regs → Regs) : (s.modRegs f).boot = s.boot := rfl
@[simp] theorem modRegs_regs (f : Regs → Regs) : (s.modRegs f).regs = f s.regs := rfl
@[simp] theorem modRegs_parts (f : Regs → Regs) : (s.modRegs f).parts = s.parts := rfl
@[simp] theorem modRegs_rings (f : Regs → Regs) : (s.modRegs f).rings = s.rings := rfl
@[simp] theorem modRegs_tick (f : Regs → Regs) : (s.modRegs f).tick = s.tick := rfl
@[simp] theorem modRegs_ticking (f : Regs → Regs) : (s.modRegs f).ticking = s.ticking := rfl
@[simp] theorem modRegs_trims (f : Regs → Regs) : (s.modRegs f).trims = s.trims := rfl
@[simp] theorem modRegs_counters (f : Regs → Regs) : (s.modRegs f).counters = s.counters := rfl
@[simp] theorem modRegs_jobs (f : Regs → Regs) : (s.modRegs f).jobs = s.jobs := rfl
@[simp] theorem modRegs_calls (f : Regs → Regs) : (s.modRegs f).calls = s.calls := rfl
@[simp] theorem modRegs_steps (f : Regs → Regs) : (s.modRegs f).steps = s.steps := rfl
@[simp] theorem modRegs_batch (f : Regs → Regs) : (s.modRegs f).batch = s.batch := rfl
@[simp] theorem modRegs_sched (f : Regs → Regs) : (s.modRegs f).sched = s.sched := rfl
@[simp] theorem modRegs_splitHead (f : Regs → Regs) : (s.modRegs f).splitHead = s.splitHead := rfl
@[simp] theorem modRegs_stage (f : Regs → Regs) : (s.modRegs f).stage = s.stage := rfl
@[simp] theorem modRegs_batchNo (f : Regs → Regs) : (s.modRegs f).batchNo = s.batchNo := rfl
@[simp] theorem modRegs_customers (f : Regs → Regs) : (s.modRegs f).customers = s.customers := rfl
@[simp] theorem modRegs_grafts (f : Regs → Regs) : (s.modRegs f).grafts = s.grafts := rfl
@[simp] theorem modRegs_mattes (f : Regs → Regs) : (s.modRegs f).mattes = s.mattes := rfl
@[simp] theorem modRegs_tiles (f : Regs → Regs) : (s.modRegs f).tiles = s.tiles := rfl
@[simp] theorem modRegs_boughs (f : Regs → Regs) : (s.modRegs f).boughs = s.boughs := rfl
@[simp] theorem modRegs_calSave (f : Regs → Regs) : (s.modRegs f).calSave = s.calSave := rfl
@[simp] theorem modRegs_prods (f : Regs → Regs) : (s.modRegs f).prods = s.prods := rfl
@[simp] theorem modRegs_nextProd (f : Regs → Regs) : (s.modRegs f).nextProd = s.nextProd := rfl
@[simp] theorem modRegs_nextOrder (f : Regs → Regs) : (s.modRegs f).nextOrder = s.nextOrder := rfl
@[simp] theorem modRegs_sums (f : Regs → Regs) : (s.modRegs f).sums = s.sums := rfl
@[simp] theorem modRegs_handoffs (f : Regs → Regs) : (s.modRegs f).handoffs = s.handoffs := rfl
@[simp] theorem modRegs_acts (f : Regs → Regs) : (s.modRegs f).acts = s.acts := rfl
@[simp] theorem modRegs_xferWaits (f : Regs → Regs) : (s.modRegs f).xferWaits = s.xferWaits := rfl
@[simp] theorem modRegs_histos (f : Regs → Regs) : (s.modRegs f).histos = s.histos := rfl
@[simp] theorem modRegs_canopy (f : Regs → Regs) : (s.modRegs f).canopy = s.canopy := rfl
@[simp] theorem modRegs_backs (f : Regs → Regs) : (s.modRegs f).backs = s.backs := rfl
@[simp] theorem modRegs_latches (f : Regs → Regs) : (s.modRegs f).latches = s.latches := rfl
@[simp] theorem modRegs_attnWaits (f : Regs → Regs) : (s.modRegs f).attnWaits = s.attnWaits := rfl
@[simp] theorem modRegs_servedKv (f : Regs → Regs) : (s.modRegs f).servedKv = s.servedKv := rfl
@[simp] theorem modRegs_servedAttn (f : Regs → Regs) : (s.modRegs f).servedAttn = s.servedAttn := rfl
@[simp] theorem modRegs_weights (f : Regs → Regs) : (s.modRegs f).weights = s.weights := rfl
@[simp] theorem modRegs_mem (f : Regs → Regs) : (s.modRegs f).mem = s.mem := rfl
@[simp] theorem modRegs_links (f : Regs → Regs) : (s.modRegs f).links = s.links := rfl
@[simp] theorem modRegs_partner (f : Regs → Regs) : (s.modRegs f).partner = s.partner := rfl
@[simp] theorem modRegs_faults (f : Regs → Regs) : (s.modRegs f).faults = s.faults := rfl
@[simp] theorem modRegs_hk (f : Regs → Regs) : (s.modRegs f).hk = s.hk := rfl
@[simp] theorem modRegs_power (f : Regs → Regs) : (s.modRegs f).power = s.power := rfl
@[simp] theorem modRegs_sec (f : Regs → Regs) : (s.modRegs f).sec = s.sec := rfl
@[simp] theorem modRegs_drains (f : Regs → Regs) : (s.modRegs f).drains = s.drains := rfl
@[simp] theorem modRegs_free (f : Regs → Regs) : (s.modRegs f).free = s.free := rfl
@[simp] theorem modRegs_out (f : Regs → Regs) : (s.modRegs f).out = s.out := rfl
@[simp] theorem modRegs_pending (f : Regs → Regs) : (s.modRegs f).pending = s.pending := rfl

@[simp] theorem modBoot_pins (f : Boot → Boot) : (s.modBoot f).pins = s.pins := rfl
@[simp] theorem modBoot_boot (f : Boot → Boot) : (s.modBoot f).boot = f s.boot := rfl
@[simp] theorem modBoot_regs (f : Boot → Boot) : (s.modBoot f).regs = s.regs := rfl
@[simp] theorem modBoot_parts (f : Boot → Boot) : (s.modBoot f).parts = s.parts := rfl
@[simp] theorem modBoot_rings (f : Boot → Boot) : (s.modBoot f).rings = s.rings := rfl
@[simp] theorem modBoot_tick (f : Boot → Boot) : (s.modBoot f).tick = s.tick := rfl
@[simp] theorem modBoot_ticking (f : Boot → Boot) : (s.modBoot f).ticking = s.ticking := rfl
@[simp] theorem modBoot_trims (f : Boot → Boot) : (s.modBoot f).trims = s.trims := rfl
@[simp] theorem modBoot_counters (f : Boot → Boot) : (s.modBoot f).counters = s.counters := rfl
@[simp] theorem modBoot_jobs (f : Boot → Boot) : (s.modBoot f).jobs = s.jobs := rfl
@[simp] theorem modBoot_calls (f : Boot → Boot) : (s.modBoot f).calls = s.calls := rfl
@[simp] theorem modBoot_steps (f : Boot → Boot) : (s.modBoot f).steps = s.steps := rfl
@[simp] theorem modBoot_batch (f : Boot → Boot) : (s.modBoot f).batch = s.batch := rfl
@[simp] theorem modBoot_sched (f : Boot → Boot) : (s.modBoot f).sched = s.sched := rfl
@[simp] theorem modBoot_splitHead (f : Boot → Boot) : (s.modBoot f).splitHead = s.splitHead := rfl
@[simp] theorem modBoot_stage (f : Boot → Boot) : (s.modBoot f).stage = s.stage := rfl
@[simp] theorem modBoot_batchNo (f : Boot → Boot) : (s.modBoot f).batchNo = s.batchNo := rfl
@[simp] theorem modBoot_customers (f : Boot → Boot) : (s.modBoot f).customers = s.customers := rfl
@[simp] theorem modBoot_grafts (f : Boot → Boot) : (s.modBoot f).grafts = s.grafts := rfl
@[simp] theorem modBoot_mattes (f : Boot → Boot) : (s.modBoot f).mattes = s.mattes := rfl
@[simp] theorem modBoot_tiles (f : Boot → Boot) : (s.modBoot f).tiles = s.tiles := rfl
@[simp] theorem modBoot_boughs (f : Boot → Boot) : (s.modBoot f).boughs = s.boughs := rfl
@[simp] theorem modBoot_calSave (f : Boot → Boot) : (s.modBoot f).calSave = s.calSave := rfl
@[simp] theorem modBoot_prods (f : Boot → Boot) : (s.modBoot f).prods = s.prods := rfl
@[simp] theorem modBoot_nextProd (f : Boot → Boot) : (s.modBoot f).nextProd = s.nextProd := rfl
@[simp] theorem modBoot_nextOrder (f : Boot → Boot) : (s.modBoot f).nextOrder = s.nextOrder := rfl
@[simp] theorem modBoot_sums (f : Boot → Boot) : (s.modBoot f).sums = s.sums := rfl
@[simp] theorem modBoot_handoffs (f : Boot → Boot) : (s.modBoot f).handoffs = s.handoffs := rfl
@[simp] theorem modBoot_acts (f : Boot → Boot) : (s.modBoot f).acts = s.acts := rfl
@[simp] theorem modBoot_xferWaits (f : Boot → Boot) : (s.modBoot f).xferWaits = s.xferWaits := rfl
@[simp] theorem modBoot_histos (f : Boot → Boot) : (s.modBoot f).histos = s.histos := rfl
@[simp] theorem modBoot_canopy (f : Boot → Boot) : (s.modBoot f).canopy = s.canopy := rfl
@[simp] theorem modBoot_backs (f : Boot → Boot) : (s.modBoot f).backs = s.backs := rfl
@[simp] theorem modBoot_latches (f : Boot → Boot) : (s.modBoot f).latches = s.latches := rfl
@[simp] theorem modBoot_attnWaits (f : Boot → Boot) : (s.modBoot f).attnWaits = s.attnWaits := rfl
@[simp] theorem modBoot_servedKv (f : Boot → Boot) : (s.modBoot f).servedKv = s.servedKv := rfl
@[simp] theorem modBoot_servedAttn (f : Boot → Boot) : (s.modBoot f).servedAttn = s.servedAttn := rfl
@[simp] theorem modBoot_weights (f : Boot → Boot) : (s.modBoot f).weights = s.weights := rfl
@[simp] theorem modBoot_mem (f : Boot → Boot) : (s.modBoot f).mem = s.mem := rfl
@[simp] theorem modBoot_links (f : Boot → Boot) : (s.modBoot f).links = s.links := rfl
@[simp] theorem modBoot_partner (f : Boot → Boot) : (s.modBoot f).partner = s.partner := rfl
@[simp] theorem modBoot_faults (f : Boot → Boot) : (s.modBoot f).faults = s.faults := rfl
@[simp] theorem modBoot_hk (f : Boot → Boot) : (s.modBoot f).hk = s.hk := rfl
@[simp] theorem modBoot_power (f : Boot → Boot) : (s.modBoot f).power = s.power := rfl
@[simp] theorem modBoot_sec (f : Boot → Boot) : (s.modBoot f).sec = s.sec := rfl
@[simp] theorem modBoot_drains (f : Boot → Boot) : (s.modBoot f).drains = s.drains := rfl
@[simp] theorem modBoot_free (f : Boot → Boot) : (s.modBoot f).free = s.free := rfl
@[simp] theorem modBoot_out (f : Boot → Boot) : (s.modBoot f).out = s.out := rfl
@[simp] theorem modBoot_pending (f : Boot → Boot) : (s.modBoot f).pending = s.pending := rfl

@[simp] theorem modPower_pins (f : Power → Power) : (s.modPower f).pins = s.pins := rfl
@[simp] theorem modPower_boot (f : Power → Power) : (s.modPower f).boot = s.boot := rfl
@[simp] theorem modPower_regs (f : Power → Power) : (s.modPower f).regs = s.regs := rfl
@[simp] theorem modPower_parts (f : Power → Power) : (s.modPower f).parts = s.parts := rfl
@[simp] theorem modPower_rings (f : Power → Power) : (s.modPower f).rings = s.rings := rfl
@[simp] theorem modPower_tick (f : Power → Power) : (s.modPower f).tick = s.tick := rfl
@[simp] theorem modPower_ticking (f : Power → Power) : (s.modPower f).ticking = s.ticking := rfl
@[simp] theorem modPower_trims (f : Power → Power) : (s.modPower f).trims = s.trims := rfl
@[simp] theorem modPower_counters (f : Power → Power) : (s.modPower f).counters = s.counters := rfl
@[simp] theorem modPower_jobs (f : Power → Power) : (s.modPower f).jobs = s.jobs := rfl
@[simp] theorem modPower_calls (f : Power → Power) : (s.modPower f).calls = s.calls := rfl
@[simp] theorem modPower_steps (f : Power → Power) : (s.modPower f).steps = s.steps := rfl
@[simp] theorem modPower_batch (f : Power → Power) : (s.modPower f).batch = s.batch := rfl
@[simp] theorem modPower_sched (f : Power → Power) : (s.modPower f).sched = s.sched := rfl
@[simp] theorem modPower_splitHead (f : Power → Power) : (s.modPower f).splitHead = s.splitHead := rfl
@[simp] theorem modPower_stage (f : Power → Power) : (s.modPower f).stage = s.stage := rfl
@[simp] theorem modPower_batchNo (f : Power → Power) : (s.modPower f).batchNo = s.batchNo := rfl
@[simp] theorem modPower_customers (f : Power → Power) : (s.modPower f).customers = s.customers := rfl
@[simp] theorem modPower_grafts (f : Power → Power) : (s.modPower f).grafts = s.grafts := rfl
@[simp] theorem modPower_mattes (f : Power → Power) : (s.modPower f).mattes = s.mattes := rfl
@[simp] theorem modPower_tiles (f : Power → Power) : (s.modPower f).tiles = s.tiles := rfl
@[simp] theorem modPower_boughs (f : Power → Power) : (s.modPower f).boughs = s.boughs := rfl
@[simp] theorem modPower_calSave (f : Power → Power) : (s.modPower f).calSave = s.calSave := rfl
@[simp] theorem modPower_prods (f : Power → Power) : (s.modPower f).prods = s.prods := rfl
@[simp] theorem modPower_nextProd (f : Power → Power) : (s.modPower f).nextProd = s.nextProd := rfl
@[simp] theorem modPower_nextOrder (f : Power → Power) : (s.modPower f).nextOrder = s.nextOrder := rfl
@[simp] theorem modPower_sums (f : Power → Power) : (s.modPower f).sums = s.sums := rfl
@[simp] theorem modPower_handoffs (f : Power → Power) : (s.modPower f).handoffs = s.handoffs := rfl
@[simp] theorem modPower_acts (f : Power → Power) : (s.modPower f).acts = s.acts := rfl
@[simp] theorem modPower_xferWaits (f : Power → Power) : (s.modPower f).xferWaits = s.xferWaits := rfl
@[simp] theorem modPower_histos (f : Power → Power) : (s.modPower f).histos = s.histos := rfl
@[simp] theorem modPower_canopy (f : Power → Power) : (s.modPower f).canopy = s.canopy := rfl
@[simp] theorem modPower_backs (f : Power → Power) : (s.modPower f).backs = s.backs := rfl
@[simp] theorem modPower_latches (f : Power → Power) : (s.modPower f).latches = s.latches := rfl
@[simp] theorem modPower_attnWaits (f : Power → Power) : (s.modPower f).attnWaits = s.attnWaits := rfl
@[simp] theorem modPower_servedKv (f : Power → Power) : (s.modPower f).servedKv = s.servedKv := rfl
@[simp] theorem modPower_servedAttn (f : Power → Power) : (s.modPower f).servedAttn = s.servedAttn := rfl
@[simp] theorem modPower_weights (f : Power → Power) : (s.modPower f).weights = s.weights := rfl
@[simp] theorem modPower_mem (f : Power → Power) : (s.modPower f).mem = s.mem := rfl
@[simp] theorem modPower_links (f : Power → Power) : (s.modPower f).links = s.links := rfl
@[simp] theorem modPower_partner (f : Power → Power) : (s.modPower f).partner = s.partner := rfl
@[simp] theorem modPower_faults (f : Power → Power) : (s.modPower f).faults = s.faults := rfl
@[simp] theorem modPower_hk (f : Power → Power) : (s.modPower f).hk = s.hk := rfl
@[simp] theorem modPower_power (f : Power → Power) : (s.modPower f).power = f s.power := rfl
@[simp] theorem modPower_sec (f : Power → Power) : (s.modPower f).sec = s.sec := rfl
@[simp] theorem modPower_drains (f : Power → Power) : (s.modPower f).drains = s.drains := rfl
@[simp] theorem modPower_free (f : Power → Power) : (s.modPower f).free = s.free := rfl
@[simp] theorem modPower_out (f : Power → Power) : (s.modPower f).out = s.out := rfl
@[simp] theorem modPower_pending (f : Power → Power) : (s.modPower f).pending = s.pending := rfl

@[simp] theorem modHk_pins (f : Hk → Hk) : (s.modHk f).pins = s.pins := rfl
@[simp] theorem modHk_boot (f : Hk → Hk) : (s.modHk f).boot = s.boot := rfl
@[simp] theorem modHk_regs (f : Hk → Hk) : (s.modHk f).regs = s.regs := rfl
@[simp] theorem modHk_parts (f : Hk → Hk) : (s.modHk f).parts = s.parts := rfl
@[simp] theorem modHk_rings (f : Hk → Hk) : (s.modHk f).rings = s.rings := rfl
@[simp] theorem modHk_tick (f : Hk → Hk) : (s.modHk f).tick = s.tick := rfl
@[simp] theorem modHk_ticking (f : Hk → Hk) : (s.modHk f).ticking = s.ticking := rfl
@[simp] theorem modHk_trims (f : Hk → Hk) : (s.modHk f).trims = s.trims := rfl
@[simp] theorem modHk_counters (f : Hk → Hk) : (s.modHk f).counters = s.counters := rfl
@[simp] theorem modHk_jobs (f : Hk → Hk) : (s.modHk f).jobs = s.jobs := rfl
@[simp] theorem modHk_calls (f : Hk → Hk) : (s.modHk f).calls = s.calls := rfl
@[simp] theorem modHk_steps (f : Hk → Hk) : (s.modHk f).steps = s.steps := rfl
@[simp] theorem modHk_batch (f : Hk → Hk) : (s.modHk f).batch = s.batch := rfl
@[simp] theorem modHk_sched (f : Hk → Hk) : (s.modHk f).sched = s.sched := rfl
@[simp] theorem modHk_splitHead (f : Hk → Hk) : (s.modHk f).splitHead = s.splitHead := rfl
@[simp] theorem modHk_stage (f : Hk → Hk) : (s.modHk f).stage = s.stage := rfl
@[simp] theorem modHk_batchNo (f : Hk → Hk) : (s.modHk f).batchNo = s.batchNo := rfl
@[simp] theorem modHk_customers (f : Hk → Hk) : (s.modHk f).customers = s.customers := rfl
@[simp] theorem modHk_grafts (f : Hk → Hk) : (s.modHk f).grafts = s.grafts := rfl
@[simp] theorem modHk_mattes (f : Hk → Hk) : (s.modHk f).mattes = s.mattes := rfl
@[simp] theorem modHk_tiles (f : Hk → Hk) : (s.modHk f).tiles = s.tiles := rfl
@[simp] theorem modHk_boughs (f : Hk → Hk) : (s.modHk f).boughs = s.boughs := rfl
@[simp] theorem modHk_calSave (f : Hk → Hk) : (s.modHk f).calSave = s.calSave := rfl
@[simp] theorem modHk_prods (f : Hk → Hk) : (s.modHk f).prods = s.prods := rfl
@[simp] theorem modHk_nextProd (f : Hk → Hk) : (s.modHk f).nextProd = s.nextProd := rfl
@[simp] theorem modHk_nextOrder (f : Hk → Hk) : (s.modHk f).nextOrder = s.nextOrder := rfl
@[simp] theorem modHk_sums (f : Hk → Hk) : (s.modHk f).sums = s.sums := rfl
@[simp] theorem modHk_handoffs (f : Hk → Hk) : (s.modHk f).handoffs = s.handoffs := rfl
@[simp] theorem modHk_acts (f : Hk → Hk) : (s.modHk f).acts = s.acts := rfl
@[simp] theorem modHk_xferWaits (f : Hk → Hk) : (s.modHk f).xferWaits = s.xferWaits := rfl
@[simp] theorem modHk_histos (f : Hk → Hk) : (s.modHk f).histos = s.histos := rfl
@[simp] theorem modHk_canopy (f : Hk → Hk) : (s.modHk f).canopy = s.canopy := rfl
@[simp] theorem modHk_backs (f : Hk → Hk) : (s.modHk f).backs = s.backs := rfl
@[simp] theorem modHk_latches (f : Hk → Hk) : (s.modHk f).latches = s.latches := rfl
@[simp] theorem modHk_attnWaits (f : Hk → Hk) : (s.modHk f).attnWaits = s.attnWaits := rfl
@[simp] theorem modHk_servedKv (f : Hk → Hk) : (s.modHk f).servedKv = s.servedKv := rfl
@[simp] theorem modHk_servedAttn (f : Hk → Hk) : (s.modHk f).servedAttn = s.servedAttn := rfl
@[simp] theorem modHk_weights (f : Hk → Hk) : (s.modHk f).weights = s.weights := rfl
@[simp] theorem modHk_mem (f : Hk → Hk) : (s.modHk f).mem = s.mem := rfl
@[simp] theorem modHk_links (f : Hk → Hk) : (s.modHk f).links = s.links := rfl
@[simp] theorem modHk_partner (f : Hk → Hk) : (s.modHk f).partner = s.partner := rfl
@[simp] theorem modHk_faults (f : Hk → Hk) : (s.modHk f).faults = s.faults := rfl
@[simp] theorem modHk_hk (f : Hk → Hk) : (s.modHk f).hk = f s.hk := rfl
@[simp] theorem modHk_power (f : Hk → Hk) : (s.modHk f).power = s.power := rfl
@[simp] theorem modHk_sec (f : Hk → Hk) : (s.modHk f).sec = s.sec := rfl
@[simp] theorem modHk_drains (f : Hk → Hk) : (s.modHk f).drains = s.drains := rfl
@[simp] theorem modHk_free (f : Hk → Hk) : (s.modHk f).free = s.free := rfl
@[simp] theorem modHk_out (f : Hk → Hk) : (s.modHk f).out = s.out := rfl
@[simp] theorem modHk_pending (f : Hk → Hk) : (s.modHk f).pending = s.pending := rfl

@[simp] theorem modSec_pins (f : Sec → Sec) : (s.modSec f).pins = s.pins := rfl
@[simp] theorem modSec_boot (f : Sec → Sec) : (s.modSec f).boot = s.boot := rfl
@[simp] theorem modSec_regs (f : Sec → Sec) : (s.modSec f).regs = s.regs := rfl
@[simp] theorem modSec_parts (f : Sec → Sec) : (s.modSec f).parts = s.parts := rfl
@[simp] theorem modSec_rings (f : Sec → Sec) : (s.modSec f).rings = s.rings := rfl
@[simp] theorem modSec_tick (f : Sec → Sec) : (s.modSec f).tick = s.tick := rfl
@[simp] theorem modSec_ticking (f : Sec → Sec) : (s.modSec f).ticking = s.ticking := rfl
@[simp] theorem modSec_trims (f : Sec → Sec) : (s.modSec f).trims = s.trims := rfl
@[simp] theorem modSec_counters (f : Sec → Sec) : (s.modSec f).counters = s.counters := rfl
@[simp] theorem modSec_jobs (f : Sec → Sec) : (s.modSec f).jobs = s.jobs := rfl
@[simp] theorem modSec_calls (f : Sec → Sec) : (s.modSec f).calls = s.calls := rfl
@[simp] theorem modSec_steps (f : Sec → Sec) : (s.modSec f).steps = s.steps := rfl
@[simp] theorem modSec_batch (f : Sec → Sec) : (s.modSec f).batch = s.batch := rfl
@[simp] theorem modSec_sched (f : Sec → Sec) : (s.modSec f).sched = s.sched := rfl
@[simp] theorem modSec_splitHead (f : Sec → Sec) : (s.modSec f).splitHead = s.splitHead := rfl
@[simp] theorem modSec_stage (f : Sec → Sec) : (s.modSec f).stage = s.stage := rfl
@[simp] theorem modSec_batchNo (f : Sec → Sec) : (s.modSec f).batchNo = s.batchNo := rfl
@[simp] theorem modSec_customers (f : Sec → Sec) : (s.modSec f).customers = s.customers := rfl
@[simp] theorem modSec_grafts (f : Sec → Sec) : (s.modSec f).grafts = s.grafts := rfl
@[simp] theorem modSec_mattes (f : Sec → Sec) : (s.modSec f).mattes = s.mattes := rfl
@[simp] theorem modSec_tiles (f : Sec → Sec) : (s.modSec f).tiles = s.tiles := rfl
@[simp] theorem modSec_boughs (f : Sec → Sec) : (s.modSec f).boughs = s.boughs := rfl
@[simp] theorem modSec_calSave (f : Sec → Sec) : (s.modSec f).calSave = s.calSave := rfl
@[simp] theorem modSec_prods (f : Sec → Sec) : (s.modSec f).prods = s.prods := rfl
@[simp] theorem modSec_nextProd (f : Sec → Sec) : (s.modSec f).nextProd = s.nextProd := rfl
@[simp] theorem modSec_nextOrder (f : Sec → Sec) : (s.modSec f).nextOrder = s.nextOrder := rfl
@[simp] theorem modSec_sums (f : Sec → Sec) : (s.modSec f).sums = s.sums := rfl
@[simp] theorem modSec_handoffs (f : Sec → Sec) : (s.modSec f).handoffs = s.handoffs := rfl
@[simp] theorem modSec_acts (f : Sec → Sec) : (s.modSec f).acts = s.acts := rfl
@[simp] theorem modSec_xferWaits (f : Sec → Sec) : (s.modSec f).xferWaits = s.xferWaits := rfl
@[simp] theorem modSec_histos (f : Sec → Sec) : (s.modSec f).histos = s.histos := rfl
@[simp] theorem modSec_canopy (f : Sec → Sec) : (s.modSec f).canopy = s.canopy := rfl
@[simp] theorem modSec_backs (f : Sec → Sec) : (s.modSec f).backs = s.backs := rfl
@[simp] theorem modSec_latches (f : Sec → Sec) : (s.modSec f).latches = s.latches := rfl
@[simp] theorem modSec_attnWaits (f : Sec → Sec) : (s.modSec f).attnWaits = s.attnWaits := rfl
@[simp] theorem modSec_servedKv (f : Sec → Sec) : (s.modSec f).servedKv = s.servedKv := rfl
@[simp] theorem modSec_servedAttn (f : Sec → Sec) : (s.modSec f).servedAttn = s.servedAttn := rfl
@[simp] theorem modSec_weights (f : Sec → Sec) : (s.modSec f).weights = s.weights := rfl
@[simp] theorem modSec_mem (f : Sec → Sec) : (s.modSec f).mem = s.mem := rfl
@[simp] theorem modSec_links (f : Sec → Sec) : (s.modSec f).links = s.links := rfl
@[simp] theorem modSec_partner (f : Sec → Sec) : (s.modSec f).partner = s.partner := rfl
@[simp] theorem modSec_faults (f : Sec → Sec) : (s.modSec f).faults = s.faults := rfl
@[simp] theorem modSec_hk (f : Sec → Sec) : (s.modSec f).hk = s.hk := rfl
@[simp] theorem modSec_power (f : Sec → Sec) : (s.modSec f).power = s.power := rfl
@[simp] theorem modSec_sec (f : Sec → Sec) : (s.modSec f).sec = f s.sec := rfl
@[simp] theorem modSec_drains (f : Sec → Sec) : (s.modSec f).drains = s.drains := rfl
@[simp] theorem modSec_free (f : Sec → Sec) : (s.modSec f).free = s.free := rfl
@[simp] theorem modSec_out (f : Sec → Sec) : (s.modSec f).out = s.out := rfl
@[simp] theorem modSec_pending (f : Sec → Sec) : (s.modSec f).pending = s.pending := rfl

@[simp] theorem modMem_pins (f : Mem → Mem) : (s.modMem f).pins = s.pins := rfl
@[simp] theorem modMem_boot (f : Mem → Mem) : (s.modMem f).boot = s.boot := rfl
@[simp] theorem modMem_regs (f : Mem → Mem) : (s.modMem f).regs = s.regs := rfl
@[simp] theorem modMem_parts (f : Mem → Mem) : (s.modMem f).parts = s.parts := rfl
@[simp] theorem modMem_rings (f : Mem → Mem) : (s.modMem f).rings = s.rings := rfl
@[simp] theorem modMem_tick (f : Mem → Mem) : (s.modMem f).tick = s.tick := rfl
@[simp] theorem modMem_ticking (f : Mem → Mem) : (s.modMem f).ticking = s.ticking := rfl
@[simp] theorem modMem_trims (f : Mem → Mem) : (s.modMem f).trims = s.trims := rfl
@[simp] theorem modMem_counters (f : Mem → Mem) : (s.modMem f).counters = s.counters := rfl
@[simp] theorem modMem_jobs (f : Mem → Mem) : (s.modMem f).jobs = s.jobs := rfl
@[simp] theorem modMem_calls (f : Mem → Mem) : (s.modMem f).calls = s.calls := rfl
@[simp] theorem modMem_steps (f : Mem → Mem) : (s.modMem f).steps = s.steps := rfl
@[simp] theorem modMem_batch (f : Mem → Mem) : (s.modMem f).batch = s.batch := rfl
@[simp] theorem modMem_sched (f : Mem → Mem) : (s.modMem f).sched = s.sched := rfl
@[simp] theorem modMem_splitHead (f : Mem → Mem) : (s.modMem f).splitHead = s.splitHead := rfl
@[simp] theorem modMem_stage (f : Mem → Mem) : (s.modMem f).stage = s.stage := rfl
@[simp] theorem modMem_batchNo (f : Mem → Mem) : (s.modMem f).batchNo = s.batchNo := rfl
@[simp] theorem modMem_customers (f : Mem → Mem) : (s.modMem f).customers = s.customers := rfl
@[simp] theorem modMem_grafts (f : Mem → Mem) : (s.modMem f).grafts = s.grafts := rfl
@[simp] theorem modMem_mattes (f : Mem → Mem) : (s.modMem f).mattes = s.mattes := rfl
@[simp] theorem modMem_tiles (f : Mem → Mem) : (s.modMem f).tiles = s.tiles := rfl
@[simp] theorem modMem_boughs (f : Mem → Mem) : (s.modMem f).boughs = s.boughs := rfl
@[simp] theorem modMem_calSave (f : Mem → Mem) : (s.modMem f).calSave = s.calSave := rfl
@[simp] theorem modMem_prods (f : Mem → Mem) : (s.modMem f).prods = s.prods := rfl
@[simp] theorem modMem_nextProd (f : Mem → Mem) : (s.modMem f).nextProd = s.nextProd := rfl
@[simp] theorem modMem_nextOrder (f : Mem → Mem) : (s.modMem f).nextOrder = s.nextOrder := rfl
@[simp] theorem modMem_sums (f : Mem → Mem) : (s.modMem f).sums = s.sums := rfl
@[simp] theorem modMem_handoffs (f : Mem → Mem) : (s.modMem f).handoffs = s.handoffs := rfl
@[simp] theorem modMem_acts (f : Mem → Mem) : (s.modMem f).acts = s.acts := rfl
@[simp] theorem modMem_xferWaits (f : Mem → Mem) : (s.modMem f).xferWaits = s.xferWaits := rfl
@[simp] theorem modMem_histos (f : Mem → Mem) : (s.modMem f).histos = s.histos := rfl
@[simp] theorem modMem_canopy (f : Mem → Mem) : (s.modMem f).canopy = s.canopy := rfl
@[simp] theorem modMem_backs (f : Mem → Mem) : (s.modMem f).backs = s.backs := rfl
@[simp] theorem modMem_latches (f : Mem → Mem) : (s.modMem f).latches = s.latches := rfl
@[simp] theorem modMem_attnWaits (f : Mem → Mem) : (s.modMem f).attnWaits = s.attnWaits := rfl
@[simp] theorem modMem_servedKv (f : Mem → Mem) : (s.modMem f).servedKv = s.servedKv := rfl
@[simp] theorem modMem_servedAttn (f : Mem → Mem) : (s.modMem f).servedAttn = s.servedAttn := rfl
@[simp] theorem modMem_weights (f : Mem → Mem) : (s.modMem f).weights = s.weights := rfl
@[simp] theorem modMem_mem (f : Mem → Mem) : (s.modMem f).mem = f s.mem := rfl
@[simp] theorem modMem_links (f : Mem → Mem) : (s.modMem f).links = s.links := rfl
@[simp] theorem modMem_partner (f : Mem → Mem) : (s.modMem f).partner = s.partner := rfl
@[simp] theorem modMem_faults (f : Mem → Mem) : (s.modMem f).faults = s.faults := rfl
@[simp] theorem modMem_hk (f : Mem → Mem) : (s.modMem f).hk = s.hk := rfl
@[simp] theorem modMem_power (f : Mem → Mem) : (s.modMem f).power = s.power := rfl
@[simp] theorem modMem_sec (f : Mem → Mem) : (s.modMem f).sec = s.sec := rfl
@[simp] theorem modMem_drains (f : Mem → Mem) : (s.modMem f).drains = s.drains := rfl
@[simp] theorem modMem_free (f : Mem → Mem) : (s.modMem f).free = s.free := rfl
@[simp] theorem modMem_out (f : Mem → Mem) : (s.modMem f).out = s.out := rfl
@[simp] theorem modMem_pending (f : Mem → Mem) : (s.modMem f).pending = s.pending := rfl

@[simp] theorem modWeights_pins (f : Weights → Weights) : (s.modWeights f).pins = s.pins := rfl
@[simp] theorem modWeights_boot (f : Weights → Weights) : (s.modWeights f).boot = s.boot := rfl
@[simp] theorem modWeights_regs (f : Weights → Weights) : (s.modWeights f).regs = s.regs := rfl
@[simp] theorem modWeights_parts (f : Weights → Weights) : (s.modWeights f).parts = s.parts := rfl
@[simp] theorem modWeights_rings (f : Weights → Weights) : (s.modWeights f).rings = s.rings := rfl
@[simp] theorem modWeights_tick (f : Weights → Weights) : (s.modWeights f).tick = s.tick := rfl
@[simp] theorem modWeights_ticking (f : Weights → Weights) : (s.modWeights f).ticking = s.ticking := rfl
@[simp] theorem modWeights_trims (f : Weights → Weights) : (s.modWeights f).trims = s.trims := rfl
@[simp] theorem modWeights_counters (f : Weights → Weights) : (s.modWeights f).counters = s.counters := rfl
@[simp] theorem modWeights_jobs (f : Weights → Weights) : (s.modWeights f).jobs = s.jobs := rfl
@[simp] theorem modWeights_calls (f : Weights → Weights) : (s.modWeights f).calls = s.calls := rfl
@[simp] theorem modWeights_steps (f : Weights → Weights) : (s.modWeights f).steps = s.steps := rfl
@[simp] theorem modWeights_batch (f : Weights → Weights) : (s.modWeights f).batch = s.batch := rfl
@[simp] theorem modWeights_sched (f : Weights → Weights) : (s.modWeights f).sched = s.sched := rfl
@[simp] theorem modWeights_splitHead (f : Weights → Weights) : (s.modWeights f).splitHead = s.splitHead := rfl
@[simp] theorem modWeights_stage (f : Weights → Weights) : (s.modWeights f).stage = s.stage := rfl
@[simp] theorem modWeights_batchNo (f : Weights → Weights) : (s.modWeights f).batchNo = s.batchNo := rfl
@[simp] theorem modWeights_customers (f : Weights → Weights) : (s.modWeights f).customers = s.customers := rfl
@[simp] theorem modWeights_grafts (f : Weights → Weights) : (s.modWeights f).grafts = s.grafts := rfl
@[simp] theorem modWeights_mattes (f : Weights → Weights) : (s.modWeights f).mattes = s.mattes := rfl
@[simp] theorem modWeights_tiles (f : Weights → Weights) : (s.modWeights f).tiles = s.tiles := rfl
@[simp] theorem modWeights_boughs (f : Weights → Weights) : (s.modWeights f).boughs = s.boughs := rfl
@[simp] theorem modWeights_calSave (f : Weights → Weights) : (s.modWeights f).calSave = s.calSave := rfl
@[simp] theorem modWeights_prods (f : Weights → Weights) : (s.modWeights f).prods = s.prods := rfl
@[simp] theorem modWeights_nextProd (f : Weights → Weights) : (s.modWeights f).nextProd = s.nextProd := rfl
@[simp] theorem modWeights_nextOrder (f : Weights → Weights) : (s.modWeights f).nextOrder = s.nextOrder := rfl
@[simp] theorem modWeights_sums (f : Weights → Weights) : (s.modWeights f).sums = s.sums := rfl
@[simp] theorem modWeights_handoffs (f : Weights → Weights) : (s.modWeights f).handoffs = s.handoffs := rfl
@[simp] theorem modWeights_acts (f : Weights → Weights) : (s.modWeights f).acts = s.acts := rfl
@[simp] theorem modWeights_xferWaits (f : Weights → Weights) : (s.modWeights f).xferWaits = s.xferWaits := rfl
@[simp] theorem modWeights_histos (f : Weights → Weights) : (s.modWeights f).histos = s.histos := rfl
@[simp] theorem modWeights_canopy (f : Weights → Weights) : (s.modWeights f).canopy = s.canopy := rfl
@[simp] theorem modWeights_backs (f : Weights → Weights) : (s.modWeights f).backs = s.backs := rfl
@[simp] theorem modWeights_latches (f : Weights → Weights) : (s.modWeights f).latches = s.latches := rfl
@[simp] theorem modWeights_attnWaits (f : Weights → Weights) : (s.modWeights f).attnWaits = s.attnWaits := rfl
@[simp] theorem modWeights_servedKv (f : Weights → Weights) : (s.modWeights f).servedKv = s.servedKv := rfl
@[simp] theorem modWeights_servedAttn (f : Weights → Weights) : (s.modWeights f).servedAttn = s.servedAttn := rfl
@[simp] theorem modWeights_weights (f : Weights → Weights) : (s.modWeights f).weights = f s.weights := rfl
@[simp] theorem modWeights_mem (f : Weights → Weights) : (s.modWeights f).mem = s.mem := rfl
@[simp] theorem modWeights_links (f : Weights → Weights) : (s.modWeights f).links = s.links := rfl
@[simp] theorem modWeights_partner (f : Weights → Weights) : (s.modWeights f).partner = s.partner := rfl
@[simp] theorem modWeights_faults (f : Weights → Weights) : (s.modWeights f).faults = s.faults := rfl
@[simp] theorem modWeights_hk (f : Weights → Weights) : (s.modWeights f).hk = s.hk := rfl
@[simp] theorem modWeights_power (f : Weights → Weights) : (s.modWeights f).power = s.power := rfl
@[simp] theorem modWeights_sec (f : Weights → Weights) : (s.modWeights f).sec = s.sec := rfl
@[simp] theorem modWeights_drains (f : Weights → Weights) : (s.modWeights f).drains = s.drains := rfl
@[simp] theorem modWeights_free (f : Weights → Weights) : (s.modWeights f).free = s.free := rfl
@[simp] theorem modWeights_out (f : Weights → Weights) : (s.modWeights f).out = s.out := rfl
@[simp] theorem modWeights_pending (f : Weights → Weights) : (s.modWeights f).pending = s.pending := rfl

@[simp] theorem modPartner_pins (f : Partner → Partner) : (s.modPartner f).pins = s.pins := rfl
@[simp] theorem modPartner_boot (f : Partner → Partner) : (s.modPartner f).boot = s.boot := rfl
@[simp] theorem modPartner_regs (f : Partner → Partner) : (s.modPartner f).regs = s.regs := rfl
@[simp] theorem modPartner_parts (f : Partner → Partner) : (s.modPartner f).parts = s.parts := rfl
@[simp] theorem modPartner_rings (f : Partner → Partner) : (s.modPartner f).rings = s.rings := rfl
@[simp] theorem modPartner_tick (f : Partner → Partner) : (s.modPartner f).tick = s.tick := rfl
@[simp] theorem modPartner_ticking (f : Partner → Partner) : (s.modPartner f).ticking = s.ticking := rfl
@[simp] theorem modPartner_trims (f : Partner → Partner) : (s.modPartner f).trims = s.trims := rfl
@[simp] theorem modPartner_counters (f : Partner → Partner) : (s.modPartner f).counters = s.counters := rfl
@[simp] theorem modPartner_jobs (f : Partner → Partner) : (s.modPartner f).jobs = s.jobs := rfl
@[simp] theorem modPartner_calls (f : Partner → Partner) : (s.modPartner f).calls = s.calls := rfl
@[simp] theorem modPartner_steps (f : Partner → Partner) : (s.modPartner f).steps = s.steps := rfl
@[simp] theorem modPartner_batch (f : Partner → Partner) : (s.modPartner f).batch = s.batch := rfl
@[simp] theorem modPartner_sched (f : Partner → Partner) : (s.modPartner f).sched = s.sched := rfl
@[simp] theorem modPartner_splitHead (f : Partner → Partner) : (s.modPartner f).splitHead = s.splitHead := rfl
@[simp] theorem modPartner_stage (f : Partner → Partner) : (s.modPartner f).stage = s.stage := rfl
@[simp] theorem modPartner_batchNo (f : Partner → Partner) : (s.modPartner f).batchNo = s.batchNo := rfl
@[simp] theorem modPartner_customers (f : Partner → Partner) : (s.modPartner f).customers = s.customers := rfl
@[simp] theorem modPartner_grafts (f : Partner → Partner) : (s.modPartner f).grafts = s.grafts := rfl
@[simp] theorem modPartner_mattes (f : Partner → Partner) : (s.modPartner f).mattes = s.mattes := rfl
@[simp] theorem modPartner_tiles (f : Partner → Partner) : (s.modPartner f).tiles = s.tiles := rfl
@[simp] theorem modPartner_boughs (f : Partner → Partner) : (s.modPartner f).boughs = s.boughs := rfl
@[simp] theorem modPartner_calSave (f : Partner → Partner) : (s.modPartner f).calSave = s.calSave := rfl
@[simp] theorem modPartner_prods (f : Partner → Partner) : (s.modPartner f).prods = s.prods := rfl
@[simp] theorem modPartner_nextProd (f : Partner → Partner) : (s.modPartner f).nextProd = s.nextProd := rfl
@[simp] theorem modPartner_nextOrder (f : Partner → Partner) : (s.modPartner f).nextOrder = s.nextOrder := rfl
@[simp] theorem modPartner_sums (f : Partner → Partner) : (s.modPartner f).sums = s.sums := rfl
@[simp] theorem modPartner_handoffs (f : Partner → Partner) : (s.modPartner f).handoffs = s.handoffs := rfl
@[simp] theorem modPartner_acts (f : Partner → Partner) : (s.modPartner f).acts = s.acts := rfl
@[simp] theorem modPartner_xferWaits (f : Partner → Partner) : (s.modPartner f).xferWaits = s.xferWaits := rfl
@[simp] theorem modPartner_histos (f : Partner → Partner) : (s.modPartner f).histos = s.histos := rfl
@[simp] theorem modPartner_canopy (f : Partner → Partner) : (s.modPartner f).canopy = s.canopy := rfl
@[simp] theorem modPartner_backs (f : Partner → Partner) : (s.modPartner f).backs = s.backs := rfl
@[simp] theorem modPartner_latches (f : Partner → Partner) : (s.modPartner f).latches = s.latches := rfl
@[simp] theorem modPartner_attnWaits (f : Partner → Partner) : (s.modPartner f).attnWaits = s.attnWaits := rfl
@[simp] theorem modPartner_servedKv (f : Partner → Partner) : (s.modPartner f).servedKv = s.servedKv := rfl
@[simp] theorem modPartner_servedAttn (f : Partner → Partner) : (s.modPartner f).servedAttn = s.servedAttn := rfl
@[simp] theorem modPartner_weights (f : Partner → Partner) : (s.modPartner f).weights = s.weights := rfl
@[simp] theorem modPartner_mem (f : Partner → Partner) : (s.modPartner f).mem = s.mem := rfl
@[simp] theorem modPartner_links (f : Partner → Partner) : (s.modPartner f).links = s.links := rfl
@[simp] theorem modPartner_partner (f : Partner → Partner) : (s.modPartner f).partner = f s.partner := rfl
@[simp] theorem modPartner_faults (f : Partner → Partner) : (s.modPartner f).faults = s.faults := rfl
@[simp] theorem modPartner_hk (f : Partner → Partner) : (s.modPartner f).hk = s.hk := rfl
@[simp] theorem modPartner_power (f : Partner → Partner) : (s.modPartner f).power = s.power := rfl
@[simp] theorem modPartner_sec (f : Partner → Partner) : (s.modPartner f).sec = s.sec := rfl
@[simp] theorem modPartner_drains (f : Partner → Partner) : (s.modPartner f).drains = s.drains := rfl
@[simp] theorem modPartner_free (f : Partner → Partner) : (s.modPartner f).free = s.free := rfl
@[simp] theorem modPartner_out (f : Partner → Partner) : (s.modPartner f).out = s.out := rfl
@[simp] theorem modPartner_pending (f : Partner → Partner) : (s.modPartner f).pending = s.pending := rfl

@[simp] theorem modFaults_pins (f : Faults → Faults) : (s.modFaults f).pins = s.pins := rfl
@[simp] theorem modFaults_boot (f : Faults → Faults) : (s.modFaults f).boot = s.boot := rfl
@[simp] theorem modFaults_regs (f : Faults → Faults) : (s.modFaults f).regs = s.regs := rfl
@[simp] theorem modFaults_parts (f : Faults → Faults) : (s.modFaults f).parts = s.parts := rfl
@[simp] theorem modFaults_rings (f : Faults → Faults) : (s.modFaults f).rings = s.rings := rfl
@[simp] theorem modFaults_tick (f : Faults → Faults) : (s.modFaults f).tick = s.tick := rfl
@[simp] theorem modFaults_ticking (f : Faults → Faults) : (s.modFaults f).ticking = s.ticking := rfl
@[simp] theorem modFaults_trims (f : Faults → Faults) : (s.modFaults f).trims = s.trims := rfl
@[simp] theorem modFaults_counters (f : Faults → Faults) : (s.modFaults f).counters = s.counters := rfl
@[simp] theorem modFaults_jobs (f : Faults → Faults) : (s.modFaults f).jobs = s.jobs := rfl
@[simp] theorem modFaults_calls (f : Faults → Faults) : (s.modFaults f).calls = s.calls := rfl
@[simp] theorem modFaults_steps (f : Faults → Faults) : (s.modFaults f).steps = s.steps := rfl
@[simp] theorem modFaults_batch (f : Faults → Faults) : (s.modFaults f).batch = s.batch := rfl
@[simp] theorem modFaults_sched (f : Faults → Faults) : (s.modFaults f).sched = s.sched := rfl
@[simp] theorem modFaults_splitHead (f : Faults → Faults) : (s.modFaults f).splitHead = s.splitHead := rfl
@[simp] theorem modFaults_stage (f : Faults → Faults) : (s.modFaults f).stage = s.stage := rfl
@[simp] theorem modFaults_batchNo (f : Faults → Faults) : (s.modFaults f).batchNo = s.batchNo := rfl
@[simp] theorem modFaults_customers (f : Faults → Faults) : (s.modFaults f).customers = s.customers := rfl
@[simp] theorem modFaults_grafts (f : Faults → Faults) : (s.modFaults f).grafts = s.grafts := rfl
@[simp] theorem modFaults_mattes (f : Faults → Faults) : (s.modFaults f).mattes = s.mattes := rfl
@[simp] theorem modFaults_tiles (f : Faults → Faults) : (s.modFaults f).tiles = s.tiles := rfl
@[simp] theorem modFaults_boughs (f : Faults → Faults) : (s.modFaults f).boughs = s.boughs := rfl
@[simp] theorem modFaults_calSave (f : Faults → Faults) : (s.modFaults f).calSave = s.calSave := rfl
@[simp] theorem modFaults_prods (f : Faults → Faults) : (s.modFaults f).prods = s.prods := rfl
@[simp] theorem modFaults_nextProd (f : Faults → Faults) : (s.modFaults f).nextProd = s.nextProd := rfl
@[simp] theorem modFaults_nextOrder (f : Faults → Faults) : (s.modFaults f).nextOrder = s.nextOrder := rfl
@[simp] theorem modFaults_sums (f : Faults → Faults) : (s.modFaults f).sums = s.sums := rfl
@[simp] theorem modFaults_handoffs (f : Faults → Faults) : (s.modFaults f).handoffs = s.handoffs := rfl
@[simp] theorem modFaults_acts (f : Faults → Faults) : (s.modFaults f).acts = s.acts := rfl
@[simp] theorem modFaults_xferWaits (f : Faults → Faults) : (s.modFaults f).xferWaits = s.xferWaits := rfl
@[simp] theorem modFaults_histos (f : Faults → Faults) : (s.modFaults f).histos = s.histos := rfl
@[simp] theorem modFaults_canopy (f : Faults → Faults) : (s.modFaults f).canopy = s.canopy := rfl
@[simp] theorem modFaults_backs (f : Faults → Faults) : (s.modFaults f).backs = s.backs := rfl
@[simp] theorem modFaults_latches (f : Faults → Faults) : (s.modFaults f).latches = s.latches := rfl
@[simp] theorem modFaults_attnWaits (f : Faults → Faults) : (s.modFaults f).attnWaits = s.attnWaits := rfl
@[simp] theorem modFaults_servedKv (f : Faults → Faults) : (s.modFaults f).servedKv = s.servedKv := rfl
@[simp] theorem modFaults_servedAttn (f : Faults → Faults) : (s.modFaults f).servedAttn = s.servedAttn := rfl
@[simp] theorem modFaults_weights (f : Faults → Faults) : (s.modFaults f).weights = s.weights := rfl
@[simp] theorem modFaults_mem (f : Faults → Faults) : (s.modFaults f).mem = s.mem := rfl
@[simp] theorem modFaults_links (f : Faults → Faults) : (s.modFaults f).links = s.links := rfl
@[simp] theorem modFaults_partner (f : Faults → Faults) : (s.modFaults f).partner = s.partner := rfl
@[simp] theorem modFaults_faults (f : Faults → Faults) : (s.modFaults f).faults = f s.faults := rfl
@[simp] theorem modFaults_hk (f : Faults → Faults) : (s.modFaults f).hk = s.hk := rfl
@[simp] theorem modFaults_power (f : Faults → Faults) : (s.modFaults f).power = s.power := rfl
@[simp] theorem modFaults_sec (f : Faults → Faults) : (s.modFaults f).sec = s.sec := rfl
@[simp] theorem modFaults_drains (f : Faults → Faults) : (s.modFaults f).drains = s.drains := rfl
@[simp] theorem modFaults_free (f : Faults → Faults) : (s.modFaults f).free = s.free := rfl
@[simp] theorem modFaults_out (f : Faults → Faults) : (s.modFaults f).out = s.out := rfl
@[simp] theorem modFaults_pending (f : Faults → Faults) : (s.modFaults f).pending = s.pending := rfl

@[simp] theorem modPins_pins (f : Pins → Pins) : (s.modPins f).pins = f s.pins := rfl
@[simp] theorem modPins_boot (f : Pins → Pins) : (s.modPins f).boot = s.boot := rfl
@[simp] theorem modPins_regs (f : Pins → Pins) : (s.modPins f).regs = s.regs := rfl
@[simp] theorem modPins_parts (f : Pins → Pins) : (s.modPins f).parts = s.parts := rfl
@[simp] theorem modPins_rings (f : Pins → Pins) : (s.modPins f).rings = s.rings := rfl
@[simp] theorem modPins_tick (f : Pins → Pins) : (s.modPins f).tick = s.tick := rfl
@[simp] theorem modPins_ticking (f : Pins → Pins) : (s.modPins f).ticking = s.ticking := rfl
@[simp] theorem modPins_trims (f : Pins → Pins) : (s.modPins f).trims = s.trims := rfl
@[simp] theorem modPins_counters (f : Pins → Pins) : (s.modPins f).counters = s.counters := rfl
@[simp] theorem modPins_jobs (f : Pins → Pins) : (s.modPins f).jobs = s.jobs := rfl
@[simp] theorem modPins_calls (f : Pins → Pins) : (s.modPins f).calls = s.calls := rfl
@[simp] theorem modPins_steps (f : Pins → Pins) : (s.modPins f).steps = s.steps := rfl
@[simp] theorem modPins_batch (f : Pins → Pins) : (s.modPins f).batch = s.batch := rfl
@[simp] theorem modPins_sched (f : Pins → Pins) : (s.modPins f).sched = s.sched := rfl
@[simp] theorem modPins_splitHead (f : Pins → Pins) : (s.modPins f).splitHead = s.splitHead := rfl
@[simp] theorem modPins_stage (f : Pins → Pins) : (s.modPins f).stage = s.stage := rfl
@[simp] theorem modPins_batchNo (f : Pins → Pins) : (s.modPins f).batchNo = s.batchNo := rfl
@[simp] theorem modPins_customers (f : Pins → Pins) : (s.modPins f).customers = s.customers := rfl
@[simp] theorem modPins_grafts (f : Pins → Pins) : (s.modPins f).grafts = s.grafts := rfl
@[simp] theorem modPins_mattes (f : Pins → Pins) : (s.modPins f).mattes = s.mattes := rfl
@[simp] theorem modPins_tiles (f : Pins → Pins) : (s.modPins f).tiles = s.tiles := rfl
@[simp] theorem modPins_boughs (f : Pins → Pins) : (s.modPins f).boughs = s.boughs := rfl
@[simp] theorem modPins_calSave (f : Pins → Pins) : (s.modPins f).calSave = s.calSave := rfl
@[simp] theorem modPins_prods (f : Pins → Pins) : (s.modPins f).prods = s.prods := rfl
@[simp] theorem modPins_nextProd (f : Pins → Pins) : (s.modPins f).nextProd = s.nextProd := rfl
@[simp] theorem modPins_nextOrder (f : Pins → Pins) : (s.modPins f).nextOrder = s.nextOrder := rfl
@[simp] theorem modPins_sums (f : Pins → Pins) : (s.modPins f).sums = s.sums := rfl
@[simp] theorem modPins_handoffs (f : Pins → Pins) : (s.modPins f).handoffs = s.handoffs := rfl
@[simp] theorem modPins_acts (f : Pins → Pins) : (s.modPins f).acts = s.acts := rfl
@[simp] theorem modPins_xferWaits (f : Pins → Pins) : (s.modPins f).xferWaits = s.xferWaits := rfl
@[simp] theorem modPins_histos (f : Pins → Pins) : (s.modPins f).histos = s.histos := rfl
@[simp] theorem modPins_canopy (f : Pins → Pins) : (s.modPins f).canopy = s.canopy := rfl
@[simp] theorem modPins_backs (f : Pins → Pins) : (s.modPins f).backs = s.backs := rfl
@[simp] theorem modPins_latches (f : Pins → Pins) : (s.modPins f).latches = s.latches := rfl
@[simp] theorem modPins_attnWaits (f : Pins → Pins) : (s.modPins f).attnWaits = s.attnWaits := rfl
@[simp] theorem modPins_servedKv (f : Pins → Pins) : (s.modPins f).servedKv = s.servedKv := rfl
@[simp] theorem modPins_servedAttn (f : Pins → Pins) : (s.modPins f).servedAttn = s.servedAttn := rfl
@[simp] theorem modPins_weights (f : Pins → Pins) : (s.modPins f).weights = s.weights := rfl
@[simp] theorem modPins_mem (f : Pins → Pins) : (s.modPins f).mem = s.mem := rfl
@[simp] theorem modPins_links (f : Pins → Pins) : (s.modPins f).links = s.links := rfl
@[simp] theorem modPins_partner (f : Pins → Pins) : (s.modPins f).partner = s.partner := rfl
@[simp] theorem modPins_faults (f : Pins → Pins) : (s.modPins f).faults = s.faults := rfl
@[simp] theorem modPins_hk (f : Pins → Pins) : (s.modPins f).hk = s.hk := rfl
@[simp] theorem modPins_power (f : Pins → Pins) : (s.modPins f).power = s.power := rfl
@[simp] theorem modPins_sec (f : Pins → Pins) : (s.modPins f).sec = s.sec := rfl
@[simp] theorem modPins_drains (f : Pins → Pins) : (s.modPins f).drains = s.drains := rfl
@[simp] theorem modPins_free (f : Pins → Pins) : (s.modPins f).free = s.free := rfl
@[simp] theorem modPins_out (f : Pins → Pins) : (s.modPins f).out = s.out := rfl
@[simp] theorem modPins_pending (f : Pins → Pins) : (s.modPins f).pending = s.pending := rfl

@[simp] theorem emit_pins (e : Emit) : (s.emit e).pins = s.pins := rfl
@[simp] theorem emit_boot (e : Emit) : (s.emit e).boot = s.boot := rfl
@[simp] theorem emit_regs (e : Emit) : (s.emit e).regs = s.regs := rfl
@[simp] theorem emit_parts (e : Emit) : (s.emit e).parts = s.parts := rfl
@[simp] theorem emit_rings (e : Emit) : (s.emit e).rings = s.rings := rfl
@[simp] theorem emit_tick (e : Emit) : (s.emit e).tick = s.tick := rfl
@[simp] theorem emit_ticking (e : Emit) : (s.emit e).ticking = s.ticking := rfl
@[simp] theorem emit_trims (e : Emit) : (s.emit e).trims = s.trims := rfl
@[simp] theorem emit_counters (e : Emit) : (s.emit e).counters = s.counters := rfl
@[simp] theorem emit_jobs (e : Emit) : (s.emit e).jobs = s.jobs := rfl
@[simp] theorem emit_calls (e : Emit) : (s.emit e).calls = s.calls := rfl
@[simp] theorem emit_steps (e : Emit) : (s.emit e).steps = s.steps := rfl
@[simp] theorem emit_batch (e : Emit) : (s.emit e).batch = s.batch := rfl
@[simp] theorem emit_sched (e : Emit) : (s.emit e).sched = s.sched := rfl
@[simp] theorem emit_splitHead (e : Emit) : (s.emit e).splitHead = s.splitHead := rfl
@[simp] theorem emit_stage (e : Emit) : (s.emit e).stage = s.stage := rfl
@[simp] theorem emit_batchNo (e : Emit) : (s.emit e).batchNo = s.batchNo := rfl
@[simp] theorem emit_customers (e : Emit) : (s.emit e).customers = s.customers := rfl
@[simp] theorem emit_grafts (e : Emit) : (s.emit e).grafts = s.grafts := rfl
@[simp] theorem emit_mattes (e : Emit) : (s.emit e).mattes = s.mattes := rfl
@[simp] theorem emit_tiles (e : Emit) : (s.emit e).tiles = s.tiles := rfl
@[simp] theorem emit_boughs (e : Emit) : (s.emit e).boughs = s.boughs := rfl
@[simp] theorem emit_calSave (e : Emit) : (s.emit e).calSave = s.calSave := rfl
@[simp] theorem emit_prods (e : Emit) : (s.emit e).prods = s.prods := rfl
@[simp] theorem emit_nextProd (e : Emit) : (s.emit e).nextProd = s.nextProd := rfl
@[simp] theorem emit_nextOrder (e : Emit) : (s.emit e).nextOrder = s.nextOrder := rfl
@[simp] theorem emit_sums (e : Emit) : (s.emit e).sums = s.sums := rfl
@[simp] theorem emit_handoffs (e : Emit) : (s.emit e).handoffs = s.handoffs := rfl
@[simp] theorem emit_acts (e : Emit) : (s.emit e).acts = s.acts := rfl
@[simp] theorem emit_xferWaits (e : Emit) : (s.emit e).xferWaits = s.xferWaits := rfl
@[simp] theorem emit_histos (e : Emit) : (s.emit e).histos = s.histos := rfl
@[simp] theorem emit_canopy (e : Emit) : (s.emit e).canopy = s.canopy := rfl
@[simp] theorem emit_backs (e : Emit) : (s.emit e).backs = s.backs := rfl
@[simp] theorem emit_latches (e : Emit) : (s.emit e).latches = s.latches := rfl
@[simp] theorem emit_attnWaits (e : Emit) : (s.emit e).attnWaits = s.attnWaits := rfl
@[simp] theorem emit_servedKv (e : Emit) : (s.emit e).servedKv = s.servedKv := rfl
@[simp] theorem emit_servedAttn (e : Emit) : (s.emit e).servedAttn = s.servedAttn := rfl
@[simp] theorem emit_weights (e : Emit) : (s.emit e).weights = s.weights := rfl
@[simp] theorem emit_mem (e : Emit) : (s.emit e).mem = s.mem := rfl
@[simp] theorem emit_links (e : Emit) : (s.emit e).links = s.links := rfl
@[simp] theorem emit_partner (e : Emit) : (s.emit e).partner = s.partner := rfl
@[simp] theorem emit_faults (e : Emit) : (s.emit e).faults = s.faults := rfl
@[simp] theorem emit_hk (e : Emit) : (s.emit e).hk = s.hk := rfl
@[simp] theorem emit_power (e : Emit) : (s.emit e).power = s.power := rfl
@[simp] theorem emit_sec (e : Emit) : (s.emit e).sec = s.sec := rfl
@[simp] theorem emit_drains (e : Emit) : (s.emit e).drains = s.drains := rfl
@[simp] theorem emit_free (e : Emit) : (s.emit e).free = s.free := rfl
@[simp] theorem emit_out (e : Emit) : (s.emit e).out = s.out ++ [e] := rfl
@[simp] theorem emit_pending (e : Emit) : (s.emit e).pending = s.pending := rfl

@[simp] theorem draw_pins : (s.draw).pins = s.pins := rfl
@[simp] theorem draw_boot : (s.draw).boot = s.boot := rfl
@[simp] theorem draw_regs : (s.draw).regs = s.regs := rfl
@[simp] theorem draw_parts : (s.draw).parts = s.parts := rfl
@[simp] theorem draw_rings : (s.draw).rings = s.rings := rfl
@[simp] theorem draw_tick : (s.draw).tick = s.tick := rfl
@[simp] theorem draw_ticking : (s.draw).ticking = s.ticking := rfl
@[simp] theorem draw_trims : (s.draw).trims = s.trims := rfl
@[simp] theorem draw_counters : (s.draw).counters = s.counters := rfl
@[simp] theorem draw_jobs : (s.draw).jobs = s.jobs := rfl
@[simp] theorem draw_calls : (s.draw).calls = s.calls := rfl
@[simp] theorem draw_steps : (s.draw).steps = s.steps := rfl
@[simp] theorem draw_batch : (s.draw).batch = s.batch := rfl
@[simp] theorem draw_sched : (s.draw).sched = s.sched := rfl
@[simp] theorem draw_splitHead : (s.draw).splitHead = s.splitHead := rfl
@[simp] theorem draw_stage : (s.draw).stage = s.stage := rfl
@[simp] theorem draw_batchNo : (s.draw).batchNo = s.batchNo := rfl
@[simp] theorem draw_customers : (s.draw).customers = s.customers := rfl
@[simp] theorem draw_grafts : (s.draw).grafts = s.grafts := rfl
@[simp] theorem draw_mattes : (s.draw).mattes = s.mattes := rfl
@[simp] theorem draw_tiles : (s.draw).tiles = s.tiles := rfl
@[simp] theorem draw_boughs : (s.draw).boughs = s.boughs := rfl
@[simp] theorem draw_calSave : (s.draw).calSave = s.calSave := rfl
@[simp] theorem draw_prods : (s.draw).prods = s.prods := rfl
@[simp] theorem draw_nextProd : (s.draw).nextProd = s.nextProd := rfl
@[simp] theorem draw_nextOrder : (s.draw).nextOrder = s.nextOrder := rfl
@[simp] theorem draw_sums : (s.draw).sums = s.sums := rfl
@[simp] theorem draw_handoffs : (s.draw).handoffs = s.handoffs := rfl
@[simp] theorem draw_acts : (s.draw).acts = s.acts := rfl
@[simp] theorem draw_xferWaits : (s.draw).xferWaits = s.xferWaits := rfl
@[simp] theorem draw_histos : (s.draw).histos = s.histos := rfl
@[simp] theorem draw_canopy : (s.draw).canopy = s.canopy := rfl
@[simp] theorem draw_backs : (s.draw).backs = s.backs := rfl
@[simp] theorem draw_latches : (s.draw).latches = s.latches := rfl
@[simp] theorem draw_attnWaits : (s.draw).attnWaits = s.attnWaits := rfl
@[simp] theorem draw_servedKv : (s.draw).servedKv = s.servedKv := rfl
@[simp] theorem draw_servedAttn : (s.draw).servedAttn = s.servedAttn := rfl
@[simp] theorem draw_weights : (s.draw).weights = s.weights := rfl
@[simp] theorem draw_mem : (s.draw).mem = s.mem := rfl
@[simp] theorem draw_links : (s.draw).links = s.links := rfl
@[simp] theorem draw_partner : (s.draw).partner = s.partner := rfl
@[simp] theorem draw_faults : (s.draw).faults = s.faults := rfl
@[simp] theorem draw_hk : (s.draw).hk = s.hk := rfl
@[simp] theorem draw_power : (s.draw).power = s.power := rfl
@[simp] theorem draw_sec : (s.draw).sec = s.sec := rfl
@[simp] theorem draw_drains : (s.draw).drains = s.drains := rfl
@[simp] theorem draw_free : (s.draw).free = s.free + 1 := rfl
@[simp] theorem draw_out : (s.draw).out = s.out := rfl
@[simp] theorem draw_pending : (s.draw).pending = s.pending := rfl

@[simp] theorem count_pins (k n : Nat) : (s.count k n).pins = s.pins := rfl
@[simp] theorem count_boot (k n : Nat) : (s.count k n).boot = s.boot := rfl
@[simp] theorem count_regs (k n : Nat) : (s.count k n).regs = s.regs := rfl
@[simp] theorem count_parts (k n : Nat) : (s.count k n).parts = s.parts := rfl
@[simp] theorem count_rings (k n : Nat) : (s.count k n).rings = s.rings := rfl
@[simp] theorem count_tick (k n : Nat) : (s.count k n).tick = s.tick := rfl
@[simp] theorem count_ticking (k n : Nat) : (s.count k n).ticking = s.ticking := rfl
@[simp] theorem count_trims (k n : Nat) : (s.count k n).trims = s.trims := rfl
@[simp] theorem count_counters (k n : Nat) : (s.count k n).counters = Tbl.update 0 k (fun v => satAdd 48 v n) s.counters := rfl
@[simp] theorem count_jobs (k n : Nat) : (s.count k n).jobs = s.jobs := rfl
@[simp] theorem count_calls (k n : Nat) : (s.count k n).calls = s.calls := rfl
@[simp] theorem count_steps (k n : Nat) : (s.count k n).steps = s.steps := rfl
@[simp] theorem count_batch (k n : Nat) : (s.count k n).batch = s.batch := rfl
@[simp] theorem count_sched (k n : Nat) : (s.count k n).sched = s.sched := rfl
@[simp] theorem count_splitHead (k n : Nat) : (s.count k n).splitHead = s.splitHead := rfl
@[simp] theorem count_stage (k n : Nat) : (s.count k n).stage = s.stage := rfl
@[simp] theorem count_batchNo (k n : Nat) : (s.count k n).batchNo = s.batchNo := rfl
@[simp] theorem count_customers (k n : Nat) : (s.count k n).customers = s.customers := rfl
@[simp] theorem count_grafts (k n : Nat) : (s.count k n).grafts = s.grafts := rfl
@[simp] theorem count_mattes (k n : Nat) : (s.count k n).mattes = s.mattes := rfl
@[simp] theorem count_tiles (k n : Nat) : (s.count k n).tiles = s.tiles := rfl
@[simp] theorem count_boughs (k n : Nat) : (s.count k n).boughs = s.boughs := rfl
@[simp] theorem count_calSave (k n : Nat) : (s.count k n).calSave = s.calSave := rfl
@[simp] theorem count_prods (k n : Nat) : (s.count k n).prods = s.prods := rfl
@[simp] theorem count_nextProd (k n : Nat) : (s.count k n).nextProd = s.nextProd := rfl
@[simp] theorem count_nextOrder (k n : Nat) : (s.count k n).nextOrder = s.nextOrder := rfl
@[simp] theorem count_sums (k n : Nat) : (s.count k n).sums = s.sums := rfl
@[simp] theorem count_handoffs (k n : Nat) : (s.count k n).handoffs = s.handoffs := rfl
@[simp] theorem count_acts (k n : Nat) : (s.count k n).acts = s.acts := rfl
@[simp] theorem count_xferWaits (k n : Nat) : (s.count k n).xferWaits = s.xferWaits := rfl
@[simp] theorem count_histos (k n : Nat) : (s.count k n).histos = s.histos := rfl
@[simp] theorem count_canopy (k n : Nat) : (s.count k n).canopy = s.canopy := rfl
@[simp] theorem count_backs (k n : Nat) : (s.count k n).backs = s.backs := rfl
@[simp] theorem count_latches (k n : Nat) : (s.count k n).latches = s.latches := rfl
@[simp] theorem count_attnWaits (k n : Nat) : (s.count k n).attnWaits = s.attnWaits := rfl
@[simp] theorem count_servedKv (k n : Nat) : (s.count k n).servedKv = s.servedKv := rfl
@[simp] theorem count_servedAttn (k n : Nat) : (s.count k n).servedAttn = s.servedAttn := rfl
@[simp] theorem count_weights (k n : Nat) : (s.count k n).weights = s.weights := rfl
@[simp] theorem count_mem (k n : Nat) : (s.count k n).mem = s.mem := rfl
@[simp] theorem count_links (k n : Nat) : (s.count k n).links = s.links := rfl
@[simp] theorem count_partner (k n : Nat) : (s.count k n).partner = s.partner := rfl
@[simp] theorem count_faults (k n : Nat) : (s.count k n).faults = s.faults := rfl
@[simp] theorem count_hk (k n : Nat) : (s.count k n).hk = s.hk := rfl
@[simp] theorem count_power (k n : Nat) : (s.count k n).power = s.power := rfl
@[simp] theorem count_sec (k n : Nat) : (s.count k n).sec = s.sec := rfl
@[simp] theorem count_drains (k n : Nat) : (s.count k n).drains = s.drains := rfl
@[simp] theorem count_free (k n : Nat) : (s.count k n).free = s.free := rfl
@[simp] theorem count_out (k n : Nat) : (s.count k n).out = s.out := rfl
@[simp] theorem count_pending (k n : Nat) : (s.count k n).pending = s.pending := rfl

@[simp] theorem levelMax_pins (k v : Nat) : (s.levelMax k v).pins = s.pins := rfl
@[simp] theorem levelMax_boot (k v : Nat) : (s.levelMax k v).boot = s.boot := rfl
@[simp] theorem levelMax_regs (k v : Nat) : (s.levelMax k v).regs = s.regs := rfl
@[simp] theorem levelMax_parts (k v : Nat) : (s.levelMax k v).parts = s.parts := rfl
@[simp] theorem levelMax_rings (k v : Nat) : (s.levelMax k v).rings = s.rings := rfl
@[simp] theorem levelMax_tick (k v : Nat) : (s.levelMax k v).tick = s.tick := rfl
@[simp] theorem levelMax_ticking (k v : Nat) : (s.levelMax k v).ticking = s.ticking := rfl
@[simp] theorem levelMax_trims (k v : Nat) : (s.levelMax k v).trims = s.trims := rfl
@[simp] theorem levelMax_counters (k v : Nat) : (s.levelMax k v).counters = Tbl.update 0 k (fun w => min (2 ^ 48 - 1) (max w v)) s.counters := rfl
@[simp] theorem levelMax_jobs (k v : Nat) : (s.levelMax k v).jobs = s.jobs := rfl
@[simp] theorem levelMax_calls (k v : Nat) : (s.levelMax k v).calls = s.calls := rfl
@[simp] theorem levelMax_steps (k v : Nat) : (s.levelMax k v).steps = s.steps := rfl
@[simp] theorem levelMax_batch (k v : Nat) : (s.levelMax k v).batch = s.batch := rfl
@[simp] theorem levelMax_sched (k v : Nat) : (s.levelMax k v).sched = s.sched := rfl
@[simp] theorem levelMax_splitHead (k v : Nat) : (s.levelMax k v).splitHead = s.splitHead := rfl
@[simp] theorem levelMax_stage (k v : Nat) : (s.levelMax k v).stage = s.stage := rfl
@[simp] theorem levelMax_batchNo (k v : Nat) : (s.levelMax k v).batchNo = s.batchNo := rfl
@[simp] theorem levelMax_customers (k v : Nat) : (s.levelMax k v).customers = s.customers := rfl
@[simp] theorem levelMax_grafts (k v : Nat) : (s.levelMax k v).grafts = s.grafts := rfl
@[simp] theorem levelMax_mattes (k v : Nat) : (s.levelMax k v).mattes = s.mattes := rfl
@[simp] theorem levelMax_tiles (k v : Nat) : (s.levelMax k v).tiles = s.tiles := rfl
@[simp] theorem levelMax_boughs (k v : Nat) : (s.levelMax k v).boughs = s.boughs := rfl
@[simp] theorem levelMax_calSave (k v : Nat) : (s.levelMax k v).calSave = s.calSave := rfl
@[simp] theorem levelMax_prods (k v : Nat) : (s.levelMax k v).prods = s.prods := rfl
@[simp] theorem levelMax_nextProd (k v : Nat) : (s.levelMax k v).nextProd = s.nextProd := rfl
@[simp] theorem levelMax_nextOrder (k v : Nat) : (s.levelMax k v).nextOrder = s.nextOrder := rfl
@[simp] theorem levelMax_sums (k v : Nat) : (s.levelMax k v).sums = s.sums := rfl
@[simp] theorem levelMax_handoffs (k v : Nat) : (s.levelMax k v).handoffs = s.handoffs := rfl
@[simp] theorem levelMax_acts (k v : Nat) : (s.levelMax k v).acts = s.acts := rfl
@[simp] theorem levelMax_xferWaits (k v : Nat) : (s.levelMax k v).xferWaits = s.xferWaits := rfl
@[simp] theorem levelMax_histos (k v : Nat) : (s.levelMax k v).histos = s.histos := rfl
@[simp] theorem levelMax_canopy (k v : Nat) : (s.levelMax k v).canopy = s.canopy := rfl
@[simp] theorem levelMax_backs (k v : Nat) : (s.levelMax k v).backs = s.backs := rfl
@[simp] theorem levelMax_latches (k v : Nat) : (s.levelMax k v).latches = s.latches := rfl
@[simp] theorem levelMax_attnWaits (k v : Nat) : (s.levelMax k v).attnWaits = s.attnWaits := rfl
@[simp] theorem levelMax_servedKv (k v : Nat) : (s.levelMax k v).servedKv = s.servedKv := rfl
@[simp] theorem levelMax_servedAttn (k v : Nat) : (s.levelMax k v).servedAttn = s.servedAttn := rfl
@[simp] theorem levelMax_weights (k v : Nat) : (s.levelMax k v).weights = s.weights := rfl
@[simp] theorem levelMax_mem (k v : Nat) : (s.levelMax k v).mem = s.mem := rfl
@[simp] theorem levelMax_links (k v : Nat) : (s.levelMax k v).links = s.links := rfl
@[simp] theorem levelMax_partner (k v : Nat) : (s.levelMax k v).partner = s.partner := rfl
@[simp] theorem levelMax_faults (k v : Nat) : (s.levelMax k v).faults = s.faults := rfl
@[simp] theorem levelMax_hk (k v : Nat) : (s.levelMax k v).hk = s.hk := rfl
@[simp] theorem levelMax_power (k v : Nat) : (s.levelMax k v).power = s.power := rfl
@[simp] theorem levelMax_sec (k v : Nat) : (s.levelMax k v).sec = s.sec := rfl
@[simp] theorem levelMax_drains (k v : Nat) : (s.levelMax k v).drains = s.drains := rfl
@[simp] theorem levelMax_free (k v : Nat) : (s.levelMax k v).free = s.free := rfl
@[simp] theorem levelMax_out (k v : Nat) : (s.levelMax k v).out = s.out := rfl
@[simp] theorem levelMax_pending (k v : Nat) : (s.levelMax k v).pending = s.pending := rfl

end Sys2Proof.Machine.State
end

