-- ==== Sys2Proof/Laws/Outcome.lean ====
section
/-! SUPPORT. What each shape of command can answer: an event with its guard, a descriptor held, refused or run, a flit accepted;
and where a completion record goes. -/

set_option Elab.async false

namespace Sys2Proof.Machine

/-! ### Events -/

theorem when_true {u : State} {row : String} {ok : Bool} (h : ok = true) : u.when row ok = .next u := by simp [State.when, h]

theorem when_next {u t : State} {row : String} {ok : Bool} (h : u.when row ok = .next t) : u = t := by
  unfold State.when at h; split at h <;> simp_all

theorem when_not_refused {u : State} {row : String} {ok : Bool} {r : Refusal} : u.when row ok ≠ .refused r := by
  unfold State.when; split <;> simp

/-! ### Flits -/

theorem FlitReady.guard {s : State} {hd : FlitHdr} {ports : List Port} {channels : List Nat} (h : s.FlitReady hd ports channels) :
    (s.accepts hd && ports.contains hd.port && channels.contains hd.channel.toNat) = true := by
  simp [h.accepted, h.port, h.channel]

theorem onFlit_ready {s : State} {row : String} {hd : FlitHdr} {ports : List Port} {channels : List Nat} {act : State → State}
    (h : s.FlitReady hd ports channels) :
    s.onFlit row hd ports channels act = .next ((act (s.acceptFlit hd)).acknowledge hd.port) := by
  unfold State.onFlit
  rw [if_neg (by simp [h.whole])]
  exact when_true (FlitReady.guard h)

/-- A flit one of whose words fails its parity on the way is not acted on: a warm reset arrives (R270). -/
theorem onFlit_torn {s : State} {row : String} {hd : FlitHdr} {ports : List Port} {channels : List Nat} {act : State → State}
    (h : s.accepts hd = true) (hp : hd.port ∈ ports) (hc : hd.channel.toNat ∈ channels) (ht : hd.torn = true) :
    s.onFlit row hd ports channels act = .next (((s.acceptFlit hd).acknowledge hd.port).resetArrives false 6) := by
  unfold State.onFlit
  rw [if_pos ht]
  exact when_true (by simp [h, hp, hc])

theorem onFlit_moves {s t : State} {row : String} {hd : FlitHdr} {ports : List Port} {channels : List Nat} {act : State → State}
    {l : List Field} (hl : Field.within [.links, .counters, .out] l = true)
    (ht : hd.torn = true → Field.within everyPiece l = true) (h : s.onFlit row hd ports channels act = .next t)
    (hr : ∀ u, Moves l s u → Moves l s (act u)) : Moves l s t := by
  have hw : ∀ {b : List Field}, Field.within b [.links, .counters, .out] = true → Field.within b l = true := fun hb => by
    simp only [Field.within, List.all_eq_true, List.contains_iff_mem] at hb hl ⊢
    exact fun f hf => hl f (hb f hf)
  have := when_next h
  subst this
  split
  · rename_i k
    refine State.resetArrives_moves (State.acknowledge_moves (State.acceptFlit_moves (Moves.refl _ _) ?_) ?_) (ht k) <;>
      (refine hw (show Field.within _ _ = true from ?_); decide)
  refine State.acknowledge_moves (hr _ (State.acceptFlit_moves (Moves.refl _ _) ?_)) ?_ <;>
    (refine hw (show Field.within _ _ = true from ?_); decide)

/-! ### Descriptors -/

theorem descriptor_held {s : State} {row : String} {f : Sys2Proof.Fetch} {run : Job → State → State}
    (hw : s.hasDescriptor f.ring = true) (hs : s.running = true ∨ s.boot.phase = .coldStart) (hf : s.fetchHeld f = true) :
    ∃ t, s.descriptor row true f run = .next t ∧ Moves [.parts, .counters] s t := by
  unfold State.descriptor
  rw [if_neg (by rcases hs with h | h <;> simp [hw, h]), if_pos hf]
  refine ⟨_, rfl, ?_⟩
  split
  · exact State.noteStall_moves (Moves.refl _ _) (by decide)
  · exact Moves.refl _ _

theorem Fetched.guard {s : State} {f : Sys2Proof.Fetch} (h : s.Fetched f) :
    (true && s.hasDescriptor f.ring && (s.running || decide (s.boot.phase = .coldStart))) = true := by
  rcases h.serves with k | k <;> simp [h.waiting, k]

theorem descriptor_refused {s : State} {row : String} {f : Sys2Proof.Fetch} {run : Job → State → State} {st : Status}
    (h : s.Fetched f) (hst : s.descStatus f = some st) :
    s.descriptor row true f run = .next ((s.advance f.ring).complete (s.jobOf f) st) := by
  unfold State.descriptor
  rw [if_neg (by rcases h.serves with k | k <;> simp [h.waiting, k]), if_neg (by simp [h.free]), if_neg (by simp [h.share])]
  simp only [hst]; rfl

theorem descriptor_accepted {s : State} {row : String} {f : Sys2Proof.Fetch} {run : Job → State → State} (h : s.Accepted f) :
    s.descriptor row true f run = .next (run (s.jobOf f) (s.advance f.ring)) := by
  unfold State.descriptor
  rw [if_neg (by rcases h.serves with k | k <;> simp [h.waiting, k]), if_neg (by simp [h.free]), if_neg (by simp [h.share])]
  simp only [h.checks]; rfl

theorem descriptor_moves {s t : State} {row : String} {named : Bool} {f : Sys2Proof.Fetch} {run : Job → State → State}
    {l : List Field} (hl : Field.within [.parts, .rings, .counters, .jobs, .out] l = true)
    (h : s.descriptor row named f run = .next t) (hr : ∀ j u, Moves l s u → Moves l s (run j u)) : Moves l s t := by
  have hw : ∀ {b : List Field}, Field.within b [.parts, .rings, .counters, .jobs, .out] = true → Field.within b l = true := fun hb => by
    simp only [Field.within, List.all_eq_true, List.contains_iff_mem] at hb hl ⊢
    exact fun f hf => hl f (hb f hf)
  unfold State.descriptor at h
  dsimp only at h
  repeat' split at h
  all_goals cases h
  all_goals first
    | (apply hr; repeat' first
        | with_reducible apply State.advance_moves | exact Moves.refl _ _
        | (refine hw (show Field.within _ _ = true from ?_); decide))
    | (repeat' first
        | with_reducible apply State.noteStall_moves | with_reducible apply State.notePremiumStop_moves
        | with_reducible apply State.complete_moves | with_reducible apply State.advance_moves | exact Moves.refl _ _
        | (refine hw (show Field.within _ _ = true from ?_); decide))

theorem descriptor_not_refused {s : State} {row : String} {named : Bool} {f : Sys2Proof.Fetch} {run : Job → State → State}
    {r : Refusal} : s.descriptor row named f run ≠ .refused r := by
  unfold State.descriptor
  dsimp only
  repeat' split
  all_goals simp

/-! ### Where a record goes -/

theorem ringNo_inj {a b : RingId} (ha : ringExists a = true) (hb : ringExists b = true) (h : ringNo a = ringNo b) : a = b := by
  cases a <;> cases b <;> simp_all [ringNo, ringExists] <;> omega

theorem ring_modRing_self {s : State} (c : s.Canonical) (r : RingId) (g : Ring → Ring) : (s.modRing r g).ring r = g (s.ring r) :=
  Tbl.get_update_self (Tbl.rising_of_wf c.rings)

theorem ring_modRing_ne {s : State} (c : s.Canonical) {r q : RingId} (h : ringNo q ≠ ringNo r) (g : Ring → Ring) :
    (s.modRing r g).ring q = s.ring q := Tbl.get_update_ne h (Tbl.rising_of_wf c.rings)

/-- What an operation on one ring does to the rings and the output: the other rings stay and output is only added. -/
structure OnRing (r : RingId) (s t : State) : Prop where
  canon : t.Canonical
  others : ∀ q, ringNo q ≠ ringNo r → t.ring q = s.ring q
  grows : s.out <+: t.out

theorem OnRing.refl {s : State} (c : s.Canonical) (r : RingId) : OnRing r s s := ⟨c, fun _ _ => rfl, List.prefix_rfl⟩

theorem OnRing.trans {r : RingId} {s t u : State} (h : OnRing r s t) (k : OnRing r t u) : OnRing r s u :=
  ⟨k.canon, fun q hq => (k.others q hq).trans (h.others q hq), h.grows.trans k.grows⟩

/-- A change that leaves rings alone. -/
theorem OnRing.of_moves {l : List Field} {r : RingId} {s t : State} (c : s.Canonical) (h : Moves l s t) (hl : Field.rings ∉ l) :
    OnRing r s t := ⟨h.canon c, fun q _ => by unfold State.ring; rw [show t.rings = s.rings from h.frame .rings hl], h.grows⟩

theorem modRing_onRing {s : State} (c : s.Canonical) (r : RingId) (g : Ring → Ring) : OnRing r s (s.modRing r g) :=
  ⟨(State.modRing_moves (fl := [.rings]) (Moves.refl _ _) (by decide)).canon c, fun _ hq => ring_modRing_ne c hq g, List.prefix_rfl⟩

theorem emit_onRing {s : State} (c : s.Canonical) (r : RingId) (e : Emit) : OnRing r s (s.emit e) :=
  OnRing.of_moves c (State.emit_moves (fl := [.out]) (Moves.refl _ _) (by decide)) (by decide)

theorem recordOut_onRing {s v : State} {r : RingId} (h : OnRing r s v) (frees : Option Nat) : OnRing r s (v.recordOut frees) :=
  h.trans (OnRing.of_moves h.canon (State.recordOut_moves (fl := [.calls]) (Moves.refl _ _) (by decide)) (by decide))

theorem recordOut_out (s : State) (frees : Option Nat) : (s.recordOut frees).out = s.out := by
  unfold State.recordOut
  split
  · rfl
  · split <;> rfl

theorem recordOut_rings (s : State) (frees : Option Nat) : (s.recordOut frees).rings = s.rings := by
  unfold State.recordOut
  split
  · rfl
  · split <;> rfl

theorem interrupt_onRing {s : State} (c : s.Canonical) (r : RingId) : OnRing r s (s.interrupt r) :=
  (emit_onRing c r _).trans (modRing_onRing (emit_onRing c r _).canon r _)

theorem interrupt_out (s : State) (r : RingId) : (s.interrupt r).out = s.out ++ [.irq (s.vector r)] := rfl

/-- The last part of writing a record: pending count and interrupt. -/
theorem announced_onRing {s v : State} {r : RingId} {w : Waiting} {e : Emit} (h : OnRing r s v) (ho : v.out = s.out ++ [e]) (t : State)
    (ht : t = if w.quiet then v
      else
        let u := v.modRing r fun g =>
          { g with
            pendingCount := g.pendingCount + 1
            pendingTick := if g.pendingCount = 0 then v.now else g.pendingTick
            timer := g.coalWindow }
        if State.announces (u.ring r) w.premium u.now then u.interrupt r else u) :
    OnRing r s t ∧ ∃ l, t.out = s.out ++ e :: l := by
  subst ht
  dsimp only
  split
  · exact ⟨h, [], ho⟩
  · have h4 := h.trans (modRing_onRing h.canon r fun g =>
      { g with
        pendingCount := g.pendingCount + 1
        pendingTick := if g.pendingCount = 0 then v.now else g.pendingTick
        timer := g.coalWindow })
    split
    · refine ⟨h4.trans (interrupt_onRing h4.canon r), ?_⟩
      rw [interrupt_out, State.modRing_out, ho, List.append_assoc]
      exact ⟨_, rfl⟩
    · exact ⟨h4, [], ho⟩

theorem putRecord_onRing {s : State} (c : s.Canonical) (r : RingId) (w : Waiting) :
    OnRing r s (s.putRecord r w) ∧ ∃ l slot phase, (s.putRecord r w).out = s.out ++ l ∧ Emit.record r slot phase w.record ∈ l := by
  have h1 := emit_onRing c r (.record r ((s.ring r).pos.toNat % (s.ring r).size) ((s.ring r).phaseAt (s.ring r).pos) w.record)
  have h2 := h1.trans (modRing_onRing h1.canon r fun g => { g with pos := g.pos + 1, last := some w })
  obtain ⟨h, l, hl⟩ := announced_onRing (w := w) (recordOut_onRing h2 w.frees) (recordOut_out _ _) (s.putRecord r w) rfl
  exact ⟨h, _, _, _, hl, List.mem_cons_self⟩

theorem writeRecord_onRing {s : State} (c : s.Canonical) (r : RingId) (w : Waiting) : OnRing r s (s.writeRecord r w) := by
  unfold State.writeRecord
  dsimp only
  split
  · exact modRing_onRing c r _
  · split
    · unfold State.discardRecord
      have hm : ∀ k n, OnRing r s (s.count k n) := fun k n =>
        OnRing.of_moves c (State.count_moves (fl := [.counters]) (Moves.refl _ _) (by decide)) (by decide)
      exact recordOut_onRing (by split <;> exact hm _ _) _
    · split
      · split
        · have h1 : OnRing r s (s.count Ctr.eventsLost) :=
            OnRing.of_moves c (State.count_moves (fl := [.counters]) (Moves.refl _ _) (by decide)) (by decide)
          exact h1.trans (modRing_onRing h1.canon r _)
        · exact (putRecord_onRing c r w).1
      · split
        · exact modRing_onRing c r _
        · exact (putRecord_onRing c r w).1

theorem Delivered.of_put {s t : State} {r : RingId} {rec : Rec}
    (h : ∃ l slot phase, t.out = s.out ++ l ∧ Emit.record r slot phase rec ∈ l) : Delivered s t r rec := .inl h

/-- A record that is no event goes out, waits, or meets a disabled ring. -/
theorem writeRecord_delivered {s : State} (c : s.Canonical) (r : RingId) (w : Waiting) (hw : State.isEvent w.record = false) :
    Delivered s (s.writeRecord r w) r w.record := by
  unfold State.writeRecord
  dsimp only
  split
  · exact .inr (.inl ⟨w, by rw [ring_modRing_self c]; simp, rfl⟩)
  · split
    · rename_i he
      refine .inr (.inr ?_)
      have hr : (s.discardRecord r w).rings = s.rings := by
        unfold State.discardRecord
        rw [recordOut_rings]
        split <;> rfl
      show (Tbl.get {} (ringNo r) (s.discardRecord r w).rings).enabled = false
      rw [hr]
      have he' : (s.ring r).enabled = false := by simpa using he
      exact he'
    · split
      · split
        · have h1 : (s.count Ctr.eventsLost).Canonical :=
            (State.count_moves (fl := [.counters]) (Moves.refl _ _) (by decide)).canon c
          exact .inr (.inl ⟨w, by rw [ring_modRing_self h1]; simp [hw], rfl⟩)
        · exact .inl (putRecord_onRing c r w).2
      · split
        · exact .inr (.inl ⟨w, by rw [ring_modRing_self c]; simp, rfl⟩)
        · exact .inl (putRecord_onRing c r w).2

theorem Delivered.after {s u t : State} {r : RingId} {rec : Rec} (h : Delivered u t r rec) (k : s.out <+: u.out) :
    Delivered s t r rec := by
  rcases h with ⟨l, slot, phase, ho, hm⟩ | h | h
  · obtain ⟨m, hm'⟩ := k
    exact .inl ⟨m ++ l, slot, phase, by rw [ho, ← hm', List.append_assoc], List.mem_append_right _ hm⟩
  · exact .inr (.inl h)
  · exact .inr (.inr h)

/-- The ring on which a job's completion goes. -/
theorem completeWith_onRing {s : State} (c : s.Canonical) (j : Job) (st : Status) (r0 r1 : Nat) (frees : Option Nat) :
    OnRing (answerRing j.ring) s (s.completeWith j st r0 r1 frees) := by
  have c' : State.Canonical { s with jobs := s.jobs.erase j } := ⟨c.parts, c.rings, c.counters, c.calls, c.customers, c.tiles, c.boughs, c.calSave, c.links, c.mem⟩
  have h1 : ∀ r, OnRing r s { s with jobs := s.jobs.erase j } := fun r => ⟨c', fun _ _ => rfl, List.prefix_rfl⟩
  unfold State.completeWith
  dsimp only
  split
  · rename_i p k hj
    rw [hj]
    exact (h1 _).trans (writeRecord_onRing c' _ _)
  · rename_i hj
    have : answerRing j.ring = .eq := by
      unfold answerRing; split
      · rename_i p k hk; exact absurd hk (hj p k)
      · rfl
    rw [this]
    exact (h1 _).trans (writeRecord_onRing c' _ _)

theorem completeWith_delivered {s : State} (c : s.Canonical) (j : Job) (st : Status) (r0 r1 : Nat) (frees : Option Nat) :
    Delivered s (s.completeWith j st r0 r1 frees) (answerRing j.ring) (s.answerOf j st r0 r1) := by
  have c' : State.Canonical { s with jobs := s.jobs.erase j } := ⟨c.parts, c.rings, c.counters, c.calls, c.customers, c.tiles, c.boughs, c.calSave, c.links, c.mem⟩
  obtain ⟨ring, pos, tag, opcode, quiet, premium⟩ := j
  cases ring <;> (refine Delivered.after (writeRecord_delivered c' _ _ ?_) List.prefix_rfl; rfl)

theorem answerRing_ne {r : RingId} (h : inbound r = true) (he : ringExists r = true) : ringNo r ≠ ringNo (answerRing r) := by
  cases r <;> simp_all [inbound, ringNo, answerRing, ringExists]
  all_goals omega

/-! ### A descriptor answered -/

theorem advance_canonical {s : State} (c : s.Canonical) (r : RingId) : (s.advance r).Canonical :=
  (State.advance_moves (fl := [.parts, .rings]) (Moves.refl _ _) (by decide)).canon c

theorem advance_ring {s : State} (c : s.Canonical) (r : RingId) : (s.advance r).ring r = { s.ring r with pos := (s.ring r).pos + 1 } := by
  have h := ring_modRing_self c r fun g => { g with pos := g.pos + 1 }
  unfold State.advance
  dsimp only
  split
  · exact h
  · exact h

theorem Fetched.inbound {s : State} {f : Sys2Proof.Fetch} (h : s.Fetched f) : inbound f.ring = true ∧ ringExists f.ring = true := by
  have := h.waiting
  simp only [State.hasDescriptor, Bool.and_eq_true] at this
  exact ⟨this.1.1.2, this.1.1.1⟩

theorem advance_out (s : State) (r : RingId) : (s.advance r).out = s.out := by
  unfold State.advance
  dsimp only
  split <;> rfl

theorem advance_tick (s : State) (r : RingId) : (s.advance r).tick = s.tick := by
  unfold State.advance
  dsimp only
  split <;> rfl

/-- An operation that leaves the tick and the descriptor's ring alone and then answers. -/
theorem answered_of {s u : State} {f : Sys2Proof.Fetch} {st : Status} {r0 r1 : Nat} {frees : Option Nat}
    (h : s.Fetched f) (hc : u.Canonical) (ho : s.out <+: u.out) (ht : u.tick = s.tick)
    (hr : (u.ring f.ring).pos = (s.ring f.ring).pos + 1) :
    Answered s (u.completeWith (s.jobOf f) st r0 r1 frees) f st r0 r1 := by
  have hj : (s.jobOf f).ring = f.ring := rfl
  refine ⟨?_, ?_⟩
  · have := (completeWith_onRing hc (s.jobOf f) st r0 r1 frees).others f.ring (by
      rw [hj]; exact answerRing_ne (Fetched.inbound h).1 (Fetched.inbound h).2)
    rw [this, hr]
  · have := (completeWith_delivered hc (s.jobOf f) st r0 r1 frees).after ho
    have e : u.answerOf (s.jobOf f) st r0 r1 = s.answerOf (s.jobOf f) st r0 r1 := by
      unfold State.answerOf State.now; rw [ht]
    rwa [hj, e] at this

/-- An operation that only answers. -/
theorem answered_now {s : State} {f : Sys2Proof.Fetch} {st : Status} {r0 r1 : Nat} {frees : Option Nat} (c : s.Canonical)
    (h : s.Fetched f) : Answered s ((s.advance f.ring).completeWith (s.jobOf f) st r0 r1 frees) f st r0 r1 :=
  answered_of h (advance_canonical c _) (by rw [advance_out]) (advance_tick _ _) (by rw [advance_ring c])

end Sys2Proof.Machine
end

