-- ==== Sys2Proof/Laws/PartnerMoves.lean ====
section
/-! SUPPORT. What each operation of Machine/Partner.lean may change, and that it keeps the canonical form. -/

set_option Elab.async false

namespace Sys2Proof.Machine

set_option linter.unusedTactic false
set_option linter.unreachableTactic false

theorem State.writeKv_moves {fl : List Field} {r₀ : State} {s : State} {c : ℕ} {layer : ℕ} {page : ℕ} {slot : ℕ} {heads : List (Sys2Proof.Bytes × Sys2Proof.Bytes × Sys2Proof.Bytes × Sys2Proof.Bytes)} (hm : Moves fl r₀ s)
    (hfl : Field.within [.rings, .counters, .calls, .mem, .links, .sec, .out] fl = true) : Moves fl r₀ (State.writeKv s c layer page slot heads) :=
  hm.trans (Moves.mono (a := [.rings, .counters, .calls, .mem, .links, .sec, .out]) (by
  have h := Moves.refl [.rings, .counters, .calls, .mem, .links, .sec, .out] s
  unfold State.writeKv
  repeat' first
    | (extract_lets +onlyGivenNames x; first | (refine Moves.cut (s := x) ?_ ?_; (on_goal 2 => intro hx; clear_value x); (on_goal 1 => subst x)) | subst x)
    | with_reducible assumption
    | (show Field.within _ _ = true; decide)
    | with_reducible apply State.allocPage_moves
    | with_reducible apply State.narrowWrite_moves
    | with_reducible apply State.wideWrite_moves
    | with_reducible apply Moves.each
    | with_reducible apply Moves.ite
    | (intro _ _ _)
    | split) hfl)

theorem State.applyRetake_moves {fl : List Field} {r₀ : State} {s : State} {c : ℕ} {x : Step} {t : RetakeSt} {r : Sys2Proof.RetakeResult} (hm : Moves fl r₀ s)
    (hfl : Field.within [.rings, .counters, .calls, .steps, .mem, .links, .faults, .sec, .out] fl = true) : Moves fl r₀ (State.applyRetake s c x t r) :=
  hm.trans (Moves.mono (a := [.rings, .counters, .calls, .steps, .mem, .links, .faults, .sec, .out]) (by
  have h := Moves.refl [.rings, .counters, .calls, .steps, .mem, .links, .faults, .sec, .out] s
  unfold State.applyRetake
  repeat' first
    | (extract_lets +onlyGivenNames x; first | (refine Moves.cut (s := x) ?_ ?_; (on_goal 2 => intro hx; clear_value x); (on_goal 1 => subst x)) | subst x)
    | with_reducible assumption
    | (show Field.within _ _ = true; decide)
    | with_reducible apply State.writeKv_moves
    | with_reducible apply State.fault_moves
    | with_reducible apply State.modDaily_moves
    | with_reducible apply State.count_moves
    | with_reducible apply State.modStep_moves
    | with_reducible apply State.moveStep_moves
    | with_reducible apply State.releaseOutput_moves
    | with_reducible apply Moves.each
    | with_reducible apply Moves.ite
    | (intro _ _ _)
    | split) hfl)

theorem State.patchMirror_moves {fl : List Field} {r₀ : State} {s : State} {c : ℕ} {off : ℕ} {b : Sys2Proof.Bytes} (hm : Moves fl r₀ s)
    (hfl : Field.within [.calls, .grafts] fl = true) : Moves fl r₀ (State.patchMirror s c off b) :=
  hm.trans (Moves.mono (a := [.calls, .grafts]) (by
  have h := Moves.refl [.calls, .grafts] s
  unfold State.patchMirror
  repeat' first
    | (extract_lets +onlyGivenNames x; first | (refine Moves.cut (s := x) ?_ ?_; (on_goal 2 => intro hx; clear_value x); (on_goal 1 => subst x)) | subst x)
    | with_reducible assumption
    | (show Field.within _ _ = true; decide)
    | with_reducible apply State.pinGraft_moves
    | with_reducible apply Moves.ite
    | split
    | (refine Moves.of_lit ?_ ?_ ?_)
    | (intro f hf; cases f <;> first | exact hf.elim (by decide) | rfl)
    | (exact fun c => ⟨c.parts, c.rings, c.counters, by dsimp only; first | exact c.calls | exact Tbl.wf_set c.calls | exact Tbl.wf_update c.calls | exact Tbl.wf_mapVals (Tbl.rising_of_wf c.calls) | exact Tbl.wf_mapVals (Tbl.rising_map (fun p => by (try dsimp only); (repeat' split) <;> rfl) (Tbl.rising_of_wf c.calls)) | (split <;> first | exact c.calls | exact Tbl.wf_set c.calls | exact Tbl.wf_mapVals (Tbl.rising_of_wf c.calls)), c.customers, c.tiles, c.boughs, c.calSave, c.links, c.mem⟩)) hfl)

theorem State.mirrorDrop_moves {fl : List Field} {r₀ : State} {s : State}  (hm : Moves fl r₀ s)
    (hfl : Field.within [.parts, .rings, .counters, .calls, .steps, .batch, .grafts, .tiles, .boughs, .prods, .sums, .handoffs, .acts, .xferWaits, .canopy, .backs, .latches, .attnWaits, .servedKv, .servedAttn, .mem, .links, .sec, .out] fl = true) : Moves fl r₀ (State.mirrorDrop s) :=
  hm.trans (Moves.mono (a := [.parts, .rings, .counters, .calls, .steps, .batch, .grafts, .tiles, .boughs, .prods, .sums, .handoffs, .acts, .xferWaits, .canopy, .backs, .latches, .attnWaits, .servedKv, .servedAttn, .mem, .links, .sec, .out]) (by
  have h := Moves.refl [.parts, .rings, .counters, .calls, .steps, .batch, .grafts, .tiles, .boughs, .prods, .sums, .handoffs, .acts, .xferWaits, .canopy, .backs, .latches, .attnWaits, .servedKv, .servedAttn, .mem, .links, .sec, .out] s
  unfold State.mirrorDrop
  repeat' first
    | with_reducible assumption
    | (show Field.within _ _ = true; decide)
    | with_reducible apply State.releaseEntry_moves
    | with_reducible apply Moves.each
    | (intro _ _ _)
    | split) hfl)

theorem State.retakeResp_moves {fl : List Field} {r₀ : State} {s : State} {p : ℕ} {tag : ℕ} {n : ℕ} {r : Option Sys2Proof.RetakeResult} (hm : Moves fl r₀ s)
    (hfl : Field.within [.rings, .counters, .calls, .steps, .mem, .links, .faults, .sec, .out] fl = true) : Moves fl r₀ (State.retakeResp s p tag n r) :=
  hm.trans (Moves.mono (a := [.rings, .counters, .calls, .steps, .mem, .links, .faults, .sec, .out]) (by
  have h := Moves.refl [.rings, .counters, .calls, .steps, .mem, .links, .faults, .sec, .out] s
  unfold State.retakeResp
  repeat' first
    | with_reducible assumption
    | (show Field.within _ _ = true; decide)
    | with_reducible apply State.applyRetake_moves
    | with_reducible apply State.moveStep_moves
    | with_reducible apply State.settleLocal_moves
    | with_reducible apply Moves.ite
    | split) hfl)

theorem State.sendBeat_moves {fl : List Field} {r₀ : State} {s : State}  (hm : Moves fl r₀ s)
    (hfl : Field.within [.counters, .links, .partner, .out] fl = true) : Moves fl r₀ (State.sendBeat s) :=
  hm.trans (Moves.mono (a := [.counters, .links, .partner, .out]) (by
  have h := Moves.refl [.counters, .links, .partner, .out] s
  unfold State.sendBeat
  repeat' first
    | with_reducible assumption
    | (show Field.within _ _ = true; decide)
    | with_reducible apply State.send_moves
    | with_reducible apply State.modPartner_moves
    | with_reducible apply Moves.ite
    | split) hfl)

theorem State.unmirrorAll_moves {fl : List Field} {r₀ : State} {s : State}  (hm : Moves fl r₀ s)
    (hfl : Field.within [.counters, .calls, .links, .out] fl = true) : Moves fl r₀ (State.unmirrorAll s) :=
  hm.trans (Moves.mono (a := [.counters, .calls, .links, .out]) (by
  have h := Moves.refl [.counters, .calls, .links, .out] s
  unfold State.unmirrorAll
  repeat' first
    | with_reducible assumption
    | (show Field.within _ _ = true; decide)
    | with_reducible apply State.modCall_moves
    | with_reducible apply Moves.each
    | (intro _ _ _)
    | split) hfl)

theorem State.ackAll_moves {fl : List Field} {r₀ : State} {s : State}  (hm : Moves fl r₀ s)
    (hfl : Field.within [.steps] fl = true) : Moves fl r₀ (State.ackAll s) :=
  hm.trans (Moves.mono (a := [.steps]) (by
  have h := Moves.refl [.steps] s
  unfold State.ackAll
  repeat' first
    | with_reducible assumption
    | (show Field.within _ _ = true; decide)
    | with_reducible apply Moves.ite
    | split
    | (refine Moves.of_lit ?_ ?_ ?_)
    | (intro f hf; cases f <;> first | exact hf.elim (by decide) | rfl)
    | (exact fun c => ⟨c.parts, c.rings, c.counters, c.calls, c.customers, c.tiles, c.boughs, c.calSave, c.links, c.mem⟩)) hfl)

theorem State.withoutPartner_moves {fl : List Field} {r₀ : State} {s : State}  (hm : Moves fl r₀ s)
    (hfl : Field.within [.counters, .calls, .steps, .links, .out] fl = true) : Moves fl r₀ (State.withoutPartner s) :=
  hm.trans (Moves.mono (a := [.counters, .calls, .steps, .links, .out]) (by
  have h := Moves.refl [.counters, .calls, .steps, .links, .out] s
  unfold State.withoutPartner
  repeat' first
    | with_reducible assumption
    | (show Field.within _ _ = true; decide)
    | with_reducible apply State.moveAll_moves
    | with_reducible apply State.unmirrorAll_moves
    | with_reducible apply State.ackAll_moves
    | split) hfl)

theorem State.rewriteTokens_moves {fl : List Field} {r₀ : State} {s : State} {e : Entry} (hm : Moves fl r₀ s)
    (hfl : Field.within [.rings, .counters, .calls, .links, .sec, .out] fl = true) : Moves fl r₀ (State.rewriteTokens s e) :=
  hm.trans (Moves.mono (a := [.rings, .counters, .calls, .links, .sec, .out]) (by
  have h := Moves.refl [.rings, .counters, .calls, .links, .sec, .out] s
  unfold State.rewriteTokens
  repeat' first
    | (extract_lets +onlyGivenNames x; first | (refine Moves.cut (s := x) ?_ ?_; (on_goal 2 => intro hx; clear_value x); (on_goal 1 => subst x)) | subst x)
    | with_reducible assumption
    | (show Field.within _ _ = true; decide)
    | with_reducible apply State.event_moves
    | with_reducible apply State.writeRecord_moves
    | with_reducible apply State.send_moves
    | with_reducible apply Moves.each
    | with_reducible apply Moves.ite
    | (intro _ _ _)
    | split) hfl)

theorem State.adoptCall_moves {fl : List Field} {r₀ : State} {s : State} {c : ℕ} (hm : Moves fl r₀ s)
    (hfl : Field.within [.rings, .counters, .jobs, .calls, .links, .sec, .out] fl = true) : Moves fl r₀ (State.adoptCall s c) :=
  hm.trans (Moves.mono (a := [.rings, .counters, .jobs, .calls, .links, .sec, .out]) (by
  have h := Moves.refl [.rings, .counters, .jobs, .calls, .links, .sec, .out] s
  unfold State.adoptCall
  repeat' first
    | (extract_lets +onlyGivenNames x; first | (refine Moves.cut (s := x) ?_ ?_; (on_goal 2 => intro hx; clear_value x); (on_goal 1 => subst x)) | subst x)
    | with_reducible assumption
    | (show Field.within _ _ = true; decide)
    | with_reducible apply State.start_moves
    | with_reducible apply State.rewriteTokens_moves
    | with_reducible apply Moves.ite
    | split
    | (refine Moves.of_lit ?_ ?_ ?_)
    | (intro f hf; cases f <;> first | exact hf.elim (by decide) | rfl)
    | (exact fun c => ⟨c.parts, c.rings, c.counters, by dsimp only; first | exact c.calls | exact Tbl.wf_set c.calls | exact Tbl.wf_update c.calls | exact Tbl.wf_mapVals (Tbl.rising_of_wf c.calls) | exact Tbl.wf_mapVals (Tbl.rising_map (fun p => by (try dsimp only); (repeat' split) <;> rfl) (Tbl.rising_of_wf c.calls)) | (split <;> first | exact c.calls | exact Tbl.wf_set c.calls | exact Tbl.wf_mapVals (Tbl.rising_of_wf c.calls)), c.customers, c.tiles, c.boughs, c.calSave, c.links, c.mem⟩)) hfl)

theorem State.adopt_moves {fl : List Field} {r₀ : State} {s : State}  (hm : Moves fl r₀ s)
    (hfl : Field.within [.rings, .counters, .jobs, .calls, .steps, .batch, .tiles, .boughs, .prods, .sums, .handoffs, .acts, .xferWaits, .canopy, .backs, .latches, .attnWaits, .servedKv, .servedAttn, .mem, .links, .partner, .sec, .out] fl = true) : Moves fl r₀ (State.adopt s) :=
  hm.trans (Moves.mono (a := [.rings, .counters, .jobs, .calls, .steps, .batch, .tiles, .boughs, .prods, .sums, .handoffs, .acts, .xferWaits, .canopy, .backs, .latches, .attnWaits, .servedKv, .servedAttn, .mem, .links, .partner, .sec, .out]) (by
  have h := Moves.refl [.rings, .counters, .jobs, .calls, .steps, .batch, .tiles, .boughs, .prods, .sums, .handoffs, .acts, .xferWaits, .canopy, .backs, .latches, .attnWaits, .servedKv, .servedAttn, .mem, .links, .partner, .sec, .out] s
  unfold State.adopt
  repeat' first
    | (extract_lets +onlyGivenNames x; first | (refine Moves.cut (s := x) ?_ ?_; (on_goal 2 => intro hx; clear_value x); (on_goal 1 => subst x)) | subst x)
    | with_reducible assumption
    | (show Field.within _ _ = true; decide)
    | with_reducible apply State.unmirrorAll_moves
    | with_reducible apply State.modPartner_moves
    | with_reducible apply State.dropWork_moves
    | with_reducible apply State.adoptCall_moves
    | with_reducible apply State.event_moves
    | with_reducible apply State.count_moves
    | with_reducible apply State.moveAll_moves
    | with_reducible apply State.send_moves
    | with_reducible apply Moves.each
    | with_reducible apply Moves.ite
    | (intro _ _ _)
    | split) hfl)

theorem State.fenceEnds_moves {fl : List Field} {r₀ : State} {s : State}  (hm : Moves fl r₀ s)
    (hfl : Field.within [.rings, .counters, .jobs, .calls, .steps, .batch, .tiles, .boughs, .prods, .sums, .handoffs, .acts, .xferWaits, .canopy, .backs, .latches, .attnWaits, .servedKv, .servedAttn, .mem, .links, .partner, .sec, .out] fl = true) : Moves fl r₀ (State.fenceEnds s) :=
  hm.trans (Moves.mono (a := [.rings, .counters, .jobs, .calls, .steps, .batch, .tiles, .boughs, .prods, .sums, .handoffs, .acts, .xferWaits, .canopy, .backs, .latches, .attnWaits, .servedKv, .servedAttn, .mem, .links, .partner, .sec, .out]) (by
  have h := Moves.refl [.rings, .counters, .jobs, .calls, .steps, .batch, .tiles, .boughs, .prods, .sums, .handoffs, .acts, .xferWaits, .canopy, .backs, .latches, .attnWaits, .servedKv, .servedAttn, .mem, .links, .partner, .sec, .out] s
  unfold State.fenceEnds
  repeat' first
    | (extract_lets +onlyGivenNames x; first | (refine Moves.cut (s := x) ?_ ?_; (on_goal 2 => intro hx; clear_value x); (on_goal 1 => subst x)) | subst x)
    | with_reducible assumption
    | (show Field.within _ _ = true; decide)
    | with_reducible apply State.modPartner_moves
    | with_reducible apply State.send_moves
    | with_reducible apply State.adopt_moves
    | with_reducible apply Moves.ite
    | split) hfl)

theorem State.dropServed_moves {fl : List Field} {r₀ : State} {s : State} {c : ℕ} {n : ℕ} (hm : Moves fl r₀ s)
    (hfl : Field.within [.rings, .counters, .tiles, .boughs, .prods, .sums, .handoffs, .acts, .xferWaits, .canopy, .backs, .latches, .attnWaits, .servedKv, .servedAttn, .mem, .sec, .out] fl = true) : Moves fl r₀ (State.dropServed s c n) :=
  hm.trans (Moves.mono (a := [.rings, .counters, .tiles, .boughs, .prods, .sums, .handoffs, .acts, .xferWaits, .canopy, .backs, .latches, .attnWaits, .servedKv, .servedAttn, .mem, .sec, .out]) (by
  have h := Moves.refl [.rings, .counters, .tiles, .boughs, .prods, .sums, .handoffs, .acts, .xferWaits, .canopy, .backs, .latches, .attnWaits, .servedKv, .servedAttn, .mem, .sec, .out] s
  unfold State.dropServed
  repeat' first
    | (extract_lets +onlyGivenNames x; first | (refine Moves.cut (s := x) ?_ ?_; (on_goal 2 => intro hx; clear_value x); (on_goal 1 => subst x)) | subst x)
    | with_reducible assumption
    | (show Field.within _ _ = true; decide)
    | with_reducible apply State.unqueue_moves
    | with_reducible apply State.forget_moves
    | with_reducible apply Moves.ite
    | split
    | (refine Moves.of_lit ?_ ?_ ?_)
    | (intro f hf; cases f <;> first | exact hf.elim (by decide) | rfl)
    | (exact fun c => ⟨c.parts, c.rings, c.counters, c.calls, c.customers, c.tiles, c.boughs, c.calSave, c.links, c.mem⟩)) hfl)

theorem State.retakeServed_moves {fl : List Field} {r₀ : State} {s : State} {c : ℕ} {q : Sys2Proof.RetakeReq} {drafts : List (ℕ × List (ℕ × Sys2Proof.F32))} {mask : Option Sys2Proof.Bytes} (hm : Moves fl r₀ s)
    (hfl : Field.within [.rings, .counters, .tiles, .boughs, .prods, .sums, .handoffs, .acts, .xferWaits, .canopy, .backs, .latches, .attnWaits, .servedKv, .servedAttn, .mem, .links, .partner, .sec, .out] fl = true) : Moves fl r₀ (State.retakeServed s c q drafts mask) :=
  hm.trans (Moves.mono (a := [.rings, .counters, .tiles, .boughs, .prods, .sums, .handoffs, .acts, .xferWaits, .canopy, .backs, .latches, .attnWaits, .servedKv, .servedAttn, .mem, .links, .partner, .sec, .out]) (by
  have h := Moves.refl [.rings, .counters, .tiles, .boughs, .prods, .sums, .handoffs, .acts, .xferWaits, .canopy, .backs, .latches, .attnWaits, .servedKv, .servedAttn, .mem, .links, .partner, .sec, .out] s
  unfold State.retakeServed
  repeat' first
    | (extract_lets +onlyGivenNames x; first | (refine Moves.cut (s := x) ?_ ?_; (on_goal 2 => intro hx; clear_value x); (on_goal 1 => subst x)) | subst x)
    | with_reducible assumption
    | (show Field.within _ _ = true; decide)
    | with_reducible apply State.modPartner_moves
    | with_reducible apply State.dropServed_moves
    | with_reducible apply State.send_moves
    | with_reducible apply State.count_moves
    | split) hfl)

theorem State.adoptFrom_moves {fl : List Field} {r₀ : State} {s : State} {port : Sys2Proof.Port} (hm : Moves fl r₀ s)
    (hfl : Field.within [.rings, .counters, .jobs, .calls, .steps, .batch, .tiles, .boughs, .prods, .sums, .handoffs, .acts, .xferWaits, .canopy, .backs, .latches, .attnWaits, .servedKv, .servedAttn, .mem, .links, .partner, .sec, .out] fl = true) : Moves fl r₀ (State.adoptFrom s port) :=
  hm.trans (Moves.mono (a := [.rings, .counters, .jobs, .calls, .steps, .batch, .tiles, .boughs, .prods, .sums, .handoffs, .acts, .xferWaits, .canopy, .backs, .latches, .attnWaits, .servedKv, .servedAttn, .mem, .links, .partner, .sec, .out]) (by
  have h := Moves.refl [.rings, .counters, .jobs, .calls, .steps, .batch, .tiles, .boughs, .prods, .sums, .handoffs, .acts, .xferWaits, .canopy, .backs, .latches, .attnWaits, .servedKv, .servedAttn, .mem, .links, .partner, .sec, .out] s
  unfold State.adoptFrom
  repeat' first
    | (extract_lets +onlyGivenNames x; first | (refine Moves.cut (s := x) ?_ ?_; (on_goal 2 => intro hx; clear_value x); (on_goal 1 => subst x)) | subst x)
    | with_reducible assumption
    | (show Field.within _ _ = true; decide)
    | with_reducible apply State.send_moves
    | with_reducible apply State.adopt_moves
    | with_reducible apply Moves.ite
    | split) hfl)

theorem State.journalAck_moves {fl : List Field} {r₀ : State} {s : State} {p : ℕ} {tag : ℕ} {n : ℕ} (hm : Moves fl r₀ s)
    (hfl : Field.within [.counters, .steps, .links, .out] fl = true) : Moves fl r₀ (State.journalAck s p tag n) :=
  hm.trans (Moves.mono (a := [.counters, .steps, .links, .out]) (by
  have h := Moves.refl [.counters, .steps, .links, .out] s
  unfold State.journalAck
  repeat' first
    | (extract_lets +onlyGivenNames x; first | (refine Moves.cut (s := x) ?_ ?_; (on_goal 2 => intro hx; clear_value x); (on_goal 1 => subst x)) | subst x)
    | with_reducible assumption
    | (show Field.within _ _ = true; decide)
    | with_reducible apply State.moveStep_moves
    | with_reducible apply Moves.each
    | with_reducible apply Moves.ite
    | (intro _ _ _)
    | split
    | (refine Moves.of_lit ?_ ?_ ?_)
    | (intro f hf; cases f <;> first | exact hf.elim (by decide) | rfl)
    | (exact fun c => ⟨c.parts, c.rings, c.counters, c.calls, c.customers, c.tiles, c.boughs, c.calSave, c.links, c.mem⟩)) hfl)

theorem State.setEntry_moves {fl : List Field} {r₀ : State} {s : State} {c : ℕ} {e : Entry} (hm : Moves fl r₀ s)
    (hfl : Field.within [.calls] fl = true) : Moves fl r₀ (State.setEntry s c e) :=
  hm.trans (Moves.mono (a := [.calls]) (by
  have h := Moves.refl [.calls] s
  unfold State.setEntry
  repeat' first
    | with_reducible assumption
    | (show Field.within _ _ = true; decide)
    | split
    | (refine Moves.of_lit ?_ ?_ ?_)
    | (intro f hf; cases f <;> first | exact hf.elim (by decide) | rfl)
    | (exact fun c => ⟨c.parts, c.rings, c.counters, by dsimp only; first | exact c.calls | exact Tbl.wf_set c.calls | exact Tbl.wf_update c.calls | exact Tbl.wf_mapVals (Tbl.rising_of_wf c.calls) | exact Tbl.wf_mapVals (Tbl.rising_map (fun p => by (try dsimp only); (repeat' split) <;> rfl) (Tbl.rising_of_wf c.calls)) | (split <;> first | exact c.calls | exact Tbl.wf_set c.calls | exact Tbl.wf_mapVals (Tbl.rising_of_wf c.calls)), c.customers, c.tiles, c.boughs, c.calSave, c.links, c.mem⟩)) hfl)

theorem State.makeMirror_moves {fl : List Field} {r₀ : State} {s : State} {p : ℕ} {tag : ℕ} {off : ℕ} {b : Sys2Proof.Bytes} (hm : Moves fl r₀ s)
    (hfl : Field.within [.parts, .calls, .grafts, .nextOrder] fl = true) : Moves fl r₀ (State.makeMirror s p tag off b) :=
  hm.trans (Moves.mono (a := [.parts, .calls, .grafts, .nextOrder]) (by
  have h := Moves.refl [.parts, .calls, .grafts, .nextOrder] s
  unfold State.makeMirror
  repeat' first
    | (extract_lets +onlyGivenNames x; first | (refine Moves.cut (s := x) ?_ ?_; (on_goal 2 => intro hx; clear_value x); (on_goal 1 => subst x)) | subst x)
    | with_reducible assumption
    | (show Field.within _ _ = true; decide)
    | with_reducible apply State.modPart_moves
    | with_reducible apply State.setEntry_moves
    | with_reducible apply State.takeOrder_moves
    | with_reducible apply State.pinGraft_moves
    | with_reducible apply Moves.ite
    | split) hfl)

theorem State.declareLost_moves {fl : List Field} {r₀ : State} {s : State}  (hm : Moves fl r₀ s)
    (hfl : Field.within [.rings, .counters, .calls, .steps, .links, .partner, .faults, .sec, .out] fl = true) : Moves fl r₀ (State.declareLost s) :=
  hm.trans (Moves.mono (a := [.rings, .counters, .calls, .steps, .links, .partner, .faults, .sec, .out]) (by
  have h := Moves.refl [.rings, .counters, .calls, .steps, .links, .partner, .faults, .sec, .out] s
  unfold State.declareLost
  repeat' first
    | (extract_lets +onlyGivenNames x; first | (refine Moves.cut (s := x) ?_ ?_; (on_goal 2 => intro hx; clear_value x); (on_goal 1 => subst x)) | subst x)
    | with_reducible assumption
    | (show Field.within _ _ = true; decide)
    | with_reducible apply State.event_moves
    | with_reducible apply State.modPartner_moves
    | with_reducible apply State.withoutPartner_moves
    | with_reducible apply State.settleLocal_moves
    | with_reducible apply Moves.each
    | (intro _ _ _)
    | split) hfl)

theorem State.fencePartner_moves {fl : List Field} {r₀ : State} {s : State}  (hm : Moves fl r₀ s)
    (hfl : Field.within [.pins, .rings, .counters, .partner, .sec, .out] fl = true) : Moves fl r₀ (State.fencePartner s) :=
  hm.trans (Moves.mono (a := [.pins, .rings, .counters, .partner, .sec, .out]) (by
  have h := Moves.refl [.pins, .rings, .counters, .partner, .sec, .out] s
  unfold State.fencePartner
  repeat' first
    | with_reducible assumption
    | (show Field.within _ _ = true; decide)
    | with_reducible apply State.event_moves
    | with_reducible apply State.modPartner_moves
    | with_reducible apply State.modPins_moves
    | split) hfl)

theorem State.heartbeatMissed_moves {fl : List Field} {r₀ : State} {s : State}  (hm : Moves fl r₀ s)
    (hfl : Field.within [.pins, .rings, .counters, .calls, .steps, .links, .partner, .faults, .sec, .out] fl = true) : Moves fl r₀ (State.heartbeatMissed s) :=
  hm.trans (Moves.mono (a := [.pins, .rings, .counters, .calls, .steps, .links, .partner, .faults, .sec, .out]) (by
  have h := Moves.refl [.pins, .rings, .counters, .calls, .steps, .links, .partner, .faults, .sec, .out] s
  unfold State.heartbeatMissed
  repeat' first
    | (extract_lets +onlyGivenNames x; first | (refine Moves.cut (s := x) ?_ ?_; (on_goal 2 => intro hx; clear_value x); (on_goal 1 => subst x)) | subst x)
    | with_reducible assumption
    | (show Field.within _ _ = true; decide)
    | with_reducible apply State.modPartner_moves
    | with_reducible apply State.count_moves
    | with_reducible apply State.declareLost_moves
    | with_reducible apply State.fencePartner_moves
    | with_reducible apply Moves.ite
    | split) hfl)

theorem State.retakeReq_moves {fl : List Field} {r₀ : State} {s : State} {q : Sys2Proof.RetakeReq} (hm : Moves fl r₀ s)
    (hfl : Field.within [.rings, .counters, .steps, .tiles, .boughs, .prods, .nextProd, .sums, .links, .partner, .faults, .power, .sec, .out] fl = true) : Moves fl r₀ (State.retakeReq s q) :=
  hm.trans (Moves.mono (a := [.rings, .counters, .steps, .tiles, .boughs, .prods, .nextProd, .sums, .links, .partner, .faults, .power, .sec, .out]) (by
  have h := Moves.refl [.rings, .counters, .steps, .tiles, .boughs, .prods, .nextProd, .sums, .links, .partner, .faults, .power, .sec, .out] s
  unfold State.retakeReq
  repeat' first
    | with_reducible assumption
    | (show Field.within _ _ = true; decide)
    | with_reducible apply State.modPartner_moves
    | with_reducible apply State.sumReceived_moves
    | with_reducible apply State.send_moves
    | with_reducible apply State.count_moves
    | with_reducible apply Moves.each
    | with_reducible apply Moves.ite
    | (intro _ _ _)
    | split) hfl)

theorem State.takeRecord_moves {fl : List Field} {r₀ : State} {s : State} {a : Sys2Proof.JournalRec} (hm : Moves fl r₀ s)
    (hfl : Field.within [.parts, .rings, .counters, .calls, .steps, .batch, .grafts, .tiles, .boughs, .prods, .nextOrder, .sums, .handoffs, .acts, .xferWaits, .canopy, .backs, .latches, .attnWaits, .servedKv, .servedAttn, .mem, .links, .sec, .out] fl = true) : Moves fl r₀ (State.takeRecord s a) :=
  hm.trans (Moves.mono (a := [.parts, .rings, .counters, .calls, .steps, .batch, .grafts, .tiles, .boughs, .prods, .nextOrder, .sums, .handoffs, .acts, .xferWaits, .canopy, .backs, .latches, .attnWaits, .servedKv, .servedAttn, .mem, .links, .sec, .out]) (by
  have h := Moves.refl [.parts, .rings, .counters, .calls, .steps, .batch, .grafts, .tiles, .boughs, .prods, .nextOrder, .sums, .handoffs, .acts, .xferWaits, .canopy, .backs, .latches, .attnWaits, .servedKv, .servedAttn, .mem, .links, .sec, .out] s
  unfold State.takeRecord
  repeat' first
    | (extract_lets +onlyGivenNames x; first | (refine Moves.cut (s := x) ?_ ?_; (on_goal 2 => intro hx; clear_value x); (on_goal 1 => subst x)) | subst x)
    | with_reducible assumption
    | (show Field.within _ _ = true; decide)
    | with_reducible apply State.patchMirror_moves
    | with_reducible apply State.makeMirror_moves
    | with_reducible apply State.writeKv_moves
    | with_reducible apply State.send_moves
    | with_reducible apply State.releaseEntry_moves
    | with_reducible apply Moves.ite
    | split
    | (refine Moves.of_lit ?_ ?_ ?_)
    | (intro f hf; cases f <;> first | exact hf.elim (by decide) | rfl)
    | (exact fun c => ⟨c.parts, c.rings, c.counters, by dsimp only; first | exact c.calls | exact Tbl.wf_set c.calls | exact Tbl.wf_update c.calls | exact Tbl.wf_mapVals (Tbl.rising_of_wf c.calls) | exact Tbl.wf_mapVals (Tbl.rising_map (fun p => by (try dsimp only); (repeat' split) <;> rfl) (Tbl.rising_of_wf c.calls)) | (split <;> first | exact c.calls | exact Tbl.wf_set c.calls | exact Tbl.wf_mapVals (Tbl.rising_of_wf c.calls)), c.customers, c.tiles, c.boughs, c.calSave, c.links, c.mem⟩)) hfl)

theorem State.hbHold_moves {fl : List Field} {r₀ : State} {s : State} {ticks : ℕ} {warm : Bool} {sleep : Bool} (hm : Moves fl r₀ s)
    (hfl : Field.within [.counters, .calls, .steps, .links, .partner, .out] fl = true) : Moves fl r₀ (State.hbHold s ticks warm sleep) :=
  hm.trans (Moves.mono (a := [.counters, .calls, .steps, .links, .partner, .out]) (by
  have h := Moves.refl [.counters, .calls, .steps, .links, .partner, .out] s
  unfold State.hbHold
  repeat' first
    | (extract_lets +onlyGivenNames x; first | (refine Moves.cut (s := x) ?_ ?_; (on_goal 2 => intro hx; clear_value x); (on_goal 1 => subst x)) | subst x)
    | with_reducible assumption
    | (show Field.within _ _ = true; decide)
    | with_reducible apply State.modPartner_moves
    | with_reducible apply State.withoutPartner_moves
    | with_reducible apply Moves.ite
    | split) hfl)

theorem State.heartbeat_moves {fl : List Field} {r₀ : State} {s : State} {tick : ℕ} {st : Sys2Proof.HbState} (hm : Moves fl r₀ s)
    (hfl : Field.within [.rings, .counters, .partner, .sec, .out] fl = true) : Moves fl r₀ (State.heartbeat s tick st) :=
  hm.trans (Moves.mono (a := [.rings, .counters, .partner, .sec, .out]) (by
  have h := Moves.refl [.rings, .counters, .partner, .sec, .out] s
  unfold State.heartbeat
  repeat' first
    | (extract_lets +onlyGivenNames x; first | (refine Moves.cut (s := x) ?_ ?_; (on_goal 2 => intro hx; clear_value x); (on_goal 1 => subst x)) | subst x)
    | with_reducible assumption
    | (show Field.within _ _ = true; decide)
    | with_reducible apply State.modPartner_moves
    | with_reducible apply State.event_moves
    | with_reducible apply Moves.ite
    | split) hfl)

end Sys2Proof.Machine
end

