-- ==== Sys2Proof/Laws/PerInstr.lean ====
section
/-! SUPPORT. What holds of every command as syntax: the commands that carry a descriptor are those of the descriptor family, and no
command reaches the queue of commands that wait. -/

set_option Elab.async false

namespace Sys2Proof.Laws.F

/-- A command carries a descriptor exactly when it belongs to the descriptor family; its reach leaves the queue alone. -/
def Statement (i : Sys2Proof.Instr) : Prop :=
  ((Sys2Proof.Machine.Instr.descriptor? i).isSome = true ↔ Sys2Proof.Machine.Instr.family i = .descriptor) ∧
    Sys2Proof.Machine.Field.pending ∉ Sys2Proof.Machine.Instr.reach i

theorem of_descriptor {i : Sys2Proof.Instr} (h : (Sys2Proof.Machine.Instr.descriptor? i).isSome = true)
    (g : Sys2Proof.Machine.Instr.family i = .descriptor)
    (q : decide (Sys2Proof.Machine.Field.pending ∈ Sys2Proof.Machine.Instr.reach i) = false) : Statement i :=
  ⟨⟨fun _ => g, fun _ => h⟩, of_decide_eq_false q⟩

theorem of_other {i : Sys2Proof.Instr} (h : (Sys2Proof.Machine.Instr.descriptor? i).isSome = false)
    (g : Sys2Proof.Machine.Instr.family i ≠ .descriptor)
    (q : decide (Sys2Proof.Machine.Field.pending ∈ Sys2Proof.Machine.Instr.reach i) = false) : Statement i :=
  ⟨⟨fun e => absurd (h.symm.trans e) (by decide), fun e => absurd e g⟩, of_decide_eq_false q⟩

end Sys2Proof.Laws.F

open Sys2Proof.Laws.F

theorem Sys2Proof.Laws.F.nop (f) : Statement (.nop f) := of_descriptor rfl rfl rfl
theorem Sys2Proof.Laws.F.badOpcode (f) : Statement (.badOpcode f) := of_descriptor rfl rfl rfl
theorem Sys2Proof.Laws.F.admitCall (f) : Statement (.admitCall f) := of_descriptor rfl rfl rfl
theorem Sys2Proof.Laws.F.cancel (f) : Statement (.cancel f) := of_descriptor rfl rfl rfl
theorem Sys2Proof.Laws.F.releaseCall (f) : Statement (.releaseCall f) := of_descriptor rfl rfl rfl
theorem Sys2Proof.Laws.F.stepMask (f) : Statement (.stepMask f) := of_descriptor rfl rfl rfl
theorem Sys2Proof.Laws.F.budgetSet (f) : Statement (.budgetSet f) := of_descriptor rfl rfl rfl
theorem Sys2Proof.Laws.F.budgetRead (f) : Statement (.budgetRead f) := of_descriptor rfl rfl rfl
theorem Sys2Proof.Laws.F.graftLoad (f) : Statement (.graftLoad f) := of_descriptor rfl rfl rfl
theorem Sys2Proof.Laws.F.graftRetire (f) : Statement (.graftRetire f) := of_descriptor rfl rfl rfl
theorem Sys2Proof.Laws.F.matteLoad (f) : Statement (.matteLoad f) := of_descriptor rfl rfl rfl
theorem Sys2Proof.Laws.F.matteFree (f) : Statement (.matteFree f) := of_descriptor rfl rfl rfl
theorem Sys2Proof.Laws.F.tune (f) : Statement (.tune f) := of_descriptor rfl rfl rfl
theorem Sys2Proof.Laws.F.loadManifest (f) : Statement (.loadManifest f) := of_descriptor rfl rfl rfl
theorem Sys2Proof.Laws.F.loadChunk (f) : Statement (.loadChunk f) := of_descriptor rfl rfl rfl
theorem Sys2Proof.Laws.F.loadPlacement (f) : Statement (.loadPlacement f) := of_descriptor rfl rfl rfl
theorem Sys2Proof.Laws.F.attnSetup (f) : Statement (.attnSetup f) := of_descriptor rfl rfl rfl
theorem Sys2Proof.Laws.F.takeReplacement (f) : Statement (.takeReplacement f) := of_descriptor rfl rfl rfl
theorem Sys2Proof.Laws.F.takeRefresh (f) : Statement (.takeRefresh f) := of_descriptor rfl rfl rfl
theorem Sys2Proof.Laws.F.cut (f) : Statement (.cut f) := of_descriptor rfl rfl rfl
theorem Sys2Proof.Laws.F.releaseImage (f) : Statement (.releaseImage f) := of_descriptor rfl rfl rfl
theorem Sys2Proof.Laws.F.deckRead (f) : Statement (.deckRead f) := of_descriptor rfl rfl rfl
theorem Sys2Proof.Laws.F.refWarm (f) : Statement (.refWarm f) := of_descriptor rfl rfl rfl
theorem Sys2Proof.Laws.F.calibrate (f) : Statement (.calibrate f) := of_descriptor rfl rfl rfl
theorem Sys2Proof.Laws.F.hkSample (f) : Statement (.hkSample f) := of_descriptor rfl rfl rfl
theorem Sys2Proof.Laws.F.retire (f) : Statement (.retire f) := of_descriptor rfl rfl rfl
theorem Sys2Proof.Laws.F.fill (f) : Statement (.fill f) := of_descriptor rfl rfl rfl
theorem Sys2Proof.Laws.F.rehash (f) : Statement (.rehash f) := of_descriptor rfl rfl rfl
theorem Sys2Proof.Laws.F.arrayTest (f) (codes) : Statement (.arrayTest f codes) := of_descriptor rfl rfl rfl
theorem Sys2Proof.Laws.F.resetCold (f) : Statement (.resetCold f) := of_descriptor rfl rfl rfl
theorem Sys2Proof.Laws.F.resetWarm (f) : Statement (.resetWarm f) := of_descriptor rfl rfl rfl
theorem Sys2Proof.Laws.F.resetPartition (f) : Statement (.resetPartition f) := of_descriptor rfl rfl rfl
theorem Sys2Proof.Laws.F.resetBough (f) : Statement (.resetBough f) := of_descriptor rfl rfl rfl
theorem Sys2Proof.Laws.F.resetPort (f) : Statement (.resetPort f) := of_descriptor rfl rfl rfl
theorem Sys2Proof.Laws.F.powerStateD0 (f) : Statement (.powerStateD0 f) := of_descriptor rfl rfl rfl
theorem Sys2Proof.Laws.F.powerStateD2 (f) : Statement (.powerStateD2 f) := of_descriptor rfl rfl rfl
theorem Sys2Proof.Laws.F.powerStateD3 (f) : Statement (.powerStateD3 f) := of_descriptor rfl rfl rfl
theorem Sys2Proof.Laws.F.fwStage (f) : Statement (.fwStage f) := of_descriptor rfl rfl rfl
theorem Sys2Proof.Laws.F.fwCutover (f) : Statement (.fwCutover f) := of_descriptor rfl rfl rfl
theorem Sys2Proof.Laws.F.attest (f) : Statement (.attest f) := of_descriptor rfl rfl rfl
theorem Sys2Proof.Laws.F.doorbell (hd) (ring) (count) : Statement (.doorbell hd ring count) := of_other rfl (fun h => by cases h) rfl
theorem Sys2Proof.Laws.F.fetchFault (ring) : Statement (.fetchFault ring) := of_other rfl (fun h => by cases h) rfl
theorem Sys2Proof.Laws.F.hostFault (ring) (pos) : Statement (.hostFault ring pos) := of_other rfl (fun h => by cases h) rfl
theorem Sys2Proof.Laws.F.recordWriteFault (ring) : Statement (.recordWriteFault ring) := of_other rfl (fun h => by cases h) rfl
theorem Sys2Proof.Laws.F.coalWindowExpiry (ring) : Statement (.coalWindowExpiry ring) := of_other rfl (fun h => by cases h) rfl
theorem Sys2Proof.Laws.F.seal (a) : Statement (.seal a) := of_other rfl (fun h => by cases h) rfl
theorem Sys2Proof.Laws.F.versionNeg (a) : Statement (.versionNeg a) := of_other rfl (fun h => by cases h) rfl
theorem Sys2Proof.Laws.F.fenceCtrlRelease (a) : Statement (.fenceCtrlRelease a) := of_other rfl (fun h => by cases h) rfl
theorem Sys2Proof.Laws.F.bootSrcGo (a) : Statement (.bootSrcGo a) := of_other rfl (fun h => by cases h) rfl
theorem Sys2Proof.Laws.F.counterSel (a) : Statement (.counterSel a) := of_other rfl (fun h => by cases h) rfl
theorem Sys2Proof.Laws.F.hkCtrlRefen (a) : Statement (.hkCtrlRefen a) := of_other rfl (fun h => by cases h) rfl
theorem Sys2Proof.Laws.F.regWrite (a) : Statement (.regWrite a) := of_other rfl (fun h => by cases h) rfl
theorem Sys2Proof.Laws.F.porstNAssert : Statement (.porstNAssert) := of_other rfl (fun h => by cases h) rfl
theorem Sys2Proof.Laws.F.coldStart (boot) (ckmode) : Statement (.coldStart boot ckmode) := of_other rfl (fun h => by cases h) rfl
theorem Sys2Proof.Laws.F.wrstNAssert : Statement (.wrstNAssert) := of_other rfl (fun h => by cases h) rfl
theorem Sys2Proof.Laws.F.warmStart : Statement (.warmStart) := of_other rfl (fun h => by cases h) rfl
theorem Sys2Proof.Laws.F.resetTakesEffect : Statement (.resetTakesEffect) := of_other rfl (fun h => by cases h) rfl
theorem Sys2Proof.Laws.F.fenceInAssert : Statement (.fenceInAssert) := of_other rfl (fun h => by cases h) rfl
theorem Sys2Proof.Laws.F.fenceInRelease : Statement (.fenceInRelease) := of_other rfl (fun h => by cases h) rfl
theorem Sys2Proof.Laws.F.refclkLoss : Statement (.refclkLoss) := of_other rfl (fun h => by cases h) rfl
theorem Sys2Proof.Laws.F.refclkReturn : Statement (.refclkReturn) := of_other rfl (fun h => by cases h) rfl
theorem Sys2Proof.Laws.F.pmAlertN (words) : Statement (.pmAlertN words) := of_other rfl (fun h => by cases h) rfl
theorem Sys2Proof.Laws.F.vaonLoss : Statement (.vaonLoss) := of_other rfl (fun h => by cases h) rfl
theorem Sys2Proof.Laws.F.optionLoad (data) : Statement (.optionLoad data) := of_other rfl (fun h => by cases h) rfl
theorem Sys2Proof.Laws.F.clockLock (ok) : Statement (.clockLock ok) := of_other rfl (fun h => by cases h) rfl
theorem Sys2Proof.Laws.F.hkRefReady : Statement (.hkRefReady) := of_other rfl (fun h => by cases h) rfl
theorem Sys2Proof.Laws.F.fwFetch (active) (images) : Statement (.fwFetch active images) := of_other rfl (fun h => by cases h) rfl
theorem Sys2Proof.Laws.F.sramFill (ok) : Statement (.sramFill ok) := of_other rfl (fun h => by cases h) rfl
theorem Sys2Proof.Laws.F.hbmTrain (ok) : Statement (.hbmTrain ok) := of_other rfl (fun h => by cases h) rfl
theorem Sys2Proof.Laws.F.hbmFill (complete) (ok) : Statement (.hbmFill complete ok) := of_other rfl (fun h => by cases h) rfl
theorem Sys2Proof.Laws.F.startFail : Statement (.startFail) := of_other rfl (fun h => by cases h) rfl
theorem Sys2Proof.Laws.F.fwDigest : Statement (.fwDigest) := of_other rfl (fun h => by cases h) rfl
theorem Sys2Proof.Laws.F.resume : Statement (.resume) := of_other rfl (fun h => by cases h) rfl
theorem Sys2Proof.Laws.F.watchdogExpiry : Statement (.watchdogExpiry) := of_other rfl (fun h => by cases h) rfl
theorem Sys2Proof.Laws.F.firstWatchdogService : Statement (.firstWatchdogService) := of_other rfl (fun h => by cases h) rfl
theorem Sys2Proof.Laws.F.hkSlot : Statement (.hkSlot) := of_other rfl (fun h => by cases h) rfl
theorem Sys2Proof.Laws.F.hkConversionDone (value) : Statement (.hkConversionDone value) := of_other rfl (fun h => by cases h) rfl
theorem Sys2Proof.Laws.F.productIssue (r) : Statement (.productIssue r) := of_other rfl (fun h => by cases h) rfl
theorem Sys2Proof.Laws.F.phaseEnd (tile) (codes) : Statement (.phaseEnd tile codes) := of_other rfl (fun h => by cases h) rfl
theorem Sys2Proof.Laws.F.programStepEnd (tile) (r) : Statement (.programStepEnd tile r) := of_other rfl (fun h => by cases h) rfl
theorem Sys2Proof.Laws.F.programStepOwed (tile) : Statement (.programStepOwed tile) := of_other rfl (fun h => by cases h) rfl
theorem Sys2Proof.Laws.F.referenceSweep (tile) (deck) (codes) : Statement (.referenceSweep tile deck codes) := of_other rfl (fun h => by cases h) rfl
theorem Sys2Proof.Laws.F.clapperPhase (tile) (deck) (run) : Statement (.clapperPhase tile deck run) := of_other rfl (fun h => by cases h) rfl
theorem Sys2Proof.Laws.F.verifyRead (tile) (deck) (row) : Statement (.verifyRead tile deck row) := of_other rfl (fun h => by cases h) rfl
theorem Sys2Proof.Laws.F.forcedGap (tile) : Statement (.forcedGap tile) := of_other rfl (fun h => by cases h) rfl
theorem Sys2Proof.Laws.F.deckAgeRecord (tile) (deck) : Statement (.deckAgeRecord tile deck) := of_other rfl (fun h => by cases h) rfl
theorem Sys2Proof.Laws.F.driftAgeLimit (tile) (deck) : Statement (.driftAgeLimit tile deck) := of_other rfl (fun h => by cases h) rfl
theorem Sys2Proof.Laws.F.driftUpdate (bough) : Statement (.driftUpdate bough) := of_other rfl (fun h => by cases h) rfl
theorem Sys2Proof.Laws.F.outlierReadReturn (prod) (reads) : Statement (.outlierReadReturn prod reads) := of_other rfl (fun h => by cases h) rfl
theorem Sys2Proof.Laws.F.overflowPass (prod) (reads) : Statement (.overflowPass prod reads) := by cases reads <;> exact of_other rfl (fun h => by cases h) rfl
theorem Sys2Proof.Laws.F.boughSum (key) (reads) : Statement (.boughSum key reads) := by
  obtain ⟨reads, sram⟩ := reads; cases reads <;> cases sram <;> exact of_other rfl (fun h => by cases h) rfl
theorem Sys2Proof.Laws.F.graftTerm (key) (vec) (sram) : Statement (.graftTerm key vec sram) := by
  cases sram <;> exact of_other rfl (fun h => by cases h) rfl
theorem Sys2Proof.Laws.F.contCheckDone (prod) : Statement (.contCheckDone prod) := of_other rfl (fun h => by cases h) rfl
theorem Sys2Proof.Laws.F.outlierWindowEnd (matrix) : Statement (.outlierWindowEnd matrix) := of_other rfl (fun h => by cases h) rfl
theorem Sys2Proof.Laws.F.transferDone (work) (entry) : Statement (.transferDone work entry) := by
  obtain ⟨entry, sram⟩ := entry; cases sram <;> exact of_other rfl (fun h => by cases h) rfl
theorem Sys2Proof.Laws.F.boughDrainAck (bough) : Statement (.boughDrainAck bough) := of_other rfl (fun h => by cases h) rfl
theorem Sys2Proof.Laws.F.drainComplete : Statement (.drainComplete) := of_other rfl (fun h => by cases h) rfl
theorem Sys2Proof.Laws.F.refReady (bough) : Statement (.refReady bough) := of_other rfl (fun h => by cases h) rfl
theorem Sys2Proof.Laws.F.calRunEnd (bough) (fits) : Statement (.calRunEnd bough fits) := of_other rfl (fun h => by cases h) rfl
theorem Sys2Proof.Laws.F.fitDone (tile) (deck) (forward) (transposed) : Statement (.fitDone tile deck forward transposed) := of_other rfl (fun h => by cases h) rfl
theorem Sys2Proof.Laws.F.deckRetake (tile) (deck) : Statement (.deckRetake tile deck) := of_other rfl (fun h => by cases h) rfl
theorem Sys2Proof.Laws.F.chunkConversion : Statement (.chunkConversion) := of_other rfl (fun h => by cases h) rfl
theorem Sys2Proof.Laws.F.sigCheck : Statement (.sigCheck) := of_other rfl (fun h => by cases h) rfl
theorem Sys2Proof.Laws.F.epochDrained : Statement (.epochDrained) := of_other rfl (fun h => by cases h) rfl
theorem Sys2Proof.Laws.F.kvAppend (work) (layer) (t) (k) (v) : Statement (.kvAppend work layer t k v) := of_other rfl (fun h => by cases h) rfl
theorem Sys2Proof.Laws.F.taprootAttention (work) (layer) (q) (reads) : Statement (.taprootAttention work layer q reads) := by
  obtain ⟨flips, needs, sram⟩ := reads; cases sram <;> exact of_other rfl (fun h => by cases h) rfl
theorem Sys2Proof.Laws.F.canopyBlock (lane) (work) (layer) (group) (rowTile) (q) : Statement (.canopyBlock lane work layer group rowTile q) := of_other rfl (fun h => by cases h) rfl
theorem Sys2Proof.Laws.F.batchOpen : Statement .batchOpen := of_other rfl (fun h => by cases h) rfl
theorem Sys2Proof.Laws.F.batchWindowExpiry : Statement (.batchWindowExpiry) := of_other rfl (fun h => by cases h) rfl
theorem Sys2Proof.Laws.F.stepCommit (call) : Statement (.stepCommit call) := of_other rfl (fun h => by cases h) rfl
theorem Sys2Proof.Laws.F.deadlineScan : Statement (.deadlineScan) := of_other rfl (fun h => by cases h) rfl
theorem Sys2Proof.Laws.F.budgetRefill (customer) : Statement (.budgetRefill customer) := of_other rfl (fun h => by cases h) rfl
theorem Sys2Proof.Laws.F.preempt (call) (chunk) : Statement (.preempt call chunk) := of_other rfl (fun h => by cases h) rfl
theorem Sys2Proof.Laws.F.tokenReturn (hd) (p) (tag) (step) (tokens) (drafts) (marks) : Statement (.tokenReturn hd p tag step tokens drafts marks) := of_other rfl (fun h => by cases h) rfl
theorem Sys2Proof.Laws.F.ack (hd) : Statement (.ack hd) := of_other rfl (fun h => by cases h) rfl
theorem Sys2Proof.Laws.F.nak (hd) (expected) : Statement (.nak hd expected) := of_other rfl (fun h => by cases h) rfl
theorem Sys2Proof.Laws.F.flitDiscard (port) (wire) : Statement (.flitDiscard port wire) := of_other rfl (fun h => by cases h) rfl
theorem Sys2Proof.Laws.F.degrade (hd) (width) (group) : Statement (.degrade hd width group) := of_other rfl (fun h => by cases h) rfl
theorem Sys2Proof.Laws.F.discover (hd) (pos) (side) (posn) (resumed) : Statement (.discover hd pos side posn resumed) := of_other rfl (fun h => by cases h) rfl
theorem Sys2Proof.Laws.F.activation (hd) (epoch) (image) (items) : Statement (.activation hd epoch image items) := of_other rfl (fun h => by cases h) rfl
theorem Sys2Proof.Laws.F.runningSum (hd) (p) (tag) (step) (epoch) (image) (marks) (item) : Statement (.runningSum hd p tag step epoch image marks item) := of_other rfl (fun h => by cases h) rfl
theorem Sys2Proof.Laws.F.callCtrl (hd) (msg) : Statement (.callCtrl hd msg) := of_other rfl (fun h => by cases h) rfl
theorem Sys2Proof.Laws.F.cutCtrl (hd) (msg) : Statement (.cutCtrl hd msg) := of_other rfl (fun h => by cases h) rfl
theorem Sys2Proof.Laws.F.jack (hd) (p) (tag) (step) (pos) : Statement (.jack hd p tag step pos) := of_other rfl (fun h => by cases h) rfl
theorem Sys2Proof.Laws.F.adopt (hd) : Statement (.adopt hd) := of_other rfl (fun h => by cases h) rfl
theorem Sys2Proof.Laws.F.image (hd) (msg) : Statement (.image hd msg) := of_other rfl (fun h => by cases h) rfl
theorem Sys2Proof.Laws.F.heartbeat (hd) (tick) (st) : Statement (.heartbeat hd tick st) := of_other rfl (fun h => by cases h) rfl
theorem Sys2Proof.Laws.F.hbHold (hd) (ticks) (warm) (sleep) : Statement (.hbHold hd ticks warm sleep) := of_other rfl (fun h => by cases h) rfl
theorem Sys2Proof.Laws.F.journal (hd) (recs) : Statement (.journal hd recs) := of_other rfl (fun h => by cases h) rfl
theorem Sys2Proof.Laws.F.journalAck (hd) (p) (tag) (step) : Statement (.journalAck hd p tag step) := of_other rfl (fun h => by cases h) rfl
theorem Sys2Proof.Laws.F.retakeReq (hd) (r) : Statement (.retakeReq hd r) := of_other rfl (fun h => by cases h) rfl
theorem Sys2Proof.Laws.F.verifiedStepDone (p) (tag) (step) (drafts) (mask) : Statement (.verifiedStepDone p tag step drafts mask) := of_other rfl (fun h => by cases h) rfl
theorem Sys2Proof.Laws.F.retakeResp (hd) (p) (tag) (step) (r) : Statement (.retakeResp hd p tag step r) := of_other rfl (fun h => by cases h) rfl
theorem Sys2Proof.Laws.F.retakeTimeout (p) (tag) (step) : Statement (.retakeTimeout p tag step) := of_other rfl (fun h => by cases h) rfl
theorem Sys2Proof.Laws.F.mirrorDrop (hd) : Statement (.mirrorDrop hd) := of_other rfl (fun h => by cases h) rfl
theorem Sys2Proof.Laws.F.heartbeatSend : Statement (.heartbeatSend) := of_other rfl (fun h => by cases h) rfl
theorem Sys2Proof.Laws.F.heartbeatMiss : Statement (.heartbeatMiss) := of_other rfl (fun h => by cases h) rfl
theorem Sys2Proof.Laws.F.fenceWaitEnd : Statement (.fenceWaitEnd) := of_other rfl (fun h => by cases h) rfl
theorem Sys2Proof.Laws.F.mirrorKeepExpiry (call) : Statement (.mirrorKeepExpiry call) := of_other rfl (fun h => by cases h) rfl
theorem Sys2Proof.Laws.F.chainBreak (port) : Statement (.chainBreak port) := of_other rfl (fun h => by cases h) rfl
theorem Sys2Proof.Laws.F.portTrained (port) (lanes) : Statement (.portTrained port lanes) := of_other rfl (fun h => by cases h) rfl
theorem Sys2Proof.Laws.F.laneWeak (port) (lane) (lost) (symbols) : Statement (.laneWeak port lane lost symbols) := of_other rfl (fun h => by cases h) rfl
theorem Sys2Proof.Laws.F.replayMax (port) : Statement (.replayMax port) := of_other rfl (fun h => by cases h) rfl
theorem Sys2Proof.Laws.F.bucketLeak (region) : Statement (.bucketLeak region) := of_other rfl (fun h => by cases h) rfl
theorem Sys2Proof.Laws.F.mergeEvict (stack) (channel) (flips) : Statement (.mergeEvict stack channel flips) := of_other rfl (fun h => by cases h) rfl
theorem Sys2Proof.Laws.F.hotSample (stack) (occupancy) (channel) : Statement (.hotSample stack occupancy channel) := of_other rfl (fun h => by cases h) rfl
theorem Sys2Proof.Laws.F.hotspot (stack) : Statement (.hotspot stack) := of_other rfl (fun h => by cases h) rfl
theorem Sys2Proof.Laws.F.hbmRetired : Statement (.hbmRetired) := of_other rfl (fun h => by cases h) rfl
theorem Sys2Proof.Laws.F.fillDone : Statement (.fillDone) := of_other rfl (fun h => by cases h) rfl
theorem Sys2Proof.Laws.F.rehashDone (units) : Statement (.rehashDone units) := of_other rfl (fun h => by cases h) rfl
theorem Sys2Proof.Laws.F.repeat_ (tile) (phases) : Statement (.repeat_ tile phases) := of_other rfl (fun h => by cases h) rfl
theorem Sys2Proof.Laws.F.slate (u) (digest) : Statement (.slate u digest) := of_other rfl (fun h => by cases h) rfl
theorem Sys2Proof.Laws.F.slateOverdue (u) : Statement (.slateOverdue u) := of_other rfl (fun h => by cases h) rfl
theorem Sys2Proof.Laws.F.daily : Statement (.daily) := of_other rfl (fun h => by cases h) rfl
theorem Sys2Proof.Laws.F.d1Entry : Statement (.d1Entry) := of_other rfl (fun h => by cases h) rfl
theorem Sys2Proof.Laws.F.boughSwitchOpen (bough) : Statement (.boughSwitchOpen bough) := of_other rfl (fun h => by cases h) rfl
theorem Sys2Proof.Laws.F.boughSwitchReady (bough) : Statement (.boughSwitchReady bough) := of_other rfl (fun h => by cases h) rfl
theorem Sys2Proof.Laws.F.pacerWindow : Statement (.pacerWindow) := of_other rfl (fun h => by cases h) rfl
theorem Sys2Proof.Laws.F.energyScale (charged) (measured) : Statement (.energyScale charged measured) := of_other rfl (fun h => by cases h) rfl
theorem Sys2Proof.Laws.F.levelStepSettled (millivolts) : Statement (.levelStepSettled millivolts) := of_other rfl (fun h => by cases h) rfl
theorem Sys2Proof.Laws.F.levelStepTimeout : Statement (.levelStepTimeout) := of_other rfl (fun h => by cases h) rfl
theorem Sys2Proof.Laws.F.regulatorFloorReturn : Statement (.regulatorFloorReturn) := of_other rfl (fun h => by cases h) rfl
theorem Sys2Proof.Laws.F.entryStepDone : Statement (.entryStepDone) := of_other rfl (fun h => by cases h) rfl
theorem Sys2Proof.Laws.F.wake (e) : Statement (.wake e) := of_other rfl (fun h => by cases h) rfl
theorem Sys2Proof.Laws.F.wakePhaseReady : Statement (.wakePhaseReady) := of_other rfl (fun h => by cases h) rfl
theorem Sys2Proof.Laws.F.wakeTimeout (domain) : Statement (.wakeTimeout domain) := of_other rfl (fun h => by cases h) rfl
theorem Sys2Proof.Laws.F.switchPoint : Statement (.switchPoint) := of_other rfl (fun h => by cases h) rfl
theorem Sys2Proof.Laws.F.fwCutoverDone : Statement (.fwCutoverDone) := of_other rfl (fun h => by cases h) rfl
theorem Sys2Proof.Laws.F.vaonApply : Statement (.vaonApply) := of_other rfl (fun h => by cases h) rfl
theorem Sys2Proof.Laws.F.portDown (port) : Statement (.portDown port) := of_other rfl (fun h => by cases h) rfl
theorem Sys2Proof.Laws.F.partnerBootRequest : Statement (.partnerBootRequest) := of_other rfl (fun h => by cases h) rfl
theorem Sys2Proof.Laws.F.hbmExit (ok) : Statement (.hbmExit ok) := of_other rfl (fun h => by cases h) rfl
theorem Sys2Proof.Laws.F.urgentSample (channel) : Statement (.urgentSample channel) := of_other rfl (fun h => by cases h) rfl
theorem Sys2Proof.Laws.F.jtagInstruction (op) : Statement (.jtagInstruction op) := of_other rfl (fun h => by cases h) rfl
end

