-- ==== Sys2Proof/Laws/PortsMoves.lean ====
section
/-! SUPPORT. What each operation of Machine/Ports.lean may change, and that it keeps the canonical form. -/

set_option Elab.async false

namespace Sys2Proof.Machine

set_option linter.unusedTactic false
set_option linter.unreachableTactic false

theorem State.takeGroup_moves {fl : List Field} {r₀ : State} {s : State} {p : Sys2Proof.Port} {w : ℕ} {g : ℕ} (hm : Moves fl r₀ s)
    (hfl : Field.within [.rings, .counters, .links, .sec, .out] fl = true) : Moves fl r₀ (State.takeGroup s p w g) :=
  hm.trans (Moves.mono (a := [.rings, .counters, .links, .sec, .out]) (by
  have h := Moves.refl [.rings, .counters, .links, .sec, .out] s
  unfold State.takeGroup
  repeat' first
    | (extract_lets +onlyGivenNames x; first | (refine Moves.cut (s := x) ?_ ?_; (on_goal 2 => intro hx; clear_value x); (on_goal 1 => subst x)) | subst x)
    | with_reducible assumption
    | (show Field.within _ _ = true; decide)
    | with_reducible apply State.count_moves
    | with_reducible apply State.modLink_moves
    | with_reducible apply State.event_moves
    | split) hfl)

theorem State.announce_moves {fl : List Field} {r₀ : State} {s : State} {p : Sys2Proof.Port} (hm : Moves fl r₀ s)
    (hfl : Field.within [.counters, .links, .out] fl = true) : Moves fl r₀ (State.announce s p) :=
  hm.trans (Moves.mono (a := [.counters, .links, .out]) (by
  have h := Moves.refl [.counters, .links, .out] s
  unfold State.announce
  repeat' first
    | with_reducible assumption
    | (show Field.within _ _ = true; decide)
    | with_reducible apply State.send_moves
    | with_reducible apply Moves.ite
    | split) hfl)

theorem State.portServes_moves {fl : List Field} {r₀ : State} {s : State} {p : Sys2Proof.Port} (hm : Moves fl r₀ s)
    (hfl : Field.within [.boot, .counters, .links, .out] fl = true) : Moves fl r₀ (State.portServes s p) :=
  hm.trans (Moves.mono (a := [.boot, .counters, .links, .out]) (by
  have h := Moves.refl [.boot, .counters, .links, .out] s
  unfold State.portServes
  repeat' first
    | (extract_lets +onlyGivenNames x; first | (refine Moves.cut (s := x) ?_ ?_; (on_goal 2 => intro hx; clear_value x); (on_goal 1 => subst x)) | subst x)
    | with_reducible assumption
    | (show Field.within _ _ = true; decide)
    | with_reducible apply State.emit_moves
    | with_reducible apply State.modBoot_moves
    | with_reducible apply State.send_moves
    | with_reducible apply State.announce_moves
    | with_reducible apply Moves.ite
    | split) hfl)

theorem State.portFalls_moves {fl : List Field} {r₀ : State} {s : State} {p : Sys2Proof.Port} (hm : Moves fl r₀ s)
    (hfl : Field.within [.rings, .counters, .links, .sec, .out] fl = true) : Moves fl r₀ (State.portFalls s p) :=
  hm.trans (Moves.mono (a := [.rings, .counters, .links, .sec, .out]) (by
  have h := Moves.refl [.rings, .counters, .links, .sec, .out] s
  unfold State.portFalls
  repeat' first
    | with_reducible assumption
    | (show Field.within _ _ = true; decide)
    | with_reducible apply State.event_moves
    | with_reducible apply State.portLost_moves
    | split) hfl)

theorem State.degradePort_moves {fl : List Field} {r₀ : State} {s : State} {p : Sys2Proof.Port} (hm : Moves fl r₀ s)
    (hfl : Field.within [.rings, .counters, .links, .sec, .out] fl = true) : Moves fl r₀ (State.degradePort s p) :=
  hm.trans (Moves.mono (a := [.rings, .counters, .links, .sec, .out]) (by
  have h := Moves.refl [.rings, .counters, .links, .sec, .out] s
  unfold State.degradePort
  repeat' first
    | with_reducible assumption
    | (show Field.within _ _ = true; decide)
    | with_reducible apply State.portFalls_moves
    | with_reducible apply State.send_moves
    | with_reducible apply State.takeGroup_moves
    | split) hfl)

theorem State.laneWeak_moves {fl : List Field} {r₀ : State} {s : State} {p : Sys2Proof.Port} {lane : ℕ} (hm : Moves fl r₀ s)
    (hfl : Field.within [.rings, .counters, .links, .sec, .out] fl = true) : Moves fl r₀ (State.laneWeak s p lane) :=
  hm.trans (Moves.mono (a := [.rings, .counters, .links, .sec, .out]) (by
  have h := Moves.refl [.rings, .counters, .links, .sec, .out] s
  unfold State.laneWeak
  repeat' first
    | (extract_lets +onlyGivenNames x; first | (refine Moves.cut (s := x) ?_ ?_; (on_goal 2 => intro hx; clear_value x); (on_goal 1 => subst x)) | subst x)
    | with_reducible assumption
    | (show Field.within _ _ = true; decide)
    | with_reducible apply State.modLink_moves
    | with_reducible apply State.degradePort_moves
    | with_reducible apply Moves.ite
    | split) hfl)

theorem State.chainBreak_moves {fl : List Field} {r₀ : State} {s : State} {p : Sys2Proof.Port} (hm : Moves fl r₀ s)
    (hfl : Field.within [.rings, .counters, .links, .sec, .out] fl = true) : Moves fl r₀ (State.chainBreak s p) :=
  hm.trans (Moves.mono (a := [.rings, .counters, .links, .sec, .out]) (by
  have h := Moves.refl [.rings, .counters, .links, .sec, .out] s
  unfold State.chainBreak
  repeat' first
    | with_reducible assumption
    | (show Field.within _ _ = true; decide)
    | with_reducible apply State.event_moves
    | with_reducible apply State.modLink_moves
    | split) hfl)

theorem State.judgePartner_moves {fl : List Field} {r₀ : State} {s : State}  (hm : Moves fl r₀ s)
    (hfl : Field.within [.regs, .rings, .counters, .partner, .sec, .out] fl = true) : Moves fl r₀ (State.judgePartner s) :=
  hm.trans (Moves.mono (a := [.regs, .rings, .counters, .partner, .sec, .out]) (by
  have h := Moves.refl [.regs, .rings, .counters, .partner, .sec, .out] s
  unfold State.judgePartner
  repeat' first
    | with_reducible assumption
    | (show Field.within _ _ = true; decide)
    | with_reducible apply State.modPartner_moves
    | with_reducible apply State.modRegs_moves
    | with_reducible apply State.event_moves
    | with_reducible apply Moves.ite
    | split) hfl)

theorem State.replayMaxed_moves {fl : List Field} {r₀ : State} {s : State} {p : Sys2Proof.Port} (hm : Moves fl r₀ s)
    (hfl : Field.within [.rings, .counters, .links, .sec, .out] fl = true) : Moves fl r₀ (State.replayMaxed s p) :=
  hm.trans (Moves.mono (a := [.rings, .counters, .links, .sec, .out]) (by
  have h := Moves.refl [.rings, .counters, .links, .sec, .out] s
  unfold State.replayMaxed
  repeat' first
    | (extract_lets +onlyGivenNames x; first | (refine Moves.cut (s := x) ?_ ?_; (on_goal 2 => intro hx; clear_value x); (on_goal 1 => subst x)) | subst x)
    | with_reducible assumption
    | (show Field.within _ _ = true; decide)
    | with_reducible apply State.modLink_moves
    | with_reducible apply State.degradePort_moves
    | with_reducible apply State.sendHold_moves
    | with_reducible apply State.count_moves
    | with_reducible apply State.trainPort_moves
    | with_reducible apply Moves.ite
    | split) hfl)

theorem State.learnPosition_moves {fl : List Field} {r₀ : State} {s : State} {n : ℕ} (hm : Moves fl r₀ s)
    (hfl : Field.within [.boot, .regs, .rings, .counters, .jobs, .links, .partner, .sec, .out] fl = true) : Moves fl r₀ (State.learnPosition s n) :=
  hm.trans (Moves.mono (a := [.boot, .regs, .rings, .counters, .jobs, .links, .partner, .sec, .out]) (by
  have h := Moves.refl [.boot, .regs, .rings, .counters, .jobs, .links, .partner, .sec, .out] s
  unfold State.learnPosition
  repeat' first
    | (extract_lets +onlyGivenNames x; first | (refine Moves.cut (s := x) ?_ ?_; (on_goal 2 => intro hx; clear_value x); (on_goal 1 => subst x)) | subst x)
    | with_reducible assumption
    | (show Field.within _ _ = true; decide)
    | with_reducible apply State.modBoot_moves
    | with_reducible apply State.modRegs_moves
    | with_reducible apply State.event_moves
    | with_reducible apply State.modLink_moves
    | with_reducible apply State.announce_moves
    | with_reducible apply State.linkStep_moves
    | with_reducible apply State.judgePartner_moves
    | with_reducible apply Moves.each
    | with_reducible apply Moves.ite
    | (intro _ _ _)
    | split) hfl)

theorem State.restepChain_moves {fl : List Field} {r₀ : State} {s : State}  (hm : Moves fl r₀ s)
    (hfl : Field.within [.rings, .counters, .steps, .tiles, .boughs, .prods, .sums, .handoffs, .acts, .xferWaits, .canopy, .backs, .latches, .attnWaits, .servedKv, .servedAttn, .mem, .links, .sec, .out] fl = true) : Moves fl r₀ (State.restepChain s) :=
  hm.trans (Moves.mono (a := [.rings, .counters, .steps, .tiles, .boughs, .prods, .sums, .handoffs, .acts, .xferWaits, .canopy, .backs, .latches, .attnWaits, .servedKv, .servedAttn, .mem, .links, .sec, .out]) (by
  have h := Moves.refl [.rings, .counters, .steps, .tiles, .boughs, .prods, .sums, .handoffs, .acts, .xferWaits, .canopy, .backs, .latches, .attnWaits, .servedKv, .servedAttn, .mem, .links, .sec, .out] s
  unfold State.restepChain
  repeat' first
    | (extract_lets +onlyGivenNames x; first | (refine Moves.cut (s := x) ?_ ?_; (on_goal 2 => intro hx; clear_value x); (on_goal 1 => subst x)) | subst x)
    | with_reducible assumption
    | (show Field.within _ _ = true; decide)
    | with_reducible apply State.count_moves
    | with_reducible apply State.restartStep_moves
    | with_reducible apply State.send_moves
    | with_reducible apply Moves.each
    | with_reducible apply Moves.ite
    | (intro _ _ _)
    | split) hfl)

theorem State.replayHeld_moves {fl : List Field} {r₀ : State} {s : State} {p : Sys2Proof.Port} (hm : Moves fl r₀ s)
    (hfl : Field.within [.counters, .out] fl = true) : Moves fl r₀ (State.replayHeld s p) :=
  hm.trans (Moves.mono (a := [.counters, .out]) (by
  have h := Moves.refl [.counters, .out] s
  unfold State.replayHeld
  repeat' first
    | with_reducible assumption
    | (show Field.within _ _ = true; decide)
    | with_reducible apply State.replayFrom_moves
    | split) hfl)

theorem State.portTrained_moves {fl : List Field} {r₀ : State} {s : State} {p : Sys2Proof.Port} {good : BitVec 16} {w : ℕ} {g : ℕ} (hm : Moves fl r₀ s)
    (hfl : Field.within [.boot, .regs, .rings, .counters, .jobs, .links, .sec, .out] fl = true) : Moves fl r₀ (State.portTrained s p good w g) :=
  hm.trans (Moves.mono (a := [.boot, .regs, .rings, .counters, .jobs, .links, .sec, .out]) (by
  have h := Moves.refl [.boot, .regs, .rings, .counters, .jobs, .links, .sec, .out] s
  unfold State.portTrained
  repeat' first
    | (extract_lets +onlyGivenNames x; first | (refine Moves.cut (s := x) ?_ ?_; (on_goal 2 => intro hx; clear_value x); (on_goal 1 => subst x)) | subst x)
    | with_reducible assumption
    | (show Field.within _ _ = true; decide)
    | with_reducible apply State.modLink_moves
    | with_reducible apply State.event_moves
    | with_reducible apply State.pumpAll_moves
    | with_reducible apply State.replayHeld_moves
    | with_reducible apply State.completeAll_moves
    | with_reducible apply State.linkStep_moves
    | with_reducible apply State.portServes_moves
    | with_reducible apply Moves.ite
    | split) hfl)

theorem State.trainingFails_moves {fl : List Field} {r₀ : State} {s : State} {p : Sys2Proof.Port} (hm : Moves fl r₀ s)
    (hfl : Field.within [.boot, .regs, .rings, .counters, .jobs, .links, .partner, .sec, .out] fl = true) : Moves fl r₀ (State.trainingFails s p) :=
  hm.trans (Moves.mono (a := [.boot, .regs, .rings, .counters, .jobs, .links, .partner, .sec, .out]) (by
  have h := Moves.refl [.boot, .regs, .rings, .counters, .jobs, .links, .partner, .sec, .out] s
  unfold State.trainingFails
  repeat' first
    | (extract_lets +onlyGivenNames x; first | (refine Moves.cut (s := x) ?_ ?_; (on_goal 2 => intro hx; clear_value x); (on_goal 1 => subst x)) | subst x)
    | with_reducible assumption
    | (show Field.within _ _ = true; decide)
    | with_reducible apply State.portFalls_moves
    | with_reducible apply State.learnPosition_moves
    | with_reducible apply State.event_moves
    | with_reducible apply State.modPartner_moves
    | with_reducible apply State.linkStep_moves
    | with_reducible apply Moves.ite
    | split) hfl)

theorem State.neighbourResumed_moves {fl : List Field} {r₀ : State} {s : State} {p : Sys2Proof.Port} {body : FlitBody} (hm : Moves fl r₀ s)
    (hfl : Field.within [.boot, .regs, .rings, .counters, .jobs, .steps, .tiles, .boughs, .prods, .nextOrder, .sums, .handoffs, .acts, .xferWaits, .canopy, .backs, .latches, .attnWaits, .servedKv, .servedAttn, .weights, .mem, .links, .faults, .power, .sec, .out] fl = true) : Moves fl r₀ (State.neighbourResumed s p body) :=
  hm.trans (Moves.mono (a := [.boot, .regs, .rings, .counters, .jobs, .steps, .tiles, .boughs, .prods, .nextOrder, .sums, .handoffs, .acts, .xferWaits, .canopy, .backs, .latches, .attnWaits, .servedKv, .servedAttn, .weights, .mem, .links, .faults, .power, .sec, .out]) (by
  have h := Moves.refl [.boot, .regs, .rings, .counters, .jobs, .steps, .tiles, .boughs, .prods, .nextOrder, .sums, .handoffs, .acts, .xferWaits, .canopy, .backs, .latches, .attnWaits, .servedKv, .servedAttn, .weights, .mem, .links, .faults, .power, .sec, .out] s
  unfold State.neighbourResumed
  repeat' first
    | (extract_lets +onlyGivenNames x; first | (refine Moves.cut (s := x) ?_ ?_; (on_goal 2 => intro hx; clear_value x); (on_goal 1 => subst x)) | subst x)
    | with_reducible assumption
    | (show Field.within _ _ = true; decide)
    | with_reducible apply State.restartStep_moves
    | with_reducible apply State.send_moves
    | with_reducible apply State.settle_moves
    | with_reducible apply State.restepChain_moves
    | with_reducible apply Moves.each
    | with_reducible apply Moves.ite
    | (intro _ _ _)
    | split) hfl)

theorem State.discover_moves {fl : List Field} {r₀ : State} {s : State} {p : Sys2Proof.Port} {pos : ℕ} {side : ℕ} {posn : ℕ} {resumed : Bool} (hm : Moves fl r₀ s)
    (hfl : Field.within [.boot, .regs, .rings, .counters, .jobs, .steps, .tiles, .boughs, .prods, .nextOrder, .sums, .handoffs, .acts, .xferWaits, .canopy, .backs, .latches, .attnWaits, .servedKv, .servedAttn, .weights, .mem, .links, .partner, .faults, .power, .sec, .out] fl = true) : Moves fl r₀ (State.discover s p pos side posn resumed) :=
  hm.trans (Moves.mono (a := [.boot, .regs, .rings, .counters, .jobs, .steps, .tiles, .boughs, .prods, .nextOrder, .sums, .handoffs, .acts, .xferWaits, .canopy, .backs, .latches, .attnWaits, .servedKv, .servedAttn, .weights, .mem, .links, .partner, .faults, .power, .sec, .out]) (by
  have h := Moves.refl [.boot, .regs, .rings, .counters, .jobs, .steps, .tiles, .boughs, .prods, .nextOrder, .sums, .handoffs, .acts, .xferWaits, .canopy, .backs, .latches, .attnWaits, .servedKv, .servedAttn, .weights, .mem, .links, .partner, .faults, .power, .sec, .out] s
  unfold State.discover
  repeat' first
    | with_reducible assumption
    | (show Field.within _ _ = true; decide)
    | with_reducible apply State.neighbourResumed_moves
    | with_reducible apply State.learnPosition_moves
    | with_reducible apply State.judgePartner_moves
    | with_reducible apply State.modPartner_moves
    | with_reducible apply Moves.ite
    | split) hfl)

theorem State.degradeFlit_moves {fl : List Field} {r₀ : State} {s : State} {p : Sys2Proof.Port} {w : ℕ} {g : ℕ} (hm : Moves fl r₀ s)
    (hfl : Field.within [.rings, .counters, .links, .sec, .out] fl = true) : Moves fl r₀ (State.degradeFlit s p w g) :=
  hm.trans (Moves.mono (a := [.rings, .counters, .links, .sec, .out]) (by
  have h := Moves.refl [.rings, .counters, .links, .sec, .out] s
  unfold State.degradeFlit
  repeat' first
    | (extract_lets +onlyGivenNames x; first | (refine Moves.cut (s := x) ?_ ?_; (on_goal 2 => intro hx; clear_value x); (on_goal 1 => subst x)) | subst x)
    | with_reducible assumption
    | (show Field.within _ _ = true; decide)
    | with_reducible apply State.replayHeld_moves
    | with_reducible apply State.send_moves
    | with_reducible apply State.takeGroup_moves
    | with_reducible apply Moves.ite
    | split) hfl)

theorem State.nak_moves {fl : List Field} {r₀ : State} {s : State} {p : Sys2Proof.Port} {n : BitVec 12} (hm : Moves fl r₀ s)
    (hfl : Field.within [.counters, .links, .out] fl = true) : Moves fl r₀ (State.nak s p n) :=
  hm.trans (Moves.mono (a := [.counters, .links, .out]) (by
  have h := Moves.refl [.counters, .links, .out] s
  unfold State.nak
  repeat' first
    | (extract_lets +onlyGivenNames x; first | (refine Moves.cut (s := x) ?_ ?_; (on_goal 2 => intro hx; clear_value x); (on_goal 1 => subst x)) | subst x)
    | with_reducible assumption
    | (show Field.within _ _ = true; decide)
    | with_reducible apply State.modLink_moves
    | with_reducible apply State.replayFrom_moves
    | with_reducible apply Moves.ite
    | split) hfl)

theorem State.flitDiscard_moves {fl : List Field} {r₀ : State} {s : State} {p : Sys2Proof.Port} {w : Sys2Proof.Bytes} (hm : Moves fl r₀ s)
    (hfl : Field.within [.counters, .links, .out] fl = true) : Moves fl r₀ (State.flitDiscard s p w) :=
  hm.trans (Moves.mono (a := [.counters, .links, .out]) (by
  have h := Moves.refl [.counters, .links, .out] s
  unfold State.flitDiscard
  repeat' first
    | (extract_lets +onlyGivenNames x; first | (refine Moves.cut (s := x) ?_ ?_; (on_goal 2 => intro hx; clear_value x); (on_goal 1 => subst x)) | subst x)
    | with_reducible assumption
    | (show Field.within _ _ = true; decide)
    | with_reducible apply State.count_moves
    | with_reducible apply State.modLink_moves
    | with_reducible apply State.send_moves
    | with_reducible apply Moves.ite
    | split) hfl)

end Sys2Proof.Machine
end

