-- ==== Sys2Proof/Laws/PowerMoves.lean ====
section
/-! SUPPORT. What each operation of Machine/Power.lean may change, and that it keeps the canonical form. -/

set_option Elab.async false

namespace Sys2Proof.Machine

set_option linter.unusedTactic false
set_option linter.unreachableTactic false

theorem State.energyScale_moves {fl : List Field} {r₀ : State} {s : State} {charged : ℕ} {measured : ℕ} (hm : Moves fl r₀ s)
    (hfl : Field.within [.power] fl = true) : Moves fl r₀ (State.energyScale s charged measured) :=
  hm.trans (Moves.mono (a := [.power]) (by
  have h := Moves.refl [.power] s
  unfold State.energyScale
  repeat' first
    | with_reducible assumption
    | (show Field.within _ _ = true; decide)
    | with_reducible apply State.modPower_moves
    | with_reducible apply Moves.ite
    | split) hfl)

theorem State.openSwitches_moves {fl : List Field} {r₀ : State} {s : State} {ok : ℕ → Bool} (hm : Moves fl r₀ s)
    (hfl : Field.within [.boughs] fl = true) : Moves fl r₀ (State.openSwitches s ok) :=
  hm.trans (Moves.mono (a := [.boughs]) (by
  have h := Moves.refl [.boughs] s
  unfold State.openSwitches
  repeat' first
    | with_reducible assumption
    | (show Field.within _ _ = true; decide)
    | with_reducible apply State.modBough_moves
    | with_reducible apply Moves.each
    | (intro _ _ _)
    | split) hfl)

theorem State.d1Entry_moves {fl : List Field} {r₀ : State} {s : State}  (hm : Moves fl r₀ s)
    (hfl : Field.within [.counters, .boughs, .power] fl = true) : Moves fl r₀ (State.d1Entry s) :=
  hm.trans (Moves.mono (a := [.counters, .boughs, .power]) (by
  have h := Moves.refl [.counters, .boughs, .power] s
  unfold State.d1Entry
  repeat' first
    | with_reducible assumption
    | (show Field.within _ _ = true; decide)
    | with_reducible apply State.count_moves
    | with_reducible apply State.openSwitches_moves
    | with_reducible apply State.modPower_moves
    | split) hfl)

theorem State.levelTimeout_moves {fl : List Field} {r₀ : State} {s : State} {t : ℕ} (hm : Moves fl r₀ s)
    (hfl : Field.within [.regs, .rings, .counters, .power, .sec, .free, .out] fl = true) : Moves fl r₀ (State.levelTimeout s t) :=
  hm.trans (Moves.mono (a := [.regs, .rings, .counters, .power, .sec, .free, .out]) (by
  have h := Moves.refl [.regs, .rings, .counters, .power, .sec, .free, .out] s
  unfold State.levelTimeout
  repeat' first
    | (extract_lets +onlyGivenNames x; first | (refine Moves.cut (s := x) ?_ ?_; (on_goal 2 => intro hx; clear_value x); (on_goal 1 => subst x)) | subst x)
    | with_reducible assumption
    | (show Field.within _ _ = true; decide)
    | with_reducible apply State.setRegFloor_moves
    | with_reducible apply State.regAlert_moves
    | with_reducible apply State.modPower_moves
    | with_reducible apply State.draw_moves
    | split) hfl)

theorem State.dutiesResume_moves {fl : List Field} {r₀ : State} {s : State} {d3 : Bool} (hm : Moves fl r₀ s)
    (hfl : Field.within [.tiles, .faults] fl = true) : Moves fl r₀ (State.dutiesResume s d3) :=
  hm.trans (Moves.mono (a := [.tiles, .faults]) (by
  have h := Moves.refl [.tiles, .faults] s
  unfold State.dutiesResume
  repeat' first
    | (extract_lets +onlyGivenNames x; first | (refine Moves.cut (s := x) ?_ ?_; (on_goal 2 => intro hx; clear_value x); (on_goal 1 => subst x)) | subst x)
    | with_reducible assumption
    | (show Field.within _ _ = true; decide)
    | with_reducible apply State.modFaults_moves
    | with_reducible apply Moves.ite
    | split
    | (refine Moves.of_lit ?_ ?_ ?_)
    | (intro f hf; cases f <;> first | exact hf.elim (by decide) | rfl)
    | (exact fun c => ⟨c.parts, c.rings, c.counters, c.calls, c.customers, by dsimp only; first | exact c.tiles | exact Tbl.wf_set c.tiles | exact Tbl.wf_update c.tiles | exact Tbl.wf_mapVals (Tbl.rising_of_wf c.tiles) | exact Tbl.wf_mapVals (Tbl.rising_map (fun p => by (try dsimp only); (repeat' split) <;> rfl) (Tbl.rising_of_wf c.tiles)) | (split <;> first | exact c.tiles | exact Tbl.wf_set c.tiles | exact Tbl.wf_mapVals (Tbl.rising_of_wf c.tiles)), c.boughs, c.calSave, c.links, c.mem⟩)) hfl)

theorem State.wakeEnds_moves {fl : List Field} {r₀ : State} {s : State} {w : WakeSt} (hm : Moves fl r₀ s)
    (hfl : Field.within [.boot, .regs, .rings, .counters, .jobs, .steps, .tiles, .boughs, .prods, .nextOrder, .weights, .links, .faults, .power, .sec, .out] fl = true) : Moves fl r₀ (State.wakeEnds s w) :=
  hm.trans (Moves.mono (a := [.boot, .regs, .rings, .counters, .jobs, .steps, .tiles, .boughs, .prods, .nextOrder, .weights, .links, .faults, .power, .sec, .out]) (by
  have h := Moves.refl [.boot, .regs, .rings, .counters, .jobs, .steps, .tiles, .boughs, .prods, .nextOrder, .weights, .links, .faults, .power, .sec, .out] s
  unfold State.wakeEnds
  repeat' first
    | (extract_lets +onlyGivenNames x; first | (refine Moves.cut (s := x) ?_ ?_; (on_goal 2 => intro hx; clear_value x); (on_goal 1 => subst x)) | subst x)
    | with_reducible assumption
    | (show Field.within _ _ = true; decide)
    | with_reducible apply State.modRegs_moves
    | with_reducible apply State.modBoot_moves
    | with_reducible apply State.modPower_moves
    | with_reducible apply State.dutiesResume_moves
    | with_reducible apply State.complete_moves
    | with_reducible apply State.settle_moves
    | with_reducible apply State.tilesNext_moves
    | with_reducible apply State.startLevel_moves
    | with_reducible apply State.powerEvent_moves
    | with_reducible apply Moves.ite
    | split) hfl)

theorem State.wakeStarts_moves {fl : List Field} {r₀ : State} {s : State}  (hm : Moves fl r₀ s)
    (hfl : Field.within [.boot, .regs, .boughs, .links, .faults] fl = true) : Moves fl r₀ (State.wakeStarts s) :=
  hm.trans (Moves.mono (a := [.boot, .regs, .boughs, .links, .faults]) (by
  have h := Moves.refl [.boot, .regs, .boughs, .links, .faults] s
  unfold State.wakeStarts
  repeat' first
    | (extract_lets +onlyGivenNames x; first | (refine Moves.cut (s := x) ?_ ?_; (on_goal 2 => intro hx; clear_value x); (on_goal 1 => subst x)) | subst x)
    | with_reducible assumption
    | (show Field.within _ _ = true; decide)
    | with_reducible apply State.modBoot_moves
    | with_reducible apply State.modFaults_moves
    | with_reducible apply State.showStep_moves
    | with_reducible apply State.trainPort_moves
    | with_reducible apply Moves.each
    | (intro _ _ _)
    | split
    | (refine Moves.of_lit ?_ ?_ ?_)
    | (intro f hf; cases f <;> first | exact hf.elim (by decide) | rfl)
    | (exact fun c => ⟨c.parts, c.rings, c.counters, c.calls, c.customers, c.tiles, by dsimp only; first | exact c.boughs | exact Tbl.wf_set c.boughs | exact Tbl.wf_update c.boughs | exact Tbl.wf_mapVals (Tbl.rising_of_wf c.boughs) | exact Tbl.wf_mapVals (Tbl.rising_map (fun p => by (try dsimp only); (repeat' split) <;> rfl) (Tbl.rising_of_wf c.boughs)) | (split <;> first | exact c.boughs | exact Tbl.wf_set c.boughs | exact Tbl.wf_mapVals (Tbl.rising_of_wf c.boughs)), c.calSave, c.links, c.mem⟩)) hfl)

theorem State.wakePhase_moves {fl : List Field} {r₀ : State} {s : State} {w : WakeSt} (hm : Moves fl r₀ s)
    (hfl : Field.within [.boot, .regs, .rings, .counters, .jobs, .steps, .tiles, .boughs, .prods, .nextOrder, .weights, .links, .faults, .power, .sec, .out] fl = true) : Moves fl r₀ (State.wakePhase s w) :=
  hm.trans (Moves.mono (a := [.boot, .regs, .rings, .counters, .jobs, .steps, .tiles, .boughs, .prods, .nextOrder, .weights, .links, .faults, .power, .sec, .out]) (by
  have h := Moves.refl [.boot, .regs, .rings, .counters, .jobs, .steps, .tiles, .boughs, .prods, .nextOrder, .weights, .links, .faults, .power, .sec, .out] s
  unfold State.wakePhase
  repeat' first
    | (extract_lets +onlyGivenNames x; first | (refine Moves.cut (s := x) ?_ ?_; (on_goal 2 => intro hx; clear_value x); (on_goal 1 => subst x)) | subst x)
    | with_reducible assumption
    | (show Field.within _ _ = true; decide)
    | with_reducible apply State.modPower_moves
    | with_reducible apply State.wakeEnds_moves
    | with_reducible apply State.wakeStarts_moves
    | with_reducible apply Moves.ite
    | split) hfl)

theorem State.levelSettled_moves {fl : List Field} {r₀ : State} {s : State} {t : ℕ} (hm : Moves fl r₀ s)
    (hfl : Field.within [.regs, .counters, .power, .out] fl = true) : Moves fl r₀ (State.levelSettled s t) :=
  hm.trans (Moves.mono (a := [.regs, .counters, .power, .out]) (by
  have h := Moves.refl [.regs, .counters, .power, .out] s
  unfold State.levelSettled
  repeat' first
    | (extract_lets +onlyGivenNames x; first | (refine Moves.cut (s := x) ?_ ?_; (on_goal 2 => intro hx; clear_value x); (on_goal 1 => subst x)) | subst x)
    | with_reducible assumption
    | (show Field.within _ _ = true; decide)
    | with_reducible apply State.modRegs_moves
    | with_reducible apply State.startLevel_moves
    | with_reducible apply State.count_moves
    | with_reducible apply State.modPower_moves
    | split) hfl)

theorem State.recordAges_moves {fl : List Field} {r₀ : State} {s : State}  (hm : Moves fl r₀ s)
    (hfl : Field.within [.tiles] fl = true) : Moves fl r₀ (State.recordAges s) :=
  hm.trans (Moves.mono (a := [.tiles]) (by
  have h := Moves.refl [.tiles] s
  unfold State.recordAges
  repeat' first
    | with_reducible assumption
    | (show Field.within _ _ = true; decide)
    | split
    | (refine Moves.of_lit ?_ ?_ ?_)
    | (intro f hf; cases f <;> first | exact hf.elim (by decide) | rfl)
    | (exact fun c => ⟨c.parts, c.rings, c.counters, c.calls, c.customers, by dsimp only; first | exact c.tiles | exact Tbl.wf_set c.tiles | exact Tbl.wf_update c.tiles | exact Tbl.wf_mapVals (Tbl.rising_of_wf c.tiles) | exact Tbl.wf_mapVals (Tbl.rising_map (fun p => by (try dsimp only); (repeat' split) <;> rfl) (Tbl.rising_of_wf c.tiles)) | (split <;> first | exact c.tiles | exact Tbl.wf_set c.tiles | exact Tbl.wf_mapVals (Tbl.rising_of_wf c.tiles)), c.boughs, c.calSave, c.links, c.mem⟩)) hfl)

theorem State.latchPower_moves {fl : List Field} {r₀ : State} {s : State}  (hm : Moves fl r₀ s)
    (hfl : Field.within [.power] fl = true) : Moves fl r₀ (State.latchPower s) :=
  hm.trans (Moves.mono (a := [.power]) (by
  have h := Moves.refl [.power] s
  unfold State.latchPower
  repeat' first
    | with_reducible assumption
    | (show Field.within _ _ = true; decide)
    | with_reducible apply State.modPower_moves
    | split) hfl)

theorem State.pacerWindow_moves {fl : List Field} {r₀ : State} {s : State}  (hm : Moves fl r₀ s)
    (hfl : Field.within [.regs, .parts, .rings, .counters, .jobs, .calls, .steps, .batch, .grafts, .tiles, .boughs, .prods, .sums, .handoffs, .acts, .xferWaits, .histos, .canopy, .backs, .latches, .attnWaits, .servedKv, .servedAttn, .mem, .links, .faults, .power, .sec, .out] fl = true) : Moves fl r₀ (State.pacerWindow s) :=
  hm.trans (Moves.mono (a := [.regs, .parts, .rings, .counters, .jobs, .calls, .steps, .batch, .grafts, .tiles, .boughs, .prods, .sums, .handoffs, .acts, .xferWaits, .histos, .canopy, .backs, .latches, .attnWaits, .servedKv, .servedAttn, .mem, .links, .faults, .power, .sec, .out]) (by
  have h := Moves.refl [.regs, .parts, .rings, .counters, .jobs, .calls, .steps, .batch, .grafts, .tiles, .boughs, .prods, .sums, .handoffs, .acts, .xferWaits, .histos, .canopy, .backs, .latches, .attnWaits, .servedKv, .servedAttn, .mem, .links, .faults, .power, .sec, .out] s
  unfold State.pacerWindow
  repeat' first
    | (extract_lets +onlyGivenNames x; first | (refine Moves.cut (s := x) ?_ ?_; (on_goal 2 => intro hx; clear_value x); (on_goal 1 => subst x)) | subst x)
    | with_reducible assumption
    | (show Field.within _ _ = true; decide)
    | with_reducible apply State.latchPower_moves
    | with_reducible apply State.modPower_moves
    | with_reducible apply State.attnRetry_moves
    | with_reducible apply State.tilesNext_moves
    | with_reducible apply State.startLevel_moves
    | split) hfl)

theorem State.entrySleeps_moves {fl : List Field} {r₀ : State} {s : State}  (hm : Moves fl r₀ s)
    (hfl : Field.within [.parts, .rings, .counters, .calls, .steps, .batch, .grafts, .tiles, .boughs, .prods, .sums, .handoffs, .acts, .xferWaits, .canopy, .backs, .latches, .attnWaits, .servedKv, .servedAttn, .mem, .links, .sec, .out] fl = true) : Moves fl r₀ (State.entrySleeps s) :=
  hm.trans (Moves.mono (a := [.parts, .rings, .counters, .calls, .steps, .batch, .grafts, .tiles, .boughs, .prods, .sums, .handoffs, .acts, .xferWaits, .canopy, .backs, .latches, .attnWaits, .servedKv, .servedAttn, .mem, .links, .sec, .out]) (by
  have h := Moves.refl [.parts, .rings, .counters, .calls, .steps, .batch, .grafts, .tiles, .boughs, .prods, .sums, .handoffs, .acts, .xferWaits, .canopy, .backs, .latches, .attnWaits, .servedKv, .servedAttn, .mem, .links, .sec, .out] s
  unfold State.entrySleeps
  repeat' first
    | (extract_lets +onlyGivenNames x; first | (refine Moves.cut (s := x) ?_ ?_; (on_goal 2 => intro hx; clear_value x); (on_goal 1 => subst x)) | subst x)
    | with_reducible assumption
    | (show Field.within _ _ = true; decide)
    | with_reducible apply State.sendHold_moves
    | with_reducible apply State.portsDown_moves
    | with_reducible apply State.releaseEntry_moves
    | with_reducible apply Moves.each
    | (intro _ _ _)
    | split) hfl)

theorem State.floorReturns_moves {fl : List Field} {r₀ : State} {s : State}  (hm : Moves fl r₀ s)
    (hfl : Field.within [.regs, .power, .out] fl = true) : Moves fl r₀ (State.floorReturns s) :=
  hm.trans (Moves.mono (a := [.regs, .power, .out]) (by
  have h := Moves.refl [.regs, .power, .out] s
  unfold State.floorReturns
  repeat' first
    | with_reducible assumption
    | (show Field.within _ _ = true; decide)
    | with_reducible apply State.startLevel_moves
    | with_reducible apply State.modPower_moves
    | split) hfl)

theorem State.switchReady_moves {fl : List Field} {r₀ : State} {s : State} {b : ℕ} (hm : Moves fl r₀ s)
    (hfl : Field.within [.rings, .counters, .steps, .tiles, .boughs, .prods, .links, .faults, .power, .sec, .out] fl = true) : Moves fl r₀ (State.switchReady s b) :=
  hm.trans (Moves.mono (a := [.rings, .counters, .steps, .tiles, .boughs, .prods, .links, .faults, .power, .sec, .out]) (by
  have h := Moves.refl [.rings, .counters, .steps, .tiles, .boughs, .prods, .links, .faults, .power, .sec, .out] s
  unfold State.switchReady
  repeat' first
    | with_reducible assumption
    | (show Field.within _ _ = true; decide)
    | with_reducible apply State.tilesNext_moves
    | with_reducible apply State.modBough_moves
    | split) hfl)

theorem State.entrySaves_moves {fl : List Field} {r₀ : State} {s : State} {e : EntrySt} (hm : Moves fl r₀ s)
    (hfl : Field.within [.tiles, .calSave] fl = true) : Moves fl r₀ (State.entrySaves s e) :=
  hm.trans (Moves.mono (a := [.tiles, .calSave]) (by
  have h := Moves.refl [.tiles, .calSave] s
  unfold State.entrySaves
  repeat' first
    | (extract_lets +onlyGivenNames x; first | (refine Moves.cut (s := x) ?_ ?_; (on_goal 2 => intro hx; clear_value x); (on_goal 1 => subst x)) | subst x)
    | with_reducible assumption
    | (show Field.within _ _ = true; decide)
    | with_reducible apply State.saveCal_moves
    | with_reducible apply State.recordAges_moves
    | with_reducible apply Moves.each
    | with_reducible apply Moves.ite
    | (intro _ _ _)
    | split) hfl)

theorem State.wakeEvent_moves {fl : List Field} {r₀ : State} {s : State}  (hm : Moves fl r₀ s)
    (hfl : Field.within [.jobs, .power, .out] fl = true) : Moves fl r₀ (State.wakeEvent s) :=
  hm.trans (Moves.mono (a := [.jobs, .power, .out]) (by
  have h := Moves.refl [.jobs, .power, .out] s
  unfold State.wakeEvent
  repeat' first
    | with_reducible assumption
    | (show Field.within _ _ = true; decide)
    | with_reducible apply State.modPower_moves
    | with_reducible apply State.startWake_moves
    | with_reducible apply Moves.ite
    | split) hfl)

theorem State.wakeFails_moves {fl : List Field} {r₀ : State} {s : State} {w : WakeSt} {domain : ℕ} (hm : Moves fl r₀ s)
    (hfl : Field.within [.boot, .rings, .counters, .sec, .free, .out] fl = true) : Moves fl r₀ (State.wakeFails s w domain) :=
  hm.trans (Moves.mono (a := [.boot, .rings, .counters, .sec, .free, .out]) (by
  have h := Moves.refl [.boot, .rings, .counters, .sec, .free, .out] s
  unfold State.wakeFails
  repeat' first
    | (extract_lets +onlyGivenNames x; first | (refine Moves.cut (s := x) ?_ ?_; (on_goal 2 => intro hx; clear_value x); (on_goal 1 => subst x)) | subst x)
    | with_reducible assumption
    | (show Field.within _ _ = true; decide)
    | with_reducible apply State.modBoot_moves
    | with_reducible apply State.event_moves
    | with_reducible apply State.draw_moves
    | split) hfl)

theorem State.entryPasses_moves {fl : List Field} {r₀ : State} {s : State} {e : EntrySt} (hm : Moves fl r₀ s)
    (hfl : Field.within [.rings, .counters, .jobs, .boughs, .sec, .out] fl = true) : Moves fl r₀ (State.entryPasses s e) :=
  hm.trans (Moves.mono (a := [.rings, .counters, .jobs, .boughs, .sec, .out]) (by
  have h := Moves.refl [.rings, .counters, .jobs, .boughs, .sec, .out] s
  unfold State.entryPasses
  repeat' first
    | (extract_lets +onlyGivenNames x; first | (refine Moves.cut (s := x) ?_ ?_; (on_goal 2 => intro hx; clear_value x); (on_goal 1 => subst x)) | subst x)
    | with_reducible assumption
    | (show Field.within _ _ = true; decide)
    | with_reducible apply State.openSwitches_moves
    | with_reducible apply State.count_moves
    | with_reducible apply State.complete_moves
    | with_reducible apply State.powerEvent_moves
    | with_reducible apply Moves.ite
    | split) hfl)

theorem State.entryEnds_moves {fl : List Field} {r₀ : State} {s : State} {e : EntrySt} (hm : Moves fl r₀ s)
    (hfl : Field.within [.regs, .parts, .rings, .counters, .jobs, .calls, .steps, .batch, .grafts, .tiles, .boughs, .prods, .sums, .handoffs, .acts, .xferWaits, .canopy, .backs, .latches, .attnWaits, .servedKv, .servedAttn, .mem, .links, .power, .sec, .out] fl = true) : Moves fl r₀ (State.entryEnds s e) :=
  hm.trans (Moves.mono (a := [.regs, .parts, .rings, .counters, .jobs, .calls, .steps, .batch, .grafts, .tiles, .boughs, .prods, .sums, .handoffs, .acts, .xferWaits, .canopy, .backs, .latches, .attnWaits, .servedKv, .servedAttn, .mem, .links, .power, .sec, .out]) (by
  have h := Moves.refl [.regs, .parts, .rings, .counters, .jobs, .calls, .steps, .batch, .grafts, .tiles, .boughs, .prods, .sums, .handoffs, .acts, .xferWaits, .canopy, .backs, .latches, .attnWaits, .servedKv, .servedAttn, .mem, .links, .power, .sec, .out] s
  unfold State.entryEnds
  repeat' first
    | (extract_lets +onlyGivenNames x; first | (refine Moves.cut (s := x) ?_ ?_; (on_goal 2 => intro hx; clear_value x); (on_goal 1 => subst x)) | subst x)
    | with_reducible assumption
    | (show Field.within _ _ = true; decide)
    | with_reducible apply State.entrySleeps_moves
    | with_reducible apply State.emit_moves
    | with_reducible apply State.modPower_moves
    | with_reducible apply State.modRegs_moves
    | with_reducible apply State.startWake_moves
    | with_reducible apply Moves.each
    | with_reducible apply Moves.ite
    | (intro _ _ _)
    | split
    | (refine Moves.of_lit ?_ ?_ ?_)
    | (intro f hf; cases f <;> first | exact hf.elim (by decide) | rfl)
    | (exact fun c => ⟨c.parts, c.rings, c.counters, c.calls, c.customers, c.tiles, by dsimp only; first | exact c.boughs | exact Tbl.wf_set c.boughs | exact Tbl.wf_update c.boughs | exact Tbl.wf_mapVals (Tbl.rising_of_wf c.boughs) | exact Tbl.wf_mapVals (Tbl.rising_map (fun p => by (try dsimp only); (repeat' split) <;> rfl) (Tbl.rising_of_wf c.boughs)) | (split <;> first | exact c.boughs | exact Tbl.wf_set c.boughs | exact Tbl.wf_mapVals (Tbl.rising_of_wf c.boughs)), c.calSave, c.links, c.mem⟩)) hfl)

theorem State.entryStep_moves {fl : List Field} {r₀ : State} {s : State} {e : EntrySt} (hm : Moves fl r₀ s)
    (hfl : Field.within [.regs, .parts, .rings, .counters, .jobs, .calls, .steps, .batch, .grafts, .tiles, .boughs, .calSave, .prods, .sums, .handoffs, .acts, .xferWaits, .canopy, .backs, .latches, .attnWaits, .servedKv, .servedAttn, .mem, .links, .faults, .power, .sec, .out] fl = true) : Moves fl r₀ (State.entryStep s e) :=
  hm.trans (Moves.mono (a := [.regs, .parts, .rings, .counters, .jobs, .calls, .steps, .batch, .grafts, .tiles, .boughs, .calSave, .prods, .sums, .handoffs, .acts, .xferWaits, .canopy, .backs, .latches, .attnWaits, .servedKv, .servedAttn, .mem, .links, .faults, .power, .sec, .out]) (by
  have h := Moves.refl [.regs, .parts, .rings, .counters, .jobs, .calls, .steps, .batch, .grafts, .tiles, .boughs, .calSave, .prods, .sums, .handoffs, .acts, .xferWaits, .canopy, .backs, .latches, .attnWaits, .servedKv, .servedAttn, .mem, .links, .faults, .power, .sec, .out] s
  unfold State.entryStep
  repeat' first
    | (extract_lets +onlyGivenNames x; first | (refine Moves.cut (s := x) ?_ ?_; (on_goal 2 => intro hx; clear_value x); (on_goal 1 => subst x)) | subst x)
    | with_reducible assumption
    | (show Field.within _ _ = true; decide)
    | with_reducible apply State.entryEnds_moves
    | with_reducible apply State.abandonEntry_moves
    | with_reducible apply State.entrySaves_moves
    | with_reducible apply State.entryPasses_moves
    | with_reducible apply State.modPower_moves
    | with_reducible apply Moves.ite
    | split) hfl)

end Sys2Proof.Machine
end

