-- ==== Sys2Proof/Laws/SignedRowsMoves.lean ====
section
/-! SUPPORT. What each operation of Machine/SignedRows.lean may change, and that it keeps the canonical form. -/

set_option Elab.async false

namespace Sys2Proof.Machine

set_option linter.unusedTactic false
set_option linter.unreachableTactic false

theorem State.finishJob_moves {fl : List Field} {r₀ : State} {s : State} {j : Option Job} {st : Status} (hm : Moves fl r₀ s)
    (hfl : Field.within [.rings, .counters, .jobs, .out] fl = true) : Moves fl r₀ (State.finishJob s j st) :=
  hm.trans (Moves.mono (a := [.rings, .counters, .jobs, .out]) (by
  have h := Moves.refl [.rings, .counters, .jobs, .out] s
  unfold State.finishJob
  repeat' first
    | with_reducible assumption
    | (show Field.within _ _ = true; decide)
    | with_reducible apply State.complete_moves
    | split) hfl)

theorem State.graftChecked_moves {fl : List Field} {r₀ : State} {s : State} {b : Sys2Proof.Bytes} {r : Sys2Proof.RingId} {j : Job} (hm : Moves fl r₀ s)
    (hfl : Field.within [.rings, .counters, .jobs, .grafts, .out] fl = true) : Moves fl r₀ (State.graftChecked s b r j) :=
  hm.trans (Moves.mono (a := [.rings, .counters, .jobs, .grafts, .out]) (by
  have h := Moves.refl [.rings, .counters, .jobs, .grafts, .out] s
  unfold State.graftChecked
  repeat' first
    | (extract_lets +onlyGivenNames x; first | (refine Moves.cut (s := x) ?_ ?_; (on_goal 2 => intro hx; clear_value x); (on_goal 1 => subst x)) | subst x)
    | with_reducible assumption
    | (show Field.within _ _ = true; decide)
    | with_reducible apply State.complete_moves
    | with_reducible apply State.freeGrafts_moves
    | with_reducible apply Moves.ite
    | split
    | (refine Moves.of_lit ?_ ?_ ?_)
    | (intro f hf; cases f <;> first | exact hf.elim (by decide) | rfl)
    | (exact fun c => ⟨c.parts, c.rings, c.counters, c.calls, c.customers, c.tiles, c.boughs, c.calSave, c.links, c.mem⟩)) hfl)

theorem State.manifestChecked_moves {fl : List Field} {r₀ : State} {s : State} {b : Sys2Proof.Bytes} {j : Option Job} (hm : Moves fl r₀ s)
    (hfl : Field.within [.boot, .regs, .rings, .counters, .jobs, .steps, .tiles, .boughs, .prods, .nextOrder, .weights, .links, .faults, .power, .sec, .out] fl = true) : Moves fl r₀ (State.manifestChecked s b j) :=
  hm.trans (Moves.mono (a := [.boot, .regs, .rings, .counters, .jobs, .steps, .tiles, .boughs, .prods, .nextOrder, .weights, .links, .faults, .power, .sec, .out]) (by
  have h := Moves.refl [.boot, .regs, .rings, .counters, .jobs, .steps, .tiles, .boughs, .prods, .nextOrder, .weights, .links, .faults, .power, .sec, .out] s
  unfold State.manifestChecked
  repeat' first
    | (extract_lets +onlyGivenNames x; first | (refine Moves.cut (s := x) ?_ ?_; (on_goal 2 => intro hx; clear_value x); (on_goal 1 => subst x)) | subst x)
    | with_reducible assumption
    | (show Field.within _ _ = true; decide)
    | with_reducible apply State.finishJob_moves
    | with_reducible apply State.modWeights_moves
    | with_reducible apply State.send_moves
    | with_reducible apply State.settle_moves
    | with_reducible apply Moves.ite
    | split) hfl)

theorem State.replaceLive_moves {fl : List Field} {r₀ : State} {s : State} {g : Gen} {old : Placement} {p : Placement} (hm : Moves fl r₀ s)
    (hfl : Field.within [.weights] fl = true) : Moves fl r₀ (State.replaceLive s g old p) :=
  hm.trans (Moves.mono (a := [.weights]) (by
  have h := Moves.refl [.weights] s
  unfold State.replaceLive
  repeat' first
    | (extract_lets +onlyGivenNames x; first | (refine Moves.cut (s := x) ?_ ?_; (on_goal 2 => intro hx; clear_value x); (on_goal 1 => subst x)) | subst x)
    | with_reducible assumption
    | (show Field.within _ _ = true; decide)
    | with_reducible apply State.modGen_moves
    | with_reducible apply State.modWeights_moves
    | with_reducible apply State.addTake_moves
    | with_reducible apply Moves.ite
    | split) hfl)

theorem State.placementChecked_moves {fl : List Field} {r₀ : State} {s : State} {b : Sys2Proof.Bytes} {j : Job} (hm : Moves fl r₀ s)
    (hfl : Field.within [.boot, .regs, .rings, .counters, .jobs, .steps, .tiles, .boughs, .prods, .nextOrder, .weights, .links, .faults, .power, .sec, .out] fl = true) : Moves fl r₀ (State.placementChecked s b j) :=
  hm.trans (Moves.mono (a := [.boot, .regs, .rings, .counters, .jobs, .steps, .tiles, .boughs, .prods, .nextOrder, .weights, .links, .faults, .power, .sec, .out]) (by
  have h := Moves.refl [.boot, .regs, .rings, .counters, .jobs, .steps, .tiles, .boughs, .prods, .nextOrder, .weights, .links, .faults, .power, .sec, .out] s
  unfold State.placementChecked
  repeat' first
    | (extract_lets +onlyGivenNames x; first | (refine Moves.cut (s := x) ?_ ?_; (on_goal 2 => intro hx; clear_value x); (on_goal 1 => subst x)) | subst x)
    | with_reducible assumption
    | (show Field.within _ _ = true; decide)
    | with_reducible apply State.complete_moves
    | with_reducible apply State.settle_moves
    | with_reducible apply State.modGen_moves
    | with_reducible apply State.replaceLive_moves
    | with_reducible apply Moves.ite
    | split) hfl)

theorem State.firmwareChecked_moves {fl : List Field} {r₀ : State} {s : State} {b : Sys2Proof.Bytes} {slot : ℕ} {j : Job} (hm : Moves fl r₀ s)
    (hfl : Field.within [.rings, .counters, .jobs, .sec, .out] fl = true) : Moves fl r₀ (State.firmwareChecked s b slot j) :=
  hm.trans (Moves.mono (a := [.rings, .counters, .jobs, .sec, .out]) (by
  have h := Moves.refl [.rings, .counters, .jobs, .sec, .out] s
  unfold State.firmwareChecked
  repeat' first
    | (extract_lets +onlyGivenNames x; first | (refine Moves.cut (s := x) ?_ ?_; (on_goal 2 => intro hx; clear_value x); (on_goal 1 => subst x)) | subst x)
    | with_reducible assumption
    | (show Field.within _ _ = true; decide)
    | with_reducible apply State.modSec_moves
    | with_reducible apply State.emit_moves
    | with_reducible apply State.complete_moves
    | with_reducible apply Moves.ite
    | split) hfl)

theorem State.checkObject_moves {fl : List Field} {r₀ : State} {s : State} {o : SigObject} (hm : Moves fl r₀ s)
    (hfl : Field.within [.boot, .regs, .rings, .counters, .jobs, .steps, .grafts, .tiles, .boughs, .prods, .nextOrder, .weights, .links, .faults, .power, .sec, .out] fl = true) : Moves fl r₀ (State.checkObject s o) :=
  hm.trans (Moves.mono (a := [.boot, .regs, .rings, .counters, .jobs, .steps, .grafts, .tiles, .boughs, .prods, .nextOrder, .weights, .links, .faults, .power, .sec, .out]) (by
  have h := Moves.refl [.boot, .regs, .rings, .counters, .jobs, .steps, .grafts, .tiles, .boughs, .prods, .nextOrder, .weights, .links, .faults, .power, .sec, .out] s
  unfold State.checkObject
  repeat' first
    | with_reducible assumption
    | (show Field.within _ _ = true; decide)
    | with_reducible apply State.finishJob_moves
    | with_reducible apply State.sigReject_moves
    | with_reducible apply State.manifestChecked_moves
    | with_reducible apply State.complete_moves
    | with_reducible apply State.placementChecked_moves
    | with_reducible apply State.graftChecked_moves
    | with_reducible apply State.modSec_moves
    | with_reducible apply State.firmwareChecked_moves
    | with_reducible apply Moves.ite
    | split) hfl)

theorem State.sigChecked_moves {fl : List Field} {r₀ : State} {s : State}  (hm : Moves fl r₀ s)
    (hfl : Field.within [.boot, .regs, .rings, .counters, .jobs, .steps, .grafts, .tiles, .boughs, .prods, .nextOrder, .weights, .links, .faults, .power, .sec, .out] fl = true) : Moves fl r₀ (State.sigChecked s) :=
  hm.trans (Moves.mono (a := [.boot, .regs, .rings, .counters, .jobs, .steps, .grafts, .tiles, .boughs, .prods, .nextOrder, .weights, .links, .faults, .power, .sec, .out]) (by
  have h := Moves.refl [.boot, .regs, .rings, .counters, .jobs, .steps, .grafts, .tiles, .boughs, .prods, .nextOrder, .weights, .links, .faults, .power, .sec, .out] s
  unfold State.sigChecked
  repeat' first
    | with_reducible assumption
    | (show Field.within _ _ = true; decide)
    | with_reducible apply State.checkObject_moves
    | with_reducible apply State.modSec_moves
    | split) hfl)

end Sys2Proof.Machine
end

