-- ==== Sys2Proof/Tests/Slice0.lean ====
section
/-! SUPPORT. The model's own tests: the well-formedness smoke test, the manual's worked examples, and for every statement with
hypotheses a concrete state and operands that meet them, with what the command then does. Each is about one command on a small
state. -/

namespace Sys2Proof.Tests

open Sys2Proof
open Sys2Proof.Machine

set_option Elab.async false

/-! ### Helpers -/

/-- A run ends in a next state of which a test holds. -/
def ends (r : Result) (p : State → Bool) : Bool :=
  match r with
  | .next t => p t
  | _ => false

/-- One piece of `s` put into `t`. -/
def put (s t : State) : Field → State
  | .pins => { t with pins := s.pins }
  | .boot => { t with boot := s.boot }
  | .regs => { t with regs := s.regs }
  | .parts => { t with parts := s.parts }
  | .rings => { t with rings := s.rings }
  | .tick => { t with tick := s.tick }
  | .ticking => { t with ticking := s.ticking }
  | .trims => { t with trims := s.trims }
  | .counters => { t with counters := s.counters }
  | .jobs => { t with jobs := s.jobs }
  | .calls => { t with calls := s.calls }
  | .steps => { t with steps := s.steps }
  | .batch => { t with batch := s.batch }
  | .sched => { t with sched := s.sched }
  | .splitHead => { t with splitHead := s.splitHead }
  | .stage => { t with stage := s.stage }
  | .batchNo => { t with batchNo := s.batchNo }
  | .customers => { t with customers := s.customers }
  | .grafts => { t with grafts := s.grafts }
  | .mattes => { t with mattes := s.mattes }
  | .tiles => { t with tiles := s.tiles }
  | .boughs => { t with boughs := s.boughs }
  | .calSave => { t with calSave := s.calSave }
  | .prods => { t with prods := s.prods }
  | .nextProd => { t with nextProd := s.nextProd }
  | .nextOrder => { t with nextOrder := s.nextOrder }
  | .sums => { t with sums := s.sums }
  | .handoffs => { t with handoffs := s.handoffs }
  | .acts => { t with acts := s.acts }
  | .xferWaits => { t with xferWaits := s.xferWaits }
  | .histos => { t with histos := s.histos }
  | .canopy => { t with canopy := s.canopy }
  | .backs => { t with backs := s.backs }
  | .latches => { t with latches := s.latches }
  | .attnWaits => { t with attnWaits := s.attnWaits }
  | .servedKv => { t with servedKv := s.servedKv }
  | .servedAttn => { t with servedAttn := s.servedAttn }
  | .weights => { t with weights := s.weights }
  | .mem => { t with mem := s.mem }
  | .links => { t with links := s.links }
  | .partner => { t with partner := s.partner }
  | .faults => { t with faults := s.faults }
  | .hk => { t with hk := s.hk }
  | .power => { t with power := s.power }
  | .sec => { t with sec := s.sec }
  | .drains => { t with drains := s.drains }
  | .free => { t with free := s.free }
  | .out => { t with out := s.out }
  | .pending => { t with pending := s.pending }

/-- Nothing but the named pieces differs. -/
def sameBut (l : List Field) (s t : State) : Bool := decide (l.foldl (put s) t = s)

/-- What has been put out from `s` to `t`. -/
def emitted (s t : State) : List Emit := t.out.drop s.out.length

/-- The record has been written to a ring. -/
def wrote (s t : State) (r : RingId) (rec : Rec) : Bool :=
  (emitted s t).any fun e =>
    match e with
    | .record q _ _ x => decide (q = r ∧ x = rec)
    | _ => false

/-- The descriptor has been taken and answered. -/
def answered (s t : State) (f : Sys2Proof.Fetch) (st : Status) (r0 r1 : Nat) : Bool :=
  decide ((t.ring f.ring).pos = (s.ring f.ring).pos + 1) && wrote s t (answerRing f.ring) (s.answerOf (s.jobOf f) st r0 r1)

/-- The descriptor has been taken and is in progress. -/
def started (s t : State) (f : Sys2Proof.Fetch) : Bool :=
  decide ((t.ring f.ring).pos = (s.ring f.ring).pos + 1) && t.jobs.contains (s.jobOf f)

/-- A body has gone out on a channel of a port. -/
def sent (s t : State) (p : Port) (c : Nat) (b : FlitBody) : Bool :=
  (emitted s t).any fun e =>
    match e with
    | .flit q d _ _ _ x => decide (q = p ∧ d = c ∧ x = b)
    | _ => false

/-- The ten tables of a state in canonical form. -/
def canon (s : State) : Bool :=
  Tbl.wf {} s.parts && Tbl.wf {} s.rings && Tbl.wf 0 s.counters && Tbl.wf {} s.calls && Tbl.wf {} s.customers &&
  Tbl.wf {} s.tiles && Tbl.wf {} s.boughs && Tbl.wf {} s.calSave && Tbl.wf {} s.links && s.mem.wf

theorem canon_iff (s : State) : canon s = true ↔ s.Canonical := by
  constructor
  · intro h
    simp only [canon, Bool.and_eq_true] at h
    obtain ⟨⟨⟨⟨⟨⟨⟨⟨⟨h1, h2⟩, h3⟩, h4⟩, h5⟩, h6⟩, h7⟩, h8⟩, h9⟩, h10⟩ := h
    exact ⟨h1, h2, h3, h4, h5, h6, h7, h8, h9, h10⟩
  · intro h
    simp only [canon, h.parts, h.rings, h.counters, h.calls, h.customers, h.tiles, h.boughs, h.calSave, h.links, h.mem,
      Bool.and_self]

/-- A descriptor is fetched. -/
def fetched (s : State) (f : Sys2Proof.Fetch) : Bool :=
  s.hasDescriptor f.ring && (s.running || decide (s.boot.phase = .coldStart)) && !s.fetchHeld f && !s.premiumStop f

/-- A descriptor is fetched and no check refuses it. -/
def accepted (s : State) (f : Sys2Proof.Fetch) : Bool := fetched s f && decide (s.descStatus f = none)

theorem fetched_iff (s : State) (f : Sys2Proof.Fetch) : fetched s f = true ↔ s.Fetched f := by
  constructor
  · intro h
    simp only [fetched, Bool.and_eq_true, Bool.or_eq_true, Bool.not_eq_true', decide_eq_true_eq] at h
    exact ⟨h.1.1.1, h.1.1.2, h.1.2, h.2⟩
  · intro h
    obtain h2 | h2 := h.serves <;> simp [fetched, h.waiting, h.free, h.share, h2]

theorem accepted_iff (s : State) (f : Sys2Proof.Fetch) : accepted s f = true ↔ s.Accepted f := by
  constructor
  · intro h
    simp only [accepted, Bool.and_eq_true, decide_eq_true_eq] at h
    exact ⟨(fetched_iff s f).1 h.1, h.2⟩
  · intro h
    simp [accepted, (fetched_iff s f).2 h.toFetched, h.checks]

/-- A flit that its port accepts and whose words reach their consumer whole. -/
def flitReady (s : State) (hd : FlitHdr) (ports : List Port) (channels : List Nat) : Bool :=
  !hd.torn && s.accepts hd && ports.contains hd.port && channels.contains hd.channel.toNat

theorem flitReady_iff (s : State) (hd : FlitHdr) (ports : List Port) (channels : List Nat) :
    flitReady s hd ports channels = true ↔ s.FlitReady hd ports channels := by
  constructor
  · intro h
    simp only [flitReady, Bool.and_eq_true, Bool.not_eq_true', List.contains_iff_mem] at h
    exact ⟨h.1.1.1, h.1.1.2, h.1.2, h.2⟩
  · intro h
    simp [flitReady, h.whole, h.accepted, h.port, h.channel]

/-- A descriptor of version 1 with tag 7: opcode, fields by (first bit, value), extension and buffer. -/
def desc (r : RingId) (op : Nat) (fields : List (Nat × Nat)) (ext buf : Bytes := []) : Sys2Proof.Fetch :=
  { ring := r, word := BitVec.ofNat 512 (fields.foldl (fun a x => a + x.2 * 2 ^ x.1) (op + 2 ^ 8 + 7 * 2 ^ 32)), ext := ext,
    extFault := false, buf := buf, bufFault := false, bufs := [] }

/-- A ring of 64 entries with one descriptor that has not been fetched. -/
def inRing : Ring := { exp := 6, count := 1, enabled := true }

/-- A ring of 64 entries for records. -/
def outRing : Ring := { exp := 6, enabled := true }

/-- A single LM1 that serves: sealed, version 1 agreed, partition 0 with shares and budget group 0 to 9, customer 3. -/
def base : State :=
  { State.reset with
    pins := { porst := false }, tick := 2 ^ 31, ticking := true,
    boot := { phase := .running, source := 1, posKnown := true },
    regs := { verReq := 1, verAck := 1, ready := 0x7FF, sealed := true, posnV := 0, refen := true, kvRegion := 16 },
    parts := [(0, { entryShare := 8, kvFrames := 1000, saveShare := 16, vecBase := 5, enabled := true, groups := [(0, (0, 10))] })],
    rings := [(0, inRing), (1, outRing), (2, inRing), (6, outRing), (7, outRing)],
    customers := [(3, { valid := true, capacity := 100, refill := 10, interval := 2 ^ 20, level := 25600, nextRefill := 2 ^ 31 + 5 })],
    hk := { refReady := true } }

/-! ### The queue, reset and the checks of a descriptor -/

theorem test_step_front : step { base with pending := [.refclkLoss, .daily] } = exec .refclkLoss { base with pending := [.daily] } :=
  rfl

theorem test_step_idle : ends (step base) (fun t => sameBut [.tick] base t && decide (t.tick = 2 ^ 31 + 1)) = true := by decide +kernel

theorem witness_EmptyQueueTicks : State.reset.pending = [] := rfl

theorem witness_Canonical : canon base = true ∧ base.CountersFit := by
  constructor
  · decide +kernel
  · intro c h; simp [base, State.reset] at h

theorem test_decode_none : decodeTableWord 8 0x40 = none := rfl

theorem witness_NOP : accepted base (desc .mq 0 []) = true ∧ Instr.wf (.nop (desc .mq 0 [])) = true ∧
    ends (exec (.nop (desc .mq 0 [])) base) (fun t => answered base t (desc .mq 0 []) .ok 0 0) = true := by decide +kernel

theorem witness_ReservedOpcode : fetched base (desc (.sq 0 0) 0x1F []) = true ∧ Instr.wf (.badOpcode (desc (.sq 0 0) 0x1F [])) = true ∧
    ends (exec (.badOpcode (desc (.sq 0 0) 0x1F [])) base) (fun t => answered base t (desc (.sq 0 0) 0x1F []) .badOpcode 0 0) = true := by
  decide +kernel
/-! ### Descriptors -/

/-- An LM head of four vocabulary entries, one tile. -/
def lmHead4 : Mat :=
  { id := 1, layer := 0, kind := 1, format := 1, inputs := 64, outputs := 4, exponent := 0, rowFirst := 0, rowTiles := 1,
    destKind := 1, destUnit := 0, transposed := false, sInline := true, sOverflow := true, sClip := true, sCont := true,
    deckFirst := 0, threshold := 0x40C00000, budget := 32, ovfLimit := 8 }

/-- A generation of matrices whose first deck is deck 0 of tile 0. -/
def genWith (image : Nat) (live : Bool) (mats : List Mat) : Gen :=
  let p : Placement :=
    { layout := 0, position := 0, chainLength := 1, imageId := image, mats := mats, decks := [(0, 0)], xfers := [], raw := [] }
  { imageId := image, baseId := 0, chainLength := 1, manifest := [], accepted := [], placement := some p, attn := [],
    allocated := [1], live := live, lost := false }

/-- A generation with the LM head alone. -/
def genOf (image : Nat) (live : Bool) : Gen := genWith image live [lmHead4]

/-- `base` with generation 5 live and the LM head bound. -/
def served : State :=
  { base with weights := { gens := [genOf 5 true], bindings := [(1, { image := 5, slow := false, decks := [(0, 0)], takeId := 1 })] } }

theorem witness_DescriptorFrame : Instr.family (.nop (desc .mq 0 [])) = .descriptor ∧
    ends (exec (.nop (desc .mq 0 [])) base) (sameBut (Instr.reach (.nop (desc .mq 0 []))) base) = true := by decide +kernel

theorem witness_HeldDescriptorStays :
    let s := { base with regs := { base.regs with verAck := 0 } }
    let f := desc (.sq 0 0) 0x02 [(64, 9)]
    Instr.descriptor? (.cancel f) = some f ∧ Instr.wf (.cancel f) = true ∧ s.hasDescriptor f.ring = true ∧ s.running = true ∧
    s.fetchHeld f = true ∧ ends (exec (.cancel f) s) (sameBut [.parts, .counters] s) = true := by decide +kernel

/-- At the full share the descriptor stays and one stall is counted. -/
theorem test_full_share_holds :
    let s := { base with parts := [(0, { entryShare := 0, enabled := true })] }
    ends (exec (.nop (desc (.sq 0 0) 0 [])) s) (fun t => decide ((t.part 0).stalled = true ∧ (t.ring (.sq 0 0)).pos = 0) &&
      decide (Tbl.get 0 (Ctr.admitStalls 0) t.counters = 1)) = true := by decide +kernel

theorem witness_ChecksAnswerFirst :
    let f := desc .mq 0x33 [(72, 1)]
    canon base = true ∧ Instr.descriptor? (.retire f) = some f ∧ Instr.wf (.retire f) = true ∧ fetched base f = true ∧
    base.descStatus f = some .rsvSet ∧
    ends (exec (.retire f) base) (fun t => answered base t f .rsvSet 0 0 && sameBut [.parts, .rings, .jobs, .counters, .out] base t) = true := by
  decide +kernel

theorem test_check_order :
    base.descStatus { desc .mq 0x33 [(72, 1)] with word := 0x1F } = some .badVersion ∧
    base.descStatus (desc .mq 0x1F []) = some .badOpcode ∧ base.descStatus (desc .mq 0x01 []) = some .wrongRing ∧
    base.descStatus (desc (.sq 0 0) 0x05 [(14, 1)]) = some .rsvSet ∧
    base.descStatus (desc .mq 0x07 [(64, 4), (128, 64)]) = some .badAddress ∧
    base.descStatus (desc .mq 0x07 [(64, 8), (128, 0)]) = some .okEmpty := by decide +kernel

theorem witness_BufferFaultsAnswer :
    let f := { desc .mq 0x07 [(64, 4096), (128, 64)] with bufFault := true }
    canon base = true ∧ accepted base f = true ∧ f.bufFault = true ∧ Instr.wf (.graftLoad f) = true ∧
    ends (exec (.graftLoad f) base) (fun t => answered base t f .hostFault 0 0 &&
      sameBut [.parts, .rings, .jobs, .counters, .out] base t) = true := by decide +kernel

theorem test_buffer_fault_rows :
    ([Instr.matteLoad { desc .mq 0x09 [(64, 4096), (128, 64)] with bufFault := true },
      .loadManifest { desc .mq 0x20 [(64, 4096), (128, 64)] with bufFault := true },
      .loadChunk { desc .mq 0x21 [(64, 4096), (128, 64)] with bufFault := true },
      .loadPlacement { desc .mq 0x22 [(64, 4096), (128, 64)] with bufFault := true },
      .attnSetup { desc .mq 0x23 [(64, 5), (96, 1), (128, 4096)] with bufFault := true },
      .takeRefresh { desc .mq 0x24 [(64, 2), (128, 1), (192, 4096)] with bufFault := true }].all fun c =>
      match Instr.descriptor? c with
      | some f => accepted base f && Instr.wf c && ends (exec c base) (fun t => answered base t f .hostFault 0 0)
      | none => false) = true := by decide +kernel

theorem witness_SignedObjectsWait :
    (let f := desc .mq 0x07 [(64, 4096), (128, 64)]
     accepted base f = true ∧ Instr.wf (.graftLoad f) = true ∧ ends (exec (.graftLoad f) base) (fun t => started base t f &&
      decide (t.sec.queue = [.graft (Bits.slice f.buf 0 64) .mq (base.jobOf f)])) = true) ∧
    (let f := desc .mq 0x20 [(64, 4096), (128, 64)]
     accepted base f = true ∧ Instr.wf (.loadManifest f) = true ∧ ends (exec (.loadManifest f) base) (fun t => started base t f &&
      decide (t.sec.queue = [.manifest (Bits.slice f.buf 0 64) (some (base.jobOf f))])) = true) ∧
    (let f := desc .mq 0x22 [(64, 4096), (128, 64)]
     accepted base f = true ∧ Instr.wf (.loadPlacement f) = true ∧ ends (exec (.loadPlacement f) base) (fun t => started base t f &&
      decide (t.sec.queue = [.placement (Bits.slice f.buf 0 64) (base.jobOf f)])) = true) := by decide +kernel

theorem witness_FW_STAGE :
    let f := desc .mq 0x42 [(64, 4096), (128, 64), (192, 1)]
    canon base = true ∧ accepted base f = true ∧ f.bufFault = false ∧ Instr.wf (.fwStage f) = true ∧ base.sec.staging = none ∧
    base.sec.cutover = none ∧ Fetch.bits f 192 1 ≠ base.sec.runSlot ∧
    ends (exec (.fwStage f) base) (fun t => started base t f && decide (t.sec.staging = some (1, base.jobOf f))) = true := by
  decide +kernel

theorem test_fw_stage_running_slot :
    let f := desc .mq 0x42 [(64, 4096), (128, 64)]
    ends (exec (.fwStage f) base) (fun t => answered base t f .fwSlotActive 0 0) = true := by decide +kernel

/-- A graft generation without pins. -/
def graftOf (handle part : Nat) : Graft :=
  { handle := handle, generation := 1, partition := part, rank := 8, imageId := 0, alpha := 0, entries := [(1, 0, 64)],
    body := List.replicate 64 0, current := true, pins := 0 }

theorem witness_GRAFT_RETIRE :
    let s := { base with grafts := [graftOf 2 0, graftOf 3 0] }
    let f := desc (.sq 0 0) 0x08 [(64, 2)]
    canon s = true ∧ accepted s f = true ∧ Instr.wf (.graftRetire f) = true ∧ s.currentGraft (Fetch.at f 8 2) = some (graftOf 2 0) ∧
    mayName f.ring 0 = true ∧ ends (exec (.graftRetire f) s) (fun t => answered s t f .ok 0 0 &&
      decide (t.currentGraft 2 = none ∧ t.currentGraft 3 = some (graftOf 3 0))) = true := by decide +kernel

/-- A kind 3 matte of partition 0 over four entries, handle 6. -/
def matteBytes : Bytes := [6, 0, 0, 0, 3, 0, 0, 0] ++ List.replicate 16 0 ++ [4, 0, 0, 0, 0, 0, 0, 0]

theorem witness_MATTE_LOAD :
    let f := desc (.sq 0 0) 0x09 [(64, 4096), (128, 32)] [] matteBytes
    canon served = true ∧ accepted served f = true ∧ Instr.wf (.matteLoad f) = true ∧ f.bufFault = false ∧
    matteBad served f.ring 32 (Bits.slice f.buf 0 32) = false ∧
    ends (exec (.matteLoad f) served) (fun t => answered served t f .ok 0 0 && decide (t.mattes = [matteOf matteBytes])) = true := by
  decide +kernel

theorem witness_MATTE_FREE :
    let s := { served with mattes := [matteOf matteBytes] }
    let f := desc (.sq 0 0) 0x0A [(64, 6)]
    canon s = true ∧ accepted s f = true ∧ Instr.wf (.matteFree f) = true ∧ s.matte? 6 = some (matteOf matteBytes) ∧ s.calls = [] ∧
    mayName f.ring (matteOf matteBytes).partition = true ∧
    ends (exec (.matteFree f) s) (fun t => answered s t f .ok 0 0 && decide (t.matte? 6 = none)) = true := by decide +kernel

theorem witness_BUDGET_SET :
    let f := desc (.sq 0 0) 0x05 [(64, 3), (192, 1), (224, 50), (256, 7), (288, 256), (320, 2 ^ 20)]
    canon base = true ∧ accepted base f = true ∧ Instr.wf (.budgetSet f) = true ∧ Fetch.at f 40 6 ≠ 0 ∧ budgetReserved f = false ∧
    budgetOwned f base 3 = true ∧ (base.customer 3).valid = true ∧ ends (exec (.budgetSet f) base) (fun t => answered base t f .ok 0 0 &&
      decide (t.customer 3 = { valid := true, parkEvent := true, capacity := 50, refill := 7, promptWeight := 256, interval := 2 ^ 20,
                               level := 12800, nextRefill := 2 ^ 31 + 5 })) = true := by decide +kernel

theorem witness_BUDGET_SET_new :
    let f := desc .mq 0x05 [(64, 9), (224, 50), (256, 7), (320, 1)]
    accepted base f = true ∧ budgetOwned f base 9 = true ∧ (base.customer 9).valid = false ∧
    ends (exec (.budgetSet f) base) (fun t => answered base t f .ok 0 0 &&
      decide ((t.customer 9).level = 12800 ∧ (t.customer 9).nextRefill = 2 ^ 31 + 1 ∧ t.customer 3 = base.customer 3)) = true := by
  decide +kernel

theorem witness_BUDGET_READ :
    let f := desc (.sq 0 0) 0x06 [(64, 3), (128, 8192)]
    canon base = true ∧ accepted base f = true ∧ f.bufFault = false ∧ Instr.wf (.budgetRead f) = true ∧ budgetOwned f base 3 = true ∧
    ends (exec (.budgetRead f) base) (fun t => answered base t f .ok 0 0 &&
      (emitted base t).contains (.hostWrite 8192 (base.customer 3).bytes)) = true := by decide +kernel

theorem witness_DECK_READ :
    let f := desc .mq 0x27 [(64, 8191), (80, 7), (128, 8192)]
    canon base = true ∧ accepted base f = true ∧ f.bufFault = false ∧ Instr.wf (.deckRead f) = true ∧ Fetch.at f 8 2 < 8192 ∧
    Fetch.bits f 80 4 < 8 ∧ ends (exec (.deckRead f) base) (fun t => answered base t f .ok 0 0 &&
      (emitted base t).contains (.hostWrite 8192 (deckCopy base 8191 7)) && decide ((deckCopy base 8191 7).length = 96)) = true := by
  decide +kernel

/-- A call of tag 9 at entry 0 in a state, with its ADMIT descriptor. -/
def callOf (st : CallState) : Entry :=
  { state := st, tag := 9, customer := 3, kvFormat := 0x20, promptLen := 4, maxNew := 5, admitTick := 100,
    job := some { ring := .sq 0 0, pos := 0, tag := 9, opcode := 1, quiet := false, premium := false } }

/-- A step of that call. -/
def stepOf (n : Nat) : Step :=
  { call := 0, step := n, kind := .decode, tokens := [1], first := 4, premium := false, partition := 0, epoch := 0, image := 5,
    samples := true }

theorem witness_CANCEL_at_once :
    let s := { base with calls := [(0, callOf .ready)] }
    let f := desc (.sq 0 0) 0x02 [(64, 9)]
    canon s = true ∧ accepted s f = true ∧ Instr.wf (.cancel f) = true ∧ s.findCall 0 (Fetch.at f 8 4) State.liveEntry = some 0 ∧
    s.actsAtOnce 0 = true ∧ ends (exec (.cancel f) s) (fun t => decide ((t.call 0).state = .free ∧ t.steps = []) &&
      wrote s t (.cq 0) (.completion 9 .cancelled 1 0 false 0 0 (2 ^ 31)) && wrote s t (.cq 0) (.completion 7 .ok 2 0 false 0 0 (2 ^ 31)))
      = true := by decide +kernel

theorem witness_CANCEL_running :
    let s := { base with calls := [(0, callOf .running)], steps := [stepOf 1] }
    let f := desc (.sq 0 0) 0x02 [(64, 9)]
    canon s = true ∧ accepted s f = true ∧ s.findCall 0 (Fetch.at f 8 4) State.liveEntry = some 0 ∧ s.actsAtOnce 0 = false ∧
    ends (exec (.cancel f) s) (fun t => started s t f && decide ((t.call 0).cancelled = true ∧ t.steps = s.steps)) = true := by
  decide +kernel

theorem witness_RELEASE_CALL :
    let s := { base with calls := [(0, { callOf .held with job := none })] }
    let f := desc (.sq 0 0) 0x03 [(64, 9)]
    canon s = true ∧ accepted s f = true ∧ Instr.wf (.releaseCall f) = true ∧
    s.findCall 0 (Fetch.at f 8 4) (fun e => decide (e.state = .held)) = some 0 ∧
    ends (exec (.releaseCall f) s) (fun t => answered s t f .ok 0 0 && decide (t.call 0 = {})) = true := by decide +kernel

theorem witness_STEP_MASK :
    let s := { served with
      mattes := [matteOf matteBytes]
      calls := [(0, { callOf .running with hasMatte := true, matteHandle := 6, step := 3, prefilled := 4 })]
      steps := [{ stepOf 3 with waitsMask := true }] }
    let f := desc (.sq 0 0) 0x04 [(64, 9), (96, 3), (128, 8192), (192, 8)] [] [5]
    canon s = true ∧ accepted s f = true ∧ Instr.wf (.stepMask f) = true ∧ s.findCall 0 9 State.liveEntry = some 0 ∧
    s.matte? 6 = some (matteOf matteBytes) ∧ (matteOf matteBytes).kind = 3 ∧ (s.call 0).mask = none ∧
    Fetch.at f 12 4 = s.samplingStep (s.call 0) ∧ Fetch.at f 24 4 = 8 * Bits.ceilDiv (matteOf matteBytes).vocab 64 ∧
    ends (exec (.stepMask f) s) (fun t => answered s t f .ok 0 0 &&
      decide ((t.call 0).mask = some (3, [5, 0, 0, 0, 0, 0, 0, 0])) && t.steps.all fun x => !x.waitsMask) = true := by decide +kernel

/-- An ADMIT of a prompt of 16 tokens. -/
def admit16 : Sys2Proof.Fetch :=
  desc (.sq 0 0) 0x01 [(16, 2), (64, 1), (80, 3), (96, 0x20), (128, 16), (160, 5), (256, 77), (448, 4096)] (List.replicate 128 0)

theorem witness_ADMIT :
    canon base = true ∧ accepted base admit16 = true ∧ Instr.wf (.admitCall admit16) = true ∧ (admitOps admit16).cont = false ∧
    base.admitStatus 0 admit16 (admitOps admit16) = none ∧
    ends (exec (.admitCall admit16) base) (fun t => decide ((t.call 0).state = .ready ∧ (t.call 0).tag = 7 ∧ (t.call 0).premium = true ∧
      (t.call 0).promptLen = 16 ∧ (t.call 0).maxNew = 5 ∧ (t.call 0).seed = 77 ∧ (t.call 0).unmirrored = true ∧
      (t.call 0).admitTick = 2 ^ 31 ∧ (t.ring (.sq 0 0)).pos = 1)) = true := by decide +kernel

theorem test_admit_status_order :
    base.admitStatus 0 admit16 { admitOps admit16 with kvFormat := 0x22 } = some .badFormat ∧
    base.admitStatus 0 admit16 { admitOps admit16 with promptLen := 0 } = some .badLength ∧
    base.admitStatus 0 admit16 { admitOps admit16 with sampler := 0x8000 } = some .badSampler ∧
    base.admitStatus 0 admit16 { admitOps admit16 with customer := 10 } = some .badCustomer ∧
    base.admitStatus 0 admit16 { admitOps admit16 with hasMatte := true } = some .badMatte := by decide +kernel

/-- A TUNE of graft 2 with one example of 8 tokens. -/
def tune8 : Sys2Proof.Fetch :=
  desc (.sq 0 0) 0x0B [(16, 1), (64, 2), (80, 3), (96, 1), (128, 0x38000000), (160, 0x3F000000), (192, 0x3F000000), (224, 0x30000000),
    (256, 8192), (320, 64), (384, 1), (448, 4096)] ([0, 16] ++ List.replicate 6 0 ++ [8] ++ List.replicate 55 0)

theorem witness_TUNE_chain :
    let s := { base with grafts := [graftOf 2 0], weights := { gens := [{ genOf 5 true with chainLength := 2 }] } }
    canon s = true ∧ accepted s tune8 = true ∧ Instr.wf (.tune tune8) = true ∧ tuneStatus s 0 tune8 = none ∧ 1 < s.chainLength ∧
    ends (exec (.tune tune8) s) (fun t => decide ((t.call 0).state = .ready ∧ (t.call 0).maxNew = 0 ∧ (t.call 0).graftHandle = 2 ∧
      (t.call 0).tune = some (tuneState s 0 tune8)) && t.jobs.contains (s.jobOf tune8)) = true := by decide +kernel

theorem witness_TUNE_single :
    let s := { base with grafts := [graftOf 2 0] }
    accepted s tune8 = true ∧ tuneStatus s 0 tune8 = none ∧ s.chainLength ≤ 1 ∧ s.currentGraft 2 = some (graftOf 2 0) ∧
    (graftOf 2 0).rank ≠ 0 ∧ (graftOf 2 0).entries ≠ [] ∧ Fetch.at tune8 40 8 = sectionLen (graftOf 2 0).body.length ∧
    ends (exec (.tune tune8) s) (fun t => decide ((t.call 0).tune = some { tuneState s 0 tune8 with checked := true })) = true := by
  decide +kernel

theorem witness_TAKE_REPLACEMENT :
    let s := { base with weights := { gens := [genOf 5 false] } }
    let f := desc .mq 0x24 [(64, 1), (96, 5)]
    canon s = true ∧ accepted s f = true ∧ Instr.wf (.takeReplacement f) = true ∧ Fetch.bits f 64 2 = 1 ∧ s.gen? 5 = some (genOf 5 false) ∧
    s.weights.takes = [] ∧ (s.supplied (genOf 5 false)).map (fun m => m.id) = [1] ∧ s.hostTakeMats = [] ∧ ends (exec (.takeReplacement f) s) (fun t => started s t f && decide (t.weights.nextTake = 2)) = true := by
  decide +kernel

theorem witness_TAKE_REFRESH :
    let f := desc .mq 0x24 [(64, 2), (128, 1), (192, 8192)] [] [1, 0, 0, 0]
    canon served = true ∧ accepted served f = true ∧ Instr.wf (.takeRefresh f) = true ∧ f.bufFault = false ∧ served.liveGen = some (genOf 5 true) ∧
    (served.binding? 1).isSome = true ∧ served.hostTakeMats = [] ∧
    ends (exec (.takeRefresh f) served) (fun t => decide (t.weights.nextTake = 2)) = true := by decide +kernel

theorem witness_CUT :
    let s := { base with weights := { gens := [genOf 5 false] } }
    let f := desc .mq 0x25 [(64, 5)]
    canon s = true ∧ accepted s f = true ∧ Instr.wf (.cut f) = true ∧ s.isStaged 5 = true ∧
    ends (exec (.cut f) s) (fun t => started s t f && decide (t.weights.cuts = [(s.jobOf f, 5)])) = true := by decide +kernel

/-- A chunk of generation 5, sequence 0, whose manifest entry is for position 1. -/
def chunk64 : Bytes := [0, 0, 1, 0, 5, 0, 0, 0] ++ List.replicate 56 0

def manifest1 : Bytes :=
  [5, 0, 0, 0, 0, 0, 0, 0, 1, 2, 0, 0, 1, 0, 0, 0] ++ List.replicate 48 0 ++ [1, 0, 0, 0, 64, 0, 0, 0] ++ Shake.digest32 chunk64

theorem witness_LOAD_CHUNK :
    let s := { base with weights := { gens := [{ genOf 5 false with manifest := manifest1 }] } }
    let f := desc .mq 0x21 [(64, 4096), (128, 64)] [] chunk64
    canon s = true ∧ accepted s f = true ∧ Instr.wf (.loadChunk f) = true ∧ f.bufFault = false ∧
    s.chunkStatus (loadedObject f) = none ∧ (s.gen? (chunkHdr (loadedObject f)).image).isSome = true ∧
    ends (exec (.loadChunk f) s) (fun t => answered s t f .ok 0 0 && decide (((t.gen? 5).map (·.accepted)) = some [0])) = true := by
  decide +kernel

/-- A layer matrix whose outputs are those of one query head over one KV head. -/
def layerMat : Mat := { lmHead4 with id := 2, kind := 0, layer := 3, outputs := 384 }

theorem witness_ATTN_SETUP :
    let s := { base with weights := { gens := [genWith 5 false [layerMat]] } }
    let f := desc .mq 0x23 [(64, 5), (96, 1), (128, 8192)] [] [3, 0, 1, 1, 0, 0, 0x20, 0x41, 0, 0, 0, 0, 0, 0, 0, 0]
    canon s = true ∧ accepted s f = true ∧ Instr.wf (.attnSetup f) = true ∧ f.bufFault = false ∧
    attnBad s 5 1 (Bits.slice f.buf 0 16) = false ∧ ends (exec (.attnSetup f) s) (fun t => answered s t f .ok 0 0 &&
      decide (((t.gen? 5).map fun g => g.attn.map fun a => a.1) =
        some [{ layer := 3, queryHeads := 1, kvHeads := 1, ropeBase := 0x41200000, window := 0 }])) = true := by decide +kernel

theorem witness_RELEASE_IMAGE :
    let s := { base with weights := { gens := [genOf 5 false] } }
    let f := desc .mq 0x26 [(64, 5)]
    canon s = true ∧ accepted s f = true ∧ Instr.wf (.releaseImage f) = true ∧ s.gen? 5 = some (genOf 5 false) ∧
    s.imageInUse 5 = false ∧ ends (exec (.releaseImage f) s) (fun t => answered s t f .ok 0 0 && decide (t.gen? 5 = none)) = true := by
  decide +kernel

theorem witness_REF_WARM :
    let s := { base with boughs := [(4, { withdrawn := true })] }
    let f := desc .mq 0x30 [(64, 0x11), (191, 1)]
    canon s = true ∧ accepted s f = true ∧ Instr.wf (.refWarm f) = true ∧ ends (exec (.refWarm f) s) (fun t => answered s t f .ok 0 0 &&
      decide ((t.bough 0).ref = .warming (2 ^ 31) ∧ (t.bough 127).ref = .warming (2 ^ 31) ∧ t.bough 4 = s.bough 4 ∧
        t.bough 1 = s.bough 1)) = true := by decide +kernel

theorem witness_CALIBRATE :
    let f := desc .mq 0x31 [(64, 1)]
    canon base = true ∧ accepted base f = true ∧ Instr.wf (.calibrate f) = true ∧
    ends (exec (.calibrate f) base) (fun t => answered base t f .ok 0 0 && ((t.bough 0).runOn || (t.bough 0).runPending)) = true := by
  decide +kernel

theorem witness_HK_SAMPLE :
    let f := desc .mq 0x32 [(64, 163)]
    canon base = true ∧ accepted base f = true ∧ Instr.wf (.hkSample f) = true ∧ Fetch.at f 8 2 < 164 ∧ base.hk.busy = none ∧
    ends (exec (.hkSample f) base) (fun t => started base t f && decide (t.hk.busy =
      some { channel := 163, start := 2 ^ 31, job := some (base.jobOf f), urgent := true })) = true := by decide +kernel
/-! ### Maintenance, resets, power, firmware and attestation -/

/-- `served` with the LM head's deck live, its reference warm and a clapper expectation of zeros. -/
def warm : State :=
  { served with
    tiles := [(0, { decks := [(0, { takeCount := 1, state := .live, format := 1, matrixId := 1, takeId := 1, fitted := true,
                                    sweptAt := 2 ^ 31, clappedAt := 2 ^ 31 })] })],
    boughs := [(0, { ref := .ready, temp := 400, tempValid := true, calTemp := some 400, runDone := true })],
    weights := { served.weights with
      slots := [{ key := { image := 5, matrix := 1, rowTile := 0, colTile := 0 }, bytes := [(262176, 1)], groups := [0] }] } }

/-- ARRAY_TEST 2, a clapper phase. -/
def clapTest : Sys2Proof.Fetch := desc .mq 0x36 [(64, 0), (80, 0), (88, 2), (128, 8192)]

theorem witness_ARRAY_TEST :
    canon warm = true ∧ accepted warm clapTest = true ∧ Instr.wf (.arrayTest clapTest (List.replicate 512 0)) = true ∧
    arrayTestBad clapTest warm = false ∧ clapTest.bufFault = false ∧ warm.gap 0 = true ∧
    ends (exec (.arrayTest clapTest (List.replicate 512 0)) warm) (fun t => answered warm t clapTest .ok 0 0 &&
      (emitted warm t).any fun e => match e with
        | .hostWrite a b => decide (a = 8192 ∧ b.length = 4160)
        | _ => false) = true := by decide +kernel

theorem witness_ARRAY_TEST_waits :
    let s := { warm with boughs := [(0, { calTemp := some 400 })] }
    canon s = true ∧ accepted s clapTest = true ∧ arrayTestBad clapTest s = false ∧ s.gap 0 = false ∧
    ends (exec (.arrayTest clapTest []) s) (fun t => sameBut [.boughs, .counters] s t && decide ((t.bough 0).ref = .warming (2 ^ 31) ∧ Tbl.get 0 (Ctr.refColdWaits 0) t.counters = 1)) = true := by
  decide +kernel

theorem witness_RETIRE :
    let f := desc .mq 0x33 [(64, 1), (128, 2048)]
    canon base = true ∧ accepted base f = true ∧ Instr.wf (.retire f) = true ∧ base.retireBad (Fetch.at f 8 1) (Fetch.at f 16 8) = false ∧
    ends (exec (.retire f) base) (fun t => started base t f &&
      decide (t.mem.retireJobs = [{ job := base.jobOf f, a := 1, b := 2048 }] ∧ t.mem.hbm = base.mem.hbm)) = true := by decide +kernel

theorem witness_FILL :
    let f := desc .mq 0x34 [(64, 40 * 2 ^ 30), (128, 64)]
    canon base = true ∧ accepted base f = true ∧ Instr.wf (.fill f) = true ∧ base.fillBad (40 * 2 ^ 30) 64 = false ∧
    ends (exec (.fill f) base) (fun t => started base t f &&
      decide (t.mem.fillJobs = [{ job := base.jobOf f, a := 40 * 2 ^ 30, b := 64 }] ∧ t.mem.hbm = base.mem.hbm)) = true := by
  decide +kernel

theorem test_fill_ranges : base.fillBad (40 * 2 ^ 30) 63 = true ∧ base.fillBad (10 * 2 ^ 30) 64 = true ∧
    base.fillBad (48 * 2 ^ 30 - 64) 128 = true ∧ base.fillBad (384 * 2 ^ 30) 64 = true := by decide +kernel

theorem witness_REHASH :
    let s := { base with mem := { rehash := [{ job := base.jobOf (desc .mq 0x35 []), a := 1, b := 1 }] } }
    let f := desc .mq 0x35 [(64, 1), (72, 3)]
    canon s = true ∧ accepted s f = true ∧ Instr.wf (.rehash f) = true ∧ Fetch.bits f 64 2 ≠ 0 ∧
    ends (exec (.rehash f) s) (fun t => started s t f && decide (t.mem.rehash.length = 2 ∧ t.free = s.free)) = true := by decide +kernel

/-- RESET of a scope, with a partition or port and a bough. -/
def reset (scope p b : Nat) : Sys2Proof.Fetch := desc .mq 0x40 [(64, scope), (72, p), (80, b)]

theorem witness_RESET_COLD :
    canon base = true ∧ accepted base (reset 1 0 0) = true ∧ Instr.wf (.resetCold (reset 1 0 0)) = true ∧ base.pulseRuns none = false ∧
    ends (exec (.resetCold (reset 1 0 0)) base) (fun t => decide (t.boot.phase = .heldCold ∧ t.boot.source = 3 ∧ t.regs.ready = 0))
      = true := by decide +kernel

/-- `base` with a program pulse on tile 0. -/
def pulsing : State :=
  let j : ProgJob := { deck := 0, takeId := 1, matrix := 1, image := 5, rowTile := 0, colTile := 0, started := true }
  { base with tiles := [(0, { active := .progStep, jobs := [j] })] }

theorem witness_RESET_COLD_held :
    canon pulsing = true ∧ accepted pulsing (reset 1 0 0) = true ∧ pulsing.pulseRuns none = true ∧
    ends (exec (.resetCold (reset 1 0 0)) pulsing) (fun t => started pulsing t (reset 1 0 0) &&
      decide (t.boot.heldReset = some (true, 3))) = true := by decide +kernel

theorem witness_RESET_WARM :
    canon base = true ∧ accepted base (reset 2 0 0) = true ∧ Instr.wf (.resetWarm (reset 2 0 0)) = true ∧ base.running = true ∧
    ends (exec (.resetWarm (reset 2 0 0)) base) (fun t => started base t (reset 2 0 0) && t.boot.warmJob.isSome &&
      t.drains.any fun d => decide (d.why = .warmReset)) = true := by decide +kernel

theorem witness_RESET_PARTITION :
    canon base = true ∧ accepted base (reset 3 31 0) = true ∧ Instr.wf (.resetPartition (reset 3 31 0)) = true ∧
    Fetch.bits (reset 3 31 0) 72 6 < 32 ∧ (base.part 31).resetting = false ∧
    ends (exec (.resetPartition (reset 3 31 0)) base) (fun t => started base t (reset 3 31 0) && (t.part 31).resetting &&
      (t.part 31).resetJobs.contains (base.jobOf (reset 3 31 0)) &&
      t.drains.any fun d => decide (d.scope = .partition 31 ∧ d.why = .partitionReset 31)) = true := by decide +kernel

theorem witness_RESET_BOUGH :
    canon base = true ∧ accepted base (reset 4 0 127) = true ∧ Instr.wf (.resetBough (reset 4 0 127)) = true ∧ base.starting = false ∧
    (base.bough 127).resetJobs = [] ∧ ends (exec (.resetBough (reset 4 0 127)) base) (fun t => started base t (reset 4 0 127) &&
      (t.bough 127).draining && (t.bough 127).resetJobs.contains (base.jobOf (reset 4 0 127)) &&
      t.drains.any fun d => decide (d.scope = .bough 127 ∧ d.why = .boughReset 127)) = true := by decide +kernel

/-- `base` in a cold start that has brought the memory up. -/
def startingUp : State := { base with boot := { base.boot with phase := .coldStart } }

theorem witness_RESET_lost :
    canon startingUp = true ∧ accepted startingUp (reset 4 0 1) = true ∧ accepted startingUp (reset 5 1 0) = true ∧
    startingUp.starting = true ∧
    ends (exec (.resetBough (reset 4 0 1)) startingUp) (fun t => t.boot.lostJobs.contains (startingUp.jobOf (reset 4 0 1))) = true ∧
    ends (exec (.resetPort (reset 5 1 0)) startingUp) (fun t => t.boot.lostJobs.contains (startingUp.jobOf (reset 5 1 0))) = true := by
  decide +kernel

theorem witness_RESET_PORT :
    canon base = true ∧ accepted base (reset 5 3 0) = true ∧ Instr.wf (.resetPort (reset 5 3 0)) = true ∧
    Fetch.bits (reset 5 3 0) 72 6 < 4 ∧ ends (exec (.resetPort (reset 5 3 0)) base) (fun t => started base t (reset 5 3 0) &&
      decide ((t.link .d).state = .training) && (t.link .d).resetJobs.contains (base.jobOf (reset 5 3 0))) = true := by decide +kernel

/-- POWER_STATE of a state number. -/
def powerTo (n : Nat) : Sys2Proof.Fetch := desc .mq 0x41 [(64, n)]

theorem witness_POWER_STATE_D0 :
    let s := { base with power := { dstate := .d2 } }
    canon s = true ∧ accepted s (powerTo 0) = true ∧ Instr.wf (.powerStateD0 (powerTo 0)) = true ∧ Fetch.bits (powerTo 0) 64 2 = 0 ∧
    ends (exec (.powerStateD0 (powerTo 0)) s) (fun t => started s t (powerTo 0) &&
      decide (t.power.wake = some { from_ := .d2, phase := 0, job := some (s.jobOf (powerTo 0)) })) = true ∧
    ends (exec (.powerStateD0 (powerTo 0)) base) (fun t => answered base t (powerTo 0) .ok 0 0 && decide (t.power = base.power)) = true := by
  decide +kernel

theorem witness_POWER_STATE_D2 :
    let s := { base with calls := [(0, callOf .ready)] }
    canon s = true ∧ accepted s (powerTo 2) = true ∧ Instr.wf (.powerStateD2 (powerTo 2)) = true ∧ s.notIdle = true ∧
    ends (exec (.powerStateD2 (powerTo 2)) s) (fun t => answered s t (powerTo 2) .notIdle 0 0) = true ∧ base.notIdle = false ∧
    ends (exec (.powerStateD2 (powerTo 2)) { base with boughs := [(1, { runOn := true })] }) (fun t =>
      decide ((t.bough 1).runOn = false ∧ (t.power.entry.map fun e => (e.target, e.step, e.runs)) = some (.d2, 1, [1]))) = true := by
  decide +kernel

theorem witness_POWER_STATE_D2_again :
    let s := { base with power := { dstate := .d2 } }
    accepted s (powerTo 2) = true ∧ ends (exec (.powerStateD2 (powerTo 2)) s) (fun t => answered s t (powerTo 2) .ok 0 0) = true := by
  decide +kernel

theorem witness_POWER_STATE_D3 :
    canon base = true ∧ accepted base (powerTo 3) = true ∧ Instr.wf (.powerStateD3 (powerTo 3)) = true ∧ base.notIdle = false ∧
    ends (exec (.powerStateD3 (powerTo 3)) base) (fun t => t.jobs.contains (base.jobOf (powerTo 3)) &&
      decide ((t.power.entry.map fun e => (e.target, e.step)) = some (.d3, 1))) = true := by decide +kernel

/-- An empty image staged in slot 1 of `base`. -/
def staged : State := { base with sec := { slots := [(1, { valid := true, digest := Shake.digest32 [] })] } }

theorem witness_FW_CUTOVER :
    let f := desc .mq 0x43 [(64, 1)]
    canon staged = true ∧ accepted staged f = true ∧ Instr.wf (.fwCutover f) = true ∧ cutoverBusy staged = false ∧
    Fetch.bits f 64 1 ≠ staged.sec.runSlot ∧ (Tbl.get ({} : FwSlot) 1 staged.sec.slots).valid = true ∧
    Shake.digest32 (Tbl.get ({} : FwSlot) 1 staged.sec.slots).bytes = (Tbl.get ({} : FwSlot) 1 staged.sec.slots).digest ∧
    ends (exec (.fwCutover f) staged) (fun t => started staged t f && t.boot.dogPaused &&
      decide (t.sec.cutover = some { slot := 1, job := staged.jobOf f, switched := false, switchTick := 0 })) = true := by decide +kernel

theorem slice_length (b : Bytes) (i n : Nat) : (Bits.slice b i n).length = n := by
  simp only [Bits.slice, List.length_append, List.length_replicate, List.length_take, List.length_drop]
  omega

theorem bytesOf_length (n v : Nat) : (Bits.bytesOf n v).length = n := by
  induction n generalizing v with
  | zero => rfl
  | succ n ih => simp [Bits.bytesOf, ih]

/-- `base` before SEAL, with an ATTEST descriptor of nonce 1. -/
def unsealed : State := { base with regs := { base.regs with sealed := false } }

def attest1 : Sys2Proof.Fetch := desc .mq 0x44 [(64, 1), (320, 16384), (384, 4608)]

theorem witness_ATTEST :
    canon unsealed = true ∧ accepted unsealed attest1 = true ∧ attest1.bufFault = false ∧ Instr.wf (.attest attest1) = true ∧
    (attestReport (unsealed.advance attest1.ring) (Bits.slice (Fetch.bytes attest1) 8 32)).length ≤ Fetch.at attest1 48 4 := by
  refine ⟨by decide +kernel, by decide +kernel, rfl, by decide +kernel, ?_⟩
  have h1 : (unsealed.advance attest1.ring).liveGen = none := by decide +kernel
  have h2 : (unsealed.advance attest1.ring).regs.sealed = false := by decide +kernel
  have h3 : Fetch.at attest1 48 4 = 4608 := by decide +kernel
  rw [h3]
  simp [attestReport, h1, configDigest, partitionDigest, h2, slice_length, bytesOf_length]
/-! ### Host rings and registers -/

/-- A header of a flit with sequence number 0 that acknowledges nothing. -/
def hdr (p : Port) (c : BitVec 2) : FlitHdr :=
  { port := p, channel := c, seq := 0, ack := 0, ackValid := false, creditCh := 0, credits := 0, words := 0 }

/-- `base` in the middle of a chain, position 1, with every port up. -/
def linked : State :=
  { base with
    regs := { base.regs with chainPos := 1 },
    links := [(0, { state := .up, width := 16, present := true }), (1, { state := .up, width := 8, present := true }),
              (2, { state := .up, width := 16, present := true }), (3, { state := .up, width := 16, present := true })] }

theorem witness_HostFrame : Instr.family (.doorbell none (.sq 0 0) 5) = .host ∧
    ends (exec (.doorbell none (.sq 0 0) 5) base) (sameBut (Instr.reach (.doorbell none (.sq 0 0) 5)) base) = true := by decide +kernel

theorem witness_DOORBELL :
    canon base = true ∧ ringExists (.sq 0 0) = true ∧ base.serving = true ∧ base.isolated = false ∧ inbound (.sq 0 0) = true ∧
    (64 - (base.ring (.sq 0 0)).pos).toNat ≤ 2 ^ (base.ring (.sq 0 0)).exp.toNat ∧
    ends (exec (.doorbell none (.sq 0 0) 64) base) (fun t => decide (t.ring (.sq 0 0) = { base.ring (.sq 0 0) with count := 64 })) = true ∧
    ends (exec (.doorbell none (.sq 0 0) 65) base) (fun t => decide (t.ring (.sq 0 0) = base.ring (.sq 0 0)) &&
      decide (Tbl.get 0 Ctr.dbInvalid t.counters = 1)) = true ∧
    ends (exec (.doorbell none (.sq 1 0) 1) base) (sameBut [.counters] base) = true := by decide +kernel

theorem witness_DOORBELL_out :
    let s := { base with rings := [(6, { outRing with pos := 4, count := 2 })] }
    canon s = true ∧ (s.ring (.cq 0)).enabled = true ∧ ((4 : BitVec 32) - (s.ring (.cq 0)).count).toNat ≤
      ((s.ring (.cq 0)).pos - (s.ring (.cq 0)).count).toNat ∧
    ends (exec (.doorbell none (.cq 0) 4) s) (fun t => decide ((t.ring (.cq 0)).count = 4)) = true ∧
    ends (exec (.doorbell none (.cq 0) 5) s) (fun t => decide ((t.ring (.cq 0)).count = 2)) = true := by decide +kernel

theorem witness_DOORBELL_flit :
    canon linked = true ∧ flitReady linked (hdr .h 2) [.h] [2] = true ∧
    ends (exec (.doorbell (some (hdr .h 2)) (.sq 0 0) 3) linked) (fun t => decide ((t.ring (.sq 0 0)).count = 3 ∧
      (t.link .h).rxSeq = 1)) = true := by decide +kernel

theorem witness_FETCH_FAULT :
    canon base = true ∧ base.hasDescriptor .mq = true ∧ base.serving = true ∧ (base.ring .mq).stopped = false ∧
    base.isolated = false ∧
    ends (exec (.fetchFault .mq) base) (fun t => decide (t.ring .mq = { base.ring .mq with stopped := true })) = true := by decide +kernel

theorem witness_HOST_FAULT_call :
    let j : Job := { ring := .sq 0 0, pos := 0, tag := 9, opcode := 1, quiet := false, premium := false }
    let s := { base with calls := [(0, callOf .ready)], jobs := [j] }
    canon s = true ∧ s.hostJob (.sq 0 0) 0 = some j ∧ s.jobCall j = some 0 ∧
    ends (exec (.hostFault (.sq 0 0) 0) s) (fun t => decide ((t.call 0).state = .free) &&
      wrote s t (.cq 0) (.completion 9 .hostFault 1 0 false 0 0 (2 ^ 31))) = true := by decide +kernel

theorem witness_HOST_FAULT_object :
    let j : Job := { ring := .mq, pos := 0, tag := 7, opcode := 0x20, quiet := false, premium := false }
    let s := { base with jobs := [j], sec := { queue := [.manifest [] (some j)] } }
    s.hostJob .mq 0 = some j ∧ s.jobCall j = none ∧ ends (exec (.hostFault .mq 0) s) (fun t => decide (t.sec.queue = []) &&
      wrote s t .eq (.mgmt 7 .hostFault 0x20 0 0 (2 ^ 31))) = true := by decide +kernel

/-- A completion record. -/
def waitingRec : Waiting := { record := .completion 9 .ok 1 0 false 0 0 5, premium := false, quiet := false, frees := none }

theorem witness_RECORD_WRITE_FAULT :
    let s := { base with rings := [(1, outRing), (6, { outRing with pos := 1, last := some waitingRec })] }
    canon s = true ∧ ringExists (.cq 0) = true ∧ inbound (.cq 0) = false ∧ (s.ring (.cq 0)).failed = none ∧
    (s.ring (.cq 0)).last = some waitingRec ∧ ends (exec (.recordWriteFault (.cq 0)) s) (fun t =>
      decide ((t.ring (.cq 0)).pos = 0 ∧ (t.ring (.cq 0)).failed = some waitingRec)) = true := by decide +kernel

theorem witness_COAL_WINDOW :
    let s := { base with rings := [(6, { outRing with irqEn := true, timer := 100, pendingCount := 1, pendingTick := 2 ^ 31 - 100 })] }
    canon s = true ∧ s.isolated = false ∧ (s.ring (.cq 0)).irqEn = true ∧ (s.ring (.cq 0)).timer ≠ 0 ∧
    0 < (s.ring (.cq 0)).pendingCount ∧ (s.ring (.cq 0)).pendingTick + (s.ring (.cq 0)).timer.toNat ≤ s.now ∧
    ends (exec (.coalWindowExpiry (.cq 0)) s) (fun t => (emitted s t).contains (.irq 5) &&
      decide ((t.ring (.cq 0)).pendingCount = 0)) = true := by decide +kernel

/-- A write of the register window. -/
def acc (off size : Nat) (v : BitVec 64) : RegAccess := { off := off, size := size, value := v }

theorem witness_VERSION_NEG :
    unsealed.windowServed = true ∧ unsealed.regs.sealed = false ∧
    ends (exec (.versionNeg (acc 0x20 4 0)) unsealed) (fun t => sameBut [.regs] unsealed t &&
      decide (t.regs.verReq = 0 ∧ t.regs.verAck = 0)) = true ∧
    ends (exec (.versionNeg (acc 0x20 8 9)) unsealed) (fun t => sameBut [.regs] unsealed t &&
      decide (t.regs.verReq = 9 ∧ t.regs.verAck = 1)) = true := by decide +kernel

theorem witness_BAD_VERSION :
    let f := { desc .mq 0 [] with word := 0x200 }
    canon base = true ∧ fetched base f = true ∧ Fetch.version f ≠ base.regs.verAck.toNat ∧
    ends (exec (.nop f) base) (fun t => answered base t f .badVersion 0 0) = true := by decide +kernel

/-- A descriptor that stands while no version is agreed. -/
theorem witness_no_version :
    let s := { base with regs := { base.regs with verAck := 0 } }
    Instr.descriptor? (.nop (desc .mq 0 [])) = some (desc .mq 0 []) ∧ s.hasDescriptor .mq = true ∧ s.running = true ∧ s.regs.verAck = 0 ∧
    ends (exec (.nop (desc .mq 0 [])) s) (fun t => decide (t.ring .mq = s.ring .mq)) = true := by decide +kernel

/-- Before SEAL: two partitions share, two rings and the event ring are sized. -/
def unsealed2 : State :=
  { unsealed with
    parts := [(0, { entryShare := 8192, vecBase := 1 }), (1, { entryShare := 8192, vecBase := 3 })],
    rings := [(0, { exp := 6 }), (1, { exp := 6 }), (2, { exp := 6 }), (14, { exp := 6 })] }

theorem witness_SEAL :
    canon unsealed2 = true ∧ unsealed2.windowServed = true ∧ unsealed2.regs.sealed = false ∧ unsealed2.sealCheck = 0 ∧
    ends (exec (.seal (acc 0x28 4 1)) unsealed2) (fun t => t.regs.sealed && (t.part 0).enabled && !(t.part 2).enabled &&
      (t.ring .mq).enabled && (t.ring (.sq 0 0)).enabled && !(t.ring (.sq 2 0)).enabled && !(t.ring (.cq 0)).enabled) = true := by
  decide +kernel

theorem witness_SEAL_ERR :
    let s := { unsealed2 with parts := [(0, { entryShare := 8192 }), (1, { entryShare := 8193 })] }
    canon s = true ∧ s.sealCheck = 1 ∧ ends (exec (.seal (acc 0x28 4 1)) s) (fun t => sameBut [.regs] s t &&
      decide (t.regs.sealErr = 1 ∧ t.regs.sealed = false)) = true := by decide +kernel

theorem witness_FENCE_CTRL :
    let s := { base with pins := { base.pins with fenceOut := true } }
    s.windowServed = true ∧ ends (exec (.fenceCtrlRelease (acc 0x1024 4 1)) s) (fun t => sameBut [.pins] s t &&
      decide (t.pins = { s.pins with fenceOut := false })) = true := by decide +kernel

theorem witness_BOOT_SRC_GO :
    let s := { base with
      boot := { base.boot with phase := .coldStart, done := 0x000F }
      regs := { base.regs with boot := 1, bootLength := 2 ^ 24 } }
    s.windowServed = true ∧ s.boot.done.getLsbD 3 = true ∧ s.boot.done.getLsbD 4 = false ∧ 0 < s.regs.bootLength.toNat ∧
    s.regs.bootLength.toNat ≤ 2 ^ 24 ∧
    ends (exec (.bootSrcGo (acc 0x109C 4 1)) s) (fun t => sameBut [.boot] s t && decide (t.boot = { s.boot with go := true })) = true := by
  decide +kernel

/-- Chapter 20's example: COUNTER_SEL 0x0000_0041_0002_0605 is a counter of chapter 06 of unit 65. -/
theorem witness_COUNTER_SEL :
    let w : BitVec 64 := 0x0000004100020605
    let s := { base with counters := [(w.toNat, 3)] }
    s.windowServed = true ∧ counterNamed w.toNat = true ∧ s.levelValue w.toNat = none ∧
    ends (exec (.counterSel (acc 0x1080 8 w)) s) (fun t => sameBut [.regs] s t &&
      decide (t.regs.counterVal = 3 ∧ t.regs.counterInvalid = false ∧ t.regs.counterSel = w)) = true ∧
    ends (exec (.counterSel (acc 0x1080 8 0)) s) (fun t => decide (t.regs.counterVal = 0 ∧ t.regs.counterInvalid = true)) = true := by
  decide +kernel

theorem witness_HK_CTRL :
    let s := { base with regs := { base.regs with refen := false }, hk := {} }
    s.windowServed = true ∧ ends (exec (.hkCtrlRefen (acc 0x1028 4 1)) s) (fun t => sameBut [.regs, .hk] s t && t.regs.refen &&
      decide (t.hk.refenAt = some (2 ^ 31) ∧ t.hk.refReady = false)) = true ∧
    ends (exec (.hkCtrlRefen (acc 0x1028 4 0)) base) (fun t => !t.regs.refen && decide (t.hk.refenAt = none) && !t.hk.refReady) = true := by
  decide +kernel

/-- A read of a counter's value latches its upper half. -/
theorem witness_REG_READ :
    let s := { base with regs := { base.regs with counterVal := 0x0000000300000002, counterInvalid := false } }
    s.windowServed = true ∧ State.readWide 0x1014 = false ∧ State.readWide 0x1088 = true ∧
    ends (exec (.regWrite { acc 0x1014 4 0 with read := true }) s) (fun t => sameBut [.out] s t &&
      decide (emitted s t = [.regRead 0x1014 (s.regWord 0x1014)])) = true ∧
    ends (exec (.regWrite { acc 0x1088 4 0 with read := true }) s) (fun t => sameBut [.regs, .out] s t &&
      decide (emitted s t = [.regRead 0x1088 2]) &&
      ends (exec (.regWrite { acc 0x108C 4 0 with read := true }) { t with regs := { t.regs with counterVal := 0 } }) fun u =>
        decide (emitted t u = [.regRead 0x108C 3])) = true := by decide +kernel

theorem witness_window_closed :
    let s := { base with power := { dstate := .d3 } }
    s.windowServed = false ∧ Instr.wf (.regWrite (acc 0x1014 4 0)) = true ∧ Instr.wf (.seal (acc 0x28 4 1)) = true ∧
    exec (.regWrite (acc 0x1014 4 0)) s = .next s ∧ exec (.seal (acc 0x28 4 1)) s = .next s := by
  refine ⟨by decide +kernel, by decide +kernel, by decide +kernel, rfl, rfl⟩

theorem witness_LINK_CTRL :
    base.windowServed = true ∧ ends (exec (.regWrite (acc 0x1014 4 0x00FF1234)) base) (fun t => sameBut [.regs] base t &&
      decide (t.regs = { base.regs with laneErrMax := 0x1234, replayMax := 255 })) = true ∧
    ends (exec (.regWrite (acc 0x1014 4 0x00001234)) base) (fun t => sameBut [.regs] base t &&
      decide (t.regs = { base.regs with laneErrMax := 0x1234 })) = true := by decide +kernel

theorem witness_locked_write :
    base.windowServed = true ∧ base.regs.sealed = true ∧ State.lockedAt 0x2050 = true ∧
    ends (exec (.regWrite (acc 0x2050 4 9)) base) (fun t => sameBut [.counters] base t &&
      decide (Tbl.get 0 Ctr.regLockedWrites t.counters = 1)) = true := by decide +kernel

theorem witness_shares :
    canon unsealed2 = true ∧ unsealed2.windowServed = true ∧
    ends (exec (.regWrite (acc (0x10000 + 0x1000 * 31 + 0x100) 4 (16384 + 2 ^ 16 * 16384))) unsealed2) (fun t => sameBut [.parts] unsealed2 t &&
      decide ((t.part 31).entryShare = 16384 ∧ (t.part 31).premiumShare = 16384)) = true ∧
    ends (exec (.regWrite (acc 0x10100 4 (16385 + 2 ^ 16 * 8193))) unsealed2) (fun t =>
      decide ((t.part 0).entryShare = 8192 ∧ (t.part 0).premiumShare = 0)) = true := by decide +kernel
/-! ### Pins and starts -/

/-- A running device with a phase put in. -/
def phased (p : Phase) : State := { base with boot := { base.boot with phase := p } }

theorem witness_StartFrame : Instr.family .hkSlot = .start ∧
    ends (exec .hkSlot base) (sameBut (Instr.reach .hkSlot) base) = true := by decide +kernel

theorem witness_PORST_N :
    base.pins.porst = false ∧ base.boot.phase ≠ .off ∧ base.awake = true ∧ base.pulseRuns none = false ∧
    ends (exec .porstNAssert base) (fun t => decide (t.pins.porst = true ∧ t.boot.phase = .heldCold ∧ t.boot.source = 1 ∧ t.tick = 0 ∧
      t.boot.attempts = 0)) = true ∧ pulsing.awake = true ∧ pulsing.pulseRuns none = true ∧
    ends (exec .porstNAssert pulsing) (fun t => decide (t.pins.porst = true ∧ t.boot.heldReset = some (true, 1))) = true := by
  decide +kernel

theorem witness_WRST_N :
    base.pins.wrst = false ∧ base.running = true ∧ base.pulseRuns none = false ∧
    ends (exec .wrstNAssert base) (fun t => decide (t.boot.phase = .heldWarm ∧ t.boot.source = 2 ∧ t.pins.wrst = true ∧ t.tick = base.tick))
      = true ∧ ends (exec .wrstNAssert (phased .safe)) (fun t => sameBut [] (phased .safe) t) = true := by decide +kernel

theorem witness_FENCE_IN :
    canon linked = true ∧ linked.pins.fenceIn = false ∧ linked.awake = true ∧
    ends (exec .fenceInAssert linked) (fun t => decide (t.pins = { linked.pins with fenceIn := true }) &&
      [Port.h, .t, .u, .d].all fun p => decide ((t.link p).state = .isolated)) = true := by decide +kernel

theorem witness_FENCE_IN_release :
    let s := { base with
      pins := { base.pins with fenceIn := true }
      links := [(0, { state := .isolated }), (1, { state := .isolated }), (2, { state := .isolated }), (3, { state := .isolated })] }
    canon s = true ∧ s.isolated = true ∧ s.running = true ∧ s.pulseRuns none = false ∧
    ends (exec .fenceInRelease s) (fun t => decide (t.boot.phase = .heldWarm ∧ t.boot.source = 10 ∧ t.boot.emptySheet = true) &&
      [Port.h, .t, .u, .d].all fun p => decide ((t.link p).state = .down)) = true ∧
    ends (exec .fenceInRelease { base with pins := { base.pins with fenceIn := true } }) (fun t => sameBut [] base t) = true := by
  decide +kernel

theorem witness_REFCLK :
    base.pins.refclk = true ∧ ends (exec .refclkLoss linked) (fun t => decide (t.ticking = false ∧ t.tick = linked.tick ∧
      t.pins = { linked.pins with refclk := false, alertClock := true } ∧ (t.link .u).state = .training)) = true ∧
    ends (exec .refclkReturn { base with ticking := false, pins := { refclk := false, alertClock := true, porst := false } }) (fun t =>
      decide (t.ticking = true ∧ t.tick = base.tick ∧ t.pins = base.pins)) = true := by decide +kernel

theorem witness_VAON :
    ends (exec .vaonLoss base) (fun t => decide (t.boot.phase = .off ∧ t.regs = {} ∧ t.calls = [])) = true ∧ (phased .off).boot.phase = .off ∧
    ends (exec .vaonApply (phased .off)) (fun t => decide (t.boot.phase = .heldCold ∧ t.boot.source = 1 ∧ t.pins.porst = true)) = true := by
  decide +kernel

theorem witness_JTAG :
    ends (exec (.jtagInstruction .extest) base) (fun t => sameBut [.pins] base t && decide (t.pins.jtag = .bypass)) = true ∧
    ends (exec (.jtagInstruction .extest) State.reset) (fun t => decide (t.pins.jtag = .extest)) = true ∧
    ends (exec (.jtagInstruction .sample) base) (fun t => decide (t.pins.jtag = .sample)) = true ∧
    ends (exec (.jtagInstruction (.other 0x77)) base) (fun t => decide (t.pins.jtag = .bypass)) = true := by decide +kernel

theorem witness_COLD_START : State.reset.boot.phase = .heldCold ∧ State.reset.boot.tripped = false ∧
    { State.reset with pins := { fenceIn := true } }.pins.fenceIn = true := by decide

theorem witness_RESET_TAKES_EFFECT :
    let s := { base with boot := { base.boot with heldReset := some (false, 6) } }
    s.pulseRuns none = false ∧ ends (exec .resetTakesEffect s) (fun t =>
      decide (t.boot.phase = .heldWarm ∧ t.boot.source = 6 ∧ t.boot.heldReset = none)) = true := by decide +kernel

theorem witness_bough_reset_due :
    let j := base.jobOf (reset 4 0 127)
    let s := { base with boughs := [(127, { draining := true, resetJobs := [j] })], jobs := [j] }
    canon s = true ∧ s.boot.heldReset = none ∧ s.boughsDue = [127] ∧
    ends (exec .resetTakesEffect s) (fun t => decide ((t.bough 127).draining = false)) = true := by decide +kernel

theorem witness_WARM_START :
    let s := { linked with boot := { phase := .heldWarm }, pins := { porst := false, wrst := true } }
    canon s = true ∧ s.boot.done = 0 ∧ s.isolated = false ∧ ends (exec .warmStart s) (fun t =>
      decide (t.boot.phase = .warmStart ∧ t.pins.wrst = false ∧ t.boot.done = 2) &&
      [Port.h, .t, .u, .d].all fun p => decide ((t.link p).state = .training)) = true := by decide +kernel

/-- A regulator's answer. -/
def regWord (addr : Nat) (warning fault : Bool) : RegStatus :=
  { addr := addr, page := 0, word := 0x40, warning := warning, fault := fault }

theorem witness_PM_ALERT_N :
    ends (exec (.pmAlertN []) base) (fun t => sameBut [] base t) = true ∧
    ends (exec (.pmAlertN [regWord 0x40 true false]) base) (fun t => decide (t.power.regFloor = 3 ∧ t.power.warnAt = base.now)) = true ∧
    ends (exec (.pmAlertN [regWord 0x43 false true]) linked) (fun t => t.pins.alertRail &&
      [Port.h, .t, .u, .d].all fun p => decide ((t.link p).state = .down)) = true ∧
    ends (exec (.pmAlertN [regWord 0x40 false true]) base) (fun t => t.pins.alertRail &&
      decide (t.boot.phase = .heldWarm ∧ t.boot.source = 6)) = true := by decide +kernel

/-- A cold start whose steps of a mask have ended. -/
def cold (done : BitVec 16) : State := { base with boot := { phase := .coldStart, done := done, posKnown := true } }

/-- A warm start whose steps of a mask have ended. -/
def warmUp (done : BitVec 16) : State := { base with boot := { phase := .warmStart, done := done, posKnown := true } }

theorem walk_length (a : List Shake.Lane) (n x y : Nat) (b : List Shake.Lane) : (Shake.walk a n x y b).length = b.length := by
  induction n generalizing x y b with
  | zero => rfl
  | succ n ih => simp [Shake.walk, ih]

theorem rounds_length (n r : Nat) (a : List Shake.Lane) : (Shake.rounds n r a).length = a.length := by
  induction n generalizing r a with
  | zero => rfl
  | succ n ih => simp [Shake.rounds, ih, Shake.chi, Shake.theta, walk_length]

theorem permute_length (a : List Shake.Lane) : (Shake.permute a).length = a.length := rounds_length 24 1 a

theorem absorb_length (n : Nat) (a : List Shake.Lane) (b : Bytes) (h : a.length = 25) : (Shake.absorb n a b).length = 25 := by
  induction n generalizing a b with
  | zero => simpa [Shake.absorb]
  | succ n ih => exact ih _ _ ((permute_length _).trans (by simp [Shake.blockLanes, h]))

/-- FIPS 202's own answer for the empty message. -/
theorem test_shake256_empty : Shake.shake256 [] 8 = [0x46, 0xB9, 0xDD, 0x2B, 0x0B, 0xA8, 0x8D, 0x13] := by decide +kernel

theorem digest32_length (b : Bytes) : (Shake.digest32 b).length = 32 := by
  have h := absorb_length ((Shake.pad b).length / Shake.rate) (List.replicate 25 0) (Shake.pad b) (by simp)
  have hs : ∀ a : List Shake.Lane, a.length = 25 → (Shake.stateBytes a).length = 136 := by
    intro a ha
    simp [Shake.stateBytes, List.length_flatten, Function.comp_def, bytesOf_length, ha]
  simp only [Shake.digest32, Shake.shake256, show Bits.ceilDiv 32 Shake.rate = 1 from rfl, Shake.squeeze, List.append_nil,
    List.length_take, hs _ h]
  rfl

/-- An option block of some content with its digest. -/
def optionBlock (c : Bytes) : Bytes := c ++ Shake.digest32 c

theorem witness_option_ok (c : Bytes) (h : c.length = 8160) : optionOk (optionBlock c) = true := by
  have h1 : (optionBlock c).take 8160 = c := by rw [optionBlock, ← h]; exact List.take_left
  have h2 : (optionBlock c).drop 8160 = Shake.digest32 c := by rw [optionBlock, ← h]; exact List.drop_left
  have h3 : (optionBlock c).length = 8192 := by rw [optionBlock, List.length_append, h, digest32_length]
  rw [optionOk, h1, h2, h3]
  simp

theorem witness_OPTION_LOAD :
    let s := cold 0
    let s2 := { s with boot := { s.boot with copyB := true } }
    canon s = true ∧ s.stepDone? 1 = false ∧ s.boot.failedStep = none ∧ optionOk [] = false ∧
    ends (exec (.optionLoad []) s) (fun t => sameBut [.boot] s t && decide (t.boot = { s.boot with copyB := true })) = true ∧
    ends (exec (.optionLoad []) s2) (fun t => decide (t.boot = { s2.boot with failedStep := some 1 })) = true := by decide +kernel

theorem witness_CLOCK_LOCK :
    let s := { cold 2 with regs := { base.regs with refen := false }, hk := {} }
    s.coldStep 1 2 = true ∧ s.pins.refclk = true ∧
    ends (exec (.clockLock true) s) (fun t => decide (t.tick = 0 ∧ t.ticking = true ∧ t.regs.refen = true ∧ t.hk.refenAt = some 0) &&
      t.stepDone? 2) = true ∧
    ends (exec (.clockLock false) s) (fun t => sameBut [.boot] s t && decide (t.boot.failedStep = some 2)) = true := by decide +kernel

theorem witness_HK_REF_READY :
    let s := { cold 6 with hk := { refenAt := some (2 ^ 31 - 7813) } }
    s.awake = true ∧ s.regs.refen = true ∧ s.hk.refReady = false ∧ 2 ^ 31 - 7813 + 7813 ≤ s.now ∧
    ends (exec .hkRefReady s) (fun t => sameBut [.hk] s t && t.hk.refReady &&
      decide (t.hk.busy = some { channel := 164, start := 2 ^ 31, job := none, urgent := true })) = true := by decide +kernel

theorem witness_FW_FETCH_none :
    let s := { cold 0xE with regs := { base.regs with boot := 3 } }
    s.coldStep 3 4 = true ∧ ends (exec (.fwFetch 0 []) s) (fun t => sameBut [.boot] s t && decide (t.boot.failedStep = some 4)) = true := by
  decide +kernel

theorem witness_FW_FETCH_bad :
    let s := { cold 0xE with regs := { base.regs with boot := 2 } }
    s.coldStep 3 4 = true ∧ s.fetchedOk [[0]] = true ∧ s.fwReason [0] = some 1 ∧
    ends (exec (.fwFetch 1 [[0]]) s) (fun t => t.stepDone? 4 && decide (t.boot.failedStep = some 5)) = true := by decide +kernel

/-- The header of an image of 3,200 bytes, svn 0. -/
def fwImage : Bytes :=
  [0x4C, 0x4D, 0x57, 0x46, 1, 0, 0, 0] ++ List.replicate 8 0 ++ [0x80, 0x0C] ++ List.replicate 46 0 ++ [1, 1] ++ List.replicate 3134 0

/-- A good image, where a Cerenaft slot holds its key's digest and the signature verifies. -/
theorem witness_FW_FETCH_good (h1 : Config.cerenaftEmpty 0 = false)
    (h2 : Config.cerenaftKey 0 = Shake.digest32 (Bits.slice (sigBlock fwImage) 16 1793))
    (h3 : ∀ k d s, Config.falconVerify k d s = true) :
    { cold 0xE with regs := { base.regs with boot := 2 } }.fetchedOk [fwImage] = true ∧ base.fwReason fwImage = none := by
  have a : fwHeaderOk fwImage = true := by decide +kernel
  have b1 : ¬ fwImage.length < sigLen := by decide +kernel
  have b2 : Bits.byteAt (sigBlock fwImage) 0 = 1 := by decide +kernel
  have b3 : Bits.byteAt (sigBlock fwImage) 1 = 1 := by decide +kernel
  have b4 : Bits.zeroAt (sigBlock fwImage) 3 13 = true := by decide +kernel
  have b5 : Bits.zeroAt (sigBlock fwImage) 1809 47 = true := by decide +kernel
  have c : Bits.byteAt (sigBlock fwImage) 2 = 0 := by decide +kernel
  have d : Bits.le fwImage 8 4 = 0 := by decide +kernel
  have e : base.sec.revoked = 0 := rfl
  have f : base.sec.fusedSvn = 0 := rfl
  refine ⟨by decide +kernel, ?_⟩
  simp [State.fwReason, a, State.sigReason, b1, b2, b3, b4, b5, c, d, e, f, h2, h1, h3]

theorem witness_memories :
    (cold 0x20).coldStep 5 6 = true ∧ (warmUp 4).warmStep 2 3 = true ∧
    ends (exec (.sramFill true) (cold 0x20)) (fun t => t.stepDone? 6) = true ∧
    ends (exec (.sramFill false) (warmUp 4)) (fun t => decide (t.boot.failedStep = some 0x23)) = true ∧ (cold 0x20).coldStep 5 9 = true ∧
    ends (exec (.hbmTrain true) (cold 0x20)) (fun t => t.readyBit 4 && t.stepDone? 9) = true ∧
    ends (exec (.hbmTrain false) (cold 0x20)) (fun t => decide (t.boot.failedStep = some 9)) = true := by decide +kernel

theorem witness_HBM_FILL :
    let s := { cold 0x200 with regs := { base.regs with ready := 0x1F } }
    s.coldStep 9 11 = true ∧ s.readyBit 5 = false ∧
    ends (exec (.hbmFill true true) s) (fun t => t.readyBit 5 && t.readyBit 6 && t.stepDone? 11) = true ∧
    ends (exec (.hbmFill false true) s) (fun t => t.readyBit 5 && !t.readyBit 6 && decide (t.boot = s.boot)) = true ∧
    ends (exec (.hbmFill false false) s) (fun t => decide (t.boot.failedStep = some 11)) = true := by decide +kernel

theorem witness_FW_DIGEST :
    let s := { warmUp 2 with sec := { runDigest := Shake.digest32 [] } }
    s.warmStep 1 2 = true ∧ s.fwDigestOk = true ∧ ends (exec .fwDigest s) (fun t => t.readyBit 1 && t.stepDone? 2) = true ∧
    (warmUp 2).fwDigestOk = false ∧ ends (exec .fwDigest (warmUp 2)) (fun t => decide (t.boot.failedStep = some 0x22)) = true := by
  decide +kernel

theorem witness_HBM_EXIT :
    (warmUp 4).warmStep 2 6 = true ∧ Instr.wf (.hbmExit ⟨true, false⟩) = true ∧
    ends (exec (.hbmExit ⟨true, true⟩) (warmUp 4)) (fun t => t.readyBit 4 && t.readyBit 5 && t.readyBit 6 && t.stepDone? 6) = true ∧
    ends (exec (.hbmExit ⟨false, true⟩) (warmUp 4)) (fun t => decide (t.boot.failedStep = some 0x26)) = true := by decide +kernel

theorem witness_START_FAIL :
    let s := { cold 0x20 with boot := { phase := .coldStart, failedStep := some 9, attempts := 2 } }
    let u := { cold 0x20 with boot := { phase := .coldStart, failedStep := some 9, attempts := 3 } }
    s.awake = true ∧ s.pulseRuns none = false ∧ ends (exec .startFail s) (fun t => (emitted s t).contains (.sideband 9 3) &&
      decide (t.regs.lastFail = 9 ∧ t.boot.attempts = 3 ∧ t.boot.phase = .heldCold ∧ t.boot.source = 11)) = true ∧
    ends (exec .startFail u) (fun t => (emitted u t).contains (.sideband 9 3) && t.pins.alertSafe && decide (t.boot.phase = .safe)) = true := by
  decide +kernel

theorem witness_RESUME :
    (warmUp 0xFE).resumeDue = true ∧ (warmUp 0xFE).power.wake = none ∧
    ends (exec .resume (warmUp 0xFE)) (fun t => t.stepDone? 8 && t.readyBit 10 && !t.boot.emptySheet &&
      (emitted (warmUp 0xFE) t).contains .readDoorbells) = true := by decide +kernel

theorem witness_RESUME_wake :
    let s := { warmUp 0xFE with power := { dstate := .d3, wake := some { from_ := .d3, phase := 3, job := none } } }
    s.resumeDue = true ∧ ends (exec .resume s) (fun t => t.stepDone? 8 && t.readyBit 10 && decide (t.boot.phase = .warmStart) &&
      (emitted s t).contains .readDoorbells) = true := by decide +kernel

theorem witness_PARTNER_BOOT :
    canon linked = true ∧ linked.running = true ∧ linked.mgmtUp = true ∧ (linked.link .t).carries = true ∧
    ends (exec .partnerBootRequest linked) (fun t => sent linked t .t 3 (.bootImage [])) = true ∧
    (let s := { linked with regs := { linked.regs with ready := 1 } }
     s.awake = true ∧ s.mgmtUp = false ∧ exec .partnerBootRequest s = .next s) := by
  refine ⟨by decide +kernel, by decide +kernel, by decide +kernel, by decide +kernel, by decide +kernel, by decide +kernel, by decide +kernel, ?_⟩
  rfl

theorem witness_WATCHDOG :
    base.mgmtUp = true ∧ base.boot.dogPaused = false ∧ base.boot.dogAt + 2 ^ 28 ≤ base.now ∧ base.pulseRuns none = false ∧
    ends (exec .watchdogExpiry base) (fun t => decide (t.boot.source = 5 ∧ t.boot.phase = .heldWarm)) = true ∧
    ends (exec .watchdogExpiry (cold 0x20)) (fun t => decide (t.boot.source = 5 ∧ t.boot.phase = .heldCold)) = true ∧
    ends (exec .watchdogExpiry pulsing) (fun t => decide (t.boot.heldReset = some (false, 5))) = true := by decide +kernel

theorem witness_WATCHDOG_quiet :
    let s := { base with boot := { base.boot with dogAt := 2 ^ 31 - 2 ^ 28 + 1 } }
    s.now < s.boot.dogAt + 2 ^ 28 ∧ ends (exec .watchdogExpiry s) (fun _ => true) = false := by decide +kernel

theorem witness_FIRST_SERVICE :
    let s := { base with boot := { base.boot with dogPaused := true }, sec := { runFloor := 3, runRevoke := 2 } }
    s.mgmtUp = true ∧ s.boot.dogServed = false ∧ ends (exec .firstWatchdogService s) (fun t =>
      decide (t.boot = { s.boot with dogServed := true, dogPaused := false, dogAt := s.now } ∧ t.sec.fusedSvn = 3 ∧ t.sec.revoked = 2))
      = true := by decide +kernel

theorem witness_HK_SLOT :
    base.hkOn = true ∧ base.ticking = true ∧ base.hk.slotAt + 200 ≤ base.now ∧ ends (exec .hkSlot base) (fun t => sameBut [.hk] base t &&
      decide (t.hk.next = 1 ∧ t.hk.slotAt = base.now ∧
        t.hk.busy = some { channel := 0, start := base.now, job := none, urgent := false })) = true := by decide +kernel

/-- A conversion of a channel that began 100 ticks ago. -/
def converting (c : Nat) (j : Option Job) : State :=
  { base with hk := { refReady := true, busy := some { channel := c, start := 2 ^ 31 - 100, job := j, urgent := j.isSome } } }

theorem witness_HK_CONVERSION :
    let j := base.jobOf (desc .mq 0x32 [(64, 3)])
    let s := { converting 3 (some j) with jobs := [j] }
    2 ^ 31 - 100 + 100 ≤ s.now ∧ canon s = true ∧ ends (exec (.hkConversionDone 1999) s) (fun t =>
      decide (t.hk.busy = none ∧ Tbl.get {} 3 t.hk.samples = { value := 1999, valid := true, tick := 2 ^ 31 }) &&
      wrote s t .eq (.mgmt 7 .ok 0x32 (1999 + 2 ^ 16) (2 ^ 31) (2 ^ 31))) = true := by decide +kernel

theorem witness_HK_trip :
    let s := converting 139 none
    s.boot.tripped = false ∧ s.hk.refReady = true ∧ s.regs.refen = true ∧
    ends (exec (.hkConversionDone 2000) s) (fun t => t.boot.tripped && t.pins.thermtrip &&
      decide (t.boot.phase = .heldCold ∧ t.boot.source = 8 ∧ t.hk.busy = none ∧
        Tbl.get {} 139 t.hk.samples = { value := 2000, valid := true, tick := 2 ^ 31 })) = true := by decide +kernel

theorem witness_POSN :
    let s := { converting 164 none with boot := { phase := .coldStart, done := 6 } }
    ends (exec (.hkConversionDone 0x818) s) (fun t => decide (t.regs.posnV = 8 ∧ t.regs.side = true ∧ t.regs.posnCode = 0x818) &&
      t.stepDone? 3) = true ∧
    ends (exec (.hkConversionDone 0x817) s) (fun t => decide (t.boot.failedStep = some 3)) = true ∧
    ends (exec (.hkConversionDone 0x8E7) s) (fun t => t.stepDone? 3) = true ∧
    ends (exec (.hkConversionDone 0x8E8) s) (fun t => decide (t.boot.failedStep = some 3)) = true := by decide +kernel

theorem witness_URGENT_SAMPLE :
    let s := { base with power := { thermalFloor := 1 }, hk := { refReady := true, hot := [(5, 2 ^ 31 - 100)] } }
    let b := { s with hk := { s.hk with busy := some { channel := 0, start := 2 ^ 31, job := none, urgent := false } } }
    s.hkOn = true ∧ s.ticking = true ∧ 0 < s.power.thermalFloor ∧ (5, 2 ^ 31 - 100) ∈ s.hk.hot ∧ base.mgmtUp = true ∧
    ends (exec (.urgentSample 163) base) (fun t => decide (t.hk.busy = some { channel := 163, start := 2 ^ 31, job := none, urgent := true })) = true ∧
    ends (exec (.urgentSample 5) s) (fun t => sameBut [.hk] s t &&
      decide (t.hk.busy = some { channel := 5, start := 2 ^ 31, job := none, urgent := true })) = true ∧
    ends (exec (.urgentSample 5) b) (fun t => decide (t.hk.busy = b.hk.busy ∧ Tbl.get 0 Ctr.hkDrop t.counters = 1)) = true := by
  decide +kernel
/-! ### Power and firmware cut-over -/

theorem witness_D1_ENTRY :
    let s := { base with power := { idleSince := 2 ^ 31 - 15625 } }
    canon s = true ∧ s.d1Due = true ∧ ends (exec .d1Entry s) (fun t => decide (t.power = { s.power with dstate := .d1 } ∧
      t.bough 0 = { s.bough 0 with switch := .opened } ∧ t.bough 127 = { s.bough 127 with switch := .opened })) = true := by decide +kernel

theorem witness_SWITCH_OPEN :
    let s := { base with boughs := [(127, { lastGrant := 2 ^ 31 - 1024 })] }
    canon s = true ∧ s.awake = true ∧ s.switchIdle 127 = true ∧ ends (exec (.boughSwitchOpen 127) s) (fun t => sameBut [.boughs] s t &&
      decide (t.bough 127 = { s.bough 127 with switch := .opened } ∧ t.bough 0 = s.bough 0)) = true := by decide +kernel

theorem witness_SWITCH_READY :
    let s := { base with boughs := [(3, { switch := .closing, waiting := [1] })] }
    canon s = true ∧ (s.bough 3).switch = .closing ∧ ends (exec (.boughSwitchReady 3) s) (fun t =>
      decide ((t.bough 3).switch = .closed ∧ (t.bough 3).waiting = [])) = true := by decide +kernel

/-- Table 17-4: at PWR_LIMIT 1,650 W one window brings 2,703,360 nJ. -/
theorem witness_PACER_WINDOW :
    base.awake = true ∧ base.ticking = true ∧ base.power.dstate ≠ .d3 ∧ base.power.windowAt + 256 ≤ base.now ∧
    ends (exec .pacerWindow base) (fun t => decide (t.power.account = 2703360 ∧ t.power.windowAt = 256 ∧
      t.power.policy.pwrPeak = base.regs.pwrPeak)) = true := by decide +kernel

theorem witness_ENERGY_SCALE :
    base.mgmtUp = true ∧ base.power.scaledAt + 2 ^ 24 ≤ base.now ∧ 65536 * 1000 / 1000 ≤ base.power.scale + 1024 ∧
    ends (exec (.energyScale 1000 1000) base) (fun t => sameBut [.power] base t && decide (t.power.scale = 65536 ∧ t.power.energy = 1000))
      = true ∧ ends (exec (.energyScale 1000 2000) base) (fun t => decide (t.power.scale = 65536 + 1024)) = true := by decide +kernel

/-- Table 17-3: level 3 is 670 mV. -/
theorem witness_LEVEL_STEP :
    let s := { base with power := { stepTo := some 3 }, regs := { base.regs with levelReq := 3 } }
    canon s = true ∧ State.levelMv 3 ≤ 680 + 10 ∧ 680 ≤ State.levelMv 3 + 10 ∧
    ends (exec (.levelStepSettled 680) s) (fun t => decide (t.regs.level = 3 ∧ t.regs.setBy = 0 ∧
      Tbl.get 0 Ctr.levelChanges t.counters = 1)) = true ∧ ends (exec (.levelStepSettled 681) s) (fun _ => true) = false := by decide +kernel

theorem witness_LEVEL_TIMEOUT : { base with power := { stepTo := some 3 } }.power.stepTo = some 3 := rfl

theorem witness_FLOOR_RETURN :
    let s := { base with tick := 2 ^ 33, power := { regFloor := 3, warnAt := 2 ^ 32 } }
    0 < s.power.regFloor ∧ s.power.warnAt + 2 ^ 32 ≤ s.now ∧ ends (exec .regulatorFloorReturn s) (fun t =>
      decide (t.power.regFloor = 2 ∧ t.power.warnAt = 2 ^ 33)) = true := by decide +kernel

/-- An entry to D2 at a step. -/
def entering (step : Nat) (abort : Bool) : State :=
  let j := base.jobOf (powerTo 2)
  { base with jobs := [j], power := { entry := some { target := .d2, step := step, abort := abort, job := j, runs := [], before := .d0 } } }

theorem witness_ENTRY_STEP :
    canon (entering 1 false) = true ∧ (entering 1 false).tiles = [] ∧
    ends (exec .entryStepDone (entering 1 false)) (fun t => decide ((t.power.entry.map fun e => e.step) = some 2)) = true ∧
    ends (exec .entryStepDone (entering 4 true)) (fun t => decide (t.power.entry = none ∧ t.power.dstate = .d0) &&
      wrote (entering 4 true) t .eq (.mgmt 7 .notIdle 0x41 0 0 (2 ^ 31))) = true ∧
    ends (exec .entryStepDone (entering 4 false)) (fun t => wrote (entering 4 false) t .eq (.mgmt 7 .ok 0x41 0 0 (2 ^ 31))) = true := by
  decide +kernel

theorem witness_ENTRY_END :
    ends (exec .entryStepDone (entering 5 false)) (fun t => decide (t.power.entry = none ∧ t.power.dstate = .d2 ∧ t.power.wake = none) &&
      !t.readyBit 7) = true ∧
    ends (exec .entryStepDone (entering 5 true)) (fun t => decide (t.power.dstate = .d2) && t.power.wake.isSome) = true := by decide +kernel

theorem witness_WAKE :
    let s := { base with power := { dstate := .d2, railsOff := [0x41, 0x42] } }
    let w := { base with power := { dstate := .d2, wake := some { from_ := .d2, phase := 1, job := none } } }
    s.wakeDue (.doorbell 0) = true ∧ ends (exec (.wake (.doorbell 0)) s) (fun t => sameBut [.power, .out] s t &&
      decide (t.power.wake = some { from_ := .d2, phase := 0, job := none }) && (emitted s t).contains (.rail 0x41 0 1000)) = true ∧
    w.wakeDue .relayFlit = true ∧ ends (exec (.wake .relayFlit) w) (fun t => sameBut [] w t) = true ∧
    (entering 2 false).wakeDue .powerD0 = true ∧
    ends (exec (.wake .powerD0) (entering 2 false)) (fun t => sameBut [.power] (entering 2 false) t &&
      decide ((t.power.entry.map fun e => e.abort) = some true)) = true ∧
    { base with power := { dstate := .d3 } }.wakeDue (.signal .t) = true := by decide +kernel

/-- A wake from a state in a phase. -/
def waking (d : DState) (phase : Nat) (j : Option Job) : State :=
  { base with power := { dstate := d, wake := some { from_ := d, phase := phase, job := j } } }

theorem witness_WAKE_PHASE :
    let j := base.jobOf (powerTo 0)
    (waking .d2 0 none).wakePhaseDue { from_ := .d2, phase := 0, job := none } = true ∧
    ends (exec .wakePhaseReady (waking .d2 0 none)) (fun t =>
      decide (t.power.wake = some { from_ := .d2, phase := 1, job := none })) = true ∧
    ends (exec .wakePhaseReady (waking .d3 2 none)) (fun t => decide (t.boot.phase = .warmStart) && t.stepDone? 1 && !t.stepDone? 2) = true ∧
    ends (exec .wakePhaseReady { waking .d2 3 (some j) with jobs := [j] }) (fun t => decide (t.power.wake = none ∧ t.power.dstate = .d0) &&
      wrote base t .eq (.mgmt 7 .ok 0x41 0 0 (2 ^ 31))) = true := by decide +kernel

theorem witness_WAKE_end_D3 :
    let s := { waking .d3 3 none with boot := { phase := .warmStart, done := 0x1FE } }
    s.wakePhaseDue { from_ := .d3, phase := 3, job := none } = true ∧
    ends (exec .wakePhaseReady s) (fun t => decide (t.power.dstate = .d0 ∧ t.boot.phase = .running)) = true := by decide +kernel

theorem witness_WAKE_TIMEOUT : (waking .d2 1 none).power.wake = some { from_ := .d2, phase := 1, job := none } ∧
    (waking .d2 1 none).boot.failedStep = none := by decide

theorem witness_SWITCH_POINT :
    let j := staged.jobOf (desc .mq 0x43 [(64, 1)])
    let s := { staged with sec := { staged.sec with cutover := some { slot := 1, job := j, switched := false, switchTick := 0 } } }
    s.switchDue = true ∧ ends (exec .switchPoint s) (fun t => t.drains.any fun d =>
      decide (d.scope = .all ∧ d.why = .switchPoint ∧ d.start = s.now)) = true := by decide +kernel

theorem witness_switch_drain :
    let j := staged.jobOf (desc .mq 0x43 [(64, 1)])
    let s := { staged with
      sec := { staged.sec with cutover := some { slot := 1, job := j, switched := false, switchTick := 0 } }
      drains := [{ scope := .all, why := .switchPoint, start := 5, waiting := [] }] }
    (s.drains.find? s.drainReady).isSome = true ∧ ends (exec .drainComplete s) (fun t =>
      decide (t.sec.runSlot = 1 ∧ t.boot.dogServed = false)) = true := by decide +kernel

theorem witness_CUTOVER_DONE :
    let j := base.jobOf (desc .mq 0x43 [(64, 1)])
    let s := { base with jobs := [j], sec := { heldEvents := [{ code := 0x1103 }], cutover := some { slot := 1, job := j, switched := true, switchTick := 9 } } }
    canon s = true ∧ ends (exec .fwCutoverDone s) (fun t => decide (t.sec.cutover = none ∧ t.sec.heldEvents = []) &&
      decide (t.recordsOn .eq = s.recordsOn .eq ++ [.event { code := 0x1103 }, .mgmt 7 .ok 0x43 0 0 (2 ^ 31), .event {
        code := 0x1202, tick := 2 ^ 31
        own := own [(40, 1, 1), (44, 4, 0), (48, 8, 2 ^ 31 - 9)] }])) = true := by decide +kernel
/-! ### Tiles, sums, calibration and weight events -/

/-- Work of call 0. -/
def work0 : WorkRef := { call := 0, step := 0, token := 0 }

/-- The one column tile of matrix 1 for it. -/
def key0 : SumKey := { work := work0, matrix := 1, colTile := 0 }

/-- A block whose first code is given, at scale 2^0. -/
def block1 (c : Int) : Block := { scale := 127, codes := c :: List.replicate 31 0 }

/-- The request of its product, some transfers needed. -/
def issue0 (needs : Nat) : ProductReq :=
  { key := key0, rowTile := 0, transposed := false, needs := needs }

/-- Its input vector in the activation buffer. -/
def act0 : ActVec :=
  { work := work0, matrix := 1, transposed := none, a8 := true, blocks := [block1 100, block1 0], outliers := [(5, 0x3F800000)], unit := 0 }

/-- A warm device that runs step 0 of call 0. -/
def working : State := { warm with calls := [(0, callOf .running)], steps := [stepOf 0], acts := [act0] }

/-- Tile 0 with something put in. -/
def onTile (s : State) (f : Tile → Tile) : State := s.modTile 0 f

/-- The product issued and its first phase running. -/
def inFlight : State := working.request (issue0 0)

/-- A state with its product changed. -/
def onProd (s : State) (f : Prod → Prod) : State := { s with prods := s.prods.map f }

theorem witness_TileFrame : Instr.family (.refReady ⟨0, []⟩) = .tile ∧
    ends (exec (.refReady ⟨127, []⟩) { base with boughs := [(127, { ref := .warming 5 })] })
      (sameBut (Instr.reach (.refReady ⟨0, []⟩)) { base with boughs := [(127, { ref := .warming 5 })] }) = true := by decide +kernel

theorem witness_PRODUCT_ISSUE :
    working.vecOk key0 none none = true ∧ working.takeVec key0 none none = working ∧ working.canIssue (issue0 0) = true ∧
    ends (exec (.productIssue ⟨(issue0 0), none⟩) working) (fun t => decide (t.nextProd = 1) &&
      t.prods.any (fun p => decide (p.codes.head? = some 100 ∧ p.high.head? = some 6 ∧ p.low.head? = some 4 ∧ p.plan.length = 2)) &&
      decide ((t.tile 0).active = .product 0)) = true ∧
    working.canIssue (issue0 1) = true ∧ ends (exec (.productIssue ⟨(issue0 1), none⟩) working) (fun t =>
      sameBut [.counters, .xferWaits] working t && decide (t.xferWaits = [issue0 1])) = true := by decide +kernel

/-- An embedding of 64 elements a token, and a vector that it feeds: its one element of 100 is an outlier. -/
def embed9 : Mat := { lmHead4 with id := 9, kind := 2, inputs := 4, outputs := 64 }

def vec9 : VecIn := { source := 9, a8 := true, values := 0x42C80000 :: 0x40000000 :: List.replicate 62 0 }

theorem witness_PRODUCT_ISSUE_vec :
    let s := { working with acts := [], weights := { working.weights with gens := [genWith 5 true [lmHead4, embed9]] } }
    s.vecOk key0 none (some vec9) = true ∧ (s.takeVec key0 none (some vec9)).canIssue (issue0 0) = true ∧
    ends (exec (.productIssue ⟨(issue0 0), (some vec9)⟩) s) (fun t => t.prods.any fun p =>
      decide (p.codes.take 2 = [0, 64] ∧ p.inline = [(0, 0x42C80000)])) = true := by decide +kernel

theorem witness_TRANSFER_DONE :
    let p : Placement := { layout := 0, position := 0, chainLength := 1, imageId := 5, mats := [lmHead4], decks := [(0, 0)],
                           xfers := List.replicate 3 { kind := 0, die := 0, back := 0, src := 0, dst := 0, len := 0 }, raw := [] }
    let s := { working with weights := { working.weights with gens := [{ genOf 5 true with placement := some p }] }, xferWaits := [issue0 2, issue0 3] }
    (s.step? 0 0).any (fun x => decide (x.xferDone < 2)) = true ∧ 2 ≤ s.xferCount work0 ∧ s.affordable 6 = true ∧
    ends (exec (.transferDone work0 ⟨2, []⟩) s) (fun t => decide (t.xferWaits = [issue0 3] ∧ t.nextProd = 1) &&
      (t.step? 0 0).any fun x => decide (x.xferDone = 2)) = true := by decide +kernel

theorem witness_PHASE_END :
    let codes := [10, -128] ++ List.replicate 510 0
    (inFlight.tile 0).active = .product 0 ∧ (inFlight.prod? 0).any (fun p => p.plan.head? == some (true, 0, 1024) &&
      p.outputs == 512 && p.hiVal.length == 512 && p.loVal.length == 512) = true ∧ Instr.wf (.phaseEnd 0 codes) = true ∧
    ends (exec (.phaseEnd 0 codes) inFlight) (fun t => (t.prod? 0).any fun q => decide (q.plan.length = 1 ∧
      q.hiVal.take 2 = [655360, -8388608] ∧ q.loVal.take 2 = [0, 0] ∧ q.clipped = [1])) = true ∧
    ends (exec (.phaseEnd 0 codes) (onProd inFlight fun p => { p with suspended := [0], plan := [(false, 0, 1024)] })) (fun t =>
      (t.prod? 0).any fun q => decide (q.plan = [] ∧ q.hiVal.take 2 = [0, 0] ∧ q.loVal.take 2 = [0, -8388608])) = true := by
  decide +kernel

theorem witness_FORCED_GAP :
    let s := { onTile working (fun x => { x with queue := [0], active := .progStep }) with
      boughs := [(0, { ref := .ready, runOn := true })] }
    canon s = true ∧ s.grantsOpen = true ∧ s.tileGone 0 = false ∧ (s.tile 0).queue ≠ [] ∧ s.gapOverdue 0 = true ∧
    ends (exec (.forcedGap 0) s) (fun t => sameBut [.counters, .tiles] s t && (t.tile 0).forced) = true := by decide +kernel

theorem witness_BOUGH_DRAIN_ACK :
    let s := { base with drains := [{ scope := .all, why := .switchPoint, start := 5, waiting := [0, 127] }] }
    (s.drains.head?.any fun d => s.boughEmpty 127 d) = true ∧ ends (exec (.boughDrainAck 127) s) (fun t => sameBut [.drains] s t &&
      decide (t.drains.map (fun d => d.waiting) = [[0]])) = true := by decide +kernel

theorem witness_DRAIN_COMPLETE :
    let d : Drain := { scope := .partition 0, why := .preempt 0, start := 5, waiting := [] }
    let s := { base with calls := [(0, callOf .running)], drains := [d] }
    canon s = true ∧ s.drains.find? s.drainReady = some d ∧
    ends (exec .drainComplete s) (fun t => decide (t.drains = [] ∧ (t.call 0).state = .drained)) = true := by decide +kernel

/-- A program run of deck 1 at row 1,022. -/
def run1 (resets iter : Nat) : ProgJob :=
  { deck := 1, takeId := 2, matrix := 1, image := 5, rowTile := 0, colTile := 0, row := 1022, resets := resets, iter := iter, started := true }

/-- Tile 0 programming. -/
def progging (j : ProgJob) : State := onTile warm fun x => { x with active := .progStep, jobs := [j] }

/-- A verify read of row 1,022, whose weight codes are 0: the reference cells at the levels of Table 02-10, eight codes a level, but
for the last cell, which reads `last` (96 is its level 12; 99 is outside the window). -/
def read1 (last : Nat) (driver : Bool) : ProgRead :=
  { codes := List.replicate 1056 0 ++ [96, 0, 64, 0, 32, 0, 8, 0, 0, 8, 0, 32, 0, 64, 0, last], driver := driver }

theorem witness_PROGRAM_STEP_END :
    canon (progging (run1 0 0)) = true ∧ (progging (run1 0 0)).tileGone 0 = false ∧ ((progging (run1 0 0)).tile 0).jobs = [run1 0 0] ∧
    ends (exec (.programStepEnd 0 (read1 96 true)) (progging (run1 0 0))) (fun t => (t.tile 0).retired) = true ∧
    ends (exec (.programStepEnd 0 (read1 99 false)) (progging (run1 0 0))) (fun t =>
      decide ((t.tile 0).jobs = [run1 1 0])) = true := by decide +kernel

theorem witness_PROGRAM_STEP_END_again :
    ends (exec (.programStepEnd 0 (read1 99 false)) (progging (run1 2 22))) (fun t =>
      decide ((t.tile 0).jobs = [run1 2 23])) = true := by decide +kernel

theorem witness_PROGRAM_STEP_END_failed :
    ends (exec (.programStepEnd 0 (read1 99 false)) (progging (run1 2 23))) (fun t =>
      (t.tile 0).jobs.any fun j => decide (j.row = 1023 ∧ j.iter = 0 ∧ j.failed = [535] ∧ j.cells = 1)) = true := by decide +kernel

theorem witness_PROGRAM_STEP_END_done :
    ends (exec (.programStepEnd 0 (read1 96 false)) (progging (run1 2 3))) (fun t =>
      (t.tile 0).jobs.any fun j => decide (j.row = 1023 ∧ j.iter = 0 ∧ j.failed = [] ∧ j.cells = 0)) = true := by decide +kernel

theorem witness_PROGRAM_STEP_OWED :
    let s := onTile warm fun x => { x with owing := true }
    canon s = true ∧ (s.tile 0).owing = true ∧ ends (exec (.programStepOwed 0) s) (fun t => decide ((t.tile 0).owed = true ∧
      (t.tile 0).owing = false)) = true := by decide +kernel

/-- Deck 0 of tile 0 at a tick. -/
def agedDeck (tick age : Nat) : State := { warm.modDeck 0 0 (fun k => { k with recAge := age }) with tick := BitVec.ofNat 64 tick }

theorem witness_DECK_AGE :
    canon (agedDeck (2 ^ 39) 5) = true ∧ ((agedDeck (2 ^ 39) 5).tile 0).mfgBad = false ∧
    ends (exec (.deckAgeRecord 0 0) (agedDeck (2 ^ 39) 5)) (fun t => sameBut [.tiles] (agedDeck (2 ^ 39) 5) t &&
      decide ((t.deck 0 0).ageFrom = 2 ^ 39 ∧ (t.deck 0 0).recAge = 2 ^ 39 + 5)) = true ∧
    2 ^ 45 ≤ (agedDeck 0 (2 ^ 45)).ageOf ((agedDeck 0 (2 ^ 45)).deck 0 0) ∧
    ends (exec (.driftAgeLimit 0 0) (agedDeck 0 (2 ^ 45))) (fun t => decide ((t.deck 0 0).state = .drifted ∧
      t.weights.drifted = [(0, 0)])) = true := by decide +kernel

theorem witness_DRIFT_UPDATE_premises (b : Nat) (hb : b < 128) :
    let s := { warm with trims := [0] }
    canon s = true ∧ s.running = true ∧ s.ticking = true ∧ b < 128 ∧ s.trims ≠ [] ∧ Tbl.wf {} (s.tile 0).decks = true ∧
    Tbl.has 0 (s.tile 0).decks = true := ⟨by decide +kernel, by decide, rfl, hb, by decide, by decide +kernel, by decide +kernel⟩

theorem witness_REFERENCE_SWEEP :
    let codes : List Int := List.replicate 512 0
    let s := warm.modDeck 0 0 fun k => { k with sweeps := 3 }
    canon s = true ∧ Instr.wf (.referenceSweep 0 0 codes) = true ∧ s.gap 0 = true ∧ s.deckReadable 0 0 = true ∧ s.sweepFails 0 0 codes = true ∧
    ends (exec (.referenceSweep 0 0 codes) s) (fun t => decide ((t.deck 0 0).sweeps = 0 ∧ (t.deck 0 0).sweptAt = s.now ∧
      (t.deck 0 0).state = .drifted)) = true := by decide +kernel

theorem witness_CLAPPER_PHASE :
    let ok : List Int := List.replicate 512 0
    let bad : List Int := 127 :: List.replicate 511 0
    canon warm = true ∧ Instr.wf (.clapperPhase 0 0 ⟨bad, .check⟩) = true ∧ warm.hasClapper 0 0 = true ∧ warm.gap 0 = true ∧
    State.anyDeck (warm.sweepDue 0) = false ∧ warm.deckReadable 0 0 = true ∧
    warm.clapperFails 0 0 0 ok = [] ∧ (warm.clapperFails 0 0 0 bad).map (fun x => x.1) = [0] ∧
    ends (exec (.clapperPhase 0 0 ⟨ok, .check⟩) warm) (fun t => decide ((t.deck 0 0).claps = 1 ∧ (t.tile 0).repeat_ = none)) = true ∧
    ends (exec (.clapperPhase 0 0 ⟨bad, .check⟩) warm) (fun t => decide ((t.deck 0 0).claps = 1 ∧ (t.deck 0 0).clappedAt = warm.now) &&
      (t.tile 0).repeat_.isSome) = true := by decide +kernel

theorem witness_FIT_PHASE :
    let s := warm.modDeck 0 0 fun k => { k with fitted := false, state := .ready }
    canon s = true ∧ s.gap 0 = true ∧ State.anyDeck (s.sweepDue 0) = false ∧ s.deckReadable 0 0 = true ∧ (s.deckSlot 0 0).isSome = true ∧
    s.fitDue 0 0 false = true ∧ ends (exec (.clapperPhase 0 0 ⟨(List.replicate 512 0), .fit⟩) s) (fun t =>
      decide ((t.deck 0 0).fitNo = (s.deck 0 0).fitNo + 1 ∧ (t.deck 0 0).fit.forward = 1)) = true := by decide +kernel

/-- A transposed matrix asks for transposed fit phases. -/
theorem witness_FIT_PHASE_transposed :
    let s := (warm.modDeck 0 0 fun k => { k with fitted := false, state := .ready })
    let u := { s with weights := { s.weights with gens := [genWith 5 true [{ lmHead4 with transposed := true }]] } }
    u.gap 0 = true ∧ State.anyDeck (u.sweepDue 0) = false ∧ (u.deckSlot 0 0).isSome = true ∧ u.fitDue 0 0 true = true ∧
    ends (exec (.clapperPhase 0 0 ⟨(List.replicate 1024 0), .fitTransposed⟩) u) (fun t => decide ((t.deck 0 0).fit.transposed = 1)) = true := by
  decide +kernel

theorem witness_VERIFY_READ :
    let row : Bytes := List.replicate 256 0x11
    canon warm = true ∧ Instr.wf (.verifyRead 0 0 row) = true ∧ warm.gap 0 = true ∧ (warm.deck 0 0).verified = false ∧
    State.anyDeck (warm.sweepDue 0) = false ∧ State.anyDeck (warm.clapperDue 0) = false ∧ (warm.deck 0 0).unverified = false ∧
    ends (exec (.verifyRead 0 0 row) warm) (fun t => decide ((t.deck 0 0).verifying = row ∧ (t.deck 0 0).verified = false)) = true := by
  decide +kernel

theorem witness_VERIFY_READ_last (v row : Bytes) (hv : v.length = 261888) (hr : row.length = 256) :
    262144 ≤ (((warm.modDeck 0 0 fun k => { k with verifying := v }).deck 0 0).verifying.length + 256) ∧ row.length = 256 :=
  ⟨by show 262144 ≤ v.length + 256; omega, hr⟩

/-- Bits a and b of word 0 and bit a of word 1: one failing row and one syndrome bit, so word 1 is miscorrected (Table 14-2). -/
def foolingFlips : Flips := { word := [(0, 0x21), (1, 0x01)], colpar := 0, rowpar := 0, cppar := false }

def cleanFlips : Flips := { word := [], colpar := 0, rowpar := 0, cppar := false }

theorem test_MISCORRECTED :
    classify foolingFlips = .corrected (some (1, 5)) ∧
    readWrong { block := 20, first := foolingFlips, second := cleanFlips } = [(1280, 0x21), (1288, 0x21)] ∧
    columnBits [1] [(1280, 0x21), (1288, 0x21)] = [(1280, 0x20)] ∧
    readWrong { block := 20, first := cleanFlips, second := foolingFlips } = [] := by decide +kernel

theorem witness_OUTLIER_READ_RETURN :
    let bad : Flips := { word := [(0, 7)], colpar := 0, rowpar := 0, cppar := false }
    let s := onProd inFlight fun p => { p with inline := [], susp := [1024] }
    let lost : BlockRead := { block := 20, first := bad, second := bad }
    readOk lost = false ∧ inFlight.running = true ∧ inFlight.pulseRuns none = false ∧
    inFlight.affordable 4 = true ∧
    (inFlight.prod? 0).any (fun p => decide (p.inline = [(5, 0x3F800000)] ∧ State.nextRead p = some 5) && p.readsBlock 5 lost.block) = true ∧
    (inFlight.prod? 0).any (fun p =>
      decide ((addOutlier p (inFlight.prodSlot p) 5 0x3F800000).outSum.length = 512)) = true ∧
    readOk { block := 20, first := bad, second := cleanFlips } = true ∧
    (s.prod? 0).any (fun p => decide (State.nextRead p = some 1024) && p.readsBlock 1024 4092) = true := by decide +kernel

theorem test_OUTLIER_READ_RETURN_wrong :
    let s := onProd inFlight fun p => { p with inline := [], susp := [1025] }
    ends (exec (.outlierReadReturn 0 ⟨[{ block := 20, first := foolingFlips, second := cleanFlips }], []⟩) s) (fun t =>
      (t.prod? 0).any fun q => decide (q.susp = [] ∧ q.wrong = [(1280, 0x20)])) = true := by decide +kernel

theorem witness_OVERFLOW_PASS :
    let s := onTile (onProd inFlight fun p => { p with plan := [], inline := [], passNeeded := true, overflow := [(1023, 0x3F800000)] })
      fun x => { x with active := .idle, queue := [] }
    (s.prod? 0).any (fun p => s.passNext p) = true ∧ ends (exec (.overflowPass 0 []) s) (fun t => (t.prod? 0).any fun q =>
      decide (q.overflow = [] ∧ q.passNeeded = false ∧ q.outSum.length = 512)) = true ∧
    (s.prod? 0).any (fun p => p.passReads 4095) = true := by decide +kernel

/-- The product's phases and reads are over. -/
def summing : State :=
  onTile (onProd inFlight fun p => { p with plan := [], inline := [], loVal := 65536 :: p.loVal.drop 1 }) fun x => { x with active := .idle, queue := [] }

theorem witness_BOUGH_SUM :
    summing.readsSum key0 [] = true ∧ State.slowReads [] summing = summing ∧
    (summing.nextBough key0).any (fun x => decide (x.1 = 0 ∧ x.2.2.2.2.2 = [] ∧ x.2.2.2.2.1.key = key0)) = true ∧
    summing.graftFor key0 = none ∧ (summing.nextBough key0).any (fun x => decide (State.overflowing x.2.2.2.2.1.accs
      (summing.boughTotal x.2.2.2.1 x.2.1.exponent x.2.2.2.2.1.accs.length) = [])) = true ∧
    ends (exec (.boughSum key0 ⟨[], []⟩) summing) (fun t => t.sums.all fun x => decide (x.key ≠ key0)) = true := by decide +kernel

/-- A graft of rank 1 on matrix 1, and a call that uses it. -/
def grafted : State :=
  let g := graftOf 7 0
  { working with
    grafts := [{ g with rank := 1, entries := [(1, 0, 128)], alpha := 0x3F800000, body := List.replicate 256 0 }]
    calls := [(0, { callOf .running with hasGraft := true, graftHandle := g.handle, graftGen := g.generation })] }

theorem witness_GRAFT_TERM :
    grafted.vecOk key0 none none = true ∧ grafted.takeVec key0 none none = grafted ∧ (grafted.graftFor key0).isSome = true ∧
    grafted.graftReady key0 = true ∧ (grafted.sumContext key0).isSome = true ∧ grafted.affordable 5 = true ∧ grafted.unitHeld 160 = false ∧
    grafted.sums = [] ∧ ends (exec (.graftTerm key0 none []) grafted) (fun t => sameBut [.counters, .steps, .stage, .sums, .power] grafted t &&
      t.sums.any fun r => decide (r.key = key0) && r.graft.any fun y => decide (y.length = 4 ∧ y.all fun v => v == 0)) = true := by
  decide +kernel

/-- A graft engine whose slate is overdue is refused one grant. -/
theorem witness_GRAFT_TERM_held :
    let s := { grafted with faults := { slates := [(State.slateKey .graft, { overdue := true })] } }
    s.unitHeld 160 = true ∧ s.graftReady key0 = true ∧ s.affordable 5 = true ∧
    ends (exec (.graftTerm key0 none []) s) (fun t => sameBut [.faults] s t && !t.unitHeld 160) = true := by decide +kernel

theorem witness_CONT_CHECK_DONE :
    let s := { (onProd summing fun p => { p with sampledCh := some 0, summed := true }) with
      boughs := [(0, { ref := .ready, checks := [0] })], power := { account := 1000, charges := [(0, 5)] } }
    canon s = true ∧ (s.prod? 0).any (fun p => decide (p.plan = [] ∧ p.tile = 0)) = true ∧ (s.bough 0).checks = [0] ∧ s.affordableBy 4 0 = true ∧
    ends (exec (.contCheckDone 0) s) (fun t => decide ((t.bough 0).checks = [] ∧ t.power.account = 1000 - 4 * s.chargeOf 0)) = true := by
  decide +kernel

theorem witness_OUTLIER_WINDOW_END :
    let s := { base with histos := [{ matrix := 1, bins := [1], passes := 0 }, { matrix := 2, bins := [1], passes := 0 }] }
    s.running = true ∧ s.now % 2 ^ 30 = 0 ∧ ends (exec (.outlierWindowEnd 1) s) (fun t =>
      decide (t.histos = [{ matrix := 2, bins := [1], passes := 0 }])) = true := by decide +kernel

theorem witness_REF_READY :
    let s := { base with boughs := [(127, { ref := .warming 5 })] }
    canon s = true ∧ (s.bough 127).ref = .warming 5 ∧ ends (exec (.refReady ⟨127, []⟩) s) (fun t => decide ((t.bough 127).ref = .ready)) = true := by
  decide +kernel

theorem witness_CAL_RUN_END :
    let s (n : Nat) := { base with
      tiles := Tbl.mapVals {} id ((List.range 64).map fun k => (k, { retired := true }))
      boughs := [(0, { ref := .ready, runOn := true, runSum := 801, runCount := n })] }
    canon (s 2) = true ∧ (s 2).grantsOpen = true ∧ (s 2).liveTiles 0 = [] ∧ ends (exec (.calRunEnd 0 []) (s 2)) (fun t =>
      decide ((t.bough 0).runDone = true ∧ (t.bough 0).calTemp = some 400)) = true ∧
    ends (exec (.calRunEnd 0 []) (s 0)) (fun t => decide ((t.bough 0).calTemp = none ∧ ((t.bough 0).runOn = true ∨
      (t.bough 0).runPending = true))) = true := by decide +kernel

theorem witness_FIT_DONE :
    let cols : List FitSum := [{ index := 511, tv := 2 ^ 50, vv := 2 ^ 50, tt := 2 ^ 50 }]
    let rows : List FitSum := [{ index := 1023, tv := 17 * 2 ^ 46, vv := 2 ^ 50, tt := 2 ^ 50 }]
    let s := warm.modDeck 0 0 fun k => { k with fitted := false, fit := { cols := cols, rows := rows, forward := 128 } }
    canon s = true ∧ s.grantsOpen = true ∧ s.deckReadable 0 0 = true ∧ s.fitComplete 0 0 128 = true ∧ (newGains true [] cols).2 = [] ∧
    (newGains true [] rows).1 = [(1023, 34816)] ∧ ends (exec (.fitDone 0 0 128 0) s) (fun t => decide ((t.deck 0 0).fitted = true ∧
      (t.deck 0 0).colGain = [] ∧ (t.deck 0 0).rowGain = [(1023, 34816)])) = true := by decide +kernel

theorem witness_DECK_RETAKE :
    let s := { warm with weights := { warm.weights with drifted := [(0, 0)] } }.modDeck 0 0 fun k => { k with state := .drifted }
    canon s = true ∧ s.running = true ∧ s.nextRetake = some (0, 0) ∧ ends (exec (.deckRetake 0 0) s) (fun t =>
      decide (t.weights.nextTake = s.weights.nextTake + 1) && t.weights.takes.any fun x => decide (x.id = s.weights.nextTake ∧
        x.drift = some (0, 0) ∧ x.refresh = true)) = true := by decide +kernel

theorem witness_CHUNK_CONVERSION :
    let s := { warm with weights := { warm.weights with chunks := [{ image := 5, bytes := chunk64 }] } }
    s.weights.chunks = [{ image := 5, bytes := chunk64 }] ∧
    ends (exec .chunkConversion s) (fun t => decide (t.weights.chunks = [])) = true := by decide +kernel

/-- An image that fails; `witness_FW_FETCH_good` shows one that passes. -/
theorem witness_SIG_CHECK :
    let j := base.jobOf (desc .mq 0x42 [(64, 1)])
    let s := { base with sec := { queue := [.firmware [] 1 j], staging := some (1, j) } }
    canon s = true ∧ s.sec.queue = [.firmware [] 1 j] ∧ s.regs.boot = 0 ∧ s.fwReason [] = some 1 ∧
    ends (exec .sigCheck s) (fun t => decide (t.sec.staging = none ∧ t.sec.queue = []) &&
      wrote s t .eq (s.answerOf j (State.fwStatus 1) 0 0)) = true := by decide +kernel

theorem witness_EPOCH_DRAINED :
    let s := { served with weights := { served.weights with oldEpoch := true, epoch := 1 } }
    s.oldEpochLeft = true ∧ ends (exec .epochDrained s) (fun t => decide (t.weights.oldEpoch = false ∧ t.weights.oldBindings = [])) = true := by
  decide +kernel

/-! ### Attention and scheduling -/

/-- One query head on one KV head in layer 3, with no rotation. -/
def attn3 : Attn := { layer := 3, queryHeads := 1, kvHeads := 1, ropeBase := 0, window := 0 }

/-- A device that holds layer 3 and runs a step of call 0 whose token is number 64 (KV8); its second page is frame 9 of stack 5. -/
def attending (kind : StepKind) : State :=
  { base with
    weights := { gens := [{ genWith 5 true [layerMat] with attn := [(attn3, [])] }] }
    calls := [(0, { callOf .running with kvFormat := 0x21, pages := [(12289, 77)] })]
    steps := [{ stepOf 0 with kind := kind, first := 64 }] }

/-- A head vector of ones. -/
def ones : List F32 := List.replicate 128 0x3F800000

theorem witness_CallFrame :
    let s := { base with batch := some { firstTick := 5, calls := [], epoch := 0 } }
    Instr.family .batchWindowExpiry = .call ∧ ends (exec .batchWindowExpiry s) (sameBut (Instr.reach .batchWindowExpiry) s) = true := by
  decide +kernel

theorem witness_KV_APPEND :
    let s := attending .decode
    canon s = true ∧ s.canAppend work0 3 64 [ones] [ones] = true ∧ s.affordable 4 = true ∧ (s.step? 0 0).any (fun x => x.appended.isEmpty) = true ∧ (s.call 0).page 3 1 = 77 := by decide +kernel

/-- The first append of a page: its run is taken on the stack that R162 gives. -/
theorem witness_KV_APPEND_page :
    let s := { attending .decode with calls := [(0, { callOf .running with kvFormat := 0x21 })] }
    canon s = true ∧ (s.call 0).page 3 1 = 0 ∧ (s.step? 0 0).isSome = true := by decide +kernel

/-- The append has been written. -/
def appended (kind : StepKind) : State :=
  { attending kind with
    calls := [(0, { callOf .running with kvFormat := 0x21, pages := [(12288, 69), (12289, 77)] })]
    steps := [{ stepOf 0 with kind := kind, first := 64, appended := [3 * 2 ^ 20 + 64] }] }

/-- A read of a block with three bits of a word flipped. -/
def threeFlips : Flips := { word := [(0, 7)], colpar := 0, rowpar := 0, cppar := false }

theorem witness_TAPROOT_ATTENTION :
    let s := appended .decode
    canon s = true ∧ s.canAttend work0 3 [ones] = true ∧ (s.attnSpan work0).any (fun x => decide (x.pos work0 = 64 ∧ x.limit = 65 ∧
      State.pageFlips 0x21 (s.latched work0 x 3) attn3 (x.pos work0) x.limit [] = [])) = true ∧ s.attnRecordOf work0 3 = some attn3 ∧
    s.affordable 5 = true ∧ (s.cmdUnits (.taproot work0 3 [ones] [])).all (fun k => !s.unitHeld k) = true ∧
    ends (exec (.taprootAttention work0 3 [ones] ⟨[], 1, []⟩) s) (fun t => sameBut [.counters, .attnWaits] s t &&
      decide (t.attnWaits = [{ needs := 1, cmd := .taproot work0 3 [ones] [] }])) = true := by decide +kernel

theorem witness_TAPROOT_lost :
    let s := appended .decode
    (State.pageFlips 0x21 ((s.call 0).layerPages 3) attn3 64 65 [(1, 0, 0, threeFlips)]).any (fun f => classify f.2 == .uncorrectable) = true ∧
    ends (exec (.taprootAttention work0 3 [ones] ⟨[(1, 0, 0, threeFlips)], 0, []⟩) s) (fun t =>
      decide ((t.call 0).ended = true ∨ (t.call 0).state = .free)) = true := by decide +kernel

theorem test_TAPROOT_wrong :
    let s := appended .decode
    let fl := State.pageFlips 0x21 ((s.call 0).layerPages 3) attn3 64 65 [(1, 0, 0, foolingFlips)]
    fl.any (fun f => classify f.2 == .corrected (some (1, 5))) = true ∧
    (fl.all fun f => decide ((s.asDelivered fl).readByte (f.1 + 8) = s.readByte (f.1 + 8) ^^^ 0x21)) = true := by decide +kernel

theorem witness_CANOPY_BLOCK :
    let s := appended .prefill
    s.canCanopy 1 work0 3 0 0 [[ones]] = true ∧ s.affordable 5 = true ∧ s.unitHeld 145 = false ∧
    (s.attnSpan work0).any (fun x => decide (x.first = 64 ∧ x.n = 1)) = true ∧
    State.lastKeyTile 64 1 0 < (s.canopyRowOf 1 work0 3 0 0 64 1 attn3).nextKey + 1 := by decide +kernel

theorem witness_CANOPY_BLOCK_row :
    let s := { appended .prefill with steps := [{ stepOf 0 with kind := .prefill, first := 256, appended := [3 * 2 ^ 20 + 256] }] }
    (s.attnSpan work0).any (fun x => decide (x.first = 256 ∧ x.n = 1)) = true ∧ (s.canopyRowOf 1 work0 3 0 0 256 1 attn3).nextKey + 1 ≤ State.lastKeyTile 256 1 0 := by
  decide +kernel

/-- A KV block of the row's first key tile is lost: the call ends with KV_UNCORR (Table 14-4). -/
theorem witness_CANOPY_BLOCK_lost :
    let s := appended .prefill
    let fl := State.tileFlips 0x21 ((s.call 0).layerPages 3) 1 0 0 64 [(1, 2, 3, threeFlips)]
    (s.canopyRowOf 1 work0 3 0 0 64 1 attn3).nextKey = 0 ∧ fl.map (fun f => f.1) = [pageAddr 77 + sectionOff 0x21 1 2 + 192] ∧
    ends (exec (.canopyBlock 1 work0 3 0 0 ⟨some [[ones]], 0, [(1, 2, 3, threeFlips)]⟩) s) (fun t =>
      decide ((t.call 0).ended = true ∨ (t.call 0).state = .free)) = true := by decide +kernel

/-- The stack's own ECC has corrected a bit of a block of stack 7 that the lattice finds sound (R307). -/
theorem test_HBM_ONDIE_CORR :
    Tbl.get 0 (Ctr.hbmOndieCorr 7) (base.noteRead (7 * stackBytes + 64) 0 { cleanFlips with onDie := true }).counters = 1 := by
  decide +kernel

/-- An output projection of layer 3 for one query head. -/
def projMat : Mat := { lmHead4 with id := 4, kind := 0, layer := 3, inputs := 128, outputs := 64, transposed := true }

/-- A tuning step of one token whose forward attention output and dO are there. -/
def tuning : State :=
  { base with
    weights := { gens := [{ genWith 5 true [layerMat, projMat] with attn := [(attn3, [])] }] }
    calls := [(0, { callOf .running with
      tune := some { handle := 2, steps := 1, resultAddr := 0, resultLen := 0, examples := [], reports := [], checked := true,
                     stepsDone := 0, sections := [] } })]
    steps := [{ stepOf 0 with kind := .prefill, first := 0, attn := [{ layer := 3, token := 0, head := 0, out := List.replicate 128 0 }] }]
    handoffs := [{ key := { work := work0, matrix := 4, colTile := 65536 }, kind := 1, unit := 0, accs := List.replicate 128 Acc.zero,
                   exponent := 0, unbounded := false }] }

/-- The group's one block: dQ, dK and dV of the token join the step. -/
theorem witness_CANOPY_BLOCK_backward :
    tuning.canBack 2 work0 3 0 0 = true ∧ tuning.affordable 5 = true ∧ tuning.unitHeld 146 = false ∧
    (tuning.attnSpan work0).any (fun x => decide (x.first = 0 ∧ x.n = 1)) = true ∧ tuning.attnRecordOf work0 3 = some attn3 := by
  decide +kernel

theorem witness_BATCH_OPEN :
    let s := { served with calls := [(0, { callOf .ready with prefilled := 4, kvLen := 4, carried := some 1, lastToken := 1 })] }
    s.batchDue = true ∧ s.isFirst = true ∧ ends (exec .batchOpen s) (fun t => decide (t.batchNo = s.batchNo + 1 ∧ (t.call 0).state = .running ∧
      t.steps.length = 1)) = true := by decide +kernel

theorem witness_BATCH_WINDOW_EXPIRY :
    let b : Batch := { firstTick := 2 ^ 31, calls := [], epoch := 0 }
    let s := { base with batch := some b }
    b.firstTick + s.sched.batchWindow ≤ s.now ∧ ends (exec .batchWindowExpiry s) (fun t => decide (t.batch = none)) = true := by
  decide +kernel

/-- A decoding step that stands at its commit: token 1 has the largest logit. -/
def committing (f : Entry → Entry) (g : Step → Step) : State :=
  { served with
    calls := [(0, f { callOf .running with step := 3, prefilled := 4, generated := 1, kvLen := 5 })],
    steps := [g { stepOf 3 with logits := [(0, [0, 0x3F800000, 0, 0])] }] }

theorem witness_STEP_COMMIT :
    let s := committing id id
    canon s = true ∧ s.commitDue 0 = true ∧ (s.oldestStep 0).any (fun x => s.mayCommit x &&
      (s.sampleStep x).any fun o => decide (o.tokens = [1]) &&
        decide (s.endStatus { s.committedEntry (s.call 0) x o.tokens with matteState := o.matteState } x o = none)) = true ∧
    s.tokenRingFull 0 = false ∧ ends (exec (.stepCommit 0) s) (fun t => decide ((t.call 0).generated = 2 ∧ (t.call 0).step = 4 ∧
      (t.call 0).stepsDone = 1 ∧ (t.call 0).kvLen = 6)) = true := by decide +kernel

theorem witness_STEP_COMMIT_ring :
    let s := { committing id id with rings := [(0, inRing), (7, { outRing with pos := 64 })] }
    s.commitDue 0 = true ∧ s.tokenRingFull 0 = true ∧ ends (exec (.stepCommit 0) s) (fun t => (t.step? 0 3).any fun y => y.ringWaited) =
      true := by decide +kernel

theorem witness_STEP_COMMIT_mask :
    let s := { committing (fun e => { e with hasMatte := true, matteHandle := 6 }) id with mattes := [matteOf matteBytes] }
    s.commitDue 0 = true ∧ (s.oldestStep 0).any (fun x => decide (s.sampleStep x = none)) = true ∧
    ends (exec (.stepCommit 0) s) (fun t => (t.step? 0 3).any fun y => y.waitsMask && y.maskWaited) = true := by decide +kernel

theorem witness_STEP_COMMIT_prefill :
    let s := committing (fun e => { e with prefilled := 0, generated := 0, kvLen := 0 })
      fun x => { x with kind := .prefill, tokens := [1, 2, 3], samples := false }
    s.commitDue 0 = true ∧ ends (exec (.stepCommit 0) s) (fun t => decide ((t.call 0).prefilled = 3 ∧ (t.call 0).kvLen = 3 ∧
      (t.call 0).generated = 0)) = true := by decide +kernel

theorem witness_DEADLINE_SCAN :
    let s := { base with calls := [(0, { callOf .ready with deadline := 2 ^ 31 }), (1, { callOf .ready with deadline := 2 ^ 31 + 1, tag := 10 })] }
    canon s = true ∧ s.now % 2 ^ 10 = 0 ∧ s.awake = true ∧ s.scanned = [0] ∧ ends (exec .deadlineScan s) (fun t =>
      decide (((t.call 0).ended = true ∨ (t.call 0).state = .free) ∧ t.call 1 = s.call 1)) = true := by decide +kernel

theorem witness_BUDGET_REFILL :
    let k : Customer := { valid := true, capacity := 100, refill := 10, interval := 2 ^ 10, level := -300, nextRefill := 2 ^ 31 }
    let s := { base with customers := [(3, k)], calls := [(0, callOf .parked)] }
    canon s = true ∧ k.nextRefill ≤ s.now ∧ ends (exec (.budgetRefill 3) s) (fun t =>
      decide ((t.customer 3) = State.refilled k s.now ∧ s.now < (t.customer 3).nextRefill ∧ 0 < (t.customer 3).level ∧
        (t.call 0).state ≠ .parked)) = true := by decide +kernel

/-- A premium step of call 1 that has waited beside a bulk chunk of call 0. -/
def waitingPremium (share : BitVec 16) : State :=
  { served with
    parts := [(0, { entryShare := 8, kvFrames := 1000, saveShare := share, enabled := true, groups := [(0, (0, 10))] })]
    calls := [(0, callOf .running), (1, { callOf .running with tag := 10, premium := true })]
    steps := [{ stepOf 0 with kind := .prefill }, { stepOf 0 with call := 1, premium := true, waitsSince := some 0 }]
    canopy := [{ lane := 3, work := { call := 0, step := 0, token := 0 }, layer := 0, group := 0, row := 0, nextKey := 0, acc := [], bad := [] }] }

theorem witness_PREEMPT :
    (waitingPremium 1).preemptDue 1 0 = true ∧ (waitingPremium 1).saveMiB 0 = 0 ∧
    ends (exec (.preempt 1 0) (waitingPremium 1)) (fun t => t.drains.any fun d => decide (d.why = .preempt 0 ∧ d.scope = .partition 0 ∧
      d.start = (waitingPremium 1).now)) = true ∧
    (waitingPremium 0).preemptDue 1 0 = true ∧
    ends (exec (.preempt 1 0) (waitingPremium 0)) (fun t => sameBut [.counters, .steps] (waitingPremium 0) t) = true := by decide +kernel

/-! ### Links, relay traffic and the partner -/

/-- The last position of a chain, number 1, that serves. -/
def lastPos : State :=
  { served with
    regs := { base.regs with chainPos := 1 },
    links := [(0, { state := .up, width := 8, present := true }), (1, { state := .up, width := 16, present := true }),
              (2, { state := .up, width := 16, present := true })] }

/-- A device in the middle of a chain with its partner there. -/
def paired : State := { linked with regs := { linked.regs with paired := true }, partner := { absent := false, timer := 2 ^ 31 } }

/-- `linked` with one of its ports changed. -/
def onPort (p : Port) (f : Link → Link) : State := linked.modLink p f

theorem witness_LinkFrame : Instr.family (.ack (hdr .u 0)) = .link ∧ flitReady linked (hdr .u 0) [.u] [0] = true ∧
    ends (exec (.ack (hdr .u 0)) linked) (sameBut (Instr.reach (.ack (hdr .u 0))) linked) = true := by decide +kernel

/-- A flit that port U holds for replay. -/
def held (n : BitVec 12) : SentFlit := { seq := n, channel := 1, body := .jack 0 9 3 0 }

theorem witness_ACK :
    let s := onPort .u fun l => { l with replay := [held 5, held 6], txSeq := 7 }
    let h := { hdr .u 0 with ackValid := true, ack := 5 }
    canon s = true ∧ s.accepts h = true ∧ ends (exec (.ack h) s) (fun t =>
      decide ((t.link .u).rxSeq = 1 ∧ (t.link .u).replay.head? = some (held 6))) = true ∧
    ends (exec (.ack (hdr .u 0)) s) (fun t => decide ((t.link .u).replay.take 2 = [held 5, held 6])) = true := by decide +kernel

theorem witness_NAK :
    let s := onPort .u fun l => { l with replay := [held 5, held 6], txSeq := 7 }
    canon s = true ∧ flitReady s (hdr .u 0) [.h, .t, .u, .d] [0] = true ∧ (s.link .u).replay.head?.map (fun x => x.seq) = some 5 ∧
    ends (exec (.nak (hdr .u 0) 5) s) (fun t => decide ((t.link .u).fails = 1) && sent s t .u 1 (.jack 0 9 3 0)) = true := by decide +kernel

/-- A NAK one of whose words is torn inside. -/
def torn0 : FlitHdr := { hdr .u 0 with torn := true }

theorem witness_torn :
    let s := { linked with tiles := pulsing.tiles }
    Instr.carriedBy (.nak torn0 5) = some (torn0, [.h, .t, .u, .d], [0]) ∧ canon linked = true ∧ linked.accepts torn0 = true ∧
    linked.running = true ∧ linked.pulseRuns none = false ∧
    ends (exec (.nak torn0 5) linked) (fun t => decide (t.boot.phase = .heldWarm ∧ t.boot.source = 6) &&
      sameBut (if Instr.torn (.nak torn0 5) = true then everyPiece else []) linked t) = true ∧
    canon s = true ∧ s.accepts torn0 = true ∧ s.pulseRuns none = true ∧
    ends (exec (.nak torn0 5) s) (fun t => decide (t.boot.phase = .running ∧ t.boot.heldReset = some (false, 6))) = true := by
  decide +kernel

/-- A wire unit of zeros: its type is 0. -/
def zeroWire : Bytes := List.replicate 262 0

/-- The bytes of a sound wire unit: type 1, sequence number 1, even parity. -/
def soundBytes : Bytes := [1, 0, 1, 0] ++ List.replicate 256 0

def soundWire : Bytes := soundBytes ++ [16, 59]

/-- CRC-16 that goes on from a remainder. -/
def crcFrom (c : Nat) (bs : Bytes) : Nat :=
  bs.foldl (fun c b => (List.range 8).foldl (fun c _ => if c % 2 = 1 then (c / 2) ^^^ 0x8408 else c / 2) (c ^^^ b.toNat)) c

theorem crcFrom_append (c : Nat) (a b : Bytes) : crcFrom c (a ++ b) = crcFrom (crcFrom c a) b := List.foldl_append

/-- The CRC of the sound unit, 32 bytes at a time. -/
theorem soundCrc : crc16 soundBytes = 15120 := by
  have h : soundBytes = [1, 0, 1, 0] ++ List.replicate 32 0 ++ List.replicate 32 0 ++ List.replicate 32 0 ++ List.replicate 32 0 ++
      List.replicate 32 0 ++ List.replicate 32 0 ++ List.replicate 32 0 ++ List.replicate 32 0 := by decide +kernel
  show crcFrom 0xFFFF soundBytes = 15120
  rw [h]
  simp only [crcFrom_append]
  have h0 : crcFrom 0xFFFF [1, 0, 1, 0] = 1602 := by decide +kernel
  have h1 : crcFrom 1602 (List.replicate 32 0) = 20755 := by decide +kernel
  have h2 : crcFrom 20755 (List.replicate 32 0) = 61305 := by decide +kernel
  have h3 : crcFrom 61305 (List.replicate 32 0) = 22724 := by decide +kernel
  have h4 : crcFrom 22724 (List.replicate 32 0) = 25140 := by decide +kernel
  have h5 : crcFrom 25140 (List.replicate 32 0) = 11313 := by decide +kernel
  have h6 : crcFrom 11313 (List.replicate 32 0) = 55206 := by decide +kernel
  have h7 : crcFrom 55206 (List.replicate 32 0) = 59146 := by decide +kernel
  have h8 : crcFrom 59146 (List.replicate 32 0) = 15120 := by decide +kernel
  rw [h0, h1, h2, h3, h4, h5, h6, h7, h8]

theorem soundWire_good : wireBad soundWire = false := by
  have h1 : Bits.le soundWire 260 2 = 15120 := by decide +kernel
  have h2 : soundWire.take 260 = soundBytes := by decide +kernel
  have h3 : wireParityGood soundWire = true := by decide +kernel
  have h4 : Bits.byteAt soundWire 0 = 1 := by decide +kernel
  simp [wireBad, wireCrcFails, wireCrcGood, h1, h2, h3, h4, soundCrc, flitType]

theorem zeroWire_bad : wireBad zeroWire = true := by
  have h : Bits.byteAt zeroWire 0 = 0 := by decide +kernel
  simp [wireBad, wireCrcFails, h]

theorem witness_FLIT_DISCARD :
    canon linked = true ∧ linked.awake = true ∧ (linked.link .u).carries = true ∧ zeroWire.length = 262 ∧ soundWire.length = 262 ∧
    wireSeq soundWire = 1 ∧ wireSeq soundWire ≠ (linked.link .u).rxSeq.toNat ∧
    (linked.link .u).discarding = false ∧ ((onPort .u fun l => { l with discarding := true }).link .u).discarding = true := by decide +kernel

theorem witness_DEGRADE :
    canon linked = true ∧ flitReady linked (hdr .u 0) [.u] [0] = true ∧ groupValid 16 8 1 = true ∧ groupValid 16 8 2 = false ∧
    ends (exec (.degrade (hdr .u 0) 8 1) linked) (fun t => decide ((t.link .u).width = 8 ∧ (t.link .u).group = 1 ∧
      (t.link .u).state = .degraded) && sent linked t .u 0 (.degrade 8 1)) = true ∧
    ends (exec (.degrade (hdr .u 0) 8 2) linked) (fun t => decide ((t.link .u).width = 16 ∧ (t.link .u).group = 0)) = true := by decide +kernel

theorem witness_DISCOVER :
    let s := { linked with boot := { linked.boot with posKnown := false } }
    canon s = true ∧ flitReady s (hdr .u 0) [.u, .d, .t] [0] = true ∧
    ends (exec (.discover (hdr .u 0) 14 0 0 false) s) (fun t => decide (t.regs.chainPos = 15 ∧ t.boot.posKnown = true)) = true ∧
    ends (exec (.discover (hdr .t 0) 1 1 0 false) linked) (fun t => decide (t.partner.said = some (1, 1) ∧ t.regs.paired = true)) = true ∧
    ends (exec (.discover (hdr .u 0) 0 0 0 true) linked) (fun t => sent linked t .d 0 (.discover 0 0 0 true)) = true := by decide +kernel

theorem witness_CHAIN_BREAK :
    let s := onPort .d fun l => { l with state := .down, width := 0, downSince := some (2 ^ 31 - 2 ^ 18) }
    canon s = true ∧ s.breakDue .d = true ∧ ends (exec (.chainBreak .d) s) (fun t => (t.link .d).broken) = true := by decide +kernel

theorem witness_PORT_TRAINED :
    let s := onPort .u fun l => { l with state := .training, width := 0 }
    canon s = true ∧ s.awake = true ∧ bestGroup 16 16 (~~~0xFFFF) = some (16, 0) ∧ bestGroup 16 16 (~~~0xFF00) = some (8, 1) ∧
    bestGroup 16 16 (~~~(0 : BitVec 16)) = none ∧
    ends (exec (.portTrained .u 0xFFFF) s) (fun t => decide ((t.link .u).state = .up ∧ (t.link .u).width = 16)) = true ∧
    ends (exec (.portTrained .u 0xFF00) s) (fun t => decide ((t.link .u).state = .degraded ∧ (t.link .u).width = 8 ∧
      (t.link .u).group = 1 ∧ (t.link .u).weak = 0x00FF)) = true := by decide +kernel

theorem witness_LANE_WEAK :
    let s := onPort .u fun l => { l with width := 8, group := 1, weak := 0x00FE, state := .degraded }
    let w := onPort .u fun l => { l with weak := 0x7FFF }
    canon s = true ∧ (s.link .u).carries = true ∧ (s.link .u).laneActive 0 = false ∧ (s.link .u).laneActive 15 = true ∧
    ends (exec (.laneWeak .u 0 true 0) s) (fun t => sameBut [.links] s t && decide ((t.link .u).weak = 0x00FF ∧ (t.link .u).width = 8)) = true ∧
    ends (exec (.laneWeak .u 15 true 0) s) (fun t => decide ((t.link .u).state = .degraded ∧ (t.link .u).width = 4 ∧ (t.link .u).group = 2) &&
      sent s t .u 0 (.degrade 4 2)) = true ∧
    ends (exec (.laneWeak .u 15 true 0) w) (fun t => decide ((t.link .u).state = .down ∧ (t.link .u).width = 0)) = true := by decide +kernel

theorem witness_REPLAY_MAX :
    let s := onPort .u fun l => { l with fails := linked.regs.replayMax.toNat }
    canon s = true ∧ s.isolated = false ∧ s.regs.replayMax.toNat ≤ (s.link .u).fails ∧
    ends (exec (.replayMax .u) s) (fun t => decide ((t.link .u).state = .training ∧ (t.link .u).width = 0 ∧ (t.link .u).fails = 0)) = true := by
  decide +kernel

theorem witness_PORT_DOWN :
    let u := { (onPort .u fun l => { l with state := .training, width := 0, present := false }) with boot := { linked.boot with posKnown := false } }
    let v := onPort .t fun l => { l with state := .training, width := 0, present := false }
    canon u = true ∧ ends (exec (.portDown .u) u) (fun t => decide ((t.link .u).state = .down ∧ t.regs.chainPos = 0 ∧ t.boot.posKnown = true)) = true ∧
    v.regs.paired = false ∧ ends (exec (.portDown .t) v) (fun t => t.partner.absent && decide ((t.link .t).state = .down)) = true := by decide +kernel

/-- A middle position with step 3 of call 0 in flight. -/
def relaying : State :=
  { linked with
    weights := served.weights
    calls := [(0, { callOf .running with step := 3, prefilled := 4 })]
    steps := [stepOf 3] }

theorem witness_TOKEN_RETURN :
    canon relaying = true ∧ flitReady relaying (hdr .d 1) [.d] [1, 2] = true ∧ relaying.isFirst = false ∧ relaying.ownCall 0 9 = some 0 ∧
    ends (exec (.tokenReturn (hdr .d 1) 0 9 3 [7, 8] [5] 0) relaying) (fun t => sent relaying t .u 1 (.tokenReturn 0 9 3 [7, 8] [5] 0) &&
      decide ((t.call 0).step = 4 ∧ (t.call 0).generated = 2 ∧ (t.call 0).drafts = [5])) = true := by decide +kernel

/-- A vector for step 3's token. -/
def vec0 (tok : Nat) : ActItem :=
  { p := 0, tag := 9, step := 3, token := tok, matrix := 1, blocks := [block0], premium := false, marks := 0 }
where block0 : Block := { scale := 127, codes := List.replicate 32 1 }

theorem witness_ACTIVATION :
    canon relaying = true ∧ flitReady relaying (hdr .u 1) [.u, .d] [1, 2] = true ∧ relaying.graftMissing 0 = false ∧
    ends (exec (.activation (hdr .u 1) 9 5 [vec0 0]) relaying) (fun t => decide (t.batchNo = relaying.batchNo + 1) &&
      (t.step? 0 3).any fun y => decide (y.input = [vec0 0] ∧ y.epoch = 9 ∧ y.image = 5)) = true ∧
    ends (exec (.activation (hdr .d 1) 9 5 [vec0 0]) relaying) (sameBut [.counters, .links, .out] relaying) = true := by decide +kernel

theorem witness_ACTIVATION_gradient :
    let s := { linked with calls := tuning.calls, steps := tuning.steps }
    let i : ActItem := { p := 0, tag := 9, step := 0, token := 0, matrix := 4, blocks := [], premium := false, marks := 0 }
    canon s = true ∧ flitReady s (hdr .d 1) [.u, .d] [1, 2] = true ∧ s.ownCall 0 9 = some 0 ∧ (s.call 0).tune.isSome = true ∧
    ends (exec (.activation (hdr .d 1) 0 5 [i]) s) (fun t => sameBut [.counters, .links, .out, .steps] s t &&
      (t.step? 0 0).any fun y => decide (y.backIn = [i])) = true := by decide +kernel

theorem witness_RUNNING_SUM :
    let i : SumItem := { token := 0, matrix := 1, colTile := 0, retry := 0, records := [0] }
    canon relaying = true ∧ flitReady relaying (hdr .u 1) [.u] [1, 2] = true ∧
    ends (exec (.runningSum (hdr .u 1) 0 9 3 9 5 0 i) relaying) (fun t => t.sums.any fun r => decide (
      r.key = { work := { call := 0, step := 3, token := 0 }, matrix := 1, colTile := 0 } ∧ r.accs = [(Acc.restore 0).2] ∧
      r.started = true ∧ r.retry = 0)) = true := by decide +kernel

theorem witness_CALL_CTRL :
    canon relaying = true ∧ flitReady relaying (hdr .u 2) [.u] [2] = true ∧
    ends (exec (.callCtrl (hdr .u 2) (.cancel 0 9)) relaying) (fun t => sent relaying t .d 2 (.callCtrl (.cancel 0 9)) && (t.call 0).cancelled)
      = true := by decide +kernel

theorem witness_CUT_CTRL :
    let s := { linked with weights := served.weights }
    flitReady s (hdr .u 2) [.u] [2] = true ∧ (s.gen? 5).any (fun g => (s.placementOf g).isSome) = true ∧
    ends (exec (.cutCtrl (hdr .u 2) (.epoch 1 5)) s) (fun t => decide (t.weights.epoch = 1)) = true := by decide +kernel

theorem witness_JACK :
    canon relaying = true ∧ flitReady relaying (hdr .u 0) [.u] [0] = true ∧ relaying.isLast = false ∧
    ends (exec (.jack (hdr .u 0) 0 9 3 0) relaying) (fun t => sent relaying t .d 0 (.jack 0 9 3 0)) = true ∧
    (let s := { lastPos with calls := relaying.calls, steps := relaying.steps }
     canon s = true ∧ s.isLast = true ∧ s.liveGen.isSome = true ∧ s.ownCall 0 9 = some 0 ∧
     ends (exec (.jack (hdr .u 0) 0 9 3 0) s) (fun t => (t.step? 0 3).any fun y => decide (y.jacks = [0])) = true) := by decide +kernel

theorem witness_IMAGE : flitReady linked (hdr .u 3) [.u, .d, .h] [3] = true ∧
    ends (exec (.image (hdr .u 3) (.manifest [1])) linked) (fun t => decide (t.sec.queue = [.manifest [1] none])) = true := by decide +kernel

/-- `paired` with a mirrored call. -/
def mirroring : State := { paired with calls := [(0, { callOf .mirror with job := none, premium := true })] }

theorem witness_ADOPT :
    canon mirroring = true ∧ flitReady mirroring (hdr .d 0) [.u, .d] [0] = true ∧
    ends (exec (.adopt (hdr .d 0)) mirroring) (fun t => decide ((t.call 0).state = .ready ∧ (t.call 0).adopted = true) &&
      sent mirroring t .u 0 .adopt) = true ∧
    ends (exec (.adopt (hdr .u 0)) mirroring) (fun t => sent mirroring t .d 0 .adopt) = true ∧
    (let s := { mirroring with partner := { absent := false, fenceAt := some (2 ^ 31 - 2048) } }
     ends (exec .fenceWaitEnd s) (fun t => decide (t.partner.fenceAt = none ∧ (t.call 0).state = .ready) && sent s t .u 0 .adopt &&
       sent s t .d 0 .adopt) = true) := by decide +kernel

theorem witness_HEARTBEAT :
    flitReady paired (hdr .t 0) [.t] [0] = true ∧ paired.regs.paired = true ∧
    ends (exec (.heartbeat (hdr .t 0) (2 ^ 31 - 73) .serving) { paired with partner := { absent := false, misses := 9, lost := true } }) (fun t =>
      decide (t.partner.misses = 0 ∧ t.partner.lost = false ∧ t.partner.offset = 0)) = true ∧
    ends (exec (.heartbeat (hdr .t 0) 5 .serving) linked) (fun t => decide (t.partner = linked.partner)) = true := by decide +kernel

/-- A premium step that waits for its acknowledgement. -/
def marked : State :=
  { paired with
    calls := [(0, { callOf .running with premium := true, step := 3, prefilled := 4 })]
    steps := [{ stepOf 3 with premium := true, marked := true }] }

theorem witness_HB_HOLD :
    flitReady marked (hdr .t 0) [.t] [0] = true ∧ ends (exec (.hbHold (hdr .t 0) 5 true false) marked) (fun t =>
      decide (t.partner = { marked.partner with holdUntil := some (2 ^ 31 + 5), warmHold := true }) && t.steps.all fun x => x.acked) = true := by
  decide +kernel

theorem witness_JOURNAL :
    canon mirroring = true ∧ flitReady mirroring (hdr .t 1) [.t] [1] = true ∧
    ends (exec (.journal (hdr .t 1) [.stepMark 0 9 3 [7]]) mirroring) (fun t => sent mirroring t .t 0 (.journalAck 0 9 3)) = true := by
  decide +kernel

theorem witness_JOURNAL_ACK :
    flitReady marked (hdr .t 0) [.t] [0] = true ∧ marked.ownCall 0 9 = some 0 ∧
    ends (exec (.journalAck (hdr .t 0) 0 9 3) marked) (fun t => t.steps.any fun y => decide (y.call = 0 ∧ y.step = 3) && y.acked) = true ∧
    ends (exec (.journalAck (hdr .t 0) 0 9 2) marked) (fun t => t.steps.all fun y => !y.acked) = true := by decide +kernel

/-- A retake of step 0 of call 9. -/
def retake9 (image : Nat) : RetakeReq := { p := 0, tag := 9, step := 0, image := image, epoch := 0, input := [], sums := [] }

theorem witness_RETAKE_REQ :
    let s := { mirroring with weights := served.weights }
    canon s = true ∧ flitReady s (hdr .t 1) [.t] [1] = true ∧ s.power.dstate ≠ .d2 ∧ (s.mirrorCall 0 9).isSome = true ∧ (s.gen? 5).isSome = true ∧
    ends (exec (.retakeReq (hdr .t 1) (retake9 5)) s) (fun t => decide (retake9 5 ∈ t.partner.serving)) = true ∧ s.gen? 6 = none ∧
    ends (exec (.retakeReq (hdr .t 1) (retake9 6)) s) (fun t => sent s t .t 1 (.retakeResp 0 9 0 none) && decide (t.partner = s.partner)) = true := by
  decide +kernel

theorem witness_VERIFIED_STEP_DONE :
    let s := { mirroring with weights := served.weights, partner := { absent := false, serving := [retake9 5] } }
    canon s = true ∧ s.servedNow 0 9 0 = some (0, retake9 5) ∧ s.servedDone 0 (retake9 5) = true ∧
    ends (exec (.verifiedStepDone 0 9 0 [] none) s) (fun t => decide (t.partner.serving = [])) = true := by decide +kernel

/-- A step whose retake has been asked for. -/
def retaking (sentAt : Nat) : State :=
  { marked with steps := [{ stepOf 3 with premium := true, suspect := true, retake := some { sentAt := sentAt, applied := false } }] }

/-- A retake's result. -/
def result1 : RetakeResult := { appends := [], output := [vec0 0], sums := [], tokens := [] }

theorem witness_RETAKE_RESP :
    canon (retaking 5) = true ∧ flitReady (retaking 5) (hdr .t 1) [.t] [1] = true ∧ (retaking 5).ownCall 0 9 = some 0 ∧
    ends (exec (.retakeResp (hdr .t 1) 0 9 3 none) (retaking 5)) (fun t => (t.step? 0 3).any fun y =>
      decide (y.retaken = true ∧ y.retake = none ∧ y.unbounded = true)) = true ∧
    ends (exec (.retakeResp (hdr .t 1) 0 9 3 (some result1)) (retaking 5)) (fun t => (t.step? 0 3).any fun y =>
      decide (y.retaken = true ∧ y.retake = some { sentAt := 5, applied := true } ∧ y.output = [vec0 0])) = true := by decide +kernel

theorem witness_RETAKE_TIMEOUT :
    (retaking (2 ^ 31 - 2 ^ 20)).retakeOverdue 0 9 3 = some 0 ∧ ends (exec (.retakeTimeout 0 9 3) (retaking (2 ^ 31 - 2 ^ 20))) (fun t =>
      (t.step? 0 3).any fun y => decide (y.retaken = true ∧ y.retake = none ∧ y.unbounded = true)) = true := by decide +kernel

theorem witness_MIRROR :
    canon mirroring = true ∧ flitReady mirroring (hdr .t 0) [.t] [0] = true ∧
    ends (exec (.mirrorDrop (hdr .t 0)) mirroring) (fun t => decide ((t.call 0).state = .free)) = true ∧
    (let s := { paired with calls := [(0, { callOf .mirror with job := none, brokenAt := some (2 ^ 31 - 2 ^ 28) })] }
     ends (exec (.mirrorKeepExpiry 0) s) (fun t => decide ((t.call 0).state = .free)) = true) := by decide +kernel

theorem witness_HEARTBEAT_SEND :
    canon paired = true ∧ paired.beatDue = true ∧ ends (exec .heartbeatSend paired) (fun t =>
      decide (t.partner = { paired.partner with sentAt := 2 ^ 31 }) && sent paired t .t 0 (.heartbeat (2 ^ 31) .serving)) = true ∧
    (let s := { paired with boot := { phase := .warmStart, posKnown := true } }
     s.beatDue = true ∧ ends (exec .heartbeatSend s) (fun t => sent s t .t 0 (.heartbeat (2 ^ 31) .hold)) = true) := by decide +kernel

/-- A paired device that has missed some heartbeats and waits for the next. -/
def missing (n : Nat) (side : Bool) : State :=
  { marked with regs := { marked.regs with side := side }, partner := { absent := false, misses := n, timer := 2 ^ 31 - 31250 } }

theorem witness_HEARTBEAT_MISS :
    (missing 9 false).missFrom + 31250 ≤ (missing 9 false).now ∧
    ends (exec .heartbeatMiss (missing 9 false)) (fun t => decide (t.partner.misses = 10 ∧ t.partner.lost = true ∧ t.pins.fenceOut = true ∧
      t.partner.fenceAt = some (2 ^ 31)) && t.steps.all fun x => x.acked) = true ∧
    ends (exec .heartbeatMiss (missing 9 true)) (fun t => decide (t.partner.lost = true ∧ t.pins.fenceOut = false)) = true ∧
    ends (exec .heartbeatMiss (missing 19 true)) (fun t => t.pins.fenceOut && t.partner.fenced) = true ∧
    ends (exec .heartbeatMiss (missing 0 false)) (fun t => decide (t.partner.misses = 1 ∧ t.partner.lost = false)) = true := by decide +kernel

/-! ### Memory and faults -/

/-- A serving device whose HBM has been filled. -/
def filled : State := { base with regs := { base.regs with hotThresh := 75, hotWindow := 20 } }

theorem witness_MemoryFrame :
    let s := { base with mem := { buckets := [(3, { level := 2 })] } }
    Instr.family (.bucketLeak 3) = .memory ∧ ends (exec (.bucketLeak 3) s) (sameBut (Instr.reach (.bucketLeak 3)) s) = true := by decide +kernel

theorem witness_BUCKET_LEAK :
    let s := { base with mem := { buckets := [(3, { level := 1 })] } }
    s.leakDue 3 = true ∧ ends (exec (.bucketLeak 3) s) (fun t => sameBut [.mem] s t && decide ((t.bucket 3).level = 0)) = true := by decide +kernel

/-- A state with a merge entry of stack 7, channel 31 that has been left alone for 256 ticks. -/
def merging (bytes : Tbl Nat) : State := { filled with mem := { merge := [(255, [{ block := 1000, bytes := bytes, touched := 2 ^ 31 - 256 }])] } }

theorem witness_MERGE_EVICT :
    let s := merging ((List.range 64).map fun i => (i, i + 1))
    let f : Flips := { word := [], colpar := 0, rowpar := 0, cppar := false }
    canon s = true ∧ Tbl.wf [] s.mem.merge = true ∧ s.memUp = true ∧ Instr.wf (.mergeEvict 7 31 f) = true ∧
    (s.evictDue 7 31).any (fun e => decide (e.bytes.length = 64 ∧ e.bytes.Pairwise (fun x y => x.1 < y.1))) = true ∧
    ends (exec (.mergeEvict 7 31 f) s) (fun t => decide (Tbl.get [] 255 t.mem.merge = [] ∧ t.mem.byte 64000 = 1 ∧ t.mem.byte 64063 = 64)) =
      true := by decide +kernel

theorem witness_MERGE_EVICT_lost :
    let s := { merging [(5, 9)] with calls := [(0, { callOf .running with pages := [(0, 8 * 5)] })] }
    let u := { s with mem := { s.mem with runs := [(5, 1)], merge := [(255, [{ block := (pageAddr 40) / 64, bytes := [(5, 9)], touched := 0 }])] } }
    canon u = true ∧ classify threeFlips = .uncorrectable ∧ u.pageOwner (pageAddr 40) = some 0 ∧
    (u.evictDue 7 31).any (fun e => decide (e.bytes.length ≠ 64)) = true := by decide +kernel

theorem witness_HOT_SAMPLE :
    let s := { filled with mem := { hot := [(7, { windowFrom := 2 ^ 31 - 2 ^ 10, window := (20, 75), samples := 3, hits := 1, total := 90 })] } }
    let u := { filled with mem := { hot := [(7, { windowFrom := 0, window := (20, 75), samples := 3, hits := 1, total := 90 })] } }
    s.memUp = true ∧ s.windowOver (s.hot 7) = false ∧ u.windowOver (u.hot 7) = true ∧
    ends (exec (.hotSample 7 76 31) s) (fun t => sameBut [.mem] s t && decide ((t.hot 7).samples = 4 ∧ (t.hot 7).total = 166 ∧ (t.hot 7).hits = 2))
      = true ∧ ends (exec (.hotSample 7 75 31) s) (fun t => decide ((t.hot 7).hits = 1)) = true ∧
    ends (exec (.hotSample 7 76 31) u) (fun t => decide ((t.hot 7).samples = 1 ∧ (t.hot 7).total = 76)) = true ∧
    ends (exec (.hotspot 7) u) (fun t => decide ((t.hot 7).samples = 0 ∧ (t.hot 7).window = (20, 75))) = true := by decide +kernel

/-- A management descriptor's job. -/
def job7 (op : Nat) : Job := base.jobOf (desc .mq op [])

theorem witness_HBM_RETIRED :
    let s := { filled with mem := { retireJobs := [{ job := job7 0x33, a := 1, b := 4096 }] } }
    canon s = true ∧ s.memUp = true ∧ ends (exec .hbmRetired s) (fun t => decide (t.mem.retireJobs = [] ∧ t.mem.retired = [(1, 2)]) &&
      wrote s t .eq (s.answerOf (job7 0x33) .ok 0 0)) = true := by decide +kernel

theorem witness_FILL_DONE :
    let s := { filled with mem := { fillJobs := [{ job := job7 0x34, a := 64, b := 128 }], hbm := [(63, 1), (64, 2), (191, 3), (192, 4)] } }
    canon s = true ∧ ends (exec .fillDone s) (fun t => decide (t.mem.fillJobs = [] ∧ t.readByte 64 = 0 ∧ t.readByte 191 = 0 ∧
      t.mem.byte 63 = 1 ∧ t.mem.byte 192 = 4) && wrote s t .eq (s.answerOf (job7 0x34) .ok 0 0)) = true := by decide +kernel

theorem witness_REHASH_DONE :
    let s := { filled with mem := { rehash := [{ job := job7 0x35, a := 0, b := 0 }] } }
    canon s = true ∧ ends (exec (.rehashDone 12) s) (fun t => decide (t.mem.rehash = []) && wrote s t .eq (s.answerOf (job7 0x35) .ok 0 0)) = true := by
  decide +kernel

/-- A migration of the weight region ends between two batches. -/
theorem witness_REHASH_waits :
    let j : MemJob := { job := job7 0x35, a := 2, b := 255 }
    let s := { filled with mem := { rehash := [j] }, batch := some { firstTick := 5, calls := [], epoch := 0 } }
    canon s = true ∧ s.memUp = true ∧ (s.migrate j).migrated j = true ∧ State.respreads j 2 = true ∧
    exec (.rehashDone 3) s = .fault (.outOfPlace "REHASH_DONE") ∧
    ends (exec (.rehashDone 3) { s with batch := none }) (fun t => decide (t.mem.rehash = [] ∧ t.mem.slotSeed = s.mem.spreadSeed)) = true := by
  refine ⟨by decide +kernel, by decide +kernel, by decide +kernel, by decide +kernel, rfl, by decide +kernel⟩

theorem witness_REPEAT :
    let r : Repeat := { prod := none, deck := 0, half := 0, cols := [0], detector := 3, deviation := 9, digit := 0 }
    let s := onTile warm fun x => { x with repeat_ := some r }
    let ok : List Int := List.replicate 512 0
    let bad : List Int := 127 :: List.replicate 511 0
    canon s = true ∧ s.repeatDue 0 r = true ∧ s.repeatShape r [bad] = true ∧
    ends (exec (.repeat_ 0 [ok]) s) (fun t => decide (t.faults.daily.transient = 1 ∧ t.faults.daily.permanent = 0 ∧ (t.tile 0).repeat_ = none)) =
      true ∧ ends (exec (.repeat_ 0 [bad]) s) (fun t => decide (t.faults.daily.permanent = 1 ∧ t.faults.daily.transient = 0)) = true := by
  decide +kernel

/-- A bough whose slate 63 has failed once or not. -/
def slating (failed : Bool) : State :=
  { base with faults := { slates := [(State.slateKey (.bough 5), { number := 63, failedOnce := failed })] },
              sec := { answers := [(63, 0xABCD)] } }

theorem witness_SLATE :
    canon (slating false) = true ∧ (slating false).slateDue (.bough 5) = true ∧ (slating true).boughTested (.bough 5) = false ∧
    (slating false).slateAnswer (.bough 5) = 0xABCD ∧ (slating true).lastUnit (.bough 5) = false ∧
    ends (exec (.slate (.bough 5) 0xABCD) (slating false)) (fun t => decide ((t.slate (.bough 5)).number = 0 ∧
      (t.slate (.bough 5)).passedAt = 2 ^ 31)) = true ∧
    ends (exec (.slate (.bough 5) 0) (slating false)) (fun t => decide ((t.slate (.bough 5)).failedOnce = true ∧
      (t.slate (.bough 5)).number = 63)) = true ∧
    ends (exec (.slate (.bough 5) 0) (slating true)) (fun t => (t.bough 5).withdrawn) = true := by decide +kernel

theorem witness_SLATE_part :
    base.slateDue (.lane 15) = true ∧ base.lastUnit (.lane 15) = false ∧ base.lastUnit (.pipe 7 1) = false ∧
    (let s := { base with faults := { slates := [(State.slateKey (.lane 15), { failedOnce := true })] } }
     ends (exec (.slate (.lane 15) 1) s) (fun t => decide ((0, 15) ∈ t.faults.withdrawnParts)) = true) ∧
    (let s := { base with faults := { slates := [(State.slateKey (.pipe 7 1), { failedOnce := true })] } }
     ends (exec (.slate (.pipe 7 1) 1) s) (fun t => decide ((8, 1) ∈ t.faults.withdrawnParts)) = true) := by decide +kernel

theorem witness_SLATE_OVERDUE :
    base.slateDue .graft = true ∧ (base.slate .graft).startedAt + 2 ^ 31 ≤ base.now ∧
    ends (exec (.slateOverdue .graft) base) (fun t => sameBut [.faults] base t &&
      decide (t.slate .graft = { base.slate .graft with overdue := true, withheld := 0 })) = true := by decide +kernel

theorem witness_DAILY :
    let s := { base with tick := 2 ^ 32 }
    s.faults.daily.written < s.now / 2 ^ 32 ∧ ends (exec .daily s) (fun t => decide (t.faults = { s.faults with daily := { written := 1 } })) =
      true := by decide +kernel

/-! ### Commands that are not well formed -/

theorem wf_descriptors :
    Instr.wf (.nop (desc .mq 1 [])) = false ∧ Instr.wf (.badOpcode (desc .mq 0x0B [])) = false ∧ Instr.wf (.badOpcode (desc .mq 0x0C [])) = true ∧
    Instr.wf (.takeReplacement (desc .mq 0x24 [(64, 2)])) = false ∧ Instr.wf (.takeRefresh (desc .mq 0x24 [(64, 1)])) = false ∧
    Instr.wf (.resetCold (desc .mq 0x40 [(64, 2)])) = false ∧ Instr.wf (.resetCold (desc .mq 0x40 [(64, 1)])) = true ∧
    Instr.wf (.resetWarm (desc .mq 0x40 [(64, 1)])) = false ∧ Instr.wf (.resetPartition (desc .mq 0x40 [(64, 4)])) = false ∧
    Instr.wf (.resetBough (desc .mq 0x40 [(64, 5)])) = false ∧ Instr.wf (.resetPort (desc .mq 0x40 [(64, 6)])) = false ∧
    Instr.wf (.powerStateD0 (desc .mq 0x41 [(64, 2)])) = false ∧ Instr.wf (.powerStateD0 (desc .mq 0x41 [(64, 1)])) = true ∧
    Instr.wf (.powerStateD2 (desc .mq 0x41 [(64, 3)])) = false ∧ Instr.wf (.powerStateD3 (desc .mq 0x41 [(64, 2)])) = false ∧
    Instr.wf (.admitCall (desc .mq 2 [])) = false ∧ Instr.wf (.attest (desc .mq 0x45 [])) = false := by decide +kernel

theorem wf_rings_and_registers :
    Instr.wf (.doorbell none (.sq 32 0) 0) = false ∧ Instr.wf (.doorbell none (.sq 31 3) 0) = true ∧ Instr.wf (.doorbell none (.sq 0 4) 0) = false ∧
    Instr.wf (.fetchFault (.cq 0)) = false ∧ Instr.wf (.recordWriteFault (.sq 0 0)) = false ∧ Instr.wf (.coalWindowExpiry .mq) = false ∧
    Instr.wf (.hostFault .eq 0) = false ∧ Instr.wf (.seal (acc 0x24 4 1)) = false ∧ Instr.wf (.seal (acc 0x24 8 1)) = true ∧
    Instr.wf (.versionNeg (acc 0x28 4 1)) = false ∧ Instr.wf (.fenceCtrlRelease (acc 0x1024 4 2)) = false ∧
    Instr.wf (.bootSrcGo (acc 0x109C 4 2)) = false ∧ Instr.wf (.counterSel (acc 0x1088 4 0)) = false ∧
    Instr.wf (.hkCtrlRefen (acc 0x102C 4 0)) = false := by decide +kernel

theorem wf_units :
    Instr.wf (.hbmFill true false) = false ∧ Instr.wf (.hbmFill true true) = true ∧ Instr.wf (.referenceSweep 8192 0 []) = false ∧
    Instr.wf (.clapperPhase 0 8 ⟨[], .check⟩) = false ∧ Instr.wf (.verifyRead 0 8 []) = false ∧ Instr.wf (.phaseEnd 0 [128]) = false ∧
    Instr.wf (.phaseEnd 0 [-129]) = false ∧ Instr.wf (.phaseEnd 8191 [127, -128]) = true ∧ Instr.wf (.programStepOwed 8192) = false ∧
    Instr.wf (.forcedGap 8192) = false ∧ Instr.wf (.mergeEvict 8 0 threeFlips) = false ∧ Instr.wf (.mergeEvict 0 32 threeFlips) = false ∧
    Instr.wf (.hotSample 8 0 0) = false ∧ Instr.wf (.hotspot 8) = false ∧
    Instr.wf (.urgentSample 164) = false ∧ Instr.wf (.urgentSample 163) = true ∧
    Instr.wf (.programStepEnd 8192 (read1 96 false)) = false := by decide +kernel

theorem wf_flits :
    Instr.wf (.flitDiscard .u []) = false ∧ Instr.wf (.flitDiscard .u zeroWire) = true ∧ Instr.wf (.ack (hdr .u 1)) = false ∧
    Instr.wf (.nak (hdr .u 2) 0) = false ∧ Instr.wf (.degrade (hdr .u 3) 8 0) = false ∧ Instr.wf (.discover (hdr .u 1) 0 0 0 false) = false ∧
    Instr.wf (.tokenReturn (hdr .d 0) 0 9 0 [] [] 0) = false ∧ Instr.wf (.activation (hdr .u 3) 0 0 []) = false ∧
    Instr.wf (.callCtrl (hdr .u 1) (.cancel 0 9)) = false ∧ Instr.wf (.cutCtrl (hdr .u 3) (.epoch 0 0)) = false ∧
    Instr.wf (.jack (hdr .u 2) 0 9 0 0) = false ∧ Instr.wf (.adopt (hdr .u 1)) = false ∧ Instr.wf (.image (hdr .u 2) (.chunk [])) = false ∧
    Instr.wf (.heartbeat (hdr .t 1) 0 .serving) = false ∧ Instr.wf (.hbHold (hdr .t 1) 0 false false) = false ∧
    Instr.wf (.journal (hdr .t 0) []) = false ∧ Instr.wf (.journalAck (hdr .t 1) 0 9 0) = false ∧
    Instr.wf (.retakeReq (hdr .t 0) (retake9 5)) = false ∧ Instr.wf (.retakeResp (hdr .t 2) 0 9 0 none) = false ∧
    Instr.wf (.mirrorDrop (hdr .t 3)) = false ∧
    Instr.wf (.runningSum (hdr .u 0) 0 9 0 0 0 0 { token := 0, matrix := 1, colTile := 0, retry := 0, records := [] }) = false := by decide +kernel

/-- The table gives no row bits, so no word spells a command. -/
theorem test_no_bits : decodeTableWord 32 5 = none ∧ State.reset.withFetchWord 32 5 = State.reset := by decide

/-! ### The manual's worked examples -/

/-- Chapter 11: the first token 5,021 of the call with tag 0x2A17, on the ring's first pass. -/
theorem test_token_record : Rec.bytes true (.token 5021 0x2A17 false false false true false false) =
    [0x9D, 0x13, 0x5C, 0xA8, 0x00, 0x00, 0x20, 0x80] := by decide +kernel

/-- Chapter 14: bit 37 of word 5 as read differs; with bit 38 too the block is lost. -/
theorem test_one_bad_bit :
    let f (b : BitVec 64) : Flips := { word := [(5, b)], colpar := 0, rowpar := 0, cppar := false }
    (0x3F001A2B000000C4#64) ^^^ (1#64 <<< 37) = 0x3F001A0B000000C4#64 ∧ classify (f (1#64 <<< 37)) = .corrected (some (5, 37)) ∧
    deliveredFlips (f (1#64 <<< 37)) 5 = 0 ∧ classify (f (3#64 <<< 37)) = .uncorrectable := by decide +kernel

/-- Chapter 05, "Drift compensation": at 70 °C, 2^39 ticks old, with the typical coefficients 0.0052 and 0.0086. -/
theorem test_drift_factor (s : State) (h2 : s.driftPoint 0 2 = 22333830) (h3 : s.driftPoint 0 3 = 36936719) :
    s.driftFactor 0 1120 (2 ^ 39) = 33943 := by
  have hc : s.driftCoeff 0 1120 = 22333830 * 240 + 36936719 * 80 := by
    have : State.driftCoeff s 0 1120 = s.driftPoint 0 2 * (320 - 80) + s.driftPoint 0 3 * 80 := rfl
    rw [this, h2, h3]
  unfold State.driftFactor
  rw [hc]
  decide +kernel

/-- A product of chapter 04's example: W4A8, drive code, its total in output LSB and the group scale 9 * 2^-12. -/
def term04 (drive : Nat) (t16 : Int) : Int :=
  let p : Prod := { working.newProd (issue0 0) act0 5 lmHead4 (0, 0) .analogue false with drive := drive, loVal := [t16], hiVal := [] }
  let x : Slot := { key := { image := 5, matrix := 1, rowTile := 0, colTile := 0 }, bytes := [(262144, 0x80), (262145, 0x18)], groups := [] }
  (analogueTerm p x (-20) 0).m

/-- Table 04-7: the analogue terms of column 2,600 and, with the exact outlier term, its sum 33,986,308. -/
theorem test_table_04_7 :
    term04 122 (832 * 65536) = 15335424 ∧ term04 122 (-384 * 65536) = -7077888 ∧ term04 122 (16 * 65536 + 16) = 294916 ∧
    term04 122 (512 * 65536) = 9437184 ∧ term04 122 (-192 * 65536) = -3538944 ∧ term04 123 (288 * 65536) = 10616832 ∧
    term04 122 (-640 * 65536) = -11796480 ∧ term04 122 (128 * 65536) = 2359296 ∧ term04 122 (1024 * 65536) = 18874368 := by decide +kernel

/-- Chapter 05: rows of the example with their codes in column 0, group scale 5 * 2^-12. -/
def slot05 : Slot :=
  { key := { image := 5, matrix := 1, rowTile := 0, colTile := 0 },
    bytes := [(256 * 37, 3), (256 * 180, 11), (256 * 402, 1), (256 * 611, 9), (256 * 777, 2), (256 * 905, 6), (256 * 1010, 14),
              (262144, 0x00), (262145, 0x15)],
    groups := [] }

/-- Table 05-7: the outliers of row tile 11. -/
def rows05 : List (Nat × F32) :=
  [(37, 0x41FC0000), (180, 0xC1D00000), (402, 0x42310000), (611, 0x41E00000), (777, 0xC20E0000), (905, 0x41CE0000), (1010, 0xC1E80000)]

theorem test_outliers_05_7 :
    let p : Prod := { working.newProd (issue0 0) act0 5 lmHead4 (0, 0) .analogue false with outSum := [], outNf := [] }
    (outlierTerm (rows05.foldl (fun q r => addOutlier q slot05 r.1 r.2) p) (-20) 0).m = 274240 := by decide +kernel

/-- Chapter 09: customer 1,207 at a level. -/
def cust1207 (level : Int) : State :=
  { base with customers := [(1207, { valid := true, parkEvent := true, capacity := 1000, refill := 250, promptWeight := 64, interval := 2 ^ 26, level := level, nextRefill := 2 ^ 31 + 2 ^ 26 })] }

theorem test_budget_09_7 :
    let e := { callOf .running with customer := 1207, premium := true }
    (((cust1207 256000).chargeCommit e 2400 1).customer 1207).level = 399 * 256 ∧
    (((cust1207 (399 * 256)).chargeCommit e 0 396).customer 1207).level = 3 * 256 ∧
    (((cust1207 (3 * 256)).chargeCommit e 0 5).customer 1207).level = -2 * 256 ∧
    (State.refilled ((cust1207 (-2 * 256)).customer 1207) (2 ^ 31 + 2 ^ 26)).level = 248 * 256 := by decide +kernel

/-- Chapter 20: the token-out ring's coalescing word and VEC_BASE of partition 3, and a vector that MGMT_VEC already holds. -/
theorem test_seal_clash :
    let s := { unsealed with parts := [(3, { entryShare := 8 })], rings := [(14, { exp := 3 })] }
    let t := (s.windowWrite (acc 0x130B4 4 0x03061B10)).windowWrite (acc 0x13108 4 0x00060100)
    (t.part 3).vecBase = 6 ∧ (t.part 3).saveShare = 256 ∧ (t.ring (.tq 3)).coalCount = 16 ∧ (t.ring (.tq 3)).coalWindow = 1563 ∧
    (t.ring (.tq 3)).irqEn = true ∧ (t.ring (.tq 3)).premiumNow = true ∧
    { t with regs := { t.regs with mgmtVec := 6, saveRegion := 256 } }.sealCheck = 6 ∧
    { t with regs := { t.regs with mgmtVec := 64, saveRegion := 256 } }.sealCheck = 0 := by decide +kernel

end Sys2Proof.Tests
end

/-! PROOFS. The step on an empty queue. -/

namespace Sys2Proof.Machine

theorem step_of_pending_nil {s : State} (h : s.pending = []) : step s = .next s.tickOnce := by
  rw [step, h]

/-- Moving the tick counter changes no other piece, and neither the canonical form nor the output depends on the counter. -/
theorem Moves.setTick (s : State) (n : Nat) : Moves [.tick] s { s with tick := n } where
  frame f hf := by
    cases f with
    | tick => exact absurd List.mem_cons_self hf
    | _ => rfl
  canon c := ⟨c.parts, c.rings, c.counters, c.calls, c.customers, c.tiles, c.boughs, c.calSave, c.links, c.mem⟩
  fit := id
  grows := List.prefix_rfl

theorem State.tickOnce_moves (s : State) : Moves [.tick] s s.tickOnce := (Moves.setTick s _).ite (Moves.refl _ s)

/-- The counter stands still while it is stopped, REFCLK lost (R394). -/
theorem State.tickOnce_tick (s : State) : s.tickOnce.tick = if s.ticking then s.tick + 1 else s.tick := by
  unfold State.tickOnce
  split <;> rfl

/-- Settles O2: the step on an empty queue is one tick (log 1), which moves the counter alone. -/
theorem emptyQueueTicks : Obligations.EmptyQueueTicks := by
  unfold Obligations.EmptyQueueTicks
  intro s hs
  exact ⟨s.tickOnce, step_of_pending_nil hs, s.tickOnce_moves.frame, s.tickOnce_tick⟩

end Sys2Proof.Machine

/-! PROOFS. Flits: what one change of a port's queue does to the flits that wait, and that no operation of the machine drops a flit
that waits: it stays in its queue or goes out (R267, R274). -/

namespace Sys2Proof.Machine

/-- What a list reads as after one element is replaced; a list that is too short is filled up with defaults. -/
theorem getD_setAt {α : Type} [Inhabited α] (xs : List α) (i j : Nat) (v : α) :
    (Bits.setAt xs i v).getD j default = if j = i then v else xs.getD j default := by
  have hlen : (xs.take i ++ List.replicate (i - xs.length) default).length = i := by simp; omega
  unfold Bits.setAt
  rcases Nat.lt_trichotomy j i with h | rfl | h
  · rw [if_neg (by omega), List.getD_append _ _ _ _ (by omega)]
    by_cases hj : j < xs.length
    · rw [List.getD_append _ _ _ _ (by simp; omega)]
      simp [List.getD_eq_getElem?_getD, h]
    · rw [List.getD_append_right _ _ _ _ (by simp; omega), List.getD_eq_default xs _ (by omega)]
      rw [List.getD_replicate _ (by simp; omega)]
  · rw [if_pos rfl, List.getD_append_right _ _ _ _ (by omega), hlen]
    simp
  · obtain ⟨k, rfl⟩ : ∃ k, j = i + 1 + k := ⟨j - (i + 1), by omega⟩
    rw [if_neg (by omega), List.getD_append_right _ _ _ _ (by omega), hlen, show i + 1 + k - i = k + 1 by omega]
    simp [List.getD_eq_getElem?_getD]

theorem portNo_injective : Function.Injective portNo := by
  intro p q
  cases p <;> cases q <;> decide

theorem link_modLink_self {s : State} (c : s.Canonical) (p : Port) (f : Link → Link) : (s.modLink p f).link p = f (s.link p) :=
  Tbl.get_update_self (Tbl.rising_of_wf c.links)

theorem link_modLink_ne {s : State} (c : s.Canonical) {p q : Port} (h : q ≠ p) (f : Link → Link) :
    (s.modLink p f).link q = s.link q :=
  Tbl.get_update_ne (fun e => h (portNo_injective e)) (Tbl.rising_of_wf c.links)

/-- The flits that wait on a channel of a port. -/
def State.waits (s : State) (p : Port) (c : Nat) : List FlitBody := (s.link p).queue.getD c []

theorem Sent.after {s t u : State} {p : Port} {c : Nat} {b : FlitBody} (h : Sent t u p c b) (k : s.out <+: t.out) : Sent s u p c b := by
  rcases h with ⟨l, seq, ack, credit, ho, hm⟩ | h
  · obtain ⟨m, hm'⟩ := k
    exact .inl ⟨m ++ l, seq, ack, credit, by rw [ho, ← hm', List.append_assoc], List.mem_append_right _ hm⟩
  · exact .inr h

/-- From `s` to `t` the position in the chain stays, output is only added, and a flit that waits goes out or waits on. -/
structure FlitsKept (s t : State) : Prop where
  canon : s.Canonical → t.Canonical
  pos : t.regs.chainPos = s.regs.chainPos
  grows : s.out <+: t.out
  kept : s.Canonical → ∀ p c, ∀ b ∈ s.waits p c, Sent s t p c b

theorem Sent.kept {s t u : State} {p : Port} {c : Nat} {b : FlitBody} (h : Sent s t p c b) (ct : t.Canonical) (k : FlitsKept t u)
    (hg : s.out <+: t.out) : Sent s u p c b := by
  rcases h with ⟨l, seq, ack, credit, ho, hm⟩ | h
  · obtain ⟨m, hm'⟩ := k.grows
    exact .inl ⟨l ++ m, seq, ack, credit, by rw [← hm', ho, List.append_assoc], List.mem_append_left _ hm⟩
  · exact (k.kept ct p c b h).after hg

namespace FlitsKept

theorem refl (s : State) : FlitsKept s s := ⟨id, rfl, List.prefix_rfl, fun _ _ _ _ h => .inr h⟩

theorem trans {s t u : State} (h : FlitsKept s t) (k : FlitsKept t u) : FlitsKept s u :=
  ⟨fun c => k.canon (h.canon c), k.pos.trans h.pos, h.grows.trans k.grows, fun c p ch b hb => (h.kept c p ch b hb).kept (h.canon c) k h.grows⟩

/-- Every piece but the links and the registers. -/
abbrev quietFields : List Field := (.free :: .pending :: everyPiece).filter fun f => f ≠ .links ∧ f ≠ .regs

/-- An operation that leaves the links and the registers alone. -/
theorem of_moves {s t : State} (h : Moves quietFields s t) : FlitsKept s t := by
  have hl : t.links = s.links := h.frame .links (by decide)
  refine ⟨h.canon, congrArg Regs.chainPos (h.frame .regs (by decide)), h.grows, fun _ p c b hb => .inr ?_⟩
  rw [State.waits, State.link, ← hl] at hb
  exact hb

theorem quiet {r s t : State} (h : FlitsKept r s) (k : Moves quietFields s t) : FlitsKept r t := h.trans (of_moves k)

theorem foldl {α : Type} {f : State → α → State} (hf : ∀ s x, FlitsKept s (f s x)) :
    ∀ (xs : List α) (s : State), FlitsKept s (xs.foldl f s)
  | [], s => refl s
  | x :: xs, s => (hf s x).trans (foldl hf xs (f s x))

theorem each {α : Type} {f : State → α → State} (s : State) (xs : List α) (hf : ∀ s x, FlitsKept s (f s x)) :
    FlitsKept s (s.each xs f) := foldl hf xs s

end FlitsKept

/-- Queuing a flit drops none that waits, and the flit waits. -/
theorem modLink_enqueue_kept (s : State) (p : Port) (c : Nat) (b : FlitBody) :
    FlitsKept s (s.modLink p fun l => { l with queue := Bits.setAt l.queue c (l.queue.getD c [] ++ [b]) }) := by
  refine ⟨(State.modLink_moves (fl := [.links]) (Moves.refl _ _) (by decide)).canon, rfl, List.prefix_rfl,
    fun k q d x hx => .inr ?_⟩
  by_cases hq : q = p
  · subst hq
    rw [link_modLink_self k]
    rw [show ([] : List FlitBody) = default from rfl, getD_setAt]
    split
    · next e => subst e; exact List.mem_append_left _ hx
    · exact hx
  · rw [link_modLink_ne k hq]
    exact hx

theorem modLink_enqueue_waits {s : State} (k : s.Canonical) (p : Port) (c : Nat) (b : FlitBody) :
    b ∈ (s.modLink p fun l => { l with queue := Bits.setAt l.queue c (l.queue.getD c [] ++ [b]) }).waits p c := by
  unfold State.waits
  rw [link_modLink_self k]
  rw [show ([] : List FlitBody) = default from rfl, getD_setAt, if_pos rfl]
  exact List.mem_append_right _ List.mem_cons_self

/-- Sending the first flit that waits puts it out and leaves every other in its queue (R267). -/
theorem sendOne_kept (s : State) (p : Port) : FlitsKept s (s.sendOne p) := by
  have hm := State.sendOne_moves (s := s) (p := p) (fl := [.counters, .links, .out]) (Moves.refl _ _) (by decide)
  refine ⟨hm.canon, congrArg Regs.chainPos (hm.frame .regs (by decide)), hm.grows, fun k q d x hx => ?_⟩
  unfold State.sendOne
  dsimp only
  split
  · split
    · exact .inr hx
    · next c hc =>
      split
      · exact .inr hx
      · next b bs hq =>
        set u := (s.emit (.flit p c (s.link p).txSeq (if (s.link p).heard then some ((s.link p).rxSeq - 1) else none)
          (((List.range 4).find? fun i => decide (0 < (s.link p).owed.getD i 0)).getD 0,
            min 63 ((s.link p).owed.getD (((List.range 4).find? fun i => decide (0 < (s.link p).owed.getD i 0)).getD 0) 0)) b)).count
          (Ctr.flitsTx (portNo p)) with hu
        have hul : ∀ r, u.link r = s.link r := fun _ => rfl
        have ku : u.Canonical :=
          (State.count_moves (State.emit_moves (fl := [.counters, .out]) (Moves.refl _ _) (by decide)) (by decide)).canon k
        by_cases hqp : q = p
        · subst hqp
          by_cases hd : d = c
          · subst hd
            rw [State.waits, hq] at hx
            rcases List.mem_cons.1 hx with rfl | hx
            · exact .inl ⟨_, _, _, _, rfl, List.mem_cons_self⟩
            · right
              rw [link_modLink_self ku]
              rw [show ([] : List FlitBody) = default from rfl, getD_setAt, if_pos rfl]
              exact hx
          · right
            rw [link_modLink_self ku]
            rw [show ([] : List FlitBody) = default from rfl, getD_setAt, if_neg hd]
            exact hx
        · right
          rw [link_modLink_ne ku hqp]
          exact hx
  · exact .inr hx

theorem pump_kept (p : Port) : ∀ (n : Nat) (s : State), FlitsKept s (s.pump p n)
  | 0, s => .refl s
  | n + 1, s => (sendOne_kept s p).trans (pump_kept p n (s.sendOne p))

theorem send_kept (s : State) (p : Port) (c : Nat) (b : FlitBody) : FlitsKept s (s.send p c b) :=
  (modLink_enqueue_kept s p c b).trans (pump_kept p _ _)

/-- A flit that is sent goes out, or waits for the port, a credit and room (R267, R274). -/
theorem send_sent {s : State} (k : s.Canonical) (p : Port) (c : Nat) (b : FlitBody) : Sent s (s.send p c b) p c b := by
  have hk := modLink_enqueue_kept s p c b
  exact ((pump_kept p _ _).kept (hk.canon k) p c b (modLink_enqueue_waits k p c b)).after hk.grows

theorem acknowledge_kept (s : State) (p : Port) : FlitsKept s (s.acknowledge p) := send_kept s p 0 .ack

/-- The links of the other ports stay as they are when a port sends. -/
theorem sendOne_link_ne {s : State} (k : s.Canonical) {p q : Port} (h : q ≠ p) : (s.sendOne p).link q = s.link q := by
  unfold State.sendOne
  dsimp only
  split
  · split
    · rfl
    · split
      · rfl
      · refine (link_modLink_ne ?_ h _).trans rfl
        exact (State.count_moves (State.emit_moves (fl := [.counters, .out]) (Moves.refl _ _) (by decide)) (by decide)).canon k
  · rfl

theorem pump_link_ne {p q : Port} (h : q ≠ p) : ∀ (n : Nat) {s : State}, s.Canonical → (s.pump p n).link q = s.link q
  | 0, _, _ => rfl
  | n + 1, s, k => by
    rw [State.pump, pump_link_ne h n ((sendOne_kept s p).canon k), sendOne_link_ne k h]

theorem send_link_ne {s : State} (k : s.Canonical) {p q : Port} (h : q ≠ p) (c : Nat) (b : FlitBody) :
    (s.send p c b).link q = s.link q := by
  rw [State.send, State.pumpAll, pump_link_ne h _ ((modLink_enqueue_kept s p c b).canon k), link_modLink_ne k h]

theorem State.link_count (s : State) (i n : Nat) (p : Port) : (s.count i n).link p = s.link p := rfl

/-- Accepting a flit leaves the other ports as they are. -/
theorem acceptFlit_link_ne {s : State} (k : s.Canonical) (hd : FlitHdr) {q : Port} (h : q ≠ hd.port) :
    (s.acceptFlit hd).link q = s.link q := by
  have km : ∀ {u : State} (f : Link → Link), u.Canonical → (u.modLink hd.port f).Canonical := fun f ku =>
    (State.modLink_moves (fl := [.links]) (Moves.refl _ _) (by decide)).canon ku
  have kc : ∀ {u : State} (i n : Nat), u.Canonical → (u.count i n).Canonical := fun i n ku =>
    (State.count_moves (fl := [.counters]) (Moves.refl _ _) (by decide)).canon ku
  unfold State.acceptFlit State.takeAck State.pumpAll
  dsimp only
  rw [pump_link_ne h _ (km _ (kc _ _ (km _ k))), link_modLink_ne (kc _ _ (km _ k)) h]
  exact (State.link_count _ _ _ _).trans (link_modLink_ne k h _)

end Sys2Proof.Machine

/-! PROOFS. What the work of a tile is made of: flits that it sends, marks on steps and products, and changes of the other pieces. From
that one account follow what it leaves of the flits that wait, of the steps in flight and of the products. -/

namespace Sys2Proof.Machine

/-- A change of a step that leaves its name and its transfers alone. -/
def StepMark (f : Step → Step) : Prop := ∀ x, (f x).call = x.call ∧ (f x).step = x.step ∧ (f x).xferDone = x.xferDone

/-- A change of a product that leaves its name, its codes, its plan and its totals alone. -/
def ProdMark (g : Prod → Prod) : Prop :=
  ∀ p, (g p).id = p.id ∧ (g p).key = p.key ∧ (g p).rowTile = p.rowTile ∧ (g p).codes = p.codes ∧ (g p).plan = p.plan ∧
    (g p).hiVal = p.hiVal ∧ (g p).loVal = p.loVal

/-- Every piece but the links, the registers, the steps and the products with their count. -/
abbrev tileQuiet : List Field :=
  (.free :: .pending :: everyPiece).filter fun f => f ≠ .links ∧ f ≠ .regs ∧ f ≠ .steps ∧ f ≠ .prods ∧ f ≠ .nextProd

/-- What the work of tiles does: in some order it sends flits, marks steps and products, and changes other pieces. -/
inductive TileWork : State → State → Prop where
  | quiet {s t : State} (h : Moves tileQuiet s t) : TileWork s t
  | send (s : State) (p : Port) (c : Nat) (b : FlitBody) : TileWork s (s.send p c b)
  | steps (s : State) {f : Step → Step} (hf : StepMark f) : TileWork s { s with steps := s.steps.map f }
  | prods (s : State) {g : Prod → Prod} (hg : ProdMark g) : TileWork s { s with prods := s.prods.map g }
  | trans {s t u : State} (h : TileWork s t) (k : TileWork t u) : TileWork s u

namespace TileWork

theorem refl (s : State) : TileWork s s := .quiet (.refl _ s)

theorem modStep (s : State) (c n : Nat) {f : Step → Step} (hf : StepMark f := by exact fun _ => ⟨rfl, rfl, rfl⟩) :
    TileWork s (s.modStep c n f) :=
  .steps s fun x => by
    split
    · exact hf x
    · exact ⟨rfl, rfl, rfl⟩

theorem modProd (s : State) (i : Nat) {g : Prod → Prod}
    (hg : ProdMark g := by exact fun _ => ⟨rfl, rfl, rfl, rfl, rfl, rfl, rfl⟩) : TileWork s (s.modProd i g) :=
  .prods s fun p => by
    split
    · exact hg p
    · exact ⟨rfl, rfl, rfl, rfl, rfl, rfl, rfl⟩

theorem foldl {α : Type} {f : State → α → State} (hf : ∀ s x, TileWork s (f s x)) :
    ∀ (xs : List α) (s : State), TileWork s (xs.foldl f s)
  | [], s => refl s
  | x :: xs, s => (hf s x).trans (foldl hf xs (f s x))

theorem each {α : Type} {f : State → α → State} (s : State) (xs : List α) (hf : ∀ s x, TileWork s (f s x)) :
    TileWork s (s.each xs f) := foldl hf xs s

/-- No flit that waits is dropped. -/
theorem flitsKept {s t : State} (h : TileWork s t) : FlitsKept s t := by
  induction h with
  | quiet h => exact .of_moves (h.mono (by decide))
  | send s p c b => exact send_kept s p c b
  | steps s hf =>
    exact ⟨fun c => ⟨c.parts, c.rings, c.counters, c.calls, c.customers, c.tiles, c.boughs, c.calSave, c.links, c.mem⟩,
      rfl, List.prefix_rfl, fun _ _ _ _ hb => .inr hb⟩
  | prods s hg =>
    exact ⟨fun c => ⟨c.parts, c.rings, c.counters, c.calls, c.customers, c.tiles, c.boughs, c.calSave, c.links, c.mem⟩,
      rfl, List.prefix_rfl, fun _ _ _ _ hb => .inr hb⟩
  | trans _ _ h k => exact h.trans k

theorem steps_eq {s t : State} (h : TileWork s t) : ∃ f, StepMark f ∧ t.steps = s.steps.map f := by
  have hid : StepMark id := fun _ => ⟨rfl, rfl, rfl⟩
  induction h with
  | quiet h => exact ⟨id, hid, by rw [List.map_id]; exact h.frame .steps (by decide)⟩
  | send s p c b =>
    exact ⟨id, hid, by
      rw [List.map_id]
      exact (State.send_moves (fl := [.counters, .links, .out]) (Moves.refl _ s) (by decide)).frame .steps (by decide)⟩
  | steps s hf => exact ⟨_, hf, rfl⟩
  | prods s hg => exact ⟨id, hid, (List.map_id _).symm⟩
  | trans _ _ h k =>
    obtain ⟨f, hf, hs⟩ := h
    obtain ⟨g, hg, ht⟩ := k
    refine ⟨g ∘ f, fun x => ?_, by rw [ht, hs, List.map_map]⟩
    obtain ⟨f1, f2, f3⟩ := hf x
    obtain ⟨g1, g2, g3⟩ := hg (f x)
    exact ⟨g1.trans f1, g2.trans f2, g3.trans f3⟩

theorem prods_eq {s t : State} (h : TileWork s t) : ∃ g, ProdMark g ∧ t.prods = s.prods.map g := by
  have hid : ProdMark id := fun _ => ⟨rfl, rfl, rfl, rfl, rfl, rfl, rfl⟩
  induction h with
  | quiet h => exact ⟨id, hid, by rw [List.map_id]; exact h.frame .prods (by decide)⟩
  | send s p c b =>
    exact ⟨id, hid, by
      rw [List.map_id]
      exact (State.send_moves (fl := [.counters, .links, .out]) (Moves.refl _ s) (by decide)).frame .prods (by decide)⟩
  | steps s hf => exact ⟨id, hid, (List.map_id _).symm⟩
  | prods s hg => exact ⟨_, hg, rfl⟩
  | trans _ _ h k =>
    obtain ⟨f, hf, hs⟩ := h
    obtain ⟨g, hg, ht⟩ := k
    refine ⟨g ∘ f, fun x => ?_, by rw [ht, hs, List.map_map]⟩
    obtain ⟨f1, f2, f3, f4, f5, f6, f7⟩ := hf x
    obtain ⟨g1, g2, g3, g4, g5, g6, g7⟩ := hg (f x)
    exact ⟨g1.trans f1, g2.trans f2, g3.trans f3, g4.trans f4, g5.trans f5, g6.trans f6, g7.trans f7⟩

theorem nextProd_eq {s t : State} (h : TileWork s t) : t.nextProd = s.nextProd := by
  induction h with
  | quiet h => exact h.frame .nextProd (by decide)
  | send s p c b => exact (State.send_moves (fl := [.counters, .links, .out]) (Moves.refl _ s) (by decide)).frame .nextProd (by decide)
  | steps s hf => rfl
  | prods s hg => rfl
  | trans _ _ h k => exact k.trans h

end TileWork

/-- A change that keeps what a search looks at changes the element found. -/
theorem find?_map_of_same {α : Type} (q : α → Bool) {f : α → α} (hf : ∀ x, q (f x) = q x) (xs : List α) :
    (xs.map f).find? q = (xs.find? q).map f := by
  rw [List.find?_map, show q ∘ f = q from funext hf]

/-- A change of the elements that a search looks for changes the element found. -/
theorem find?_map_ite {α : Type} {q : α → Bool} {f : α → α} {x : α} (hf : q (f x) = true) : ∀ {xs : List α}, xs.find? q = some x →
    (xs.map fun y => if q y then f y else y).find? q = some (f x)
  | [], h => by cases h
  | y :: ys, h => by
    by_cases hy : q y = true
    · rw [List.find?_cons_of_pos hy] at h
      cases h
      rw [List.map_cons, if_pos hy, List.find?_cons_of_pos hf]
    · rw [List.find?_cons_of_neg hy] at h
      rw [List.map_cons, if_neg hy, List.find?_cons_of_neg hy, find?_map_ite hf h]

theorem step?_name {s : State} {c n : Nat} {x : Step} (hx : s.step? c n = some x) : (x.call == c && x.step == n) = true := by
  exact List.find?_some (p := fun x : Step => x.call == c && x.step == n) hx

theorem prod?_name {s : State} {i : Nat} {p : Prod} (hp : s.prod? i = some p) : (p.id == i) = true := by
  exact List.find?_some (p := fun p : Prod => p.id == i) hp

theorem step?_modStep_self {s : State} {c n : Nat} {x : Step} (hx : s.step? c n = some x) {f : Step → Step}
    (hf : (f x).call = x.call ∧ (f x).step = x.step) : (s.modStep c n f).step? c n = some (f x) :=
  find?_map_ite (by rw [hf.1, hf.2, step?_name hx]) hx

theorem prod?_modProd_self {s : State} {i : Nat} {p : Prod} (hp : s.prod? i = some p) {g : Prod → Prod} (hg : (g p).id = p.id) :
    (s.modProd i g).prod? i = some (g p) :=
  find?_map_ite (by rw [hg, prod?_name hp]) hp

/-- A step in flight stays in flight, its transfers as they were. -/
theorem TileWork.step? {s t : State} (h : TileWork s t) {c n : Nat} {x : Step} (hx : s.step? c n = some x) :
    ∃ y, t.step? c n = some y ∧ y.xferDone = x.xferDone := by
  obtain ⟨f, hf, hs⟩ := h.steps_eq
  refine ⟨f x, ?_, (hf x).2.2⟩
  unfold State.step? at hx ⊢
  rw [hs, find?_map_of_same _ (fun y => by rw [(hf y).1, (hf y).2.1]), hx]
  rfl

theorem TileWork.prod? {s t : State} (h : TileWork s t) {i : Nat} {p : Prod} (hp : s.prod? i = some p) :
    ∃ q, t.prod? i = some q ∧ q.key = p.key ∧ q.plan = p.plan ∧ q.hiVal = p.hiVal ∧ q.loVal = p.loVal := by
  obtain ⟨g, hg, hs⟩ := h.prods_eq
  obtain ⟨-, hkey, -, -, hplan, hhi, hlo⟩ := hg p
  refine ⟨g p, ?_, hkey, hplan, hhi, hlo⟩
  unfold State.prod? at hp ⊢
  rw [hs, find?_map_of_same _ (fun y => by rw [(hg y).1]), hp]
  rfl

theorem TileWork.mem_prods {s t : State} (h : TileWork s t) {p : Prod} (hp : p ∈ s.prods) :
    ∃ q ∈ t.prods, q.id = p.id ∧ q.key = p.key ∧ q.rowTile = p.rowTile ∧ q.codes = p.codes := by
  obtain ⟨g, hg, hs⟩ := h.prods_eq
  obtain ⟨hid, hkey, hrow, hcodes, -⟩ := hg p
  exact ⟨g p, hs ▸ List.mem_map_of_mem hp, hid, hkey, hrow, hcodes⟩

/-! ### The operations of a tile -/

section
variable (s : State)

theorem releaseOutput_work (c n : Nat) : TileWork s (s.releaseOutput c n) := by
  unfold State.releaseOutput
  split
  · exact .refl s
  · split
    · exact .refl s
    · exact (TileWork.each _ _ fun s _ => .send s _ _ _).trans (TileWork.each _ _ fun s _ => .send s _ _ _)

theorem settleLocal_work (c n : Nat) : TileWork s (s.settleLocal c n) := by
  unfold State.settleLocal
  refine .trans ?_ (.quiet (State.fault_moves (State.modDaily_moves (State.count_moves (Moves.refl _ _) (by decide)) (by decide)) (by decide)))
  exact .trans (.modStep _ c n) (releaseOutput_work _ c n)

/-- A step becomes suspect and its retake is asked, or it is settled locally (R317, R319). -/
theorem suspectStep_work (c n : Nat) : TileWork s (s.suspectStep c n) := by
  unfold State.suspectStep
  split
  · exact .refl s
  · split
    · exact .refl s
    · extract_lets e s1 s2 s3 s4
      have h2 : TileWork s s2 :=
        .trans (.modStep s c n) (.quiet (State.modDaily_moves (State.count_moves (Moves.refl _ _) (by decide)) (by decide)))
      split
      · refine .trans ?_ (.modStep s4 c n)
        have h3 : TileWork s s3 :=
          .trans (h2.trans (.quiet (State.count_moves (Moves.refl _ _) (by decide)))) (.send _ .t 1 _)
        show TileWork s (if _ then _ else _)
        split
        · exact h3
        · exact h3.trans (.send _ .d 2 _)
      · exact h2.trans (settleLocal_work _ c n)

/-- A product becomes suspect, and its step with it (R308, R320). -/
theorem suspectProd_work (i : Nat) : TileWork s (s.suspectProd i) := by
  unfold State.suspectProd
  split
  · exact .refl s
  · next p _ =>
    split
    · exact .refl s
    · extract_lets s1 w
      have h1 : TileWork s s1 := .trans (.modProd s i) (.quiet (State.count_moves (Moves.refl _ _) (by decide)))
      split
      · exact h1
      · split
        · exact h1.trans (suspectStep_work _ _ _)
        · exact h1.trans (.trans (.modProd s1 i) (.modStep _ w.call w.step))

theorem countIf_quiet {r s : State} (c : Prop) [Decidable c] (h : Moves tileQuiet r s) (k n : Nat) :
    Moves tileQuiet r (if c then s.count k n else s) := Moves.ite (State.count_moves h (by decide)) h

/-- The conditions of Table 04-5 mark the product and its step (R91, R132). -/
theorem boundConditions_work (p : Prod) : TileWork s (s.boundConditions p) := by
  unfold State.boundConditions
  extract_lets b x code badTemp badCal drifted s1 s2 s3 s4 s5 s6
  have h5 : TileWork s s5 := by
    have h4 : Moves tileQuiet s s4 :=
      countIf_quiet _ (countIf_quiet _ (countIf_quiet _ (countIf_quiet _ (Moves.refl _ s) _ _) _ _) _ _) _ _
    exact .quiet (Moves.ite h4 (State.count_moves h4 (by decide)))
  have h6 : TileWork s s6 := by
    show TileWork s (if _ then _ else _)
    split
    · exact h5.trans (.trans (.modProd s5 p.id) (.modStep _ p.key.work.call p.key.work.step))
    · exact h5
  split
  · refine .trans ?_ (.quiet (State.fault_moves (Moves.refl _ _) (by decide)))
    exact h6.trans (suspectProd_work s6 p.id)
  · exact h6

theorem firstPhase_work (p : Prod) : TileWork s (s.firstPhase p) := by
  unfold State.firstPhase
  exact .trans (.trans (.modProd s p.id) (.quiet (State.modTile_moves (Moves.refl _ _) (by decide)))) (boundConditions_work _ p)

theorem noteConflicts_work (t d : Nat) : TileWork s (s.noteConflicts t d) := by
  unfold State.noteConflicts
  refine .trans (.quiet (State.count_moves (Moves.refl _ s) (by decide))) (.prods _ fun p => ?_)
  split <;> exact ⟨rfl, rfl, rfl, rfl, rfl, rfl, rfl⟩

/-- The grant of a phase (R36, R95). -/
theorem startPhase_work (t : Nat) (p : Prod) : TileWork s (s.startPhase t p) := by
  unfold State.startPhase
  extract_lets b s1 s2
  split
  · exact .quiet (State.wakeBough_moves (Moves.refl _ _) (by decide))
  · split
    · exact .quiet (State.count_moves (Moves.refl _ _) (by decide))
    · split
      · exact .quiet (State.withhold_moves (Moves.refl _ _) (by decide))
      · have h1 : TileWork s (if p.latched then s else s.firstPhase p) := by
          split
          · exact .refl s
          · exact firstPhase_work s p
        refine .trans (h1.trans (noteConflicts_work _ t p.deck)) (.quiet ?_)
        exact State.modTile_moves (State.modBough_moves (State.charge_moves (Moves.refl _ _) (by decide)) (by decide)) (by decide)

/-- What a tile starts next is tile work (R36, R191). -/
theorem tileNext_work (t : Nat) : TileWork s (s.tileNext t) := by
  unfold State.tileNext
  extract_lets s1 x p
  have h1 : TileWork s s1 := .quiet (State.dropRefused_moves (Moves.refl _ _) (by decide))
  have hprog : TileWork s (s1.startProg t) := h1.trans (.quiet (State.startProg_moves (Moves.refl _ _) (by decide)))
  clear_value p
  split
  · exact h1
  · split
    · exact hprog
    · split
      · exact h1.trans (startPhase_work _ t _)
      · split
        · exact hprog
        · exact h1

theorem mismatch_work (p : Prod) (bad : List (Nat × Bool × Int)) : TileWork s (s.mismatch p bad) := by
  unfold State.mismatch
  split
  · exact .refl s
  · refine .trans (.trans (.quiet ?_) (suspectProd_work _ p.id)) (.quiet (State.queueRepeat_moves (Moves.refl _ _) (by decide)))
    exact State.workEvent_moves (State.modFaults_moves (State.count_moves (Moves.refl _ s) (by decide)) (by decide)) (by decide)

/-- The end of a product's last phase marks it, its step and its tiles (R33, R104, R109). -/
theorem lastPhase_work (i : Nat) : TileWork s (s.lastPhase i) := by
  unfold State.lastPhase
  split
  · exact .refl s
  · next p _ =>
    extract_lets s0 r s1 s2 s3 s4
    have h1 : TileWork s s1 := by
      show TileWork s (if _ then _ else _)
      split
      · exact .refl s
      · refine .trans (.trans (.quiet ?_) (suspectProd_work s0 i)) (.quiet (State.queueRepeat_moves (Moves.refl _ _) (by decide)))
        exact State.workEvent_moves (Moves.refl _ s) (by decide)
    have h2 : TileWork s1 s2 := by
      unfold s2
      split
      · exact .refl _
      · split
        · exact .trans (.quiet (State.modBough_moves (Moves.refl _ s1) (by decide))) (.modStep _ p.key.work.call p.key.work.step)
        · exact .trans (.quiet (State.count_moves (Moves.refl _ s1) (by decide))) (.modProd _ i)
    have h3 : TileWork s s3 := by
      show TileWork s (if _ then _ else _)
      split
      · exact (h1.trans h2).trans (mismatch_work _ _ _)
      · exact h1.trans h2
    split
    · exact h3
    · exact .trans (h3.trans (.modProd s3 i)) (.quiet (State.holdTiles_moves (Moves.refl _ _) (by decide)))

/-- A product comes to its tile (R17). -/
theorem enqueueProd_work (p : Prod) : TileWork s (s.enqueueProd p) := by
  unfold State.enqueueProd
  split
  · exact lastPhase_work s p.id
  · extract_lets s1
    have h1 : Moves tileQuiet s s1 := by
      show Moves tileQuiet s (match (s.tile p.tile).active with | .progStep => _ | .product i => _ | .idle => _)
      split
      · exact State.count_moves (Moves.refl _ s) (by decide)
      · exact Moves.ite (State.count_moves (Moves.refl _ s) (by decide)) (Moves.refl _ s)
      · exact Moves.refl _ s
    exact .trans (.quiet (State.modTile_moves h1 (by decide))) (tileNext_work _ p.tile)

end

end Sys2Proof.Machine

/-! PROOFS. Calls: what a write of a call's entry shows, and which operations keep a property of one call's entry. -/

namespace Sys2Proof.Machine

/-! ### Tables and sorted lists -/

/-- A listed value is the one read at its key. -/
theorem get_of_mem {α : Type} {d : α} {k : Nat} {v : α} : ∀ {t : Tbl α}, Tbl.Rising t → (k, v) ∈ t → Tbl.get d k t = v
  | (j, w) :: t, hr, hm => by
    obtain ⟨h1, h2⟩ := List.pairwise_cons.1 hr
    rcases List.mem_cons.1 hm with h | h
    · cases h
      simp [Tbl.get]
    · have hlt : j < k := h1 _ h
      rw [Tbl.get, if_neg (by omega), if_neg (by omega), get_of_mem h2 h]

/-- A value other than the default is listed. -/
theorem mem_of_get {α : Type} {d : α} {k : Nat} : ∀ {t : Tbl α}, Tbl.get d k t ≠ d → (k, Tbl.get d k t) ∈ t
  | [], h => absurd rfl h
  | (j, w) :: t, h => by
    unfold Tbl.get at h ⊢
    split at h
    · next e => rw [if_pos e, ← e]; exact List.mem_cons_self
    · next e =>
      rw [if_neg e]
      split at h
      · exact absurd rfl h
      · next e' => rw [if_neg e']; exact List.mem_cons_of_mem _ (mem_of_get h)

theorem mem_insertSorted {α : Type} {before : α → α → Bool} {x y : α} :
    ∀ {xs : List α}, y ∈ insertSorted before x xs ↔ y = x ∨ y ∈ xs
  | [] => by simp [insertSorted]
  | z :: zs => by
    unfold insertSorted
    split
    · exact List.mem_cons
    · rw [List.mem_cons, mem_insertSorted (xs := zs), List.mem_cons]
      tauto

theorem mem_sortBy {α : Type} {before : α → α → Bool} {y : α} {xs : List α} : y ∈ sortBy before xs ↔ y ∈ xs := by
  have h : ∀ (xs l : List α), y ∈ xs.foldl (fun l x => insertSorted before x l) l ↔ y ∈ l ∨ y ∈ xs := by
    intro xs
    induction xs with
    | nil => simp
    | cons x xs ih =>
      intro l
      rw [List.foldl_cons, ih, mem_insertSorted, List.mem_cons]
      tauto
  exact (h xs []).trans (by simp)

theorem mem_callsWhere {s : State} (k : s.Canonical) {ok : Entry → Bool} {c : Nat} :
    c ∈ s.callsWhere ok ↔ (s.call c).state ≠ .free ∧ ok (s.call c) = true := by
  unfold State.callsWhere
  simp only [List.mem_map, mem_sortBy, List.mem_filter, Bool.and_eq_true, decide_eq_true_eq]
  constructor
  · rintro ⟨⟨i, e⟩, ⟨hm, hs, hok⟩, rfl⟩
    have he : s.call i = e := get_of_mem (Tbl.rising_of_wf k.calls) hm
    rw [he]
    exact ⟨hs, hok⟩
  · rintro ⟨hs, hok⟩
    refine ⟨(c, s.call c), ⟨mem_of_get fun h => hs ?_, hs, hok⟩, rfl⟩
    rw [State.call, h]

/-! ### Writes of an entry -/

theorem canonical_setCall {s : State} (k : s.Canonical) (c : Nat) (e : Entry) : ({ s with calls := Tbl.set {} c e s.calls } : State).Canonical :=
  ⟨k.parts, k.rings, k.counters, Tbl.wf_set k.calls, k.customers, k.tiles, k.boughs, k.calSave, k.links, k.mem⟩

theorem putCall_calls (s : State) (c : Nat) (e : Entry) : (s.putCall c e).calls = Tbl.set {} c e s.calls := by
  unfold State.putCall
  dsimp only
  split
  · rfl
  · exact (State.journal_moves (fl := [.counters, .links, .out]) (Moves.refl _ _) (by decide)).frame .calls (by decide)

theorem call_setCall_self {s : State} (k : s.Canonical) (c : Nat) (e : Entry) :
    ({ s with calls := Tbl.set {} c e s.calls } : State).call c = e := Tbl.get_set_self (Tbl.rising_of_wf k.calls)

theorem call_setCall_ne {s : State} (k : s.Canonical) {c d : Nat} (h : c ≠ d) (e : Entry) :
    ({ s with calls := Tbl.set {} d e s.calls } : State).call c = s.call c := Tbl.get_set_ne h (Tbl.rising_of_wf k.calls)

theorem call_putCall_self {s : State} (k : s.Canonical) (c : Nat) (e : Entry) : (s.putCall c e).call c = e := by
  rw [State.call, putCall_calls]
  exact call_setCall_self k c e

theorem call_putCall_ne {s : State} (k : s.Canonical) {c d : Nat} (h : c ≠ d) (e : Entry) : (s.putCall d e).call c = s.call c := by
  rw [State.call, putCall_calls]
  exact call_setCall_ne k h e

theorem call_modCall_self {s : State} (k : s.Canonical) (c : Nat) (f : Entry → Entry) : (s.modCall c f).call c = f (s.call c) :=
  call_putCall_self k c _

/-! ### A property of one call's entry -/

/-- From `s` to `t` the entry of call `c` keeps a property. -/
structure Stays (P : Entry → Prop) (c : Nat) (s t : State) : Prop where
  canon : s.Canonical → t.Canonical
  kept : s.Canonical → P (s.call c) → P (t.call c)

/-- Every piece but the calls. -/
abbrev callQuiet : List Field := (.free :: .pending :: everyPiece).filter (· ≠ .calls)

/-- The property holds on when a written entry is freed, and holds of no call that still waits for its charge. -/
structure Settled (P : Entry → Prop) : Prop where
  freed : ∀ e, P e → e.written = true → P {}
  charged : ∀ e, P e → e.state = .queued → e.ended = true

namespace Stays
variable {P : Entry → Prop} {c : Nat} {r s t u : State}

theorem refl (s : State) : Stays P c s s := ⟨id, fun _ => id⟩

theorem trans (h : Stays P c s t) (k : Stays P c t u) : Stays P c s u :=
  ⟨fun x => k.canon (h.canon x), fun x p => k.kept (h.canon x) (h.kept x p)⟩

theorem of_calls (hc : s.Canonical → t.Canonical) (h : t.calls = s.calls) : Stays P c s t :=
  ⟨hc, fun _ p => by rw [State.call, h]; exact p⟩

/-- An operation that leaves the calls alone. -/
theorem of_moves (h : Moves callQuiet s t) : Stays P c s t := .of_calls h.canon (h.frame .calls (by decide))

theorem quiet (h : Stays P c r s) (k : Moves callQuiet s t) : Stays P c r t := h.trans (.of_moves k)

theorem foldl {α : Type} {f : State → α → State} : ∀ (xs : List α) {s : State}, (∀ s, ∀ x ∈ xs, Stays P c s (f s x)) →
    Stays P c s (xs.foldl f s)
  | [], s, _ => .refl s
  | x :: xs, _, hf => (hf _ x List.mem_cons_self).trans (foldl xs fun s y hy => hf s y (List.mem_cons_of_mem _ hy))

theorem each {α : Type} {f : State → α → State} (s : State) (xs : List α) (hf : ∀ s, ∀ x ∈ xs, Stays P c s (f s x)) :
    Stays P c s (s.each xs f) := foldl xs hf

/-- A write of an entry: another call's, or one that keeps the property. -/
theorem setCall (s : State) {d : Nat} {e : Entry} (h : c = d → P e) : Stays P c s { s with calls := Tbl.set {} d e s.calls } :=
  ⟨fun k => canonical_setCall k d e, fun k p => by
    by_cases hd : c = d
    · subst hd
      rw [call_setCall_self k]
      exact h rfl
    · rw [call_setCall_ne k hd]
      exact p⟩

theorem putCall (s : State) {d : Nat} {e : Entry} (h : c = d → P e) : Stays P c s (s.putCall d e) :=
  ⟨(State.putCall_moves (fl := [.counters, .calls, .links, .out]) (Moves.refl _ s) (by decide)).canon, fun k p => by
    by_cases hd : c = d
    · subst hd
      rw [call_putCall_self k]
      exact h rfl
    · rw [call_putCall_ne k hd]
      exact p⟩

theorem modCall (s : State) {d : Nat} {f : Entry → Entry} (h : c = d → P (s.call d) → P (f (s.call d))) : Stays P c s (s.modCall d f) :=
  ⟨(State.modCall_moves (fl := [.counters, .calls, .links, .out]) (Moves.refl _ s) (by decide)).canon, fun k p => by
    by_cases hd : c = d
    · subst hd
      rw [call_modCall_self k]
      exact h rfl p
    · rw [State.modCall, call_putCall_ne k hd]
      exact p⟩

theorem modCall_ne (s : State) {d : Nat} (h : c ≠ d) (f : Entry → Entry) : Stays P c s (s.modCall d f) := .modCall s fun e => absurd e h

end Stays

/-! ### Records, charges and frees -/

section
variable {P : Entry → Prop} {c : Nat} (s : State)

theorem recordOut_stays {frees : Option Nat} (h : frees = some c → ∀ e, P e → P { e with written := true }) :
    Stays P c s (s.recordOut frees) := by
  refine ⟨(State.recordOut_moves (fl := [.calls]) (Moves.refl _ s) (by decide)).canon, fun k p => ?_⟩
  unfold State.recordOut
  split
  · exact p
  · next d =>
    split
    · by_cases hd : c = d
      · subst hd
        rw [Tbl.update, call_setCall_self k]
        exact h rfl _ p
      · rw [Tbl.update, call_setCall_ne k hd]
        exact p
    · exact p

theorem putRecord_stays (r : RingId) {w : Waiting} (h : w.frees = some c → ∀ e, P e → P { e with written := true }) :
    Stays P c s (s.putRecord r w) := by
  unfold State.putRecord
  extract_lets g s1 s2 s3
  have h2 : Stays P c s s2 :=
    (Stays.of_moves (State.modRing_moves (State.emit_moves (Moves.refl _ s) (by decide)) (by decide))).trans (recordOut_stays _ h)
  split
  · exact h2
  · have h3 : Moves callQuiet s2 s3 := State.modRing_moves (Moves.refl _ s2) (by decide)
    exact h2.quiet (Moves.ite (State.interrupt_moves h3 (by decide)) h3)

theorem discardRecord_stays (r : RingId) {w : Waiting} (h : w.frees = some c → ∀ e, P e → P { e with written := true }) :
    Stays P c s (s.discardRecord r w) := by
  unfold State.discardRecord
  refine .trans (.of_moves ?_) (recordOut_stays _ h)
  split <;> exact State.count_moves (Moves.refl _ s) (by decide)

/-- Writing a record can only mark the entry that it frees as written (R199, R246). -/
theorem writeRecord_stays (r : RingId) {w : Waiting} (h : w.frees = some c → ∀ e, P e → P { e with written := true }) :
    Stays P c s (s.writeRecord r w) := by
  unfold State.writeRecord
  extract_lets g
  split
  · exact .of_moves (State.modRing_moves (Moves.refl _ s) (by decide))
  · split
    · exact discardRecord_stays s r h
    · split
      · split
        · exact .of_moves (State.modRing_moves (State.count_moves (Moves.refl _ s) (by decide)) (by decide))
        · exact putRecord_stays s r h
      · split
        · exact .of_moves (State.modRing_moves (Moves.refl _ s) (by decide))
        · exact putRecord_stays s r h

theorem completeWith_stays (j : Job) (st : Status) (r0 r1 : Nat) {frees : Option Nat}
    (h : frees = some c → ∀ e, P e → P { e with written := true }) : Stays P c s (s.completeWith j st r0 r1 frees) := by
  unfold State.completeWith
  extract_lets s1
  have h1 : Stays P c s s1 :=
    .of_calls (fun k => ⟨k.parts, k.rings, k.counters, k.calls, k.customers, k.tiles, k.boughs, k.calSave, k.links, k.mem⟩) rfl
  refine h1.trans ?_
  split <;> exact writeRecord_stays s1 _ h

theorem chargeQueued_stays {d : Nat} (h : c ≠ d) : Stays P c s (s.chargeQueued d) := by
  unfold State.chargeQueued
  extract_lets e p
  split
  · exact (Stays.of_moves (State.modPart_moves (Moves.refl _ s) (by decide))).trans (.putCall _ fun e => absurd e h)
  · exact .refl s

theorem chargeAll_stays (p : Nat) : ∀ (ds : List Nat) (s : State), c ∉ ds → Stays P c s (s.chargeAll p ds)
  | [], s, _ => .refl s
  | d :: ds, s, h => by
    have h1 := chargeQueued_stays (P := P) s (List.ne_of_not_mem_cons h)
    unfold State.chargeAll
    dsimp only
    split
    · exact .refl s
    · exact h1.trans (chargeAll_stays p ds _ (List.not_mem_of_not_mem_cons h))

theorem chargeWaiting_stays (hP : Settled P) (p : Nat) : Stays P c s (s.chargeWaiting p) := by
  refine ⟨(State.chargeWaiting_moves (fl := [.parts, .counters, .calls, .links, .out]) (Moves.refl _ s) (by decide)).canon, fun k hp => ?_⟩
  refine (chargeAll_stays p _ s fun hc => ?_).kept k hp
  obtain ⟨-, hok⟩ := (mem_callsWhere k).1 hc
  simp only [Bool.and_eq_true, decide_eq_true_eq, Bool.not_eq_true'] at hok
  obtain ⟨⟨-, hq⟩, he⟩ := hok
  rw [hP.charged _ hp hq] at he
  cases he

theorem afterFree_stays (hP : Settled P) (p : Nat) : Stays P c s (s.afterFree p) := by
  unfold State.afterFree
  refine (chargeWaiting_stays s hP p).quiet ?_
  exact Moves.ite (State.modPart_moves (Moves.refl _ _) (by decide)) (Moves.refl _ _)

theorem freeWritten_stays (hP : Settled P) : Stays P c s s.freeWritten := by
  refine ⟨(State.freeWritten_moves (fl := [.parts, .rings, .counters, .calls, .grafts, .mem, .links, .sec, .out]) (Moves.refl _ s)
    (by decide)).canon, fun k hp => ?_⟩
  refine (Stays.each s _ fun u d hd => ?_).kept k hp
  have hf : c = d → P {} := by
    rintro rfl
    obtain ⟨⟨i, e⟩, hm, rfl⟩ := List.mem_map.1 hd
    obtain ⟨hm, hw⟩ := List.mem_filter.1 hm
    have he : s.call i = e := get_of_mem (Tbl.rising_of_wf k.calls) hm
    exact hP.freed _ hp (he ▸ hw)
  refine .trans (.trans (.of_moves ?_) (.setCall _ hf)) (afterFree_stays _ hP _)
  exact State.releaseHoldings_moves (Moves.refl _ u) (by decide)

end

/-- The end of a call writes its entry, held or ended, after changes of other pieces; what follows is settled work (R198, R199). -/
theorem endCall_writes (s : State) {d : Nat} (st : Status) (from_ : Option Port)
    (hd : ¬((decide ((s.call d).state = .free) || (s.call d).ended) = true)) :
    ∃ u : State, Moves callQuiet s u ∧ ∀ (P : Entry → Prop) (c : Nat), Settled P →
      (c = d → ∀ e, P e → P { e with written := true }) →
      Stays P c { u with calls := Tbl.set {} d (if (s.call d).hold && decide (st = .ok) then State.heldEntry (s.call d)
        else State.endedEntry (s.call d)) u.calls } (s.endCall d st from_) := by
  unfold State.endCall
  rw [if_neg hd]
  extract_lets s1 s2 s3 held s4 s5 s6
  have h3 : Moves callQuiet s s3 := State.tellChain_moves (State.countEnd_moves (State.dropWork_moves
    (State.journal_moves (Moves.refl _ s) (by decide)) (by decide)) (by decide)) (by decide)
  refine ⟨s3, h3, fun P c hP hw => ?_⟩
  have h5 : Stays P c s4 s5 := by
    unfold s5
    split
    · exact .refl s4
    · refine completeWith_stays s4 _ _ _ _ fun hf => hw ?_
      split at hf
      · cases hf
      · exact (Option.some.inj hf).symm
  have h6 : Stays P c s5 s6 := by
    show Stays P c s5 (if _ then _ else _)
    split
    · exact .of_moves (State.unpinGraft_moves (Moves.refl _ s5) (by decide))
    · exact freeWritten_stays s5 hP
  exact (h5.trans h6).trans ((Stays.of_moves (State.completeAll_moves (Moves.refl _ s6) (by decide))).trans (afterFree_stays _ hP _))

/-- The end of another call keeps the property. -/
theorem endCall_stays_ne {P : Entry → Prop} {c d : Nat} (s : State) (hP : Settled P) (h : c ≠ d) (st : Status) (from_ : Option Port) :
    Stays P c s (s.endCall d st from_) := by
  by_cases hd : (decide ((s.call d).state = .free) || (s.call d).ended) = true
  · rw [State.endCall, if_pos hd]
    exact .refl s
  · obtain ⟨u, hu, hs⟩ := endCall_writes s st from_ hd
    exact ((Stays.of_moves hu).trans (.setCall u fun e => absurd e h)).trans (hs P c hP fun e => absurd e h)

/-- A call that has ended, or whose entry is free. -/
def Over (e : Entry) : Prop := e.ended = true ∨ e.state = .free

theorem over_settled : Settled Over := ⟨fun _ _ _ => .inr rfl, fun e h hq => h.resolve_right (by rw [hq]; decide)⟩

/-- After the end of a call without OK the call is over. -/
theorem endCall_over {s : State} (k : s.Canonical) (c : Nat) {st : Status} (hst : st ≠ .ok) (from_ : Option Port) :
    Over ((s.endCall c st from_).call c) := by
  by_cases hd : (decide ((s.call c).state = .free) || (s.call c).ended) = true
  · rw [State.endCall, if_pos hd]
    simp only [Bool.or_eq_true, decide_eq_true_eq] at hd
    exact hd.symm
  · obtain ⟨u, hu, hs⟩ := endCall_writes s st from_ hd
    have ku := hu.canon k
    refine (hs Over c over_settled fun _ e he => he).kept (canonical_setCall ku c _) ?_
    rw [call_setCall_self ku]
    simp only [hst, decide_false, Bool.and_false, Bool.false_eq_true, if_false]
    exact .inl rfl

end Sys2Proof.Machine

/-! PROOFS. Products are issued, transfers and phases end, gaps are forced, boughs acknowledge drains (R17, R19, R32, R85, R94, R96,
R126). -/

namespace Sys2Proof.Machine

/-- Preparing a product's first attempt leaves what names it, and its codes. -/
theorem prepare_names (p : Prod) :
    p.prepare.id = p.id ∧ p.prepare.key = p.key ∧ p.prepare.rowTile = p.rowTile ∧ p.prepare.codes = p.codes := ⟨rfl, rfl, rfl, rfl⟩

theorem newProd_names (s : State) (r : ProductReq) (v : ActVec) (image : Nat) (m : Mat) (d : Nat × Nat) (mode : ProdMode) (premium : Bool) :
    (s.newProd r v image m d mode premium).id = s.nextProd ∧ (s.newProd r v image m d mode premium).key = r.key ∧
    (s.newProd r v image m d mode premium).rowTile = r.rowTile ∧
    (s.newProd r v image m d mode premium).codes = spanCodes (v.span r.rowTile) := by
  unfold State.newProd
  exact prepare_names _

theorem countIssue_work (s : State) (r : ProductReq) (v : ActVec) (p : Prod) : TileWork s (s.countIssue r v p) := by
  unfold State.countIssue
  extract_lets b s1 s2 s3 s4
  have h1 : Moves tileQuiet s s1 := Moves.ite (State.countSpan_moves (Moves.refl _ s) (by decide)) (Moves.refl _ s)
  have h3 : TileWork s s3 := by
    refine .trans (.quiet (State.count_moves h1 (by decide))) (?_ : TileWork s2 s3)
    unfold s3
    split
    · exact .trans (.quiet (State.count_moves (Moves.refl _ s2) (by decide))) (.modStep _ _ _)
    · exact .quiet (State.count_moves (Moves.refl _ s2) (by decide))
    · exact .refl s2
  split
  · exact h3
  · refine h3.trans (.quiet ?_)
    have h4 : Moves tileQuiet s3 s4 := State.count_moves (Moves.refl _ s3) (by decide)
    exact Moves.ite (State.count_moves h4 (by decide)) h4

/-- A product is issued: it gets the next number, and joins the products as tile work does (R17, R32). -/
theorem issueWith_work {s : State} {r : ProductReq} {k : Nat × Binding × Mat × Bool × Bool} {v : ActVec} (hk : s.keyMat r.key = some k)
    (hv : s.actFor r.key.work r.key.matrix (vecRow r) = some v) (fresh : Bool) :
    ∃ p : Prod, (p.id = s.nextProd ∧ p.key = r.key ∧ p.rowTile = r.rowTile ∧ p.codes = spanCodes (v.span r.rowTile)) ∧
      TileWork { s with prods := s.prods ++ [p], nextProd := s.nextProd + 1 } (s.issueWith r fresh) := by
  obtain ⟨image, b, m, verified, premium⟩ := k
  unfold State.issueWith
  rw [hk, hv]
  dsimp -zeta only
  extract_lets rc d mode p s1 s2 s3
  refine ⟨p, newProd_names s r v b.image m d mode premium, .trans ?_ (enqueueProd_work s3 p)⟩
  have h2 : TileWork s1 s2 := by
    unfold s2
    split
    · exact countIssue_work s1 r v p
    · exact .refl s1
  refine h2.trans (?_ : TileWork s2 s3)
  unfold s3
  split
  · exact .refl s2
  · exact .modStep s2 _ _

theorem issue_step? (s : State) (r : ProductReq) {c n : Nat} {x : Step} (hx : s.step? c n = some x) :
    ∃ y, (s.issue r).step? c n = some y ∧ y.xferDone = x.xferDone := by
  cases hk : s.keyMat r.key with
  | none => exact ⟨x, by rw [State.issue, State.issueWith, hk]; exact hx, rfl⟩
  | some k =>
    cases hv : s.actFor r.key.work r.key.matrix (vecRow r) with
    | none => exact ⟨x, by rw [State.issue, State.issueWith, hk, hv]; exact hx, rfl⟩
    | some v =>
      obtain ⟨p, -, hw⟩ := issueWith_work hk hv true
      exact hw.step? hx

theorem issueAll_step? (rs : List ProductReq) {c n : Nat} : ∀ {s : State} {x : Step}, s.step? c n = some x →
    ∃ y, (s.each rs State.issue).step? c n = some y ∧ y.xferDone = x.xferDone := by
  induction rs with
  | nil => exact fun {s x} hx => ⟨x, hx, rfl⟩
  | cons r rs ih =>
    intro s x hx
    obtain ⟨y, hy, hd⟩ := issue_step? s r hx
    obtain ⟨z, hz, he⟩ := ih hy
    exact ⟨z, hz, he.trans hd⟩

/-- What can be issued has its matrix placed and its vector in the activation buffer (R19). -/
theorem canIssue_data {s : State} {r : ProductReq} (h : s.canIssue r = true) :
    (∃ k, s.keyMat r.key = some k) ∧ ∃ v, s.actFor r.key.work r.key.matrix (vecRow r) = some v := by
  unfold State.canIssue at h
  split at h
  · cases h
  · next k hk =>
    simp only [Bool.and_eq_true, Option.any_eq_true] at h
    obtain ⟨⟨⟨⟨⟨⟨⟨⟨⟨⟨-, v, hv, -⟩, -⟩, -⟩, -⟩, -⟩, -⟩, -⟩, -⟩, -⟩, -⟩ := h
    exact ⟨⟨_, hk⟩, v, hv⟩

/-- A product whose placed transfer has not completed waits in its handshake (R19). -/
theorem request_waits {s : State} {r : ProductReq} {k : Nat × Binding × Mat × Bool × Bool} (hk : s.keyMat r.key = some k) {x : Step}
    (hx : s.step? r.key.work.call r.key.work.step = some x) (hl : x.xferDone < r.needs) :
    ∃ n, s.request r = ({ s with xferWaits := s.xferWaits ++ [r] }).count n := by
  unfold State.request State.requestWith
  obtain ⟨image, b, m, verified, premium⟩ := k
  simp only [hx, hl, hk]
  exact ⟨_, rfl⟩

theorem request_issues {s : State} {r : ProductReq}
    (h : ∀ x, s.step? r.key.work.call r.key.work.step = some x → r.needs ≤ x.xferDone) : s.request r = s.issue r := by
  unfold State.request State.requestWith
  cases hx : s.step? r.key.work.call r.key.work.step with
  | none => rfl
  | some x => simp [Nat.not_lt.2 (h x hx), State.issue]

theorem productIssue_next {r : ProductReq} {vec : Option VecIn} {s : State} (hv : s.vecOk r.key (vecRow r) vec = true)
    (hc : (s.takeVec r.key (vecRow r) vec).canIssue r = true) :
    exec (.productIssue ⟨r, vec⟩) s = .next ((s.takeVec r.key (vecRow r) vec).request r) :=
  when_true (by rw [hv, hc]; rfl)

theorem productIssue_waits {r : ProductReq} {vec : Option VecIn} {s : State} (hv : s.vecOk r.key (vecRow r) vec = true)
    (hc : (s.takeVec r.key (vecRow r) vec).canIssue r = true)
    (hx : ∃ x, (s.takeVec r.key (vecRow r) vec).step? r.key.work.call r.key.work.step = some x ∧ x.xferDone < r.needs) :
    ∃ t, exec (.productIssue ⟨r, vec⟩) s = .next t ∧ SameBut [.counters, .xferWaits] (s.takeVec r.key (vecRow r) vec) t ∧
      t.xferWaits = s.xferWaits ++ [r] := by
  have hw : (s.takeVec r.key (vecRow r) vec).xferWaits = s.xferWaits :=
    (State.takeVec_moves (fl := [.counters, .steps, .acts, .histos]) (Moves.refl _ s) (by decide)).frame .xferWaits (by decide)
  obtain ⟨⟨k, hk⟩, -⟩ := canIssue_data hc
  obtain ⟨x, hx, hl⟩ := hx
  obtain ⟨n, hn⟩ := request_waits hk hx hl
  refine ⟨_, productIssue_next hv hc, ?_, ?_⟩
  · rw [hn]
    intro f hf
    cases f with
    | counters => exact absurd hf (by decide)
    | xferWaits => exact absurd hf (by decide)
    | _ => rfl
  · rw [hn]
    exact congrArg (· ++ [r]) hw

theorem productIssue_issues {r : ProductReq} {vec : Option VecIn} {s : State} (hv : s.vecOk r.key (vecRow r) vec = true)
    (hc : (s.takeVec r.key (vecRow r) vec).canIssue r = true)
    (hx : ∀ x, (s.takeVec r.key (vecRow r) vec).step? r.key.work.call r.key.work.step = some x → r.needs ≤ x.xferDone) :
    ∃ t, exec (.productIssue ⟨r, vec⟩) s = .next t ∧ t.nextProd = s.nextProd + 1 ∧ t.xferWaits = s.xferWaits ∧
      ∃ v, (s.takeVec r.key (vecRow r) vec).actFor r.key.work r.key.matrix (vecRow r) = some v ∧
        ∃ p ∈ t.prods, p.id = s.nextProd ∧ p.key = r.key ∧ p.rowTile = r.rowTile ∧ p.codes = spanCodes (v.span r.rowTile) := by
  have hu := State.takeVec_moves (k := r.key) (row := vecRow r) (vec := vec) (fl := [.counters, .steps, .acts, .histos]) (Moves.refl _ s) (by decide)
  have hnext : (s.takeVec r.key (vecRow r) vec).nextProd = s.nextProd := hu.frame .nextProd (by decide)
  have hwaits : (s.takeVec r.key (vecRow r) vec).xferWaits = s.xferWaits := hu.frame .xferWaits (by decide)
  set u := s.takeVec r.key (vecRow r) vec
  refine ⟨u.issue r, by rw [productIssue_next hv hc, request_issues hx], ?_⟩
  obtain ⟨⟨k, hk⟩, v, hact⟩ := canIssue_data hc
  obtain ⟨p, ⟨hid, hkey, hrow, hcodes⟩, hw⟩ := issueWith_work hk hact true
  have hi := State.issueWith_moves (r := r) (fresh := true)
    (fl := [.rings, .counters, .steps, .tiles, .boughs, .prods, .nextProd, .links, .faults, .power, .sec, .out]) (Moves.refl _ u) (by decide)
  obtain ⟨q, hq, hqid, hqkey, hqrow, hqcodes⟩ := hw.mem_prods (p := p) (List.mem_append_right _ List.mem_cons_self)
  exact ⟨hw.nextProd_eq.trans (by rw [hnext]), (hi.frame .xferWaits (by decide)).trans hwaits, v, hact, q, hq,
    by rw [hqid, hid, hnext], hqkey.trans hkey, hqrow.trans hrow, hqcodes.trans hcodes⟩

/-! ### Transfers (R19) -/

theorem transferDone_waits (s : State) (w : WorkRef) (n : Nat) : (s.transferDone w n).xferWaits = s.xferWaits.filter (fun r =>
    !(r.key.work.call == w.call && r.key.work.step == w.step && decide (r.needs ≤ n))) := by
  unfold State.transferDone
  extract_lets s1 go s2
  have hm : Moves [.rings, .counters, .steps, .tiles, .boughs, .prods, .nextProd, .links, .faults, .power, .sec, .out] s2
      (s2.each go State.issue) := (Moves.refl _ s2).each fun _ _ h => State.issue_moves h (by decide)
  exact hm.frame .xferWaits (by decide)

/-- After the end of a transfer the step's transfers have completed up to it. -/
theorem transferDone_step? {s : State} {w : WorkRef} {n : Nat} {x : Step} (hx : s.step? w.call w.step = some x) :
    ∃ y, (s.transferDone w n).step? w.call w.step = some y ∧ y.xferDone = max x.xferDone n := by
  unfold State.transferDone
  extract_lets s1 go s2
  have h1 : s2.step? w.call w.step = some { x with xferDone := max x.xferDone n } :=
    step?_modStep_self hx (f := fun x => { x with xferDone := max x.xferDone n }) ⟨rfl, rfl⟩
  exact issueAll_step? go h1

theorem transferDone_ends {w : WorkRef} {n : Nat} {x : Step} {s : State} (hx : s.step? w.call w.step = some x) (hl : x.xferDone < n)
    (hn : n ≤ s.xferCount w) (ha : s.affordable 6 = true) :
    ∃ u : State, exec (.transferDone w ⟨n, []⟩) s = .next u.attnRetry ∧
      u.xferWaits = s.xferWaits.filter (fun r =>
        !(r.key.work.call == w.call && r.key.work.step == w.step && decide (r.needs ≤ n))) ∧
      ∃ y, u.step? w.call w.step = some y ∧ y.xferDone = n := by
  have hc := State.charge_moves (kind := 6) (b := none) (fl := [.boughs, .power]) (Moves.refl _ s) (by decide)
  have hsteps : (s.charge 6 none).steps = s.steps := hc.frame .steps (by decide)
  have hwaits : (s.charge 6 none).xferWaits = s.xferWaits := hc.frame .xferWaits (by decide)
  refine ⟨(s.charge 6 none).transferDone w n, when_true (by simp [hx, hl, hn, ha]), by rw [transferDone_waits, hwaits], ?_⟩
  obtain ⟨y, hy, hd⟩ := transferDone_step? (s := s.charge 6 none) (n := n) (by rw [State.step?, hsteps]; exact hx)
  exact ⟨y, hy, by omega⟩

/-! ### Phases (R32, R94, R96) -/

/-- The value that the lane adds for a code of an output (R96). -/
def codeValue (p : Prod) (used j : Nat) (code : Int) : Int :=
  if (p.transposed = true ∨ j ∉ p.suspended) ∧ j < used then
    correctCode code (Tbl.get 0 (sliceIndex p.transposed j) p.offsets) (Tbl.get 0x8000 (sliceIndex p.transposed j) p.gains)
      (Tbl.get 0x8000 j p.colGains) p.drift
  else 0

/-- Adding values to totals, output by output. -/
theorem getD_zipWith_add {xs vs : List Int} {j : Nat} (hx : j < xs.length) (hv : j < vs.length) :
    (List.zipWith (· + ·) xs vs).getD j 0 = xs.getD j 0 + vs.getD j 0 := by
  simp [List.getD_eq_getElem?_getD, hx, hv]

/-- The values of a phase's codes, output by output. -/
theorem getD_map_zipIdx {codes : List Int} (v : Nat → Int → Int) {j : Nat} (hj : j < codes.length) :
    (codes.zipIdx.map fun x => v x.2 x.1).getD j 0 = v j (codes.getD j 0) := by
  simp [List.getD_eq_getElem?_getD, hj]

/-- A product as the end of a phase leaves it: the phase is over, and its digit's totals have the values added. -/
def afterPhase (p : Prod) (high : Bool) (rest : List (Bool × Nat × Nat)) (vals : List Int) (clips : List Nat) : Prod :=
  { p with
    plan := rest, clipped := distinct (p.clipped ++ clips),
    hiVal := if high then List.zipWith (· + ·) p.hiVal vals else p.hiVal,
    loVal := if high then p.loVal else List.zipWith (· + ·) p.loVal vals }

/-- The end of a phase changes the product, and then is tile work (R32). -/
theorem phaseDone_work {s : State} {t i : Nat} {p : Prod} {codes : List Int} {high : Bool} {first last : Nat}
    {rest : List (Bool × Nat × Nat)} (hp : s.prod? i = some p) (hplan : p.plan = (high, first, last) :: rest) :
    ∃ u clips, u.prod? i = some (afterPhase p high rest (codes.zipIdx.map fun x => codeValue p (s.outUsed p) x.2 x.1) clips) ∧
      TileWork u (s.phaseDone t p codes) := by
  have hi : p.id = i := by simpa using prod?_name hp
  unfold State.phaseDone
  rw [hplan]
  dsimp -zeta only
  extract_lets live used v vals marked clips s1 s2 s3 s4
  have hv : vals = codes.zipIdx.map fun x => codeValue p (s.outUsed p) x.2 x.1 := by
    unfold vals v codeValue live used
    simp
  have h1 : s1.prod? i = some p := by
    have hm : Moves [.counters] s s1 := State.countClips_moves (State.count_moves (Moves.refl _ s) (by decide)) (by decide)
    rw [State.prod?, hm.frame .prods (by decide)]
    exact hp
  refine ⟨s2, clips, ?_, ?_⟩
  · rw [← hv]
    unfold s2
    rw [hi]
    exact prod?_modProd_self h1 rfl
  · have h3 : TileWork s2 s3 := .quiet (State.modTile_moves (Moves.refl _ s2) (by decide))
    refine h3.trans (.trans (?_ : TileWork s3 s4) (tileNext_work s4 t))
    unfold s4
    split
    · exact lastPhase_work s3 p.id
    · exact .refl s3

theorem phaseEnd_ends {k i : Nat} {codes : List Int} {p : Prod} {high : Bool} {first last : Nat} {rest : List (Bool × Nat × Nat)}
    {s : State} (hact : (s.tile k).active = .product i) (hp : s.prod? i = some p) (hplan : p.plan = (high, first, last) :: rest)
    (hlen : codes.length = p.outputs) (hwf : Instr.wf (.phaseEnd k codes) = true) (hhi : p.hiVal.length = p.outputs)
    (hlo : p.loVal.length = p.outputs) :
    ∃ t, exec (.phaseEnd k codes) s = .next t ∧ ∃ q, t.prod? i = some q ∧ q.plan = rest ∧ q.key = p.key ∧
      ∀ j, j < p.outputs →
        (high = true → q.hiVal.getD j 0 = p.hiVal.getD j 0 + codeValue p (s.outUsed p) j (codes.getD j 0) ∧
          q.loVal.getD j 0 = p.loVal.getD j 0) ∧
        (high = false → q.loVal.getD j 0 = p.loVal.getD j 0 + codeValue p (s.outUsed p) j (codes.getD j 0) ∧
          q.hiVal.getD j 0 = p.hiVal.getD j 0) := by
  obtain ⟨u, clips, hu, hw⟩ := phaseDone_work (t := k) (codes := codes) hp hplan
  obtain ⟨q, hq, hkey, hqplan, hqhi, hqlo⟩ := hw.prod? hu
  refine ⟨s.phaseDone k p codes, ?_, q, hq, hqplan, hkey, fun j hj => ?_⟩
  · show execPhaseEnd k codes s = _
    unfold execPhaseEnd
    rw [hact]
    dsimp only
    rw [hp]
    exact when_true (by simp [hlen, hwf])
  · rw [hqhi, hqlo]
    have hvals : (codes.zipIdx.map fun x => codeValue p (s.outUsed p) x.2 x.1).length = codes.length := by simp
    refine ⟨fun h => ?_, fun h => ?_⟩ <;> subst h <;> refine ⟨?_, rfl⟩
    · exact (getD_zipWith_add (by omega) (by omega)).trans (by rw [getD_map_zipIdx _ (by omega)])
    · exact (getD_zipWith_add (by omega) (by omega)).trans (by rw [getD_map_zipIdx _ (by omega)])

/-! ### Forced gaps and drains (R85, R126) -/

theorem tile_modTile_self {s : State} (c : s.Canonical) (t : Nat) (f : Tile → Tile) : (s.modTile t f).tile t = f (s.tile t) :=
  Tbl.get_update_self (Tbl.rising_of_wf c.tiles)

theorem tile_modTile_ne {s : State} (c : s.Canonical) {t j : Nat} (h : j ≠ t) (f : Tile → Tile) : (s.modTile t f).tile j = s.tile j :=
  Tbl.get_update_ne h (Tbl.rising_of_wf c.tiles)

theorem forcedGap_marks {k : Nat} {s : State} (hc : s.Canonical) (hk : k < 8192) (hg : s.grantsOpen = true) (ht : s.tileGone k = false)
    (hf : (s.tile k).forced = false) (hq : (s.tile k).queue ≠ []) (ho : s.gapOverdue k = true) :
    ∃ t, exec (.forcedGap k) s = .next t ∧ SameBut [.counters, .tiles] s t ∧ t.tile k = { s.tile k with forced := true } ∧
      ∀ j, j ≠ k → t.tile j = s.tile j := by
  have hcount := State.count_moves (k := Ctr.calForcedGaps k) (n := 1) (fl := [.counters]) (Moves.refl _ s) (by decide)
  refine ⟨_, when_true (by simp [hk, hg, ht, hf, hq, ho]), ?_, tile_modTile_self (hcount.canon hc) k _,
    fun j hj => tile_modTile_ne (hcount.canon hc) hj _⟩
  exact (State.modTile_moves (hcount.mono (by decide)) (by decide)).frame

theorem drainAck_not_empty {s : State} {b : Nat} {d : Drain} (hd : d ∈ (s.drainAck b).drains) : s.boughEmpty b d = false := by
  obtain ⟨e, -, rfl⟩ := List.mem_map.1 hd
  split
  · simp [State.boughEmpty]
  · next h => exact Bool.eq_false_iff.2 h

theorem boughDrainAck_ends {b : Nat} {d : Drain} {s : State} (hd : d ∈ s.drains) (he : s.boughEmpty b d = true) :
    ∃ t, exec (.boughDrainAck b) s = .next t ∧ SameBut [.drains] s t ∧ t.drains.length = s.drains.length ∧
      ∀ e ∈ t.drains, s.boughEmpty b e = false := by
  refine ⟨s.drainAck b, when_true (List.any_eq_true.2 ⟨d, hd, he⟩), fun f hf => ?_, List.length_map _, fun e => drainAck_not_empty⟩
  cases f with
  | drains => exact absurd hf (by decide)
  | _ => rfl

end Sys2Proof.Machine

/-! PROOFS. A drain completes: what each part of it leaves of a call's entry, and the preempted call is DRAINED (R84 to R87, R175, R194). -/

namespace Sys2Proof.Machine

/-! ### What restoring one call leaves of another -/

section
variable {P : Entry → Prop} {c : Nat} (s : State)

theorem addCanopy_stays (rows : List CanopyRow) : Stays P c s { s with canopy := s.canopy ++ rows } :=
  .of_calls (fun k => ⟨k.parts, k.rings, k.counters, k.calls, k.customers, k.tiles, k.boughs, k.calSave, k.links, k.mem⟩) rfl

theorem dropSaves_stays_ne {d : Nat} (h : c ≠ d) (e : Entry) : Stays P c s (s.dropSaves d e) := by
  unfold State.dropSaves
  exact (Stays.of_moves (State.modPart_moves (Moves.refl _ s) (by decide))).trans (.modCall_ne _ h _)

variable (hP : Settled P)
include hP

theorem restState_stays_ne {d : Nat} (h : c ≠ d) : Stays P c s (s.restState d) := by
  unfold State.restState
  extract_lets e
  split
  · split
    · split
      · exact endCall_stays_ne s hP h _ _
      · exact (Stays.of_moves (State.count_moves (Moves.refl _ s) (by decide))).trans (.modCall_ne _ h _)
    · exact .modCall_ne s h _
  · exact .refl s

theorem draftsDone_stays_ne {x : Step} (h : c ≠ x.call) : Stays P c s (s.draftsDone x) := by
  unfold State.draftsDone
  extract_lets e marks s1
  have h1 : Moves callQuiet s s1 := Moves.ite (Moves.refl _ s) (State.send_moves (Moves.refl _ s) (by decide))
  exact (Stays.of_moves (State.stepGone_moves h1 (by decide))).trans (restState_stays_ne _ hP h)

theorem draftToken_stays_ne {x : Step} (h : c ≠ x.call) (v : List F32) : Stays P c s (s.draftToken x v) := by
  unfold State.draftToken
  extract_lets e m al tok q s1
  split
  · exact draftsDone_stays_ne s hP h
  · have h1 : Stays P c s s1 := .modCall_ne s h _
    split
    · exact h1
    · exact h1.trans (draftsDone_stays_ne s1 hP h)

theorem deliver_stays_ne {x : Handoff} (h : c ≠ x.key.work.call) (m : Mat) : Stays P c s (s.deliver x m) := by
  unfold State.deliver
  extract_lets w s1 back s2 e
  have h1 : Stays P c s s1 :=
    .of_calls (fun k => ⟨k.parts, k.rings, k.counters, k.calls, k.customers, k.tiles, k.boughs, k.calSave, k.links, k.mem⟩) rfl
  have h2 : Stays P c s s2 := h1.quiet (Moves.ite (Moves.refl _ s1) (State.modStep_moves (Moves.refl _ s1) (by decide)))
  split
  · refine h2.quiet (State.moveStep_moves ?_ (by decide))
    split
    · exact State.relayBack_moves (Moves.refl _ s2) (by decide)
    · exact Moves.refl _ s2
  · next y v hy _ =>
    extract_lets s3 s4
    have h3 : Moves callQuiet s2 s3 :=
      Moves.ite (State.relayOut_moves (State.countBlocks_moves (Moves.refl _ s2) (by decide)) (by decide)) (Moves.refl _ s2)
    have h4 : Moves callQuiet s2 s4 := by
      unfold s4
      split
      · exact Moves.ite (State.modStep_moves h3 (by decide)) h3
      · exact Moves.ite (State.modStep_moves h3 (by decide)) h3
    split
    · have hcall : y.call = w.call := by
        have := step?_name hy
        simp only [Bool.and_eq_true, beq_iff_eq] at this
        exact this.1
      exact (h2.quiet h4).trans (draftToken_stays_ne s4 hP (by rw [hcall]; exact h) v)
    · exact h2.quiet (State.moveStep_moves h4 (by decide))
  · exact h2.quiet (State.moveStep_moves (Moves.refl _ s2) (by decide))

theorem restoreVector_stays_ne {d : Nat} (h : c ≠ d) (v : Saved) : Stays P c s (s.restoreVector d v) := by
  unfold State.restoreVector
  extract_lets k
  split
  · exact .refl s
  · extract_lets kind
    split
    · refine .each s _ fun s i _ => .of_moves ?_
      exact Moves.ite (State.requestWith_moves (Moves.refl _ s) (by decide)) (Moves.refl _ s)
    · exact deliver_stays_ne s hP h _

theorem restoreCall_stays_ne {d : Nat} (h : c ≠ d) : Stays P c s (s.restoreCall d) := by
  unfold State.restoreCall
  extract_lets e lost s1 stale s2 rows s3 s4
  have h1 : Stays P c s s1 := .of_moves (Moves.ite (Moves.refl _ s) (State.draw_moves (Moves.refl _ s) (by decide)))
  split
  · exact (h1.quiet (State.saveLost_moves (Moves.refl _ s1) (by decide))).trans (endCall_stays_ne _ hP h _ _)
  · split
    · exact h1.trans (endCall_stays_ne _ hP h _ _)
    · have h2 : Stays P c s s2 := h1.quiet ((Moves.refl _ s1).each fun u n hu =>
        State.count_moves (State.restartStep_moves hu (by decide)) (by decide))
      have h3 : Stays P c s s3 := (h2.trans (dropSaves_stays_ne s2 h e)).quiet (State.undiscard_moves (Moves.refl _ _) (by decide))
      exact (h3.trans (addCanopy_stays s3 rows)).trans (.each s4 _ fun s v _ => restoreVector_stays_ne s hP h v)

/-- Restoring the running calls leaves a call that does not run (R87). -/
theorem restoreAll_stays (hr : ∀ e, P e → e.state ≠ .running) : Stays P c s s.restoreAll := by
  refine ⟨(State.restoreAll_moves (fl := .free :: everyPiece) (Moves.refl _ s) (by decide)).canon, fun k hp => ?_⟩
  refine (Stays.each s _ fun s d hd => restoreCall_stays_ne s hP ?_).kept k hp
  rintro rfl
  obtain ⟨-, hok⟩ := (mem_callsWhere k).1 hd
  simp only [Bool.and_eq_true, decide_eq_true_eq] at hok
  exact hr _ hp hok.2

end

/-! ### A drain completes -/

/-- In the given state, and no completion record written. -/
def Going (st : CallState) (e : Entry) : Prop := e.state = st ∧ e.written = false

theorem going_settled {st : CallState} (h : st ≠ .queued) : Settled (Going st) where
  freed e he hw := by
    obtain ⟨-, hf⟩ := he
    rw [hf] at hw
    cases hw
  charged e he hq := absurd (he.1.symm.trans hq) h

section
variable {st : CallState} {c : Nat} (s : State)

theorem withdraw_going (sc : DrainScope) (why : DrainFor) : Stays (Going st) c s (s.withdraw sc why) := by
  refine ⟨(State.withdraw_moves (fl := [.counters, .calls, .tiles, .boughs, .prods, .xferWaits, .links, .out]) (Moves.refl _ s)
    (by decide)).canon, fun k hg => ?_⟩
  unfold State.withdraw
  extract_lets gone waits ids s1
  have h1 : Stays (Going st) c s s1 := by
    unfold s1
    split
    · exact .refl s
    · unfold State.saveHeaders
      extract_lets heads1 heads2
      refine .each s _ fun s h _ => ?_
      split
      · exact .modCall s fun _ hg => hg
      · exact .refl s
  exact h1.kept k hg

theorem saveRows_going (d : Nat) : Stays (Going st) c s (s.saveRows d) := by
  unfold State.saveRows
  extract_lets rows s1 s2
  have h1 : Stays (Going st) c s s1 :=
    .of_calls (fun k => ⟨k.parts, k.rings, k.counters, k.calls, k.customers, k.tiles, k.boughs, k.calSave, k.links, k.mem⟩) rfl
  have h2 : Stays (Going st) c s s2 := h1.quiet (State.count_moves (Moves.refl _ s1) (by decide))
  split
  · exact h2
  · exact h2.trans (.modCall s2 fun _ hg => hg)

theorem saveScope_going (sc : DrainScope) : Stays (Going st) c s (s.saveScope sc) := by
  unfold State.saveScope
  exact .each s _ fun s d _ => saveRows_going s d

/-- The preempted chunk's call is DRAINED (R194). -/
theorem drainChunk_drained {s : State} (k : s.Canonical) (h : Going .running (s.call c)) :
    Going .drained ((s.drainChunk c).call c) := by
  unfold State.drainChunk
  extract_lets s1 n
  have h1 : Stays (Going .running) c s s1 := (saveRows_going s c).quiet (State.holdSteps_moves (Moves.refl _ _) (by decide))
  obtain ⟨-, hw⟩ := h1.kept k h
  rw [call_modCall_self ((State.modPart_moves (fl := [.parts]) (Moves.refl _ s1) (by decide)).canon (h1.canon k))]
  exact ⟨rfl, hw⟩

theorem afterDrain_drained {s : State} (k : s.Canonical) (h : Going .running (s.call c)) :
    Going .drained ((s.afterDrain (.preempt c)).call c) := by
  have hd := State.drainChunk_moves (s := s) (c := c) (fl := .free :: everyPiece) (Moves.refl _ s) (by decide)
  unfold State.afterDrain
  dsimp only
  rw [if_pos h.1]
  refine (restoreAll_stays _ (going_settled (by decide)) fun e he => ?_).kept (hd.canon k) (drainChunk_drained k h)
  rw [he.1]
  decide

end

theorem afterDrain_preempt_drains (s : State) (c : Nat) : (s.afterDrain (.preempt c)).drains = s.drains := by
  have hm : Moves ((.free :: everyPiece).filter (· ≠ .drains)) s (s.afterDrain (.preempt c)) := by
    unfold State.afterDrain
    exact State.restoreAll_moves (Moves.ite (State.drainChunk_moves (Moves.refl _ s) (by decide)) (Moves.refl _ s)) (by decide)
  exact hm.frame .drains (by decide)

/-- A preemption's drain completes: it is over, and its running call is DRAINED (R85, R194). -/
theorem drainDone_preempt {s : State} {d : Drain} {c : Nat} (hy : d.why = .preempt c) (k : s.Canonical)
    (h : Going .running (s.call c)) : (s.drainDone d).drains = s.drains.erase d ∧ Going .drained ((s.drainDone d).call c) := by
  unfold State.drainDone
  extract_lets s0 s1 s2
  rw [hy]
  have h1 : Stays (Going .running) c s s1 := (withdraw_going s d.scope d.why).trans (.of_calls
    (fun k => ⟨k.parts, k.rings, k.counters, k.calls, k.customers, k.tiles, k.boughs, k.calSave, k.links, k.mem⟩) rfl)
  have h2 : Moves [.counters] s1 s2 :=
    State.levelMax_moves (State.count_moves (Moves.refl _ s1) (by decide)) (by decide)
  have hm : Moves [.counters, .calls, .canopy, .links, .out] s1 (s2.saveScope d.scope) :=
    State.saveScope_moves (h2.mono (by decide)) (by decide)
  have h3 : Stays (Going .running) c s (s2.saveScope d.scope) := (h1.quiet (h2.mono (by decide))).trans (saveScope_going s2 d.scope)
  have hdr := afterDrain_drained (h3.canon k) (h3.kept k h)
  have hds := afterDrain_preempt_drains (s2.saveScope d.scope) c
  set u := (s2.saveScope d.scope).afterDrain (.preempt c)
  have ht : Moves [.rings, .counters, .steps, .tiles, .boughs, .prods, .links, .faults, .power, .sec, .out, .canopy] u
      (u.resumeRows.tilesNext fun _ => true) :=
    State.tilesNext_moves (State.resumeRows_moves (Moves.refl _ u) (by decide)) (by decide)
  constructor
  · rw [ht.frame .drains (by decide), hds, hm.frame .drains (by decide)]
  · rw [State.call, ht.frame .calls (by decide)]
    exact hdr

theorem drainComplete_ends {d : Drain} {s : State} (hd : s.drains.find? s.drainReady = some d) :
    ∃ t, exec .drainComplete s = .next t ∧ ∀ c, d.why = .preempt c → s.Canonical → (s.call c).state = .running →
      (s.call c).written = false → t.drains = s.drains.erase d ∧ (t.call c).state = .drained := by
  refine ⟨s.drainDone d, ?_, fun c hy k hr hw => ?_⟩
  · show execDrainComplete s = _
    rw [execDrainComplete, hd]
  · obtain ⟨hds, hst, -⟩ := drainDone_preempt hy k ⟨hr, hw⟩
    exact ⟨hds, hst⟩

/-- Settles O50: products, transfers, phases, forced gaps and drains, each by what the command's state change is made of. -/
theorem phasesRunAndDrainsEnd : Obligations.PhasesRunAndDrainsEnd := by
  unfold Obligations.PhasesRunAndDrainsEnd
  refine ⟨?_, ?_, ?_, ?_, ?_, ?_⟩
  · rintro r vec s u hv rfl hc
    exact ⟨productIssue_waits hv hc, productIssue_issues hv hc⟩
  · exact fun w n x s hx hl hn ha => transferDone_ends hx hl hn ha
  · exact fun k i codes p high first last rest s hact hp hplan hlen hwf hhi hlo => phaseEnd_ends hact hp hplan hlen hwf hhi hlo
  · exact fun k s hc hk hg ht hf hq ho => forcedGap_marks hc hk hg ht hf hq ho
  · exact fun b d s hd he => boughDrainAck_ends hd he
  · exact fun d s hd => drainComplete_ends hd

end Sys2Proof.Machine

/-! PROOFS. No operation on takes, cuts and calls that a relay flit sets off drops a flit that waits. -/

namespace Sys2Proof.Machine

/-- A change that leaves the links, the registers and the output as they are. -/
theorem FlitsKept.of_same {s t : State} (hc : s.Canonical → t.Canonical) (hl : t.links = s.links) (hr : t.regs = s.regs) (ho : t.out = s.out) :
    FlitsKept s t := by
  refine ⟨hc, congrArg Regs.chainPos hr, ho ▸ List.prefix_rfl, fun _ p c b hb => .inr ?_⟩
  rw [State.waits, State.link, ← hl] at hb
  exact hb

theorem FlitsKept.ite {r s t : State} {c : Prop} [Decidable c] (h : FlitsKept r s) (k : FlitsKept r t) : FlitsKept r (if c then s else t) := by
  split
  · exact h
  · exact k

section
variable (s : State)

/-! ### Takes and cuts -/

theorem mapTiles_kept (f : Tile → Tile) : FlitsKept s { s with tiles := Tbl.mapVals {} f s.tiles } :=
  .of_same (fun k => ⟨k.parts, k.rings, k.counters, k.calls, k.customers, Tbl.wf_mapVals (Tbl.rising_of_wf k.tiles), k.boughs, k.calSave,
    k.links, k.mem⟩) rfl rfl rfl

theorem requestProgram_kept (t : Nat) (j : ProgJob) : FlitsKept s (s.requestProgram t j) := by
  unfold State.requestProgram
  split
  · exact .of_moves (State.refuseProgram_moves (Moves.refl _ s) (by decide))
  · extract_lets j' s1
    have h1 : FlitsKept s s1 := .of_same
      (fun k => ⟨k.parts, k.rings, k.counters, k.calls, k.customers, k.tiles, k.boughs, k.calSave, k.links, k.mem⟩) rfl rfl rfl
    exact (h1.quiet (State.modTile_moves (Moves.refl _ s1) (by decide))).trans (tileNext_work _ t).flitsKept

theorem programTargets_kept (t : Take) (xs : List (Nat × Nat × Nat × Nat × Nat)) : FlitsKept s (s.programTargets t xs) := by
  unfold State.programTargets
  exact .each s xs fun s x => requestProgram_kept s _ _

theorem report_kept (m : CutMsg) : FlitsKept s (s.report m) := by
  unfold State.report
  split
  · exact .of_moves (State.noteReport_moves (Moves.refl _ s) (by decide))
  · exact send_kept s _ _ _

theorem armTake_kept (t : Take) : FlitsKept s (s.armTake t) := by
  unfold State.armTake
  extract_lets s1
  have h1 : FlitsKept s s1 := .of_moves (State.event_moves (State.modTake_moves (Moves.refl _ s) (by decide)) (by decide))
  split
  · exact h1
  · exact h1.trans (report_kept s1 _)

theorem armIdle_kept : FlitsKept s s.armIdle := by
  unfold State.armIdle
  exact .each s _ fun s g => (FlitsKept.of_moves (State.modGen_moves (Moves.refl _ s) (by decide))).trans (report_kept _ _)

theorem failTake_kept (t : Take) (st : Status) : FlitsKept s (s.failTake t st) := by
  unfold State.failTake
  extract_lets runs s1 s2 s3 s4 s5 s6
  have h1 : FlitsKept s s1 := mapTiles_kept s _
  have h2 : Moves FlitsKept.quietFields s1 s2 := Moves.ite (Moves.refl _ s1)
    ((Moves.refl _ s1).each fun u x hu => Moves.ite hu (State.emptyDeck_moves hu (by decide)))
  have h3 : Moves FlitsKept.quietFields s1 s3 := h2.each fun u x hu => State.progFail_moves hu (by decide)
  have h4 : Moves FlitsKept.quietFields s1 s4 := State.count_moves (State.dropTake_moves h3 (by decide)) (by decide)
  have h5 : Moves FlitsKept.quietFields s1 s5 := State.event_moves h4 (by decide)
  have h6 : Moves FlitsKept.quietFields s1 s6 := by
    unfold s6
    split
    · exact State.completeWith_moves h5 (by decide)
    · exact h5
  split
  · exact h1.quiet h6
  · exact (h1.quiet h6).trans (report_kept s6 _)

theorem startTake_kept (t : Take) : FlitsKept s (s.startTake t) := by
  unfold State.startTake
  extract_lets t' s1 targets
  have h1 : FlitsKept s s1 := .of_moves (State.modTake_moves (Moves.refl _ s) (by decide))
  split
  · split
    · exact h1.quiet (State.modTake_moves (Moves.refl _ s1) (by decide))
    · exact (h1.quiet (State.modTake_moves (Moves.refl _ s1) (by decide))).trans (armTake_kept _ _)
  · split
    · exact h1.trans (failTake_kept s1 _ _)
    · exact (h1.quiet (State.modTake_moves (Moves.refl _ s1) (by decide))).trans (programTargets_kept _ _ _)

theorem slowCut_kept (t : Take) (m : Nat) : FlitsKept s (s.slowCut t m) := by
  unfold State.slowCut
  extract_lets decks s1 s2 s3
  have h2 : FlitsKept s s2 := .of_moves (State.modTake_moves (State.bindSlow_moves (Moves.refl _ s) (by decide)) (by decide))
  split
  · exact h2.quiet ((Moves.refl _ s2).each fun u x hu => State.emptyDeck_moves hu (by decide))
  · exact (h2.quiet ((Moves.refl _ s2).each fun u x hu => State.emptyDeck_moves hu (by decide))).trans (programTargets_kept _ _ _)

theorem slowCuts_kept (t : Take) : ∀ (ms : List Nat) (s : State), FlitsKept s (State.slowCuts t ms s)
  | [], s => .refl s
  | m :: ms, s => by
    unfold State.slowCuts
    split
    · exact (slowCut_kept s t m).trans (slowCuts_kept t ms _)
    · exact .refl s

theorem onTake_kept (id : Nat) {f : Take → State → State} (hf : ∀ t s, FlitsKept s (f t s)) : FlitsKept s (s.onTake id f) := by
  unfold State.onTake
  split
  · exact hf _ s
  · exact .refl s

theorem settleLoading_kept (t : Take) : FlitsKept s (State.settleLoading t s) := by
  unfold State.settleLoading
  split
  · exact .refl s
  · refine (slowCuts_kept t _ s).trans (onTake_kept _ _ fun t s => ?_)
    split
    · exact startTake_kept s t
    · exact .refl s

theorem settleTargets_kept (t : Take) : FlitsKept s (State.settleTargets t s) := by
  unfold State.settleTargets
  split
  · split
    · exact failTake_kept s _ _
    · exact .refl s
  · split
    · exact .refl s
    · split
      · exact failTake_kept s _ _
      · split
        · exact armTake_kept s _
        · exact .of_moves (State.modTake_moves (Moves.refl _ s) (by decide))

theorem settleMatrix_kept (t : Take) (m : Nat) : FlitsKept s (s.settleMatrix t m) := by
  unfold State.settleMatrix
  split
  · exact .refl s
  · extract_lets xs
    split
    · exact .refl s
    · split
      · split
        · exact .of_moves (State.modTake_moves (Moves.refl _ s) (by decide))
        · exact failTake_kept s _ _
      · split
        · exact .of_moves (State.returnCut_moves (Moves.refl _ s) (by decide))
        · exact .refl s

theorem settleCuts_kept (t : Take) : FlitsKept s (State.settleCuts t s) := by
  unfold State.settleCuts
  refine .ite ?_ (.refl s)
  refine ((slowCuts_kept t _ s).trans (.each _ _ fun s m => settleMatrix_kept s t m)).trans (onTake_kept _ _ fun t s => ?_)
  exact .ite (.of_moves (State.finishTake_moves (State.driftDone_moves (Moves.refl _ s) (by decide)) (by decide))) (.refl s)

theorem settleTake_kept (id : Nat) : FlitsKept s (s.settleTake id) := by
  unfold State.settleTake
  exact ((onTake_kept s id fun t s => settleLoading_kept s t).trans (onTake_kept _ id fun t s => settleTargets_kept s t)).trans
    (onTake_kept _ id fun t s => settleCuts_kept s t)

theorem setReady_kept (i : Nat) : FlitsKept s (s.setReady i) :=
  ⟨(State.setReady_moves (fl := [.regs]) (Moves.refl _ s) (by decide)).canon, rfl, List.prefix_rfl, fun _ _ _ _ hb => .inr hb⟩

theorem recovered_kept (g : Gen) : FlitsKept s (s.recovered g) := by
  unfold State.recovered
  split
  · exact .refl s
  · split
    · exact (FlitsKept.of_moves (State.modBoot_moves (Moves.refl _ s) (by decide))).trans (setReady_kept _ _)
    · exact .refl s

theorem openEpoch_kept (e image : Nat) : FlitsKept s (s.openEpoch e image) := by
  unfold State.openEpoch
  split
  · exact .refl s
  · split
    · exact .refl s
    · extract_lets take olds news s1 s2 s3 s4 s5
      clear_value take
      have h1 : Moves FlitsKept.quietFields s s1 := State.modWeights_moves (Moves.refl _ s) (by decide)
      have h2 : Moves FlitsKept.quietFields s s2 := h1.each fun u b hu => hu.each fun u d hu => State.modDeck_moves hu (by decide)
      have h3 : Moves FlitsKept.quietFields s s3 := h2.each fun u b hu => by
        split
        · exact Moves.ite hu (State.tierEvent_moves hu (by decide))
        · exact hu
      have h4 : Moves FlitsKept.quietFields s s4 := by
        unfold s4
        split
        · exact State.modTake_moves h3 (by decide)
        · exact h3
      have h5 : FlitsKept s s5 := (FlitsKept.of_moves (State.count_moves h4 (by decide))).trans (recovered_kept _ _)
      split
      · exact h5
      · exact h5.trans (send_kept s5 _ _ _)

theorem tryCut_kept : FlitsKept s s.tryCut := by
  unfold State.tryCut
  split
  · exact .refl s
  · extract_lets n live
    split
    · exact openEpoch_kept s _ _
    · exact .refl s

theorem tryLive_kept : FlitsKept s s.tryLive := by
  unfold State.tryLive
  split
  · exact .refl s
  · split
    · exact .refl s
    · split
      · exact .refl s
      · extract_lets s1 r s2
        have h1 : Moves FlitsKept.quietFields s s1 := State.modGen_moves (Moves.refl _ s) (by decide)
        have hr : Moves FlitsKept.quietFields s r.1 := by
          refine Moves.foldl_fst (fun acc m hacc => ?_) _ h1
          exact State.rebindMatrix_moves hacc (by decide)
        have h2 : Moves FlitsKept.quietFields s s2 := Moves.ite hr (State.firmwareTake_moves hr (by decide))
        exact (FlitsKept.of_moves h2).trans (setReady_kept s2 8)

/-- Takes, cuts and re-binding go on and drop no flit. -/
theorem settle_kept : FlitsKept s s.settle := by
  unfold State.settle
  extract_lets s1 s2
  have h1 : FlitsKept s s1 := ((tryLive_kept s).quiet (State.applySlow_moves (State.applyMats_moves (Moves.refl _ _) (by decide))
    (by decide))).trans (armIdle_kept _)
  exact (h1.trans (.each s1 _ settleTake_kept)).trans (tryCut_kept s2)

theorem stepGone_kept (c n : Nat) : FlitsKept s (s.stepGone c n) := by
  unfold State.stepGone
  extract_lets mine ids s1
  have h1 : FlitsKept s s1 := .of_same
    (fun k => ⟨k.parts, k.rings, k.counters, k.calls, k.customers, k.tiles, k.boughs, k.calSave, k.links, k.mem⟩) rfl rfl rfl
  exact (h1.quiet (State.unqueue_moves (State.forget_moves (Moves.refl _ s1) (by decide)) (by decide))).trans (settle_kept _)

/-! ### Calls -/

theorem journal_kept (e : Entry) (rs : List JournalRec) : FlitsKept s (s.journal e rs) := by
  unfold State.journal
  split
  · exact (FlitsKept.of_moves (State.count_moves (Moves.refl _ s) (by decide))).trans (send_kept _ _ _ _)
  · exact .refl s

theorem setCall_kept (c : Nat) (e : Entry) : FlitsKept s { s with calls := Tbl.set {} c e s.calls } :=
  .of_same (fun k => canonical_setCall k c e) rfl rfl rfl

theorem putCall_kept (c : Nat) (e : Entry) : FlitsKept s (s.putCall c e) := by
  unfold State.putCall
  extract_lets old s1
  have h1 : FlitsKept s s1 := setCall_kept s c e
  split
  · exact h1
  · exact h1.trans (journal_kept s1 _ _)

theorem modCall_kept (c : Nat) (f : Entry → Entry) : FlitsKept s (s.modCall c f) := putCall_kept s c _

theorem tellChain_kept (from_ : Option Port) (m : CallMsg) : FlitsKept s (s.tellChain from_ m) := by
  unfold State.tellChain
  extract_lets s1
  have h1 : FlitsKept s s1 := by
    unfold s1
    split
    · exact .refl s
    · exact send_kept s _ _ _
  split
  · exact h1
  · exact h1.trans (send_kept s1 _ _ _)

theorem chargeQueued_kept (c : Nat) : FlitsKept s (s.chargeQueued c) := by
  unfold State.chargeQueued
  extract_lets e p
  split
  · exact (FlitsKept.of_moves (State.modPart_moves (Moves.refl _ s) (by decide))).trans (putCall_kept _ _ _)
  · exact .refl s

theorem chargeAll_kept (p : Nat) : ∀ (cs : List Nat) (s : State), FlitsKept s (s.chargeAll p cs)
  | [], s => .refl s
  | c :: cs, s => by
    unfold State.chargeAll
    dsimp only
    split
    · exact .refl s
    · exact (chargeQueued_kept s c).trans (chargeAll_kept p cs _)

theorem chargeWaiting_kept (p : Nat) : FlitsKept s (s.chargeWaiting p) := chargeAll_kept p _ s

theorem afterFree_kept (p : Nat) : FlitsKept s (s.afterFree p) := by
  unfold State.afterFree
  refine (chargeWaiting_kept s p).quiet ?_
  exact Moves.ite (State.modPart_moves (Moves.refl _ _) (by decide)) (Moves.refl _ _)

theorem freeWritten_kept : FlitsKept s s.freeWritten := by
  unfold State.freeWritten
  refine .each s _ fun s c => ?_
  exact ((FlitsKept.of_moves (State.releaseHoldings_moves (Moves.refl _ s) (by decide))).trans (setCall_kept _ c {})).trans (afterFree_kept _ _)

/-- The end of a call drops no flit (R198). -/
theorem endCall_kept (c : Nat) (st : Status) (from_ : Option Port) : FlitsKept s (s.endCall c st from_) := by
  unfold State.endCall
  extract_lets e s1 s2 s3 held s4 s5 s6
  split
  · exact .refl s
  · have h3 : FlitsKept s s3 := ((journal_kept s _ _).quiet (State.countEnd_moves (State.dropWork_moves (Moves.refl _ s1) (by decide))
      (by decide))).trans (tellChain_kept s2 _ _)
    have h5 : FlitsKept s4 s5 := by
      unfold s5
      split
      · exact .refl s4
      · exact .of_moves (State.completeWith_moves (Moves.refl _ s4) (by decide))
    have h6 : FlitsKept s5 s6 := by
      unfold s6
      split
      · exact .of_moves (State.unpinGraft_moves (Moves.refl _ s5) (by decide))
      · exact freeWritten_kept s5
    exact ((((h3.trans (setCall_kept s3 c _)).trans h5).trans h6).quiet (State.completeAll_moves (Moves.refl _ s6) (by decide))).trans
      (afterFree_kept _ _)

/-- A call rests, ready, on a position after the first. -/
theorem restState_kept (h : s.isFirst = false) (c : Nat) : FlitsKept s (s.restState c) := by
  unfold State.restState
  extract_lets e
  split
  · rw [if_neg (by simp [h])]
    exact modCall_kept s c _
  · exact .refl s

theorem addMarks_kept (c n marks : Nat) : FlitsKept s (s.addMarks c n marks) := by
  unfold State.addMarks
  extract_lets s1
  have h1 : FlitsKept s s1 := .of_moves (State.modStep_moves (Moves.refl _ s) (by decide))
  split
  · exact h1.trans (modCall_kept s1 c _)
  · exact h1

end

end Sys2Proof.Machine

/-! PROOFS. Relay traffic: what a flit that is ready does, and what activations, running sums, cut control, acknowledgements and
manifests do to the steps, sums and queues that they name (R79, R137, R146, R213, R316, R317). -/

namespace Sys2Proof.Machine

/-! ### Flits that are ready -/

/-- A ready flit is accepted, acts, and is acknowledged (R268, R269). -/
theorem onFlit_next {s : State} {hd : FlitHdr} {ports : List Port} {channels : List Nat} (h : s.FlitReady hd ports channels) (row : String)
    (act : State → State) : s.onFlit row hd ports channels act = .next ((act (s.acceptFlit hd)).acknowledge hd.port) := by
  obtain ⟨hw, ha, hp, hc⟩ := h
  unfold State.onFlit
  rw [hw]
  exact when_true (by simp [ha, hp, hc])

/-- A flit that is ready on some ports and channels is ready on more. -/
theorem FlitReady.mono {s : State} {hd : FlitHdr} {ports ports' : List Port} {channels : List Nat} (h : s.FlitReady hd ports channels)
    (hp : ports ⊆ ports') : s.FlitReady hd ports' channels := ⟨h.whole, h.accepted, hp h.port, h.channel⟩

theorem acceptFlit_moves (s : State) (hd : FlitHdr) : Moves [.counters, .links, .out] s (s.acceptFlit hd) :=
  State.acceptFlit_moves (Moves.refl _ s) (by decide)

theorem acknowledge_moves (s : State) (p : Port) : Moves [.counters, .links, .out] s (s.acknowledge p) :=
  State.acknowledge_moves (Moves.refl _ s) (by decide)

/-- Accepting a flit and acknowledging it touch the link alone: the rest is what the flit's action makes of it. -/
theorem accepted_acknowledged {l : List Field} {s t : State} {hd : FlitHdr} (h : Moves l (s.acceptFlit hd) t) :
    Moves ([.counters, .links, .out] ++ l) s (t.acknowledge hd.port) := by
  refine Moves.trans ((acceptFlit_moves s hd).mono ?_) (Moves.trans (h.mono ?_) ((acknowledge_moves t hd.port).mono ?_))
  · simp [Field.within]
  · simp +contextual [Field.within]
  · simp [Field.within]

/-! ### What a state reads as where the pieces read are the same -/

theorem call_congr {s t : State} (h : t.calls = s.calls) (c : Nat) : t.call c = s.call c := by rw [State.call, h]; rfl

theorem step?_congr {s t : State} (h : t.steps = s.steps) (c n : Nat) : t.step? c n = s.step? c n := by rw [State.step?, h]; rfl

theorem liveGen_congr {s t : State} (h : t.weights = s.weights) : t.liveGen = s.liveGen := by
  rw [State.liveGen, h]
  rfl

theorem ownCall_congr {s t : State} (h : t.calls = s.calls) (p tag : Nat) : t.ownCall p tag = s.ownCall p tag := by
  rw [State.ownCall, State.findCall, h]
  rfl

theorem graftMissing_congr {s t : State} (h : t.calls = s.calls) (hg : t.grafts = s.grafts) (c : Nat) :
    t.graftMissing c = s.graftMissing c := by
  unfold State.graftMissing State.graft?
  rw [call_congr h, hg]

/-- Where a flit from upstream is accepted, the last position stays the last. -/
theorem isLast_acceptFlit {s : State} (k : s.Canonical) {hd : FlitHdr} (h : hd.port ≠ .d) : (s.acceptFlit hd).isLast = s.isLast := by
  rw [State.isLast, acceptFlit_link_ne k hd (Ne.symm h)]
  rfl

/-! ### Input of a step -/

/-- Input for a step in flight that has not committed reaches it. -/
theorem stepInput_go {s : State} {p tag n c epoch image : Nat} {x : Step} (go : State → Nat → State) (hc : s.ownCall p tag = some c)
    (hs : (s.call c).step ≤ n) (hx : s.step? c n = some x) (hg : s.graftMissing c = false) :
    s.stepInput p tag n epoch image go = go s c := by
  unfold State.stepInput
  rw [hc]
  dsimp only
  rw [if_neg (Nat.not_lt.2 hs), hx, hg, State.ensureStep, hx]
  simp

theorem stepInput_accepted {s : State} {hd : FlitHdr} {p tag n c epoch image : Nat} {x : Step} (go : State → Nat → State)
    (hc : s.ownCall p tag = some c) (hs : (s.call c).step ≤ n) (hx : s.step? c n = some x) (hg : s.graftMissing c = false) :
    (s.acceptFlit hd).stepInput p tag n epoch image go = go (s.acceptFlit hd) c := by
  have hm := acceptFlit_moves s hd
  have hcalls : (s.acceptFlit hd).calls = s.calls := hm.frame .calls (by decide)
  refine stepInput_go (x := x) go ((ownCall_congr hcalls p tag).trans hc) ?_ ?_ ?_
  · rwa [call_congr hcalls]
  · rwa [step?_congr (hm.frame .steps (by decide))]
  · rwa [graftMissing_congr hcalls (hm.frame .grafts (by decide))]

theorem wakeStep_step? {s : State} {c n : Nat} {x : Step} (hx : s.step? c n = some x) :
    ∃ y, (s.wakeStep c n).step? c n = some y ∧ y.input = x.input := by
  unfold State.wakeStep
  split
  · exact ⟨x, hx, rfl⟩
  · exact ⟨_, step?_modStep_self hx ⟨rfl, rfl⟩, rfl⟩

theorem addMarks_step? {s : State} {c n : Nat} {x : Step} (hx : s.step? c n = some x) (marks : Nat) :
    ∃ y, (s.addMarks c n marks).step? c n = some y ∧ y.input = x.input := by
  unfold State.addMarks
  extract_lets s1
  have h1 := step?_modStep_self hx
    (f := fun x => { x with unbounded := x.unbounded || marks.testBit 0, tier := x.tier || marks.testBit 1 }) ⟨rfl, rfl⟩
  split
  · refine ⟨_, (step?_congr ?_ c n).trans h1, rfl⟩
    exact (State.modCall_moves (fl := [.counters, .calls, .links, .out]) (Moves.refl _ s1) (by decide)).frame .steps (by decide)
  · exact ⟨_, h1, rfl⟩

/-! ### Activations (R146, R213, R317) -/

/-- A vector that has not come before joins its step's input with epoch and generation (R146). -/
theorem takeItem_joins {s : State} {epoch image c : Nat} {i : ActItem} {x : Step} (hc : s.ownCall i.p i.tag = some c)
    (hs : (s.call c).step ≤ i.step) (hx : s.step? c i.step = some x) (hg : s.graftMissing c = false)
    (hnew : ∀ y ∈ x.input, ¬(y.token = i.token ∧ y.matrix = i.matrix)) :
    ∃ y, (s.takeItem epoch image i).step? c i.step = some y ∧ y.input = x.input ++ [i] ∧ y.epoch = epoch ∧ y.image = image := by
  unfold State.takeItem
  rw [stepInput_go _ hc hs hx hg]
  have hagain : ((s.step? c i.step).any fun (x : Step) => x.input.any fun y => y.token == i.token && y.matrix == i.matrix) = false := by
    rw [hx]
    simpa using hnew
  dsimp only
  rw [hagain]
  obtain ⟨y, hy, hyi⟩ := wakeStep_step? hx
  obtain ⟨z, hz, hzi⟩ := addMarks_step? hy i.marks
  have hf := step?_modStep_self hz
    (f := fun x => { x with
      epoch := epoch, image := image, input := x.input ++ [i],
      tokens := x.tokens ++ List.replicate (i.token + 1 - x.tokens.length) 0 }) ⟨rfl, rfl⟩
  exact ⟨_, hf, by rw [← hyi, ← hzi], rfl, rfl⟩

theorem takeBack_joins {s : State} {c : Nat} {i : ActItem} {u : Tune} {x : Step} (hc : s.ownCall i.p i.tag = some c)
    (hu : (s.call c).tune = some u) (hx : s.step? c i.step = some x) :
    ∃ y, (s.takeBack i).step? c i.step = some y ∧ y.backIn = x.backIn ++ [i] := by
  unfold State.takeBack
  rw [hc]
  dsimp only
  rw [hu]
  exact ⟨_, step?_modStep_self hx (f := fun x => { x with backIn := x.backIn ++ [i] }) ⟨rfl, rfl⟩, rfl⟩

theorem activation_next {hd : FlitHdr} {epoch image : Nat} {i : ActItem} {s : State} (h : s.FlitReady hd [.u, .d] [1, 2]) :
    exec (.activation hd epoch image [i]) s = .next (((s.acceptFlit hd).activation hd.port epoch image [i]).acknowledge hd.port) :=
  onFlit_next h "ACTIVATION" fun s => s.activation hd.port epoch image [i]

theorem activation_downstream (s : State) (epoch image : Nat) (i : ActItem) : s.activation .d epoch image [i] = s.takeBack i := by
  rw [State.activation, if_neg (by decide), State.each, List.foldl_cons, List.foldl_nil]

theorem activation_upstream (s : State) (epoch image : Nat) (i : ActItem) :
    s.activation .u epoch image [i] = ({ s with batchNo := s.batchNo + 1 } : State).takeItem epoch image i := by
  rw [State.activation, if_pos rfl, State.each, List.foldl_cons, List.foldl_nil]

section
variable {s : State} {hd : FlitHdr} {epoch image : Nat} {i : ActItem}

/-- Gradients from downstream change, beside the link, only the steps that keep them (R213). -/
theorem activation_back (hp : hd.port = .d) :
    SameBut [.counters, .links, .out, .steps] s (((s.acceptFlit hd).activation hd.port epoch image [i]).acknowledge hd.port) ∧
      ∀ c x u, s.ownCall i.p i.tag = some c → (s.call c).tune = some u → s.step? c i.step = some x →
        ∃ y, (((s.acceptFlit hd).activation hd.port epoch image [i]).acknowledge hd.port).step? c i.step = some y ∧
          y.backIn = x.backIn ++ [i] := by
  have hm := acceptFlit_moves s hd
  have ha : (s.acceptFlit hd).activation hd.port epoch image [i] = (s.acceptFlit hd).takeBack i := by
    rw [hp, activation_downstream]
  rw [ha]
  refine ⟨(accepted_acknowledged (State.takeBack_moves (fl := [.steps]) (Moves.refl _ _) (by decide))).frame, fun c x u hc hu hx => ?_⟩
  have hcalls := hm.frame .calls (by decide)
  rw [← ownCall_congr hcalls] at hc
  rw [← call_congr hcalls] at hu
  rw [← step?_congr (hm.frame .steps (by decide))] at hx
  rw [step?_congr ((acknowledge_moves _ hd.port).frame .steps (by decide))]
  exact takeBack_joins hc hu hx

/-- Activations from upstream start a batch number and join their step's input (R146). -/
theorem activation_in (hp : hd.port = .u) :
    (((s.acceptFlit hd).activation hd.port epoch image [i]).acknowledge hd.port).batchNo = s.batchNo + 1 ∧
      ∀ c x, s.ownCall i.p i.tag = some c → (s.call c).step ≤ i.step → s.step? c i.step = some x → s.graftMissing c = false →
        (∀ y ∈ x.input, ¬(y.token = i.token ∧ y.matrix = i.matrix)) →
        ∃ y, (((s.acceptFlit hd).activation hd.port epoch image [i]).acknowledge hd.port).step? c i.step = some y ∧
          y.input = x.input ++ [i] ∧ y.epoch = epoch ∧ y.image = image := by
  have hm := acceptFlit_moves s hd
  set q := s.acceptFlit hd
  obtain ⟨v, hv, hb, hcalls, hsteps, hgrafts⟩ : ∃ v : State, q.activation hd.port epoch image [i] = v.takeItem epoch image i ∧
      v.batchNo = q.batchNo + 1 ∧ v.calls = q.calls ∧ v.steps = q.steps ∧ v.grafts = q.grafts :=
    ⟨{ q with batchNo := q.batchNo + 1 }, by rw [hp, activation_upstream], rfl, rfl, rfl, rfl⟩
  rw [hv]
  refine ⟨?_, fun c x hc hs hx hg hnew => ?_⟩
  · have ht := State.takeItem_moves (epoch := epoch) (image := image) (i := i)
      (fl := (.free :: everyPiece).filter (· ≠ .batchNo)) (Moves.refl _ v) (by decide)
    rw [(acknowledge_moves _ hd.port).frame .batchNo (by decide), ht.frame .batchNo (by decide), hb, hm.frame .batchNo (by decide)]
  · have hcalls' := hcalls.trans (hm.frame .calls (by decide))
    have hsteps' := hsteps.trans (hm.frame .steps (by decide))
    rw [← ownCall_congr hcalls'] at hc
    rw [← call_congr hcalls'] at hs
    rw [← step?_congr hsteps'] at hx
    rw [← graftMissing_congr hcalls' (hgrafts.trans (hm.frame .grafts (by decide)))] at hg
    rw [step?_congr ((acknowledge_moves _ hd.port).frame .steps (by decide))]
    exact takeItem_joins hc hs hx hg hnew

end

/-! ### Running sums (R79) -/

theorem mem_setSum (s : State) (r : SumRun) : r ∈ (s.setSum r).sums := by
  unfold State.setSum
  dsimp only
  split
  · next h =>
    obtain ⟨x, hx, hk⟩ := List.any_eq_true.1 h
    exact List.mem_map.2 ⟨x, hx, if_pos hk⟩
  · exact List.mem_append_right _ List.mem_cons_self

/-- The running sum goes on from the records received. -/
theorem sumReceived_mem (s : State) (k : SumKey) (i : SumItem) :
    ∃ r ∈ (s.sumReceived k i).sums, r.key = k ∧ r.accs = i.records.map (fun w => (Acc.restore w).2) ∧
      r.started = true ∧ r.retry = i.retry := by
  unfold State.sumReceived
  extract_lets accs old base s1
  obtain ⟨r, hr, hmem⟩ : ∃ r : SumRun, (r.key = k ∧ r.accs = accs ∧ r.started = true ∧ r.retry = i.retry) ∧ r ∈ s1.sums :=
    ⟨{ base with
        accs := accs, retry := i.retry, graft := old.bind fun r => r.graft, needsGraft := old.any fun r => r.needsGraft,
        unbounded := old.any fun r => r.unbounded, base := accs, baseRetry := i.retry }, ⟨rfl, rfl, rfl, rfl⟩, mem_setSum s _⟩
  refine ⟨r, ?_, hr⟩
  split
  · rw [(State.attemptAgain_moves (fl := [.rings, .counters, .steps, .tiles, .boughs, .prods, .nextProd, .links, .faults, .power, .sec, .out])
      (Moves.refl _ s1) (by decide)).frame .sums (by decide)]
    exact hmem
  · exact hmem

theorem runningSum_goesOn {hd : FlitHdr} {p tag n epoch image marks c : Nat} {i : SumItem} {x : Step} {s : State}
    (h : s.FlitReady hd [.u] [1, 2]) (hc : s.ownCall p tag = some c) (hs : (s.call c).step ≤ n) (hx : s.step? c n = some x)
    (hg : s.graftMissing c = false) :
    ∃ t, exec (.runningSum hd p tag n epoch image marks i) s = .next t ∧
      ∃ r ∈ t.sums, r.key = { work := { call := c, step := n, token := i.token }, matrix := i.matrix, colTile := i.colTile } ∧
        r.accs = i.records.map (fun w => (Acc.restore w).2) ∧ r.started = true ∧ r.retry = i.retry := by
  refine ⟨_, onFlit_next h "RUNNING_SUM" fun s => s.runningSum p tag n epoch image marks i, ?_⟩
  rw [(acknowledge_moves _ hd.port).frame .sums (by decide), State.runningSum, stepInput_accepted _ hc hs hx hg]
  exact sumReceived_mem _ _ i

/-! ### Cut control (R146) -/

/-- An epoch is open, and the bindings of the one before are the old ones. -/
def EpochOpen (e : Nat) (olds : List (Nat × Binding)) (s : State) : Prop :=
  s.weights.epoch = e ∧ s.weights.oldEpoch = true ∧ s.weights.oldBindings = olds

theorem EpochOpen.of_moves {e : Nat} {olds : List (Nat × Binding)} {s t : State} (h : EpochOpen e olds s)
    (k : Moves ((.free :: everyPiece).filter (· ≠ .weights)) s t) : EpochOpen e olds t := by
  unfold EpochOpen
  rw [k.frame .weights (by decide)]
  exact h

/-- An epoch opens: what served becomes the old bindings (R146). -/
theorem openEpoch_opens {s : State} {e image : Nat} {g : Gen} {pl : Placement} (hg : s.gen? image = some g)
    (hpl : s.placementOf g = some pl) : EpochOpen e s.weights.bindings (s.openEpoch e image) := by
  unfold State.openEpoch
  rw [hg]
  dsimp -zeta only
  rw [hpl]
  dsimp -zeta only
  extract_lets take olds news s1 s2 s3 s4 s5
  have h1 : EpochOpen e olds s1 := ⟨rfl, rfl, rfl⟩
  have h2 : EpochOpen e olds s2 := h1.of_moves ((Moves.refl _ s1).each fun u b hu => hu.each fun u d hu =>
    State.modDeck_moves hu (by decide))
  have h3 : EpochOpen e olds s3 := h2.of_moves ((Moves.refl _ s2).each fun u b hu => by
    split
    · exact Moves.ite hu (State.tierEvent_moves hu (by decide))
    · exact hu)
  clear_value take
  have h4 : EpochOpen e olds s4 := by
    unfold s4
    split
    · exact h3
    · exact h3
  have h5 : EpochOpen e olds s5 := h4.of_moves (State.recovered_moves (State.count_moves (Moves.refl _ s4) (by decide)) (by decide))
  exact h5.of_moves (Moves.ite (Moves.refl _ s5) (State.send_moves (Moves.refl _ s5) (by decide)))

theorem gen?_congr {s t : State} (h : t.weights = s.weights) (image : Nat) : t.gen? image = s.gen? image := by
  rw [State.gen?, h]
  rfl

theorem placementOf_congr {s t : State} (h : t.weights = s.weights) (g : Gen) : t.placementOf g = s.placementOf g := by
  unfold State.placementOf
  rw [gen?_congr h]

theorem cutCtrl_opens {hd : FlitHdr} {e image : Nat} {g : Gen} {pl : Placement} {s : State} (h : s.FlitReady hd [.u] [2])
    (hg : s.gen? image = some g) (hpl : s.placementOf g = some pl) :
    ∃ u : State, exec (.cutCtrl hd (.epoch e image)) s = .next (u.settle.acknowledge hd.port) ∧ u.weights.epoch = e ∧
      u.weights.oldEpoch = true ∧ u.weights.oldBindings = s.weights.bindings := by
  have hp : hd.port = .u := by simpa using h.port
  have hm := acceptFlit_moves s hd
  have hw : (s.acceptFlit hd).weights = s.weights := hm.frame .weights (by decide)
  have ho := openEpoch_opens (e := e) ((gen?_congr hw image).trans hg) ((placementOf_congr hw g).trans hpl)
  rw [hw] at ho
  refine ⟨(s.acceptFlit hd).openEpoch e image, ?_, ho⟩
  refine (onFlit_next (FlitReady.mono h (ports' := [.u, .d]) (by simp)) "CUT_CTRL" fun s => s.cutCtrl hd.port (.epoch e image)).trans ?_
  rw [State.cutCtrl, if_pos hp]

/-! ### Acknowledgements of journals (R316) -/

theorem mem_distinct {α : Type} [DecidableEq α] {y : α} {xs : List α} : y ∈ distinct xs ↔ y ∈ xs := by
  have h : ∀ (xs l : List α), y ∈ xs.foldl (fun l x => if l.contains x then l else l ++ [x]) l ↔ y ∈ l ∨ y ∈ xs := by
    intro xs
    induction xs with
    | nil => simp
    | cons x xs ih =>
      intro l
      rw [List.foldl_cons, ih, List.mem_cons]
      split
      · next hx =>
        have : x ∈ l := by simpa using hx
        constructor
        · tauto
        · rintro (h | rfl | h) <;> tauto
      · rw [List.mem_append, List.mem_singleton]
        tauto
  exact (h xs []).trans (by simp)

theorem jack_goesOn {s : State} {p tag n pos : Nat} (hl : s.isLast = false) : s.jack p tag n pos = s.send .d 0 (.jack p tag n pos) := by
  rw [State.jack, hl]
  exact if_pos rfl

theorem jack_joins {s : State} {p tag n pos c : Nat} {x : Step} (hl : s.isLast = true) (hgen : s.liveGen.isSome = true)
    (hc : s.ownCall p tag = some c) (hs : (s.call c).step ≤ n) (hx : s.step? c n = some x) (hg : s.graftMissing c = false) :
    ∃ y, (s.jack p tag n pos).step? c n = some y ∧ pos ∈ y.jacks := by
  obtain ⟨g, hg'⟩ := Option.isSome_iff_exists.1 hgen
  unfold State.jack
  rw [hl, hg']
  simp only [Bool.not_true, Bool.false_eq_true, if_false]
  rw [stepInput_go _ hc hs hx hg]
  exact ⟨_, step?_modStep_self hx (f := fun x => { x with jacks := distinct (x.jacks ++ [pos]) }) ⟨rfl, rfl⟩,
    mem_distinct.2 (List.mem_append_right _ List.mem_cons_self)⟩

/-- A flit sent while another is handled has gone out, or waits, once that is acknowledged. -/
theorem sent_acknowledged {s : State} (k : s.Canonical) {hd : FlitHdr} {t : State} {p : Port} {c : Nat} {b : FlitBody}
    (h : FlitsKept ((s.acceptFlit hd).send p c b) t) : Sent s (t.acknowledge hd.port) p c b := by
  have hm := acceptFlit_moves s hd
  have hk := send_kept (s.acceptFlit hd) p c b
  have hq := hm.canon k
  exact ((send_sent hq p c b).kept (hk.canon hq) (h.trans (acknowledge_kept t hd.port)) hk.grows).after hm.grows

theorem jack_kept {hd : FlitHdr} {p tag n pos : Nat} {s : State} (k : s.Canonical) (h : s.FlitReady hd [.u] [0]) :
    ∃ t, exec (.jack hd p tag n pos) s = .next t ∧ (s.isLast = false → Sent s t .d 0 (.jack p tag n pos)) ∧
      (s.isLast = true → ∀ c x, s.liveGen.isSome = true → s.ownCall p tag = some c → (s.call c).step ≤ n → s.step? c n = some x →
        s.graftMissing c = false → ∃ y, t.step? c n = some y ∧ pos ∈ y.jacks) := by
  have hm := acceptFlit_moves s hd
  have hp : hd.port = .u := by simpa using h.port
  have hlast : (s.acceptFlit hd).isLast = s.isLast := isLast_acceptFlit k (by rw [hp]; decide)
  refine ⟨((s.acceptFlit hd).jack p tag n pos).acknowledge hd.port, onFlit_next h "JACK" fun s => s.jack p tag n pos, fun hl => ?_,
    fun hl c x hgen hc hs hx hg => ?_⟩
  · rw [jack_goesOn (hlast.trans hl)]
    exact sent_acknowledged k (.refl _)
  · rw [step?_congr ((acknowledge_moves _ hd.port).frame .steps (by decide))]
    have hcalls := hm.frame .calls (by decide)
    rw [← liveGen_congr (hm.frame .weights (by decide))] at hgen
    rw [← ownCall_congr hcalls] at hc
    rw [← call_congr hcalls] at hs
    rw [← step?_congr (hm.frame .steps (by decide))] at hx
    rw [← graftMissing_congr hcalls (hm.frame .grafts (by decide))] at hg
    exact jack_joins (hlast.trans hl) hgen hc hs hx hg

/-! ### Images (R137) -/

theorem manifest_waits {hd : FlitHdr} {b : Bytes} {s : State} (h : s.FlitReady hd [.u, .d, .h] [3]) :
    ∃ t, exec (.image hd (.manifest b)) s = .next t ∧ t.sec.queue = s.sec.queue ++ [.manifest b none] := by
  refine ⟨_, onFlit_next h "IMAGE" fun s => s.imageIn hd.port (.manifest b), ?_⟩
  have hsec : (s.acceptFlit hd).sec = s.sec := (acceptFlit_moves s hd).frame .sec (by decide)
  rw [(acknowledge_moves _ hd.port).frame .sec (by decide), State.imageIn, State.modSec, hsec]

end Sys2Proof.Machine

/-! PROOFS. Relay control: a token return commits a step, a cancellation marks or ends a call, and adoption makes every mirrored call a
call of this chain (R21, R187, R198, R285). -/

namespace Sys2Proof.Machine

theorem isFirst_of_pos {s t : State} (h : t.regs.chainPos = s.regs.chainPos) : t.isFirst = s.isFirst := by
  rw [State.isFirst, h]
  rfl

/-! ### Token returns (R21, R187) -/

theorem stepReturned_kept {s : State} (hf : s.isFirst = false) (c : Nat) (x : Step) (toks drafts : List Nat) (marks : Nat) :
    FlitsKept s (s.stepReturned c x toks drafts marks) := by
  unfold State.stepReturned
  extract_lets e s1 x' e0 e'
  rw [if_neg (by simp [hf])]
  have h1 : FlitsKept s s1 := addMarks_kept s c x.step marks
  rw [if_neg (by simp [isFirst_of_pos h1.pos, hf])]
  have h2 : FlitsKept s ((s1.putCall c e').stepGone c x'.step) := (h1.trans (putCall_kept s1 c e')).trans (stepGone_kept _ _ _)
  have hf2 := (isFirst_of_pos h2.pos).trans hf
  exact h2.trans (restState_kept _ hf2 c)

/-- The entry of a call after a commit of step `n`, which had generated `g` tokens and gets `k` more. -/
def Committed (n g k : Nat) (drafts : List Nat) (e : Entry) : Prop := e.step = n + 1 ∧ e.generated = g + k ∧ e.drafts = drafts

theorem restState_committed {s : State} (hf : s.isFirst = false) {n g k : Nat} {drafts : List Nat} (c : Nat) :
    Stays (Committed n g k drafts) c s (s.restState c) := by
  unfold State.restState
  extract_lets e
  split
  · rw [if_neg (by simp [hf])]
    exact .modCall s fun _ h => h
  · exact .refl s

theorem addMarks_generated {s : State} (k : s.Canonical) (c n marks : Nat) :
    ((s.addMarks c n marks).call c).generated = (s.call c).generated := by
  have h : Stays (fun e => e.generated = (s.call c).generated) c s (s.addMarks c n marks) := by
    unfold State.addMarks
    extract_lets s1
    have h1 : Moves callQuiet s s1 := State.modStep_moves (Moves.refl _ s) (by decide)
    split
    · exact (Stays.of_moves h1).trans (.modCall s1 fun _ h => h)
    · exact .of_moves h1
  exact h.kept k rfl

/-- A returned step commits on a position after the first (R187). -/
theorem stepReturned_committed {s : State} (k : s.Canonical) (hf : s.isFirst = false) (c : Nat) (x : Step) (toks drafts : List Nat)
    (marks : Nat) :
    Committed x.step (s.call c).generated toks.length drafts ((s.stepReturned c x toks drafts marks).call c) := by
  unfold State.stepReturned
  extract_lets e s1 x' e0 e'
  rw [if_neg (by simp [hf])]
  have h1 : FlitsKept s s1 := addMarks_kept s c x.step marks
  rw [if_neg (by simp [isFirst_of_pos h1.pos, hf])]
  have hg : (s1.call c).generated = (s.call c).generated := addMarks_generated k c x.step marks
  have he : Committed x.step (s.call c).generated toks.length drafts e' := ⟨rfl, congrArg (· + toks.length) hg, rfl⟩
  have hu : Committed x.step (s.call c).generated toks.length drafts ((s1.putCall c e').call c) := by
    rw [call_putCall_self (h1.canon k)]
    exact he
  have h2 : FlitsKept s (s1.putCall c e') := h1.trans (putCall_kept s1 c e')
  have h3 : FlitsKept s ((s1.putCall c e').stepGone c x'.step) := h2.trans (stepGone_kept _ _ _)
  have hgone : Stays (Committed x.step (s.call c).generated toks.length drafts) c (s1.putCall c e')
      ((s1.putCall c e').stepGone c x'.step) := .of_moves (State.stepGone_moves (Moves.refl _ _) (by decide))
  exact (hgone.trans (restState_committed ((isFirst_of_pos h3.pos).trans hf) c)).kept (h2.canon k) hu

section
variable {s : State} (hf : s.isFirst = false) (channel : Nat)
include hf

theorem tokenReturn_kept (p tag n : Nat) (toks drafts : List Nat) (marks : Nat) :
    FlitsKept (s.send .u channel (.tokenReturn p tag n toks drafts marks)) (s.tokenReturn channel p tag n toks drafts marks) := by
  unfold State.tokenReturn
  rw [hf]
  extract_lets s1
  have h1 : s1 = s.send .u channel (.tokenReturn p tag n toks drafts marks) := if_neg (by decide)
  have hf1 : s1.isFirst = false := by
    rw [h1]
    exact (isFirst_of_pos (send_kept s _ _ _).pos).trans hf
  rw [← h1]
  split
  · exact .refl s1
  · split
    · exact stepReturned_kept hf1 _ _ _ _ _
    · exact .ite (modCall_kept s1 _ _) (.refl s1)

theorem tokenReturn_committed (k : s.Canonical) {p tag n c : Nat} {x : Step} (hc : s.ownCall p tag = some c) (hx : s.step? c n = some x)
    (toks drafts : List Nat) (marks : Nat) :
    Committed n (s.call c).generated toks.length drafts ((s.tokenReturn channel p tag n toks drafts marks).call c) := by
  unfold State.tokenReturn
  rw [hf]
  extract_lets s1
  have h1 : s1 = s.send .u channel (.tokenReturn p tag n toks drafts marks) := if_neg (by decide)
  have hm : Moves [.counters, .links, .out] s s1 := h1 ▸ State.send_moves (Moves.refl _ s) (by decide)
  have hf1 : s1.isFirst = false := (isFirst_of_pos (congrArg Regs.chainPos (hm.frame .regs (by decide)))).trans hf
  rw [ownCall_congr (hm.frame .calls (by decide)), hc]
  dsimp only
  rw [step?_congr (hm.frame .steps (by decide)), hx]
  dsimp only
  have hn : x.step = n := by
    have := step?_name hx
    simp only [Bool.and_eq_true, beq_iff_eq] at this
    exact this.2
  have := stepReturned_committed (hm.canon k) hf1 c x toks drafts marks
  rwa [hn, call_congr (hm.frame .calls (by decide))] at this

end

/-- A token return goes on upstream and commits the step here (R21). -/
theorem tokenReturn_acts {hd : FlitHdr} {p tag n marks : Nat} {toks drafts : List Nat} {s : State} (k : s.Canonical)
    (h : s.FlitReady hd [.d] [1, 2]) (hf : s.isFirst = false) :
    ∃ t, exec (.tokenReturn hd p tag n toks drafts marks) s = .next t ∧
      Sent s t .u hd.channel.toNat (.tokenReturn p tag n toks drafts marks) ∧
      ∀ c x, s.ownCall p tag = some c → s.step? c n = some x → (t.call c).step = n + 1 ∧
        (t.call c).generated = (s.call c).generated + toks.length ∧ (t.call c).drafts = drafts := by
  have hm := acceptFlit_moves s hd
  have hcalls := hm.frame .calls (by decide)
  have hfq : (s.acceptFlit hd).isFirst = false := (isFirst_of_pos (congrArg Regs.chainPos (hm.frame .regs (by decide)))).trans hf
  refine ⟨((s.acceptFlit hd).tokenReturn hd.channel.toNat p tag n toks drafts marks).acknowledge hd.port,
    onFlit_next h "TOKEN_RETURN" fun s => s.tokenReturn hd.channel.toNat p tag n toks drafts marks,
    sent_acknowledged k (tokenReturn_kept hfq _ p tag n toks drafts marks), fun c x hc hx => ?_⟩
  rw [call_congr ((acknowledge_moves _ hd.port).frame .calls (by decide)), ← call_congr hcalls]
  rw [← ownCall_congr hcalls] at hc
  rw [← step?_congr (hm.frame .steps (by decide))] at hx
  exact tokenReturn_committed hfq _ (hm.canon k) hc hx toks drafts marks

/-! ### Cancellations (R198) -/

theorem remoteCancel_kept {s : State} (hl : s.isLast = false) (p tag : Nat) :
    FlitsKept (s.send .d 2 (.callCtrl (.cancel p tag))) (s.remoteCancel p tag) := by
  unfold State.remoteCancel
  rw [hl]
  extract_lets s1
  have h1 : s1 = s.send .d 2 (.callCtrl (.cancel p tag)) := if_neg (by decide)
  rw [← h1]
  split
  · exact .refl s1
  · exact .ite ((modCall_kept s1 _ _).trans (endCall_kept _ _ _ _)) (modCall_kept s1 _ _)

/-- The call that a cancellation names is marked, or over. -/
theorem remoteCancel_call {s : State} (k : s.Canonical) {p tag c : Nat} (hc : s.ownCall p tag = some c) :
    ((s.remoteCancel p tag).call c).cancelled = true ∨ Over ((s.remoteCancel p tag).call c) := by
  unfold State.remoteCancel
  extract_lets s1
  have h1 : Moves [.counters, .links, .out] s s1 := Moves.ite (Moves.refl _ s) (State.send_moves (Moves.refl _ s) (by decide))
  rw [ownCall_congr (h1.frame .calls (by decide)), hc]
  dsimp -zeta only
  extract_lets s2
  have k2 : s2.Canonical := (modCall_kept s1 c _).canon (h1.canon k)
  split
  · exact .inr (endCall_over k2 c (by decide) none)
  · refine .inl ?_
    show (Entry.cancelled ((s1.modCall c _).call c)) = true
    rw [call_modCall_self (h1.canon k)]

theorem cancel_acts {hd : FlitHdr} {p tag : Nat} {s : State} (k : s.Canonical) (h : s.FlitReady hd [.u] [2]) :
    ∃ t, exec (.callCtrl hd (.cancel p tag)) s = .next t ∧
      (s.isLast = false → Sent s t .d 2 (.callCtrl (.cancel p tag))) ∧
      ∀ c, s.ownCall p tag = some c → (t.call c).cancelled = true ∨ (t.call c).ended = true ∨ (t.call c).state = .free := by
  have hm := acceptFlit_moves s hd
  have hp : hd.port = .u := by simpa using h.port
  have hlast : (s.acceptFlit hd).isLast = s.isLast := isLast_acceptFlit k (by rw [hp]; decide)
  refine ⟨((s.acceptFlit hd).remoteCancel p tag).acknowledge hd.port, ?_, fun hl => ?_, fun c hc => ?_⟩
  · refine (onFlit_next (FlitReady.mono h (ports' := [.u, .d]) (by simp)) "CALL_CTRL" fun s => s.callCtrl hd.port (.cancel p tag)).trans ?_
    rw [State.callCtrl, if_pos hp]
  · exact sent_acknowledged k (remoteCancel_kept (hlast.trans hl) p tag)
  · rw [call_congr ((acknowledge_moves _ hd.port).frame .calls (by decide))]
    exact remoteCancel_call (hm.canon k) ((ownCall_congr (hm.frame .calls (by decide)) p tag).trans hc)

/-! ### Adoption (R285) -/

theorem moveStep_kept (s : State) (c n : Nat) : FlitsKept s (s.moveStep c n) := by
  unfold State.moveStep
  split
  · exact .refl s
  · extract_lets e toks s1
    clear_value toks
    have h1 : FlitsKept s s1 := by
      unfold s1
      split
      · exact .refl s
      · exact .ite ((FlitsKept.of_moves (State.modStep_moves (Moves.refl _ s) (by decide))).trans (journal_kept _ _ _)) (.refl s)
    split
    · exact h1
    · exact .ite ((h1.quiet (State.modStep_moves (Moves.refl _ s1) (by decide))).trans (send_kept _ _ _ _)) h1

theorem rewriteTokens_kept (s : State) (e : Entry) : FlitsKept s (s.rewriteTokens e) := by
  unfold State.rewriteTokens
  extract_lets toks before s1 s2
  have h2 : Moves FlitsKept.quietFields s s2 :=
    (State.event_moves (Moves.refl _ s) (by decide)).each fun u t hu => State.writeRecord_moves hu (by decide)
  exact .ite (.of_moves h2) ((FlitsKept.of_moves h2).trans (send_kept s2 _ _ _))

theorem rewriteTokens_stays (s : State) {P : Entry → Prop} {c : Nat} (e : Entry) : Stays P c s (s.rewriteTokens e) := by
  unfold State.rewriteTokens
  extract_lets toks before s1 s2
  have h1 : Stays P c s s1 := .of_moves (State.event_moves (Moves.refl _ s) (by decide))
  have h2 : Stays P c s s2 := h1.trans (.each s1 _ fun u t _ => writeRecord_stays u _ fun hf => by cases hf)
  split
  · exact h2
  · exact h2.quiet (State.send_moves (Moves.refl _ s2) (by decide))

theorem adoptCall_kept (s : State) (c : Nat) : FlitsKept s (s.adoptCall c) := by
  unfold State.adoptCall
  extract_lets e n s1 s2
  have h2 : FlitsKept s s2 := by
    refine (setCall_kept s c n).trans (?_ : FlitsKept s1 s2)
    unfold s2
    split
    · exact .of_moves (State.start_moves (Moves.refl _ s1) (by decide))
    · exact .refl s1
  exact .ite (h2.trans (rewriteTokens_kept s2 e)) h2

/-- A ready call that has been adopted. -/
def Adopted (e : Entry) : Prop := e.state = .ready ∧ e.adopted = true

theorem adoptEntry_adopted (s : State) (e : Entry) : Adopted (s.adoptEntry e) := ⟨rfl, rfl⟩

/-- What follows the write of an adopted entry leaves every entry. -/
theorem adoptCall_writes (s : State) (d : Nat) :
    ∀ (P : Entry → Prop) (c : Nat), Stays P c { s with calls := Tbl.set {} d (s.adoptEntry (s.call d)) s.calls } (s.adoptCall d) := by
  intro P c
  unfold State.adoptCall
  extract_lets e n s1 s2
  have h2 : Stays P c s1 s2 := by
    unfold s2
    split
    · exact .of_moves (State.start_moves (Moves.refl _ s1) (by decide))
    · exact .refl s1
  split
  · exact h2.trans (rewriteTokens_stays s2 e)
  · exact h2

theorem adoptCall_stays (s : State) (c d : Nat) : Stays Adopted c s (s.adoptCall d) :=
  (Stays.setCall s fun _ => adoptEntry_adopted s _).trans (adoptCall_writes s d Adopted c)

theorem adoptCall_adopts {s : State} (k : s.Canonical) (c : Nat) : Adopted ((s.adoptCall c).call c) := by
  refine (adoptCall_writes s c Adopted c).kept (canonical_setCall k c _) ?_
  rw [call_setCall_self k]
  exact adoptEntry_adopted s _

theorem adoptAll_adopts {c : Nat} {cs : List Nat} (h : c ∈ cs) {s : State} (k : s.Canonical) :
    Adopted ((s.each cs State.adoptCall).call c) := by
  induction cs generalizing s with
  | nil => cases h
  | cons d ds ih =>
    have kd := (adoptCall_kept s d).canon k
    by_cases hd : c = d
    · subst hd
      have hrest : Stays Adopted c (s.adoptCall c) ((s.adoptCall c).each ds State.adoptCall) := .each _ ds fun s x _ => adoptCall_stays s c x
      exact hrest.kept kd (adoptCall_adopts k c)
    · exact ih ((List.mem_cons.1 h).resolve_left hd) kd

theorem adopt_kept (s : State) : FlitsKept s s.adopt := by
  unfold State.adopt
  extract_lets s1 s2 cs s3 s4 s5
  have h1 : FlitsKept s s1 := .each s _ fun s c => modCall_kept s c _
  have h3 : FlitsKept s s3 := h1.quiet ((State.modPartner_moves (Moves.refl _ s1) (by decide)).each fun u c hu =>
    State.dropWork_moves hu (by decide))
  have h4 : FlitsKept s s4 := h3.trans (.each s3 cs adoptCall_kept)
  have h5 : FlitsKept s s5 := h4.quiet (State.event_moves (State.count_moves (Moves.refl _ s4) (by decide)) (by decide))
  have h6 : FlitsKept s (if s5.partnerThere then s5.send .t 0 .mirrorDrop else s5) := .ite (h5.trans (send_kept s5 _ _ _)) h5
  exact h6.trans (.each _ _ fun s x => moveStep_kept s _ _)

/-- Every mirrored call becomes a ready call of this chain (R285). -/
theorem adopt_adopts {s : State} (k : s.Canonical) {c : Nat} (hc : (s.call c).state = .mirror) : Adopted (s.adopt.call c) := by
  unfold State.adopt
  extract_lets s1 s2 cs s3 s4 s5
  have h1 : Stays (fun e => e.state = .mirror) c s s1 := .each s _ fun s d _ => .modCall s fun _ h => h
  have h2 : Stays (fun e => e.state = .mirror) c s s2 := h1.quiet (State.modPartner_moves (Moves.refl _ s1) (by decide))
  have hm : (s2.call c).state = .mirror := h2.kept k hc
  have hcs : c ∈ cs := (mem_callsWhere (h2.canon k)).2 ⟨by rw [hm]; decide, by simp [hm]⟩
  have h3 : Moves callQuiet s2 s3 := (Moves.refl _ s2).each fun u c hu => State.dropWork_moves hu (by decide)
  have k3 := h3.canon (h2.canon k)
  have h4 : Adopted (s4.call c) := adoptAll_adopts hcs k3
  have k4 : s4.Canonical := (FlitsKept.each s3 cs adoptCall_kept).canon k3
  have h5 : Moves callQuiet s4 s5 := State.event_moves (State.count_moves (Moves.refl _ s4) (by decide)) (by decide)
  refine (Stays.of_moves (P := Adopted) (State.moveAll_moves (Moves.ite (State.send_moves h5 (by decide)) h5) (by decide))).kept k4 h4

theorem adopt_fenceAt (s : State) : s.adopt.partner.fenceAt = s.partner.fenceAt := by
  unfold State.adopt
  extract_lets s1 s2 cs s3 s4 s5
  have h1 : s1.partner = s.partner :=
    (State.unmirrorAll_moves (fl := [.counters, .calls, .links, .out]) (Moves.refl _ s) (by decide)).frame .partner (by decide)
  have h3 : Moves ((.free :: everyPiece).filter (· ≠ .partner)) s2 s3 := (Moves.refl _ s2).each fun u c hu =>
    State.dropWork_moves hu (by decide)
  have h4 : Moves ((.free :: everyPiece).filter (· ≠ .partner)) s2 s4 := h3.each fun u c hu => State.adoptCall_moves hu (by decide)
  have h5 : Moves ((.free :: everyPiece).filter (· ≠ .partner)) s2 s5 := State.event_moves (State.count_moves h4 (by decide)) (by decide)
  have h6 := State.moveAll_moves (Moves.ite (c := s5.partnerThere = true) (State.send_moves (p := .t) (c := 0) (b := .mirrorDrop) h5
    (by decide)) h5) (by decide)
  rw [h6.frame .partner (by decide)]
  show s1.partner.fenceAt = _
  rw [h1]

theorem adoptFrom_downstream {s : State} (hf : s.isFirst = false) : s.adoptFrom .d = (s.send .u 0 .adopt).adopt := by
  unfold State.adoptFrom
  extract_lets s1 s2
  have h1 : s1 = s.send .u 0 .adopt := if_pos ⟨rfl, hf⟩
  have h2 : s2 = s1 := if_neg fun h => absurd h.1 (by decide)
  rw [h2, h1]

theorem adoptFrom_upstream {s : State} (hl : s.isLast = false) : s.adoptFrom .u = (s.send .d 0 .adopt).adopt := by
  unfold State.adoptFrom
  extract_lets s1 s2
  have h1 : s1 = s := if_neg fun h => absurd h.1 (by decide)
  have h2 : s2 = s1.send .d 0 .adopt := if_pos ⟨rfl, by rw [h1]; exact hl⟩
  rw [h2, h1]

theorem adopt_acts {hd : FlitHdr} {s : State} (k : s.Canonical) (h : s.FlitReady hd [.u, .d] [0]) :
    ∃ t, exec (.adopt hd) s = .next t ∧ (∀ c, (s.call c).state = .mirror → (t.call c).state = .ready ∧ (t.call c).adopted = true) ∧
      (hd.port = .d → s.isFirst = false → Sent s t .u 0 .adopt) ∧ (hd.port = .u → s.isLast = false → Sent s t .d 0 .adopt) := by
  have hm := acceptFlit_moves s hd
  refine ⟨((s.acceptFlit hd).adoptFrom hd.port).acknowledge hd.port, onFlit_next h "ADOPT" fun s => s.adoptFrom hd.port, fun c hc => ?_,
    fun hp hf => ?_, fun hp hl => ?_⟩
  · rw [call_congr ((acknowledge_moves _ hd.port).frame .calls (by decide))]
    unfold State.adoptFrom
    extract_lets s1 s2
    have h1 : Moves [.counters, .links, .out] s s1 := Moves.ite (State.send_moves hm (by decide)) hm
    have h2 : Moves [.counters, .links, .out] s s2 := Moves.ite (State.send_moves h1 (by decide)) h1
    exact adopt_adopts (h2.canon k) (by rwa [call_congr (h2.frame .calls (by decide))])
  · have hfq : (s.acceptFlit hd).isFirst = false := (isFirst_of_pos (congrArg Regs.chainPos (hm.frame .regs (by decide)))).trans hf
    refine sent_acknowledged k ?_
    rw [hp, adoptFrom_downstream hfq]
    exact adopt_kept _
  · have hlast : (s.acceptFlit hd).isLast = s.isLast := isLast_acceptFlit k (by rw [hp]; decide)
    refine sent_acknowledged k ?_
    rw [hp, adoptFrom_upstream (hlast.trans hl)]
    exact adopt_kept _

theorem fenceWaitEnd_acts {a : Nat} {s : State} (k : s.Canonical) (ha : s.partner.fenceAt = some a) (hn : a + 2048 ≤ s.now) :
    ∃ t, exec .fenceWaitEnd s = .next t ∧ t.partner.fenceAt = none ∧
      (∀ c, (s.call c).state = .mirror → (t.call c).state = .ready ∧ (t.call c).adopted = true) ∧
      (s.isFirst = false → Sent s t .u 0 .adopt) ∧ (s.isLast = false → Sent s t .d 0 .adopt) := by
  refine ⟨s.fenceEnds, ?_, ?_⟩
  · show execFenceWaitEnd s = _
    rw [execFenceWaitEnd, ha]
    exact when_true (decide_eq_true hn)
  · unfold State.fenceEnds
    extract_lets s1 s2 s3
    have h1 : Moves [.partner] s s1 := State.modPartner_moves (Moves.refl _ s) (by decide)
    have k1 := h1.canon k
    have h2 : Moves [.counters, .links, .out] s1 s2 := Moves.ite (Moves.refl _ s1) (State.send_moves (Moves.refl _ s1) (by decide))
    have h3 : Moves [.counters, .links, .out] s1 s3 := Moves.ite h2 (State.send_moves h2 (by decide))
    have hk3 : FlitsKept s2 s3 := .ite (.refl s2) (send_kept s2 _ _ _)
    have hl2 : s2.isLast = s.isLast := by
      unfold s2
      split
      · rfl
      · rw [State.isLast, send_link_ne k1 (by decide)]
        rfl
    refine ⟨?_, fun c hc => ?_, fun hf => ?_, fun hl => ?_⟩
    · rw [adopt_fenceAt, h3.frame .partner (by decide)]
      rfl
    · refine adopt_adopts (h3.canon k1) ?_
      rwa [call_congr (h3.frame .calls (by decide))]
    · have e2 : s2 = s1.send .u 0 .adopt := if_neg (by rw [show s1.isFirst = s.isFirst from rfl, hf]; decide)
      have hs : Sent s1 s2 .u 0 .adopt := e2 ▸ send_sent k1 .u 0 .adopt
      exact hs.kept (h2.canon k1) (hk3.trans (adopt_kept s3)) h2.grows
    · have e3 : s3 = s2.send .d 0 .adopt := if_neg (by rw [hl2, hl]; decide)
      have hs : Sent s2 s3 .d 0 .adopt := e3 ▸ send_sent (h2.canon k1) .d 0 .adopt
      exact (hs.kept (h3.canon k1) (adopt_kept s3) hk3.grows).after h2.grows

/-- Settles O57: what each flit of a relay chain does, by the rules for what its action sends, keeps and writes. -/
theorem relayTrafficActs : Obligations.RelayTrafficActs := by
  unfold Obligations.RelayTrafficActs
  refine ⟨?_, ?_, ?_, ?_, ?_, ?_, ?_, ?_, ?_⟩
  · exact fun hd p tag n marks toks drafts s k h hf => tokenReturn_acts k h hf
  · exact fun hd epoch image i s _ h => ⟨_, activation_next h, activation_back, activation_in⟩
  · exact fun hd p tag n epoch image marks c i x s _ h hc hs hx hg => runningSum_goesOn h hc hs hx hg
  · exact fun hd p tag s k h => cancel_acts k h
  · exact fun hd e image g pl s h hg hpl => cutCtrl_opens h hg hpl
  · exact fun hd p tag n pos s k h => jack_kept k h
  · exact fun hd b s h => manifest_waits h
  · exact fun hd s k h => adopt_acts k h
  · exact fun a s k ha hn => fenceWaitEnd_acts k ha hn

end Sys2Proof.Machine

/-! PROOFS. Outlier rows and overflow passes: what the reads of a master slot leave, and what a lost block sets off (R102, R104, R106,
R291, R296, R297). -/

namespace Sys2Proof.Machine

/-! ### Reads of a master slot (R291, R296) -/

/-- The pieces that a read which can be delivered may change. -/
abbrev readPieces : List Field := [.rings, .counters, .mem, .sec, .out]

/-- A block with a copy that can be delivered is read without a loss (R296). -/
theorem readWeight_moves_of_ok {r : BlockRead} (h : readOk r = true) (s : State) (k : SlotKey) (off : Nat) :
    Moves readPieces s (s.readWeight k off r.first r.second).2 := by
  have hfirst : ∀ a cls f, Moves readPieces s (s.noteRead a cls f) := fun _ _ _ => State.noteRead_moves (Moves.refl _ s) (by decide)
  unfold State.readWeight
  extract_lets a s1 a2
  split
  · next h1 =>
    split
    · next h2 => simp [readOk, h1, h2] at h
    · exact State.event_moves (State.count_moves (State.noteRead_moves (hfirst _ _ _) (by decide)) (by decide)) (by decide)
  · exact hfirst _ _ _

theorem readBlocks_moves_of_ok (k : SlotKey) : ∀ {reads : List BlockRead} (s : State), (∀ r ∈ reads, readOk r = true) →
    Moves readPieces s (State.readBlocks k reads s)
  | [], s, _ => Moves.refl _ s
  | r :: rest, s, h => by
    have hr := h r List.mem_cons_self
    rw [State.readBlocks, if_pos hr]
    exact (readWeight_moves_of_ok hr s k _).trans (readBlocks_moves_of_ok k _ fun x hx => h x (List.mem_cons_of_mem _ hx))

/-- The device is held in warm reset from source 6, with the matrix of a lost block noted (R297). -/
def HeldForLoss (s : State) : Prop := s.boot.phase = .heldWarm ∧ s.boot.source = 6 ∧ s.boot.weightLost.isSome = true

/-- A warm reset holds the device, with its source, and keeps what start-up has noted of lost weights (R331). -/
theorem warmReset_boot (s : State) (source : Nat) : (s.warmReset source).boot.phase = .heldWarm ∧
    (s.warmReset source).boot.source = source ∧ (s.warmReset source).boot.weightLost = s.boot.weightLost := by
  have hb : (s.flushAll (s.rings.map fun r => ringOf r.1)).abandonSteps.boot = s.boot :=
    (State.abandonSteps_moves (fl := everyPiece.filter (· ≠ .boot)) (State.flushAll_moves (Moves.refl _ s) (by decide))
      (by decide)).frame .boot (by decide)
  refine ⟨rfl, rfl, ?_⟩
  rw [← hb]
  rfl

/-- With no program pulse running a warm reset takes effect at once on a running device (R331). -/
theorem resetArrives_warm {s : State} (hr : s.running = true) (hp : s.pulseRuns none = false) (source : Nat) :
    s.resetArrives false source = s.warmReset source := by
  have hc : decide (s.boot.phase = .coldStart) = false := by
    rw [of_decide_eq_true hr]
    rfl
  unfold State.resetArrives
  simp [hp, hc]

theorem loseWeight_held {s : State} (hr : s.running = true) (hp : s.pulseRuns none = false) (image matrix addr : Nat) :
    HeldForLoss (s.loseWeight image matrix addr) := by
  unfold State.loseWeight
  extract_lets s1 s2
  have h1 : Moves [.rings, .counters, .sec, .out] s s1 := State.event_moves (Moves.refl _ s) (by decide)
  have hboot : s2.boot = { s.boot with weightLost := some (image, matrix) } :=
    congrArg (fun b : Boot => { b with weightLost := some (image, matrix) }) (h1.frame .boot (by decide))
  have htiles : s2.tiles = s.tiles := h1.frame .tiles (by decide)
  have hr2 : s2.running = true := by rw [State.running, hboot]; exact hr
  have hp2 : s2.pulseRuns none = false := by rw [State.pulseRuns, htiles]; exact hp
  rw [if_pos (by rw [hr2]; rfl), resetArrives_warm hr2 hp2]
  obtain ⟨h1, h2, h3⟩ := warmReset_boot s2 6
  exact ⟨h1, h2, by rw [h3, hboot]; rfl⟩

/-- A read, or its charge, leaves a running device with no pulse such a device. -/
theorem running_of_moves {l : List Field} {s t : State} (h : Moves l s t) (hb : Field.boot ∉ l) (ht : Field.tiles ∉ l)
    (hr : s.running = true) (hp : s.pulseRuns none = false) : t.running = true ∧ t.pulseRuns none = false := by
  have hboot : t.boot = s.boot := h.frame .boot hb
  have htiles : t.tiles = s.tiles := h.frame .tiles ht
  rw [State.running, State.pulseRuns, hboot, htiles]
  exact ⟨hr, hp⟩

/-- A block with both copies lost (R297). -/
theorem readWeight_held {r : BlockRead} (h : readOk r = false) {s : State} (hr : s.running = true) (hp : s.pulseRuns none = false)
    (k : SlotKey) (off : Nat) : HeldForLoss (s.readWeight k off r.first r.second).2 := by
  simp only [readOk, Bool.or_eq_false_iff, decide_eq_false_iff_not, not_not] at h
  obtain ⟨h1, h2⟩ := h
  unfold State.readWeight
  simp only [h1, h2]
  have hm : ∀ a b f g, Moves readPieces s ((s.noteRead a 1 f).noteRead b 1 g) := fun _ _ _ _ =>
    State.noteRead_moves (State.noteRead_moves (Moves.refl _ s) (by decide)) (by decide)
  obtain ⟨hr', hp'⟩ := running_of_moves (hm _ _ _ _) (by decide) (by decide) hr hp
  exact loseWeight_held hr' hp' _ _ _

theorem readBlocks_held (k : SlotKey) : ∀ {reads : List BlockRead} {s : State}, (∃ r ∈ reads, readOk r = false) → s.running = true →
    s.pulseRuns none = false → HeldForLoss (State.readBlocks k reads s)
  | [], _, h, _, _ => by simp at h
  | r :: rest, s, h, hr, hp => by
    unfold State.readBlocks
    dsimp only
    split
    · next hok =>
      obtain ⟨hr', hp'⟩ := running_of_moves (readWeight_moves_of_ok hok s k _) (by decide) (by decide) hr hp
      refine readBlocks_held k ?_ hr' hp'
      simpa [hok] using h
    · next hok => exact readWeight_held (Bool.eq_false_iff.2 hok) hr hp k _

/-! ### Outlier rows (R102, R106) -/

/-- After reads that can be delivered a product is as it was. -/
theorem prod?_of_moves {l : List Field} {s t : State} (h : Moves l s t) (hl : Field.prods ∉ l) {i : Nat} {p : Prod}
    (hp : s.prod? i = some p) : t.prod? i = some p := by
  have hprods : t.prods = s.prods := h.frame .prods hl
  rw [State.prod?, hprods]
  exact hp

/-- A change of a product by its own number. -/
theorem prod?_modProd_id {s : State} {i : Nat} {p : Prod} (hp : s.prod? i = some p) {g : Prod → Prod} (hg : (g p).id = p.id) :
    (s.modProd p.id g).prod? i = some (g p) := by
  have hid : p.id = i := eq_of_beq (prod?_name hp)
  rw [hid]
  exact prod?_modProd_self hp hg

/-- A master row that is delivered is multiplied into the outlier sums (R102). -/
theorem rowReturns_inline {s : State} {i a : Nat} {v : F32} {rest : List (Nat × F32)} {p : Prod} {reads : List BlockRead}
    (hp : s.prod? i = some p) (hok : ∀ r ∈ reads, readOk r = true) (hin : p.inline = (a, v) :: rest) :
    (s.rowReturns p reads).prod? i = some { addOutlier p ((s.prodSlot p).patched (wrongOf reads)) a v with inline := rest } := by
  unfold State.rowReturns
  rw [hin]
  dsimp only
  rw [List.all_eq_true.2 hok]
  exact prod?_modProd_id (prod?_of_moves (readBlocks_moves_of_ok _ s hok) (by decide) hp) rfl

/-- A suspended column that is delivered goes into the digital terms as it came (R106). -/
theorem rowReturns_suspended {s : State} {i a : Nat} {rest : List Nat} {p : Prod} {reads : List BlockRead}
    (hp : s.prod? i = some p) (hok : ∀ r ∈ reads, readOk r = true) (hin : p.inline = []) (hsusp : p.susp = a :: rest) :
    (s.rowReturns p reads).prod? i = some { p with susp := rest, wrong := p.wrong ++ columnBits [a - 1024] (wrongOf reads) } := by
  have e : s.rowReturns p reads = ((State.readBlocks (s.prodSlot p).key reads s).count (Ctr.suspTerms (p.tile / 64))).modProd p.id
      fun q => { q with susp := rest, wrong := q.wrong ++ columnBits [a - 1024] (wrongOf reads) } := by
    unfold State.rowReturns
    rw [hin, hsusp]
    dsimp only
    rw [List.all_eq_true.2 hok]
    rfl
  rw [e]
  exact prod?_modProd_id (prod?_of_moves (State.count_moves (readBlocks_moves_of_ok _ s hok) (by decide)) (by decide) hp) rfl

theorem rowReturns_held {s : State} {p : Prod} {a : Nat} {reads : List BlockRead} (ha : State.nextRead p = some a)
    (hl : ∃ r ∈ reads, readOk r = false) (hr : s.running = true) (hp : s.pulseRuns none = false) :
    HeldForLoss (s.rowReturns p reads) := by
  have hall : reads.all readOk = false := List.all_eq_false.2 (by simpa using hl)
  have hheld : HeldForLoss (State.readBlocks (s.prodSlot p).key reads s) := readBlocks_held _ hl hr hp
  unfold State.rowReturns
  cases hin : p.inline with
  | cons x rest => simpa [hall] using hheld
  | nil =>
    cases hsusp : p.susp with
    | cons y rest => simpa [hall] using hheld
    | nil => simp [State.nextRead, hin, hsusp] at ha

theorem outlierReadReturn_acts {i a : Nat} {reads : List BlockRead} {p : Prod} {s : State} (hp : s.prod? i = some p)
    (ha : State.nextRead p = some a) (hb : ∀ r ∈ reads, p.readsBlock a r.block = true) (hc : s.affordable 4 = true) :
    exec (.outlierReadReturn i ⟨reads, []⟩) s = .next ((s.rowReturns p reads).charge 4 none) := by
  show execOutlierReadReturn i ⟨reads, []⟩ s = _
  unfold execOutlierReadReturn
  rw [hp]
  exact when_true (by simpa [hc, ha] using hb)

theorem outlierReads {i a : Nat} {reads : List BlockRead} {p : Prod} {s : State} (hp : s.prod? i = some p)
    (ha : State.nextRead p = some a) (hb : ∀ r ∈ reads, p.readsBlock a r.block = true) (hc : s.affordable 4 = true) :
    ∃ t, exec (.outlierReadReturn i ⟨reads, []⟩) s = .next t ∧
      (∀ v rest, (∀ r ∈ reads, readOk r = true) → p.inline = (a, v) :: rest →
        t.prod? i = some { addOutlier p ((s.prodSlot p).patched (wrongOf reads)) a v with inline := rest }) ∧
      (∀ rest, (∀ r ∈ reads, readOk r = true) → p.inline = [] → p.susp = a :: rest →
        t.prod? i = some { p with susp := rest, wrong := p.wrong ++ columnBits [a - 1024] (wrongOf reads) }) ∧
      ((∃ r ∈ reads, readOk r = false) → s.running = true → s.pulseRuns none = false →
        t.boot.phase = .heldWarm ∧ t.boot.source = 6 ∧ t.boot.weightLost.isSome = true) :=
  ⟨_, outlierReadReturn_acts hp ha hb hc, fun _ _ hok hin => rowReturns_inline hp hok hin,
    fun _ hok hin hs => rowReturns_suspended hp hok hin hs, fun hl hr hq => rowReturns_held ha hl hr hq⟩

/-! ### Passes (R104, R106) -/

/-- A change of a product that leaves its number, its key, and what its pass has yet to do. -/
def PassMark (g : Prod → Prod) : Prop :=
  ∀ p, (g p).id = p.id ∧ (g p).key = p.key ∧ (g p).overflow = p.overflow ∧ (g p).passNeeded = p.passNeeded

/-- From `s` to `t` products are only changed so that no pass is asked for. -/
def PassKept (s t : State) : Prop := ∃ g, PassMark g ∧ t.prods = s.prods.map g

namespace PassKept

theorem of_moves {s t : State} (h : Moves ((.free :: .pending :: everyPiece).filter (· ≠ .prods)) s t) : PassKept s t :=
  ⟨id, fun _ => ⟨rfl, rfl, rfl, rfl⟩, by rw [List.map_id]; exact h.frame .prods (by decide)⟩

theorem refl (s : State) : PassKept s s := .of_moves (.refl _ s)

theorem trans {s t u : State} (h : PassKept s t) (k : PassKept t u) : PassKept s u := by
  obtain ⟨f, hf, hs⟩ := h
  obtain ⟨g, hg, ht⟩ := k
  refine ⟨g ∘ f, fun p => ?_, by rw [ht, hs, List.map_map]⟩
  obtain ⟨f1, f2, f3, f4⟩ := hf p
  obtain ⟨g1, g2, g3, g4⟩ := hg (f p)
  exact ⟨g1.trans f1, g2.trans f2, g3.trans f3, g4.trans f4⟩

theorem modProd (s : State) (i : Nat) {g : Prod → Prod} (hg : PassMark g := by exact fun _ => ⟨rfl, rfl, rfl, rfl⟩) :
    PassKept s (s.modProd i g) := by
  refine ⟨_, fun p => ?_, rfl⟩
  split
  · exact hg p
  · exact ⟨rfl, rfl, rfl, rfl⟩

theorem each {α : Type} {f : State → α → State} (hf : ∀ s x, PassKept s (f s x)) : ∀ (xs : List α) (s : State), PassKept s (s.each xs f)
  | [], s => refl s
  | x :: xs, s => (hf s x).trans (each hf xs (f s x))

theorem prod? {s t : State} (h : PassKept s t) {i : Nat} {p : Prod} (hp : s.prod? i = some p) :
    ∃ q, t.prod? i = some q ∧ q.overflow = p.overflow ∧ q.passNeeded = p.passNeeded ∧ q.key = p.key := by
  obtain ⟨g, hg, hs⟩ := h
  obtain ⟨-, hkey, hover, hneed⟩ := hg p
  refine ⟨g p, ?_, hover, hneed, hkey⟩
  unfold State.prod? at hp ⊢
  rw [hs, find?_map_of_same _ (fun y => by rw [(hg y).1]), hp]
  rfl

end PassKept

section
variable (s : State)

theorem suspectProd_passKept (i : Nat) : PassKept s (s.suspectProd i) := by
  unfold State.suspectProd
  split
  · exact .refl s
  · next p _ =>
    split
    · exact .refl s
    · extract_lets s1 w
      have h1 : PassKept s s1 := .trans (.modProd s i) (.of_moves (State.count_moves (Moves.refl _ _) (by decide)))
      split
      · exact h1
      · split
        · exact h1.trans (.of_moves (State.suspectStep_moves (Moves.refl _ s1) (by decide)))
        · exact h1.trans (.trans (.modProd s1 i) (.of_moves (State.unboundStep_moves (Moves.refl _ _) (by decide))))

theorem boundConditions_passKept (p : Prod) : PassKept s (s.boundConditions p) := by
  unfold State.boundConditions
  extract_lets b x code badTemp badCal drifted s1 s2 s3 s4 s5 s6
  have hcount : ∀ {u : State} (c : Prop) [Decidable c] (k : Nat), PassKept u (if c then u.count k else u) := fun c _ k =>
    .of_moves (Moves.ite (State.count_moves (Moves.refl _ _) (by decide)) (Moves.refl _ _))
  have h5 : PassKept s s5 := by
    refine .trans (.trans (.trans (.trans (hcount _ _) (hcount _ _)) (hcount _ _)) (hcount _ _)) (.of_moves (?_ : Moves _ s4 s5))
    exact Moves.ite (Moves.refl _ s4) (State.count_moves (Moves.refl _ s4) (by decide))
  have h6 : PassKept s s6 := by
    show PassKept s (if _ then _ else _)
    split
    · exact h5.trans (.trans (.modProd s5 p.id) (.of_moves (State.unboundStep_moves (Moves.refl _ _) (by decide))))
    · exact h5
  split
  · exact .trans (h6.trans (suspectProd_passKept s6 p.id)) (.of_moves (State.fault_moves (Moves.refl _ _) (by decide)))
  · exact h6

theorem firstPhase_passKept (p : Prod) : PassKept s (s.firstPhase p) := by
  unfold State.firstPhase
  exact .trans (.trans (.modProd s p.id) (.of_moves (State.modTile_moves (Moves.refl _ _) (by decide)))) (boundConditions_passKept _ p)

theorem noteConflicts_passKept (t d : Nat) : PassKept s (s.noteConflicts t d) := by
  refine ⟨_, fun p => ?_, rfl⟩
  split <;> exact ⟨rfl, rfl, rfl, rfl⟩

theorem startPhase_passKept (t : Nat) (p : Prod) : PassKept s (s.startPhase t p) := by
  unfold State.startPhase
  extract_lets b s1 s2
  split
  · exact .of_moves (State.wakeBough_moves (Moves.refl _ _) (by decide))
  · split
    · exact .of_moves (State.count_moves (Moves.refl _ _) (by decide))
    · split
      · exact .of_moves (State.withhold_moves (Moves.refl _ _) (by decide))
      · have h1 : PassKept s (if p.latched then s else s.firstPhase p) := by
          split
          · exact .refl s
          · exact firstPhase_passKept s p
        refine .trans (h1.trans (noteConflicts_passKept _ t p.deck)) (.of_moves ?_)
        exact State.modTile_moves (State.modBough_moves (State.charge_moves (Moves.refl _ _) (by decide)) (by decide)) (by decide)

/-- Starting a tile's next work asks for no pass (R36). -/
theorem tileNext_passKept (t : Nat) : PassKept s (s.tileNext t) := by
  unfold State.tileNext
  extract_lets s1 x p
  have h1 : PassKept s s1 := .of_moves (State.dropRefused_moves (Moves.refl _ _) (by decide))
  have hprog : PassKept s (s1.startProg t) := h1.trans (.of_moves (State.startProg_moves (Moves.refl _ _) (by decide)))
  clear_value p
  split
  · exact h1
  · split
    · exact hprog
    · split
      · exact h1.trans (startPhase_passKept _ t _)
      · split
        · exact hprog
        · exact h1

end

/-- Multiplying outlier rows changes a product's outlier sums alone (R102). -/
theorem foldl_addOutlier_names (x : Slot) : ∀ (rows : List (Nat × F32)) (p : Prod),
    (rows.foldl (fun q r => addOutlier q x r.1 r.2) p).id = p.id ∧ (rows.foldl (fun q r => addOutlier q x r.1 r.2) p).key = p.key
  | [], _ => ⟨rfl, rfl⟩
  | r :: rows, p => foldl_addOutlier_names x rows (addOutlier p x r.1 r.2)

/-- After its pass a product has nothing in overflow and asks for no pass (R104). -/
theorem passDone_over {s : State} {i : Nat} {p : Prod} (hp : s.prod? i = some p) (w : List (Nat × Byte)) :
    ∃ q, (s.passDone { p with wrong := w }).prod? i = some q ∧ q.overflow = [] ∧ q.passNeeded = false ∧ q.key = p.key := by
  unfold State.passDone
  extract_lets x b s1 s2 ts
  have h1 : s1.prod? i = some p := by
    refine prod?_of_moves (l := [.counters]) (?_ : Moves _ s s1) (by decide) hp
    exact Moves.ite (Moves.refl _ s) (State.count_moves (State.count_moves (Moves.refl _ s) (by decide)) (by decide))
  obtain ⟨hid, hkey⟩ := foldl_addOutlier_names x p.overflow p
  have h2 : s2.prod? i = some { p.overflow.foldl (fun q r => addOutlier q x r.1 r.2) p with overflow := [], passNeeded := false } :=
    prod?_modProd_id h1 hid
  have hk : PassKept s2 ((s2.holdTiles ts).each ts State.tileNext) :=
    .trans (.of_moves (State.holdTiles_moves (Moves.refl _ s2) (by decide))) (.each tileNext_passKept ts _)
  obtain ⟨q, hq, hover, hneed, hqkey⟩ := hk.prod? h2
  exact ⟨q, hq, hover, hneed, hqkey.trans hkey⟩

theorem passReturns_over {s : State} {i : Nat} {p : Prod} {reads : List BlockRead} (hp : s.prod? i = some p)
    (hok : ∀ r ∈ reads, readOk r = true) :
    ∃ q, (s.passReturns p reads).prod? i = some q ∧ q.overflow = [] ∧ q.passNeeded = false ∧ q.key = p.key := by
  unfold State.passReturns
  extract_lets t clip u
  have ht : t.prod? i = some p := prod?_of_moves (readBlocks_moves_of_ok _ s hok) (by decide) hp
  obtain ⟨q, hq, hover, hneed, hkey⟩ := passDone_over ht (p.wrong ++ wrongOf reads)
  rw [List.all_eq_true.2 hok]
  have hid : p.id = i := eq_of_beq (prod?_name hp)
  refine ⟨{ q with wrong := p.wrong ++ clip }, ?_, hover, hneed, hkey⟩
  rw [hid]
  exact prod?_modProd_self hq (g := fun q => { q with wrong := p.wrong ++ clip }) rfl

theorem overflowPass_ends {i : Nat} {reads : List BlockRead} {p : Prod} {s : State} (hp : s.prod? i = some p)
    (hn : s.passNext p = true) (hb : ∀ r ∈ reads, p.passReads r.block = true) (hc : s.affordable 4 = true) :
    ∃ t, exec (.overflowPass i reads) s = .next t ∧ ((∀ r ∈ reads, readOk r = true) →
      ∃ q, t.prod? i = some q ∧ q.overflow = [] ∧ q.passNeeded = false ∧ q.key = p.key) := by
  refine ⟨(s.passReturns p reads).charge 4 none, ?_, fun hok => passReturns_over hp hok⟩
  show execOverflowPass i reads s = _
  unfold execOverflowPass
  rw [hp]
  exact when_true (by simpa [hn, hc] using hb)

end Sys2Proof.Machine

/-! PROOFS. Sums, graft terms, continuity checks and windows: where a sum is taken away no operation brings one back (R77, R105, R110,
R112, R210, R211). -/

namespace Sys2Proof.Machine

/-! ### What leaves the running sums within those that stood -/

/-- From `s` to `t` no running sum is added. -/
def SumsWithin (s t : State) : Prop := t.sums ⊆ s.sums

/-- Every piece but the sums. -/
abbrev sumQuiet : List Field := (.free :: .pending :: everyPiece).filter (· ≠ .sums)

namespace SumsWithin

theorem of_moves {s t : State} (h : Moves sumQuiet s t) : SumsWithin s t := by
  have hs : t.sums = s.sums := h.frame .sums (by decide)
  unfold SumsWithin
  rw [hs]
  exact List.Subset.refl _

theorem refl (s : State) : SumsWithin s s := List.Subset.refl _

theorem trans {s t u : State} (h : SumsWithin s t) (k : SumsWithin t u) : SumsWithin s u := List.Subset.trans k h

theorem quiet {r s t : State} (h : SumsWithin r s) (k : Moves sumQuiet s t) : SumsWithin r t := h.trans (of_moves k)

end SumsWithin

section
variable (s : State)

theorem forget_sums (mine : WorkRef → Bool) : SumsWithin s (s.forget mine) := by
  unfold State.forget
  refine .trans (fun _ hx => ?_ : SumsWithin s _) (.of_moves (State.freeOld_moves (Moves.refl _ _) (by decide)))
  exact List.mem_of_mem_filter hx

theorem dropWork_sums (c : Nat) : SumsWithin s (s.dropWork c) := by
  unfold State.dropWork
  extract_lets ids s1 s2
  have h2 : SumsWithin s s2 := (forget_sums s1 _ : SumsWithin s1 s2)
  split
  · exact h2
  · exact h2

theorem endCall_sums (c : Nat) (st : Status) (from_ : Option Port) : SumsWithin s (s.endCall c st from_) := by
  unfold State.endCall
  extract_lets e s1 s2 s3 held s4 s5 s6
  split
  · exact .refl s
  · have h1 : SumsWithin s s1 := .of_moves (State.journal_moves (Moves.refl _ s) (by decide))
    have h2 : SumsWithin s s2 := (h1.trans (dropWork_sums s1 c)).quiet (State.countEnd_moves (Moves.refl _ _) (by decide))
    have h3 : SumsWithin s s3 := h2.quiet (State.tellChain_moves (Moves.refl _ s2) (by decide))
    have h4 : SumsWithin s s4 := h3
    have h5 : Moves sumQuiet s4 s5 := by
      unfold s5
      split
      · exact Moves.refl _ s4
      · exact State.completeWith_moves (Moves.refl _ s4) (by decide)
    have h6 : Moves sumQuiet s5 s6 := Moves.ite (State.unpinGraft_moves (Moves.refl _ s5) (by decide))
      (State.freeWritten_moves (Moves.refl _ s5) (by decide))
    exact (h4.quiet (h5.trans h6)).quiet
      (State.afterFree_moves (State.completeAll_moves (Moves.refl _ s6) (by decide)) (by decide))

theorem restState_sums (c : Nat) : SumsWithin s (s.restState c) := by
  unfold State.restState
  extract_lets e
  split
  · split
    · split
      · exact endCall_sums s c _ _
      · exact .of_moves (State.modCall_moves (State.count_moves (Moves.refl _ s) (by decide)) (by decide))
    · exact .of_moves (State.modCall_moves (Moves.refl _ s) (by decide))
  · exact .refl s

theorem stepGone_sums (c n : Nat) : SumsWithin s (s.stepGone c n) := by
  unfold State.stepGone
  extract_lets mine ids s1
  exact (forget_sums s1 mine : SumsWithin s _).quiet
    (State.settle_moves (State.unqueue_moves (Moves.refl _ _) (by decide)) (by decide))

theorem draftsDone_sums (x : Step) : SumsWithin s (s.draftsDone x) := by
  unfold State.draftsDone
  extract_lets e marks s1
  have h1 : Moves sumQuiet s s1 := Moves.ite (Moves.refl _ s) (State.send_moves (Moves.refl _ s) (by decide))
  exact (SumsWithin.of_moves h1).trans ((stepGone_sums s1 _ _).trans (restState_sums _ _))

theorem draftToken_sums (x : Step) (v : List F32) : SumsWithin s (s.draftToken x v) := by
  unfold State.draftToken
  extract_lets e m al tok q s1
  split
  · exact draftsDone_sums s x
  · have h1 : SumsWithin s s1 := .of_moves (State.modCall_moves (Moves.refl _ s) (by decide))
    split
    · exact h1
    · exact h1.trans (draftsDone_sums s1 x)

/-- The delivery of a vector starts no sum: what it sets going is a draft's end, or a step that moves on (R77, R225). -/
theorem deliver_sums (h : Handoff) (m : Mat) : SumsWithin s (s.deliver h m) := by
  unfold State.deliver
  extract_lets w s1 back s2 e
  have h2 : SumsWithin s s2 :=
    (.of_moves (Moves.ite (Moves.refl _ s1) (State.modStep_moves (Moves.refl _ s1) (by decide))) : SumsWithin s1 s2)
  have hmove : ∀ {u : State}, Moves sumQuiet s2 u → SumsWithin s (u.moveStep w.call w.step) := fun hu =>
    h2.quiet (State.moveStep_moves hu (by decide))
  split
  · refine hmove ?_
    split
    · exact State.relayBack_moves (Moves.refl _ s2) (by decide)
    · exact Moves.refl _ s2
  · next x v _ _ =>
    extract_lets s3 s4
    have h3 : Moves sumQuiet s2 s3 :=
      Moves.ite (State.relayOut_moves (State.countBlocks_moves (Moves.refl _ s2) (by decide)) (by decide)) (Moves.refl _ s2)
    have h4 : Moves sumQuiet s2 s4 := by
      unfold s4
      split <;> exact Moves.ite (State.modStep_moves h3 (by decide)) h3
    split
    · exact (h2.quiet h4).trans (draftToken_sums s4 x v)
    · exact hmove h4
  · exact hmove (Moves.refl _ s2)

end

/-! ### A sum ends (R77, R79) -/

/-- No running sum has the key. -/
def NoSum (k : SumKey) (s : State) : Prop := ∀ x ∈ s.sums, x.key ≠ k

theorem NoSum.within {k : SumKey} {s t : State} (h : NoSum k s) (hw : SumsWithin s t) : NoSum k t := fun x hx => h x (hw hx)

theorem NoSum.quiet {k : SumKey} {s t : State} (h : NoSum k s) (hm : Moves sumQuiet s t) : NoSum k t := h.within (.of_moves hm)

theorem tidyKey_noSum (s : State) (k : SumKey) : NoSum k (s.tidyKey k) := fun _ hx => by
  simpa using (List.mem_filter.1 hx).2

/-- The handoff takes the sum away (R77 step 5). -/
theorem handOff_noSum (s : State) (r : SumRun) (m : Mat) (E : Int) : NoSum r.key (s.handOff r m E) := by
  unfold State.handOff
  extract_lets e w transposed tid unb s1 s2 kind h
  have h2 : NoSum r.key s2 := by
    unfold s2
    split <;> exact tidyKey_noSum s r.key
  split
  · exact h2.quiet (State.saveVector_moves (Moves.refl _ s2) (by decide))
  · exact h2.within (deliver_sums s2 h m)

/-- A sum that goes on to the next position, or ends here with no graft term to add, is taken away (R77, R79). -/
theorem sumEnds_noSum {s : State} {r : SumRun} {m : Mat} (h : State.relaysSum m r.key = true ∨ s.graftFor r.key = none) (b first : Nat) :
    NoSum r.key (s.sumEnds r m b first) := by
  unfold State.sumEnds
  extract_lets w e item s0 s1
  split
  · split
    · exact tidyKey_noSum s r.key
    · have h1 : NoSum r.key s1 := (tidyKey_noSum s r.key).quiet (State.modStep_moves (Moves.refl _ _) (by decide))
      refine h1.quiet (State.moveStep_moves ?_ (by decide))
      exact Moves.ite (Moves.refl _ s1) (State.send_moves (Moves.refl _ s1) (by decide))
  · next hr =>
    rw [h.resolve_left hr]
    exact handOff_noSum s r m _

/-! ### A bough adds its sum (R77) -/

theorem setSum_mem (s : State) (r : SumRun) : r ∈ (s.setSum r).sums := by
  unfold State.setSum
  dsimp only
  split
  · next h =>
    obtain ⟨x, hx, hk⟩ := List.any_eq_true.1 h
    exact List.mem_map.2 ⟨x, hx, if_pos hk⟩
  · exact List.mem_append_right _ List.mem_cons_self

/-- Where no element overflows the vector is added (R80). -/
theorem addInto_of_fits {s : State} {r : SumRun} {v : List Acc} (h : State.overflowing r.accs v = []) (E : Int) (b first : Nat)
    (cont : State → SumRun → State) : s.addInto r v E b first cont = cont s { r with accs := List.zipWith Acc.add r.accs v } := by
  unfold State.addInto
  rw [h]
  rfl

/-- The running sum with a bough's total added. -/
def withBough (r : SumRun) (b : Nat) (v : List Acc) : SumRun :=
  { r with accs := List.zipWith Acc.add r.accs v, added := r.added ++ [b] }

/-- The state with the sum in place and the products' terms in it. -/
def State.withTerms (s : State) (ps : List Prod) (r : SumRun) : State :=
  ({ s with prods := s.prods.map fun (p : Prod) => if (ps.map fun (q : Prod) => q.id).contains p.id then { p with summed := true } else p }).setSum r

theorem boughSum_adds {u : State} {k : SumKey} {b first : Nat} {m : Mat} {ps : List Prod} {r : SumRun} {rest : List Nat}
    (hn : u.nextBough k = some (b, m, first, ps, r, rest))
    (ho : State.overflowing r.accs (u.boughTotal ps m.exponent r.accs.length) = []) :
    u.boughSum k = (if rest.isEmpty then
      (u.withTerms ps (withBough r b (u.boughTotal ps m.exponent r.accs.length))).sumEnds
        (withBough r b (u.boughTotal ps m.exponent r.accs.length)) m b first
    else u.withTerms ps (withBough r b (u.boughTotal ps m.exponent r.accs.length))) := by
  unfold State.boughSum
  rw [hn]
  exact addInto_of_fits ho _ _ _ _

theorem withTerms_sameBut (s : State) (ps : List Prod) (r : SumRun) : SameBut [.prods, .sums] s (s.withTerms ps r) := by
  intro f hf
  cases f with
  | prods => exact absurd hf (by decide)
  | sums => exact absurd hf (by decide)
  | _ => rfl

/-- The graft of a sum does not depend on products and sums. -/
theorem withTerms_graftFor (s : State) (ps : List Prod) (r : SumRun) (k : SumKey) : (s.withTerms ps r).graftFor k = s.graftFor k := rfl

theorem boughSum_next {k : SumKey} {reads : List (Nat × BlockRead)} {s : State} (hr : s.readsSum k reads = true)
    (hok : ∀ x ∈ reads, readOk x.2 = true) :
    exec (.boughSum k ⟨reads, []⟩) s = .next ((State.slowReads reads s).boughSum k) := by
  have hall : (reads.all fun x => readOk x.2) = true := List.all_eq_true.2 hok
  have hret : s.sumReturns k reads = (State.slowReads reads s).boughSum k := by
    unfold State.sumReturns
    rw [hall]
    rfl
  rw [← hret]
  exact when_true (by rw [hr]; rfl)

theorem boughSum_acts {k : SumKey} {reads : List (Nat × BlockRead)} {b first : Nat} {m : Mat} {ps : List Prod} {r : SumRun}
    {rest : List Nat} {s u : State} (hr : s.readsSum k reads = true) (hok : ∀ x ∈ reads, readOk x.2 = true)
    (hu : State.slowReads reads s = u) (hn : u.nextBough k = some (b, m, first, ps, r, rest)) :
    ∃ t, exec (.boughSum k ⟨reads, []⟩) s = .next t ∧
      (State.overflowing r.accs (u.boughTotal ps m.exponent r.accs.length) = [] → rest ≠ [] → SameBut [.prods, .sums] u t ∧
        { r with accs := List.zipWith Acc.add r.accs (u.boughTotal ps m.exponent r.accs.length),
                 added := r.added ++ [b] } ∈ t.sums) ∧
      (State.overflowing r.accs (u.boughTotal ps m.exponent r.accs.length) = [] → rest = [] → r.key = k →
        State.relaysSum m k = true ∨ u.graftFor k = none → ∀ x ∈ t.sums, x.key ≠ k) := by
  refine ⟨u.boughSum k, hu ▸ boughSum_next hr hok, fun ho hrest => ?_, fun ho hrest hk hg => ?_⟩
  · rw [boughSum_adds hn ho, if_neg (by simpa using hrest)]
    exact ⟨withTerms_sameBut u ps _, setSum_mem _ _⟩
  · subst hrest hk
    rw [boughSum_adds hn ho, List.isEmpty_nil, if_pos rfl]
    refine sumEnds_noSum (r := withBough r b (u.boughTotal ps m.exponent r.accs.length)) ?_ b first
    rw [withTerms_graftFor]
    exact hg

/-! ### Graft terms (R210, R211, R312) -/

/-- A charge that names no bough changes the power account alone (R361). -/
theorem charge_none_moves (s : State) (kind : Nat) : Moves [.power] s (s.charge kind none) := by
  unfold State.charge State.chargeBy
  exact State.modPower_moves (Moves.refl _ s) (by decide)

/-- The sum of a key, as it stands or as its graft term starts it. -/
theorem find?_sum_getD {s : State} {k : SumKey} {fresh : SumRun} (hf : fresh.key = k ∧ fresh.needsGraft = false)
    (hn : ∀ r ∈ s.sums, r.key = k → r.needsGraft = false) :
    ((s.sums.find? fun r => r.key == k).getD fresh).key = k ∧ ((s.sums.find? fun r => r.key == k).getD fresh).needsGraft = false := by
  cases h : s.sums.find? fun r => r.key == k with
  | none => exact hf
  | some r =>
    have hk : r.key = k := eq_of_beq (List.find?_some (p := fun r : SumRun => r.key == k) h)
    exact ⟨hk, hn r (List.mem_of_find?_eq_some h) hk⟩

/-- A graft term that no sum waits for is kept for its sum (R210). -/
theorem graftDone_keeps {u : State} {k : SumKey} {g : Graft} {image : Nat} {b : Binding} {m : Mat} (hg : u.graftFor k = some g)
    (hc : u.sumContext k = some (image, b, m)) (hn : ∀ r ∈ u.sums, r.key = k → r.needsGraft = false) :
    Moves [.counters, .steps, .stage, .sums] u (u.graftDone k) ∧
      ∃ r ∈ (u.graftDone k).sums, r.key = k ∧ r.graft = some (u.graftVector g m k) := by
  unfold State.graftDone
  rw [hg, hc]
  dsimp -zeta only
  extract_lets width y fresh r0 r s1 s2 s3 first
  obtain ⟨hkey, hneed⟩ : r0.key = k ∧ r0.needsGraft = false := find?_sum_getD ⟨rfl, rfl⟩ hn
  have h1 : Moves [.counters, .steps, .stage, .sums] u s1 := by
    unfold s1
    split
    · exact State.stageFor_moves (Moves.refl _ u) (by decide)
    · exact Moves.refl _ u
  have h3 : Moves [.counters, .steps, .stage, .sums] u s3 :=
    State.useUnit_moves (Moves.ite (State.count_moves h1 (by decide)) h1) (by decide)
  rw [if_neg (show ¬r.needsGraft = true from hneed ▸ Bool.false_ne_true)]
  exact ⟨State.setSum_moves h3 (by decide), r, setSum_mem s3 r, hkey, rfl⟩

theorem graftTerm_next {k : SumKey} {vec : Option VecIn} {row : Option Nat} {s : State}
    (hrow : row = if 65536 ≤ k.colTile then some (k.colTile - 65536) else none) (hv : s.vecOk k row vec = true)
    (hr : (s.takeVec k row vec).graftReady k = true) (ha : s.affordable 5 = true) :
    exec (.graftTerm k vec []) s =
      .next (if s.unitHeld 160 then s.withhold 160 else ((s.takeVec k row vec).graftDone k).charge 5 none) := by
  subst hrow
  exact when_true (by rw [hv, hr, ha]; rfl)

theorem graftTerm_keeps {k : SumKey} {vec : Option VecIn} {row : Option Nat} {g : Graft} {image : Nat} {b : Binding} {m : Mat} {s : State}
    (hrow : row = if 65536 ≤ k.colTile then some (k.colTile - 65536) else none) (hv : s.vecOk k row vec = true)
    (hr : (s.takeVec k row vec).graftReady k = true) (ha : s.affordable 5 = true) (hh : s.unitHeld 160 = false)
    (hg : (s.takeVec k row vec).graftFor k = some g) (hc : (s.takeVec k row vec).sumContext k = some (image, b, m))
    (hn : ∀ r ∈ (s.takeVec k row vec).sums, r.key = k → r.needsGraft = false) :
    ∃ t, exec (.graftTerm k vec []) s = .next t ∧ SameBut [.counters, .steps, .stage, .sums, .power] (s.takeVec k row vec) t ∧
      ∃ r ∈ t.sums, r.key = k ∧ r.graft = some ((s.takeVec k row vec).graftVector g m k) := by
  obtain ⟨hm, hkept⟩ := graftDone_keeps hg hc hn
  refine ⟨_, graftTerm_next hrow hv hr ha, ?_, ?_⟩
  · rw [hh, if_neg Bool.false_ne_true]
    exact ((hm.mono (by decide)).trans ((charge_none_moves _ 5).mono (by decide))).frame
  · rw [hh, if_neg Bool.false_ne_true]
    exact hkept

/-- A grant that an overdue slate withholds leaves the term to come again (R312). -/
theorem graftTerm_withheld {k : SumKey} {vec : Option VecIn} {row : Option Nat} {s : State}
    (hrow : row = if 65536 ≤ k.colTile then some (k.colTile - 65536) else none) (hv : s.vecOk k row vec = true)
    (hr : (s.takeVec k row vec).graftReady k = true) (ha : s.affordable 5 = true) (hh : s.unitHeld 160 = true) :
    ∃ t, exec (.graftTerm k vec []) s = .next t ∧ t = s.withhold 160 :=
  ⟨_, graftTerm_next hrow hv hr ha, if_pos hh⟩

/-! ### Continuity checks (R110, R112) -/

theorem bough_modBough_self {s : State} (c : s.Canonical) (b : Nat) (f : Bough → Bough) : (s.modBough b f).bough b = f (s.bough b) :=
  Tbl.get_update_self (Tbl.rising_of_wf c.boughs)

/-- Grants charged to a bough are deducted from the account and leave the bough's checks (R361, R366). -/
theorem chargeBy_bough {s : State} (c : s.Canonical) (n kind b : Nat) :
    (s.chargeBy n kind (some b)).power.account = s.power.account - n * s.chargeOf kind ∧
    (s.chargeBy n kind (some b)).power.charged = s.power.charged + n * s.chargeOf kind ∧
    ((s.chargeBy n kind (some b)).bough b).checks = (s.bough b).checks := by
  refine ⟨?_, rfl, ?_⟩
  · show s.power.account - ((n * s.chargeOf kind : Nat) : Int) = _
    push_cast
    rfl
  · unfold State.chargeBy
    dsimp only
    rw [bough_modBough_self ((State.modPower_moves (fl := [.power]) (Moves.refl _ s) (by decide)).canon c)]
    rfl

/-- A check that ends leaves its bough's queue and its step's count; then it is charged, and what follows touches neither account nor
boughs (R110, R112). -/
theorem checkDone_parts (s : State) (p : Prod) : ∃ u : State, Moves [.boughs, .steps, .counters] s u ∧
    u.boughs = (s.modBough (p.tile / 64) fun x => { x with checks := x.checks.filter fun i => i != p.id }).boughs ∧
    Moves [.rings, .counters, .steps, .tiles, .prods, .links, .faults, .sec, .out] (u.chargeBy 4 0 (some (p.tile / 64))) (s.checkDone p) := by
  unfold State.checkDone
  extract_lets b w ds s1 s2 s3 s4
  have h1 : Moves [.boughs, .steps, .counters] s s1 :=
    State.modStep_moves (State.modBough_moves (Moves.refl _ s) (by decide)) (by decide)
  exact ⟨s2, State.levelMax_moves (State.count_moves h1 (by decide)) (by decide), rfl,
    State.moveStep_moves (State.dropIfDone_moves (State.mismatch_moves (Moves.refl _ s3) (by decide)) (by decide)) (by decide)⟩

/-- A check that ends is charged four product grants (R112). -/
theorem checkDone_charged {s : State} (c : s.Canonical) (p : Prod) :
    p.id ∉ ((s.checkDone p).bough (p.tile / 64)).checks ∧ (s.checkDone p).power.account = s.power.account - 4 * s.chargeOf 0 ∧
      (s.checkDone p).power.charged = s.power.charged + 4 * s.chargeOf 0 := by
  obtain ⟨u, hm, hb, hrest⟩ := checkDone_parts s p
  obtain ⟨hacc, hcharged, hchecks⟩ := chargeBy_bough (hm.canon c) 4 0 (p.tile / 64)
  have hpower : u.power = s.power := hm.frame .power (by decide)
  have hregs : u.regs = s.regs := hm.frame .regs (by decide)
  have hcost : u.chargeOf 0 = s.chargeOf 0 := by rw [State.chargeOf, hpower, hregs, State.chargeOf]
  have hgone : (u.bough (p.tile / 64)).checks = (s.bough (p.tile / 64)).checks.filter fun i => i != p.id := by
    rw [State.bough, hb]
    exact congrArg Bough.checks (bough_modBough_self c (p.tile / 64) _)
  have hpowerEnd : (s.checkDone p).power = (u.chargeBy 4 0 (some (p.tile / 64))).power := hrest.frame .power (by decide)
  have hboughsEnd : (s.checkDone p).boughs = (u.chargeBy 4 0 (some (p.tile / 64))).boughs := hrest.frame .boughs (by decide)
  rw [hpowerEnd, hacc, hcharged, hcost, hpower, State.bough, hboughsEnd]
  refine ⟨?_, rfl, rfl⟩
  show p.id ∉ ((u.chargeBy 4 0 (some (p.tile / 64))).bough (p.tile / 64)).checks
  rw [hchecks, hgone]
  simp

theorem contCheckDone_ends {i : Nat} {p : Prod} {s : State} (c : s.Canonical) (hp : s.prod? i = some p)
    (hi : i ∈ (s.bough (p.tile / 64)).checks) (hplan : p.plan = []) (ha : s.affordableBy 4 0 = true) :
    ∃ t, exec (.contCheckDone i) s = .next t ∧ i ∉ (t.bough (p.tile / 64)).checks ∧
      t.power.account = s.power.account - 4 * s.chargeOf 0 ∧ t.power.charged = s.power.charged + 4 * s.chargeOf 0 := by
  have hid : p.id = i := eq_of_beq (prod?_name hp)
  subst hid
  refine ⟨s.checkDone p, ?_, checkDone_charged c p⟩
  show execContCheckDone p.id s = _
  unfold execContCheckDone
  rw [hp]
  exact when_true (by simp [hi, hplan, ha])

/-! ### Outlier windows (R105) -/

/-- At a window's end the matrix's histogram is gone, whether an event is raised or not. -/
theorem windowEnds_histos (s : State) (m : Nat) : (s.windowEnds m).histos = s.histos.filter fun h => h.matrix != m := by
  unfold State.windowEnds
  split
  · next h =>
    refine (List.filter_eq_self.2 fun x hx => ?_).symm
    simpa using List.find?_eq_none.1 h x hx
  · extract_lets s1
    split
    · rfl
    · split
      · rfl
      · exact (State.event_moves (fl := [.rings, .counters, .sec, .out]) (Moves.refl _ s1) (by decide)).frame .histos (by decide)

theorem outlierWindowEnd_ends {m : Nat} {s : State} (hr : s.running = true) (hw : s.now % 2 ^ 30 = 0) :
    ∃ t, exec (.outlierWindowEnd m) s = .next t ∧ t.histos = s.histos.filter fun h => h.matrix != m :=
  ⟨s.windowEnds m, when_true (by rw [hr, hw]; rfl), windowEnds_histos s m⟩

/-- Settles O52: reads of master slots, passes, bough sums, graft terms, checks and windows, each by the rule for its state change. -/
theorem sumsAndPassesRun : Obligations.SumsAndPassesRun := by
  unfold Obligations.SumsAndPassesRun
  refine ⟨?_, ?_, ?_, ?_, ?_, ?_⟩
  · exact fun i reads p a s hp ha hb hc => outlierReads hp ha hb hc
  · exact fun i reads p s hp hn hb hc => overflowPass_ends hp hn hb hc
  · exact fun k reads b first m ps r rest s u hr hok hu hn => boughSum_acts hr hok hu hn
  · rintro k vec row g image b m s u hrow hv rfl hr ha
    exact ⟨fun hh hg hc hn => graftTerm_keeps hrow hv hr ha hh hg hc hn, fun hh => graftTerm_withheld hrow hv hr ha hh⟩
  · exact fun i p s c hp hi hplan ha => contCheckDone_ends c hp hi hplan ha
  · exact fun m s hr hw => outlierWindowEnd_ends hr hw

end Sys2Proof.Machine

/-! PROOFS. References warm, runs are requested and the converter is taken for a sample (R119, R120, R123). -/

namespace Sys2Proof.Machine

/-! ### Boughs that a mask names -/

theorem bough_modBough_ne {s : State} (c : s.Canonical) {b j : Nat} (h : j ≠ b) (f : Bough → Bough) : (s.modBough b f).bough j = s.bough j :=
  Tbl.get_update_ne h (Tbl.rising_of_wf c.boughs)

theorem bough_congr {s t : State} (h : t.boughs = s.boughs) (b : Nat) : t.bough b = s.bough b := by rw [State.bough, h, State.bough]

theorem mem_namedBoughs {f : Sys2Proof.Fetch} {b : Nat} : b ∈ namedBoughs f ↔ b < 128 ∧ f.word.getLsbD (64 + b) = true := by
  simp [namedBoughs]

theorem namedBoughs_nodup (f : Sys2Proof.Fetch) : (namedBoughs f).Nodup := List.nodup_range.filter _

/-- An operation on one bough. -/
structure OnBough (f : State → Nat → State) : Prop where
  moves : ∀ s b, Moves [.counters, .tiles, .boughs] s (f s b)
  others : ∀ s, s.Canonical → ∀ b j, j ≠ b → (f s b).bough j = s.bough j

section
variable {f : State → Nat → State} (hf : OnBough f)
include hf

theorem OnBough.each_moves (s : State) (bs : List Nat) : Moves [.counters, .tiles, .boughs] s (s.each bs f) :=
  (Moves.refl _ s).each fun u b hu => hu.trans (hf.moves u b)

/-- A bough that the list does not name stays. -/
theorem OnBough.each_others {j : Nat} : ∀ (bs : List Nat) {s : State}, s.Canonical → j ∉ bs → (s.each bs f).bough j = s.bough j
  | [], _, _, _ => rfl
  | b :: bs, s, c, h => (OnBough.each_others bs ((hf.moves s b).canon c) (List.not_mem_of_not_mem_cons h)).trans
      (hf.others s c b j (List.ne_of_not_mem_cons h))

/-- A bough that the list names once is as its own operation leaves it, begun in a state where the bough was as it is now. -/
theorem OnBough.each_self {j : Nat} : ∀ {bs : List Nat} {s : State}, s.Canonical → bs.Nodup → j ∈ bs →
    ∃ u : State, u.Canonical ∧ u.bough j = s.bough j ∧ u.tick = s.tick ∧ (s.each bs f).bough j = (f u j).bough j
  | [], _, _, _, h => by cases h
  | b :: bs, s, c, hn, h => by
    obtain ⟨hb, hbs⟩ := List.nodup_cons.1 hn
    have hc := (hf.moves s b).canon c
    by_cases hj : j = b
    · subst hj
      exact ⟨s, c, rfl, rfl, OnBough.each_others hf bs hc hb⟩
    · obtain ⟨u, cu, hu, ht, he⟩ := OnBough.each_self (bs := bs) hc hbs ((List.mem_cons.1 h).resolve_left hj)
      exact ⟨u, cu, hu.trans (hf.others s c b j hj), ht.trans ((hf.moves s b).frame .tick (by decide)), he⟩

end

/-- A descriptor whose effect is work on tiles and boughs and an answer (R230, R240). -/
theorem answered_after {s u : State} {f : Sys2Proof.Fetch} {st : Status} (c : s.Canonical) (h : s.Fetched f)
    (hm : Moves [.counters, .tiles, .boughs] (s.advance f.ring) u) : Answered s (u.complete (s.jobOf f) st) f st 0 0 := by
  have hr : u.rings = (s.advance f.ring).rings := hm.frame .rings (by decide)
  refine answered_of h (hm.canon (advance_canonical c _)) ?_ ((hm.frame .tick (by decide)).trans (advance_tick _ _)) ?_
  · rw [← advance_out s f.ring]
    exact hm.grows
  · rw [State.ring, hr]
    exact congrArg Ring.pos (advance_ring c f.ring)

theorem complete_bough (s : State) (j : Job) (st : Status) (b : Nat) : (s.complete j st).bough b = s.bough b :=
  bough_congr ((State.complete_moves (fl := [.rings, .counters, .jobs, .out]) (Moves.refl _ s) (by decide)).frame .boughs (by decide)) b

theorem advance_bough (s : State) (r : RingId) (b : Nat) : (s.advance r).bough b = s.bough b :=
  bough_congr ((State.advance_moves (fl := [.parts, .rings]) (Moves.refl _ s) (by decide)).frame .boughs (by decide)) b

/-! ### REF_WARM (R120) -/

/-- What REF_WARM does to one bough that it names. -/
def warmNamed (s : State) (b : Nat) : State := if (s.bough b).withdrawn then s else s.warmBough b

theorem warmNamed_onBough : OnBough warmNamed where
  moves s b := Moves.ite (Moves.refl _ s) (State.warmBough_moves (Moves.refl _ s) (by decide))
  others s c b j h := by
    unfold warmNamed
    split
    · rfl
    · exact bough_modBough_ne c h _

theorem warmNamed_self {s : State} (c : s.Canonical) (b : Nat) : (warmNamed s b).bough b =
    if (s.bough b).withdrawn = false ∧ (s.bough b).ref = .cold then { s.bough b with ref := .warming s.now } else s.bough b := by
  unfold warmNamed State.warmBough
  by_cases hw : (s.bough b).withdrawn = true
  · rw [if_pos hw, if_neg (by simp [hw])]
  · rw [if_neg hw, bough_modBough_self c]
    by_cases hr : (s.bough b).ref = .cold
    · rw [if_pos hr, if_pos ⟨by simpa using hw, hr⟩]
    · rw [if_neg hr, if_neg fun h => hr h.2]

theorem refWarm_warms {f : Sys2Proof.Fetch} {s : State} (c : s.Canonical) (h : s.Accepted f) (hw : Instr.wf (.refWarm f) = true) :
    ∃ t, exec (.refWarm f) s = .next t ∧ Answered s t f .ok 0 0 ∧
      ∀ b, t.bough b = if b < 128 ∧ f.word.getLsbD (64 + b) = true ∧ (s.bough b).withdrawn = false ∧ (s.bough b).ref = .cold then
        { s.bough b with ref := .warming s.now } else s.bough b := by
  have ca := advance_canonical c f.ring
  refine ⟨refWarmEffect f (s.jobOf f) (s.advance f.ring), ?_,
    answered_after c h.toFetched (warmNamed_onBough.each_moves _ (namedBoughs f)), fun b => ?_⟩
  · show s.descriptor "REF_WARM" (Instr.wf (.refWarm f)) f _ = _
    rw [hw]
    exact descriptor_accepted h
  · show (((s.advance f.ring).each (namedBoughs f) warmNamed).complete (s.jobOf f) .ok).bough b = _
    rw [complete_bough]
    by_cases hb : b ∈ namedBoughs f
    · obtain ⟨u, cu, hu, ht, he⟩ := warmNamed_onBough.each_self ca (namedBoughs_nodup f) hb
      rw [advance_bough] at hu
      have hnow : u.now = s.now := congrArg BitVec.toNat (ht.trans (advance_tick _ _))
      obtain ⟨hlt, hbit⟩ := mem_namedBoughs.1 hb
      rw [he, warmNamed_self cu, hu, hnow]
      simp only [hlt, hbit, true_and]
    · rw [warmNamed_onBough.each_others _ ca hb, advance_bough, if_neg fun h => hb (mem_namedBoughs.2 ⟨h.1, h.2.1⟩)]

/-! ### CALIBRATE (R123) -/

/-- A run is in progress or pending. -/
def Bough.RunAsked (x : Bough) : Prop := x.runOn = true ∨ x.runPending = true

/-- A bough in which a run has just started. -/
def Bough.inFreshRun (x : Bough) (now : Nat) : Bough :=
  { x with runOn := true, runPending := false, runSum := 0, runCount := 0, runFrom := now, runSweeps := [], runSkip := [] }

theorem startRun_boughs (s : State) (b : Nat) :
    (s.startRun b).boughs = Tbl.update {} b (fun x : Bough => x.inFreshRun s.now) s.boughs := rfl

theorem startRun_self {s : State} (c : s.Canonical) (b : Nat) : (s.startRun b).bough b = (s.bough b).inFreshRun s.now := by
  rw [State.bough, startRun_boughs]
  exact Tbl.get_update_self (Tbl.rising_of_wf c.boughs)

theorem startRun_others {s : State} (c : s.Canonical) {b j : Nat} (h : j ≠ b) : (s.startRun b).bough j = s.bough j := by
  rw [State.bough, startRun_boughs]
  exact Tbl.get_update_ne h (Tbl.rising_of_wf c.boughs)

/-- A run that is requested on a bough that is not withdrawn is in progress or pending. -/
theorem requestRun_asked {s : State} (c : s.Canonical) {b : Nat} (hw : (s.bough b).withdrawn = false) :
    ((s.requestRun b).bough b).RunAsked := by
  unfold State.requestRun
  rw [if_neg (by simp [hw])]
  split
  · rw [bough_modBough_self c]
    exact .inr rfl
  · rw [startRun_self c]
    exact .inl rfl

theorem requestRun_others {s : State} (c : s.Canonical) {b j : Nat} (h : j ≠ b) : (s.requestRun b).bough j = s.bough j := by
  unfold State.requestRun
  dsimp only
  split
  · rfl
  · split
    · exact bough_modBough_ne c h _
    · exact startRun_others c h

/-- A bough whose run is requested, as CALIBRATE leaves it before the request: counted and warmed where its reference is not ready. -/
def readied (s : State) (b : Nat) : State := if (s.bough b).ref = .ready then s else (s.count (Ctr.refColdWaits b)).warmBough b

theorem readied_moves (s : State) (b : Nat) : Moves [.counters, .tiles, .boughs] s (readied s b) :=
  Moves.ite (Moves.refl _ s) (State.warmBough_moves (State.count_moves (Moves.refl _ s) (by decide)) (by decide))

theorem count_canonical {s : State} (c : s.Canonical) (k n : Nat) : (s.count k n).Canonical :=
  (State.count_moves (fl := [.counters]) (Moves.refl _ s) (by decide)).canon c

theorem readied_others {s : State} (c : s.Canonical) {b j : Nat} (h : j ≠ b) : (readied s b).bough j = s.bough j := by
  unfold readied
  split
  · rfl
  · exact bough_modBough_ne (count_canonical c _ _) h _

theorem readied_withdrawn {s : State} (c : s.Canonical) (b : Nat) : ((readied s b).bough b).withdrawn = (s.bough b).withdrawn := by
  unfold readied State.warmBough
  split
  · rfl
  · rw [bough_modBough_self (count_canonical c _ _)]
    rfl

theorem calibrateBough_onBough : OnBough calibrateBough where
  moves s b := Moves.ite (Moves.refl _ s) (State.requestRun_moves (readied_moves s b) (by decide))
  others s c b j h := by
    unfold calibrateBough
    split
    · rfl
    · exact (requestRun_others ((readied_moves s b).canon c) h).trans (readied_others c h)

theorem calibrateBough_asked {s : State} (c : s.Canonical) {b : Nat} (hw : (s.bough b).withdrawn = false) :
    ((calibrateBough s b).bough b).RunAsked := by
  unfold calibrateBough
  rw [if_neg (by simp [hw])]
  exact requestRun_asked ((readied_moves s b).canon c) ((readied_withdrawn c b).trans hw)

theorem calibrate_asks {f : Sys2Proof.Fetch} {s : State} (c : s.Canonical) (h : s.Accepted f) (hw : Instr.wf (.calibrate f) = true) :
    ∃ t, exec (.calibrate f) s = .next t ∧ Answered s t f .ok 0 0 ∧
      ∀ b, b < 128 → f.word.getLsbD (64 + b) = true → (s.bough b).withdrawn = false →
        (t.bough b).runOn = true ∨ (t.bough b).runPending = true := by
  refine ⟨calibrateEffect f (s.jobOf f) (s.advance f.ring), ?_,
    answered_after c h.toFetched (calibrateBough_onBough.each_moves _ (namedBoughs f)), fun b hlt hbit hb => ?_⟩
  · show s.descriptor "CALIBRATE" (Instr.wf (.calibrate f)) f _ = _
    rw [hw]
    exact descriptor_accepted h
  · obtain ⟨u, cu, hu, -, he⟩ := calibrateBough_onBough.each_self (advance_canonical c f.ring) (namedBoughs_nodup f)
      (mem_namedBoughs.2 ⟨hlt, hbit⟩)
    rw [advance_bough] at hu
    rw [calibrateEffect, complete_bough, he]
    exact calibrateBough_asked cu (by rw [hu]; exact hb)

/-! ### HK_SAMPLE (R119) -/

theorem hkSample_starts {f : Sys2Proof.Fetch} {s : State} (c : s.Canonical) (h : s.Accepted f) (hw : Instr.wf (.hkSample f) = true)
    (hch : Fetch.at f 8 2 < 164) (hidle : s.hk.busy = none) :
    ∃ t, exec (.hkSample f) s = .next t ∧ Started s t f ∧
      t.hk = { s.hk with busy := some { channel := Fetch.at f 8 2, start := s.now, job := some (s.jobOf f), urgent := true } } := by
  have hhk : (s.advance f.ring).hk = s.hk :=
    (State.advance_moves (fl := [.parts, .rings]) (Moves.refl _ s) (by decide)).frame .hk (by decide)
  have hnow : (s.advance f.ring).now = s.now := congrArg BitVec.toNat (advance_tick s f.ring)
  refine ⟨((s.advance f.ring).start (s.jobOf f)).modHk fun x =>
    { x with busy := some { channel := Fetch.at f 8 2, start := s.now, job := some (s.jobOf f), urgent := true } }, ?_, ⟨?_, ?_⟩, ?_⟩
  · show s.descriptor "HK_SAMPLE" (Instr.wf (.hkSample f)) f _ = _
    rw [hw, descriptor_accepted h, hkSampleEffect, if_neg (Nat.not_le.2 hch), hhk, hidle, if_neg (by decide), ← hnow]
  · exact congrArg Ring.pos (advance_ring c f.ring)
  · exact List.mem_append_right _ List.mem_cons_self
  · rw [← hhk]
    rfl

/-- Settles O29: REF_WARM and CALIBRATE go through the boughs that they name, each left alone by the others' turns; HK_SAMPLE takes the
idle converter. -/
theorem referencesWarmAndRunsAreRequested : Obligations.ReferencesWarmAndRunsAreRequested := by
  unfold Obligations.ReferencesWarmAndRunsAreRequested
  exact ⟨fun f s c h hw => refWarm_warms c h hw, fun f s c h hw => calibrate_asks c h hw,
    fun f s c h hw hch hidle => hkSample_starts c h hw hch hidle⟩

end Sys2Proof.Machine

/-! PROOFS. The steps of a start: what has ended stays ended while the start goes on (R115, R336 to R339, R378, R379, Tables 16-3, 16-5). -/

namespace Sys2Proof.Machine

/-! ### What a start keeps as it goes on -/

/-- The security unit has changed in the events that it holds back at most (R382). -/
def SecKept (s t : State) : Prop := t.sec = { s.sec with heldEvents := t.sec.heldEvents }

theorem SecKept.of_eq {s t : State} (h : t.sec = s.sec) : SecKept s t := by rw [SecKept, h]

theorem SecKept.trans {s t u : State} (h : SecKept s t) (k : SecKept t u) : SecKept s u := by
  rw [SecKept] at h k ⊢
  rw [k, h]

/-- An event is written, or held back. -/
theorem event_secKept (s : State) (e : EventRec) : SecKept s (s.event e) := by
  have hw : ∀ w, SecKept s (s.writeRecord .eq w) := fun w =>
    .of_eq ((State.writeRecord_moves (fl := [.rings, .counters, .calls, .out]) (Moves.refl _ s) (by decide)).frame .sec (by decide))
  unfold State.event
  dsimp only
  split
  · split
    · rfl
    · exact hw _
  · exact hw _

/-- Every piece but the start, the registers and the security unit. -/
abbrev startQuiet : List Field := (.free :: .pending :: everyPiece).filter fun f => f ≠ .boot ∧ f ≠ .regs ∧ f ≠ .sec

/-- From `s` to `t` a start has gone on: steps that have ended and READY bits that are set stay so, the other registers stay, and the
start has not been left but to run. -/
structure Onward (s t : State) : Prop where
  done : ∀ n, s.stepDone? n = true → t.stepDone? n = true
  ready : ∀ i, s.readyBit i = true → t.readyBit i = true
  regs : t.regs = { s.regs with ready := t.regs.ready, step := t.regs.step }
  phase : t.boot.phase = s.boot.phase ∨ t.boot.phase = .running
  dogAt : t.boot.dogAt = s.boot.dogAt
  sec : SecKept s t

namespace Onward

theorem of_same {s t : State} (hb : t.boot = s.boot) (hr : t.regs = s.regs) (hs : SecKept s t) : Onward s t where
  done n h := by rwa [State.stepDone?, hb]
  ready i h := by rwa [State.readyBit, hr]
  regs := by rw [hr]
  phase := .inl (by rw [hb])
  dogAt := by rw [hb]
  sec := hs

theorem refl (s : State) : Onward s s := of_same rfl rfl rfl

theorem trans {s t u : State} (h : Onward s t) (k : Onward t u) : Onward s u where
  done n hn := k.done n (h.done n hn)
  ready i hi := k.ready i (h.ready i hi)
  regs := by
    have hr := k.regs
    rwa [h.regs] at hr
  phase := by
    rcases k.phase with hk | hk
    · rw [hk]
      exact h.phase
    · exact .inr hk
  dogAt := k.dogAt.trans h.dogAt
  sec := h.sec.trans k.sec

theorem of_moves {s t : State} (h : Moves startQuiet s t) : Onward s t :=
  of_same (h.frame .boot (by decide)) (h.frame .regs (by decide)) (.of_eq (h.frame .sec (by decide)))

theorem quiet {r s t : State} (h : Onward r s) (k : Moves startQuiet s t) : Onward r t := h.trans (of_moves k)

theorem ite {r s t : State} {c : Prop} [Decidable c] (h : Onward r s) (k : Onward r t) : Onward r (if c then s else t) := by
  split
  · exact h
  · exact k

end Onward

/-! ### READY bits and ended steps -/

theorem getLsbD_or_left {w : Nat} {x : BitVec w} (y : BitVec w) {i : Nat} (h : x.getLsbD i = true) : (x ||| y).getLsbD i = true := by
  rw [BitVec.getLsbD_or, h, Bool.true_or]

theorem getLsbD_or_one_shift {w n : Nat} (x : BitVec w) (h : n < w) : (x ||| (1#w <<< n)).getLsbD n = true := by
  simp [h]

theorem readyBit_setReady_self (s : State) {i : Nat} (h : i < 11) : (s.setReady i).readyBit i = true :=
  getLsbD_or_one_shift s.regs.ready h

theorem setReady_onward (s : State) (i : Nat) : Onward s (s.setReady i) where
  done _ h := h
  ready _ h := getLsbD_or_left _ h
  regs := rfl
  phase := .inl rfl
  dogAt := rfl
  sec := rfl

theorem showStep_onward (s : State) : Onward s s.showStep := ⟨fun _ h => h, fun _ h => h, rfl, .inl rfl, rfl, rfl⟩

theorem event_onward (s : State) (e : EventRec) : Onward s (s.event e) := by
  have hm := State.event_moves (e := e) (fl := [.rings, .counters, .sec, .out]) (Moves.refl _ s) (by decide)
  exact .of_same (hm.frame .boot (by decide)) (hm.frame .regs (by decide)) (event_secKept s e)

/-- The end of a start leaves what has ended (R348, R352). -/
theorem startEnds_onward (s : State) : Onward s s.startEnds := by
  unfold State.startEnds
  extract_lets kind b s1 s2 s3
  have h1 : Onward s s1 := ⟨fun _ h => h, fun _ h => h, rfl, .inr rfl, rfl, rfl⟩
  have h2 : Onward s s2 := h1.quiet (State.completeAll_moves (Moves.refl _ s1) (by decide))
  exact (h2.trans (event_onward s2 _)).trans ⟨fun _ h => h, fun _ h => h, rfl, .inl rfl, rfl, rfl⟩

/-- The mark of an ended step. -/
def State.markStep (s : State) (n : Nat) : State := s.modBoot fun b => { b with done := b.done ||| (1#16 <<< n) }

theorem markStep_onward (s : State) (n : Nat) : Onward s (s.markStep n) :=
  ⟨fun _ h => getLsbD_or_left _ h, fun _ h => h, rfl, .inl rfl, rfl, rfl⟩

/-- What follows the mark of an ended step: the next step, or the end of the start. -/
theorem stepEnds_after_mark (s : State) (n : Nat) : Onward (s.markStep n) (s.stepEnds n) := by
  unfold State.stepEnds
  exact .ite (startEnds_onward _) (showStep_onward _)

theorem stepEnds_onward (s : State) (n : Nat) : Onward s (s.stepEnds n) := (markStep_onward s n).trans (stepEnds_after_mark s n)

theorem stepDone_stepEnds_self (s : State) {n : Nat} (h : n < 16) : (s.stepEnds n).stepDone? n = true :=
  (stepEnds_after_mark s n).done n (getLsbD_or_one_shift s.boot.done h)

theorem stepEnds_moves (s : State) (n : Nat) : Moves [.boot, .regs, .rings, .counters, .jobs, .sec, .out] s (s.stepEnds n) :=
  State.stepEnds_moves (Moves.refl _ s) (by decide)

theorem trainAll_onward (s : State) : Onward s s.trainAll := .of_moves (State.trainAll_moves (Moves.refl _ s) (by decide))

theorem tryArrays_onward (s : State) : Onward s s.tryArrays := .of_moves (State.tryArrays_moves (Moves.refl _ s) (by decide))

/-- The links' step of a start (Tables 16-3, 16-5) keeps what has ended. -/
theorem linkStep_onward (s : State) : Onward s s.linkStep := by
  unfold State.linkStep
  extract_lets n s1
  have h1 : Onward s s1 := .ite (setReady_onward s 2) (.refl s)
  exact .ite ((h1.trans (setReady_onward s1 3)).trans (stepEnds_onward _ n)) h1

/-! ### A step's turn, and its failure -/

theorem coldStep_parts {s : State} {before n : Nat} (h : s.coldStep before n = true) :
    s.boot.phase = .coldStart ∧ s.stepDone? before = true ∧ s.stepDone? n = false ∧ s.boot.failedStep = none := by
  simp only [State.coldStep, Bool.and_eq_true, decide_eq_true_eq, Bool.not_eq_true', Option.isNone_iff_eq_none] at h
  obtain ⟨⟨⟨hp, hb⟩, hn⟩, hf⟩ := h
  exact ⟨hp, hb, hn, hf⟩

theorem warmStep_phase {s : State} {before n : Nat} (h : s.warmStep before n = true) : s.boot.phase = .warmStart := by
  simp only [State.warmStep, Bool.and_eq_true, decide_eq_true_eq] at h
  exact h.1.1.1

theorem stepCode_cold {s : State} (h : s.boot.phase ≠ .warmStart) (n : Nat) : s.stepCode n = n := if_neg h

theorem stepCode_warm {s : State} (h : s.boot.phase = .warmStart) (n : Nat) : s.stepCode n = 0x20 + n := if_pos h

/-- A step that fails holds its code and changes nothing else (R348). -/
theorem stepFails_holds {s : State} {n code : Nat} (h : s.stepCode n = code) :
    SameBut [.boot] s (s.stepFails n) ∧ (s.stepFails n).boot = { s.boot with failedStep := some code } := by
  subst h
  exact ⟨(State.stepFails_moves (Moves.refl _ s) (by decide)).frame, rfl⟩

theorem stepFails_cold {s : State} (h : s.boot.phase = .coldStart) (n : Nat) :
    SameBut [.boot] s (s.stepFails n) ∧ (s.stepFails n).boot = { s.boot with failedStep := some n } :=
  stepFails_holds (stepCode_cold (by rw [h]; decide) n)

/-! ### The option block (R115) -/

theorem tile_congr {s t : State} (h : t.tiles = s.tiles) (k : Nat) : t.tile k = s.tile k := by rw [State.tile, h, State.tile]

/-- The good map's bit on one tile. -/
def State.mapTile (b : Bytes) (s : State) (t : Nat) : State := s.modTile t fun x => { x with mfgBad := !goodBit b t }

theorem mapTile_canonical {s : State} (c : s.Canonical) (b : Bytes) (t : Nat) : (State.mapTile b s t).Canonical :=
  (State.modTile_moves (fl := [.tiles]) (Moves.refl _ s) (by decide)).canon c

theorem mapTiles_tile (b : Bytes) (k : Nat) : ∀ (ts : List Nat) {s : State}, s.Canonical →
    (s.each ts (State.mapTile b)).tile k = if k ∈ ts then { s.tile k with mfgBad := !goodBit b k } else s.tile k
  | [], _, _ => rfl
  | t :: ts, s, c => by
    have ih := mapTiles_tile b k ts (mapTile_canonical c b t)
    rw [State.each, List.foldl_cons]
    rw [State.each] at ih
    rw [ih]
    by_cases hk : k = t
    · subst hk
      rw [State.mapTile, tile_modTile_self c, if_pos List.mem_cons_self]
      split <;> rfl
    · rw [State.mapTile, tile_modTile_ne c hk]
      simp only [List.mem_cons, hk, false_or]

/-- The tiles whose mark is not what the good map says. -/
def State.toMap (s : State) (b : Bytes) : List Nat := (List.range 8192).filter fun t => (s.tile t).mfgBad == goodBit b t

theorem applyTrims_eq (s : State) (b : Bytes) :
    s.applyTrims b = { s.each (s.toMap b) (State.mapTile b) with trims := b.take 8160 } := by
  unfold State.applyTrims State.toMap State.mapTile
  rfl

theorem applyTrims_trims (s : State) (b : Bytes) : (s.applyTrims b).trims = b.take 8160 := by rw [applyTrims_eq]

theorem applyTrims_tiles (s : State) (b : Bytes) : (s.applyTrims b).tiles = (s.each (s.toMap b) (State.mapTile b)).tiles := by
  rw [applyTrims_eq]

theorem mem_toMap {s : State} {b : Bytes} {k : Nat} : k ∈ s.toMap b ↔ k < 8192 ∧ (s.tile k).mfgBad = goodBit b k := by
  simp [State.toMap]

/-- A good option block becomes the good map of every tile (R411). -/
theorem applyTrims_tile {s : State} (c : s.Canonical) (b : Bytes) {k : Nat} (hk : k < 8192) :
    (s.applyTrims b).tile k = { s.tile k with mfgBad := !goodBit b k } := by
  have h := mapTiles_tile b k (s.toMap b) c
  rw [State.tile] at h
  rw [State.tile, applyTrims_tiles, h]
  split
  · rfl
  · next hm =>
    have hb : (s.tile k).mfgBad = !goodBit b k := Bool.eq_not.2 fun e => hm (mem_toMap.2 ⟨hk, e⟩)
    rw [← hb]

theorem optionLoad_good {s : State} (c : s.Canonical) {b : Bytes} (h : optionOk b = true) :
    (s.optionLoad b).stepDone? 1 = true ∧ (s.optionLoad b).trims = b.take 8160 ∧
      ∀ k, k < 8192 → (s.optionLoad b).tile k = { s.tile k with mfgBad := !goodBit b k } := by
  rw [State.optionLoad, if_pos h]
  have hm := stepEnds_moves (s.applyTrims b) 1
  refine ⟨stepDone_stepEnds_self _ (by decide), (hm.frame .trims (by decide)).trans (applyTrims_trims s b), fun k hk => ?_⟩
  exact (tile_congr (hm.frame .tiles (by decide)) k).trans (applyTrims_tile c b hk)

theorem optionLoad_acts {b : Bytes} {s : State} (c : s.Canonical) (hp : s.boot.phase = .coldStart) (hd : s.stepDone? 1 = false)
    (hf : s.boot.failedStep = none) :
    ∃ t, exec (.optionLoad b) s = .next t ∧
      (optionOk b = true → t.stepDone? 1 = true ∧ t.trims = b.take 8160 ∧
        ∀ k, k < 8192 → t.tile k = { s.tile k with mfgBad := !goodBit b k }) ∧
      (optionOk b = false → s.boot.copyB = false → SameBut [.boot] s t ∧ t.boot = { s.boot with copyB := true }) ∧
      (optionOk b = false → s.boot.copyB = true → SameBut [.boot] s t ∧ t.boot = { s.boot with failedStep := some 1 }) := by
  refine ⟨s.optionLoad b, when_true (by simp [hp, hd, hf]), optionLoad_good c, fun h hb => ?_, fun h hb => ?_⟩
  · rw [State.optionLoad, h, hb, if_neg Bool.false_ne_true, if_neg Bool.false_ne_true]
    exact ⟨(State.modBoot_moves (fl := [.boot]) (Moves.refl _ s) (by decide)).frame, rfl⟩
  · rw [State.optionLoad, h, hb, if_neg Bool.false_ne_true, if_pos rfl]
    exact stepFails_cold hp 1

/-! ### Clock lock and the housekeeping reference (R117, R336) -/

/-- The tick counter started at 0. -/
def State.clockStarted (s : State) : State := { s with tick := 0, ticking := true }

theorem writeRefen_on (s : State) : (s.writeRefen true).regs.refen = true ∧ (s.writeRefen true).boot = s.boot ∧
    (s.writeRefen true).tick = s.tick ∧ (s.writeRefen true).ticking = s.ticking ∧
    (s.regs.refen = false → (s.writeRefen true).hk.refenAt = some s.now ∧ (s.writeRefen true).hk.refReady = false) := by
  unfold State.writeRefen
  cases h : s.regs.refen
  · exact ⟨rfl, rfl, rfl, rfl, fun _ => ⟨rfl, rfl⟩⟩
  · exact ⟨rfl, rfl, rfl, rfl, fun h => by cases h⟩

theorem clockLock_starts (s : State) : s.clockLock.tick = 0 ∧ s.clockLock.ticking = true ∧ s.clockLock.regs.refen = true ∧
    s.clockLock.stepDone? 2 = true ∧ (s.regs.refen = false → s.clockLock.hk.refenAt = some 0 ∧ s.clockLock.hk.refReady = false) := by
  have hm := stepEnds_moves s.clockStarted 2
  have hon := stepEnds_onward s.clockStarted 2
  have hdone := stepDone_stepEnds_self s.clockStarted (n := 2) (by decide)
  have htick : (s.clockStarted.stepEnds 2).tick = 0 := hm.frame .tick (by decide)
  have hrefen : (s.clockStarted.stepEnds 2).regs.refen = s.regs.refen := by rw [hon.regs]; rfl
  show ((s.clockStarted.stepEnds 2).writeRefen true).tick = 0 ∧ ((s.clockStarted.stepEnds 2).writeRefen true).ticking = true ∧ _
  obtain ⟨hon, hboot, htick', hticking, hat⟩ := writeRefen_on (s.clockStarted.stepEnds 2)
  refine ⟨htick'.trans htick, hticking.trans (hm.frame .ticking (by decide)), hon, ?_, fun h => ?_⟩
  · show ((s.clockStarted.stepEnds 2).writeRefen true).stepDone? 2 = true
    rw [State.stepDone?, hboot]
    exact hdone
  · obtain ⟨h1, h2⟩ := hat (hrefen.trans h)
    refine ⟨h1.trans ?_, h2⟩
    rw [State.now, htick]
    rfl

theorem clockLock_acts {ok : Bool} {s : State} (h : s.coldStep 1 2 = true) (hr : s.pins.refclk = true) :
    ∃ t, exec (.clockLock ok) s = .next t ∧
      (ok = true → t.tick = 0 ∧ t.ticking = true ∧ t.regs.refen = true ∧ t.stepDone? 2 = true ∧
        (s.regs.refen = false → t.hk.refenAt = some 0 ∧ t.hk.refReady = false)) ∧
      (ok = false → SameBut [.boot] s t ∧ t.boot = { s.boot with failedStep := some 2 }) := by
  refine ⟨_, when_true (by simp [h, hr]), ?_, ?_⟩ <;> rintro rfl
  · exact clockLock_starts s
  · exact stepFails_cold (coldStep_parts h).1 2

theorem hkRefReady_acts {a : Nat} {s : State} (hw : s.awake = true) (hr : s.regs.refen = true) (hn : s.hk.refReady = false)
    (ha : s.hk.refenAt = some a) (ht : a + 7813 ≤ s.now) :
    ∃ t, exec .hkRefReady s = .next t ∧ SameBut [.hk] s t ∧
      t.hk = if s.boot.phase = .coldStart ∧ s.stepDone? 2 = true ∧ s.stepDone? 3 = false then
          { s.hk with refReady := true, busy := some { channel := 164, start := s.now, job := none, urgent := true } }
        else { s.hk with refReady := true } := by
  refine ⟨s.hkRefReady, when_true (by simp [hw, hr, hn, ha, ht]), (State.hkRefReady_moves (Moves.refl _ s) (by decide)).frame, ?_⟩
  show (if s.boot.phase = .coldStart ∧ s.stepDone? 2 = true ∧ s.stepDone? 3 = false then _ else _ : State).hk = _
  split <;> rfl

/-! ### Firmware (R338, R378, R379) -/

/-- Whether an image is valid rests on the fuses alone (R377, R378). -/
theorem fwReason_congr {s t : State} (h : SecKept s t) (b : Bytes) : t.fwReason b = s.fwReason b := by
  unfold State.fwReason State.sigReason
  rw [h]
  rfl

theorem sigReject_onward (s : State) (kind reason subject : Nat) : Onward s (s.sigReject kind reason subject) := event_onward s _

theorem fwCheck_cons_bad {s : State} {b : Bytes} {rest : List Bytes} {r : Nat} (h : s.fwReason b = some r) :
    s.fwCheck (b :: rest) = (s.sigReject 1 r 0).fwCheck rest := by
  rw [State.fwCheck.eq_def]
  dsimp only
  rw [h]

/-- The first valid image runs; then the ports train. -/
theorem fwCheck_cons_valid {s : State} {b : Bytes} {rest : List Bytes} (h : s.fwReason b = none) :
    s.fwCheck (b :: rest) = (((s.runImage 0 b).setReady 1).stepEnds 5).trainAll.linkStep := by
  rw [State.fwCheck.eq_def]
  dsimp only
  rw [h]

/-- What follows once an image runs goes on. -/
theorem imageRuns_onward (s : State) : Onward ((s.setReady 1).stepEnds 5) ((s.setReady 1).stepEnds 5).trainAll.linkStep :=
  (trainAll_onward _).trans (linkStep_onward _)

theorem fwCheck_valid {s : State} {b : Bytes} {rest : List Bytes} (h : s.fwReason b = none) :
    (s.fwCheck (b :: rest)).stepDone? 5 = true ∧ (s.fwCheck (b :: rest)).readyBit 1 = true ∧
      (s.fwCheck (b :: rest)).sec.runDigest = Shake.digest32 b ∧ (s.fwCheck (b :: rest)).sec.runSvn = Bits.le b 8 4 := by
  rw [fwCheck_cons_valid h]
  have hend := imageRuns_onward (s.runImage 0 b)
  have hstep := stepEnds_onward ((s.runImage 0 b).setReady 1) 5
  have hsec := (((setReady_onward (s.runImage 0 b) 1).trans hstep).trans hend).sec
  refine ⟨hend.done 5 (stepDone_stepEnds_self _ (by decide)), hend.ready 1 (hstep.ready 1 (readyBit_setReady_self _ (by decide))), ?_, ?_⟩
  · rw [hsec]
    rfl
  · rw [hsec]
    rfl

theorem runImage_done (s : State) (slot : Nat) (b : Bytes) : (s.runImage slot b).boot.done = s.boot.done := by
  unfold State.runImage
  rfl

theorem fwCheck_done {n : Nat} : ∀ (images : List Bytes) {s : State}, s.stepDone? n = true → (s.fwCheck images).stepDone? n = true
  | [], _, h => h
  | b :: rest, s, h => by
    cases hr : s.fwReason b with
    | some r =>
      rw [fwCheck_cons_bad hr]
      exact fwCheck_done rest ((sigReject_onward s 1 r 0).done n h)
    | none =>
      rw [fwCheck_cons_valid hr]
      have hon := (setReady_onward (s.runImage 0 b) 1).trans ((stepEnds_onward _ 5).trans (imageRuns_onward (s.runImage 0 b)))
      refine hon.done n ?_
      rw [State.stepDone?, runImage_done]
      exact h

/-- With no valid image the step FW_SIGNATURE fails. -/
theorem fwCheck_none : ∀ {images : List Bytes} {s : State}, s.boot.phase ≠ .warmStart → (∀ b ∈ images, s.fwReason b ≠ none) →
    (s.fwCheck images).boot.failedStep = some 5
  | [], s, hp, _ => congrArg some (stepCode_cold hp 5)
  | b :: rest, s, hp, h => by
    obtain ⟨r, hr⟩ := Option.ne_none_iff_exists'.1 (h b List.mem_cons_self)
    have hon := sigReject_onward s 1 r 0
    rw [fwCheck_cons_bad hr]
    refine fwCheck_none (fun hw => ?_) fun x hx => ?_
    · rcases hon.phase with hk | hk
      · exact hp (hk.symm.trans hw)
      · rw [hk] at hw
        cases hw
    · rw [fwReason_congr hon.sec]
      exact h x (List.mem_cons_of_mem _ hx)

/-- The state in which the images read are checked: step 4 has ended. -/
def State.fetched (s : State) : State := (s.modBoot fun b => { b with go := false }).stepEnds 4

theorem fetched_onward (s : State) : Onward s s.fetched := by
  have hgo : Onward s (s.modBoot fun b => { b with go := false }) := ⟨fun _ h => h, fun _ h => h, rfl, .inl rfl, rfl, rfl⟩
  exact hgo.trans (stepEnds_onward _ 4)

theorem fwFetch_read {images : List Bytes} (h : images ≠ []) (s : State) : s.fwFetch images = s.fetched.fwCheck images := by
  rw [State.fwFetch, if_neg (by simpa using h), State.fetched]

theorem fwFetch_acts {active : Nat} {images : List Bytes} {s : State} (h : s.coldStep 3 4 = true) (ha : active < 2) (hi : images ≠ [])
    (hok : s.fetchedOk images = true) :
    ∃ t, exec (.fwFetch active images) s = .next t ∧ t.stepDone? 4 = true ∧
      (∀ b rest, images = b :: rest → s.fwReason b = none → t.stepDone? 5 = true ∧ t.readyBit 1 = true ∧
        t.sec.runDigest = Shake.digest32 b ∧ t.sec.runSvn = Bits.le b 8 4) ∧
      ((∀ b ∈ images, s.fwReason b ≠ none) → t.boot.failedStep = some 5) := by
  have hon := fetched_onward s
  refine ⟨s.fwFetch images, when_true (by simp [h, ha, hi, hok]), ?_⟩
  rw [fwFetch_read hi]
  refine ⟨fwCheck_done images (stepDone_stepEnds_self _ (by decide)), ?_, fun hb => fwCheck_none ?_ fun b hm => ?_⟩
  · rintro b rest rfl hr
    exact fwCheck_valid ((fwReason_congr hon.sec b).trans hr)
  · rcases hon.phase with hp | hp <;> rw [hp]
    · rw [(coldStep_parts h).1]
      decide
    · decide
  · rw [fwReason_congr hon.sec]
    exact hb b hm

/-- With nothing read within the source's limit, or no source, the step FW_FETCH fails. -/
theorem fwFetch_nothing {active : Nat} {s : State} (h : s.coldStep 3 4 = true) (ha : active < 2)
    (hl : s.regs.boot = 3 ∨ (s.regs.boot ≠ 1 ∨ s.readyBit 2 = true) ∧ s.boot.fetchFrom + s.fetchLimit ≤ s.now) :
    ∃ t, exec (.fwFetch active []) s = .next t ∧ SameBut [.boot] s t ∧ t.boot = { s.boot with failedStep := some 4 } :=
  ⟨s.stepFails 4, when_true (by simpa [h, ha] using hl), stepFails_cold (coldStep_parts h).1 4⟩

/-! ### Memories (R339, Tables 16-3, 16-5) -/

theorem sramFill_acts {ok : Bool} {n : Nat} {s : State} (h : s.coldStep 5 6 = true ∧ n = 6 ∨ s.warmStep 2 3 = true ∧ n = 3) :
    ∃ t, exec (.sramFill ok) s = .next t ∧ (ok = true → t.stepDone? n = true) ∧
      (ok = false → SameBut [.boot] s t ∧ t.boot = { s.boot with failedStep := some (if n = 6 then 6 else 0x23) }) := by
  obtain ⟨hn, hn16, hguard, hcode⟩ : (if s.boot.phase = .warmStart then 3 else 6) = n ∧ n < 16 ∧
      (if s.boot.phase = .warmStart then s.warmStep 2 3 else s.coldStep 5 6) = true ∧
      s.stepCode n = if n = 6 then 6 else 0x23 := by
    rcases h with ⟨h, rfl⟩ | ⟨h, rfl⟩
    · have hp : s.boot.phase ≠ .warmStart := by rw [(coldStep_parts h).1]; decide
      exact ⟨if_neg hp, by decide, (if_neg hp).trans h, stepCode_cold hp 6⟩
    · have hp := warmStep_phase h
      exact ⟨if_pos hp, by decide, (if_pos hp).trans h, stepCode_warm hp 3⟩
  refine ⟨if ok then s.stepEnds n else s.stepFails n, ?_, ?_, ?_⟩
  · show execSramFill ok s = _
    rw [execSramFill, hn]
    exact when_true hguard
  · rintro rfl
    exact stepDone_stepEnds_self s hn16
  · rintro rfl
    exact stepFails_holds hcode

theorem hbmTrain_acts {ok : Bool} {s : State} (h : s.coldStep 5 9 = true) :
    ∃ t, exec (.hbmTrain ok) s = .next t ∧ (ok = true → t.readyBit 4 = true ∧ t.stepDone? 9 = true) ∧
      (ok = false → SameBut [.boot] s t ∧ t.boot = { s.boot with failedStep := some 9 }) := by
  refine ⟨_, when_true h, ?_, ?_⟩ <;> rintro rfl
  · have hon := tryArrays_onward ((s.setReady 4).stepEnds 9)
    exact ⟨hon.ready 4 ((stepEnds_onward _ 9).ready 4 (readyBit_setReady_self s (by decide))),
      hon.done 9 (stepDone_stepEnds_self _ (by decide))⟩
  · exact stepFails_cold (coldStep_parts h).1 9

/-- Partitions may fetch from here on, and their stalls are noted again (R182, R340). -/
def State.stallsNoted (s : State) : State := s.each (List.range 32) fun s p => s.noteStall p

theorem stallsNoted_moves (s : State) : Moves [.parts, .counters] s s.stallsNoted :=
  (Moves.refl _ s).each fun _ _ h => State.noteStall_moves h (by decide)

theorem hbmFilled_eq (s : State) (complete : Bool) : s.hbmFilled complete =
    if complete then ((s.setReady 5).stallsNoted.setReady 6).stepEnds 11 else (s.setReady 5).stallsNoted := by
  unfold State.hbmFilled State.stallsNoted
  rfl

theorem hbmFilled_bootPoint (s : State) : (s.hbmFilled false).readyBit 5 = true ∧ (s.hbmFilled false).boot = s.boot := by
  rw [hbmFilled_eq, if_neg Bool.false_ne_true]
  have hm := stallsNoted_moves (s.setReady 5)
  exact ⟨(Onward.of_moves (hm.mono (by decide))).ready 5 (readyBit_setReady_self s (by decide)), hm.frame .boot (by decide)⟩

theorem hbmFilled_whole (s : State) : (s.hbmFilled true).readyBit 5 = true ∧ (s.hbmFilled true).readyBit 6 = true ∧
    (s.hbmFilled true).stepDone? 11 = true := by
  rw [hbmFilled_eq, if_pos rfl]
  have hfive : (s.setReady 5).stallsNoted.readyBit 5 = true :=
    (Onward.of_moves ((stallsNoted_moves _).mono (by decide))).ready 5 (readyBit_setReady_self s (by decide))
  have hsix := setReady_onward (s.setReady 5).stallsNoted 6
  have hend := stepEnds_onward ((s.setReady 5).stallsNoted.setReady 6) 11
  exact ⟨hend.ready 5 (hsix.ready 5 hfive), hend.ready 6 (readyBit_setReady_self _ (by decide)), stepDone_stepEnds_self _ (by decide)⟩

theorem hbmFill_next {complete ok : Bool} {s : State} (h : s.coldStep 9 11 = true) (hg : (complete || !ok || !s.readyBit 5) = true)
    (hw : Instr.wf (.hbmFill complete ok) = true) :
    exec (.hbmFill complete ok) s = .next (if ok then s.hbmFilled complete else s.stepFails 11) :=
  when_true (by rw [h, hg, hw]; rfl)

theorem hbmFill_acts {s : State} (h : s.coldStep 9 11 = true) :
    (∃ t, exec (.hbmFill true true) s = .next t ∧ t.readyBit 5 = true ∧ t.readyBit 6 = true ∧ t.stepDone? 11 = true) ∧
    (s.readyBit 5 = false → ∃ t, exec (.hbmFill false true) s = .next t ∧ t.readyBit 5 = true ∧ t.boot = s.boot) ∧
    ∃ t, exec (.hbmFill false false) s = .next t ∧ SameBut [.boot] s t ∧ t.boot = { s.boot with failedStep := some 11 } := by
  refine ⟨⟨_, hbmFill_next h rfl rfl, ?_⟩, fun h5 => ⟨_, hbmFill_next h (by rw [h5]; rfl) rfl, ?_⟩, ⟨_, hbmFill_next h rfl rfl, ?_⟩⟩
  · rw [if_pos rfl]
    exact hbmFilled_whole s
  · rw [if_pos rfl]
    exact hbmFilled_bootPoint s
  · rw [if_neg Bool.false_ne_true]
    exact stepFails_cold (coldStep_parts h).1 11

theorem fwDigest_acts {s : State} (h : s.warmStep 1 2 = true) :
    ∃ t, exec .fwDigest s = .next t ∧
      (s.fwDigestOk = true → t.readyBit 1 = true ∧ t.stepDone? 2 = true ∧ t.boot.dogAt = s.now) ∧
      (s.fwDigestOk = false → SameBut [.boot] s t ∧ t.boot = { s.boot with failedStep := some 0x22 }) := by
  refine ⟨_, when_true h, fun hd => ?_, fun hd => ?_⟩
  · rw [if_pos hd]
    set u := (s.setReady 1).modBoot fun b => { b with dogAt := s.now } with hu
    have hend := stepEnds_onward u 2
    have hlink := linkStep_onward (u.stepEnds 2)
    exact ⟨hlink.ready 1 (hend.ready 1 (readyBit_setReady_self s (by decide))), hlink.done 2 (stepDone_stepEnds_self _ (by decide)),
      hlink.dogAt.trans hend.dogAt⟩
  · rw [if_neg (by simp [hd])]
    exact stepFails_holds (stepCode_warm (warmStep_phase h) 2)

/-- The arrays are calibrated once the HBM has left self-refresh: that touches tiles and boughs alone (R131). -/
theorem hbmExit_onward (s : State) (area : Bool) :
    Onward ((((s.setReady 4).setReady 5).setReady 6).stepEnds 6) (s.hbmExit area) := by
  unfold State.hbmExit
  extract_lets u
  have hcal : Moves startQuiet u (if area then u.each (u.calSave.map fun a => a.1) State.loadCal else u.coldCal) :=
    Moves.ite ((Moves.refl _ u).each fun _ _ h => State.loadCal_moves h (by decide)) (State.coldCal_moves (Moves.refl _ u) (by decide))
  exact .of_moves (State.startCal_moves hcal (by decide))

theorem hbmExit_acts {ok area : Bool} {s : State} (hw : Instr.wf (.hbmExit ⟨ok, area⟩) = true) (h : s.warmStep 2 6 = true) :
    ∃ t, exec (.hbmExit ⟨ok, area⟩) s = .next t ∧
      (ok = true → t.readyBit 4 = true ∧ t.readyBit 5 = true ∧ t.readyBit 6 = true ∧ t.stepDone? 6 = true) ∧
      (ok = false → SameBut [.boot] s t ∧ t.boot = { s.boot with failedStep := some 0x26 }) := by
  refine ⟨_, when_true (by simp [h, hw]), ?_, ?_⟩ <;> rintro rfl
  · have hcal := hbmExit_onward s area
    have hend := (stepEnds_onward (((s.setReady 4).setReady 5).setReady 6) 6).trans hcal
    have hfive := setReady_onward (s.setReady 4) 5
    have hsix := setReady_onward ((s.setReady 4).setReady 5) 6
    exact ⟨hend.ready 4 (hsix.ready 4 (hfive.ready 4 (readyBit_setReady_self s (by decide)))),
      hend.ready 5 (hsix.ready 5 (readyBit_setReady_self _ (by decide))), hend.ready 6 (readyBit_setReady_self _ (by decide)),
      hcal.done 6 (stepDone_stepEnds_self _ (by decide))⟩
  · exact stepFails_holds (stepCode_warm (warmStep_phase h) 6)

/-- Settles O43: each step of a start by its own effect and by what the rest of the start keeps (`Onward`). -/
theorem startSteps : Obligations.StartSteps := by
  unfold Obligations.StartSteps
  refine ⟨?_, ?_, ?_, ?_, ?_, ?_, ?_, ?_, ?_⟩
  · exact fun b s c hp hd hf => optionLoad_acts c hp hd hf
  · exact fun ok s h hr => clockLock_acts h hr
  · exact fun a s hw hr hn ha ht => hkRefReady_acts hw hr hn ha ht
  · refine fun active images s h ha => ⟨fun hi hok => fwFetch_acts h ha hi hok, ?_⟩
    rintro rfl hl
    exact fwFetch_nothing h ha hl
  · exact fun ok n s h => sramFill_acts h
  · exact fun ok s h => hbmTrain_acts h
  · exact fun s h => hbmFill_acts h
  · exact fun s h => fwDigest_acts h
  · exact fun ok area s hw h => hbmExit_acts hw h

end Sys2Proof.Machine

/-! PROOFS. The housekeeping converter: slots, conversions, what samples set off and leave (R117 to R119, R336, R350, R364). -/

namespace Sys2Proof.Machine

/-! ### Slots (R118) -/

theorem hkSlot_acts {s : State} (hon : s.hkOn = true) (h : s.boot.tripped = true ∨ s.ticking = true ∧ s.hk.slotAt + 200 ≤ s.now) :
    ∃ t, exec .hkSlot s = .next t ∧ SameBut [.hk] s t ∧
      t.hk = if s.hk.busy.isSome then { s.hk with slotAt := s.now }
        else { s.hk with
          slotAt := s.now, next := (s.hk.next + 1) % 164,
          busy := some { channel := s.hk.next, start := s.now, job := none, urgent := false } } := by
  have hguard : (s.hkOn && (s.boot.tripped || (s.ticking && decide (s.hk.slotAt + 200 ≤ s.now)))) = true := by
    simpa [hon] using h
  refine ⟨s.hkSlot, when_true hguard, (State.hkSlot_moves (Moves.refl _ s) (by decide)).frame, ?_⟩
  unfold State.hkSlot
  split <;> rfl

/-! ### What the handling of a sample leaves -/

/-- From `s` to `t` the converter and the samples stay, and records go out, or wait on in rings that stay as enabled as they were. -/
structure SampleKept (s t : State) : Prop where
  canon : s.Canonical → t.Canonical
  grows : s.out <+: t.out
  waiting : s.Canonical → ∀ r, (s.ring r).waiting ⊆ (t.ring r).waiting
  enabled : s.Canonical → ∀ r, (t.ring r).enabled = (s.ring r).enabled
  busy : t.hk.busy = s.hk.busy
  samples : t.hk.samples = s.hk.samples

/-- A record that has been delivered stays so. -/
theorem Delivered.sampleKept {s t u : State} {r : RingId} {rec : Rec} (h : Delivered s t r rec) (c : t.Canonical) (k : SampleKept t u) :
    Delivered s u r rec := by
  rcases h with ⟨l, slot, phase, ho, hm⟩ | ⟨w, hw, hr⟩ | h
  · obtain ⟨m, hm'⟩ := k.grows
    exact .inl ⟨l ++ m, slot, phase, by rw [← hm', ho, List.append_assoc], List.mem_append_left _ hm⟩
  · exact .inr (.inl ⟨w, k.waiting c r hw, hr⟩)
  · exact .inr (.inr ((k.enabled c r).trans h))

namespace SampleKept

theorem refl (s : State) : SampleKept s s := ⟨id, List.prefix_rfl, fun _ _ => List.Subset.refl _, fun _ _ => rfl, rfl, rfl⟩

theorem trans {s t u : State} (h : SampleKept s t) (k : SampleKept t u) : SampleKept s u where
  canon c := k.canon (h.canon c)
  grows := h.grows.trans k.grows
  waiting c r := List.Subset.trans (h.waiting c r) (k.waiting (h.canon c) r)
  enabled c r := (k.enabled (h.canon c) r).trans (h.enabled c r)
  busy := k.busy.trans h.busy
  samples := k.samples.trans h.samples

/-- Every piece but the rings and the converter. -/
abbrev sampleQuiet : List Field := (.free :: .pending :: everyPiece).filter fun f => f ≠ .rings ∧ f ≠ .hk

theorem of_moves {s t : State} (h : Moves sampleQuiet s t) : SampleKept s t := by
  have hr : ∀ r, t.ring r = s.ring r := fun r => by rw [State.ring, h.frame .rings (by decide), State.ring]
  have hk : t.hk = s.hk := h.frame .hk (by decide)
  exact ⟨h.canon, h.grows, fun _ r => by rw [hr r]; exact List.Subset.refl _, fun _ r => by rw [hr r], by rw [hk], by rw [hk]⟩

theorem quiet {r s t : State} (h : SampleKept r s) (k : Moves sampleQuiet s t) : SampleKept r t := h.trans (of_moves k)

theorem ite {r s t : State} {c : Prop} [Decidable c] (h : SampleKept r s) (k : SampleKept r t) : SampleKept r (if c then s else t) := by
  split
  · exact h
  · exact k

/-- A change of a ring that drops no record and keeps it enabled or disabled. -/
theorem modRing (s : State) (r : RingId) {g : Ring → Ring} (hw : ∀ x : Ring, x.waiting ⊆ (g x).waiting)
    (he : ∀ x : Ring, (g x).enabled = x.enabled) : SampleKept s (s.modRing r g) := by
  have hring : s.Canonical → ∀ q, (s.modRing r g).ring q = s.ring q ∨ (s.modRing r g).ring q = g (s.ring q) := fun c q => by
    by_cases h : ringNo q = ringNo r
    · right
      rw [State.ring, h]
      rw [show s.ring q = s.ring r by rw [State.ring, h, State.ring]]
      exact ring_modRing_self c r g
    · exact .inl (ring_modRing_ne c h g)
  refine ⟨(State.modRing_moves (fl := [.rings]) (Moves.refl _ s) (by decide)).canon, List.prefix_rfl, fun c q => ?_, fun c q => ?_, rfl, rfl⟩
  · rcases hring c q with h | h <;> rw [h]
    · exact List.Subset.refl _
    · exact hw _
  · rcases hring c q with h | h <;> rw [h]
    exact he _

end SampleKept

section
variable (s : State)

theorem interrupt_sampleKept (r : RingId) : SampleKept s (s.interrupt r) :=
  (SampleKept.of_moves (State.emit_moves (Moves.refl _ s) (by decide))).trans
    (.modRing _ r (fun _ => List.Subset.refl _) fun _ => rfl)

theorem putRecord_sampleKept (r : RingId) (w : Waiting) : SampleKept s (s.putRecord r w) := by
  unfold State.putRecord
  extract_lets g s1 s2 s3
  have h1 : SampleKept s s1 := .of_moves (State.emit_moves (Moves.refl _ s) (by decide))
  have hpos : SampleKept s1 (s1.modRing r fun g => { g with pos := g.pos + 1, last := some w }) :=
    .modRing s1 r (fun _ => List.Subset.refl _) fun _ => rfl
  have h2 : SampleKept s s2 := (h1.trans hpos).quiet (State.recordOut_moves (Moves.refl _ _) (by decide))
  have h3 : SampleKept s s3 := h2.trans (.modRing s2 r (fun _ => List.Subset.refl _) fun _ => rfl)
  exact .ite h2 (.ite (h3.trans (interrupt_sampleKept s3 r)) h3)

theorem writeRecord_sampleKept (r : RingId) (w : Waiting) : SampleKept s (s.writeRecord r w) := by
  have hwait : SampleKept s (s.modRing r fun g => { g with waiting := g.waiting ++ [w] }) :=
    .modRing s r (fun _ => List.subset_append_left _ _) fun _ => rfl
  unfold State.writeRecord
  extract_lets g
  refine .ite hwait (.ite ?_ (.ite (.ite ?_ (putRecord_sampleKept s r w)) (.ite hwait (putRecord_sampleKept s r w))))
  · exact .of_moves (State.discardRecord_moves (Moves.refl _ s) (by decide))
  · refine (SampleKept.of_moves (State.count_moves (Moves.refl _ s) (by decide))).trans (.modRing _ r (fun x => ?_) fun _ => rfl)
    show x.waiting ⊆ if _ then _ else _
    split
    · exact List.Subset.refl _
    · exact List.subset_append_left _ _

theorem event_sampleKept (e : EventRec) : SampleKept s (s.event e) := by
  unfold State.event
  dsimp only
  split
  · split
    · exact .of_moves (State.modSec_moves (Moves.refl _ s) (by decide))
    · exact writeRecord_sampleKept s _ _
  · exact writeRecord_sampleKept s _ _

theorem modHk_sampleKept {f : Hk → Hk} (hb : (f s.hk).busy = s.hk.busy) (hs : (f s.hk).samples = s.hk.samples) :
    SampleKept s (s.modHk f) :=
  ⟨(State.modHk_moves (fl := [.hk]) (Moves.refl _ s) (by decide)).canon, List.prefix_rfl, fun _ _ => List.Subset.refl _, fun _ _ => rfl,
    hb, hs⟩

theorem thermalSample_sampleKept (c : Nat) (v : Int) (valid : Bool) : SampleKept s (s.thermalSample c v valid) := by
  unfold State.thermalSample
  exact (modHk_sampleKept s (by rfl) (by rfl)).quiet (State.hotAlert_moves (Moves.refl _ _) (by decide))

theorem floorSlower_sampleKept (c : Nat) (v : Int) : SampleKept s (s.floorSlower c v) := by
  unfold State.floorSlower
  extract_lets f s1
  have h1 : SampleKept s s1 := .of_moves (State.modPower_moves (Moves.refl _ s) (by decide))
  exact .ite (h1.trans (event_sampleKept s1 _)) h1

theorem floorFaster_sampleKept : SampleKept s s.floorFaster := by
  unfold State.floorFaster
  extract_lets f s1
  have h1 : SampleKept s s1 := .of_moves (State.modPower_moves (Moves.refl _ s) (by decide))
  exact .ite (h1.trans (event_sampleKept s1 _)) h1

/-- The end of a round moves the floor and the level (R364). -/
theorem roundEnds_sampleKept : SampleKept s s.roundEnds := by
  unfold State.roundEnds
  extract_lets h cool s1 s2 s3
  have h1 : SampleKept s s1 := by
    unfold s1
    split
    · exact floorSlower_sampleKept s _ _
    · exact .ite (floorFaster_sampleKept s) (.refl s)
  have h2 : SampleKept s s2 := h1.trans (modHk_sampleKept s1 rfl rfl)
  have h3 : SampleKept s s3 := .ite (h2.quiet (State.count_moves (Moves.refl _ s2) (by decide))) h2
  exact h3.quiet (State.startLevel_moves (State.hotAlert_moves (Moves.refl _ s3) (by decide)) (by decide))

theorem boughSample_sampleKept (b : Nat) (v : Int) (valid : Bool) : SampleKept s (s.boughSample b v valid) :=
  .of_moves (State.boughSample_moves (Moves.refl _ s) (by decide))

theorem tripSample_sampleKept (v : Int) (valid : Bool) : SampleKept s (s.tripSample v valid) :=
  .of_moves (State.tripSample_moves (Moves.refl _ s) (by decide))

end

/-! ### The end of a conversion (R117 to R119, R350) -/

/-- The samples are valid that the converter takes now: its reference is ready and enabled. -/
def State.samplesValid (s : State) : Bool := s.hk.refReady && s.regs.refen

/-- The converter is free and the sample of a conversion is kept. -/
def State.sampleKeeps (s : State) (c : Conv) (v : Int) : State :=
  let s1 := s.modHk fun h => { h with
    busy := none, samples := Tbl.set {} c.channel { value := v, valid := s.samplesValid, tick := s.now } h.samples }
  if s.samplesValid then s1 else s1.count Ctr.hkInvalid

/-- The descriptor that asked for a conversion is answered with its sample. -/
def State.sampleAnswers (s : State) (c : Conv) (v : Int) (valid : Bool) : State :=
  match c.job with
  | some j => s.completeWith j .ok (Bits.ofSigned v 16 + (if valid then 2 ^ 16 else 0)) s.now none
  | none => s

/-- What a sample sets off where no trip holds the device, the trip itself apart. -/
def State.sampleActs (s : State) (c : Conv) (v : Int) (valid : Bool) : State :=
  let s := if c.channel < 128 then s.boughSample c.channel v valid else s
  let s := if State.isSensor c.channel then s.thermalSample c.channel v valid else s
  if c.channel = 163 ∧ c.urgent = false then s.roundEnds else s

/-- A conversion's end: the sample is kept, answered, and acts. -/
theorem sampleDone_eq (s : State) (c : Conv) (raw : Int) : s.sampleDone c raw =
    let v := s.trimmed c.channel raw
    let t := (s.sampleKeeps c v).sampleAnswers c v s.samplesValid
    if t.boot.tripped then (if State.isSensor c.channel then t.tripSample v s.samplesValid else t)
    else if State.isSensor c.channel && s.samplesValid && decide (2000 ≤ v) then (t.sampleActs c v s.samplesValid).thermalTrip
    else t.sampleActs c v s.samplesValid := rfl

theorem sampleKeeps_moves (s : State) (c : Conv) (v : Int) : Moves [.counters, .hk] s (s.sampleKeeps c v) := by
  have h1 := State.modHk_moves (f := fun h : Hk => { h with
    busy := none, samples := Tbl.set {} c.channel { value := v, valid := s.samplesValid, tick := s.now } h.samples })
    (fl := [.counters, .hk]) (Moves.refl _ s) (by decide)
  exact Moves.ite h1 (State.count_moves h1 (by decide))

/-- The state holds the sample of a conversion that has ended at a tick, and its converter is free. -/
def HoldsSample (s : State) (c : Conv) (v : Int) (t : State) : Prop :=
  t.hk.busy = none ∧ t.hk.samples = Tbl.set {} c.channel { value := v, valid := s.samplesValid, tick := s.now } s.hk.samples

theorem HoldsSample.of_hk {s t u : State} {c : Conv} {v : Int} (h : HoldsSample s c v t) (k : u.hk = t.hk) : HoldsSample s c v u := by
  rw [HoldsSample, k]
  exact h

theorem HoldsSample.kept {s t u : State} {c : Conv} {v : Int} (h : HoldsSample s c v t) (k : SampleKept t u) : HoldsSample s c v u :=
  ⟨k.busy.trans h.1, k.samples.trans h.2⟩

theorem sampleKeeps_holds (s : State) (c : Conv) (v : Int) : HoldsSample s c v (s.sampleKeeps c v) := by
  unfold State.sampleKeeps HoldsSample
  dsimp only
  split <;> exact ⟨rfl, rfl⟩

theorem sampleAnswers_moves (s : State) (c : Conv) (v : Int) (valid : Bool) :
    Moves [.rings, .counters, .jobs, .calls, .out] s (s.sampleAnswers c v valid) := by
  unfold State.sampleAnswers
  split
  · exact State.completeWith_moves (Moves.refl _ s) (by decide)
  · exact Moves.refl _ s

theorem sampleActs_kept (s : State) (c : Conv) (v : Int) (valid : Bool) : SampleKept s (s.sampleActs c v valid) := by
  unfold State.sampleActs
  extract_lets s1 s2
  have h1 : SampleKept s s1 := .ite (boughSample_sampleKept s _ _ _) (.refl s)
  have h2 : SampleKept s s2 := .ite (h1.trans (thermalSample_sampleKept s1 _ _ _)) h1
  exact .ite (h2.trans (roundEnds_sampleKept s2)) h2

/-- A cold reset that arrives takes effect, or is held as one until the program pulses have ended (R329, R331). -/
theorem resetArrives_cold (s : State) (n : Nat) : s.resetArrives true n = s.coldReset n ∨
    (∃ k, (s.resetArrives true n).boot = { s.boot with heldReset := some (true, k) }) ∧ (s.resetArrives true n).pins = s.pins ∧
      (s.resetArrives true n).hk = s.hk := by
  unfold State.resetArrives
  simp only [Bool.true_or, if_true]
  split
  · right
    split
    · next k h => exact ⟨⟨k, by rw [← h]⟩, rfl, rfl⟩
    · exact ⟨⟨n, rfl⟩, rfl, rfl⟩
    · exact ⟨⟨n, rfl⟩, rfl, rfl⟩
  · exact .inl rfl

/-- A trip in force: the device is reset, or a cold reset is held (R350). -/
def TripsNow (t : State) : Prop :=
  t.boot.tripped = true ∧ t.pins.thermtrip = true ∧
    (t.boot.phase = .heldCold ∧ t.boot.source = 8 ∨ ∃ k, t.boot.heldReset = some (true, k))

/-- The state in which THERMTRIP_N has been asserted, before its reset. -/
def State.tripAsserted (s : State) : State :=
  (s.modPins fun p => { p with thermtrip := true }).modBoot fun b => { b with tripped := true, coolCount := 0 }

/-- A thermal trip keeps the converter going and its samples (R350, Table 16-2). -/
theorem thermalTrip_trips (s : State) : TripsNow s.thermalTrip ∧ s.thermalTrip.hk = s.hk := by
  have ht : s.thermalTrip = s.tripAsserted.resetArrives true 8 := rfl
  rw [ht]
  rcases resetArrives_cold s.tripAsserted 8 with h | ⟨⟨k, hb⟩, hp, hh⟩
  · rw [h]
    exact ⟨⟨rfl, rfl, .inl ⟨rfl, rfl⟩⟩, rfl⟩
  · refine ⟨⟨?_, ?_, .inr ⟨k, ?_⟩⟩, hh⟩
    · rw [hb]
      rfl
    · rw [hp]
      rfl
    · rw [hb]

section
variable (s : State) (c : Conv) (raw : Int)

/-- The state once the sample is kept and answered. -/
def State.sampleTaken : State :=
  (s.sampleKeeps c (s.trimmed c.channel raw)).sampleAnswers c (s.trimmed c.channel raw) s.samplesValid

theorem sampleTaken_tripped : (s.sampleTaken c raw).boot.tripped = s.boot.tripped := by
  have h := ((sampleKeeps_moves s c (s.trimmed c.channel raw)).mono (b := [.rings, .counters, .jobs, .calls, .out, .hk]) (by decide)).trans
    ((sampleAnswers_moves (s.sampleKeeps c (s.trimmed c.channel raw)) c (s.trimmed c.channel raw) s.samplesValid).mono (by decide))
  exact congrArg Boot.tripped (h.frame .boot (by decide))

theorem sampleTaken_holds : HoldsSample s c (s.trimmed c.channel raw) (s.sampleTaken c raw) :=
  (sampleKeeps_holds s c (s.trimmed c.channel raw)).of_hk ((sampleAnswers_moves _ c (s.trimmed c.channel raw) s.samplesValid).frame .hk (by decide))

theorem sampleTaken_delivered {j : Job} (hj : c.job = some j) (k : s.Canonical) :
    Delivered s (s.sampleTaken c raw) (answerRing j.ring) (s.answerOf j .ok
      (Bits.ofSigned (s.trimmed c.channel raw) 16 + (if s.samplesValid = true then 2 ^ 16 else 0)) s.now) := by
  have hm := sampleKeeps_moves s c (s.trimmed c.channel raw)
  have hnow : (s.sampleKeeps c (s.trimmed c.channel raw)).now = s.now := congrArg BitVec.toNat (hm.frame .tick (by decide))
  unfold State.sampleTaken State.sampleAnswers
  rw [hj]
  have hd := completeWith_delivered (hm.canon k) j .ok
    (Bits.ofSigned (s.trimmed c.channel raw) 16 + (if s.samplesValid = true then 2 ^ 16 else 0)) s.now none
  rw [State.answerOf, hnow] at hd
  rw [hnow]
  exact hd.after hm.grows

theorem sampleTaken_canonical (k : s.Canonical) : (s.sampleTaken c raw).Canonical :=
  (sampleAnswers_moves _ c (s.trimmed c.channel raw) s.samplesValid).canon ((sampleKeeps_moves s c (s.trimmed c.channel raw)).canon k)

theorem sampleDone_holds : HoldsSample s c (s.trimmed c.channel raw) (s.sampleDone c raw) := by
  have ht := sampleTaken_holds s c raw
  have hacts := ht.kept (sampleActs_kept (s.sampleTaken c raw) c (s.trimmed c.channel raw) s.samplesValid)
  rw [sampleDone_eq]
  dsimp only
  split
  · split
    · exact ht.kept (tripSample_sampleKept _ _ _)
    · exact ht
  · split
    · exact hacts.of_hk (thermalTrip_trips _).2
    · exact hacts

/-- Below 125 °C nothing is reset, and what has been delivered stays so. -/
theorem sampleDone_kept (hv : s.trimmed c.channel raw < 2000) : SampleKept (s.sampleTaken c raw) (s.sampleDone c raw) := by
  rw [sampleDone_eq]
  dsimp only
  split
  · exact .ite (tripSample_sampleKept _ _ _) (.refl _)
  · rw [if_neg (by simp; omega)]
    exact sampleActs_kept _ c _ _

/-- A valid sensor sample of 125 °C trips (R350). -/
theorem sampleDone_trips (hc : c.channel < 140) (ht : s.boot.tripped = false) (hok : s.samplesValid = true)
    (hv : 2000 ≤ s.trimmed c.channel raw) : TripsNow (s.sampleDone c raw) := by
  have htaken := (sampleTaken_tripped s c raw).trans ht
  rw [sampleDone_eq]
  dsimp only
  rw [if_neg (by rw [State.sampleTaken] at htaken; rw [htaken]; decide), if_pos (by simp [State.isSensor, hc, hok, hv])]
  exact (thermalTrip_trips _).1

end

theorem hkConversionDone_next {v : BitVec 16} {c : Conv} {s : State} (hb : s.hk.busy = some c)
    (h : s.boot.tripped = true ∨ c.start + 100 ≤ s.now) :
    exec (.hkConversionDone v) s = .next (if c.channel = 164 then (s.modHk fun h => { h with busy := none }).posnDone (v.toNat % 4096)
      else s.sampleDone c v.toInt) := by
  show execHkConversionDone v s = _
  unfold execHkConversionDone
  rw [hb]
  exact when_true (by simpa using h)

theorem conversionDone_keeps {v : BitVec 16} {c : Conv} {s : State} (hb : s.hk.busy = some c) (hc : c.channel ≠ 164)
    (h : s.boot.tripped = true ∨ c.start + 100 ≤ s.now) :
    ∃ t, exec (.hkConversionDone v) s = .next t ∧ t.hk.busy = none ∧
      t.hk.samples = Tbl.set {} c.channel
        { value := s.trimmed c.channel v.toInt, valid := s.hk.refReady && s.regs.refen, tick := s.now } s.hk.samples ∧
      (∀ j, c.job = some j → s.trimmed c.channel v.toInt < 2000 → s.Canonical → Delivered s t (answerRing j.ring) (s.answerOf j .ok
        (Bits.ofSigned (s.trimmed c.channel v.toInt) 16 + (if (s.hk.refReady && s.regs.refen) = true then 2 ^ 16 else 0)) s.now)) ∧
      (c.channel < 140 → s.boot.tripped = false → s.hk.refReady = true → s.regs.refen = true →
        2000 ≤ s.trimmed c.channel v.toInt →
        t.boot.tripped = true ∧ t.pins.thermtrip = true ∧
        (t.boot.phase = .heldCold ∧ t.boot.source = 8 ∨ ∃ k, t.boot.heldReset = some (true, k))) := by
  obtain ⟨hbusy, hsamples⟩ := sampleDone_holds s c v.toInt
  refine ⟨s.sampleDone c v.toInt, by rw [hkConversionDone_next hb h, if_neg hc], hbusy, hsamples, fun j hj hv k => ?_,
    fun hch ht hr he hv => ?_⟩
  · exact (sampleTaken_delivered s c v.toInt hj k).sampleKept (sampleTaken_canonical s c v.toInt k) (sampleDone_kept s c v.toInt hv)
  · exact sampleDone_trips s c v.toInt hch ht (by rw [State.samplesValid, hr, he]; rfl) hv

/-! ### POSN (R336) -/

/-- The fetch begins, or a port starts to train: no step or register of the start is touched (R338). -/
theorem fetchBegins_onward (s : State) : Onward s s.fetchBegins ∧ s.fetchBegins.hk = s.hk := by
  have htrain : ∀ p, Moves [.links] s (s.trainPort p) := fun p => State.trainPort_moves (Moves.refl _ s) (by decide)
  unfold State.fetchBegins
  split
  · exact ⟨⟨fun _ h => h, fun _ h => h, rfl, .inl rfl, rfl, rfl⟩, rfl⟩
  · exact ⟨.of_moves ((htrain .h).mono (by decide)), (htrain .h).frame .hk (by decide)⟩
  · have ht : Onward s (s.trainPort .t) := .of_moves ((htrain .t).mono (by decide))
    exact ⟨ht.trans ⟨fun _ h => h, fun _ h => h, rfl, .inl rfl, rfl, rfl⟩, (htrain .t).frame .hk (by decide)⟩
  · exact ⟨.refl s, rfl⟩

/-- The registers that the code of POSN sets (R336). -/
def State.posnRead (s : State) (p : Nat) : State :=
  (s.modRegs fun r => { r with posnCode := BitVec.ofNat 12 p }).modRegs fun r => { r with
    posnV := BitVec.ofNat 4 (p / 256), side := (BitVec.ofNat 4 (p / 256)).getLsbD 3 }

theorem posnDone_near (s : State) {p : Nat} (h : p % 256 < 24 ∨ 231 < p % 256) :
    s.posnDone p = (s.modRegs fun r => { r with posnCode := BitVec.ofNat 12 p }).stepFails 3 := if_pos h

theorem posnDone_far (s : State) {p : Nat} (h : ¬(p % 256 < 24 ∨ 231 < p % 256)) :
    s.posnDone p = (((s.posnRead p).setReady 0).stepEnds 3).fetchBegins := if_neg h

/-- What a start keeps once POSN is read. -/
theorem posnDone_onward (s : State) {p : Nat} (h : ¬(p % 256 < 24 ∨ 231 < p % 256)) :
    Onward (s.posnRead p) (s.posnDone p) ∧ (s.posnDone p).stepDone? 3 = true ∧ (s.posnDone p).hk = s.hk := by
  rw [posnDone_far s h]
  obtain ⟨hf, hhk⟩ := fetchBegins_onward (((s.posnRead p).setReady 0).stepEnds 3)
  refine ⟨((setReady_onward _ 0).trans (stepEnds_onward _ 3)).trans hf, hf.done 3 (stepDone_stepEnds_self _ (by decide)), hhk.trans ?_⟩
  exact (stepEnds_moves ((s.posnRead p).setReady 0) 3).frame .hk (by decide)

theorem posnDone_regs (s : State) {p : Nat} (h : ¬(p % 256 < 24 ∨ 231 < p % 256)) :
    (s.posnDone p).regs.posnCode = BitVec.ofNat 12 p ∧ (s.posnDone p).regs.posnV = BitVec.ofNat 4 (p / 256) ∧
      (s.posnDone p).regs.side = (BitVec.ofNat 4 (p / 256)).getLsbD 3 := by
  rw [(posnDone_onward s h).1.regs]
  exact ⟨rfl, rfl, rfl⟩

theorem posnConverted_acts {v : BitVec 16} {c : Conv} {s : State} (hb : s.hk.busy = some c) (hc : c.channel = 164)
    (h : s.boot.tripped = true ∨ c.start + 100 ≤ s.now) :
    ∃ t, exec (.hkConversionDone v) s = .next t ∧ t.hk.busy = none ∧ t.regs.posnCode = BitVec.ofNat 12 (v.toNat % 4096) ∧
      ((v.toNat % 4096 % 256 < 24 ∨ 231 < v.toNat % 4096 % 256) → t.boot.failedStep = some (s.stepCode 3)) ∧
      (24 ≤ v.toNat % 4096 % 256 → v.toNat % 4096 % 256 ≤ 231 → t.regs.posnV = BitVec.ofNat 4 (v.toNat % 4096 / 256) ∧
        t.regs.side = (BitVec.ofNat 4 (v.toNat % 4096 / 256)).getLsbD 3 ∧ t.stepDone? 3 = true) := by
  refine ⟨_, by rw [hkConversionDone_next hb h, if_pos hc], ?_⟩
  generalize v.toNat % 4096 = p
  by_cases hn : p % 256 < 24 ∨ 231 < p % 256
  · rw [posnDone_near _ hn]
    exact ⟨rfl, rfl, fun _ => rfl, fun _ _ => by omega⟩
  · obtain ⟨-, hdone, hhk⟩ := posnDone_onward (s.modHk fun h => { h with busy := none }) hn
    obtain ⟨hcode, hval, hside⟩ := posnDone_regs (s.modHk fun h => { h with busy := none }) hn
    exact ⟨by rw [hhk]; rfl, hcode, fun h => absurd h hn, fun _ _ => ⟨hval, hside, hdone⟩⟩

/-! ### Urgent samples (R119, R364) -/

/-- A counter that counts once more saturates at 48 bits (R47). -/
theorem counter_count_self {s : State} (c : s.Canonical) (k : Nat) :
    Tbl.get 0 k (s.count k).counters = min (2 ^ 48 - 1) (Tbl.get 0 k s.counters + 1) := by
  show Tbl.get 0 k (Tbl.update 0 k (fun v => satAdd 48 v 1) s.counters) = satAdd 48 (Tbl.get 0 k s.counters) 1
  exact Tbl.get_update_self (Tbl.rising_of_wf c.counters)

/-- The tick of the request is noted at the sensors that the thermal handling samples. -/
def State.urgentNoted (s : State) (k : Nat) : State :=
  s.modHk fun h => { h with hot := h.hot.map fun (x : Nat × Nat) => if x.1 == k then (x.1, s.now) else x }

theorem urgentSample_next {k : Nat} {s : State} (hon : s.hkOn = true) (ht : s.ticking = true)
    (h : (0 < s.power.thermalFloor ∧ ∃ a, (k, a) ∈ s.hk.hot ∧ a + 100 ≤ s.now) ∨ (s.mgmtUp = true ∧ k < 164)) :
    exec (.urgentSample k) s = .next (if s.hk.busy.isSome then (s.urgentNoted k).count Ctr.hkDrop
      else (s.urgentNoted k).modHk fun h => { h with busy := some { channel := k, start := s.now, job := none, urgent := true } }) := by
  refine when_true ?_
  rw [hon, ht, Bool.true_and, Bool.true_and, Bool.or_eq_true]
  rcases h with ⟨hf, a, hm, ha⟩ | ⟨hu, hk⟩
  · left
    rw [Bool.and_eq_true, decide_eq_true_eq, List.any_eq_true]
    exact ⟨hf, (k, a), hm, by simpa using ha⟩
  · right
    rw [hu, Bool.true_and, decide_eq_true_eq]
    exact hk

theorem urgentSample_acts {k : Nat} {s : State} (hon : s.hkOn = true) (ht : s.ticking = true)
    (h : (0 < s.power.thermalFloor ∧ ∃ a, (k, a) ∈ s.hk.hot ∧ a + 100 ≤ s.now) ∨ (s.mgmtUp = true ∧ k < 164)) :
    ∃ t, exec (.urgentSample k) s = .next t ∧ SameBut [.counters, .hk] s t ∧
      (s.hk.busy = none → t.counters = s.counters ∧
        t.hk.busy = some { channel := k, start := s.now, job := none, urgent := true }) ∧
      (s.hk.busy.isSome = true → t.hk.busy = s.hk.busy ∧
        (s.Canonical → Tbl.get 0 Ctr.hkDrop t.counters = min (2 ^ 48 - 1) (Tbl.get 0 Ctr.hkDrop s.counters + 1))) := by
  have hn : Moves [.counters, .hk] s (s.urgentNoted k) := State.modHk_moves (Moves.refl _ s) (by decide)
  refine ⟨_, urgentSample_next hon ht h,
    (Moves.ite (State.count_moves hn (by decide)) (State.modHk_moves hn (by decide))).frame, fun hb => ?_, fun hb => ?_⟩
  · rw [hb, if_neg (by decide)]
    exact ⟨rfl, rfl⟩
  · rw [if_pos hb]
    exact ⟨rfl, fun c => counter_count_self (hn.canon c) Ctr.hkDrop⟩

/-- Settles O46: slots, the ends of conversions of channels and of POSN, and urgent samples, each by what its handling leaves. -/
theorem housekeepingConverts : Obligations.HousekeepingConverts := by
  unfold Obligations.HousekeepingConverts
  refine ⟨?_, ?_, ?_, ?_⟩
  · exact fun s hon h => hkSlot_acts hon h
  · exact fun v c s hb hc h => conversionDone_keeps hb hc h
  · exact fun v c s hb hc h => posnConverted_acts hb hc h
  · exact fun k s hon ht h => urgentSample_acts hon ht h

end Sys2Proof.Machine

/-! PROOFS. What the work of tiles, takes and cuts leaves of the calibration of boughs and of the objects that wait for a check. -/

namespace Sys2Proof.Machine

/-- Where a change leaves the default alone, a table that is changed value by value reads the changed value. -/
theorem get_mapVals {α : Type} [DecidableEq α] {d : α} {f : α → α} (hd : f d = d) (k : Nat) :
    ∀ {t : Tbl α}, Tbl.Rising t → Tbl.get d k (Tbl.mapVals d f t) = f (Tbl.get d k t)
  | [], _ => hd.symm
  | (j, v) :: t, h => by
    obtain ⟨hlt, ht⟩ := List.pairwise_cons.1 h
    have hcons : Tbl.mapVals d f ((j, v) :: t) = if f v = d then Tbl.mapVals d f t else (j, f v) :: Tbl.mapVals d f t := by
      unfold Tbl.mapVals
      rw [List.filterMap_cons]
      by_cases hv : f v = d
      · simp only [hv, if_true]
      · simp only [hv, if_false]
    have hbelow : k ≤ j → Tbl.get d k (Tbl.mapVals d f t) = d := fun hk => Tbl.get_below fun p hp => by
      obtain ⟨q, hq, he⟩ := List.mem_filterMap.1 hp
      simp only [Option.ite_none_left_eq_some, Option.some.injEq] at he
      rw [← he.2]
      exact Nat.lt_of_le_of_lt hk (hlt q hq)
    have ih := get_mapVals hd k ht
    rw [hcons]
    by_cases hj : j = k
    · subst hj
      simp only [Tbl.get, if_true]
      split
      · next hv => rw [hbelow (le_refl j), hv]
      · simp only [Tbl.get, if_true]
    · by_cases hk : k < j
      · simp only [Tbl.get, hj, hk, if_true, if_false, hd]
        split
        · exact hbelow (Nat.le_of_lt hk)
        · simp only [Tbl.get, hj, hk, if_true, if_false]
      · simp only [Tbl.get, hj, hk, if_false]
        split
        · exact ih
        · simp only [Tbl.get, hj, hk, if_false]
          exact ih

/-! ### The relation -/

/-- A bough's calibration is as it was: its run, its calibration temperature, and a reference that is ready. -/
structure BoughKept (x y : Bough) : Prop where
  withdrawn : y.withdrawn = x.withdrawn
  runOn : y.runOn = x.runOn
  runPending : y.runPending = x.runPending
  runDone : y.runDone = x.runDone
  calTemp : y.calTemp = x.calTemp
  runSum : y.runSum = x.runSum
  runCount : y.runCount = x.runCount
  ready : x.ref = .ready → y.ref = .ready

theorem BoughKept.refl (x : Bough) : BoughKept x x := ⟨rfl, rfl, rfl, rfl, rfl, rfl, rfl, id⟩

theorem BoughKept.trans {x y z : Bough} (h : BoughKept x y) (k : BoughKept y z) : BoughKept x z :=
  ⟨k.withdrawn.trans h.withdrawn, k.runOn.trans h.runOn, k.runPending.trans h.runPending, k.runDone.trans h.runDone,
    k.calTemp.trans h.calTemp, k.runSum.trans h.runSum, k.runCount.trans h.runCount, fun hr => k.ready (h.ready hr)⟩

theorem BoughKept.asked {x y : Bough} (h : BoughKept x y) (hx : x.RunAsked) : y.RunAsked := by
  unfold Bough.RunAsked at hx ⊢
  rwa [h.runOn, h.runPending]

/-- From `s` to `t` the calibration of every bough is as it was, and of the security unit only held events have changed. -/
structure CalKept (s t : State) : Prop where
  canon : s.Canonical → t.Canonical
  boughs : s.Canonical → ∀ b, BoughKept (s.bough b) (t.bough b)
  sec : SecKept s t

namespace CalKept
variable {r s t : State}

theorem refl (s : State) : CalKept s s := ⟨id, fun _ _ => .refl _, rfl⟩

theorem trans {u : State} (h : CalKept s t) (k : CalKept t u) : CalKept s u :=
  ⟨fun c => k.canon (h.canon c), fun c b => (h.boughs c b).trans (k.boughs (h.canon c) b), h.sec.trans k.sec⟩

/-- Every piece but the boughs and the security unit. -/
abbrev calQuiet : List Field := (.free :: .pending :: everyPiece).filter fun f => f ≠ .boughs ∧ f ≠ .sec

theorem of_same (hc : s.Canonical → t.Canonical) (hb : t.boughs = s.boughs) (hs : SecKept s t) : CalKept s t :=
  ⟨hc, fun _ b => by rw [bough_congr hb b]; exact .refl _, hs⟩

theorem of_moves (h : Moves calQuiet s t) : CalKept s t :=
  .of_same h.canon (h.frame .boughs (by decide)) (.of_eq (h.frame .sec (by decide)))

theorem quiet (h : CalKept r s) (k : Moves calQuiet s t) : CalKept r t := h.trans (of_moves k)

theorem ite {c : Prop} [Decidable c] (h : CalKept r s) (k : CalKept r t) : CalKept r (if c then s else t) := by
  split
  · exact h
  · exact k

theorem foldl {α : Type} {f : State → α → State} (hf : ∀ s x, CalKept s (f s x)) : ∀ (xs : List α) (s : State), CalKept s (xs.foldl f s)
  | [], s => refl s
  | x :: xs, s => (hf s x).trans (foldl hf xs (f s x))

theorem each {α : Type} {f : State → α → State} (s : State) (xs : List α) (hf : ∀ s x, CalKept s (f s x)) : CalKept s (s.each xs f) :=
  foldl hf xs s

theorem foldl_fst {α β : Type} {f : State × β → α → State × β} (hf : ∀ x a, CalKept x.1 (f x a).1) :
    ∀ (xs : List α) (x : State × β), CalKept x.1 (xs.foldl f x).1
  | [], x => refl x.1
  | a :: xs, x => (hf x a).trans (foldl_fst hf xs (f x a))

theorem modBough (s : State) (b : Nat) {f : Bough → Bough} (hf : ∀ x, BoughKept x (f x)) : CalKept s (s.modBough b f) := by
  refine ⟨(State.modBough_moves (fl := [.boughs]) (Moves.refl _ s) (by decide)).canon, fun c j => ?_, rfl⟩
  by_cases h : j = b
  · subst h
    rw [bough_modBough_self c]
    exact hf _
  · rw [bough_modBough_ne c h]
    exact .refl _

/-- A start that goes on leaves the boughs alone. -/
theorem of_onward (hm : Moves [.boot, .regs, .rings, .counters, .jobs, .sec, .out] s t) (h : Onward s t) : CalKept s t :=
  .of_same hm.canon (hm.frame .boughs (by decide)) h.sec

end CalKept

/-! ### Events -/

section
variable (s : State)

theorem event_calKept (e : EventRec) : CalKept s (s.event e) := by
  have hm := State.event_moves (e := e) (fl := [.rings, .counters, .sec, .out]) (Moves.refl _ s) (by decide)
  exact .of_same hm.canon (hm.frame .boughs (by decide)) (event_secKept s e)

theorem tierEvent_calKept (enter : Bool) (m image id : Nat) : CalKept s (s.tierEvent enter m image id) := event_calKept s _

theorem progFail_calKept (t : Nat) (j : ProgJob) : CalKept s (s.progFail t j) := event_calKept s _

theorem bindSlow_calKept (m : Nat) : CalKept s (s.bindSlow m) := by
  unfold State.bindSlow
  split
  · exact .refl s
  · refine .ite (.refl s) ?_
    exact (CalKept.of_moves (State.setBinding_moves (Moves.refl _ s) (by decide))).trans (tierEvent_calKept _ _ _ _ _)

theorem fault_calKept (u : UnitField) (i : FaultInfo) : CalKept s (s.fault u i) := by
  unfold State.fault
  extract_lets digital dom temp rail premium image s1
  exact (event_calKept s _).quiet (State.modFaults_moves (Moves.refl _ s1) (by decide))

theorem emptyDeck_calKept (t d : Nat) : CalKept s (s.emptyDeck t d) := by
  unfold State.emptyDeck
  extract_lets k s1
  have h1 : CalKept s s1 := .of_moves (State.modWeights_moves (Moves.refl _ s) (by decide))
  refine .ite h1 (.ite ?_ (h1.quiet (State.modDeck_moves (Moves.refl _ s1) (by decide))))
  exact (h1.quiet (State.modDeck_moves (Moves.refl _ s1) (by decide))).trans (event_calKept _ _)

theorem refuseProgram_calKept (t d : Nat) : CalKept s (s.refuseProgram t d) := by
  unfold State.refuseProgram
  extract_lets k
  refine .ite ?_ (.refl s)
  exact (CalKept.of_moves (State.modDeck_moves (Moves.refl _ s) (by decide))).trans (event_calKept _ _)

theorem setRemap_calKept (t d k : Nat) (r : Remap) : CalKept s (s.setRemap t d k r) := by
  unfold State.setRemap
  extract_lets old
  refine .ite (.refl s) ?_
  exact (CalKept.of_moves (State.modTile_moves (Moves.refl _ s) (by decide))).trans (event_calKept _ _)

/-! ### Suspects and the first phase of a product -/

theorem settleLocal_calKept (c n : Nat) : CalKept s (s.settleLocal c n) := by
  unfold State.settleLocal
  extract_lets s1 s2
  have h2 : Moves CalKept.calQuiet s s2 := State.modDaily_moves (State.count_moves (State.releaseOutput_moves
    (State.modStep_moves (Moves.refl _ s) (by decide)) (by decide)) (by decide)) (by decide)
  exact (CalKept.of_moves h2).trans (fault_calKept s2 _ _)

theorem suspectStep_calKept (c n : Nat) : CalKept s (s.suspectStep c n) := by
  unfold State.suspectStep
  split
  · exact .refl s
  · refine .ite (.refl s) ?_
    extract_lets e s1 s2 s3 s4
    have h2 : Moves CalKept.calQuiet s s2 :=
      State.modDaily_moves (State.count_moves (State.modStep_moves (Moves.refl _ s) (by decide)) (by decide)) (by decide)
    have h3 : Moves CalKept.calQuiet s s3 := State.send_moves (State.count_moves h2 (by decide)) (by decide)
    have h4 : Moves CalKept.calQuiet s s4 := Moves.ite h3 (State.send_moves h3 (by decide))
    exact .ite (.of_moves (State.modStep_moves h4 (by decide))) ((CalKept.of_moves h2).trans (settleLocal_calKept s2 c n))

theorem suspectProd_calKept (i : Nat) : CalKept s (s.suspectProd i) := by
  unfold State.suspectProd
  split
  · exact .refl s
  · refine .ite (.refl s) ?_
    extract_lets s1 w
    have h1 : CalKept s s1 := .of_moves (State.count_moves (State.modProd_moves (Moves.refl _ s) (by decide)) (by decide))
    refine .ite h1 (.ite (h1.trans (suspectStep_calKept s1 _ _)) (h1.quiet ?_))
    exact State.unboundStep_moves (State.modProd_moves (Moves.refl _ s1) (by decide)) (by decide)

theorem boundConditions_calKept (p : Prod) : CalKept s (s.boundConditions p) := by
  unfold State.boundConditions
  extract_lets b x code badTemp badCal drifted s1 s2 s3 s4 s5 s6
  have hcount : ∀ {u : State} (c : Prop) [Decidable c] (k : Nat), Moves CalKept.calQuiet s u →
      Moves CalKept.calQuiet s (if c then u.count k else u) := fun c _ k hu => Moves.ite (State.count_moves hu (by decide)) hu
  have h4 : Moves CalKept.calQuiet s s4 := hcount _ _ (hcount _ _ (hcount _ _ (hcount _ _ (Moves.refl _ s))))
  have h5 : Moves CalKept.calQuiet s s5 := Moves.ite h4 (State.count_moves h4 (by decide))
  have h6 : CalKept s s6 :=
    .of_moves (Moves.ite (State.unboundStep_moves (State.modProd_moves h5 (by decide)) (by decide)) h5)
  exact .ite ((h6.trans (suspectProd_calKept s6 p.id)).trans (fault_calKept _ _ _)) h6

theorem firstPhase_calKept (p : Prod) : CalKept s (s.firstPhase p) := by
  unfold State.firstPhase
  extract_lets t k s1 s2
  have h2 : Moves CalKept.calQuiet s s2 := State.modTile_moves (State.modProd_moves (Moves.refl _ s) (by decide)) (by decide)
  exact (CalKept.of_moves h2).trans (boundConditions_calKept s2 p)

/-! ### Grants and programming -/

theorem charge_calKept (kind : Nat) (b : Option Nat) : CalKept s (s.charge kind b) := by
  unfold State.charge State.chargeBy
  extract_lets c s1
  have h1 : CalKept s s1 := .of_moves (State.modPower_moves (Moves.refl _ s) (by decide))
  cases b with
  | none => exact h1
  | some b => exact h1.trans (.modBough s1 b fun _ => ⟨rfl, rfl, rfl, rfl, rfl, rfl, rfl, id⟩)

/-- Waking a bough starts a cold reference and leaves one that is ready (R121). -/
theorem wakeBough_calKept (b id : Nat) : CalKept s (s.wakeBough b id) := by
  unfold State.wakeBough
  extract_lets x fresh cold s1 s2
  have h1 : Moves CalKept.calQuiet s s1 := Moves.ite (State.count_moves (Moves.refl _ s) (by decide)) (Moves.refl _ s)
  have h2 : CalKept s s2 := .of_moves (Moves.ite (State.count_moves h1 (by decide)) h1)
  refine h2.trans (.modBough s2 b fun x => ⟨rfl, rfl, rfl, rfl, rfl, rfl, rfl, fun hr => ?_⟩)
  exact (if_neg (by rw [hr]; decide)).trans hr

theorem startPhase_calKept (t : Nat) (p : Prod) : CalKept s (s.startPhase t p) := by
  unfold State.startPhase
  extract_lets b s1 s2
  refine .ite (wakeBough_calKept s _ _) (.ite ?_ (.ite ?_ ?_))
  · exact .of_moves (State.count_moves (Moves.refl _ s) (by decide))
  · exact .of_moves (State.withhold_moves (Moves.refl _ s) (by decide))
  · have h1 : CalKept s s1 := (CalKept.ite (.refl s) (firstPhase_calKept s p)).quiet (State.noteConflicts_moves (Moves.refl _ _) (by decide))
    have h2 : CalKept s s2 := (h1.trans (charge_calKept s1 0 (some b))).trans
      (.modBough _ b fun _ => ⟨rfl, rfl, rfl, rfl, rfl, rfl, rfl, id⟩)
    exact h2.quiet (State.modTile_moves (Moves.refl _ s2) (by decide))

theorem beginRun_calKept (t : Nat) (j : ProgJob) : CalKept s (s.beginRun t j) := by
  unfold State.beginRun
  extract_lets fmt s1 s2 s3
  have h1 : CalKept s s1 := .of_moves (State.modDeck_moves (Moves.refl _ s) (by decide))
  have h2 : CalKept s s2 := .ite (h1.trans (.modBough s1 _ fun _ => ⟨rfl, rfl, rfl, rfl, rfl, rfl, rfl, id⟩)) h1
  have h3 : CalKept s s3 := h2.trans (.each s2 _ fun u r => setRemap_calKept u _ _ _ _)
  exact .ite (h3.trans (event_calKept s3 _)) h3

theorem startProg_calKept (t : Nat) : CalKept s (s.startProg t) := by
  unfold State.startProg
  split
  · exact .refl s
  · next j rest _ =>
    refine .ite (wakeBough_calKept s _ _) (.ite ?_ (.ite ?_ ?_))
    · exact .of_moves (State.count_moves (Moves.refl _ s) (by decide))
    · exact .of_moves (State.withhold_moves (Moves.refl _ s) (by decide))
    · extract_lets s1
      have h1 : CalKept s s1 := (CalKept.ite (.refl s) (beginRun_calKept s t j)).quiet (State.countBlocked_moves (Moves.refl _ _) (by decide))
      exact (h1.trans (charge_calKept s1 2 _)).quiet (State.modTile_moves (Moves.refl _ _) (by decide))

end

theorem dropRefused_calKept (t : Nat) : ∀ (n : Nat) (s : State), CalKept s (s.dropRefused t n)
  | 0, s => .refl s
  | n + 1, s => by
    unfold State.dropRefused
    split
    · exact .refl s
    · refine .ite ?_ (.refl s)
      exact ((refuseProgram_calKept s _ _).quiet (State.modTile_moves (Moves.refl _ _) (by decide))).trans (dropRefused_calKept t n _)

section
variable (s : State)

theorem tileNext_calKept (t : Nat) : CalKept s (s.tileNext t) := by
  unfold State.tileNext
  extract_lets s1 x p
  have h1 : CalKept s s1 := dropRefused_calKept t _ s
  have hprog : CalKept s (s1.startProg t) := h1.trans (startProg_calKept s1 t)
  clear_value p
  refine .ite h1 (.ite hprog ?_)
  split
  · exact h1.trans (startPhase_calKept s1 t _)
  · exact .ite hprog h1

theorem tilesNext_calKept (ok : Nat → Bool) : CalKept s (s.tilesNext ok) := .each s _ tileNext_calKept

theorem requestProgram_calKept (t : Nat) (j : ProgJob) : CalKept s (s.requestProgram t j) := by
  unfold State.requestProgram
  refine .ite (refuseProgram_calKept s _ _) ?_
  extract_lets j' s1
  have h1 : CalKept s s1 := .of_same
    (fun k => ⟨k.parts, k.rings, k.counters, k.calls, k.customers, k.tiles, k.boughs, k.calSave, k.links, k.mem⟩) rfl rfl
  exact (h1.quiet (State.modTile_moves (Moves.refl _ s1) (by decide))).trans (tileNext_calKept _ t)

theorem programTargets_calKept (t : Take) (xs : List (Nat × Nat × Nat × Nat × Nat)) : CalKept s (s.programTargets t xs) :=
  .each s xs fun u _ => requestProgram_calKept u _ _

/-! ### Retirement and suspension -/

theorem slowProds_boughs (hit : Prod → Bool) : ∃ ids : List Nat, (s.slowProds hit).boughs =
    Tbl.mapVals {} (fun (b : Bough) => { b with waiting := b.waiting.filter fun i => !ids.contains i }) s.boughs := by
  unfold State.slowProds
  extract_lets ps ids s1
  have hm : Moves [.counters, .steps] s1 (s1.each ps fun s p => (s.count (Ctr.tierProducts (p.tile / 64))).modStep p.key.work.call
      p.key.work.step fun x => { x with tier := true }) := (Moves.refl _ s1).each fun u p hu =>
    State.modStep_moves (State.count_moves hu (by decide)) (by decide)
  exact ⟨ids, hm.frame .boughs (by decide)⟩

theorem slowProds_calKept (hit : Prod → Bool) : CalKept s (s.slowProds hit) := by
  have hm := State.slowProds_moves (hit := hit) (fl := [.counters, .steps, .tiles, .boughs, .prods]) (Moves.refl _ s) (by decide)
  obtain ⟨ids, hb⟩ := slowProds_boughs s hit
  refine ⟨hm.canon, fun c b => ?_, .of_eq (hm.frame .sec (by decide))⟩
  have hget := get_mapVals (d := ({} : Bough)) (f := fun b : Bough => { b with waiting := b.waiting.filter fun i => !ids.contains i }) rfl b
    (Tbl.rising_of_wf c.boughs)
  rw [← hb] at hget
  rw [State.bough, State.bough, hget]
  exact ⟨rfl, rfl, rfl, rfl, rfl, rfl, rfl, id⟩

theorem retireTile_calKept (t cause : Nat) : CalKept s (s.retireTile t cause) := by
  unfold State.retireTile
  refine .ite (.refl s) ?_
  extract_lets runs s1 s2 s3 s4 s5
  have h2 : Moves CalKept.calQuiet s s2 := State.modWeights_moves (State.modTile_moves (Moves.refl _ s) (by decide)) (by decide)
  have h3 : CalKept s s3 := (CalKept.of_moves h2).trans (event_calKept s2 _)
  have h4 : CalKept s s4 := h3.trans (.each s3 _ fun u j => progFail_calKept u _ _)
  have h5 : CalKept s s5 := h4.trans (slowProds_calKept s4 _)
  exact h5.trans (.each s5 _ bindSlow_calKept)

theorem suspendColumn_calKept (t d col : Nat) : CalKept s (s.suspendColumn t d col) := by
  unfold State.suspendColumn
  extract_lets x m bad
  refine .ite (.refl s) (.ite ?_ ?_)
  · exact (bindSlow_calKept s m).quiet (State.firmwareTake_moves (Moves.refl _ _) (by decide))
  · split
    · exact retireTile_calKept s t 1
    · exact setRemap_calKept s _ _ _ _

theorem programAgain_calKept (t d : Nat) (failed : List Nat) : CalKept s (s.programAgain t d failed) := by
  unfold State.programAgain
  split
  · exact requestProgram_calKept s _ _
  · exact .refl s

theorem columnFaults_calKept (t d : Nat) (cols : List Nat) : CalKept s (s.columnFaults t d cols) := by
  unfold State.columnFaults
  refine .ite (.refl s) (.ite (programAgain_calKept s t d cols) (.each s cols fun u j => ?_))
  exact .ite (suspendColumn_calKept u t d j) (.refl u)

theorem fitSlices_calKept (f : TileFit) (direct : Bool) : CalKept s (s.fitSlices f direct) := by
  unfold State.fitSlices
  extract_lets r offs gains ot gt st
  exact .ite (retireTile_calKept s _ _) (.of_moves (State.modTile_moves (Moves.refl _ s) (by decide)))

theorem fitDeck_calKept (t d : Nat) : CalKept s (s.fitDeck t d) := by
  unfold State.fitDeck
  extract_lets k c r
  exact (CalKept.of_moves (State.modDeck_moves (Moves.refl _ s) (by decide))).trans (columnFaults_calKept _ t d _)

theorem fitTile_calKept (r : SliceReads) (decks : List Nat) (sweeps : Nat → List (Nat × List Int)) : CalKept s (s.fitTile r decks sweeps) := by
  unfold State.fitTile
  extract_lets pairs s1
  have h1 : CalKept s s1 := fitSlices_calKept s _ _
  exact h1.trans (.each s1 decks fun u d => .ite (fitDeck_calKept u _ d) (.refl u))

theorem chargeReads_calKept (b : Nat) (rs : List SliceReads) : CalKept s (s.chargeReads b rs) :=
  .each s _ fun u _ => (CalKept.of_moves (State.count_moves (Moves.refl _ u) (by decide))).trans (charge_calKept _ _ _)

/-- The calibration step of a start (Tables 16-3, 16-5) reads the boughs and leaves them. -/
theorem calStep_calKept : CalKept s s.calStep := by
  refine .of_onward (State.calStep_moves (Moves.refl _ s) (by decide)) ?_
  unfold State.calStep
  extract_lets n s1 s2
  have h2 : Onward s s2 := .ite ((setReady_onward s 7).trans (setReady_onward s1 10)) (setReady_onward s 7)
  exact .ite (h2.trans (stepEnds_onward s2 n)) (.ite (setReady_onward s 7) (.refl s))

/-! ### Takes and cuts -/

theorem armTake_calKept (t : Take) : CalKept s (s.armTake t) := by
  unfold State.armTake
  extract_lets s1
  have h1 : CalKept s s1 := (CalKept.of_moves (State.modTake_moves (Moves.refl _ s) (by decide))).trans (event_calKept _ _)
  exact .ite h1 (h1.quiet (State.report_moves (Moves.refl _ s1) (by decide)))

theorem mapTiles_calKept (f : Tile → Tile) : CalKept s { s with tiles := Tbl.mapVals {} f s.tiles } :=
  .of_same (fun k => ⟨k.parts, k.rings, k.counters, k.calls, k.customers, Tbl.wf_mapVals (Tbl.rising_of_wf k.tiles), k.boughs, k.calSave,
    k.links, k.mem⟩) rfl rfl

theorem failTake_calKept (t : Take) (st : Status) : CalKept s (s.failTake t st) := by
  unfold State.failTake
  extract_lets runs s1 s2 s3 s4 s5 s6
  have h1 : CalKept s s1 := mapTiles_calKept s _
  have h2 : CalKept s1 s2 := .ite (.refl s1) (.each s1 _ fun u x => .ite (.refl u) (emptyDeck_calKept u _ _))
  have h3 : CalKept s1 s3 := h2.trans (.each s2 _ fun u x => progFail_calKept u _ _)
  have h4 : CalKept s1 s4 := h3.quiet (State.count_moves (State.dropTake_moves (Moves.refl _ s3) (by decide)) (by decide))
  have h5 : CalKept s1 s5 := h4.trans (event_calKept s4 _)
  have h6 : CalKept s1 s6 := by
    unfold s6
    split
    · exact h5.quiet (State.completeWith_moves (Moves.refl _ s5) (by decide))
    · exact h5
  exact .ite (h1.trans h6) ((h1.trans h6).quiet (State.report_moves (Moves.refl _ s6) (by decide)))

theorem startTake_calKept (t : Take) : CalKept s (s.startTake t) := by
  unfold State.startTake
  extract_lets t' s1 targets
  have h1 : CalKept s s1 := .of_moves (State.modTake_moves (Moves.refl _ s) (by decide))
  have hmod : ∀ {f : Take → Take}, CalKept s (s1.modTake t'.id f) := h1.quiet (State.modTake_moves (Moves.refl _ s1) (by decide))
  exact .ite (.ite hmod (hmod.trans (armTake_calKept _ _)))
    (.ite (h1.trans (failTake_calKept s1 _ _)) (hmod.trans (programTargets_calKept _ _ _)))

theorem slowCut_calKept (t : Take) (m : Nat) : CalKept s (s.slowCut t m) := by
  unfold State.slowCut
  extract_lets decks s1 s2 s3
  have h2 : CalKept s s2 := (bindSlow_calKept s m).quiet (State.modTake_moves (Moves.refl _ s1) (by decide))
  have hempty : ∀ xs : List (Nat × Nat × Nat × Nat × Nat), CalKept s (s2.each xs fun s x => s.emptyDeck x.2.2.2.1 x.2.2.2.2) := fun xs =>
    h2.trans (.each s2 xs fun u x => emptyDeck_calKept u _ _)
  exact .ite (hempty _) ((hempty _).trans (programTargets_calKept _ _ _))

theorem onTake_calKept (id : Nat) {f : Take → State → State} (hf : ∀ t s, CalKept s (f t s)) : CalKept s (s.onTake id f) := by
  unfold State.onTake
  split
  · exact hf _ s
  · exact .refl s

end

theorem slowCuts_calKept (t : Take) : ∀ (ms : List Nat) (s : State), CalKept s (State.slowCuts t ms s)
  | [], s => .refl s
  | m :: ms, s => by
    unfold State.slowCuts
    exact .ite ((slowCut_calKept s t m).trans (slowCuts_calKept t ms _)) (.refl s)

section
variable (s : State)

theorem settleLoading_calKept (t : Take) : CalKept s (State.settleLoading t s) := by
  unfold State.settleLoading
  refine .ite (.refl s) ((slowCuts_calKept t _ s).trans (onTake_calKept _ _ fun t s => ?_))
  exact .ite (startTake_calKept s t) (.refl s)

theorem settleTargets_calKept (t : Take) : CalKept s (State.settleTargets t s) := by
  unfold State.settleTargets
  refine .ite (.ite (failTake_calKept s _ _) (.refl s)) (.ite (.refl s) (.ite (failTake_calKept s _ _) (.ite (armTake_calKept s _) ?_)))
  exact .of_moves (State.modTake_moves (Moves.refl _ s) (by decide))

theorem returnCut_calKept (t : Take) (id : Nat) : CalKept s (s.returnCut t id) := by
  unfold State.returnCut
  split
  · extract_lets decks ok s1 s2 s3 s4 s5
    have h1 : CalKept s s1 := .ite (.each s _ fun u d => .of_moves (State.modDeck_moves (Moves.refl _ u) (by decide))) (.refl s)
    have h2 : CalKept s s2 := h1.quiet (State.setBinding_moves (Moves.refl _ s1) (by decide))
    have h3 : CalKept s s3 := h2.trans (.each s2 _ fun u d => .ite (.refl u) (emptyDeck_calKept u _ _))
    have h4 : CalKept s s4 := .ite (h3.quiet (State.count_moves (Moves.refl _ s3) (by decide))) h3
    have h5 : CalKept s s5 := .ite (h4.trans (tierEvent_calKept s4 _ _ _ _)) h4
    exact h5.quiet (State.modTake_moves (Moves.refl _ s5) (by decide))
  · exact .of_moves (State.modTake_moves (Moves.refl _ s) (by decide))

theorem settleMatrix_calKept (t : Take) (m : Nat) : CalKept s (s.settleMatrix t m) := by
  unfold State.settleMatrix
  split
  · exact .refl s
  · extract_lets xs
    refine .ite (.refl s) (.ite (.ite ?_ (failTake_calKept s _ _)) (.ite (returnCut_calKept s _ _) (.refl s)))
    exact .of_moves (State.modTake_moves (Moves.refl _ s) (by decide))

theorem driftDone_calKept (t : Take) : CalKept s (s.driftDone t) := by
  unfold State.driftDone
  split
  · exact .refl s
  · exact (CalKept.of_moves (State.count_moves (Moves.refl _ s) (by decide))).trans (event_calKept _ _)

theorem settleCuts_calKept (t : Take) : CalKept s (State.settleCuts t s) := by
  unfold State.settleCuts
  refine .ite ?_ (.refl s)
  refine ((slowCuts_calKept t _ s).trans (.each _ _ fun s m => settleMatrix_calKept s t m)).trans (onTake_calKept _ _ fun t s => ?_)
  exact .ite ((driftDone_calKept s t).quiet (State.finishTake_moves (Moves.refl _ _) (by decide))) (.refl s)

theorem settleTake_calKept (id : Nat) : CalKept s (s.settleTake id) := by
  unfold State.settleTake
  exact ((onTake_calKept s id fun t s => settleLoading_calKept s t).trans (onTake_calKept _ id fun t s => settleTargets_calKept s t)).trans
    (onTake_calKept _ id fun t s => settleCuts_calKept s t)

theorem openEpoch_calKept (e image : Nat) : CalKept s (s.openEpoch e image) := by
  unfold State.openEpoch
  split
  · exact .refl s
  · split
    · exact .refl s
    · extract_lets take olds news s1 s2 s3 s4 s5
      clear_value take
      have h1 : CalKept s s1 := .of_moves (State.modWeights_moves (Moves.refl _ s) (by decide))
      have h2 : CalKept s s2 := h1.trans (.each s1 _ fun u b => .each u _ fun u d =>
        .of_moves (State.modDeck_moves (Moves.refl _ u) (by decide)))
      have h3 : CalKept s s3 := h2.trans (.each s2 _ fun u b => by
        split
        · exact .ite (.refl u) (tierEvent_calKept u _ _ _ _)
        · exact .refl u)
      have h4 : CalKept s s4 := by
        unfold s4
        split
        · exact h3.quiet (State.modTake_moves (Moves.refl _ s3) (by decide))
        · exact h3
      have h5 : CalKept s s5 := h4.quiet (State.recovered_moves (State.count_moves (Moves.refl _ s4) (by decide)) (by decide))
      exact .ite h5 (h5.quiet (State.send_moves (Moves.refl _ s5) (by decide)))

theorem tryCut_calKept : CalKept s s.tryCut := by
  unfold State.tryCut
  split
  · exact .refl s
  · extract_lets n live
    exact .ite (openEpoch_calKept s _ _) (.refl s)

theorem rebindMatrix_calKept (g : Gen) (p : Placement) (m : Mat) : CalKept s (s.rebindMatrix g p m).1 := by
  unfold State.rebindMatrix
  split
  · exact .of_moves (State.setBinding_moves (Moves.refl _ s) (by decide))
  · extract_lets found bound s1 s2 missing targets decks slow tid s3 s4 s5
    have h1 : CalKept s s1 := .each s _ fun u d =>
      .of_moves (State.modDeck_moves (State.count_moves (Moves.refl _ u) (by decide)) (by decide))
    have h2 : CalKept s s2 := h1.trans (.each s1 _ fun u d => emptyDeck_calKept u _ _)
    have h3 : CalKept s s3 := h2.quiet (State.setBinding_moves (Moves.refl _ s2) (by decide))
    have h4 : CalKept s s4 := .ite (h3.trans (tierEvent_calKept s3 _ _ _ _)) h3
    exact h4.trans (.each s4 _ fun u d => .of_moves (State.writeClapper_moves (Moves.refl _ u) (by decide)))

theorem tryLive_calKept : CalKept s s.tryLive := by
  unfold State.tryLive
  refine .ite (.refl s) ?_
  split
  · exact .refl s
  · split
    · exact .refl s
    · extract_lets s1 r s2
      have h1 : CalKept s s1 := .of_moves (State.modGen_moves (Moves.refl _ s) (by decide))
      have hr : CalKept s r.1 := by
        refine h1.trans (CalKept.foldl_fst (fun acc m => ?_) _ (s1, []))
        exact rebindMatrix_calKept acc.1 _ _ m
      have h2 : CalKept s s2 := .ite hr (hr.quiet (State.firmwareTake_moves (Moves.refl _ _) (by decide)))
      exact h2.quiet (State.setReady_moves (Moves.refl _ s2) (by decide))

theorem applySlow_calKept : CalKept s s.applySlow := by
  unfold State.applySlow
  refine .each s _ fun u x => ?_
  extract_lets decks u1
  have h1 : CalKept u u1 := (bindSlow_calKept u _).quiet (State.modWeights_moves (Moves.refl _ _) (by decide))
  exact h1.trans (.each u1 _ fun u d => .ite (.refl u) (emptyDeck_calKept u _ _))

/-- Takes, cuts and re-binding leave the calibration of boughs and the objects that wait. -/
theorem settle_calKept : CalKept s s.settle := by
  unfold State.settle
  extract_lets s1 s2
  have hlive : CalKept s s.tryLive.applyMats := (tryLive_calKept s).quiet (State.applyMats_moves (Moves.refl _ _) (by decide))
  have h1 : CalKept s s1 := (hlive.trans (applySlow_calKept _)).quiet (State.armIdle_moves (Moves.refl _ _) (by decide))
  exact (h1.trans (.each s1 _ settleTake_calKept)).trans (tryCut_calKept s2)

end

end Sys2Proof.Machine

/-! PROOFS. References become ready, runs and fits end, decks are re-taken, chunks convert, objects are checked, epochs drain (R120, R123,
R127, R130, R133, R141, R146, R375 to R377, R381). -/

namespace Sys2Proof.Machine

/-! ### References and the end of a run (R120, R123, R127) -/

theorem modBough_canonical {s : State} (c : s.Canonical) (b : Nat) (f : Bough → Bough) : (s.modBough b f).Canonical :=
  (State.modBough_moves (fl := [.boughs]) (Moves.refl _ s) (by decide)).canon c

/-- What follows in a bough once its reference is ready leaves it ready. -/
theorem refIsReady_ready {s : State} (c : s.Canonical) (b : Nat) (reads : List SliceReads) :
    ((s.refIsReady b reads).bough b).ref = .ready := by
  unfold State.refIsReady
  extract_lets s1 s2 s3
  have c1 : s1.Canonical := modBough_canonical c b _
  have h1 : (s1.bough b).ref = .ready := by rw [bough_modBough_self c]
  have k2 : CalKept s1 s2 := (chargeReads_calKept s1 b reads).trans (.each _ _ fun u r => fitSlices_calKept u _ _)
  have c2 : s2.Canonical := k2.canon c1
  have h2 : (s2.bough b).ref = .ready := (k2.boughs c1 b).ready h1
  have c3 : s3.Canonical :=
    (Moves.ite (State.startRun_moves (Moves.refl [.tiles, .boughs] s2) (by decide)) (Moves.refl _ s2)).canon c2
  have h3 : (s3.bough b).ref = .ready := by
    unfold s3
    split
    · rw [startRun_self c2]
      exact h2
    · exact h2
  have k : CalKept s3 ((s3.tilesNext fun t => t / 64 == b).calStep) := (tilesNext_calKept s3 _).trans (calStep_calKept _)
  exact (k.boughs c3 b).ready h3

/-- A request of a run leaves what the last one has found. -/
theorem requestRun_found {s : State} (c : s.Canonical) (b : Nat) :
    ((s.requestRun b).bough b).runDone = (s.bough b).runDone ∧ ((s.requestRun b).bough b).calTemp = (s.bough b).calTemp := by
  unfold State.requestRun
  dsimp only
  split
  · exact ⟨rfl, rfl⟩
  · split
    · rw [bough_modBough_self c]
      exact ⟨rfl, rfl⟩
    · rw [startRun_self c]
      exact ⟨rfl, rfl⟩

theorem requestRun_canonical {s : State} (c : s.Canonical) (b : Nat) : (s.requestRun b).Canonical :=
  (State.requestRun_moves (fl := [.tiles, .boughs]) (Moves.refl _ s) (by decide)).canon c

/-- At the end of a run its samples' mean is the bough's calibration temperature, and a run without samples is requested again
(R127). -/
theorem runEnds_bough {s : State} (c : s.Canonical) (b : Nat) (reads : List SliceReads) :
    ((s.bough b).runCount ≠ 0 → ((s.runEnds b reads).bough b).runDone = true ∧
      ((s.runEnds b reads).bough b).calTemp = some (Bits.roundHalfEven (s.bough b).runSum (s.bough b).runCount)) ∧
    ((s.bough b).runCount = 0 → ((s.runEnds b reads).bough b).calTemp = (s.bough b).calTemp ∧
      ((s.bough b).withdrawn = false → ((s.runEnds b reads).bough b).RunAsked)) := by
  unfold State.runEnds
  extract_lets s0 sx x again s1 s2 s3 s4 s5 s6 s7
  have hx : BoughKept (s.bough b) x := (chargeReads_calKept s b reads).boughs c b
  have c0 : s0.Canonical := (chargeReads_calKept s b reads).canon c
  have c1 : s1.Canonical := modBough_canonical c0 b _
  have c2 : s2.Canonical := ⟨c1.parts, c1.rings, c1.counters, c1.calls, c1.customers,
    Tbl.wf_mapVals (Tbl.rising_map (fun p => by dsimp only; split <;> rfl) (Tbl.rising_of_wf c1.tiles)),
    c1.boughs, c1.calSave, c1.links, c1.mem⟩
  have k3 : Moves [.counters] s2 s3 := State.count_moves (Moves.refl _ s2) (by decide)
  have c3 : s3.Canonical := k3.canon c2
  have h3 : s3.bough b = { x with runOn := false, runPending := false, runSweeps := [], runSkip := [] } := by
    rw [bough_congr (k3.frame .boughs (by decide)), bough_congr (t := s2) (s := s1) rfl, bough_modBough_self c0]
  have k4 : CalKept s3 s4 := .each s3 _ fun u r => fitTile_calKept u _ _ _
  have c5 : s5.Canonical := modBough_canonical (k4.canon c3) b _
  have c6 : s6.Canonical := by
    unfold s6
    split
    · exact c3
    · exact (State.saveCal_moves (fl := [.calSave]) (Moves.refl _ s5) (by decide)).canon c5
  have h7 : s7.Canonical ∧ (s7.bough b).runDone = (s6.bough b).runDone ∧ (s7.bough b).calTemp = (s6.bough b).calTemp := by
    unfold s7
    split
    · exact ⟨requestRun_canonical c6 b, requestRun_found c6 b⟩
    · exact ⟨c6, rfl, rfl⟩
  obtain ⟨c7, hdone, htemp⟩ := h7
  have k : BoughKept (s7.bough b) ((s7.tilesNext fun t => t / 64 == b).calStep.settle.bough b) :=
    (((tilesNext_calKept s7 _).trans (calStep_calKept _)).trans (settle_calKept _)).boughs c7 b
  rw [k.runDone, k.calTemp, hdone, htemp]
  refine ⟨fun hn => ?_, fun hz => ?_⟩
  · have h6 : s6 = s5.saveCal b := if_neg (by rwa [hx.runCount])
    rw [h6, bough_congr (t := s5.saveCal b) (s := s5) rfl, bough_modBough_self (k4.canon c3), hx.runSum, hx.runCount]
    exact ⟨rfl, rfl⟩
  · have h6 : s6 = s3 := if_pos (by rwa [hx.runCount])
    rw [h6, h3]
    refine ⟨hx.calTemp, fun hw => k.asked ?_⟩
    have h7 : s7 = s6.requestRun b := if_pos (by simp [again, hx.runCount, hz])
    rw [h7]
    refine requestRun_asked c6 ?_
    rw [h6, h3]
    exact hx.withdrawn.trans hw

/-! ### A fit that ends (R130) -/

/-- A deck that a change leaves fitted reads as the change leaves it. -/
theorem deck_modDeck_fitted {s : State} (c : s.Canonical) {t d : Nat} {f : Deck → Deck} (h : (f (s.deck t d)).fitted = true) :
    (s.modDeck t d f).deck t d = f (s.deck t d) := by
  unfold State.deck State.modDeck
  rw [tile_modTile_self c]
  refine Tbl.get_set_of_ne fun he => ?_
  have : (f (s.deck t d)).fitted = false := congrArg Deck.fitted he
  rw [h] at this
  cases this

/-- Leaving UNVERIFIED changes nothing else of the deck. -/
theorem tryVerified_deck {s : State} (c : s.Canonical) (t d : Nat) :
    ∃ v, (s.tryVerified t d).deck t d = { s.deck t d with unverified := v } := by
  unfold State.tryVerified
  extract_lets k
  split
  · next h =>
    refine ⟨false, deck_modDeck_fitted c ?_⟩
    simp only [Bool.and_eq_true] at h
    exact h.2
  · exact ⟨k.unverified, rfl⟩

/-- Without a failed column a fit makes its gains the deck's gains and targets (R130). -/
theorem fitIsDone_gains {s : State} (c : s.Canonical) {t d : Nat} (hg : (newGains true [] (s.deck t d).fit.cols).2 = []) :
    ∃ u : State, s.fitIsDone t d = u.settle ∧ (u.deck t d).fitted = true ∧
      (u.deck t d).colGain = (newGains true [] (s.deck t d).fit.cols).1 ∧
      (u.deck t d).colTarget = (newGains true [] (s.deck t d).fit.cols).1 ∧
      (u.deck t d).rowGain = (newGains true [] (s.deck t d).fit.rows).1 ∧
      (u.deck t d).rowTarget = (newGains true [] (s.deck t d).fit.rows).1 := by
  unfold State.fitIsDone
  extract_lets k cg rg s1 s2
  have hfit : ((decide (k.state ≠ .ready) || cg.2.isEmpty) : Bool) = true := by rw [show cg.2 = [] from hg]; simp
  have h1 := deck_modDeck_fitted c (t := t) (d := d) (f := fun k => { k with
    colGain := cg.1, colTarget := cg.1, rowGain := rg.1, rowTarget := rg.1, fit := {}, fitted := decide (k.state ≠ .ready) || cg.2.isEmpty
    state := if k.state = .ready ∧ cg.2.isEmpty = true ∧ s.deckBound (t, d) = true then .live else k.state }) hfit
  have c1 : s1.Canonical := (State.modDeck_moves (fl := [.tiles]) (Moves.refl _ s) (by decide)).canon c
  have h2 : s2 = s1 := by
    unfold s2 State.columnFaults
    rw [show cg.2 = [] from hg]
    rfl
  have c3 : (s2.saveCal (t / 64)).Canonical := by
    rw [h2]
    exact (State.saveCal_moves (fl := [.calSave]) (Moves.refl _ s1) (by decide)).canon c1
  obtain ⟨v, hv⟩ := tryVerified_deck c3 t d
  have hd : (s2.saveCal (t / 64)).deck t d = s1.deck t d := by rw [h2]; rfl
  rw [hd, h1] at hv
  exact ⟨_, rfl, by rw [hv]; exact hfit, by rw [hv], by rw [hv], by rw [hv], by rw [hv]⟩

/-! ### A drift re-take (R133) -/

/-- The deck whose re-take can start has a source. -/
theorem nextRetake_source {s : State} {t d : Nat} (h : s.nextRetake = some (t, d)) : ∃ x, s.deckSource t d = some x := by
  have hc : s.canRetake t d = true := List.find?_some (p := fun x : Nat × Nat => s.canRetake x.1 x.2) h
  unfold State.canRetake at hc
  cases hs : s.deckSource t d with
  | none => simp [hs] at hc
  | some x => exact ⟨x, rfl⟩

/-- A re-take that management firmware starts is a refresh take of the drifted deck with the next number (R133). -/
theorem startRetake_adds {s : State} {t d : Nat} (h : s.nextRetake = some (t, d)) :
    ∃ u : State, s.startRetake t d = u.settle ∧ u.weights.nextTake = s.weights.nextTake + 1 ∧
      ∃ x ∈ u.weights.takes, x.id = s.weights.nextTake ∧ x.drift = some (t, d) ∧ x.refresh = true := by
  obtain ⟨⟨image, m, r, c⟩, hs⟩ := nextRetake_source h
  unfold State.startRetake
  rw [hs]
  dsimp only
  have hw : ∀ e : EventRec, (s.event e).weights = s.weights := fun e =>
    (State.event_moves (fl := [.rings, .counters, .sec, .out]) (Moves.refl _ s) (by decide)).frame .weights (by decide)
  refine ⟨_, rfl, ?_, _, List.mem_append_right _ (List.mem_singleton.2 rfl), ?_, rfl, rfl⟩
  · exact congrArg (·.nextTake + 1) (hw _)
  · exact congrArg (·.nextTake) (hw _)

/-! ### A drained epoch (R146) -/

/-- No epoch is being left, and there are no old bindings. -/
def EpochOver (s : State) : Prop := s.weights.oldEpoch = false ∧ s.weights.oldBindings = []

namespace EpochOver
variable {s t : State}

theorem of_moves (h : EpochOver s) (k : Moves ((.free :: everyPiece).filter (· ≠ .weights)) s t) : EpochOver t := by
  unfold EpochOver
  rw [k.frame .weights (by decide)]
  exact h

theorem ite {c : Prop} [Decidable c] (h : EpochOver s) (k : EpochOver t) : EpochOver (if c then s else t) := by
  split
  · exact h
  · exact k

theorem each {α : Type} {f : State → α → State} (hf : ∀ s x, EpochOver s → EpochOver (f s x)) :
    ∀ (xs : List α) {s : State}, EpochOver s → EpochOver (s.each xs f)
  | [], _, h => h
  | x :: xs, s, h => each hf xs (hf s x h)

theorem nextCut : ∀ (cs : List (Job × Nat)) {s : State}, EpochOver s → EpochOver (State.nextCut cs s)
  | [], _, h => h
  | (j, image) :: rest, s, h => by
    unfold State.nextCut
    exact .ite h (nextCut rest (h.of_moves (State.complete_moves (Moves.refl _ s) (by decide))))

theorem cutSwitched (h : EpochOver s) : EpochOver s.cutSwitched := by
  unfold State.cutSwitched
  split
  · exact h
  · extract_lets n
    refine .ite (nextCut _ (of_moves ?_ (State.complete_moves (Moves.refl _ _) (by decide)))) h
    exact h

/-- Telling position 0 that the position has switched does not reopen the epoch. -/
theorem reportSwitched (h : EpochOver s) (pos image : Nat) : EpochOver (s.report (.switched pos image)) := by
  unfold State.report
  exact .ite (cutSwitched h) (h.of_moves (State.send_moves (Moves.refl _ s) (by decide)))

theorem emptyDeck (h : EpochOver s) (t d : Nat) : EpochOver (s.emptyDeck t d) := by
  unfold State.emptyDeck
  extract_lets k s1
  have h1 : EpochOver s1 := h
  refine .ite h1 (.ite ?_ (h1.of_moves (State.modDeck_moves (Moves.refl _ s1) (by decide))))
  exact h1.of_moves (State.event_moves (State.modDeck_moves (Moves.refl _ s1) (by decide)) (by decide))

theorem bindSlow (h : EpochOver s) (m : Nat) : EpochOver (s.bindSlow m) := by
  unfold State.bindSlow
  split
  · exact h
  · refine .ite h ?_
    exact of_moves (s := s.setBinding _ _) h (State.tierEvent_moves (Moves.refl _ _) (by decide))

theorem slowCut (h : EpochOver s) (t : Take) (m : Nat) : EpochOver (s.slowCut t m) := by
  unfold State.slowCut
  extract_lets decks s1 s2 s3
  have h2 : EpochOver s2 := bindSlow h m
  have hempty : ∀ xs : List (Nat × Nat × Nat × Nat × Nat), EpochOver (s2.each xs fun s x => s.emptyDeck x.2.2.2.1 x.2.2.2.2) := fun xs =>
    each (fun _ _ hu => emptyDeck hu _ _) xs h2
  exact .ite (hempty _) ((hempty _).of_moves (State.programTargets_moves (Moves.refl _ s3) (by decide)))

theorem slowCuts (t : Take) : ∀ (ms : List Nat) {s : State}, EpochOver s → EpochOver (State.slowCuts t ms s)
  | [], _, h => h
  | m :: ms, s, h => by
    unfold State.slowCuts
    exact .ite (slowCuts t ms (slowCut h t m)) h

theorem finishTake (h : EpochOver s) (t : Take) : EpochOver (s.finishTake t) := by
  unfold State.finishTake
  extract_lets s1
  have h1 : EpochOver s1 := of_moves (s := s.dropTake t.id) h (State.count_moves (Moves.refl _ _) (by decide))
  split
  · exact h1.of_moves (State.completeWith_moves (Moves.refl _ s1) (by decide))
  · exact h1

end EpochOver

/-- A drained epoch leaves no old bindings. -/
theorem closeEpoch_over (s : State) : EpochOver s.closeEpoch := by
  unfold State.closeEpoch
  extract_lets image gone s1 s2 s3
  have h1 : EpochOver s1 := ⟨rfl, rfl⟩
  have h2 : EpochOver s2 := .each (fun _ _ hu => hu.emptyDeck _ _) _ h1
  have h3 : EpochOver s3 := by
    unfold s3
    split
    · exact h2
    · next t _ =>
      refine .ite ?_ (h2.finishTake t)
      unfold State.onTake
      extract_lets s4
      have h4 : EpochOver s4 := h2
      split
      · exact EpochOver.slowCuts _ _ h4
      · exact h4
  exact h3.reportSwitched _ _

/-! ### A signed object that is checked (R375 to R377, R381) -/

/-- Every piece but the security unit. -/
abbrev secQuiet : List Field := (.free :: .pending :: everyPiece).filter (· ≠ .sec)

theorem SecKept.of_moves {s t : State} (k : Moves secQuiet s t) : SecKept s t := .of_eq (k.frame .sec (by decide))

theorem SecKept.ite {s t u : State} {c : Prop} [Decidable c] (h : SecKept s t) (k : SecKept s u) : SecKept s (if c then t else u) := by
  split
  · exact h
  · exact k

theorem SecKept.queue {s t : State} (h : SecKept s t) : t.sec.queue = s.sec.queue := by
  rw [h]

section
variable (s : State)

theorem complete_secKept (j : Job) (st : Status) : SecKept s (s.complete j st) :=
  .of_moves (State.complete_moves (Moves.refl _ s) (by decide))

theorem finishJob_secKept (j : Option Job) (st : Status) : SecKept s (s.finishJob j st) :=
  .of_moves (State.finishJob_moves (Moves.refl _ s) (by decide))

theorem sigReject_secKept (kind reason subject : Nat) : SecKept s (s.sigReject kind reason subject) := event_secKept s _

theorem manifestChecked_secKept (b : Bytes) (j : Option Job) : SecKept s (s.manifestChecked b j) := by
  unfold State.manifestChecked
  extract_lets m g s1 s2
  split
  · exact finishJob_secKept s _ _
  · have h2 : Moves secQuiet s1 s2 := Moves.ite (Moves.refl _ s1) (State.send_moves (Moves.refl _ s1) (by decide))
    have h1 : SecKept s s2 := (SecKept.of_eq (t := s1) rfl).trans (.of_moves h2)
    exact (h1.trans (finishJob_secKept s2 _ _)).trans (settle_calKept _).sec

theorem placementChecked_secKept (b : Bytes) (j : Job) : SecKept s (s.placementChecked b j) := by
  unfold State.placementChecked
  extract_lets body p
  have hdone : ∀ {u : State}, Moves secQuiet s u → SecKept s (u.complete j .ok).settle := fun hu =>
    (SecKept.of_moves (State.complete_moves hu (by decide))).trans (settle_calKept _).sec
  refine .ite (complete_secKept s _ _) (.ite (complete_secKept s _ _) ?_)
  split
  · exact complete_secKept s _ _
  · split
    · exact .ite (complete_secKept s _ _) (hdone (State.modGen_moves (Moves.refl _ s) (by decide)))
    · refine .ite (complete_secKept s _ _) (.ite ?_ ?_)
      · exact hdone (State.replaceLive_moves (Moves.refl _ s) (by decide))
      · exact hdone (State.modGen_moves (Moves.refl _ s) (by decide))

theorem graftChecked_secKept (b : Bytes) (r : RingId) (j : Job) : SecKept s (s.graftChecked b r j) :=
  .of_moves (State.graftChecked_moves (Moves.refl _ s) (by decide))

end

theorem answerOf_congr {s t : State} (h : t.tick = s.tick) (j : Job) (st : Status) (r0 r1 : Nat) :
    t.answerOf j st r0 r1 = s.answerOf j st r0 r1 := by
  unfold State.answerOf State.now
  rw [h]

/-- How the check of a staged firmware image ends: with an image that passes, valid in its slot and written there where flash is the
boot source, or with the status of its reason (R377, R381). -/
def FirmwareAnswered (s t : State) (b : Bytes) (slot : Nat) (j : Job) : Prop :=
  t.sec.staging = none ∧
  (s.fwReason b = none → Delivered s t (answerRing j.ring) (s.answerOf j .ok 0 0) ∧
    (s.regs.boot = 0 → PutOut s t (.flash (slot * 2 ^ 24) b)) ∧
    Tbl.get ({} : FwSlot) slot t.sec.slots = { bytes := b, valid := true, digest := Shake.digest32 b, svn := Bits.le b 8 4 }) ∧
  ∀ r, s.fwReason b = some r → Delivered s t (answerRing j.ring) (s.answerOf j (State.fwStatus r) 0 0)

theorem canonical_modSec {s : State} (c : s.Canonical) (f : Sec → Sec) : (s.modSec f).Canonical :=
  (State.modSec_moves (fl := [.sec]) (Moves.refl _ s) (by decide)).canon c

theorem firmwareChecked_answers {s : State} (c : s.Canonical) {b : Bytes} (h : s.fwReason b = none) (slot : Nat) (j : Job) :
    (s.firmwareChecked b slot j).sec.queue = s.sec.queue ∧ FirmwareAnswered s (s.firmwareChecked b slot j) b slot j := by
  unfold State.firmwareChecked
  extract_lets s1 s2
  have k12 : Moves [.out] s1 s2 := Moves.ite (State.emit_moves (Moves.refl _ s1) (by decide)) (Moves.refl _ s1)
  have k2 : Moves [.rings, .counters, .jobs, .out] s2 (s2.complete j .ok) := State.complete_moves (Moves.refl _ s2) (by decide)
  have hsec : (s2.complete j .ok).sec = s1.sec := (k2.frame .sec (by decide)).trans (k12.frame .sec (by decide))
  refine ⟨congrArg (·.queue) hsec, congrArg (·.staging) hsec, fun _ => ⟨?_, fun hb => ?_, ?_⟩, fun r hr => ?_⟩
  · rw [← answerOf_congr (t := s2) (s := s) (k12.frame .tick (by decide))]
    exact (completeWith_delivered (k12.canon (canonical_modSec c _)) j .ok 0 0 none).after k12.grows
  · have h2 : s2 = s1.emit (.flash (slot * 2 ^ 24) b) := if_pos hb
    obtain ⟨l, hl⟩ := k2.grows
    refine ⟨.flash (slot * 2 ^ 24) b :: l, ?_, List.mem_cons_self⟩
    rw [← hl, h2]
    exact List.append_assoc s.out [_] l
  · rw [hsec]
    exact Tbl.get_set_of_ne fun he => by cases congrArg FwSlot.valid he
  · rw [h] at hr
    cases hr

theorem checkObject_firmware {s : State} (c : s.Canonical) (b : Bytes) (slot : Nat) (j : Job) :
    (s.checkObject (.firmware b slot j)).sec.queue = s.sec.queue ∧ FirmwareAnswered s (s.checkObject (.firmware b slot j)) b slot j := by
  unfold State.checkObject
  dsimp only
  cases h : s.fwReason b with
  | none => exact firmwareChecked_answers c h slot j
  | some r =>
    dsimp only
    generalize hs1 : (s.modSec fun x => { x with staging := none }) = s1
    have k : Moves [.rings, .counters, .sec, .out] s1 (s1.sigReject 1 r 0) := State.sigReject_moves (Moves.refl _ s1) (by decide)
    have hsec : SecKept s1 _ := (sigReject_secKept s1 1 r 0).trans (complete_secKept _ j (State.fwStatus r))
    have c1 : s1.Canonical := hs1 ▸ canonical_modSec c _
    have htick : s1.tick = s.tick := by rw [← hs1]; rfl
    have hout : s1.out = s.out := by rw [← hs1]; rfl
    refine ⟨?_, ?_, fun hn => ?_, fun r' hr => ?_⟩
    · rw [hsec, ← hs1]
      rfl
    · rw [hsec, ← hs1]
      rfl
    · rw [h] at hn
      cases hn
    · rw [h] at hr
      cases hr
      rw [← answerOf_congr (s := s) ((k.frame .tick (by decide)).trans htick)]
      exact (completeWith_delivered (k.canon c1) j _ 0 0 none).after (hout ▸ k.grows)

/-- A check leaves the objects that wait behind it. -/
theorem checkObject_queue {s : State} (c : s.Canonical) (o : SigObject) : (s.checkObject o).sec.queue = s.sec.queue := by
  cases o with
  | manifest b j =>
    refine SecKept.queue ?_
    unfold State.checkObject
    dsimp only
    split
    · exact (sigReject_secKept s _ _ _).trans (finishJob_secKept _ _ _)
    · exact manifestChecked_secKept s _ _
  | placement b j =>
    refine SecKept.queue ?_
    unfold State.checkObject
    dsimp only
    split
    · exact (sigReject_secKept s _ _ _).trans (complete_secKept _ _ _)
    · exact placementChecked_secKept s _ _
  | graft b ring j =>
    refine SecKept.queue ?_
    unfold State.checkObject
    dsimp only
    split
    · exact (sigReject_secKept s _ _ _).trans (complete_secKept _ _ _)
    · exact .ite (graftChecked_secKept s _ _ _) ((sigReject_secKept s _ _ _).trans (complete_secKept _ _ _))
  | firmware b slot j => exact (checkObject_firmware c b slot j).1

/-- The oldest signed object leaves the queue when it has been checked (R375, R381). -/
theorem sigChecked_pops {s : State} (c : s.Canonical) {o : SigObject} {rest : List SigObject} (h : s.sec.queue = o :: rest) :
    s.sigChecked.sec.queue = rest ∧ ∀ b slot j, o = .firmware b slot j → FirmwareAnswered s s.sigChecked b slot j := by
  have c1 : (s.modSec fun x => { x with queue := rest }).Canonical := canonical_modSec c _
  have hs : s.sigChecked = (s.modSec fun x => { x with queue := rest }).checkObject o := by
    unfold State.sigChecked
    rw [h]
  rw [hs]
  refine ⟨checkObject_queue c1 o, ?_⟩
  rintro b slot j rfl
  exact (checkObject_firmware c1 b slot j).2

/-! ### The obligation -/

/-- Settles O53: of each event the one step that sets what the statement names, and the frame of what follows it. -/
theorem calibrationAndWeightEventsAct : Obligations.CalibrationAndWeightEventsAct := by
  unfold Obligations.CalibrationAndWeightEventsAct
  refine ⟨fun b a reads s c hb hw hr => ?_, fun b reads s c hb hon hg href hr hm => ?_,
    fun k d f b cols rows s c hk hd hg hread hfit hcomp hcols hrows hgain hf hb => ?_, fun k d s c hrun hn => ?_,
    fun c rest s hq => ?_, fun o rest s c hq => ?_, fun s hl => ?_⟩
  · exact ⟨_, when_true (by simp only [hw, hr, hb]; rfl), refIsReady_ready c b reads⟩
  · refine ⟨_, when_true ?_, runEnds_bough c b reads⟩
    simp only [hb, hon, hg, href, hr, decide_true, Bool.true_and]
    exact List.all_eq_true.2 hm
  · subst hcols hrows
    obtain ⟨u, hu, hgains⟩ := fitIsDone_gains c hgain
    refine ⟨u, ?_, hgains⟩
    rw [← hu]
    refine when_true ?_
    simp [hk, hd, hg, hread, hfit, hcomp, hf, hb]
  · obtain ⟨u, hu, hadds⟩ := startRetake_adds hn
    refine ⟨u, ?_, hadds⟩
    rw [← hu]
    exact when_true (by simp [hrun, hn])
  · refine ⟨(s.convertChunk c).modWeights fun w => { w with chunks := rest }, ?_, rfl⟩
    have hs : s.chunkConverted = ((s.convertChunk c).modWeights fun w => { w with chunks := rest }).settle := by
      unfold State.chunkConverted
      rw [hq]
    rw [← hs]
    exact when_true (by rw [hq]; rfl)
  · exact ⟨_, when_true (by rw [hq]; rfl), sigChecked_pops c hq⟩
  · exact ⟨_, when_true hl, closeEpoch_over s⟩

end Sys2Proof.Machine

/-! PROOFS. Takes and cuts begin; chunks and attention records enter, and a generation that nothing uses is released (R137, R139, R142,
R147, R148, R150, R156). -/

namespace Sys2Proof.Machine

/-! ### What a descriptor's operation reads after its fetch -/

/-- Taking a descriptor from its ring changes the rings and the partition's turn alone: what depends on neither reads the same. -/
theorem advance_read {α : Type} {F : State → α} (h : ∀ (s : State) (P : Tbl Part) (R : Tbl Ring), F { s with parts := P, rings := R } = F s)
    (s : State) (r : RingId) : F (s.advance r) = F s := by
  unfold State.advance
  cases r
  all_goals exact h s _ _

@[simp] theorem advance_weights (s : State) (r : RingId) : (s.advance r).weights = s.weights :=
  advance_read (F := State.weights) (fun _ _ _ => rfl) s r

@[simp] theorem advance_gen? (s : State) (r : RingId) (image : Nat) : (s.advance r).gen? image = s.gen? image :=
  advance_read (F := fun u => u.gen? image) (fun _ _ _ => rfl) s r

@[simp] theorem advance_liveGen (s : State) (r : RingId) : (s.advance r).liveGen = s.liveGen :=
  advance_read (F := State.liveGen) (fun _ _ _ => rfl) s r

@[simp] theorem advance_isStaged (s : State) (r : RingId) (image : Nat) : (s.advance r).isStaged image = s.isStaged image :=
  advance_read (F := fun u => u.isStaged image) (fun _ _ _ => rfl) s r

@[simp] theorem advance_supplied (s : State) (r : RingId) (g : Gen) : (s.advance r).supplied g = s.supplied g :=
  advance_read (F := fun u => u.supplied g) (fun _ _ _ => rfl) s r

@[simp] theorem advance_hostTakeMats (s : State) (r : RingId) : (s.advance r).hostTakeMats = s.hostTakeMats :=
  advance_read (F := State.hostTakeMats) (fun _ _ _ => rfl) s r

@[simp] theorem advance_binding? (s : State) (r : RingId) (m : Nat) : (s.advance r).binding? m = s.binding? m :=
  advance_read (F := fun u => u.binding? m) (fun _ _ _ => rfl) s r

@[simp] theorem advance_imageInUse (s : State) (r : RingId) (image : Nat) : (s.advance r).imageInUse image = s.imageInUse image :=
  advance_read (F := fun u => u.imageInUse image) (fun _ _ _ => rfl) s r

@[simp] theorem advance_chunkStatus (s : State) (r : RingId) (b : Bytes) : (s.advance r).chunkStatus b = s.chunkStatus b :=
  advance_read (F := fun u => u.chunkStatus b) (fun _ _ _ => rfl) s r

@[simp] theorem advance_attnBad (s : State) (r : RingId) (image count : Nat) (b : Bytes) :
    attnBad (s.advance r) image count b = attnBad s image count b :=
  advance_read (F := fun u => attnBad u image count b) (fun _ _ _ => rfl) s r

/-! ### Takes and cuts begin (R147, R148, R150) -/

/-- The descriptor has been taken from its ring, its operation is in progress, and the weights have changed. -/
def State.begun (s : State) (f : Sys2Proof.Fetch) (w : Weights → Weights) : State :=
  ((s.advance f.ring).start (s.jobOf f)).modWeights w

theorem begun_started {s : State} (c : s.Canonical) (f : Sys2Proof.Fetch) (w : Weights → Weights) : Started s (s.begun f w) f where
  taken := congrArg Ring.pos (advance_ring c f.ring)
  job := List.mem_append_right _ List.mem_cons_self

theorem begun_sameBut (s : State) (f : Sys2Proof.Fetch) (w : Weights → Weights) :
    SameBut [.parts, .rings, .jobs, .weights] s (s.begun f w) :=
  (State.modWeights_moves (State.start_moves (State.advance_moves (Moves.refl _ s) (by decide)) (by decide)) (by decide)).frame

theorem begun_weights (s : State) (f : Sys2Proof.Fetch) (w : Weights → Weights) : (s.begun f w).weights = w s.weights :=
  congrArg w (advance_weights s f.ring)

/-- A host take as it is listed: LOADING, with its descriptor and the next take_id (R147). -/
def listTake (j : Job) (refresh : Bool) (image : Nat) (mats : List Nat) (w : Weights) : Weights :=
  { w with
    nextTake := w.nextTake + 1,
    takes := w.takes ++ [{
      id := w.nextTake, refresh := refresh, firmware := false, image := image, mats := mats, st := .loading, job := some j,
      inPlace := false, targets := [], left := 0, toSlow := [], toReturn := [] }] }

theorem hostTakeOf_begun (s : State) (f : Sys2Proof.Fetch) (refresh : Bool) (image : Nat) (mats : List Nat) :
    (s.advance f.ring).hostTakeOf (s.jobOf f) refresh image mats = (s.begun f (listTake (s.jobOf f) refresh image mats)).settle := rfl

theorem takeReplacement_begins {f : Sys2Proof.Fetch} {s : State} {g : Gen} (h : s.Accepted f) (hw : Instr.wf (.takeReplacement f) = true)
    (hmode : Fetch.bits f 64 2 = 1) (himage : Fetch.at f 12 4 ≠ 0) (hg : s.gen? (Fetch.at f 12 4) = some g) (hl : g.live = false)
    (hnew : ∀ x ∈ s.weights.takes, x.firmware = false → x.image ≠ Fetch.at f 12 4) (hfree : ∀ m ∈ s.supplied g, m.id ∉ s.hostTakeMats) :
    exec (.takeReplacement f) s = .next (s.begun f (listTake (s.jobOf f) false (Fetch.at f 12 4)
      (sortBy (fun a b => decide (a < b)) ((s.supplied g).map fun m => m.id)))).settle := by
  show s.descriptor "TAKE_REPLACEMENT" (Instr.wf (.takeReplacement f)) f _ = _
  have hbusy : ((s.weights.takes.any fun t => !t.firmware && t.image == Fetch.at f 12 4) ||
      s.hostTakeMats.any (sortBy (fun a b => decide (a < b)) ((s.supplied g).map fun m => m.id)).contains) = false := by
    rw [Bool.or_eq_false_iff, List.any_eq_false, List.any_eq_false]
    refine ⟨fun x hx => ?_, fun i hi hc => ?_⟩
    · simpa using hnew x hx
    · obtain ⟨m, hm, rfl⟩ := List.mem_map.1 (mem_sortBy.1 (List.contains_iff_mem.1 hc))
      exact hfree m hm hi
  rw [hw, descriptor_accepted h, takeReplacementEffect, ← hostTakeOf_begun]
  simp only [hmode, himage, hg, hl, hbusy, advance_gen?, advance_supplied, advance_weights, advance_hostTakeMats, ne_eq, not_true_eq_false,
    or_self, if_false, Bool.false_eq_true]

theorem takeRefresh_begins {f : Sys2Proof.Fetch} {s : State} {g : Gen} (h : s.Accepted f) (hw : Instr.wf (.takeRefresh f) = true)
    (hbuf : f.bufFault = false) (hg : s.liveGen = some g) {mats : List Nat}
    (hmats : mats = sortBy (fun a b => decide (a < b)) (distinct ((List.range (min (Fetch.at f 16 4) (f.buf.length / 4))).map fun k =>
      Bits.le f.buf (4 * k) 4)))
    (hbound : ∀ m ∈ mats, (s.binding? m).isSome = true) (hfree : ∀ m ∈ mats, m ∉ s.hostTakeMats) :
    exec (.takeRefresh f) s = .next (s.begun f (listTake (s.jobOf f) true g.imageId mats)).settle := by
  show s.descriptor "TAKE_REFRESH" (Instr.wf (.takeRefresh f)) f _ = _
  have hunbound : (mats.any fun m => (s.binding? m).isNone) = false :=
    List.any_eq_false.2 fun m hm => by simpa [Option.isSome_iff_ne_none] using hbound m hm
  have hbusy : mats.any s.hostTakeMats.contains = false :=
    List.any_eq_false.2 fun m hm hc => hfree m hm (List.contains_iff_mem.1 hc)
  rw [hw, descriptor_accepted h, takeRefreshEffect, ← hostTakeOf_begun]
  simp only [hbuf, hg, ← hmats, hunbound, hbusy, advance_liveGen, advance_binding?, advance_hostTakeMats, if_false, Bool.false_eq_true]

theorem cut_begins {f : Sys2Proof.Fetch} {s : State} (h : s.Accepted f) (hw : Instr.wf (.cut f) = true) (himage : Fetch.at f 8 4 ≠ 0)
    (hstaged : s.isStaged (Fetch.at f 8 4) = true) :
    exec (.cut f) s = .next (s.begun f fun w => { w with cuts := w.cuts ++ [(s.jobOf f, Fetch.at f 8 4)] }).settle := by
  show s.descriptor "CUT" (Instr.wf (.cut f)) f _ = _
  rw [hw, descriptor_accepted h, cutEffect, if_neg (by simp [himage, hstaged])]
  rfl

/-- Settles O27: each begins with one change of the weights, after which takes and cuts go on. That a refresh take's image_id may have
any value is the model's choice (log 73). -/
theorem takesAndCutsBegin : Obligations.TakesAndCutsBegin := by
  unfold Obligations.TakesAndCutsBegin
  refine ⟨fun f s g c h hw hmode himage hg hl hnew hfree => ?_, fun f s g mats c h hw hbuf hg hmats hbound hfree => ?_,
    fun f s c h hw himage hstaged => ?_⟩
  · exact ⟨_, takeReplacement_begins h hw hmode himage hg hl hnew hfree, begun_started c f _, begun_sameBut s f _, begun_weights s f _⟩
  · exact ⟨_, takeRefresh_begins h hw hbuf hg hmats hbound hfree, begun_started c f _, begun_sameBut s f _, begun_weights s f _⟩
  · exact ⟨_, cut_begins h hw himage hstaged, begun_started c f _, begun_sameBut s f _, begun_weights s f _⟩

/-! ### Generations -/

theorem gen?_of_gens {s t : State} (h : t.weights.gens = s.weights.gens) (image : Nat) : t.gen? image = s.gen? image := by
  unfold State.gen?
  rw [h]

theorem find?_map_of_image {gens : List Gen} {image : Nat} {f : Gen → Gen} (hf : ∀ g, (f g).imageId = g.imageId) :
    (gens.map fun g => if g.imageId == image then f g else g).find? (fun g => g.imageId == image) =
      (gens.find? fun g => g.imageId == image).map f := by
  induction gens with
  | nil => rfl
  | cons g gens ih =>
    by_cases h : g.imageId = image
    · simp [h, hf]
    · simpa [h] using ih

/-- A change of one generation that leaves its number. -/
theorem gen?_modGen_self (s : State) (image : Nat) {f : Gen → Gen} (hf : ∀ g, (f g).imageId = g.imageId) :
    (s.modGen image f).gen? image = (s.gen? image).map f := find?_map_of_image hf

theorem complete_weights (s : State) (j : Job) (st : Status) (r0 r1 : Nat) : (s.completeWith j st r0 r1 none).weights = s.weights :=
  (State.completeNone_moves (fl := [.rings, .counters, .jobs, .out]) (Moves.refl _ s) (by decide)).frame .weights (by decide)

/-- Every piece that an operation of the device may change, but the tick counter. -/
abbrev offClock : List Field := everyPiece.filter (· ≠ .tick)

/-- An operation that leaves the tick counter and then answers. -/
theorem Delivered.of_moves {s u : State} (c : s.Canonical) (hm : Moves offClock s u) (j : Job) (st : Status) :
    Delivered s (u.complete j st) (answerRing j.ring) (s.answerOf j st 0 0) := by
  rw [← answerOf_congr (hm.frame .tick (by decide))]
  exact (completeWith_delivered (hm.canon c) j st 0 0 none).after hm.grows

/-! ### LOAD_CHUNK (R137, R139) -/

/-- A chunk that its generation has not accepted joins what it has accepted. -/
theorem takeChunk_accepts {s : State} {b : Bytes} {g : Gen} (hst : s.chunkStatus b = none) (hg : s.gen? (chunkHdr b).image = some g)
    (hnew : (chunkHdr b).seq ∉ g.accepted) :
    (s.takeChunk b).1 = .ok ∧ ∃ x, (s.takeChunk b).2.gen? (chunkHdr b).image = some x ∧ x.accepted = g.accepted ++ [(chunkHdr b).seq] := by
  unfold State.takeChunk
  extract_lets hd
  rw [hst]
  dsimp -zeta only
  rw [hg]
  dsimp -zeta only
  rw [if_neg (by simpa using hnew)]
  extract_lets own s1 s2 s3
  refine ⟨rfl, ?_⟩
  have h1 : s1.gen? hd.image = _ := (gen?_modGen_self _ hd.image (by exact fun _ => rfl)).trans (congrArg (Option.map _) hg)
  have h2 : s2.weights.gens = s1.weights.gens := by
    unfold s2
    split <;> rfl
  have h3 : s3.weights = s2.weights :=
    (Moves.ite (l := [.counters, .links, .out]) (Moves.refl _ s2)
      (State.send_moves (State.count_moves (Moves.refl _ s2) (by decide)) (by decide))).frame .weights (by decide)
  exact ⟨_, (gen?_congr h3 _).trans ((gen?_of_gens h2 _).trans h1), rfl⟩

theorem loadChunk_accepts {f : Sys2Proof.Fetch} {s : State} {g : Gen} (c : s.Canonical) (h : s.Accepted f)
    (hw : Instr.wf (.loadChunk f) = true) (hbuf : f.bufFault = false) (hst : s.chunkStatus (loadedObject f) = none)
    (hg : s.gen? (chunkHdr (loadedObject f)).image = some g) (hnew : (chunkHdr (loadedObject f)).seq ∉ g.accepted) :
    ∃ t, exec (.loadChunk f) s = .next t ∧ Answered s t f .ok (chunkHdr (loadedObject f)).seq 0 ∧
      ∃ x, t.gen? (chunkHdr (loadedObject f)).image = some x ∧ x.accepted = g.accepted ++ [(chunkHdr (loadedObject f)).seq] := by
  obtain ⟨hok, x, hx, hacc⟩ := takeChunk_accepts (s := s.advance f.ring) ((advance_chunkStatus _ _ _).trans hst)
    ((advance_gen? _ _ _).trans hg) hnew
  have hm : Moves [.counters, .weights, .links, .out] (s.advance f.ring) ((s.advance f.ring).takeChunk (loadedObject f)).2 :=
    State.takeChunk_moves (Moves.refl _ _) (by decide)
  have hr : (((s.advance f.ring).takeChunk (loadedObject f)).2.ring f.ring).pos = (s.ring f.ring).pos + 1 := by
    rw [State.ring, hm.frame .rings (by decide)]
    exact congrArg Ring.pos (advance_ring c f.ring)
  refine ⟨_, ?_, answered_of h.toFetched (hm.canon (advance_canonical c _)) (advance_out s f.ring ▸ hm.grows)
    ((hm.frame .tick (by decide)).trans (advance_tick _ _)) hr, x, (gen?_congr (complete_weights _ _ _ _ _) _).trans hx, hacc⟩
  show s.descriptor "LOAD_CHUNK" (Instr.wf (.loadChunk f)) f _ = _
  rw [hw, descriptor_accepted h, loadChunkEffect, if_neg (by simp [hbuf])]
  dsimp only
  rw [hok]

/-! ### ATTN_SETUP (R156) -/

/-- The generation with the records added, in place of records that have passed from a base for the same layers. -/
def addRecords (rs : List (Attn × Bytes)) (g : Gen) : Gen :=
  { g with
    attn := (g.attn.filter fun a => !(rs.any fun r => r.1.layer == a.1.layer)) ++ rs,
    attnPassed := g.attnPassed.filter fun l => !(rs.any fun r => r.1.layer == l) }

theorem attnSetup_adds {f : Sys2Proof.Fetch} {s : State} (h : s.Accepted f) (hw : Instr.wf (.attnSetup f) = true)
    (hbuf : f.bufFault = false)
    (hgood : attnBad s (Fetch.at f 8 4) (Fetch.at f 12 4) (Bits.slice f.buf 0 (16 * Fetch.at f 12 4)) = false) :
    exec (.attnSetup f) s = .next ((((s.advance f.ring).modGen (Fetch.at f 8 4) (addRecords
      ((List.range (Fetch.at f 12 4)).map (attnRecord (Bits.slice f.buf 0 (16 * Fetch.at f 12 4)))))).settle).complete (s.jobOf f) .ok) := by
  show s.descriptor "ATTN_SETUP" (Instr.wf (.attnSetup f)) f _ = _
  rw [hw, descriptor_accepted h, attnSetupEffect, if_neg (by simp [hbuf])]
  dsimp only
  rw [advance_attnBad, if_neg (by simp [hgood])]
  rfl

theorem attnSetup_moves (s : State) (r : RingId) (image : Nat) (f : Gen → Gen) :
    Moves offClock s (((s.advance r).modGen image f).settle) :=
  State.settle_moves (State.modGen_moves (State.advance_moves (Moves.refl _ s) (by decide)) (by decide)) (by decide)

/-! ### RELEASE_IMAGE (R142) -/

/-- A generation that nothing uses has left: its takes ended, its heirs served, its CUTs answered. -/
def State.freed (s : State) (g : Gen) (image : Nat) : State :=
  let s := s.each (s.weights.takes.filter fun t => t.image == image) fun s t => s.failTake t .takeAborted
  let s := s.each (s.weights.gens.filter fun x => x.baseId == image) fun s x => s.inherit g x
  (s.dropGen image).cutsOf image

theorem freed_moves {r s : State} (h : Moves offClock r s) (g : Gen) (image : Nat) : Moves offClock r (s.freed g image) := by
  unfold State.freed
  extract_lets s1 s2
  have h1 : Moves offClock r s1 := h.each fun u t hu => State.failTake_moves hu (by decide)
  have h2 : Moves offClock r s2 := h1.each fun u x hu => State.inherit_moves hu (by decide)
  exact State.cutsOf_moves (State.dropGen_moves h2 (by decide)) (by decide)

/-- Answering CUTs leaves the generations. -/
theorem cutsOf_gens (s : State) (image : Nat) : (s.cutsOf image).weights.gens = s.weights.gens := by
  unfold State.cutsOf
  extract_lets gone
  have hm : Moves [.rings, .counters, .jobs, .out] _ _ :=
    (Moves.refl _ (s.modWeights fun w => { w with cuts := w.cuts.filter fun x => x.2 != image })).each (xs := gone)
      (f := fun u x => u.complete x.1 .takeAborted) fun u x hu => State.complete_moves hu (by decide)
  exact (congrArg Weights.gens (hm.frame .weights (by decide))).trans rfl

theorem gen?_dropGen (s : State) (image : Nat) : (s.dropGen image).gen? image = none :=
  List.find?_eq_none.2 fun g hg => by
    have := List.of_mem_filter hg
    simpa using this

theorem gen?_freed (s : State) (g : Gen) (image : Nat) : (s.freed g image).gen? image = none :=
  (gen?_of_gens (cutsOf_gens _ _) _).trans (gen?_dropGen _ _)

theorem releaseImage_frees {f : Sys2Proof.Fetch} {s : State} {g : Gen} (h : s.Accepted f) (hw : Instr.wf (.releaseImage f) = true)
    (himage : Fetch.at f 8 4 ≠ 0) (hg : s.gen? (Fetch.at f 8 4) = some g) (hunused : s.imageInUse (Fetch.at f 8 4) = false) :
    exec (.releaseImage f) s = .next (((s.advance f.ring).freed g (Fetch.at f 8 4)).complete (s.jobOf f) .ok) := by
  show s.descriptor "RELEASE_IMAGE" (Instr.wf (.releaseImage f)) f _ = _
  rw [hw, descriptor_accepted h, releaseImageEffect]
  simp only [advance_gen?, hg, advance_imageInUse, hunused, himage, if_false, Bool.false_eq_true]
  rfl

/-- Settles O28: a chunk joins what its generation has accepted before the chunk is queued or sent on; records join before takes go on;
a released generation is dropped after its takes have ended and its heirs have what they inherit. -/
theorem chunksAndRecordsEnter : Obligations.ChunksAndRecordsEnter := by
  unfold Obligations.ChunksAndRecordsEnter
  refine ⟨fun f s g c h hw hbuf hst hg hnew => loadChunk_accepts c h hw hbuf hst hg hnew, fun f s c h hw hbuf hgood => ?_,
    fun f s g c h hw himage hg hunused => ?_⟩
  · exact ⟨_, attnSetup_adds h hw hbuf hgood, .of_moves c (attnSetup_moves s f.ring _ _) (s.jobOf f) .ok, _, rfl, rfl⟩
  · have hm := freed_moves (State.advance_moves (r := f.ring) (Moves.refl offClock s) (by decide)) g (Fetch.at f 8 4)
    exact ⟨_, releaseImage_frees h hw himage hg hunused, .of_moves c hm (s.jobOf f) .ok,
      (gen?_congr (complete_weights _ _ _ _ _) _).trans (gen?_freed _ g _)⟩

end Sys2Proof.Machine

/-! PROOFS. A descriptor whose fetch is held stays in its ring (R182, R244, R249, R253, R355). -/

namespace Sys2Proof.Machine

/-- A command whose descriptor is held does what every descriptor command does; only an ARRAY_TEST that is fetched may wait for a gap. -/
theorem exec_descriptor_of_held {c : Instr} {f : Sys2Proof.Fetch} (h : Instr.descriptor? c = some f) {s : State}
    (hf : s.fetchHeld f = true) : ∃ row run, exec c s = s.descriptor row (Instr.wf c) f run := by
  cases c with
  | arrayTest g codes =>
    cases h
    exact ⟨_, _, if_neg (by simp [hf])⟩
  | _ => cases h <;> exact ⟨_, _, rfl⟩

/-- Settles O16: every descriptor command starts with the fetch, and a fetch that is held leaves marks and counters alone. -/
theorem heldDescriptorStays : Obligations.HeldDescriptorStays := by
  unfold Obligations.HeldDescriptorStays
  intro c f s hc hwf hring hserves hheld
  obtain ⟨row, run, hexec⟩ := exec_descriptor_of_held hc hheld
  obtain ⟨t, ht, hm⟩ := descriptor_held (row := row) (run := run) hring hserves hheld
  exact ⟨t, by rw [hexec, hwf, ht], hm.frame⟩

end Sys2Proof.Machine

/-! PROOFS. Work on calls writes records on outbound rings alone: the rings that bring descriptors stay as they are (R229, R246). -/

namespace Sys2Proof.Machine

theorem ringNo_ne_of_outbound {q r : RingId} (hq : inbound q = true) (he : ringExists q = true) (hr : inbound r = false) :
    ringNo q ≠ ringNo r := by
  cases q with
  | mq => cases r <;> simp [inbound, ringNo] at hr ⊢
  | sq p k =>
    have hk : k < 4 := by
      simp only [ringExists, Bool.and_eq_true, decide_eq_true_eq] at he
      exact he.2
    cases r <;> simp only [inbound, ringNo, ne_eq, reduceCtorEq] at hr ⊢ <;> omega
  | eq | cq p | tq p => cases hq

/-- From `s` to `t` the rings that bring descriptors stay as they are. -/
structure InboundKept (s t : State) : Prop where
  canon : s.Canonical → t.Canonical
  kept : s.Canonical → ∀ q, inbound q = true → ringExists q = true → t.ring q = s.ring q

namespace InboundKept
variable {r s t : State}

theorem refl (s : State) : InboundKept s s := ⟨id, fun _ _ _ _ => rfl⟩

theorem trans (h : InboundKept r s) (k : InboundKept s t) : InboundKept r t :=
  ⟨fun c => k.canon (h.canon c), fun c q hq he => (k.kept (h.canon c) q hq he).trans (h.kept c q hq he)⟩

theorem of_rings (hc : s.Canonical → t.Canonical) (h : t.rings = s.rings) : InboundKept s t :=
  ⟨hc, fun _ q _ _ => by rw [State.ring, h]; rfl⟩

/-- Every piece but the rings. -/
abbrev quietFields : List Field := (.free :: .pending :: everyPiece).filter (· ≠ .rings)

theorem of_moves (h : Moves quietFields s t) : InboundKept s t := .of_rings h.canon (h.frame .rings (by decide))

theorem quiet (h : InboundKept r s) (k : Moves quietFields s t) : InboundKept r t := h.trans (of_moves k)

theorem of_onRing {q : RingId} (hq : inbound q = false) (hc : s.Canonical → OnRing q s t) : InboundKept s t :=
  ⟨fun c => (hc c).canon, fun c _ hi he => (hc c).others _ (ringNo_ne_of_outbound hi he hq)⟩

theorem ite {c : Prop} [Decidable c] (h : InboundKept r s) (k : InboundKept r t) : InboundKept r (if c then s else t) := by
  split
  · exact h
  · exact k

theorem foldl {α : Type} {f : State → α → State} (hf : ∀ s x, InboundKept s (f s x)) :
    ∀ (xs : List α) (s : State), InboundKept s (xs.foldl f s)
  | [], s => refl s
  | x :: xs, s => (hf s x).trans (foldl hf xs (f s x))

theorem each {α : Type} {f : State → α → State} (s : State) (xs : List α) (hf : ∀ s x, InboundKept s (f s x)) :
    InboundKept s (s.each xs f) := foldl hf xs s

end InboundKept

theorem inbound_answerRing (r : RingId) : inbound (answerRing r) = false := by
  cases r <;> rfl

section
variable (s : State)

theorem writeRecord_inbound {r : RingId} (hr : inbound r = false) (w : Waiting) : InboundKept s (s.writeRecord r w) :=
  .of_onRing hr fun c => writeRecord_onRing c r w

theorem completeWith_inbound (j : Job) (st : Status) (r0 r1 : Nat) (frees : Option Nat) :
    InboundKept s (s.completeWith j st r0 r1 frees) :=
  .of_onRing (inbound_answerRing j.ring) fun c => completeWith_onRing c j st r0 r1 frees

theorem completeAll_inbound (js : List Job) (st : Status) : InboundKept s (s.completeAll js st) :=
  .foldl (fun s j => completeWith_inbound s j st 0 0 none) js s

theorem notice_inbound (p subject code : Nat) (d : Bytes) (premium : Bool) : InboundKept s (s.notice p subject code d premium) :=
  writeRecord_inbound s rfl _

theorem event_inbound (e : EventRec) : InboundKept s (s.event e) := by
  unfold State.event
  dsimp only
  split
  · split
    · exact .of_moves (State.modSec_moves (Moves.refl _ s) (by decide))
    · exact writeRecord_inbound s rfl _
  · exact writeRecord_inbound s rfl _

/-! ### What a call holds -/

theorem watchFrames_inbound (stack : Nat) : InboundKept s (s.watchFrames stack) := by
  have hm : ∀ b : Mem → BitVec 8, Moves InboundKept.quietFields s (s.modMem fun m => { m with lowRaised := b m }) := fun b =>
    Moves.modMem (Moves.refl _ s) id (by decide)
  unfold State.watchFrames
  split
  · split
    · exact .refl s
    · exact (InboundKept.of_moves (hm _)).trans (event_inbound _ _)
  · exact .of_moves (hm _)

theorem freeRun_inbound (stack frame : Nat) : InboundKept s (s.freeRun stack frame) := by
  unfold State.freeRun
  refine (InboundKept.of_moves ?_).trans (watchFrames_inbound _ stack)
  exact State.count_moves (Moves.modMem (Moves.refl _ s) id (by decide)) (by decide)

theorem freeOld_inbound : InboundKept s s.freeOld := by
  unfold State.freeOld
  extract_lets held gone
  exact (InboundKept.of_moves (Moves.modMem (Moves.refl _ s) id (by decide))).trans (.each _ _ fun s v => freeRun_inbound s _ _)

theorem freePages_inbound (c : Nat) : InboundKept s (s.freePages c) := .each s _ fun s _ => freeRun_inbound s _ _

theorem freeGrafts_inbound : InboundKept s s.freeGrafts := by
  unfold State.freeGrafts
  extract_lets gone s1
  have h1 : InboundKept s s1 :=
    .of_rings (fun k => ⟨k.parts, k.rings, k.counters, k.calls, k.customers, k.tiles, k.boughs, k.calSave, k.links, k.mem⟩) rfl
  exact h1.trans (.each s1 gone fun s g => notice_inbound s _ _ _ _ _)

theorem unpinGraft_inbound (handle gen : Nat) : InboundKept s (s.unpinGraft handle gen) := by
  unfold State.unpinGraft
  refine .trans ?_ (freeGrafts_inbound _)
  exact .of_rings (fun k => ⟨k.parts, k.rings, k.counters, k.calls, k.customers, k.tiles, k.boughs, k.calSave, k.links, k.mem⟩) rfl

theorem releaseHoldings_inbound (c : Nat) : InboundKept s (s.releaseHoldings c) := by
  unfold State.releaseHoldings
  extract_lets e s1 s2
  have h2 : InboundKept s s2 := (freePages_inbound s c).quiet (State.modPart_moves (Moves.refl _ s1) (by decide))
  exact .ite (h2.trans (unpinGraft_inbound s2 _ _)) h2

/-! ### The end of a call -/

theorem forget_inbound (mine : WorkRef → Bool) : InboundKept s (s.forget mine) := by
  unfold State.forget
  refine .trans ?_ (freeOld_inbound _)
  exact .of_rings (fun k => ⟨k.parts, k.rings, k.counters, k.calls, k.customers, k.tiles, k.boughs, k.calSave, k.links, k.mem⟩) rfl

theorem dropWork_inbound (c : Nat) : InboundKept s (s.dropWork c) := by
  refine ⟨(State.dropWork_moves (fl := .free :: everyPiece) (Moves.refl _ s) (by decide)).canon, fun k q hq he => ?_⟩
  unfold State.dropWork
  extract_lets ids s1 s2
  have k1 : s1.Canonical := ⟨k.parts, k.rings, k.counters, k.calls, k.customers, k.tiles, k.boughs, k.calSave, k.links, k.mem⟩
  have h2 : s2.ring q = s1.ring q := (forget_inbound s1 _).kept k1 q hq he
  split
  · exact h2
  · exact h2

theorem setCall_inbound (c : Nat) (e : Entry) : InboundKept s { s with calls := Tbl.set {} c e s.calls } :=
  .of_rings (fun k => canonical_setCall k c e) rfl

theorem freeWritten_inbound : InboundKept s s.freeWritten := by
  unfold State.freeWritten
  refine .each s _ fun s c => ?_
  exact ((releaseHoldings_inbound s c).trans (setCall_inbound _ c {})).quiet (State.afterFree_moves (Moves.refl _ _) (by decide))

theorem releaseEntry_inbound (c : Nat) : InboundKept s (s.releaseEntry c) := by
  unfold State.releaseEntry
  extract_lets e s1
  refine .ite (.refl s) (.quiet ?_ (State.afterFree_moves (Moves.refl _ _) (by decide)))
  exact ((dropWork_inbound s c).trans (releaseHoldings_inbound _ c)).trans (setCall_inbound s1 c {})

theorem endCall_inbound (c : Nat) (st : Status) (from_ : Option Port) : InboundKept s (s.endCall c st from_) := by
  unfold State.endCall
  extract_lets e s1 s2 s3 held s4 s5 s6
  have h1 : InboundKept s s1 := .of_moves (State.journal_moves (Moves.refl _ s) (by decide))
  have h2 : InboundKept s s2 :=
    (h1.trans (dropWork_inbound s1 c)).quiet (State.countEnd_moves (Moves.refl _ _) (by decide))
  have h4 : InboundKept s s4 := (h2.quiet (State.tellChain_moves (Moves.refl _ s2) (by decide))).trans (setCall_inbound s3 c _)
  have h5 : InboundKept s s5 := by
    unfold s5
    split
    · exact h4
    · exact h4.trans (completeWith_inbound s4 _ _ _ _ _)
  have h6 : InboundKept s s6 := .ite (h5.trans (unpinGraft_inbound s5 _ _)) (h5.trans (freeWritten_inbound s5))
  exact .ite (.refl s) ((h6.trans (completeAll_inbound s6 _ _)).quiet (State.afterFree_moves (Moves.refl _ _) (by decide)))

theorem parkReady_inbound (cust : Nat) : InboundKept s (s.parkReady cust) := by
  unfold State.parkReady
  refine .ite (.each s _ fun s c => ?_) (.refl s)
  exact .ite (endCall_inbound s c _ _)
    (.of_moves (State.modCall_moves (State.count_moves (Moves.refl _ s) (by decide)) (by decide)))

end

/-! ### Answers -/

/-- The descriptor has been taken from its ring, and what followed has left the inbound rings. -/
theorem taken_of_inbound {s u : State} {f : Sys2Proof.Fetch} (c : s.Canonical) (h : s.Fetched f)
    (hu : InboundKept (s.advance f.ring) u) : (u.ring f.ring).pos = (s.ring f.ring).pos + 1 := by
  rw [hu.kept (advance_canonical c _) _ (Fetched.inbound h).1 (Fetched.inbound h).2, advance_ring c]

/-- An operation that leaves the tick and the inbound rings alone and then answers. -/
theorem answered_of_inbound {s u : State} {f : Sys2Proof.Fetch} {st : Status} (c : s.Canonical) (h : s.Fetched f)
    (hm : Moves offClock (s.advance f.ring) u) (hu : InboundKept (s.advance f.ring) u) :
    Answered s (u.complete (s.jobOf f) st) f st 0 0 :=
  answered_of h (hu.canon (advance_canonical c _)) ((advance_out s f.ring).symm ▸ hm.grows)
    ((hm.frame .tick (by decide)).trans (advance_tick s _)) (taken_of_inbound c h hu)

end Sys2Proof.Machine

/-! PROOFS. A customer record is set (R200, R201, R203). -/

namespace Sys2Proof.Machine

@[simp] theorem advance_customers (s : State) (r : RingId) : (s.advance r).customers = s.customers :=
  advance_read (F := State.customers) (fun _ _ _ => rfl) s r

@[simp] theorem advance_now (s : State) (r : RingId) : (s.advance r).now = s.now :=
  advance_read (F := State.now) (fun _ _ _ => rfl) s r

theorem part_modPart_self {s : State} (c : s.Canonical) (p : Nat) (g : Part → Part) : (s.modPart p g).part p = g (s.part p) :=
  Tbl.get_update_self (Tbl.rising_of_wf c.parts)

theorem part_modPart_ne {s : State} (c : s.Canonical) {p q : Nat} (h : p ≠ q) (g : Part → Part) : (s.modPart q g).part p = s.part p :=
  Tbl.get_update_ne h (Tbl.rising_of_wf c.parts)

/-- Taking a descriptor changes of a partition whose turn it is alone. -/
theorem advance_part {α : Type} {g : Part → α} (hg : ∀ (x : Part) turn stops, g { x with turn := turn, premiumStopped := stops } = g x)
    {s : State} (c : s.Canonical) (r : RingId) (p : Nat) : g ((s.advance r).part p) = g (s.part p) := by
  unfold State.advance
  extract_lets s1
  have c1 : s1.Canonical := (modRing_onRing c r _).canon
  split
  · next q k =>
    by_cases h : p = q
    · subst h
      rw [State.takeTurn, part_modPart_self c1]
      exact hg _ _ _
    · rw [State.takeTurn, part_modPart_ne c1 h]
      rfl
  · rfl

theorem advance_groupOwner {s : State} (c : s.Canonical) (r : RingId) (cust : Nat) : (s.advance r).groupOwner cust = s.groupOwner cust := by
  unfold State.groupOwner
  simp only [advance_part (g := Part.enabled) (fun _ _ _ => rfl) c, advance_part (g := Part.groups) (fun _ _ _ => rfl) c]

theorem advance_inGroups {s : State} (c : s.Canonical) (r : RingId) (p cust : Nat) : (s.advance r).inGroups p cust = s.inGroups p cust := by
  rw [State.inGroups, State.inGroups, advance_groupOwner c]

theorem advance_budgetOwned {s : State} (c : s.Canonical) (f : Sys2Proof.Fetch) (r : RingId) (cust : Nat) :
    budgetOwned f (s.advance r) cust = budgetOwned f s cust := by
  unfold budgetOwned
  simp only [advance_inGroups c, advance_groupOwner c]

/-! ### Customer records -/

theorem customer_congr {s t : State} (h : t.customers = s.customers) (k : Nat) : t.customer k = s.customer k := by
  rw [State.customer, h]
  rfl

theorem customer_modCustomer_self {s : State} (c : s.Canonical) (k : Nat) (g : Customer → Customer) :
    (s.modCustomer k g).customer k = g (s.customer k) := Tbl.get_update_self (Tbl.rising_of_wf c.customers)

theorem customer_modCustomer_ne {s : State} (c : s.Canonical) {j k : Nat} (h : j ≠ k) (g : Customer → Customer) :
    (s.modCustomer k g).customer j = s.customer j := Tbl.get_update_ne h (Tbl.rising_of_wf c.customers)

/-- Refills leave what a BUDGET_SET writes. -/
theorem refilled_valid (c : Customer) (now : Nat) : (State.refilled c now).valid = c.valid := by
  unfold State.refilled
  split <;> rfl

theorem budgetWritten_level_of_invalid (f : Sys2Proof.Fetch) {old : Customer} (h : old.valid = false) (now : Nat) :
    (budgetWritten f old now).level = ((Fetch.at f 28 4 * 256 : Nat) : Int) := by
  unfold budgetWritten
  extract_lets cap iv x
  exact if_neg (by simp [x, refilled_valid, h])

theorem budgetWritten_nextRefill_of_invalid (f : Sys2Proof.Fetch) {old : Customer} (h : old.valid = false) (now : Nat) :
    (budgetWritten f old now).nextRefill = now + Fetch.at f 40 6 := by
  unfold budgetWritten
  extract_lets cap iv x
  exact if_neg (by simp [x, refilled_valid, h])

theorem budgetWritten_level_of_valid (f : Sys2Proof.Fetch) {old : Customer} (h : old.valid = true) (now : Nat) :
    (budgetWritten f old now).level = min (State.refilled old now).level ((Fetch.at f 28 4 * 256 : Nat) : Int) := by
  unfold budgetWritten
  extract_lets cap iv x
  exact if_pos (by simp [x, refilled_valid, h])

/-! ### BUDGET_SET (R203) -/

/-- The customer record has been written, and the calls of the customer leave PARKED or READY as its level asks (R202). -/
def State.budgetApplied (s : State) (f : Sys2Proof.Fetch) : State :=
  ((s.modCustomer (Fetch.at f 8 2) fun c => budgetWritten f c s.now).unpark (Fetch.at f 8 2)).parkReady (Fetch.at f 8 2)

theorem budgetSet_next {f : Sys2Proof.Fetch} {s : State} (c : s.Canonical) (h : s.Accepted f) (hw : Instr.wf (.budgetSet f) = true)
    (hiv : Fetch.at f 40 6 ≠ 0) (hres : budgetReserved f = false) (hown : budgetOwned f s (Fetch.at f 8 2) = true) :
    exec (.budgetSet f) s = .next (((s.advance f.ring).budgetApplied f).complete (s.jobOf f) .ok) := by
  show s.descriptor "BUDGET_SET" (Instr.wf (.budgetSet f)) f _ = _
  rw [hw, descriptor_accepted h, budgetSetEffect, if_neg (by simp [hiv, hres, advance_budgetOwned c, hown])]
  rfl

section
variable (s : State) (f : Sys2Proof.Fetch)

theorem budgetApplied_moves : Moves offClock s (s.budgetApplied f) :=
  State.parkReady_moves (State.unpark_moves (State.modCustomer_moves (Moves.refl _ s) (by decide)) (by decide)) (by decide)

theorem budgetApplied_inbound : InboundKept s (s.budgetApplied f) :=
  (InboundKept.of_moves (State.unpark_moves (State.modCustomer_moves (Moves.refl _ s) (by decide)) (by decide))).trans
    (parkReady_inbound _ _)

theorem budgetApplied_customers :
    (s.budgetApplied f).customers = (s.modCustomer (Fetch.at f 8 2) fun c => budgetWritten f c s.now).customers :=
  (State.parkReady_moves (fl := everyPiece.filter (· ≠ .customers)) (State.unpark_moves (Moves.refl _ _) (by decide))
    (by decide)).frame .customers (by decide)

end

theorem complete_customers (s : State) (j : Job) (st : Status) : (s.complete j st).customers = s.customers :=
  (State.complete_moves (fl := [.rings, .counters, .jobs, .out]) (Moves.refl _ s) (by decide)).frame .customers (by decide)

/-- After a BUDGET_SET its record is the written one, and no other has changed. -/
theorem budgetSet_customer {s : State} (c : s.Canonical) (f : Sys2Proof.Fetch) (j : Job) (st : Status) (k : Nat) :
    (((s.advance f.ring).budgetApplied f).complete j st).customer k =
      if k = Fetch.at f 8 2 then budgetWritten f (s.customer k) s.now else s.customer k := by
  rw [customer_congr ((complete_customers _ j st).trans (budgetApplied_customers _ f))]
  split
  · next h => rw [h, customer_modCustomer_self (advance_canonical c _), advance_now, customer_congr (advance_customers s _)]
  · next h => rw [customer_modCustomer_ne (advance_canonical c _) h, customer_congr (advance_customers s _)]

/-- Settles O22: the written record, and the calls that follow its level. -/
theorem budgetsAreSet : Obligations.BudgetsAreSet := by
  unfold Obligations.BudgetsAreSet
  intro f s c h hw hiv hres hown
  have hk := budgetSet_customer c f (s.jobOf f) .ok
  refine ⟨_, budgetSet_next c h hw hiv hres hown,
    answered_of_inbound c h.toFetched (budgetApplied_moves _ f) (budgetApplied_inbound _ f), fun k hne => (hk k).trans (if_neg hne), ?_⟩
  rw [hk, if_pos rfl]
  exact ⟨rfl, rfl, rfl, rfl, rfl, rfl,
    fun hv => ⟨budgetWritten_level_of_invalid f hv _, budgetWritten_nextRefill_of_invalid f hv _⟩,
    fun hv => budgetWritten_level_of_valid f hv _⟩

end Sys2Proof.Machine

/-! PROOFS. CANCEL ends or marks a call, RELEASE_CALL frees its entry (R198, R199). -/

namespace Sys2Proof.Machine

/-! ### The call that a descriptor names -/

@[simp] theorem advance_calls (s : State) (r : RingId) : (s.advance r).calls = s.calls :=
  advance_read (F := State.calls) (fun _ _ _ => rfl) s r

@[simp] theorem advance_steps (s : State) (r : RingId) : (s.advance r).steps = s.steps :=
  advance_read (F := State.steps) (fun _ _ _ => rfl) s r

@[simp] theorem advance_call (s : State) (r : RingId) (c : Nat) : (s.advance r).call c = s.call c :=
  advance_read (F := fun u => u.call c) (fun _ _ _ => rfl) s r

@[simp] theorem advance_findCall (s : State) (r : RingId) (p tag : Nat) (ok : Entry → Bool) :
    (s.advance r).findCall p tag ok = s.findCall p tag ok :=
  advance_read (F := fun u => u.findCall p tag ok) (fun _ _ _ => rfl) s r

/-- The entry that a search finds satisfies its condition. -/
theorem findCall_spec {s : State} (k : s.Canonical) {p tag c : Nat} {ok : Entry → Bool} (h : s.findCall p tag ok = some c) :
    (s.call c).state ≠ .free ∧ ok (s.call c) = true := by
  obtain ⟨⟨i, e⟩, hf, rfl⟩ := Option.map_eq_some_iff.1 h
  have hp := List.find?_some hf
  have he : s.call i = e := get_of_mem (Tbl.rising_of_wf k.calls) (List.mem_of_find?_eq_some hf)
  simp only [Bool.and_eq_true, decide_eq_true_eq] at hp
  obtain ⟨⟨-, hst⟩, hok⟩ := hp
  rw [he]
  exact ⟨hst, hok⟩

theorem actsAtOnce_congr {s t : State} {c : Nat} (hst : (t.call c).state = (s.call c).state) (hs : t.steps = s.steps) :
    t.actsAtOnce c = s.actsAtOnce c := by
  rw [State.actsAtOnce, State.actsAtOnce, State.stepsOf, State.stepsOf, hst, hs]

/-! ### What the end of a call leaves in flight -/

theorem Moves.setCall (s : State) (c : Nat) (e : Entry) : Moves [.calls] s { s with calls := Tbl.set {} c e s.calls } where
  frame f hf := by
    cases f with
    | calls => exact absurd List.mem_cons_self hf
    | _ => rfl
  canon k := canonical_setCall k c e
  fit := id
  grows := List.prefix_rfl

/-- The end of a call drops its work; what follows leaves every other step, product and batch (R199, R320). -/
theorem endCall_drops (s : State) {c : Nat} (st : Status) (from_ : Option Port)
    (hd : ¬((decide ((s.call c).state = .free) || (s.call c).ended) = true)) :
    ∃ u : State, Moves [.counters, .links, .out] s u ∧
      Moves [.parts, .rings, .counters, .jobs, .calls, .grafts, .mem, .links, .sec, .out] (u.dropWork c) (s.endCall c st from_) := by
  unfold State.endCall
  rw [if_neg hd]
  extract_lets s1 s2 s3 held s4 s5 s6
  refine ⟨s1, State.journal_moves (Moves.refl _ s) (by decide), ?_⟩
  have h3 : Moves [.parts, .rings, .counters, .jobs, .calls, .grafts, .mem, .links, .sec, .out] (s1.dropWork c) s3 :=
    State.tellChain_moves (State.countEnd_moves (Moves.refl _ _) (by decide)) (by decide)
  have h4 := (Moves.setCall s3 c (if held then State.heldEntry (s.call c) else State.endedEntry (s.call c))).then h3 (by decide)
  have h5 : Moves [.parts, .rings, .counters, .jobs, .calls, .grafts, .mem, .links, .sec, .out] (s1.dropWork c) s5 := by
    unfold s5
    split
    · exact h4
    · exact State.completeWith_moves h4 (by decide)
  have h6 : Moves [.parts, .rings, .counters, .jobs, .calls, .grafts, .mem, .links, .sec, .out] (s1.dropWork c) s6 :=
    Moves.ite (State.unpinGraft_moves h5 (by decide)) (State.freeWritten_moves h5 (by decide))
  exact State.afterFree_moves (State.completeAll_moves h6 (by decide)) (by decide)

theorem dropWork_steps (s : State) (c : Nat) : (s.dropWork c).steps = s.steps.filter fun x => x.call != c := by
  unfold State.dropWork
  extract_lets ids s1 s2
  have h2 : s2.steps = s1.steps := (State.forget_moves (fl := (.free :: everyPiece).filter (· ≠ .steps)) (Moves.refl _ s1)
    (by decide)).frame .steps (by decide)
  split <;> exact h2

theorem endCall_steps (s : State) {c : Nat} (st : Status) (from_ : Option Port)
    (hd : ¬((decide ((s.call c).state = .free) || (s.call c).ended) = true)) :
    (s.endCall c st from_).steps = s.steps.filter fun x => x.call != c := by
  obtain ⟨u, hu, hm⟩ := endCall_drops s st from_ hd
  rw [hm.frame .steps (by decide), dropWork_steps, hu.frame .steps (by decide)]

/-! ### CANCEL (R198) -/

/-- A CANCEL has been taken from its ring and noted in its call. -/
def State.cancelNoted (s : State) (f : Sys2Proof.Fetch) (c : Nat) : State :=
  ((s.advance f.ring).start (s.jobOf f)).modCall c fun e => { e with cancels := e.cancels ++ [s.jobOf f], cancelled := true }

section
variable (s : State) (f : Sys2Proof.Fetch) (c : Nat)

theorem cancelNoted_moves : Moves [.counters, .jobs, .calls, .links, .out] (s.advance f.ring) (s.cancelNoted f c) :=
  State.modCall_moves (State.start_moves (Moves.refl _ _) (by decide)) (by decide)

theorem cancelNoted_call {s : State} (k : s.Canonical) : (s.cancelNoted f c).call c =
    { s.call c with cancels := (s.call c).cancels ++ [s.jobOf f], cancelled := true } := by
  have k1 : ((s.advance f.ring).start (s.jobOf f)).Canonical :=
    (State.start_moves (fl := [.jobs]) (Moves.refl _ _) (by decide)).canon (advance_canonical k _)
  have hc : ((s.advance f.ring).start (s.jobOf f)).call c = s.call c := advance_call s f.ring c
  rw [State.cancelNoted, call_modCall_self k1, hc]

theorem cancelNoted_jobs : s.jobOf f ∈ (s.cancelNoted f c).jobs := by
  have h : (s.cancelNoted f c).jobs = ((s.advance f.ring).start (s.jobOf f)).jobs :=
    (State.modCall_moves (fl := [.counters, .calls, .links, .out]) (Moves.refl _ _) (by decide)).frame .jobs (by decide)
  rw [h]
  exact List.mem_append_right _ List.mem_cons_self

theorem cancelNoted_actsAtOnce {s : State} (k : s.Canonical) : (s.cancelNoted f c).actsAtOnce c = s.actsAtOnce c :=
  actsAtOnce_congr (by rw [cancelNoted_call f c k])
    (((cancelNoted_moves s f c).frame .steps (by decide)).trans (advance_steps s f.ring))

end

theorem cancel_next {f : Sys2Proof.Fetch} {s : State} {p k c : Nat} (ks : s.Canonical) (h : s.Accepted f)
    (hw : Instr.wf (.cancel f) = true) (hr : f.ring = .sq p k) (hc : s.findCall p (Fetch.at f 8 4) State.liveEntry = some c) :
    exec (.cancel f) s = .next (if s.actsAtOnce c then (s.cancelNoted f c).endCall c .cancelled none
      else if (s.cancelNoted f c).isLast then s.cancelNoted f c
      else (s.cancelNoted f c).send .d 2 (.callCtrl (.cancel ((s.cancelNoted f c).call c).partition ((s.cancelNoted f c).call c).tag))) := by
  show s.descriptor "CANCEL" (Instr.wf (.cancel f)) f _ = _
  have hfind : ((ringPart f.ring).bind fun p => (s.advance f.ring).findCall p (Fetch.at f 8 4) State.liveEntry) = some c := by
    rw [hr]
    exact (advance_findCall s _ p _ _).trans hc
  rw [hw, descriptor_accepted h, cancelEffect, hfind, ← cancelNoted_actsAtOnce f c ks]
  rfl

theorem cancel_ends {f : Sys2Proof.Fetch} {s : State} {c : Nat} (k : s.Canonical) (hlive : State.liveEntry (s.call c) = true)
    (hst : (s.call c).state ≠ .free) :
    Over (((s.cancelNoted f c).endCall c .cancelled none).call c) ∧
      ∀ x ∈ ((s.cancelNoted f c).endCall c .cancelled none).steps, x.call ≠ c := by
  refine ⟨endCall_over ((cancelNoted_moves s f c).canon (advance_canonical k _)) c (by decide) none, fun x hx => ?_⟩
  have hended : (s.call c).ended = false := by
    simp only [State.liveEntry, Bool.and_eq_true, Bool.not_eq_true'] at hlive
    exact hlive.1
  rw [endCall_steps _ _ _ (by rw [cancelNoted_call f c k]; simp [hst, hended])] at hx
  simpa using (List.mem_filter.1 hx).2

theorem cancel_marks {f : Sys2Proof.Fetch} {s t : State} {c : Nat} (k : s.Canonical) (h : s.Fetched f)
    (ht : Moves [.counters, .links, .out] (s.cancelNoted f c) t) : Started s t f ∧ (t.call c).cancelled = true := by
  have hi : InboundKept (s.advance f.ring) t :=
    (InboundKept.of_moves ((cancelNoted_moves s f c).mono (by decide))).quiet (ht.mono (by decide))
  refine ⟨⟨taken_of_inbound k h hi, ?_⟩, ?_⟩
  · rw [ht.frame .jobs (by decide)]
    exact cancelNoted_jobs s f c
  · rw [call_congr (ht.frame .calls (by decide)), cancelNoted_call f c k]

/-! ### RELEASE_CALL (R199) -/

theorem empty_settled : Settled (· = ({} : Entry)) where
  freed _ _ _ := rfl
  charged e he hq := by
    rw [he] at hq
    cases hq

/-- An entry that is released is empty. -/
theorem releaseEntry_empties {s : State} (k : s.Canonical) {c : Nat} (h : (s.call c).state ≠ .free) : (s.releaseEntry c).call c = {} := by
  unfold State.releaseEntry
  extract_lets e s1
  rw [if_neg h]
  have k1 : s1.Canonical :=
    (State.releaseHoldings_moves (fl := .free :: everyPiece) (State.dropWork_moves (Moves.refl _ s) (by decide)) (by decide)).canon k
  exact (afterFree_stays _ empty_settled _).kept (canonical_setCall k1 c {}) (call_setCall_self k1 c {})

/-- The chain has been told of the end of a call, and its entry is released. -/
def State.calledOff (s : State) (c : Nat) : State :=
  (s.tellChain none (.ended (s.call c).partition (s.call c).tag 0)).releaseEntry c

theorem releaseCall_next {f : Sys2Proof.Fetch} {s : State} {p k c : Nat} (h : s.Accepted f) (hw : Instr.wf (.releaseCall f) = true)
    (hr : f.ring = .sq p k) (hc : s.findCall p (Fetch.at f 8 4) (fun e => decide (e.state = .held)) = some c) :
    exec (.releaseCall f) s = .next (((s.advance f.ring).calledOff c).complete (s.jobOf f) .ok) := by
  show s.descriptor "RELEASE_CALL" (Instr.wf (.releaseCall f)) f _ = _
  have hfind : ((ringPart f.ring).bind fun p => (s.advance f.ring).findCall p (Fetch.at f 8 4) fun e => decide (e.state = .held)) =
      some c := by
    rw [hr]
    exact (advance_findCall s _ p _ _).trans hc
  rw [hw, descriptor_accepted h, releaseCallEffect, hfind]
  rfl

theorem calledOff_moves (s : State) (c : Nat) : Moves offClock s (s.calledOff c) :=
  State.releaseEntry_moves (State.tellChain_moves (Moves.refl _ s) (by decide)) (by decide)

theorem calledOff_inbound (s : State) (c : Nat) : InboundKept s (s.calledOff c) :=
  (InboundKept.of_moves (State.tellChain_moves (Moves.refl _ s) (by decide))).trans (releaseEntry_inbound _ c)

theorem calledOff_empties {s : State} (k : s.Canonical) {c : Nat} (h : (s.call c).state ≠ .free) : (s.calledOff c).call c = {} := by
  have hm : Moves [.counters, .links, .out] s (s.tellChain none (.ended (s.call c).partition (s.call c).tag 0)) :=
    State.tellChain_moves (Moves.refl _ s) (by decide)
  refine releaseEntry_empties (hm.canon k) ?_
  rwa [call_congr (hm.frame .calls (by decide))]

theorem complete_calls (s : State) (j : Job) (st : Status) : (s.complete j st).calls = s.calls :=
  (State.complete_moves (fl := [.rings, .counters, .jobs, .out]) (Moves.refl _ s) (by decide)).frame .calls (by decide)

/-- Settles O24: a call that is ended keeps no step, one that is marked keeps its descriptor, and a released entry is empty. -/
theorem callsAreCancelledAndReleased : Obligations.CallsAreCancelledAndReleased := by
  unfold Obligations.CallsAreCancelledAndReleased
  refine ⟨fun f s p k c ks h hw hr hc => ⟨_, cancel_next ks h hw hr hc, fun ha => ?_, fun ha => ?_⟩,
    fun f s p k c ks h hw hr hc => ⟨_, releaseCall_next h hw hr hc,
      answered_of_inbound ks h.toFetched (calledOff_moves _ c) (calledOff_inbound _ c), ?_⟩⟩
  · obtain ⟨hst, hlive⟩ := findCall_spec ks hc
    rw [if_pos ha]
    exact cancel_ends ks hlive hst
  · rw [if_neg (by simp [ha])]
    exact cancel_marks ks h.toFetched (Moves.ite (Moves.refl _ _) (State.send_moves (Moves.refl _ _) (by decide)))
  · rw [call_congr (complete_calls _ _ _)]
    exact calledOff_empties (advance_canonical ks _) (by rw [advance_call]; exact (findCall_spec ks hc).1)

end Sys2Proof.Machine

/-! PROOFS. ADMIT and TUNE create an entry (R183, R186, R213, R237, Table 09-1). -/

namespace Sys2Proof.Machine

/-! ### What an admission reads after its fetch -/

@[simp] theorem advance_isLast (s : State) (r : RingId) : (s.advance r).isLast = s.isLast :=
  advance_read (F := State.isLast) (fun _ _ _ => rfl) s r

@[simp] theorem advance_chargeGen (s : State) (r : RingId) : (s.advance r).chargeGen = s.chargeGen :=
  advance_read (F := State.chargeGen) (fun _ _ _ => rfl) s r

@[simp] theorem advance_currentGraft (s : State) (r : RingId) (h : Nat) : (s.advance r).currentGraft h = s.currentGraft h :=
  advance_read (F := fun u => u.currentGraft h) (fun _ _ _ => rfl) s r

@[simp] theorem advance_frameCharge (s : State) (r : RingId) (fmt len : Nat) : (s.advance r).frameCharge fmt len = s.frameCharge fmt len :=
  advance_read (F := fun u => u.frameCharge fmt len) (fun _ _ _ => rfl) s r

@[simp] theorem advance_freeEntry (s : State) (r : RingId) : (s.advance r).freeEntry = s.freeEntry :=
  advance_read (F := State.freeEntry) (fun _ _ _ => rfl) s r

@[simp] theorem advance_heldCall (s : State) (r : RingId) (p : Nat) (o : AdmitOps) : (s.advance r).heldCall p o = s.heldCall p o :=
  advance_read (F := fun u => u.heldCall p o) (fun _ _ _ => rfl) s r

@[simp] theorem advance_admitLength (s : State) (r : RingId) (h : Option Nat) (o : AdmitOps) :
    (s.advance r).admitLength h o = s.admitLength h o :=
  advance_read (F := fun u => u.admitLength h o) (fun _ _ _ => rfl) s r

@[simp] theorem advance_admitCharge (s : State) (r : RingId) (h : Option Nat) (o : AdmitOps) :
    (s.advance r).admitCharge h o = s.admitCharge h o :=
  advance_read (F := fun u => u.admitCharge h o) (fun _ _ _ => rfl) s r

@[simp] theorem advance_samplerBad (s : State) (r : RingId) (w : Nat) : (s.advance r).samplerBad w = s.samplerBad w :=
  advance_read (F := fun u => u.samplerBad w) (fun _ _ _ => rfl) s r

@[simp] theorem advance_graftUsable (s : State) (r : RingId) (p h : Nat) : (s.advance r).graftUsable p h = s.graftUsable p h :=
  advance_read (F := fun u => u.graftUsable p h) (fun _ _ _ => rfl) s r

@[simp] theorem advance_matteUsable (s : State) (r : RingId) (p h : Nat) : (s.advance r).matteUsable p h = s.matteUsable p h :=
  advance_read (F := fun u => u.matteUsable p h) (fun _ _ _ => rfl) s r

@[simp] theorem advance_tuneState (s : State) (r : RingId) (p : Nat) (f : Sys2Proof.Fetch) : tuneState (s.advance r) p f = tuneState s p f :=
  advance_read (F := fun u => tuneState u p f) (fun _ _ _ => rfl) s r

@[simp] theorem advance_customer (s : State) (r : RingId) (k : Nat) : (s.advance r).customer k = s.customer k :=
  customer_congr (advance_customers s r) k

theorem advance_kvFrames {s : State} (c : s.Canonical) (r : RingId) (p : Nat) : ((s.advance r).part p).kvFrames = (s.part p).kvFrames :=
  advance_part (g := Part.kvFrames) (fun _ _ _ => rfl) c r p

theorem advance_admitStatus {s : State} (c : s.Canonical) (r : RingId) (p : Nat) (f : Sys2Proof.Fetch) (o : AdmitOps) :
    (s.advance r).admitStatus p f o = s.admitStatus p f o := by
  unfold State.admitStatus
  simp only [advance_heldCall, advance_customer, advance_now, advance_call, advance_admitLength, advance_samplerBad, advance_inGroups c,
    advance_findCall, advance_graftUsable, advance_isLast, advance_matteUsable, advance_kvFrames c, advance_admitCharge]

theorem advance_tuneStatus {s : State} (c : s.Canonical) (r : RingId) (p : Nat) (f : Sys2Proof.Fetch) :
    tuneStatus (s.advance r) p f = tuneStatus s p f := by
  unfold tuneStatus
  simp only [advance_customer, advance_now, advance_inGroups c, advance_findCall, advance_currentGraft, advance_kvFrames c,
    advance_frameCharge]

/-! ### An entry and its frame charge (R183) -/

/-- A write of an entry: another call's, or one that keeps the property. -/
theorem Stays.putCall_of {P : Entry → Prop} {c d : Nat} {e : Entry} (s : State) (h : c = d → P (s.call d) → P e) :
    Stays P c s (s.putCall d e) :=
  ⟨(State.putCall_moves (fl := [.counters, .calls, .links, .out]) (Moves.refl _ s) (by decide)).canon, fun k p => by
    by_cases hd : c = d
    · subst hd
      rw [call_putCall_self k]
      exact h rfl p
    · rw [call_putCall_ne k hd]
      exact p⟩

section
variable {P : Entry → Prop} {c : Nat} (s : State) (hP : ∀ e, P e → P { e with state := .ready, owed := 0 })
include hP

theorem chargeQueued_keeps (d : Nat) : Stays P c s (s.chargeQueued d) := by
  unfold State.chargeQueued
  extract_lets e p
  split
  · exact (Stays.of_moves (State.modPart_moves (Moves.refl _ s) (by decide))).trans (Stays.putCall_of _ fun _ h => hP e h)
  · exact .refl s

theorem chargeAll_keeps (p : Nat) : ∀ (ds : List Nat) (s : State), Stays P c s (s.chargeAll p ds)
  | [], s => .refl s
  | d :: ds, s => by
    unfold State.chargeAll
    dsimp only
    split
    · exact .refl s
    · exact (chargeQueued_keeps s hP d).trans (chargeAll_keeps p ds _)

/-- Making frame charges keeps a property that a charged entry keeps. -/
theorem chargeWaiting_keeps (p : Nat) : Stays P c s (s.chargeWaiting p) := chargeAll_keeps hP p _ s

end

/-- The entry, or the entry once its frame charge is made. -/
def Charged (e₀ e : Entry) : Prop := e = e₀ ∨ e = { e₀ with state := .ready, owed := 0 }

theorem Charged.ready {e₀ e : Entry} (h : Charged e₀ e) : Charged e₀ { e with state := .ready, owed := 0 } := by
  rcases h with rfl | rfl
  · exact .inr rfl
  · exact .inr rfl

/-- A charge changes the state and what is owed alone. -/
theorem Charged.field {α : Type} {e₀ e : Entry} (h : Charged e₀ e) (F : Entry → α)
    (hF : ∀ (e : Entry) st owed, F { e with state := st, owed := owed } = F e := by exact fun _ _ _ => rfl) : F e = F e₀ := by
  rcases h with rfl | rfl
  · rfl
  · exact hF _ _ _

theorem Charged.state_of_queued {e₀ e : Entry} (h : Charged e₀ e) (hq : e₀.state = .queued) : e.state = .queued ∨ e.state = .ready := by
  rcases h with rfl | rfl
  · exact .inl hq
  · exact .inr rfl

/-- An entry that is written is there, charged or not, once charges have been made. -/
theorem charged_of_putCall {s u t : State} (k : s.Canonical) {c p : Nat} {e : Entry}
    (hu : Moves [.counters, .links, .out] (s.putCall c e) u) (ht : Moves [.counters, .links, .out] (u.chargeWaiting p) t) :
    Charged e (t.call c) := by
  have kp : (s.putCall c e).Canonical :=
    (State.putCall_moves (fl := [.counters, .calls, .links, .out]) (Moves.refl _ s) (by decide)).canon k
  have h : Stays (Charged e) c (s.putCall c e) t :=
    ((Stays.of_moves (hu.mono (by decide))).trans (chargeWaiting_keeps u (fun _ h => h.ready) p)).quiet (ht.mono (by decide))
  exact h.kept kp (.inl (call_putCall_self k c e))

/-! ### ADMIT (R183, R186, R237) -/

theorem admit_next {f : Sys2Proof.Fetch} {s : State} {p k : Nat} (ks : s.Canonical) (h : s.Accepted f)
    (hw : Instr.wf (.admitCall f) = true) (hr : f.ring = .sq p k) (hst : s.admitStatus p f (admitOps f) = none) :
    exec (.admitCall f) s = .next ((s.advance f.ring).admitCall p f (s.jobOf f)) := by
  show s.descriptor "ADMIT" (Instr.wf (.admitCall f)) f _ = _
  rw [hw, descriptor_accepted h, admitEffect, hr]
  dsimp only
  rw [advance_admitStatus ks, hst]

theorem heldCall_none {s : State} (p : Nat) {o : AdmitOps} (h : o.cont = false) : s.heldCall p o = none := by
  rw [State.heldCall, h]
  rfl

/-- An ADMIT that is no continuation writes a new entry in the lowest free place, and its descriptor stays in progress. -/
theorem admitCall_enters {s : State} (k : s.Canonical) (p : Nat) (f : Sys2Proof.Fetch) (j : Job) (hcont : (admitOps f).cont = false) :
    Charged (s.admitEntry p f j (admitOps f) none) ((s.admitCall p f j).call s.freeEntry) ∧
      { j with premium := (admitOps f).premium } ∈ (s.admitCall p f j).jobs := by
  unfold State.admitCall
  extract_lets o h c e heldTag s1 s2 s3 s4 s5 s6 s7 s8 s9
  have hh : h = none := heldCall_none p hcont
  have hc : c = s.freeEntry := by show h.getD s.freeEntry = _; rw [hh, Option.getD_none]
  have he : e = s.admitEntry p f j o none := congrArg (s.admitEntry p f j o) hh
  have h1 : Moves [.counters, .calls, .customers, .links, .out, .jobs, .nextOrder] s s1 :=
    State.takeOrder_moves (State.start_moves (State.refill_moves (Moves.refl _ s) (by decide)) (by decide)) (by decide)
  have h2 : Moves [.grafts] s1 s2 := Moves.ite (State.pinGraft_moves (Moves.refl _ s1) (by decide)) (Moves.refl _ s1)
  have k2 : s2.Canonical := h2.canon (h1.canon k)
  have h5 : Moves [.counters, .links, .out] s3 s5 :=
    State.count_moves (State.journal_moves (Moves.refl _ s3) (by decide)) (by decide)
  have h6 : Moves [.counters, .links, .out] s3 s6 := Moves.ite (State.count_moves h5 (by decide)) h5
  have h8 : Moves [.counters, .links, .out] s7 s8 := Moves.ite (State.count_moves (Moves.refl _ s7) (by decide)) (Moves.refl _ s7)
  have h9 : Moves [.counters, .links, .out] s7 s9 := Moves.ite h8 (State.send_moves h8 (by decide))
  rw [if_neg (by simp [show o.cont = false from hcont]), ← hc, ← he]
  refine ⟨charged_of_putCall k2 h6 h9, ?_⟩
  have hj : Moves [.parts, .grafts, .counters, .calls, .links, .out] s1 s9 := h9.then (State.chargeWaiting_moves
    (h6.then (State.putCall_moves (h2.mono (by decide)) (by decide)) (by decide)) (by decide)) (by decide)
  rw [hj.frame .jobs (by decide)]
  exact List.mem_append_right _ List.mem_cons_self

/-! ### TUNE (R213) -/

/-- The entry of a TUNE has been written, charged where it fits, and told of downstream. -/
def State.tuneEntered (s : State) (p : Nat) (f : Sys2Proof.Fetch) (j : Job) : State :=
  let c := s.freeEntry
  let e := tuneEntry s p f j
  let s := ((((s.refill e.customer).start j).takeOrder).pinGraft e.graftHandle e.graftGen).putCall c e
  let s := (s.count (Ctr.admits p)).chargeWaiting p
  let s := if (s.call c).state = .queued then s.count (Ctr.admitQueued p) else s
  if s.isLast then s else s.send .d 2 (.callCtrl (.admitCall e.bytes (some (tuneParams f)) none))

theorem tune_next {f : Sys2Proof.Fetch} {s : State} {p k : Nat} (ks : s.Canonical) (h : s.Accepted f)
    (hw : Instr.wf (.tune f) = true) (hr : f.ring = .sq p k) (hst : tuneStatus s p f = none) :
    exec (.tune f) s = .next (tuneCheck ((s.advance f.ring).tuneEntered p f (s.jobOf f)) s.freeEntry) := by
  show s.descriptor "TUNE" (Instr.wf (.tune f)) f _ = _
  rw [hw, descriptor_accepted h, tuneEffect, hr]
  dsimp only
  rw [advance_tuneStatus ks, hst, ← advance_freeEntry s (.sq p k)]
  rfl

theorem tuneEntered_enters {s : State} (k : s.Canonical) (p : Nat) (f : Sys2Proof.Fetch) (j : Job) :
    Charged (tuneEntry s p f j) ((s.tuneEntered p f j).call s.freeEntry) ∧ j ∈ (s.tuneEntered p f j).jobs ∧
      (s.tuneEntered p f j).weights = s.weights ∧ (s.tuneEntered p f j).Canonical := by
  unfold State.tuneEntered
  extract_lets c e s1 s2 s3
  have h0 : Moves [.counters, .calls, .customers, .links, .out, .jobs, .nextOrder] s (((s.refill e.customer).start j).takeOrder) :=
    State.takeOrder_moves (State.start_moves (State.refill_moves (Moves.refl _ s) (by decide)) (by decide)) (by decide)
  have hp : Moves [.grafts] (((s.refill e.customer).start j).takeOrder)
      ((((s.refill e.customer).start j).takeOrder).pinGraft e.graftHandle e.graftGen) := State.pinGraft_moves (Moves.refl _ _) (by decide)
  have h2 : Moves [.counters, .links, .out] s2 s3 := Moves.ite (State.count_moves (Moves.refl _ s2) (by decide)) (Moves.refl _ s2)
  have h3 : Moves [.counters, .links, .out] s2 (if s3.isLast then s3
      else s3.send .d 2 (.callCtrl (.admitCall e.bytes (some (tuneParams f)) none))) := Moves.ite h2 (State.send_moves h2 (by decide))
  have hj : Moves [.parts, .grafts, .counters, .calls, .links, .out] (((s.refill e.customer).start j).takeOrder)
      (if s3.isLast then s3 else s3.send .d 2 (.callCtrl (.admitCall e.bytes (some (tuneParams f)) none))) :=
    h3.then (State.chargeWaiting_moves (State.count_moves (State.putCall_moves (hp.mono (by decide)) (by decide)) (by decide))
      (by decide)) (by decide)
  refine ⟨charged_of_putCall (hp.canon (h0.canon k)) (State.count_moves (Moves.refl _ s1) (by decide)) h3, ?_,
    (hj.frame .weights (by decide)).trans (h0.frame .weights (by decide)), hj.canon (h0.canon k)⟩
  rw [hj.frame .jobs (by decide)]
  exact List.mem_append_right _ List.mem_cons_self

theorem chainLength_congr {s t : State} (h : t.weights = s.weights) : t.chainLength = s.chainLength := by
  have hg : t.chargeGen = s.chargeGen := by rw [State.chargeGen, State.chargeGen, State.liveGen, State.liveGen, h]
  rw [State.chainLength, State.chainLength, hg]

/-- While reports are missing nothing is checked. -/
theorem tuneCheck_waits {s : State} {c : Nat} {t : Tune} (ht : (s.call c).tune = some t) (h : t.reports.length < s.chainLength) :
    tuneCheck s c = s := by
  rw [tuneCheck, ht]
  exact if_pos (.inr h)

/-- Good reports of a length that fits are checked. -/
theorem tuneCheck_passes {s : State} {c : Nat} {t : Tune} (ht : (s.call c).tune = some t) (hnew : t.checked = false)
    (h : s.chainLength ≤ t.reports.length) (hreg : ∀ r ∈ t.reports, r.2.2.2.2 = true) (hgood : ∃ r ∈ t.reports, r.2.1 ≠ 0 ∧ r.2.2.1 ≠ 0)
    (hlen : t.resultLen = (t.reports.map fun r => sectionLen r.2.2.2.1).sum) :
    tuneCheck s c = s.modCall c fun e => { e with tune := some { t with checked := true } } := by
  obtain ⟨r, hr, h1, h2⟩ := hgood
  have hbad : ¬(t.reports.any (fun r => !r.2.2.2.2) = true ∨ t.reports.all (fun r => r.2.1 = 0 ∨ r.2.2.1 = 0) = true) := by
    rintro (hx | hx)
    · obtain ⟨x, hx, hf⟩ := List.any_eq_true.1 hx
      simp [hreg x hx] at hf
    · have := List.all_eq_true.1 hx r hr
      simp [h1, h2] at this
  rw [tuneCheck, ht]
  dsimp only
  rw [if_neg (by simp [hnew, h]), if_neg hbad, if_neg (by simp [hlen])]

theorem tuneStatus_partition {s : State} {p : Nat} {f : Sys2Proof.Fetch} {g : Graft} (h : tuneStatus s p f = none)
    (hg : s.currentGraft (Fetch.at f 8 2) = some g) : g.partition = p := by
  simp only [tuneStatus, hg, ite_eq_iff, reduceCtorEq, and_false, false_or] at h
  obtain ⟨-, -, -, -, hp, -⟩ := h
  simpa using hp

theorem tuneEntered_tune {s : State} {p : Nat} {f : Sys2Proof.Fetch} {e : Entry} (h : Charged (tuneEntry (s.advance f.ring) p f (s.jobOf f)) e) :
    e.tune = some (tuneState s p f) := (h.field Entry.tune).trans (congrArg some (advance_tuneState s _ p f))

/-- Settles O26: the lowest free entry (the model's choice, log 10) holds the descriptor's operands, charged or not; on a chain of one
position the TUNE's own report is all of them, and its check passes. -/
theorem callsAreAdmitted : Obligations.CallsAreAdmitted := by
  unfold Obligations.CallsAreAdmitted
  refine ⟨fun f s p k ks h hw hr hcont hst => ?_, fun f s p k ks h hw hr hst hlong => ?_,
    fun f s p k g ks h hw hr hst hshort hg hrank hentries hlen => ?_⟩
  · obtain ⟨hc, hj⟩ := admitCall_enters (advance_canonical ks f.ring) p f (s.jobOf f) hcont
    rw [advance_freeEntry] at hc
    exact ⟨_, admit_next ks h hw hr hst, hj, hc.state_of_queued rfl, hc.field Entry.tag, hc.field Entry.partition, hc.field Entry.premium,
      hc.field Entry.customer, hc.field Entry.promptLen, hc.field Entry.maxNew, hc.field Entry.prefilled, hc.field Entry.generated,
      hc.field Entry.seed, hc.field Entry.deadline, (hc.field Entry.admitTick).trans (advance_now s _), hc.field Entry.job⟩
  · obtain ⟨hc, hj, hwts, -⟩ := tuneEntered_enters (advance_canonical ks f.ring) p f (s.jobOf f)
    rw [advance_freeEntry] at hc
    have ht := tuneEntered_tune hc
    have hlen : (tuneState s p f).reports.length < ((s.advance f.ring).tuneEntered p f (s.jobOf f)).chainLength := by
      rw [chainLength_congr (hwts.trans (advance_weights s _))]
      exact hlong
    refine ⟨_, (tune_next ks h hw hr hst).trans (by rw [tuneCheck_waits ht hlen]), hj, hc.state_of_queued rfl,
      hc.field Entry.tag, hc.field Entry.partition, hc.field Entry.premium, hc.field Entry.maxNew, hc.field Entry.graftHandle, ht⟩
  · obtain ⟨hc, -, hwts, kt⟩ := tuneEntered_enters (advance_canonical ks f.ring) p f (s.jobOf f)
    rw [advance_freeEntry] at hc
    have ht := tuneEntered_tune hc
    have hreps : (tuneState s p f).reports = [(s.regs.chainPos.toNat, g.rank, g.entries.length, g.body.length, true)] := by
      simp [tuneState, tuneReport, hg, tuneStatus_partition hst hg]
    have hchain : ((s.advance f.ring).tuneEntered p f (s.jobOf f)).chainLength ≤ (tuneState s p f).reports.length := by
      rw [chainLength_congr (hwts.trans (advance_weights s _)), hreps]
      exact hshort
    have hsum : (tuneState s p f).resultLen = ((tuneState s p f).reports.map fun r => sectionLen r.2.2.2.1).sum := by
      rw [hreps]
      exact hlen
    refine ⟨_, (tune_next ks h hw hr hst).trans (by rw [tuneCheck_passes ht rfl hchain (by simp [hreps])
      (by simp [hreps, hrank, hentries]) hsum]), ?_⟩
    rw [call_modCall_self kt]

end Sys2Proof.Machine

/-! PROOFS. The deadline scan, refills and preemption (R194, R196, R201, R202). -/

namespace Sys2Proof.Machine

/-- What an action establishes for its own element, and for the others keeps, holds of each element after the actions on all. -/
theorem each_establishes {P : Entry → Prop} {f : State → Nat → State} {c : Nat} (hkeep : ∀ s d, Stays P c s (f s d))
    (hown : ∀ s : State, s.Canonical → P ((f s c).call c)) {cs : List Nat} (hc : c ∈ cs) {s : State} (k : s.Canonical) :
    P ((s.each cs f).call c) := by
  induction cs generalizing s with
  | nil => cases hc
  | cons d ds ih =>
    have kd := (hkeep s d).canon k
    rcases List.mem_cons.1 hc with rfl | hc
    · exact (Stays.each (f s c) ds fun s x _ => hkeep s x).kept kd (hown s k)
    · exact ih hc kd

/-! ### Deadlines (R196) -/

theorem endCall_stays_over (s : State) (c d : Nat) (st : Status) (from_ : Option Port) : Stays Over c s (s.endCall d st from_) := by
  by_cases h : c = d
  · subst h
    refine ⟨(State.endCall_moves (fl := .free :: everyPiece) (Moves.refl _ s) (by decide)).canon, fun _ ho => ?_⟩
    have hd : (decide ((s.call c).state = .free) || (s.call c).ended) = true := by simpa [Over, or_comm] using ho
    rwa [State.endCall, if_pos hd]
  · exact endCall_stays_ne s over_settled h st from_

theorem deadlineScan_ends {s : State} (k : s.Canonical) {c : Nat} (hc : c ∈ s.scanned ++ s.maskOverdue) :
    Over (s.deadlineScan.call c) := by
  unfold State.deadlineScan
  rw [call_congr ((State.tellOverdue_moves (fl := [.counters, .links, .out]) (Moves.refl _ _) (by decide)).frame .calls (by decide))]
  exact each_establishes (fun s d => endCall_stays_over s c d _ _) (fun s k => endCall_over k c (by decide) none) hc k

/-! ### Refills (R201, R202) -/

theorem refilled_due {c : Customer} {now : Nat} (hv : c.valid = true) (hi : 0 < c.interval) (hd : c.nextRefill ≤ now) :
    now < (State.refilled c now).nextRefill := by
  unfold State.refilled
  rw [if_pos (by simp [hv, hi, hd])]
  dsimp only
  have h := Nat.lt_div_mul_add (a := now - c.nextRefill) hi
  rw [Nat.add_one_mul]
  omega

theorem refill_customers (s : State) (k : Nat) : (s.refill k).customers = (s.modCustomer k fun c => State.refilled c s.now).customers :=
  (State.unpark_moves (fl := [.counters, .calls, .links, .out]) (Moves.refl _ _) (by decide)).frame .customers (by decide)

theorem refill_customer_self {s : State} (c : s.Canonical) (k : Nat) : (s.refill k).customer k = State.refilled (s.customer k) s.now := by
  rw [customer_congr (refill_customers s k), customer_modCustomer_self c]

theorem refill_customer_ne {s : State} (c : s.Canonical) {j k : Nat} (h : j ≠ k) : (s.refill k).customer j = s.customer j := by
  rw [customer_congr (refill_customers s k), customer_modCustomer_ne c h]

/-- The call has the customer, goes on and is parked. -/
def ParkedFor (k : Nat) (e : Entry) : Prop := e.customer = k ∧ e.ended = false ∧ e.state = .parked

theorem unpark_wakes {s : State} (c : s.Canonical) {k : Nat} (hl : 0 < (s.customer k).level) (i : Nat) :
    ¬ParkedFor k ((s.unpark k).call i) := by
  unfold State.unpark
  rw [if_pos hl]
  by_cases hi : i ∈ s.callsWhere fun e => e.customer == k && decide (e.state = .parked) && !e.ended
  · have awake : ∀ e : Entry, ¬ParkedFor k { e with state := .ready } := fun e h => by cases h.2.2
    refine each_establishes (P := fun e => ¬ParkedFor k e) (fun s d => .modCall s fun _ _ => awake _) (fun s c => ?_) hi c
    rw [call_modCall_self c]
    exact awake _
  · have h : ¬ParkedFor k (s.call i) := fun ⟨hc, he, hs⟩ =>
      hi ((mem_callsWhere c).2 ⟨by rw [hs]; decide, by simp [hc, he, hs]⟩)
    exact (Stays.each (P := fun e => ¬ParkedFor k e) s _ fun s d hd => .modCall_ne s (by rintro rfl; exact hi hd) _).kept c h

theorem budgetRefill_next {k : Nat} {s : State} (hv : (s.customer k).valid = true) (hi : 0 < (s.customer k).interval)
    (hd : (s.customer k).nextRefill ≤ s.now) : exec (.budgetRefill k) s = .next (s.refill k) :=
  when_true (by simp [hv, hi, hd])

theorem refill_wakes {s : State} (c : s.Canonical) {k : Nat} (hl : 0 < ((s.refill k).customer k).level) (i : Nat) :
    ¬ParkedFor k ((s.refill k).call i) := by
  rw [customer_congr (refill_customers s k)] at hl
  exact unpark_wakes ((State.modCustomer_moves (fl := [.customers]) (Moves.refl _ s) (by decide)).canon c) hl i

/-! ### Preemption (R194, R256) -/

/-- The partition of a chunk has no room for its state. -/
def State.NoSaveRoom (s : State) (k : Nat) : Prop :=
  (s.part (s.call k).partition).saveShare = 0 ∨
    (s.part (s.call k).partition).saveShare.toNat < (s.part (s.call k).partition).saveUsed + s.saveMiB k

theorem preempt_refused {s : State} (c : Nat) {k : Nat} (h : s.NoSaveRoom k) : SameBut [.counters, .steps] s (s.preempt c k) := by
  unfold State.preempt
  extract_lets e p n st
  rw [if_pos (show p.saveShare = 0 ∨ p.saveShare.toNat < p.saveUsed + n from h)]
  split
  · exact (State.modStep_moves (State.count_moves (Moves.refl _ s) (by decide)) (by decide)).frame
  · exact (Moves.refl _ s).frame

theorem preempt_drains {s : State} (c : Nat) {k : Nat} (h : ¬s.NoSaveRoom k) :
    ∃ d ∈ (s.preempt c k).drains, d.why = .preempt k ∧ d.scope = .partition (s.call k).partition ∧ d.start = s.now := by
  unfold State.preempt
  extract_lets e p n st s1
  rw [if_neg (show ¬(p.saveShare = 0 ∨ p.saveShare.toNat < p.saveUsed + n) from h), State.startDrain]
  refine ⟨_, List.mem_append_right _ List.mem_cons_self, rfl, rfl, ?_⟩
  have hm : Moves offClock s (s1.withdraw (.partition e.partition) (.preempt k)) :=
    State.withdraw_moves (State.notice_moves (State.count_moves (Moves.refl _ s) (by decide)) (by decide)) (by decide)
  exact congrArg BitVec.toNat (hm.frame .tick (by decide))

end Sys2Proof.Machine

/-! PROOFS. Batches open and close (R187 to R190, R212, R260). -/

namespace Sys2Proof.Machine

/-! ### While no batch is open, issuing and restoring steps open none -/

/-- No batch is open. -/
def NoBatch (s : State) : Prop := s.batch = none

/-- Every piece but the open batch. -/
abbrev batchQuiet : List Field := (.free :: .pending :: everyPiece).filter (· ≠ .batch)

namespace NoBatch
variable {s t : State}

theorem of_moves (h : NoBatch s) (k : Moves batchQuiet s t) : NoBatch t := (k.frame .batch (by decide)).trans h

theorem ite {c : Prop} [Decidable c] (h : NoBatch s) (k : NoBatch t) : NoBatch (if c then s else t) := by
  split
  · exact h
  · exact k

theorem each {α : Type} {f : State → α → State} (hf : ∀ s x, NoBatch s → NoBatch (f s x)) :
    ∀ (xs : List α) {s : State}, NoBatch s → NoBatch (s.each xs f)
  | [], _, h => h
  | x :: xs, _, h => each hf xs (hf _ x h)

theorem dropWork (h : NoBatch s) (c : Nat) : NoBatch (s.dropWork c) := by
  unfold State.dropWork
  extract_lets ids s1 s2
  have h1 : NoBatch s1 := by
    show s.batch.map _ = none
    rw [show s.batch = none from h]
    rfl
  have h2 : NoBatch s2 := h1.of_moves (State.forget_moves (Moves.refl _ s1) (by decide))
  exact .ite h2 h2

theorem endCall (h : NoBatch s) (c : Nat) (st : Status) (from_ : Option Port) : NoBatch (s.endCall c st from_) := by
  by_cases hd : (decide ((s.call c).state = .free) || (s.call c).ended) = true
  · rw [State.endCall, if_pos hd]
    exact h
  · obtain ⟨u, hu, hm⟩ := endCall_drops s st from_ hd
    exact ((h.of_moves (hu.mono (by decide))).dropWork c).of_moves (hm.mono (by decide))

theorem restState (h : NoBatch s) (c : Nat) : NoBatch (s.restState c) := by
  unfold State.restState
  extract_lets e
  refine .ite (.ite (.ite (h.endCall _ _ _) (h.of_moves ?_)) (h.of_moves ?_)) h
  · exact State.modCall_moves (State.count_moves (Moves.refl _ s) (by decide)) (by decide)
  · exact State.modCall_moves (Moves.refl _ s) (by decide)

theorem draftsDone (h : NoBatch s) (x : Step) : NoBatch (s.draftsDone x) := by
  unfold State.draftsDone
  extract_lets e marks s1
  have h1 : Moves batchQuiet s s1 := Moves.ite (Moves.refl _ s) (State.send_moves (Moves.refl _ s) (by decide))
  exact (h.of_moves (State.stepGone_moves h1 (by decide))).restState _

theorem draftToken (h : NoBatch s) (x : Step) (v : List F32) : NoBatch (s.draftToken x v) := by
  unfold State.draftToken
  extract_lets e m al tok q s1
  have h1 : NoBatch s1 := h.of_moves (State.modCall_moves (Moves.refl _ s) (by decide))
  exact .ite (h.draftsDone x) (.ite h1 (h1.draftsDone x))

theorem deliver (h : NoBatch s) (y : Handoff) (m : Mat) : NoBatch (s.deliver y m) := by
  unfold State.deliver
  extract_lets w s1 back s2 e
  have h2 : NoBatch s2 := NoBatch.of_moves (s := s1) h (Moves.ite (Moves.refl _ s1) (State.modStep_moves (Moves.refl _ s1) (by decide)))
  split
  · refine h2.of_moves (State.moveStep_moves ?_ (by decide))
    split
    · exact State.relayBack_moves (Moves.refl _ s2) (by decide)
    · exact Moves.refl _ s2
  · extract_lets s3 s4
    have h3 : Moves batchQuiet s2 s3 :=
      Moves.ite (State.relayOut_moves (State.countBlocks_moves (Moves.refl _ s2) (by decide)) (by decide)) (Moves.refl _ s2)
    have h4 : Moves batchQuiet s2 s4 := by
      unfold s4
      split
      · exact Moves.ite (State.modStep_moves h3 (by decide)) h3
      · exact Moves.ite (State.modStep_moves h3 (by decide)) h3
    exact .ite ((h2.of_moves h4).draftToken _ _) (h2.of_moves (State.moveStep_moves h4 (by decide)))
  · exact h2.of_moves (State.moveStep_moves (Moves.refl _ s2) (by decide))

theorem restoreVector (h : NoBatch s) (c : Nat) (v : Saved) : NoBatch (s.restoreVector c v) := by
  unfold State.restoreVector
  extract_lets k
  split
  · exact h
  · extract_lets kind
    refine .ite (each (fun s i hs => ?_) _ h) (h.deliver _ _)
    exact .ite (hs.of_moves (State.requestWith_moves (Moves.refl _ s) (by decide))) hs

theorem addCanopy (h : NoBatch s) (rows : List CanopyRow) : NoBatch { s with canopy := s.canopy ++ rows } := h

theorem restoreCall (h : NoBatch s) (c : Nat) : NoBatch (s.restoreCall c) := by
  unfold State.restoreCall
  extract_lets e lost s1 stale s2 rows s3 s4
  have h1 : NoBatch s1 := h.of_moves (Moves.ite (Moves.refl _ s) (State.draw_moves (Moves.refl _ s) (by decide)))
  split
  · exact (h1.of_moves (State.saveLost_moves (Moves.refl _ s1) (by decide))).endCall _ _ _
  · split
    · exact h1.endCall _ _ _
    · have h2 : NoBatch s2 := h1.of_moves ((Moves.refl _ s1).each fun u n hu =>
        State.count_moves (State.restartStep_moves hu (by decide)) (by decide))
      have h3 : NoBatch s3 := h2.of_moves (State.undiscard_moves (State.dropSaves_moves (Moves.refl _ s2) (by decide)) (by decide))
      exact .each (fun s v hs => hs.restoreVector c v) _ (h3.addCanopy rows)

theorem issueStep (h : NoBatch s) (c : Nat) : NoBatch (s.issueStep c) := by
  unfold State.issueStep
  extract_lets e
  split
  · refine .ite (h.endCall _ _ _) (.ite (h.endCall _ _ _) ?_)
    extract_lets s1
    have h1 : NoBatch s1 := h.of_moves (State.beginStep_moves (Moves.refl _ s) (by decide))
    exact .ite h1 (h1.of_moves (State.modCall_moves (Moves.refl _ s1) (by decide)))
  · exact h

end NoBatch

/-! ### A batch closes (R189) -/

/-- The steps of a batch that closes: a call that is still ready has its step issued, or its saved chunk restored. -/
def State.enterCall (s : State) (c : Nat) : State :=
  if !s.callReady c then s else if State.savedCall (s.call c) then s.restoreCall c else s.issueStep c

theorem NoBatch.enterCall {s : State} (h : NoBatch s) (c : Nat) : NoBatch (s.enterCall c) :=
  .ite h (.ite (h.restoreCall c) (h.issueStep c))

theorem enterCall_batchNo (s : State) (c : Nat) : (s.enterCall c).batchNo = s.batchNo := by
  have hm : Moves ((.free :: everyPiece).filter (· ≠ .batchNo)) s (s.enterCall c) :=
    Moves.ite (Moves.refl _ s) (Moves.ite (State.restoreCall_moves (Moves.refl _ s) (by decide))
      (State.issueStep_moves (Moves.refl _ s) (by decide)))
  exact hm.frame .batchNo (by decide)

theorem each_enterCall_batchNo (cs : List Nat) : ∀ s : State, (s.each cs State.enterCall).batchNo = s.batchNo := by
  induction cs with
  | nil => exact fun _ => rfl
  | cons c cs ih => exact fun s => (ih _).trans (enterCall_batchNo s c)

/-- No batch is open, and the batches have the number. -/
def BatchClosed (n : Nat) (s : State) : Prop := NoBatch s ∧ s.batchNo = n

/-- Every piece but the open batch and the batches' number. -/
abbrev offBatches : List Field := batchQuiet.filter (· ≠ .batchNo)

theorem BatchClosed.of_moves {n : Nat} {s t : State} (h : BatchClosed n s) (k : Moves offBatches s t) : BatchClosed n t :=
  ⟨h.1.of_moves (k.mono (by decide)), (k.frame .batchNo (by decide)).trans h.2⟩

/-- A batch that closes takes the next number; then takes and cuts go on. -/
theorem closeBatch_closes (s : State) (pl : State.Plan) :
    ∃ u : State, s.closeBatch pl = u.settle ∧ BatchClosed (s.batchNo + 1) u := by
  unfold State.closeBatch
  extract_lets s1 s2 s3 s4
  have h2 : BatchClosed (s.batchNo + 1) s2 :=
    ⟨NoBatch.each (fun s c hs => hs.enterCall c) pl.calls (s := s1) rfl, each_enterCall_batchNo pl.calls s1⟩
  have h3 : BatchClosed (s.batchNo + 1) s3 := by
    unfold s3
    split
    · exact h2
    · exact h2
  have h4 : BatchClosed (s.batchNo + 1) s4 := by
    unfold s4
    split
    · split
      · exact h3.of_moves (State.stageFor_moves (Moves.refl _ s3) (by decide))
      · exact h3
    · exact h3
  exact ⟨_, rfl, h4.of_moves (State.count_moves (Moves.refl _ s4) (by decide))⟩

theorem closeBatch_closed (s : State) (pl : State.Plan) : BatchClosed (s.batchNo + 1) (s.closeBatch pl) := by
  obtain ⟨u, hu, h⟩ := closeBatch_closes s pl
  rw [hu]
  exact h.of_moves (State.settle_moves (Moves.refl _ u) (by decide))

/-! ### A batch collects ready steps (R189, R190) -/

/-- The batch is open with a tick and an epoch, under the number. -/
def BatchOpen (n tick epoch : Nat) (s : State) : Prop :=
  s.batchNo = n ∧ ∃ b, s.batch = some b ∧ b.firstTick = tick ∧ b.epoch = epoch

section
variable (s : State) (tick epoch : Nat) (pl : State.Plan)

theorem fillBatch_moves' : Moves [.parts] s (s.fillBatch pl).1 := State.fillBatch_moves (Moves.refl _ s) (by decide)

theorem fillBatch_closed {n : Nat} (hn : s.batchNo = n) :
    BatchClosed (n + 1) ((s.fillBatch pl).1.closeBatch (s.fillBatch pl).2) := by
  rw [← hn, ← (fillBatch_moves' s pl).frame .batchNo (by decide)]
  exact closeBatch_closed _ _

/-- A batch that collects closes, or stays open with its tick and epoch. -/
theorem collect_closes_or_waits {n : Nat} (hn : s.batchNo = n) :
    BatchClosed (n + 1) (s.collect tick epoch pl) ∨ BatchOpen n tick epoch (s.collect tick epoch pl) := by
  unfold State.collect
  dsimp only
  split
  · exact .inl (fillBatch_closed s pl hn)
  · exact .inr ⟨((fillBatch_moves' s pl).frame .batchNo (by decide)).trans hn, _, rfl, rfl, rfl⟩

/-- With no window a batch closes at once. -/
theorem collect_closes {n : Nat} (hn : s.batchNo = n) (hw : s.sched.batchWindow = 0) : BatchClosed (n + 1) (s.collect tick epoch pl) := by
  unfold State.collect
  dsimp only
  rw [if_pos (.inl (by rw [(fillBatch_moves' s pl).frame .sched (by decide), hw]))]
  exact fillBatch_closed s pl hn

end

/-- The state in which a new batch opens: SCHED_CTRL is taken, deficits are new, the step left out before heads it. -/
def State.freshBatch (s : State) : State × State.Plan := s.wakeDrained.latchSched.openDeficits.headBatch

theorem freshBatch_moves (s : State) : Moves [.parts, .splitHead] s.wakeDrained.latchSched s.freshBatch.1 :=
  State.headBatch_moves (State.openDeficits_moves (Moves.refl _ _) (by decide)) (by decide)

theorem wakeDrained_moves' (s : State) : Moves [.counters, .calls, .links, .out] s s.wakeDrained :=
  State.wakeDrained_moves (Moves.refl _ s) (by decide)

theorem freshBatch_batchNo (s : State) : s.freshBatch.1.batchNo = s.batchNo :=
  ((freshBatch_moves s).frame .batchNo (by decide)).trans ((wakeDrained_moves' s).frame .batchNo (by decide))

theorem freshBatch_window (s : State) : s.freshBatch.1.sched.batchWindow = s.regs.batchWindow.toNat := by
  rw [(freshBatch_moves s).frame .sched (by decide)]
  exact congrArg (fun r : Regs => r.batchWindow.toNat) ((wakeDrained_moves' s).frame .regs (by decide))

theorem wakeDrained_isFirst (s : State) : s.wakeDrained.isFirst = s.isFirst :=
  isFirst_of_pos (congrArg Regs.chainPos ((wakeDrained_moves' s).frame .regs (by decide)))

theorem batchOpen_fresh {s : State} (hf : s.isFirst = true) (hb : s.batch = none) :
    s.batchOpen = s.freshBatch.1.collect s.now s.weights.epoch s.freshBatch.2 := by
  have hm := wakeDrained_moves' s
  unfold State.batchOpen
  extract_lets u r
  have hu : u.batch = none := (hm.frame .batch (by decide)).trans hb
  rw [if_neg (by simp [u, wakeDrained_isFirst, hf]), hu]
  show State.collect _ u.now u.weights.epoch _ = _
  rw [show u.now = s.now from congrArg BitVec.toNat (hm.frame .tick (by decide)), show u.weights = s.weights from hm.frame .weights (by decide)]
  rfl

theorem batchOpen_joins {s : State} (hf : s.isFirst = true) {b : Batch} (hb : s.batch = some b) :
    s.batchOpen = s.wakeDrained.collect b.firstTick b.epoch { calls := b.calls, split := none } := by
  unfold State.batchOpen
  extract_lets u r
  have hu : u.batch = some b := ((wakeDrained_moves' s).frame .batch (by decide)).trans hb
  rw [if_neg (by simp [u, wakeDrained_isFirst, hf]), hu]

theorem windowExpires_closes (s : State) (b : Batch) :
    ∃ u : State, s.windowExpires b = u.settle ∧ BatchClosed (s.batchNo + 1) u := by
  unfold State.windowExpires
  extract_lets u r
  have hr : Moves [.parts] u r.1 := by
    unfold r
    split
    · exact Moves.refl _ u
    · exact fillBatch_moves' u _
  have hn : r.1.batchNo = s.batchNo := (hr.frame .batchNo (by decide)).trans ((wakeDrained_moves' s).frame .batchNo (by decide))
  rw [← hn]
  exact closeBatch_closes r.1 r.2

theorem batchOpen_schedules {s : State} (hdue : s.batchDue = true) (hf : s.isFirst = true) :
    ∃ t, exec .batchOpen s = .next t ∧
      (s.batch = none → s.regs.batchWindow = 0 → BatchClosed (s.batchNo + 1) t) ∧
      (s.batch = none → BatchClosed (s.batchNo + 1) t ∨ BatchOpen s.batchNo s.now s.weights.epoch t) ∧
      ∀ b, s.batch = some b → BatchClosed (s.batchNo + 1) t ∨ BatchOpen s.batchNo b.firstTick b.epoch t := by
  refine ⟨s.batchOpen, when_true hdue, fun hb hw => ?_, fun hb => ?_, fun b hb => ?_⟩
  · rw [batchOpen_fresh hf hb]
    exact collect_closes _ _ _ _ (freshBatch_batchNo s) (by rw [freshBatch_window, hw]; rfl)
  · rw [batchOpen_fresh hf hb]
    exact collect_closes_or_waits _ _ _ _ (freshBatch_batchNo s)
  · rw [batchOpen_joins hf hb]
    exact collect_closes_or_waits _ _ _ _ ((wakeDrained_moves' s).frame .batchNo (by decide))

theorem batchWindowExpiry_closes {b : Batch} {s : State} (hb : s.batch = some b) (hw : b.firstTick + s.sched.batchWindow ≤ s.now) :
    ∃ u : State, exec .batchWindowExpiry s = .next u.settle ∧ BatchClosed (s.batchNo + 1) u := by
  obtain ⟨u, hu, hc⟩ := windowExpires_closes s b
  refine ⟨u, ?_, hc⟩
  show execBatchWindowExpiry s = _
  rw [execBatchWindowExpiry, hb, ← hu]
  exact when_true (decide_eq_true hw)

end Sys2Proof.Machine

/-! PROOFS. A step commits, or waits (R187, R197, R201, R202, R213, R216, R246). -/

namespace Sys2Proof.Machine

/-! ### What lasts while entries are charged and freed

`Settled` asks that a call with the property waits for no frame charge; a commit's books stay through the charge as well. -/

/-- The property holds on when a written entry is freed, and when a frame charge is made. -/
structure Lasting (P : Entry → Prop) : Prop where
  freed : ∀ e, P e → e.written = true → P {}
  charged : ∀ e, P e → P { e with state := .ready, owed := 0 }

section
variable {P : Entry → Prop} {c : Nat} (s : State)

theorem notice_lasts (p subject code : Nat) (d : Bytes) (premium : Bool) : Stays P c s (s.notice p subject code d premium) :=
  writeRecord_stays s _ fun h => nomatch h

theorem count_lasts (k n : Nat) : Stays P c s (s.count k n) := .of_moves (State.count_moves (Moves.refl _ s) (by decide))

theorem paceMiss_lasts (e : Entry) : Stays P c s (s.paceMiss e) := by
  unfold State.paceMiss
  split
  · exact (count_lasts s _ _).trans (notice_lasts _ _ _ _ _ _)
  · exact .refl s

variable (hP : Lasting P)
include hP

theorem afterFree_lasts (p : Nat) : Stays P c s (s.afterFree p) := by
  unfold State.afterFree
  refine (chargeWaiting_keeps s hP.charged p).quiet ?_
  exact Moves.ite (State.modPart_moves (Moves.refl _ _) (by decide)) (Moves.refl _ _)

theorem freeWritten_lasts : Stays P c s s.freeWritten := by
  refine ⟨(State.freeWritten_moves (fl := .free :: everyPiece) (Moves.refl _ s) (by decide)).canon, fun k hp => ?_⟩
  refine (Stays.each s _ fun u d hd => ?_).kept k hp
  have hf : c = d → P {} := by
    rintro rfl
    obtain ⟨⟨i, e⟩, hm, rfl⟩ := List.mem_map.1 hd
    obtain ⟨hm, hw⟩ := List.mem_filter.1 hm
    exact hP.freed _ hp (get_of_mem (Tbl.rising_of_wf k.calls) hm ▸ hw)
  have hr : Moves callQuiet u (u.releaseHoldings d) := State.releaseHoldings_moves (Moves.refl _ u) (by decide)
  exact ((Stays.of_moves hr).trans (.setCall _ hf)).trans (afterFree_lasts _ hP _)

/-- The end of another call (R198, R199). -/
theorem endCall_lasts_ne {d : Nat} (h : c ≠ d) (st : Status) (from_ : Option Port) : Stays P c s (s.endCall d st from_) := by
  unfold State.endCall
  extract_lets e s1 s2 s3 held s4 s5 s6
  split
  · exact .refl s
  · have h3 : Moves callQuiet s s3 := State.tellChain_moves (State.countEnd_moves (State.dropWork_moves
      (State.journal_moves (Moves.refl _ s) (by decide)) (by decide)) (by decide)) (by decide)
    have h4 : Stays P c s s4 := (Stays.of_moves h3).trans (.setCall s3 fun e => absurd e h)
    have h5 : Stays P c s4 s5 := by
      unfold s5
      split
      · exact .refl s4
      · refine completeWith_stays s4 _ _ _ _ fun hf => ?_
        split at hf
        · cases hf
        · exact absurd (Option.some.inj hf).symm h
    have h6 : Stays P c s5 s6 := by
      show Stays P c s5 (if _ then _ else _)
      split
      · exact .of_moves (State.unpinGraft_moves (Moves.refl _ s5) (by decide))
      · exact freeWritten_lasts s5 hP
    exact ((h4.trans h5).trans h6).trans
      ((Stays.of_moves (State.completeAll_moves (Moves.refl _ s6) (by decide))).trans (afterFree_lasts _ hP _))

end

/-! ### What a commit has written in its call's entry stays there -/

/-- The entry has the counts, the KV length, the draft depth and the training state of the given one; it is no call that fails on an
empty budget, and no completion record of it has been written. -/
def Booked (e₁ e : Entry) : Prop :=
  e.failIfParked = false ∧ e.written = false ∧ e.generated = e₁.generated ∧ e.step = e₁.step ∧ e.stepsDone = e₁.stepsDone ∧
    e.kvLen = e₁.kvLen ∧ e.draftDepth = e₁.draftDepth ∧ e.tune = e₁.tune

theorem Booked.self {e : Entry} (hf : e.failIfParked = false) (hw : e.written = false) : Booked e e :=
  ⟨hf, hw, rfl, rfl, rfl, rfl, rfl, rfl⟩

theorem Booked.goesOn {e₁ e : Entry} (h : Booked e₁ e) : e.failIfParked = false := h.1

theorem Booked.draftDepth {e₁ e : Entry} (h : Booked e₁ e) : e.draftDepth = e₁.draftDepth := h.2.2.2.2.2.2.1

theorem booked_lasting (e₁ : Entry) : Lasting (Booked e₁) where
  freed := by
    rintro e ⟨-, hw, -⟩ h
    rw [hw] at h
    cases h
  charged := fun _ h => h

/-- A call whose customer's budget is empty parks, or ends with BUDGET_PARK (R202). -/
def State.parkCall (s : State) (c : Nat) : State :=
  if (s.call c).failIfParked then s.endCall c .budgetPark none
  else (s.count (Ctr.parks (s.call c).partition)).modCall c fun e => { e with state := .parked }

section
variable {e₁ : Entry} {c : Nat} (s : State)

theorem parkCall_booked (d : Nat) : Stays (Booked e₁) c s (s.parkCall d) := by
  have hpark : Stays (Booked e₁) c s ((s.count (Ctr.parks (s.call d).partition)).modCall d fun e => { e with state := .parked }) :=
    (count_lasts s _ _).trans (.modCall _ fun _ h => h)
  by_cases hd : c = d
  · subst hd
    refine ⟨(Moves.ite (State.endCall_moves (fl := .free :: everyPiece) (Moves.refl _ s) (by decide))
      (State.modCall_moves (State.count_moves (Moves.refl _ s) (by decide)) (by decide))).canon, fun k h => ?_⟩
    rw [State.parkCall, if_neg (by simp [h.goesOn])]
    exact hpark.kept k h
  · unfold State.parkCall
    split
    · exact endCall_lasts_ne s (booked_lasting e₁) hd _ _
    · exact hpark

theorem parkReady_booked (cust : Nat) : Stays (Booked e₁) c s (s.parkReady cust) := by
  unfold State.parkReady
  split
  · exact .each s _ fun s d _ => parkCall_booked s d
  · exact .refl s

theorem restState_booked (d : Nat) : Stays (Booked e₁) c s (s.restState d) := by
  unfold State.restState
  extract_lets e
  split
  · split
    · exact parkCall_booked s d
    · exact .modCall s fun _ h => h
  · exact .refl s

theorem unpark_booked (cust : Nat) : Stays (Booked e₁) c s (s.unpark cust) := by
  unfold State.unpark
  split
  · exact .each s _ fun s d _ => .modCall s fun _ h => h
  · exact .refl s

theorem refill_booked (cust : Nat) : Stays (Booked e₁) c s (s.refill cust) :=
  (Stays.of_moves (State.modCustomer_moves (Moves.refl _ s) (by decide))).trans (unpark_booked _ cust)

theorem chargeAndPark_booked (e : Entry) (prompt generated : Nat) : Stays (Booked e₁) c s (s.chargeAndPark e prompt generated) := by
  refine .trans ?_ (parkReady_booked _ _)
  unfold State.chargeCommit
  extract_lets s1 k now s2
  have h2 : Stays (Booked e₁) c s s2 :=
    (refill_booked s _).quiet (State.modCustomer_moves (Moves.refl _ s1) (by decide))
  split
  · exact h2.trans (notice_lasts s2 _ _ _ _ _)
  · exact h2

theorem commitBooks_booked (e : Entry) (x : Step) (n : Nat) : Stays (Booked e₁) c s (s.commitBooks e x n) := by
  unfold State.commitBooks
  exact (chargeAndPark_booked s e _ n).trans (paceMiss_lasts _ e)

theorem tokenRecords_booked (d : Nat) (e : Entry) (x : Step) (o : Sampled) : Stays (Booked e₁) c s (s.tokenRecords d e x o) := by
  unfold State.tokenRecords
  extract_lets r g recs s1
  have h1 : Stays (Booked e₁) c s s1 := .modCall s fun _ h => h
  refine h1.trans (.each s1 recs fun s w hw => writeRecord_stays s r fun hf => ?_)
  obtain ⟨y, -, rfl⟩ := List.mem_map.1 hw
  cases hf

theorem modCall_booked (d : Nat) {f : Entry → Entry} (hf : ∀ e, Booked e₁ e → Booked e₁ (f e)) : Stays (Booked e₁) c s (s.modCall d f) :=
  .modCall s fun _ => hf _

theorem latchPolicy_booked (d : Nat) : Stays (Booked e₁) c s (s.latchPolicy d) := modCall_booked s d fun _ h => h

theorem monitorDraft_booked (d : Nat) (x : Step) (n : Nat) : Stays (Booked e₁) c s (s.monitorDraft d x n) := by
  unfold State.monitorDraft
  split
  · extract_lets s1 e s2 pairs sd sa
    have h1 : Stays (Booked e₁) c s s1 := latchPolicy_booked s d
    have h2 : Stays (Booked e₁) c s s2 := (h1.trans (count_lasts s1 _ _)).trans (count_lasts _ _ _)
    split
    · have h3 := h2.trans (modCall_booked (f := fun e => { e with draftOff := true, pairs := [], offSteps := 0 }) s2 d fun _ h => h)
      exact (h3.trans (count_lasts _ _ _)).trans (notice_lasts _ _ _ _ _ _)
    · exact h2.trans (modCall_booked s2 d fun _ h => h)
  · extract_lets e
    split
    · split
      · have h1 := modCall_booked (e₁ := e₁) (c := c) (f := fun e => { e with draftOff := false, offSteps := e.offSteps + 1 }) s d fun _ h => h
        exact h1.trans (count_lasts _ _ _)
      · exact modCall_booked s d fun _ h => h
    · exact .refl s

end

/-! ### The last position commits a step (R187, R198) -/

theorem nextDraft_zero (s : State) {e : Entry} (h : e.draftDepth = 0) (image : Nat) : s.nextDraft e image = 0 := by
  unfold State.nextDraft
  dsimp only
  split
  · rfl
  · rw [h, Nat.zero_min]

theorem endStatus_congr {s t : State} (hf : t.isFirst = s.isFirst) (hn : t.now = s.now) (e : Entry) (x : Step) (o : Sampled) :
    t.endStatus e x o = s.endStatus e x o := by
  rw [State.endStatus, State.endStatus, State.overdue, State.overdue, hf, hn]

/-- The entry that a commit of a step with its sampled tokens writes. -/
def State.entryAfter (s : State) (x : Step) (o : Sampled) : Entry :=
  { s.committedEntry (s.call x.call) x o.tokens with matteState := o.matteState }

/-- A call without drafts goes on with what the commit has booked (R202). -/
theorem afterCommit_booked {s : State} (k : s.Canonical) (x : Step) (o : Sampled) {e₁ : Entry} (hd : e₁.draftDepth = 0)
    (h : Booked e₁ (s.call x.call)) : Booked e₁ ((s.afterCommit x o).call x.call) := by
  unfold State.afterCommit
  extract_lets c e s1 d
  rw [if_neg (by simp [e, c, h.goesOn])]
  have h1 : Stays (Booked e₁) c s s1 := by
    unfold s1
    split
    · exact (count_lasts s _ _).trans (modCall_booked _ c fun _ h => h)
    · exact .refl s
  have hd0 : d = 0 := by
    unfold d
    split
    · rfl
    · exact nextDraft_zero s1 ((h1.kept k h).draftDepth.trans hd) _
  rw [if_neg (by omega)]
  refine ((h1.quiet ?_).trans (restState_booked _ c)).kept k h
  exact State.stepGone_moves (Moves.ite (Moves.refl _ s1) (State.send_moves (Moves.refl _ s1) (by decide))) (by decide)

/-- Every piece but the tick and the registers. -/
abbrev offTickAndRegs : List Field := everyPiece.filter fun f => f ≠ .tick ∧ f ≠ .regs

/-- A commit that ends no call books its tokens. -/
theorem commitLast_booked {s : State} (k : s.Canonical) {x : Step} {o : Sampled}
    (hres : (s.part (s.call x.call).partition).resetting = false) (hend : s.endStatus (s.entryAfter x o) x o = none)
    (hd : (s.call x.call).draftDepth = 0) (hf : (s.call x.call).failIfParked = false) (hw : (s.call x.call).written = false) :
    Booked (s.entryAfter x o) ((s.commitLast x o).call x.call) := by
  unfold State.commitLast
  extract_lets c e books e' s1 s2 s3 s4
  rw [if_neg (by simp [e, c, hres])]
  have h0 : Booked e' ((s.putCall c e').call c) := by
    rw [call_putCall_self k]
    exact .self hf hw
  have h1 : Stays (Booked e') c (s.putCall c e') s1 := (tokenRecords_booked _ c e x o).trans (count_lasts _ _ _)
  have h2 : Stays (Booked e') c (s.putCall c e') s2 :=
    h1.quiet (Moves.ite (State.journal_moves (Moves.refl _ s1) (by decide)) (Moves.refl _ s1))
  have h3 : Stays (Booked e') c (s.putCall c e') s3 := h2.trans (monitorDraft_booked s2 c x _)
  have h4 : Stays (Booked e') c (s.putCall c e') s4 := by
    unfold s4
    split
    · exact h3.trans (commitBooks_booked s3 e x _)
    · exact h3
  have m1 : Moves offTickAndRegs s s1 := State.count_moves (State.tokenRecords_moves
    (State.putCall_moves (Moves.refl _ s) (by decide)) (by decide)) (by decide)
  have m3 : Moves offTickAndRegs s s3 :=
    State.monitorDraft_moves (Moves.ite (State.journal_moves m1 (by decide)) m1) (by decide)
  have m4 : Moves offTickAndRegs s s4 := Moves.ite (State.commitBooks_moves m3 (by decide)) m3
  have kp : (s.putCall c e').Canonical := (State.putCall_moves (fl := offTickAndRegs) (Moves.refl _ s) (by decide)).canon k
  rw [endStatus_congr (isFirst_of_pos (congrArg Regs.chainPos (m4.frame .regs (by decide))))
    (congrArg BitVec.toNat (m4.frame .tick (by decide))), show s.endStatus e' x o = none from hend]
  exact afterCommit_booked (m4.canon k) x o hd (h4.kept kp h0)

/-! ### A tuning step is counted (R213) -/

/-- The entry that a tuning step writes. -/
def State.entryTuned (s : State) (x : Step) (u : Tune) : Entry :=
  let e := s.call x.call
  { e with
    step := x.step + 1, stepsDone := e.stepsDone + 1, seenUnbounded := e.seenUnbounded || x.unbounded,
    seenTier := e.seenTier || x.tier, tune := some { s.tuneUpdate x u with stepsDone := u.stepsDone + 1 } }

theorem commitTune_booked {s : State} (k : s.Canonical) {x : Step} {u : Tune}
    (hres : (s.part (s.call x.call).partition).resetting = false) (hcan : (s.call x.call).cancelled = false)
    (hover : s.overdue (s.call x.call) = false) (hf : (s.call x.call).failIfParked = false) (hw : (s.call x.call).written = false)
    (hmore : u.stepsDone + 1 < u.steps) : Booked (s.entryTuned x u) ((s.commitTune x u).call x.call) := by
  unfold State.commitTune
  extract_lets c e update e' s1 s2
  rw [if_neg (by simp [e, c, hres])]
  have h0 : Booked e' ((s.putCall c e').call c) := by
    rw [call_putCall_self k]
    exact .self hf hw
  have kp : (s.putCall c e').Canonical := (State.putCall_moves (fl := offClock) (Moves.refl _ s) (by decide)).canon k
  have m1 : Moves offClock s s1 := State.stepGone_moves (State.putCall_moves (Moves.refl _ s) (by decide)) (by decide)
  have h1 : Stays (Booked e') c (s.putCall c e') s1 := .of_moves (State.stepGone_moves (Moves.refl _ _) (by decide))
  have m2 : Moves offClock s s2 := State.chargeAndPark_moves (State.count_moves m1 (by decide)) (by decide)
  have h2 : Stays (Booked e') c (s.putCall c e') s2 := (h1.trans (count_lasts s1 _ _)).trans (chargeAndPark_booked _ e _ 0)
  have hover2 : s2.overdue e = false := by
    rw [State.overdue, show s2.now = s.now from congrArg BitVec.toNat (m2.frame .tick (by decide))]
    exact hover
  split
  · rw [if_neg (by simp [e, c, hcan]), if_neg (by simp [hover2])]
    exact (h2.trans (restState_booked s2 c)).kept kp h0
  · exact (h1.trans (restState_booked s1 c)).kept kp h0

/-! ### STEP_COMMIT -/

section
variable {s : State} {c : Nat} {x : Step} (hx : s.oldestStep c = some x)
include hx

theorem oldestStep_call : x.call = c ∧ x ∈ s.steps := by
  obtain ⟨hm, hc⟩ := List.mem_filter.1 (List.mem_of_mem_head? hx)
  exact ⟨eq_of_beq hc, hm⟩

theorem oldestStep_step? : ∃ y, s.step? c x.step = some y := by
  obtain ⟨hc, hm⟩ := oldestStep_call hx
  exact Option.isSome_iff_exists.1 (List.find?_isSome.2 ⟨x, hm, by simp [hc]⟩)

/-- A step that waits is marked in the state or in one that has counted the wait. -/
theorem waits_marked (noted : Bool) (k : Nat) {f : Step → Step} (hf : ∀ y, (f y).call = y.call ∧ (f y).step = y.step) :
    ∃ y, ((if noted then s else s.count k).modStep c x.step f).step? c x.step = some (f y) := by
  obtain ⟨y, hy⟩ := oldestStep_step? hx
  refine ⟨y, step?_modStep_self ?_ (hf y)⟩
  split
  · exact hy
  · exact hy

theorem stepCommit_mask (ht : (s.call c).tune = none) (ho : s.sampleStep x = none) :
    ∃ y, (s.stepCommit c).step? c x.step = some y ∧ y.waitsMask = true ∧ y.maskWaited = true := by
  rw [State.stepCommit, hx]
  dsimp only
  rw [ht]
  dsimp only
  rw [ho]
  obtain ⟨y, hy⟩ := waits_marked hx x.maskWaited Ctr.maskWaits (f := fun x => { x with maskWaited := true, waitsMask := true })
    fun _ => ⟨rfl, rfl⟩
  exact ⟨_, hy, rfl, rfl⟩

theorem stepCommit_ring {o : Sampled} (ht : (s.call c).tune = none) (ho : s.sampleStep x = some o) (hmay : s.mayCommit x = true)
    (htok : o.tokens ≠ []) (hfull : s.tokenRingFull (s.call c).partition = true)
    (hres : (s.part (s.call c).partition).resetting = false) :
    ∃ y, (s.stepCommit c).step? c x.step = some y ∧ y.ringWaited = true := by
  rw [State.stepCommit, hx]
  dsimp only
  rw [ht]
  dsimp only
  rw [ho]
  dsimp only
  rw [if_neg (by simp [hmay]), if_pos (by simp [htok, hfull, hres])]
  obtain ⟨y, hy⟩ := waits_marked hx x.ringWaited (Ctr.tokenRingWaits (s.call c).partition) (f := fun x => { x with ringWaited := true })
    fun _ => ⟨rfl, rfl⟩
  exact ⟨_, hy, rfl⟩

theorem stepCommit_last {o : Sampled} (ht : (s.call c).tune = none) (ho : s.sampleStep x = some o) (hmay : s.mayCommit x = true)
    (hroom : o.tokens = [] ∨ s.tokenRingFull (s.call c).partition = false) : s.stepCommit c = s.commitLast x o := by
  rw [State.stepCommit, hx]
  dsimp only
  rw [ht]
  dsimp only
  rw [ho]
  dsimp only
  rw [if_neg (by simp [hmay]), if_neg (by rcases hroom with h | h <;> simp [h])]

theorem stepCommit_tune {u : Tune} (ht : (s.call c).tune = some u) : s.stepCommit c = s.commitTune x u := by
  rw [State.stepCommit, hx]
  dsimp only
  rw [ht]

end

end Sys2Proof.Machine

/-! PROOFS. Steps are scheduled: O55 from its six clauses (R187, R189, R194, R196, R201, R202, R216, R246, R256). -/

namespace Sys2Proof.Machine

section
variable {s : State} (k : s.Canonical) {c : Nat} {x : Step} (hx : s.oldestStep c = some x)
  (hres : (s.part (s.call c).partition).resetting = false) (hf : (s.call c).failIfParked = false) (hw : (s.call c).written = false)
include k hx hres hf hw

/-- A decoding step whose call goes on adds its tokens to the call and to its KV (R187). -/
theorem stepCommit_books {o : Sampled} (ht : (s.call c).tune = none) (ho : s.sampleStep x = some o) (hmay : s.mayCommit x = true)
    (hroom : o.tokens = [] ∨ s.tokenRingFull (s.call c).partition = false)
    (hend : s.endStatus { s.committedEntry (s.call c) x o.tokens with matteState := o.matteState } x o = none)
    (hd : (s.call c).draftDepth = 0) :
    ((s.stepCommit c).call c).generated = (s.call c).generated + o.tokens.length ∧ ((s.stepCommit c).call c).step = x.step + 1 ∧
      ((s.stepCommit c).call c).stepsDone = (s.call c).stepsDone + 1 ∧
      ((s.stepCommit c).call c).kvLen = (s.call c).kvLen + (if x.kind = .prefill then x.tokens.length else o.tokens.length) := by
  rw [stepCommit_last hx ht ho hmay hroom]
  obtain ⟨rfl, -⟩ := oldestStep_call hx
  obtain ⟨-, -, hgen, hstep, hdone, hkv, -⟩ := commitLast_booked k hres hend hd hf hw
  exact ⟨hgen, hstep, hdone, hkv⟩

/-- A tuning step of a call that goes on is counted (R213). -/
theorem stepCommit_tuned {u : Tune} (ht : (s.call c).tune = some u) (hcan : (s.call c).cancelled = false)
    (hover : s.overdue (s.call c) = false) (hmore : u.stepsDone + 1 < u.steps) :
    ((s.stepCommit c).call c).step = x.step + 1 ∧
      ((s.stepCommit c).call c).tune = some { s.tuneUpdate x u with stepsDone := u.stepsDone + 1 } := by
  rw [stepCommit_tune hx ht]
  obtain ⟨rfl, -⟩ := oldestStep_call hx
  obtain ⟨-, -, -, hstep, -, -, -, htune⟩ := commitTune_booked k hres hcan hover hf hw hmore
  exact ⟨hstep, htune⟩

end

theorem deadlineScan_next {s : State} (hn : s.now % 2 ^ 10 = 0) (ha : s.awake = true) : exec .deadlineScan s = .next s.deadlineScan :=
  when_true (by rw [hn, ← show s.awake = (s.running || s.starting) from rfl, ha]; rfl)

/-- Settles O55: a batch closes with the next number wherever its calls' steps are issued or restored; a commit's entry is followed
through records, budget and rest; the deadline scan ends its calls in turn; a preemption either finds room or does not. The model's
choices that the statement leans on: a wait is noted once (log 120), the batch number rises at the close (log 123), and on a longer
chain a call that waits for a mask is ended by message (log 171). -/
theorem stepsAreScheduled : Obligations.StepsAreScheduled := by
  unfold Obligations.StepsAreScheduled
  refine ⟨fun s => batchOpen_schedules, fun b s => batchWindowExpiry_closes, fun c x s k hdue hx => ?_, fun s k hn ha => ?_,
    fun j s k hv hi hd => ?_, fun c j s hdue => ?_⟩
  · refine ⟨s.stepCommit c, when_true hdue, stepCommit_mask hx, fun o => stepCommit_ring hx, ?_, ?_⟩
    · exact fun o ht ho hmay hroom hres hend hd hf hw => stepCommit_books k hx hres hf hw ht ho hmay hroom hend hd
    · exact fun u ht hres hcan hover hf hw hmore => stepCommit_tuned k hx hres hf hw ht hcan hover hmore
  · exact ⟨s.deadlineScan, deadlineScan_next hn ha, fun c => deadlineScan_ends k⟩
  · have hself := refill_customer_self k j
    refine ⟨s.refill j, budgetRefill_next hv hi hd, hself, fun i => refill_customer_ne k, ?_, fun hl i hc he hp => ?_⟩
    · rw [hself]
      exact refilled_due hv hi hd
    · exact refill_wakes k hl i ⟨hc, he, hp⟩
  · refine ⟨s.preempt c j, when_true hdue, preempt_refused c, fun h0 hroom => preempt_drains c ?_⟩
    rintro (h | h)
    · exact h0 h
    · omega

end Sys2Proof.Machine

/-! PROOFS. Grafts are retired, mattes are registered and freed (R208, R209, R214, R257). -/

namespace Sys2Proof.Machine

/-! ### Current generations -/

theorem freeGrafts_grafts (s : State) : s.freeGrafts.grafts = s.grafts.filter fun g => g.current || g.pins != 0 := by
  unfold State.freeGrafts
  extract_lets gone s1
  exact ((Moves.refl [.rings, .counters, .calls, .out] s1).each (xs := gone) fun u g hu => State.notice_moves hu (by decide)).frame
    .grafts (by decide)

/-- What is freed is current for no handle. -/
theorem currentGraft_freeGrafts (s : State) (k : Nat) : s.freeGrafts.currentGraft k = s.currentGraft k := by
  unfold State.currentGraft
  rw [freeGrafts_grafts, List.find?_filter]
  congr 1
  funext g
  exact Bool.eq_iff_iff.2 (by simp +contextual)

/-- A generation once its handle's generations have ended. -/
def Graft.retired (h : Nat) (g : Graft) : Graft := if g.handle == h then { g with current := false } else g

theorem Graft.retired_ne {h : Nat} {g : Graft} (hne : g.handle ≠ h) : g.retired h = g := if_neg (by simpa using hne)

/-- No generation is current for a retired handle. -/
theorem find?_retired_self (h : Nat) (gs : List Graft) : (gs.map (Graft.retired h)).find? (fun g => g.handle == h && g.current) = none := by
  rw [List.find?_eq_none]
  intro x hx
  obtain ⟨g, -, rfl⟩ := List.mem_map.1 hx
  by_cases he : g.handle = h
  · simp [Graft.retired, he]
  · simp [Graft.retired_ne he, he]

/-- The generations of another handle are not touched. -/
theorem find?_retired_ne {h k : Nat} (hne : k ≠ h) (gs : List Graft) :
    (gs.map (Graft.retired h)).find? (fun g => g.handle == k && g.current) = gs.find? fun g => g.handle == k && g.current := by
  have hsame : ∀ g : Graft, ((g.retired h).handle == k && (g.retired h).current) = (g.handle == k && g.current) := by
    intro g
    by_cases he : g.handle = h
    · simp [Graft.retired, he, hne.symm]
    · rw [Graft.retired_ne he]
  rw [find?_map_of_same _ hsame]
  cases hf : gs.find? fun g => g.handle == k && g.current with
  | none => rfl
  | some g =>
    have hk : g.handle = k := by
      have := List.find?_some hf
      simp only [Bool.and_eq_true, beq_iff_eq] at this
      exact this.1
    exact congrArg some (Graft.retired_ne (by rwa [hk]))

/-! ### GRAFT_RETIRE (R209) -/

/-- The handle's generations have ended, and those without pins are freed. -/
def State.graftRetired (s : State) (h : Nat) : State := State.freeGrafts { s with grafts := s.grafts.map (Graft.retired h) }

theorem graftRetired_currentGraft_self (s : State) (h : Nat) : (s.graftRetired h).currentGraft h = none :=
  (currentGraft_freeGrafts _ h).trans (find?_retired_self h s.grafts)

theorem graftRetired_currentGraft_ne (s : State) {h k : Nat} (hne : k ≠ h) : (s.graftRetired h).currentGraft k = s.currentGraft k :=
  (currentGraft_freeGrafts _ k).trans (find?_retired_ne hne s.grafts)

theorem Moves.setGrafts (s : State) (gs : List Graft) : Moves [.grafts] s { s with grafts := gs } where
  frame f hf := by
    cases f with
    | grafts => exact absurd List.mem_cons_self hf
    | _ => rfl
  canon k := ⟨k.parts, k.rings, k.counters, k.calls, k.customers, k.tiles, k.boughs, k.calSave, k.links, k.mem⟩
  fit := id
  grows := List.prefix_rfl

theorem graftRetired_moves (s : State) (h : Nat) : Moves offClock s (s.graftRetired h) :=
  State.freeGrafts_moves ((Moves.setGrafts s _).mono (by decide)) (by decide)

theorem graftRetired_inbound (s : State) (h : Nat) : InboundKept s (s.graftRetired h) :=
  (InboundKept.of_moves ((Moves.setGrafts s _).mono (by decide))).trans (freeGrafts_inbound _)

theorem graftRetire_next {f : Sys2Proof.Fetch} {s : State} {g : Graft} (h : s.Accepted f) (hw : Instr.wf (.graftRetire f) = true)
    (hg : s.currentGraft (Fetch.at f 8 2) = some g) (hname : mayName f.ring g.partition = true) :
    exec (.graftRetire f) s = .next (((s.advance f.ring).graftRetired (Fetch.at f 8 2)).complete (s.jobOf f) .ok) := by
  show s.descriptor "GRAFT_RETIRE" (Instr.wf (.graftRetire f)) f _ = _
  have hhandle : g.handle = Fetch.at f 8 2 := by
    have := List.find?_some hg
    simp only [Bool.and_eq_true, beq_iff_eq] at this
    exact this.1
  rw [hw, descriptor_accepted h, graftRetireEffect, advance_currentGraft, hg]
  dsimp only
  rw [if_pos hname, hhandle]
  rfl

theorem complete_currentGraft (s : State) (j : Job) (st : Status) (k : Nat) : (s.complete j st).currentGraft k = s.currentGraft k := by
  have hg : (s.complete j st).grafts = s.grafts :=
    (State.complete_moves (fl := [.rings, .counters, .jobs, .out]) (Moves.refl _ s) (by decide)).frame .grafts (by decide)
  rw [State.currentGraft, hg]
  rfl

/-! ### MATTE_LOAD and MATTE_FREE (R214) -/

@[simp] theorem advance_mattes (s : State) (r : RingId) : (s.advance r).mattes = s.mattes :=
  advance_read (F := State.mattes) (fun _ _ _ => rfl) s r

@[simp] theorem advance_matte? (s : State) (r : RingId) (h : Nat) : (s.advance r).matte? h = s.matte? h :=
  advance_read (F := fun u => u.matte? h) (fun _ _ _ => rfl) s r

@[simp] theorem advance_matteBad (s : State) (r q : RingId) (len : Nat) (b : Bytes) :
    matteBad (s.advance r) q len b = matteBad s q len b :=
  advance_read (F := fun u => matteBad u q len b) (fun _ _ _ => rfl) s r

/-- The list of registered mattes has changed. -/
def State.modMattes (s : State) (g : List Matte → List Matte) : State := { s with mattes := g s.mattes }

theorem modMattes_moves (s : State) (g : List Matte → List Matte) : Moves [.mattes] s (s.modMattes g) where
  frame f hf := by
    cases f with
    | mattes => exact absurd List.mem_cons_self hf
    | _ => rfl
  canon k := ⟨k.parts, k.rings, k.counters, k.calls, k.customers, k.tiles, k.boughs, k.calSave, k.links, k.mem⟩
  fit := id
  grows := List.prefix_rfl

/-- A descriptor whose effect is a change of the registered mattes and an answer. -/
theorem modMattes_answered {s : State} {f : Sys2Proof.Fetch} {st : Status} (c : s.Canonical) (h : s.Fetched f)
    (g : List Matte → List Matte) : Answered s (((s.advance f.ring).modMattes g).complete (s.jobOf f) st) f st 0 0 :=
  answered_of_inbound c h ((modMattes_moves _ g).mono (by decide)) (.of_moves ((modMattes_moves _ g).mono (by decide)))

theorem modMattes_mattes (s : State) (f : Sys2Proof.Fetch) (g : List Matte → List Matte) (j : Job) (st : Status) :
    (((s.advance f.ring).modMattes g).complete j st).mattes = g s.mattes :=
  ((State.complete_moves (fl := [.rings, .counters, .jobs, .out]) (Moves.refl _ _) (by decide)).frame .mattes (by decide)).trans
    (congrArg g (advance_mattes s f.ring))

theorem matteLoad_next {f : Sys2Proof.Fetch} {s : State} (h : s.Accepted f) (hw : Instr.wf (.matteLoad f) = true)
    (hbuf : f.bufFault = false) (hgood : matteBad s f.ring (Fetch.at f 16 8) (Bits.slice f.buf 0 (Fetch.at f 16 8)) = false) :
    exec (.matteLoad f) s = .next
      (((s.advance f.ring).modMattes (· ++ [matteOf (Bits.slice f.buf 0 (Fetch.at f 16 8))])).complete (s.jobOf f) .ok) := by
  show s.descriptor "MATTE_LOAD" (Instr.wf (.matteLoad f)) f _ = _
  rw [hw, descriptor_accepted h, matteLoadEffect, if_neg (by simp [hbuf])]
  dsimp only
  rw [advance_matteBad, if_neg (by simp [hgood])]
  rfl

theorem matteFree_next {f : Sys2Proof.Fetch} {s : State} {m : Matte} (h : s.Accepted f) (hw : Instr.wf (.matteFree f) = true)
    (hm : s.matte? (Fetch.at f 8 4) = some m) (hname : mayName f.ring m.partition = true)
    (hunused : ∀ x ∈ s.calls, x.2.hasMatte = true → x.2.state ≠ .free → x.2.matteHandle ≠ Fetch.at f 8 4) :
    exec (.matteFree f) s = .next
      (((s.advance f.ring).modMattes (List.filter fun x => x.handle != Fetch.at f 8 4)).complete (s.jobOf f) .ok) := by
  show s.descriptor "MATTE_FREE" (Instr.wf (.matteFree f)) f _ = _
  have hhandle : m.handle = Fetch.at f 8 4 := by simpa using List.find?_some hm
  have hfree : ((s.advance f.ring).calls.any fun x => decide (x.2.state ≠ .free) && x.2.hasMatte &&
      x.2.matteHandle == Fetch.at f 8 4) = false := by
    rw [advance_calls, List.any_eq_false]
    intro x hx hc
    simp only [Bool.and_eq_true, decide_eq_true_eq, beq_iff_eq] at hc
    obtain ⟨⟨hst, hhas⟩, hnamed⟩ := hc
    exact hunused x hx hhas hst hnamed
  rw [hw, descriptor_accepted h, matteFreeEffect, advance_matte?, hm]
  dsimp only
  rw [hhandle, if_neg (by simp [hname]), if_neg (by rw [hfree]; exact Bool.false_ne_true)]
  rfl

/-- Without the mattes of one handle the others are found as before. -/
theorem find?_matte_filter (ms : List Matte) (h k : Nat) :
    (ms.filter fun x => x.handle != h).find? (fun m => m.handle == k) = if k = h then none else ms.find? fun m => m.handle == k := by
  rw [List.find?_filter]
  split
  · next e => exact List.find?_eq_none.2 fun m _ => by simp [e]
  · next e =>
    congr 1
    funext m
    by_cases hk : m.handle = k
    · simp [hk, e]
    · simp [hk]

theorem matteFree_matte? (s : State) (f : Sys2Proof.Fetch) (h : Nat) (j : Job) (st : Status) (k : Nat) :
    (((s.advance f.ring).modMattes (List.filter fun x => x.handle != h)).complete j st).matte? k =
      if k = h then none else s.matte? k := by
  rw [State.matte?, modMattes_mattes]
  exact find?_matte_filter s.mattes h k

/-- Settles O21: the retired handle's generations end before those without pins are freed, and the list of mattes gains the new one or
loses the freed one. -/
theorem graftsAndMattes : Obligations.GraftsAndMattes := by
  unfold Obligations.GraftsAndMattes
  refine ⟨fun f s g c h hw hg hname => ?_, fun f s c h hw hbuf hgood => ?_, fun f s m c h hw hm hname hunused => ?_⟩
  · refine ⟨_, graftRetire_next h hw hg hname,
      answered_of_inbound c h.toFetched (graftRetired_moves _ _) (graftRetired_inbound _ _), ?_, fun k hne => ?_⟩
    · rw [complete_currentGraft, graftRetired_currentGraft_self]
    · rw [complete_currentGraft, graftRetired_currentGraft_ne _ hne, advance_currentGraft]
  · exact ⟨_, matteLoad_next h hw hbuf hgood, modMattes_answered c h.toFetched _, modMattes_mattes s f _ _ _⟩
  · refine ⟨_, matteFree_next h hw hm hname hunused, modMattes_answered c h.toFetched _, ?_, fun k hne => ?_⟩
    · rw [matteFree_matte?, if_pos rfl]
    · rw [matteFree_matte?, if_neg hne]

end Sys2Proof.Machine

/-! PROOFS. STEP_MASK gives a call the mask of its next sampling step (R216). -/

namespace Sys2Proof.Machine

@[simp] theorem advance_samplingStep (s : State) (r : RingId) (e : Entry) : (s.advance r).samplingStep e = s.samplingStep e :=
  advance_read (F := fun u => u.samplingStep e) (fun _ _ _ => rfl) s r

/-- The call holds the mask of a step. -/
def State.holdMask (s : State) (c n : Nat) (b : Bytes) : State := s.modCall c fun e => { e with mask := some (n, b) }

/-- No step of the call waits for a mask any more. -/
def State.endMaskWait (s : State) (c : Nat) : State :=
  { s with steps := s.steps.map fun x => if x.call == c then { x with waitsMask := false } else x }

theorem endMaskWait_moves (s : State) (c : Nat) : Moves [.steps] s (s.endMaskWait c) where
  frame f hf := by
    cases f with
    | steps => exact absurd List.mem_cons_self hf
    | _ => rfl
  canon k := ⟨k.parts, k.rings, k.counters, k.calls, k.customers, k.tiles, k.boughs, k.calSave, k.links, k.mem⟩
  fit := id
  grows := List.prefix_rfl

theorem endMaskWait_ends (s : State) (c : Nat) : ∀ x ∈ (s.endMaskWait c).steps, x.call = c → x.waitsMask = false := by
  intro x hx hc
  obtain ⟨y, -, rfl⟩ := List.mem_map.1 hx
  by_cases hy : y.call = c
  · rw [if_pos (by simpa using hy)]
  · rw [if_neg (by simpa using hy)] at hc
    exact absurd hc hy

theorem holdMask_moves (s : State) (c n : Nat) (b : Bytes) : Moves [.counters, .calls, .links, .out] s (s.holdMask c n b) :=
  State.modCall_moves (Moves.refl _ s) (by decide)

/-- Every piece that serving a mask may change. -/
theorem maskServed_moves (s : State) (c n : Nat) (b : Bytes) :
    Moves [.counters, .calls, .steps, .links, .out] s ((s.holdMask c n b).endMaskWait c) :=
  ((holdMask_moves s c n b).mono (by decide)).trans ((endMaskWait_moves _ c).mono (by decide))

theorem maskServed_call {s : State} (k : s.Canonical) (c n : Nat) (b : Bytes) :
    ((s.holdMask c n b).endMaskWait c).call c = { s.call c with mask := some (n, b) } :=
  (call_congr ((endMaskWait_moves _ c).frame .calls (by decide)) c).trans (call_modCall_self k c _)

theorem complete_steps (s : State) (j : Job) (st : Status) : (s.complete j st).steps = s.steps :=
  (State.complete_moves (fl := [.rings, .counters, .jobs, .out]) (Moves.refl _ s) (by decide)).frame .steps (by decide)

theorem stepMask_next {f : Sys2Proof.Fetch} {s : State} {p k c : Nat} {m : Matte} (h : s.Accepted f)
    (hw : Instr.wf (.stepMask f) = true) (hr : f.ring = .sq p k) (hc : s.findCall p (Fetch.at f 8 4) State.liveEntry = some c)
    (hm : s.matte? (s.call c).matteHandle = some m) (hhas : (s.call c).hasMatte = true) (hkind : m.kind = 3)
    (hmask : (s.call c).mask = none) (hstep : s.samplingStep (s.call c) = some (Fetch.at f 12 4))
    (hlen : Fetch.at f 24 4 = 8 * Bits.ceilDiv m.vocab 64) (hbuf : f.bufFault = false) :
    exec (.stepMask f) s = .next ((((s.advance f.ring).holdMask c (Fetch.at f 12 4) (Bits.slice f.buf 0 (Fetch.at f 24 4))).endMaskWait
      c).complete (s.jobOf f) .ok) := by
  show s.descriptor "STEP_MASK" (Instr.wf (.stepMask f)) f _ = _
  have hfind : ((ringPart f.ring).bind fun p => (s.advance f.ring).findCall p (Fetch.at f 8 4) State.liveEntry) = some c := by
    rw [hr]
    exact (advance_findCall s _ p _ _).trans hc
  rw [hw, descriptor_accepted h, stepMaskEffect, hfind]
  dsimp only
  rw [advance_call, advance_matte?, hm]
  dsimp only
  rw [if_neg (by simp [hhas, hkind, hstep, hmask]), if_neg (by simp [hlen]), if_neg (by simp [hbuf])]
  rfl

/-- Settles O25: the call holds the mask, its steps wait no longer, and the answer leaves both. -/
theorem maskServesItsStep : Obligations.MaskServesItsStep := by
  unfold Obligations.MaskServesItsStep
  intro f s p k c m ks h hw hr hc hm hhas hkind hmask hstep hlen hbuf
  have hserved := maskServed_moves (s.advance f.ring) c (Fetch.at f 12 4) (Bits.slice f.buf 0 (Fetch.at f 24 4))
  refine ⟨_, stepMask_next h hw hr hc hm hhas hkind hmask hstep hlen hbuf,
    answered_of_inbound ks h.toFetched (hserved.mono (by decide)) (.of_moves (hserved.mono (by decide))), ?_, ?_⟩
  · rw [call_congr (complete_calls _ _ _)]
    exact (maskServed_call (advance_canonical ks _) c _ _).trans (by rw [advance_call])
  · rw [complete_steps]
    exact endMaskWait_ends _ c

end Sys2Proof.Machine

/-! PROOFS. Objects that carry a signature wait for its check (R136, R143, R206, R377, R381). -/

namespace Sys2Proof.Machine

@[simp] theorem advance_sec (s : State) (r : RingId) : (s.advance r).sec = s.sec :=
  advance_read (F := State.sec) (fun _ _ _ => rfl) s r

/-- The descriptor has been taken from its ring, its operation is in progress, and the security unit's state has changed. -/
def State.submitted (s : State) (f : Sys2Proof.Fetch) (g : Sec → Sec) : State := ((s.advance f.ring).start (s.jobOf f)).modSec g

theorem submitted_started {s : State} (c : s.Canonical) (f : Sys2Proof.Fetch) (g : Sec → Sec) : Started s (s.submitted f g) f where
  taken := congrArg Ring.pos (advance_ring c f.ring)
  job := List.mem_append_right _ List.mem_cons_self

theorem submitted_sec (s : State) (f : Sys2Proof.Fetch) (g : Sec → Sec) : (s.submitted f g).sec = g s.sec :=
  congrArg g (advance_sec s f.ring)

/-- An object joins those that wait for a check (R377). -/
def Sec.enqueue (o : SigObject) (x : Sec) : Sec := { x with queue := x.queue ++ [o] }

/-- A firmware image joins them too; its slot is being staged and holds no valid image (R381). -/
def Sec.stage (slot : Nat) (j : Job) (image : Bytes) (x : Sec) : Sec :=
  Sec.enqueue (.firmware image slot j) { x with staging := some (slot, j), slots := Tbl.set {} slot {} x.slots }

section
variable {f : Sys2Proof.Fetch} {s : State} (h : s.Accepted f) (hbuf : f.bufFault = false)
include h hbuf

theorem graftLoad_next (hw : Instr.wf (.graftLoad f) = true) : exec (.graftLoad f) s =
    .next (s.submitted f (Sec.enqueue (.graft (Bits.slice f.buf 0 (Fetch.at f 16 8)) f.ring (s.jobOf f)))) := by
  show s.descriptor "GRAFT_LOAD" (Instr.wf (.graftLoad f)) f _ = _
  rw [hw, descriptor_accepted h, graftLoadEffect, if_neg (by simp [hbuf])]
  rfl

theorem loadManifest_next (hw : Instr.wf (.loadManifest f) = true) : exec (.loadManifest f) s =
    .next (s.submitted f (Sec.enqueue (.manifest (loadedObject f) (some (s.jobOf f))))) := by
  show s.descriptor "LOAD_MANIFEST" (Instr.wf (.loadManifest f)) f _ = _
  rw [hw, descriptor_accepted h, loadManifestEffect, if_neg (by simp [hbuf])]
  rfl

theorem loadPlacement_next (hw : Instr.wf (.loadPlacement f) = true) : exec (.loadPlacement f) s =
    .next (s.submitted f (Sec.enqueue (.placement (loadedObject f) (s.jobOf f)))) := by
  show s.descriptor "LOAD_PLACEMENT" (Instr.wf (.loadPlacement f)) f _ = _
  rw [hw, descriptor_accepted h, loadPlacementEffect, if_neg (by simp [hbuf])]
  rfl

theorem fwStage_next (hw : Instr.wf (.fwStage f) = true) (hstaging : s.sec.staging = none) (hcut : s.sec.cutover = none)
    (hslot : Fetch.bits f 192 1 ≠ s.sec.runSlot) : exec (.fwStage f) s =
    .next (s.submitted f (Sec.stage (Fetch.bits f 192 1) (s.jobOf f) (Bits.slice f.buf 0 (Fetch.at f 16 8)))) := by
  show s.descriptor "FW_STAGE" (Instr.wf (.fwStage f)) f _ = _
  have hidle : fwBusy (s.advance f.ring) = false := by simp [fwBusy, hstaging, hcut]
  rw [hw, descriptor_accepted h, fwStageEffect, if_neg (by simp [hidle]), advance_sec, if_neg hslot, if_neg (by simp [hbuf])]
  rfl

end

/-- What a descriptor's submission to the security unit shows: it is in progress, and the unit's state is the changed one. -/
theorem submitted_of_next {c : Instr} {f : Sys2Proof.Fetch} {s : State} {g : Sec → Sec} (k : s.Canonical)
    (hn : exec c s = .next (s.submitted f g)) : ∃ t, exec c s = .next t ∧ Started s t f ∧ t.sec = g s.sec :=
  ⟨_, hn, submitted_started k f g, submitted_sec s f g⟩

/-- Settles O20: each object joins the queue as its descriptor is submitted; that a staged slot holds no valid image stands in
`Sec.stage`. -/
theorem signedObjectsWait : Obligations.SignedObjectsWait := by
  unfold Obligations.SignedObjectsWait
  refine ⟨fun f s k h hbuf => ⟨fun hw => ?_, fun hw => ?_, fun hw => ?_⟩, fun f s k h hbuf hw hstaging hcut hslot => ?_⟩
  · obtain ⟨t, hn, hs, hsec⟩ := submitted_of_next k (graftLoad_next h hbuf hw)
    exact ⟨t, hn, hs, by rw [hsec]; rfl⟩
  · obtain ⟨t, hn, hs, hsec⟩ := submitted_of_next k (loadManifest_next h hbuf hw)
    exact ⟨t, hn, hs, by rw [hsec]; rfl⟩
  · obtain ⟨t, hn, hs, hsec⟩ := submitted_of_next k (loadPlacement_next h hbuf hw)
    exact ⟨t, hn, hs, by rw [hsec]; rfl⟩
  · obtain ⟨t, hn, hs, hsec⟩ := submitted_of_next k (fwStage_next h hbuf hw hstaging hcut hslot)
    exact ⟨t, hn, hs, by rw [hsec]; rfl, by rw [hsec]; rfl⟩

end Sys2Proof.Machine

/-! PROOFS. A descriptor that a check refuses, or whose operation answers at once, is answered and nothing else follows
(R235, R238, R240, R243). -/

namespace Sys2Proof.Machine

/-- A command whose descriptor a check refuses does what every descriptor command does; an ARRAY_TEST waits for a gap only where no
check refuses it. -/
theorem exec_descriptor_of_refused {c : Instr} {f : Sys2Proof.Fetch} (h : Instr.descriptor? c = some f) {s : State} {st : Status}
    (hst : s.descStatus f = some st) : ∃ row run, exec c s = s.descriptor row (Instr.wf c) f run := by
  cases c with
  | arrayTest g codes =>
    cases h
    exact ⟨_, _, if_neg (by simp [hst])⟩
  | _ => cases h <;> exact ⟨_, _, rfl⟩

/-- The pieces that an answer changes, the fetch included. -/
abbrev answerPieces : List Field := [.parts, .rings, .jobs, .counters, .out]

theorem advance_complete_moves (s : State) (r : RingId) (j : Job) (st : Status) :
    Moves answerPieces s ((s.advance r).complete j st) :=
  State.complete_moves (State.advance_moves (.refl _ s) rfl) rfl

/-- A fetched descriptor that a check refuses is answered with the check's status, and only that. -/
theorem exec_refused_answers {c : Instr} {f : Sys2Proof.Fetch} {s : State} {st : Status} (k : s.Canonical)
    (hc : Instr.descriptor? c = some f) (hw : Instr.wf c = true) (h : s.Fetched f) (hst : s.descStatus f = some st) :
    ∃ t, exec c s = .next t ∧ Answered s t f st 0 0 ∧ SameBut answerPieces s t := by
  obtain ⟨row, run, hexec⟩ := exec_descriptor_of_refused hc hst
  exact ⟨(s.advance f.ring).complete (s.jobOf f) st, by rw [hexec, hw, descriptor_refused h hst], answered_now k h,
    (advance_complete_moves s _ _ _).frame⟩

/-- Settles O17: the fetch is the same for every descriptor command, and a check that refuses leaves no operation to run. -/
theorem checksAnswerFirst : Obligations.ChecksAnswerFirst := by
  unfold Obligations.ChecksAnswerFirst
  intro c f s st k hc hw h hst
  exact exec_refused_answers k hc hw h hst

/-- An accepted descriptor whose operation answers at once is answered, and nothing else follows. -/
theorem descriptor_answers {f : Sys2Proof.Fetch} {s : State} {row : String} {run : Job → State → State} {st : Status} (k : s.Canonical)
    (h : s.Accepted f) (hrun : run (s.jobOf f) (s.advance f.ring) = (s.advance f.ring).complete (s.jobOf f) st) :
    ∃ t, s.descriptor row true f run = .next t ∧ Answered s t f st 0 0 ∧ SameBut answerPieces s t :=
  ⟨(s.advance f.ring).complete (s.jobOf f) st, by rw [descriptor_accepted h, hrun], answered_now k h.toFetched,
    (advance_complete_moves s _ _ _).frame⟩

/-- Version is checked first (R243, R249). -/
theorem descStatus_of_version_ne {s : State} {f : Sys2Proof.Fetch} (h : Fetch.version f ≠ s.regs.verAck.toNat) :
    s.descStatus f = some .badVersion := if_pos h

/-- The opcode is checked next (R243). -/
theorem descStatus_of_reserved {s : State} {f : Sys2Proof.Fetch} (hv : Fetch.version f = s.regs.verAck.toNat)
    (hop : opOf (Fetch.opcode f) = none) : s.descStatus f = some .badOpcode := by
  unfold State.descStatus State.opStatus
  rw [if_neg (by simp [hv]), hop]

/-- Table 11-4 lists no opcode that the well-formedness of commands counts as reserved. -/
theorem opOf_of_unknown {n : Nat} (h : knownOpcode n = false) : opOf n = none := by
  unfold opOf
  split
  on_goal 33 => rfl
  all_goals cases h

theorem opcode_eq_code (f : Sys2Proof.Fetch) : Fetch.opcode f = f.code := by
  simp [Fetch.opcode, Fetch.at, Fetch.bits, Bits.field, Fetch.code]

theorem opOf_reserved {f : Sys2Proof.Fetch} (hw : Instr.wf (.badOpcode f) = true) : opOf (Fetch.opcode f) = none := by
  rw [opcode_eq_code]
  exact opOf_of_unknown (by simpa [Instr.wf] using hw)

/-- Settles O18: NOP's operation is its answer, and a reserved opcode is refused by the second check. -/
theorem nopAndReservedOpcodes : Obligations.NopAndReservedOpcodes := by
  unfold Obligations.NopAndReservedOpcodes
  refine ⟨fun f s k hw h => ?_, fun f s k hw h hv => ?_⟩
  · obtain ⟨t, ht, ha, -⟩ := descriptor_answers (row := "NOP") (run := nopEffect) k h rfl
    exact ⟨t, by rw [← ht, ← hw]; rfl, ha⟩
  · obtain ⟨t, ht, ha, -⟩ := exec_refused_answers k rfl hw h (descStatus_of_reserved hv (opOf_reserved hw))
    exact ⟨t, ht, ha⟩

/-- Settles O19: each of these operations reads its buffer before it does anything else. -/
theorem bufferFaultsAnswer : Obligations.BufferFaultsAnswer := by
  unfold Obligations.BufferFaultsAnswer
  intro f s k h hbuf c hc hw
  have hrun : ∀ {row : String} {run : Job → State → State}, exec c s = s.descriptor row (Instr.wf c) f run →
      run (s.jobOf f) (s.advance f.ring) = (s.advance f.ring).complete (s.jobOf f) .hostFault →
      ∃ t, exec c s = .next t ∧ Answered s t f .hostFault 0 0 ∧ SameBut answerPieces s t := fun he hr => by
    rw [he, hw]
    exact descriptor_answers k h hr
  simp only [List.mem_cons, List.not_mem_nil, or_false] at hc
  rcases hc with rfl | rfl | rfl | rfl | rfl | rfl | rfl <;> exact hrun rfl (if_pos hbuf)

end Sys2Proof.Machine

/-! PROOFS. The interface version is agreed by VERSION_NEG, and without it nothing is fetched (R249). -/

namespace Sys2Proof.Machine

/-- VERSION_NEG with a written value: REQ is its low 4 bits, ACK the smaller of REQ and 1 (R249). -/
def Regs.versioned (x : Regs) (v : Nat) : Regs :=
  { x with verReq := BitVec.ofNat 4 (v % 16), verAck := BitVec.ofNat 4 (min (v % 16) 1) }

theorem Regs.versioned_mod (x : Regs) (v : Nat) : x.versioned (v % 2 ^ 32) = x.versioned v := by
  rw [Regs.versioned, Nat.mod_mod_of_dvd v (by decide : 16 ∣ 2 ^ 32), Regs.versioned]

/-- Before SEAL no register is locked (R405). -/
theorem writeOpen_of_unsealed {s : State} (h : s.regs.sealed = false) (o v : Nat) : s.writeOpen o v = s.writeReg o v := by
  simp [State.writeOpen, h]

/-- VERSION_NEG is a 32-bit register; the word behind it holds nothing (R249, R404). -/
theorem windowWrite_version {s : State} {a : RegAccess} (hoff : a.off = 0x0020) (hsize : a.size = 4 ∨ a.size = 8)
    (h : s.regs.sealed = false) : s.windowWrite a = s.modRegs fun x => x.versioned a.value.toNat := by
  have hwide : State.wide64 0x0020 = false := by decide
  have hwrite : s.writeOpen 0x0020 (a.value.toNat % 2 ^ 32) = s.modRegs fun x => x.versioned a.value.toNat := by
    rw [writeOpen_of_unsealed h]
    simp only [← Regs.versioned_mod _ a.value.toNat]
    simp [State.writeReg, State.writeVersion, Bits.field, Regs.versioned]
  have hnext : ∀ v, (s.modRegs fun x => x.versioned a.value.toNat).writeOpen 0x0024 v = s.modRegs fun x => x.versioned a.value.toNat :=
    fun v => writeOpen_of_unsealed (s := s.modRegs fun x => x.versioned a.value.toNat) h _ v
  unfold State.windowWrite
  rcases hsize with hs | hs
  · simp [-Nat.reducePow, hoff, hs, h, hwide, State.write4, hwrite]
  · simp [-Nat.reducePow, hoff, hs, h, hwide, hwrite, hnext]

theorem versionNeg_next {a : RegAccess} {s : State} (hoff : a.off = 0x0020) (hsize : a.size = 4 ∨ a.size = 8) (hread : a.read = false)
    (hserved : s.windowServed = true) (h : s.regs.sealed = false) :
    exec (.versionNeg a) s = .next (s.modRegs fun x => x.versioned a.value.toNat) := by
  have hn : Instr.wf (.versionNeg a) = true := by
    rcases hsize with hs | hs <;> simp [Instr.wf, RegAccess.covers, hoff, hs, hread]
  show regCommand _ _ _ _ = _
  unfold regCommand
  rw [hn, if_pos hserved, hread, windowWrite_version hoff hsize h]
  rfl

theorem fetchHeld_of_no_version {s : State} (h : s.regs.verAck = 0) (f : Sys2Proof.Fetch) : s.fetchHeld f = true := by
  simp [State.fetchHeld, h]

/-- Settles O36: the write sets the register's two fields; without a version the fetch is held, and the version is the first check. -/
theorem versionIsAgreed : Obligations.VersionIsAgreed := by
  unfold Obligations.VersionIsAgreed
  refine ⟨fun a s hoff hsize hread hserved h => ⟨_, versionNeg_next hoff hsize hread hserved h,
      (State.modRegs_moves (.refl _ s) rfl).frame, rfl⟩, fun c f s hc hw hring hserves hv => ?_, fun c f s k hc hw h hv => ?_⟩
  · obtain ⟨t, ht, hsame⟩ := heldDescriptorStays c f s hc hw hring hserves (fetchHeld_of_no_version hv f)
    exact ⟨t, ht, by rw [State.ring, hsame .rings (by decide)]; rfl⟩
  · obtain ⟨t, ht, ha, -⟩ := exec_refused_answers k hc hw h (descStatus_of_version_ne hv)
    exact ⟨t, ht, ha⟩

end Sys2Proof.Machine

/-! PROOFS. Doorbells move the counts of their rings (R231). No record that is written changes a consumer's count. -/

namespace Sys2Proof.Machine

/-! ### Records leave the consumer's count -/

/-- From `s` to `t` every ring keeps its doorbell count. -/
structure CountsKept (s t : State) : Prop where
  canon : s.Canonical → t.Canonical
  kept : s.Canonical → ∀ q, (t.ring q).count = (s.ring q).count

namespace CountsKept
variable {r s t : State}

theorem refl (s : State) : CountsKept s s := ⟨id, fun _ _ => rfl⟩

theorem trans (h : CountsKept r s) (k : CountsKept s t) : CountsKept r t :=
  ⟨fun c => k.canon (h.canon c), fun c q => (k.kept (h.canon c) q).trans (h.kept c q)⟩

theorem of_moves (h : Moves InboundKept.quietFields s t) : CountsKept s t :=
  ⟨h.canon, fun _ q => by rw [State.ring, h.frame .rings (by decide)]; rfl⟩

theorem quiet (h : CountsKept r s) (k : Moves InboundKept.quietFields s t) : CountsKept r t := h.trans (of_moves k)

theorem modRing (s : State) (q : RingId) {g : Ring → Ring} (hg : ∀ x, (g x).count = x.count := by intro; rfl) :
    CountsKept s (s.modRing q g) where
  canon := (State.modRing_moves (.refl [.rings] s) rfl).canon
  kept c p := by
    by_cases h : ringNo p = ringNo q
    · have hp : ∀ u : State, u.ring p = u.ring q := fun u => by rw [State.ring, h]; rfl
      rw [hp, hp, ring_modRing_self c, hg]
    · rw [ring_modRing_ne c h]

theorem ite {c : Prop} [Decidable c] (h : CountsKept r s) (k : CountsKept r t) : CountsKept r (if c then s else t) := by
  split
  · exact h
  · exact k

theorem foldl {α : Type} {f : State → α → State} (hf : ∀ s x, CountsKept s (f s x)) :
    ∀ (xs : List α) (s : State), CountsKept s (xs.foldl f s)
  | [], s => refl s
  | x :: xs, s => (hf s x).trans (foldl hf xs (f s x))

theorem each {α : Type} {f : State → α → State} (s : State) (xs : List α) (hf : ∀ s x, CountsKept s (f s x)) :
    CountsKept s (s.each xs f) := foldl hf xs s

end CountsKept

section
variable (s : State) (r : RingId)

theorem interrupt_counts : CountsKept s (s.interrupt r) :=
  (CountsKept.of_moves (State.emit_moves (.refl _ s) rfl)).trans (.modRing _ r)

theorem flush_counts : CountsKept s (s.flush r) := .ite (interrupt_counts s r) (.refl s)

theorem putRecord_counts (w : Waiting) : CountsKept s (s.putRecord r w) := by
  unfold State.putRecord
  extract_lets g s1 s2 s3
  have h1 : CountsKept s s1 := .of_moves (State.emit_moves (.refl _ s) rfl)
  have h2 : CountsKept s s2 := (h1.trans (.modRing s1 r)).quiet (State.recordOut_moves (.refl _ _) rfl)
  have h3 : CountsKept s s3 := h2.trans (.modRing s2 r)
  exact .ite h2 (.ite (h3.trans (interrupt_counts s3 r)) h3)

theorem writeRecord_counts (w : Waiting) : CountsKept s (s.writeRecord r w) := by
  have hwait : CountsKept s (s.modRing r fun g => { g with waiting := g.waiting ++ [w] }) := .modRing s r
  unfold State.writeRecord
  refine .ite hwait (.ite (.of_moves (State.discardRecord_moves (.refl _ s) rfl)) (.ite (.ite ?_ (putRecord_counts s r w))
    (.ite hwait (putRecord_counts s r w))))
  exact (CountsKept.of_moves (State.count_moves (.refl _ s) rfl)).trans (.modRing _ r)

theorem drainWaiting_counts : ∀ (n : Nat) (s : State), CountsKept s (s.drainWaiting r n)
  | 0, s => .refl s
  | n + 1, s => by
    unfold State.drainWaiting
    split
    · exact .refl s
    · exact .ite (.refl s) (((CountsKept.modRing s r).trans (putRecord_counts _ r _)).trans (drainWaiting_counts n _))

theorem release_counts : CountsKept s (s.release r) := by
  unfold State.release
  extract_lets g s1
  have h1 : CountsKept s s1 := .ite ((CountsKept.modRing s r).trans (putRecord_counts _ r _)) (.refl s)
  split
  · exact .refl s
  · exact h1.trans (drainWaiting_counts r _ s1)

theorem retryOrRelease_counts : CountsKept s (s.retryOrRelease r) := by
  unfold State.retryOrRelease
  split
  · exact release_counts s r
  · exact (CountsKept.modRing s r).trans (putRecord_counts _ r _)

theorem event_counts (e : EventRec) : CountsKept s (s.event e) := by
  unfold State.event
  extract_lets e
  split
  · exact .ite (.of_moves (State.modSec_moves (.refl _ s) rfl)) (writeRecord_counts s _ _)
  · exact writeRecord_counts s _ _

theorem complete_counts (j : Job) (st : Status) : CountsKept s (s.complete j st) := by
  have h1 : CountsKept s { s with jobs := s.jobs.erase j } :=
    ⟨fun k => ⟨k.parts, k.rings, k.counters, k.calls, k.customers, k.tiles, k.boughs, k.calSave, k.links, k.mem⟩, fun _ _ => rfl⟩
  unfold State.complete State.completeWith
  extract_lets s1
  split
  · exact h1.trans (writeRecord_counts s1 _ _)
  · exact h1.trans (writeRecord_counts s1 _ _)

/-! ### What entries hold is freed -/

theorem watchFrames_counts (stack : Nat) : CountsKept s (s.watchFrames stack) := by
  have hm : ∀ b : Mem → BitVec 8, Moves InboundKept.quietFields s (s.modMem fun m => { m with lowRaised := b m }) := fun b =>
    Moves.modMem (.refl _ s) id rfl
  unfold State.watchFrames
  exact .ite (.ite (.refl s) ((CountsKept.of_moves (hm _)).trans (event_counts _ _))) (.of_moves (hm _))

theorem freeRun_counts (stack frame : Nat) : CountsKept s (s.freeRun stack frame) :=
  (CountsKept.of_moves (State.count_moves (Moves.modMem (.refl _ s) id rfl) rfl)).trans (watchFrames_counts _ stack)

theorem freeGrafts_counts : CountsKept s s.freeGrafts := by
  unfold State.freeGrafts
  extract_lets gone s1
  have h1 : CountsKept s s1 := .of_moves ((Moves.setGrafts s _).mono rfl)
  exact h1.trans (.each s1 gone fun s _ => writeRecord_counts s _ _)

theorem unpinGraft_counts (handle gen : Nat) : CountsKept s (s.unpinGraft handle gen) :=
  (CountsKept.of_moves ((Moves.setGrafts s _).mono rfl)).trans (freeGrafts_counts _)

theorem releaseHoldings_counts (c : Nat) : CountsKept s (s.releaseHoldings c) := by
  unfold State.releaseHoldings
  extract_lets e s1 s2
  have h1 : CountsKept s s1 := .each s _ fun s _ => freeRun_counts s _ _
  have h2 : CountsKept s s2 := h1.quiet (State.modPart_moves (.refl _ s1) rfl)
  exact .ite (h2.trans (unpinGraft_counts s2 _ _)) h2

theorem freeWritten_counts : CountsKept s s.freeWritten := by
  refine .each s _ fun s c => ?_
  exact ((releaseHoldings_counts s c).quiet ((Moves.setCall _ c {}).mono rfl)).quiet (State.afterFree_moves (.refl _ _) rfl)

theorem partResetFlush_counts (p : Nat) : CountsKept s (s.partResetFlush p) := by
  unfold State.partResetFlush
  extract_lets x s1 s2 s3
  have h1 : CountsKept s s1 := .foldl (fun s q => flush_counts s q) _ s
  have h3 : CountsKept s s3 := (h1.trans (event_counts s1 _)).trans (.foldl (fun s j => complete_counts s j _) _ s2)
  exact .ite (h3.quiet (State.noteStall_moves (State.modPart_moves (.refl _ s3) rfl) rfl)) (.refl s)

/-- Space on an outbound ring is used without a change of any count. -/
theorem outboundNext_counts : CountsKept s (s.outboundNext r) := by
  unfold State.outboundNext
  extract_lets s1
  have h1 : CountsKept s s1 := (retryOrRelease_counts s r).trans (freeWritten_counts _)
  split
  · next p =>
    exact ((h1.quiet (State.afterFree_moves (.refl _ s1) rfl)).trans (partResetFlush_counts _ p)).quiet (State.noteStall_moves (.refl _ _) rfl)
  · exact h1

end

/-! ### Doorbells (R231) -/

theorem ring_congr {s t : State} (h : t.rings = s.rings) (r : RingId) : t.ring r = s.ring r := by rw [State.ring, h]; rfl

theorem noteStall_ring (s : State) (p : Nat) (r : RingId) : (s.noteStall p).ring r = s.ring r :=
  ring_congr ((State.noteStall_moves (.refl [.parts, .counters] s) rfl).frame .rings (by decide)) r

section
variable {s : State} {r : RingId} {count : BitVec 32}

/-- A doorbell of a disabled ring is counted. -/
theorem doorbell_disabled (h : (s.ring r).enabled = false) : s.doorbell r count = s.count Ctr.dbDisabled := by
  unfold State.doorbell
  simp [h]

/-- The count of a doorbell is taken over where it is valid, and noted as bad where not (R231). -/
def State.rung (s : State) (r : RingId) (count : BitVec 32) : State :=
  if State.doorbellOk (s.ring r) r count then s.modRing r fun g => { g with count := count } else s.doorbellBad r count

/-- A doorbell of an inbound ring lets it be fetched again; the note of a stall touches no ring. -/
theorem doorbell_inbound_ring (h : (s.ring r).enabled = true) (hr : inbound r = true) :
    (s.doorbell r count).ring r = ((s.rung r count).modRing r fun g => { g with stopped := false }).ring r := by
  rw [State.doorbell, if_neg (by simp [h])]
  dsimp only
  rw [if_pos hr]
  split
  · exact noteStall_ring _ _ _
  · rfl

theorem doorbell_outbound (h : (s.ring r).enabled = true) (hr : inbound r = false) :
    s.doorbell r count = (s.rung r count).outboundNext r := by
  rw [State.doorbell, if_neg (by simp [h])]
  exact if_neg (by simp [hr])

theorem doorbellOk_inbound (hr : inbound r = true) (g : Ring) :
    State.doorbellOk g r count = decide ((count - g.pos).toNat ≤ 2 ^ g.exp.toNat) := if_pos hr

end

theorem doorbellBad_inbound (s : State) (r : RingId) (count : BitVec 32) : InboundKept s (s.doorbellBad r count) :=
  (InboundKept.of_moves (State.count_moves (.refl _ s) rfl)).trans (event_inbound _ _)

section
variable {s : State} {r : RingId} {count : BitVec 32} (k : s.Canonical) (he : ringExists r = true) (hr : inbound r = true)
include k he hr

/-- What an inbound ring holds of a doorbell's count. -/
theorem rung_ring : (s.rung r count).Canonical ∧ (s.rung r count).ring r =
    { s.ring r with count := if State.doorbellOk (s.ring r) r count then count else (s.ring r).count } := by
  unfold State.rung
  split
  · exact ⟨(modRing_onRing k r _).canon, ring_modRing_self k r _⟩
  · have hbad := doorbellBad_inbound s r count
    exact ⟨hbad.canon k, hbad.kept k r hr he⟩

variable (hon : (s.ring r).enabled = true)
include hon

theorem doorbell_ring : (s.doorbell r count).ring r =
    { s.ring r with
      count := if State.doorbellOk (s.ring r) r count then count else (s.ring r).count
      stopped := false } := by
  obtain ⟨ku, hring⟩ := rung_ring (count := count) k he hr
  rw [doorbell_inbound_ring hon hr, ring_modRing_self ku, hring]

theorem doorbell_ring_valid (hc : (count - (s.ring r).pos).toNat ≤ 2 ^ (s.ring r).exp.toNat) :
    (s.doorbell r count).ring r = { s.ring r with count := count, stopped := false } := by
  rw [doorbell_ring k he hr hon, doorbellOk_inbound hr, if_pos (decide_eq_true hc)]

theorem doorbell_ring_invalid (hc : 2 ^ (s.ring r).exp.toNat < (count - (s.ring r).pos).toNat) :
    (s.doorbell r count).ring r = { s.ring r with stopped := false } := by
  rw [doorbell_ring k he hr hon, doorbellOk_inbound hr, if_neg (by simpa only [decide_eq_true_eq, not_le] using hc)]

end

theorem doorbell_count_outbound {s : State} (k : s.Canonical) {r : RingId} {count : BitVec 32} (hon : (s.ring r).enabled = true)
    (hr : inbound r = false) (hc : (count - (s.ring r).count).toNat ≤ ((s.ring r).pos - (s.ring r).count).toNat) :
    ((s.doorbell r count).ring r).count = count := by
  have hok : State.doorbellOk (s.ring r) r count = true := by simpa [State.doorbellOk, hr] using hc
  rw [doorbell_outbound hon hr, State.rung, if_pos hok, (outboundNext_counts _ r).kept (modRing_onRing k r _).canon, ring_modRing_self k]

/-- Settles O34: the doorbell of a ring by what it is (disabled, inbound, outbound); a flit on port H brings the same doorbell. -/
theorem doorbellsMoveCounts : Obligations.DoorbellsMoveCounts := by
  unfold Obligations.DoorbellsMoveCounts
  refine ⟨fun r count s k he hserves hiso => ⟨s.doorbell r count, when_true (by simp [he, hserves, hiso]), fun hoff => ?_,
    fun hon hr => doorbell_ring_valid k he hr hon, fun hon hr => doorbell_ring_invalid k he hr hon,
    fun hon hr => doorbell_count_outbound k hon hr⟩, fun hd r count s k he h => ?_⟩
  · rw [doorbell_disabled hoff]
    exact (State.count_moves (.refl _ s) rfl).frame
  · have hacc := acceptFlit_moves s hd
    have hring : (s.acceptFlit hd).ring r = s.ring r := ring_congr (hacc.frame .rings (by decide)) r
    refine ⟨_, (if_pos he).trans (onFlit_ready h), fun hon hr hc => ?_⟩
    rw [ring_congr ((acknowledge_moves _ hd.port).frame .rings (by decide)), ← hring]
    exact doorbell_ring_valid (hacc.canon k) he hr (by rw [hring]; exact hon) (by rw [hring]; exact hc)

end Sys2Proof.Machine

/-! PROOFS. Failed accesses and the coalescing window (R198, R244, R247, R413). -/

namespace Sys2Proof.Machine

theorem hasDescriptor_ring {s : State} {r : RingId} (h : s.hasDescriptor r = true) : inbound r = true ∧ ringExists r = true := by
  simp only [State.hasDescriptor, Bool.and_eq_true] at h
  exact ⟨h.1.1.2, h.1.1.1⟩

/-- A failed descriptor fetch stops its ring; its event goes to another ring (R244). -/
theorem fetchFault_ring {s : State} (k : s.Canonical) {r : RingId} (hr : inbound r = true) (he : ringExists r = true) :
    (s.fetchFault r).ring r = { s.ring r with stopped := true } := by
  rw [State.fetchFault, (event_inbound _ _).kept (modRing_onRing k r _).canon r hr he, ring_modRing_self k]

theorem hostFaultJob_over {s : State} (k : s.Canonical) {j : Job} {c : Nat} (hc : s.jobCall j = some c) : Over ((s.hostFaultJob j).call c) := by
  rw [State.hostFaultJob, hc]
  exact endCall_over k c (by decide) none

theorem hostFaultJob_queue {s : State} {j : Job} (hc : s.jobCall j = none) :
    (s.hostFaultJob j).sec.queue = s.sec.queue.filter fun o => State.sigJob o != some j := by
  rw [State.hostFaultJob, hc]
  dsimp only
  rw [(State.complete_moves (.refl [.rings, .counters, .jobs, .out] _) rfl).frame .sec (by decide)]
  rfl

/-- An event is a record of the event ring alone. -/
theorem event_ring_ne {s : State} (k : s.Canonical) {r : RingId} (h : ringNo r ≠ ringNo .eq) (e : EventRec) : (s.event e).ring r = s.ring r := by
  unfold State.event
  dsimp only
  split
  · split
    · rfl
    · exact (writeRecord_onRing k _ _).others r h
  · exact (writeRecord_onRing k _ _).others r h

theorem ringNo_eq_iff {r : RingId} (h : inbound r = false) : ringNo r = ringNo .eq ↔ r = .eq := by
  cases r <;> simp [ringNo, inbound] at h ⊢

/-- A failed record write puts the producer position back and keeps the record for that entry (R413). -/
theorem recordFault_ring {s : State} (k : s.Canonical) {r : RingId} (hr : inbound r = false) (w : Waiting) :
    (s.recordFault r w).ring r = { s.ring r with
      pos := (s.ring r).pos - 1, failed := some { w with frees := s.failedFrees w }, last := none
      pendingCount := if w.quiet then (s.ring r).pendingCount else (s.ring r).pendingCount - 1 } := by
  have hm : Moves [.counters, .calls] s ((s.keepEntry r w).count Ctr.recordWriteFaults) :=
    State.count_moves (State.keepEntry_moves (.refl _ s) rfl) rfl
  have hring := ring_congr (hm.frame .rings (by decide)) r
  unfold State.recordFault
  dsimp only
  split
  · rw [ring_modRing_self (hm.canon k), hring]
  · next hne =>
    rw [event_ring_ne (modRing_onRing (hm.canon k) r _).canon (fun e => hne ((ringNo_eq_iff hr).1 e)), ring_modRing_self (hm.canon k), hring]

theorem interrupt_ring {s : State} (k : s.Canonical) (r : RingId) : (s.interrupt r).ring r = { s.ring r with pendingCount := 0 } :=
  ring_modRing_self (emit_onRing k r _).canon r _

/-- Settles O35: each event has its one effect on its ring, its call or the queue of checks. That only the record issued last can fail
and that its position goes back by one is the model's choice (log 46), as is that its entry is freed with the record written again unless
a later call has taken it (log 175). -/
theorem hostAccessesFail : Obligations.HostAccessesFail := by
  unfold Obligations.HostAccessesFail
  refine ⟨fun r s k hw hserves hstop hiso => ?_, fun r pos c j s k hj hc => ?_, fun r pos j s hj hc => ?_,
    fun r w s k he hr hfree hlast => ?_, fun r s k he hr hiso hirq htimer hpend hdue => ?_⟩
  · obtain ⟨hr, he⟩ := hasDescriptor_ring hw
    exact ⟨_, when_true (by simp [hw, hserves, hstop, hiso]), fetchFault_ring k hr he⟩
  · exact ⟨s.hostFaultJob j, by simp only [exec, execHostFault, hj], hostFaultJob_over k hc⟩
  · exact ⟨s.hostFaultJob j, by simp only [exec, execHostFault, hj], hostFaultJob_queue hc⟩
  · have hring := recordFault_ring k hr w
    refine ⟨s.recordFault r w, ?_, by rw [hring], by rw [hring]⟩
    simp only [exec, execRecordWriteFault, hlast]
    exact when_true (by simp [he, hr, hfree])
  · exact ⟨_, when_true (by simpa [he, hr, hiso, hirq, hpend, hdue] using htimer), ⟨_, interrupt_out s r, List.mem_cons_self⟩,
      interrupt_ring k r⟩

end Sys2Proof.Machine

/-! PROOFS. What each command answers and what it may change, row by row; the step runs one command (R228). -/

namespace Sys2Proof.Machine

theorem Field.within_trans {a b c : List Field} (h : Field.within a b = true) (k : Field.within b c = true) : Field.within a c = true := by
  simp only [Field.within, List.all_eq_true, List.contains_iff_mem] at h k ⊢
  exact fun f hf => k f (h f hf)

/-- What a command answers: no refusal, and a next state only where nothing but the listed pieces has changed. -/
structure Reaches (l : List Field) (s : State) (o : Result) : Prop where
  moves : ∀ t, o = .next t → Moves l s t
  answers : ∀ r, o ≠ .refused r

namespace Reaches
variable {l : List Field} {s u : State}

theorem mono {a b : List Field} {o : Result} (h : Reaches a s o) (hab : Field.within a b = true) : Reaches b s o :=
  ⟨fun t e => (h.moves t e).mono hab, h.answers⟩

theorem next (h : Moves l s u) : Reaches l s (.next u) := ⟨fun _ e => by cases e; exact h, fun _ e => by cases e⟩

theorem fault {x : Fault} : Reaches l s (.fault x) := ⟨fun _ e => (by cases e), fun _ e => (by cases e)⟩

theorem when {row : String} {ok : Bool} (h : Moves l s u) : Reaches l s (u.when row ok) :=
  ⟨fun _ e => when_next e ▸ h, fun _ => when_not_refused⟩

theorem descriptor {row : String} {named : Bool} {f : Sys2Proof.Fetch} {run : Job → State → State}
    (hl : Field.within [.parts, .rings, .counters, .jobs, .out] l = true) (hr : ∀ j u, Moves l s u → Moves l s (run j u)) :
    Reaches l s (s.descriptor row named f run) :=
  ⟨fun _ e => descriptor_moves hl e hr, fun _ => descriptor_not_refused⟩

/-- A flit that its port accepts does what its action does; one whose words are torn resets the device (R270). -/
theorem flit {row : String} {hd : FlitHdr} {ports : List Port} {channels : List Nat} {act : State → State}
    (hl : Field.within [.links, .counters, .out] l = true) (hp : Field.within l everyPiece = true)
    (hr : ∀ {m : List Field}, Field.within l m = true → ∀ u, Moves m s u → Moves m s (act u)) :
    Reaches (if hd.torn = true then everyPiece else l) s (s.onFlit row hd ports channels act) where
  moves t e := by
    split
    · exact onFlit_moves (by decide) (fun _ => rfl) e (hr hp)
    · next ht => exact onFlit_moves hl (fun k => absurd k ht) e (hr (by simp [Field.within]))
  answers _ := by
    unfold State.onFlit
    exact when_not_refused

end Reaches

/-- The pieces that a command may change, a flit whose words are torn included (R270). -/
def Instr.touched (c : Instr) : List Field := if Instr.torn c = true then everyPiece else Instr.reach c

/-- A command that is a flit does on its port what its action does. -/
theorem Reaches.of_flit {c : Instr} {s : State} {o : Result} {row : String} {hd : FlitHdr} {ports : List Port} {channels : List Nat}
    {act : State → State} (ho : o = s.onFlit row hd ports channels act) (ht : Instr.torn c = hd.torn)
    (hl : Field.within [.links, .counters, .out] (Instr.reach c) = true) (hp : Field.within (Instr.reach c) everyPiece = true)
    (hr : ∀ {m : List Field}, Field.within (Instr.reach c) m = true → ∀ u, Moves m s u → Moves m s (act u)) :
    Reaches (Instr.touched c) s o := by
  rw [ho, Instr.touched, ht]
  exact .flit hl hp hr

/-- A flit without a payload has nothing to tear: it is acted on as it is. -/
theorem Reaches.of_reach {c : Instr} {s : State} {o : Result} (hp : Field.within (Instr.reach c) everyPiece = true)
    (h : Reaches (Instr.reach c) s o) : Reaches (Instr.touched c) s o := by
  unfold Instr.touched
  split
  · exact h.mono hp
  · exact h

theorem regCommand_reaches {l : List Field} {s : State} {row : String} {named : Bool} {a : RegAccess}
    (hl : Field.within [.pins, .boot, .regs, .parts, .rings, .counters, .calls, .hk, .out] l = true) :
    Reaches l s (regCommand row named a s) := by
  refine .when ?_
  split
  · exact (State.windowRead_moves (.refl _ s) (Field.within_trans rfl hl)).ite (State.windowWrite_moves (.refl _ s) hl)
  · exact .refl _ s

/-- A pass that reads nothing loses no block. -/
theorem passReturns_nil_moves (s : State) (p : Prod) :
    Moves [.rings, .counters, .steps, .tiles, .boughs, .prods, .links, .faults, .power, .sec, .out] s (s.passReturns p []) :=
  State.modProd_moves (State.passDone_moves (.refl _ s) rfl) rfl

/-! ### The rows -/

/-- What the commands that carry a descriptor change: the fetch and the answer, and what the operation does (Table 11-4). -/
theorem exec_descriptor_reaches {c : Instr} (hc : Instr.family c = .descriptor) (s : State) : Reaches (Instr.reach c) s (exec c s) := by
  unfold exec
  cases c with
  | nop f => exact .descriptor rfl fun _ _ hu => nopEffect_moves hu rfl
  | badOpcode f => exact .descriptor rfl fun _ _ hu => badOpcodeEffect_moves hu rfl
  | admitCall f => exact .descriptor rfl fun _ _ hu => admitEffect_moves hu rfl
  | cancel f => exact .descriptor rfl fun _ _ hu => cancelEffect_moves hu rfl
  | releaseCall f => exact .descriptor rfl fun _ _ hu => releaseCallEffect_moves hu rfl
  | stepMask f => exact .descriptor rfl fun _ _ hu => stepMaskEffect_moves hu rfl
  | budgetSet f => exact .descriptor rfl fun _ _ hu => budgetSetEffect_moves hu rfl
  | budgetRead f => exact .descriptor rfl fun _ _ hu => budgetReadEffect_moves hu rfl
  | graftLoad f => exact .descriptor rfl fun _ _ hu => graftLoadEffect_moves hu rfl
  | graftRetire f => exact .descriptor rfl fun _ _ hu => graftRetireEffect_moves hu rfl
  | matteLoad f => exact .descriptor rfl fun _ _ hu => matteLoadEffect_moves hu rfl
  | matteFree f => exact .descriptor rfl fun _ _ hu => matteFreeEffect_moves hu rfl
  | tune f => exact .descriptor rfl fun _ _ hu => tuneEffect_moves hu rfl
  | loadManifest f => exact .descriptor rfl fun _ _ hu => loadManifestEffect_moves hu rfl
  | loadChunk f => exact .descriptor rfl fun _ _ hu => loadChunkEffect_moves hu rfl
  | loadPlacement f => exact .descriptor rfl fun _ _ hu => loadPlacementEffect_moves hu rfl
  | attnSetup f => exact .descriptor rfl fun _ _ hu => attnSetupEffect_moves hu rfl
  | takeReplacement f => exact .descriptor rfl fun _ _ hu => takeReplacementEffect_moves hu rfl
  | takeRefresh f => exact .descriptor rfl fun _ _ hu => takeRefreshEffect_moves hu rfl
  | cut f => exact .descriptor rfl fun _ _ hu => cutEffect_moves hu rfl
  | releaseImage f => exact .descriptor rfl fun _ _ hu => releaseImageEffect_moves hu rfl
  | deckRead f => exact .descriptor rfl fun _ _ hu => deckReadEffect_moves hu rfl
  | refWarm f => exact .descriptor rfl fun _ _ hu => refWarmEffect_moves hu rfl
  | calibrate f => exact .descriptor rfl fun _ _ hu => calibrateEffect_moves hu rfl
  | hkSample f => exact .descriptor rfl fun _ _ hu => hkSampleEffect_moves hu rfl
  | retire f => exact .descriptor rfl fun _ _ hu => retireEffect_moves hu rfl
  | fill f => exact .descriptor rfl fun _ _ hu => fillEffect_moves hu rfl
  | rehash f => exact .descriptor rfl fun _ _ hu => rehashEffect_moves hu rfl
  | arrayTest f codes =>
    dsimp only [execArrayTest]
    split
    · exact .next (State.testWaits_moves (.refl _ s) rfl)
    · exact .descriptor rfl fun _ _ hu => arrayTestEffect_moves hu rfl
  | resetCold f => exact .descriptor rfl fun _ _ hu => resetColdEffect_moves hu rfl
  | resetWarm f => exact .descriptor rfl fun _ _ hu => resetWarmEffect_moves hu rfl
  | resetPartition f => exact .descriptor rfl fun _ _ hu => resetPartitionEffect_moves hu rfl
  | resetBough f => exact .descriptor rfl fun _ _ hu => resetBoughEffect_moves hu rfl
  | resetPort f => exact .descriptor rfl fun _ _ hu => resetPortEffect_moves hu rfl
  | powerStateD0 f => exact .descriptor rfl fun _ _ hu => powerD0Effect_moves hu rfl
  | powerStateD2 f => exact .descriptor rfl fun _ _ hu => powerD2Effect_moves hu rfl
  | powerStateD3 f => exact .descriptor rfl fun _ _ hu => powerD3Effect_moves hu rfl
  | fwStage f => exact .descriptor rfl fun _ _ hu => fwStageEffect_moves hu rfl
  | fwCutover f => exact .descriptor rfl fun _ _ hu => fwCutoverEffect_moves hu rfl
  | attest f => exact .descriptor rfl fun _ _ hu => attestEffect_moves hu rfl
  | _ => cases hc

/-- The host rows but SEAL, whose name is a command of Lean and so cannot name a case. -/
def Instr.hostBesideSeal : Instr → Prop
  | .seal _ => False
  | c => Instr.family c = .host

theorem Instr.seal_or_hostBesideSeal {c : Instr} (hc : Instr.family c = .host) : (∃ a, c = .seal a) ∨ Instr.hostBesideSeal c := by
  unfold Instr.hostBesideSeal
  split
  · next a => exact .inl ⟨a, rfl⟩
  · exact .inr hc

theorem exec_hostBesideSeal_reaches {c : Instr} (hc : Instr.hostBesideSeal c) (s : State) :
    Reaches (Instr.touched c) s (exec c s) := by
  unfold exec
  cases c with
  | doorbell hd r count =>
    cases hd with
    | none => exact .when (State.doorbell_moves (.refl _ s) rfl)
    | some hd =>
      show Reaches _ s (if ringExists r then _ else _)
      split
      · exact .of_flit rfl rfl rfl rfl fun hm _ hu => State.doorbell_moves hu (Field.within_trans rfl hm)
      · exact .fault
  | fetchFault ring => exact .when (State.fetchFault_moves (.refl _ s) rfl)
  | hostFault r pos =>
    dsimp only [execHostFault]
    split
    · exact .next (State.hostFaultJob_moves (.refl _ s) rfl)
    · exact .fault
  | recordWriteFault r =>
    dsimp only [execRecordWriteFault]
    split
    · exact .when (State.recordFault_moves (.refl _ s) rfl)
    · exact .fault
  | coalWindowExpiry r => exact .when (State.interrupt_moves (.refl _ s) rfl)
  | versionNeg a => exact regCommand_reaches rfl
  | fenceCtrlRelease a => exact regCommand_reaches rfl
  | bootSrcGo a => exact regCommand_reaches rfl
  | counterSel a => exact regCommand_reaches rfl
  | hkCtrlRefen a => exact regCommand_reaches rfl
  | regWrite a => exact regCommand_reaches rfl
  | porstNAssert => exact .when (State.porstLow_moves (.refl _ s) rfl)
  | coldStart boot ckmode => exact .when (State.coldStart_moves (.refl _ s) rfl)
  | wrstNAssert => exact .when ((Moves.refl _ s).ite (State.source_moves (State.modPins_moves (.refl _ s) rfl) rfl))
  | warmStart => exact .when (State.warmStart_moves (.refl _ s) rfl)
  | resetTakesEffect => exact .when (State.resetTakesEffect_moves (.refl _ s) rfl)
  | fenceInAssert => exact .when (State.fenceIn_moves (.refl _ s) rfl)
  | fenceInRelease => exact .when (State.fenceOut_moves (.refl _ s) rfl)
  | refclkLoss => exact .when (State.refclkLost_moves (.refl _ s) rfl)
  | refclkReturn => exact .when (State.refclkBack_moves (.refl _ s) rfl)
  | pmAlertN words => exact .when (Moves.each (.refl _ s) fun _ _ hu => State.regStatus_moves hu rfl)
  | vaonLoss => exact .when (State.vaonLost_moves (.refl _ s) rfl)
  | vaonApply => exact .when (State.modPins_moves (State.modBoot_moves (.refl _ s) rfl) rfl)
  | jtagInstruction op => exact .when (State.modPins_moves (.refl _ s) rfl)
  | _ => cases hc

/-- What the events of the host rings, of the register window and of the pins change (R231, R247, R403, R404, R329, R333). -/
theorem exec_host_reaches {c : Instr} (hc : Instr.family c = .host) (s : State) : Reaches (Instr.touched c) s (exec c s) := by
  obtain ⟨a, rfl⟩ | h := Instr.seal_or_hostBesideSeal hc
  · exact regCommand_reaches rfl
  · exact exec_hostBesideSeal_reaches h s

/-- What the steps of a start, housekeeping, power and a firmware cut-over change (16, 17, 18). -/
theorem exec_start_reaches {c : Instr} (hc : Instr.family c = .start) (s : State) : Reaches (Instr.reach c) s (exec c s) := by
  unfold exec
  cases c with
  | optionLoad data => exact .when (State.optionLoad_moves (.refl _ s) rfl)
  | clockLock ok => exact .when ((State.clockLock_moves (.refl _ s) rfl).ite (State.stepFails_moves (.refl _ s) rfl))
  | hkRefReady => exact .when (State.hkRefReady_moves (.refl _ s) rfl)
  | fwFetch active images => exact .when (State.fwFetch_moves (.refl _ s) rfl)
  | sramFill ok => exact .when ((State.stepEnds_moves (.refl _ s) rfl).ite (State.stepFails_moves (.refl _ s) rfl))
  | hbmTrain ok => exact .when ((State.hbmTrained_moves (.refl _ s) rfl).ite (State.stepFails_moves (.refl _ s) rfl))
  | hbmFill complete ok => exact .when ((State.hbmFilled_moves (.refl _ s) rfl).ite (State.stepFails_moves (.refl _ s) rfl))
  | startFail =>
    dsimp only [execStartFail]
    split
    · exact .when (State.startFail_moves (.refl _ s) rfl)
    · exact .fault
  | fwDigest =>
    exact .when ((State.linkStep_moves (State.stepEnds_moves (State.modBoot_moves (State.setReady_moves (.refl _ s) rfl) rfl) rfl) rfl).ite
      (State.stepFails_moves (.refl _ s) rfl))
  | resume => exact .when (State.resumeEnds_moves (.refl _ s) rfl)
  | watchdogExpiry => exact .when (State.source_moves (.refl _ s) rfl)
  | firstWatchdogService => exact .when (State.firstService_moves (.refl _ s) rfl)
  | hkSlot => exact .when (State.hkSlot_moves (.refl _ s) rfl)
  | hkConversionDone value =>
    dsimp only [execHkConversionDone]
    split
    · exact .fault
    · exact .when ((State.posnDone_moves (State.modHk_moves (.refl _ s) rfl) rfl).ite (State.sampleDone_moves (.refl _ s) rfl))
  | d1Entry => exact .when (State.d1Entry_moves (.refl _ s) rfl)
  | boughSwitchOpen bough => exact .when (State.openSwitches_moves (.refl _ s) rfl)
  | boughSwitchReady bough => exact .when (State.switchReady_moves (.refl _ s) rfl)
  | pacerWindow => exact .when (State.pacerWindow_moves (.refl _ s) rfl)
  | energyScale charged measured => exact .when (State.energyScale_moves (.refl _ s) rfl)
  | levelStepSettled mv =>
    dsimp only [execLevelStepSettled]
    split
    · exact .fault
    · exact .when (State.levelSettled_moves (.refl _ s) rfl)
  | levelStepTimeout =>
    dsimp only [execLevelStepTimeout]
    split
    · exact .fault
    · exact .when (State.levelTimeout_moves (.refl _ s) rfl)
  | regulatorFloorReturn => exact .when (State.floorReturns_moves (.refl _ s) rfl)
  | entryStepDone =>
    dsimp only [execEntryStepDone]
    split
    · exact .fault
    · exact .when (State.entryStep_moves (.refl _ s) rfl)
  | wake e => exact .when (State.wakeEvent_moves (.refl _ s) rfl)
  | wakePhaseReady =>
    dsimp only [execWakePhaseReady]
    split
    · exact .fault
    · exact .when (State.wakePhase_moves (.refl _ s) rfl)
  | wakeTimeout domain =>
    dsimp only [execWakeTimeout]
    split
    · exact .fault
    · exact .when (State.wakeFails_moves (.refl _ s) rfl)
  | switchPoint => exact .when (State.startDrain_moves (.refl _ s) rfl)
  | fwCutoverDone =>
    dsimp only [execFwCutoverDone]
    split
    · exact .fault
    · exact .when (State.cutoverDone_moves (.refl _ s) rfl)
  | partnerBootRequest => exact .when ((State.send_moves (.refl _ s) rfl).ite (.refl _ s))
  | hbmExit x => exact .when ((State.hbmExit_moves (.refl _ s) rfl).ite (State.stepFails_moves (.refl _ s) rfl))
  | urgentSample channel =>
    exact .when ((State.count_moves (State.modHk_moves (.refl _ s) rfl) rfl).ite (State.modHk_moves (State.modHk_moves (.refl _ s) rfl) rfl))
  | _ => cases hc

/-- What the work of tiles, sums, drains, calibration and weights changes; a read that finds flipped bits can reset the device. -/
theorem exec_tile_reaches {c : Instr} (hc : Instr.family c = .tile) (s : State) : Reaches (Instr.reach c) s (exec c s) := by
  unfold exec
  cases c with
  | productIssue x => exact .when (State.request_moves (State.takeVec_moves (.refl _ s) rfl) rfl)
  | phaseEnd t codes =>
    dsimp only [execPhaseEnd]
    split
    · split
      · exact .when (State.phaseDone_moves (.refl _ s) rfl)
      · exact .when (State.tileNext_moves (State.modTile_moves (.refl _ s) rfl) rfl)
    · exact .fault
  | programStepEnd tile r => exact .when (State.progDone_moves (.refl _ s) rfl)
  | programStepOwed t => exact .when (State.tileNext_moves (State.modTile_moves (.refl _ s) rfl) rfl)
  | referenceSweep t d codes => exact .when (State.tileNext_moves (State.sweepDone_moves (State.gapPhase_moves (.refl _ s) rfl) rfl) rfl)
  | clapperPhase t d run =>
    refine .when (State.tileNext_moves ?_ rfl)
    have hclip := State.countClips_moves (t := t) (codes := run.codes)
      (State.gapPhase_moves (t := t) (.refl (Instr.reach (.clapperPhase t d run)) s) rfl) rfl
    split
    · exact State.clapperDone_moves hclip rfl
    · exact State.fitPhase_moves hclip rfl
    · exact State.fitPhase_moves hclip rfl
  | verifyRead t d row => exact .when (State.tileNext_moves (State.verifyRow_moves (State.gapPhase_moves (.refl _ s) rfl) rfl) rfl)
  | forcedGap t => exact .when (State.modTile_moves (State.count_moves (.refl _ s) rfl) rfl)
  | deckAgeRecord tile deck => exact .when (State.modDeck_moves (.refl _ s) rfl)
  | driftAgeLimit tile deck => exact .when (State.enterDrifted_moves (.refl _ s) rfl)
  | driftUpdate bough => exact .when (State.driftTargets_moves (.refl _ s) rfl)
  | outlierReadReturn prod reads =>
    dsimp only [execOutlierReadReturn]
    split
    · exact .when (State.charge_moves (State.afterSram_moves (.refl _ s) (fun _ hx => State.rowReturns_moves hx rfl) rfl) rfl)
    · exact .fault
  | overflowPass prod reads =>
    dsimp only [execOverflowPass]
    split
    · cases reads with
      | nil => exact .when (State.charge_moves (passReturns_nil_moves s _) rfl)
      | cons r reads => exact .when (State.charge_moves (State.passReturns_moves (.refl _ s) rfl) rfl)
    · exact .fault
  | boughSum key reads =>
    obtain ⟨hbm, sram⟩ := reads
    cases sram with
    | nil =>
      cases hbm with
      | nil => exact .when (State.boughSum_moves (.refl _ s) rfl)
      | cons x hbm => exact .when (State.sumReturns_moves (.refl _ s) rfl)
    | cons r sram =>
      cases hbm with
      | nil | cons => exact .when (State.afterSram_moves (.refl _ s) (fun _ hx => State.sumReturns_moves hx rfl) rfl)
  | graftTerm key vec sram =>
    cases sram with
    | nil =>
      exact .when ((State.withhold_moves (.refl _ s) rfl).ite
        (State.charge_moves (State.graftDone_moves (State.takeVec_moves (.refl _ s) rfl) rfl) rfl))
    | cons r sram =>
      exact .when ((State.withhold_moves (.refl _ s) rfl).ite
        (State.charge_moves (State.afterSram_moves (State.takeVec_moves (.refl _ s) rfl) (fun _ hx => State.graftDone_moves hx rfl) rfl) rfl))
  | contCheckDone prod =>
    dsimp only [execContCheckDone]
    split
    · exact .when (State.checkDone_moves (.refl _ s) rfl)
    · exact .fault
  | outlierWindowEnd matrix => exact .when (State.windowEnds_moves (.refl _ s) rfl)
  | transferDone work entry =>
    obtain ⟨n, sram⟩ := entry
    cases sram with
    | nil => exact .when (State.attnRetry_moves (State.transferDone_moves (State.charge_moves (.refl _ s) rfl) rfl) rfl)
    | cons r sram =>
      exact .when (State.afterSram_moves (State.charge_moves (.refl _ s) rfl)
        (fun _ hx => State.attnRetry_moves (State.transferDone_moves hx rfl) rfl) rfl)
  | boughDrainAck bough => exact .when (State.drainAck_moves (.refl _ s) rfl)
  | drainComplete =>
    dsimp only [execDrainComplete]
    split
    · exact .fault
    · exact .next (State.drainDone_moves (.refl _ s) rfl)
  | refReady x => exact .when (State.refIsReady_moves (.refl _ s) rfl)
  | calRunEnd bough fits => exact .when (State.runEnds_moves (.refl _ s) rfl)
  | fitDone tile deck forward transposed => exact .when (State.fitIsDone_moves (.refl _ s) rfl)
  | deckRetake tile deck => exact .when (State.startRetake_moves (.refl _ s) rfl)
  | chunkConversion => exact .when (State.chunkConverted_moves (.refl _ s) rfl)
  | sigCheck => exact .when (State.sigChecked_moves (.refl _ s) rfl)
  | epochDrained => exact .when (State.settle_moves (State.closeEpoch_moves (.refl _ s) rfl) rfl)
  | _ => cases hc

/-- What attention and the schedule change (08, 09). -/
theorem exec_call_reaches {c : Instr} (hc : Instr.family c = .call) (s : State) : Reaches (Instr.reach c) s (exec c s) := by
  unfold exec
  cases c with
  | kvAppend work layer t k v => exact .when (State.attnStart_moves (.refl _ s) rfl)
  | taprootAttention work layer q reads =>
    obtain ⟨flips, needs, sram⟩ := reads
    cases sram with
    | nil => exact .when (State.attnStart_moves (.refl _ s) rfl)
    | cons r sram => exact .when (State.afterSram_moves (.refl _ s) (fun _ hx => State.attnStart_moves hx rfl) rfl)
  | canopyBlock lane work layer group rowTile q => exact .when (State.attnStart_moves (.refl _ s) rfl)
  | batchOpen => exact .when (State.batchOpen_moves (.refl _ s) rfl)
  | batchWindowExpiry =>
    dsimp only [execBatchWindowExpiry]
    split
    · exact .fault
    · exact .when (State.windowExpires_moves (.refl _ s) rfl)
  | stepCommit call => exact .when (State.stepCommit_moves (.refl _ s) rfl)
  | deadlineScan => exact .when (State.deadlineScan_moves (.refl _ s) rfl)
  | budgetRefill customer => exact .when (State.refill_moves (.refl _ s) rfl)
  | preempt call chunk => exact .when (State.preempt_moves (.refl _ s) rfl)
  | _ => cases hc

/-- What flits, port events and the partner's events change (13). -/
theorem exec_link_reaches {c : Instr} (hc : Instr.family c = .link) (s : State) : Reaches (Instr.touched c) s (exec c s) := by
  unfold exec
  cases c with
  | tokenReturn hd p tag step tokens drafts marks =>
    exact .of_flit rfl rfl rfl rfl fun hm _ hu => State.tokenReturn_moves hu (Field.within_trans rfl hm)
  | ack hd => exact .of_reach rfl (.when (acceptFlit_moves s hd))
  | nak hd expected => exact .of_flit rfl rfl rfl rfl fun hm _ hu => State.nak_moves hu (Field.within_trans rfl hm)
  | flitDiscard port wire => exact .when (State.flitDiscard_moves (.refl _ s) rfl)
  | degrade hd width group => exact .of_flit rfl rfl rfl rfl fun hm _ hu => State.degradeFlit_moves hu (Field.within_trans rfl hm)
  | discover hd pos side posn resumed => exact .of_flit rfl rfl rfl rfl fun hm _ hu => State.discover_moves hu (Field.within_trans rfl hm)
  | activation hd epoch image items => exact .of_flit rfl rfl rfl rfl fun hm _ hu => State.activation_moves hu (Field.within_trans rfl hm)
  | runningSum hd p tag step epoch image marks item =>
    exact .of_flit rfl rfl rfl rfl fun hm _ hu => State.runningSum_moves hu (Field.within_trans rfl hm)
  | callCtrl hd msg => exact .of_flit rfl rfl rfl rfl fun hm _ hu => State.callCtrl_moves hu (Field.within_trans rfl hm)
  | cutCtrl hd msg => exact .of_flit rfl rfl rfl rfl fun hm _ hu => State.cutCtrl_moves hu (Field.within_trans rfl hm)
  | jack hd p tag step pos => exact .of_flit rfl rfl rfl rfl fun hm _ hu => State.jack_moves hu (Field.within_trans rfl hm)
  | adopt hd => exact .of_flit rfl rfl rfl rfl fun hm _ hu => State.adoptFrom_moves hu (Field.within_trans rfl hm)
  | image hd msg => exact .of_flit rfl rfl rfl rfl fun hm _ hu => State.imageIn_moves hu (Field.within_trans rfl hm)
  | heartbeat hd tick st => exact .of_flit rfl rfl rfl rfl fun hm _ hu => State.heartbeat_moves hu (Field.within_trans rfl hm)
  | hbHold hd ticks warm sleep => exact .of_flit rfl rfl rfl rfl fun hm _ hu => State.hbHold_moves hu (Field.within_trans rfl hm)
  | journal hd recs =>
    exact .of_flit rfl rfl rfl rfl fun hm _ hu => Moves.each hu fun _ _ hx => State.takeRecord_moves hx (Field.within_trans rfl hm)
  | journalAck hd p tag step => exact .of_flit rfl rfl rfl rfl fun hm _ hu => State.journalAck_moves hu (Field.within_trans rfl hm)
  | retakeReq hd r =>
    dsimp only [execRetakeReq]
    split
    · exact .fault
    · exact .of_flit rfl rfl rfl rfl fun hm _ hu => State.retakeReq_moves hu (Field.within_trans rfl hm)
  | verifiedStepDone p tag step drafts mask =>
    dsimp only [execVerifiedStepDone]
    split
    · exact .fault
    · exact .when (State.retakeServed_moves (.refl _ s) rfl)
  | retakeResp hd p tag step r => exact .of_flit rfl rfl rfl rfl fun hm _ hu => State.retakeResp_moves hu (Field.within_trans rfl hm)
  | retakeTimeout p tag step =>
    dsimp only [execRetakeTimeout]
    split
    · exact .fault
    · exact .next (State.moveStep_moves (State.settleLocal_moves (.refl _ s) rfl) rfl)
  | mirrorDrop hd => exact .of_flit rfl rfl rfl rfl fun hm _ hu => State.mirrorDrop_moves hu (Field.within_trans rfl hm)
  | heartbeatSend => exact .when (State.sendBeat_moves (.refl _ s) rfl)
  | heartbeatMiss => exact .when (State.heartbeatMissed_moves (.refl _ s) rfl)
  | fenceWaitEnd =>
    dsimp only [execFenceWaitEnd]
    split
    · exact .fault
    · exact .when (State.fenceEnds_moves (.refl _ s) rfl)
  | mirrorKeepExpiry c =>
    dsimp only [execMirrorKeepExpiry]
    split
    · exact .fault
    · exact .when (State.releaseEntry_moves (.refl _ s) rfl)
  | chainBreak port => exact .when (State.chainBreak_moves (.refl _ s) rfl)
  | portTrained port lanes =>
    dsimp only [execPortTrained]
    split
    · exact .fault
    · exact .when (State.portTrained_moves (.refl _ s) rfl)
  | laneWeak port lane lost symbols => exact .when (State.laneWeak_moves (.refl _ s) rfl)
  | replayMax port => exact .when (State.replayMaxed_moves (.refl _ s) rfl)
  | portDown port => exact .when (State.trainingFails_moves (.refl _ s) rfl)
  | _ => cases hc

/-- What the events of the memory and of the fault unit change (14, 15). -/
theorem exec_memory_reaches {c : Instr} (hc : Instr.family c = .memory) (s : State) : Reaches (Instr.reach c) s (exec c s) := by
  unfold exec
  cases c with
  | bucketLeak region => exact .when (State.bucketLeak_moves (.refl _ s) rfl)
  | mergeEvict stack channel flips =>
    dsimp only [execMergeEvict]
    split
    · exact .fault
    · exact .when (State.mergeEvict_moves (.refl _ s) rfl)
  | hotSample stack occupancy channel => exact .when (State.hotSample_moves (.refl _ s) rfl)
  | hotspot stack => exact .when (State.closeWindow_moves (.refl _ s) rfl)
  | hbmRetired =>
    dsimp only [execHbmRetired]
    split
    · exact .fault
    · exact .when (State.retireDone_moves (.refl _ s) rfl)
  | fillDone =>
    dsimp only [execFillDone]
    split
    · exact .fault
    · exact .when (State.fillDone_moves (.refl _ s) rfl)
  | rehashDone units =>
    dsimp only [execRehashDone]
    split
    · exact .fault
    · exact .when (State.rehashDone_moves (State.migrate_moves (.refl _ s) rfl) rfl)
  | repeat_ t phases =>
    dsimp only [execRepeat]
    split
    · exact .fault
    · exact .when (State.repeatDone_moves (.refl _ s) rfl)
  | slate u digest => exact .when (State.slateDone_moves (.refl _ s) rfl)
  | slateOverdue u => exact .when (State.modSlate_moves (.refl _ s) rfl)
  | daily => exact .when (State.dailyRecord_moves (.refl _ s) rfl)
  | _ => cases hc

/-! ### What every command keeps -/

/-- Every piece but the queue of commands. -/
abbrev offQueue : List Field := .free :: everyPiece

theorem reach_within_offQueue (c : Instr) : Field.within (Instr.reach c) offQueue = true := by
  unfold Instr.reach
  split <;> rfl

theorem touched_within_offQueue (c : Instr) : Field.within (Instr.touched c) offQueue = true := by
  unfold Instr.touched
  split
  · rfl
  · exact reach_within_offQueue c

/-- No command refuses, and no command touches the queue of commands (R228). -/
theorem exec_reaches (c : Instr) (s : State) : Reaches offQueue s (exec c s) := by
  cases hc : Instr.family c with
  | descriptor => exact (exec_descriptor_reaches hc s).mono (reach_within_offQueue c)
  | host => exact (exec_host_reaches hc s).mono (touched_within_offQueue c)
  | start => exact (exec_start_reaches hc s).mono (reach_within_offQueue c)
  | tile => exact (exec_tile_reaches hc s).mono (reach_within_offQueue c)
  | call => exact (exec_call_reaches hc s).mono (reach_within_offQueue c)
  | link => exact (exec_link_reaches hc s).mono (touched_within_offQueue c)
  | memory => exact (exec_memory_reaches hc s).mono (reach_within_offQueue c)

/-- Settles O9: every descriptor's row in the table above stays within its reach. -/
theorem descriptorFrame : Obligations.DescriptorFrame := by
  unfold Obligations.DescriptorFrame
  intro c s t hc h
  exact ((exec_descriptor_reaches hc s).moves t h).frame

/-- Settles O10: every row of the host family stays within its reach, a torn doorbell within every piece. -/
theorem hostFrame : Obligations.HostFrame := by
  unfold Obligations.HostFrame
  intro c s t hc h
  exact ((exec_host_reaches hc s).moves t h).frame

/-- Settles O1: the step is defined so. -/
theorem stepRunsFrontCommand : Obligations.StepRunsFrontCommand := by
  unfold Obligations.StepRunsFrontCommand
  intro c rest s
  rfl

theorem step_of_pending_cons {s : State} {c : Instr} {rest : List Instr} (h : s.pending = c :: rest) :
    step s = exec c { s with pending := rest } := by
  rw [step, h]

/-- Settles O7: a tick puts nothing out and finds no command; a command only adds to the output and leaves the queue's rest. -/
theorem outputOnlyGrows : Obligations.OutputOnlyGrows := by
  unfold Obligations.OutputOnlyGrows
  intro s t h
  cases hp : s.pending with
  | nil =>
    rw [step_of_pending_nil hp] at h
    cases h
    exact ⟨s.tickOnce_moves.grows, (s.tickOnce_moves.frame .pending (by decide)).trans hp⟩
  | cons c rest =>
    rw [step_of_pending_cons hp] at h
    have hm := (exec_reaches c _).moves t h
    exact ⟨hm.grows, hm.frame .pending (by decide)⟩

/-- Settles O8: no row answers a refusal, so neither does the step, which runs one row or a tick. -/
theorem neverRefused : Obligations.NeverRefused := by
  unfold Obligations.NeverRefused
  intro c s r
  refine ⟨(exec_reaches c s).answers r, ?_⟩
  cases hp : s.pending with
  | nil =>
    rw [step_of_pending_nil hp]
    exact fun e => by cases e
  | cons c rest =>
    rw [step_of_pending_cons hp]
    exact (exec_reaches c _).answers r

end Sys2Proof.Machine

/-! PROOFS. SEAL in a served window (R229, R252, R253): the partitions and then the rings are enabled, each table's keys taken once, and
the records that waited for SEAL go out or are discarded without a change of what is enabled. -/

namespace Sys2Proof.Machine

/-! ### What stays enabled -/

/-- From `s` to `t` every ring stays enabled or disabled. -/
structure EnabledKept (s t : State) : Prop where
  canon : s.Canonical → t.Canonical
  kept : s.Canonical → ∀ r, (t.ring r).enabled = (s.ring r).enabled

theorem SampleKept.enabledKept {s t : State} (h : SampleKept s t) : EnabledKept s t := ⟨h.canon, h.enabled⟩

namespace EnabledKept
variable {r s t : State}

theorem refl (s : State) : EnabledKept s s := ⟨id, fun _ _ => rfl⟩

theorem trans (h : EnabledKept r s) (k : EnabledKept s t) : EnabledKept r t :=
  ⟨fun c => k.canon (h.canon c), fun c q => (k.kept (h.canon c) q).trans (h.kept c q)⟩

theorem ite {c : Prop} [Decidable c] (h : EnabledKept r s) (k : EnabledKept r t) : EnabledKept r (if c then s else t) := by
  split
  · exact h
  · exact k

theorem each {α : Type} {f : State → α → State} (hf : ∀ s x, EnabledKept s (f s x)) :
    ∀ (xs : List α) (s : State), EnabledKept s (s.each xs f)
  | [], s => refl s
  | x :: xs, s => (hf s x).trans (each hf xs (f s x))

/-- A ring that is written keeps its bit, whatever it drops of what waits. -/
theorem modRing (s : State) (q : RingId) {g : Ring → Ring} (hg : ∀ x, (g x).enabled = x.enabled) : EnabledKept s (s.modRing q g) where
  canon := (State.modRing_moves (.refl [.rings] s) rfl).canon
  kept c p := by
    by_cases h : ringNo p = ringNo q
    · have hp : ∀ u : State, u.ring p = u.ring q := fun u => by rw [State.ring, h]; rfl
      rw [hp, hp, ring_modRing_self c, hg]
    · rw [ring_modRing_ne c h]

end EnabledKept

theorem drainWaiting_enabled (r : RingId) : ∀ (n : Nat) (s : State), EnabledKept s (s.drainWaiting r n)
  | 0, s => .refl s
  | n + 1, s => by
    unfold State.drainWaiting
    split
    · exact .refl s
    · next w ws _ =>
      have hdrop : EnabledKept s (s.modRing r fun g => { g with waiting := ws }) := .modRing s r fun _ => rfl
      exact .ite (.refl s) ((hdrop.trans (putRecord_sampleKept _ r w).enabledKept).trans (drainWaiting_enabled r n _))

theorem release_enabled (s : State) (r : RingId) : EnabledKept s (s.release r) := by
  unfold State.release
  extract_lets g s1
  have hlost : EnabledKept s (s.modRing r fun g => { g with lost := 0 }) := .modRing s r fun _ => rfl
  have h1 : EnabledKept s s1 := .ite (hlost.trans (putRecord_sampleKept _ r _).enabledKept) (.refl s)
  exact .ite (.refl s) (h1.trans (drainWaiting_enabled r _ s1))

/-! ### The steps of a seal that passes -/

/-- A seal that passes sets SEAL and clears SEAL_ERR (R252). -/
def Regs.sealedClear (x : Regs) : Regs := { x with sealed := true, sealErr := 0 }

/-- A partition is enabled where it has a share (R253). -/
def Part.shared (x : Part) : Part := { x with enabled := decide (x.entryShare ≠ 0) }

/-- A ring of management, or of an enabled partition (R253). -/
def State.ringOwned (s : State) (r : RingId) : Bool :=
  match ringPart r with
  | some p => (s.part p).enabled
  | none => true

/-- A ring is enabled where it has an exponent and an owner (R229, R253). -/
def State.enableRing (s : State) (r : RingId) : State :=
  s.modRing r fun g => { g with enabled := decide ((s.ring r).exp ≠ 0) && s.ringOwned r }

def State.enableParts (s : State) : State := s.each (List.range 32) fun s p => s.modPart p Part.shared

def State.enableRings (s : State) : State := s.each (List.range 194) fun s n => s.enableRing (ringOf n)

/-- The records that waited for SEAL go out, or are discarded where SEAL leaves the event ring disabled (log 6). -/
def State.heldRecordsOut (s : State) : State :=
  if (s.ring .eq).enabled then s.release .eq
  else s.each (s.ring .eq).waiting fun s w => (s.modRing .eq fun g => { g with waiting := g.waiting.drop 1 }).discardRecord .eq w

/-- What a seal that passes does to the state besides its own two fields. -/
def State.enableAll (s : State) : State := s.enableParts.enableRings.heldRecordsOut

section
variable {s : State} {v : Nat}

theorem writeSeal_of_check_ne (hs : s.regs.sealed = false) (hv : Bits.field v 0 1 = 1) (h : s.sealCheck ≠ 0) :
    s.writeSeal v = s.modRegs fun x => { x with sealErr := BitVec.ofNat 4 s.sealCheck } := by
  unfold State.writeSeal
  rw [if_neg (by simp [hs, hv])]
  exact if_pos h

theorem writeSeal_of_check (hs : s.regs.sealed = false) (hv : Bits.field v 0 1 = 1) (h : s.sealCheck = 0) :
    s.writeSeal v = (s.modRegs Regs.sealedClear).enableAll := by
  unfold State.writeSeal
  rw [if_neg (by simp [hs, hv])]
  exact if_neg (not_not.2 h)

end

theorem enableParts_moves (s : State) : Moves [.parts] s s.enableParts :=
  (Moves.refl _ s).each fun _ _ h => State.modPart_moves h rfl

theorem enableRings_moves (s : State) : Moves [.rings] s s.enableRings :=
  (Moves.refl _ s).each fun _ _ h => State.modRing_moves h rfl

theorem heldRecordsOut_moves (s : State) : Moves [.rings, .counters, .calls, .out] s s.heldRecordsOut :=
  (State.release_moves (.refl _ s) rfl).ite
    ((Moves.refl _ s).each fun _ _ h => State.discardRecord_moves (State.modRing_moves h rfl) rfl)

theorem enableAll_moves (s : State) : Moves [.parts, .rings, .counters, .calls, .out] s s.enableAll :=
  (((enableParts_moves s).mono rfl).trans ((enableRings_moves _).mono rfl)).trans ((heldRecordsOut_moves _).mono rfl)

theorem heldRecordsOut_enabled (s : State) : EnabledKept s s.heldRecordsOut := by
  have hdiscard : ∀ (s : State) (w : Waiting),
      EnabledKept s ((s.modRing .eq fun g => { g with waiting := g.waiting.drop 1 }).discardRecord .eq w) := fun s w =>
    (EnabledKept.modRing s .eq (g := fun g => { g with waiting := g.waiting.drop 1 }) fun _ => rfl).trans
      (SampleKept.of_moves (State.discardRecord_moves (.refl _ _) rfl)).enabledKept
  exact .ite (release_enabled s .eq) (.each hdiscard _ s)

/-! ### A table whose keys are taken once each -/

section
variable {α : Type} {P : State → Prop} {view : State → Nat → α} {f : State → Nat → State} (hP : ∀ s n, P s → P (f s n))
  (hne : ∀ s n k, P s → k ≠ n → view (f s n) k = view s k)
include hP hne

/-- A key that the list does not name keeps its value. -/
theorem each_leaves_unnamed {k : Nat} {ns : List Nat} {s : State} (hs : P s) (hk : k ∉ ns) : view (s.each ns f) k = view s k := by
  induction ns generalizing s with
  | nil => rfl
  | cons n ns ih =>
    exact (ih (hP s n hs) (List.not_mem_of_not_mem_cons hk)).trans (hne s n k hs (List.ne_of_not_mem_cons hk))

/-- Where each turn changes its own key's value by `g` and leaves the others, a key that the list names once is changed once. -/
theorem each_changes_named {g : Nat → α → α} (hself : ∀ s n, P s → view (f s n) n = g n (view s n)) {k : Nat} {ns : List Nat}
    {s : State} (hs : P s) (hn : ns.Nodup) (hk : k ∈ ns) : view (s.each ns f) k = g k (view s k) := by
  induction ns generalizing s with
  | nil => cases hk
  | cons n ns ih =>
    obtain ⟨hnot, hns⟩ := List.nodup_cons.1 hn
    by_cases hkn : k = n
    · subst hkn
      exact (each_leaves_unnamed hP hne (hP s k hs) hnot).trans (hself s k hs)
    · exact (ih (hP s n hs) hns ((List.mem_cons.1 hk).resolve_left hkn)).trans (congrArg (g k) (hne s n k hs hkn))

end

theorem part_congr {s t : State} (h : t.parts = s.parts) (p : Nat) : t.part p = s.part p := by rw [State.part, h, State.part]

theorem part_enableParts {s : State} (c : s.Canonical) {p : Nat} (hp : p < 32) : s.enableParts.part p = (s.part p).shared :=
  each_changes_named (P := State.Canonical) (view := State.part) (g := fun _ => Part.shared)
    (fun s _ => (State.modPart_moves (.refl [.parts] s) rfl).canon) (fun _ _ _ c h => part_modPart_ne c h _)
    (fun _ n c => part_modPart_self c n _) c List.nodup_range (List.mem_range.2 hp)

/-! ### The rings and their numbers -/

theorem ringNo_ringOf (n : Nat) : ringNo (ringOf n) = n := by
  unfold ringOf
  split
  · next h => exact h.symm
  split
  · next h => exact h.symm
  · dsimp only
    split
    · simp only [ringNo]; omega
    split <;> (simp only [ringNo]; omega)

theorem ringNo_lt {r : RingId} (h : ringExists r = true) : ringNo r < 194 := by
  cases r <;> simp [ringNo, ringExists] at h ⊢ <;> omega

theorem ringPart_lt {r : RingId} (h : ringExists r = true) {p : Nat} (hp : ringPart r = some p) : p < 32 := by
  cases r <;> simp [ringPart, ringExists] at h hp <;> omega

theorem ringExists_ringOf {n : Nat} (h : n < 194) : ringExists (ringOf n) = true := by
  unfold ringOf
  split
  · rfl
  split
  · rfl
  · have hp : (n - 2) / 6 < 32 := by omega
    dsimp only
    split
    · next hk => simp [ringExists, hp, hk]
    split <;> exact decide_eq_true hp

theorem ringOf_ringNo {r : RingId} (h : ringExists r = true) : ringOf (ringNo r) = r :=
  ringNo_inj (ringExists_ringOf (ringNo_lt h)) h (ringNo_ringOf _)

/-- Whether a ring has an owner is read from the partitions alone, which the turns of the rings leave. -/
theorem ringOwned_congr {s t : State} (h : t.parts = s.parts) (r : RingId) : t.ringOwned r = s.ringOwned r := by
  simp only [State.ringOwned, part_congr h]

theorem ring_enableRings {s : State} (c : s.Canonical) {r : RingId} (h : ringExists r = true) :
    s.enableRings.ring r = { s.ring r with enabled := decide ((s.ring r).exp ≠ 0) && s.ringOwned r } := by
  have heach := each_changes_named (k := ringNo r) (P := fun u => u.Canonical ∧ u.parts = s.parts)
    (view := fun u n => u.ring (ringOf n)) (f := fun u n => u.enableRing (ringOf n))
    (g := fun n x => { x with enabled := decide (x.exp ≠ 0) && s.ringOwned (ringOf n) })
    (fun u n hu => ⟨(modRing_onRing hu.1 _ _).canon, hu.2⟩)
    (fun u n k hu hk => ring_modRing_ne hu.1 (by rwa [ringNo_ringOf, ringNo_ringOf]) _)
    (fun u n hu => by rw [State.enableRing, ring_modRing_self hu.1, ringOwned_congr hu.2])
    ⟨c, rfl⟩ List.nodup_range (List.mem_range.2 (ringNo_lt h))
  simpa only [ringOf_ringNo h, State.enableRings] using heach

theorem ringOwned_enableParts {s : State} (c : s.Canonical) {r : RingId} (h : ringExists r = true) :
    s.enableParts.ringOwned r = match ringPart r with
      | some p => decide ((s.part p).entryShare ≠ 0)
      | none => true := by
  unfold State.ringOwned
  cases hp : ringPart r with
  | none => rfl
  | some p => exact congrArg Part.enabled (part_enableParts c (ringPart_lt h hp))

/-! ### A seal that passes -/

theorem part_enableAll {s : State} (c : s.Canonical) {p : Nat} (hp : p < 32) : s.enableAll.part p = (s.part p).shared := by
  have hparts : s.enableAll.parts = s.enableParts.parts :=
    ((heldRecordsOut_moves _).frame .parts (by decide)).trans ((enableRings_moves _).frame .parts (by decide))
  exact (part_congr hparts p).trans (part_enableParts c hp)

theorem ring_enableAll_enabled {s : State} (c : s.Canonical) {r : RingId} (h : ringExists r = true) :
    (s.enableAll.ring r).enabled = (decide ((s.ring r).exp ≠ 0) && s.enableParts.ringOwned r) := by
  have kp := (enableParts_moves s).canon c
  have kr := (enableRings_moves s.enableParts).canon kp
  have hring : s.enableParts.ring r = s.ring r := ring_congr ((enableParts_moves s).frame .rings (by decide)) r
  rw [State.enableAll, (heldRecordsOut_enabled _).kept kr, ring_enableRings kp h, hring]

/-! ### The write of SEAL -/

theorem field_of_low_bit {x : BitVec 64} (h : x.getLsbD 0 = true) : Bits.field (x.toNat % 2 ^ 32) 0 1 = 1 := by
  rw [BitVec.getLsbD, Nat.testBit_zero, decide_eq_true_eq] at h
  rw [Bits.field, pow_zero, Nat.div_one, pow_one]
  omega

/-- SEAL is a 32-bit register, which nothing locks before SEAL (R404, R405). -/
theorem windowWrite_seal {s : State} {a : RegAccess} (hoff : a.off = 0x0028) (hsize : a.size = 4) (h : s.regs.sealed = false) :
    s.windowWrite a = s.writeSeal (a.value.toNat % 2 ^ 32) := by
  have hwide : State.wide64 0x0028 = false := by decide
  have hwrite : s.writeOpen 0x0028 (a.value.toNat % 2 ^ 32) = s.writeSeal (a.value.toNat % 2 ^ 32) := writeOpen_of_unsealed h _ _
  simp [-Nat.reducePow, State.windowWrite, State.write4, hoff, hsize, h, hwide, hwrite]

theorem seal_next {a : RegAccess} {s : State} (hoff : a.off = 0x0028) (hsize : a.size = 4) (hread : a.read = false)
    (hserved : s.windowServed = true) (h : s.regs.sealed = false) :
    exec (.seal a) s = .next (s.writeSeal (a.value.toNat % 2 ^ 32)) := by
  have hn : Instr.wf (.seal a) = true := by simp [Instr.wf, RegAccess.covers, hoff, hsize, hread]
  show regCommand _ _ _ _ = _
  rw [regCommand, hn, if_pos hserved, hread, ← windowWrite_seal hoff hsize h]
  rfl

/-- Settles O37: a check that fails leaves its code alone; where all pass, the partitions are enabled by their shares, then the rings
by their exponents and their partitions, and the records that waited (log 6) change neither. -/
theorem sealEnables : Obligations.SealEnables := by
  unfold Obligations.SealEnables
  intro a s k hoff hsize hread hbit hserved hs
  have hv : Bits.field (a.value.toNat % 2 ^ 32) 0 1 = 1 := field_of_low_bit hbit
  refine ⟨_, seal_next hoff hsize hread hserved hs, fun hc => ?_, fun hc => ?_⟩
  · rw [writeSeal_of_check_ne hs hv hc]
    exact ⟨(State.modRegs_moves (.refl _ s) rfl).frame, rfl⟩
  · rw [writeSeal_of_check hs hv hc]
    have ku : (s.modRegs Regs.sealedClear).Canonical := (State.modRegs_moves (.refl [.regs] s) rfl).canon k
    have hregs := (enableAll_moves (s.modRegs Regs.sealedClear)).frame .regs (by decide)
    refine ⟨congrArg Regs.sealed hregs, congrArg Regs.sealErr hregs,
      fun p hp => congrArg Part.enabled (part_enableAll ku hp), fun r hr => ?_⟩
    rw [ring_enableAll_enabled ku hr]
    exact congrArg (decide ((s.ring r).exp ≠ 0) && ·) (ringOwned_enableParts ku hr)

end Sys2Proof.Machine

/-! PROOFS. The frames of the starts, of the links and of the memory (13 to 18). -/

namespace Sys2Proof.Machine
/-- Settles O11: every row of the starts, of housekeeping, of power and of firmware stays within its reach. -/
theorem startFrame : Obligations.StartFrame := by
  unfold Obligations.StartFrame
  intro c s t hc h
  exact ((exec_start_reaches hc s).moves t h).frame

/-- Settles O14: every row of the links and of the partner stays within its reach, a torn flit within every piece. -/
theorem linkFrame : Obligations.LinkFrame := by
  unfold Obligations.LinkFrame
  intro c s t hc h
  exact ((exec_link_reaches hc s).moves t h).frame

/-- Settles O15: every row of the memory and of the fault unit stays within its reach. -/
theorem memoryFrame : Obligations.MemoryFrame := by
  unfold Obligations.MemoryFrame
  intro c s t hc h
  exact ((exec_memory_reaches hc s).moves t h).frame
end Sys2Proof.Machine

/-! PROOFS. The register window: reads answer, writes act, and what is locked, policy or unserved (R404 to R406, R408, 20). -/

namespace Sys2Proof.Machine

/-! ### A write of one register -/

theorem windowWrite_word {s : State} {a : RegAccess} (hsize : a.size = 4) (hoff : a.off % 4 = 0) :
    s.windowWrite a =
      (if s.regs.sealed && State.lockedAt a.off then s.count Ctr.regLockedWrites else s).write4 a.off (a.value.toNat % 2 ^ 32) := by
  simp [-Nat.reducePow, State.windowWrite, hsize, hoff]

/-- A 32-bit register whose fields the seal does not hold takes the word (R404, R405). -/
theorem windowWrite_reg {s : State} {a : RegAccess} (hsize : a.size = 4) (hoff : a.off % 4 = 0) (hw : State.wide64 a.off = false)
    (hl : (s.regs.sealed && State.lockedAt a.off) = false) : s.windowWrite a = s.writeReg a.off (a.value.toNat % 2 ^ 32) := by
  rw [windowWrite_word hsize hoff, hl]
  simp [-Nat.reducePow, State.write4, State.writeOpen, hw, hl]

/-- A named write of a register in a served window. -/
theorem regCommand_write {s : State} {a : RegAccess} {row : String} {named : Bool} (hn : named = true) (hread : a.read = false)
    (h : s.windowServed = true) : regCommand row named a s = .next (s.windowWrite a) := by
  rw [regCommand, if_pos h, hread, hn]
  rfl

/-- A register without RW-L fields is written sealed or not (R251). -/
theorem windowWrite_policy {s : State} {a : RegAccess} {o : Nat} (hoff : a.off = o) (hsize : a.size = 4) (ho : o % 4 = 0)
    (hw : State.wide64 o = false) (hl : State.lockedAt o = false) : s.windowWrite a = s.writeReg o (a.value.toNat % 2 ^ 32) := by
  subst hoff
  exact windowWrite_reg hsize ho hw (by rw [hl, Bool.and_false])

theorem regWrite_next {s : State} {a : RegAccess} (hread : a.read = false) (h : s.windowServed = true) :
    exec (.regWrite a) s = .next (s.windowWrite a) := regCommand_write (row := "REG_WRITE") (named := true) rfl hread h

theorem field_low_bit (x : BitVec 64) : (Bits.field (x.toNat % 2 ^ 32) 0 1 == 1) = x.getLsbD 0 := by
  rw [Bits.field, BitVec.getLsbD, Nat.testBit]
  simp only [Nat.shiftRight_zero, Nat.one_and_eq_mod_two]
  have h : x.toNat % 2 ^ 32 / 2 ^ 0 % 2 ^ 1 = x.toNat % 2 := by omega
  rw [h]
  rcases Nat.mod_two_eq_zero_or_one x.toNat with e | e <;> rw [e] <;> rfl

/-! ### Link policy (R272) -/

/-- Settles O39: LINK_CTRL is no locked register, and its write keeps a REPLAY_MAX that is out of range. -/
theorem linkPolicyIsWritten : Obligations.LinkPolicyIsWritten := by
  unfold Obligations.LinkPolicyIsWritten
  intro a s hoff hsize hread h
  refine ⟨_, regWrite_next hread h, ?_⟩
  rw [windowWrite_policy hoff hsize (by decide) (by decide) (by decide)]
  refine ⟨(State.modRegs_moves (.refl [.regs] s) rfl).frame, ?_⟩
  have h0 : a.value.toNat % 2 ^ 32 / 2 ^ 0 % 2 ^ 16 = a.value.toNat % 2 ^ 16 := by omega
  have h1 : a.value.toNat % 2 ^ 32 / 2 ^ 16 % 2 ^ 8 = a.value.toNat / 2 ^ 16 % 2 ^ 8 := by omega
  show ({ s.regs with laneErrMax := _, replayMax := _ } : Regs) = _
  simp only [State.fieldBV, State.keepUnless, Bits.field, h0, h1, decide_eq_true_eq, ne_eq, ite_not]

/-! ### Locked registers (R405) -/

theorem lockedAt_wide {o : Nat} (hl : State.lockedAt o = true) (hw : State.wide64 o = true) : State.lockedAt (o / 8 * 8) = true := by
  simp [State.lockedAt, State.wide64] at *
  omega

theorem write4_locked {s : State} {o : Nat} (hs : s.regs.sealed = true) (hl : State.lockedAt o = true) (v : Nat) : s.write4 o v = s := by
  unfold State.write4
  split
  · simp [State.writeOpen, hs, hl]
  · next hw => simp [hs, lockedAt_wide hl (by simpa using hw)]

theorem windowWrite_locked {s : State} {a : RegAccess} (hsize : a.size = 4) (hoff : a.off % 4 = 0) (hs : s.regs.sealed = true)
    (hl : State.lockedAt a.off = true) : s.windowWrite a = s.count Ctr.regLockedWrites := by
  rw [windowWrite_word hsize hoff, if_pos (by rw [hs, hl]; rfl)]
  exact write4_locked (s := s.count Ctr.regLockedWrites) hs hl _

/-- The share word of a partition: the new entry share bounds the premium share (Table 12-2). -/
def Part.sharesWritten (v : Nat) (x : Part) : Part :=
  { x with
    entryShare := State.keepUnless (decide (Bits.field v 0 15 ≤ 16384)) x.entryShare (State.fieldBV v 0 15)
    premiumShare := State.keepUnless
      (decide (Bits.field v 16 15 ≤ (State.keepUnless (decide (Bits.field v 0 15 ≤ 16384)) x.entryShare (State.fieldBV v 0 15)).toNat))
      x.premiumShare (State.fieldBV v 16 15) }

theorem writeReg_share (s : State) {p : Nat} (hp : p < 32) (v : Nat) :
    s.writeReg (0x10000 + 0x1000 * p + 0x100) v = s.modPart p (Part.sharesWritten v) := by
  generalize ho : 0x10000 + 0x1000 * p + 0x100 = o
  have hpage : o % 0x1000 = 0x100 := by omega
  have hpart : (o - 0x10000) / 0x1000 = p := by omega
  unfold State.writeReg
  split
  case h_7 =>
    rw [if_neg (by omega), if_neg (by omega), if_neg (by omega), if_pos (by omega), hpage, hpart]
    rfl
  all_goals omega

/-- Settles O40: a locked write is counted and does nothing else; that each 4-byte write counts one is the model's reading (log 103).
Before SEAL the share word keeps each field that is out of its range. -/
theorem sealLocksFields : Obligations.SealLocksFields := by
  unfold Obligations.SealLocksFields
  refine ⟨fun a s hsize hoff hread hl h hs => ?_, fun a p s c hp hoff hsize hread h hs => ?_⟩
  · refine ⟨_, regWrite_next hread h, ?_⟩
    rw [windowWrite_locked hsize hoff hs hl]
    exact ⟨(State.count_moves (.refl [.counters] s) rfl).frame, fun c => counter_count_self c _⟩
  · refine ⟨_, regWrite_next hread h, ?_⟩
    have hwide : State.wide64 (0x10000 + 0x1000 * p + 0x100) = false := by
      simp [State.wide64]
      omega
    rw [windowWrite_reg hsize (by omega) (hoff ▸ hwide) (by rw [hs]; rfl), hoff, writeReg_share s hp]
    have h0 : a.value.toNat % 2 ^ 32 / 2 ^ 0 % 2 ^ 15 = a.value.toNat % 2 ^ 15 := by omega
    have h1 : a.value.toNat % 2 ^ 32 / 2 ^ 16 % 2 ^ 15 = a.value.toNat / 2 ^ 16 % 2 ^ 15 := by omega
    refine ⟨(State.modPart_moves (.refl [.parts] s) rfl).frame, ?_, ?_, fun q hq => part_modPart_ne c hq _⟩
    all_goals
      rw [part_modPart_self c]
      simp only [Part.sharesWritten, State.fieldBV, State.keepUnless, Bits.field, h0, h1, decide_eq_true_eq]

/-! ### Registers with a behaviour of their own (R117, R338, R408) -/

theorem counterSel_write {s : State} {a : RegAccess} (hoff : a.off = 0x1080) (hsize : a.size = 8) :
    s.windowWrite a = (s.dropLow 0x1080).writeCounterSel a.value.toNat := by
  have hwide : State.wide64 0x1080 = true := by decide
  have hlock : (s.regs.sealed && (State.lockedAt 0x1080 || State.lockedAt 0x1084)) = false := by
    rw [show (State.lockedAt 0x1080 || State.lockedAt 0x1084) = false by decide, Bool.and_false]
  have hopen : (s.dropLow 0x1080).writeOpen 0x1080 a.value.toNat = (s.dropLow 0x1080).writeCounterSel a.value.toNat := by
    rw [State.writeOpen, if_neg (by rw [show State.lockedAt 0x1080 = false by decide, Bool.and_false]; decide)]
    rfl
  simp [-Nat.reducePow, State.windowWrite, hoff, hsize, hwide, hlock, hopen]

theorem writeCounterSel_regs (s : State) (v : Nat) :
    (s.writeCounterSel v).regs = { s.regs with
      counterSel := BitVec.ofNat 64 v, counterInvalid := !counterNamed v
      counterVal := if counterNamed v then (s.levelValue v).getD (Tbl.get 0 (v % 2 ^ 48) s.counters) else 0 } := rfl

/-- REFEN (R117): rising starts the reference's time, 0 ends it, and only the register and the converter change. -/
theorem writeRefen_moves (s : State) (on : Bool) : Moves [.regs, .hk] s (s.writeRefen on) := State.writeRefen_moves (.refl _ s) rfl

theorem writeRefen_refen (s : State) (on : Bool) : (s.writeRefen on).regs.refen = on := by
  unfold State.writeRefen
  dsimp only
  repeat' split
  all_goals rfl

theorem writeRefen_rising {s : State} (h : s.regs.refen = false) :
    (s.writeRefen true).hk.refenAt = some s.now ∧ (s.writeRefen true).hk.refReady = false := by
  unfold State.writeRefen
  rw [h]
  exact ⟨rfl, rfl⟩

theorem writeRefen_off (s : State) : (s.writeRefen false).hk.refenAt = none ∧ (s.writeRefen false).hk.refReady = false := by
  unfold State.writeRefen
  exact ⟨rfl, rfl⟩

theorem writeGo_taken {s : State} (hp : s.boot.phase = .coldStart) (hb : s.regs.boot = 1) (h3 : s.boot.done.getLsbD 3 = true)
    (h4 : s.boot.done.getLsbD 4 = false) (hlo : 0 < s.regs.bootLength.toNat) (hhi : s.regs.bootLength.toNat ≤ 2 ^ 24) :
    s.writeGo = s.modBoot fun b => { b with go := true } := if_pos ⟨hp, hb, h3, h4, hlo, hhi⟩

theorem writeReg_fence {s : State} {v : Nat} (h : Bits.field v 0 1 = 1) :
    s.writeReg 0x1024 v = s.modPins fun p => { p with fenceOut := false } := if_pos h

theorem writeReg_go {s : State} {v : Nat} (h : Bits.field v 0 1 = 1) : s.writeReg 0x109C v = s.writeGo := if_pos h

theorem writeReg_refen (s : State) (v : Nat) : s.writeReg 0x1028 v = s.writeRefen (Bits.field v 0 1 == 1) := rfl

theorem byteFor_low_bit {a : RegAccess} {off : Nat} (hoff : a.off = off) (h : a.value.getLsbD 0 = true) : a.byteFor off % 2 = 1 := by
  have hv := field_of_low_bit h
  rw [RegAccess.byteFor, hoff, Nat.sub_self]
  rw [Bits.field] at hv
  omega

/-! ### Reads (R404) -/

theorem windowRead_word {s : State} {a : RegAccess} (hsize : a.size = 4) (hoff : a.off % 4 = 0) : s.windowRead a = s.read4 a.off := by
  simp [State.windowRead, hsize, hoff]

theorem regWrite_read {s : State} {a : RegAccess} (hread : a.read = true) (h : s.windowServed = true) :
    exec (.regWrite a) s = .next (s.windowRead a) := by
  show regCommand "REG_WRITE" true a s = _
  rw [regCommand, if_pos h, hread]
  rfl

theorem read4_narrow {s : State} {o : Nat} (h : State.readWide o = false) : s.read4 o = s.emit (.regRead o (s.regWord o)) := by
  rw [State.read4, h]
  rfl

/-- A read of the lower half of a 64-bit register, with the upper half latched. -/
def State.readLow (s : State) (o : Nat) : State :=
  ((s.dropHigh o).modRegs fun r => { r with highLatch := (o, BitVec.ofNat 32 (s.regWord (o + 4))) :: r.highLatch }).emit
    (.regRead o (s.regWord o))

theorem read4_low {s : State} {o : Nat} (h : State.readWide o = true) (ho : o % 8 = 0) : s.read4 o = s.readLow o := by
  rw [State.read4, h, if_neg (by decide), if_pos ho, State.readLow]

theorem readWide_upper {o : Nat} (h : State.readWide o = true) (ho : o % 8 = 0) : State.readWide (o + 4) = true := by
  have hp : (o + 4) / 8 * 8 = o / 8 * 8 := by omega
  rw [← h, State.readWide, State.readWide, State.wide64, State.wide64, hp]

/-- The next read of the upper half answers what the lower half's read latched. -/
theorem read4_high {s : State} {o : Nat} (h : State.readWide o = true) (ho : o % 8 = 0) :
    ((s.readLow o).read4 (o + 4)).out = (s.readLow o).out ++ [.regRead (o + 4) (s.regWord (o + 4) % 2 ^ 32)] := by
  have hlatch : (s.readLow o).regs.highLatch.find? (fun x => x.1 == o + 4 - 4) = some (o, BitVec.ofNat 32 (s.regWord (o + 4))) := by
    rw [show (s.readLow o).regs.highLatch = (o, BitVec.ofNat 32 (s.regWord (o + 4))) :: (s.dropHigh o).regs.highLatch from rfl]
    exact List.find?_cons_of_pos (by simp)
  rw [State.read4, readWide_upper h ho, if_neg (by decide), if_neg (by omega), hlatch]
  rfl

/-! ### What an access answers -/

theorem regCommand_unserved {s : State} {a : RegAccess} {row : String} {named : Bool} (hn : named = true) (h : s.windowServed = false) :
    regCommand row named a s = .next s := by
  rw [regCommand, h, hn]
  rfl

/-- Settles O38: each register by what its write does, and reads by what latches the upper half. That an access which covers a register
of Table 20-3 comes by that register's row is the model's choice (log 185). -/
theorem registersAct : Obligations.RegistersAct := by
  unfold Obligations.RegistersAct
  refine ⟨fun a s hoff hsize hread hbit h => ?_, fun a s hoff hsize hread hbit h hp hb h3 h4 hlo hhi => ?_,
    fun a s hoff hsize hread h => ?_, fun a s hoff hsize hread h => ?_, fun a s hread hsize hoff h => ?_, fun a s h => ?_⟩
  · have hn : Instr.wf (.fenceCtrlRelease a) = true := by
      simp [Instr.wf, RegAccess.covers, hoff, hsize, hread, byteFor_low_bit hoff hbit]
    refine ⟨_, regCommand_write (row := "FENCE_CTRL_RELEASE") hn hread h, ?_⟩
    rw [windowWrite_policy hoff hsize (by decide) (by decide) (by decide),
      writeReg_fence (field_of_low_bit hbit)]
    exact ⟨(State.modPins_moves (.refl [.pins] s) rfl).frame, rfl⟩
  · have hn : Instr.wf (.bootSrcGo a) = true := by
      simp [Instr.wf, RegAccess.covers, hoff, hsize, hread, byteFor_low_bit hoff hbit]
    refine ⟨_, regCommand_write (row := "BOOT_SRC_GO") hn hread h, ?_⟩
    rw [windowWrite_policy hoff hsize (by decide) (by decide) (by decide),
      writeReg_go (field_of_low_bit hbit), writeGo_taken hp hb h3 h4 hlo hhi]
    exact ⟨(State.modBoot_moves (.refl [.boot] s) rfl).frame, rfl⟩
  · have hn : Instr.wf (.counterSel a) = true := by simp [Instr.wf, RegAccess.covers, hoff, hsize, hread]
    refine ⟨_, regCommand_write (row := "COUNTER_SEL") hn hread h, ?_⟩
    rw [counterSel_write hoff hsize]
    refine ⟨(State.writeCounterSel_moves (State.dropLow_moves (.refl [.regs] s) rfl) rfl).frame, ?_, ?_, ?_⟩
    all_goals rw [writeCounterSel_regs]
    · exact BitVec.ofNat_toNat ..
    · rfl
  · have hn : Instr.wf (.hkCtrlRefen a) = true := by simp [Instr.wf, RegAccess.covers, hoff, hsize, hread]
    refine ⟨_, regCommand_write (row := "HK_CTRL_REFEN") hn hread h, ?_⟩
    rw [windowWrite_policy hoff hsize (by decide) (by decide) (by decide),
      writeReg_refen, field_low_bit]
    refine ⟨(writeRefen_moves s _).frame, writeRefen_refen s _, fun hon hwas => ?_, fun hoffd => ?_⟩
    · rw [hon]
      exact writeRefen_rising hwas
    · rw [hoffd]
      exact writeRefen_off s
  · refine ⟨_, regWrite_read hread h, ?_⟩
    rw [windowRead_word hsize hoff]
    refine ⟨fun hw => ?_, fun hw ho => ?_⟩
    · rw [read4_narrow hw]
      exact ⟨(State.emit_moves (.refl [.out] s) rfl).frame, rfl⟩
    · rw [read4_low hw ho]
      refine ⟨(State.emit_moves (State.modRegs_moves (State.dropHigh_moves (.refl [.regs, .out] s) rfl) rfl) rfl).frame, rfl, ?_⟩
      intro b hbread hbsize hboff
      refine ⟨_, regWrite_read hbread h, ?_⟩
      rw [windowRead_word hbsize (by omega), hboff]
      exact read4_high hw ho
  · intro c hc hw
    simp only [List.mem_cons, List.not_mem_nil, or_false] at hc
    rcases hc with rfl | rfl | rfl | rfl | rfl | rfl | rfl
    · exact regCommand_unserved (row := "SEAL") hw h
    · exact regCommand_unserved (row := "VERSION_NEG") hw h
    · exact regCommand_unserved (row := "FENCE_CTRL_RELEASE") hw h
    · exact regCommand_unserved (row := "BOOT_SRC_GO") hw h
    · exact regCommand_unserved (row := "COUNTER_SEL") hw h
    · exact regCommand_unserved (row := "HK_CTRL_REFEN") hw h
    · exact regCommand_unserved (row := "REG_WRITE") hw h

/-! ### The values that reset leaves -/

/-- Settles O3: the reset state lists nothing in its tables, so each key reads its default. -/
theorem resetValues : Obligations.ResetValues := by
  unfold Obligations.ResetValues
  refine ⟨⟨rfl, rfl⟩, ⟨rfl, rfl, rfl, rfl⟩, ?_, fun _ => ⟨rfl, rfl, rfl⟩, fun _ => ⟨rfl, rfl⟩, fun _ => rfl, fun _ => rfl, rfl, rfl, rfl⟩
  decide

end Sys2Proof.Machine

/-! PROOFS. Descriptors of the memory, of resets, of power and of firmware: what starts, and what is asked for (R84, R262, R275, R301,
R303, R306, R324, R329, R331, R343, R351, R354, R355, R382). -/

namespace Sys2Proof.Machine

/-! ### An operation in progress -/

theorem started_of_rings {s t : State} {f : Sys2Proof.Fetch} (c : s.Canonical) (hr : t.rings = (s.advance f.ring).rings)
    (hj : s.jobOf f ∈ t.jobs) : Started s t f where
  taken := by
    rw [State.ring, hr]
    exact congrArg Ring.pos (advance_ring c f.ring)
  job := hj

theorem mem_start_jobs (s : State) (j : Job) : j ∈ (s.start j).jobs := List.mem_append_right _ List.mem_cons_self

/-- A descriptor whose job has started stays in progress while neither rings nor jobs change. -/
theorem started_after {l : List Field} {s t : State} {f : Sys2Proof.Fetch} (c : s.Canonical)
    (m : Moves l ((s.advance f.ring).start (s.jobOf f)) t) (hr : Field.rings ∉ l) (hj : Field.jobs ∉ l) : Started s t f :=
  started_of_rings c (m.frame .rings hr) (by
    rw [m.frame .jobs hj]
    exact mem_start_jobs _ _)

theorem advanceStart_canonical {s : State} (c : s.Canonical) (f : Sys2Proof.Fetch) :
    ((s.advance f.ring).start (s.jobOf f)).Canonical :=
  (State.start_moves (.refl [.jobs] _) rfl).canon (advance_canonical c f.ring)

/-- What every turn of a list keeps, the list keeps. -/
theorem each_keeps {α β : Type} {view : State → β} {g : State → α → State} (hg : ∀ s x, view (g s x) = view s) (xs : List α) (s : State) :
    view (s.each xs g) = view s := by
  induction xs generalizing s with
  | nil => rfl
  | cons x xs ih => exact (ih (g s x)).trans (hg s x)

/-! ### RETIRE, FILL and REHASH (R301, R303, R306) -/

@[simp] theorem advance_mem (s : State) (r : RingId) : (s.advance r).mem = s.mem :=
  advance_read (F := State.mem) (fun _ _ _ => rfl) s r

@[simp] theorem advance_retireBad (s : State) (r : RingId) (kind a : Nat) : (s.advance r).retireBad kind a = s.retireBad kind a :=
  advance_read (F := fun u => u.retireBad kind a) (fun _ _ _ => rfl) s r

@[simp] theorem advance_fillBad (s : State) (r : RingId) (a n : Nat) : (s.advance r).fillBad a n = s.fillBad a n :=
  advance_read (F := fun u => u.fillBad a n) (fun _ _ _ => rfl) s r

/-- The job has started and the memory has changed. -/
def State.queued (s : State) (f : Sys2Proof.Fetch) (g : Mem → Mem) : State := ((s.advance f.ring).start (s.jobOf f)).modMem g

theorem queued_started {s : State} (c : s.Canonical) (f : Sys2Proof.Fetch) (g : Mem → Mem) : Started s (s.queued f g) f :=
  started_of_rings c rfl (mem_start_jobs _ _)

theorem queued_mem (s : State) (f : Sys2Proof.Fetch) (g : Mem → Mem) : (s.queued f g).mem = g s.mem := congrArg g (advance_mem s f.ring)

theorem exec_retire {f : Sys2Proof.Fetch} {s : State} (h : s.Accepted f) (hw : Instr.wf (.retire f) = true)
    (hb : s.retireBad (Fetch.at f 8 1) (Fetch.at f 16 8) = false) :
    exec (.retire f) s = .next (s.queued f fun m =>
      { m with retireJobs := m.retireJobs ++ [{ job := s.jobOf f, a := Fetch.at f 8 1, b := Fetch.at f 16 8 }] }) := by
  show s.descriptor "RETIRE" (Instr.wf (.retire f)) f _ = _
  rw [hw, descriptor_accepted h, retireEffect, advance_retireBad, hb]
  rfl

theorem exec_fill {f : Sys2Proof.Fetch} {s : State} (h : s.Accepted f) (hw : Instr.wf (.fill f) = true)
    (hb : s.fillBad (Fetch.at f 8 8) (Fetch.at f 16 8) = false) :
    exec (.fill f) s = .next (s.queued f fun m =>
      { m with fillJobs := m.fillJobs ++ [{ job := s.jobOf f, a := Fetch.at f 8 8, b := Fetch.at f 16 8 }] }) := by
  show s.descriptor "FILL" (Instr.wf (.fill f)) f _ = _
  rw [hw, descriptor_accepted h, fillEffect, advance_fillBad, hb]
  rfl

/-- The bytes of HBM and the queue of rehashes. -/
def bytesAndRehashes (s : State) := (s.mem.hbm, s.mem.rehash)

/-- A stack's seed is drawn (R306). -/
def State.drawStackSeed (s : State) (k : Nat) : State :=
  (s.modMem fun m => { m with stackSeeds := Tbl.set 0 k (Config.random s.free) m.stackSeeds }).draw

/-- The seeds alone are drawn (R306). -/
theorem drawSeeds_keeps (s : State) (set : Nat) : bytesAndRehashes (s.drawSeeds set) = bytesAndRehashes s := by
  have hstacks := each_keeps (view := bytesAndRehashes) (g := State.drawStackSeed) (fun s k => show (s.mem.hbm, s.mem.rehash) = _ from rfl)
    ((List.range 8).filter fun k => set.testBit k) s
  unfold State.drawSeeds
  dsimp only
  split
  · exact hstacks
  · exact hstacks

/-- A REHASH behind the others; the first in the queue draws its seeds at once (R306). -/
theorem rehash_starts {f : Sys2Proof.Fetch} {s : State} (c : s.Canonical) (h : s.Accepted f) (hw : Instr.wf (.rehash f) = true)
    (hreg : Fetch.bits f 64 2 ≠ 0) :
    ∃ t, exec (.rehash f) s = .next t ∧ Started s t f ∧ t.mem.hbm = s.mem.hbm ∧
      t.mem.rehash = s.mem.rehash ++ [{ job := s.jobOf f, a := Fetch.bits f 64 2, b := Fetch.at f 9 1 }] := by
  let u := s.queued f fun m => { m with rehash := m.rehash ++ [{ job := s.jobOf f, a := Fetch.bits f 64 2, b := Fetch.at f 9 1 }] }
  have he : exec (.rehash f) s = .next (if s.mem.rehash.isEmpty then u.drawSeeds (Fetch.at f 9 1) else u) := by
    show s.descriptor "REHASH" (Instr.wf (.rehash f)) f _ = _
    rw [hw, descriptor_accepted h, rehashEffect, if_neg hreg, advance_mem]
    rfl
  have hu := queued_mem s f fun m => { m with rehash := m.rehash ++ [{ job := s.jobOf f, a := Fetch.bits f 64 2, b := Fetch.at f 9 1 }] }
  refine ⟨_, he, ?_⟩
  split
  · have hd := drawSeeds_keeps u (Fetch.at f 9 1)
    refine ⟨started_after (l := [.mem, .free]) c (State.drawSeeds_moves ((Moves.refl _ _).modMem (fun w => w) rfl) rfl) (by decide) (by decide),
      (congrArg (·.1) hd).trans ?_, (congrArg (·.2) hd).trans ?_⟩
    · exact (congrArg Mem.hbm hu :)
    · exact (congrArg Mem.rehash hu :)
  · refine ⟨queued_started c f _, ?_, ?_⟩
    · exact (congrArg Mem.hbm hu :)
    · exact (congrArg Mem.rehash hu :)

/-- Settles O31: each operation waits behind those before it (a retirement or fill in the order asked for, log 40), and a REHASH that is
first draws seeds alone. -/
theorem memoryMaintenanceStarts : Obligations.MemoryMaintenanceStarts := by
  unfold Obligations.MemoryMaintenanceStarts
  refine ⟨fun f s c h hw hb => ⟨_, exec_retire h hw hb, queued_started c f _, ?_, ?_⟩,
    fun f s c h hw hb => ⟨_, exec_fill h hw hb, queued_started c f _, ?_, ?_⟩, fun f s c h hw hreg => rehash_starts c h hw hreg⟩
  all_goals rw [queued_mem]

/-! ### POWER_STATE (R354, R355, R367) -/

theorem any_resetting {t : Tbl Part} (h : Tbl.Rising t) : t.any (fun x => x.2.resetting) = true ↔ ∃ p, (Tbl.get {} p t).resetting = true := by
  rw [List.any_eq_true]
  constructor
  · rintro ⟨x, hx, hr⟩
    exact ⟨x.1, by rwa [get_of_mem h (v := x.2) hx]⟩
  · rintro ⟨p, hp⟩
    exact ⟨_, mem_of_get (by rintro e; rw [e] at hp; cases hp), hp⟩

theorem advance_notIdle {s : State} (c : s.Canonical) (r : RingId) : (s.advance r).notIdle = s.notIdle := by
  have hparts : (s.advance r).parts.any (fun x => x.2.resetting) = s.parts.any fun x => x.2.resetting := by
    rw [Bool.eq_iff_iff, any_resetting (Tbl.rising_of_wf c.parts), any_resetting (Tbl.rising_of_wf (advance_canonical c r).parts)]
    exact exists_congr fun p => by
      rw [show (Tbl.get {} p (s.advance r).parts).resetting = (s.part p).resetting from
        advance_part (g := Part.resetting) (fun _ _ _ => rfl) c r p]
      rfl
  have hm := State.advance_moves (fl := [.parts, .rings]) (r := r) (Moves.refl _ s) rfl
  unfold State.notIdle
  rw [hparts, hm.frame .calls (by decide), hm.frame .weights (by decide), hm.frame .mem (by decide)]

@[simp] theorem advance_power (s : State) (r : RingId) : (s.advance r).power = s.power :=
  advance_read (F := State.power) (fun _ _ _ => rfl) s r

@[simp] theorem advance_runningBoughs (s : State) (r : RingId) : (s.advance r).runningBoughs = s.runningBoughs :=
  advance_read (F := State.runningBoughs) (fun _ _ _ => rfl) s r

theorem complete_power (s : State) (j : Job) (st : Status) : (s.complete j st).power = s.power :=
  (State.complete_moves (.refl [.rings, .counters, .calls, .jobs, .sec, .out] s) rfl).frame .power (by decide)

theorem power_answered {s : State} {f : Sys2Proof.Fetch} (c : s.Canonical) (h : s.Fetched f) (st : Status) :
    Answered s ((s.advance f.ring).complete (s.jobOf f) st) f st 0 0 ∧ ((s.advance f.ring).complete (s.jobOf f) st).power = s.power :=
  ⟨answered_now c h, by rw [complete_power, advance_power]⟩

theorem startWake_power (s : State) (j : Option Job) :
    (s.startWake j).power = { s.power with wake := some { from_ := s.power.dstate, phase := 0, job := j } } := by
  have hrail : ∀ (u : State) (a : Nat), (u.each (State.railPages a) fun s p => s.emit (.rail a p (s.railMv a p))).power = u.power := fun u a =>
    each_keeps (view := State.power) (by intros; rfl) (State.railPages a) u
  have hstart : ∀ u : State, (match j with | some j => u.start j | none => u).power = u.power := fun u => by cases j <;> rfl
  unfold State.startWake
  extract_lets s1 s2
  have h2 : s2.power = s.power := (each_keeps (view := State.power) hrail _ s1).trans (hstart s)
  show ({ s2.power with wake := some { from_ := s2.power.dstate, phase := 0, job := j } } : Power) = _
  rw [h2]

/-- A wake's first phase turns rails on (Table 17-8). -/
theorem startWake_after_start (s : State) (j : Job) : Moves [.power, .out] (s.start j) (s.startWake (some j)) := by
  unfold State.startWake
  exact State.modPower_moves ((Moves.refl _ _).each fun _ _ h => h.each fun _ _ h => State.emit_moves h rfl) rfl

theorem powerStateD0_acts {f : Sys2Proof.Fetch} {s : State} (c : s.Canonical) (h : s.Accepted f) (hw : Instr.wf (.powerStateD0 f) = true)
    (hd0 : Fetch.bits f 64 2 = 0) :
    ∃ t, exec (.powerStateD0 f) s = .next t ∧
      (s.power.dstate = .d2 → Started s t f ∧ t.power.wake = some { from_ := .d2, phase := 0, job := some (s.jobOf f) }) ∧
      (s.power.dstate ≠ .d2 → Answered s t f .ok 0 0 ∧ t.power = s.power) := by
  have he : exec (.powerStateD0 f) s = .next (if s.power.dstate = .d2 then (s.advance f.ring).startWake (some (s.jobOf f))
      else (s.advance f.ring).complete (s.jobOf f) .ok) := by
    show s.descriptor "POWER_STATE_D0" (Instr.wf (.powerStateD0 f)) f _ = _
    rw [hw, descriptor_accepted h, powerD0Effect, hd0, if_neg (by decide), advance_power]
  refine ⟨_, he, fun hd2 => ?_, fun hd2 => ?_⟩
  · rw [if_pos hd2]
    exact ⟨started_after c (startWake_after_start _ _) (by decide) (by decide), by rw [startWake_power, advance_power, hd2]⟩
  · rw [if_neg hd2]
    exact power_answered c h.toFetched .ok

/-- The run of a bough is abandoned (Table 17-7). -/
def State.stopRun (s : State) (b : Nat) : State := s.modBough b fun x => { x with runOn := false }

/-- An entry starts at its first step (Table 17-7). -/
theorem startEntry_power (s : State) (d : DState) (j : Job) :
    (s.startEntry d j).power = { s.power with
      entry := some { target := d, step := 1, abort := false, job := j, runs := s.runningBoughs, before := s.power.dstate } } := by
  unfold State.startEntry
  extract_lets runs s1 s2
  have h1 : s1.power = s.power := each_keeps (view := State.power) (g := State.stopRun) (by intros; rfl) runs (s.start j)
  have h2 : s2.power = s.power := (Moves.ite (State.flushAll_moves (.refl [.rings, .out] s1) rfl) (.refl _ s1)).frame .power (by decide) |>.trans h1
  show ({ s2.power with entry := some _ } : Power) = _
  rw [h2]

/-- Before interrupts are flushed an entry changes boughs and the power alone. -/
theorem startEntry_d2_moves (s : State) (j : Job) : Moves [.boughs, .power] (s.start j) (s.startEntry .d2 j) := by
  unfold State.startEntry
  exact State.modPower_moves ((Moves.refl _ _).each fun _ _ h => State.modBough_moves h rfl) rfl

theorem startEntry_jobs (s : State) (d : DState) (j : Job) : (s.startEntry d j).jobs = (s.start j).jobs := by
  have hruns : Moves [.rings, .boughs, .power, .out] (s.start j) ((s.start j).each s.runningBoughs State.stopRun) :=
    (Moves.refl _ _).each fun _ _ h => State.modBough_moves h rfl
  exact (State.modPower_moves ((State.flushAll_moves hruns rfl).ite hruns) rfl).frame .jobs (by decide)

/-- Every run is abandoned (Table 17-7). -/
theorem startEntry_runs {s : State} (c : s.Canonical) (j : Job) {b : Nat} (hb : b < 128) :
    ((s.startEntry .d2 j).bough b).runOn = false := by
  have hP : ∀ (u : State) (n : Nat), u.Canonical → (u.stopRun n).Canonical := fun u n cu => modBough_canonical cu n _
  have hne : ∀ (u : State) (n k : Nat), u.Canonical → k ≠ n → (u.stopRun n).bough k = u.bough k := fun u n k cu hk => bough_modBough_ne cu hk _
  have c0 : (s.start j).Canonical := (State.start_moves (.refl [.jobs] s) rfl).canon c
  show (((s.start j).each s.runningBoughs State.stopRun).bough b).runOn = false
  have hmem : b ∈ s.runningBoughs ↔ (s.bough b).runOn = true := by simp [State.runningBoughs, hb]
  have hnodup : s.runningBoughs.Nodup := List.Nodup.filter _ List.nodup_range
  by_cases hon : (s.bough b).runOn = true
  · rw [each_changes_named (view := State.bough) (g := fun _ x => { x with runOn := false }) hP hne
      (fun u n cu => bough_modBough_self cu n _) c0 hnodup (hmem.2 hon)]
  · rw [each_leaves_unnamed (view := State.bough) hP hne c0 (mt hmem.1 hon)]
    exact Bool.eq_false_iff.2 hon

theorem powerStateD2_acts {f : Sys2Proof.Fetch} {s : State} (c : s.Canonical) (h : s.Accepted f) (hw : Instr.wf (.powerStateD2 f) = true) :
    ∃ t, exec (.powerStateD2 f) s = .next t ∧ (s.power.dstate = .d2 → Answered s t f .ok 0 0) ∧
      (s.power.dstate ≠ .d2 → s.notIdle = true → Answered s t f .notIdle 0 0 ∧ t.power = s.power) ∧
      (s.power.dstate ≠ .d2 → s.notIdle = false → Started s t f ∧ (∀ b, b < 128 → (t.bough b).runOn = false) ∧
        t.power.entry = some
          { target := .d2, step := 1, abort := false, job := s.jobOf f, runs := s.runningBoughs, before := s.power.dstate }) := by
  refine ⟨powerD2Effect (s.jobOf f) (s.advance f.ring), ?_, fun hd2 => ?_, fun hd2 hi => ?_, fun hd2 hi => ?_⟩
  · show s.descriptor "POWER_STATE_D2" (Instr.wf (.powerStateD2 f)) f _ = _
    rw [hw, descriptor_accepted h]
  all_goals rw [powerD2Effect, advance_power]
  · rw [if_pos hd2]
    exact (power_answered c h.toFetched .ok).1
  · rw [if_neg hd2, advance_notIdle c, if_pos hi]
    exact power_answered c h.toFetched .notIdle
  · rw [if_neg hd2, advance_notIdle c, if_neg (Bool.eq_false_iff.1 hi)]
    exact ⟨started_after c (startEntry_d2_moves _ _) (by decide) (by decide), fun b hb => startEntry_runs (advance_canonical c _) _ hb,
      by rw [startEntry_power, advance_power, advance_runningBoughs]⟩

theorem powerStateD3_acts {f : Sys2Proof.Fetch} {s : State} (c : s.Canonical) (h : s.Accepted f) (hw : Instr.wf (.powerStateD3 f) = true) :
    ∃ t, exec (.powerStateD3 f) s = .next t ∧ (s.notIdle = true → Answered s t f .notIdle 0 0 ∧ t.power = s.power) ∧
      (s.notIdle = false → s.jobOf f ∈ t.jobs ∧
        t.power.entry = some
          { target := .d3, step := 1, abort := false, job := s.jobOf f, runs := s.runningBoughs, before := s.power.dstate }) := by
  refine ⟨powerD3Effect (s.jobOf f) (s.advance f.ring), ?_, fun hi => ?_, fun hi => ?_⟩
  · show s.descriptor "POWER_STATE_D3" (Instr.wf (.powerStateD3 f)) f _ = _
    rw [hw, descriptor_accepted h]
  all_goals rw [powerD3Effect, advance_notIdle c]
  · rw [if_pos hi]
    exact power_answered c h.toFetched .notIdle
  · rw [if_neg (Bool.eq_false_iff.1 hi), startEntry_jobs, startEntry_power, advance_power, advance_runningBoughs]
    exact ⟨mem_start_jobs _ _, rfl⟩

/-! ### FW_CUTOVER (R349, R382) -/

@[simp] theorem advance_cutoverBusy (s : State) (r : RingId) : cutoverBusy (s.advance r) = cutoverBusy s :=
  advance_read (F := cutoverBusy) (fun _ _ _ => rfl) s r

/-- A staged image that checks starts its cut-over, and the watchdog pauses (R349, R382). -/
theorem fwCutover_begins {f : Sys2Proof.Fetch} {s : State} (h : s.Accepted f) (hw : Instr.wf (.fwCutover f) = true)
    (hbusy : cutoverBusy s = false) (hslot : Fetch.bits f 64 1 ≠ s.sec.runSlot)
    (hv : (Tbl.get ({} : FwSlot) (Fetch.bits f 64 1) s.sec.slots).valid = true)
    (hd : Shake.digest32 (Tbl.get ({} : FwSlot) (Fetch.bits f 64 1) s.sec.slots).bytes =
      (Tbl.get ({} : FwSlot) (Fetch.bits f 64 1) s.sec.slots).digest) :
    exec (.fwCutover f) s = .next ((((s.advance f.ring).start (s.jobOf f)).modSec fun y =>
      { y with cutover := some { slot := Fetch.bits f 64 1, job := s.jobOf f, switched := false, switchTick := 0 } }).modBoot
        fun b => { b with dogPaused := true }) := by
  show s.descriptor "FW_CUTOVER" (Instr.wf (.fwCutover f)) f _ = _
  rw [hw, descriptor_accepted h, fwCutoverEffect, advance_cutoverBusy, hbusy, if_neg Bool.false_ne_true, advance_sec, if_neg hslot, hv,
    if_neg (by decide), if_neg (not_not_intro hd)]

theorem fwCutover_starts {f : Sys2Proof.Fetch} {s : State} {x : FwSlot} (c : s.Canonical) (h : s.Accepted f)
    (hw : Instr.wf (.fwCutover f) = true) (hbusy : cutoverBusy s = false) (hslot : Fetch.bits f 64 1 ≠ s.sec.runSlot)
    (hx : x = Tbl.get {} (Fetch.bits f 64 1) s.sec.slots) (hv : x.valid = true) (hd : Shake.digest32 x.bytes = x.digest) :
    ∃ t, exec (.fwCutover f) s = .next t ∧ Started s t f ∧ t.boot.dogPaused = true ∧
      t.sec.cutover = some { slot := Fetch.bits f 64 1, job := s.jobOf f, switched := false, switchTick := 0 } := by
  subst hx
  exact ⟨_, fwCutover_begins h hw hbusy hslot hv hd, started_of_rings c rfl (mem_start_jobs _ _), rfl, rfl⟩

/-- Settles O33: an entry goes through the boughs whose runs it abandons, and nothing of it is left where the device is not idle. -/
theorem powerStatesAndCutovers : Obligations.PowerStatesAndCutovers := by
  unfold Obligations.PowerStatesAndCutovers
  exact ⟨fun f s c h hw hd0 => powerStateD0_acts c h hw hd0, fun f s c h hw => powerStateD2_acts c h hw,
    fun f s c h hw => powerStateD3_acts c h hw, fun f s x c h hw hbusy hslot hx hv hd => fwCutover_starts c h hw hbusy hslot hx hv hd⟩

/-! ### ARRAY_TEST (R324) -/

@[simp] theorem advance_arrayTestBad (f : Sys2Proof.Fetch) (s : State) (r : RingId) : arrayTestBad f (s.advance r) = arrayTestBad f s :=
  advance_read (F := arrayTestBad f) (fun _ _ _ => rfl) s r

@[simp] theorem length_bytesOf (n v : Nat) : (Bits.bytesOf n v).length = n := by
  induction n generalizing v with
  | zero => rfl
  | succ n ih => exact congrArg Nat.succ (ih _)

theorem testEntry_length (code : Int) (failed : Bool) (expect value : Int) : (testEntry code failed expect value).length = 8 := by
  simp [testEntry]

theorem testHeader_length (s : State) (test half t d : Nat) (fail : Bool) (failing worst : Nat) :
    (testHeader s test half t d fail failing worst).length = 64 := by
  simp [testHeader]

theorem entries_length {n : Nat} {g : Nat → Bytes} (hg : ∀ k, (g k).length = 8) : ((List.range n).flatMap g).length = 8 * n := by
  simp [List.length_flatMap, hg, Nat.mul_comm]

theorem sweepResult_length (s : State) (t d : Nat) (codes : List Int) : (sweepResult s t d codes).length = 4160 := by
  unfold sweepResult
  extract_lets r res bad
  rw [List.length_append, List.length_append, testHeader_length, entries_length fun _ => testEntry_length .., List.length_replicate]

theorem clapperResult_length (s : State) (t d : Nat) (codes : List Int) : (clapperResult s t d codes).length = 4160 := by
  unfold clapperResult
  extract_lets h devs fails
  rw [List.length_append, testHeader_length, entries_length fun _ => testEntry_length ..]

theorem bypassResult_length (s : State) (t d : Nat) (codes : List Int) : (bypassResult s t d codes).length = 4160 := by
  unfold bypassResult
  rw [List.length_append, testHeader_length, entries_length fun _ => testEntry_length ..]

/-- What is put out at once stays put out. -/
theorem PutOut.of_moves {l : List Field} {s u t : State} {e : Emit} (ho : u.out = s.out) (m : Moves l (u.emit e) t) : PutOut s t e := by
  obtain ⟨w, hw⟩ := m.grows
  exact ⟨e :: w, by rw [← hw, ← ho]; simp [State.emit], List.mem_cons_self⟩

/-- The activity of an ARRAY_TEST in the gap's phase writes its result first (Table 15-5). -/
theorem arrayTestEffect_writes {f : Sys2Proof.Fetch} {s : State} (codes : List Int) (j : Job) (hbad : arrayTestBad f s = false)
    (hbuf : f.bufFault = false) :
    ∃ b l, b.length = 4160 ∧
      Moves l (((s.gapPhase (Fetch.at f 8 2))).emit (.hostWrite (Fetch.at f 16 8) b)) (arrayTestEffect f codes j s) := by
  unfold arrayTestEffect
  rw [hbad, hbuf, if_neg Bool.false_ne_true, if_neg Bool.false_ne_true]
  dsimp only
  split
  · exact ⟨_, [.rings, .counters, .jobs, .steps, .tiles, .boughs, .prods, .weights, .links, .faults, .power, .sec, .out],
      sweepResult_length _ _ _ codes, State.tileNext_moves (State.complete_moves (State.sweepDone_moves (.refl _ _) rfl) rfl) rfl⟩
  · exact ⟨_, [.rings, .counters, .jobs, .steps, .tiles, .boughs, .prods, .weights, .links, .faults, .power, .sec, .out],
      clapperResult_length _ _ _ codes, State.tileNext_moves (State.complete_moves (State.clapperDone_moves (.refl _ _) rfl) rfl) rfl⟩
  · exact ⟨_, [.rings, .counters, .jobs, .steps, .tiles, .boughs, .prods, .weights, .links, .faults, .power, .sec, .out],
      bypassResult_length _ _ _ codes, State.tileNext_moves (State.complete_moves (bypassDone_moves (.refl _ _) rfl) rfl) rfl⟩

theorem gapPhase_out (s : State) (t : Nat) : (s.gapPhase t).out = s.out :=
  (State.gapPhase_moves (.refl [.counters, .tiles, .boughs, .power] s) rfl).frame .out (by decide)

theorem testWaits_others {s : State} (c : s.Canonical) (r : RingId) {b k : Nat} (hk : k ≠ b) : (s.testWaits r b).bough k = s.bough k := by
  have c1 : (s.count (Ctr.refColdWaits b)).Canonical := count_canonical c _ _
  unfold State.testWaits
  dsimp only
  split
  · rfl
  · have c2 : ((s.count (Ctr.refColdWaits b)).warmBough b).Canonical := modBough_canonical c1 _ _
    exact (bough_modBough_ne c2 hk _).trans (bough_modBough_ne c1 hk _)

theorem arrayTestWaits_iff {f : Sys2Proof.Fetch} {s : State} (hbad : arrayTestBad f s = false) (hbuf : f.bufFault = false) :
    arrayTestWaits f s = !s.gap (Fetch.at f 8 2) := by
  rw [arrayTestWaits, hbad, hbuf]
  rfl

/-- What comes before an ARRAY_TEST's wait for a gap is met by a descriptor that is accepted. -/
theorem exec_arrayTest {f : Sys2Proof.Fetch} {codes : List Int} {s : State} (h : s.Accepted f) (hw : Instr.wf (.arrayTest f codes) = true) :
    exec (.arrayTest f codes) s = .next (if arrayTestWaits f s then s.testWaits f.ring (Fetch.at f 8 2 / 64)
      else arrayTestEffect f codes (s.jobOf f) (s.advance f.ring)) := by
  have hs : (s.running || decide (s.boot.phase = .coldStart)) = true := by rcases h.serves with k | k <;> simp [k]
  show execArrayTest f codes s = _
  rw [execArrayTest, hw, h.waiting, hs, h.free, h.checks, descriptor_accepted h]
  split <;> simp_all

/-- Settles O30: the activity writes its result before anything else of it ends. That a test without a gap stays in its ring is the
model's reading of R324 (log 100). -/
theorem arrayTestRunsInAGap : Obligations.ArrayTestRunsInAGap := by
  unfold Obligations.ArrayTestRunsInAGap
  intro f codes s c h hw hbad hbuf
  refine ⟨_, exec_arrayTest h hw, fun hgap => ?_, fun hgap => ?_⟩
  · rw [arrayTestWaits_iff hbad hbuf, hgap, if_neg (by decide)]
    obtain ⟨b, l, hb, m⟩ := arrayTestEffect_writes codes (s.jobOf f) ((advance_arrayTestBad f s f.ring).trans hbad) hbuf
    exact ⟨b, PutOut.of_moves ((gapPhase_out _ _).trans (advance_out s f.ring)) m, hb⟩
  · rw [arrayTestWaits_iff hbad hbuf, hgap, if_pos (by decide)]
    exact ⟨(State.testWaits_moves (.refl [.boughs, .counters] s) rfl).frame, fun b hb => testWaits_others c _ hb⟩

/-! ### RESET (R262, R275, R329, R331, R343, R351) -/

/-- While a program pulse runs a reset is held, a cold one before a warm one (R331). -/
theorem resetArrives_held {s : State} (hp : s.pulseRuns none = true) (cold : Bool) (source : Nat) :
    ∃ h, s.resetArrives cold source = (s.modBoot fun b => { b with heldReset := some h }) ∧ (cold = true → h.1 = true) := by
  have hkeep : ∀ h, s.boot.heldReset = some h → s = s.modBoot fun b => { b with heldReset := some h } := fun h hh => by
    rw [State.modBoot, ← hh]
  unfold State.resetArrives
  rw [if_pos hp]
  split
  · next k hh => exact ⟨(true, k), hkeep _ hh, fun _ => rfl⟩
  · next k hh =>
    split
    · exact ⟨(true, source), rfl, fun _ => rfl⟩
    · next hn => exact ⟨(false, k), hkeep _ hh, fun hc => absurd (by rw [hc]; rfl) hn⟩
  · exact ⟨_, rfl, fun hc => by rw [hc]; rfl⟩

/-- With no program pulse running a cold reset takes effect at once (R331). -/
theorem resetArrives_cold_now {s : State} (hp : s.pulseRuns none = false) (source : Nat) : s.resetArrives true source = s.coldReset source := by
  unfold State.resetArrives
  rw [if_neg (by rw [hp]; decide), if_pos (by rfl)]

@[simp] theorem advance_pulseRuns (s : State) (r : RingId) (b : Option Nat) : (s.advance r).pulseRuns b = s.pulseRuns b :=
  advance_read (F := fun u => u.pulseRuns b) (fun _ _ _ => rfl) s r

@[simp] theorem advance_boot (s : State) (r : RingId) : (s.advance r).boot = s.boot :=
  advance_read (F := State.boot) (fun _ _ _ => rfl) s r

@[simp] theorem advance_drains (s : State) (r : RingId) : (s.advance r).drains = s.drains :=
  advance_read (F := State.drains) (fun _ _ _ => rfl) s r

theorem resetCold_asked {f : Sys2Proof.Fetch} {s : State} (c : s.Canonical) (h : s.Accepted f) (hw : Instr.wf (.resetCold f) = true)
    (hscope : Fetch.bits f 64 3 = 1) :
    ∃ t, exec (.resetCold f) s = .next t ∧
      (s.pulseRuns none = false → t.boot.phase = .heldCold ∧ t.boot.source = 3 ∧ t.regs.ready = 0) ∧
      (s.pulseRuns none = true → Started s t f ∧ ∃ k, t.boot.heldReset = some (true, k)) := by
  have hp : ((s.advance f.ring).start (s.jobOf f)).pulseRuns none = s.pulseRuns none := advance_pulseRuns s f.ring none
  refine ⟨((s.advance f.ring).start (s.jobOf f)).resetArrives true 3, ?_, fun hno => ?_, fun hyes => ?_⟩
  · show s.descriptor "RESET_COLD" (Instr.wf (.resetCold f)) f _ = _
    rw [hw, descriptor_accepted h, resetColdEffect, if_pos hscope]
  · rw [resetArrives_cold_now (hp.trans hno)]
    exact ⟨rfl, rfl, rfl⟩
  · obtain ⟨⟨b, k⟩, he, hb⟩ := resetArrives_held (hp.trans hyes) true 3
    rw [he]
    exact ⟨started_of_rings c rfl (mem_start_jobs _ _), k, by rw [← hb rfl]; rfl⟩

/-- A drain that starts is listed. -/
theorem startDrain_listed (s : State) (sc : DrainScope) (why : DrainFor) :
    ∃ d ∈ (s.startDrain sc why).drains, d.scope = sc ∧ d.why = why := by
  unfold State.startDrain
  exact ⟨_, List.mem_append_right _ List.mem_cons_self, rfl, rfl⟩

/-- What a drain's start may change. -/
abbrev drainPieces : List Field := [.counters, .calls, .tiles, .boughs, .prods, .xferWaits, .links, .drains, .out]

/-- A drain starts unless what asks for it is merged into one that runs. -/
theorem drainUnless_moves (s : State) (merged : Bool) (sc : DrainScope) (why : DrainFor) :
    Moves drainPieces s (if merged then s else s.startDrain sc why) := (Moves.refl _ s).ite (State.startDrain_moves (.refl _ s) rfl)

theorem resetWarm_asked {f : Sys2Proof.Fetch} {s : State} (c : s.Canonical) (h : s.Accepted f) (hw : Instr.wf (.resetWarm f) = true)
    (hrun : s.running = true) :
    ∃ t, exec (.resetWarm f) s = .next t ∧ Started s t f ∧ t.boot.warmJob.isSome = true ∧ ∃ d ∈ t.drains, d.why = .warmReset := by
  let u := ((s.advance f.ring).start (s.jobOf f)).modBoot fun b => { b with warmJob := b.warmJob.or (some (s.jobOf f)) }
  have hu : Moves [.boot] ((s.advance f.ring).start (s.jobOf f)) u := State.modBoot_moves (.refl _ _) rfl
  let asked := u.drains.any fun d => d.why == .warmReset
  have hm := drainUnless_moves u asked .all .warmReset
  refine ⟨if asked then u else u.startDrain .all .warmReset, ?_,
    started_after (l := .boot :: drainPieces) c ((hu.mono rfl).trans (hm.mono rfl)) (by decide) (by decide), ?_, ?_⟩
  · show s.descriptor "RESET_WARM" (Instr.wf (.resetWarm f)) f _ = _
    rw [hw, descriptor_accepted h, resetWarmEffect, advance_boot, if_neg (by rw [of_decide_eq_true hrun]; decide)]
  · rw [hm.frame .boot (by decide)]
    show (Option.or _ (some _)).isSome = true
    simp
  · split
    · next hany =>
      obtain ⟨d, hd, hwhy⟩ := List.any_eq_true.1 hany
      exact ⟨d, hd, eq_of_beq hwhy⟩
    · obtain ⟨d, hd, -, hwhy⟩ := startDrain_listed u .all .warmReset
      exact ⟨d, hd, hwhy⟩

theorem resetPartition_asked {f : Sys2Proof.Fetch} {s : State} {p : Nat} (c : s.Canonical) (h : s.Accepted f)
    (hw : Instr.wf (.resetPartition f) = true) (hp : p = Fetch.bits f 72 6) (hlt : p < 32) :
    ∃ t, exec (.resetPartition f) s = .next t ∧ Started s t f ∧ (t.part p).resetting = true ∧ s.jobOf f ∈ (t.part p).resetJobs ∧
      ((s.part p).resetting = false → ∃ d ∈ t.drains, d.scope = .partition p ∧ d.why = .partitionReset p) := by
  let u := ((s.advance f.ring).start (s.jobOf f)).modPart p fun x => { x with resetting := true, resetJobs := x.resetJobs ++ [s.jobOf f] }
  have hu : Moves [.parts] ((s.advance f.ring).start (s.jobOf f)) u := State.modPart_moves (.refl _ _) rfl
  have hm := drainUnless_moves u (s.part p).resetting (.partition p) (.partitionReset p)
  have hpart := (part_congr (hm.frame .parts (by decide)) p).trans (part_modPart_self (advanceStart_canonical c f) p _)
  have hmerge : ((s.advance f.ring).part p).resetting = (s.part p).resetting := advance_part (g := Part.resetting) (fun _ _ _ => rfl) c _ p
  refine ⟨if (s.part p).resetting then u else u.startDrain (.partition p) (.partitionReset p), ?_,
    started_after (l := .parts :: drainPieces) c ((hu.mono rfl).trans (hm.mono rfl)) (by decide) (by decide), ?_, ?_, fun hno => ?_⟩
  · show s.descriptor "RESET_PARTITION" (Instr.wf (.resetPartition f)) f _ = _
    rw [hw, descriptor_accepted h, resetPartitionEffect, ← hp, if_neg (Nat.not_le.2 hlt), ← hmerge]
  · rw [hpart]
  · rw [hpart]
    exact List.mem_append_right _ List.mem_cons_self
  · rw [hno, if_neg Bool.false_ne_true]
    exact startDrain_listed u _ _

/-- A withdrawal takes products out of boughs' queues alone (R84). -/
theorem withdraw_bough {s : State} (c : s.Canonical) (sc : DrainScope) (why : DrainFor) (b : Nat) :
    ∃ w, (s.withdraw sc why).bough b = { s.bough b with waiting := w } := by
  unfold State.withdraw
  extract_lets gone waits ids s1
  have h1 : s1.boughs = s.boughs := by
    have hm : Moves [.counters, .calls, .links, .out] s s1 := by
      unfold s1
      split
      · exact .refl _ s
      · exact State.saveHeaders_moves (.refl _ s) rfl
    exact hm.frame .boughs (by decide)
  refine ⟨(s.bough b).waiting.filter fun i => !ids.contains i, ?_⟩
  show Tbl.get {} b (Tbl.mapVals {} (fun x : Bough => { x with waiting := x.waiting.filter fun i => !ids.contains i }) s1.boughs) = _
  rw [h1, get_mapVals rfl b (Tbl.rising_of_wf c.boughs)]
  rfl

theorem startDrain_bough {s : State} (c : s.Canonical) (sc : DrainScope) (why : DrainFor) (b : Nat) :
    ∃ w, (s.startDrain sc why).bough b = { s.bough b with waiting := w } := withdraw_bough c sc why b

@[simp] theorem advance_starting (s : State) (r : RingId) : (s.advance r).starting = s.starting :=
  advance_read (F := State.starting) (fun _ _ _ => rfl) s r

/-- During a start a reset of a bough or a port waits for the start's end (R329). -/
theorem lost_asked {s : State} {f : Sys2Proof.Fetch} (c : s.Canonical) :
    let t := ((s.advance f.ring).start (s.jobOf f)).modBoot fun x => { x with lostJobs := x.lostJobs ++ [s.jobOf f] }
    Started s t f ∧ s.jobOf f ∈ t.boot.lostJobs :=
  ⟨started_of_rings c rfl (mem_start_jobs _ _), List.mem_append_right _ List.mem_cons_self⟩

/-- A bough waits for its reset and, without one that waits already, its drain starts (R351). -/
theorem boughReset_asked {s : State} {f : Sys2Proof.Fetch} {b : Nat} (c : s.Canonical) (hb : b = Fetch.bits f 80 7)
    (hno : s.starting = false) :
    let t := resetBoughEffect f (s.jobOf f) (s.advance f.ring)
    Started s t f ∧ s.jobOf f ∈ (t.bough b).resetJobs ∧
      ((s.bough b).resetJobs = [] → (t.bough b).draining = true ∧ ∃ d ∈ t.drains, d.scope = .bough b ∧ d.why = .boughReset b) := by
  have c0 := advanceStart_canonical c f
  let u := ((s.advance f.ring).start (s.jobOf f)).modBough b fun x => { x with resetJobs := x.resetJobs ++ [s.jobOf f] }
  let v := u.modBough b fun x => { x with draining := true }
  have hu : Moves [.boughs] ((s.advance f.ring).start (s.jobOf f)) u := State.modBough_moves (.refl _ _) rfl
  have hjob : s.jobOf f ∈ (u.bough b).resetJobs := by
    rw [bough_modBough_self c0]
    exact List.mem_append_right _ List.mem_cons_self
  have he : resetBoughEffect f (s.jobOf f) (s.advance f.ring) =
      if (!(s.bough b).resetJobs.isEmpty) = true then u else v.startDrain (.bough b) (.boughReset b) := by
    rw [resetBoughEffect, ← hb, advance_starting, hno, if_neg Bool.false_ne_true, advance_bough]
  dsimp only
  rw [he]
  split
  · next hm =>
    exact ⟨started_after c hu (by decide) (by decide), hjob, fun hnone => by rw [hnone] at hm; cases hm⟩
  · have cu : u.Canonical := hu.canon c0
    have hv : Moves drainPieces u (v.startDrain (.bough b) (.boughReset b)) :=
      State.startDrain_moves (State.modBough_moves (.refl _ u) rfl) rfl
    obtain ⟨w, hw⟩ := startDrain_bough (modBough_canonical cu b _) (.bough b) (.boughReset b) b
    rw [bough_modBough_self cu] at hw
    exact ⟨started_after (l := drainPieces) c ((hu.mono rfl).trans (hv.mono rfl)) (by decide) (by decide), by rw [hw]; exact hjob,
      fun _ => ⟨by rw [hw], startDrain_listed v _ _⟩⟩

theorem resetBough_asked {f : Sys2Proof.Fetch} {s : State} {b : Nat} (c : s.Canonical) (h : s.Accepted f)
    (hw : Instr.wf (.resetBough f) = true) (hb : b = Fetch.bits f 80 7) :
    ∃ t, exec (.resetBough f) s = .next t ∧ Started s t f ∧
      (s.starting = true → s.jobOf f ∈ t.boot.lostJobs) ∧
      (s.starting = false → s.jobOf f ∈ (t.bough b).resetJobs ∧
        ((s.bough b).resetJobs = [] → (t.bough b).draining = true ∧ ∃ d ∈ t.drains, d.scope = .bough b ∧ d.why = .boughReset b)) := by
  refine ⟨resetBoughEffect f (s.jobOf f) (s.advance f.ring), ?_, ?_⟩
  · show s.descriptor "RESET_BOUGH" (Instr.wf (.resetBough f)) f _ = _
    rw [hw, descriptor_accepted h]
  cases hst : s.starting with
  | false =>
    obtain ⟨hs, hjob, hfirst⟩ := boughReset_asked c hb hst
    exact ⟨hs, nofun, fun _ => ⟨hjob, hfirst⟩⟩
  | true =>
    rw [resetBoughEffect, advance_starting, hst, if_pos rfl]
    exact ⟨(lost_asked c).1, fun _ => (lost_asked c).2, nofun⟩

/-! ### RESET of a port (R275) -/

theorem trainPort_training {s : State} (c : s.Canonical) (hi : s.isolated = false) (p : Port) :
    (s.trainPort p).link p = { s.link p with state := .training, width := 0, group := 0, weak := 0, downSince := none } := by
  rw [State.trainPort, if_neg (by rw [hi]; decide), link_modLink_self c]

/-- A change of port H's other fields leaves it isolated or not. -/
theorem modLink_isolated {s : State} (c : s.Canonical) (p : Port) {g : Link → Link} (hg : ∀ l, (g l).state = l.state) :
    (s.modLink p g).isolated = s.isolated := by
  unfold State.isolated
  by_cases hp : Port.h = p
  · rw [← hp, link_modLink_self c, hg]
  · rw [link_modLink_ne c hp]

theorem sendHold_t_isolated {s : State} (c : s.Canonical) (ticks : Nat) (warm sleep : Bool) :
    (s.sendHold ticks warm sleep).isolated = s.isolated := by
  unfold State.sendHold
  split
  · rw [State.isolated, send_link_ne c (by decide : Port.h ≠ .t)]
    rfl
  · rfl

theorem not_isolated_of_fetched {s : State} {f : Sys2Proof.Fetch} (h : s.Fetched f) : s.isolated = false := by
  have hf := h.free
  unfold State.fetchHeld at hf
  simp only [Bool.or_eq_false_iff] at hf
  obtain ⟨⟨⟨⟨⟨-, hi⟩, -⟩, -⟩, -⟩, -⟩ := hf
  exact hi

@[simp] theorem advance_isolated (s : State) (r : RingId) : (s.advance r).isolated = s.isolated :=
  advance_read (F := State.isolated) (fun _ _ _ => rfl) s r

theorem portReset_asked {s : State} {f : Sys2Proof.Fetch} (c : s.Canonical) (h : s.Fetched f) (hport : Fetch.bits f 72 6 < 4)
    (hno : s.starting = false) :
    let t := resetPortEffect f (s.jobOf f) (s.advance f.ring)
    Started s t f ∧ (t.link (portOf (Fetch.bits f 72 6))).state = .training ∧
      s.jobOf f ∈ (t.link (portOf (Fetch.bits f 72 6))).resetJobs := by
  let p := portOf (Fetch.bits f 72 6)
  let u := if p = .t then (s.advance f.ring).sendHold (2 ^ 24) false false else s.advance f.ring
  let v := (u.start (s.jobOf f)).modLink p fun l => { l with resetJobs := l.resetJobs ++ [s.jobOf f] }
  have ca := advance_canonical c f.ring
  have hu : Moves [.counters, .links, .out] (s.advance f.ring) u := (State.sendHold_moves (.refl _ _) rfl).ite (.refl _ _)
  have cs : (u.start (s.jobOf f)).Canonical := (State.start_moves (.refl [.jobs] u) rfl).canon (hu.canon ca)
  have hi : u.isolated = false := by
    refine (?_ : u.isolated = _).trans ((advance_isolated s f.ring).trans (not_isolated_of_fetched h))
    unfold u
    split
    · exact sendHold_t_isolated ca _ _ _
    · rfl
  have hvi : v.isolated = false := (modLink_isolated cs p (by intro _; rfl)).trans hi
  have cv : v.Canonical := (State.modLink_moves (.refl [.links] _) rfl).canon cs
  have he : resetPortEffect f (s.jobOf f) (s.advance f.ring) = v.trainPort p := by
    rw [resetPortEffect, if_neg (Nat.not_le.2 hport), advance_starting, hno, if_neg Bool.false_ne_true]
  have hm : Moves [.links] (u.start (s.jobOf f)) (v.trainPort p) := State.trainPort_moves (State.modLink_moves (.refl _ _) rfl) rfl
  dsimp only
  rw [he, trainPort_training cv hvi, link_modLink_self cs]
  refine ⟨started_of_rings c ((hm.frame .rings (by decide)).trans (hu.frame .rings (by decide))) ?_, rfl,
    List.mem_append_right _ List.mem_cons_self⟩
  rw [hm.frame .jobs (by decide)]
  exact mem_start_jobs _ _

theorem resetPort_asked {f : Sys2Proof.Fetch} {s : State} (c : s.Canonical) (h : s.Accepted f)
    (hw : Instr.wf (.resetPort f) = true) (hport : Fetch.bits f 72 6 < 4) :
    ∃ t, exec (.resetPort f) s = .next t ∧ Started s t f ∧
      (s.starting = true → s.jobOf f ∈ t.boot.lostJobs) ∧
      (s.starting = false → (t.link (portOf (Fetch.bits f 72 6))).state = .training ∧
        s.jobOf f ∈ (t.link (portOf (Fetch.bits f 72 6))).resetJobs) := by
  refine ⟨resetPortEffect f (s.jobOf f) (s.advance f.ring), ?_, ?_⟩
  · show s.descriptor "RESET_PORT" (Instr.wf (.resetPort f)) f _ = _
    rw [hw, descriptor_accepted h]
  cases hst : s.starting with
  | false =>
    obtain ⟨hs, htrain, hjob⟩ := portReset_asked c h.toFetched hport hst
    exact ⟨hs, nofun, fun _ => ⟨htrain, hjob⟩⟩
  | true =>
    rw [resetPortEffect, if_neg (Nat.not_le.2 hport), advance_starting, hst, if_pos rfl]
    exact ⟨(lost_asked c).1, fun _ => (lost_asked c).2, nofun⟩

/-- Settles O32: a reset of scope 2, 3 or 4 starts its drain unless one that it is merged into runs. -/
theorem resetsAreAsked : Obligations.ResetsAreAsked := by
  unfold Obligations.ResetsAreAsked
  exact ⟨fun f s c h hw hscope => resetCold_asked c h hw hscope, fun f s c h hw hrun => resetWarm_asked c h hw hrun,
    fun f s p c h hw hp hlt => resetPartition_asked c h hw hp hlt, fun f s b c h hw hb => resetBough_asked c h hw hb,
    fun f s c h hw hport => resetPort_asked c h hw hport⟩

end Sys2Proof.Machine

/-! PROOFS. Pins, resets that were held, regulators and the watchdog (R271, R284, R329 to R335, R343, R346, R349, R351, R363, R389, R392,
R394, R401). -/

namespace Sys2Proof.Machine

/-! ### A change of every port -/

section
variable {P : State → Prop} {f : State → Port → State} {g : Link → Link} (hP : ∀ s p, P s → P (f s p))
  (hself : ∀ s p, P s → (f s p).link p = g (s.link p)) (hne : ∀ s p q, P s → q ≠ p → (f s p).link q = s.link q)
include hP hself hne

/-- Where each turn changes its own port alone, the four turns change each port once. -/
theorem eachPort_changes {s : State} (hs : P s) (p : Port) : (s.each [.h, .t, .u, .d] f).link p = g (s.link p) := by
  have h1 := hP s .h hs
  have h2 := hP _ .t h1
  have h3 := hP _ .u h2
  show (f (f (f (f s .h) .t) .u) .d).link p = g (s.link p)
  cases p
  · rw [hne _ _ _ h3 (by decide), hne _ _ _ h2 (by decide), hne _ _ _ h1 (by decide), hself s _ hs]
  · rw [hne _ _ _ h3 (by decide), hne _ _ _ h2 (by decide), hself _ _ h1, hne s _ _ hs (by decide)]
  · rw [hne _ _ _ h3 (by decide), hself _ _ h2, hne _ _ _ h1 (by decide), hne s _ _ hs (by decide)]
  · rw [hself _ _ h3, hne _ _ _ h2 (by decide), hne _ _ _ h1 (by decide), hne s _ _ hs (by decide)]

end

theorem modLink_canonical {s : State} (c : s.Canonical) (p : Port) (g : Link → Link) : (s.modLink p g).Canonical :=
  (State.modLink_moves (.refl [.links] s) rfl).canon c

theorem eachPort_modLink {s : State} (c : s.Canonical) (g : Link → Link) (p : Port) :
    (s.each [.h, .t, .u, .d] fun s p => s.modLink p g).link p = g (s.link p) :=
  eachPort_changes (P := State.Canonical) (fun _ p c => modLink_canonical c p g) (fun _ p c => link_modLink_self c p g)
    (fun _ _ _ c h => link_modLink_ne c h g) c p

theorem eachPort_moves {l : List Field} {f : State → Port → State} (hf : ∀ s p, Moves l s (f s p)) (s : State) :
    Moves l s (s.each [.h, .t, .u, .d] f) := (Moves.refl _ s).each fun u p h => h.trans (hf u p)

/-! ### Resets take effect -/

/-- The pieces that a warm reset leaves: pins, partitions, tick, trims, jobs, customers, grafts, mattes, weights and links. -/
abbrev warmPieces : List Field :=
  [.boot, .regs, .rings, .counters, .calls, .steps, .batch, .sched, .splitHead, .stage, .tiles, .boughs, .prods, .sums, .handoffs,
  .acts, .xferWaits, .histos, .canopy, .backs, .latches, .attnWaits, .servedKv, .servedAttn, .mem, .partner, .faults, .hk, .power,
  .sec, .drains, .out]

theorem warmReset_warm (s : State) (n : Nat) : Moves warmPieces s (s.warmReset n) := State.warmReset_moves (.refl _ s) rfl

/-- A warm reset keeps of the start's record what it does not begin anew (R331). -/
theorem warmReset_boot_eq (s : State) (n : Nat) : (s.warmReset n).boot = { s.boot with
    phase := .heldWarm, source := n, heldReset := none, done := 0, failedStep := none, releasedAt := s.now, warmJob := none,
    dogPaused := false, dogAt := s.now } := by
  let u := (s.flushAll (s.rings.map fun r => ringOf r.1)).abandonSteps
  have hu : Moves (everyPiece.filter fun f => f ≠ .boot ∧ f ≠ .tick) s u :=
    State.abandonSteps_moves (State.flushAll_moves (.refl _ s) (by decide)) (by decide)
  have hb : u.boot = s.boot := hu.frame .boot (by decide)
  have ht : u.now = s.now := congrArg BitVec.toNat (hu.frame .tick (by decide))
  rw [← hb, ← ht]
  rfl

theorem source_warm {s : State} (hr : s.running = true) (hp : s.pulseRuns none = false) (n : Nat) : s.source false n = s.warmReset n := by
  rw [State.source, State.awake, hr, if_pos (Bool.true_or _), resetArrives_warm hr hp]

/-! ### The watchdog (R349) -/

theorem mgmtUp_awake {s : State} (h : s.mgmtUp = true) : s.awake = true := (Bool.and_eq_true _ _ ▸ h).2

/-- A warm source of a device that is awake: a cold start is restarted, anything else is reset warm (R329). -/
theorem source_acts {s : State} (h : s.awake = true) (hp : s.pulseRuns none = false) (n : Nat) :
    s.source false n = if s.boot.phase = .coldStart then s.coldReset n else s.warmReset n := by
  rw [State.source, if_pos h, State.resetArrives, if_neg (by rw [hp]; decide), Bool.false_or]
  simp only [decide_eq_true_eq]

theorem watchdogExpiry_resets {s : State} (hup : s.mgmtUp = true) (hp : s.boot.dogPaused = false) (hat : s.boot.dogAt + 2 ^ 28 ≤ s.now) :
    ∃ t, exec .watchdogExpiry s = .next t ∧
      (s.pulseRuns none = false → t.boot.source = 5 ∧
        t.boot.phase = if s.boot.phase = .coldStart then .heldCold else .heldWarm) ∧
      (s.pulseRuns none = true → s.boot.heldReset = none →
        t.boot.heldReset = some (decide (s.boot.phase = .coldStart), 5)) := by
  have haw := mgmtUp_awake hup
  refine ⟨s.source false 5, when_true ?_, fun hno => ?_, fun hyes hnone => ?_⟩
  · rw [hup, hp, decide_eq_true hat]
    rfl
  · rw [source_acts haw hno]
    split
    · exact ⟨rfl, rfl⟩
    · exact ⟨rfl, rfl⟩
  · rw [State.source, if_pos haw, State.resetArrives, if_pos hyes, hnone]
    rfl

theorem watchdogExpiry_refused {s : State} (h : s.boot.dogPaused = true ∨ s.now < s.boot.dogAt + 2 ^ 28) :
    exec .watchdogExpiry s = .fault (.outOfPlace "WATCHDOG_EXPIRY") := by
  have hno : (s.mgmtUp && !s.boot.dogPaused && decide (s.boot.dogAt + 2 ^ 28 ≤ s.now)) = false := by
    rcases h with h | h
    · rw [h]
      simp
    · rw [decide_eq_false (Nat.not_le.2 h), Bool.and_false]
  show (s.source false 5).when _ _ = _
  rw [hno]
  rfl

/-- The first service of new firmware fuses its version and revocations and ends the watchdog's pause (R349, R380). -/
theorem firstWatchdogService_serves {s : State} (hup : s.mgmtUp = true) (hs : s.boot.dogServed = false) :
    ∃ t, exec .firstWatchdogService s = .next t ∧ t.boot = { s.boot with dogServed := true, dogPaused := false, dogAt := s.now } ∧
      t.sec.fusedSvn = max s.sec.fusedSvn (min 64 s.sec.runFloor) ∧ t.sec.revoked = s.sec.revoked ||| s.sec.runRevoke := by
  refine ⟨s.firstService, when_true (by rw [hup, hs]; rfl), ?_⟩
  unfold State.firstService
  extract_lets v k changed s1 s2
  have h2 : s2.boot = { s.boot with dogServed := true, dogPaused := false, dogAt := s.now } ∧ s2.sec.fusedSvn = v ∧ s2.sec.revoked = k :=
    ⟨rfl, rfl, rfl⟩
  split
  · have hsec := event_secKept s2 { code := 0x1203, own := own [(44, 4, v), (48, 1, k.toNat)] }
    obtain ⟨hb, hf, hr⟩ := h2
    rw [SecKept] at hsec
    rw [hsec]
    exact ⟨((State.event_moves (.refl [.rings, .counters, .sec, .out] s2) rfl).frame .boot (by decide)).trans hb, hf, hr⟩
  · exact h2

/-- Settles O45: in a cold start the expiry restarts it, as a warm source does (R329), and a pulse holds the reset (R331); an expiry out of
time is a fault of the caller (the model's choice, logs 4 and 148). The first service fuses the running image's version and
revocations (R380). -/
theorem watchdogExpires : Obligations.WatchdogExpires := by
  unfold Obligations.WatchdogExpires
  refine ⟨fun s hup hp hat => watchdogExpiry_resets hup hp hat, fun s h => watchdogExpiry_refused h,
    fun f s hw h hbusy hslot hv hd => ⟨_, fwCutover_begins h hw hbusy hslot hv hd, rfl, rfl⟩,
    fun s hup hs => firstWatchdogService_serves hup hs⟩

/-! ### PORST_N, WRST_N and the start of a cold start (R330, R331, R335, R392) -/

theorem porstNAssert_acts {s : State} (hporst : s.pins.porst = false) (hon : s.boot.phase ≠ .off) :
    ∃ t, exec .porstNAssert s = .next t ∧ t.pins.porst = true ∧ t.boot.attempts = 0 ∧
      ((s.awake = false ∨ s.pulseRuns none = false) → t.boot.phase = .heldCold ∧ t.boot.source = 1 ∧ t.tick = 0) ∧
      (s.awake = true → s.pulseRuns none = true → ∃ k, t.boot.heldReset = some (true, k)) := by
  let u := (s.modPins fun p => { p with porst := true }).modBoot fun b => { b with attempts := 0 }
  have haw : u.awake = s.awake := rfl
  have hpulse : u.pulseRuns none = s.pulseRuns none := rfl
  refine ⟨if s.awake then u.resetArrives true 1 else u.coldReset 1, when_true (by rw [hporst, decide_eq_true hon]; rfl), ?_⟩
  by_cases ha : s.awake = true
  · rw [if_pos ha]
    cases hp : s.pulseRuns none with
    | false =>
      rw [resetArrives_cold_now (hpulse.trans hp)]
      exact ⟨rfl, rfl, fun _ => ⟨rfl, rfl, rfl⟩, nofun⟩
    | true =>
      obtain ⟨⟨b, k⟩, he, hb⟩ := resetArrives_held (hpulse.trans hp) true 1
      rw [he]
      exact ⟨rfl, rfl, fun h => by rcases h with h | h <;> simp [ha] at h, fun _ _ => ⟨k, by rw [← hb rfl]; rfl⟩⟩
  · rw [if_neg ha]
    exact ⟨rfl, rfl, fun _ => ⟨rfl, rfl, rfl⟩, fun h => absurd h ha⟩

/-- Every port isolated, as a cold start with FENCE_IN asserted leaves them (R392). -/
def isolatedLinks (s : State) : Tbl Link := (List.range 4).map fun p => (p, { s.link (portOf p) with state := .isolated })

theorem isolatedLinks_isolated {s u : State} (h : u.links = isolatedLinks s) (p : Port) : (u.link p).state = .isolated := by
  rw [State.link, h]
  cases p <;> rfl

theorem coldStart_begins {boot ckmode : BitVec 2} {s : State} (hheld : s.boot.phase = .heldCold) (htrip : s.boot.tripped = false) :
    ∃ t, exec (.coldStart boot ckmode) s = .next t ∧ t.boot.phase = .coldStart ∧ t.boot.done = 0 ∧ t.regs.boot = boot ∧
      t.regs.ckmode = ckmode ∧ t.pins.porst = false ∧ (s.pins.fenceIn = true → ∀ p, (t.link p).state = .isolated) := by
  refine ⟨s.coldStart boot ckmode, when_true (by rw [decide_eq_true hheld, htrip]; rfl), ?_⟩
  unfold State.coldStart
  extract_lets s1 s2 s3 s4 s5 s6 s7
  have h5 : Moves [.mem, .free] s4 s5 := (State.drawSeeds_moves (.refl _ s4) rfl).modMem (fun w => w) rfl
  have h6 : Moves [.mem, .free, .faults] s4 s6 := State.draw_moves (State.modFaults_moves (h5.mono rfl) rfl) rfl
  have hboot : s7.boot = s2.boot := (show s7.boot = s6.boot by unfold s7; split <;> rfl).trans (h6.frame .boot (by decide))
  have hregs : s7.regs = s4.regs := (show s7.regs = s6.regs by unfold s7; split <;> rfl).trans (h6.frame .regs (by decide))
  have hpins : s6.pins = s1.pins := h6.frame .pins (by decide)
  have hpins7 : s7.pins = s1.pins := (show s7.pins = s6.pins by unfold s7; split <;> rfl).trans hpins
  refine ⟨(congrArg Boot.phase hboot :), (congrArg Boot.done hboot :), (congrArg Regs.boot hregs :), (congrArg Regs.ckmode hregs :),
    (congrArg Pins.porst hpins7 :), fun hf => isolatedLinks_isolated (s := s6) ?_⟩
  have hf6 : s6.pins.fenceIn = true := by
    rw [hpins]
    exact hf
  show s7.links = _
  unfold s7
  rw [if_pos hf6]
  rfl

theorem wrstNAssert_acts {s : State} (hw : s.pins.wrst = false) (hon : s.boot.phase ≠ .off) :
    ∃ t, exec .wrstNAssert s = .next t ∧ ((s.pins.porst = true ∨ s.boot.phase = .safe) → t = s) ∧
      (s.pins.porst = false → s.running = true → s.pulseRuns none = false →
        t.boot.phase = .heldWarm ∧ t.boot.source = 2 ∧ t.pins.wrst = true ∧ t.tick = s.tick) := by
  let u := s.modPins fun p => { p with wrst := true }
  refine ⟨if s.pins.porst || decide (s.boot.phase = .safe) then s else u.source false 2,
    when_true (by rw [hw, decide_eq_true hon]; rfl), fun h => if_pos (by simpa using h), fun hporst hr hp => ?_⟩
  have hsafe : decide (s.boot.phase = .safe) = false := by
    rw [of_decide_eq_true hr]
    rfl
  rw [hporst, hsafe, if_neg (by decide), source_warm (s := u) hr hp]
  obtain ⟨hphase, hsource, -⟩ := warmReset_boot u 2
  exact ⟨hphase, hsource, congrArg Pins.wrst ((warmReset_warm u 2).frame .pins (by decide)), (warmReset_warm u 2).frame .tick (by decide)⟩

/-! ### FENCE_IN (R284) -/

theorem fenceInAssert_isolates {s : State} (c : s.Canonical) (hf : s.pins.fenceIn = false) (hon : s.boot.phase ≠ .off) :
    ∃ t, exec .fenceInAssert s = .next t ∧ t.pins = { s.pins with fenceIn := true } ∧
      (s.awake = true ∨ s.boot.phase = .heldWarm → ∀ p, (t.link p).state = .isolated) := by
  let u := s.modPins fun p => { p with fenceIn := true }
  have cu : u.Canonical := (State.modPins_moves (.refl [.pins] s) rfl).canon c
  refine ⟨s.fenceIn, when_true (by rw [hf, decide_eq_true hon]; rfl), ?_, fun h p => ?_⟩
  · show (if u.awake || decide (u.boot.phase = .heldWarm) then _ else u : State).pins = u.pins
    exact ((eachPort_moves (fun s p => State.modLink_moves (.refl [.links] s) rfl) u).ite (.refl _ u)).frame .pins (by decide)
  · have hc : (u.awake || decide (u.boot.phase = .heldWarm)) = true := by
      rcases h with h | h
      · rw [show u.awake = true from h, Bool.true_or]
      · rw [decide_eq_true (show u.boot.phase = .heldWarm from h), Bool.or_true]
    show ((if u.awake || decide (u.boot.phase = .heldWarm) then _ else u : State).link p).state = _
    rw [if_pos hc, eachPort_modLink cu]

theorem fenceInRelease_acts {s : State} (c : s.Canonical) (hf : s.pins.fenceIn = true) (hon : s.boot.phase ≠ .off) :
    ∃ t, exec .fenceInRelease s = .next t ∧ (s.isolated = false → SameBut [.pins] s t ∧ t.pins = { s.pins with fenceIn := false }) ∧
      (s.isolated = true → s.running = true → s.pulseRuns none = false →
        t.boot.phase = .heldWarm ∧ t.boot.source = 10 ∧ t.boot.emptySheet = true ∧ ∀ p, (t.link p).state = .down) := by
  let u := s.modPins fun p => { p with fenceIn := false }
  have cu : u.Canonical := (State.modPins_moves (.refl [.pins] s) rfl).canon c
  let v := u.each [.h, .t, .u, .d] fun s p => s.modLink p fun l => { l with state := .down }
  have hv : Moves [.links] u v := eachPort_moves (fun s p => State.modLink_moves (.refl [.links] s) rfl) u
  let w := v.modBoot fun b => { b with emptySheet := true }
  refine ⟨if s.isolated then w.source false 10 else u, when_true (by rw [hf, decide_eq_true hon]; rfl), fun hi => ?_, fun hi hr hp => ?_⟩
  · rw [hi, if_neg Bool.false_ne_true]
    exact ⟨(State.modPins_moves (.refl [.pins] s) rfl).frame, rfl⟩
  · have hboot : w.boot = { s.boot with emptySheet := true } := by
      rw [show w.boot = { v.boot with emptySheet := true } from rfl, hv.frame .boot (by decide)]
      rfl
    have hrw : w.running = true := by
      rw [State.running, hboot]
      exact hr
    have hpw : w.pulseRuns none = false := by
      rw [State.pulseRuns, show w.tiles = s.tiles from hv.frame .tiles (by decide)]
      exact hp
    rw [hi, if_pos rfl, source_warm hrw hpw]
    rw [warmReset_boot_eq, hboot]
    refine ⟨rfl, rfl, rfl, fun p => ?_⟩
    have hlinks : ((w.warmReset 10).link p) = v.link p := by
      rw [State.link, (warmReset_warm w 10).frame .links (by decide)]
      rfl
    rw [hlinks, eachPort_modLink cu]

/-! ### REFCLK, VAON and the test port (R271, R389, R394, R401) -/

theorem refclkLoss_acts {s : State} (hclk : s.pins.refclk = true) (hon : s.boot.phase ≠ .off) :
    ∃ t, exec .refclkLoss s = .next t ∧ t.ticking = false ∧ t.tick = s.tick ∧
      t.pins = { s.pins with refclk := false, alertClock := true } := by
  refine ⟨s.refclkLost, when_true (by rw [hclk, decide_eq_true hon]; rfl), ?_⟩
  unfold State.refclkLost
  extract_lets s1 s2
  have hm := eachPort_moves (l := [.counters, .links]) (f := fun s p =>
    if (s.link p).state = .up ∨ (s.link p).state = .degraded then (s.trainPort p).count (Ctr.portRetrains (portNo p)) else s)
    (fun s p => (State.count_moves (State.trainPort_moves (.refl _ s) rfl) rfl).ite (.refl _ s)) s2
  exact ⟨hm.frame .ticking (by decide), hm.frame .tick (by decide), hm.frame .pins (by decide)⟩

theorem refclkReturn_acts {s : State} (hclk : s.pins.refclk = false) (hon : s.boot.phase ≠ .off) :
    ∃ t, exec .refclkReturn s = .next t ∧ t.ticking = s.tickStarted ∧ t.tick = s.tick ∧
      t.pins = { s.pins with refclk := true, alertClock := false } := by
  refine ⟨s.refclkBack, when_true (by rw [hclk, decide_eq_true hon]; rfl), ?_⟩
  unfold State.refclkBack
  extract_lets s1
  have hm := State.tilesNext_moves (ok := fun _ => true) (.refl
    [.rings, .counters, .steps, .tiles, .boughs, .prods, .links, .faults, .power, .sec, .out] { s1 with ticking := s1.tickStarted }) rfl
  exact ⟨hm.frame .ticking (by decide), hm.frame .tick (by decide), hm.frame .pins (by decide)⟩

theorem vaonApply_acts {s : State} (hoff : s.boot.phase = .off) :
    ∃ t, exec .vaonApply s = .next t ∧ SameBut [.pins, .boot] s t ∧ t.boot.phase = .heldCold ∧
      t.boot.source = 1 ∧ t.pins = { s.pins with porst := true, fenceOut := false } :=
  ⟨_, when_true (decide_eq_true hoff), (State.modPins_moves (State.modBoot_moves (.refl [.pins, .boot] s) rfl) rfl).frame, rfl, rfl, rfl⟩

theorem jtagInstruction_acts {op : JtagOp} {s : State} (hon : s.boot.phase ≠ .off) :
    ∃ t, exec (.jtagInstruction op) s = .next t ∧ SameBut [.pins] s t ∧
      ((op = .bypass ∨ op = .idcode ∨ op = .sample) → t.pins.jtag = op) ∧
      ((op = .extest ∨ op = .extestPulse ∨ op = .extestTrain) → t.pins.jtag = if s.pins.porst then op else .bypass) ∧
      (∀ code, op = .other code → t.pins.jtag = .bypass) := by
  refine ⟨_, when_true (decide_eq_true hon), (State.modPins_moves (.refl [.pins] s) rfl).frame, fun h => ?_, fun h => ?_, fun code h => ?_⟩
  · rcases h with rfl | rfl | rfl <;> rfl
  · rcases h with rfl | rfl | rfl
    all_goals
      show (if true && !s.pins.porst then JtagOp.bypass else _) = _
      cases s.pins.porst <;> rfl
  · subst h
    rfl

/-- Settles O41: each pin's edge is one change of the state, and a reset of a device that runs follows by the rule of its arrival. Straps are
sampled on every cold start (the model's choice, log 97); Off loses all but cells, fuses and flash (R397, Table 17-2); any unlisted
code of the test port acts as BYPASS (the model's choice, log 24). -/
theorem pinsAct : Obligations.PinsAct := by
  unfold Obligations.PinsAct
  exact ⟨fun s hp hon => porstNAssert_acts hp hon, fun boot ckmode s hheld htrip => coldStart_begins hheld htrip,
    fun s hw hon => wrstNAssert_acts hw hon, fun s c hf hon => fenceInAssert_isolates c hf hon,
    fun s c hf hon => fenceInRelease_acts c hf hon, fun s hclk hon => refclkLoss_acts hclk hon,
    fun s hclk hon => refclkReturn_acts hclk hon, fun s hon => ⟨_, when_true (decide_eq_true hon), rfl, rfl, rfl, rfl⟩,
    fun s hoff => vaonApply_acts hoff, fun op s hon => jtagInstruction_acts hon⟩

/-! ### Held resets and the bough resets that are due (R331, R351) -/

theorem resetTakesEffect_held {cold : Bool} {n : Nat} {s : State} (hheld : s.boot.heldReset = some (cold, n))
    (hp : s.pulseRuns none = false) :
    ∃ t, exec .resetTakesEffect s = .next t ∧ t.boot.phase = (if cold then .heldCold else .heldWarm) ∧ t.boot.source = n ∧
      t.boot.heldReset = none := by
  have hdue : s.resetDue = true := by rw [State.resetDue, hheld, hp]; rfl
  refine ⟨s.resetTakesEffect, when_true hdue, ?_⟩
  rw [State.resetTakesEffect, hheld]
  cases cold with
  | true => exact ⟨rfl, rfl, rfl⟩
  | false =>
    dsimp only
    rw [if_neg Bool.false_ne_true, warmReset_boot_eq]
    exact ⟨rfl, rfl, rfl⟩

/-- From `s` to `t` every bough that drains goes on, and no other has begun. -/
structure DrainKept (s t : State) : Prop where
  canon : s.Canonical → t.Canonical
  draining : s.Canonical → ∀ b, (t.bough b).draining = (s.bough b).draining

namespace DrainKept
variable {r s t : State}

theorem refl (s : State) : DrainKept s s := ⟨id, fun _ _ => rfl⟩

theorem trans {u : State} (h : DrainKept s t) (k : DrainKept t u) : DrainKept s u :=
  ⟨fun c => k.canon (h.canon c), fun c b => (k.draining (h.canon c) b).trans (h.draining c b)⟩

theorem of_moves {l : List Field} (h : Moves l s t) (hl : Field.boughs ∉ l) : DrainKept s t :=
  ⟨h.canon, fun _ b => by rw [bough_congr (h.frame .boughs hl) b]⟩

theorem ite {p : Prop} [Decidable p] (h : DrainKept r s) (k : DrainKept r t) : DrainKept r (if p then s else t) := by
  split
  · exact h
  · exact k

theorem modBough (s : State) (b : Nat) {f : Bough → Bough} (hf : ∀ x, (f x).draining = x.draining) : DrainKept s (s.modBough b f) :=
  ⟨fun c => modBough_canonical c b f, fun c j => by
    by_cases h : j = b
    · rw [h, bough_modBough_self c, hf]
    · rw [bough_modBough_ne c h]⟩

end DrainKept

theorem requestRun_drainKept (s : State) (b : Nat) : DrainKept s (s.requestRun b) := by
  unfold State.requestRun
  refine .ite (.refl s) (.ite (.modBough s b fun _ => rfl) ?_)
  have hm : Moves [.tiles, .boughs] s (s.startRun b) := State.startRun_moves (.refl _ s) rfl
  refine ⟨hm.canon, fun c j => ?_⟩
  have hb := startRun_self c b
  by_cases h : j = b
  · subst h
    rw [hb]
    rfl
  · exact congrArg Bough.draining (startRun_others c h)

theorem loadCal_drainKept (s : State) (b : Nat) : DrainKept s (s.loadCal b) := by
  unfold State.loadCal
  extract_lets a
  refine (DrainKept.modBough s b ?_).trans (.of_moves (l := [.tiles]) ((Moves.refl _ _).each fun _ _ h => State.modTile_moves h rfl) (by decide))
  intro _
  rfl

theorem dropChecks_drainKept (s : State) (b : Nat) : DrainKept s (s.dropChecks b) := by
  unfold State.dropChecks
  extract_lets ids s1
  have h1 : Moves [.steps, .prods] s s1 := (Moves.refl _ s).each fun u i h => by
    split
    · exact h
    · exact State.modStep_moves h rfl
  have h2 : DrainKept s { s1 with prods := s1.prods.filter fun p => !(ids.contains p.id && p.summed) } :=
    ⟨fun c => by
      have c1 := h1.canon c
      exact ⟨c1.parts, c1.rings, c1.counters, c1.calls, c1.customers, c1.tiles, c1.boughs, c1.calSave, c1.links, c1.mem⟩,
      fun _ k => congrArg Bough.draining (bough_congr (h1.frame .boughs (by decide)) k)⟩
  exact h2.trans (.modBough _ b fun _ => rfl)

theorem boughResetDone_drainKept (s : State) (b : Nat) : DrainKept s (s.boughResetDone b) := by
  unfold State.boughResetDone
  extract_lets s1
  have h1 : DrainKept s s1 := (DrainKept.of_moves (State.completeAll_moves (.refl [.rings, .counters, .jobs, .out] s) rfl) (by decide)).trans
    (.modBough _ b fun _ => rfl)
  have h2 : DrainKept s ((s1.count (Ctr.resetsBough b)).event { code := 0x0801, unit := unitBough b, own := own [(40, 1, 4)] }) :=
    h1.trans (.of_moves (State.event_moves (State.count_moves (.refl [.rings, .counters, .sec, .out] s1) rfl) rfl) (by decide))
  exact h2.trans (requestRun_drainKept _ b)

/-- A bough's reset ends its drain and no other's (R351). -/
theorem boughReset_draining {s : State} (c : s.Canonical) (b : Nat) :
    (s.boughReset b).Canonical ∧ ∀ k, ((s.boughReset b).bough k).draining = if k = b then false else (s.bough k).draining := by
  unfold State.boughReset
  extract_lets s1 s2 s3
  have h0 := dropChecks_drainKept s b
  have c0 := h0.canon c
  have c1 : s1.Canonical := modBough_canonical c0 b _
  have h2 : DrainKept s1 s2 := ⟨fun c => ⟨c.parts, c.rings, c.counters, c.calls, c.customers,
    Tbl.wf_mapVals (Tbl.rising_map (fun x => by split <;> rfl) (Tbl.rising_of_wf c.tiles)), c.boughs, c.calSave, c.links, c.mem⟩,
    fun _ _ => rfl⟩
  have h3 : DrainKept s1 s3 := h2.trans (loadCal_drainKept s2 b)
  have h4 : DrainKept s1 (if (s3.bough b).withdrawn then s3.warmBough b else s3.boughResetDone b) :=
    .ite (h3.trans (.modBough s3 b fun _ => rfl)) (h3.trans (boughResetDone_drainKept s3 b))
  refine ⟨h4.canon c1, fun k => (h4.draining c1 k).trans ?_⟩
  by_cases hk : k = b
  · rw [if_pos hk, hk, bough_modBough_self c0]
  · rw [if_neg hk, bough_modBough_ne c0 hk, h0.draining c]

theorem resetTakesEffect_boughs {s : State} (c : s.Canonical) (hnone : s.boot.heldReset = none) (hdue : s.boughsDue ≠ []) :
    ∃ t, exec .resetTakesEffect s = .next t ∧ ∀ b ∈ s.boughsDue, (t.bough b).draining = false := by
  refine ⟨s.resetTakesEffect, when_true (by rw [State.resetDue, hnone]; simpa using hdue), fun b hb => ?_⟩
  rw [State.resetTakesEffect, hnone]
  exact each_changes_named (P := State.Canonical) (view := fun s k => (s.bough k).draining) (g := fun _ _ => false)
    (fun s n c => (boughReset_draining c n).1)
    (fun s n k c h => ((boughReset_draining c n).2 k).trans (if_neg h))
    (fun s n c => ((boughReset_draining c n).2 n).trans (if_pos rfl)) c (List.nodup_range.filter _) hb

/-! ### The begin of a warm start (R346) -/

/-- The first step of a start that has eight ends it by no means: it is marked, and the next is shown. -/
theorem stepEnds_first {s : State} (hphase : s.boot.phase = .warmStart) (hdone : s.boot.done = 0) : s.stepEnds 1 = (s.markStep 1).showStep := by
  have hcount : (s.markStep 1).stepCount = 8 := if_pos hphase
  have hnot : (List.range 8).all (fun i => (s.markStep 1).stepDone? (i + 1)) = false := by
    rw [List.all_eq_false]
    refine ⟨1, by decide, ?_⟩
    show ¬ (s.boot.done ||| 1#16 <<< 1).getLsbD 2 = true
    rw [hdone]
    decide
  unfold State.stepEnds
  exact if_neg (by rw [show (s.modBoot fun b => { b with done := b.done ||| (1#16 <<< 1) }) = s.markStep 1 from rfl, hcount, hnot]; simp)

/-- A port that starts to train. -/
def Link.trained (l : Link) : Link := { l with state := .training, width := 0, group := 0, weak := 0, downSince := none }

/-- Where the device is not isolated every port starts training. -/
theorem eachPort_training {s : State} (c : s.Canonical) (hi : s.isolated = false) (p : Port) :
    (s.each [.h, .t, .u, .d] State.trainPort).link p = (s.link p).trained := by
  have hne : ∀ (s : State) (p q : Port), s.Canonical ∧ s.isolated = false → q ≠ p → (s.trainPort p).link q = s.link q := by
    rintro u p q ⟨cu, hu⟩ hq
    rw [State.trainPort, if_neg (by rw [hu]; decide), link_modLink_ne cu hq]
  have hself : ∀ (s : State) (p : Port), s.Canonical ∧ s.isolated = false → (s.trainPort p).link p = (s.link p).trained := fun u p h =>
    trainPort_training h.1 h.2 p
  refine eachPort_changes (P := fun s => s.Canonical ∧ s.isolated = false) ?_ hself hne ⟨c, hi⟩ p
  rintro u p ⟨cu, hu⟩
  refine ⟨(State.trainPort_moves (.refl [.links] u) rfl).canon cu, ?_⟩
  unfold State.isolated
  by_cases hp : Port.h = p
  · rw [← hp, hself u .h ⟨cu, hu⟩]
    rfl
  · rw [hne u p .h ⟨cu, hu⟩ hp]
    exact hu

theorem warmStart_begins {s : State} (c : s.Canonical) (hphase : s.boot.phase = .heldWarm) (hdone : s.boot.done = 0) :
    ∃ t, exec .warmStart s = .next t ∧ t.boot.phase = .warmStart ∧ t.pins.wrst = false ∧ t.boot.done.getLsbD 1 = true ∧
      (s.isolated = false → ∀ p, (t.link p).state = .training) := by
  refine ⟨s.warmStart, when_true (decide_eq_true hphase), ?_⟩
  let u := (s.modPins fun p => { p with wrst := false }).modBoot fun b => { b with phase := .warmStart }
  have hu : Moves [.pins, .boot] s u := State.modBoot_moves (State.modPins_moves (.refl _ s) rfl) rfl
  let v := u.sendHold (2 ^ 28) true false
  have hv : Moves [.counters, .links, .out] u v := State.sendHold_moves (.refl _ u) rfl
  let w := v.each [.h, .t, .u, .d] State.trainPort
  have hw : Moves [.counters, .links, .out] u w :=
    hv.trans ((eachPort_moves (fun s p => State.trainPort_moves (.refl [.links] s) rfl) v).mono rfl)
  have hboot : w.boot = { s.boot with phase := .warmStart } := hw.frame .boot (by decide)
  have hw1 : w.boot.phase = .warmStart := congrArg Boot.phase hboot
  have hw2 : w.boot.done = 0 := (congrArg Boot.done hboot).trans hdone
  have hw3 : w.pins.wrst = false := (congrArg Pins.wrst (hw.frame .pins (by decide)) :)
  have hlinks : s.isolated = false → ∀ p, (w.link p).state = .training := fun hi p => by
    rw [eachPort_training (hv.canon (hu.canon c)) ((sendHold_t_isolated (hu.canon c) _ _ _).trans hi)]
    rfl
  rw [show s.warmStart = w.stepEnds 1 from rfl, stepEnds_first hw1 hw2]
  clear_value w
  exact ⟨hw1, hw3, getLsbD_or_one_shift w.boot.done (by decide), hlinks⟩

/-! ### Regulators (R363) -/

theorem startLevel_power (s : State) :
    ∃ step pacer, s.startLevel.power = { s.power with stepTo := step, pacerLevel := pacer } := by
  unfold State.startLevel
  extract_lets l s1 t s2
  have h1 : s1.power = s.power := ((State.modRegs_moves (.refl [.regs] s) rfl).ite (.refl _ s)).frame .power (by decide)
  split
  · exact ⟨s.power.stepTo, s.power.pacerLevel, h1⟩
  · refine ⟨some t, if l < t then t else s.power.pacerLevel, ?_⟩
    show ({ s1.power with stepTo := some t, pacerLevel := if l < t then t else s1.power.pacerLevel } : Power) = _
    rw [h1]

/-- The regulator floor rises to a level, from now (R363). -/
theorem setRegFloor_power (s : State) (l : Nat) : (s.setRegFloor l).power.regFloor = max s.power.regFloor (min 7 l) ∧
    (s.setRegFloor l).power.warnAt = s.now := by
  obtain ⟨step, pacer, h⟩ := startLevel_power (s.modPower fun p => { p with regFloor := max p.regFloor (min 7 l), warnAt := s.now })
  rw [State.setRegFloor, h]
  exact ⟨rfl, rfl⟩

theorem regAlert_power (s : State) (addr page word : Nat) : (s.regAlert addr page word).power = s.power ∧
    (s.regAlert addr page word).now = s.now := by
  have hm : Moves [.rings, .counters, .sec, .out] s (s.regAlert addr page word) := State.regAlert_moves (.refl _ s) rfl
  exact ⟨hm.frame .power (by decide), congrArg BitVec.toNat (hm.frame .tick (by decide))⟩

/-- A regulator's warning alone. -/
theorem regStatus_warning {s : State} {r : RegStatus} (hw : r.warning = true) (hf : r.fault = false) :
    s.regStatus r = (s.regAlert r.addr r.page r.word.toNat).setRegFloor (s.regs.level.toNat + 1) := by
  rw [State.regStatus, hw, hf, if_pos rfl]
  rfl

/-- A port goes down unless it is isolated. -/
def Link.supplyLost (n : Nat) (l : Link) : Link := if l.state = .isolated then l else { l with state := .down, width := 0, downSince := some n }

theorem portsDown_link {s : State} (c : s.Canonical) (p : Port) : s.portsDown.link p = (s.link p).supplyLost s.now := by
  unfold State.portsDown
  refine eachPort_changes (P := fun u => u.Canonical ∧ u.now = s.now) (g := Link.supplyLost s.now) ?_ ?_ ?_ ⟨c, rfl⟩ p
  · rintro u p ⟨cu, hu⟩
    split
    · exact ⟨cu, hu⟩
    · exact ⟨modLink_canonical cu p _, hu⟩
  · rintro u p ⟨cu, hu⟩
    unfold Link.supplyLost
    split
    · rfl
    · rw [State.portLost, link_modLink_self cu, hu]
  · rintro u p q ⟨cu, -⟩ hq
    split
    · rfl
    · exact link_modLink_ne cu hq _

theorem portsDown_moves (s : State) : Moves [.links] s s.portsDown :=
  eachPort_moves (fun s _ => (Moves.refl [.links] s).ite (State.portLost_moves (.refl _ s) rfl)) s

/-- A regulator has lost its rail and asserted ALERT_N; what follows depends on the rail (R363). -/
def State.railFault (s : State) (r : RegStatus) : State :=
  (((s.modPower fun p => { p with railsOff := distinct (r.addr :: p.railsOff) }).emit (.rail r.addr r.page 0)).regAlert r.addr r.page
    r.word.toNat).modPins fun p => { p with alertRail := true }

theorem regStatus_fault {s : State} {r : RegStatus} (hw : r.warning = false) (hf : r.fault = true) :
    s.regStatus r = if r.addr = 0x43 then (s.railFault r).portsDown else (s.railFault r).source false 6 := by
  rw [State.regStatus, hw, hf, if_pos rfl]
  rfl

theorem railFault_moves (s : State) (r : RegStatus) : Moves [.pins, .rings, .counters, .power, .sec, .out] s (s.railFault r) :=
  State.modPins_moves (State.regAlert_moves (State.emit_moves (State.modPower_moves (.refl _ s) rfl) rfl) rfl) rfl

theorem pmAlertN_one {s : State} (hon : s.boot.phase ≠ .off) (r : RegStatus) : exec (.pmAlertN [r]) s = .next (s.regStatus r) :=
  when_true (decide_eq_true hon)

theorem pmAlertN_fault {r : RegStatus} {s : State} (c : s.Canonical) (hon : s.boot.phase ≠ .off) (hw : r.warning = false)
    (hf : r.fault = true) :
    ∃ t, exec (.pmAlertN [r]) s = .next t ∧
      (r.addr = 0x43 → t.pins.alertRail = true ∧ ∀ p, (s.link p).state ≠ .isolated → (t.link p).state = .down) ∧
      (r.addr ≠ 0x43 → s.running = true → s.pulseRuns none = false →
        t.pins.alertRail = true ∧ t.boot.phase = .heldWarm ∧ t.boot.source = 6) := by
  have hm := railFault_moves s r
  refine ⟨s.regStatus r, pmAlertN_one hon r, fun ha => ?_, fun ha hr hp => ?_⟩
  · rw [regStatus_fault hw hf, if_pos ha]
    refine ⟨congrArg Pins.alertRail ((portsDown_moves _).frame .pins (by decide)), fun p hp => ?_⟩
    have hl : (s.railFault r).link p = s.link p := by rw [State.link, hm.frame .links (by decide), State.link]
    rw [portsDown_link (hm.canon c), hl, Link.supplyLost, if_neg hp]
  · obtain ⟨hr1, hp1⟩ := running_of_moves hm (by decide) (by decide) hr hp
    rw [regStatus_fault hw hf, if_neg ha, source_warm hr1 hp1]
    obtain ⟨hphase, hsource, -⟩ := warmReset_boot (s.railFault r) 6
    exact ⟨congrArg Pins.alertRail ((warmReset_warm _ 6).frame .pins (by decide)), hphase, hsource⟩

/-- Settles O42: a held reset and the boughs that are due take effect together with the end of the last pulse; a regulator's word acts once.
That a fault on VSER takes every port down is the model's reading of R363 (log 107). -/
theorem regulatorsAndHeldResets : Obligations.RegulatorsAndHeldResets := by
  unfold Obligations.RegulatorsAndHeldResets
  refine ⟨fun cold n s hheld hp => resetTakesEffect_held hheld hp, fun s c hnone hdue => resetTakesEffect_boughs c hnone hdue,
    fun s c hphase hdone => warmStart_begins c hphase hdone,
    fun words s hon => ⟨_, when_true (decide_eq_true hon), fun h => by rw [h]; rfl⟩, fun r s hon hw hf => ?_,
    fun r s c hon hw hf => pmAlertN_fault c hon hw hf⟩
  obtain ⟨hpower, hnow⟩ := regAlert_power s r.addr r.page r.word.toNat
  obtain ⟨hfloor, hwarn⟩ := setRegFloor_power (s.regAlert r.addr r.page r.word.toNat) (s.regs.level.toNat + 1)
  exact ⟨s.regStatus r, pmAlertN_one hon r, by rw [regStatus_warning hw hf, hfloor, hpower], by rw [regStatus_warning hw hf, hwarn, hnow]⟩

end Sys2Proof.Machine

/-! PROOFS. An entry that is abandoned lets work go on, which leaves D1 (R356, R368). -/

namespace Sys2Proof.Machine

/-- A program run on tile 0 whose next step is owed. -/
def owedJob : ProgJob := { deck := 0, takeId := 1, matrix := 1, image := 5, rowTile := 0, colTile := 0, started := true }

/-- A POWER_STATE descriptor. -/
def entryJob : Job := { ring := .mq, pos := 0, opcode := 0x41, tag := 7, premium := false, quiet := false }

/-- The second step of an entry to D2 from D1, with a wake event that has come. -/
def wakenedEntry : EntrySt := { target := .d2, step := 2, abort := true, job := entryJob, runs := [], before := .d1 }

/-- A running device in D1 that enters D2; its only tile is idle and owes a program step. -/
def enteringFromD1 : State :=
  { State.reset with
    ticking := true, boot := { phase := .running }, power := { dstate := .d1, entry := some wakenedEntry },
    boughs := [(0, { ref := .ready })], tiles := [(0, { jobs := [owedJob], owed := true })] }

/-- The power state that a command leaves. -/
def dstateAfter : Result → Option DState
  | .next t => some t.power.dstate
  | _ => none

/-- With the entry abandoned the program step is granted, and its charge leaves D1. -/
theorem abandoned_leaves_d1 : dstateAfter (exec .entryStepDone enteringFromD1) = some .d0 := rfl

theorem enteringFromD1_canonical : enteringFromD1.Canonical := by
  constructor <;> decide

/-- Refutes O48: an abandoned entry keeps D2 and D3 away, but not D1. On a device that entered D2 from D1 the work that goes on is granted at
once and charged, and the charge takes the device from D1 to D0 (R356), so its state is not the one before. -/
theorem not_entriesAndWakes : ¬ Obligations.EntriesAndWakes := by
  unfold Obligations.EntriesAndWakes
  rintro ⟨hentry, -⟩
  obtain ⟨t, he, habandoned, -⟩ := hentry wakenedEntry enteringFromD1 enteringFromD1_canonical rfl (by decide)
  obtain ⟨-, hd, -⟩ := habandoned (by decide) rfl
  have hleft := abandoned_leaves_d1
  rw [he, dstateAfter, hd] at hleft
  cases hleft

end Sys2Proof.Machine

/-! PROOFS. The power policy: D1, the switches of boughs, the pacer's window, the energy scale and the levels (R356, R358, R359, R361 to R363,
R366). -/

namespace Sys2Proof.Machine

/-! ### D1 and the switches (R356, R366) -/

/-- A bough's switch is open. -/
def Bough.switchedOff (x : Bough) : Bough := { x with switch := .opened }

/-- The switches of the boughs that pass the test are open, every other bough is as it was. -/
theorem openSwitches_bough {s : State} (c : s.Canonical) (ok : Nat → Bool) (b : Nat) :
    (s.openSwitches ok).bough b = if b < 128 ∧ ok b = true then (s.bough b).switchedOff else s.bough b := by
  have hP : ∀ (u : State) (n : Nat), u.Canonical → (u.modBough n Bough.switchedOff).Canonical := fun _ n c => modBough_canonical c n _
  have hne : ∀ (u : State) (n k : Nat), u.Canonical → k ≠ n → (u.modBough n Bough.switchedOff).bough k = u.bough k := fun _ _ _ c h =>
    bough_modBough_ne c h _
  have hmem : b ∈ (List.range 128).filter ok ↔ b < 128 ∧ ok b = true := by simp
  show (s.each ((List.range 128).filter ok) fun s b => s.modBough b Bough.switchedOff).bough b = _
  split
  · next h =>
    exact each_changes_named (view := State.bough) (g := fun _ => Bough.switchedOff) hP hne (fun _ n c => bough_modBough_self c n _) c
      (List.nodup_range.filter _) (hmem.2 h)
  · next h => exact each_leaves_unnamed (view := State.bough) hP hne c (mt hmem.1 h)

theorem openSwitches_moves (s : State) (ok : Nat → Bool) : Moves [.boughs] s (s.openSwitches ok) :=
  (Moves.refl _ s).each fun _ _ h => State.modBough_moves h rfl

theorem d1Entry_opens {s : State} (c : s.Canonical) (hdue : s.d1Due = true) :
    ∃ t, exec .d1Entry s = .next t ∧ t.power = { s.power with dstate := .d1 } ∧
      ∀ b, b < 128 → t.bough b = { s.bough b with switch := .opened } := by
  let u := s.modPower fun p => { p with dstate := .d1 }
  have cu : u.Canonical := (State.modPower_moves (.refl [.power] s) rfl).canon c
  have hpower : (u.openSwitches fun _ => true).power = u.power := (openSwitches_moves u fun _ => true).frame .power (by decide)
  have hbough : ∀ b, b < 128 → (u.openSwitches fun _ => true).bough b = (s.bough b).switchedOff := fun b hb => by
    rw [openSwitches_bough cu, if_pos ⟨hb, rfl⟩]
    rfl
  have hcount : ∀ v : State, (v.count Ctr.d1Entries).power = v.power ∧ ∀ b, (v.count Ctr.d1Entries).bough b = v.bough b := fun _ =>
    ⟨rfl, fun _ => rfl⟩
  obtain ⟨hp, hb⟩ := hcount (u.openSwitches fun _ => true)
  exact ⟨_, when_true hdue, hp.trans hpower, fun b hlt => (hb b).trans (hbough b hlt)⟩

theorem boughSwitchOpen_opens {b : Nat} {s : State} (c : s.Canonical) (haw : s.awake = true) (hidle : s.switchIdle b = true) :
    ∃ t, exec (.boughSwitchOpen b) s = .next t ∧ SameBut [.boughs] s t ∧ t.bough b = { s.bough b with switch := .opened } ∧
      ∀ q, q ≠ b → t.bough q = s.bough q := by
  have hb : b < 128 := by
    unfold State.switchIdle at hidle
    simp only [Bool.and_eq_true, decide_eq_true_eq] at hidle
    obtain ⟨⟨⟨hb, -⟩, -⟩, -⟩ := hidle
    exact hb
  refine ⟨_, when_true (by rw [haw, hidle]; rfl), (openSwitches_moves s _).frame, ?_, fun q hq => ?_⟩
  · rw [openSwitches_bough c, if_pos ⟨hb, by simp⟩]
    rfl
  · rw [openSwitches_bough c, if_neg (by simp [hq])]

theorem boughSwitchReady_goesOn {b : Nat} {s : State} (c : s.Canonical) (hclosing : (s.bough b).switch = .closing) :
    ∃ u : State, exec (.boughSwitchReady b) s = .next (u.tilesNext fun k => k / 64 == b) ∧ SameBut [.boughs] s u ∧
      u.bough b = { s.bough b with switch := .closed, waiting := [] } ∧ ∀ q, q ≠ b → u.bough q = s.bough q :=
  ⟨s.modBough b fun x => { x with switch := .closed, waiting := [] }, when_true (decide_eq_true hclosing),
    (State.modBough_moves (.refl [.boughs] s) rfl).frame, bough_modBough_self c b _, fun _ hq => bough_modBough_ne c hq _⟩

/-! ### The account and the scale (R358, R361, R362) -/

theorem pacerWindow_credits {s : State} (haw : s.awake = true) (hon : s.ticking = true) (hd : s.power.dstate ≠ .d3)
    (hat : s.power.windowAt + 256 ≤ s.now) :
    ∃ u : State, exec .pacerWindow s = .next (u.startLevel.tilesNext fun _ => true).attnRetry ∧ SameBut [.power] s u ∧
      u.power = { s.power with
        policy := { levelReq := s.regs.levelReq, throttleT := s.regs.throttleT, idleD1 := s.regs.idleD1,
                    pwrLimit := s.regs.pwrLimit, pwrPeak := s.regs.pwrPeak, pwrBurst := s.regs.pwrBurst },
        account := min s.latchPower.accountCap (s.power.account + (s.regs.pwrLimit.toNat * 16384 / 10 : Nat)) - s.chargeOf 3,
        charged := s.chargeOf 3, windowAt := s.power.windowAt + 256 } := by
  refine ⟨s.latchPower.modPower fun p => { p with
      account := min s.latchPower.accountCap (p.account + (s.latchPower.power.policy.pwrLimit.toNat * 16384 / 10 : Nat)) -
        s.latchPower.chargeOf 3,
      charged := s.latchPower.chargeOf 3, windowAt := p.windowAt + 256 }, when_true ?_, ?_, rfl⟩
  · rw [haw, hon, decide_eq_true hd, decide_eq_true hat]
    rfl
  · exact (State.modPower_moves (State.modPower_moves (.refl [.power] s) rfl) rfl).frame

/-- A value moves toward its target by at most the step, and reaches a target that is no further away. -/
theorem toward_nat (p q : Nat) : (toward 1024 p q).toNat ≤ p + 1024 ∧ p ≤ (toward 1024 p q).toNat + 1024 ∧
    (q ≤ p + 1024 → p ≤ q + 1024 → (toward 1024 p q).toNat = q) := by
  unfold toward
  split <;> omega

theorem energyScale_moves {charged measured : Nat} {s : State} (hup : s.mgmtUp = true) (hat : s.power.scaledAt + 2 ^ 24 ≤ s.now) :
    ∃ t, exec (.energyScale charged measured) s = .next t ∧ SameBut [.power] s t ∧ t.power.scaledAt = s.now ∧
      t.power.energy = s.power.energy + measured ∧ t.power.scale ≤ s.power.scale + 1024 ∧ s.power.scale ≤ t.power.scale + 1024 ∧
      (charged ≠ 0 → 65536 * measured / charged ≤ s.power.scale + 1024 → s.power.scale ≤ 65536 * measured / charged + 1024 →
        t.power.scale = 65536 * measured / charged) := by
  obtain ⟨hup', hdown, hreach⟩ := toward_nat s.power.scale (65536 * measured / charged)
  refine ⟨s.energyScale charged measured, when_true (by rw [hup, decide_eq_true hat]; rfl),
    (State.modPower_moves (.refl [.power] s) rfl).frame, rfl, rfl, ?_⟩
  show (if charged = 0 then s.power.scale else _) ≤ _ ∧ _ ≤ (if charged = 0 then s.power.scale else _) + _ ∧
    (_ → _ → _ → (if charged = 0 then s.power.scale else _) = _)
  split
  · next h => exact ⟨Nat.le_add_right _ _, Nat.le_add_right _ _, fun hne => absurd h hne⟩
  · exact ⟨hup', hdown, fun _ => hreach⟩

/-! ### Levels (R359, R363) -/

/-- The level that is wanted, and by which of the three, is the power unit's alone. -/
theorem startLevel_regs (s : State) : s.startLevel.regs.level = s.regs.level ∧
    (s.startLevel.regs.setBy = s.regs.setBy ∨ s.startLevel.regs.setBy = BitVec.ofNat 2 s.levelSetBy) := by
  unfold State.startLevel
  extract_lets l s1 t s2
  have h1 : s1.regs.level = s.regs.level ∧ (s1.regs.setBy = s.regs.setBy ∨ s1.regs.setBy = BitVec.ofNat 2 s.levelSetBy) := by
    unfold s1
    split
    · exact ⟨rfl, .inr rfl⟩
    · exact ⟨rfl, .inl rfl⟩
  split
  · exact h1
  · exact h1

theorem levelStepSettled_sets {mv k : Nat} {s : State} (hto : s.power.stepTo = some k) (hlow : State.levelMv k ≤ mv + 10)
    (hhigh : mv ≤ State.levelMv k + 10) :
    ∃ t, exec (.levelStepSettled mv) s = .next t ∧ t.regs.level = BitVec.ofNat 3 k ∧ t.regs.setBy = BitVec.ofNat 2 s.levelSetBy ∧
      (s.Canonical → Tbl.get 0 Ctr.levelChanges t.counters = min (2 ^ 48 - 1) (Tbl.get 0 Ctr.levelChanges s.counters + 1)) := by
  let v := (s.modRegs fun r => { r with level := BitVec.ofNat 3 k, setBy := BitVec.ofNat 2 s.levelSetBy }).modPower fun p =>
    { p with pacerLevel := k, stepTo := none }
  obtain ⟨hlevel, hby⟩ := startLevel_regs (v.count Ctr.levelChanges)
  refine ⟨s.levelSettled k, ?_, hlevel, hby.elim id id, fun c => ?_⟩
  · show execLevelStepSettled mv s = _
    rw [execLevelStepSettled, hto]
    exact when_true (by rw [State.settledAt, decide_eq_true hlow, decide_eq_true hhigh]; rfl)
  · have cv : v.Canonical := (State.modPower_moves (State.modRegs_moves (.refl [.regs, .power] s) rfl) rfl).canon c
    have hsame : (s.levelSettled k).counters = (v.count Ctr.levelChanges).counters :=
      (State.startLevel_moves (.refl [.regs, .power, .out] (v.count Ctr.levelChanges)) rfl).frame .counters (by decide)
    rw [hsame]
    exact counter_count_self cv _

theorem levelStepTimeout_floors {k : Nat} {s : State} (hto : s.power.stepTo = some k) :
    ∃ t, exec .levelStepTimeout s = .next t ∧ t.regs.level = s.regs.level ∧
      t.power.regFloor = max s.power.regFloor (min 7 (max s.regs.level.toNat k)) ∧ t.power.warnAt = s.now := by
  refine ⟨s.levelTimeout k, ?_, ?_⟩
  · show execLevelStepTimeout s = _
    rw [execLevelStepTimeout, hto]
    exact when_true rfl
  · unfold State.levelTimeout
    extract_lets l word
    let u := s.draw.modPower fun p => { p with stepTo := none, pacerLevel := l }
    obtain ⟨hpower, hnow⟩ := regAlert_power u 0x40 0 word
    obtain ⟨hfloor, hwarn⟩ := setRegFloor_power (u.regAlert 0x40 0 word) (max l k)
    have hregs : (u.regAlert 0x40 0 word).regs = s.regs :=
      (State.regAlert_moves (.refl [.rings, .counters, .sec, .out] u) rfl).frame .regs (by decide)
    refine ⟨?_, by rw [hfloor, hpower]; rfl, by rw [hwarn, hnow]; rfl⟩
    rw [State.setRegFloor, (startLevel_regs _).1]
    exact congrArg Regs.level hregs

theorem regulatorFloorReturn_returns {s : State} (hfloor : 0 < s.power.regFloor) (hat : s.power.warnAt + 2 ^ 32 ≤ s.now) :
    ∃ t, exec .regulatorFloorReturn s = .next t ∧ t.power.regFloor = s.power.regFloor - 1 ∧ t.power.warnAt = s.now := by
  refine ⟨s.floorReturns, when_true (by rw [decide_eq_true hfloor, decide_eq_true hat]; rfl), ?_⟩
  obtain ⟨step, pacer, h⟩ := startLevel_power (s.modPower fun p => { p with regFloor := p.regFloor - 1, warnAt := s.now })
  rw [State.floorReturns, h]
  exact ⟨rfl, rfl⟩

/-- Settles O47: each change of the policy is one change of the power unit before work goes on. The cap of the account with no excursion
allowed and the scale's bound of 1,024 of 65,536 on a step are the model's readings of R361 and R362 (logs 131 and 133). -/
theorem powerPolicyActs : Obligations.PowerPolicyActs := by
  unfold Obligations.PowerPolicyActs
  exact ⟨fun s c hdue => d1Entry_opens c hdue, fun b s c haw hidle => boughSwitchOpen_opens c haw hidle,
    fun b s c hclosing => boughSwitchReady_goesOn c hclosing, fun s haw hon hd hat => pacerWindow_credits haw hon hd hat,
    fun charged measured s hup hat => energyScale_moves hup hat, fun mv k s hto hlow hhigh => levelStepSettled_sets hto hlow hhigh,
    fun k s hto => levelStepTimeout_floors hto, fun s hfloor hat => regulatorFloorReturn_returns hfloor hat⟩

end Sys2Proof.Machine

/-! PROOFS. What work that goes on leaves of the start's record, of the power unit and of the security unit (R86, R87, R345, R361, R382). -/

namespace Sys2Proof.Machine

/-! ### The relation -/

/-- From `s` to `t` work has gone on: the start's record has at most got back what a lost block had taken (R297), the power unit has at
most been charged (R361). -/
structure WorkKept (s t : State) : Prop where
  boot : t.boot = { s.boot with weightLost := t.boot.weightLost }
  power : t.power = { s.power with
    account := t.power.account, charged := t.power.charged, idleSince := t.power.idleSince, dstate := t.power.dstate }

namespace WorkKept
variable {r s t : State}

/-- Every piece but the start's record and the power unit. -/
abbrev workQuiet : List Field := (.free :: .pending :: everyPiece).filter fun f => f ≠ .boot ∧ f ≠ .power

theorem of_eq (hb : t.boot = s.boot) (hp : t.power = s.power) : WorkKept s t := ⟨by rw [hb], by rw [hp]⟩

theorem refl (s : State) : WorkKept s s := ⟨rfl, rfl⟩

theorem of_moves (h : Moves workQuiet s t) : WorkKept s t := of_eq (h.frame .boot (by decide)) (h.frame .power (by decide))

theorem trans {u : State} (h : WorkKept s t) (k : WorkKept t u) : WorkKept s u :=
  ⟨by rw [k.boot, h.boot], by rw [k.power, h.power]⟩

theorem quiet (h : WorkKept r s) (k : Moves workQuiet s t) : WorkKept r t := h.trans (of_moves k)

theorem ite {c : Prop} [Decidable c] (h : WorkKept r s) (k : WorkKept r t) : WorkKept r (if c then s else t) := by
  split
  · exact h
  · exact k

theorem each {α : Type} {f : State → α → State} (hf : ∀ s x, WorkKept s (f s x)) : ∀ (xs : List α) (s : State), WorkKept s (s.each xs f)
  | [], s => refl s
  | x :: xs, s => (hf s x).trans (each hf xs (f s x))

theorem phase (h : WorkKept s t) : t.boot.phase = s.boot.phase := by rw [h.boot]

theorem wake (h : WorkKept s t) : t.power.wake = s.power.wake := by rw [h.power]

end WorkKept

/-! ### Grants and programming -/

section
variable (s : State)

theorem charge_workKept (kind : Nat) (b : Option Nat) : WorkKept s (s.charge kind b) := by
  unfold State.charge State.chargeBy
  cases b with
  | none => exact ⟨rfl, rfl⟩
  | some b => exact ⟨rfl, rfl⟩

theorem startPhase_workKept (t : Nat) (p : Prod) : WorkKept s (s.startPhase t p) := by
  unfold State.startPhase
  extract_lets b s1 s2
  refine .ite (.of_moves (State.wakeBough_moves (.refl _ s) rfl)) (.ite (.of_moves (State.count_moves (.refl _ s) rfl))
    (.ite (.of_moves (State.withhold_moves (.refl _ s) rfl)) ?_))
  have h1 : Moves WorkKept.workQuiet s s1 := State.noteConflicts_moves ((Moves.refl _ s).ite (State.firstPhase_moves (.refl _ s) rfl)) rfl
  have h2 : WorkKept s s2 := ((WorkKept.of_moves h1).trans (charge_workKept s1 0 (some b))).quiet (State.modBough_moves (.refl _ _) rfl)
  exact h2.quiet (State.modTile_moves (.refl _ s2) rfl)

theorem startProg_workKept (t : Nat) : WorkKept s (s.startProg t) := by
  unfold State.startProg
  split
  · exact .refl s
  · next j rest _ =>
    refine .ite (.of_moves (State.wakeBough_moves (.refl _ s) rfl)) (.ite (.of_moves (State.count_moves (.refl _ s) rfl))
      (.ite (.of_moves (State.withhold_moves (.refl _ s) rfl)) ?_))
    extract_lets s1
    have h1 : Moves WorkKept.workQuiet s s1 := State.countBlocked_moves ((Moves.refl _ s).ite (State.beginRun_moves (.refl _ s) rfl)) rfl
    exact ((WorkKept.of_moves h1).trans (charge_workKept s1 2 _)).quiet (State.modTile_moves (.refl _ _) rfl)

theorem tileNext_workKept (t : Nat) : WorkKept s (s.tileNext t) := by
  unfold State.tileNext
  extract_lets s1 x p
  have h1 : WorkKept s s1 := .of_moves (State.dropRefused_moves (.refl _ s) rfl)
  have hprog : WorkKept s (s1.startProg t) := h1.trans (startProg_workKept s1 t)
  clear_value p
  refine .ite h1 (.ite hprog ?_)
  split
  · exact h1.trans (startPhase_workKept s1 t _)
  · exact .ite hprog h1

theorem tilesNext_workKept (ok : Nat → Bool) : WorkKept s (s.tilesNext ok) := .each tileNext_workKept _ s

theorem requestProgram_workKept (t : Nat) (j : ProgJob) : WorkKept s (s.requestProgram t j) := by
  unfold State.requestProgram
  refine .ite (.of_moves (State.refuseProgram_moves (.refl _ s) rfl)) ?_
  extract_lets j' s1
  have h1 : WorkKept s s1 := .of_eq rfl rfl
  exact (h1.quiet (State.modTile_moves (.refl _ s1) rfl)).trans (tileNext_workKept _ t)

theorem programTargets_workKept (t : Take) (xs : List (Nat × Nat × Nat × Nat × Nat)) : WorkKept s (s.programTargets t xs) :=
  .each (fun u _ => requestProgram_workKept u _ _) _ s

/-! ### Takes and cuts -/

theorem emptyDecks_moves {α : Type} (xs : List α) (f : α → Nat × Nat) :
    Moves WorkKept.workQuiet s (s.each xs fun s x => s.emptyDeck (f x).1 (f x).2) :=
  (Moves.refl _ s).each fun _ _ h => State.emptyDeck_moves h rfl

theorem startTake_workKept (t : Take) : WorkKept s (s.startTake t) := by
  unfold State.startTake
  extract_lets t' s1 targets
  have h1 : WorkKept s s1 := .of_moves (State.modTake_moves (.refl _ s) rfl)
  have hmod : ∀ {f : Take → Take}, WorkKept s (s1.modTake t'.id f) := h1.quiet (State.modTake_moves (.refl _ s1) rfl)
  exact .ite (.ite hmod (hmod.quiet (State.armTake_moves (.refl _ _) rfl)))
    (.ite (h1.quiet (State.failTake_moves (.refl _ s1) rfl)) (hmod.trans (programTargets_workKept _ _ _)))

theorem slowCut_workKept (t : Take) (m : Nat) : WorkKept s (s.slowCut t m) := by
  unfold State.slowCut
  extract_lets decks s1 s2 s3
  have h2 : WorkKept s s2 := .of_moves (State.modTake_moves (State.bindSlow_moves (.refl _ s) rfl) rfl)
  have hempty : ∀ xs : List (Nat × Nat × Nat × Nat × Nat), WorkKept s (s2.each xs fun s x => s.emptyDeck x.2.2.2.1 x.2.2.2.2) := fun xs =>
    h2.quiet (emptyDecks_moves s2 xs fun x => x.2.2.2)
  exact .ite (hempty _) ((hempty _).trans (programTargets_workKept _ _ _))

theorem onTake_workKept (id : Nat) {f : Take → State → State} (hf : ∀ t s, WorkKept s (f t s)) : WorkKept s (s.onTake id f) := by
  unfold State.onTake
  split
  · exact hf _ s
  · exact .refl s

end

theorem slowCuts_workKept (t : Take) : ∀ (ms : List Nat) (s : State), WorkKept s (State.slowCuts t ms s)
  | [], s => .refl s
  | m :: ms, s => by
    unfold State.slowCuts
    exact .ite ((slowCut_workKept s t m).trans (slowCuts_workKept t ms _)) (.refl s)

section
variable (s : State)

theorem settleLoading_workKept (t : Take) : WorkKept s (State.settleLoading t s) := by
  unfold State.settleLoading
  refine .ite (.refl s) ((slowCuts_workKept t _ s).trans (onTake_workKept _ _ fun t s => ?_))
  exact .ite (startTake_workKept s t) (.refl s)

theorem settleCuts_workKept (t : Take) : WorkKept s (State.settleCuts t s) := by
  unfold State.settleCuts
  refine .ite ?_ (.refl s)
  refine ((slowCuts_workKept t _ s).trans (.each (fun s m => ?_) _ _)).trans (onTake_workKept _ _ fun t s => ?_)
  · exact .of_moves (State.settleMatrix_moves (.refl _ s) rfl)
  · exact .ite (.of_moves (State.finishTake_moves (State.driftDone_moves (.refl _ s) rfl) rfl)) (.refl s)

theorem settleTake_workKept (id : Nat) : WorkKept s (s.settleTake id) := by
  unfold State.settleTake
  exact ((onTake_workKept s id fun t s => settleLoading_workKept s t).trans (onTake_workKept _ id fun t s =>
    .of_moves (State.settleTargets_moves (.refl _ s) rfl))).trans (onTake_workKept _ id fun t s => settleCuts_workKept s t)

/-- A position that serves again has its lost block forgotten (R297). -/
theorem recovered_workKept (g : Gen) : WorkKept s (s.recovered g) := by
  unfold State.recovered
  split
  · exact .refl s
  · exact .ite ⟨rfl, rfl⟩ (.refl s)

theorem openEpoch_workKept (e image : Nat) : WorkKept s (s.openEpoch e image) := by
  unfold State.openEpoch
  split
  · exact .refl s
  · split
    · exact .refl s
    · extract_lets take olds news s1 s2 s3 s4 s5
      clear_value take
      have h2 : Moves WorkKept.workQuiet s s2 := (State.modWeights_moves (.refl _ s) rfl).each fun _ _ h =>
        h.each fun _ _ h => State.modDeck_moves h rfl
      have h3 : Moves WorkKept.workQuiet s s3 := h2.each fun u b h => by
        split
        · exact h.ite (State.tierEvent_moves h rfl)
        · exact h
      have h4 : Moves WorkKept.workQuiet s s4 := by
        unfold s4
        split
        · exact State.modTake_moves h3 rfl
        · exact h3
      have h5 : WorkKept s s5 := (WorkKept.of_moves (State.count_moves h4 rfl)).trans (recovered_workKept _ _)
      exact .ite h5 (h5.quiet (State.send_moves (.refl _ s5) rfl))

theorem settle_workKept : WorkKept s s.settle := by
  unfold State.settle
  extract_lets s1 s2
  have h1 : Moves WorkKept.workQuiet s s1 :=
    State.armIdle_moves (State.applySlow_moves (State.applyMats_moves (State.tryLive_moves (.refl _ s) rfl) rfl) rfl) rfl
  refine ((WorkKept.of_moves h1).trans (.each settleTake_workKept (s1.weights.takes.map fun t => t.id) s1)).trans ?_
  unfold State.tryCut
  split
  · exact .refl s2
  · exact .ite (openEpoch_workKept s2 _ _) (.refl s2)

/-! ### What is restored goes on (R86, R87) -/

theorem stepGone_workKept (c n : Nat) : WorkKept s (s.stepGone c n) := by
  unfold State.stepGone
  extract_lets mine ids s1
  have h1 : WorkKept s s1 := .of_eq rfl rfl
  exact (h1.quiet (State.unqueue_moves (State.forget_moves (.refl _ s1) rfl) rfl)).trans (settle_workKept _)

theorem draftsDone_workKept (x : Step) : WorkKept s (s.draftsDone x) := by
  unfold State.draftsDone
  extract_lets e marks s1
  have h1 : WorkKept s s1 := .of_moves ((Moves.refl _ s).ite (State.send_moves (.refl _ s) rfl))
  exact (h1.trans (stepGone_workKept s1 _ _)).quiet (State.restState_moves (.refl _ _) rfl)

theorem draftToken_workKept (x : Step) (v : List F32) : WorkKept s (s.draftToken x v) := by
  unfold State.draftToken
  extract_lets e m al tok q s1
  have h1 : WorkKept s s1 := .of_moves (State.modCall_moves (.refl _ s) rfl)
  exact .ite (draftsDone_workKept s x) (.ite h1 (h1.trans (draftsDone_workKept s1 x)))

theorem deliver_workKept (h : Handoff) (m : Mat) : WorkKept s (s.deliver h m) := by
  unfold State.deliver
  extract_lets w s1 back s2
  have h2 : WorkKept s s2 := .ite (.of_eq rfl rfl) (.of_eq rfl rfl)
  have hmove : ∀ {u : State}, WorkKept s u → WorkKept s (u.moveStep w.call w.step) := fun hu => hu.quiet (State.moveStep_moves (.refl _ _) rfl)
  split
  · refine hmove ?_
    split
    · exact h2.quiet (State.relayBack_moves (.refl _ s2) rfl)
    · exact h2
  · extract_lets s3 s4
    have h3 : WorkKept s s3 := .ite (h2.quiet (State.relayOut_moves (State.countBlocks_moves (.refl _ s2) rfl) rfl)) h2
    have h4 : WorkKept s s4 := by
      unfold s4
      split
      · exact .ite (h3.quiet (State.modStep_moves (.refl _ s3) rfl)) h3
      · exact .ite (h3.quiet (State.modStep_moves (.refl _ s3) rfl)) h3
    exact .ite (h4.trans (draftToken_workKept s4 _ _)) (hmove h4)
  · exact hmove h2

theorem enqueueProd_workKept (p : Prod) : WorkKept s (s.enqueueProd p) := by
  unfold State.enqueueProd
  refine .ite (.of_moves (State.lastPhase_moves (.refl _ s) rfl)) ?_
  extract_lets s1
  have h1 : WorkKept s s1 := by
    unfold s1
    split
    · exact .of_moves (State.count_moves (.refl _ s) rfl)
    · exact .ite (.of_moves (State.count_moves (.refl _ s) rfl)) (.refl s)
    · exact .refl s
  exact (h1.quiet (State.modTile_moves (.refl _ s1) rfl)).trans (tileNext_workKept _ _)

theorem requestWith_workKept (r : ProductReq) (fresh : Bool) : WorkKept s (s.requestWith r fresh) := by
  unfold State.requestWith
  extract_lets late
  clear_value late
  split
  · split
    · exact .refl s
    · exact .of_eq rfl rfl
  · unfold State.issueWith
    split
    · extract_lets d mode p s1 s2 s3
      have h1 : WorkKept s s1 := .of_eq rfl rfl
      have h2 : WorkKept s s2 := .ite (h1.quiet (State.countIssue_moves (.refl _ s1) rfl)) h1
      have h3 : WorkKept s s3 := .ite h2 (h2.quiet (State.useUnit_moves (.refl _ s2) rfl))
      exact h3.trans (enqueueProd_workKept s3 p)
    · exact .refl s

theorem restoreVector_workKept (c : Nat) (v : Saved) : WorkKept s (s.restoreVector c v) := by
  unfold State.restoreVector
  extract_lets k
  split
  · exact .refl s
  · refine .ite (.each (fun u i => ?_) _ s) (deliver_workKept s _ _)
    exact .ite (requestWith_workKept u _ _) (.refl u)

theorem restoreCall_workKept (c : Nat) : WorkKept s (s.restoreCall c) := by
  unfold State.restoreCall
  extract_lets e lost s1 stale s2 rows s3 s4
  have h1 : Moves WorkKept.workQuiet s s1 := (Moves.refl _ s).ite (State.draw_moves (.refl _ s) rfl)
  have h2 : Moves WorkKept.workQuiet s s2 := h1.each fun _ _ h => State.count_moves (State.restartStep_moves h rfl) rfl
  have h3 : Moves WorkKept.workQuiet s s3 := State.undiscard_moves (State.dropSaves_moves h2 rfl) rfl
  clear_value s3
  have h34 : WorkKept s3 s4 := .of_eq rfl rfl
  have h4 : WorkKept s s4 := (WorkKept.of_moves h3).trans h34
  refine .ite (.of_moves (State.endCall_moves (State.saveLost_moves h1 rfl) rfl)) (.ite (.of_moves (State.endCall_moves h1 rfl)) ?_)
  exact h4.trans (.each (fun u v => restoreVector_workKept u c v) _ s4)

theorem reprogram_workKept : WorkKept s s.reprogram := by
  have hrest : ∀ (u : State) (t : Take), WorkKept u (State.programRest u t) := fun u t =>
    (WorkKept.of_moves (emptyDecks_moves u _ fun x : Nat × Nat × Nat × Nat × Nat => x.2.2.2)).trans (programTargets_workKept _ _ _)
  unfold State.reprogram
  extract_lets s1
  have h1 : WorkKept s s1 := .each hrest _ s
  split
  · exact h1
  · extract_lets mats xs s2
    have h2 : WorkKept s s2 := h1.quiet (emptyDecks_moves s1 xs fun x => x.2.2.2)
    exact .ite h1 (h2.quiet (State.firmwareTake_moves (.refl _ s2) rfl))

end

end Sys2Proof.Machine

/-! PROOFS. Starts that fail and starts that resume (R248, R338, R345, R348, R352, R371). -/

namespace Sys2Proof.Machine

/-! ### A failed step (R348) -/

theorem PutOut.of_grows {s u t : State} {e : Emit} (h : PutOut s u e) (k : u.out <+: t.out) : PutOut s t e := by
  obtain ⟨l, hl, he⟩ := h
  obtain ⟨w, hw⟩ := k
  exact ⟨l ++ w, by rw [← hw, hl, List.append_assoc], List.mem_append_left w he⟩

/-- A step's failure noted: its code, the count, the line on the sideband. -/
def State.failNoted (s : State) (c : Nat) : State :=
  ((s.modBoot fun b => { b with failedStep := none, failCodes := (c :: b.failCodes).take 3, attempts := min 3 (s.boot.attempts + 1) }).modRegs
    fun r => { r with lastFail := BitVec.ofNat 8 c }).emit (.sideband c (min 3 (s.boot.attempts + 1)))

/-- A cold reset that arrives, at once or held, keeps the record of failed starts and what has been put out (R348). -/
theorem resetArrives_cold_keeps (s : State) (n : Nat) : (s.resetArrives true n).out = s.out ∧
    (s.resetArrives true n).regs.lastFail = s.regs.lastFail ∧ (s.resetArrives true n).boot.attempts = s.boot.attempts := by
  cases hp : s.pulseRuns none with
  | false =>
    rw [resetArrives_cold_now hp]
    exact ⟨rfl, rfl, rfl⟩
  | true =>
    obtain ⟨h, he, -⟩ := resetArrives_held hp true n
    rw [he]
    exact ⟨rfl, rfl, rfl⟩

theorem startFail_fails {c : Nat} {s : State} (hf : s.boot.failedStep = some c) (hon : s.awake = true ∨ s.boot.phase = .heldWarm) :
    ∃ t, exec .startFail s = .next t ∧ PutOut s t (.sideband c (min 3 (s.boot.attempts + 1))) ∧
      t.regs.lastFail = BitVec.ofNat 8 c ∧ t.boot.attempts = min 3 (s.boot.attempts + 1) ∧
      (s.boot.attempts < 3 → s.pulseRuns none = false → t.boot.phase = .heldCold ∧ t.boot.source = 11) ∧
      (3 ≤ s.boot.attempts → t.boot.phase = .safe ∧ t.pins.alertSafe = true) := by
  have he : exec .startFail s = .next (if s.boot.attempts < 3 then (s.failNoted c).resetArrives true 11
      else (s.failNoted c).enterSafe s.boot.source) := by
    show execStartFail s = _
    rw [execStartFail, hf]
    refine when_true ?_
    rcases hon with h | h <;> simp [h]
  have hput : PutOut s (s.failNoted c) (.sideband c (min 3 (s.boot.attempts + 1))) := ⟨_, rfl, List.mem_cons_self⟩
  refine ⟨_, he, ?_⟩
  split
  · next hlt =>
    obtain ⟨hout, hfail, hcount⟩ := resetArrives_cold_keeps (s.failNoted c) 11
    refine ⟨hput.of_grows (by rw [hout]), hfail, hcount, fun _ hp => ?_, fun hge => absurd hlt (Nat.not_lt.2 hge)⟩
    rw [resetArrives_cold_now (s := s.failNoted c) hp]
    exact ⟨rfl, rfl⟩
  · next hge => exact ⟨hput, rfl, rfl, fun hlt => absurd hlt hge, fun _ => ⟨rfl, rfl⟩⟩

/-! ### A partner boots (R338) -/

theorem partnerBootRequest_sends {s : State} (c : s.Canonical) (haw : s.awake = true) (hl : (s.link .t).carries = true) :
    ∃ t, exec .partnerBootRequest s = .next t ∧
      (s.mgmtUp = true → Sent s t .t 3 (.bootImage (Tbl.get ({} : FwSlot) s.sec.runSlot s.sec.slots).bytes)) ∧
      (s.mgmtUp = false → t = s) := by
  refine ⟨_, when_true (by rw [haw, hl]; rfl), fun hup => ?_, fun hdown => if_neg (by rw [hdown]; decide)⟩
  rw [if_pos hup]
  exact send_sent c _ _ _

/-! ### Journal resume (R248, R345) -/

/-- From `s` to `t` work has gone on and nothing that was put out is gone. -/
structure GoesOn (s t : State) : Prop where
  kept : WorkKept s t
  grows : s.out <+: t.out

namespace GoesOn
variable {r s t : State}

theorem refl (s : State) : GoesOn s s := ⟨.refl s, List.prefix_rfl⟩

theorem trans {u : State} (h : GoesOn s t) (k : GoesOn t u) : GoesOn s u := ⟨h.kept.trans k.kept, h.grows.trans k.grows⟩

theorem of_moves (h : Moves WorkKept.workQuiet s t) : GoesOn s t := ⟨.of_moves h, h.grows⟩

theorem of_eq (hb : t.boot = s.boot) (hp : t.power = s.power) (ho : t.out = s.out) : GoesOn s t :=
  ⟨.of_eq hb hp, by rw [ho]⟩

theorem quiet (h : GoesOn r s) (k : Moves WorkKept.workQuiet s t) : GoesOn r t := h.trans (of_moves k)

theorem each {α : Type} {f : State → α → State} (hf : ∀ s x, GoesOn s (f s x)) : ∀ (xs : List α) (s : State), GoesOn s (s.each xs f)
  | [], s => refl s
  | x :: xs, s => (hf s x).trans (each hf xs (f s x))

end GoesOn

theorem restoreCall_goesOn (s : State) (c : Nat) : GoesOn s (s.restoreCall c) :=
  ⟨restoreCall_workKept s c, (State.restoreCall_moves (.refl (.free :: everyPiece) s) rfl).grows⟩

/-- What a resume has done before it asks for the doorbell records again. -/
theorem resume_splits (s : State) : ∃ u v : State, GoesOn s u ∧ GoesOn (u.emit .readDoorbells) v ∧
    s.resume = (((v.setReady 10).modBoot fun b => { b with emptySheet := false }).send .u 0
      (.discover v.regs.chainPos.toNat (if v.regs.side then 1 else 0) v.regs.posnV.toNat true)).send .d 0
      (.discover v.regs.chainPos.toNat (if v.regs.side then 1 else 0) v.regs.posnV.toNat true) := by
  unfold State.resume
  extract_lets s1 s2 s3 s4 lost s5 s6 s7 s8 s9 s10 s11 s12 s13 s14 s15 s16 held s17 s18 own msg s19
  have h3 : Moves WorkKept.workQuiet s s3 :=
    (State.abortTakes_moves ((State.emptyCallSheet_moves (.refl _ s) rfl).ite (.refl _ s)) rfl).each fun _ _ h => State.releaseEntry_moves h rfl
  have h4 : Moves WorkKept.workQuiet s s4 := h3.each fun _ _ h => h.each fun _ _ h => State.emit_moves h rfl
  clear_value s4
  have h5 : GoesOn s s5 := (GoesOn.of_moves h4).trans (.of_eq rfl rfl rfl)
  have h7 : GoesOn s s7 := h5.quiet ((State.modWeights_moves (.refl _ s5) rfl).each fun _ _ h => State.modLink_moves h rfl)
  clear_value s7
  have h9 : GoesOn s s9 := h7.trans (.of_eq rfl rfl rfl)
  clear_value s9
  have h10 : GoesOn s s10 := h9.quiet (State.completeAll_moves (.refl _ s9) rfl)
  clear_value s10
  have h11 : GoesOn s s11 := h10.quiet (((Moves.refl _ s10).each fun _ _ h => State.endCall_moves h rfl).ite (.refl _ s10))
  clear_value s11
  have h12 : GoesOn s s12 := h11.trans ⟨reprogram_workKept s11, (State.reprogram_moves (.refl (.free :: everyPiece) s11) rfl).grows⟩
  clear_value s12
  have h13 : GoesOn s s13 := h12.quiet ((Moves.refl _ s12).each fun _ _ h => State.partResetEnd_moves h rfl)
  clear_value s13
  have h14 : GoesOn s s14 := h13.quiet ((Moves.refl _ s13).ite (State.setReady_moves (.refl _ s13) rfl))
  clear_value s14
  have h15 : GoesOn s s15 := h14.trans (.each restoreCall_goesOn _ s14)
  clear_value s15
  have h17 : GoesOn s16 s17 := .of_moves ((State.modSec_moves (.refl _ s16) rfl).each fun _ _ h => State.writeRecord_moves h rfl)
  exact ⟨s15, s17, h15, h17, rfl⟩

/-- What a resume leaves: READY bit 10, no empty call sheet wanted, the doorbell records asked for (R248, R345). -/
theorem resume_leaves (s : State) : s.resume.boot.phase = s.boot.phase ∧ s.resume.power.wake = s.power.wake ∧
    s.resume.boot.emptySheet = false ∧ s.resume.readyBit 10 = true ∧ PutOut s s.resume .readDoorbells := by
  obtain ⟨u, v, hu, hv, he⟩ := resume_splits s
  let w := (v.setReady 10).modBoot fun b => { b with emptySheet := false }
  have hw : Moves [.counters, .links, .out] w s.resume := by
    rw [he]
    exact State.send_moves (State.send_moves (.refl _ w) rfl) rfl
  have hboot : s.resume.boot = w.boot := hw.frame .boot (by decide)
  have hout : PutOut s v .readDoorbells := by
    obtain ⟨l, hl⟩ := hu.grows
    have hask : PutOut s (u.emit .readDoorbells) .readDoorbells := ⟨l ++ [.readDoorbells], by rw [← List.append_assoc, hl]; rfl, by simp⟩
    exact PutOut.of_grows hask hv.grows
  refine ⟨?_, ?_, congrArg Boot.emptySheet hboot, ?_, hout.of_grows hw.grows⟩
  · exact (congrArg Boot.phase hboot).trans (hv.kept.phase.trans hu.kept.phase)
  · rw [hw.frame .power (by decide)]
    exact hv.kept.wake.trans hu.kept.wake
  · rw [State.readyBit, hw.frame .regs (by decide)]
    exact readyBit_setReady_self v (by decide)

/-- A step's end leaves an empty call sheet wanted or not. -/
theorem stepEnds_emptySheet (s : State) (n : Nat) : (s.stepEnds n).boot.emptySheet = s.boot.emptySheet := by
  unfold State.stepEnds
  extract_lets s1
  split
  · unfold State.startEnds
    extract_lets kind b s2 s3 s4
    have hm : Moves [.rings, .counters, .jobs, .sec, .out] s2 s4 := State.event_moves (State.completeAll_moves (.refl _ s2) rfl) rfl
    show s4.boot.emptySheet = _
    exact (congrArg Boot.emptySheet (hm.frame .boot (by decide)) :)
  · rfl

theorem resume_ends {s : State} (hdue : s.resumeDue = true) :
    (s.power.wake = none → ∃ u : State, exec .resume s = .next u.settle ∧ u.stepDone? 8 = true ∧ u.readyBit 10 = true ∧
      u.boot.emptySheet = false ∧ PutOut s u .readDoorbells) ∧
    (s.power.wake.isSome = true → ∃ t, exec .resume s = .next t ∧ t.stepDone? 8 = true ∧ t.readyBit 10 = true ∧
      t.boot.phase = .warmStart ∧ PutOut s t .readDoorbells) := by
  obtain ⟨hphase, hwake, hsheet, hready, hput⟩ := resume_leaves s
  have he : exec .resume s = .next (if s.resume.power.wake.isSome then s.resume.markStep 8
      else ((s.resume.count Ctr.resetsWarm).stepEnds 8).settle) := when_true hdue
  generalize s.resume = r at *
  rw [hwake] at he
  refine ⟨fun hnone => ?_, fun hsome => ?_⟩
  · rw [hnone, if_neg (by decide)] at he
    let c := r.count Ctr.resetsWarm
    refine ⟨c.stepEnds 8, he, stepDone_stepEnds_self c (by decide), (stepEnds_onward c 8).ready 10 hready, ?_,
      hput.of_grows ((stepEnds_moves c 8).grows)⟩
    rw [stepEnds_emptySheet]
    exact hsheet
  · rw [if_pos hsome] at he
    refine ⟨_, he, getLsbD_or_one_shift _ (by decide), hready, ?_, hput⟩
    unfold State.resumeDue at hdue
    simp only [Bool.and_eq_true, decide_eq_true_eq] at hdue
    obtain ⟨⟨hwarm, -⟩, -⟩ := hdue
    exact hphase.trans hwarm

/-- Settles O44: what a resume does before its own changes is work that goes on, which leaves the start's record and a wake as they are. -/
theorem startsFailAndResume : Obligations.StartsFailAndResume := by
  unfold Obligations.StartsFailAndResume
  exact ⟨fun c s hf hon => startFail_fails hf hon, fun s hdue => resume_ends hdue, fun s c haw hl => partnerBootRequest_sends c haw hl⟩

end Sys2Proof.Machine

/-! PROOFS. The Aftlink ports: what sending leaves of a port, and how acknowledgements, discards, lanes, training, discovery and
breaks act on it (R268 to R277, R287). -/

namespace Sys2Proof.Machine

/-! ### What sending leaves of the ports (R267, R269) -/

/-- A port has sent: it has numbered flits and keeps them for replay; credits, returned buffers and its queue went with them. -/
structure LinkSends (x y : Link) : Prop where
  same : y = { x with txSeq := y.txSeq, replay := y.replay, credits := y.credits, queue := y.queue, owed := y.owed }
  held : x.replay <+: y.replay

namespace LinkSends
variable {x y z : Link}

theorem refl (x : Link) : LinkSends x x := ⟨rfl, List.prefix_rfl⟩

theorem trans (h : LinkSends x y) (k : LinkSends y z) : LinkSends x z := ⟨by rw [k.same, h.same], h.held.trans k.held⟩

theorem state (h : LinkSends x y) : y.state = x.state := (congrArg Link.state h.same :)
theorem width (h : LinkSends x y) : y.width = x.width := (congrArg Link.width h.same :)
theorem group (h : LinkSends x y) : y.group = x.group := (congrArg Link.group h.same :)
theorem weak (h : LinkSends x y) : y.weak = x.weak := (congrArg Link.weak h.same :)
theorem fails (h : LinkSends x y) : y.fails = x.fails := (congrArg Link.fails h.same :)
theorem rxSeq (h : LinkSends x y) : y.rxSeq = x.rxSeq := (congrArg Link.rxSeq h.same :)
theorem discarding (h : LinkSends x y) : y.discarding = x.discarding := (congrArg Link.discarding h.same :)
theorem resetJobs (h : LinkSends x y) : y.resetJobs = x.resetJobs := (congrArg Link.resetJobs h.same :)

end LinkSends

/-- From `s` to `t` ports have sent, and nothing else has changed them. -/
structure PortsSend (s t : State) : Prop where
  canon : s.Canonical → t.Canonical
  links : s.Canonical → ∀ p, LinkSends (s.link p) (t.link p)

namespace PortsSend
variable {r s t : State}

theorem refl (s : State) : PortsSend s s := ⟨id, fun _ _ => .refl _⟩

theorem trans {u : State} (h : PortsSend s t) (k : PortsSend t u) : PortsSend s u :=
  ⟨fun c => k.canon (h.canon c), fun c p => (h.links c p).trans (k.links (h.canon c) p)⟩

/-- Every piece but the links. -/
abbrev linkQuiet : List Field := (.free :: .pending :: everyPiece).filter (· ≠ .links)

theorem of_moves (h : Moves linkQuiet s t) : PortsSend s t :=
  ⟨h.canon, fun _ p => by rw [State.link, State.link, h.frame .links (by decide)]; exact .refl _⟩

theorem quiet (h : PortsSend r s) (k : Moves linkQuiet s t) : PortsSend r t := h.trans (of_moves k)

theorem ite {c : Prop} [Decidable c] (h : PortsSend r s) (k : PortsSend r t) : PortsSend r (if c then s else t) := by
  split
  · exact h
  · exact k

theorem each {α : Type} {f : State → α → State} (hf : ∀ s x, PortsSend s (f s x)) : ∀ (xs : List α) (s : State), PortsSend s (s.each xs f)
  | [], s => refl s
  | x :: xs, s => (hf s x).trans (each hf xs (f s x))

theorem modLink (s : State) (p : Port) {g : Link → Link} (hg : ∀ l, LinkSends l (g l)) : PortsSend s (s.modLink p g) := by
  refine ⟨fun c => modLink_canonical c p g, fun c q => ?_⟩
  by_cases h : q = p
  · rw [h, link_modLink_self c]
    exact hg _
  · rw [link_modLink_ne c h]
    exact .refl _

end PortsSend

theorem sendOne_portsSend (s : State) (p : Port) : PortsSend s (s.sendOne p) := by
  unfold State.sendOne
  extract_lets l cr n
  split
  · split
    · exact .refl s
    · split
      · exact .refl s
      · extract_lets s1 s2
        have h2 : PortsSend s s2 := .of_moves (State.count_moves (State.emit_moves (.refl _ s) rfl) rfl)
        exact h2.trans (.modLink s2 p fun _ => ⟨rfl, List.prefix_append _ _⟩)
  · exact .refl s

theorem pump_portsSend (p : Port) : ∀ (n : Nat) (s : State), PortsSend s (s.pump p n)
  | 0, s => .refl s
  | n + 1, s => (sendOne_portsSend s p).trans (pump_portsSend p n (s.sendOne p))

theorem send_portsSend (s : State) (p : Port) (c : Nat) (b : FlitBody) : PortsSend s (s.send p c b) :=
  (PortsSend.modLink s p (g := fun l => { l with queue := Bits.setAt l.queue c (l.queue.getD c [] ++ [b]) }) fun _ =>
    ⟨rfl, List.prefix_rfl⟩).trans (pump_portsSend p _ _)

theorem acknowledge_portsSend (s : State) (p : Port) : PortsSend s (s.acknowledge p) := send_portsSend s p 0 .ack

/-! ### A flit that is accepted (R268, R269, R271) -/

/-- A port that has taken a flit of a channel. -/
def Link.received (l : Link) (c : Nat) : Link :=
  { l with rxSeq := l.rxSeq + 1, discarding := false, heard := true, owed := Bits.setAt l.owed c (l.owed.getD c 0 + 1) }

/-- What a port still holds for replay after a header's acknowledgement. -/
def Link.unacked (l : Link) (hd : FlitHdr) : List SentFlit :=
  if hd.ackValid then l.replay.dropWhile fun x => decide ((hd.ack - x.seq).toNat < 512) else l.replay

/-- A port whose flits a header has acknowledged, and to which it has returned credits. -/
def Link.acked (l : Link) (hd : FlitHdr) : Link :=
  { l with
    replay := l.unacked hd, fails := if (l.unacked hd).length < l.replay.length then 0 else l.fails,
    credits := Bits.setAt l.credits hd.creditCh.toNat
      (min (creditsOf hd.creditCh.toNat) (l.credits.getD hd.creditCh.toNat 0 + hd.credits.toNat)) }

theorem acceptFlit_link {s : State} (k : s.Canonical) (hd : FlitHdr) :
    LinkSends (((s.link hd.port).received hd.channel.toNat).acked hd) ((s.acceptFlit hd).link hd.port) := by
  let s1 := (s.modLink hd.port fun l => l.received hd.channel.toNat).count (Ctr.flitsRx (portNo hd.port))
  have k1 : s1.Canonical := count_canonical (modLink_canonical k _ _) _ _
  have h1 : s1.link hd.port = (s.link hd.port).received hd.channel.toNat := link_modLink_self k hd.port fun l => l.received hd.channel.toNat
  have h2 : (s1.modLink hd.port fun l => l.acked hd).link hd.port = ((s.link hd.port).received hd.channel.toNat).acked hd := by
    rw [link_modLink_self k1, h1]
  rw [← h2]
  exact (pump_portsSend hd.port _ (s1.modLink hd.port fun l => l.acked hd)).links (modLink_canonical k1 _ _) hd.port

theorem acceptFlit_canonical {s : State} (k : s.Canonical) (hd : FlitHdr) : (s.acceptFlit hd).Canonical := (acceptFlit_moves s hd).canon k

theorem unacked_of_invalid {l : Link} {hd : FlitHdr} (h : hd.ackValid = false) : l.unacked hd = l.replay := if_neg (by rw [h]; decide)

/-- A flit whose action has left the ports to their sending and is acknowledged leaves its port as the flit's header left it. -/
theorem PortsSend.accepted {s t : State} {hd : FlitHdr} (k : s.Canonical) (h : PortsSend (s.acceptFlit hd) t) :
    LinkSends (((s.link hd.port).received hd.channel.toNat).acked hd) ((t.acknowledge hd.port).link hd.port) :=
  (acceptFlit_link k hd).trans ((h.trans (acknowledge_portsSend t hd.port)).links (acceptFlit_canonical k hd) hd.port)

/-- What a flit's action sends last is sent, the acknowledgement after it. -/
theorem sent_before_acknowledge {s v : State} (hg : s.out <+: v.out) (k : v.Canonical) (p q : Port) (c : Nat) (b : FlitBody) :
    Sent s ((v.send p c b).acknowledge q) p c b :=
  ((send_sent k p c b).kept ((send_kept v p c b).canon k) (acknowledge_kept _ q) (send_kept v p c b).grows).after hg

theorem ack_taken {hd : FlitHdr} {s : State} (k : s.Canonical) (ha : s.accepts hd = true) (hc : hd.channel = 0) :
    ∃ t, exec (.ack hd) s = .next t ∧ (t.link hd.port).rxSeq = (s.link hd.port).rxSeq + 1 ∧
      ∃ l, (t.link hd.port).replay = (if hd.ackValid = true then
        (s.link hd.port).replay.dropWhile (fun x => decide ((hd.ack - x.seq).toNat < 512)) else (s.link hd.port).replay) ++ l := by
  have hl := acceptFlit_link k hd
  obtain ⟨l, hr⟩ := hl.held
  exact ⟨_, when_true (by rw [ha, hc]; rfl), hl.rxSeq, l, hr.symm⟩

/-! ### NAK (R269, R271) -/

theorem each_emit_out {α : Type} (g : α → Emit) : ∀ (xs : List α) (s : State),
    (s.each xs fun s x => s.emit (g x)).out = s.out ++ xs.map g
  | [], _ => (List.append_nil _).symm
  | x :: xs, s => (each_emit_out g xs (s.emit (g x))).trans (List.append_assoc s.out [g x] (xs.map g))

/-- A replay from the oldest flit resends everything that is held (R269). -/
theorem replayFrom_resends {s : State} {p : Port} {x : SentFlit} {xs : List SentFlit} (h : (s.link p).replay = x :: xs) {y : SentFlit}
    (hy : y ∈ (s.link p).replay) : ∃ ack, PutOut s (s.replayFrom p x.seq) (.flit p y.channel y.seq ack (0, 0) y.body) := by
  have hall : (s.link p).replay.dropWhile (fun y => decide (y.seq ≠ x.seq)) = (s.link p).replay := by
    rw [h, List.dropWhile_cons_of_neg (by simp)]
  unfold State.replayFrom
  extract_lets l flits s1
  rw [show flits = (s.link p).replay from hall]
  exact ⟨_, _, each_emit_out (fun x : SentFlit => .flit p x.channel x.seq (if l.heard then some (l.rxSeq - 1) else none) (0, 0) x.body) _ s1,
    List.mem_map_of_mem hy⟩

theorem nak_resends {s : State} (k : s.Canonical) {p : Port} {n : BitVec 12} (h : (s.link p).replay.head?.map (fun x => x.seq) = some n) :
    ((s.nak p n).link p).fails = (s.link p).fails + 1 ∧
      ∀ y ∈ (s.link p).replay, ∃ ack, PutOut s (s.nak p n) (.flit p y.channel y.seq ack (0, 0) y.body) := by
  obtain ⟨x, hx, rfl⟩ := Option.map_eq_some_iff.1 h
  obtain ⟨xs, hr⟩ := List.head?_eq_some_iff.1 hx
  let u := s.modLink p fun l => { l with fails := l.fails + 1 }
  have hu : u.link p = { s.link p with fails := (s.link p).fails + 1 } := link_modLink_self k p _
  have he : s.nak p x.seq = u.replayFrom p x.seq := by
    unfold State.nak
    dsimp only
    rw [if_pos h, if_pos (List.any_eq_true.2 ⟨x, by rw [hr]; exact List.mem_cons_self, by simp⟩)]
  have hm : Moves [.counters, .out] u (u.replayFrom p x.seq) := State.replayFrom_moves (.refl _ u) rfl
  rw [he]
  refine ⟨?_, fun y hy => replayFrom_resends (s := u) (xs := xs) (by rw [hu]; exact hr) (by rw [hu]; exact hy)⟩
  rw [State.link, hm.frame .links (by decide)]
  exact congrArg Link.fails hu

theorem nak_acts {hd : FlitHdr} {n : BitVec 12} {s : State} (k : s.Canonical) (h : s.FlitReady hd [.h, .t, .u, .d] [0])
    (hv : hd.ackValid = false) :
    ∃ t, exec (.nak hd n) s = .next t ∧ ((s.link hd.port).replay.head?.map (fun x => x.seq) = some n →
      (t.link hd.port).fails = (s.link hd.port).fails + 1 ∧
      ∀ y ∈ (s.link hd.port).replay, ∃ ack, PutOut s t (.flit hd.port y.channel y.seq ack (0, 0) y.body)) := by
  refine ⟨_, onFlit_next h "NAK" fun s => s.nak hd.port n, fun hn => ?_⟩
  let u := s.acceptFlit hd
  have ku := acceptFlit_canonical k hd
  have hl := acceptFlit_link k hd
  have hun : (((s.link hd.port).received hd.channel.toNat).acked hd).replay = (s.link hd.port).replay := unacked_of_invalid hv
  have hheld := hl.held
  rw [hun] at hheld
  obtain ⟨w, hw⟩ := hheld
  have hhead : (u.link hd.port).replay.head?.map (fun x => x.seq) = some n := by
    rw [← hw, List.head?_append_of_ne_nil]
    · exact hn
    · rintro he
      rw [he] at hn
      cases hn
  obtain ⟨hfails, hsent⟩ := nak_resends ku hhead
  have hack := acknowledge_portsSend (u.nak hd.port n) hd.port
  have kn : (u.nak hd.port n).Canonical := (State.nak_moves (.refl [.counters, .links, .out] u) rfl).canon ku
  refine ⟨?_, fun y hy => ?_⟩
  · rw [(hack.links kn hd.port).fails, hfails, hl.fails]
    show (if _ then 0 else _) + 1 = _
    rw [if_neg]
    · rfl
    · rw [unacked_of_invalid hv]
      exact lt_irrefl _
  · obtain ⟨ack, hp⟩ := hsent y (by rw [← hw]; exact List.mem_append_left _ hy)
    obtain ⟨a, ha⟩ := (acceptFlit_moves s hd).grows
    obtain ⟨l, ho, hin⟩ := hp
    have hput : PutOut s (u.nak hd.port n) (.flit hd.port y.channel y.seq ack (0, 0) y.body) :=
      ⟨a ++ l, by rw [ho, ← ha, List.append_assoc], List.mem_append_right _ hin⟩
    exact ⟨ack, PutOut.of_grows hput (acknowledge_moves _ hd.port).grows⟩

/-! ### Discards (R268) -/

theorem flitDiscard_answers {p : Port} {w : Bytes} {s : State} (k : s.Canonical) (haw : s.awake = true) (hl : (s.link p).carries = true)
    (hw : w.length = 262) (hbad : wireBad w = true ∨ wireSeq w ≠ (s.link p).rxSeq.toNat) :
    ∃ t, exec (.flitDiscard p w) s = .next t ∧ (t.link p).discarding = true ∧ (t.link p).rxSeq = (s.link p).rxSeq ∧
      ((s.link p).discarding = false ∨ wireBad w = true → Sent s t p 0 (.nak (s.link p).rxSeq)) ∧
      ((s.link p).discarding = true → wireBad w = false → t.out = s.out) := by
  refine ⟨s.flitDiscard p w, when_true (by rcases hbad with h | h <;> simp [haw, hl, hw, h]), ?_⟩
  unfold State.flitDiscard
  extract_lets l s1 s2
  have h1 : Moves [.counters] s s1 :=
    (State.count_moves (.refl _ s) rfl).ite ((State.count_moves (.refl _ s) rfl).ite (.refl _ s))
  have k1 := h1.canon k
  have k2 : s2.Canonical := modLink_canonical k1 p _
  have h2 : s2.link p = { s.link p with discarding := true } := by
    rw [show s2.link p = _ from link_modLink_self k1 p _, State.link, h1.frame .links (by decide)]
    rfl
  have hout : s2.out = s.out := h1.frame .out (by decide)
  clear_value s2
  split
  · have hs := (send_portsSend s2 p 0 (.nak l.rxSeq)).links k2 p
    refine ⟨hs.discarding.trans (by rw [h2]), hs.rxSeq.trans (by rw [h2]), fun _ => ?_, fun hdis hw => ?_⟩
    · exact (send_sent k2 p 0 (.nak l.rxSeq)).after (by rw [hout])
    · next hc =>
      rw [show l.discarding = true from hdis, hw] at hc
      cases hc
  · next hc =>
    refine ⟨by rw [h2], by rw [h2], fun h => absurd ?_ hc, fun _ _ => hout⟩
    rcases h with h | h
    · rw [show l.discarding = false from h]
      rfl
    · rw [h, Bool.or_true]

/-! ### DEGRADE (R273) -/

theorem takeGroup_link {s : State} (k : s.Canonical) (p : Port) (w g : Nat) :
    (s.takeGroup p w g).link p = { s.link p with width := w, group := g, state := .degraded } := by
  unfold State.takeGroup
  extract_lets before s1
  have hm : Moves [.rings, .counters, .sec, .out] s1 (s1.event { code := 0x0D01, own := own [(40, 1, portNo p), (41, 1, before), (42, 1, w),
      (44, 2, (s1.link p).weak.toNat)] }) := State.event_moves (.refl _ s1) rfl
  rw [State.link, hm.frame .links (by decide)]
  exact link_modLink_self k p fun l => { l with width := w, group := g, state := .degraded }

theorem takeGroup_canonical {s : State} (k : s.Canonical) (p : Port) (w g : Nat) : (s.takeGroup p w g).Canonical :=
  (State.takeGroup_moves (.refl [.rings, .counters, .links, .sec, .out] s) rfl).canon k

theorem replayHeld_portsSend (s : State) (p : Port) : PortsSend s (s.replayHeld p) := .of_moves (State.replayHeld_moves (.refl _ s) rfl)

theorem degradeFlit_invalid {s : State} {p : Port} {w g : Nat} (hv : groupValid (lanesOf p) w g = false) :
    s.degradeFlit p w g = s := by
  unfold State.degradeFlit
  rw [hv]
  rfl

theorem degrade_acts {hd : FlitHdr} {w g : Nat} {s : State} (k : s.Canonical) (h : s.FlitReady hd [.h, .t, .u, .d] [0]) :
    ∃ t, exec (.degrade hd w g) s = .next t ∧
      (groupValid (lanesOf hd.port) w g = true → w < (s.link hd.port).width →
        (t.link hd.port).width = w ∧ (t.link hd.port).group = g ∧ (t.link hd.port).state = .degraded ∧
        Sent s t hd.port 0 (.degrade w g)) ∧
      (groupValid (lanesOf hd.port) w g = false → (t.link hd.port).width = (s.link hd.port).width ∧
        (t.link hd.port).group = (s.link hd.port).group) := by
  refine ⟨_, onFlit_next h "DEGRADE" fun s => s.degradeFlit hd.port w g, fun hv hw => ?_, fun hv => ?_⟩
  · let u := s.acceptFlit hd
    have ku := acceptFlit_canonical k hd
    have hwu : (u.link hd.port).width = (s.link hd.port).width := (acceptFlit_link k hd).width
    let v := (u.takeGroup hd.port w g).replayHeld hd.port
    have he : u.degradeFlit hd.port w g = v.send hd.port 0 (.degrade w g) := by
      unfold State.degradeFlit
      dsimp only
      rw [hv, hwu]
      simp [hw, Nat.ne_of_lt hw, v]
    have kt := takeGroup_canonical ku hd.port w g
    have hs : PortsSend (u.takeGroup hd.port w g) ((v.send hd.port 0 (.degrade w g)).acknowledge hd.port) :=
      ((replayHeld_portsSend _ hd.port).trans (send_portsSend _ _ _ _)).trans (acknowledge_portsSend _ _)
    have hl := hs.links kt hd.port
    rw [takeGroup_link ku] at hl
    have hg : s.out <+: v.out := ((acceptFlit_moves s hd).grows.trans
      (State.replayHeld_moves (State.takeGroup_moves (.refl [.rings, .counters, .links, .sec, .out] u) rfl) rfl).grows)
    rw [he]
    exact ⟨hl.width, hl.group, hl.state, sent_before_acknowledge hg ((replayHeld_portsSend _ hd.port).canon kt) _ _ _ _⟩
  · rw [degradeFlit_invalid hv]
    have hl := PortsSend.accepted k (.refl (s.acceptFlit hd))
    exact ⟨hl.width, hl.group⟩

/-! ### Chain position and pairing (R276, R277, R347) -/

/-- The chain position that a device has learned, or not. -/
structure PlaceKept (s t : State) : Prop where
  pos : t.regs.chainPos = s.regs.chainPos
  known : t.boot.posKnown = s.boot.posKnown

namespace PlaceKept
variable {r s t : State}

theorem of_eq (hr : t.regs.chainPos = s.regs.chainPos) (hb : t.boot = s.boot) : PlaceKept s t := ⟨hr, by rw [hb]⟩

theorem refl (s : State) : PlaceKept s s := ⟨rfl, rfl⟩

theorem trans {u : State} (h : PlaceKept s t) (k : PlaceKept t u) : PlaceKept s u := ⟨k.pos.trans h.pos, k.known.trans h.known⟩

/-- Every piece but the registers and the start's record. -/
abbrev placeQuiet : List Field := (.free :: .pending :: everyPiece).filter fun f => f ≠ .regs ∧ f ≠ .boot

theorem of_moves (h : Moves placeQuiet s t) : PlaceKept s t :=
  of_eq (by rw [h.frame .regs (by decide)]) (h.frame .boot (by decide))

theorem quiet (h : PlaceKept r s) (k : Moves placeQuiet s t) : PlaceKept r t := h.trans (of_moves k)

theorem ite {c : Prop} [Decidable c] (h : PlaceKept r s) (k : PlaceKept r t) : PlaceKept r (if c then s else t) := by
  split
  · exact h
  · exact k

end PlaceKept

theorem startEnds_placeKept (s : State) : PlaceKept s s.startEnds := by
  unfold State.startEnds
  extract_lets kind b s1 s2 s3
  have h1 : PlaceKept s s1 := ⟨rfl, rfl⟩
  have h3 : PlaceKept s s3 := h1.quiet (State.event_moves (State.completeAll_moves (.refl _ s1) rfl) rfl)
  exact h3.trans ⟨rfl, rfl⟩

theorem stepEnds_placeKept (s : State) (n : Nat) : PlaceKept s (s.stepEnds n) := by
  unfold State.stepEnds
  extract_lets s1
  have h1 : PlaceKept s s1 := ⟨rfl, rfl⟩
  exact .ite (h1.trans (startEnds_placeKept s1)) (h1.trans ⟨rfl, rfl⟩)

theorem linkStep_placeKept (s : State) : PlaceKept s s.linkStep := by
  unfold State.linkStep
  extract_lets n s1
  have h1 : PlaceKept s s1 := .ite ⟨rfl, rfl⟩ (.refl s)
  have h2 : PlaceKept s1 (s1.setReady 3) := ⟨rfl, rfl⟩
  exact .ite ((h1.trans h2).trans (stepEnds_placeKept _ n)) h1

theorem judgePartner_placeKept (s : State) : PlaceKept s s.judgePartner := by
  unfold State.judgePartner
  split
  · exact .refl s
  · refine .ite (.refl s) (.ite (.ite (.refl s) ⟨rfl, rfl⟩) ?_)
    have h1 : PlaceKept s (s.modRegs fun r => { r with paired := false }) := ⟨rfl, rfl⟩
    exact h1.quiet (State.event_moves (State.modPartner_moves (.refl _ _) rfl) rfl)

/-- What a learned position does first: it is held, and the ports of a device that is miscabled carry no traffic. -/
def State.positionHeld (s : State) (n : Nat) : State :=
  let s := (s.modRegs fun r => { r with chainPos := BitVec.ofNat 4 (min n 15) }).modBoot fun b => { b with posKnown := true }
  if decide (15 < n) || decide (n % 8 ≠ s.regs.posnV.toNat % 8) then
    (s.each [.u, .d] fun s p => s.modLink p fun l => { l with miscabled := true }).event
      { code := 0x0D04, own := own [(40, 1, n), (41, 1, s.regs.posnV.toNat)] }
  else s

theorem learnPosition_unknown {s : State} (h : s.boot.posKnown = false) (n : Nat) : s.learnPosition n =
    (((s.positionHeld n).each ([.t, .d, .u].filter fun p => ((s.positionHeld n).link p).carries) State.announce).judgePartner).linkStep := by
  unfold State.learnPosition State.positionHeld
  rw [h]
  rfl

theorem positionHeld_place (s : State) (n : Nat) :
    (s.positionHeld n).regs.chainPos = BitVec.ofNat 4 (min n 15) ∧ (s.positionHeld n).boot.posKnown = true := by
  unfold State.positionHeld
  extract_lets s1
  have h : PlaceKept s1 (if decide (15 < n) || decide (n % 8 ≠ s.regs.posnV.toNat % 8) then
      (s1.each [.u, .d] fun s p => s.modLink p fun l => { l with miscabled := true }).event
        { code := 0x0D04, own := own [(40, 1, n), (41, 1, s1.regs.posnV.toNat)] } else s1) :=
    .of_moves ((State.event_moves ((Moves.refl _ s1).each fun _ _ h => State.modLink_moves h rfl) rfl).ite (.refl _ s1))
  exact ⟨h.pos, h.known⟩

theorem announce_portsSend (s : State) (p : Port) : PortsSend s (s.announce p) := send_portsSend s p 0 _

/-- A position that is learned is held from then on (R276; a place beyond 15 is held as 15, the model's choice, log 186). -/
theorem learnPosition_place {s : State} (h : s.boot.posKnown = false) (n : Nat) :
    (s.learnPosition n).regs.chainPos = BitVec.ofNat 4 (min n 15) ∧ (s.learnPosition n).boot.posKnown = true := by
  rw [learnPosition_unknown h]
  obtain ⟨hp, hk⟩ := positionHeld_place s n
  generalize s.positionHeld n = u at *
  have hm : PlaceKept u (u.each ([.t, .d, .u].filter fun p => (u.link p).carries) State.announce) :=
    .of_moves ((Moves.refl _ u).each fun _ _ h => State.announce_moves h rfl)
  have ha := (hm.trans (judgePartner_placeKept _)).trans (linkStep_placeKept _)
  exact ⟨ha.pos.trans hp, ha.known.trans hk⟩

/-- A partner that says the same position and the other side is paired with (R277). -/
theorem judgePartner_paired {s : State} {pos side : Nat} (hs : s.partner.said = some (pos, side)) (hk : s.boot.posKnown = true)
    (hp : pos = s.regs.chainPos.toNat) (hne : side ≠ if s.regs.side then 1 else 0) : s.judgePartner.regs.paired = true := by
  unfold State.judgePartner
  rw [hs]
  simp only [hk, hp, hne, Bool.not_true, Bool.false_eq_true, if_false, beq_self_eq_true, ne_eq, not_false_eq_true, decide_true,
    Bool.and_self, if_true]
  split
  · next h => exact (Bool.and_eq_true_iff.1 h).1
  · rfl

theorem event_partner (s : State) (e : EventRec) : (s.event e).partner = s.partner :=
  (State.event_moves (e := e) (.refl [.rings, .counters, .sec, .out] s) rfl).frame .partner (by decide)

theorem judgePartner_said (s : State) : s.judgePartner.partner.said = s.partner.said := by
  have ite : ∀ {c : Prop} [Decidable c] {u v : State}, u.partner.said = s.partner.said → v.partner.said = s.partner.said →
      (if c then u else v).partner.said = s.partner.said := fun hu hv => by split <;> assumption
  unfold State.judgePartner
  split
  · rfl
  · refine ite rfl (ite (ite rfl rfl) ?_)
    rw [event_partner]
    rfl

theorem discover_upstream {u : State} (hk : u.boot.posKnown = false) (pos side posn : Nat) :
    (u.discover .u pos side posn false).regs.chainPos = BitVec.ofNat 4 (min (pos + 1) 15) ∧
      (u.discover .u pos side posn false).boot.posKnown = true :=
  learnPosition_place hk (pos + 1)

theorem discover_partner (u : State) (pos side posn : Nat) :
    (u.discover .t pos side posn false).partner.said = some (pos, side) ∧
      (u.boot.posKnown = true → pos = u.regs.chainPos.toNat → side ≠ (if u.regs.side then 1 else 0) →
        (u.discover .t pos side posn false).regs.paired = true) :=
  ⟨judgePartner_said (u.modPartner fun x => { x with said := some (pos, side) }),
    judgePartner_paired (s := u.modPartner fun x => { x with said := some (pos, side) }) rfl⟩

theorem discover_resumed {s u : State} (k : u.Canonical) (hg : s.out <+: u.out) (hlast : u.isLast = false) (pos side posn : Nat) (q : Port) :
    Sent s ((u.discover .u pos side posn true).acknowledge q) .d 0 (.discover pos side posn true) := by
  let v := u.each (u.steps.filter fun x => x.drafting.isNone) fun s x => s.restartStep x.call x.step true
  have hv : Moves ((.free :: .pending :: everyPiece).filter (· ≠ .links)) u v := (Moves.refl _ u).each fun _ _ h => State.restartStep_moves h rfl
  have hvl : v.isLast = false := by
    rw [State.isLast, State.link, hv.frame .links (by decide)]
    exact hlast
  have he : u.discover .u pos side posn true = v.send .d 0 (.discover pos side posn true) := by
    show (if v.isLast then v else v.send .d 0 (.discover pos side posn true)) = _
    rw [hvl]
    rfl
  rw [he]
  exact sent_before_acknowledge (hg.trans hv.grows) (hv.canon k) .d q 0 _

theorem discover_acts {hd : FlitHdr} {pos side posn : Nat} {resumed : Bool} {s : State} (k : s.Canonical)
    (h : s.FlitReady hd [.u, .d, .t] [0]) :
    ∃ t, exec (.discover hd pos side posn resumed) s = .next t ∧
      (resumed = false → hd.port = .u → s.boot.posKnown = false → t.regs.chainPos = BitVec.ofNat 4 (min (pos + 1) 15) ∧ t.boot.posKnown = true) ∧
      (resumed = false → hd.port = .t → t.partner.said = some (pos, side) ∧
        (s.boot.posKnown = true → pos = s.regs.chainPos.toNat → side ≠ (if s.regs.side then 1 else 0) → t.regs.paired = true)) ∧
      (resumed = true → hd.port = .u → s.isLast = false → Sent s t .d 0 (.discover pos side posn true)) := by
  have hu : Moves [.counters, .links, .out] s (s.acceptFlit hd) := acceptFlit_moves s hd
  have hlast := isLast_acceptFlit k (hd := hd)
  have he : exec (.discover hd pos side posn resumed) s = .next (((s.acceptFlit hd).discover hd.port pos side posn resumed).acknowledge
    hd.port) := onFlit_next h "DISCOVER" fun s => s.discover hd.port pos side posn resumed
  refine ⟨_, he, ?_⟩
  generalize s.acceptFlit hd = u at hu hlast
  have hregs : u.regs = s.regs := hu.frame .regs (by decide)
  have hboot : u.boot = s.boot := hu.frame .boot (by decide)
  have hack := acknowledge_moves (u.discover hd.port pos side posn resumed) hd.port
  have aregs := hack.frame .regs (by decide)
  have aboot := hack.frame .boot (by decide)
  have apartner := hack.frame .partner (by decide)
  simp only [Field.same] at aregs aboot apartner
  refine ⟨?_, ?_, ?_⟩
  · rintro rfl hp hk
    rw [aregs, aboot, hp]
    exact discover_upstream (by rw [hboot]; exact hk) pos side posn
  · rintro rfl hp
    rw [aregs, apartner, hp, ← hregs, ← hboot]
    exact discover_partner u pos side posn
  · rintro rfl hp hl
    rw [hp]
    exact discover_resumed (hu.canon k) hu.grows ((hlast (by rw [hp]; decide)).trans hl) pos side posn .u

/-! ### Chain breaks (R287) -/

theorem chainBreak_acts {p : Port} {s : State} (k : s.Canonical) (h : s.breakDue p = true) :
    ∃ t, exec (.chainBreak p) s = .next t ∧ t.link p = { s.link p with broken := true } ∧ ∀ q, q ≠ p → t.link q = s.link q := by
  let u := s.modLink p fun l => { l with broken := true }
  have hm : Moves [.rings, .counters, .sec, .out] u (s.chainBreak p) := State.event_moves (.refl _ u) rfl
  have hl : ∀ q, (s.chainBreak p).link q = u.link q := fun q => by rw [State.link, hm.frame .links (by decide), State.link]
  refine ⟨_, when_true h, ?_, fun q hq => ?_⟩
  · rw [hl]
    exact link_modLink_self k p fun l => { l with broken := true }
  · rw [hl]
    exact link_modLink_ne k hq fun l => { l with broken := true }

/-! ### Training (R274, R275) -/

theorem PortsSend.linkStep (s : State) : PortsSend s s.linkStep := .of_moves (State.linkStep_moves (.refl _ s) rfl)

theorem portServes_portsSend (s : State) (p : Port) : PortsSend s (s.portServes p) := by
  unfold State.portServes
  extract_lets fetching s1 s2 s3
  have h1 : PortsSend s s1 := .of_moves ((State.emit_moves (.refl _ s) rfl).ite (.refl _ s))
  have h2 : PortsSend s s2 := h1.quiet ((State.modBoot_moves (.refl _ s1) rfl).ite (.refl _ s1))
  have h3 : PortsSend s s3 := .ite (h2.trans (send_portsSend s2 _ _ _)) h2
  exact .ite (h3.trans (announce_portsSend s3 p)) h3

/-- A port that a training has brought up with a group of good lanes. -/
def Link.trainedWith (p : Port) (good : BitVec 16) (w g : Nat) (l : Link) : Link :=
  { l with
    state := if w = lanesOf p then .up else .degraded, width := w, group := g, weak := ~~~good, downSince := none, broken := false,
    present := true, resetJobs := [] }

theorem portTrained_link {s : State} (k : s.Canonical) (p : Port) (good : BitVec 16) (w g : Nat) :
    LinkSends ((s.link p).trainedWith p good w g) ((s.portTrained p good w g).link p) := by
  unfold State.portTrained
  extract_lets jobs s1 s2 s3
  have k1 : s1.Canonical := modLink_canonical k p _
  have h1 : s1.link p = (s.link p).trainedWith p good w g := link_modLink_self k p (Link.trainedWith p good w g)
  have h2 : PortsSend s1 s2 := .of_moves (State.event_moves (.refl _ s1) rfl)
  have h3 : PortsSend s1 s3 := ((h2.quiet (State.completeAll_moves (.refl _ s2) rfl)).trans (replayHeld_portsSend _ p)).trans
    (pump_portsSend p _ _)
  rw [← h1]
  exact ((h3.trans (portServes_portsSend s3 p)).trans (.linkStep _)).links k1 p

theorem portTrained_acts {p : Port} {lanes : BitVec 16} {x : Nat × Nat} {s : State} (k : s.Canonical) (haw : s.awake = true)
    (hb : bestGroup (lanesOf p) (lanesOf p) (~~~lanes) = some x) (hst : (s.link p).state = .training ∨ (s.link p).state = .down) :
    ∃ t, exec (.portTrained p lanes) s = .next t ∧ (t.link p).width = x.1 ∧ (t.link p).group = x.2 ∧ (t.link p).weak = ~~~lanes ∧
      (t.link p).state = (if x.1 = lanesOf p then .up else .degraded) ∧ (t.link p).resetJobs = [] := by
  have he : exec (.portTrained p lanes) s = .next (s.portTrained p lanes x.1 x.2) := by
    show execPortTrained p lanes s = _
    rw [execPortTrained, hb]
    exact when_true (by rcases hst with h | h <;> rw [haw, h] <;> rfl)
  have hl := portTrained_link k p lanes x.1 x.2
  exact ⟨_, he, hl.width, hl.group, hl.weak, hl.state, hl.resetJobs⟩

/-! ### Weak lanes (R273) -/

theorem portFalls_link {s : State} (k : s.Canonical) (p : Port) :
    (s.portFalls p).link p = { s.link p with state := .down, width := 0, downSince := some s.now } := by
  have hm : Moves [.rings, .counters, .sec, .out] (s.portLost p) (s.portFalls p) := State.event_moves (.refl _ _) rfl
  rw [State.link, hm.frame .links (by decide)]
  exact link_modLink_self k p fun l => { l with state := .down, width := 0, downSince := some s.now }

theorem portFalls_canonical {s : State} (k : s.Canonical) (p : Port) : (s.portFalls p).Canonical :=
  (State.portFalls_moves (.refl [.rings, .counters, .links, .sec, .out] s) rfl).canon k

/-- A port that degrades takes its widest good group and says so, or goes down (R273). -/
theorem degradePort_acts {s : State} (k : s.Canonical) (p : Port) :
    ((s.degradePort p).link p).weak = (s.link p).weak ∧ ((s.degradePort p).link p).fails = (s.link p).fails ∧
      match bestGroup (lanesOf p) (s.link p).width (s.link p).weak with
      | none => ((s.degradePort p).link p).state = .down ∧ ((s.degradePort p).link p).width = 0
      | some x => ((s.degradePort p).link p).state = .degraded ∧ ((s.degradePort p).link p).width = x.1 ∧
          ((s.degradePort p).link p).group = x.2 ∧ Sent s (s.degradePort p) p 0 (.degrade x.1 x.2) := by
  unfold State.degradePort
  cases bestGroup (lanesOf p) (s.link p).width (s.link p).weak with
  | none =>
    dsimp only
    rw [portFalls_link k]
    exact ⟨rfl, rfl, rfl, rfl⟩
  | some x =>
    have kt := takeGroup_canonical k p x.1 x.2
    have hg : s.out <+: (s.takeGroup p x.1 x.2).out := (State.takeGroup_moves (.refl [.rings, .counters, .links, .sec, .out] s) rfl).grows
    have hl := (send_portsSend (s.takeGroup p x.1 x.2) p 0 (.degrade x.1 x.2)).links kt p
    rw [takeGroup_link k] at hl
    exact ⟨hl.weak, hl.fails, hl.state, hl.width, hl.group, (send_sent kt p 0 _).after hg⟩

theorem laneWeak_acts {p : Port} {lane symbols : Nat} {lost : Bool} {s : State} (k : s.Canonical) (haw : s.awake = true)
    (hl : (s.link p).carries = true) (hlane : lane < lanesOf p)
    (hmany : lost = true ∨ s.regs.laneErrMax ≠ 0 ∧ s.regs.laneErrMax.toNat < symbols) :
    ∃ t, exec (.laneWeak p lane lost symbols) s = .next t ∧ (t.link p).weak = (s.link p).weak ||| (1#16 <<< lane) ∧
      ((s.link p).laneActive lane = false → SameBut [.links] s t ∧ (t.link p).width = (s.link p).width) ∧
      ((s.link p).laneActive lane = true → match bestGroup (lanesOf p) (s.link p).width ((s.link p).weak ||| (1#16 <<< lane)) with
        | none => (t.link p).state = .down ∧ (t.link p).width = 0
        | some x => (t.link p).state = .degraded ∧ (t.link p).width = x.1 ∧ (t.link p).group = x.2 ∧ Sent s t p 0 (.degrade x.1 x.2)) := by
  refine ⟨s.laneWeak p lane, when_true ?_, ?_⟩
  · rcases hmany with h | ⟨h, h'⟩
    · simp [haw, hl, hlane, h]
    · simp [haw, hl, hlane, h', show s.regs.laneErrMax ≠ 0#16 from h]
  let u := s.modLink p fun l => { l with weak := l.weak ||| (1#16 <<< lane) }
  have ku : u.Canonical := modLink_canonical k p _
  have hu : u.link p = { s.link p with weak := (s.link p).weak ||| (1#16 <<< lane) } :=
    link_modLink_self k p fun l => { l with weak := l.weak ||| (1#16 <<< lane) }
  have he : s.laneWeak p lane = if (s.link p).laneActive lane then u.degradePort p else u := rfl
  have hm : Moves [.links] s u := State.modLink_moves (.refl _ s) rfl
  have hout : u.out = s.out := rfl
  rw [he]
  clear_value u
  cases hact : (s.link p).laneActive lane with
  | false =>
    refine ⟨by rw [if_neg Bool.false_ne_true, hu], fun _ => ⟨hm.frame, by rw [if_neg Bool.false_ne_true, hu]⟩, fun h => absurd h (by decide)⟩
  | true =>
    rw [if_pos rfl]
    obtain ⟨hw, -, hgroup⟩ := degradePort_acts ku p
    rw [hu] at hw hgroup
    refine ⟨hw, fun h => absurd h (by decide), fun _ => ?_⟩
    revert hgroup
    dsimp only
    cases bestGroup (lanesOf p) (s.link p).width ((s.link p).weak ||| (1#16 <<< lane)) with
    | none => exact id
    | some x => exact fun ⟨h1, h2, h3, h4⟩ => ⟨h1, h2, h3, h4.after (by rw [hout])⟩

/-! ### REPLAY_MAX and failed trainings (R271, R274 to R277) -/

theorem sendHold_portsSend (s : State) (ticks : Nat) (warm sleep : Bool) : PortsSend s (s.sendHold ticks warm sleep) :=
  .ite (send_portsSend s _ _ _) (.refl s)

theorem replayMax_acts {p : Port} {s : State} (k : s.Canonical) (haw : s.awake = true) (hi : s.isolated = false)
    (hl : (s.link p).carries = true) (hmax : s.regs.replayMax.toNat ≤ (s.link p).fails) :
    ∃ t, exec (.replayMax p) s = .next t ∧ (t.link p).fails = 0 ∧
      ((∀ i, i < (s.link p).width → (s.link p).weak.getLsbD ((s.link p).group * (s.link p).width + i) = false) →
        (t.link p).state = .training ∧ (t.link p).width = 0) := by
  refine ⟨s.replayMaxed p, when_true (by rw [haw, hl, decide_eq_true hmax]; rfl), ?_⟩
  unfold State.replayMaxed
  extract_lets s1 l s2
  have k1 : s1.Canonical := modLink_canonical k p _
  have h1 : s1.link p = { s.link p with fails := 0 } := link_modLink_self k p fun l => { l with fails := 0 }
  have hi1 : s1.isolated = false := (modLink_isolated k p (g := fun l => { l with fails := 0 }) fun _ => rfl).trans hi
  rw [show l = { s.link p with fails := 0 } from h1]
  clear_value s1
  split
  · next hweak =>
    obtain ⟨-, hf, -⟩ := degradePort_acts k1 p
    refine ⟨by rw [hf, h1], fun hgood => ?_⟩
    obtain ⟨i, hi, hw⟩ := List.any_eq_true.1 hweak
    rw [hgood i (List.mem_range.1 hi)] at hw
    cases hw
  · have hs : PortsSend s1 s2 := .ite (sendHold_portsSend s1 _ _ _) (.refl s1)
    have hi2 : s2.isolated = false := by
      unfold s2
      split
      · exact (sendHold_t_isolated k1 _ _ _).trans hi1
      · exact hi1
    have h2 := hs.links k1 p
    rw [State.link_count, trainPort_training (hs.canon k1) hi2]
    exact ⟨h2.fails.trans (by rw [h1]), fun _ => ⟨rfl, rfl⟩⟩

/-- A position that is learned changes the ports' mark of a miscabled chain and lets them send. -/
theorem learnPosition_link {s : State} (k : s.Canonical) (n : Nat) (p : Port) :
    ((s.learnPosition n).link p).state = (s.link p).state ∧ ((s.learnPosition n).link p).width = (s.link p).width := by
  cases hk : s.boot.posKnown with
  | true =>
    rw [State.learnPosition, hk]
    exact ⟨rfl, rfl⟩
  | false =>
    have hmark : ∀ {u : State}, u.Canonical → ∀ q : Port, let v := u.modLink q fun l => { l with miscabled := true }
        v.Canonical ∧ (v.link p).state = (u.link p).state ∧ (v.link p).width = (u.link p).width := by
      intro u ku q
      refine ⟨modLink_canonical ku q _, ?_⟩
      by_cases h : p = q
      · rw [h, link_modLink_self ku]
        exact ⟨rfl, rfl⟩
      · rw [link_modLink_ne ku h]
        exact ⟨rfl, rfl⟩
    have hheld : (s.positionHeld n).Canonical ∧ ((s.positionHeld n).link p).state = (s.link p).state ∧
        ((s.positionHeld n).link p).width = (s.link p).width := by
      unfold State.positionHeld
      extract_lets s1
      have k1 : s1.Canonical :=
        (State.modBoot_moves (State.modRegs_moves (.refl [.regs, .boot] s) rfl) rfl : Moves [.regs, .boot] s s1).canon k
      split
      · obtain ⟨k2, hs2, hw2⟩ := hmark k1 .u
        obtain ⟨k3, hs3, hw3⟩ := hmark k2 .d
        have he := (PortsSend.of_moves (State.event_moves (.refl _ _) rfl) : PortsSend _ ((s1.each [.u, .d] fun s p =>
          s.modLink p fun l => { l with miscabled := true }).event
            { code := 0x0D04, own := own [(40, 1, n), (41, 1, s1.regs.posnV.toNat)] }))
        exact ⟨he.canon k3, (he.links k3 p).state.trans (hs3.trans hs2), (he.links k3 p).width.trans (hw3.trans hw2)⟩
      · exact ⟨k1, rfl, rfl⟩
    rw [learnPosition_unknown hk]
    obtain ⟨ku, hs, hw⟩ := hheld
    generalize s.positionHeld n = u at *
    have hl := (((PortsSend.each announce_portsSend ([.t, .d, .u].filter fun p => (u.link p).carries) u).quiet
      (State.judgePartner_moves (.refl _ _) rfl)).trans (.linkStep _)).links ku p
    exact ⟨hl.state.trans hs, hl.width.trans hw⟩

theorem portDown_acts {p : Port} {s : State} (k : s.Canonical) (haw : s.awake = true) (hst : (s.link p).state = .training) :
    ∃ t, exec (.portDown p) s = .next t ∧ (t.link p).state = .down ∧ (t.link p).width = 0 ∧
      (p = .u → s.boot.posKnown = false → t.regs.chainPos = 0 ∧ t.boot.posKnown = true) ∧
      (p = .t → s.regs.paired = false → t.partner.absent = true) := by
  refine ⟨s.trainingFails p, when_true (by rw [haw, hst]; rfl), ?_⟩
  unfold State.trainingFails
  extract_lets s1 s2 s3
  have k1 : s1.Canonical := portFalls_canonical k p
  have h1 : s1.link p = { s.link p with state := .down, width := 0, downSince := some s.now } := portFalls_link k p
  have m1 : Moves [.rings, .counters, .links, .sec, .out] s s1 := State.portFalls_moves (.refl _ s) rfl
  have hb1 : s1.boot = s.boot := m1.frame .boot (by decide)
  have hr1 : s1.regs = s.regs := m1.frame .regs (by decide)
  clear_value s1
  have h2 : s2.Canonical ∧ (s2.link p).state = .down ∧ (s2.link p).width = 0 := by
    unfold s2
    split
    · obtain ⟨hs, hw⟩ := learnPosition_link k1 0 p
      exact ⟨(State.learnPosition_moves (.refl [.boot, .regs, .rings, .counters, .jobs, .links, .partner, .sec, .out] s1) rfl).canon k1,
        hs.trans (by rw [h1]), hw.trans (by rw [h1])⟩
    · exact ⟨k1, by rw [h1], by rw [h1]⟩
  have hp2 : p = .u → s.boot.posKnown = false → s2.regs.chainPos = 0 ∧ s2.boot.posKnown = true := fun hp hk => by
    unfold s2
    rw [if_pos hp]
    exact learnPosition_place (by rw [hb1]; exact hk) 0
  have hr2 : p ≠ .u → s2 = s1 := fun hp => if_neg hp
  clear_value s2
  have h3 : PortsSend s2 s3 := .ite (.of_moves (State.event_moves (State.modPartner_moves (.refl _ s2) rfl) rfl)) (.refl s2)
  have p3 : PlaceKept s2 s3 := .ite (.of_moves (State.event_moves (State.modPartner_moves (.refl _ s2) rfl) rfl)) (.refl s2)
  obtain ⟨k2, hs2, hw2⟩ := h2
  have hl := (h3.trans (.linkStep s3)).links k2 p
  have hplace := p3.trans (linkStep_placeKept s3)
  refine ⟨hl.state.trans hs2, hl.width.trans hw2, fun hp hk => ?_, fun hp hk => ?_⟩
  · obtain ⟨hc, hn⟩ := hp2 hp hk
    exact ⟨hplace.pos.trans hc, hplace.known.trans hn⟩
  · have hm : Moves [.boot, .regs, .rings, .counters, .jobs, .sec, .out] s3 s3.linkStep := State.linkStep_moves (.refl _ s3) rfl
    rw [hm.frame .partner (by decide)]
    unfold s3
    rw [if_pos (by rw [hp, hr2 (by rw [hp]; decide), hr1, hk]; rfl), event_partner]
    rfl

/-! ### A flit that is torn inside (R270) -/

/-- Where a change leaves the default alone, a table that is changed entry by entry reads the changed entry. -/
theorem get_map {α : Type} {d : α} {h : Nat → α → α} (hd : ∀ k, h k d = d) (k : Nat) :
    ∀ t : Tbl α, Tbl.get d k (t.map fun x => (x.1, h x.1 x.2)) = h k (Tbl.get d k t)
  | [] => (hd k).symm
  | (j, v) :: t => by
    simp only [List.map_cons, Tbl.get]
    split
    · next e => rw [e]
    · split
      · exact (hd k).symm
      · exact get_map hd k t

theorem get_mapVals_map {α : Type} [DecidableEq α] {d : α} {h : Nat → α → α} (hd : ∀ k, h k d = d) (k : Nat) {t : Tbl α} (hr : Tbl.Rising t) :
    Tbl.get d k (Tbl.mapVals d id (t.map fun x => (x.1, h x.1 x.2))) = h k (Tbl.get d k t) := by
  have he := get_mapVals (d := d) (f := id) rfl k (Tbl.rising_map (g := fun x => (x.1, h x.1 x.2)) (fun _ => rfl) hr)
  exact he.trans (get_map hd k t)

/-- A call whose step a warm reset abandons is ready to start it again (R343, R347). -/
def Entry.abandoned (cs : List Nat) (k : Nat) (e : Entry) : Entry :=
  if cs.contains k && e.state == .running then { e with state := .ready, issuedPrompt := e.prefilled } else e

theorem abandoned_free (cs : List Nat) (k : Nat) : ({} : Entry).abandoned cs k = {} :=
  if_neg (by rw [Bool.and_eq_true]; exact fun h => absurd h.2 (by decide))

theorem abandonSteps_call {s : State} (c : s.Canonical) (k : Nat) : ∃ cs, (s.abandonSteps).call k = (s.call k).abandoned cs k := by
  unfold State.abandonSteps
  extract_lets kept gone cs s1 s2
  have h1 : Moves [.counters] s s1 := (State.count_moves (.refl _ s) rfl).ite (.refl _ s)
  have c1 := h1.canon c
  have hcalls : s2.calls = s.calls :=
    ((State.freeOld_moves (.refl [.rings, .counters, .mem, .sec, .out] _) rfl).frame .calls (by decide)).trans (h1.frame .calls (by decide))
  refine ⟨cs, ?_⟩
  have hmap : (s2.calls.map fun (x : Nat × Entry) =>
      if cs.contains x.1 && x.2.state == .running then (x.1, { x.2 with state := .ready, issuedPrompt := x.2.prefilled }) else x) =
      s.calls.map fun x => (x.1, x.2.abandoned cs x.1) := by
    rw [hcalls]
    refine List.map_congr_left fun x _ => ?_
    unfold Entry.abandoned
    split <;> rfl
  show Tbl.get ({} : Entry) k (Tbl.mapVals {} id (s2.calls.map _)) = _
  rw [hmap]
  exact get_mapVals_map (h := fun k e => e.abandoned cs k) (abandoned_free cs) k (Tbl.rising_of_wf c.calls)

/-- A warm reset leaves the steps and tokens that its calls have behind them (R331, R343). -/
theorem warmReset_progress {s : State} (c : s.Canonical) (n k : Nat) : ((s.warmReset n).call k).step = (s.call k).step ∧
    ((s.warmReset n).call k).generated = (s.call k).generated := by
  have hf : Moves [.rings, .out] s (s.flushAll (s.rings.map fun r => ringOf r.1)) := State.flushAll_moves (.refl _ s) rfl
  obtain ⟨cs, hc⟩ := abandonSteps_call (hf.canon c) k
  have he : (s.warmReset n).call k = (s.call k).abandoned cs k := by
    rw [← call_congr (hf.frame .calls (by decide)) k, ← hc]
    rfl
  rw [he]
  unfold Entry.abandoned
  split <;> exact ⟨rfl, rfl⟩

/-- A command that is a flit is taken as one, on its ports and channels (Table 13-5). -/
theorem exec_carried {c : Instr} {hd : FlitHdr} {ports : List Port} {channels : List Nat} {s : State}
    (h : Instr.carriedBy c = some (hd, ports, channels)) (hr : ∀ h r, c = .retakeReq h r → s.power.dstate ≠ .d2) :
    ∃ row act, exec c s = s.onFlit row hd ports channels act := by
  unfold Instr.carriedBy at h
  split at h
  case h_1 _ n => cases h; exact ⟨"NAK", fun s => s.nak hd.port n, rfl⟩
  case h_2 _ w g => cases h; exact ⟨"DEGRADE", fun s => s.degradeFlit hd.port w g, rfl⟩
  case h_3 _ pos side posn resumed => cases h; exact ⟨"DISCOVER", fun s => s.discover hd.port pos side posn resumed, rfl⟩
  case h_4 _ tick st => cases h; exact ⟨"HEARTBEAT", fun s => s.heartbeat tick.toNat st, rfl⟩
  case h_5 _ ticks warm sleep => cases h; exact ⟨"HB_HOLD", fun s => s.hbHold ticks warm sleep, rfl⟩
  case h_6 _ p tag n => cases h; exact ⟨"JOURNAL_ACK", fun s => s.journalAck p tag n, rfl⟩
  case h_7 => cases h; exact ⟨"MIRROR_DROP", State.mirrorDrop, rfl⟩
  case h_8 _ recs => cases h; exact ⟨"JOURNAL", fun s => s.each recs State.takeRecord, rfl⟩
  case h_10 _ p tag n r => cases h; exact ⟨"RETAKE_RESP", fun s => s.retakeResp p tag n r, rfl⟩
  case h_11 => cases h; exact ⟨"ADOPT", fun s => s.adoptFrom hd.port, rfl⟩
  case h_12 _ p tag n toks drafts marks => cases h; exact ⟨"TOKEN_RETURN", fun s => s.tokenReturn hd.channel.toNat p tag n toks drafts marks, rfl⟩
  case h_13 _ epoch image items => cases h; exact ⟨"ACTIVATION", fun s => s.activation hd.port epoch image items, rfl⟩
  case h_14 _ p tag n epoch image marks item => cases h; exact ⟨"RUNNING_SUM", fun s => s.runningSum p tag n epoch image marks item, rfl⟩
  case h_15 _ msg => cases h; exact ⟨"CALL_CTRL", fun s => s.callCtrl hd.port msg, rfl⟩
  case h_16 _ msg => cases h; exact ⟨"CUT_CTRL", fun s => s.cutCtrl hd.port msg, rfl⟩
  case h_17 _ p tag n pos => cases h; exact ⟨"JACK", fun s => s.jack p tag n pos, rfl⟩
  case h_18 _ msg => cases h; exact ⟨"IMAGE", fun s => s.imageIn hd.port msg, rfl⟩
  case h_9 _ r =>
    cases h
    exact ⟨"RETAKE_REQ", fun s => s.retakeReq r, if_neg (hr _ _ rfl)⟩
  case h_19 _ r n =>
    split at h
    · next hx =>
      obtain ⟨_, rfl, he⟩ := Option.map_eq_some_iff.1 h
      cases he
      exact ⟨"DOORBELL", fun s => s.doorbell r n, if_pos hx⟩
    · cases h
  case h_20 => cases h

theorem torn_resets {c : Instr} {hd : FlitHdr} {ports : List Port} {channels : List Nat} {s : State}
    (h : Instr.carriedBy c = some (hd, ports, channels)) (ht : hd.torn = true) (k : s.Canonical) (ha : s.accepts hd = true)
    (hp : hd.port ∈ ports) (hc : hd.channel.toNat ∈ channels) (hrun : s.running = true)
    (hr : ∀ h r, c = .retakeReq h r → s.power.dstate ≠ .d2) :
    ∃ t, exec c s = .next t ∧
      (∀ k, (t.call k).step = (s.call k).step ∧ (t.call k).generated = (s.call k).generated) ∧
      (s.pulseRuns none = false → t.boot.phase = .heldWarm ∧ t.boot.source = 6) ∧
      (s.pulseRuns none = true → t.boot.phase = s.boot.phase ∧ t.boot.heldReset.isSome = true) := by
  obtain ⟨row, act, he⟩ := exec_carried h hr
  have hu : Moves [.counters, .links, .out] s ((s.acceptFlit hd).acknowledge hd.port) :=
    State.acknowledge_moves (acceptFlit_moves s hd) rfl
  refine ⟨_, he.trans (onFlit_torn ha hp hc ht), ?_⟩
  generalize (s.acceptFlit hd).acknowledge hd.port = u at hu
  have hboot : u.boot = s.boot := hu.frame .boot (by decide)
  have hcalls : u.calls = s.calls := hu.frame .calls (by decide)
  have hpulse : u.pulseRuns none = s.pulseRuns none := by rw [State.pulseRuns, hu.frame .tiles (by decide)]; rfl
  have hurun : u.running = true := by rw [State.running, hboot]; exact hrun
  rw [← hpulse]
  cases hpu : u.pulseRuns none with
  | false =>
    rw [resetArrives_warm hurun hpu]
    refine ⟨fun j => ?_, fun _ => ⟨rfl, rfl⟩, fun h => absurd h (by decide)⟩
    rw [← call_congr hcalls j]
    exact warmReset_progress (hu.canon k) 6 j
  | true =>
    obtain ⟨x, hx, -⟩ := resetArrives_held hpu false 6
    rw [hx]
    refine ⟨fun j => ?_, fun h => absurd h (by decide), fun _ => ⟨(congrArg Boot.phase hboot :), rfl⟩⟩
    rw [← call_congr hcalls j]
    exact ⟨rfl, rfl⟩

/-- Settles O56: a port's sending changes its numbers, its replay buffer, its credits and its queue alone, so each event's own change of
the port stands after what it sends. That a place beyond 15 is held as 15 (log 186), that a sound unit is not answered while a port
discards (log 66) and that a port trains from DOWN too (log 64) are the model's choices. -/
theorem linksKeepTheirFlits : Obligations.LinksKeepTheirFlits := by
  unfold Obligations.LinksKeepTheirFlits
  exact ⟨fun _ _ k ha hc => ack_taken k ha hc, fun _ _ _ k h hv => nak_acts k h hv,
    fun _ _ _ k haw hl hw hb => flitDiscard_answers k haw hl hw hb, fun _ _ _ _ k h => degrade_acts k h,
    fun _ _ _ _ _ _ k h => discover_acts k h, fun _ _ k h => chainBreak_acts k h,
    fun _ _ _ _ k haw hb hst => portTrained_acts k haw hb hst, fun _ _ _ _ _ k haw hl hlane hm => laneWeak_acts k haw hl hlane hm,
    fun _ _ k haw hi hl hm => replayMax_acts k haw hi hl hm, fun _ _ k haw hst => portDown_acts k haw hst,
    fun _ _ _ _ _ h ht k ha hp hc hrun hr => torn_resets h ht k ha hp hc hrun hr⟩

end Sys2Proof.Machine

/-! PROOFS. The twin: heartbeats and holds, the journal and its acknowledgements, retakes asked and served, mirrors that go (R278 to
R288, R318, R319, R346, R372). -/

namespace Sys2Proof.Machine

/-! ### Steps that try to move (R280, R316, R317) -/

/-- A step that has tried to move: at most its mark has gone to the partner and its JACK downstream. -/
def Step.TriedMove (x y : Step) : Prop := y = { x with marked := y.marked, jackSent := y.jackSent }

/-- From `s` to `t` the steps in flight have tried to move, no more. -/
def StepsTried (s t : State) : Prop := ∃ f : Step → Step, (∀ x : Step, x.TriedMove (f x)) ∧ t.steps = s.steps.map f

namespace StepsTried
variable {r s t : State}

theorem of_eq (h : t.steps = s.steps) : StepsTried s t := ⟨id, fun _ => rfl, by rw [h, List.map_id]⟩

theorem refl (s : State) : StepsTried s s := of_eq rfl

theorem trans {u : State} (h : StepsTried s t) (k : StepsTried t u) : StepsTried s u := by
  obtain ⟨f, hf, hs⟩ := h
  obtain ⟨g, hg, ht⟩ := k
  refine ⟨g ∘ f, fun x => ?_, by rw [ht, hs, List.map_map]⟩
  have h1 := hf x
  have h2 := hg (f x)
  unfold Step.TriedMove at *
  rw [Function.comp, h2, h1]

theorem modStep (s : State) (c n : Nat) {f : Step → Step} (hf : ∀ x : Step, x.TriedMove (f x)) : StepsTried s (s.modStep c n f) := by
  refine ⟨fun x => if x.call == c && x.step == n then f x else x, fun x => ?_, rfl⟩
  dsimp only
  split
  · exact hf x
  · rfl

theorem ite {c : Prop} [Decidable c] (h : StepsTried r s) (k : StepsTried r t) : StepsTried r (if c then s else t) := by
  split
  · exact h
  · exact k

theorem each {α : Type} {f : State → α → State} (hf : ∀ s x, StepsTried s (f s x)) : ∀ (xs : List α) (s : State), StepsTried s (s.each xs f)
  | [], s => refl s
  | x :: xs, s => (hf s x).trans (each hf xs (f s x))

/-- A step that is found has tried to move and is found. -/
theorem step? (h : StepsTried s t) {c n : Nat} {x : Step} (hx : s.step? c n = some x) : ∃ y, t.step? c n = some y ∧ x.TriedMove y := by
  obtain ⟨f, hf, hs⟩ := h
  refine ⟨f x, ?_, hf x⟩
  unfold State.step? at hx ⊢
  rw [hs, find?_map_of_same _ (fun y => ?_), hx]
  · rfl
  · rw [congrArg Step.call (hf y), congrArg Step.step (hf y)]

theorem mem (h : StepsTried s t) {x : Step} (hx : x ∈ s.steps) : ∃ y ∈ t.steps, x.TriedMove y := by
  obtain ⟨f, hf, hs⟩ := h
  exact ⟨f x, by rw [hs]; exact List.mem_map_of_mem hx, hf x⟩

theorem of_mem (h : StepsTried s t) {y : Step} (hy : y ∈ t.steps) : ∃ x ∈ s.steps, x.TriedMove y := by
  obtain ⟨f, hf, hs⟩ := h
  rw [hs] at hy
  obtain ⟨x, hx, rfl⟩ := List.mem_map.1 hy
  exact ⟨x, hx, hf x⟩

end StepsTried

theorem moveStep_tried (s : State) (c n : Nat) : StepsTried s (s.moveStep c n) := by
  unfold State.moveStep
  split
  · exact .refl s
  · extract_lets e toks s1
    clear_value toks
    have h1 : StepsTried s s1 := by
      unfold s1
      split
      · exact .refl s
      · exact .ite ((StepsTried.modStep s c n (f := fun x => { x with marked := true }) fun _ => rfl).trans (.of_eq ((State.journal_moves (.refl [.counters, .links, .out] _) rfl).frame
          .steps (by decide)))) (.refl s)
    split
    · exact h1
    · exact .ite ((h1.trans (.modStep s1 c n (f := fun x => { x with jackSent := true }) fun _ => rfl)).trans (.of_eq ((State.send_moves (.refl [.counters, .links, .out] _) rfl).frame
        .steps (by decide)))) h1

theorem moveAll_tried (s : State) : StepsTried s s.moveAll := .each (fun s (k : Nat × Nat) => moveStep_tried s k.1 k.2) _ s

/-- Every premium step may commit once the partner no longer answers (R281). -/
theorem withoutPartner_acked (s : State) : ∀ x ∈ s.withoutPartner.steps, x.premium = true → x.acked = true := by
  intro y hy hp
  have hm : Moves [.counters, .calls, .links, .out] s.ackAll s.ackAll.unmirrorAll := State.unmirrorAll_moves (.refl _ _) rfl
  obtain ⟨x, hx, hxy⟩ := (moveAll_tried s.ackAll.unmirrorAll).of_mem hy
  rw [hm.frame .steps (by decide)] at hx
  obtain ⟨z, -, rfl⟩ := List.mem_map.1 hx
  rw [congrArg Step.premium hxy] at hp
  rw [congrArg Step.acked hxy]
  dsimp only at hp ⊢
  split
  · rfl
  · next hz => rw [if_neg hz] at hp; exact absurd hp hz

theorem withoutPartner_partner (s : State) : s.withoutPartner.partner = s.partner :=
  (State.withoutPartner_moves (.refl [.counters, .calls, .steps, .links, .out] s) rfl).frame .partner (by decide)

/-! ### Heartbeats and holds (R278, R283, R346, R372) -/

theorem heartbeat_paired {u : State} (hp : u.regs.paired = true) (tick : Nat) (st : HbState) :
    let v := (u.heartbeat tick st).partner
    v.misses = 0 ∧ v.lastBeat = u.now ∧ v.timer = u.now ∧ v.lost = false ∧ v.fenced = false ∧
      v.offset = (u.now : Int) - (tick : Int) - 73 := by
  unfold State.heartbeat
  rw [hp, if_neg (by decide)]
  dsimp only
  split
  · rw [event_partner]
    exact ⟨rfl, rfl, rfl, rfl, rfl, rfl⟩
  · exact ⟨rfl, rfl, rfl, rfl, rfl, rfl⟩

theorem heartbeat_acts {hd : FlitHdr} {tick : BitVec 64} {st : HbState} {s : State} (h : s.FlitReady hd [.t] [0]) :
    ∃ t, exec (.heartbeat hd tick st) s = .next t ∧
      (s.regs.paired = true → t.partner.misses = 0 ∧ t.partner.lastBeat = s.now ∧ t.partner.timer = s.now ∧ t.partner.lost = false ∧
        t.partner.fenced = false ∧ t.partner.offset = (s.now : Int) - (tick.toNat : Int) - 73) ∧
      (s.regs.paired = false → t.partner = s.partner) := by
  have hu := acceptFlit_moves s hd
  refine ⟨_, onFlit_next h "HEARTBEAT" fun s => s.heartbeat tick.toNat st, ?_⟩
  generalize s.acceptFlit hd = u at hu
  have hregs : u.regs = s.regs := hu.frame .regs (by decide)
  have hnow : u.now = s.now := congrArg BitVec.toNat (hu.frame .tick (by decide))
  have hack : ((u.heartbeat tick.toNat st).acknowledge hd.port).partner = (u.heartbeat tick.toNat st).partner :=
    (acknowledge_moves _ hd.port).frame .partner (by decide)
  rw [hack, ← hregs, ← hnow]
  refine ⟨fun hp => heartbeat_paired hp tick.toNat st, fun hp => ?_⟩
  rw [State.heartbeat, hp]
  exact hu.frame .partner (by decide)

theorem hbHold_acts {hd : FlitHdr} {ticks : Nat} {warm sleep : Bool} {s : State} (h : s.FlitReady hd [.t] [0]) :
    ∃ t, exec (.hbHold hd ticks warm sleep) s = .next t ∧
      t.partner = { s.partner with holdUntil := some (s.now + ticks), warmHold := warm, sleeping := s.partner.sleeping || sleep } ∧
      ((warm || sleep) = true → ∀ x ∈ t.steps, x.premium = true → x.acked = true) := by
  have hu := acceptFlit_moves s hd
  refine ⟨_, onFlit_next h "HB_HOLD" fun s => s.hbHold ticks warm sleep, ?_⟩
  generalize s.acceptFlit hd = u at hu
  have hpartner : u.partner = s.partner := hu.frame .partner (by decide)
  have hnow : u.now = s.now := congrArg BitVec.toNat (hu.frame .tick (by decide))
  have hack := acknowledge_moves (u.hbHold ticks warm sleep) hd.port
  rw [hack.frame .partner (by decide), hack.frame .steps (by decide), ← hpartner, ← hnow]
  unfold State.hbHold
  extract_lets v
  cases hws : warm || sleep with
  | false => exact ⟨rfl, fun h => absurd h (by decide)⟩
  | true =>
    rw [if_pos rfl, withoutPartner_partner]
    exact ⟨rfl, fun _ => withoutPartner_acked v⟩

theorem heartbeatSend_acts {s : State} (k : s.Canonical) (h : s.beatDue = true) :
    ∃ t, exec .heartbeatSend s = .next t ∧ t.partner = { s.partner with sentAt := s.now } ∧
      Sent s t .t 0 (.heartbeat s.tick (if s.boot.phase = .warmStart then .hold else .serving)) := by
  let u := s.modPartner fun p => { p with sentAt := s.now }
  have hu : Moves [.partner] s u := State.modPartner_moves (.refl _ s) rfl
  refine ⟨s.sendBeat, when_true h, ?_, ?_⟩
  · exact (State.send_moves (.refl [.counters, .links, .out] u) rfl).frame .partner (by decide)
  · exact (send_sent (hu.canon k) .t 0 _).after hu.grows

/-! ### Mirrors that go (R287, R288) -/

/-- A released entry's flits stay: what is freed reaches the partner and the chain as flits of their own (R279). -/
theorem releaseEntry_kept (s : State) (c : Nat) : FlitsKept s (s.releaseEntry c) := by
  unfold State.releaseEntry
  extract_lets e s1
  refine .ite (.refl s) ?_
  have h1 : FlitsKept s s1 := .of_moves (State.releaseHoldings_moves (State.dropWork_moves (.refl _ s) rfl) rfl)
  exact (h1.trans (setCall_kept s1 c {})).trans (afterFree_kept _ _)

theorem free_settled : Settled (fun e => e.state = .free) where
  freed _ _ _ := rfl
  charged _ hf hq := by
    rw [hf] at hq
    cases hq

/-- A free entry stays free while another is released. -/
theorem releaseEntry_free (s : State) (c d : Nat) : Stays (fun e => e.state = .free) c s (s.releaseEntry d) := by
  unfold State.releaseEntry
  extract_lets e s1
  split
  · exact .refl s
  · have h1 : Stays (fun e => e.state = .free) c s s1 := .of_moves (State.releaseHoldings_moves (State.dropWork_moves (.refl _ s) rfl) rfl)
    exact (h1.trans (.setCall s1 fun _ => rfl)).trans (afterFree_stays _ free_settled _)

theorem releaseEntry_frees {s : State} (k : s.Canonical) (c : Nat) : ((s.releaseEntry c).call c).state = .free := by
  by_cases h : (s.call c).state = .free
  · exact (releaseEntry_free s c c).kept k h
  · rw [releaseEntry_empties k h]

theorem mirrorDrop_acts {hd : FlitHdr} {s : State} (k : s.Canonical) (h : s.FlitReady hd [.t] [0]) :
    ∃ t, exec (.mirrorDrop hd) s = .next t ∧ ∀ c, (s.call c).state = .mirror → (t.call c).state = .free := by
  have hu := acceptFlit_moves s hd
  refine ⟨_, onFlit_next h "MIRROR_DROP" State.mirrorDrop, fun c hc => ?_⟩
  generalize s.acceptFlit hd = u at hu
  rw [call_congr ((acknowledge_moves u.mirrorDrop hd.port).frame .calls (by decide))]
  have hcs : c ∈ u.callsWhere fun e => decide (e.state = .mirror) := by
    rw [mem_callsWhere (hu.canon k), call_congr (hu.frame .calls (by decide)), hc]
    exact ⟨by decide, rfl⟩
  exact each_establishes (P := fun e => e.state = .free) (fun s d => releaseEntry_free s c d) (fun s k => releaseEntry_frees k c) hcs (hu.canon k)

theorem mirrorKeepExpiry_acts {c a : Nat} {s : State} (k : s.Canonical) (hm : (s.call c).state = .mirror) (hb : (s.call c).brokenAt = some a)
    (hn : a + 2 ^ 28 ≤ s.now) : ∃ t, exec (.mirrorKeepExpiry c) s = .next t ∧ (t.call c).state = .free := by
  refine ⟨s.releaseEntry c, ?_, releaseEntry_frees k c⟩
  show execMirrorKeepExpiry c s = _
  rw [execMirrorKeepExpiry, hb]
  exact when_true (by rw [hm, decide_eq_true hn]; rfl)

/-! ### The journal (R279, R280) -/

theorem allocPage_kept (s : State) (c layer i h : Nat) : FlitsKept s (s.allocPage c layer i h) := by
  unfold State.allocPage
  extract_lets e st n seed
  split
  · exact .refl s
  · extract_lets v a s1 s2 s3
    have h1 : FlitsKept s s1 := .of_moves (Moves.modMem (.refl _ s) Mem.wf_runs (by decide))
    have h2 : FlitsKept s s2 := h1.trans (modCall_kept s1 c _)
    have h3 : FlitsKept s2 s3 := .of_moves (State.clearBlocks_moves (State.clearBlocks_moves (.refl _ s2) rfl) rfl)
    exact (h2.trans h3).quiet (State.watchFrames_moves (State.count_moves (.refl _ s3) rfl) rfl)

theorem writeKv_kept (s : State) (c layer page slot : Nat) (heads : List (Bytes × Bytes × Bytes × Bytes)) :
    FlitsKept s (s.writeKv c layer page slot heads) := by
  unfold State.writeKv
  extract_lets fmt h s1 v a
  have h1 : FlitsKept s s1 := .ite (allocPage_kept s _ _ _ _) (.refl s)
  clear_value s1
  split
  · exact h1
  · refine h1.quiet ((Moves.refl _ s1).each fun u x hu => ?_)
    exact State.narrowWrite_moves (State.wideWrite_moves (State.narrowWrite_moves (State.wideWrite_moves hu rfl) rfl) rfl) rfl

theorem takeRecord_kept (s : State) (r : JournalRec) : FlitsKept s (s.takeRecord r) := by
  have hcall : ∀ (c : Nat) (f : Entry → Entry), FlitsKept s { s with calls := Tbl.update {} c f s.calls } := fun c f => setCall_kept s c _
  cases r with
  | entry p tag off b =>
    dsimp only [State.takeRecord]
    split
    · exact .of_moves (State.patchMirror_moves (.refl _ s) rfl)
    · exact .of_moves (State.makeMirror_moves (.refl _ s) rfl)
  | prompt p tag ts =>
    dsimp only [State.takeRecord]
    split
    · exact hcall _ _
    · exact .refl s
  | kv p tag layer page slot heads =>
    dsimp only [State.takeRecord]
    split
    · exact writeKv_kept s _ _ _ _ _
    · exact .refl s
  | matte p tag st =>
    dsimp only [State.takeRecord]
    split
    · exact hcall _ _
    · exact .refl s
  | stepMark p tag n ts =>
    dsimp only [State.takeRecord]
    refine .trans ?_ (send_kept _ _ _ _)
    split
    · exact hcall _ _
    · exact .refl s
  | ended p tag st broken =>
    dsimp only [State.takeRecord]
    split
    · exact .ite (hcall _ _) (releaseEntry_kept s _)
    · exact .refl s

/-- A step mark is acknowledged at once (R280). -/
theorem stepMark_acknowledged {s : State} (k : s.Canonical) (p tag n : Nat) (ts : List Nat) :
    Sent s (s.takeRecord (.stepMark p tag n ts)) .t 0 (.journalAck p tag n) := by
  dsimp only [State.takeRecord]
  split
  · next c _ =>
    have h : FlitsKept s { s with calls := Tbl.update {} c (fun e => { e with marks := e.marks ++ [(n, ts)] }) s.calls } := setCall_kept s c _
    exact (send_sent (h.canon k) .t 0 _).after h.grows
  · exact send_sent k .t 0 _

theorem takeRecords_acknowledge {p tag n : Nat} {ts : List Nat} : ∀ {recs : List JournalRec} {s : State}, s.Canonical →
    JournalRec.stepMark p tag n ts ∈ recs → Sent s (s.each recs State.takeRecord) .t 0 (.journalAck p tag n)
  | [], _, _, h => absurd h List.not_mem_nil
  | r :: recs, s, k, h => by
    have h1 := takeRecord_kept s r
    have hrest : FlitsKept (s.takeRecord r) ((s.takeRecord r).each recs State.takeRecord) := .each _ recs takeRecord_kept
    rcases List.mem_cons.1 h with hr | hr
    · subst hr
      exact (stepMark_acknowledged k p tag n ts).kept (h1.canon k) hrest h1.grows
    · exact (takeRecords_acknowledge (h1.canon k) hr).after h1.grows

theorem journal_acts {hd : FlitHdr} {recs : List JournalRec} {s : State} (k : s.Canonical) (h : s.FlitReady hd [.t] [1]) :
    ∃ t, exec (.journal hd recs) s = .next t ∧
      ∀ p tag n ts, JournalRec.stepMark p tag n ts ∈ recs → Sent s t .t 0 (.journalAck p tag n) := by
  have hu := acceptFlit_moves s hd
  refine ⟨_, onFlit_next h "JOURNAL" fun s => s.each recs State.takeRecord, fun p tag n ts hr => ?_⟩
  generalize s.acceptFlit hd = u at hu
  have hk : FlitsKept u (u.each recs State.takeRecord) := .each u recs takeRecord_kept
  exact ((takeRecords_acknowledge (hu.canon k) hr).kept (hk.canon (hu.canon k)) (acknowledge_kept _ hd.port) hk.grows).after hu.grows

theorem journalAck_steps {s : State} {p tag n c : Nat} {x : Step} (ho : s.ownCall p tag = some c) (hx : x ∈ s.steps) (hc : x.call = c)
    (hm : x.marked = true) (hn : x.step ≤ n) : ∃ y ∈ (s.journalAck p tag n).steps, y.call = c ∧ y.step = x.step ∧ y.acked = true := by
  rw [State.journalAck, ho]
  dsimp only
  generalize hv : ({ s with steps := List.map _ s.steps } : State) = v
  have hx' : { x with acked := true } ∈ v.steps := by
    rw [← hv]
    refine List.mem_map.2 ⟨x, hx, if_pos ?_⟩
    rw [hc, hm, decide_eq_true hn, beq_self_eq_true]
    rfl
  obtain ⟨y, hy, hxy⟩ := (StepsTried.each (fun s (k : Nat) => moveStep_tried s c k) _ _).mem hx'
  exact ⟨y, hy, (congrArg Step.call hxy).trans hc, (congrArg Step.step hxy :), (congrArg Step.acked hxy :)⟩

theorem journalAck_acts {hd : FlitHdr} {p tag n : Nat} {s : State} (h : s.FlitReady hd [.t] [0]) :
    ∃ t, exec (.journalAck hd p tag n) s = .next t ∧ ∀ c x, s.ownCall p tag = some c → x ∈ s.steps → x.call = c → x.marked = true →
      x.step ≤ n → ∃ y ∈ t.steps, y.call = c ∧ y.step = x.step ∧ y.acked = true := by
  have hu := acceptFlit_moves s hd
  refine ⟨_, onFlit_next h "JOURNAL_ACK" fun s => s.journalAck p tag n, fun c x ho hx hc hm hn => ?_⟩
  generalize s.acceptFlit hd = u at hu
  rw [(acknowledge_moves _ hd.port).frame .steps (by decide)]
  rw [← hu.frame .steps (by decide)] at hx
  exact journalAck_steps ((ownCall_congr (hu.frame .calls (by decide)) p tag).trans ho) hx hc hm hn

/-! ### Retakes served (R282) -/

theorem mirrorCall_congr {s t : State} (h : t.calls = s.calls) (p tag : Nat) : t.mirrorCall p tag = s.mirrorCall p tag := by
  rw [State.mirrorCall, State.findCall, h]
  rfl

/-- A device that mirrors the call and holds its generation serves the retake. -/
theorem retakeReq_serves {s : State} {q : RetakeReq} (hc : (s.mirrorCall q.p q.tag).isSome = true) (hg : (s.gen? q.image).isSome = true) :
    q ∈ (s.retakeReq q).partner.serving := by
  obtain ⟨c, hc⟩ := Option.isSome_iff_exists.1 hc
  rw [State.retakeReq, hc]
  dsimp only
  rw [if_pos hg]
  generalize hv : s.modPartner _ = v
  have hm : Moves [.rings, .counters, .steps, .tiles, .boughs, .prods, .nextProd, .sums, .links, .faults, .power, .sec, .out] v
      (v.each q.sums fun s i => s.sumReceived { work := { call := c, step := q.step, token := i.token }, matrix := i.matrix, colTile := i.colTile } i) :=
    (Moves.refl _ v).each fun s i h => State.sumReceived_moves h rfl
  rw [hm.frame .partner (by decide), ← hv]
  exact List.mem_append_right _ List.mem_cons_self

theorem retakeReq_refuses {s : State} {q : RetakeReq} (h : s.mirrorCall q.p q.tag = none ∨ s.gen? q.image = none) :
    s.retakeReq q = (s.count Ctr.retakesRefused).send .t 1 (.retakeResp q.p q.tag q.step none) := by
  unfold State.retakeReq
  rcases h with h | h
  · rw [h]
  · split
    · rw [h]
      exact if_neg (by decide)
    · rfl

theorem retakeReq_acts {hd : FlitHdr} {q : RetakeReq} {s : State} (k : s.Canonical) (h : s.FlitReady hd [.t] [1]) (hd2 : s.power.dstate ≠ .d2) :
    ∃ t, exec (.retakeReq hd q) s = .next t ∧
      ((s.mirrorCall q.p q.tag).isSome = true → (s.gen? q.image).isSome = true → q ∈ t.partner.serving) ∧
      (s.mirrorCall q.p q.tag = none ∨ s.gen? q.image = none → Sent s t .t 1 (.retakeResp q.p q.tag q.step none) ∧
        t.partner = s.partner) := by
  have hu := acceptFlit_moves s hd
  refine ⟨_, (if_neg hd2).trans (onFlit_next h "RETAKE_REQ" fun s => s.retakeReq q), ?_⟩
  generalize s.acceptFlit hd = u at hu
  rw [(acknowledge_moves _ hd.port).frame .partner (by decide), ← mirrorCall_congr (hu.frame .calls (by decide)),
    ← gen?_congr (hu.frame .weights (by decide))]
  refine ⟨retakeReq_serves, fun hr => ?_⟩
  rw [retakeReq_refuses hr]
  have hv : Moves [.counters] u (u.count Ctr.retakesRefused) := State.count_moves (.refl _ u) rfl
  have hs : Moves [.counters, .links, .out] (u.count Ctr.retakesRefused) _ :=
    State.send_moves (p := .t) (c := 1) (b := .retakeResp q.p q.tag q.step none) (.refl _ _) rfl
  refine ⟨sent_before_acknowledge (hu.grows.trans hv.grows) (hv.canon (hu.canon k)) _ _ _ _, ?_⟩
  rw [hs.frame .partner (by decide), hv.frame .partner (by decide), hu.frame .partner (by decide)]

/-- A retake's result goes to the partner, and the request leaves the list. -/
theorem retakeServed_acts {s : State} (k : s.Canonical) (c : Nat) (q : RetakeReq) (drafts : List (Nat × List (Nat × F32))) (mask : Option Bytes) :
    let t := s.retakeServed c q drafts mask
    t.partner = { s.partner with serving := s.partner.serving.erase q } ∧
      ∃ r, Sent s t .t 1 (.retakeResp q.p q.tag q.step (some r)) ∧ r.tokens = s.servedTokens c q (s.servedStep c q).1 drafts mask := by
  unfold State.retakeServed
  extract_lets x first n e r s1 s2
  have hd : Moves [.rings, .counters, .tiles, .boughs, .prods, .sums, .handoffs, .acts, .xferWaits, .canopy, .backs, .latches, .attnWaits, .servedKv,
      .servedAttn, .mem, .sec, .out] s (s.dropServed c q.step) := State.dropServed_moves (.refl _ s) rfl
  have h1 : Moves [.partner] (s.dropServed c q.step) s1 := State.modPartner_moves (.refl _ _) rfl
  have h2 : Moves [.counters] s1 (s1.count Ctr.retakesServed) := State.count_moves (.refl _ s1) rfl
  have hp : s1.partner = { s.partner with serving := s.partner.serving.erase q } := by
    rw [← hd.frame .partner (by decide)]
    rfl
  have hs : Moves [.counters, .links, .out] (s1.count Ctr.retakesServed) s2 := State.send_moves (.refl _ _) rfl
  refine ⟨by rw [hs.frame .partner (by decide), h2.frame .partner (by decide), hp], r, ?_, rfl⟩
  exact (send_sent (h2.canon (h1.canon (hd.canon k))) .t 1 _).after (hd.grows.trans (h1.grows.trans h2.grows))

theorem verifiedStepDone_acts {p tag n c : Nat} {q : RetakeReq} {drafts : List (Nat × List (Nat × F32))} {mask : Option Bytes} {s : State}
    (k : s.Canonical) (hq : s.servedNow p tag n = some (c, q)) (hdone : s.servedDone c q = true) :
    ∃ t, exec (.verifiedStepDone p tag n drafts mask) s = .next t ∧
      t.partner = { s.partner with serving := s.partner.serving.erase q } ∧
      ∃ r, Sent s t .t 1 (.retakeResp q.p q.tag q.step (some r)) ∧ r.tokens = s.servedTokens c q (s.servedStep c q).1 drafts mask := by
  refine ⟨s.retakeServed c q drafts mask, ?_, retakeServed_acts k c q drafts mask⟩
  show execVerifiedStepDone p tag n drafts mask s = _
  rw [execVerifiedStepDone, hq]
  exact when_true hdone

/-! ### Retakes asked (R282, R318, R319) -/

theorem moveStep_step? {s : State} {c n : Nat} {x : Step} (hx : s.step? c n = some x) :
    ∃ y, (s.moveStep c n).step? c n = some y ∧ x.TriedMove y := (moveStep_tried s c n).step? hx

/-- A retake that gets no result makes the step go on with the local one, without a bound (R319). -/
theorem settleLocal_goesOn {s : State} {c n : Nat} {x : Step} (hx : s.step? c n = some x) :
    ∃ y, ((s.settleLocal c n).moveStep c n).step? c n = some y ∧ y.retaken = true ∧ y.retake = none ∧ y.unbounded = true := by
  let f : Step → Step := fun x => { x with unbounded := true, retake := none, retaken := true }
  let v := s.modStep c n f
  have hv : v.step? c n = some (f x) := step?_modStep_self hx ⟨rfl, rfl⟩
  have hm : Moves [.rings, .counters, .links, .faults, .sec, .out] v (s.settleLocal c n) :=
    State.fault_moves (State.modDaily_moves (State.count_moves (State.releaseOutput_moves (.refl _ v) rfl) rfl) rfl) rfl
  obtain ⟨y, hy, hxy⟩ := moveStep_step? ((step?_congr (hm.frame .steps (by decide)) c n).trans hv)
  exact ⟨y, hy, (congrArg Step.retaken hxy :), (congrArg Step.retake hxy :), (congrArg Step.unbounded hxy :)⟩

/-- The result that comes is the part's outcome (R318). -/
theorem applyRetake_applies {s : State} {c n : Nat} {x : Step} (hx : s.step? c n = some x) (a : RetakeSt) (r : RetakeResult) :
    ∃ y, (s.applyRetake c x a r).step? c n = some y ∧ y.retaken = true ∧ y.retake = some { a with applied := true } ∧ y.output = r.output ∧
      y.outSums = r.sums := by
  have hn : x.step = n := by
    have h := step?_name hx
    rw [Bool.and_eq_true] at h
    exact eq_of_beq h.2
  subst hn
  unfold State.applyRetake
  extract_lets s1 d s2 s3 s4
  have h1 : Moves [.rings, .counters, .calls, .mem, .links, .sec, .out] s s1 := (Moves.refl _ s).each fun u r hu => by
    split
    · exact State.writeKv_moves hu rfl
    · exact hu
  have h3 : Moves [.rings, .counters, .calls, .mem, .links, .faults, .sec, .out] s s3 :=
    State.modDaily_moves (State.count_moves (State.fault_moves (h1.mono (by decide)) rfl) rfl) rfl
  have hx3 : s3.step? c x.step = some x := (step?_congr (h3.frame .steps (by decide)) c x.step).trans hx
  clear_value s3
  have hx4 : s4.step? c x.step = some { x with
      retake := some { a with applied := true }, retaken := true, output := r.output, outSums := r.sums,
      returned := if s3.isLast then some r.tokens else none } := by
    exact step?_modStep_self (f := fun (y : Step) => { y with
      retake := some { a with applied := true }, retaken := true, output := r.output, outSums := r.sums,
      returned := if s3.isLast then some r.tokens else none }) hx3 ⟨rfl, rfl⟩
  clear_value s4
  have h5 : Moves [.counters, .links, .out] s4 (s4.releaseOutput c x.step) := State.releaseOutput_moves (.refl _ s4) rfl
  obtain ⟨y, hy, hxy⟩ := moveStep_step? ((step?_congr (h5.frame .steps (by decide)) c x.step).trans hx4)
  exact ⟨y, hy, (congrArg Step.retaken hxy :), (congrArg Step.retake hxy :), (congrArg Step.output hxy :), (congrArg Step.outSums hxy :)⟩

theorem retakeResp_retakes {s : State} {p tag n c : Nat} {x : Step} {a : RetakeSt} (r : Option RetakeResult) (ho : s.ownCall p tag = some c)
    (hx : s.step? c n = some x) (hr : x.retake = some a) (ha : a.applied = false) :
    ∃ y, (s.retakeResp p tag n r).step? c n = some y ∧ y.retaken = true ∧ (r = none → y.retake = none ∧ y.unbounded = true) ∧
      ∀ u, r = some u → y.retake = some { a with applied := true } ∧ y.output = u.output ∧ y.outSums = u.sums := by
  have hna : ¬ a.applied = true := by rw [ha]; decide
  unfold State.retakeResp
  rw [ho]
  dsimp only
  rw [hx]
  dsimp only
  rw [hr]
  cases r with
  | none =>
    obtain ⟨y, hy, h1, h2, h3⟩ := settleLocal_goesOn hx
    dsimp only
    rw [if_neg hna]
    exact ⟨y, hy, h1, fun _ => ⟨h2, h3⟩, nofun⟩
  | some u =>
    obtain ⟨y, hy, h1, h2, h3, h4⟩ := applyRetake_applies hx a u
    dsimp only
    rw [if_neg hna]
    refine ⟨y, hy, h1, nofun, fun w hw => ?_⟩
    cases hw
    exact ⟨h2, h3, h4⟩

theorem retakeResp_acts {hd : FlitHdr} {p tag n c : Nat} {r : Option RetakeResult} {x : Step} {a : RetakeSt} {s : State}
    (h : s.FlitReady hd [.t] [1]) (ho : s.ownCall p tag = some c) (hx : s.step? c n = some x) (hr : x.retake = some a) (ha : a.applied = false) :
    ∃ t, exec (.retakeResp hd p tag n r) s = .next t ∧ ∃ y, t.step? c n = some y ∧ y.retaken = true ∧
      (r = none → y.retake = none ∧ y.unbounded = true) ∧
      ∀ u, r = some u → y.retake = some { a with applied := true } ∧ y.output = u.output ∧ y.outSums = u.sums := by
  have hu := acceptFlit_moves s hd
  refine ⟨_, onFlit_next h "RETAKE_RESP" fun s => s.retakeResp p tag n r, ?_⟩
  generalize s.acceptFlit hd = u at hu
  rw [step?_congr ((acknowledge_moves _ hd.port).frame .steps (by decide))]
  exact retakeResp_retakes r ((ownCall_congr (hu.frame .calls (by decide)) p tag).trans ho)
    ((step?_congr (hu.frame .steps (by decide)) c n).trans hx) hr ha

theorem retakeTimeout_acts {p tag n c : Nat} {s : State} (h : s.retakeOverdue p tag n = some c) :
    ∃ t, exec (.retakeTimeout p tag n) s = .next t ∧ ∃ y, t.step? c n = some y ∧ y.retaken = true ∧ y.retake = none ∧
      y.unbounded = true := by
  have hx : ∃ x, s.step? c n = some x := by
    unfold State.retakeOverdue at h
    split at h
    · cases h
    · next d _ =>
      split at h
      · next hany =>
        cases h
        obtain ⟨hx, -⟩ := (Option.any_eq_true_iff_get _ _).1 hany
        exact ⟨_, (Option.some_get hx).symm⟩
      · cases h
  obtain ⟨x, hx⟩ := hx
  refine ⟨(s.settleLocal c n).moveStep c n, ?_, settleLocal_goesOn hx⟩
  show execRetakeTimeout p tag n s = _
  rw [execRetakeTimeout, h]

/-! ### A miss (R283, R284) -/

theorem declareLost_lost (s : State) : s.declareLost.partner.lost = true ∧ ∀ x ∈ s.declareLost.steps, x.premium = true → x.acked = true := by
  unfold State.declareLost
  extract_lets v
  have hv : v.partner.lost = true := by
    unfold v
    rw [event_partner]
    rfl
  have he : Moves [.rings, .counters, .steps, .links, .faults, .sec, .out] v (v.each v.retaking fun s k => s.settleLocal k.1 k.2) :=
    (Moves.refl _ v).each fun u k hu => State.settleLocal_moves hu rfl
  refine ⟨?_, withoutPartner_acked _⟩
  rw [withoutPartner_partner, he.frame .partner (by decide), hv]

theorem declareLost_kept (s : State) : s.declareLost.partner.misses = s.partner.misses ∧ s.declareLost.now = s.now ∧ s.declareLost.regs = s.regs := by
  unfold State.declareLost
  extract_lets v
  have hp : v.partner.misses = s.partner.misses := by
    unfold v
    rw [event_partner]
    rfl
  have hv : Moves [.partner, .rings, .counters, .sec, .out] s v := State.event_moves (State.modPartner_moves (.refl _ s) rfl) rfl
  have he : Moves [.rings, .counters, .steps, .links, .faults, .sec, .out] v (v.each v.retaking fun s k => s.settleLocal k.1 k.2) :=
    (Moves.refl _ v).each fun u k hu => State.settleLocal_moves hu rfl
  have hw : Moves [.rings, .counters, .calls, .steps, .links, .faults, .sec, .out] v _ := State.withoutPartner_moves (he.mono (by decide)) rfl
  refine ⟨?_, ?_, ?_⟩
  · rw [hw.frame .partner (by decide), hp]
  · exact congrArg BitVec.toNat ((hw.frame .tick (by decide)).trans (hv.frame .tick (by decide)))
  · exact (hw.frame .regs (by decide)).trans (hv.frame .regs (by decide))

theorem fencePartner_fences (s : State) : s.fencePartner.pins.fenceOut = true ∧ s.fencePartner.partner = { s.partner with fenced := true, fenceAt := some s.now } ∧
    s.fencePartner.steps = s.steps := by
  unfold State.fencePartner
  refine ⟨?_, ?_, ?_⟩
  · exact congrArg Pins.fenceOut ((State.event_moves (.refl [.rings, .counters, .sec, .out] _) rfl).frame .pins (by decide))
  · rw [event_partner]
    rfl
  · exact ((State.event_moves (.refl [.rings, .counters, .sec, .out] _) rfl).frame .steps (by decide))

/-- What the miss itself changes, before a loss and a fence. -/
theorem heartbeatMissed_acts {s : State} :
    let t := s.heartbeatMissed
    t.partner.misses = s.partner.misses + 1 ∧
      (s.partner.misses = 9 → t.partner.lost = true ∧ ∀ x ∈ t.steps, x.premium = true → x.acked = true) ∧
      ((s.partner.misses = 9 ∧ s.regs.side = false ∨ s.partner.misses = 19 ∧ s.regs.side = true) → s.pins.fenceIn = false →
        t.pins.fenceOut = true ∧ t.partner.fenced = true ∧ t.partner.fenceAt = some s.now) := by
  unfold State.heartbeatMissed
  extract_lets n s1 mayFence s2 t
  have hpins : s1.pins = s.pins := (State.modPartner_moves (State.count_moves (.refl [.counters, .partner] s) rfl) rfl).frame .pins (by decide)
  have hregs : s1.regs = s.regs := (State.modPartner_moves (State.count_moves (.refl [.counters, .partner] s) rfl) rfl).frame .regs (by decide)
  have hnow : s1.now = s.now := rfl
  have hm1 : s1.partner.misses = n := rfl
  clear_value s1
  obtain ⟨hm2, hn2, hr2⟩ : s2.partner.misses = n ∧ s2.now = s.now ∧ s2.regs = s.regs := by
    obtain ⟨hm, hn, hr⟩ := declareLost_kept s1
    unfold s2
    split
    · exact ⟨hm.trans hm1, hn.trans hnow, hr.trans hregs⟩
    · exact ⟨hm1, hnow, hregs⟩
  have hl2 : n = 10 → s2.partner.lost = true ∧ ∀ x ∈ s2.steps, x.premium = true → x.acked = true := fun hn => by
    unfold s2
    rw [if_pos hn]
    exact declareLost_lost s1
  clear_value s2
  obtain ⟨hf1, hf2, hf3⟩ := fencePartner_fences s2
  unfold t
  split
  · refine ⟨by rw [hf2]; exact hm2, fun h9 => ?_, fun _ _ => ?_⟩
    · rw [hf2, hf3]
      exact hl2 (by omega)
    · rw [hf2]
      exact ⟨hf1, rfl, congrArg some hn2⟩
  · next hno =>
    refine ⟨hm2, fun h9 => hl2 (by omega), fun h hin => absurd ?_ hno⟩
    have hmay : mayFence = true := by
      unfold mayFence
      rw [hpins, hin]
      rfl
    rw [hmay, hr2]
    simp only [Bool.true_and, decide_eq_true_eq]
    exact h.imp (And.imp_left fun h9 => congrArg (· + 1) h9) (And.imp_left fun h19 => congrArg (· + 1) h19)

theorem heartbeatMiss_acts {s : State} (ha : s.awake = true)
    (hs : s.running = false → s.stepDone? (if s.boot.phase = .warmStart then 5 else 8) = true) (hp : s.regs.paired = true)
    (hsl : s.partner.sleeping = false) (hi : s.isolated = false) (hd : s.power.dstate ≠ .d3) (hm : s.missFrom + 31250 ≤ s.now) :
    exec .heartbeatMiss s = .next s.heartbeatMissed := by
  have hawake : (s.running || (s.starting && s.stepDone? (if s.boot.phase = .warmStart then 5 else 8))) = true := by
    cases hr : s.running with
    | true => rfl
    | false =>
      rw [State.awake, hr] at ha
      rw [hs hr, Bool.and_true]
      exact ha
  refine when_true ?_
  rw [hawake, hp, hsl, hi, decide_eq_true hd, decide_eq_true hm]
  rfl

/-- Settles O58, clause by clause from the action of each row between the flit's acceptance and its acknowledgement. That marks are
acknowledged whatever the charge is the model's choice (log 53), as is that a heartbeat never says ADOPTING (log 187); that misses of a
start count only once its ports have trained is too (log 188). -/
theorem partnersWatchAndMirror : Obligations.PartnersWatchAndMirror := by
  unfold Obligations.PartnersWatchAndMirror
  refine ⟨?heartbeat, ?hold, ?journal, ?journalAck, ?retakeReq, ?served, ?retakeResp, ?timeout, ?mirrorDrop, ?beat, ?miss, ?keep⟩
  case heartbeat => exact fun _ _ _ _ h => heartbeat_acts h
  case hold => exact fun _ _ _ _ _ h => hbHold_acts h
  case journal => exact fun _ _ _ k h => journal_acts k h
  case journalAck => exact fun _ _ _ _ _ h => journalAck_acts h
  case retakeReq => exact fun _ _ _ k h hd => retakeReq_acts k h hd
  case served => exact fun _ _ _ _ _ _ _ _ k hq hd => verifiedStepDone_acts k hq hd
  case retakeResp => exact fun _ _ _ _ _ _ _ _ _ _ h ho hx hr ha => retakeResp_acts h ho hx hr ha
  case timeout => exact fun _ _ _ _ _ h => retakeTimeout_acts h
  case mirrorDrop => exact fun _ _ k h => mirrorDrop_acts k h
  case beat => exact fun _ k h => heartbeatSend_acts k h
  case miss => exact fun s ha hs hp hsl hi hd hm => ⟨_, heartbeatMiss_acts ha hs hp hsl hi hd hm, heartbeatMissed_acts⟩
  case keep => exact fun _ _ _ k hm hb hn => mirrorKeepExpiry_acts k hm hb hn

end Sys2Proof.Machine

/-! PROOFS. The memory's own events: buckets, merge buffers, pressure windows, and the ends of retirements, fills and rehashes (R291 to
R306). -/

namespace Sys2Proof.Machine

/-! ### Frames are given back (R161, R255) -/

/-- From `s` to `t` at most frames of the KV region have been given back, and events written or held back. -/
structure FramesBooked (s t : State) : Prop where
  mem : t.mem = { s.mem with runs := t.mem.runs, oldRuns := t.mem.oldRuns, lowRaised := t.mem.lowRaised }
  sec : SecKept s t

/-- Every piece but the memory and the security unit. -/
abbrev bookQuiet : List Field := (.free :: .pending :: everyPiece).filter fun f => f ≠ .mem ∧ f ≠ .sec

namespace FramesBooked
variable {r s t : State}

theorem of_eq (hm : t.mem = s.mem) (hs : t.sec = s.sec) : FramesBooked s t := ⟨by rw [hm], .of_eq hs⟩

theorem refl (s : State) : FramesBooked s s := of_eq rfl rfl

theorem of_moves (h : Moves bookQuiet s t) : FramesBooked s t := of_eq (h.frame .mem (by decide)) (h.frame .sec (by decide))

theorem trans {u : State} (h : FramesBooked s t) (k : FramesBooked t u) : FramesBooked s u :=
  ⟨by rw [k.mem, h.mem], h.sec.trans k.sec⟩

theorem quiet (h : FramesBooked r s) (k : Moves bookQuiet s t) : FramesBooked r t := h.trans (of_moves k)

theorem ite {c : Prop} [Decidable c] (h : FramesBooked r s) (k : FramesBooked r t) : FramesBooked r (if c then s else t) := by
  split
  · exact h
  · exact k

theorem each {α : Type} {f : State → α → State} (hf : ∀ s x, FramesBooked s (f s x)) : ∀ (xs : List α) (s : State), FramesBooked s (s.each xs f)
  | [], s => refl s
  | x :: xs, s => (hf s x).trans (each hf xs (f s x))

theorem merge (h : FramesBooked s t) : t.mem.merge = s.mem.merge := by rw [h.mem]

theorem rehash (h : FramesBooked s t) : t.mem.rehash = s.mem.rehash := by rw [h.mem]

end FramesBooked

section
variable (s : State)

theorem event_booked (e : EventRec) : FramesBooked s (s.event e) :=
  ⟨by rw [(State.event_moves (.refl [.rings, .counters, .sec, .out] s) rfl).frame .mem (by decide)], event_secKept s e⟩

theorem watchFrames_booked (stack : Nat) : FramesBooked s (s.watchFrames stack) := by
  have h (v : BitVec 8) : FramesBooked s (s.modMem fun m => { m with lowRaised := v }) := ⟨rfl, rfl⟩
  unfold State.watchFrames
  exact .ite (.ite (.refl s) ((h _).trans (event_booked _ _))) (h _)

theorem freeRun_booked (stack frame : Nat) : FramesBooked s (s.freeRun stack frame) := by
  have h : FramesBooked s (s.modMem fun m => { m with runs := Tbl.erase (stack * 2 ^ 32 + frame) m.runs }) := ⟨rfl, rfl⟩
  exact (h.quiet (State.count_moves (.refl _ _) rfl)).trans (watchFrames_booked _ stack)

theorem freePages_booked (c : Nat) : FramesBooked s (s.freePages c) := .each (fun s (p : Nat × Nat) => freeRun_booked s (p.2 % 8) (p.2 / 8)) _ s

theorem freeOld_booked : FramesBooked s s.freeOld := by
  unfold State.freeOld
  extract_lets held gone
  have h : FramesBooked s (s.modMem fun m => { m with oldRuns := m.oldRuns.filter held }) := ⟨rfl, rfl⟩
  exact h.trans (.each (fun s (v : Nat) => freeRun_booked s (v % 8) (v / 8)) _ _)

theorem forget_booked (mine : WorkRef → Bool) : FramesBooked s (s.forget mine) := by
  unfold State.forget
  refine .trans ?_ (freeOld_booked _)
  exact .of_eq rfl rfl

theorem dropWork_booked (c : Nat) : FramesBooked s (s.dropWork c) := by
  unfold State.dropWork
  extract_lets ids s1 s2
  have h1 : FramesBooked s s1 := .of_eq rfl rfl
  have h2 : FramesBooked s s2 := h1.trans (forget_booked s1 _)
  exact .ite h2 (h2.trans (.of_eq rfl rfl))

theorem releaseHoldings_booked (c : Nat) : FramesBooked s (s.releaseHoldings c) := by
  unfold State.releaseHoldings
  extract_lets e s1 s2 s3
  have h2 : FramesBooked s s2 := (freePages_booked s c).quiet (State.modPart_moves (.refl _ _) rfl)
  exact .ite (h2.quiet (State.unpinGraft_moves (.refl _ _) rfl)) h2

theorem freeWritten_booked : FramesBooked s s.freeWritten := by
  refine .each (fun s (c : Nat) => ?_) _ s
  dsimp only
  refine (releaseHoldings_booked s c).trans (.trans ?_ (.of_moves (State.afterFree_moves (.refl _ _) rfl)))
  exact ⟨rfl, rfl⟩

theorem endCall_booked (c : Nat) (st : Status) (from_ : Option Port) : FramesBooked s (s.endCall c st from_) := by
  unfold State.endCall
  extract_lets e s1 s2 s3 held s4 s5 s6
  refine .ite (.refl s) ?_
  have h1 : FramesBooked s s1 := .of_moves (State.journal_moves (.refl _ s) rfl)
  have h3 : FramesBooked s s3 := (h1.trans (dropWork_booked s1 c)).quiet
    (State.tellChain_moves (State.countEnd_moves (.refl _ _) rfl) rfl)
  clear_value s3
  have h4 : FramesBooked s s4 := h3.trans ⟨rfl, rfl⟩
  clear_value s4
  have h5 : FramesBooked s s5 := by
    unfold s5
    split
    · exact h4
    · exact h4.quiet (State.completeWith_moves (.refl _ s4) rfl)
  clear_value s5
  have h6 : FramesBooked s s6 := .ite (h5.quiet (State.unpinGraft_moves (.refl _ s5) rfl)) (h5.trans (freeWritten_booked s5))
  exact h6.quiet (State.afterFree_moves (State.completeAll_moves (.refl _ s6) rfl) rfl)

end

/-! ### Buckets (R293) -/

theorem bucketLeak_acts {k : Nat} {s : State} (h : s.leakDue k = true) :
    ∃ t, exec (.bucketLeak k) s = .next t ∧ SameBut [.mem] s t ∧ (t.bucket k).level = (s.bucket k).level - 1 ∧ t.mem.hbm = s.mem.hbm := by
  have hm : Moves [.mem] s (s.bucketLeak k) := State.bucketLeak_moves (.refl _ s) rfl
  let b : Bucket := { s.bucket k with level := (s.bucket k).level - 1, leakAt := (s.bucket k).leakAt + 2 ^ s.regs.bucketLeak.toNat }
  have hb : b ≠ {} := fun he => by
    have hl : (s.bucket k).leakAt + 2 ^ s.regs.bucketLeak.toNat = 0 := congrArg Bucket.leakAt he
    exact absurd hl (Nat.ne_of_gt (Nat.add_pos_right _ (Nat.two_pow_pos _)))
  refine ⟨s.bucketLeak k, when_true h, hm.frame, ?_, rfl⟩
  exact congrArg Bucket.level (Tbl.get_set_of_ne (t := s.mem.buckets) (k := k) hb)

/-! ### Merge buffers (R299) -/

theorem mergeEvict_next {stack channel : Nat} {e : Merge} {flips : Flips} {s : State} (hup : s.memUp = true)
    (hw : Instr.wf (.mergeEvict stack channel flips) = true) (he : s.evictDue stack channel = some e) :
    exec (.mergeEvict stack channel flips) s = .next (s.mergeEvict stack channel e flips) := by
  show execMergeEvict stack channel flips s = _
  rw [execMergeEvict, he]
  exact when_true (by rw [hup, hw]; rfl)

/-- The state that an eviction leaves of the merge buffers: the entry's block is in its channel's no more. -/
def State.mergeDropped (s : State) (stack channel block : Nat) : State := s.modMem fun m => { m with
  merge := Tbl.update [] (stack * 32 + channel) (fun l => l.filter fun x => x.block != block) m.merge }

theorem mergeDropped_moves (s : State) (stack channel block : Nat) : Moves [.mem] s (s.mergeDropped stack channel block) :=
  Moves.modMem (.refl _ s) (fun w => w) rfl

theorem mergeDropped_drops {s : State} (k : Tbl.wf [] s.mem.merge = true) (stack channel block : Nat) :
    ∀ x ∈ Tbl.get [] (stack * 32 + channel) (s.mergeDropped stack channel block).mem.merge, x.block ≠ block := by
  intro x hx
  have hget : Tbl.get [] (stack * 32 + channel) (s.mergeDropped stack channel block).mem.merge =
      (Tbl.get [] (stack * 32 + channel) s.mem.merge).filter fun x => x.block != block := Tbl.get_update_self (Tbl.rising_of_wf k)
  rw [hget] at hx
  exact bne_iff_ne.1 (List.mem_filter.1 hx).2

theorem mergeEvict_eq (s : State) (stack channel : Nat) (e : Merge) (f : Flips) : s.mergeEvict stack channel e f =
    let v := s.mergeDropped stack channel e.block
    if e.bytes.length = 64 then v.mergeLeave e
    else if classify f = .uncorrectable then
      let u := (v.noteRead (e.block * 64) 0 f).count (Ctr.mergeRmw stack)
      match u.pageOwner (e.block * 64) with
      | some c => (u.endCall c .kvUncorr none).settle
      | none => u
    else ((v.noteRead (e.block * 64) 0 f).rewriteDelivered e.block f).mergeLeave e := rfl

/-- Bytes written to HBM change nothing of the memory but its bytes. -/
def HbmWritten (m n : Mem) : Prop := n = { m with hbm := n.hbm }

theorem HbmWritten.foldl {α : Type} {f : Mem → α → Mem} (hf : ∀ m x, HbmWritten m (f m x)) : ∀ (xs : List α) (m : Mem), HbmWritten m (xs.foldl f m)
  | [], _ => rfl
  | x :: xs, m => by
    have h := HbmWritten.foldl hf xs (f m x)
    have h1 := hf m x
    unfold HbmWritten at *
    rw [List.foldl_cons, h, h1]

theorem write_written (m : Mem) (a : Nat) (bs : Bytes) : HbmWritten m (m.write a bs) := rfl

theorem mergeLeave_written (s : State) (e : Merge) : HbmWritten s.mem (s.mergeLeave e).mem := by
  have hc : (s.mergeLeave e).mem = (s.mergeStore e).mem := (State.count_moves (.refl [.counters] _) rfl).frame .mem (by decide)
  rw [hc]
  exact .foldl (fun m _ => write_written m _ _) _ _

theorem rewriteDelivered_written (s : State) (block : Nat) (f : Flips) : HbmWritten s.mem (s.rewriteDelivered block f).mem :=
  .foldl (fun m _ => write_written m _ _) _ _

/-- From a memory `m` to `n` at most the correction buckets have changed. -/
def BucketsNoted (m n : Mem) : Prop := n = { m with buckets := n.buckets }

theorem BucketsNoted.of_eq {m n : Mem} (h : n = m) : BucketsNoted m n := by rw [h]; rfl

/-- What the read of a block itself does to the memory, it does to the buckets (R291, R293). -/
theorem noteRead_noted (s : State) (a cls : Nat) (f : Flips) : BucketsNoted s.mem (s.noteRead a cls f).mem := by
  have hev : ∀ (u : State) (e : EventRec), (u.event e).mem = u.mem := fun u e =>
    (State.event_moves (.refl [.rings, .counters, .sec, .out] u) rfl).frame .mem (by decide)
  unfold State.noteRead
  extract_lets s1
  have h1 : s1.mem = s.mem := by
    unfold s1
    split
    · rfl
    · rfl
  clear_value s1
  rw [← h1]
  split
  · exact .of_eq rfl
  · unfold State.corrected1 State.correctedIn
    dsimp only
    split
    · rw [hev]
      rfl
    · rfl
  · unfold State.uncorrEvent State.uncorrIn
    exact .of_eq (hev _ _)

/-- The byte of a block that a whole entry leaves with. -/
theorem mergeStore_bytes {base : Nat} : ∀ {bs : Tbl Nat} {m : Mem}, m.wf = true → bs.Pairwise (fun x y => x.1 < y.1) →
    (∀ x ∈ bs, (bs.foldl (fun m (x : Nat × Nat) => m.write (base + x.1) [BitVec.ofNat 8 x.2]) m).byte (base + x.1) = BitVec.ofNat 8 x.2) ∧
    ∀ i, (∀ x ∈ bs, x.1 ≠ i) → (bs.foldl (fun m (x : Nat × Nat) => m.write (base + x.1) [BitVec.ofNat 8 x.2]) m).byte (base + i) = m.byte (base + i) := by
  intro bs
  induction bs with
  | nil => exact fun _ _ => ⟨fun _ h => absurd h List.not_mem_nil, fun _ _ => rfl⟩
  | cons y ys ih =>
    intro m hm hp
    obtain ⟨hy, hys⟩ := List.pairwise_cons.1 hp
    have hr := Tbl.rising_of_wf hm
    obtain ⟨hin, hout⟩ := ih (Mem.wf_write (a := base + y.1) (bs := [BitVec.ofNat 8 y.2]) hm) hys
    refine ⟨fun x hx => ?_, fun i hi => ?_⟩
    · rcases List.mem_cons.1 hx with rfl | hx
      · exact (hout x.1 fun z hz => (Nat.ne_of_gt (hy z hz))).trans (Tbl.get_set_self hr)
      · exact hin x hx
    · refine (hout i fun z hz => hi z (List.mem_cons_of_mem _ hz)).trans (Tbl.get_set_ne ?_ hr)
      have := hi y List.mem_cons_self
      omega

theorem mergeEvict_merge (s : State) (stack channel : Nat) (e : Merge) (f : Flips) :
    (s.mergeEvict stack channel e f).mem.merge = (s.mergeDropped stack channel e.block).mem.merge := by
  rw [mergeEvict_eq]
  extract_lets v u
  have hleave : ∀ w : State, (w.mergeLeave e).mem.merge = w.mem.merge := fun w => by rw [mergeLeave_written w e]
  have hread : (v.noteRead (e.block * 64) 0 f).mem.merge = v.mem.merge := by rw [noteRead_noted]
  have hu : u.mem.merge = v.mem.merge := hread
  split
  · exact hleave v
  · split
    · split
      · next c _ =>
        have hset : ((u.endCall c .kvUncorr none).settle).mem = (u.endCall c .kvUncorr none).mem :=
          (State.settle_moves (.refl [.boot, .regs, .rings, .counters, .jobs, .steps, .tiles, .boughs, .prods, .nextOrder, .weights, .links,
            .faults, .power, .sec, .out] _) rfl).frame .mem (by decide)
        rw [hset, (endCall_booked u c .kvUncorr none).merge, hu]
      · exact hu
    · rw [hleave, rewriteDelivered_written, hread]

theorem pageOwner_congr {s t : State} (hc : t.calls = s.calls) (hr : t.mem.runs = s.mem.runs) (a : Nat) : t.pageOwner a = s.pageOwner a := by
  unfold State.pageOwner
  rw [hc, hr]

theorem mergeEvict_acts {stack channel : Nat} {e : Merge} {flips : Flips} {s : State} (k : s.Canonical) (km : Tbl.wf [] s.mem.merge = true)
    (hup : s.memUp = true) (hw : Instr.wf (.mergeEvict stack channel flips) = true) (he : s.evictDue stack channel = some e) :
    ∃ t, exec (.mergeEvict stack channel flips) s = .next t ∧
      (∀ x ∈ Tbl.get [] (stack * 32 + channel) t.mem.merge, x.block ≠ e.block) ∧
      (e.bytes.length = 64 → e.bytes.Pairwise (fun x y => x.1 < y.1) →
        ∀ x ∈ e.bytes, t.mem.byte (e.block * 64 + x.1) = BitVec.ofNat 8 x.2) ∧
      (e.bytes.length ≠ 64 → classify flips = .uncorrectable → ∀ c, s.pageOwner (e.block * 64) = some c →
        (t.call c).ended = true ∨ (t.call c).state = .free) := by
  refine ⟨_, mergeEvict_next hup hw he, ?_, fun hfull hp x hx => ?_, fun hpart hf c hc => ?_⟩
  · rw [mergeEvict_merge]
    exact mergeDropped_drops km _ _ _
  · rw [mergeEvict_eq]
    dsimp only
    rw [if_pos hfull]
    have hm : ((s.mergeDropped stack channel e.block).mergeLeave e).mem = ((s.mergeDropped stack channel e.block).mergeStore e).mem :=
      (State.count_moves (.refl [.counters] _) rfl).frame .mem (by decide)
    rw [hm]
    exact (mergeStore_bytes ((mergeDropped_moves s stack channel e.block).canon k).mem hp).1 x hx
  · rw [mergeEvict_eq]
    extract_lets v u
    rw [if_neg hpart, if_pos hf]
    have hv : Moves [.mem] s v := mergeDropped_moves s _ _ _
    have hu : Moves [.rings, .counters, .mem, .sec, .out] v u := State.count_moves (State.noteRead_moves (.refl _ v) rfl) rfl
    have hruns : u.mem.runs = s.mem.runs := (congrArg Mem.runs (noteRead_noted v (e.block * 64) 0 flips) :)
    have hown : u.pageOwner (e.block * 64) = some c := by
      rw [pageOwner_congr ((hu.frame .calls (by decide)).trans (hv.frame .calls (by decide))) hruns, hc]
    rw [hown]
    dsimp only
    rw [call_congr ((State.settle_moves (.refl [.boot, .regs, .rings, .counters, .jobs, .steps, .tiles, .boughs, .prods, .nextOrder, .weights,
      .links, .faults, .power, .sec, .out] _) rfl).frame .calls (by decide))]
    exact endCall_over (hu.canon (hv.canon k)) c (by decide) none

/-! ### Pressure windows (R305) -/

theorem closeWindow_hot {s : State} {stack : Nat} (hover : s.windowOver (s.hot stack) = true) :
    (s.closeWindow stack).hot stack = { s.hot stack with
      windowFrom := s.now - (s.now - (s.hot stack).windowFrom) % 2 ^ (s.hot stack).window.1,
      window := (s.regs.hotWindow.toNat, s.regs.hotThresh.toNat), samples := 0, hits := 0, total := 0, channels := [] } := by
  have hend : (s.hot stack).windowFrom + 2 ^ (s.hot stack).window.1 ≤ s.now := of_decide_eq_true hover
  have hpos := Nat.two_pow_pos (s.hot stack).window.1
  have hlt := Nat.mod_lt (s.now - (s.hot stack).windowFrom) hpos
  unfold State.closeWindow
  extract_lets h v
  have hv : Moves [.rings, .counters, .sec, .out] s v := .ite (State.event_moves (.refl _ s) rfl) (.refl _ s)
  have hnow : v.now = s.now := congrArg BitVec.toNat (hv.frame .tick (by decide))
  have hregs : v.regs = s.regs := hv.frame .regs (by decide)
  clear_value v
  rw [← hnow, ← hregs]
  refine Tbl.get_set_of_ne fun he => ?_
  have hfrom : v.now - (v.now - (s.hot stack).windowFrom) % 2 ^ (s.hot stack).window.1 = 0 := congrArg Hot.windowFrom he
  rw [hnow] at hfrom
  omega

theorem closeWindow_kept (s : State) (stack : Nat) : (s.closeWindow stack).now = s.now :=
  congrArg BitVec.toNat ((State.closeWindow_moves (.refl [.rings, .counters, .mem, .sec, .out] s) rfl).frame .tick (by decide))

/-- A window as a sample leaves it. -/
def Hot.sampled (h : Hot) (occ ch now : Nat) : Hot := { h with
  samples := h.samples + 1, hits := if h.window.2 < occ then h.hits + 1 else h.hits, total := h.total + occ,
  channels := Tbl.update 0 ch (fun n => n + 1) h.channels, sampledAt := now }

/-- A sample joins the window of its stack. -/
def State.sampled (s : State) (stack occ ch : Nat) : State :=
  s.modMem fun m => { m with hot := Tbl.update {} stack (fun h => h.sampled occ ch s.now) m.hot }

theorem hotSample_eq (s : State) (stack occ ch : Nat) :
    s.hotSample stack occ ch = (if s.windowOver (s.hot stack) then s.closeWindow stack else s).sampled stack occ ch := rfl

theorem sampled_hot (s : State) (stack occ ch : Nat) : (s.sampled stack occ ch).hot stack = (s.hot stack).sampled occ ch s.now :=
  Tbl.get_set_of_ne fun he => Nat.succ_ne_zero _ (congrArg Hot.samples he)

theorem hotSample_acts {stack occ ch : Nat} {s : State} (hup : s.memUp = true) (hs : stack < 8) (hc : ch < 32) (ho : occ ≤ 100)
    (hon : s.regs.hotThresh ≠ 0 ∨ (s.hot stack).window.2 ≠ 0) (ht : (s.hot stack).sampledAt + 2 ^ 16 ≤ s.now) :
    ∃ t, exec (.hotSample stack occ ch) s = .next t ∧ (t.hot stack).sampledAt = s.now ∧
      (s.windowOver (s.hot stack) = false → SameBut [.mem] s t ∧ (t.hot stack).samples = (s.hot stack).samples + 1 ∧
        (t.hot stack).total = (s.hot stack).total + occ ∧
        (t.hot stack).hits = (s.hot stack).hits + if (s.hot stack).window.2 < occ then 1 else 0) ∧
      (s.windowOver (s.hot stack) = true → (t.hot stack).samples = 1 ∧ (t.hot stack).total = occ ∧
        (t.hot stack).window = (s.regs.hotWindow.toNat, s.regs.hotThresh.toNat)) := by
  refine ⟨s.hotSample stack occ ch, when_true ?_, ?_, fun hw => ?_, fun hw => ?_⟩
  · rw [hup, decide_eq_true hs, decide_eq_true hc, decide_eq_true ho, decide_eq_true hon, decide_eq_true ht]
    rfl
  · rw [hotSample_eq, sampled_hot]
    show State.now _ = s.now
    split
    · exact closeWindow_kept s stack
    · rfl
  · rw [hotSample_eq, if_neg (by rw [hw]; decide)]
    have hm : Moves [.mem] s (s.sampled stack occ ch) := Moves.modMem (.refl _ s) (fun w => w) rfl
    refine ⟨hm.frame, ?_⟩
    rw [sampled_hot]
    refine ⟨rfl, rfl, ?_⟩
    dsimp only [Hot.sampled]
    split
    · rfl
    · rfl
  · rw [hotSample_eq, if_pos hw, sampled_hot, closeWindow_hot hw]
    exact ⟨rfl, Nat.zero_add occ, rfl⟩

theorem hotspot_acts {stack : Nat} {s : State} (hup : s.memUp = true) (hs : stack < 8) (hw : s.windowOver (s.hot stack) = true) :
    ∃ t, exec (.hotspot stack) s = .next t ∧ (t.hot stack).samples = 0 ∧ (t.hot stack).hits = 0 ∧
      (t.hot stack).window = (s.regs.hotWindow.toNat, s.regs.hotThresh.toNat) := by
  refine ⟨s.closeWindow stack, when_true ?_, ?_⟩
  · rw [hup, decide_eq_true hs, hw]
    rfl
  · rw [closeWindow_hot hw]
    exact ⟨rfl, rfl, rfl⟩

/-! ### Retirements and fills (R301, R303) -/

theorem hbmRetired_acts {j : MemJob} {rest : List MemJob} {s : State} (k : s.Canonical) (hup : s.memUp = true) (hj : s.mem.retireJobs = j :: rest) :
    ∃ t, exec .hbmRetired s = .next t ∧ t.mem = { s.mem with
        retireJobs := rest, retired := s.mem.retired ++ [(j.a, s.retireUnit j.a j.b)] } ∧
      Delivered s t (answerRing j.job.ring) (s.answerOf j.job .ok 0 0) := by
  refine ⟨s.retireDone j, ?_, ?_⟩
  · show execHbmRetired s = _
    rw [execHbmRetired, hj]
    exact when_true hup
  unfold State.retireDone
  extract_lets u stack s1 s2
  have h1 : Moves [.mem] s s1 := Moves.modMem (.refl _ s) (fun w => w) rfl
  have h2 : Moves [.mem, .counters] s (s1.count (if j.a = 1 then Ctr.retiredPages stack else Ctr.retiredBanks stack)) :=
    State.count_moves (h1.mono (by decide)) rfl
  have hmem : s1.mem = { s.mem with retireJobs := rest, retired := s.mem.retired ++ [(j.a, s.retireUnit j.a j.b)] } := by
    show { s.mem with retireJobs := s.mem.retireJobs.drop 1, retired := s.mem.retired ++ [(j.a, u)] } = _
    rw [hj]
    rfl
  have hd : Delivered s s2 (answerRing j.job.ring) (s.answerOf j.job .ok 0 0) := .of_moves k (h2.mono (by decide)) j.job .ok
  have h3 : Moves [.rings, .counters, .jobs, .out] s1 s2 := State.complete_moves (State.count_moves (.refl _ s1) rfl) rfl
  refine ⟨?_, hd.sampleKept (h3.canon (h1.canon k)) (event_sampleKept s2 _)⟩
  rw [(State.event_moves (.refl [.rings, .counters, .sec, .out] s2) rfl).frame .mem (by decide), h3.frame .mem (by decide), hmem]

/-- A byte whose block waits in no merge buffer is read as HBM holds it. -/
theorem readByte_of_unmerged {s : State} {a : Nat} (h : ∀ x ∈ Tbl.get [] (s.mergeKey a) s.mem.merge, x.block ≠ a / 64) :
    s.readByte a = s.mem.byte a := by
  unfold State.readByte
  extract_lets entries
  have hn : entries.find? (fun (e : Merge) => e.block == a / 64 && Tbl.has (a % 64) e.bytes) = none := by
    refine List.find?_eq_none.2 fun x hx hb => h x hx ?_
    rw [Bool.and_eq_true] at hb
    exact eq_of_beq hb.1
  rw [hn]

/-- The memory after zeros over a range of whole blocks, one of the fills in progress ended. -/
theorem fillDone_acts {j : MemJob} {rest : List MemJob} {s : State} (k : s.Canonical) (km : Tbl.wf [] s.mem.merge = true) (hup : s.memUp = true)
    (hj : s.mem.fillJobs = j :: rest) (ha : j.a % 64 = 0) (hb : j.b % 64 = 0) :
    ∃ t, exec .fillDone s = .next t ∧ t.mem.fillJobs = rest ∧ Delivered s t (answerRing j.job.ring) (s.answerOf j.job .ok 0 0) ∧
      (∀ a, j.a ≤ a → a < j.a + j.b → t.readByte a = 0) ∧ ∀ a, a < j.a ∨ j.a + j.b ≤ a → t.mem.byte a = s.mem.byte a := by
  let u := (s.clearBlocks j.a j.b).modMem fun m => { m with fillJobs := m.fillJobs.drop 1 }
  have hu : Moves [.mem] s u := Moves.modMem (State.clearBlocks_moves (.refl _ s) rfl) (fun w => w) rfl
  have ht : (s.fillDone j).mem = u.mem := (State.complete_moves (.refl [.rings, .counters, .jobs, .out] u) rfl).frame .mem (by decide)
  have hr := Tbl.rising_of_wf k.mem
  refine ⟨s.fillDone j, ?_, ?_, .of_moves k (hu.mono (by decide)) j.job .ok, fun a h1 h2 => ?_, fun a h => ?_⟩
  · show execFillDone s = _
    rw [execFillDone, hj]
    exact when_true hup
  · rw [ht]
    show s.mem.fillJobs.drop 1 = rest
    rw [hj]
    rfl
  · have hmerge : ∀ x ∈ Tbl.get [] ((s.fillDone j).mergeKey a) (s.fillDone j).mem.merge, x.block ≠ a / 64 := by
      intro x hx
      rw [ht] at hx
      have hget : Tbl.get [] ((s.fillDone j).mergeKey a) u.mem.merge =
          (Tbl.get [] ((s.fillDone j).mergeKey a) s.mem.merge).filter fun e =>
            !(decide (j.a ≤ e.block * 64) && decide (e.block * 64 < j.a + j.b)) :=
        get_mapVals (f := fun (l : List Merge) => l.filter fun e => !(decide (j.a ≤ e.block * 64) && decide (e.block * 64 < j.a + j.b))) rfl _
          (Tbl.rising_of_wf km)
      rw [hget] at hx
      have hout := (List.mem_filter.1 hx).2
      simp only [Bool.not_eq_true', Bool.and_eq_false_iff, decide_eq_false_iff_not] at hout
      omega
    rw [readByte_of_unmerged hmerge, ht]
    exact Tbl.get_filter_out (fun v => by rw [decide_eq_true h1, decide_eq_true h2]; rfl) hr
  · rw [ht]
    refine Tbl.get_filter (fun v => ?_) hr
    simp only [Bool.not_eq_true', Bool.and_eq_false_iff, decide_eq_false_iff_not]
    omega

/-! ### Rehash (R304, R306) -/

theorem HbmWritten.rehash {m n : Mem} (h : HbmWritten m n) : n.rehash = m.rehash := by rw [h]

theorem each_rehash {α : Type} {f : State → α → State} (hf : ∀ s x, (f s x).mem.rehash = s.mem.rehash) :
    ∀ (xs : List α) (s : State), (s.each xs f).mem.rehash = s.mem.rehash
  | [], _ => rfl
  | x :: xs, s => (each_rehash hf xs (f s x)).trans (hf s x)

theorem flushMerges_rehash (s : State) (a n : Nat) : (s.flushMerges a n).mem.rehash = s.mem.rehash := by
  unfold State.flushMerges
  extract_lets inRange es v
  exact each_rehash (fun s e => (mergeLeave_written s e).rehash) es v

theorem copyBytes_rehash (m : Mem) (src dst n : Nat) : (State.copyBytes m src dst n).rehash = m.rehash := by
  unfold State.copyBytes
  extract_lets cells
  exact (HbmWritten.foldl (f := fun m (x : Nat × Byte) => m.write (dst + (x.1 - src)) [x.2]) (fun m x => write_written m _ _) cells
    (m.clear dst n)).rehash

theorem modCall_mem (s : State) (c : Nat) (f : Entry → Entry) : (s.modCall c f).mem = s.mem :=
  (State.modCall_moves (.refl [.counters, .calls, .links, .out] s) rfl).frame .mem (by decide)

/-- A page whose run has been copied to another (R172). -/
def State.pageMoved (s : State) (c key f : Nat) : State :=
  let v := Tbl.get 0 key (s.call c).pages
  let st := State.seedStack s.mem.spreadSeed c (key / 4096) (key % 4096)
  let n := s.runOf v
  let s := s.flushMerges (pageAddr v) (n * frameBytes)
  let s := s.modMem fun m => { State.copyBytes m (pageAddr v) (pageAddr (8 * f + st)) (n * frameBytes) with
    runs := Tbl.set 0 (st * 2 ^ 32 + f) n m.runs, oldRuns := m.oldRuns ++ [v] }
  (s.modCall c fun e => { e with pages := Tbl.set 0 key (8 * f + st) e.pages }).watchFrames st

theorem pageMoved_rehash (s : State) (c key f : Nat) : (s.pageMoved c key f).mem.rehash = s.mem.rehash := by
  unfold State.pageMoved
  extract_lets v st n s1 s2
  have h2 : s2.mem.rehash = s1.mem.rehash := copyBytes_rehash s1.mem _ _ _
  rw [(watchFrames_booked _ st).rehash, modCall_mem, h2]
  exact flushMerges_rehash s _ _

theorem movePage_eq (s : State) (c key : Nat) : s.movePage c key =
    let v := Tbl.get 0 key (s.call c).pages
    let st := State.seedStack s.mem.spreadSeed c (key / 4096) (key % 4096)
    let n := s.runOf v
    if v = 0 ∨ v % 8 = st ∨ n = 0 then some s else (s.roomToMove st n).map (s.pageMoved c key) := rfl

theorem movePage_rehash {s t : State} {c key : Nat} (h : s.movePage c key = some t) : t.mem.rehash = s.mem.rehash := by
  rw [movePage_eq] at h
  extract_lets v st n at h
  split at h
  · cases h
    rfl
  · obtain ⟨f, -, rfl⟩ := Option.map_eq_some_iff.1 h
    exact pageMoved_rehash s c key f

theorem movePages_rehash {c : Nat} : ∀ {ks : List Nat} {s t : State}, State.movePages c ks s = some t → t.mem.rehash = s.mem.rehash
  | [], _, _, h => by cases h; rfl
  | k :: ks, s, t, h => by
    obtain ⟨u, hu, hrest⟩ := Option.bind_eq_some_iff.1 h
    exact (movePages_rehash hrest).trans (movePage_rehash hu)

theorem moveGroup_rehash (s : State) (c layer g : Nat) : (s.moveGroup c layer g).mem.rehash = s.mem.rehash := by
  unfold State.moveGroup
  split
  · rfl
  · next h =>
    rw [modCall_mem]
    exact movePages_rehash h

theorem migrate_rehash (s : State) (j : MemJob) : (s.migrate j).mem.rehash = s.mem.rehash := by
  unfold State.migrate
  extract_lets s1
  have h1 : s1.mem.rehash = s.mem.rehash := by
    unfold s1
    clear s1
    split
    · rw [(freeOld_booked _).rehash]
      exact each_rehash (fun s (x : Nat × Nat × Nat) => moveGroup_rehash s x.1 x.2.1 x.2.2) s.pageGroups s
    · rfl
  split
  · exact h1
  · exact h1

theorem drawSeed_rehash (s : State) (k : Nat) :
    ((s.modMem fun m => { m with stackSeeds := Tbl.set 0 k (Config.random s.free) m.stackSeeds }).draw).mem.rehash = s.mem.rehash := rfl

theorem drawSeeds_rehash (s : State) (set : Nat) : (s.drawSeeds set).mem.rehash = s.mem.rehash := by
  unfold State.drawSeeds
  extract_lets s1
  have h1 : s1.mem.rehash = s.mem.rehash := each_rehash (fun (s : State) (k : Nat) => drawSeed_rehash s k) _ s
  split
  · exact h1
  · exact h1

theorem rehashDone_acts {units : Nat} {j : MemJob} {rest : List MemJob} {s : State} (k : s.Canonical) (hj : s.mem.rehash = j :: rest) :
    ((s.migrate j).rehashDone j units).mem.rehash = rest ∧
      Delivered s ((s.migrate j).rehashDone j units) (answerRing j.job.ring) (s.answerOf j.job .ok 0 0) := by
  have hv : Moves [.rings, .counters, .calls, .mem, .links, .sec, .out] s (s.migrate j) := State.migrate_moves (.refl _ s) rfl
  have hrest : (s.migrate j).mem.rehash.drop 1 = rest := by
    rw [migrate_rehash, hj]
    rfl
  generalize s.migrate j = v at hv hrest
  unfold State.rehashDone
  extract_lets s1 s2
  have h1 : Moves [.counters, .mem] v s1 := State.count_moves (Moves.modMem (.refl _ v) (fun w => w) rfl) rfl
  have hd : Delivered s (s1.complete j.job .ok) (answerRing j.job.ring) (s.answerOf j.job .ok 0 0) :=
    .of_moves k ((hv.trans (h1.mono (by decide))).mono (by decide)) j.job .ok
  have hc : Moves [.rings, .counters, .jobs, .out] s1 (s1.complete j.job .ok) := State.complete_moves (.refl _ s1) rfl
  have kc : (s1.complete j.job .ok).Canonical := hc.canon (h1.canon (hv.canon k))
  have hd2 : Delivered s s2 (answerRing j.job.ring) (s.answerOf j.job .ok 0 0) := hd.sampleKept kc (event_sampleKept _ _)
  have he : Moves [.rings, .counters, .sec, .out] (s1.complete j.job .ok) s2 := State.event_moves (.refl _ _) rfl
  have hm2 : s2.mem.rehash = rest := by
    rw [he.frame .mem (by decide), hc.frame .mem (by decide)]
    exact hrest
  have k2 := he.canon kc
  clear_value s2
  split
  · exact ⟨hm2, hd2⟩
  · next q _ _ =>
    have hdraw : Moves SampleKept.sampleQuiet s2 (s2.drawSeeds q.b) := State.drawSeeds_moves (.refl _ s2) rfl
    exact ⟨(drawSeeds_rehash s2 q.b).trans hm2, hd2.sampleKept k2 (.of_moves hdraw)⟩

/-- Settles O59, each row by its own effect on the memory. That a rehash which may not end is out of place is the model's reading (log 4), as
are the group and room rule of a migration (log 39), the order of retirements and fills (log 40) and the windows of the pressure monitor
(log 41). -/
theorem memoryEventsEnd : Obligations.MemoryEventsEnd := by
  unfold Obligations.MemoryEventsEnd
  refine ⟨?leak, ?evict, ?sample, ?hotspot, ?retired, ?fill, ?rehash⟩
  case leak => exact fun _ _ h => bucketLeak_acts h
  case evict => exact fun _ _ _ _ _ k km hup hw he => mergeEvict_acts k km hup hw he
  case sample => exact fun _ _ _ _ hup hs hc ho hon ht => hotSample_acts hup hs hc ho hon ht
  case hotspot => exact fun _ _ _ hup hs hw => hotspot_acts hup hs hw
  case retired => exact fun _ _ _ k hup hj => hbmRetired_acts k hup hj
  case fill => exact fun _ _ _ k km hup hj ha hb => fillDone_acts k km hup hj ha hb
  case rehash =>
    refine fun units j rest s k hup hj => ⟨fun hm hb => ⟨_, ?_, rehashDone_acts (units := units) k hj⟩, fun h => ?_⟩
    · show execRehashDone units s = _
      rw [execRehashDone, hj]
      refine when_true ?_
      rw [hup, hm]
      rcases hb with hb | hb
      · rw [hb]
        rfl
      · rw [hb, Bool.not_false, Bool.or_true]
        rfl
    · show execRehashDone units s = _
      rw [execRehashDone, hj]
      refine if_neg fun hok => ?_
      simp only [Bool.and_eq_true, Bool.or_eq_true] at hok
      obtain ⟨⟨-, hm⟩, hb⟩ := hok
      rcases h with h | ⟨h1, h2⟩
      · rw [h] at hm
        cases hm
      · rw [h2, Option.isNone_iff_eq_none] at hb
        rcases hb with hb | hb
        · rw [hb] at h1
          cases h1
        · cases hb

end Sys2Proof.Machine

/-! PROOFS. Faults are classified: repeats, slates, late slates, dailies (R310, R312, R314, R315, R321 to R323, R326). -/

namespace Sys2Proof.Machine

/-! ### Repeats that are pending, and the daily account's faults (R314, R326) -/

/-- A tile as one that waits for no more repeats than it did. -/
structure Tile.RepeatsKept (x y : Tile) : Prop where
  folded : x.folded = [] → y.folded = []
  pending : x.repeat_ = none → y.repeat_ = none

theorem Tile.RepeatsKept.of_eq {x y : Tile} (hf : y.folded = x.folded) (hr : y.repeat_ = x.repeat_) : x.RepeatsKept y :=
  ⟨fun h => hf.trans h, fun h => hr.trans h⟩

/-- From `s` to `t` no tile has got a repeat to run, and the daily account has counted no fault. -/
structure TestsKept (s t : State) : Prop where
  canon : s.Canonical → t.Canonical
  tiles : s.Canonical → ∀ k, (s.tile k).RepeatsKept (t.tile k)
  transient : t.faults.daily.transient = s.faults.daily.transient
  permanent : t.faults.daily.permanent = s.faults.daily.permanent

/-- Every piece but the tiles and the faults. -/
abbrev testQuiet : List Field := (.free :: .pending :: everyPiece).filter fun f => f ≠ .tiles ∧ f ≠ .faults

namespace TestsKept
variable {r s t : State}

theorem of_same (hc : s.Canonical → t.Canonical) (ht : t.tiles = s.tiles) (hn : t.faults.daily.transient = s.faults.daily.transient)
    (hp : t.faults.daily.permanent = s.faults.daily.permanent) : TestsKept s t :=
  ⟨hc, fun _ k => by rw [State.tile, State.tile, ht]; exact .of_eq rfl rfl, hn, hp⟩

theorem refl (s : State) : TestsKept s s := of_same id rfl rfl rfl

theorem of_moves (h : Moves testQuiet s t) : TestsKept s t := by
  have hf : t.faults = s.faults := h.frame .faults (by decide)
  exact .of_same h.canon (h.frame .tiles (by decide)) (by rw [hf]) (by rw [hf])

theorem trans {u : State} (h : TestsKept s t) (k : TestsKept t u) : TestsKept s u where
  canon c := k.canon (h.canon c)
  tiles c n := ⟨fun hf => (k.tiles (h.canon c) n).folded ((h.tiles c n).folded hf), fun hr => (k.tiles (h.canon c) n).pending ((h.tiles c n).pending hr)⟩
  transient := k.transient.trans h.transient
  permanent := k.permanent.trans h.permanent

theorem quiet (h : TestsKept r s) (k : Moves testQuiet s t) : TestsKept r t := h.trans (of_moves k)

theorem ite {c : Prop} [Decidable c] (h : TestsKept r s) (k : TestsKept r t) : TestsKept r (if c then s else t) := by
  split
  · exact h
  · exact k

theorem each {α : Type} {f : State → α → State} (hf : ∀ s x, TestsKept s (f s x)) : ∀ (xs : List α) (s : State), TestsKept s (s.each xs f)
  | [], s => refl s
  | x :: xs, s => (hf s x).trans (each hf xs (f s x))

theorem foldl_fst {α β : Type} {f : State × β → α → State × β} (hf : ∀ x a, TestsKept x.1 (f x a).1) :
    ∀ (xs : List α) (x : State × β), TestsKept x.1 (xs.foldl f x).1
  | [], x => refl x.1
  | a :: xs, x => (hf x a).trans (foldl_fst hf xs (f x a))

/-- A change of one tile that gives it no repeat to run. -/
theorem modTile (s : State) (n : Nat) {f : Tile → Tile} (hf : ∀ x : Tile, x.RepeatsKept (f x)) : TestsKept s (s.modTile n f) := by
  refine ⟨(State.modTile_moves (.refl [.tiles] s) rfl).canon, fun c k => ?_, rfl, rfl⟩
  by_cases h : k = n
  · subst h
    rw [tile_modTile_self c]
    exact hf _
  · rw [tile_modTile_ne c h]
    exact .of_eq rfl rfl

theorem modDeck (s : State) (n d : Nat) (f : Deck → Deck) : TestsKept s (s.modDeck n d f) := .modTile s n fun _ => .of_eq rfl rfl

/-- A change of every tile that gives none of them a repeat to run. -/
theorem mapTiles (s : State) {f : Tile → Tile} (hd : f {} = {}) (hf : ∀ x : Tile, x.RepeatsKept (f x)) :
    TestsKept s { s with tiles := Tbl.mapVals {} f s.tiles } := by
  refine ⟨fun k => ⟨k.parts, k.rings, k.counters, k.calls, k.customers, Tbl.wf_mapVals (Tbl.rising_of_wf k.tiles), k.boughs, k.calSave, k.links,
    k.mem⟩, fun c k => ?_, rfl, rfl⟩
  have hget : State.tile { s with tiles := Tbl.mapVals {} f s.tiles } k = f (s.tile k) := get_mapVals hd k (Tbl.rising_of_wf c.tiles)
  rw [hget]
  exact hf _

/-- The daily account counts something other than a fault. -/
theorem modFaults (s : State) {f : Faults → Faults} (hn : (f s.faults).daily.transient = s.faults.daily.transient)
    (hp : (f s.faults).daily.permanent = s.faults.daily.permanent) : TestsKept s (s.modFaults f) :=
  .of_same (State.modFaults_moves (.refl [.faults] s) rfl).canon rfl hn hp

end TestsKept

section
variable (s : State)

/-! ### Suspects and the first phase of a product -/

theorem fault_testsKept (u : UnitField) (i : FaultInfo) : TestsKept s (s.fault u i) := by
  unfold State.fault
  extract_lets digital dom temp rail premium image s1
  have h1 : TestsKept s s1 := .of_moves (State.event_moves (.refl _ s) rfl)
  exact h1.trans (.modFaults s1 rfl rfl)

theorem withhold_testsKept (k : Nat) : TestsKept s (s.withhold k) := .modFaults s rfl rfl

theorem settleLocal_testsKept (c n : Nat) : TestsKept s (s.settleLocal c n) := by
  unfold State.settleLocal
  extract_lets s1 s2
  have h1 : TestsKept s (s1.count Ctr.retakeLocal) :=
    .of_moves (State.count_moves (State.releaseOutput_moves (State.modStep_moves (.refl _ s) rfl) rfl) rfl)
  have h2 : TestsKept s s2 := h1.trans (.modFaults _ rfl rfl)
  exact h2.trans (fault_testsKept s2 _ _)

theorem suspectStep_testsKept (c n : Nat) : TestsKept s (s.suspectStep c n) := by
  unfold State.suspectStep
  split
  · exact .refl s
  · refine .ite (.refl s) ?_
    extract_lets e s1 s2 s3 s4
    have h1 : TestsKept s s1 := .of_moves (State.count_moves (State.modStep_moves (.refl _ s) rfl) rfl)
    have h2 : TestsKept s s2 := h1.trans (.modFaults s1 rfl rfl)
    have h3 : Moves testQuiet s2 s3 := State.send_moves (State.count_moves (.refl _ s2) rfl) rfl
    have h4 : Moves testQuiet s2 s4 := Moves.ite h3 (State.send_moves h3 rfl)
    exact .ite (h2.quiet (State.modStep_moves h4 rfl)) (h2.trans (settleLocal_testsKept s2 c n))

theorem suspectProd_testsKept (i : Nat) : TestsKept s (s.suspectProd i) := by
  unfold State.suspectProd
  split
  · exact .refl s
  · refine .ite (.refl s) ?_
    extract_lets s1 w
    have h1 : TestsKept s s1 := .of_moves (State.count_moves (State.modProd_moves (.refl _ s) rfl) rfl)
    refine .ite h1 (.ite (h1.trans (suspectStep_testsKept s1 _ _)) (h1.quiet ?_))
    exact State.unboundStep_moves (State.modProd_moves (.refl _ s1) rfl) rfl

theorem boundConditions_testsKept (p : Prod) : TestsKept s (s.boundConditions p) := by
  unfold State.boundConditions
  extract_lets b x code badTemp badCal drifted s1 s2 s3 s4 s5 s6
  have hcount : ∀ {u : State} (c : Prop) [Decidable c] (k : Nat), Moves testQuiet s u → Moves testQuiet s (if c then u.count k else u) :=
    fun c _ k hu => Moves.ite (State.count_moves hu rfl) hu
  have h4 : Moves testQuiet s s4 := hcount _ _ (hcount _ _ (hcount _ _ (hcount _ _ (.refl _ s))))
  have h5 : Moves testQuiet s s5 := Moves.ite h4 (State.count_moves h4 rfl)
  have h6 : TestsKept s s6 := .of_moves (Moves.ite (State.unboundStep_moves (State.modProd_moves h5 rfl) rfl) h5)
  exact .ite ((h6.trans (suspectProd_testsKept s6 p.id)).trans (fault_testsKept _ _ _)) h6

theorem slewTile_repeats (x : Tile) (d : Nat) (transposed : Bool) : x.RepeatsKept (slewTile x d transposed) := by
  unfold slewTile
  extract_lets k
  split
  · exact .of_eq rfl rfl
  · exact .of_eq rfl rfl
  · exact .of_eq rfl rfl
  · split <;> exact .of_eq rfl rfl
  · exact .of_eq rfl rfl

theorem firstPhase_testsKept (p : Prod) : TestsKept s (s.firstPhase p) := by
  unfold State.firstPhase
  extract_lets t k s1 s2
  have h1 : TestsKept s s1 := .of_moves (State.modProd_moves (.refl _ s) rfl)
  have h2 : TestsKept s s2 := h1.trans (.modTile s1 _ fun x => ⟨(slewTile_repeats x p.deck p.transposed).folded, (slewTile_repeats x p.deck p.transposed).pending⟩)
  exact h2.trans (boundConditions_testsKept s2 p)

/-! ### Grants and programming -/

theorem setRemap_testsKept (t d k : Nat) (r : Remap) : TestsKept s (s.setRemap t d k r) := by
  unfold State.setRemap
  extract_lets old
  refine .ite (.refl s) (.quiet ?_ (State.event_moves (.refl _ _) rfl))
  exact .modTile s t fun _ => .of_eq rfl rfl

theorem emptyDeck_testsKept (t d : Nat) : TestsKept s (s.emptyDeck t d) := by
  unfold State.emptyDeck
  extract_lets k s1
  have h1 : TestsKept s s1 := .of_moves (State.modWeights_moves (.refl _ s) rfl)
  exact .ite h1 (.ite ((h1.trans (.modDeck s1 t d _)).quiet (State.event_moves (.refl _ _) rfl)) (h1.trans (.modDeck s1 t d _)))

theorem refuseProgram_testsKept (t d : Nat) : TestsKept s (s.refuseProgram t d) := by
  unfold State.refuseProgram
  extract_lets k
  exact .ite (.quiet (.modDeck s t d _) (State.event_moves (.refl _ _) rfl)) (.refl s)

theorem startPhase_testsKept (t : Nat) (p : Prod) : TestsKept s (s.startPhase t p) := by
  unfold State.startPhase
  extract_lets b s1 s2
  refine .ite (.of_moves (State.wakeBough_moves (.refl _ s) rfl)) (.ite (.of_moves (State.count_moves (.refl _ s) rfl)) (.ite (withhold_testsKept s _) ?_))
  have h1 : TestsKept s s1 := .quiet (.ite (.refl s) (firstPhase_testsKept s p)) (State.noteConflicts_moves (.refl _ _) rfl)
  have h2 : TestsKept s s2 := h1.quiet (State.modBough_moves (State.charge_moves (.refl _ s1) rfl) rfl)
  exact h2.trans (.modTile s2 t fun _ => .of_eq rfl rfl)

theorem beginRun_testsKept (t : Nat) (j : ProgJob) : TestsKept s (s.beginRun t j) := by
  unfold State.beginRun
  extract_lets fmt s1 s2 s3
  have h1 : TestsKept s s1 := .modDeck s _ _ _
  have h2 : TestsKept s s2 := .ite (h1.quiet (State.modBough_moves (.refl _ s1) rfl)) h1
  have h3 : TestsKept s s3 := h2.trans (.each (fun u (r : Nat × Remap) => setRemap_testsKept u _ _ _ _) _ s2)
  exact .ite (h3.quiet (State.event_moves (.refl _ s3) rfl)) h3

theorem startProg_testsKept (t : Nat) : TestsKept s (s.startProg t) := by
  unfold State.startProg
  split
  · exact .refl s
  · next j rest _ =>
    refine .ite (.of_moves (State.wakeBough_moves (.refl _ s) rfl)) (.ite (.of_moves (State.count_moves (.refl _ s) rfl)) (.ite (withhold_testsKept s _) ?_))
    extract_lets s1
    have h1 : TestsKept s s1 := .quiet (.ite (.refl s) (beginRun_testsKept s t j)) (State.countBlocked_moves (.refl _ _) rfl)
    exact (h1.quiet (State.charge_moves (.refl _ s1) rfl)).trans (.modTile _ t fun _ => .of_eq rfl rfl)

end

theorem dropRefused_testsKept (t : Nat) : ∀ (n : Nat) (s : State), TestsKept s (s.dropRefused t n)
  | 0, s => .refl s
  | n + 1, s => by
    unfold State.dropRefused
    split
    · exact .refl s
    · next j rest _ =>
      refine .ite ?_ (.refl s)
      refine ((refuseProgram_testsKept s t j.deck).trans ?_).trans (dropRefused_testsKept t n _)
      exact .modTile _ t fun _ => .of_eq rfl rfl

section
variable (s : State)

theorem tileNext_testsKept (t : Nat) : TestsKept s (s.tileNext t) := by
  unfold State.tileNext
  extract_lets s1 x p
  have h1 : TestsKept s s1 := dropRefused_testsKept t _ s
  have hprog : TestsKept s (s1.startProg t) := h1.trans (startProg_testsKept s1 t)
  clear_value p
  refine .ite h1 (.ite hprog ?_)
  split
  · exact h1.trans (startPhase_testsKept s1 t _)
  · exact .ite hprog h1

theorem tilesNext_testsKept (ok : Nat → Bool) : TestsKept s (s.tilesNext ok) := .each tileNext_testsKept _ s

theorem requestProgram_testsKept (t : Nat) (j : ProgJob) : TestsKept s (s.requestProgram t j) := by
  unfold State.requestProgram
  refine .ite (refuseProgram_testsKept s _ _) ?_
  extract_lets j' s1
  have h1 : TestsKept s s1 := .of_same
    (fun k => ⟨k.parts, k.rings, k.counters, k.calls, k.customers, k.tiles, k.boughs, k.calSave, k.links, k.mem⟩) rfl rfl rfl
  refine (h1.trans ?_).trans (tileNext_testsKept _ t)
  exact .modTile s1 t fun _ => .of_eq rfl rfl

theorem programTargets_testsKept (t : Take) (xs : List (Nat × Nat × Nat × Nat × Nat)) : TestsKept s (s.programTargets t xs) :=
  .each (fun u _ => requestProgram_testsKept u _ _) xs s

/-! ### Retirement and suspension -/

theorem slowProds_testsKept (hit : Prod → Bool) : TestsKept s (s.slowProds hit) := by
  have hm : Moves [.counters, .steps, .tiles, .boughs, .prods] s (s.slowProds hit) := State.slowProds_moves (.refl _ s) rfl
  have hf := hm.frame .faults (by decide)
  refine ⟨hm.canon, fun c k => ?_, by rw [hf], by rw [hf]⟩
  unfold State.slowProds
  extract_lets ps ids s1
  have hrest : Moves [.counters, .steps] s1 (s1.each ps fun s p => (s.count (Ctr.tierProducts (p.tile / 64))).modStep p.key.work.call
      p.key.work.step fun x => { x with tier := true }) := (Moves.refl _ s1).each fun u p hu => State.modStep_moves (State.count_moves hu rfl) rfl
  rw [State.tile, State.tile, hrest.frame .tiles (by decide)]
  exact (TestsKept.mapTiles s (f := fun t => { t with queue := t.queue.filter fun i => !ids.contains i }) rfl fun _ => .of_eq rfl rfl).tiles c k

theorem retireTile_testsKept (t cause : Nat) : TestsKept s (s.retireTile t cause) := by
  unfold State.retireTile
  refine .ite (.refl s) ?_
  extract_lets runs s1 s2 s3 s4 s5
  have h1 : TestsKept s s1 := .modTile s t fun _ => ⟨fun _ => rfl, fun _ => rfl⟩
  have h3 : Moves testQuiet s1 s3 := State.event_moves (State.modWeights_moves (.refl _ s1) rfl) rfl
  have h4 : TestsKept s s4 := h1.quiet (h3.each fun u j hu => State.progFail_moves hu rfl)
  have h5 : TestsKept s s5 := h4.trans (slowProds_testsKept s4 _)
  exact h5.quiet ((Moves.refl _ s5).each fun u m hu => State.bindSlow_moves hu rfl)

theorem suspendColumn_testsKept (t d col : Nat) : TestsKept s (s.suspendColumn t d col) := by
  unfold State.suspendColumn
  extract_lets x m bad
  refine .ite (.refl s) (.ite (.of_moves (State.firmwareTake_moves (State.bindSlow_moves (.refl _ s) rfl) rfl)) ?_)
  split
  · exact retireTile_testsKept s t 1
  · exact setRemap_testsKept s _ _ _ _

theorem programAgain_testsKept (t d : Nat) (failed : List Nat) : TestsKept s (s.programAgain t d failed) := by
  unfold State.programAgain
  split
  · exact requestProgram_testsKept s _ _
  · exact .refl s

theorem columnFaults_testsKept (t d : Nat) (cols : List Nat) : TestsKept s (s.columnFaults t d cols) := by
  unfold State.columnFaults
  refine .ite (.refl s) (.ite (programAgain_testsKept s t d cols) (.each (fun u (j : Nat) => ?_) cols s))
  exact .ite (suspendColumn_testsKept u t d j) (.refl u)

/-- A tile of a bough whose run starts: the fits of its decks start anew. -/
def Tile.unfitted (b k : Nat) (x : Tile) : Tile :=
  if k / 64 = b then { x with decks := Tbl.mapVals {} (fun (k : Deck) => if k.fitted then { k with fit := {} } else k) x.decks } else x

theorem startRun_tiles (b : Nat) : (s.startRun b).tiles = Tbl.mapVals {} id (s.tiles.map fun x => (x.1, x.2.unfitted b x.1)) := by
  refine congrArg (Tbl.mapVals ({} : Tile) id) (List.map_congr_left fun x _ => ?_)
  unfold Tile.unfitted
  split
  · rfl
  · rfl

theorem startRun_testsKept (b : Nat) : TestsKept s (s.startRun b) := by
  refine ⟨(State.startRun_moves (.refl [.tiles, .boughs] s) rfl).canon, fun c k => ?_, rfl, rfl⟩
  have hget : (s.startRun b).tile k = (s.tile k).unfitted b k := by
    rw [State.tile, startRun_tiles]
    refine get_mapVals_map (h := fun k x => x.unfitted b k) (fun k => ?_) k (Tbl.rising_of_wf c.tiles)
    unfold Tile.unfitted
    split
    · rfl
    · rfl
  rw [hget]
  unfold Tile.unfitted
  split
  · exact .of_eq rfl rfl
  · exact .of_eq rfl rfl

theorem requestRun_testsKept (b : Nat) : TestsKept s (s.requestRun b) := by
  unfold State.requestRun
  extract_lets x
  exact .ite (.refl s) (.ite (.of_moves (State.modBough_moves (.refl _ s) rfl)) (startRun_testsKept s b))

theorem tryVerified_testsKept (t d : Nat) : TestsKept s (s.tryVerified t d) := by
  unfold State.tryVerified
  extract_lets k
  exact .ite (.modDeck s t d _) (.refl s)

/-! ### Takes and cuts -/

theorem failTake_testsKept (t : Take) (st : Status) : TestsKept s (s.failTake t st) := by
  unfold State.failTake
  extract_lets runs s1 s2 s3 s4 s5 s6
  have h1 : TestsKept s s1 := .mapTiles s rfl fun _ => .of_eq rfl rfl
  have h2 : TestsKept s1 s2 := .ite (.refl s1) (.each (fun u (x : Nat × Nat × Nat × Nat × Nat) => .ite (.refl u) (emptyDeck_testsKept u _ _)) _ s1)
  have h3 : Moves testQuiet s2 s3 := (Moves.refl _ s2).each fun u x hu => State.progFail_moves hu rfl
  have h5 : Moves testQuiet s2 s5 := State.event_moves (State.count_moves (State.dropTake_moves h3 rfl) rfl) rfl
  have h6 : Moves testQuiet s2 s6 := by
    unfold s6
    split
    · exact State.completeWith_moves h5 rfl
    · exact h5
  exact (h1.trans h2).trans (.ite (.of_moves h6) (.of_moves (State.report_moves h6 rfl)))

theorem startTake_testsKept (t : Take) : TestsKept s (s.startTake t) := by
  unfold State.startTake
  extract_lets t' s1 targets
  have h1 : TestsKept s s1 := .of_moves (State.modTake_moves (.refl _ s) rfl)
  have hmod : ∀ {f : Take → Take}, TestsKept s (s1.modTake t'.id f) := h1.quiet (State.modTake_moves (.refl _ s1) rfl)
  exact .ite (.ite hmod (hmod.quiet (State.armTake_moves (.refl _ _) rfl)))
    (.ite (h1.trans (failTake_testsKept s1 _ _)) (hmod.trans (programTargets_testsKept _ _ _)))

theorem slowCut_testsKept (t : Take) (m : Nat) : TestsKept s (s.slowCut t m) := by
  unfold State.slowCut
  extract_lets decks s1 s2 s3
  have h2 : TestsKept s s2 := .of_moves (State.modTake_moves (State.bindSlow_moves (.refl _ s) rfl) rfl)
  have hempty : ∀ xs : List (Nat × Nat × Nat × Nat × Nat), TestsKept s (s2.each xs fun s x => s.emptyDeck x.2.2.2.1 x.2.2.2.2) := fun xs =>
    h2.trans (.each (fun u (x : Nat × Nat × Nat × Nat × Nat) => emptyDeck_testsKept u _ _) xs s2)
  exact .ite (hempty _) ((hempty _).trans (programTargets_testsKept _ _ _))

theorem onTake_testsKept (id : Nat) {f : Take → State → State} (hf : ∀ t s, TestsKept s (f t s)) : TestsKept s (s.onTake id f) := by
  unfold State.onTake
  split
  · exact hf _ s
  · exact .refl s

end

theorem slowCuts_testsKept (t : Take) : ∀ (ms : List Nat) (s : State), TestsKept s (State.slowCuts t ms s)
  | [], s => .refl s
  | m :: ms, s => by
    unfold State.slowCuts
    exact .ite ((slowCut_testsKept s t m).trans (slowCuts_testsKept t ms _)) (.refl s)

section
variable (s : State)

theorem settleLoading_testsKept (t : Take) : TestsKept s (State.settleLoading t s) := by
  unfold State.settleLoading
  refine .ite (.refl s) ((slowCuts_testsKept t _ s).trans (onTake_testsKept _ _ fun t s => ?_))
  exact .ite (startTake_testsKept s t) (.refl s)

theorem settleTargets_testsKept (t : Take) : TestsKept s (State.settleTargets t s) := by
  unfold State.settleTargets
  refine .ite (.ite (failTake_testsKept s _ _) (.refl s)) (.ite (.refl s) (.ite (failTake_testsKept s _ _) (.ite ?_ ?_)))
  · exact .of_moves (State.armTake_moves (.refl _ s) rfl)
  · exact .of_moves (State.modTake_moves (.refl _ s) rfl)

theorem returnCut_testsKept (t : Take) (id : Nat) : TestsKept s (s.returnCut t id) := by
  unfold State.returnCut
  split
  · extract_lets decks ok s1 s2 s3 s4 s5
    have h1 : TestsKept s s1 := .ite (.each (fun u (d : Nat × Nat) => .modDeck u _ _ _) _ s) (.refl s)
    have h2 : TestsKept s s2 := h1.quiet (State.setBinding_moves (.refl _ s1) rfl)
    have h3 : TestsKept s s3 := h2.trans (.each (fun u (d : Nat × Nat) => .ite (.refl u) (emptyDeck_testsKept u _ _)) _ s2)
    have h4 : Moves testQuiet s3 s4 := Moves.ite (State.count_moves (.refl _ s3) rfl) (.refl _ s3)
    have h5 : Moves testQuiet s3 s5 := Moves.ite (State.tierEvent_moves h4 rfl) h4
    exact h3.quiet (State.modTake_moves h5 rfl)
  · exact .of_moves (State.modTake_moves (.refl _ s) rfl)

theorem settleMatrix_testsKept (t : Take) (m : Nat) : TestsKept s (s.settleMatrix t m) := by
  unfold State.settleMatrix
  split
  · exact .refl s
  · extract_lets xs
    refine .ite (.refl s) (.ite (.ite ?_ (failTake_testsKept s _ _)) (.ite (returnCut_testsKept s _ _) (.refl s)))
    exact .of_moves (State.modTake_moves (.refl _ s) rfl)

theorem settleCuts_testsKept (t : Take) : TestsKept s (State.settleCuts t s) := by
  unfold State.settleCuts
  refine .ite ?_ (.refl s)
  refine ((slowCuts_testsKept t _ s).trans (.each (fun s (m : Nat) => settleMatrix_testsKept s t m) _ _)).trans (onTake_testsKept _ _ fun t s => ?_)
  exact .ite (.of_moves (State.finishTake_moves (State.driftDone_moves (.refl _ s) rfl) rfl)) (.refl s)

theorem settleTake_testsKept (id : Nat) : TestsKept s (s.settleTake id) := by
  unfold State.settleTake
  exact ((onTake_testsKept s id fun t s => settleLoading_testsKept s t).trans (onTake_testsKept _ id fun t s => settleTargets_testsKept s t)).trans
    (onTake_testsKept _ id fun t s => settleCuts_testsKept s t)

theorem openEpoch_testsKept (e image : Nat) : TestsKept s (s.openEpoch e image) := by
  unfold State.openEpoch
  split
  · exact .refl s
  · split
    · exact .refl s
    · extract_lets take olds news s1 s2 s3 s4 s5
      clear_value take
      have h1 : TestsKept s s1 := .of_moves (State.modWeights_moves (.refl _ s) rfl)
      have h2 : TestsKept s s2 := h1.trans (.each (fun u (b : Nat × Binding) => .each (fun u (d : Nat × Nat) => .modDeck u _ _ _) _ u) _ s1)
      have h3 : Moves testQuiet s2 s3 := (Moves.refl _ s2).each fun u b hu => by
        split
        · exact Moves.ite hu (State.tierEvent_moves hu rfl)
        · exact hu
      have h4 : Moves testQuiet s2 s4 := by
        unfold s4
        split
        · exact State.modTake_moves h3 rfl
        · exact h3
      have h5 : Moves testQuiet s2 s5 := State.recovered_moves (State.count_moves h4 rfl) rfl
      exact h2.quiet (Moves.ite h5 (State.send_moves h5 rfl))

theorem tryCut_testsKept : TestsKept s s.tryCut := by
  unfold State.tryCut
  split
  · exact .refl s
  · extract_lets n live
    exact .ite (openEpoch_testsKept s _ _) (.refl s)

theorem rebindMatrix_testsKept (g : Gen) (p : Placement) (m : Mat) : TestsKept s (s.rebindMatrix g p m).1 := by
  unfold State.rebindMatrix
  split
  · exact .of_moves (State.setBinding_moves (.refl _ s) rfl)
  · extract_lets found bound s1 s2 missing targets decks slow tid s3 s4 s5
    have h1 : TestsKept s s1 := .each (fun u (d : Nat × Nat) =>
      .trans (.of_moves (State.count_moves (.refl _ u) rfl)) (.modDeck _ _ _ _)) _ s
    have h2 : TestsKept s s2 := h1.trans (.each (fun u (d : Nat × Nat) => emptyDeck_testsKept u _ _) _ s1)
    have h3 : Moves testQuiet s2 s3 := State.setBinding_moves (.refl _ s2) rfl
    have h4 : Moves testQuiet s2 s4 := Moves.ite (State.tierEvent_moves h3 rfl) h3
    exact h2.quiet (h4.each fun u d hu => State.writeClapper_moves hu rfl)

theorem tryLive_testsKept : TestsKept s s.tryLive := by
  unfold State.tryLive
  refine .ite (.refl s) ?_
  split
  · exact .refl s
  · split
    · exact .refl s
    · extract_lets s1 r s2
      have h1 : TestsKept s s1 := .of_moves (State.modGen_moves (.refl _ s) rfl)
      have hr : TestsKept s r.1 := by
        refine h1.trans (TestsKept.foldl_fst (fun acc m => ?_) _ (s1, []))
        exact rebindMatrix_testsKept acc.1 _ _ m
      have h2 : TestsKept s s2 := .ite hr (hr.quiet (State.firmwareTake_moves (.refl _ _) rfl))
      exact h2.quiet (State.setReady_moves (.refl _ s2) rfl)

theorem applySlow_testsKept : TestsKept s s.applySlow := by
  unfold State.applySlow
  refine .each (fun u (x : Nat × Bool) => ?_) _ s
  extract_lets decks u1
  have h1 : TestsKept u u1 := .of_moves (State.modWeights_moves (State.bindSlow_moves (.refl _ u) rfl) rfl)
  exact h1.trans (.each (fun u (d : Nat × Nat) => .ite (.refl u) (emptyDeck_testsKept u _ _)) _ u1)

theorem settle_testsKept : TestsKept s s.settle := by
  unfold State.settle
  extract_lets s1 s2
  have hlive : TestsKept s s.tryLive.applyMats := (tryLive_testsKept s).quiet (State.applyMats_moves (.refl _ _) rfl)
  have h1 : TestsKept s s1 := (hlive.trans (applySlow_testsKept _)).quiet (State.armIdle_moves (.refl _ _) rfl)
  exact (h1.trans (.each settleTake_testsKept _ s1)).trans (tryCut_testsKept s2)

end

/-! ### Clapper phases that fail (R310) -/

/-- From `s` to `t` what a clapper phase on a tile is judged by is as it was. -/
structure ClapKept (k : Nat) (s t : State) : Prop where
  weights : t.weights = s.weights
  tile : t.tile k = { s.tile k with skew := (t.tile k).skew }
  temp : ∀ b, (t.bough b).temp = (s.bough b).temp

theorem ClapKept.deck {k : Nat} {s t : State} (h : ClapKept k s t) (d : Nat) : t.deck k d = s.deck k d := by
  rw [State.deck, h.tile]
  rfl

theorem deckSource_congr {k : Nat} {s t : State} (h : ClapKept k s t) (d : Nat) : t.deckSource k d = s.deckSource k d := by
  have hg : t.gen? = s.gen? := funext (gen?_congr h.weights)
  have hp : t.placementOf = s.placementOf := funext (placementOf_congr h.weights)
  have hl : t.liveGen = s.liveGen := liveGen_congr h.weights
  simp only [State.deckSource, State.deckImages, State.placeFor, State.mat?, State.matsOf, hg, hp, hl, h.weights, h.deck]

theorem deckSlot_congr {k : Nat} {s t : State} (h : ClapKept k s t) (d : Nat) : t.deckSlot k d = s.deckSlot k d := by
  simp only [State.deckSlot, State.slotFor, State.slot?, State.ownerOf, State.gen?, deckSource_congr h, h.weights]

theorem corrected_congr {k : Nat} {s t : State} (h : ClapKept k s t) (d c : Nat) (code : Int) (gain : Nat) :
    t.corrected k d c code gain = s.corrected k d c code gain := by
  rw [State.corrected, h.deck, h.tile]
  rfl

theorem clapperDeviations_congr {k : Nat} {s t : State} (h : ClapKept k s t) (d half : Nat) (codes : List Int) :
    t.clapperDeviations k d half codes = s.clapperDeviations k d half codes := by
  have hgone : (t.tile k).suspendedIn d = (s.tile k).suspendedIn d := by
    rw [h.tile]
    rfl
  have hplaced : t.placedColumns k d = s.placedColumns k d := by rw [State.placedColumns, State.placedColumns, deckSource_congr h]
  unfold State.clapperDeviations
  rw [deckSlot_congr h, h.deck, hgone, hplaced]
  simp only [corrected_congr h]

theorem clapperFails_congr {k : Nat} {s t : State} (h : ClapKept k s t) (d half : Nat) (codes : List Int) :
    t.clapperFails k d half codes = s.clapperFails k d half codes := by
  have htol : t.clapperTolerance k d = s.clapperTolerance k d := by
    rw [State.clapperTolerance, State.clapperTolerance, h.deck, State.hotColumn, h.temp]
    rfl
  rw [State.clapperFails, State.clapperFails, clapperDeviations_congr h, htol]

namespace ClapKept
variable {k : Nat} {r s t : State}

theorem of_eq (hw : t.weights = s.weights) (ht : t.tiles = s.tiles) (hb : t.boughs = s.boughs) : ClapKept k s t where
  weights := hw
  tile := by rw [State.tile, State.tile, ht]
  temp b := by rw [bough_congr hb]

theorem trans {u : State} (h : ClapKept k s t) (h' : ClapKept k t u) : ClapKept k s u where
  weights := h'.weights.trans h.weights
  tile := by rw [h'.tile, h.tile]
  temp b := (h'.temp b).trans (h.temp b)

end ClapKept

theorem charge_clapKept {k : Nat} {s : State} (c : s.Canonical) (kind b : Nat) : ClapKept k s (s.charge kind (some b)) := by
  refine ⟨rfl, rfl, fun i => ?_⟩
  unfold State.charge State.chargeBy
  extract_lets n v
  have hv : Moves [.power] s v := State.modPower_moves (.refl _ s) rfl
  by_cases h : i = b
  · subst h
    dsimp only
    rw [bough_modBough_self (hv.canon c)]
    rfl
  · dsimp only
    rw [bough_modBough_ne (hv.canon c) h]
    rfl

/-- Phases that are charged and whose clipped codes are counted. -/
def State.phasesRun (s : State) (n b : Nat) (phases : List (List Int)) : State :=
  s.each phases fun s cs => (s.charge 0 (some b)).countClips n cs

theorem phasesRun_clapKept {k n b : Nat} : ∀ {phases : List (List Int)} {s : State}, s.Canonical → ClapKept k s (s.phasesRun n b phases)
  | [], _, _ => .of_eq rfl rfl rfl
  | cs :: phases, s, c => by
    have h1 : Moves [.boughs, .power, .counters] s ((s.charge 0 (some b)).countClips n cs) :=
      State.countClips_moves (State.charge_moves (.refl _ s) rfl) rfl
    have h2 : ClapKept k s ((s.charge 0 (some b)).countClips n cs) := (charge_clapKept c 0 b).trans (.of_eq rfl rfl rfl)
    exact h2.trans (phasesRun_clapKept (h1.canon c))

theorem phasesRun_testsKept (s : State) (n b : Nat) (phases : List (List Int)) : TestsKept s (s.phasesRun n b phases) :=
  .of_moves ((Moves.refl _ s).each fun _ _ hu => State.countClips_moves (State.charge_moves hu rfl) rfl)

/-! ### One repeat's classification (R314) -/

/-- The daily account counts one fault more: a transient one, or a permanent one. -/
def State.faultCounted (s : State) (b : Nat) (transient : Bool) : State :=
  if transient then (s.count (Ctr.faultsTransient 0 b)).modDaily fun d => { d with transient := d.transient + 1 }
  else (s.count (Ctr.faultsPermanent 0 b)).modDaily fun d => { d with permanent := d.permanent + 1 }

theorem faultCounted_moves (s : State) (b : Nat) (transient : Bool) : Moves [.counters, .faults] s (s.faultCounted b transient) := by
  unfold State.faultCounted
  exact Moves.ite (State.modDaily_moves (State.count_moves (.refl _ s) rfl) rfl) (State.modDaily_moves (State.count_moves (.refl _ s) rfl) rfl)

/-- Beyond the fault that it counts, a classification gives no tile a repeat to run and counts no fault. -/
theorem classifyRepeat_testsKept (s : State) (n : Nat) (r : Repeat) (bad : List Nat × Int) :
    TestsKept (s.faultCounted (n / 64) bad.1.isEmpty) (s.classifyRepeat n r none bad) := by
  unfold State.classifyRepeat
  extract_lets b k info unit s1 s2 s3 s4 s5 s6 s7
  unfold State.faultCounted
  split
  · have h2 : TestsKept s1 s2 := .ite ((TestsKept.modDeck s1 n r.deck _).trans (tryVerified_testsKept _ _ _)) (.refl s1)
    exact h2.trans (fault_testsKept s2 _ _)
  · have h4 : TestsKept s3 s4 := .ite (.refl s3) ((columnFaults_testsKept s3 n r.deck bad.1).trans (.modDeck _ n r.deck _))
    have h5 : TestsKept s3 s5 := h4.trans (tryVerified_testsKept s4 n r.deck)
    have h6 : TestsKept s3 s6 := .ite (h5.trans (requestRun_testsKept s5 b)) h5
    have h7 : TestsKept s3 s7 := h6.trans (.each suspectProd_testsKept _ s6)
    exact h7.trans (fault_testsKept s7 _ _)

/-- The repeat of a clapper phase is run and classified, and the tile's next repeat follows (R314). -/
theorem repeatDone_eq (s : State) (n : Nat) {r : Repeat} (hr : r.prod = none) (phases : List (List Int)) :
    s.repeatDone n r phases =
      let u := (((s.count (Ctr.repeats (n / 64))).phasesRun n (n / 64) phases).modTile n skewTile).count (Ctr.clapperPhases n)
      (((u.classifyRepeat n r none (u.clapperAgain n r (phases.headD []))).nextRepeat n).tilesNext fun x => x == n).settle := by
  unfold State.repeatDone
  rw [hr]
  rfl

theorem nextRepeat_ends {s : State} (c : s.Canonical) {n : Nat} (h : (s.tile n).folded = []) : ((s.nextRepeat n).tile n).repeat_ = none := by
  unfold State.nextRepeat
  rw [h]
  dsimp only
  rw [tile_modTile_self c]

theorem repeat_acts {k : Nat} {r : Repeat} {phases : List (List Int)} {s : State} (c : s.Canonical) (hr : (s.tile k).repeat_ = some r)
    (hdue : s.repeatDue k r = true) (hshape : s.repeatShape r phases = true) (hp : r.prod = none) :
    ∃ t, exec (.repeat_ k phases) s = .next t ∧
      (s.clapperFails k r.deck r.half (phases.headD []) = [] → t.faults.daily.transient = s.faults.daily.transient + 1 ∧
        t.faults.daily.permanent = s.faults.daily.permanent) ∧
      (s.clapperFails k r.deck r.half (phases.headD []) ≠ [] → t.faults.daily.permanent = s.faults.daily.permanent + 1 ∧
        t.faults.daily.transient = s.faults.daily.transient) ∧
      ((s.tile k).folded = [] → (t.tile k).repeat_ = none) := by
  have hexec : exec (.repeat_ k phases) s = .next (s.repeatDone k r phases) := by
    show execRepeat k phases s = _
    rw [execRepeat, hr]
    exact when_true (by rw [hdue, hshape]; rfl)
  refine ⟨_, hexec, ?_⟩
  rw [repeatDone_eq s k hp]
  extract_lets u
  have hrun : Moves [.counters] s (s.count (Ctr.repeats (k / 64))) := State.count_moves (.refl _ s) rfl
  have c1 := hrun.canon c
  have hclap : ClapKept k s u := by
    have h1 : ClapKept k s (s.count (Ctr.repeats (k / 64))) := .of_eq rfl rfl rfl
    have h2 := h1.trans (phasesRun_clapKept (n := k) (b := k / 64) (phases := phases) c1)
    have ht : u.tile k = skewTile (((s.count (Ctr.repeats (k / 64))).phasesRun k (k / 64) phases).tile k) :=
      tile_modTile_self ((phasesRun_testsKept _ k (k / 64) phases).canon c1) k skewTile
    refine h2.trans ⟨rfl, ?_, fun _ => rfl⟩
    rw [ht]
    rfl
  have hu : TestsKept s u := .quiet (.trans (.trans (.of_moves (hrun.mono (by decide))) (phasesRun_testsKept _ k (k / 64) phases))
    (.modTile (f := skewTile) _ k fun _ => .of_eq rfl rfl)) (State.count_moves (.refl _ _) rfl)
  have hbad : (u.clapperAgain k r (phases.headD [])).1.isEmpty = (s.clapperFails k r.deck r.half (phases.headD [])).isEmpty := by
    unfold State.clapperAgain
    rw [clapperFails_congr hclap]
    exact List.isEmpty_map
  have hcls := classifyRepeat_testsKept u k r (u.clapperAgain k r (phases.headD []))
  rw [hbad] at hcls
  generalize u.classifyRepeat k r none (u.clapperAgain k r (phases.headD [])) = v at hcls
  have hnext : Moves [.tiles, .prods] v (v.nextRepeat k) := State.nextRepeat_moves (.refl _ v) rfl
  have hfaults := hnext.frame .faults (by decide)
  have hend := (tilesNext_testsKept (v.nextRepeat k) fun x => x == k).trans (settle_testsKept _)
  have hcount := faultCounted_moves u (k / 64) (s.clapperFails k r.deck r.half (phases.headD [])).isEmpty
  refine ⟨fun he => ?_, fun he => ?_, fun hf => ?_⟩
  · rw [hend.transient, hend.permanent, hfaults, hcls.transient, hcls.permanent, he, ← hu.transient, ← hu.permanent]
    exact ⟨rfl, rfl⟩
  · rw [hend.transient, hend.permanent, hfaults, hcls.transient, hcls.permanent, List.isEmpty_eq_false_iff.2 he, ← hu.transient, ← hu.permanent]
    exact ⟨rfl, rfl⟩
  · have cu := hu.canon c
    have hfold : ((u.faultCounted (k / 64) (s.clapperFails k r.deck r.half (phases.headD [])).isEmpty).tile k).folded = [] := by
      rw [State.tile, hcount.frame .tiles (by decide)]
      exact (hu.tiles c k).folded hf
    have cv := hcls.canon (hcount.canon cu)
    exact (hend.tiles (hnext.canon cv) k).pending (nextRepeat_ends cv ((hcls.tiles (hcount.canon cu) k).folded hfold))

/-! ### Slates (R312, R315, R321, R322) -/

/-- From `s` to `t` the slates of the units and the parts that are withdrawn are as they were. -/
structure SlatesKept (s t : State) : Prop where
  slates : t.faults.slates = s.faults.slates
  parts : t.faults.withdrawnParts = s.faults.withdrawnParts

namespace SlatesKept
variable {r s t : State}

theorem of_eq (h : t.faults = s.faults) : SlatesKept s t := ⟨by rw [h], by rw [h]⟩

theorem refl (s : State) : SlatesKept s s := of_eq rfl

theorem of_moves (h : Moves testQuiet s t) : SlatesKept s t := of_eq (h.frame .faults (by decide))

theorem trans {u : State} (h : SlatesKept s t) (k : SlatesKept t u) : SlatesKept s u := ⟨k.slates.trans h.slates, k.parts.trans h.parts⟩

theorem quiet (h : SlatesKept r s) (k : Moves testQuiet s t) : SlatesKept r t := h.trans (of_moves k)

theorem ite {c : Prop} [Decidable c] (h : SlatesKept r s) (k : SlatesKept r t) : SlatesKept r (if c then s else t) := by
  split
  · exact h
  · exact k

theorem each {α : Type} {f : State → α → State} (hf : ∀ s x, SlatesKept s (f s x)) : ∀ (xs : List α) (s : State), SlatesKept s (s.each xs f)
  | [], s => refl s
  | x :: xs, s => (hf s x).trans (each hf xs (f s x))

theorem slate (h : SlatesKept s t) (u : SlateUnit) : t.slate u = s.slate u := by
  rw [State.slate, State.slateAt, h.slates]
  rfl

end SlatesKept

section
variable (s : State)

theorem fault_slatesKept (u : UnitField) (i : FaultInfo) : SlatesKept s (s.fault u i) := by
  unfold State.fault
  extract_lets digital dom temp rail premium image s1
  have h1 : SlatesKept s s1 := .of_moves (State.event_moves (.refl _ s) rfl)
  exact h1.trans ⟨rfl, rfl⟩

theorem settleLocal_slatesKept (c n : Nat) : SlatesKept s (s.settleLocal c n) := by
  unfold State.settleLocal
  extract_lets s1 s2
  have h1 : SlatesKept s (s1.count Ctr.retakeLocal) :=
    .of_moves (State.count_moves (State.releaseOutput_moves (State.modStep_moves (.refl _ s) rfl) rfl) rfl)
  have h2 : SlatesKept s s2 := h1.trans ⟨rfl, rfl⟩
  exact h2.trans (fault_slatesKept s2 _ _)

theorem suspectStep_slatesKept (c n : Nat) : SlatesKept s (s.suspectStep c n) := by
  unfold State.suspectStep
  split
  · exact .refl s
  · refine .ite (.refl s) ?_
    extract_lets e s1 s2 s3 s4
    have h1 : SlatesKept s s1 := .of_moves (State.count_moves (State.modStep_moves (.refl _ s) rfl) rfl)
    have h2 : SlatesKept s s2 := h1.trans ⟨rfl, rfl⟩
    have h3 : Moves testQuiet s2 s3 := State.send_moves (State.count_moves (.refl _ s2) rfl) rfl
    have h4 : Moves testQuiet s2 s4 := Moves.ite h3 (State.send_moves h3 rfl)
    exact .ite (h2.quiet (State.modStep_moves h4 rfl)) (h2.trans (settleLocal_slatesKept s2 c n))

theorem suspectProd_slatesKept (i : Nat) : SlatesKept s (s.suspectProd i) := by
  unfold State.suspectProd
  split
  · exact .refl s
  · refine .ite (.refl s) ?_
    extract_lets s1 w
    have h1 : SlatesKept s s1 := .of_moves (State.count_moves (State.modProd_moves (.refl _ s) rfl) rfl)
    refine .ite h1 (.ite (h1.trans (suspectStep_slatesKept s1 _ _)) (h1.quiet ?_))
    exact State.unboundStep_moves (State.modProd_moves (.refl _ s1) rfl) rfl

theorem suspectUses_slatesKept (key since : Nat) (bough : Option Nat) (isKey : Prod → Bool) : SlatesKept s (s.suspectUses key since bough isKey) := by
  unfold State.suspectUses
  extract_lets hit
  refine .each (fun u (x : Step) => ?_) hit s
  extract_lets kept u1
  have h1 : SlatesKept u u1 := by
    unfold u1
    split
    · exact .of_moves (State.count_moves (.refl _ u) rfl)
    · exact .refl u
  exact (h1.trans (.each suspectProd_slatesKept _ u1)).trans (suspectStep_slatesKept _ _ _)

theorem suspectUnit_slatesKept (u : SlateUnit) : SlatesKept s (s.suspectUnit u) := by
  unfold State.suspectUnit
  extract_lets since
  split
  · exact .each (fun s (k : Nat) => suspectUses_slatesKept s k _ _ _) _ s
  · exact suspectUses_slatesKept s _ _ _ _

end

theorem slate_modSlate {s : State} {u : SlateUnit} {f : Slate → Slate} (hf : f (s.slate u) ≠ {}) : (s.modSlate u f).slate u = f (s.slate u) :=
  Tbl.get_set_of_ne hf

/-- What the start makes of a slate that has ended leaves the faults alone. -/
theorem slateStep_slatesKept (s : State) : SlatesKept s s.slateStep :=
  .of_eq ((State.slateStep_moves (.refl [.boot, .regs, .rings, .counters, .jobs, .tiles, .boughs, .sec, .out] s) rfl).frame .faults (by decide))

theorem boughTested_congr {s t : State} (h : t.boughs = s.boughs) (u : SlateUnit) : t.boughTested u = s.boughTested u := by
  unfold State.boughTested
  split
  · rw [bough_congr h]
  · rfl

/-- A slate is run: counted in the daily account. -/
def State.slateCounted (s : State) (u : SlateUnit) : State :=
  (s.count (Ctr.slatesRun (slateScope u).2.1 (slateScope u).2.2.1)).modDaily fun d => { d with slates := d.slates + 1 }

theorem slateDone_eq (s : State) (u : SlateUnit) (digest : BitVec 64) : s.slateDone u digest =
    (if digest = s.slateAnswer u then (s.slateCounted u).slatePasses u else (s.slateCounted u).slateFails u).slateStep := rfl

theorem dailyCounted_slatesKept (s : State) (k : Nat) (f : Daily → Daily) : SlatesKept s ((s.count k).modDaily f) := ⟨rfl, rfl⟩

/-- A slate that has passed goes on to the next number. -/
def Slate.passed (x : Slate) (now : Nat) : Slate := { x with
  number := (x.number + 1) % 64, startedAt := now, failedOnce := false, passedAt := now, overdue := false, doneThisStart := true }

theorem slatePasses_slate {s : State} {u : SlateUnit} (hb : s.boughTested u = false) : (s.slatePasses u).slate u = (s.slate u).passed s.now := by
  unfold State.slatePasses
  extract_lets x again s1 s2
  have h1 : s1.slate u = (s.slate u).passed s.now :=
    slate_modSlate (f := fun x => x.passed s.now) fun he => nomatch (congrArg Slate.doneThisStart he : true = false)
  have h2 : SlatesKept s1 s2 := .ite ((dailyCounted_slatesKept s1 _ _).trans (fault_slatesKept _ _ _)) (.refl s1)
  have hm : Moves [.rings, .counters, .faults, .sec, .out] s1 s2 :=
    Moves.ite (State.fault_moves (State.modDaily_moves (State.count_moves (.refl _ s1) rfl) rfl) rfl) (.refl _ s1)
  have hb1 : s1.boughTested u = false := (boughTested_congr rfl u).trans hb
  clear_value s1
  have hb2 : s2.boughTested u = false := (boughTested_congr (hm.frame .boughs (by decide)) u).trans hb1
  clear_value s2
  rw [← h1, ← h2.slate u]
  split
  · rw [if_neg (by rw [hb2]; decide)]
  · rfl

/-- A slate that fails is noted, and what has used its unit becomes suspect. -/
def State.slateFailed (s : State) (u : SlateUnit) : State :=
  let again := (s.slate u).failedOnce
  ((s.count (Ctr.slateFails (slateScope u).2.1 (slateScope u).2.2.1)).modSlate u fun t =>
    { t with startedAt := s.now, failedOnce := !again, overdue := false, doneThisStart := again || t.doneThisStart }).suspectUnit u

theorem slateFails_first {s : State} {u : SlateUnit} (hf : (s.slate u).failedOnce = false) : s.slateFails u = s.slateFailed u := by
  unfold State.slateFails
  rw [hf]
  unfold State.slateFailed
  rw [hf]
  rfl

theorem slateFailed_slate {s : State} {u : SlateUnit} (hf : (s.slate u).failedOnce = false) :
    (s.slateFailed u).slate u = { s.slate u with startedAt := s.now, failedOnce := true, overdue := false } := by
  unfold State.slateFailed
  rw [hf, (suspectUnit_slatesKept _ u).slate u]
  exact slate_modSlate fun he => nomatch (congrArg Slate.failedOnce he : true = false)

theorem slateFailed_moves (s : State) (u : SlateUnit) : Moves [.rings, .counters, .steps, .prods, .links, .faults, .sec, .out] s (s.slateFailed u) :=
  State.suspectUnit_moves (State.modSlate_moves (State.count_moves (.refl _ s) rfl) rfl) rfl

theorem slateFailed_parts (s : State) (u : SlateUnit) : (s.slateFailed u).faults.withdrawnParts = s.faults.withdrawnParts :=
  (suspectUnit_slatesKept _ u).parts

/-- The second failure in a row is a permanent fault of the unit. -/
theorem slateFails_bough {s : State} {b : Nat} (hf : (s.slate (.bough b)).failedOnce = true) (hb : s.boughTested (.bough b) = false) :
    s.slateFails (.bough b) = ((s.slateFailed (.bough b)).unitFails (.bough b)).settle := by
  have hbt : (s.slateFailed (.bough b)).boughTested (.bough b) = false :=
    (boughTested_congr ((slateFailed_moves s (.bough b)).frame .boughs (by decide)) _).trans hb
  unfold State.slateFails State.slateFailed at *
  rw [hf] at hbt ⊢
  dsimp only at hbt ⊢
  rw [if_neg (by decide)]
  exact if_neg (ne_of_eq_of_ne hbt Bool.false_ne_true)

theorem slateFails_part {s : State} {u : SlateUnit} (hf : (s.slate u).failedOnce = true) (hu : ∀ b, u ≠ .bough b) :
    s.slateFails u = (s.slateFailed u).unitFails u := by
  unfold State.slateFails State.slateFailed
  rw [hf]
  cases u with
  | bough b => exact absurd rfl (hu b)
  | _ => rfl

/-! ### Units that are withdrawn (R321, R322) -/

/-- From `s` to `t` the boughs that are withdrawn are the same. -/
structure WithdrawnKept (s t : State) : Prop where
  canon : s.Canonical → t.Canonical
  boughs : s.Canonical → ∀ b, (t.bough b).withdrawn = (s.bough b).withdrawn

namespace WithdrawnKept
variable {r s t : State}

theorem refl (s : State) : WithdrawnKept s s := ⟨id, fun _ _ => rfl⟩

theorem of_moves {l : List Field} (h : Moves l s t) (hl : Field.boughs ∉ l) : WithdrawnKept s t :=
  ⟨h.canon, fun _ b => by rw [bough_congr (h.frame .boughs hl)]⟩

theorem of_cal (h : CalKept s t) : WithdrawnKept s t := ⟨h.canon, fun c b => (h.boughs c b).withdrawn⟩

theorem trans {u : State} (h : WithdrawnKept s t) (k : WithdrawnKept t u) : WithdrawnKept s u :=
  ⟨fun c => k.canon (h.canon c), fun c b => (k.boughs (h.canon c) b).trans (h.boughs c b)⟩

theorem ite {c : Prop} [Decidable c] (h : WithdrawnKept r s) (k : WithdrawnKept r t) : WithdrawnKept r (if c then s else t) := by
  split
  · exact h
  · exact k

theorem each {α : Type} {f : State → α → State} (hf : ∀ s x, WithdrawnKept s (f s x)) : ∀ (xs : List α) (s : State), WithdrawnKept s (s.each xs f)
  | [], s => refl s
  | x :: xs, s => (hf s x).trans (each hf xs (f s x))

theorem modBough (s : State) (b : Nat) {f : Bough → Bough} (hf : ∀ x : Bough, (f x).withdrawn = x.withdrawn) : WithdrawnKept s (s.modBough b f) := by
  refine ⟨(State.modBough_moves (.refl [.boughs] s) rfl).canon, fun c i => ?_⟩
  by_cases h : i = b
  · subst h
    rw [bough_modBough_self c]
    exact hf _
  · rw [bough_modBough_ne c h]

end WithdrawnKept

theorem startRun_withdrawnKept (s : State) (b : Nat) : WithdrawnKept s (s.startRun b) := by
  unfold State.startRun
  refine .trans ?_ (.modBough _ b fun _ => rfl)
  exact ⟨fun k => ⟨k.parts, k.rings, k.counters, k.calls, k.customers,
    Tbl.wf_mapVals (Tbl.rising_map (fun _ => by dsimp only; split <;> rfl) (Tbl.rising_of_wf k.tiles)), k.boughs, k.calSave, k.links, k.mem⟩,
    fun _ _ => rfl⟩

theorem requestRun_withdrawnKept (s : State) (b : Nat) : WithdrawnKept s (s.requestRun b) := by
  unfold State.requestRun
  extract_lets x
  exact .ite (.refl s) (.ite (.modBough s b fun _ => rfl) (startRun_withdrawnKept s b))

theorem coldBough_withdrawnKept (s : State) (b : Nat) :
    WithdrawnKept s ((s.modBough b fun x => { x with coldCal := true, calTemp := none }).driftTargets b) := by
  refine .trans ?_ (.of_moves (l := [.tiles]) (State.driftTargets_moves (.refl _ _) rfl) (by decide))
  exact .modBough s b fun _ => rfl

theorem coldTiles_withdrawnKept {s t : State} (f : Tile → Tile) (h : WithdrawnKept s t) (hc : s.Canonical → State.Canonical { t with tiles := Tbl.mapVals {} f t.tiles }) :
    WithdrawnKept s { t with tiles := Tbl.mapVals {} f t.tiles } := ⟨hc, h.boughs⟩

theorem coldCal_withdrawnKept (s : State) : WithdrawnKept s s.coldCal := by
  have hm : Moves [.tiles, .boughs] s s.coldCal := State.coldCal_moves (.refl _ s) rfl
  exact coldTiles_withdrawnKept _ (.each coldBough_withdrawnKept _ s) hm.canon

theorem arraysStart_withdrawnKept (s : State) : WithdrawnKept s s.arraysStart := by
  refine (coldCal_withdrawnKept s).trans (.each (fun u (b : Nat) => ?_) _ _)
  exact .trans (.modBough u b (f := fun x => { x with ref := if x.ref = .cold then .warming u.now else x.ref }) fun _ => rfl)
    (requestRun_withdrawnKept _ b)

theorem slateStep_withdrawnKept (s : State) : WithdrawnKept s s.slateStep := by
  unfold State.slateStep
  extract_lets n
  have h1 : WithdrawnKept s (s.stepEnds n) :=
    .of_moves (State.stepEnds_moves (.refl [.boot, .regs, .rings, .counters, .jobs, .sec, .out] s) rfl) (by decide)
  exact .ite (h1.trans (.ite (arraysStart_withdrawnKept _) (.refl _))) (.refl s)

/-- The permanent fault of a unit that is not the last of its kind (R321, R322). -/
def State.faultNoted (s : State) (u : SlateUnit) : State :=
  (s.count (Ctr.faultsPermanent (slateScope u).2.1 (slateScope u).2.2.1)).modDaily fun d => { d with permanent := d.permanent + 1 }

theorem lastUnit_congr {s t : State} (hb : t.boughs = s.boughs) (hp : t.faults.withdrawnParts = s.faults.withdrawnParts) (u : SlateUnit) :
    t.lastUnit u = s.lastUnit u := by
  have hw : ∀ k, (t.bough k).withdrawn = (s.bough k).withdrawn := fun k => by rw [bough_congr hb]
  unfold State.lastUnit
  simp only [hw, hp]

/-- The fault that a unit's second failure in a row is. -/
def slateFault (u : SlateUnit) : FaultInfo := { operation := 5, detector := 4, outcome := 0, part := (State.slateScope u).2.2.2 }

theorem unitFails_bough {s : State} {b : Nat} (hl : s.lastUnit (.bough b) = false) :
    s.unitFails (.bough b) = (s.faultNoted (.bough b)).withdrawBough b (slateFault (.bough b)) := by
  unfold State.unitFails
  extract_lets x i s1 last s2
  have hlast : last = false := (lastUnit_congr (s := s) (t := s1) rfl rfl _).trans hl
  exact if_neg (ne_of_eq_of_ne hlast Bool.false_ne_true)

theorem unitFails_part {s : State} {u : SlateUnit} (hl : s.lastUnit u = false) (hu : ∀ b, u ≠ .bough b) :
    s.unitFails u = (s.faultNoted u).withdrawPart u (slateFault u) := by
  unfold State.unitFails
  extract_lets x i s1 last s2
  have hlast : last = false := (lastUnit_congr (s := s) (t := s1) rfl rfl _).trans hl
  have hne : ¬ last = true := ne_of_eq_of_ne hlast Bool.false_ne_true
  rw [if_neg hne]
  cases u with
  | bough b => exact absurd rfl (hu b)
  | pipe e p => exact if_neg hne
  | lane l => exact if_neg hne
  | graft => cases hl
  | matte => cases hl
  | conversion => cases hl

theorem withdrawBough_withdraws {s : State} (c : s.Canonical) (b : Nat) (i : FaultInfo) : ((s.withdrawBough b i).bough b).withdrawn = true := by
  unfold State.withdrawBough
  extract_lets n s1 s2 s3 mats s4
  have h1 : Moves [.rings, .counters, .faults, .sec, .out] s s1 := State.fault_moves (.refl _ s) rfl
  have h2 : (s2.bough b).withdrawn = true := by
    unfold s2
    rw [bough_modBough_self (h1.canon c)]
  have h3 : s3.boughs = s2.boughs := rfl
  clear_value s2 s3
  have h4 : Moves [.weights] s3 s4 := State.modWeights_moves (.refl _ s3) rfl
  rw [bough_congr ((State.event_moves (.refl [.rings, .counters, .sec, .out] s4) rfl).frame .boughs (by decide)),
    bough_congr ((h4.frame .boughs (by decide)).trans h3), h2]

/-- A bough that is withdrawn stays so while takes settle and the start goes on. -/
theorem withdrawBough_stays {s : State} (c : s.Canonical) (b : Nat) (i : FaultInfo) :
    ((s.withdrawBough b i).settle.slateStep.bough b).withdrawn = true := by
  have hw : Moves [.rings, .counters, .tiles, .boughs, .prods, .weights, .faults, .sec, .out] s (s.withdrawBough b i) :=
    State.withdrawBough_moves (.refl _ s) rfl
  have hkept := (WithdrawnKept.of_cal (settle_calKept (s.withdrawBough b i))).trans (slateStep_withdrawnKept _)
  rw [hkept.boughs (hw.canon c) b]
  exact withdrawBough_withdraws c b i

theorem withdrawPart_withdraws (s : State) (u : SlateUnit) (i : FaultInfo) :
    ((State.slateScope u).2.2.1, (State.slateScope u).2.2.2) ∈ (s.withdrawPart u i).faults.withdrawnParts := by
  unfold State.withdrawPart
  extract_lets x s1
  rw [(State.event_moves (.refl [.rings, .counters, .sec, .out] _) rfl).frame .faults (by decide)]
  exact List.mem_append_right _ List.mem_cons_self

theorem slate_acts {u : SlateUnit} {digest : BitVec 64} {s : State} (c : s.Canonical) (hdue : s.slateDue u = true)
    (hb : s.boughTested u = false) :
    ∃ t, exec (.slate u digest) s = .next t ∧
      (digest = s.slateAnswer u → t.slate u = { s.slate u with
        number := ((s.slate u).number + 1) % 64, startedAt := s.now, failedOnce := false, passedAt := s.now, overdue := false,
        doneThisStart := true }) ∧
      (digest ≠ s.slateAnswer u → (s.slate u).failedOnce = false → t.slate u = { s.slate u with
        startedAt := s.now, failedOnce := true, overdue := false }) ∧
      (digest ≠ s.slateAnswer u → (s.slate u).failedOnce = true → s.lastUnit u = false →
        (∀ b, u = .bough b → (t.bough b).withdrawn = true) ∧
        (∀ e p, u = .pipe e p → (e + 1, p) ∈ t.faults.withdrawnParts) ∧ ∀ l, u = .lane l → (0, l) ∈ t.faults.withdrawnParts) := by
  have hcount : Moves [.counters, .faults] s (s.slateCounted u) := State.modDaily_moves (State.count_moves (.refl _ s) rfl) rfl
  have hslate : (s.slateCounted u).slate u = s.slate u := rfl
  have htested : (s.slateCounted u).boughTested u = false := (boughTested_congr rfl u).trans hb
  refine ⟨s.slateDone u digest, when_true hdue, fun hd => ?_, fun hd hf => ?_, fun hd hf hl => ?_⟩
  · rw [slateDone_eq, if_pos hd, (slateStep_slatesKept _).slate, slatePasses_slate htested]
    rfl
  · rw [slateDone_eq, if_neg hd, (slateStep_slatesKept _).slate, slateFails_first (hslate ▸ hf), slateFailed_slate (hslate ▸ hf)]
    rfl
  · have hfm := slateFailed_moves (s.slateCounted u) u
    have hlast : ((s.slateCounted u).slateFailed u).lastUnit u = false :=
      ((lastUnit_congr (hfm.frame .boughs (by decide)) (slateFailed_parts _ u) u).trans (lastUnit_congr rfl rfl u)).trans hl
    have hpart : (∀ b, u ≠ .bough b) → ((State.slateScope u).2.2.1, (State.slateScope u).2.2.2) ∈ (s.slateDone u digest).faults.withdrawnParts := fun hu => by
      rw [slateDone_eq, if_neg hd, (slateStep_slatesKept _).parts, slateFails_part (hslate ▸ hf) hu, unitFails_part hlast hu]
      exact withdrawPart_withdraws _ u _
    refine ⟨?_, ?_, ?_⟩
    · rintro b rfl
      rw [slateDone_eq, if_neg hd, slateFails_bough (hslate ▸ hf) htested, unitFails_bough hlast]
      have hnoted : Moves [.counters, .faults] _ (((s.slateCounted (.bough b)).slateFailed (.bough b)).faultNoted (.bough b)) :=
        State.modDaily_moves (State.count_moves (.refl _ _) rfl) rfl
      have cn := hnoted.canon (hfm.canon (hcount.canon c))
      exact withdrawBough_stays cn b _
    · rintro e p rfl
      exact hpart nofun
    · rintro l rfl
      exact hpart nofun

/-! ### Late slates and dailies (R312, R326) -/

theorem slateOverdue_acts {u : SlateUnit} {s : State} (hdue : s.slateDue u = true) (ho : (s.slate u).overdue = false)
    (ht : (s.slate u).startedAt + 2 ^ 31 ≤ s.now) :
    ∃ t, exec (.slateOverdue u) s = .next t ∧ SameBut [.faults] s t ∧ t.slate u = { s.slate u with overdue := true, withheld := 0 } := by
  refine ⟨s.modSlate u fun t => { t with overdue := true, withheld := 0 }, when_true ?_, ?_, ?_⟩
  · rw [hdue, ho, decide_eq_true ht]
    rfl
  · exact (State.modSlate_moves (.refl [.faults] s) rfl).frame
  · exact slate_modSlate fun he => nomatch (congrArg Slate.overdue he : true = false)

theorem daily_acts {s : State} (ht : s.ticking = true) (ha : s.awake = true) (hw : s.faults.daily.written < s.now / 2 ^ 32) :
    ∃ t, exec .daily s = .next t ∧ t.faults = { s.faults with daily := { written := s.now / 2 ^ 32 } } := by
  refine ⟨s.dailyRecord, when_true ?_, ?_⟩
  · rw [ht, ha, decide_eq_true hw]
    rfl
  unfold State.dailyRecord
  extract_lets d temp s1
  have h1 : Moves [.rings, .counters, .sec, .out] s s1 := State.event_moves (.refl _ s) rfl
  have hf : s1.faults = s.faults := h1.frame .faults (by decide)
  have hn : s1.now = s.now := congrArg BitVec.toNat (h1.frame .tick (by decide))
  show { s1.faults with daily := { written := s1.now / 2 ^ 32 } } = _
  rw [hf, hn]

/-- Settles O60: a repeat by what its classification leaves of the tiles and of the daily account, a slate by what follows its own effect.
That a late slate's count of withheld grants starts again is the model's reading (log 182), as is that the column which a repeat folds or
places is repeated (log 125). -/
theorem faultsAreClassified : Obligations.FaultsAreClassified := by
  unfold Obligations.FaultsAreClassified
  exact ⟨fun _ _ _ _ c hr hd hs hp => repeat_acts c hr hd hs hp, fun _ _ _ c hd hb => slate_acts c hd hb,
    fun _ _ hd ho ht => slateOverdue_acts hd ho ht, fun _ ht ha hw => daily_acts ht ha hw⟩

end Sys2Proof.Machine

/-! PROOFS. The live firmware cut-over: its drain, the switch of the image, the end with what was held (R380, R382). -/

namespace Sys2Proof.Machine

/-! ### What is restored leaves the security unit (R86, R87) -/

theorem each_secKept {α : Type} {f : State → α → State} (hf : ∀ s x, SecKept s (f s x)) : ∀ (xs : List α) (s : State), SecKept s (s.each xs f)
  | [], _ => .of_eq rfl
  | x :: xs, s => (hf s x).trans (each_secKept hf xs (f s x))

theorem SecKept.quiet {r s t : State} (h : SecKept r s) (k : Moves secQuiet s t) : SecKept r t := h.trans (.of_moves k)

section
variable (s : State)

theorem tilesNext_secKept (ok : Nat → Bool) : SecKept s (s.tilesNext ok) := (tilesNext_calKept s ok).sec

theorem workEvent_secKept (w : WorkRef) (matrix code : Nat) (u : UnitField) (b : Bytes) : SecKept s (s.workEvent w matrix code u b) := event_secKept s _

theorem saveLost_secKept (e : Entry) : SecKept s (s.saveLost e) :=
  (SecKept.of_moves (State.count_moves (.refl _ s) rfl)).trans (event_secKept _ _)

theorem mismatch_secKept (p : Prod) (bad : List (Nat × Bool × Int)) : SecKept s (s.mismatch p bad) := by
  unfold State.mismatch
  split
  · exact .of_eq rfl
  · extract_lets worst s1 s2 r
    have h1 : SecKept s s1 := .of_moves (State.modFaults_moves (State.count_moves (.refl _ s) rfl) rfl)
    have h2 : SecKept s s2 := h1.trans (workEvent_secKept s1 _ _ _ _ _)
    exact (h2.trans (suspectProd_calKept s2 _).sec).quiet (State.queueRepeat_moves (.refl _ _) rfl)

theorem lastPhase_secKept (i : Nat) : SecKept s (s.lastPhase i) := by
  unfold State.lastPhase
  split
  · exact .of_eq rfl
  · next p _ =>
    extract_lets s1 r s2 s3 s4 s5
    have h1 : SecKept s s1 := workEvent_secKept s _ _ _ _ _
    have h2 : SecKept s s2 := .ite (.of_eq rfl) ((h1.trans (suspectProd_calKept s1 _).sec).quiet (State.queueRepeat_moves (.refl _ _) rfl))
    clear_value s2
    have h3 : SecKept s s3 := by
      unfold s3
      split
      · exact h2
      · refine .ite ?_ ?_
        · exact h2.quiet (State.modStep_moves (State.modBough_moves (.refl _ s2) rfl) rfl)
        · exact h2.quiet (State.modProd_moves (State.count_moves (.refl _ s2) rfl) rfl)
    clear_value s3
    have h4 : SecKept s s4 := .ite (h3.trans (mismatch_secKept s3 p _)) h3
    exact .ite h4 (h4.quiet (State.holdTiles_moves (State.modProd_moves (.refl _ s4) rfl) rfl))

theorem enqueueProd_secKept (p : Prod) : SecKept s (s.enqueueProd p) := by
  unfold State.enqueueProd
  refine .ite (lastPhase_secKept s _) ?_
  extract_lets s1
  have h1 : SecKept s s1 := by
    unfold s1
    split
    · exact .of_moves (State.count_moves (.refl _ s) rfl)
    · exact .ite (.of_moves (State.count_moves (.refl _ s) rfl)) (.of_eq rfl)
    · exact .of_eq rfl
  exact (h1.quiet (State.modTile_moves (.refl _ s1) rfl)).trans (tileNext_calKept _ _).sec

theorem requestWith_secKept (r : ProductReq) (fresh : Bool) : SecKept s (s.requestWith r fresh) := by
  unfold State.requestWith
  extract_lets late
  clear_value late
  split
  · split
    · exact .of_eq rfl
    · exact .of_eq rfl
  · unfold State.issueWith
    split
    · extract_lets d mode p s1 s2 s3
      have h1 : SecKept s s1 := .of_eq rfl
      have h2 : SecKept s s2 := .ite (h1.quiet (State.countIssue_moves (.refl _ s1) rfl)) h1
      have h3 : SecKept s s3 := .ite h2 (h2.quiet (State.useUnit_moves (.refl _ s2) rfl))
      exact h3.trans (enqueueProd_secKept s3 p)
    · exact .of_eq rfl

theorem restartStep_secKept (c n : Nat) (wait : Bool) : SecKept s (s.restartStep c n wait) := by
  unfold State.restartStep
  extract_lets mine ids s1
  have h1 : SecKept s s1 := .of_eq rfl
  exact (h1.trans (forget_booked s1 mine).sec).quiet (State.modStep_moves (State.unqueue_moves (.refl _ _) rfl) rfl)

theorem stepGone_secKept (c n : Nat) : SecKept s (s.stepGone c n) := by
  unfold State.stepGone
  extract_lets mine ids s1
  have h1 : SecKept s s1 := .of_eq rfl
  exact ((h1.trans (forget_booked s1 mine).sec).quiet (State.unqueue_moves (.refl _ _) rfl)).trans (settle_calKept _).sec

theorem restState_secKept (c : Nat) : SecKept s (s.restState c) := by
  unfold State.restState
  extract_lets e
  refine .ite (.ite (.ite (endCall_booked s c _ _).sec ?_) ?_) (.of_eq rfl)
  · exact .of_moves (State.modCall_moves (State.count_moves (.refl _ s) rfl) rfl)
  · exact .of_moves (State.modCall_moves (.refl _ s) rfl)

theorem draftsDone_secKept (x : Step) : SecKept s (s.draftsDone x) := by
  unfold State.draftsDone
  extract_lets e marks s1
  have h1 : SecKept s s1 := .of_moves ((Moves.refl _ s).ite (State.send_moves (.refl _ s) rfl))
  exact (h1.trans (stepGone_secKept s1 _ _)).trans (restState_secKept _ _)

theorem draftToken_secKept (x : Step) (v : List F32) : SecKept s (s.draftToken x v) := by
  unfold State.draftToken
  extract_lets e m al tok q s1
  have h1 : SecKept s s1 := .of_moves (State.modCall_moves (.refl _ s) rfl)
  exact .ite (draftsDone_secKept s x) (.ite h1 (h1.trans (draftsDone_secKept s1 x)))

theorem deliver_secKept (h : Handoff) (m : Mat) : SecKept s (s.deliver h m) := by
  unfold State.deliver
  extract_lets w s1 back s2
  have h2 : SecKept s s2 := .ite (.of_eq rfl) (.of_eq rfl)
  have hmove : ∀ {u : State}, SecKept s u → SecKept s (u.moveStep w.call w.step) := fun hu => hu.quiet (State.moveStep_moves (.refl _ _) rfl)
  split
  · refine hmove ?_
    split
    · exact h2.quiet (State.relayBack_moves (.refl _ s2) rfl)
    · exact h2
  · extract_lets s3 s4
    have h3 : SecKept s s3 := .ite (h2.quiet (State.relayOut_moves (State.countBlocks_moves (.refl _ s2) rfl) rfl)) h2
    have h4 : SecKept s s4 := by
      unfold s4
      split
      · exact .ite (h3.quiet (State.modStep_moves (.refl _ s3) rfl)) h3
      · exact .ite (h3.quiet (State.modStep_moves (.refl _ s3) rfl)) h3
    exact .ite (h4.trans (draftToken_secKept s4 _ _)) (hmove h4)
  · exact hmove h2

theorem restoreVector_secKept (c : Nat) (v : Saved) : SecKept s (s.restoreVector c v) := by
  unfold State.restoreVector
  extract_lets k
  split
  · exact .of_eq rfl
  · refine .ite (each_secKept (fun u i => ?_) _ s) (deliver_secKept s _ _)
    exact .ite (requestWith_secKept u _ _) (.of_eq rfl)

theorem restoreCall_secKept (c : Nat) : SecKept s (s.restoreCall c) := by
  unfold State.restoreCall
  extract_lets e lost s1 stale s2 rows s3 s4
  have h1 : SecKept s s1 := .ite (.of_eq rfl) (.of_moves (State.draw_moves (.refl _ s) rfl))
  have h2 : SecKept s s2 := h1.trans (each_secKept (fun u (n : Nat) => (restartStep_secKept u c n false).quiet (State.count_moves (.refl _ _) rfl)) stale s1)
  have h3 : SecKept s s3 := h2.quiet (State.undiscard_moves (State.dropSaves_moves (.refl _ s2) rfl) rfl)
  clear_value s3
  have h4 : SecKept s s4 := h3.trans (.of_eq rfl)
  refine .ite ((h1.trans (saveLost_secKept s1 e)).trans (endCall_booked _ c _ _).sec) (.ite (h1.trans (endCall_booked s1 c _ _).sec) ?_)
  exact h4.trans (each_secKept (fun u v => restoreVector_secKept u c v) _ s4)

theorem restoreAll_secKept : SecKept s s.restoreAll := each_secKept (fun u (c : Nat) => restoreCall_secKept u c) _ s

theorem restoreAll_workKept : WorkKept s s.restoreAll := .each (fun u (c : Nat) => restoreCall_workKept u c) _ s

end

/-! ### The switch point (R382) -/

theorem switchPoint_acts {s : State} (h : s.switchDue = true) :
    ∃ t, exec .switchPoint s = .next t ∧ ∃ d ∈ t.drains, d.scope = .all ∧ d.why = .switchPoint ∧ d.start = s.now := by
  have hm : Moves [.counters, .calls, .tiles, .boughs, .prods, .xferWaits, .links, .out] s (s.withdraw .all .switchPoint) :=
    State.withdraw_moves (.refl _ s) rfl
  refine ⟨s.startDrain .all .switchPoint, when_true h, ?_⟩
  unfold State.startDrain
  exact ⟨_, List.mem_append_right _ List.mem_cons_self, rfl, rfl, congrArg BitVec.toNat (hm.frame .tick (by decide))⟩

theorem modSec_answers (s : State) (f : Tbl (BitVec 64) → Tbl (BitVec 64)) :
    (s.modSec fun x => { x with answers := f x.answers }).sec = { s.sec with answers := f s.sec.answers } := rfl

theorem installTables_sec (s : State) (digest : Bytes) : ∃ a, (s.installTables digest).sec = { s.sec with answers := a } := by
  unfold State.installTables
  extract_lets s1
  exact ⟨_, modSec_answers s1 fun t => (List.range 384).foldl (fun t k => Tbl.set 0 k (Config.slateAnswer digest (k / 64) (k % 64)) t) t⟩

theorem runImage_runs (s : State) (slot : Nat) (b : Bytes) :
    (s.runImage slot b).sec.runSlot = slot ∧ (s.runImage slot b).sec.runDigest = Shake.digest32 b ∧ (s.runImage slot b).boot.dogServed = false := by
  unfold State.runImage
  extract_lets dg s1
  obtain ⟨a, ha⟩ := installTables_sec s1 dg
  refine ⟨?_, ?_, rfl⟩
  · exact congrArg Sec.runSlot ha
  · exact congrArg Sec.runDigest ha

/-- The image that runs from the switch point on. -/
theorem switchImage_switches {s : State} {c : Cutover} (h : s.sec.cutover = some c) :
    s.switchImage.sec.runSlot = c.slot ∧ s.switchImage.sec.runDigest = Shake.digest32 (Tbl.get ({} : FwSlot) c.slot s.sec.slots).bytes ∧
      s.switchImage.boot.dogServed = false ∧ s.switchImage.sec.cutover = some { c with switched := true, switchTick := s.now } := by
  have hm : Moves [.boot, .power, .sec] s (s.runImage c.slot (Tbl.get ({} : FwSlot) c.slot s.sec.slots).bytes) := State.runImage_moves (.refl _ s) rfl
  have hn : (s.runImage c.slot (Tbl.get ({} : FwSlot) c.slot s.sec.slots).bytes).now = s.now := congrArg BitVec.toNat (hm.frame .tick (by decide))
  obtain ⟨hslot, hdigest, hdog⟩ := runImage_runs s c.slot (Tbl.get ({} : FwSlot) c.slot s.sec.slots).bytes
  unfold State.switchImage
  rw [h]
  dsimp only
  rw [← hn]
  generalize s.runImage c.slot (Tbl.get ({} : FwSlot) c.slot s.sec.slots).bytes = v at hslot hdigest hdog
  split
  · exact ⟨hslot, hdigest, hdog, rfl⟩
  · exact ⟨hslot, hdigest, hdog, rfl⟩

/-- What runs after the switch point is what the switch has made of the image. -/
theorem drainComplete_switches {c : Cutover} {d : Drain} {s : State} (hc : s.sec.cutover = some c) (hd : s.drains.find? s.drainReady = some d)
    (hwhy : d.why = .switchPoint) :
    ∃ t, exec .drainComplete s = .next t ∧ t.sec.runSlot = c.slot ∧
      t.sec.runDigest = Shake.digest32 (Tbl.get ({} : FwSlot) c.slot s.sec.slots).bytes ∧ t.boot.dogServed = false ∧
      t.sec.cutover = some { c with switched := true, switchTick := s.now } := by
  have hexec : exec .drainComplete s = .next (s.drainDone d) := by
    show execDrainComplete s = _
    rw [execDrainComplete, hd]
  refine ⟨_, hexec, ?_⟩
  unfold State.drainDone
  extract_lets s1 s2 s3
  have h1 : Moves [.counters, .calls, .tiles, .boughs, .prods, .xferWaits, .links, .out] s s1 := State.withdraw_moves (.refl _ s) rfl
  have hu : Moves [.counters, .calls, .canopy, .links, .out] s2 (s3.saveScope d.scope) :=
    State.saveScope_moves (State.levelMax_moves (State.count_moves (.refl _ s2) rfl) rfl) rfl
  have hsec : (s3.saveScope d.scope).sec = s.sec := (hu.frame .sec (by decide)).trans (h1.frame .sec (by decide))
  have hnow : (s3.saveScope d.scope).now = s.now := congrArg BitVec.toNat ((hu.frame .tick (by decide)).trans (h1.frame .tick (by decide)))
  generalize s3.saveScope d.scope = u at hsec hnow
  rw [hwhy]
  have hsw := switchImage_switches (s := u) (hsec ▸ hc)
  rw [hsec, hnow] at hsw
  have hrows : (u.afterDrain .switchPoint).resumeRows.sec = u.switchImage.restoreAll.sec := rfl
  have hwork : WorkKept u.switchImage.restoreAll (u.afterDrain .switchPoint).resumeRows := .of_eq rfl rfl
  have hlast : SecKept u.switchImage (((u.afterDrain .switchPoint).resumeRows).tilesNext fun _ => true) :=
    ((restoreAll_secKept u.switchImage).trans (.of_eq hrows)).trans (tilesNext_secKept _ _)
  have hboot : WorkKept u.switchImage (((u.afterDrain .switchPoint).resumeRows).tilesNext fun _ => true) :=
    ((restoreAll_workKept u.switchImage).trans hwork).trans (tilesNext_workKept _ _)
  rw [hlast, hboot.boot]
  exact hsw

/-! ### The end of a cut-over (R382 step 5) -/

/-- The event ring takes `n` records more. -/
structure EqOpen (n : Nat) (s : State) : Prop where
  canon : s.Canonical
  inside : s.isolated = false
  enabled : (s.ring .eq).enabled = true
  failed : (s.ring .eq).failed = none
  lost : (s.ring .eq).lost = 0
  space : n ≤ (s.ring .eq).space

/-- A ring after one record: its producer is one on, and what bounds it is as it was. -/
structure Ring.PutOne (g h : Ring) : Prop where
  pos : h.pos = g.pos + 1
  exp : h.exp = g.exp
  count : h.count = g.count
  enabled : h.enabled = g.enabled
  failed : h.failed = g.failed
  lost : h.lost = g.lost

theorem Ring.PutOne.space {g h : Ring} (k : g.PutOne h) {n : Nat} (hn : n + 1 ≤ g.space) : n ≤ h.space := by
  have hsize : 2 ^ g.exp.toNat ≤ 2 ^ 31 := Nat.pow_le_pow_right (by decide) (by have := g.exp.isLt; omega)
  have hstep : h.pos - h.count = (g.pos - g.count) + 1 := by
    rw [k.pos, k.count]
    ring
  unfold Ring.space Ring.size at hn ⊢
  have hone : (1 : BitVec 32).toNat = 1 := rfl
  rw [k.exp, hstep, BitVec.toNat_add, hone, Nat.mod_eq_of_lt (by omega)]
  omega

theorem EqOpen.put {n : Nat} {s t : State} (h : EqOpen (n + 1) s) (hc : t.Canonical) (hl : t.links = s.links) (hr : (s.ring .eq).PutOne (t.ring .eq)) :
    EqOpen n t where
  canon := hc
  inside := by
    have hi := h.inside
    rw [State.isolated, State.link, hl]
    exact hi
  enabled := hr.enabled.trans h.enabled
  failed := hr.failed.trans h.failed
  lost := hr.lost.trans h.lost
  space := hr.space h.space

theorem recordsOn_record (s : State) (r : RingId) (slot : Nat) (phase : Bool) (rec : Rec) :
    (s.emit (.record r slot phase rec)).recordsOn r = s.recordsOn r ++ [rec] := by
  unfold State.recordsOn State.emit
  rw [List.filterMap_append]
  exact congrArg _ (by simp)

theorem recordsOn_irq (s : State) (r : RingId) (n : Nat) : (s.emit (.irq n)).recordsOn r = s.recordsOn r := by
  unfold State.recordsOn State.emit
  rw [List.filterMap_append]
  exact List.append_nil _

/-- What a record written to an outbound ring leaves of the ring, and of the records on it. -/
theorem putRecord_one {s : State} (c : s.Canonical) (r : RingId) {w : Waiting} (hw : w.frees = none) :
    (s.ring r).PutOne ((s.putRecord r w).ring r) ∧ (s.putRecord r w).recordsOn r = s.recordsOn r ++ [w.record] := by
  have hmod : ∀ (u : State) (f : Ring → Ring), u.Canonical → (u.modRing r f).Canonical := fun u f cu =>
    (State.modRing_moves (.refl [.rings] u) rfl).canon cu
  unfold State.putRecord
  rw [hw]
  extract_lets g s1 s2 s3
  have c1 : s1.Canonical := (State.emit_moves (.refl [.out] s) rfl).canon c
  have hr1 : s1.recordsOn r = s.recordsOn r ++ [w.record] := recordsOn_record s r _ _ _
  have c2 : s2.Canonical := hmod s1 _ c1
  have hg2 : g.PutOne (s2.ring r) := by
    have he : s2.ring r = { s1.ring r with pos := (s1.ring r).pos + 1, last := some w } := ring_modRing_self c1 r _
    rw [he]
    exact ⟨rfl, rfl, rfl, rfl, rfl, rfl⟩
  have hr2 : s2.recordsOn r = s.recordsOn r ++ [w.record] := hr1
  clear_value s2
  have c3 : s3.Canonical := hmod s2 _ c2
  have hg3 : g.PutOne (s3.ring r) := by
    have he := ring_modRing_self c2 r fun g => { g with
      pendingCount := g.pendingCount + 1, pendingTick := if g.pendingCount = 0 then s2.now else g.pendingTick, timer := g.coalWindow }
    rw [show s3.ring r = _ from he]
    exact ⟨hg2.pos, hg2.exp, hg2.count, hg2.enabled, hg2.failed, hg2.lost⟩
  have hr3 : s3.recordsOn r = s.recordsOn r ++ [w.record] := hr2
  clear_value s3
  split
  · exact ⟨hg2, hr2⟩
  · split
    · have c4 : (s3.emit (.irq (s3.vector r))).Canonical := (State.emit_moves (.refl [.out] s3) rfl).canon c3
      refine ⟨?_, (recordsOn_irq s3 r _).trans hr3⟩
      have he := ring_modRing_self c4 r fun g => { g with pendingCount := 0 }
      rw [show (s3.interrupt r).ring r = _ from he]
      exact ⟨hg3.pos, hg3.exp, hg3.count, hg3.enabled, hg3.failed, hg3.lost⟩
    · exact ⟨hg3, hr3⟩

/-- A record goes at once to an event ring with room. -/
theorem EqOpen.write {n : Nat} {s : State} (h : EqOpen (n + 1) s) {w : Waiting} (hw : w.frees = none) :
    EqOpen n (s.writeRecord .eq w) ∧ (s.writeRecord .eq w).recordsOn .eq = s.recordsOn .eq ++ [w.record] := by
  have heq : s.writeRecord .eq w = s.putRecord .eq w := by
    have hheld : s.eventsHeld .eq = false := by
      rw [State.eventsHeld, h.enabled]
      rfl
    have hfull : (s.ring .eq).full = false := by
      rw [Ring.full, h.failed, decide_eq_false (by have := h.space; omega)]
      rfl
    unfold State.writeRecord
    extract_lets g
    rw [if_neg (by rw [hheld, h.inside]; decide), if_neg (by rw [h.enabled]; decide), if_pos rfl,
      if_neg (by rw [hfull, h.lost]; decide)]
  have hm : Moves [.rings, .counters, .calls, .out] s (s.putRecord .eq w) := State.putRecord_moves (.refl _ s) rfl
  obtain ⟨hr, hrec⟩ := putRecord_one h.canon .eq hw
  rw [heq]
  exact ⟨h.put (hm.canon h.canon) (hm.frame .links (by decide)) hr, hrec⟩

/-- An event as it is written while no cut-over holds events back. -/
def State.eventWaiting (s : State) (e : EventRec) : Waiting := { record := .event { e with tick := s.now }, premium := false, quiet := false, frees := none }

theorem event_written {s : State} (h : s.sec.cutover = none) (e : EventRec) : s.event e = s.writeRecord .eq (s.eventWaiting e) := by
  unfold State.event
  rw [h]
  rfl

/-- Events that have been held are written in their order. -/
def State.heldWritten (s : State) (es : List EventRec) : State :=
  s.each es fun s e => s.writeRecord .eq { record := .event e, premium := false, quiet := false, frees := none }

theorem heldWritten_moves (s : State) (es : List EventRec) : Moves [.rings, .counters, .calls, .out] s (s.heldWritten es) :=
  (Moves.refl _ s).each fun _ _ hu => State.writeRecord_moves hu rfl

theorem EqOpen.heldWritten {n : Nat} : ∀ {es : List EventRec} {s : State}, EqOpen (es.length + n) s →
    EqOpen n (s.heldWritten es) ∧ (s.heldWritten es).recordsOn .eq = s.recordsOn .eq ++ es.map Rec.event
  | [], s, h => ⟨Nat.zero_add n ▸ h, (List.append_nil _).symm⟩
  | e :: es, s, h => by
    have h' : EqOpen (es.length + n + 1) s := by
      rw [List.length_cons] at h
      rwa [Nat.add_right_comm] at h
    obtain ⟨h1, hr1⟩ := h'.write (w := { record := .event e, premium := false, quiet := false, frees := none }) rfl
    obtain ⟨h2, hr2⟩ := EqOpen.heldWritten h1
    refine ⟨h2, hr2.trans ?_⟩
    rw [hr1, List.append_assoc]
    rfl

/-- The completion of a management descriptor goes to the event ring. -/
theorem EqOpen.complete {n : Nat} {s : State} (h : EqOpen (n + 1) s) {j : Job} (hj : answerRing j.ring = .eq) :
    EqOpen n (s.complete j .ok) ∧ (s.complete j .ok).recordsOn .eq = s.recordsOn .eq ++ [s.answerOf j .ok 0 0] := by
  have h' : EqOpen (n + 1) { s with jobs := s.jobs.erase j } :=
    ⟨⟨h.canon.parts, h.canon.rings, h.canon.counters, h.canon.calls, h.canon.customers, h.canon.tiles, h.canon.boughs, h.canon.calSave,
      h.canon.links, h.canon.mem⟩, h.inside, h.enabled, h.failed, h.lost, h.space⟩
  obtain ⟨ring, pos, tag, opcode, quiet, premium⟩ := j
  cases ring with
  | sq p k => cases hj
  | _ => exact h'.write rfl

/-- With room for them the held events, the completion and FW_CUTOVER_DONE stand on the event ring in this order. -/
theorem cutoverDone_records {c : Cutover} {s : State} (h : EqOpen (s.sec.heldEvents.length + 2) s) (hj : answerRing c.job.ring = .eq) :
    (s.cutoverDone c).recordsOn .eq = s.recordsOn .eq ++ s.sec.heldEvents.map Rec.event ++
      [s.answerOf c.job .ok 0 0, .event {
        code := 0x1202, tick := s.now
        own := own [(40, 1, c.slot), (44, 4, s.sec.runSvn), (48, 8, s.now - c.switchTick)] }] := by
  unfold State.cutoverDone
  extract_lets held s1 s2
  have h1 : EqOpen (held.length + 2) s1 := ⟨(State.modSec_moves (.refl [.sec] s) rfl).canon h.canon, h.inside, h.enabled, h.failed, h.lost, h.space⟩
  have hm : Moves [.rings, .counters, .calls, .out] s1 s2 := heldWritten_moves s1 held
  obtain ⟨h2, hr2⟩ : EqOpen 2 s2 ∧ s2.recordsOn .eq = s1.recordsOn .eq ++ held.map Rec.event := h1.heldWritten
  have hsec : s2.sec = s1.sec := hm.frame .sec (by decide)
  have htick : s2.tick = s.tick := hm.frame .tick (by decide)
  have hnow : s2.now = s.now := congrArg BitVec.toNat htick
  obtain ⟨h3, hr3⟩ := h2.complete hj
  have hc : Moves [.rings, .counters, .jobs, .out] s2 (s2.complete c.job .ok) := State.complete_moves (.refl _ s2) rfl
  have hnone : (s2.complete c.job .ok).sec.cutover = none := by
    rw [hc.frame .sec (by decide), hsec]
    rfl
  have hnow3 : (s2.complete c.job .ok).now = s.now := (congrArg BitVec.toNat (hc.frame .tick (by decide))).trans hnow
  have hsvn : s2.sec.runSvn = s.sec.runSvn := by
    rw [hsec]
    rfl
  rw [event_written hnone, (h3.write rfl).2, hr3, hr2, answerOf_congr htick, State.eventWaiting, hnow3, hsvn, hnow]
  simp only [List.append_assoc]
  rfl

theorem cutoverDone_acts {c : Cutover} {s : State} (k : s.Canonical) (hc : s.sec.cutover = some c) (hs : c.switched = true) :
    ∃ t, exec .fwCutoverDone s = .next t ∧ t.sec.cutover = none ∧ t.sec.heldEvents = [] ∧
      Delivered s t (answerRing c.job.ring) (s.answerOf c.job .ok 0 0) ∧
      (answerRing c.job.ring = .eq → s.isolated = false → (s.ring .eq).enabled = true → (s.ring .eq).failed = none →
        (s.ring .eq).lost = 0 → s.sec.heldEvents.length + 2 ≤ (s.ring .eq).space →
        t.recordsOn .eq = s.recordsOn .eq ++ s.sec.heldEvents.map Rec.event ++
          [s.answerOf c.job .ok 0 0, .event {
            code := 0x1202, tick := s.now
            own := own [(40, 1, c.slot), (44, 4, s.sec.runSvn), (48, 8, s.now - c.switchTick)] }]) := by
  have hexec : exec .fwCutoverDone s = .next (s.cutoverDone c) := by
    show execFwCutoverDone s = _
    rw [execFwCutoverDone, hc]
    exact when_true hs
  refine ⟨_, hexec, ?_⟩
  rw [← and_assoc, ← and_assoc]
  refine ⟨?_, fun hj hi he hf hl hsp => cutoverDone_records ⟨k, hi, he, hf, hl, hsp⟩ hj⟩
  unfold State.cutoverDone
  extract_lets held s1 s2
  have h1 : Moves [.sec] s s1 := State.modSec_moves (.refl _ s) rfl
  have hm : Moves [.rings, .counters, .calls, .out] s1 s2 := heldWritten_moves s1 held
  have hd : Delivered s (s2.complete c.job .ok) (answerRing c.job.ring) (s.answerOf c.job .ok 0 0) :=
    .of_moves k ((h1.mono (by decide)).trans (hm.mono (by decide))) c.job .ok
  have hcm : Moves [.rings, .counters, .jobs, .out] s2 (s2.complete c.job .ok) := State.complete_moves (.refl _ s2) rfl
  have hsec : (s2.complete c.job .ok).sec = s1.sec := (hcm.frame .sec (by decide)).trans (hm.frame .sec (by decide))
  have hnone : (s2.complete c.job .ok).sec.cutover = none := by
    rw [hsec]
    rfl
  have hlast : ∀ e, ((s2.complete c.job .ok).event e).sec = s1.sec := fun e => by
    rw [event_written hnone, (State.writeRecord_moves (.refl [.rings, .counters, .calls, .out] _) rfl).frame .sec (by decide), hsec]
  refine ⟨?_, hd.sampleKept (hcm.canon (hm.canon (h1.canon k))) (event_sampleKept _ _)⟩
  rw [hlast]
  exact ⟨rfl, rfl⟩

/-- Settles O49: the switch by what the restored calls leave of the security unit and of the start, the end by the event ring's records one by
one. -/
theorem firmwareCutsOver : Obligations.FirmwareCutsOver := by
  unfold Obligations.FirmwareCutsOver
  exact ⟨fun _ h => switchPoint_acts h, fun _ _ _ hc hd _ hwhy => drainComplete_switches hc hd hwhy, fun _ _ k hc hs => cutoverDone_acts k hc hs⟩

end Sys2Proof.Machine
